-- ==== Sys2Proof/Word.lean ====
section
/-! DEFINITION. The word types of the machine and their plainest arithmetic. -/

namespace Sys2Proof

/-- A 64-bit word: a scalar register, an address, a control register (00 R5). -/
abbrev Word := BitVec 64

/-- One byte of memory or of a register store. -/
abbrev Byte := BitVec 8

/-- One 64-byte row of a register store, an accumulator bank or a memory line (07 R179). -/
abbrev Row := BitVec 512

/-- A core of the package, 0 to 2,047 (00 R6). -/
abbrev CoreId := Fin 2048

/-- A context of a core: 0 to 3 run strands, 4 is the handler (02 R27). -/
abbrev CtxId := Fin 5

/-- A hamlet of the package, 0 to 255 (00 R6). -/
abbrev HamletId := Fin 256

end Sys2Proof
end

