-- ==== Sys2Proof/Syntax.lean ====
section
/-! DEFINITION. The instructions: one constructor for each row of the opcode table. A constructor that stands for
an encoded instruction carries its operand fields (`Ops`) and its decoded function field; a constructor that stands
for a step of the part itself (a row without an encoding) carries the numbers that say where the step happens. -/

namespace Sys2Proof

/-- Integer types of the scalar opcodes, code T of R176: the constructors stand in the order of their codes. -/
inductive ITy where
  | i64 | i32 | i16 | i8 | n64 | n32 | n16 | n8
  deriving DecidableEq, Repr

/-- Float types of the scalar opcodes, code F of R176, in the order of their codes. -/
inductive FTy where
  | f64 | f32 | f16 | bf16
  deriving DecidableEq, Repr

/-- Element type codes of R176 that name a type. -/
inductive ETy where
  | i8 | i16 | i32 | i64 | n8 | n16 | n32 | n64 | f16 | bf16 | f32 | f64 | i4 | q
  deriving DecidableEq, Repr

/-- Relations of CMP (R204), in the order of their codes. -/
inductive Cc where
  | eq | ne | lt | ge | ltu | geu | tst
  deriving DecidableEq, Repr

/-- Operations of BITS (R206), in the order of their codes. -/
inductive BitsFn where
  | pop | clz | ctz | brev | bswap
  deriving DecidableEq, Repr

/-- Forms of FFMA and VFMA (R208), in the order of their codes. -/
inductive FmaFn where
  | fma | ms | nm | nms
  deriving DecidableEq, Repr

/-- Relations of FCMP (R209), in the order of their codes. -/
inductive FRel where
  | eq | lt | le | un
  deriving DecidableEq, Repr

/-- Operations of PSET (R215), in the order of their codes. -/
inductive PFn where
  | and | or | xor | andn | mov | get
  deriving DecidableEq, Repr

/-- Access types of LD (R216), in the order of their codes. -/
inductive LdTy where
  | n8 | n16 | n32 | n64 | i8 | i16 | i32 | pair
  deriving DecidableEq, Repr

/-- Access types of ST (R216), in the order of their codes. -/
inductive StTy where
  | n8 | n16 | n32 | n64 | pair
  deriving DecidableEq, Repr

/-- Destinations of PREF (R221), in the order of their codes. -/
inductive PrefTo where
  | l1 | home | win
  deriving DecidableEq, Repr

/-- Scopes (R146), in the order of their codes. -/
inductive Scope where
  | core | hamlet | pkg | sys
  deriving DecidableEq, Repr

/-- Kinds of FENCE (R225), in the order of their codes. -/
inductive FenceKind where
  | acq | rel | ar | sc
  deriving DecidableEq, Repr

/-- Operations of AMO and RED (R229), in the order of their codes. -/
inductive AmoFn where
  | swap | add | and | or | xor | min | max | minu | maxu | add32 | swap32 | fadd32 | fadd64
  deriving DecidableEq, Repr

/-- Forms of CAS (R230), in the order of their codes. -/
inductive CasFn where
  | d8 | n32 | pair
  deriving DecidableEq, Repr

/-- Operations of VLOGIC (R245), in the order of their codes. -/
inductive VlogicFn where
  | and | or | xor | andn | shl | shr | sra | rot
  deriving DecidableEq, Repr

/-- Relations of VCMP (R246), in the order of their codes. -/
inductive VRel where
  | eq | ne | lt | le | un
  deriving DecidableEq, Repr

/-- Forms of VPERM (R248), in the order of their codes. -/
inductive PermFn where
  | idx | rotl | ilo | ihi
  deriving DecidableEq, Repr

/-- Operations of VRED (R250), in the order of their codes. -/
inductive RedFn where
  | sum | min | max
  deriving DecidableEq, Repr

/-- Functions of VMATH (R254), in the order of their codes. -/
inductive MathFn where
  | exp2 | log2 | rcp | rsqrt | sinpi | cospi | tanh | sigm
  deriving DecidableEq, Repr

/-- Modes of MMUL and MSPB (R262), in the order of their codes. -/
inductive MulMode where
  | fuse14 | fuse22 | fuse41 | split
  deriving DecidableEq, Repr

/-- Scopes of BAR (R325): codes 1, 2 and 3. -/
inductive BarScope where
  | hamlet | die | pkg
  deriving DecidableEq, Repr

/-- Forms of COPY (R332), in the order of their codes. -/
inductive CopyForm where
  | plain | cvt | red | twod
  deriving DecidableEq, Repr

/-- The control fields of an extended base word and of extension word 2 (R170, R171). -/
structure Ctl where
  hold  : BitVec 3
  cw    : BitVec 2
  pol   : BitVec 2
  ord   : BitVec 2
  scope : BitVec 2
  rm    : BitVec 3
  pneg  : Bool
  pred  : BitVec 3
  kmask : BitVec 8
  xf    : BitVec 8
  deriving DecidableEq, Repr

/-- The operand part of an instruction (R168 to R175): the switch marker, the controls of an extended form, the
literal of a literal form, and the operand fields, which hold 6 bits in a one-word form and 16 in an extended one. -/
structure Ops where
  sw  : Bool
  ext : Option Ctl
  lit : Option Word
  d   : BitVec 16
  a   : BitVec 16
  b   : BitVec 16
  deriving DecidableEq, Repr

/-- What an atomic unit applies at a home (R229, R230): the operation, its operand, and for CAS the value compared. -/
inductive AtomicFn where
  | amo (f : AmoFn) (x : Word)
  | cas (f : CasFn) (cmp new : BitVec 128)
  deriving DecidableEq, Repr

/-- What a message asks of its home (R160, R164, R219, R220, R224, R233, R341), or brings back. Bytes are listed with
their offsets from the address. -/
inductive Body where
  /-- a store of bytes, with the full bits it sets -/
  | store (pa : Nat) (bytes : List (Nat × Byte)) (setFull : Bool)
  /-- STSYNC's data and full bit -/
  | stsync (pa : Nat) (v : Word)
  | feset (pa : Nat) (full : Bool)
  | zline (pa : Nat)
  /-- a load of `n` bytes, sign-extended to 64 bits or not -/
  | load (pa : Nat) (n : Nat) (sx : Bool)
  | ldsync (pa : Nat) (cons : Bool)
  | atomic (pa : Nat) (f : AtomicFn)
  /-- an active message: destination address as sent, entry, payload -/
  | am (pa : Nat) (dst entry : Word) (payload : Row)
  /-- a packet of a copy or a system channel that converts or adds (R330), applied whole: its format field, and its elements as they travel, each with the scale
  word of its block -/
  | wired (pa : Nat) (fmt : BitVec 48) (xs : List (Nat × BitVec 32))
  /-- a stage of a system channel that adds, held whole by the receiving interface and applied together (19 R439): as `wired`, in runs
  of elements, each at an offset from the address -/
  | staged (pa : Nat) (fmt : BitVec 48) (runs : List (Nat × List (Nat × BitVec 32)))
  /-- the answer of a remote operation, with the flags that it raises -/
  | reply (data : Row) (flags : BitVec 6)
  /-- the answer of an LDSYNC whose word is empty: its home has noted the sender (02 R47, 03 R81) -/
  | empty
  /-- the answer of a read that met a listed line (19 R450) -/
  | lost (pa : Nat)
  /-- a word of another package has become full: a wake for a hamlet that its home has noted (03 R81) -/
  | wake (pa : Nat)
  /-- a copy or a channel has met a listed source: its destination line is listed at its home (17 R416, 19 R450) -/
  | listed (pa : Nat)
  /-- a count decrement of a donated strand's end (R34) -/
  | decrement (handle : BitVec 32) (root : Bool)
  /-- a donated frame with its tile bytes, for queue `q` (R51) -/
  | donation (q : BitVec 4) (frame : Row) (tiles : List (Nat × Byte))
  /-- a donated frame that its receiver cannot run (R444) -/
  | donReturn (frame : Row) (missing : BitVec 32)
  deriving DecidableEq, Repr

/-- The packages a packet is between (R367, R453). -/
structure Route where
  src : BitVec 20
  dst : BitVec 20
  deriving DecidableEq, Repr

/-- What boot finds (R373, R374): a failing step (0 for none), the module's limits, the trained capacities, the
LPDDR6 channels left out, whether the service firmware verifies, and the entries that root firmware writes to every context and core (R407). -/
structure BootReport where
  failStep : Nat
  gmin : BitVec 12
  hmax : BitVec 5
  rampstep : BitVec 8
  lpddr : Nat
  lpddrOut : List (BitVec 16)
  cxl : List (BitVec 32)
  service : Bool
  trapvec : Word
  reevevec : Word
  deriving DecidableEq, Repr

/-- What a hamlet's temperature sensor says (R26): it lies at least 5 °C below the throttle threshold, below the threshold by
less than that, or above it. -/
inductive Heat where
  | cool | warm | hot
  deriving DecidableEq, Repr

/-- One constructor for each row of the opcode table, in the table's order. `imm` is function bit [3] (R199); `t`, `f`,
`cc`, `r` and `m` are the function field's type, operation, relation or mode (R177). The rows from `escalationRun` on
are steps of the part and its surroundings: `c` is a core, `k` one of its contexts, `h` a hamlet. -/
inductive Instr where
  | add (o : Ops) (imm : Bool) (t : ITy)
  | sub (o : Ops) (imm : Bool) (t : ITy)
  | mul (o : Ops) (imm : Bool) (t : ITy)
  | mulh (o : Ops) (imm : Bool) (t : ITy)
  | div (o : Ops) (imm : Bool) (t : ITy)
  | rem (o : Ops) (imm : Bool) (t : ITy)
  | and (o : Ops) (imm : Bool) (t : ITy)
  | or (o : Ops) (imm : Bool) (t : ITy)
  | xor (o : Ops) (imm : Bool) (t : ITy)
  | andn (o : Ops) (imm : Bool) (t : ITy)
  | shl (o : Ops) (imm : Bool) (t : ITy)
  | shr (o : Ops) (imm : Bool) (t : ITy)
  | rot (o : Ops) (imm : Bool) (t : ITy)
  | min (o : Ops) (imm : Bool) (t : ITy)
  | max (o : Ops) (imm : Bool) (t : ITy)
  | cmp (o : Ops) (imm : Bool) (cc : Cc)
  | sel (o : Ops) (imm : Bool) (p : BitVec 3)
  | bits (o : Ops) (f : BitsFn)
  | movi (o : Ops)
  | lea (o : Ops) (imm : Bool) (k : BitVec 3)
  | fadd (o : Ops) (t : FTy) (sub : Bool)
  | fmul (o : Ops) (t : FTy)
  | ffma (o : Ops) (t : FTy) (f : FmaFn)
  | fdiv (o : Ops) (t : FTy) (sqrt : Bool)
  | fminmax (o : Ops) (t : FTy) (max : Bool)
  | fcmp (o : Ops) (t : FTy) (r : FRel)
  | br (o : Ops) (onFalse : Bool)
  | jmp (o : Ops)
  | jmpReg (o : Ops)
  | call (o : Ops)
  | callReg (o : Ops)
  | ret (o : Ops)
  | rep (o : Ops)
  | safept (o : Ops)
  | pset (o : Ops) (f : PFn)
  | ld (o : Ops) (t : LdTy)
  | st (o : Ops) (t : StTy)
  | ldsync (o : Ops) (cons : Bool)
  | stsync (o : Ops)
  | feset (o : Ops) (full : Bool)
  | pref (o : Ops) (dst : PrefTo)
  | stash (o : Ops) (drop : Bool)
  | flush (o : Ops) (inv : Bool)
  | fence (o : Ops) (scope : Scope) (kind : FenceKind)
  | waitc (o : Ops) (n : BitVec 2)
  | waita (o : Ops) (eq : Bool)
  | zline (o : Ops)
  | amo (o : Ops) (f : AmoFn)
  | cas (o : Ops) (f : CasFn)
  | red (o : Ops) (f : AmoFn)
  | amsend (o : Ops) (rep : Bool)
  | amret (o : Ops)
  | vld (o : Ops) (strided : Bool)
  | vst (o : Ops) (strided : Bool)
  | vgather (o : Ops)
  | vscatter (o : Ops)
  | vadd (o : Ops) (sub : Bool)
  | vmul (o : Ops)
  | vfma (o : Ops) (f : FmaFn)
  | vdiv (o : Ops) (sqrt : Bool)
  | vminmax (o : Ops) (max : Bool)
  | vlogic (o : Ops) (f : VlogicFn)
  | vcmp (o : Ops) (r : VRel)
  | vsel (o : Ops)
  | vperm (o : Ops) (f : PermFn)
  | vbcast (o : Ops) (lane : Bool)
  | vred (o : Ops) (f : RedFn)
  | vscan (o : Ops)
  | vdot (o : Ops)
  | vpackm (o : Ops)
  | vexpm (o : Ops)
  | vmath (o : Ops) (f : MathFn)
  | cvt (o : Ops) (t : ETy)
  | cvtn (o : Ops) (t : ETy)
  | cvtw (o : Ops) (t : ETy)
  | mfmt (o : Ops)
  | mfmtRel (o : Ops)
  | mmul (o : Ops) (m : MulMode)
  | mspb (o : Ops) (m : MulMode)
  | join (o : Ops)
  | jdrain (o : Ops)
  | jdrainResume (o : Ops)
  | aswap (o : Ops)
  | azero (o : Ops)
  | azeroVis (o : Ops)
  | mwait (o : Ops)
  | gangLead (o : Ops)
  | gangFollow (o : Ops)
  | gangLeave (o : Ops)
  | mscl (o : Ops) (b : Bool)
  | spawn (o : Ops)
  | spawnr (o : Ops)
  | split (o : Ops)
  | popf (o : Ops)
  | sync (o : Ops)
  | publish (o : Ops)
  | tend (o : Ops)
  | donate (o : Ops)
  | fnew (o : Ops)
  | fnewCount (o : Ops)
  | fput (o : Ops)
  | fget (o : Ops)
  | fgetPoll (o : Ops)
  | frel (o : Ops)
  | bar (o : Ops) (n : BitVec 2) (scope : BarScope)
  | quiesce (o : Ops)
  | chsend (o : Ops) (ch : BitVec 4)
  | chrecv (o : Ops) (ch : BitVec 4)
  | copy (o : Ops) (f : CopyForm)
  | waitk (o : Ops) (any : Bool)
  | tokq (o : Ops)
  | redgrpOpen (o : Ops)
  | redgrpClose (o : Ops)
  | redpkt (o : Ops)
  | mcast (o : Ops)
  | nop (o : Ops)
  | trap (o : Ops)
  | rte (o : Ops)
  | sysrd (o : Ops)
  | syswr (o : Ops)
  | tlbinv (o : Ops)
  | tlbinvSpace (o : Ops)
  | tlbinvAll (o : Ops)
  | yield (o : Ops)
  | escalationRun (c : CoreId)
  | disposition (c : CoreId) (k : CtxId) (word : Word)
  | variableResultCommit (c : CoreId) (k : CtxId)
  | frameTake (c : CoreId) (k : CtxId)
  | rootFrameWalk (l : Nat)
  | stealRequest (c : CoreId)
  | stealGrant (c : CoreId)
  | stolenFrameArrival (c : CoreId)
  | gleanerBackoff (c : CoreId)
  | spillReadback (c : CoreId) (dq : Nat)
  | parkSaveDone (c : CoreId) (k : CtxId)
  | wakeMessage (h : HamletId)
  | overflowLinkWait (c : CoreId) (k : CtxId)
  | preemptRequest (c : CoreId) (k : CtxId) (area : BitVec 57)
  | saveDeadlineExpiry (c : CoreId) (k : CtxId)
  | saveComplete (c : CoreId) (k : CtxId)
  | gangClaim (c : CoreId) (k : CtxId)
  | barrierRootArrival (h : HamletId) (scope : BarScope) (n : BitVec 2)
  | hamletBarrierRelease (h : HamletId) (n : BitVec 2)
  | pealPhaseRelease (h : HamletId) (scope : BarScope) (n : BitVec 2)
  | detectionSweep (l : Nat)
  | donatedDecrement (handle : BitVec 32) (root : Bool)
  | statusWordArrival (l : Nat)
  | completionRecordWrite
  | activeMessageRun (c : CoreId)
  | handlerOverrun (c : CoreId)
  | remoteAccessService (c : CoreId)
  | replyArrival (id : Nat)
  | postedStoreApply (id : Nat)
  | atomicApply (id : Nat)
  | postedAck (id : Nat)
  | waitaRetry (c : CoreId) (k : CtxId)
  | lineEviction (h : HamletId) (line : Nat)
  | scaleWindowFill (line : Nat)
  | scaleWindowEvict (line : Nat)
  | tableWalk (c : CoreId) (k : CtxId) (va : Word) (write : Bool)
  | faultRecordWrite
  | fqheadWrite (v : BitVec 32)
  | storeReplay (c : CoreId)
  | pageMoveBounce (id : Nat)
  | backInvalidation (line : Nat)
  | copyComplete (c : CoreId) (k : CtxId) (tok : BitVec 3)
  | copyFault (c : CoreId) (k : CtxId) (tok : BitVec 3)
  | copyResumePacket (c : CoreId) (k : CtxId) (tok : BitVec 3) (word : Word)
  | millCommandCurrent (c : CoreId)
  | millCommandComplete (c : CoreId)
  | drainInterrupted (c : CoreId)
  | rampRise (c : CoreId)
  | rampFall (c : CoreId)
  | reductionPacketArrival (c : CoreId) (g : BitVec 6)
  | doneNoticeArrival (c : CoreId) (g : BitVec 6)
  | reductionTimeout (c : CoreId) (g : BitVec 6)
  | reductionFlushArrival (c : CoreId) (g : BitVec 6)
  | mcastDelivery (id : Nat)
  | donationArrival (src : BitVec 20) (q : BitVec 4) (frame : Row) (tiles : List (Nat × Byte))
  | donatedFrameReturn (frame : Row) (missing : BitVec 32)
  | scrubPass (code : BitVec 4) (unit : BitVec 16) (addr : BitVec 46) (uncorrectable : Bool)
  | correctedRecordCoalesce (code : BitVec 4) (unit : BitVec 16) (count : BitVec 16)
  | operatingPointChange (h : HamletId) (p : BitVec 2)
  | throttleThreshold (h : HamletId) (now : Heat)
  | throttleStep (h : HamletId)
  | thermalShutdown (h : HamletId)
  | reducedSupply (ceiling : BitVec 2)
  | railTrip
  | linkReplay (port : Fin 12)
  | linkRetrain (port : Fin 12) (lanes : Nat)
  | portDown (port : Fin 12)
  | packagePacketArrival (route : Route) (seq : BitVec 32) (core : CoreId) (k : CtxId) (tag : Nat) (body : Body)
  | endToEndResend (dst : BitVec 20)
  | destinationUnreachable (dst : BitVec 20)
  | laneRepair (die : Fin 4)
  | bridgeFailure (die : Fin 4)
  | cxlTimeout (port : Fin 8) (id : Nat)
  | cxlRetrain (port : Fin 8) (ok : Bool)
  | syscopyRecord (ch : Fin 16)
  | syscopyStageAck (ch : Fin 16)
  | powerGood (r : BootReport)
  | serviceMailboxTimeout
  | query (slot : Row)
  | launch (slot : Row)
  | abort (slot : Row)
  | pagerdone (slot : Row)
  | range (slot : Row)
  | cxlshare (slot : Row)
  | linkcfg (slot : Row)
  | syscopy (slot : Row)
  | tlbinvCommand (slot : Row)
  | donq (slot : Row)
  | attest (slot : Row)
  | svcload (slot : Row)
  | reset (slot : Row)
  | pealfloor (slot : Row)
  | unknownCommand (slot : Row)
  | unassignedEncoding (base : BitVec 32)
  | pageMove (old new : BitVec 34)
  | resumptionRelease (c : CoreId) (k : CtxId)
  | managementPortMessage
  deriving DecidableEq, Repr

end Sys2Proof
end

