-- ==== Sys2Proof/Machine/Shape.lean ====
section
/-! DEFINITION. The shape of each encoded instruction: what its operand fields are, what its controls may hold, and
which values of its fields the decoder refuses (18 R421, R422). Also the numbering of the function fields (07 R177). -/

namespace Sys2Proof.Machine

/-- Codes of the integer types (R176). -/
def ityCode : ITy → BitVec 3
  | .i64 => 0 | .i32 => 1 | .i16 => 2 | .i8 => 3 | .n64 => 4 | .n32 => 5 | .n16 => 6 | .n8 => 7

/-- The integer type a code of R176 names. -/
def ityOf (c : BitVec 3) : ITy :=
  if c = 0 then .i64 else if c = 1 then .i32 else if c = 2 then .i16 else if c = 3 then .i8
  else if c = 4 then .n64 else if c = 5 then .n32 else if c = 6 then .n16 else .n8

/-- Codes of the float types (R176). -/
def ftyCode : FTy → BitVec 2
  | .f64 => 0 | .f32 => 1 | .f16 => 2 | .bf16 => 3

/-- The float type a code of R176 names. -/
def ftyOf (c : BitVec 2) : FTy :=
  if c = 0 then .f64 else if c = 1 then .f32 else if c = 2 then .f16 else .bf16

/-- Element type codes (R176). -/
def etyCode : ETy → BitVec 4
  | .i8 => 1 | .i16 => 2 | .i32 => 3 | .i64 => 4 | .n8 => 5 | .n16 => 6 | .n32 => 7 | .n64 => 8
  | .f16 => 9 | .bf16 => 10 | .f32 => 11 | .f64 => 12 | .i4 => 13 | .q => 14

/-- The element type a code of R176 names; none for 0x0 and the reserved 0xF. -/
def etyOf (c : BitVec 4) : Option ETy :=
  if c = 1 then some .i8 else if c = 2 then some .i16 else if c = 3 then some .i32 else if c = 4 then some .i64
  else if c = 5 then some .n8 else if c = 6 then some .n16 else if c = 7 then some .n32 else if c = 8 then some .n64
  else if c = 9 then some .f16 else if c = 10 then some .bf16 else if c = 11 then some .f32
  else if c = 12 then some .f64 else if c = 13 then some .i4 else if c = 14 then some .q else none

/-- The entry of a list that a code numbers, with the codes beyond the list unassigned (R178). -/
def nth {α : Type} (l : List α) (c : BitVec 4) : Option α := l[c.toNat]?

def ccList : List Cc := [.eq, .ne, .lt, .ge, .ltu, .geu, .tst]
def bitsList : List BitsFn := [.pop, .clz, .ctz, .brev, .bswap]
def fmaList : List FmaFn := [.fma, .ms, .nm, .nms]
def frelList : List FRel := [.eq, .lt, .le, .un]
def pfnList : List PFn := [.and, .or, .xor, .andn, .mov, .get]
def ldList : List LdTy := [.n8, .n16, .n32, .n64, .i8, .i16, .i32, .pair]
def stList : List StTy := [.n8, .n16, .n32, .n64, .pair]
def prefList : List PrefTo := [.l1, .home, .win]
def scopeList : List Scope := [.core, .hamlet, .pkg, .sys]
def fenceList : List FenceKind := [.acq, .rel, .ar, .sc]
def amoList : List AmoFn :=
  [.swap, .add, .and, .or, .xor, .min, .max, .minu, .maxu, .add32, .swap32, .fadd32, .fadd64]
def casList : List CasFn := [.d8, .n32, .pair]
def vlogicList : List VlogicFn := [.and, .or, .xor, .andn, .shl, .shr, .sra, .rot]
def vrelList : List VRel := [.eq, .ne, .lt, .le, .un]
def permList : List PermFn := [.idx, .rotl, .ilo, .ihi]
def redList : List RedFn := [.sum, .min, .max]
def mathList : List MathFn := [.exp2, .log2, .rcp, .rsqrt, .sinpi, .cospi, .tanh, .sigm]
def modeList : List MulMode := [.fuse14, .fuse22, .fuse41, .split]
def barList : List BarScope := [.hamlet, .die, .pkg]
def copyList : List CopyForm := [.plain, .cvt, .red, .twod]

/-- The code of an entry of a list of functions. -/
def code {α : Type} [DecidableEq α] (l : List α) (x : α) : BitVec 4 := BitVec.ofNat 4 (l.idxOf x)

/-- What an operand field holds (07 R174, 11 R288, 18 R422). -/
inductive Kind where
  /-- not used: must be zero -/
  | none
  | scalar | vector | tile | accum | pred | token
  /-- signed immediate or memory displacement, or a part of a branch offset, trap or register number -/
  | imm
  /-- 16 bytes: an even scalar number or a 16-byte-aligned address -/
  | pair
  /-- CAS with an 8-byte or 4-byte operand: sd and sd+1 -/
  | cas
  /-- CAS `.pair`: sd to sd+3 -/
  | casPair
  /-- a payload row: a scalar number that is a multiple of 8, or a 64-byte-aligned address -/
  | row
  /-- 32 bytes: a scalar number that is a multiple of 4, or a 32-byte-aligned address -/
  | quad
  /-- a channel slot: checked at stage 4 (R328, R422) -/
  | slot
  deriving DecidableEq, Repr

/-- What the decoder checks of an instruction. `srcD`: position D is read as a source. `lit`: the opcode and form
accept a literal. `rm`: greatest rounding code that the field may hold (R104). `pol`: the instruction may carry a cache
policy. `acq`, `rel`, `ar`: the orders of R147. `freeScope`: scope is read without an order. `xf`: the bits of xf that
have a meaning. `holds`: hold bits may be set. `extOnly`: no one-word form. -/
structure Shape where
  d : Kind := .none
  a : Kind := .none
  b : Kind := .none
  srcD : Bool := false
  lit : Bool := false
  rm : Nat := 0
  pol : Bool := false
  acq : Bool := false
  rel : Bool := false
  ar : Bool := false
  freeScope : Bool := false
  xf : BitVec 8 := 0
  holds : Bool := true
  extOnly : Bool := false
  deriving DecidableEq, Repr

/-- The operand b of an opcode that reads function bit [3] (R199). -/
def immKind (imm : Bool) : Kind := if imm then .imm else .scalar

/-- ADD to MAX: a literal needs the immediate bit (R199, R421). -/
def shapeAlu (imm : Bool) : Shape := { d := .scalar, a := .scalar, b := immKind imm, lit := imm }

/-- A memory instruction with the operand `d`. -/
def shapeMem (d : Kind) (srcD : Bool) : Shape :=
  { d := d, a := .scalar, b := .imm, srcD := srcD, lit := true, pol := true }

/-- An instruction of the mill or of opcodes 0x53 to 0x6F without a hold (R287, R310). -/
def shapeSys (d a b : Kind) : Shape := { d := d, a := a, b := b, holds := false }

/-- A row of vector operands, all three of them views. -/
def shapeVec (rm : Nat) : Shape := { d := .vector, a := .vector, b := .vector, rm := rm }

/-- The shape of each encoded instruction; none for a row of the table without an encoding. -/
def shape : Instr → Option Shape
  | .add _ i _ | .sub _ i _ | .mul _ i _ | .mulh _ i _ | .div _ i _ | .rem _ i _ | .and _ i _ | .or _ i _
  | .xor _ i _ | .andn _ i _ | .shl _ i _ | .shr _ i _ | .rot _ i _ | .min _ i _ | .max _ i _ => some (shapeAlu i)
  | .cmp _ i _ => some { shapeAlu i with d := .pred }
  | .sel _ i _ => some (shapeAlu i)
  | .bits _ _ => some { d := .scalar, a := .scalar }
  | .movi _ => some { d := .scalar, b := .imm, lit := true }
  | .lea _ i _ => some (shapeAlu i)
  | .fadd _ _ _ | .fmul _ _ => some { d := .scalar, a := .scalar, b := .scalar, lit := true, rm := 4 }
  | .ffma _ _ _ => some { d := .scalar, a := .scalar, b := .scalar, lit := true, rm := 4, srcD := true }
  | .fdiv _ _ sqrt =>
    some { d := .scalar, a := .scalar, b := if sqrt then .none else .scalar, lit := true, rm := 4 }
  | .fminmax _ _ _ => some { d := .scalar, a := .scalar, b := .scalar, lit := true }
  | .fcmp _ _ _ => some { d := .pred, a := .scalar, b := .scalar, lit := true }
  | .br _ _ => some { d := .imm, a := .pred, b := .imm }
  | .jmp o => some { d := if o.lit.isSome then .none else .imm, b := .imm, lit := true }
  | .jmpReg _ => some { a := .scalar }
  | .call o => some { d := .scalar, a := if o.lit.isSome then .none else .imm, b := .imm, lit := true }
  | .callReg _ => some { d := .scalar, a := .scalar }
  | .ret _ => some { a := .scalar }
  | .rep _ => some { d := .imm, a := .imm, extOnly := true }
  | .safept o => some { a := if o.lit.isSome then .none else .scalar, b := .imm, lit := true, pol := true }
  | .pset _ .mov => some { d := .pred, a := .scalar }
  | .pset _ .get => some { d := .scalar, a := .pred }
  | .pset _ _ => some { d := .pred, a := .pred, b := .pred }
  | .ld _ .pair => some { shapeMem .pair false with acq := true }
  | .ld _ _ => some { shapeMem .scalar false with acq := true }
  | .st _ .pair => some { shapeMem .pair true with rel := true }
  | .st _ _ => some { shapeMem .scalar true with rel := true }
  | .ldsync _ _ => some { shapeMem .scalar false with acq := true }
  | .stsync _ => some { shapeMem .scalar true with rel := true }
  | .feset _ _ | .pref _ _ | .stash _ _ | .flush _ _ | .zline _ => some (shapeMem .none false)
  | .fence _ _ _ | .waitc _ _ => some {}
  | .waita _ _ => some (shapeMem .scalar true)
  | .amo _ _ => some { shapeMem .scalar true with acq := true, rel := true, ar := true }
  | .cas _ .pair => some { shapeMem .casPair true with acq := true, rel := true, ar := true }
  | .cas _ _ => some { shapeMem .cas true with acq := true, rel := true, ar := true }
  | .red _ _ => some { shapeMem .scalar true with rel := true }
  | .amsend _ _ => some { d := .row, a := .scalar, b := .scalar, srcD := true, pol := true, rel := true }
  | .amret _ => some { d := .row, srcD := true, xf := 1, freeScope := true }
  | .vld _ s => some { shapeMem .vector false with b := if s then .scalar else .imm, acq := !s }
  | .vst _ s => some { shapeMem .vector true with b := if s then .scalar else .imm, rel := !s }
  | .vgather _ => some { shapeMem .vector false with b := .vector, lit := false }
  | .vscatter _ => some { shapeMem .vector true with b := .vector, lit := false }
  | .vadd _ _ | .vmul _ => some (shapeVec 4)
  | .vfma _ _ => some { shapeVec 4 with srcD := true }
  | .vdiv _ sqrt => some { shapeVec 4 with b := if sqrt then .none else .vector }
  | .vminmax _ _ | .vlogic _ _ => some (shapeVec 0)
  | .vcmp _ _ => some { shapeVec 0 with d := .pred }
  | .vsel _ => some { shapeVec 0 with xf := 0x0F }
  | .vperm _ .rotl => some { shapeVec 0 with b := .scalar }
  | .vperm _ _ => some (shapeVec 0)
  | .vbcast _ false => some { d := .vector, b := .scalar, lit := true }
  | .vbcast _ true => some { d := .vector, a := .vector, b := .imm }
  | .vred _ .sum => some { d := .scalar, a := .vector, rm := 4 }
  | .vred _ _ => some { d := .scalar, a := .vector }
  | .vscan _ => some { d := .vector, a := .vector, rm := 4 }
  | .vdot _ => some { shapeVec 4 with srcD := true }
  | .vpackm _ | .vexpm _ => some { d := .vector, a := .vector, b := .pred }
  | .vmath _ _ => some { d := .vector, a := .vector, rm := 4 }
  | .cvt _ .q => some { d := .vector, a := .vector, b := .scalar, rm := 5, xf := 0x3F }
  | .cvt _ .f16 | .cvt _ .bf16 => some { d := .vector, a := .vector, rm := 5, xf := 0x3F }
  | .cvt _ _ => some { d := .vector, a := .vector, rm := 4, xf := 0x3F }
  | .cvtn _ _ => some { d := .vector, a := .vector, b := .scalar, rm := 5, xf := 0xFF }
  | .cvtw _ _ => some { d := .vector, a := .vector, b := .scalar, rm := 4, xf := 0x3F }
  | .mfmt _ => some (shapeSys .none .scalar .none)
  | .mfmtRel _ => some (shapeSys .none .none .none)
  | .mmul o _ =>
    let xf := match o.ext with | some c => c.xf | none => 0
    some { shapeSys .accum (if xf.getLsbD 0 then .pair else .tile) (if xf.getLsbD 1 then .pair else .tile) with
      rm := 4, xf := 3 }
  | .mspb o _ =>
    let xf := match o.ext with | some c => c.xf | none => 0
    some { shapeSys .accum (if xf.getLsbD 0 then .pair else .tile) (if xf.getLsbD 1 then .pair else .tile) with
      rm := 4, extOnly := true
      xf := 3 ||| (if xf.getLsbD 0 then 0 else 0x1C) ||| (if xf.getLsbD 1 then 0 else 0xE0) }
  | .join _ => some (shapeSys .pair .pair .pair)
  | .jdrain _ | .jdrainResume _ => some (shapeSys .quad .none .none)
  | .aswap _ | .azero _ | .azeroVis _ | .mwait _ | .gangFollow _ | .gangLeave _ => some (shapeSys .none .none .none)
  | .gangLead _ => some (shapeSys .none .scalar .none)
  | .mscl _ _ => some (shapeSys .none .pair .none)
  | .spawn o =>
    some { shapeSys (if o.lit.isSome then .none else .imm) .scalar .imm with lit := true }
  | .spawnr _ => some (shapeSys .scalar .scalar .scalar)
  | .split _ | .popf _ => some (shapeSys .pair .none .none)
  | .sync _ | .publish _ | .tend _ | .quiesce _ | .nop _ | .rte _ | .yield _ => some (shapeSys .none .none .none)
  | .donate _ => some (shapeSys .scalar .scalar .none)
  | .fnew _ => some (shapeSys .scalar .none .none)
  | .fnewCount _ => some (shapeSys .scalar .scalar .none)
  | .fput _ => some { shapeSys .scalar .scalar .scalar with lit := true }
  | .fget _ => some (shapeSys .scalar .scalar .none)
  | .fgetPoll _ => some (shapeSys .pair .scalar .none)
  | .frel _ => some (shapeSys .none .scalar .none)
  | .bar _ _ _ => some (shapeSys .none .none .none)
  | .chsend _ _ | .chrecv _ _ => some (shapeSys .slot .scalar .none)
  | .copy _ f =>
    some { shapeSys .token .quad .none with
      pol := true, freeScope := true, rm := if f = .cvt then 4 else 0 }
  | .waitk _ _ => some (shapeSys .imm .imm .none)
  | .tokq _ => some (shapeSys .scalar .none .none)
  | .redgrpOpen _ | .redgrpClose _ => some (shapeSys .scalar .scalar .none)
  | .redpkt _ => some (shapeSys .row .scalar .none)
  | .mcast _ => some { shapeSys .row .scalar .scalar with pol := true }
  | .trap o => some (shapeSys .none (if o.ext.isSome then .none else .imm) .imm)
  | .sysrd o => some (shapeSys .scalar (if o.ext.isSome then .none else .imm) .imm)
  | .syswr o => some (shapeSys (if o.ext.isSome then .none else .imm) .scalar .imm)
  | .tlbinv _ | .tlbinvSpace _ => some (shapeSys .none .scalar .none)
  | .tlbinvAll _ => some (shapeSys .none .none .none)
  | _ => none

/-- An operand field of its kind: the bits that must be zero are, and the number or address is aligned (R174, R422). -/
def fieldOk (ext : Bool) (k : Kind) (x : BitVec 16) : Bool :=
  (ext || x.toNat < 64) &&
  match k, ext with
  | .none, _ => x = 0
  | .scalar, true => x &&& 7 = 0
  | .vector, false => x &&& 0x30 = 0
  | .vector, true => x &&& 0x30 = 0
  | .tile, _ => x &&& 0x38 = 0
  | .accum, _ => x &&& 0x3C = 0
  | .pred, _ | .token, _ => x.toNat < 8
  | .pair, false => x &&& 1 = 0
  | .pair, true => x &&& 15 = 0
  | .cas, false => x.toNat < 63
  | .cas, true => x &&& 7 = 0
  | .casPair, false => x &&& 1 = 0 && x.toNat ≤ 60
  | .casPair, true => x &&& 15 = 0
  | .row, false => x &&& 7 = 0
  | .row, true => x &&& 63 = 0
  | .quad, false => x &&& 3 = 0
  | .quad, true => x &&& 31 = 0
  | .scalar, false | .imm, _ | .slot, _ => true

/-- Whether a hold bit may be set for a position of this kind: the position is read from the register store. -/
def fieldHeld (k : Kind) : Bool :=
  match k with
  | .none | .pred | .token | .imm => false
  | _ => true

/-- The controls of an extended form (R171, R172, R421). -/
def ctlOk (sh : Shape) (lit : Bool) (c : Ctl) : Bool :=
  (c.pred ≠ 0 || !c.pneg)
  && c.rm.toNat ≤ sh.rm
  && (c.pol = 0 || (sh.pol && c.pol ≠ 3))
  && (c.ord = 0 || (c.ord = 1 && sh.acq) || (c.ord = 2 && sh.rel) || (c.ord = 3 && sh.ar))
  && (c.scope = 0 || c.ord ≠ 0 || (sh.freeScope && (sh.xf ≠ 1 || c.xf = 1)))
  && (!c.hold.getLsbD 0 || (sh.holds && fieldHeld sh.a))
  && (!c.hold.getLsbD 1 || (sh.holds && fieldHeld sh.b && !lit))
  && (!c.hold.getLsbD 2 || (sh.holds && fieldHeld sh.d && sh.srcD))
  && c.xf &&& ~~~ sh.xf = 0

/-- The operand part against a shape (R421). -/
def opsOk (sh : Shape) (o : Ops) : Bool :=
  let e := o.ext.isSome
  (!sh.extOnly || (e && o.lit.isNone))
  && (sh.lit || o.lit.isNone)
  && fieldOk e sh.d o.d && fieldOk e sh.a o.a && fieldOk e (if o.lit.isSome then .none else sh.b) o.b
  && (match o.ext with | none => true | some c => ctlOk sh o.lit.isSome c)

/-- The operands of an encoded instruction; of a row without an encoding, none. -/
def opsOf : Instr → Option Ops
  | .add o _ _ | .sub o _ _ | .mul o _ _ | .mulh o _ _ | .div o _ _ | .rem o _ _ | .and o _ _ | .or o _ _
  | .xor o _ _ | .andn o _ _ | .shl o _ _ | .shr o _ _ | .rot o _ _ | .min o _ _ | .max o _ _ | .cmp o _ _
  | .sel o _ _ | .bits o _ | .movi o | .lea o _ _ | .fadd o _ _ | .fmul o _ | .ffma o _ _ | .fdiv o _ _
  | .fminmax o _ _ | .fcmp o _ _ | .br o _ | .jmp o | .jmpReg o | .call o | .callReg o | .ret o | .rep o
  | .safept o | .pset o _ | .ld o _ | .st o _ | .ldsync o _ | .stsync o | .feset o _ | .pref o _ | .stash o _
  | .flush o _ | .fence o _ _ | .waitc o _ | .waita o _ | .zline o | .amo o _ | .cas o _ | .red o _ | .amsend o _
  | .amret o | .vld o _ | .vst o _ | .vgather o | .vscatter o | .vadd o _ | .vmul o | .vfma o _ | .vdiv o _
  | .vminmax o _ | .vlogic o _ | .vcmp o _ | .vsel o | .vperm o _ | .vbcast o _ | .vred o _ | .vscan o | .vdot o
  | .vpackm o | .vexpm o | .vmath o _ | .cvt o _ | .cvtn o _ | .cvtw o _ | .mfmt o | .mfmtRel o | .mmul o _
  | .mspb o _ | .join o | .jdrain o | .jdrainResume o | .aswap o | .azero o | .azeroVis o | .mwait o | .gangLead o
  | .gangFollow o | .gangLeave o | .mscl o _ | .spawn o | .spawnr o | .split o | .popf o | .sync o | .publish o
  | .tend o | .donate o | .fnew o | .fnewCount o | .fput o | .fget o | .fgetPoll o | .frel o | .bar o _ _
  | .quiesce o | .chsend o _ | .chrecv o _ | .copy o _ | .waitk o _ | .tokq o | .redgrpOpen o | .redgrpClose o
  | .redpkt o | .mcast o | .nop o | .trap o | .rte o | .sysrd o | .syswr o | .tlbinv o | .tlbinvSpace o
  | .tlbinvAll o | .yield o => some o
  | _ => none

/-- The control registers of R346 and R407 that exist. -/
def sysregListed (r : Nat) : Bool :=
  r < 0x008 || (0x010 ≤ r && r < 0x014) || (0x020 ≤ r && r < 0x023) || (0x030 ≤ r && r < 0x035)

/-- TRAP's number (R341, R342) and the register number of SYSRD and SYSWR: bits [11:6] in b and [5:0] in `low` of a
one-word form, B[11:0] of an extended one. -/
def number12 (o : Ops) (low : BitVec 16) : BitVec 16 :=
  if o.ext.isSome then o.b else (o.b <<< 6) ||| low

/-- The checks of R421 and R422 that are one instruction's own. -/
def ownOk : Instr → Bool
  | .red _ f => f ≠ .swap && f ≠ .swap32
  | .cvt _ t => t ≠ .i4
  | .cvtn _ t => t = .i8 || t = .f16 || t = .bf16 || t = .q
  | .cvtw _ t => t = .i32 || t = .i64 || t = .f32 || t = .f64
  | .rep o => o.d.toNat < 4096 && o.a &&& 0xF800 = 0
  | .trap o => o.b.toNat < 4096
  | .sysrd o => o.b.toNat < 4096 && sysregListed (number12 o o.a).toNat
  | .syswr o => o.b.toNat < 4096 && sysregListed (number12 o o.d).toNat
  | .waitk o _ => if o.ext.isSome then o.a.toNat < 256 && o.d = 0 else o.d.toNat < 4
  | _ => true

/-- The decoder accepts the instruction (R421, R422): every encoded instruction that breaks none of the checks. -/
def legal (i : Instr) : Bool :=
  match shape i, opsOf i with
  | some sh, some o => opsOk sh o && ownOk i
  | _, _ => false

end Sys2Proof.Machine
end

