-- ==== Sys2Proof/WellFormed.lean ====
section
/-! DEFINITION. The well-formed instructions: those the decoder accepts (18 R421, R422). -/

namespace Sys2Proof

/-- An encoded instruction that breaks none of the checks of R421 and R422. A row of the table without an encoding is
no instruction of a program, so no such constructor is well-formed in this sense. -/
def WellFormed (i : Instr) : Prop := Sys2Proof.Machine.legal i = true

end Sys2Proof
end

