-- ==== Sys2Proof/Decode.lean ====
section
/-! DEFINITION. The decoder and the encoder (07 R168 to R178, 18 R421, R422). -/

namespace Sys2Proof

open Machine

/-- Why a word is no instruction: every reason raises Illegal Instruction (R421). -/
inductive Reject where
  /-- fewer bytes than the length field asks for -/
  | short
  /-- an opcode or function value that R177 does not list -/
  | unassigned
  /-- a field that R421 or R422 refuses -/
  | field
  deriving DecidableEq, Repr

/-- The length code of R168, bits [1:0] of the first word. -/
def wordsOfLen (len : BitVec 2) : Nat :=
  if len = 0 then 1 else if len = 3 then 5 else 3

/-- Whether the operand fields are those of an extended form. -/
def Ops.long (o : Ops) : Bool := o.ext.isSome

/-- Number of words of an instruction with these operands. -/
def Ops.words (o : Ops) : Nat :=
  1 + (if o.ext.isSome then 2 else 0) + (if o.lit.isSome then 2 else 0)

/-- Length in bytes of an instruction with these operands (R168). -/
def Ops.bytes (o : Ops) : Nat := 4 * o.words

/-- The instruction that an opcode and a function field name (R177), with its operands. -/
def ofRaw (op : BitVec 7) (fn : BitVec 4) (o : Ops) : Option Instr :=
  let imm := fn.getLsbD 3
  let t := ityOf (fn.extractLsb' 0 3)
  let f := ftyOf (fn.extractLsb' 2 2)
  let lo2 : BitVec 4 := fn &&& 3
  let z (i : Instr) : Option Instr := if fn = 0 then some i else none
  let flag (i : Bool → Instr) : Option Instr := if fn = 0 then some (i false) else if fn = 1 then some (i true) else none
  let flag2 (i : Bool → Instr) : Option Instr :=
    if lo2 = 0 then some (i false) else if lo2 = 1 then some (i true) else none
  match op.toNat with
  | 0x00 => some (.add o imm t)
  | 0x01 => some (.sub o imm t)
  | 0x02 => some (.mul o imm t)
  | 0x03 => some (.mulh o imm t)
  | 0x04 => some (.div o imm t)
  | 0x05 => some (.rem o imm t)
  | 0x06 => some (.and o imm t)
  | 0x07 => some (.or o imm t)
  | 0x08 => some (.xor o imm t)
  | 0x09 => some (.andn o imm t)
  | 0x0A => some (.shl o imm t)
  | 0x0B => some (.shr o imm t)
  | 0x0C => some (.rot o imm t)
  | 0x0D => some (.min o imm t)
  | 0x0E => some (.max o imm t)
  | 0x0F => (nth ccList (fn &&& 7)).map (.cmp o imm)
  | 0x10 => some (.sel o imm (fn.extractLsb' 0 3))
  | 0x11 => (nth bitsList fn).map (.bits o)
  | 0x12 => z (.movi o)
  | 0x13 => some (.lea o imm (fn.extractLsb' 0 3))
  | 0x14 => flag2 (.fadd o f)
  | 0x15 => if lo2 = 0 then some (.fmul o f) else none
  | 0x16 => (nth fmaList lo2).map (.ffma o f)
  | 0x17 => flag2 (.fdiv o f)
  | 0x18 => flag2 (.fminmax o f)
  | 0x19 => (nth frelList lo2).map (.fcmp o f)
  | 0x1A => flag (.br o)
  | 0x1B => if fn = 0 then some (.jmp o) else if fn = 1 then some (.jmpReg o) else none
  | 0x1C => if fn = 0 then some (.call o) else if fn = 1 then some (.callReg o) else none
  | 0x1D => z (.ret o)
  | 0x1E => z (.rep o)
  | 0x1F => z (.safept o)
  | 0x20 => (nth pfnList fn).map (.pset o)
  | 0x21 => (nth ldList fn).map (.ld o)
  | 0x22 => (nth stList fn).map (.st o)
  | 0x23 => flag (.ldsync o)
  | 0x24 => z (.stsync o)
  | 0x25 => flag (.feset o)
  | 0x26 => (nth prefList fn).map (.pref o)
  | 0x27 => flag (.stash o)
  | 0x28 => flag (.flush o)
  | 0x29 =>
    match nth scopeList (fn >>> 2), nth fenceList lo2 with
    | some s, some k => some (.fence o s k)
    | _, _ => none
  | 0x2A => if fn.toNat < 4 then some (.waitc o (fn.extractLsb' 0 2)) else none
  | 0x2B => flag (.waita o)
  | 0x2C => z (.zline o)
  | 0x2D => (nth amoList fn).map (.amo o)
  | 0x2E => (nth casList fn).map (.cas o)
  | 0x2F => (nth amoList fn).map (.red o)
  | 0x30 => flag (.amsend o)
  | 0x31 => z (.amret o)
  | 0x32 => flag (.vld o)
  | 0x33 => flag (.vst o)
  | 0x34 => z (.vgather o)
  | 0x35 => z (.vscatter o)
  | 0x36 => flag (.vadd o)
  | 0x37 => z (.vmul o)
  | 0x38 => (nth fmaList fn).map (.vfma o)
  | 0x39 => flag (.vdiv o)
  | 0x3A => flag (.vminmax o)
  | 0x3B => (nth vlogicList fn).map (.vlogic o)
  | 0x3C => (nth vrelList fn).map (.vcmp o)
  | 0x3D => z (.vsel o)
  | 0x3E => (nth permList fn).map (.vperm o)
  | 0x3F => flag (.vbcast o)
  | 0x40 => (nth redList fn).map (.vred o)
  | 0x41 => z (.vscan o)
  | 0x42 => z (.vdot o)
  | 0x43 => z (.vpackm o)
  | 0x44 => z (.vexpm o)
  | 0x45 => (nth mathList fn).map (.vmath o)
  | 0x46 => (etyOf fn).map (.cvt o)
  | 0x47 => (etyOf fn).map (.cvtn o)
  | 0x48 => (etyOf fn).map (.cvtw o)
  | 0x49 => if fn = 0 then some (.mfmt o) else if fn = 1 then some (.mfmtRel o) else none
  | 0x4A => (nth modeList fn).map (.mmul o)
  | 0x4B => (nth modeList fn).map (.mspb o)
  | 0x4C => z (.join o)
  | 0x4D => if fn = 0 then some (.jdrain o) else if fn = 1 then some (.jdrainResume o) else none
  | 0x4E => z (.aswap o)
  | 0x4F => if fn = 0 then some (.azero o) else if fn = 1 then some (.azeroVis o) else none
  | 0x50 => z (.mwait o)
  | 0x51 =>
    if fn = 0 then some (.gangLead o) else if fn = 1 then some (.gangFollow o)
    else if fn = 2 then some (.gangLeave o) else none
  | 0x52 => flag (.mscl o)
  | 0x53 => z (.spawn o)
  | 0x54 => z (.spawnr o)
  | 0x55 => z (.split o)
  | 0x56 => z (.popf o)
  | 0x57 => z (.sync o)
  | 0x58 => z (.publish o)
  | 0x59 => z (.tend o)
  | 0x5A => z (.donate o)
  | 0x5B => if fn = 0 then some (.fnew o) else if fn = 1 then some (.fnewCount o) else none
  | 0x5C => z (.fput o)
  | 0x5D => if fn = 0 then some (.fget o) else if fn = 1 then some (.fgetPoll o) else none
  | 0x5E => z (.frel o)
  | 0x5F => if lo2 = 0 then none else (nth barList (lo2 - 1)).map (.bar o (fn.extractLsb' 2 2))
  | 0x60 => z (.quiesce o)
  | 0x61 => some (.chsend o fn)
  | 0x62 => some (.chrecv o fn)
  | 0x63 => (nth copyList fn).map (.copy o)
  | 0x64 => flag (.waitk o)
  | 0x65 => z (.tokq o)
  | 0x66 => if fn = 0 then some (.redgrpOpen o) else if fn = 1 then some (.redgrpClose o) else none
  | 0x67 => z (.redpkt o)
  | 0x68 => z (.mcast o)
  | 0x69 => z (.nop o)
  | 0x6A => z (.trap o)
  | 0x6B => z (.rte o)
  | 0x6C => z (.sysrd o)
  | 0x6D => z (.syswr o)
  | 0x6E =>
    if fn = 0 then some (.tlbinv o) else if fn = 1 then some (.tlbinvSpace o)
    else if fn = 2 then some (.tlbinvAll o) else none
  | 0x6F => z (.yield o)
  | _ => none

/-- The code of a flag that is function value 0 or 1. -/
def bit (x : Bool) : BitVec 4 := if x then 1 else 0

/-- Function field of the integer opcodes: [3] immediate, [2:0] T (R177). -/
def fnAlu (imm : Bool) (t : ITy) : BitVec 4 := bit imm <<< 3 ||| (ityCode t).setWidth 4

/-- Function field of the scalar float opcodes: [3:2] F, [1:0] the form (R177). -/
def fnF (t : FTy) (lo : BitVec 4) : BitVec 4 := (ftyCode t).setWidth 4 <<< 2 ||| lo

/-- Opcode and function field of an encoded instruction (R177). -/
def toRaw : Instr → Option (BitVec 7 × BitVec 4)
  | .add _ i t => some (0x00, fnAlu i t)
  | .sub _ i t => some (0x01, fnAlu i t)
  | .mul _ i t => some (0x02, fnAlu i t)
  | .mulh _ i t => some (0x03, fnAlu i t)
  | .div _ i t => some (0x04, fnAlu i t)
  | .rem _ i t => some (0x05, fnAlu i t)
  | .and _ i t => some (0x06, fnAlu i t)
  | .or _ i t => some (0x07, fnAlu i t)
  | .xor _ i t => some (0x08, fnAlu i t)
  | .andn _ i t => some (0x09, fnAlu i t)
  | .shl _ i t => some (0x0A, fnAlu i t)
  | .shr _ i t => some (0x0B, fnAlu i t)
  | .rot _ i t => some (0x0C, fnAlu i t)
  | .min _ i t => some (0x0D, fnAlu i t)
  | .max _ i t => some (0x0E, fnAlu i t)
  | .cmp _ i cc => some (0x0F, bit i <<< 3 ||| code ccList cc)
  | .sel _ i p => some (0x10, bit i <<< 3 ||| p.setWidth 4)
  | .bits _ f => some (0x11, code bitsList f)
  | .movi _ => some (0x12, 0)
  | .lea _ i k => some (0x13, bit i <<< 3 ||| k.setWidth 4)
  | .fadd _ t s => some (0x14, fnF t (bit s))
  | .fmul _ t => some (0x15, fnF t 0)
  | .ffma _ t f => some (0x16, fnF t (code fmaList f))
  | .fdiv _ t s => some (0x17, fnF t (bit s))
  | .fminmax _ t m => some (0x18, fnF t (bit m))
  | .fcmp _ t r => some (0x19, fnF t (code frelList r))
  | .br _ n => some (0x1A, bit n)
  | .jmp _ => some (0x1B, 0)
  | .jmpReg _ => some (0x1B, 1)
  | .call _ => some (0x1C, 0)
  | .callReg _ => some (0x1C, 1)
  | .ret _ => some (0x1D, 0)
  | .rep _ => some (0x1E, 0)
  | .safept _ => some (0x1F, 0)
  | .pset _ f => some (0x20, code pfnList f)
  | .ld _ t => some (0x21, code ldList t)
  | .st _ t => some (0x22, code stList t)
  | .ldsync _ c => some (0x23, bit c)
  | .stsync _ => some (0x24, 0)
  | .feset _ f => some (0x25, bit f)
  | .pref _ t => some (0x26, code prefList t)
  | .stash _ d => some (0x27, bit d)
  | .flush _ i => some (0x28, bit i)
  | .fence _ s k => some (0x29, code scopeList s <<< 2 ||| code fenceList k)
  | .waitc _ n => some (0x2A, n.setWidth 4)
  | .waita _ e => some (0x2B, bit e)
  | .zline _ => some (0x2C, 0)
  | .amo _ f => some (0x2D, code amoList f)
  | .cas _ f => some (0x2E, code casList f)
  | .red _ f => some (0x2F, code amoList f)
  | .amsend _ r => some (0x30, bit r)
  | .amret _ => some (0x31, 0)
  | .vld _ s => some (0x32, bit s)
  | .vst _ s => some (0x33, bit s)
  | .vgather _ => some (0x34, 0)
  | .vscatter _ => some (0x35, 0)
  | .vadd _ s => some (0x36, bit s)
  | .vmul _ => some (0x37, 0)
  | .vfma _ f => some (0x38, code fmaList f)
  | .vdiv _ s => some (0x39, bit s)
  | .vminmax _ m => some (0x3A, bit m)
  | .vlogic _ f => some (0x3B, code vlogicList f)
  | .vcmp _ r => some (0x3C, code vrelList r)
  | .vsel _ => some (0x3D, 0)
  | .vperm _ f => some (0x3E, code permList f)
  | .vbcast _ l => some (0x3F, bit l)
  | .vred _ f => some (0x40, code redList f)
  | .vscan _ => some (0x41, 0)
  | .vdot _ => some (0x42, 0)
  | .vpackm _ => some (0x43, 0)
  | .vexpm _ => some (0x44, 0)
  | .vmath _ f => some (0x45, code mathList f)
  | .cvt _ t => some (0x46, etyCode t)
  | .cvtn _ t => some (0x47, etyCode t)
  | .cvtw _ t => some (0x48, etyCode t)
  | .mfmt _ => some (0x49, 0)
  | .mfmtRel _ => some (0x49, 1)
  | .mmul _ m => some (0x4A, code modeList m)
  | .mspb _ m => some (0x4B, code modeList m)
  | .join _ => some (0x4C, 0)
  | .jdrain _ => some (0x4D, 0)
  | .jdrainResume _ => some (0x4D, 1)
  | .aswap _ => some (0x4E, 0)
  | .azero _ => some (0x4F, 0)
  | .azeroVis _ => some (0x4F, 1)
  | .mwait _ => some (0x50, 0)
  | .gangLead _ => some (0x51, 0)
  | .gangFollow _ => some (0x51, 1)
  | .gangLeave _ => some (0x51, 2)
  | .mscl _ b => some (0x52, bit b)
  | .spawn _ => some (0x53, 0)
  | .spawnr _ => some (0x54, 0)
  | .split _ => some (0x55, 0)
  | .popf _ => some (0x56, 0)
  | .sync _ => some (0x57, 0)
  | .publish _ => some (0x58, 0)
  | .tend _ => some (0x59, 0)
  | .donate _ => some (0x5A, 0)
  | .fnew _ => some (0x5B, 0)
  | .fnewCount _ => some (0x5B, 1)
  | .fput _ => some (0x5C, 0)
  | .fget _ => some (0x5D, 0)
  | .fgetPoll _ => some (0x5D, 1)
  | .frel _ => some (0x5E, 0)
  | .bar _ n s => some (0x5F, n.setWidth 4 <<< 2 ||| (code barList s + 1))
  | .quiesce _ => some (0x60, 0)
  | .chsend _ c => some (0x61, c)
  | .chrecv _ c => some (0x62, c)
  | .copy _ f => some (0x63, code copyList f)
  | .waitk _ a => some (0x64, bit a)
  | .tokq _ => some (0x65, 0)
  | .redgrpOpen _ => some (0x66, 0)
  | .redgrpClose _ => some (0x66, 1)
  | .redpkt _ => some (0x67, 0)
  | .mcast _ => some (0x68, 0)
  | .nop _ => some (0x69, 0)
  | .trap _ => some (0x6A, 0)
  | .rte _ => some (0x6B, 0)
  | .sysrd _ => some (0x6C, 0)
  | .syswr _ => some (0x6D, 0)
  | .tlbinv _ => some (0x6E, 0)
  | .tlbinvSpace _ => some (0x6E, 1)
  | .tlbinvAll _ => some (0x6E, 2)
  | .yield _ => some (0x6F, 0)
  | _ => none

/-- The controls of an extended instruction, from its base word and extension word 2 (R170). -/
def ctlOf (w e2 : BitVec 32) : Ctl where
  hold := w.extractLsb' 25 3
  cw := w.extractLsb' 23 2
  pol := w.extractLsb' 21 2
  ord := w.extractLsb' 19 2
  scope := w.extractLsb' 17 2
  rm := w.extractLsb' 14 3
  pneg := w.getLsbD 13
  pred := w.extractLsb' 10 3
  kmask := e2.extractLsb' 16 8
  xf := e2.extractLsb' 24 8

/-- The operand part of an instruction from its words (R168 to R171, R175); none where a word is missing. -/
def opsOfWords : List (BitVec 32) → Option Ops
  | [] => none
  | w :: rest =>
    let sw := w.getLsbD 2
    let short (lit : Option Word) : Ops :=
      { sw := sw, ext := none, lit := lit, d := (w.extractLsb' 10 6).setWidth 16,
        a := (w.extractLsb' 16 6).setWidth 16, b := (w.extractLsb' 22 6).setWidth 16 }
    let long (e1 e2 : BitVec 32) (lit : Option Word) : Ops :=
      { sw := sw, ext := some (ctlOf w e2), lit := lit, d := e1.extractLsb' 0 16, a := e1.extractLsb' 16 16,
        b := e2.extractLsb' 0 16 }
    if w.extractLsb' 0 2 = 0 then some (short none)
    else if w.extractLsb' 0 2 = 1 then
      match rest with
      | e1 :: e2 :: _ => some (long e1 e2 none)
      | _ => none
    else if w.extractLsb' 0 2 = 2 then
      match rest with
      | l :: h :: _ => some (short (some (h ++ l)))
      | _ => none
    else
      match rest with
      | e1 :: e2 :: l :: h :: _ => some (long e1 e2 (some (h ++ l)))
      | _ => none

/-- The instruction that starts a list of words: its fields, then the checks of R421 and R422. -/
def decodeWords (ws : List (BitVec 32)) : Except Reject Instr :=
  match ws with
  | [] => .error .short
  | w :: _ =>
    match opsOfWords ws with
    | none => .error .short
    | some o =>
      match ofRaw (w.extractLsb' 3 7) (w.extractLsb' 28 4) o with
      | none => .error .unassigned
      | some i => if legal i then .ok i else .error .field

/-- Little-endian 32-bit words of a list of bytes (00 R5, R168); bytes short of a word are dropped. -/
def wordsOfBytes : List Byte → List (BitVec 32)
  | b0 :: b1 :: b2 :: b3 :: rest => (b3 ++ b2 ++ b1 ++ b0) :: wordsOfBytes rest
  | _ => []

/-- The instruction that starts a list of bytes, and its length in bytes. -/
def decode (bytes : List Byte) : Except Reject (Instr × Nat) :=
  match decodeWords (wordsOfBytes bytes) with
  | .error e => .error e
  | .ok i => .ok (i, ((opsOf i).elim 4 Ops.bytes))

/-- The base word of an instruction (R169, R170). -/
def baseWord (op : BitVec 7) (fn : BitVec 4) (o : Ops) : BitVec 32 :=
  let len : BitVec 2 := (if o.ext.isSome then 1 else 0) ||| (if o.lit.isSome then 2 else 0)
  let mid : BitVec 18 :=
    match o.ext with
    | none => (o.b.setWidth 6 : BitVec 6) ++ (o.a.setWidth 6 : BitVec 6) ++ (o.d.setWidth 6 : BitVec 6)
    | some c => c.hold ++ c.cw ++ c.pol ++ c.ord ++ c.scope ++ c.rm ++ BitVec.ofBool c.pneg ++ c.pred
  fn ++ mid ++ op ++ BitVec.ofBool o.sw ++ len

/-- The extension and literal words of an instruction (R168, R170). -/
def tailWords (o : Ops) : List (BitVec 32) :=
  (match o.ext with
   | none => []
   | some c => [o.a ++ o.d, c.xf ++ c.kmask ++ o.b]) ++
  (match o.lit with
   | none => []
   | some l => [l.setWidth 32, (l >>> 32).setWidth 32])

/-- The words of an instruction; empty for a row of the table that has no encoding. -/
def encode (i : Instr) : List (BitVec 32) :=
  match toRaw i, opsOf i with
  | some (op, fn), some o => baseWord op fn o :: tailWords o
  | _, _ => []

/-- The bytes of a list of words, little-endian (00 R5, R168). -/
def bytesOfWords : List (BitVec 32) → List Byte
  | [] => []
  | w :: rest =>
    w.extractLsb' 0 8 :: w.extractLsb' 8 8 :: w.extractLsb' 16 8 :: w.extractLsb' 24 8 :: bytesOfWords rest

/-- The five words that the bits of `w` stand for, the first word lowest. -/
def tableWords (w : Nat) : List (BitVec 32) :=
  [BitVec.ofNat 32 w, BitVec.ofNat 32 (w >>> 32), BitVec.ofNat 32 (w >>> 64), BitVec.ofNat 32 (w >>> 96),
   BitVec.ofNat 32 (w >>> 128)]

/-- The decoder on an instruction numbered as the opcode table numbers its bits: bits above `nbits` are zero. -/
def decodeTableWord (nbits w : Nat) : Option Instr :=
  match decode (bytesOfWords (tableWords (w % 2 ^ nbits))) with
  | .ok (i, _) => some i
  | .error _ => none

end Sys2Proof
end

