-- ==== Sys2Proof/Config.lean ====
section
/-! DEFINITION. What an implementation fixes and the spec leaves open: constants without a body, so that nothing can be
proved about their values. A free value is a constant applied to a plain counter of the state, or to the data it
depends on (log entry 10). -/

namespace Sys2Proof.Config

/-- Which free entry of a future table an allocation takes, as an index into the list of free entries: the spec names
no rule (03 R45, 12 R321). Used modulo the number of free entries. -/
opaque freeEntry : Nat → Nat

/-- Which of the 16 members of a disagreeing run translates an access (05 R138). Used modulo 16. -/
opaque runMember : Nat → Nat

/-- The ROM revision of the query record (13 R358), fixed at manufacture. -/
opaque romRevision : BitVec 32

/-- SHA-384 of the ROM image (13 R372). -/
opaque romDigest : BitVec 384

/-- SHA-384 of the service firmware that the module flash holds (13 R371, R372). -/
opaque flashServiceDigest : BitVec 384

/-- The signature, r then s, of the service firmware that the module flash holds (13 R371, 20 R461). -/
opaque flashSignature : BitVec 768

/-- The Maelsor public key that verifies service firmware (13 R371): a point of the curve. -/
opaque maelsorKey : Nat × Nat

/-- The private half of the device key, derived from fuses (13 R371); it never leaves the controller. -/
opaque deviceKey : Nat

/-- The secret number of a signature of the device, by a running number (13 R372). -/
opaque signSecret : Nat → Nat

/-- The device's certificate in DER form, at most 2 KiB (13 R372). -/
opaque certificate : List Byte

/-- Whether a fused multiply-add of an infinity, a zero and a quiet NaN addend raises the invalid flag: IEEE 754 leaves it
to the implementation and the spec does not say (04 R93, 08 R208). -/
opaque fmaQuietInvalid : Bool

/-- The code that −∞ takes in a free narrow format without a sign: the spec states none (04 R96). -/
opaque negInfUnsigned : BitVec 32 → BitVec 8

/-- The block scale for a format whose largest finite value is 0, where A / V of R103 has no value (04 R103). -/
opaque scaleOfZero : BitVec 32 → BitVec 32

/-- What a receiving interface writes for an element that its destination format does not hold exactly, where R118 states no
rounding: wire code, destination code, the element's wire bits with its scale above bit 64 (04 R118, 12 R332). -/
opaque wireRound : BitVec 4 → BitVec 4 → Nat → Nat

/-- Which of the lines that are candidates leaves a full L1 or a full set of tag-only ways: the spec names no rule (05
R125, R126, R131). Used modulo the number of candidates. -/
opaque victim : Nat → Nat

/-- The set of its slice that holds a line: the spec gives no index function (05 R131). Used modulo the number of sets. -/
opaque setOf : Nat → Nat

/-- Where in first-tier memory root firmware reserves the overflow areas of a launch's hamlets: the spec does not say (19 R441).
In units of 1 MiB, used modulo the number of places. -/
opaque overflowBase : Nat

/-- The address, held in module flash, to which reports of errors are sent (20 R463). -/
opaque reportAddress : Nat

/-- A byte of a commons table whose layout the spec does not give, at an address, in a reference cycle (05 R130). -/
opaque tableByte : Nat → Word → Byte

/-- The value a retained bit of an open field holds, and any other value the spec leaves open, by a running number. -/
opaque freeWord : Nat → Word

end Sys2Proof.Config
end

