-- ==== Sys2Proof/Machine/State.lean ====
section
/-! DEFINITION. The state of one package: plain data that holds everything the spec gives the machine, and its value
after reset. Sparse tables are lists of key and value, absent keys standing for a default entry. -/

namespace Sys2Proof.Machine

/-- Why the machine stops with a fault: nothing that it models does. -/
inductive Fault where
  deriving DecidableEq, Repr

/-- Why the machine refuses a step. -/
inductive Refusal where
  /-- An instruction whose meaning is not written. Raised by `exec` only. Safe: nothing is claimed of it. -/
  | notModelled (mnemonic : String)
  deriving DecidableEq, Repr

/-- A sparse table: keys rising, absent keys at their default. -/
abbrev Map (α : Type) := List (Nat × α)

/-- Privilege levels (00 R8), coded as TRAPCAUSE `prev` codes them (12 R344). -/
inductive Priv where
  | kernel | runtime | firmware
  deriving DecidableEq, Repr

/-- States of a context (02 R28, 17 R410). -/
inductive Status where
  | idle | running | parking | saving | following | stopped
  deriving DecidableEq, Repr

/-- Part of a register-store row, of an accumulator row (rows from 256, at register-store address 0x4000) or of a
predicate (1 to 7), with the bits that a result writes. -/
inductive Target where
  | row (n : Nat)
  | pred (n : Nat)
  deriving DecidableEq, Repr

structure Cell where
  tgt : Target
  mask : Row
  data : Row
  deriving DecidableEq, Repr

/-- When a result commits (07 R189, R190): `fixed n` immediately before the n-th following issue; `var` at the end of a
switch-marker hold, once its data have returned. What is still awaited is listed: the message that brings it and the bit
of the row at which it is placed. -/
inductive Due where
  | fixed (n : Nat)
  | var (awaited : List (Nat × Nat))
  deriving DecidableEq, Repr

/-- A result not yet committed: the bits it writes and the FPSTATUS flags that it ORs in (04 R106). -/
structure Result where
  due : Due
  cells : List Cell
  flags : BitVec 6
  deriving DecidableEq, Repr

/-- A REP in force (07 R187, R188): its address, the address after its body, its numbers and its fetched body. -/
structure RepBuf where
  pc : Word
  after : Word
  passes : Nat
  stride : BitVec 16
  mask : BitVec 3
  body : List Instr
  deriving DecidableEq, Repr

/-- A frame (02 R29). `repstate` is bits [255:224] of a frame in a waiter or save record (07 R188). -/
structure Frame where
  tile : Vector (BitVec 32) 4 := Vector.replicate 4 0
  donated : Bool := false
  root : Bool := false
  originh : BitVec 32 := 0
  originpkg : BitVec 20 := 0
  arg : Word := 0
  repstate : BitVec 32 := 0
  features : BitVec 32 := 0
  parentj : BitVec 32 := 0
  synch : BitVec 32 := 0
  fp : BitVec 57 := 0
  published : Bool := false
  prio : BitVec 2 := 0
  kind : BitVec 2 := 0
  pc : BitVec 57 := 0
  deriving DecidableEq, Repr

/-- A slot of a deque (02 *Strands and deques*, 03 R71, R72): a frame or a stub with its join handle; whether it lies in
the spill area; the running number of its push; whether its frame is on its way to another package's donation queue. -/
inductive Item where
  | frame (f : Frame)
  | stub (h : BitVec 32)
  deriving DecidableEq, Repr

structure Slot where
  item : Item
  spilled : Bool
  stamp : Nat
  locked : Bool := false
  deriving DecidableEq, Repr

/-- The strand that a context runs: its header (12 R312), its frame's kind, argument and features, its deque
identifier, its launch (by its place among the running launches), the live map in force (02 R61), the mill trap and
scale records that it carries (11 R291, R299), the scopes of its tokens, and whether a Deadline Save notice is due (19 R449). `tag` names
its replay-queue entries while it is parked (06 R166); `priv` is its privilege then (19 R433); `pfetch`: the wait for the
pager was of the instruction's own fetch (05 R144). `shadow` holds, by line
address, what its save wrote to pages of another package. -/
structure Strand where
  base : BitVec 32 := 0
  synch : BitVec 32 := 0
  fp : BitVec 57 := 0
  prio : BitVec 2 := 0
  features : BitVec 32 := 0
  tile : Vector (BitVec 32) 4 := Vector.replicate 4 0
  originpkg : BitVec 20 := 0
  originh : BitVec 32 := 0
  donated : Bool := false
  root : Bool := false
  kind : BitVec 2 := 0
  arg : Word := 0
  deque : Option Nat := none
  seq : Word := 0
  map : Option Row := none
  pend : BitVec 6 := 0
  pendinfo : Word := 0
  ascale : BitVec 128 := 0
  bscale : BitVec 128 := 0
  notice : Bool := false
  tag : Nat := 0
  priv : Priv := .kernel
  tokScope : Map Scope := []
  pfetch : Bool := false
  shadow : Map Row := []
  deriving DecidableEq, Repr

/-- What a handler run serves (08 R234, 17 R411, 19 R434): a message, an escalation or a copy fault, with the core and
context that wait for its end. -/
inductive RunKind where
  | message
  | escalation
  | copyFault (tok : BitVec 3)
  deriving DecidableEq, Repr

/-- A handler run, or one waiting in a core's inbox (08 R234): the sender, whether it expects a reply, the number of its
message (0 for none), the running number of a message of another package among those that wait here, and the run's
registers. `begun`: it has issued its first instruction, from which its budget counts (19 R443). -/
structure Run where
  kind : RunKind
  pkg : BitVec 20
  core : Nat
  ctx : Nat
  reply : Bool
  msg : Nat
  entry : Word
  dst : Word
  root : Word
  payload : Row
  inc : Nat := 0
  begun : Bool := false
  deriving DecidableEq, Repr

/-- What the event that ends a wait tells the waiter (03 R82): a pager's answer with its page (05 R144), and the key of the
wait, the handle of a future. -/
structure Answer where
  val : Nat
  page : Word
  key : Word
  deriving DecidableEq, Repr

/-- The wait of a context (02 R48, R63): the condition, key and barrier episode that it waits for; whether it waits in its
place (a gang member, or the BAR that completes a HAMLET episode, 03 R85) or is being saved by pre-emption, and whether
that save is a whole save; whether the save writes are done and the record only waits for a cell (19 R441); whether its strand owned
the mill, which is released already (02 R48); whether a wake
event has come meanwhile (03 R80), and what it told. `starved`: every pager future is held, and the context stays PARKING until
one is released (05 R142). -/
structure Parking where
  cond : BitVec 5
  key : Word
  episode : BitVec 16 := 0
  inPlace : Bool := false
  save : Bool := false
  whole : Bool := false
  waiting : Bool := false
  owned : Bool := false
  woken : Bool := false
  answer : Option Answer := none
  starved : Bool := false
  deriving DecidableEq, Repr

/-- Why a context holds (03 R66) beside a wait that its next instruction re-tests: a WAITA between two reads. -/
inductive Hold where
  | none
  /-- the switch marker (R66, R190) -/
  | switch
  /-- the instruction at the pc found a wait unmet; it is tested again at every issue -/
  | wait
  /-- a gang leader that has issued GANG `.follow`, `.leave` or TEND and waits for its followers (11 R307) -/
  | gang
  deriving DecidableEq, Repr

/-- An instruction on its way from a gang leader to a follower (02 R41): the gang steps still to pass, its address, the
leader's REPSTATE and REP in force (07 R188), and the map that a SAFEPT read. -/
structure Fwd where
  steps : Nat
  instr : Instr
  pc : Word
  repstate : BitVec 32
  map : Option Row
  rep : Option RepBuf := none
  deriving DecidableEq, Repr

/-- A context (02 R27). `pc` is the next instruction, also inside a REP body. `tokScope` holds the scope of the copy
last issued on each token, `marks` the TRAPINFO of each unresolved one (19 R436), `deadline` the reference cycles counted
towards the save deadline (02 R63) of its own request or, at a gang's leader, of one to a member (19 R449), up to the cycle `since`,
while `counts` is set, `savearea` its pre-emption area, `gangq` the leader's instructions on their way to a follower, each with the gang
steps still to pass (02 R41, 03 R68), `lead` the core of a follower's leader, `acqAfter` the acquire
that waits for outstanding results (06 R148), `answer` the pager's value and page, for the instruction at the pc that
waited for them (05 R144), `ibuf` the instruction bytes that a fetch brought from another package, `dbuf` the bytes that an
access which must know them at once (SAFEPT, WAITA, LDSYNC) brought, by what they are, `late` a Memory Uncorrectable that waits
for outstanding results (07 R193): its TRAPINFO, its address, and whether it is direct (17 R408), `devq` the context's accesses to
pages of device type of other packages, which leave once its earlier ones are performed (05 R137). -/
structure Ctx where
  status : Status := .idle
  pc : Word := 0
  store : Map Row := []
  preds : Map Word := []
  fpstatus : Word := 0x40
  srstate : BitVec 32 := 0
  repstate : BitVec 32 := 0
  rep : Option RepBuf := none
  grank : Word := 0
  trapcause : Word := 0
  trappc : Word := 0
  trapinfo : Word := 0
  trapvec : Word := 0
  tblroot : Word := 0
  priv : Priv := .kernel
  tokens : BitVec 8 := 0xFF
  tokScope : Map Scope := []
  marks : Map Word := []
  c1 : BitVec 16 := 0
  c2 : BitVec 16 := 0
  c3 : BitVec 16 := 0
  results : List Result := []
  hold : Hold := .none
  latchA : Option Nat := none
  latchB : Option Nat := none
  latchD : Option Nat := none
  strand : Option Strand := none
  preempt : Bool := false
  deadline : Nat := 0
  since : Nat := 0
  counts : Bool := false
  savearea : BitVec 57 := 0
  run : Option Run := none
  runCycles : Nat := 0
  parking : Option Parking := none
  gangq : List Fwd := []
  lead : Nat := 0
  acqAfter : Option Scope := none
  answer : Option Answer := none
  ibuf : Option (Word × Row) := none
  dbuf : Option (Word × Row) := none
  late : Option (Word × Word × Bool) := none
  devq : List (BitVec 20 × Nat) := []
  deriving DecidableEq, Repr

/-- A TLB entry (05 R139): space, virtual base, size in bits, the leaf it caches (05 R137), and the entry's own address. -/
structure Tlb where
  space : BitVec 12
  vbase : Nat
  bits : Nat
  pbase : Nat
  pkg : BitVec 20
  leaf : BitVec 128
  entry : Nat
  dirty : Bool
  deriving DecidableEq, Repr

/-- A store in the replay queue (06 R166, 19 R432): its context, address, what it writes, the pager future it waits
for (0 once that is completed), and whether it is refused and why. `body` names addresses as offsets from `va`. `post`:
it is served at its home under the no-L1 policy, `stream`: under the stream policy (05 R126); `wide`: it is the write of a
release at PACKAGE scope or wider, performed at its home (06 R148); `hole`: the listed line that its replay walk read (19 R450). -/
structure Replay where
  ctx : Nat
  va : Word
  root : Word
  priv : Priv
  body : Body
  handle : BitVec 32
  refused : Option (BitVec 6)
  post : Bool := false
  wide : Bool := false
  stream : Bool := false
  hole : Option Nat := none
  deriving DecidableEq, Repr

/-- What a copy is doing (19 R434, R435): moving pieces, waiting for the reeve, or for a pager future. -/
inductive CopyState where
  | going
  | reeve
  | pager (h : BitVec 32)
  deriving DecidableEq, Repr

/-- A copy in progress (12 R331, 19 R434): its context and token, descriptor, form, scope and rounding mode, the table and
privilege that it translates under, the source offset of the next piece, its state, and the fault that it met: address,
destination or source, outcome, level. `out` are its messages on their way to other packages, `fetch` the parts of the next
piece that messages bring (offset, message, data; message 0 for one to an unreachable package); `spoilt`: one of them has met
a listed line (17 R416); `was` holds, by line, the bytes that the copy has written over as they stood before (12 R334), under
a mask; `ahead` holds source bytes that have been read with the chunk of 16 bytes or the block of an earlier piece (06 R162), from
the address `aheadAt` on; `ended`: it ends unresolved. -/
structure Copy where
  ctx : Nat
  tok : BitVec 3
  desc : BitVec 256
  form : CopyForm
  scope : Scope
  rm : BitVec 3
  root : Word
  priv : Priv
  off : Nat := 0
  state : CopyState := .going
  va : Word := 0
  dst : Bool := false
  outcome : Nat := 0
  level : Nat := 0
  out : List Nat := []
  fetch : List (Nat × Nat × Option Row) := []
  spoilt : Bool := false
  was : Map (BitVec 64 × Row) := []
  aheadAt : Word := 0
  ahead : List Byte := []
  ended : Bool := false
  deriving DecidableEq, Repr

/-- A mill command in the queue (10 R267): the instruction, its context, and what it captured at issue: the three views,
the bitmap views, the descriptors, MILLFMT, the rounding mode, the gang rank and the register store (R268), and for a drain the
table and the privilege that its addresses translate under (R282; log entry 11). `viewD` of a JDRAIN is the address of its descriptor;
`out` are the messages of its writes to other packages that it waits for (R269), `stop` the DRAINPOS and the TRAPINFO with which
it stops once they are performed (R285). -/
structure MillCmd where
  instr : Instr
  ctx : Nat
  viewD : Word
  viewA : Word
  viewB : Word
  bmA : Word
  bmB : Word
  descD : BitVec 256
  descA : BitVec 256
  descB : BitVec 256
  fmt : Word
  rm : BitVec 3
  root : Word
  priv : Priv
  rank : Nat
  store : Map Row
  started : Bool
  out : List Nat := []
  stop : Option (Word × Word) := none
  deriving DecidableEq, Repr

/-- A scale buffer (10 R266): the value that every word took last, and the words loaded since, at 64 × line + word. -/
structure ScaleBuf where
  fill : BitVec 32 := 0
  words : Map (BitVec 32) := []
  deriving DecidableEq, Repr

/-- A mill (10, 11). `bank0` and `bank1` hold 576 rows of 64 bytes; `vis1`: bank 1 is the visible one. -/
structure Mill where
  bank0 : Map Row := []
  bank1 : Map Row := []
  vis1 : Bool := false
  owned : Bool := false
  owner : Nat := 0
  gang : Bool := false
  pend : BitVec 6 := 0
  pendinfo : Word := 0
  discarded : BitVec 3 := 0
  queue : List MillCmd := []
  millfmt : Word := 0
  jstat : Word := 0
  drainpos : Word := 0
  scaleA : ScaleBuf := {}
  scaleB : ScaleBuf := {}
  recA : BitVec 128 := 0
  recB : BitVec 128 := 0
  level : Nat := 1
  deriving DecidableEq, Repr

/-- A waiter record (02 R49) with the strand it holds, or a watch (03 R81), whose `watch` names the watching hamlet.
`overflow`: its cell lies in the overflow area; `slot`: its cell in the waiter pool otherwise; `listed`: it hangs on the
overflow list (03 R83). `answer`: the pager's value and page, once a completed pager future has woken it (05 R144). -/
structure Waiter where
  key : Word
  cond : BitVec 5
  episode : BitVec 16
  save : Word
  core : Nat
  strand : Strand
  frame : Frame
  owned : Bool
  marks : Map Word
  watch : Option Nat
  overflow : Bool
  listed : Bool
  answer : Option Answer
  slot : Nat := 0
  deriving DecidableEq, Repr

/-- A hamlet of another package that waits for a word of this one to become full (02 R47, 03 R81): the word's address, the
package, and the core that asked. -/
structure FarWatch where
  pa : Nat
  pkg : BitVec 20
  core : Nat
  deriving DecidableEq, Repr

/-- A strand in a core's ready queue (03 R70): a woken record or a frame that has not run before (03 R73, R77). -/
inductive Ready where
  | woken (w : Waiter)
  | fresh (f : Frame) (seq : Word) (tiles : List (Nat × Byte))
  deriving DecidableEq, Repr

/-- A saved strand (02 R63), by the context number it was saved from: whether it was saved whole, the wait that it was
in (a BAR that has arrived), the instructions on their way to it in a gang, and whether device runtime has released it. -/
structure Saved where
  ctx : Nat
  save : Word
  strand : Strand
  frame : Frame
  owned : Bool
  marks : Map Word
  gang : Bool
  grank : Word
  lead : Nat
  whole : Bool
  note : Option Parking
  gangq : List Fwd
  released : Bool
  deriving DecidableEq, Repr

/-- A steal request in a deque unit's queue (03 R71, R76). -/
structure StealReq where
  core : Nat
  ctx : Nat
  features : BitVec 32
  deriving DecidableEq, Repr

/-- What a gleaner does (03 R75 to R78): nothing, its backoff until a reference cycle, its sweep, a wait for the answer of a
core's deque unit, or it has been granted a frame. -/
inductive Glean where
  | rest
  | backoff (due : Nat)
  | probing
  | asked (victim : Nat)
  | granted (f : Frame) (seq : Word) (tiles : List (Nat × Byte)) (far : Bool)
  deriving DecidableEq, Repr

/-- A core. `ptr` is the selector's pointer P (03 R67); `sweep` the gleaner's place in its probe order (03 R75);
`backoff` its backoff time (03 R78); `inbox` what waits for the handler context (02 R64), in arrival order; `took` the cycle in
which an owner last took the frame that its deque unit would have granted (02 R38). -/
structure Core where
  ptr : Nat := 4
  ctxs : Map Ctx := []
  deques : Map (List Slot) := []
  nextDeque : Nat := 0
  took : Option Word := none
  stealQ : List StealReq := []
  ready : List Ready := []
  sweep : Nat := 0
  glean : Glean := .rest
  backoff : Nat := 64
  inbox : List Run := []
  hbudget : Word := 65535
  pdeadline : Word := 65536
  reevevec : Word := 0
  replay : List Replay := []
  tlb : List Tlb := []
  copies : List Copy := []
  mill : Mill := {}
  saved : List Saved := []
  deriving DecidableEq, Repr

/-- A future-table entry (02 R45, 05 R143): free, value, count or pager. `donated`: the end of a donated strand has counted on
it (02 R34, 06 R157). -/
inductive FKind where
  | free | value | count | pager
  deriving DecidableEq, Repr

structure Future where
  kind : FKind := .free
  full : Bool := false
  value : Word := 0
  gen : BitVec 12 := 1
  va : Word := 0
  space : BitVec 12 := 0
  donated : Bool := false
  deriving DecidableEq, Repr

/-- A barrier of one scope and number in one hamlet (03 R85). `held`: the next episode is complete but held; `t0`: the
cycle in which a HAMLET-scope episode completed. -/
inductive BarState where
  | counting | sent | releasing
  deriving DecidableEq, Repr

structure Barrier where
  state : BarState := .counting
  count : Nat := 0
  episode : BitVec 16 := 0
  held : Bool := false
  arrivedExtra : BitVec 12 := 0
  t0 : Nat := 0
  deriving DecidableEq, Repr

/-- A line that a hamlet's L1s hold: its bytes and which of them are dirty (05 R125, 06 R148); `valid`: the bytes that it
holds at all, which after an acquire are the dirty ones (06 R148); `bad`: the bytes that are not dirty come from a listed
line (17 R416); `stream`: it was brought in under the stream policy (05 R126); `cores`: the cores of the hamlet whose L1s
hold it (05 R125). -/
structure Line where
  data : Row
  dirty : BitVec 64
  bad : Bool := false
  stream : Bool := false
  valid : BitVec 64 := BitVec.allOnes 64
  cores : BitVec 8 := 0
  deriving DecidableEq, Repr

/-- A stash-window line (05 R128): clean or dirty, the dirty bytes, and the bytes that it holds at all, as for a line of the
L1s; absent means UNFILLED. -/
structure WinLine where
  dirty : BitVec 64
  valid : BitVec 64 := BitVec.allOnes 64
  deriving DecidableEq, Repr

/-- A declared channel (02 R58): slot size in bytes, number of slots, the place of the oldest filled slot, and the number of
filled slots. The slots' bytes lie in the channel's buffer in the commons (05 R130). -/
structure Chan where
  size : Nat
  slots : Nat
  head : Nat := 0
  count : Nat := 0
  deriving DecidableEq, Repr



/-- A packet that a reduction node holds or sends (12 R340, 20 R456): its format field, under which it travels to the parent
(12 R330), the values, the contributions, and its marks. -/
structure Packet where
  fmt : BitVec 48 := 0
  data : Row
  leaves : BitVec 16
  missing : Bool
  narrowed : Bool
  empty : Bool
  deriving DecidableEq, Repr

/-- The inputs of one episode at a reduction node: the local contribution, each child's packet by position, whether a
flush has reached it, and at a root the cycle in which its first input came (20 R456). -/
structure Episode where
  own : Option Row := none
  child : Map Packet := []
  flushed : Bool := false
  since : Option Nat := none
  deriving DecidableEq, Repr

/-- A reduction node of one core in one group (12 R337 to R340). `cur` and `next` are the inputs of the current and the
next episode, `fwd` the number of the current one, which the node has not forwarded yet; `out` packets on their way to the parent, `flush`
flushes and `notice` done notices on their way to the node; `done` the status words that have come. -/
structure Node where
  record : BitVec 256
  isOpen : Bool := false
  episode : BitVec 16 := 0
  fwd : BitVec 16 := 0
  contributed : Bool := false
  cur : Episode := {}
  next : Episode := {}
  out : List (BitVec 16 × Packet) := []
  flush : List (BitVec 16) := []
  notice : List Word := []
  done : List Word := []
  deriving DecidableEq, Repr

/-- A stash window (05 R127) of a hamlet. -/
structure Window where
  desc : BitVec 128
  deriving DecidableEq, Repr

/-- A wake message on its way to a hamlet (03 R81): the key, and what the wake event wakes there. -/
structure Wake where
  key : Word
  all : List (BitVec 5)
  first : List (BitVec 5)
  episode : Option (BitVec 16)
  answer : Option Answer
  deriving DecidableEq, Repr

/-- The flags and the class that a hamlet has accumulated for its launch's status word (02 R55, R56). -/
structure Marks where
  joinspill : Bool := false
  dequespill : Bool := false
  overflow : Bool := false
  deadline : Bool := false
  trap : Bool := false
  cls : Nat := 0
  deriving DecidableEq, Repr

/-- A hamlet. Barriers are keyed 4 × scope + number, channels by number, nodes 8 × group + core in the hamlet, lines by
line address, window lines by 4,096 × core in the hamlet + line of the stash. `extra` and `pealcfg` are PEALCFG's writable
and read-only fields (12 R326); `area` is the base of the overflow area that its launch has reserved (19 R441). `point` is the
operating point, which begins at the ceiling (01 R22; log entry 2). -/
structure Hamlet where
  futures : Map Future := []
  waiters : List Waiter := []
  wakes : List Wake := []
  barriers : Map Barrier := []
  stealMask : BitVec 8 := 0
  sent : Word := 0
  received : Word := 0
  extra : BitVec 12 := 0
  pealcfg : Word := 0
  seq : Option Word := none
  marks : Marks := {}
  tlb : List Tlb := []
  lines : Map Line := []
  winLines : Map WinLine := []
  windows : List Window := []
  channels : Map Chan := []
  nodes : Map Node := []
  point : BitVec 2 := 3
  ceiling : BitVec 2 := 3
  area : Option Nat := none
  heat : Heat := .cool
  cap : BitVec 2 := 3
  shut : Bool := false
  fenced : Bool := false
  deriving DecidableEq, Repr

/-- A message on its way to its home, or an answer or acknowledgement on its way back (06 R160, R164): its number, the
core and context that sent it, the home it travels to, the package, the named count that holds it, and the tag of the
result that waits for its answer. `pc`: the address of the instruction that sent it. `applied`: its home has applied it and
the acknowledgement is on its way. `dev`: it accesses a page of device type (05 R137). `delivered`: an active message that
waits in its home core's inbox; it is applied when its run starts (06 R150). `fetch`: it reads instruction bytes. `since`: the
reference cycle in which it was sent (20 R460). `seq`: of a message of another package, its end-to-end number (20 R453). -/
structure Msg where
  id : Nat
  core : Nat
  ctx : Nat
  pkg : BitVec 20
  home : Nat
  cnt : Nat
  tag : Option Nat
  body : Body
  pc : Word
  applied : Bool
  dev : Bool := false
  delivered : Bool := false
  fetch : Bool := false
  since : Nat := 0
  seq : BitVec 32 := 0
  deriving DecidableEq, Repr

/-- A root frame waiting to be placed (02 R54): its place in the launch record, hint and radius, and the router that its
walk has reached. -/
structure Rooted where
  frame : Frame
  die : Nat
  x : Nat
  y : Nat
  radius : Nat
  atx : Nat
  aty : Nat
  waiting : Bool
  deriving DecidableEq, Repr

/-- A detection of QUIESCE (03 R91): the contexts it holds, the sums of the last sweep, the sweeps that have ended, the hamlets
that the request of the current sweep travels to, and the sums of those that it has reached. -/
structure Detection where
  waiting : List (Nat × Nat)
  last : Option (Word × Word)
  sweeps : Nat
  down : List Nat
  sum : Word × Word
  deriving DecidableEq, Repr

/-- A running launch (13 R359 to R363): sequence number, hamlet set, record contents, frames not yet taken, words that wait in
their hamlets and words on their way up the completion tree as (hamlet, word), the words combined at its root, and the highest
class of the error records that name it (02 R56). -/
structure Launch where
  seq : Word
  hamlets : BitVec 256
  tblroot : Word
  digest : BitVec 384
  views : BitVec 2048
  peal : BitVec 2048
  stashkib : Nat
  commonskib : Nat
  nframes : Nat
  tree : Map (BitVec 16)
  frames : List Rooted
  held : List (Nat × Word)
  words : List (Nat × Word)
  total : Word
  detection : Option Detection
  finished : List (Nat × Nat)
  cls : Nat
  deriving DecidableEq, Repr

/-- A completion record owed to the operating system (13 R355). -/
structure Completion where
  word : Word
  seq : Word
  info : BitVec 32
  status : BitVec 8
  code : BitVec 8
  deriving DecidableEq, Repr

/-- A system copy channel (13 R365, 19 R438, R439): idle 0, running 1, stopped 2. `staged`: the bytes of the stage that
has been issued; `fetch` the parts of a stage that messages bring, as for a copy; `out` the messages that carry it away;
`lost` the offsets of the parts that met a listed line; `failing` the event code of an abandonment that waits for them. -/
structure SysChan where
  cur : Word := 0
  done : BitVec 32 := 0
  event : BitVec 8 := 0
  state : BitVec 2 := 0
  staged : Option Nat := none
  fetch : List (Nat × Nat × Option Row) := []
  lost : List Nat := []
  out : List Nat := []
  failing : Option (BitVec 8) := none
  deriving DecidableEq, Repr

/-- A donation queue (13 R369): capacity, base, its frames, oldest first, and the number of entries written. -/
structure DonQueue where
  cap : Nat := 0
  base : Word := 0
  frames : List (Frame × List (Nat × Byte)) := []
  next : Nat := 0
  deriving DecidableEq, Repr

/-- A barrier root of a die (0 to 3) or of the package (4), for one barrier number (03 R85): the hamlets whose arrival
is counted for this and for the next episode, the largest extra gap of each, whether it is pealing, and T0. -/
structure BarRoot where
  arrived : List Nat := []
  extra : Nat := 0
  nextArrived : List Nat := []
  nextExtra : Nat := 0
  pealing : Bool := false
  t0 : Nat := 0
  gap : Nat := 0
  released : List Nat := []
  deriving DecidableEq, Repr

/-- A package-link port (13 R366, R374; 20 R452): up, its lanes, and whether it trains, for the first time or again; the
sequence number of its next flit, the replay buffer of unacknowledged flits, oldest first, the number of replays in a row that
its oldest flit has failed, and as a receiver the number of the flit that it expects and whether it has asked for a replay. -/
structure Port where
  up : Bool := false
  lanes : Nat := 0
  training : Bool := false
  flit : BitVec 12 := 0
  buffer : List (BitVec 12) := []
  fails : Nat := 0
  expect : BitVec 12 := 0
  asked : Bool := false
  deriving DecidableEq, Repr

/-- The end-to-end sequence numbers of one other package (20 R453): next to send, next expected, unreachable, the packets
not acknowledged, the reference cycle from which the oldest of them waits, and how often they have been sent again. -/
structure Peer where
  next : BitVec 32 := 0
  expect : BitVec 32 := 0
  dead : Bool := false
  unacked : List (BitVec 32 × Nat) := []
  since : Nat := 0
  resends : Nat := 0
  deriving DecidableEq, Repr

/-- A packet of another package that this one has forwarded, and the port that it took (13 R367): what left last. -/
structure Transit where
  port : Nat
  src : BitVec 20
  dst : BitVec 20
  seq : BitVec 32
  core : Nat
  ctx : Nat
  tag : Nat
  body : Body
  deriving DecidableEq, Repr

/-- A request to a CXL port that has had no completion (20 R460): the reference cycle from which it waits, whether it is
a write-back of a line, and the launch whose bytes that wrote. -/
structure CxlReq where
  since : Nat
  write : Bool := false
  seq : Word := 0
  deriving DecidableEq, Repr

/-- A datagram of the management port (20 R463): the address that it goes to, its UDP port, its header and the record. -/
structure Report where
  addr : Nat
  udp : Nat
  header : BitVec 128
  record : Row
  deriving DecidableEq, Repr

/-- Root firmware and the hub's side of the package (13). `booted`: the boot has come to its last step (R373), `bootStop` the
step at which it stopped; `cxl` the capacity that each CXL port's devices trained at boot (R370), `cxlDown` the ports that are
down, `cxlOut` those of them that are out of service, `cxlPend` the requests of lines that have had no completion (20 R460);
`shared` the GiB of the map that are declared shared (R357); `reports` the datagrams that the management port has sent, the next
report number being `reportNo` (20 R463); `irqs` the interrupt sources raised, `irqTable` the word, target hart and identity,
that the operating system has written for each, and `msis` the words with which they were delivered (R352); `read` what the last
load or atomic of a hub core returned (R349); `linkHold`: new packets wait for a LINKCFG (R368), as for room among the
unacknowledged packets of its package (20 R453), in `heldOut` by package and number; `transit` the packet that was forwarded
last (R367); `acks` the end-to-end acknowledgements that the package has sent, by package and number (20 R453). -/
structure Hub where
  cmdPos : Nat := 0
  compPos : Nat := 0
  owed : List Completion := []
  fqTail : BitVec 32 := 0
  fqHead : BitVec 32 := 0
  heldFaults : List (BitVec 256) := []
  errPos : Nat := 0
  errLost : BitVec 32 := 0
  irqs : List Nat := []
  irqTable : Map (BitVec 32) := []
  msis : List (BitVec 32) := []
  read : Row := 0
  chans : Map SysChan := []
  donqs : Map DonQueue := []
  gmin : BitVec 12 := 60
  hmax : BitVec 5 := 16
  rampstep : BitVec 8 := 24
  lpddr : Nat := 0
  cxl : Map (BitVec 32) := []
  cxlDown : List Nat := []
  cxlOut : List Nat := []
  cxlPend : Map CxlReq := []
  shared : List Nat := []
  service : Bool := false
  serviceDigest : BitVec 384 := 0
  booted : Bool := false
  bootStop : Nat := 0
  reports : List Report := []
  reportNo : Nat := 0
  configured : Bool := false
  linkHold : Bool := false
  heldOut : List (BitVec 20 × Nat) := []
  transit : Option Transit := none
  acks : List (BitVec 20 × BitVec 32) := []
  deriving DecidableEq, Repr

/-- What reaches the machine from outside, or a step whose turn comes: an event row, or an access of a hub core to a local
physical address (13 R349): a store, a load of `n` bytes, or an atomic. Of a package link (20 R452): a flit that reaches a
port's receiver, with its number and whether its CRC is right; the neighbour's acknowledgement of a flit and of all before it;
a replay that has failed. Of CXL (20 R460): a port that goes down; a device that does not complete the request of a line, or the
posted store of a number, by the number under which CXL_TIMEOUT names it. -/
inductive Input where
  | event (i : Instr)
  | flitIn (port : Nat) (seq : BitVec 12) (good : Bool)
  | flitAck (port : Nat) (seq : BitVec 12)
  | replayFailed (port : Nat)
  | cxlDown (port : Nat)
  | cxlSilent (port : Nat) (id : Nat)
  | hubStore (pa : Nat) (bytes : List Byte)
  | hubLoad (pa n : Nat)
  | hubAtomic (pa : Nat) (f : AtomicFn)
  deriving DecidableEq, Repr

/-- The package. Cores and hamlets are sparse: an absent one is as reset leaves it. `mem` holds the bytes of every local
physical address (05 R122) in canonical form; `full` the words (address div 8) whose full/empty bit is full (05 R129); `zeros`
the numbers (address div 64) of the zero lines and `ways` the lines in data ways of the slices (05 R131), `scales` the
scale-window lines that a slice holds (05 R133), by line address, of which `tainted` hold words that were read from a listed
line; `bad` the bad lines (17 R416), and `badCode` the storage codes of those that were lost elsewhere than in their memory (17
R414). `forwards` lists the 4 KiB frames that a forwarder stands for, with their new frames (06 R167); `incoming` the messages
of other packages that wait at their homes, by number; `watches` what their hamlets wait for here. `cur` is the context that an
instruction acts on; `turn` the core whose turn to issue comes next, `phase` what a step tries first: contexts, an event that is
owed, or a command (log entry 5); `free` the counter of the free values (the model's own). -/
structure State where
  cores : Map Core
  hamlets : Map Hamlet
  mem : List Host.Cell
  full : List Nat
  zeros : List Nat
  ways : List Nat
  tainted : List Nat
  scales : Map Row
  ranges : Map (BitVec 256)
  bad : List Nat
  badCode : Map Nat
  flight : List Msg
  incoming : List Msg
  watches : List FarWatch
  forwards : List (Nat × Nat)
  pkgid : BitVec 20
  groupTable : Map (BitVec 16)
  memberTable : Map (BitVec 16)
  ports : Map Port
  peers : Map Peer
  launches : List Launch
  hub : Hub
  roots : Map BarRoot
  stopped : Bool
  cycle : Word
  seqno : Nat
  curCore : Nat
  curCtx : Nat
  turn : Nat
  phase : Nat
  inputs : List Input
  agenda : List Instr
  free : Nat
  deriving DecidableEq, Repr

/-- The package right after reset, before boot (13 R373): no context runs, no launch is loaded and memory lists
nothing. Registers whose reset value the spec does not give stand at the values of log entries 2 and 3. -/
def State.reset : State where
  cores := []
  hamlets := []
  mem := []
  full := []
  zeros := []
  ways := []
  tainted := []
  scales := []
  ranges := []
  bad := []
  badCode := []
  flight := []
  incoming := []
  watches := []
  forwards := []
  pkgid := 0
  groupTable := []
  memberTable := []
  ports := []
  peers := []
  launches := []
  hub := {}
  roots := []
  stopped := false
  cycle := 0
  seqno := 0
  curCore := 0
  curCtx := 0
  turn := 0
  phase := 0
  inputs := []
  agenda := []
  free := 0

end Sys2Proof.Machine
end

