-- ==== Sys2Proof/Machine/Ops.lean ====
section
/-! DEFINITION. The named operations over the state: tables, the current context, memory bytes in canonical form,
results and their commits (07 R189 to R193), retiring an instruction, and taking a trap (17 R407, R410) with the return
from it (12 R343). -/

namespace Sys2Proof.Machine

/-! ### Sparse tables -/

/-- The entry of a table at a key, or the default. -/
def look {α : Type} (d : α) : Map α → Nat → α
  | [], _ => d
  | (j, v) :: r, k => if j = k then v else look d r k

/-- The entry of a table at a key, if any. -/
def find {α : Type} : Map α → Nat → Option α
  | [], _ => none
  | (j, v) :: r, k => if j = k then some v else find r k

/-- A table with the entry at a key replaced or added; keys stay rising. -/
def put {α : Type} : Map α → Nat → α → Map α
  | [], k, v => [(k, v)]
  | (j, w) :: r, k, v => if k = j then (k, v) :: r else if k < j then (k, v) :: (j, w) :: r else (j, w) :: put r k v

/-- A table without the entry at a key. -/
def del {α : Type} : Map α → Nat → Map α
  | [], _ => []
  | (j, w) :: r, k => if j = k then del r k else (j, w) :: del r k

/-- A rising list of numbers with one added. -/
def setIns : List Nat → Nat → List Nat
  | [], k => [k]
  | j :: r, k => if k = j then j :: r else if k < j then k :: j :: r else j :: setIns r k

/-! ### Bits -/

/-- Bits [hi:lo] of a number, as a number. -/
def fld {w : Nat} (x : BitVec w) (hi lo : Nat) : Nat := (x.toNat >>> lo) % 2 ^ (hi + 1 - lo)

/-- A number with bits [hi:lo] replaced. -/
def setFld {w : Nat} (x : BitVec w) (hi lo : Nat) (v : Nat) : BitVec w :=
  let m : BitVec w := BitVec.ofNat w (2 ^ (hi + 1 - lo) - 1) <<< lo
  (x &&& ~~~ m) ||| ((BitVec.ofNat w v <<< lo) &&& m)

/-- Merging under a mask: the bits of `new` where the mask is set, of `old` elsewhere. -/
def merge {w : Nat} (old new mask : BitVec w) : BitVec w := (old &&& ~~~ mask) ||| (new &&& mask)

/-- A mask of `n` ones at bit `lo`. -/
def ones (w n lo : Nat) : BitVec w := BitVec.ofNat w (2 ^ n - 1) <<< lo

/-- Bytes of a number, little-endian (00 R5). -/
def bytesOf : Nat → Nat → List Byte
  | 0, _ => []
  | n + 1, x => BitVec.ofNat 8 x :: bytesOf n (x / 256)

/-- The number that bytes hold, little-endian. -/
def ofBytes : List Byte → Nat
  | [] => 0
  | b :: r => b.toNat + 256 * ofBytes r

/-- A 57-bit address as a 64-bit one whose bits [63:57] equal bit 56 (05 R135). -/
def sext57 (x : BitVec 57) : Word := x.signExtend 64

/-- A byte mask of a line as a mask of its bits. -/
def byteMask (m : BitVec 64) : Row :=
  (List.range 64).foldl (fun acc i => if m.getLsbD i then acc ||| ones 512 8 (8 * i) else acc) 0

/-! ### Cores, contexts and hamlets -/

/-- The core of a number. -/
def State.core (s : State) (c : Nat) : Core := look {} s.cores c

/-- The state with a core replaced. -/
def State.setCore (s : State) (c : Nat) (x : Core) : State := { s with cores := put s.cores c x }

/-- The hamlet of a number. -/
def State.ham (s : State) (h : Nat) : Hamlet := look {} s.hamlets h

/-- The state with a hamlet replaced. -/
def State.setHam (s : State) (h : Nat) (x : Hamlet) : State := { s with hamlets := put s.hamlets h x }

/-- The hamlet of a core (00 R6). -/
def hamOf (c : Nat) : Nat := c / 8

/-- A context of a core. -/
def State.ctx (s : State) (c k : Nat) : Ctx := look {} (s.core c).ctxs k

/-- The state with a context replaced. -/
def State.setCtx (s : State) (c k : Nat) (x : Ctx) : State :=
  let co := s.core c
  s.setCore c { co with ctxs := put co.ctxs k x }

/-- The context that an instruction acts on. -/
def State.me (s : State) : Ctx := s.ctx s.curCore s.curCtx

/-- The state with the acting context replaced. -/
def State.setMe (s : State) (x : Ctx) : State := s.setCtx s.curCore s.curCtx x

/-- The acting core. -/
def State.myCore (s : State) : Core := s.core s.curCore

/-- The state with the acting core replaced. -/
def State.setMyCore (s : State) (x : Core) : State := s.setCore s.curCore x

/-- The acting hamlet. -/
def State.myHam (s : State) : Hamlet := s.ham (hamOf s.curCore)

/-- The state with the acting hamlet replaced. -/
def State.setMyHam (s : State) (x : Hamlet) : State := s.setHam (hamOf s.curCore) x

/-- The same state with another acting context. -/
def State.as (s : State) (c k : Nat) : State := { s with curCore := c, curCtx := k }

/-- Whether the acting context is the handler context (02 R27). -/
def State.onHandler (s : State) : Bool := s.curCtx == 4

/-- An event that the part owes, appended to those it owes already. -/
def State.owe (s : State) (i : Instr) : State := { s with agenda := s.agenda ++ [i] }

/-- An event owed unless it is owed already. -/
def State.oweOnce (s : State) (i : Instr) : State := if s.agenda.contains i then s else s.owe i

/-- A fresh running number. -/
def State.fresh (s : State) : State × Nat := ({ s with seqno := s.seqno + 1 }, s.seqno)

/-- The flags of a hamlet's status word (02 R55) with an update. -/
def State.mark (s : State) (h : Nat) (f : Marks → Marks) : State :=
  s.setHam h { s.ham h with marks := f (s.ham h).marks }

/-- The marks with the trap flag set (17 R407). -/
def Marks.trapped (m : Marks) : Marks := { m with trap := true }

/-- The marks with a class reported, the higher one winning (02 R55, 17 R413). -/
def Marks.class (m : Marks) (c : Nat) : Marks := { m with cls := max m.cls c }

/-! ### Memory bytes in canonical form -/

/-- What an unlisted address reads as (log entry 4). -/
def blank : Byte := 0

/-- The byte that a list of cells holds at an address. -/
def memGet : List Host.Cell → Nat → Byte
  | [], _ => blank
  | (j, v) :: r, a => if j = a then v else if a < j then blank else memGet r a

/-- The list with one byte written; a byte equal to what an unlisted address reads as is not listed. -/
def memSet : List Host.Cell → Nat → Byte → List Host.Cell
  | [], a, v => if v = blank then [] else [(a, v)]
  | (j, w) :: r, a, v =>
    if a = j then (if v = blank then r else (a, v) :: r)
    else if a < j then (if v = blank then (j, w) :: r else (a, v) :: (j, w) :: r)
    else (j, w) :: memSet r a v

/-- Every address of the list is at least a bound, addresses rise, and no byte equals what an unlisted one reads as. -/
def Memory.above : Nat → List Host.Cell → Bool
  | _, [] => true
  | b, (j, v) :: r => decide (b ≤ j) && decide (v ≠ blank) && Memory.above (j + 1) r

/-- The canonical form of memory: addresses strictly rising, no entry equal to what an unlisted address reads as. -/
def Memory.wf (m : List Host.Cell) : Bool := Memory.above 0 m

/-- Bytes of consecutive addresses. -/
def memRead (m : List Host.Cell) : Nat → Nat → List Byte
  | _, 0 => []
  | a, n + 1 => memGet m a :: memRead m (a + 1) n

/-- Consecutive bytes written. -/
def memWrite (m : List Host.Cell) : Nat → List Byte → List Host.Cell
  | _, [] => m
  | a, b :: r => memWrite (memSet m a b) (a + 1) r

/-! ### Register rows and predicates -/

/-- A row of the acting context: register-store rows below 128, the visible accumulator bank from row 256 (05 R120). -/
def State.row (s : State) (n : Nat) : Row :=
  if n < 256 then look 0 s.me.store n
  else
    let m := s.myCore.mill
    look 0 (if m.vis1 then m.bank1 else m.bank0) (n - 256)

/-- The reserved bits of MIRRORS, the word at 0x2E0 (07 R182): they read zero and ignore writes (00 R10). -/
def mirrorRsv : Row := (0x7880788078807880 : Row) <<< 256

/-- A row as a register store holds it: row 11 without the reserved bits of MIRRORS. -/
def heldRow (n : Nat) (v : Row) : Row := if n = 11 then v &&& ~~~ mirrorRsv else v

/-- A row of the acting context written. -/
def State.setRow (s : State) (n : Nat) (v : Row) : State :=
  if n < 256 then s.setMe { s.me with store := put s.me.store n (heldRow n v) }
  else
    let co := s.myCore
    let m := co.mill
    s.setMyCore { co with
      mill := if m.vis1 then { m with bank1 := put m.bank1 (n - 256) v }
              else { m with bank0 := put m.bank0 (n - 256) v } }

/-- A predicate of a context: p0 reads as all ones (07 R173). -/
def Ctx.pred (x : Ctx) (n : Nat) : Word := if n = 0 then BitVec.allOnes 64 else look 0 x.preds n

/-- `n` bytes of the register store from an address, as a number. The bytes may run over several rows. -/
def State.rs (s : State) (addr n : Nat) : Nat :=
  let off := addr % 64
  let here := (s.row (addr / 64)).toNat >>> (8 * off)
  if off + n ≤ 64 then here % 2 ^ (8 * n)
  else
    let rest := (List.range ((off + n + 63) / 64 - 1)).foldl
      (fun acc i => acc + (s.row (addr / 64 + 1 + i)).toNat * 2 ^ (512 * (i + 1) - 8 * off)) here
    rest % 2 ^ (8 * n)

/-! ### Results -/

/-- A cell that writes `n` bytes at a register-store address, all within one row. -/
def cellAt (addr n : Nat) (v : Nat) : Cell :=
  { tgt := .row (addr / 64), mask := ones 512 (8 * n) (8 * (addr % 64)),
    data := (BitVec.ofNat 512 (v % 2 ^ (8 * n))) <<< (8 * (addr % 64)) }

/-- A cell that writes a whole predicate, or the lanes of a mask; none for p0 (07 R173). -/
def cellPred (n : Nat) (mask v : Word) : List Cell :=
  if n = 0 then [] else [{ tgt := .pred n, mask := mask.setWidth 512, data := v.setWidth 512 }]

/-- One cell written by the acting context. -/
def State.writeCell (s : State) (c : Cell) : State :=
  match c.tgt with
  | .row n => s.setRow n (merge (s.row n) c.data c.mask)
  | .pred n =>
    let x := s.me
    s.setMe { x with preds := put x.preds n (merge (x.pred n) (c.data.setWidth 64) (c.mask.setWidth 64)) }

/-- A cell without the bits that a later result of the context has written (R191). -/
def Cell.without (c d : Cell) : Cell := if c.tgt = d.tgt then { c with mask := c.mask &&& ~~~ d.mask } else c

/-- A result without the bits of the cells of a later one (R191). -/
def Result.without (r d : Result) : Result :=
  { r with cells := r.cells.map fun c => d.cells.foldl Cell.without c }

/-- The effect of one commit: its cells, and its flags ORed into FPSTATUS bits [5:0] (04 R105, R106). -/
def State.commitOne (s : State) (r : Result) : State :=
  let s := r.cells.foldl State.writeCell s
  s.setMe { s.me with fpstatus := s.me.fpstatus ||| r.flags.setWidth 64 }

/-- Commits, in program order, the results that `due` selects: each writes what no later result has written, and what
it writes is taken from the older results that stay (R191). -/
def commitWhere (due : Result → Bool) : List Result → List Result → State → List Result × State
  | older, [], s => (older, s)
  | older, r :: rest, s =>
    if due r then commitWhere due (older.map (·.without r)) rest (s.commitOne r)
    else commitWhere due (older ++ [r]) rest s

/-- The acting context with the selected results committed. -/
def State.commit (s : State) (due : Result → Bool) : State :=
  let (left, t) := commitWhere due [] s.me.results s
  t.setMe { t.me with results := left }

/-- A fixed result one issue nearer to its commit (R189). -/
def Result.tick (r : Result) : Result :=
  match r.due with
  | .fixed n => { r with due := .fixed (n - 1) }
  | .var _ => r

/-- What happens before the acting context issues an instruction (R189): every fixed result comes one issue nearer, and
those that have reached their distance commit. -/
def State.tick (s : State) : State :=
  let s := s.setMe { s.me with results := s.me.results.map Result.tick }
  s.commit fun r => r.due = .fixed 0

/-- Whether every variable-latency result of a context has returned (R190). -/
def Ctx.returned (x : Ctx) : Bool :=
  x.results.all fun r => match r.due with | .var (_ :: _) => false | _ => true

/-- The number of variable-latency results outstanding (R192). -/
def Ctx.outstanding (x : Ctx) : Nat :=
  (x.results.filter fun r => match r.due with | .var _ => true | _ => false).length

/-- The end of a switch-marker hold (R190): every returned variable-latency result commits. -/
def State.commitVar (s : State) : State :=
  s.commit fun r => match r.due with | .var [] => true | _ => false

/-- Every outstanding result commits (R193). -/
def State.commitAll (s : State) : State := s.commit fun _ => true

/-- A result added for the acting context, the youngest in program order. -/
def State.push (s : State) (r : Result) : State := s.setMe { s.me with results := s.me.results ++ [r] }

/-- A result of fixed latency. -/
def State.fixed (s : State) (lat : Nat) (cells : List Cell) (flags : BitVec 6 := 0) : State :=
  s.push { due := .fixed lat, cells := cells, flags := flags }

/-- A result of variable latency whose data are present. -/
def State.var (s : State) (cells : List Cell) (flags : BitVec 6 := 0) : State :=
  s.push { due := .var [], cells := cells, flags := flags }

/-- A result of variable latency of which some data are awaited. -/
def State.varAwait (s : State) (cells : List Cell) (awaited : List (Nat × Nat)) : State :=
  s.push { due := .var awaited, cells := cells, flags := 0 }

/-! ### Retiring -/

/-- Whether a REP body is executing (R188). -/
def Ctx.repOn (x : Ctx) : Bool := x.repstate.getLsbD 31

/-- The address that a trap or a park records: the REP's while its body executes (R188, R419), else the pc. -/
def Ctx.faultPc (x : Ctx) : Word :=
  match x.rep with
  | some r => if x.repOn then r.pc else x.pc
  | none => x.pc

/-- REPSTATE from its fields (R188). -/
def repWord (pass index : Nat) : BitVec 32 := BitVec.ofNat 32 (2 ^ 31 + (pass % 4096) * 16 + index % 16)

/-- The context after the body instruction at (pass, index) retires (R187): the next one, the next pass, or the end. -/
def Ctx.repNext (x : Ctx) (r : RepBuf) (bytes : Nat) : Ctx :=
  let index := fld x.repstate 3 0 + 1
  let pass := fld x.repstate 15 4
  if index < r.body.length then
    { x with pc := x.pc + BitVec.ofNat 64 bytes, repstate := repWord pass index }
  else if pass + 1 < r.passes then
    { x with pc := r.pc + 12, repstate := repWord (pass + 1) 0 }
  else { x with pc := r.after, repstate := 0, rep := none }

/-- The context after an instruction of `bytes` bytes retires, at `target` for a taken branch; the switch marker sets
its hold (R66). What the strand waited for is past, but not by the instructions of a trap's handling. -/
def Ctx.retire (x : Ctx) (sw : Bool) (bytes : Nat) (target : Option Word) : Ctx :=
  let y := { x with hold := if sw then .switch else .none, answer := if x.trapcause.getLsbD 12 then x.answer else none,
                    parking := if x.trapcause.getLsbD 12 then x.parking else none }
  match target with
  | some t => { y with pc := t }
  | none =>
    match y.rep with
    | some r => if y.repOn then y.repNext r bytes else { y with pc := y.pc + BitVec.ofNat 64 bytes }
    | none => { y with pc := y.pc + BitVec.ofNat 64 bytes }

/-- An instruction retires in the acting context. -/
def State.retire (s : State) (o : Ops) (target : Option Word := none) : State :=
  s.setMe (s.me.retire o.sw o.bytes target)

/-- The acting context finds a wait unmet: nothing changes but that it holds (R66). -/
def State.stall (s : State) : State := s.setMe { s.me with hold := .wait }

/-! ### Traps -/

/-- The code of a privilege in TRAPCAUSE `prev` (R344). -/
def Priv.code : Priv → Nat
  | .kernel => 0
  | .runtime => 1
  | .firmware => 2

/-- The privilege that a code of `prev` names; 0b11 is never held (R344). -/
def Priv.ofCode (n : Nat) : Priv := if n = 0 then .kernel else if n = 1 then .runtime else .firmware

/-- TRAPCAUSE from its fields (R344). -/
def causeWord (p : Priv) (k : Nat) (notice : Bool) (cause : BitVec 6) : Word :=
  BitVec.ofNat 64 (2 ^ 12 + p.code * 2 ^ 10 + (k % 8) * 2 ^ 7 + (if notice then 64 else 0) + cause.toNat)

/-- Whether a trap is being handled (R344). -/
def Ctx.handling (x : Ctx) : Bool := x.trapcause.getLsbD 12

/-- Whether the context is a gang member (R42). -/
def Ctx.inGang (x : Ctx) : Bool := x.grank.getLsbD 6

/-- Bytes of another package that a trapped instruction has not used are dropped; a word that its LDSYNC has consumed stays. -/
def Ctx.dropData (x : Ctx) : Ctx :=
  { x with dbuf := match x.dbuf with | some (a, r) => if a.getLsbD 63 then some (a, r) else none | none => none }

/-- The trap registers filled (R407 steps 2 and 3); a REP body in force is left, REPSTATE stays (R419). -/
def Ctx.fillTrap (x : Ctx) (k : Nat) (notice : Bool) (cause : BitVec 6) (info pc : Word) : Ctx :=
  { x.dropData with trapcause := causeWord x.priv k notice cause, trappc := pc, trapinfo := info, rep := none }

/-- Whether the context follows a gang leader (02 R41). -/
def Ctx.follows (x : Ctx) : Bool := x.inGang && fld x.grank 2 0 ≠ 0

/-- The reeve core of a die: core 0 of its lowest-numbered hamlet that is not fenced (R410). -/
def State.reeve (s : State) (die : Nat) : Nat :=
  8 * (((List.range 64).map (64 * die + ·)).find? fun h => !(s.ham h).fenced).getD (64 * die)

/-- The payload row of eight words, word 0 lowest. -/
def rowOfWords (ws : List Word) : Row :=
  BitVec.ofNat 512 ((ws.take 8).zipIdx.foldl (fun acc (w, i) => acc + w.toNat * 2 ^ (64 * i)) 0)

/-- CORENUM of a core (R346). -/
def State.corenum (s : State) (c : Nat) : Word := BitVec.ofNat 64 (s.pkgid.toNat * 2 ^ 32 + c)

/-- The sequence number of the launch that a context's hamlet runs, 0 for none (R410, R434). -/
def State.seqOf (s : State) (c : Nat) : Word := (s.ham (hamOf c)).seq.getD 0

/-- s1 of a handler run (R234). -/
def senderWord (pkg : BitVec 20) (core ctx : Nat) (reply : Bool) : Word :=
  BitVec.ofNat 64 (pkg.toNat * 2 ^ 32 + (core % 2048) * 32 + (if reply then 16 else 0) + ctx % 8)

/-- A message has been applied at its home, or its run has ended (06 R160, 08 R234): its answer, or its acknowledgement,
is on its way back. A message of another package is answered by a packet of its own. -/
def State.finishMsg (s : State) (id : Nat) (data : Row) (flags : BitVec 6) : State :=
  match s.flight.find? (fun (m : Msg) => m.id = id) with
  | none => s
  | some m =>
    let m' := { m with applied := true, body := if m.tag.isSome then .reply data flags else m.body }
    ({ s with flight := s.flight.map fun (q : Msg) => if q.id = id then m' else q }).owe
      (if m.tag.isSome then .replyArrival id else .postedAck id)

/-- A message counted as received by a hamlet (03 R90). -/
def State.received (s : State) (h : Nat) : State := s.setHam h { s.ham h with received := (s.ham h).received + 1 }

/-- The effective port mask for a packet of package o to package d (13 R367): the entry of its table, without the ports that are
down. -/
def State.maskFrom (s : State) (o d : BitVec 20) : BitVec 12 :=
  let e := if d.extractLsb' 10 10 = o.extractLsb' 10 10 then look (0 : BitVec 16) s.memberTable (fld d 9 0)
    else look (0 : BitVec 16) s.groupTable (fld d 19 10)
  (List.range 12).foldl (fun acc i => if e.getLsbD i && (look {} s.ports i).up then acc ||| (1 <<< i) else acc) 0

/-- The effective port mask for a packet of this package. -/
def State.portMask (s : State) (d : BitVec 20) : BitVec 12 := s.maskFrom s.pkgid d

/-- The port that a packet of package o to package d takes (13 R367): the k-th port of the mask, where k = (o XOR d) mod their
number. A package on the way chooses by its own tables, o being the originating package. -/
def State.portFor (s : State) (o d : BitVec 20) : Option Nat :=
  let ps := (List.range 12).filter fun i => (s.maskFrom o d).getLsbD i
  ps[(o ^^^ d).toNat % ps.length]?

/-- Unacknowledged flits that a port keeps for a replay (20 R452). -/
def replayDepth : Nat := 512

/-- A port sends a packet in a flit with its next sequence number, and keeps it until it is acknowledged (20 R452; one flit a packet:
DESIGN CHOICE, log entry 125). -/
def State.sendFlit (s : State) (port : Option Nat) : State :=
  match port with
  | none => s
  | some n =>
    let p := look ({} : Port) s.ports n
    let kept := p.buffer ++ [p.flit]
    { s with ports := put s.ports n { p with flit := p.flit + 1, buffer := kept.drop (kept.length - replayDepth) } }

/-- A packet takes the next end-to-end sequence number of its destination, and waits for its acknowledgement (20 R453): the wait
is watched. -/
def State.leaves (s : State) (p : BitVec 20) (id : Nat) : State :=
  let s := s.sendFlit (s.portFor s.pkgid p)
  let q := look ({} : Peer) s.peers p.toNat
  let fresh := q.unacked.isEmpty
  let r : Peer := { q with next := q.next + 1, unacked := q.unacked ++ [(q.next, id)],
                           since := if fresh then s.cycle.toNat else q.since, resends := if fresh then 0 else q.resends }
  ({ s with peers := put s.peers p.toNat r } : State).oweOnce (.endToEndResend p)

/-- Packets that a package keeps for another one until they are acknowledged (20 R453). -/
def unackedMax : Nat := 4096

/-- A packet to another package must wait: a LINKCFG holds new packets back (13 R368), or as many as the package keeps are not
acknowledged (20 R453), or another one waits before it. -/
def State.outHeld (s : State) (p : BitVec 20) : Bool :=
  s.hub.linkHold || unackedMax ≤ (look ({} : Peer) s.peers p.toNat).unacked.length || s.hub.heldOut.any fun q => q.1 = p

/-- A package is unreachable from this one (20 R454). -/
def State.deadPeer (s : State) (p : BitVec 20) : Bool := (look ({} : Peer) s.peers p.toNat).dead || s.portMask p = 0

/-- A packet to another package leaves, or waits for its turn (13 R368, 20 R453); to an unreachable one it does not leave, and fails
there (20 R454). -/
def State.numbered (s : State) (p : BitVec 20) (id : Nat) : State :=
  if s.deadPeer p then
    ({ s with hub := { s.hub with heldOut := s.hub.heldOut ++ [(p, id)] } } : State).oweOnce (.destinationUnreachable p)
  else if s.outHeld p then { s with hub := { s.hub with heldOut := s.hub.heldOut ++ [(p, id)] } } else s.leaves p id

/-- The oldest packet that waits for room among the unacknowledged ones of its package leaves (20 R453). -/
def State.nextOut (s : State) (p : BitVec 20) : State :=
  if s.hub.linkHold || s.deadPeer p || unackedMax ≤ (look ({} : Peer) s.peers p.toNat).unacked.length then s
  else
    match s.hub.heldOut.find? fun q => q.1 = p with
    | some q => ({ s with hub := { s.hub with heldOut := s.hub.heldOut.erase q } } : State).leaves p q.2
    | none => s

/-- A packet is known to have reached its package: the wait for the next one begins anew (20 R453). -/
def State.delivered (s : State) (p : BitVec 20) (id : Nat) : State :=
  let q := look ({} : Peer) s.peers p.toNat
  ({ s with
      peers := put s.peers p.toNat
        { q with unacked := q.unacked.filter fun u => u.2 ≠ id, since := s.cycle.toNat, resends := 0 },
      hub := { s.hub with heldOut := s.hub.heldOut.filter fun u => u.2 ≠ id } } : State).nextOut p

/-- LINKCFG ends its hold (13 R368): the packets that waited leave. -/
def State.endLinkHold (s : State) : State :=
  let held := s.hub.heldOut
  held.foldl (fun t q => t.numbered q.1 q.2) { s with hub := { s.hub with linkHold := false, heldOut := [] } }

/-- A packet of another package has been applied: it is acknowledged end to end (20 R453). -/
def State.ack (s : State) (p : BitVec 20) (seq : BitVec 32) : State := { s with hub := { s.hub with acks := s.hub.acks ++ [(p, seq)] } }

/-- A packet of the part's own to a core and context of another package (20 R453): an answer, with the tag of the result
that waits for it there. -/
def State.packetOut (s : State) (pkg : BitVec 20) (core ctx tag : Nat) (b : Body) : State :=
  let (s, n) := s.fresh
  let m : Msg := { id := n + 1, core := core, ctx := ctx, pkg := pkg, home := 320, cnt := 0, tag := some tag,
                   body := b, pc := 0, applied := false }
  { s with flight := s.flight ++ [m] }.numbered pkg (n + 1)

/-- What the end of a handler run gives its sender (08 R235, 17 R411, 19 R435, R443): the reply, or the disposition or
resume word. -/
def State.answerRun (s : State) (c : Nat) (r : Run) (reply : Row) : State :=
  let k : CtxId := Fin.ofNat 5 r.ctx
  let d : CoreId := Fin.ofNat 2048 r.core
  match r.kind with
  | .message =>
    if r.pkg ≠ s.pkgid then (if r.reply then s.packetOut r.pkg r.core r.ctx r.msg (.reply reply 0) else s)
    else
      let t := s.finishMsg r.msg reply 0
      let q := (s.ham (hamOf c)).seq
      if hamOf r.core = hamOf c || (q.isSome && q = (s.ham (hamOf r.core)).seq) then t.received (hamOf c) else t
  | .escalation => s.owe (.disposition d k (reply.setWidth 64))
  | .copyFault tok => s.owe (.copyResumePacket d k tok (reply.setWidth 64))

/-- A reply of 64 bytes of 0xFF for a message, of word 1 for a reeve run: a run that ends early (19 R443, 17 R411). -/
def Run.failed (r : Run) : Row := match r.kind with | .message => BitVec.allOnes 512 | _ => 1

/-- An escalation (R410): the context stops, and its message enters the reeve core's inbox (R411). A handler run ends at
once; from the reeve core's own handler context disposition 1 is taken with no run (19 R443). -/
def State.escalate (s : State) (c k : Nat) : State :=
  let x := s.ctx c k
  let s := s.setCtx c k { x with status := .stopped, hold := .none, run := none }
  let s := match x.run with | some r => s.answerRun c r r.failed | none => s
  let r := s.reeve (c / 512)
  if r = c && k = 4 then s.owe (.disposition (Fin.ofNat 2048 c) 4 1)
  else
    let run : Run :=
      { kind := .escalation, pkg := s.pkgid, core := c, ctx := k, reply := true, msg := 0,
        entry := (s.core r).reevevec, dst := 0, root := x.tblroot,
        payload := rowOfWords [s.corenum c, BitVec.ofNat 64 k, x.trapcause, x.trappc, x.trapinfo, s.seqOf c] }
    let co := s.core r
    (s.setCore r { co with inbox := co.inbox ++ [run] }).owe (.escalationRun (Fin.ofNat 2048 r))

/-- The count towards the save deadline stops when a trap's handling begins (R407). -/
def Ctx.stopCount (x : Ctx) (now : Nat) : Ctx :=
  if x.counts && !x.handling then { x with deadline := x.deadline + (now - x.since), since := now } else x

/-- A trap of the acting context whose results have all returned: they commit, the registers are filled, the hamlet's flag
is set, and the context enters TRAPVEC at device-runtime privilege (R407), or escalates (R410). -/
def State.enterTrap (s : State) (notice direct : Bool) (cause : BitVec 6) (info pc : Word) : State :=
  let s := s.commitAll
  let x := s.me.stopCount s.cycle.toNat
  let esc := direct || x.handling || x.inGang || s.onHandler
  let y := x.fillTrap s.curCtx notice cause info pc
  let s := if cause = 0x13 then s else s.mark (hamOf s.curCore) Marks.trapped
  if esc then (s.setMe y).escalate s.curCore s.curCtx
  else s.setMe { y with priv := .runtime, pc := sext57 (x.trapvec.setWidth 57), hold := .none }

/-- A precise or deferred trap of the acting context (R407, R408). Its outstanding results commit first; while one has
not returned, the context holds (R193). -/
def State.trap (s : State) (cause : BitVec 6) (info : Word) (pc : Word) : State :=
  if s.me.returned then s.enterTrap false false cause info pc else s.stall

/-- Memory Uncorrectable, direct, on a context that holds a strand or a run (R408, R410), raised by another party than its
own instruction; it waits until the results of the context have returned (R193). -/
def State.storageTrap (s : State) (c k : Nat) (info : Word) : State :=
  let x := s.ctx c k
  if x.status = .idle || x.status = .stopped then s
  else if !x.returned then s.setCtx c k { x with late := some (x.late.getD (info, x.faultPc, true)) }
  else ((s.as c k).enterTrap false true 0x11 info x.faultPc).as s.curCore s.curCtx

/-- A Memory Uncorrectable that has waited for the results of a context is taken. -/
def State.takeLate (s : State) (c k : Nat) : State :=
  let x := s.ctx c k
  match x.late with
  | some (info, pc, direct) =>
    if x.returned then
      (((s.setCtx c k { x with late := none }).as c k).enterTrap false direct 0x11 info pc).as s.curCore s.curCtx
    else s
  | none => s

/-- The return from a trap (R343): the pc and the privilege come back, and TRAPCAUSE `valid` clears; every other bit of
TRAPCAUSE stays. A REP whose body was interrupted is re-executed at its own address. The count towards the save deadline goes
on from this cycle (R407). -/
def Ctx.rte (x : Ctx) (now : Nat) : Ctx :=
  { x with pc := x.trappc, priv := Priv.ofCode (fld x.trapcause 11 10), since := now,
           trapcause := setFld x.trapcause 12 12 0 }

end Sys2Proof.Machine
end

