-- ==== Sys2Proof/Machine/Operands.lean ====
section
/-! DEFINITION. The operand forms (07 R174, R183 to R185, 11 R288, 18 R424), and the frame that every instruction runs in:
waits, predicate, body, and what becomes of it (18 R417, R418). -/

namespace Sys2Proof.Machine

/-- What an instruction's own effect comes to. -/
inductive Act where
  /-- the instruction retires; execution goes on after it -/
  | done (s : State)
  /-- the instruction retires; execution goes on at an address -/
  | jump (s : State) (pc : Word)
  /-- a precise or deferred trap: nothing else changes -/
  | trap (cause : BitVec 6) (info : Word)
  /-- a precise trap whose raising itself changes the state (19 R432) -/
  | trapIn (s : State) (cause : BitVec 6) (info : Word)
  /-- a software trap, whose TRAPPC is the next instruction (R342) -/
  | trapNext (cause : BitVec 6) (info : Word)
  /-- a trap reported straight to the reeve core (R408) -/
  | direct (cause : BitVec 6) (info : Word)
  /-- a parking instruction whose condition is false (R47), with what the test itself changed -/
  | park (s : State) (cond : BitVec 5) (key : Word)
  /-- every pager future is held: the context stays PARKING until one is released (05 R142) -/
  | starve (s : State)
  /-- a wait that is not met: the instruction is issued again later (R66) -/
  | hold (s : State)
  /-- the acting context no longer runs the instruction's strand: nothing is retired -/
  | left (s : State)

/-- A scalar operand's register-store address (R174). -/
def scAddr (o : Ops) (x : BitVec 16) : Nat := if o.long then x.toNat else 8 * x.toNat

/-- The scalar at a register-store address. -/
def State.sc (s : State) (a : Nat) : Word := BitVec.ofNat 64 (s.rs a 8)

/-- The value of a scalar operand field. -/
def State.scOp (s : State) (o : Ops) (x : BitVec 16) : Word := s.sc (scAddr o x)

/-- Operand b as an immediate (R174, R175, R199): the literal, or the field sign-extended. -/
def immOf (o : Ops) : Word :=
  match o.lit with
  | some l => l
  | none => if o.long then o.b.signExtend 64 else (o.b.setWidth 6 : BitVec 6).signExtend 64

/-- Operand b of an opcode with function bit [3] (R199). -/
def State.bOp (s : State) (o : Ops) (imm : Bool) : Word := if imm then immOf o else s.scOp o o.b

/-- Operand b of an opcode whose literal replaces the scalar (R202). -/
def State.bLit (s : State) (o : Ops) : Word := match o.lit with | some l => l | none => s.scOp o o.b

/-- A memory displacement (R200): the one-word field counts accesses of `n` bytes. -/
def dispOf (o : Ops) (n : Nat) : Word :=
  if o.long || o.lit.isSome then immOf o else immOf o * BitVec.ofNat 64 n

/-- The effective address of a memory operand (R200). -/
def State.ea (s : State) (o : Ops) (n : Nat) : Word := s.scOp o o.a + dispOf o n

/-- A place in the register store that an operand names: its first byte, its length, what TRAPINFO says of it, and whether it must be
ordinary store bytes. -/
structure Loc where
  addr : Nat
  bytes : Nat
  view : Nat := 0
  cls : Nat := 3
  storeOnly : Bool := false
  deriving DecidableEq, Repr

/-- TRAPINFO of View Bounds (17 R408). -/
def viewInfo (byte view cls : Nat) : Word := BitVec.ofNat 64 (byte % 65536 + view % 16 * 65536 + cls % 4 * 1048576)

/-- Whether the acting context owns its core's mill (10 R267). -/
def State.ownsMill (s : State) : Bool := s.myCore.mill.owned && s.myCore.mill.owner == s.curCtx && !s.onHandler

/-- MILLST (11 R290). -/
def Mill.millst (m : Mill) : Word :=
  BitVec.ofNat 64
    ((if m.owned then 2 ^ 63 else 0) + m.owner % 8 * 2 ^ 60 + (if m.gang then 2 ^ 59 else 0) + m.pend.toNat * 2 ^ 48
      + m.queue.length % 4 * 2 ^ 46)

/-- The end of the ordinary register store of a context (05 R120). -/
def State.storeEnd (s : State) : Nat := if s.onHandler then 0x400 else 0x2000

/-- The first byte of a place that lies outside the context's bounds (05 R120, R424). A view of class 0 or 1 may name
ordinary store bytes only (R185), one of class 2 accumulator bytes only; other operands either. -/
def State.outOf (s : State) (l : Loc) : Option Nat :=
  let lo := if l.cls = 2 then 0x4000 else 0
  let hi := if l.cls = 2 then 0xD000 else s.storeEnd
  if lo ≤ l.addr && l.addr + l.bytes ≤ hi then none
  else if l.cls = 3 && !l.storeOnly && !s.onHandler && 0x4000 ≤ l.addr && l.addr + l.bytes ≤ 0xD000 then none
  else if l.addr < lo || hi ≤ l.addr then
    if l.cls = 3 && !l.storeOnly && !s.onHandler && 0x4000 ≤ l.addr && l.addr < 0xD000 then some 0xD000 else some l.addr
  else some hi

/-- The fault of a place, if any: View Bounds, then Mill Ownership (R424). -/
def State.locFault (s : State) (l : Loc) : Option (BitVec 6 × Word) :=
  match s.outOf l with
  | some b => some (0x08, viewInfo b l.view l.cls)
  | none => if 0x4000 ≤ l.addr && !s.ownsMill then some (0x09, s.myCore.mill.millst) else none

/-- The first fault among places: View Bounds of any comes before Mill Ownership of any (17 R409). -/
def State.locsFault (s : State) (ls : List Loc) : Option (BitVec 6 × Word) :=
  let fs := ls.filterMap s.locFault
  match fs.find? fun f => f.1 = 0x08 with
  | some f => some f
  | none => fs.head?

/-- A scalar operand as a place. -/
def scLoc (o : Ops) (x : BitVec 16) : Loc := { addr := scAddr o x, bytes := 8 }

/-- An operand of `n` bytes named like a scalar: a pair, a descriptor, a payload row or a channel slot. -/
def rsLoc (o : Ops) (x : BitVec 16) (n : Nat) : Loc := { addr := scAddr o x, bytes := n }

/-! ### Views -/

/-- xf of an extended form; 0 in a one-word one. -/
def xfOf (o : Ops) : BitVec 8 := match o.ext with | some c => c.xf | none => 0

/-- A view as it stands (R184): its fields, and the class and number it was named by. -/
structure View where
  word : Word
  base : Nat
  etype : BitVec 4
  rows : Nat
  cols : Nat
  pitch : Nat
  num : Nat
  cls : Nat
  deriving DecidableEq, Repr

/-- Register-store address of a view (R183): vector views, tile views, accumulator views. -/
def viewAddr (cls n : Nat) : Nat := if cls = 0 then 0x200 + 8 * n else if cls = 1 then 0x280 + 8 * n else 0x2C0 + 8 * n

/-- The view that a word holds, with its base replaced by an extended form's row (R174). -/
def viewOf (w : Word) (cls n : Nat) (row : Option Nat) : View :=
  { word := w, base := match row with | some r => 64 * r | none => fld w 15 0, etype := w.extractLsb' 16 4,
    rows := fld w 39 32 + 1, cols := fld w 47 40 + 1, pitch := 8 * fld w 57 48, num := n, cls := cls }

/-- The view that an operand field of a class names. -/
def State.view (s : State) (o : Ops) (cls : Nat) (x : BitVec 16) : View :=
  let n := if cls = 0 then x.toNat % 16 else if cls = 1 then x.toNat % 8 else x.toNat % 4
  viewOf (s.sc (viewAddr cls n)) cls n (if o.long then some (x.toNat / 64) else none)

/-- The vector view that an operand field names. -/
def State.vec (s : State) (o : Ops) (x : BitVec 16) : View := s.view o 0 x

/-- Width in bits of the elements of a type code; 0 for those without one (07 R176, 04 R94). -/
def widthOf (e : BitVec 4) : Nat :=
  if e = 1 || e = 5 then 8 else if e = 2 || e = 6 || e = 9 || e = 10 then 16
  else if e = 3 || e = 7 || e = 11 then 32 else if e = 4 || e = 8 || e = 12 then 64
  else if e = 13 then 4 else 0

/-- Whether a code is an integer type with a sign (.i8 to .i64, .i4). -/
def isSigned (e : BitVec 4) : Bool := (1 ≤ e.toNat && e.toNat ≤ 4) || e = 13

/-- Whether a code is one of .i8 to .n64. -/
def isInt (e : BitVec 4) : Bool := 1 ≤ e.toNat && e.toNat ≤ 8

/-- Whether a code is one of .f16, .bf16, .f32 and .f64. -/
def isFloat (e : BitVec 4) : Bool := 9 ≤ e.toNat && e.toNat ≤ 12

/-- The fault of a vector view (R185): its type, its reserved bits, its base, and the bytes that it covers. -/
def State.vecFault (s : State) (v : View) (ok : Bool) : Option (BitVec 6 × Word) :=
  if !(isInt v.etype || isFloat v.etype) || fld v.word 63 58 ≠ 0 || fld v.word 31 20 ≠ 0 || v.base % 64 ≠ 0 || !ok then
    some (0x08, viewInfo v.base v.num 0)
  else s.locFault { addr := v.base, bytes := 64, view := v.num, cls := 0 }

/-! ### The frame of an instruction -/

/-- The named count of a number (06 R160). -/
def Ctx.count (x : Ctx) (n : Nat) : BitVec 16 := if n = 1 then x.c1 else if n = 2 then x.c2 else x.c3

/-- The count wait and the token wait of an extended form (R161, R171) are over. -/
def Ctx.waitsOver (x : Ctx) (c : Ctl) : Bool :=
  (c.cw = 0 || x.count c.cw.toNat = 0) && (c.kmask &&& ~~~ x.tokens) = 0

/-- The lanes that the governing predicate leaves active (R173). -/
def State.lanes (s : State) (o : Ops) : Word :=
  match o.ext with
  | none => BitVec.allOnes 64
  | some c => if c.pneg then ~~~ (s.me.pred c.pred.toNat) else s.me.pred c.pred.toNat

/-- The latches after an instruction's reads (R180): the row of each position that it reads from the register store. -/
def Ctx.latch (x : Ctx) (a b d : Option Nat) : Ctx :=
  { x with latchA := a.orElse fun _ => x.latchA, latchB := b.orElse fun _ => x.latchB,
           latchD := d.orElse fun _ => x.latchD }

/-- The row that an operand field names, where its kind is read from the register store. -/
def State.operandRow (s : State) (o : Ops) (k : Kind) (x : BitVec 16) : Option Nat :=
  match k with
  | .none | .imm | .pred | .token | .accum => none
  | .vector => some ((s.view o 0 x).base / 64)
  | .tile => some ((s.view o 1 x).base / 64)
  | _ => some (scAddr o x / 64)

/-- The acting context's latches after the instruction's operands are read (R180). -/
def State.latched (s : State) (i : Instr) (o : Ops) : State :=
  match shape i with
  | none => s
  | some sh =>
    s.setMe (s.me.latch (s.operandRow o sh.a o.a) (if o.lit.isSome then none else s.operandRow o sh.b o.b)
      (if sh.srcD then s.operandRow o sh.d o.d else none))

/-- A word of another package that an LDSYNC of the context has been given, or asks for, and that is not in its register yet:
what would move the strand elsewhere waits for it. -/
def Ctx.wordDue (x : Ctx) : Bool := match x.dbuf with | some (a, r) => a.getLsbD 63 && !r.getLsbD 64 | none => false

/-- A context holds in its place and notes what it waits for. -/
def State.waitHere (s : State) (cond : BitVec 5) (key : Word) (episode : BitVec 16) : State :=
  (s.setMe { s.me with parking := some { cond := cond, key := key, episode := episode, inPlace := true } }).stall

/-- A context that leaves RUNNING to park. -/
def Ctx.parked (x : Ctx) (p : Parking) : Ctx :=
  { x with status := .parking, hold := .none, pc := x.faultPc, rep := none, latchA := none, latchB := none, latchD := none,
           parking := some p }

/-- Parking begins (02 R48): every outstanding result commits (07 R193), the context leaves RUNNING, and the save is
owed. While a result has not returned, the context holds. A gang member holds in place instead (02 R41). -/
def State.park (s : State) (cond : BitVec 5) (key : Word) (episode : BitVec 16 := 0) : State :=
  if s.me.inGang then s.waitHere cond key episode
  else if !s.me.returned then s.stall
  else
    let s := s.commitAll
    (s.setMe (s.me.parked { cond := cond, key := key, episode := episode })).owe
      (.parkSaveDone (Fin.ofNat 2048 s.curCore) (Fin.ofNat 5 s.curCtx))

/-- Parking begins and stays unfinished, with no pager future to park on (05 R142); a gang member holds in place. -/
def State.starve (s : State) : State :=
  if s.me.inGang || !s.me.returned then s.stall
  else
    let s := s.commitAll
    s.setMe (s.me.parked { cond := 0x08, key := 0, starved := true })

/-- What becomes of an instruction's own effect. -/
def State.finish (s : State) (i : Instr) (o : Ops) : Act → State
  | .done t => (t.latched i o).retire o
  | .jump t pc => (t.latched i o).retire o (some pc)
  | .trap cause info => s.trap cause info s.me.faultPc
  | .trapIn t cause info => if s.me.returned then t.trap cause info t.me.faultPc else s.stall
  | .trapNext cause info => s.trap cause info (s.me.pc + BitVec.ofNat 64 o.bytes)
  | .direct cause info =>
    if s.me.returned then s.enterTrap false true cause info s.me.faultPc else s.stall
  | .park t cond key => t.park cond key
  | .starve t => t.starve
  | .hold t => t.stall
  | .left t => t

end Sys2Proof.Machine
end

