-- ==== Sys2Proof/Machine/Flags.lean ====
section
/-! DEFINITION. Number formats, exact values and rounding (04 R92 to R108): every result and every flag of FPSTATUS that
an operation raises. -/

namespace Sys2Proof.Machine

/-! ### Flags (R105) -/

/-- The flags that an operation raises, placed as FPSTATUS [5:0] places them. -/
abbrev Flags := BitVec 6

def fNv : Flags := 1
def fDz : Flags := 2
def fOf : Flags := 4
def fUf : Flags := 8
def fNx : Flags := 16
def fSat : Flags := 32

/-- A flag raised under a condition. -/
def raise (f : Flags) (b : Bool) : Flags := if b then f else 0

/-! ### Formats and values -/

/-- A format: a fixed one of R92 (`special` 2) or a free narrow one of R95. `ew` 0 is an integer format, n × 2^−bias. -/
structure Fmt where
  sgn : Bool
  ew : Nat
  mw : Nat
  bias : Int
  special : Nat
  desc : BitVec 32 := 0
  deriving DecidableEq, Repr

/-- An exact value: (−1)^neg × m × 2^e, an infinity, or a NaN, signalling or quiet. -/
inductive Val where
  | fin (neg : Bool) (m : Nat) (e : Int)
  | inf (neg : Bool)
  | nan (signalling : Bool)
  deriving DecidableEq, Repr

def Fmt.f64 : Fmt := { sgn := true, ew := 11, mw := 52, bias := 1023, special := 2 }
def Fmt.f32 : Fmt := { sgn := true, ew := 8, mw := 23, bias := 127, special := 2 }
def Fmt.f16 : Fmt := { sgn := true, ew := 5, mw := 10, bias := 15, special := 2 }
def Fmt.bf16 : Fmt := { sgn := true, ew := 8, mw := 7, bias := 127, special := 2 }

/-- The float format of an element type code (R176). -/
def fmtOfCode (e : BitVec 4) : Fmt :=
  if e = 9 then .f16 else if e = 10 then .bf16 else if e = 11 then .f32 else .f64

/-- The format that a descriptor names (R95). -/
def fmtOfDesc (d : BitVec 32) : Fmt :=
  { sgn := d.getLsbD 31, ew := fld d 30 28, mw := fld d 27 25, bias := (d.extractLsb' 17 8).toInt, special := fld d 16 15,
    desc := d }

/-- Width in bits of a format's elements. -/
def Fmt.width (f : Fmt) : Nat := (if f.sgn then 1 else 0) + f.ew + f.mw

/-- The largest finite code, without its sign (R96). -/
def Fmt.maxCode (f : Fmt) : Nat :=
  if f.ew = 0 then 2 ^ f.mw - 1
  else if f.special = 2 then (2 ^ f.ew - 1) * 2 ^ f.mw - 1
  else if f.special = 1 then 2 ^ (f.ew + f.mw) - 2
  else 2 ^ (f.ew + f.mw) - 1

/-- Exponent of the unit of the smallest non-zero magnitude. -/
def Fmt.unit (f : Fmt) : Int := if f.ew = 0 then -f.bias else 1 - f.bias - f.mw

/-- Magnitude of a finite code without its sign, as a count of units and the unit's exponent (R96). -/
def Fmt.magnitude (f : Fmt) (c : Nat) : Nat × Int :=
  if f.ew = 0 then (c, f.unit)
  else
    let e := c / 2 ^ f.mw
    let m := c % 2 ^ f.mw
    if e = 0 then (m, f.unit) else (2 ^ f.mw + m, f.unit + (e - 1 : Nat))

/-- The value of a code (R96, R92). In a fixed format a NaN is signalling when its top fraction bit is 0 (R93). -/
def Fmt.decode (f : Fmt) (code : Nat) : Val :=
  let body := code % 2 ^ (f.ew + f.mw)
  let neg := f.sgn && code.testBit (f.ew + f.mw)
  if f.ew = 0 then
    if neg then .fin true (2 ^ f.mw - body) f.unit else .fin false body f.unit
  else
    let e := body / 2 ^ f.mw
    let m := body % 2 ^ f.mw
    if f.special = 2 && e = 2 ^ f.ew - 1 then
      if m = 0 then .inf neg else .nan (!m.testBit (f.mw - 1))
    else if f.special = 1 && body = 2 ^ (f.ew + f.mw) - 1 then .nan false
    else let p := f.magnitude body; .fin neg p.1 p.2

/-- The default NaN of a format (R93, R96); none where NaN has no code. -/
def Fmt.defaultNaN (f : Fmt) : Option Nat :=
  if f.ew = 0 || f.special = 0 then none
  else if f.special = 1 then some (2 ^ (f.ew + f.mw) - 1)
  else if f.mw = 0 then none
  else some ((2 ^ f.ew - 1) * 2 ^ f.mw + 2 ^ (f.mw - 1))

/-- The sign bit of a code. -/
def Fmt.signCode (f : Fmt) (neg : Bool) : Nat := if f.sgn && neg then 2 ^ (f.ew + f.mw) else 0

/-- The code of ±n units of an integer format, or of ± a magnitude code. -/
def Fmt.withSign (f : Fmt) (neg : Bool) (c : Nat) : Nat :=
  if f.ew = 0 then (if neg then (2 ^ f.width - c) % 2 ^ f.width else c) else f.signCode neg + c

/-- A descriptor is valid (R97). -/
def descValid (d : BitVec 32) : Bool :=
  let f := fmtOfDesc d
  let p := f.magnitude f.maxCode
  let m := if f.ew = 0 && f.sgn then p.1 + 1 else p.1
  1 ≤ f.width && f.width ≤ 8 && fld d 16 15 ≠ 3 && fld d 14 13 ≠ 3 && fld d 12 11 ≠ 3 && fld d 9 0 = 0
  && (f.ew ≠ 0 || f.special = 0) && (f.special ≠ 2 || 2 ≤ f.ew)
  && (m = 0 || (m.log2 : Int) + p.2 < 128)

/-- Elements in a block (R95 `blk`). -/
def blockOf (d : BitVec 32) : Nat := if fld d 14 13 = 0 then 16 else if fld d 14 13 = 1 then 32 else 64

/-! ### Comparing and scaling exact values -/

/-- m × 2^e as a count of units 2^u, where u ≤ e. -/
def toUnits (m : Nat) (e u : Int) : Nat := m <<< (e - u).toNat

/-- m₁ × 2^e₁ < m₂ × 2^e₂. -/
def ltMag (m₁ : Nat) (e₁ : Int) (m₂ : Nat) (e₂ : Int) : Bool :=
  toUnits m₁ e₁ (min e₁ e₂) < toUnits m₂ e₂ (min e₁ e₂)

/-- ⌊log2 (m × 2^e)⌋ of a non-zero magnitude. -/
def expOf (m : Nat) (e : Int) : Int := m.log2 + e

def Val.isNaN : Val → Bool
  | .nan _ => true
  | _ => false

def Val.signals : Val → Bool
  | .nan true => true
  | _ => false

def Val.isInf : Val → Bool
  | .inf _ => true
  | _ => false

def Val.isZero : Val → Bool
  | .fin _ m _ => m = 0
  | _ => false

def Val.isNeg : Val → Bool
  | .fin n _ _ => n
  | .inf n => n
  | .nan _ => false

def Val.neg : Val → Val
  | .fin n m e => .fin (!n) m e
  | .inf n => .inf (!n)
  | v => v

/-- The value of an integer. -/
def Val.ofInt (n : Int) : Val := .fin (n < 0) n.natAbs 0

/-- Less than, of values that are not NaNs; −0 equals +0. -/
def Val.lt : Val → Val → Bool
  | .inf a, .inf b => a && !b
  | .inf a, _ => a
  | _, .inf b => !b
  | .fin n₁ m₁ e₁, .fin n₂ m₂ e₂ =>
    if m₁ = 0 then m₂ ≠ 0 && !n₂
    else if m₂ = 0 then n₁
    else if n₁ ≠ n₂ then n₁
    else if n₁ then ltMag m₂ e₂ m₁ e₁ else ltMag m₁ e₁ m₂ e₂
  | _, _ => false

/-! ### Rounding (R107, R108) -/

/-- Rounding modes (R104): 1 RNE, 2 RTZ, 3 RUP, 4 RDN, 5 SR. -/
abbrev Mode := Nat

/-- m × 2^e as a count of units 2^u, rounded by a mode; whether bits were lost. `x` is SR's draw (R108). A tie under RNE goes to
the neighbour whose code is even, `base` + the count being the code of the lower one (R107). -/
def roundUnits (mode : Mode) (x : Nat) (neg : Bool) (m : Nat) (e u : Int) (base : Nat := 0) : Nat × Bool :=
  if u ≤ e then (toUnits m e u, false)
  else
    let sh := (u - e).toNat
    let q := m >>> sh
    let r := m % 2 ^ sh
    let up : Bool :=
      if mode = 1 then 2 ^ sh < 2 * r || (2 * r = 2 ^ sh && (base + q) % 2 = 1)
      else if mode = 3 then !neg
      else if mode = 4 then neg
      else if mode = 5 then x < (r <<< 32) >>> sh
      else false
    if r = 0 then (q, false) else (if up then q + 1 else q, true)

/-- Tiny after rounding (R93): the value rounded with an unbounded exponent lies below the smallest normal. Under SR the
result itself is looked at. -/
def Fmt.tiny (f : Fmt) (mode : Mode) (neg : Bool) (m : Nat) (e : Int) (q : Nat) : Bool :=
  let k := expOf m e
  if 1 - f.bias ≤ k then false
  else if mode = 5 then q < 2 ^ f.mw
  else !(k = -f.bias && (roundUnits mode 0 neg m e (k - f.mw) (if f.mw = 0 then 1 else 0)).1 = 2 ^ (f.mw + 1))

/-- Round of a finite non-zero value into a format with an exponent field. -/
def Fmt.roundFloat (f : Fmt) (mode : Mode) (x : Nat) (neg : Bool) (m : Nat) (e : Int) : Nat × Flags :=
  let top := f.magnitude f.maxCode
  if (f.special ≠ 2 || mode = 5) && ltMag top.1 top.2 m e then (f.withSign neg f.maxCode, fSat ||| fOf ||| fNx)
  else
    let u := max (expOf m e - f.mw) f.unit
    let base := (u - f.unit).toNat * 2 ^ f.mw
    let (q, inexact) := roundUnits mode x neg m e u base
    let code := base + q
    if f.maxCode < code then
      let toInf := mode = 1 || (mode = 3 && !neg) || (mode = 4 && neg)
      (f.withSign neg (if toInf then f.maxCode + 1 else f.maxCode), fOf ||| fNx)
    else (f.withSign neg code, raise fNx inexact ||| raise fUf (inexact && f.tiny mode neg m e q))

/-- Round of a finite non-zero value into an integer format of R96: an exact value is kept, a magnitude beyond the
largest finite value gives ± that value. -/
def Fmt.roundFixed (f : Fmt) (mode : Mode) (x : Nat) (neg : Bool) (m : Nat) (e : Int) : Nat × Flags :=
  let (q, inexact) := roundUnits mode x neg m e f.unit
  if neg && !inexact && q = f.maxCode + 1 then (f.withSign true q, 0)
  else if ltMag f.maxCode f.unit m e then (f.withSign neg f.maxCode, fSat ||| fOf ||| fNx)
  else (f.withSign neg q, raise fNx inexact)

/-- Round(v, f, m) of R107: the code and the flags. The flags of the value's own operation are not among them. -/
def Fmt.round (f : Fmt) (mode : Mode) (x : Nat) : Val → Nat × Flags
  | .nan _ => match f.defaultNaN with | some c => (c, 0) | none => (0, fNv)
  | .inf neg =>
    if neg && !f.sgn then ((Config.negInfUnsigned f.desc).toNat % 2 ^ f.width, raise fSat (f.special = 0))
    else if f.ew ≠ 0 && f.special = 2 then (f.withSign neg (f.maxCode + 1), 0)
    else (f.withSign neg f.maxCode, raise fSat (f.special = 0))
  | .fin neg m e =>
    if neg && !f.sgn then (0, raise (fSat ||| fNx) (m ≠ 0))
    else if m = 0 then (if f.ew = 0 then 0 else f.signCode neg, 0)
    else if f.ew = 0 then f.roundFixed mode x neg m e
    else f.roundFloat mode x neg m e

/-- One step of SRSTATE (R108), which is also the draw. -/
def srStep (s : BitVec 32) : BitVec 32 :=
  let x := if s = 0 then 0x2545F491 else s
  let x := x ^^^ (x <<< 13)
  let x := x ^^^ (x >>> 17)
  x ^^^ (x <<< 5)

/-- Range of an integer type of `w` bits. -/
def intRange (sg : Bool) (w : Nat) : Int × Int := if sg then (-(2 ^ (w - 1) : Nat), (2 ^ (w - 1) : Nat) - 1) else (0, (2 ^ w : Nat) - 1)

/-- Saturate(n, f) of R107: the value, and whether it changed. -/
def saturate (sg : Bool) (w : Nat) (n : Int) : Int × Bool :=
  let r := intRange sg w
  if n < r.1 then (r.1, true) else if r.2 < n then (r.2, true) else (n, false)

/-- A value converted to an integer type (R257): `beyond` is the flag of a value out of range, and of an infinity. -/
def toInteger (sg : Bool) (w : Nat) (beyond : Flags) (mode : Mode) (x : Nat) : Val → Int × Flags
  | .nan _ => (0, fNv)
  | .inf neg => (if neg then (intRange sg w).1 else (intRange sg w).2, beyond)
  | .fin neg m e =>
    let (q, inexact) := roundUnits mode x neg m e 0
    let (n, changed) := saturate sg w (if neg then -(q : Int) else q)
    (n, if changed then beyond else raise fNx inexact)

/-! ### Exact operations: a value and the flags that it raises by itself -/

/-- `nv` for a signalling NaN among the operands (R93). -/
def snanFlag (vs : List Val) : Flags := raise fNv (vs.any Val.signals)

/-- The integer count of units 2^u of a finite value with u ≤ e. -/
def signedUnits (neg : Bool) (m : Nat) (e u : Int) : Int := if neg then -(toUnits m e u : Int) else toUnits m e u

/-- An exact sum of two values; an exact zero takes the sign that R208 gives under the mode. -/
def addVal (mode : Mode) (a b : Val) : Val × Flags :=
  match a, b with
  | .nan _, _ | _, .nan _ => (.nan false, snanFlag [a, b])
  | .inf n, .inf k => if n = k then (.inf n, 0) else (.nan false, fNv)
  | .inf n, _ => (.inf n, 0)
  | _, .inf n => (.inf n, 0)
  | .fin n₁ m₁ e₁, .fin n₂ m₂ e₂ =>
    let u := min e₁ e₂
    let t := signedUnits n₁ m₁ e₁ u + signedUnits n₂ m₂ e₂ u
    if t ≠ 0 then (.fin (t < 0) t.natAbs u, 0)
    else if m₁ = 0 && m₂ = 0 && n₁ = n₂ then (.fin n₁ 0 0, 0)
    else (.fin (mode = 4) 0 0, 0)

/-- An exact product. -/
def mulVal (a b : Val) : Val × Flags :=
  match a, b with
  | .nan _, _ | _, .nan _ => (.nan false, snanFlag [a, b])
  | .fin n₁ m₁ e₁, .fin n₂ m₂ e₂ => (.fin (n₁ != n₂) (m₁ * m₂) (e₁ + e₂), 0)
  | _, _ => if a.isZero || b.isZero then (.nan false, fNv) else (.inf (a.isNeg != b.isNeg), 0)

/-- The quotient of two magnitudes, its lowest bit sticky: enough bits for every rounding. -/
def quotVal (neg : Bool) (m₁ : Nat) (e₁ : Int) (m₂ : Nat) (e₂ : Int) : Val :=
  let k := 160 + m₂.log2 - m₁.log2
  let q := (m₁ <<< k) / m₂
  let r := (m₁ <<< k) % m₂
  .fin neg (2 * q + (if r = 0 then 0 else 1)) (e₁ - e₂ - k - 1)

/-- An exact quotient, for rounding (R208). -/
def divVal (a b : Val) : Val × Flags :=
  let s := a.isNeg != b.isNeg
  match a, b with
  | .nan _, _ | _, .nan _ => (.nan false, snanFlag [a, b])
  | .inf _, .inf _ => (.nan false, fNv)
  | .inf _, _ => (.inf s, 0)
  | _, .inf _ => (.fin s 0 0, 0)
  | .fin _ m₁ e₁, .fin _ m₂ e₂ =>
    if m₁ = 0 then (if m₂ = 0 then (.nan false, fNv) else (.fin s 0 0, 0))
    else if m₂ = 0 then (.inf s, fDz)
    else (quotVal s m₁ e₁ m₂ e₂, 0)

/-- ⌊√n⌋ by bits: the root found so far and the bits that remain. -/
def isqrtFrom (n : Nat) : Nat → Nat → Nat
  | 0, r => r
  | b + 1, r =>
    let t := r + 2 ^ b
    if t * t ≤ n then isqrtFrom n b t else isqrtFrom n b r

/-- ⌊√n⌋. -/
def isqrt (n : Nat) : Nat := isqrtFrom n (n.log2 / 2 + 1) 0

/-- The root of a magnitude, its lowest bit sticky. -/
def rootVal (m : Nat) (e : Int) : Val :=
  let k := 320 - m.log2 + (e + 320 - m.log2).natAbs % 2
  let n := m <<< k
  let r := isqrt n
  .fin false (2 * r + (if r * r = n then 0 else 1)) ((e - k) / 2 - 1)

/-- An exact square root, for rounding (R208). -/
def sqrtVal (a : Val) : Val × Flags :=
  match a with
  | .nan s => (.nan false, raise fNv s)
  | .inf n => if n then (.nan false, fNv) else (a, 0)
  | .fin n m e => if m = 0 then (a, 0) else if n then (.nan false, fNv) else (rootVal m e, 0)

/-- a × b + c for rounding (R208): the zero-sign rule applies to the product and the addend. -/
def fmaVal (mode : Mode) (f : FmaFn) (a b c : Val) : Val × Flags :=
  let (p, fl) := mulVal a b
  let p := match f with | .nm | .nms => p.neg | _ => p
  let z := match f with | .ms | .nms => c.neg | _ => c
  let invalid := !a.isNaN && !b.isNaN && p.isNaN
  if invalid && c.isNaN then (.nan false, raise fNv (c.signals || Config.fmaQuietInvalid))
  else let (v, g) := addVal mode p z; (v, fl ||| g)

/-- Round with the flags of the operation that formed the value. -/
def Fmt.finish (f : Fmt) (mode : Mode) (p : Val × Flags) : Nat × Flags :=
  let r := f.round mode 0 p.1
  (r.1, p.2 ||| r.2)

/-- FMINMAX (R209): one operand unchanged, −0 below +0. -/
def minmaxCode (f : Fmt) (isMax : Bool) (x y : Nat) : Nat × Flags :=
  let a := f.decode x
  let b := f.decode y
  let fl := snanFlag [a, b]
  if a.isNaN && b.isNaN then ((f.defaultNaN).getD 0, fl)
  else if a.isNaN then (y, fl)
  else if b.isNaN then (x, fl)
  else
    let less := a.lt b || (a.isZero && b.isZero && a.isNeg && !b.isNeg)
    (if isMax then (if less then y else x)
     else if less || (!b.lt a && !(a.isZero && b.isZero && b.isNeg && !a.isNeg)) then x else y, fl)

/-- Relations of floats (R209, R246), `.ne` the complement of `.eq`. -/
def relFloat (r : VRel) (a b : Val) : Bool × Flags :=
  let un := a.isNaN || b.isNaN
  let eq := !un && !a.lt b && !b.lt a
  match r with
  | .eq => (eq, snanFlag [a, b])
  | .ne => (!eq, snanFlag [a, b])
  | .lt => (!un && a.lt b, raise fNv un)
  | .le => (!un && (a.lt b || eq), raise fNv un)
  | .un => (un, snanFlag [a, b])

/-- The mode of an instruction (R202, R239): the override of an extended form, or FPSTATUS `rm`. -/
def State.modeOf (s : State) (o : Ops) : Mode :=
  match o.ext with
  | some c => if c.rm = 0 then fld s.me.fpstatus 8 6 else c.rm.toNat
  | none => fld s.me.fpstatus 8 6

/-! ### Block scales (R103) -/

/-- s × the larger of two magnitudes. -/
def maxMag (a : Nat × Int) (v : Val) : Nat × Int :=
  match v with
  | .fin _ m e => if ltMag a.1 a.2 m e then (m, e) else a
  | _ => a

/-- The scale word of a block (R103): `scl` its scale mode, `top` the largest finite value V. -/
def blockScale (scl : Nat) (top : Nat × Int) (d : BitVec 32) (xs : List Val) : BitVec 32 :=
  let a := xs.foldl maxMag (0, 0)
  if scl = 0 || a.1 = 0 then 0x3F800000
  else if top.1 = 0 then Config.scaleOfZero d
  else if scl = 1 then
    let c := (Fmt.f32.round 3 0 (quotVal false a.1 a.2 top.1 top.2)).1
    if c = 0x7F800000 then 0x7F7FFFFF else BitVec.ofNat 32 c
  else
    let n := max (-127) (min 127 (expOf a.1 a.2 - expOf top.1 top.2))
    BitVec.ofNat 32 (Fmt.f32.round 1 0 (.fin false 1 n)).1

/-- A scale word that R101 forbids: negative, zero, an infinity or a NaN. -/
def badScale (t : BitVec 32) : Bool := t.getLsbD 31 || t = 0 || fld t 30 23 = 255

/-- The exact value of a scale word that R101 allows. -/
def scaleVal (t : BitVec 32) : Val := Fmt.f32.decode t.toNat

/-! ### Fixed orders (R109, R113, R114) -/

/-- GroupSum of R109: the products of one group with the flags raised in forming them; `win` is 0 for narrow and integer
classes, 64 for BF16 and FP16, 80 for FP32. An exact sum of 0 in a narrow or integer class is +0, also of products that are
all −0: the spec says no sign (DESIGN CHOICE, log entry 39). -/
def groupSum (win : Nat) (ps : List Val) : Val × Flags :=
  let isInf (n : Bool) (v : Val) : Bool := v = .inf n
  let nan := ps.any Val.isNaN
  let both := ps.any (isInf true) && ps.any (isInf false)
  if nan || both then (.nan false, raise fNv both)
  else match ps.find? Val.isInf with
    | some v => (v, 0)
    | none =>
      let nz := ps.filter fun p => !p.isZero
      if nz.isEmpty then
        (.fin (win ≠ 0 && !ps.isEmpty && ps.all Val.isNeg) 0 0, 0)
      else
        let es := nz.map fun p => match p with | .fin _ m e => expOf m e | _ => 0
        let us := nz.map fun p => match p with | .fin _ _ e => e | _ => 0
        let u : Int := if win = 0 then us.foldl min (us.headD 0) else es.foldl max (es.headD 0) - win
        let terms := nz.map fun p => match p with
          | .fin n m e => let (q, lost) := roundUnits 2 0 n m e u; ((if n then -(q : Int) else q), lost)
          | _ => (0, false)
        let t : Int := terms.foldl (fun acc x => acc + x.1) 0
        (.fin (t < 0) t.natAbs u, raise fNx (terms.any Prod.snd))

/-- One level of the pairwise tree of R113: neighbours combined, a missing side passing the other on. -/
def treeLevel {α : Type} (f : α → α → α) : List (Option α) → List (Option α)
  | a :: b :: r =>
    (match a, b with
     | some x, some y => some (f x y)
     | some x, none => some x
     | none, y => y) :: treeLevel f r
  | l => l

/-- The fixed pairwise tree of R113 over `2^n` lanes; none where no lane is active. -/
def tree {α : Type} (f : α → α → α) : Nat → List (Option α) → Option α
  | 0, l => l.headD none
  | n + 1, l => tree f n (treeLevel f l)

end Sys2Proof.Machine
end

