-- ==== Sys2Proof/Machine/Access.lean ====
section
/-! DEFINITION. Memory as parties see it: the local physical map and its homes (05 R122 to R124), zero lines and scale
windows (05 R131, R133), translation (05 R121, R135 to R141), a hamlet's copies (05 R125 to R128) and the effects of
release and acquire (06 R148). -/

namespace Sys2Proof.Machine

/-! ### The local physical map -/

/-- What a local physical address names (R122). -/
inductive Region where
  | hbm
  | lpddr
  | cxl (port : Nat)
  | stash (core : Nat)
  | commons (h : Nat)
  | control
  | unbacked
  deriving DecidableEq, Repr

/-- Stash storage of a core, and commons of a hamlet (R122). -/
def stashBase (c : Nat) : Nat := 0x3D0000000000 + c * 0x40000
def commonsBase (h : Nat) : Nat := 0x3E0000000000 + h * 0x200000

/-- Control space (R122, 13 R351). -/
def controlBase : Nat := 0x3F0000000000

/-- The region of a local physical address (R122). -/
def State.region (s : State) (pa : Nat) : Region :=
  if pa < 0x8000000000 then .hbm
  else if 0x20000000000 ≤ pa && pa < 0x40000000000 then
    if pa - 0x20000000000 < s.hub.lpddr then .lpddr else .unbacked
  else if 0x100000000000 ≤ pa && pa < 0x180000000000 then
    let n := (pa - 0x100000000000) / 2 ^ 40
    let cap := min ((look 0 s.hub.cxl n).toNat) 768 * 2 ^ 30
    if (pa - 0x100000000000) % 2 ^ 40 < cap then .cxl n else .unbacked
  else if 0x3D0000000000 ≤ pa && pa < 0x3D0020000000 then .stash ((pa - 0x3D0000000000) / 0x40000)
  else if 0x3E0000000000 ≤ pa && pa < 0x3E0020000000 then .commons ((pa - 0x3E0000000000) / 0x200000)
  else if 0x3F0000000000 ≤ pa && pa < 0x400000000000 then .control
  else .unbacked

/-- Whether an address is global memory: first tier, second tier or CXL (R123). -/
def Region.global : Region → Bool
  | .hbm | .lpddr | .cxl _ => true
  | _ => false

/-- The home that messages to an address travel to (R123, R124, 06 R160): a slice 0 to 63, or 64 + the hamlet for its
commons and stash storage; 320 for what has no home. -/
def State.homeOf (s : State) (pa : Nat) : Nat :=
  let b := BitVec.ofNat 46 pa
  match s.region pa with
  | .hbm =>
    let t := fld b 14 12
    (t / 2) * 16 + (t % 2) * 8 + (fld b 8 6 ^^^ fld b 20 18)
  | .lpddr | .cxl _ => fld b 11 6 ^^^ fld b 21 16
  | .stash c => 64 + hamOf c
  | .commons h => 64 + h
  | _ => 320

/-- The memory controller of an address, numbered as RANGE numbers them (13 R357): HBM stacks, LPDDR6 channels in pairs,
CXL ports. -/
def State.controllerOf (s : State) (pa : Nat) : Nat :=
  let b := BitVec.ofNat 46 pa
  match s.region pa with
  | .hbm => fld b 14 12
  | .lpddr => 8 + fld b 15 12 / 2
  | .cxl n => 16 + n
  | _ => 24

/-- The hamlet whose commons or stash storage holds an address is fenced: it answers nothing (17 R415). -/
def State.fencedAt (s : State) (pa : Nat) : Bool :=
  match s.region pa with
  | .stash c => (s.ham (hamOf c)).fenced
  | .commons h => (s.ham h).fenced
  | _ => false

/-! ### Frames (R29) -/

/-- The 64 bytes of a frame. -/
def Frame.row (f : Frame) : Row :=
  let b (x : Bool) (n : Nat) : Nat := if x then 2 ^ n else 0
  BitVec.ofNat 512
    (f.tile[3].toNat * 2 ^ 480 + f.tile[2].toNat * 2 ^ 448 + f.tile[1].toNat * 2 ^ 416 + f.tile[0].toNat * 2 ^ 384
      + b f.donated 373 + b f.root 372 + f.originh.toNat * 2 ^ 340 + f.originpkg.toNat * 2 ^ 320 + f.arg.toNat * 2 ^ 256
      + f.repstate.toNat * 2 ^ 224 + f.features.toNat * 2 ^ 192 + f.parentj.toNat * 2 ^ 160 + f.synch.toNat * 2 ^ 128
      + f.fp.toNat * 2 ^ 64 + b f.published 61 + f.prio.toNat * 2 ^ 59 + f.kind.toNat * 2 ^ 57 + f.pc.toNat)

/-- The frame that 64 bytes hold. -/
def frameOf (r : Row) : Frame where
  tile := #v[r.extractLsb' 384 32, r.extractLsb' 416 32, r.extractLsb' 448 32, r.extractLsb' 480 32]
  donated := r.getLsbD 373
  root := r.getLsbD 372
  originh := r.extractLsb' 340 32
  originpkg := r.extractLsb' 320 20
  arg := r.extractLsb' 256 64
  repstate := r.extractLsb' 224 32
  features := r.extractLsb' 192 32
  parentj := r.extractLsb' 160 32
  synch := r.extractLsb' 128 32
  fp := r.extractLsb' 64 57
  published := r.getLsbD 61
  prio := r.extractLsb' 59 2
  kind := r.extractLsb' 57 2
  pc := r.extractLsb' 0 57

/-! ### Hub-side records that an access may cause -/

/-- An error record (17 R413): its fields. -/
structure ErrRec where
  event : Nat
  cls : Nat
  addr : Nat := 0
  seq : Word := 0
  info : Word := 0
  tpc : Word := 0
  count : Nat := 0
  core : Nat := 0x7FF
  unit : Nat := 0
  cause : Nat := 0
  deriving DecidableEq, Repr

/-- Position in local physical memory of an error record (13 R351). -/
def errAddr (n : Nat) : Nat := controlBase + 0x200000 + 64 * (n % 1024)

/-- The 64 bytes of an error record with `valid` 1 (17 R413). -/
def errRow (time : Word) (lost : BitVec 32) (e : ErrRec) : Row :=
  BitVec.ofNat 512
    (time.toNat * 2 ^ 448 + e.addr * 2 ^ 384 + e.seq.toNat * 2 ^ 320 + e.info.toNat * 2 ^ 256 + e.tpc.toNat * 2 ^ 192
      + lost.toNat * 2 ^ 96 + min e.count 65535 * 2 ^ 80 + e.core % 2048 * 2 ^ 69 + e.unit % 65536 * 2 ^ 48
      + e.event % 256 * 2 ^ 40 + e.cls % 16 * 2 ^ 36 + e.cause % 64 * 2 ^ 30 + 1)

/-- An interrupt raised at the hub (13 R352), delivered to the source's own target with its identity. -/
def State.irq (s : State) (n : Nat) : State :=
  { s with hub := { s.hub with irqs := s.hub.irqs ++ [n], msis := s.hub.msis ++ [look 0 s.hub.irqTable n] } }

/-- The launch that an error record names keeps the highest class of them (02 R56). -/
def classed (ls : List Launch) (seq : Word) (cls : Nat) : List Launch :=
  ls.map fun l => if l.seq = seq then { l with cls := max l.cls cls } else l

/-- UDP port of the reports (20 R463). -/
def reportUdp : Nat := 49374

/-- The datagram that carries a record (20 R463): the package identifier, the ROM revision and the report number stand before
it. -/
def State.report (s : State) (r : Row) : Report where
  addr := Config.reportAddress
  udp := reportUdp
  header := BitVec.ofNat 128 (s.hub.reportNo % 2 ^ 64 * 2 ^ 64 + Config.romRevision.toNat * 2 ^ 32 + s.pkgid.toNat)
  record := r

/-- An error record, whose bytes are `bs`, put into its ring; records of class 3 or above are also sent from the management port
while service firmware runs (20 R463). -/
def State.putRecord (s : State) (e : ErrRec) (r : Row) (bs : List Byte) : State :=
  let sent : Bool := 3 ≤ e.cls && s.hub.service
  ({ s with
      mem := memWrite s.mem (errAddr s.hub.errPos) bs,
      launches := classed s.launches e.seq e.cls,
      hub := { s.hub with
        errPos := s.hub.errPos + 1, errLost := 0,
        reports := if sent then s.hub.reports ++ [s.report r] else s.hub.reports,
        reportNo := if sent then s.hub.reportNo + 1 else s.hub.reportNo } }).irq 3

/-- Root firmware records an event (17 R413): a record whose `valid` is still 1 drops the event and counts it. -/
def State.record (s : State) (e : ErrRec) : State :=
  let a := errAddr s.hub.errPos
  if (memGet s.mem a).getLsbD 0 then
    { s with hub := { s.hub with errLost := if s.hub.errLost = BitVec.allOnes 32 then s.hub.errLost else s.hub.errLost + 1 } }
  else
    let r := errRow s.cycle s.hub.errLost e
    s.putRecord e r (bytesOf 64 r.toNat)

/-- The record of an access to an unbacked address (R122, 17 R413 event 0x05). -/
def State.recordUnbacked (s : State) (c pa : Nat) : State :=
  s.record { event := 0x05, cls := if (s.ham (hamOf c)).seq.isSome then 4 else 0, addr := pa, seq := s.seqOf c }

/-- An access to an unbacked address is recorded (R122). -/
def State.noteUnbacked (s : State) (c pa : Nat) : State :=
  if s.region pa = .unbacked then s.recordUnbacked c pa else s

/-! ### Lines at home -/

/-- Whether a range register image marks a scale window (R132, R133): enabled, scale mode MX E8M0 decoded. -/
def rangeScales (r : BitVec 256) : Bool := r.getLsbD 46 && fld r 236 235 = 2

/-- The range whose scale window covers a line, with the line's place in it. -/
def scaleRange : Map (BitVec 256) → Nat → Option (BitVec 256 × Nat)
  | [], _ => none
  | (_, r) :: rest, line =>
    let sb := fld r 109 64
    let n := fld r 223 192
    if rangeScales r && sb ≤ line && line < sb + (4 * n + 63) / 64 * 64 then some (r, (line - sb) / 64)
    else scaleRange rest line

/-- FP32 scale word of an E8M0 code (04 R102). -/
def e8m0Decode (c : Byte) : BitVec 32 :=
  if c = 0xFF then 0x7FC00000 else if c = 0 then 0x00400000 else (c.setWidth 32) <<< 23

/-- E8M0 code of an FP32 scale word, 0xFF for a word that E8M0 cannot hold (04 R102). -/
def e8m0Encode (w : BitVec 32) : Byte :=
  if w = 0x00400000 then 0
  else if w.extractLsb' 0 23 = 0 && !w.getLsbD 31 && fld w 30 23 ≠ 0 && fld w 30 23 ≠ 255 then w.extractLsb' 23 8
  else 0xFF

/-- A row from its bytes. -/
def rowOf (bs : List Byte) : Row := BitVec.ofNat 512 (ofBytes bs)

/-- A byte of memory as its slice holds it: of a zero line it is 0 (R131). -/
def State.heldByte (s : State) (pa : Nat) : Byte := if s.zeros.contains (pa / 64) then 0 else memGet s.mem pa

/-- What the fill of a scale-window line reads (R133): 16 codes decoded, words beyond `nblk` zero. -/
def State.scaleFill (s : State) (r : BitVec 256) (q : Nat) : Row :=
  let mb := fld r 173 128
  let n := fld r 223 192
  rowOf ((List.range 16).flatMap fun i =>
    if 16 * q + i < n then bytesOf 4 (e8m0Decode (s.heldByte (mb + 16 * q + i))).toNat else [0, 0, 0, 0])

/-- The 64 bytes of a line as its home serves them. An unbacked line reads as zeros (R122). -/
def State.homeLine (s : State) (line : Nat) : Row :=
  if s.region line = .unbacked then 0
  else match find s.scales line with
    | some r => r
    | none =>
      match scaleRange s.ranges line with
      | some (r, q) => s.scaleFill r q
      | none => if s.zeros.contains (line / 64) then 0 else rowOf (memRead s.mem line 64)

/-- A line that is listed as bad (17 R416), or a scale-window line that holds, or whose fill would read, codes of a listed
line. -/
def State.listedLine (s : State) (line : Nat) : Bool :=
  s.bad.contains line || s.tainted.contains line || (!s.bad.isEmpty && (find s.scales line).isNone &&
    match scaleRange s.ranges line with
    | some (r, q) => s.bad.contains ((fld r 173 128 + 16 * q) / 64 * 64)
    | none => false)

/-! ### Tables in the commons (R130) -/

/-- The word by which a waiter record names another (02 R49): its address, with bit 63 for a record in global memory. -/
def recordName (h : Nat) (area : Option Nat) (w : Waiter) : Nat :=
  if w.overflow then 2 ^ 63 + area.getD 0 + 128 * w.slot else commonsBase h + 0x122000 + 128 * w.slot

/-- The record that a waiter record names next (02 R49, R50): the next one on the overflow list for one that hangs there, else
the next one on the same object's list. -/
def nextRecord (h : Nat) (area : Option Nat) (key : Word) (listed : Bool) : List Waiter → Nat
  | [] => 0
  | w :: r =>
    if w.listed = listed && (listed || w.key = key) then recordName h area w else nextRecord h area key listed r

/-- The 128 bytes of a waiter record (02 R49). -/
def Waiter.image (w : Waiter) (next : Nat) : Nat :=
  w.key.toNat * 2 ^ 704 + w.save.toNat * 2 ^ 640 + next * 2 ^ 576 + w.strand.base.toNat * 2 ^ 544
    + w.strand.deque.getD 0 % 2 ^ 16 * 2 ^ 528 + w.core % 8 * 2 ^ 525 + w.cond.toNat * 2 ^ 520 + w.frame.row.toNat

/-- The bytes of a cell of the waiter pool or of the overflow area: of the record that it holds, or 0. -/
def poolCell (h : Nat) (area : Option Nat) (overflow : Bool) (slot : Nat) : List Waiter → Nat
  | [] => 0
  | w :: r =>
    if w.overflow = overflow && w.slot = slot then w.image (nextRecord h area w.key w.listed r)
    else poolCell h area overflow slot r

/-- The bytes of a cell of a hamlet's records: of one that is linked, or of one whose strand is in a ready queue. -/
def State.cellImage (s : State) (h : Nat) (overflow : Bool) (slot : Nat) : Nat :=
  let linked := poolCell h (s.ham h).area overflow slot (s.ham h).waiters
  let ready := (List.range 8).flatMap fun i =>
    (s.core (8 * h + i)).ready.filterMap fun r => match r with | .woken w => some w | .fresh _ _ _ => none
  let held := (ready.find? fun w => w.overflow = overflow && w.slot = slot).map fun w => w.image 0
  if linked = 0 then held.getD 0 else linked

/-- A byte of a commons from offset 0x100000 on (R130): of the waiter pool, of the full/empty bits, word by word from the lowest
(log entry 30), or of a table whose layout the spec does not give. -/
def State.tableByte (s : State) (h pa : Nat) : Byte :=
  let off := pa - commonsBase h
  if 0x122000 ≤ off && off < 0x162000 then
    BitVec.ofNat 8 (s.cellImage h false ((off - 0x122000) / 128) >>> (8 * ((off - 0x122000) % 128)))
  else if 0x1F2000 ≤ off && off < 0x1F6000 then
    (List.range 8).foldl (fun (b : Byte) i =>
      if s.full.contains (commonsBase h / 8 + 8 * (off - 0x1F2000) + i) then b ||| ones 8 1 i else b) 0
  else Config.tableByte pa s.cycle

/-- Whether an address of a commons names a table of its system area. -/
def isTable (h pa : Nat) : Bool := 0x100000 ≤ pa - commonsBase h

/-- Whether a hamlet has records in its overflow area. -/
def Hamlet.spills (x : Hamlet) : Bool := x.waiters.any Waiter.overflow

/-- The hamlet whose overflow area, with records in it, holds an address (19 R441). -/
def State.areaOf (s : State) (pa : Nat) : Option (Nat × Nat) :=
  s.hamlets.findSome? fun e =>
    if !Hamlet.spills e.2 then none
    else match e.2.area with
      | some a => if a ≤ pa && pa < a + 2 ^ 20 then some (e.1, pa - a) else none
      | none => none

/-- Bytes at a home. All of them lie in one line. -/
def State.homeRead (s : State) (pa n : Nat) : List Byte :=
  match s.region pa with
  | .unbacked => List.replicate n 0
  | .commons h => if isTable h pa then (List.range n).map fun i => s.tableByte h (pa + i) else memRead s.mem pa n
  | .hbm | .lpddr | .cxl _ =>
    match s.areaOf pa with
    | some (h, off) => bytesOf n (s.cellImage h true (off / 128) >>> (8 * (off % 128)))
    | none =>
      if s.scales.isEmpty && s.ranges.isEmpty && s.zeros.isEmpty then memRead s.mem pa n
      else bytesOf n ((s.homeLine (pa / 64 * 64)).toNat >>> (8 * (pa % 64)))
  | _ => memRead s.mem pa n

/-- Bytes at their homes, of an access that may run into the next line. -/
def State.homeSpan (s : State) (pa n : Nat) : List Byte :=
  let k := 64 - pa % 64
  if n ≤ k then s.homeRead pa n else s.homeRead pa k ++ s.homeRead (pa + k) (n - k)

/-- Listed bytes written into a row at an offset. -/
def rowPut (r : Row) (off : Nat) (bs : List (Nat × Byte)) : Row :=
  bs.foldl (fun acc (i, b) => merge acc ((b.setWidth 512) <<< (8 * (off + i))) (ones 512 8 (8 * (off + i)))) r

/-- Listed bytes written to memory. -/
def memPut (m : List Host.Cell) (pa : Nat) (bs : List (Nat × Byte)) : List Host.Cell :=
  bs.foldl (fun acc (i, b) => memSet acc (pa + i) b) m

/-- Ways of each kind in a set of a slice, and the sets of a slice (R131): 8 MiB of data ways. -/
def setWays : Nat := 16
def sliceSets : Nat := 8192

/-- The set of its slice that holds a line: open (log entry 31). -/
def setIdx (line : Nat) : Nat := Config.setOf line % sliceSets

/-- The lines of a list that share the set of a line (R131); none of a list too short to fill a set. -/
def State.sameSet (s : State) (line : Nat) (l : List Nat) : List Nat :=
  if l.length < setWays then [] else l.filter fun z => s.homeOf z = s.homeOf line && setIdx z = setIdx line

/-- The free value's choice of a candidate. -/
def victimOf (n : Nat) (l : List Nat) : Option Nat := l[Config.victim n % l.length]?

/-- The codes that an evicted scale-window line encodes into (R133): words from `nblk` on are not written. -/
def scaleCodes (g : BitVec 256) (q : Nat) (r : Row) : List (Nat × Byte) :=
  (List.range 16).filterMap fun i =>
    if 16 * q + i < fld g 223 192 then some (i, e8m0Encode (r.extractLsb' (32 * i) 32)) else none

/-- A scale-window line encoded into its codes on eviction (R133); a word that E8M0 cannot hold is recorded (19 R451 event 0x09),
with the launch that has run longest (log entry 37). -/
def State.evictScales (s : State) (line : Nat) : State :=
  match find s.scales line, scaleRange s.ranges line with
  | some r, some (g, q) =>
    let codes := scaleCodes g q r
    let at' := fld g 173 128 + 16 * q
    let zl := at' / 64
    let mem := if s.zeros.contains zl then memWrite s.mem (64 * zl) (List.replicate 64 0) else s.mem
    let s := { s with scales := del s.scales line, tainted := s.tainted.filter (· ≠ line),
                      zeros := s.zeros.filter (· ≠ zl), mem := memPut mem at' codes }
    (codes.filter fun c => c.2 = 0xFF).foldl (fun t c =>
      t.record { event := 0x09, cls := 0, addr := line, unit := t.controllerOf line,
                 seq := (t.launches.head?.map Launch.seq).getD 0,
                 info := BitVec.ofNat 64 (c.1 * 2 ^ 32 + fld r (32 * c.1 + 31) (32 * c.1)) }) s
  | _, _ => s

/-- A line leaves the data ways of its slice (R131, R133): a scale-window line is encoded. -/
def State.leaveWay (s : State) (line : Nat) : State :=
  let t := s.evictScales line
  { t with ways := t.ways.filter (· ≠ line) }

/-- Room made among the data ways of a set. -/
def State.wayRoom (s : State) (held : List Nat) : State :=
  match victimOf s.free held with
  | some v => let t := s.leaveWay v; { t with free := t.free + 1 }
  | none => s

/-- A line takes a data way of its set, from which another leaves where all are taken (R131). Which one is open (log entry 31). -/
def State.takeWay (s : State) (line : Nat) : State :=
  if s.ways.contains line then s
  else
    let held := s.sameSet line s.ways
    let t := if held.length < setWays then s else s.wayRoom held
    { t with ways := setIns t.ways line }

/-- A line that a fill reads is held by its slice (R126, R131): a zero line stays one. -/
def State.lineIn (s : State) (line : Nat) : State := if s.zeros.contains (line / 64) then s else s.takeWay line

/-- Room made among the tag-only ways of a set: one of its zero lines is written to memory. -/
def State.zeroRoom (s : State) (held : List Nat) : State :=
  match victimOf s.free held with
  | some z => { s with zeros := s.zeros.filter (· ≠ z / 64), mem := memWrite s.mem z (List.replicate 64 0), free := s.free + 1 }
  | none => s

/-- A line becomes a zero line (R131). Where the tag-only ways of its set are full, another one leaves them first: 64 zero
bytes are written to memory. Which one is open (log entry 31). -/
def State.zeroLine (s : State) (line : Nat) : State :=
  let held := s.sameSet line (s.zeros.map fun z => 64 * z)
  let s := if s.zeros.contains (line / 64) || held.length < setWays then s else s.zeroRoom held
  { s with zeros := setIns s.zeros (line / 64), ways := s.ways.filter (· ≠ line) }

/-- The full words when a byte gives the bits of eight words from one on. -/
def bitsPut (full : List Nat) (word : Nat) (b : Byte) : List Nat :=
  (List.range 8).foldl (fun f i => if b.getLsbD i then setIns f (word + i) else f.filter (· ≠ word + i)) full

/-- Full/empty bits of the user area written in their table (R130; log entry 30). -/
def State.putBits (s : State) (h pa : Nat) (bs : List (Nat × Byte)) : State :=
  { s with full := bs.foldl (fun f b =>
      let off := pa + b.1 - commonsBase h
      if 0x1F2000 ≤ off && off < 0x1F6000 then bitsPut f (commonsBase h / 8 + 8 * (off - 0x1F2000)) b.2 else f) s.full }

/-- A full-line write unlists a bad line (17 R416). -/
def State.unlist (s : State) (line : Nat) (whole : Bool) : State :=
  if whole then { s with bad := s.bad.filter (· ≠ line) } else s

/-- Bytes written at a home (R131, R133): a scale-window line is held by its slice; a line whose 64 bytes are written as
zeros becomes a zero line; a partial write to a zero line applies to zeros; a write to an unbacked address is discarded
(R122), and so is one to a table that the part keeps by itself, but for the full/empty bits (log entry 30). A full-line write
unlists a bad line (17 R416). The bytes, listed with their offsets, lie in one line. -/
def State.homeWrite (s : State) (pa : Nat) (bs : List (Nat × Byte)) : State :=
  let line := pa / 64 * 64
  let whole := pa = line && bs.length = 64
  match s.region pa with
  | .unbacked => s
  | .commons h =>
    if isTable h pa then s.putBits h pa bs
    else
      let s := s.unlist line whole
      { s with mem := memPut s.mem pa bs }
  | .hbm | .lpddr | .cxl _ =>
    let s := s.unlist line whole
    match scaleRange s.ranges line with
    | some _ =>
      let spoilt := !whole && s.listedLine line
      let row := rowPut (s.homeLine line) (pa % 64) bs
      let t := s.takeWay line
      { t with scales := put t.scales line row,
               tainted := if spoilt then setIns t.tainted line else t.tainted.filter (· ≠ line) }
    | none =>
      if whole && bs.all fun b => b.2 = 0 then s.zeroLine line
      else
        let t := s.takeWay line
        if t.zeros.contains (line / 64) then
          { t with zeros := t.zeros.filter (· ≠ line / 64),
                   mem := memPut (memWrite t.mem line (List.replicate 64 0)) pa bs }
        else { t with mem := memPut t.mem pa bs }
  | _ =>
    let s := s.unlist line whole
    { s with mem := memPut s.mem pa bs }

/-- Bytes with their offsets. -/
def offsets (bs : List Byte) : List (Nat × Byte) := bs.zipIdx.map fun (b, i) => (i, b)

/-- Listed bytes cut at line boundaries: each part with its own address. -/
def cutLines (pa : Nat) (bs : List (Nat × Byte)) : List (Nat × List (Nat × Byte)) :=
  let first := pa / 64
  let last := match bs.getLast? with | some (i, _) => (pa + i) / 64 | none => first
  (List.range (last + 1 - first)).map fun q =>
    (pa / 64 * 64 + 64 * q,
     (bs.filter fun (i, _) => (pa + i) / 64 = first + q).map fun (i, b) => ((pa + i) % 64, b))

/-- Bytes written at their homes, over line boundaries. -/
def State.homePut (s : State) (pa : Nat) (bs : List (Nat × Byte)) : State :=
  (cutLines pa bs).foldl (fun t (a, part) => t.homeWrite a part) s

/-! ### Full/empty bits -/

/-- Whether an address names a full/empty word (R129): stash storage or the commons user area. -/
def State.feWord (s : State) (pa : Nat) : Bool :=
  match s.region pa with
  | .stash _ => true
  | .commons h => pa - commonsBase h < 0x100000
  | _ => false

/-- Whether the word at an address is full. -/
def State.isFull (s : State) (pa : Nat) : Bool := s.full.contains (pa / 8)

/-- The word at an address set full or empty. -/
def State.setFull (s : State) (pa : Nat) (b : Bool) : State :=
  { s with full := if b then setIns s.full (pa / 8) else s.full.filter (· ≠ pa / 8) }

/-! ### Requests of CXL lines (20 R460) -/

/-- The CXL port of a line. -/
def State.cxlPort (s : State) (line : Nat) : Option Nat := match s.region line with | .cxl n => some n | _ => none

/-- The number by which CXL_TIMEOUT names the request of a line: above those of messages. -/
def cxlIdx (p line : Nat) : Nat := 2 ^ 64 + (line - 0x100000000000 - p * 2 ^ 40) / 64

/-- A line of a CXL port that is down, or a request of which has had no completion. -/
def State.cxlStuck (s : State) (line : Nat) : Bool :=
  !(s.hub.cxlDown.isEmpty && s.hub.cxlPend.isEmpty) && !s.bad.contains line
  && match s.cxlPort line with
    | some p => s.hub.cxlDown.contains p || (find s.hub.cxlPend line).isSome
    | none => false

/-- A request of a line of a CXL port that is not completed, from this cycle on. -/
def State.cxlAsk (s : State) (line : Nat) (write : Bool) (seq : Word) : State :=
  match s.cxlPort line with
  | none => s
  | some p =>
    let r := (find s.hub.cxlPend line).getD { since := s.cycle.toNat }
    let r : CxlReq := { r with write := r.write || write, seq := if write then seq else r.seq }
    ({ s with hub := { s.hub with cxlPend := put s.hub.cxlPend line r } } : State).oweOnce (.cxlTimeout (Fin.ofNat 8 p) (cxlIdx p line))

/-! ### The hamlet's copies -/

/-- The hamlet's dirty bytes of a line as listed bytes. -/
def dirtyBytes (l : Line) : List (Nat × Byte) :=
  ((List.range 64).filter fun i => l.dirty.getLsbD i).map fun i => (i, l.data.extractLsb' (8 * i) 8)

/-- The hamlet's dirty bytes of a line reach their home; the copy becomes clean (06 R148, R164). A home that lists the
line as bad keeps it listed (19 R450). A CXL port that does not complete the write-back has lost it (20 R460). -/
def State.writeBack (s : State) (h line : Nat) : State :=
  match find (s.ham h).lines line with
  | none => s
  | some l =>
    if l.dirty = 0 then s
    else if s.cxlStuck line then
      (s.setHam h { s.ham h with lines := del (s.ham h).lines line }).cxlAsk line true (s.seqOf (8 * h))
    else
      let t := s.homeWrite line (dirtyBytes l)
      t.setHam h { t.ham h with lines := put (t.ham h).lines line { l with dirty := 0 } }

/-- The hamlet's copy of a line is dropped. -/
def State.dropLine (s : State) (h line : Nat) : State :=
  s.setHam h { s.ham h with lines := del (s.ham h).lines line }

/-- The hamlet's copy of a line replaced. -/
def State.setLine (s : State) (h line : Nat) (l : Line) : State :=
  s.setHam h { s.ham h with lines := put (s.ham h).lines line l }

/-- The lines that the L1 of a core holds at most (R125): 64 KiB. -/
def l1Lines : Nat := 1024

/-- The bit of a core in a line's list of the L1s that hold it. -/
def coreBit (c : Nat) : BitVec 8 := 1 <<< (c % 8)

/-- Whether the L1 of a core of the hamlet holds a line (R125). -/
def Line.heldBy (l : Line) (c : Nat) : Bool := l.cores.getLsbD (c % 8)

/-- A line leaves a core's L1, its dirty bytes written back; the hamlet's copy goes with the last L1 that held it. -/
def State.leaveL1 (s : State) (c line : Nat) : State :=
  let h := hamOf c
  let t := s.writeBack h line
  match find (t.ham h).lines line with
  | none => t
  | some l =>
    let left := l.cores &&& ~~~ coreBit c
    if left = 0 then t.dropLine h line else t.setLine h line { l with cores := left }

/-- The lines of a hamlet that a core's L1 holds. -/
def State.inL1 (s : State) (c : Nat) : Map Line := (s.ham (hamOf c)).lines.filter fun l => l.2.heldBy c

/-- Room for a line in a core's L1 (R125, R126): where it is full, another line leaves it; lines of the stream policy are the
first candidates, and which of them leaves is open (log entry 31). -/
def State.makeRoom (s : State) (c line : Nat) : State :=
  let ls := s.inL1 c
  if ls.length < l1Lines || (find ls line).isSome then s
  else
    let first := (ls.filter fun l => l.2.stream).map Prod.fst
    match victimOf s.free (if first.isEmpty then ls.map Prod.fst else first) with
    | some v => let t := s.leaveL1 c v; { t with free := t.free + 1 }
    | none => s

/-- A line put into a core's L1; `alone`: it is written there, and leaves the other L1s of the hamlet (R125; log entry 31). -/
def State.putLine (s : State) (c line : Nat) (l : Line) (alone : Bool) : State :=
  (s.makeRoom c line).setLine (hamOf c) line { l with cores := if alone then coreBit c else l.cores ||| coreBit c }

/-- A stash window that serves a virtual address in a hamlet (R127). -/
def winOf : List Window → Word → Option (BitVec 128)
  | [], _ => none
  | w :: r, va =>
    let base := fld w.desc 127 83 * 4096
    let len := (fld w.desc 75 70 + 1) * 4096
    if base ≤ va.toNat % 2 ^ 57 && va.toNat % 2 ^ 57 < base + len then some w.desc else winOf r va

/-- Stash storage address that a window gives a virtual address. -/
def winStash (d : BitVec 128) (va : Word) : Nat :=
  stashBase (8 * fld d 7 0 + fld d 10 8) + fld d 69 64 * 4096 + (va.toNat % 2 ^ 57 - fld d 127 83 * 4096)

/-- Key of a window line in its hamlet's table. -/
def winKey (stash : Nat) : Nat := (stash - 0x3D0000000000) / 64

/-! ### Translation -/

/-- Kinds of access (R143): `data` is a walk that checks no permission bit (08 R223). -/
inductive Access where
  | read | write | exec | atomic | data
  deriving DecidableEq, Repr

/-- Why an access cannot proceed. -/
inductive Trouble where
  /-- a trap (R135, R137, R121) -/
  | trap (cause : BitVec 6) (va : Word)
  /-- an absent (0) or pager-write (1) outcome, with the level at which the walk stopped -/
  | page (cause level : Nat) (va : Word)
  /-- a listed line that the walk read (19 R450) -/
  | bad (line : Nat)
  deriving DecidableEq, Repr

/-- Outcome code of a trouble in a copy-fault message (19 R434): 0 absent, 1 pager write, 2 permission, 3 malformed. -/
def Trouble.outcome : Trouble → Nat
  | .page c _ _ => c
  | .trap 0x04 _ => 0
  | .trap _ _ => 2
  | .bad _ => 2

/-- Result of a walk: the leaf, the address of its entry, its page's base and size in bits, or what stopped the walk. -/
inductive Walk where
  | leaf (e : BitVec 128) (entry vbase pbase bits : Nat)
  | absent (level : Nat)
  | malformed
  | bad (line : Nat)
  deriving DecidableEq, Repr

/-- Whether bits [63:57] equal bit 56 (R135). -/
def canonical (va : Word) : Bool := (va.setWidth 57 : BitVec 57).signExtend 64 = va

/-- Whether an address lies in the range that is not translated (R121). -/
def localWindow (va : Word) : Bool := fld va 63 40 = 0x00FFFF

/-- Number of address bits below the page number at a level (R136). -/
def levelBits (lv : Nat) : Nat := 57 - 9 * lv

/-- Whether an entry's reserved fields and form are as R137 asks at a level. -/
def entryForm (e : BitVec 128) (lv : Nat) : Bool :=
  fld e 107 63 = 0 && fld e 62 60 ≤ 1 && fld e 59 46 = 0 && !e.getLsbD 7 && !e.getLsbD 1
  && (if lv ≤ 2 then !e.getLsbD 2 else if lv = 5 then e.getLsbD 2 else true)
  && (e.getLsbD 2 || !e.getLsbD 12)

/-- A 16-byte table entry as its home serves it. -/
def State.entryAt (s : State) (pa : Nat) : BitVec 128 := BitVec.ofNat 128 (ofBytes (s.homeRead pa 16))

/-- The walk below a table (R136, R138), with as many levels left as `fuel`. A member of a run translates the whole run;
where the members disagree, which of the 16 does is open (log entry 12), and its own outcome is the walk's. Frame bits below
the size of a leaf do not count (log entry 12). -/
def State.walk (s : State) (va : Nat) (lv table : Nat) : Nat → Walk
  | 0 => .malformed
  | fuel + 1 =>
    let idx := (va >>> levelBits lv) % 512
    let at' := table + 16 * idx
    let e := s.entryAt at'
    if s.bad.contains (at' / 64 * 64) then .bad (at' / 64 * 64)
    else if !e.getLsbD 0 then .absent lv
    else if !entryForm e lv then .malformed
    else if !e.getLsbD 2 then s.walk va (lv + 1) (fld e 45 13 * 8192) fuel
    else
      let b := levelBits lv
      if !e.getLsbD 10 then .leaf e at' (va / 2 ^ b * 2 ^ b) (fld e 45 12 * 4096 / 2 ^ b * 2 ^ b) b
      else
        let group := table + 16 * (idx / 16 * 16)
        let members := (List.range 16).map fun i => (i, s.entryAt (group + 16 * i))
        let base (m : BitVec 128) : Nat := fld m 45 12 * 4096 / 2 ^ (b + 4) * 2 ^ (b + 4)
        let rest (m : BitVec 128) : BitVec 128 := setFld (setFld m 45 12 0) 9 8 0
        let agree := members.all fun m => base m.2 = base e && rest m.2 = rest e
        let pick := if agree then (idx % 16, e) else (members[Config.runMember s.free % 16]?).getD (idx % 16, e)
        let m := pick.2
        if !m.getLsbD 0 then .absent lv
        else if !entryForm m lv then .malformed
        else if !m.getLsbD 2 then s.walk va (lv + 1) (fld m 45 13 * 8192) fuel
        else if !m.getLsbD 10 then .leaf m (group + 16 * pick.1) (va / 2 ^ b * 2 ^ b) (fld m 45 12 * 4096 / 2 ^ b * 2 ^ b) b
        else .leaf m (group + 16 * pick.1) (va / 2 ^ (b + 4) * 2 ^ (b + 4)) (base m) (b + 4)

/-- The unbacked address of the table entry at which a walk stops, if it stops at one (R122). -/
def State.walkHole (s : State) (va : Nat) (lv table : Nat) : Nat → Option Nat
  | 0 => none
  | fuel + 1 =>
    let at' := table + 16 * ((va >>> levelBits lv) % 512)
    let e := s.entryAt at'
    if s.region at' = .unbacked then some at'
    else if !e.getLsbD 0 || !entryForm e lv || e.getLsbD 2 then none
    else s.walkHole va (lv + 1) (fld e 45 13 * 8192) fuel

/-- A walk that has read an unbacked table entry is recorded (R122). -/
def State.noteWalk (s : State) (c : Nat) (root va : Word) : State :=
  match (if canonical va && !localWindow va then s.walkHole (va.toNat % 2 ^ 57) 1 (fld root 45 13 * 8192) 5 else none) with
  | some pa => s.recordUnbacked c pa
  | none => s

/-- Whether a TLB entry covers an address in a space (R139). -/
def Tlb.covers (t : Tlb) (space : BitVec 12) (va : Nat) : Bool := t.space = space && va / 2 ^ t.bits = t.vbase / 2 ^ t.bits

/-- A TLB of a size with an entry added, the oldest leaving a full one (log entry 13). -/
def tlbAdd (n : Nat) (l : List Tlb) (t : Tlb) : List Tlb := t :: (l.filter (· ≠ t)).take (n - 1)

/-- A TLB entry found for an address, or the walk's result installed in both TLBs with the accessed and dirty bits set
(R139, R140). An entry cached without d is walked again on a first write. -/
def State.translateLeaf (s : State) (c : Nat) (root : Word) (va : Nat) (write : Bool) : Except Walk (Tlb × State) :=
  let space : BitVec 12 := root.extractLsb' 52 12
  let ok (t : Tlb) : Bool := t.covers space va && (t.dirty || !write)
  match (s.core c).tlb.find? ok with
  | some t => .ok (t, s)
  | none =>
    match (s.ham (hamOf c)).tlb.find? ok with
    | some t => let co := s.core c; .ok (t, s.setCore c { co with tlb := tlbAdd 64 co.tlb t })
    | none =>
      match s.walk va 1 (fld root 45 13 * 8192) 5 with
      | .leaf e entry vbase pbase bits =>
        .ok ({ space := space, vbase := vbase, bits := bits, pbase := pbase, pkg := e.extractLsb' 108 20, leaf := e,
               entry := entry, dirty := write }, s)
      | w => .error w

/-- The accessed and dirty bits set at a leaf's home by an atomic OR (R140). -/
def State.setAD (s : State) (t : Tlb) (write : Bool) : State :=
  let b := memGet s.mem (t.entry + 1)
  let v := b ||| (if write then 3 else 1)
  if v = b then s else s.homeWrite (t.entry + 1) [(0, v)]

/-- Whether a TLB entry maps a frame of this package. -/
def State.maps (s : State) (t : Tlb) (frame : Nat) : Bool :=
  t.pkg = s.pkgid && t.pbase ≤ frame * 4096 && frame * 4096 < t.pbase + 2 ^ t.bits

/-- Every TLB entry of the package. -/
def State.allTlb (s : State) : List Tlb :=
  (s.cores.flatMap fun c => c.2.tlb) ++ s.hamlets.flatMap fun h => h.2.tlb

/-- A walk has found a leaf that maps the old frame of a page that has moved, other than those which the TLBs hold of that page:
the frame is in use again, and no forwarder stands for it any more (20 R458). -/
def State.reuse (s : State) (t : Tlb) : State :=
  if s.forwards.isEmpty then s
  else { s with forwards := s.forwards.filter fun f =>
           !s.maps t f.1 || s.allTlb.any fun u => u.entry = t.entry && s.maps u f.1 }

/-- A leaf used by an access: its bits set, and its entry cached in the core's and the hamlet's TLB. -/
def State.useLeaf (s : State) (c : Nat) (t : Tlb) (write : Bool) : State :=
  if (s.core c).tlb.contains t then s
  else
    let s := (s.reuse t).setAD t write
    let co := s.core c
    let s := s.setCore c { co with tlb := tlbAdd 64 co.tlb t }
    let h := s.ham (hamOf c)
    s.setHam (hamOf c) { h with tlb := tlbAdd 2048 h.tlb t }

/-- Whether a leaf allows an access at a privilege (R137); the other outcomes are permission and pager write. -/
inductive Grant where
  | ok | permission | pager
  deriving DecidableEq, Repr

def leafGrant (e : BitVec 128) (kind : Access) (p : Priv) : Grant :=
  if e.getLsbD 6 && p = .kernel then .permission
  else match kind with
    | .data => .ok
    | .read => if e.getLsbD 3 then .ok else .permission
    | .exec => if e.getLsbD 5 then .ok else .permission
    | .write => if e.getLsbD 4 then .ok else if e.getLsbD 11 then .pager else .permission
    | .atomic =>
      if !e.getLsbD 3 then .permission else if e.getLsbD 4 then .ok else if e.getLsbD 11 then .pager else .permission

/-- Where an access goes once it is decoded or translated. -/
inductive Place where
  /-- storage of the own hamlet that is never copied: its commons and its cores' stashes (R125) -/
  | near (pa : Nat)
  /-- commons or stash storage of another hamlet, served by message (R123), and whether the page is of device type; a page
  of device type that names storage of the own hamlet is served so too (log entry 32) -/
  | far (pa : Nat) (device : Bool := false)
  /-- a line of a stash window: its storage, the global memory behind it, and the window (R127) -/
  | window (stash pa : Nat) (desc : BitVec 128)
  /-- global memory of the own package, and whether the page is of device type (R137) -/
  | global (pa : Nat) (device : Bool)
  /-- a page of another package, and whether it is of device type (R137) -/
  | foreign (pkg : BitVec 20) (pa : Nat) (device : Bool := false)
  deriving DecidableEq, Repr

/-- Whether a place lies in a page of device type (R137). -/
def Place.device : Place → Bool
  | .far _ d | .global _ d | .foreign _ _ d => d
  | _ => false

/-- Where an address is served (06 R167): a page that has moved is served at its new home. -/
def State.forwarded (s : State) (pa : Nat) : Nat :=
  match s.forwards.find? fun f => f.1 = pa / 4096 with
  | some f => f.2 * 4096 + pa % 4096
  | none => pa

/-- The launch that a hamlet runs. -/
def State.launchOf (s : State) (h : Nat) : Option Launch :=
  match (s.ham h).seq with
  | none => none
  | some q => s.launches.find? fun l => l.seq = q && l.hamlets.getLsbD h

/-- Sizes in bytes of the stash and commons tile slices of a hamlet's launch (02 R30). -/
def State.slices (s : State) (h : Nat) : Nat × Nat :=
  match s.launchOf h with
  | some l => (l.stashkib * 1024, l.commonskib * 1024)
  | none => (0, 0)

/-- Stash and commons addresses of a context's tile slices (05 *The stash and its windows*, R130). -/
def State.sliceBase (s : State) (c k : Nat) : Nat × Nat :=
  let z := s.slices (hamOf c)
  (stashBase c + z.1 * k, commonsBase (hamOf c) + (c % 8 * 4 + k) * z.2)

/-- The local windows (R121): the storage an address names, or the trap it raises. -/
def State.decodeLocal (s : State) (c k : Nat) (p : Priv) (va : Word) : Except Trouble Nat :=
  let off := va.toNat % 2 ^ 40
  let h := hamOf c
  let z := s.slices h
  let base := s.sliceBase c k
  if off < 0x100000 then .ok (commonsBase h + off)
  else if off < 0x200000 then if p = .kernel then .error (.trap 0x05 va) else .ok (commonsBase h + off)
  else if off < 0x240000 then .ok (stashBase c + (off - 0x200000))
  else if 0x300000 ≤ off && off < 0x310000 then
    if k ≠ 4 && off - 0x300000 < z.1 then .ok (base.1 + (off - 0x300000)) else .error (.trap 0x04 va)
  else if 0x310000 ≤ off && off < 0x314000 then
    if k ≠ 4 && off - 0x310000 < z.2 then .ok (base.2 + (off - 0x310000)) else .error (.trap 0x04 va)
  else .error (.trap 0x04 va)

/-- Whether kernel code may touch an address of a commons: not its system area, and of the channel buffers nothing but
by CHSEND and CHRECV (R130). -/
def State.kernelMay (s : State) (p : Priv) (pa : Nat) : Bool :=
  match s.region pa with
  | .commons h => p ≠ .kernel || pa - commonsBase h < 0xF0000
  | .control => false
  | _ => true

/-- The place of a translated or decoded local physical address, as a hamlet sees it. -/
def State.placeOf (s : State) (h : Nat) (pa : Nat) (device : Bool) : Place :=
  match s.region pa with
  | .stash c => if hamOf c = h && !device then .near pa else .far pa device
  | .commons g => if g = h && !device then .near pa else .far pa device
  | _ => .global pa device

/-- An address decoded or translated for a context of a core, under a table and at a privilege (R121, R135 to R141). A leaf
of another package sends the access there, under a stash window too (R137; log entry 33); under a stash window a page of device type
is served from the window as any other (log entry 116). -/
def State.resolveFor (s : State) (c k : Nat) (root : Word) (p : Priv) (va : Word) (kind : Access) :
    Except Trouble (Place × State) :=
  if !canonical va then .error (.trap 0x04 va)
  else if localWindow va then
    match s.decodeLocal c k p va with
    | .error t => .error t
    | .ok pa => if s.kernelMay p pa then .ok (.near pa, s) else .error (.trap 0x05 va)
  else
    let write := kind = .write || kind = .atomic
    match s.translateLeaf c root (va.toNat % 2 ^ 57) write with
    | .error (.absent lv) => .error (.page 0 lv va)
    | .error (.bad l) => .error (.bad l)
    | .error _ => .error (.trap 0x05 va)
    | .ok (t, s') =>
      match leafGrant t.leaf kind p with
      | .permission => .error (.trap 0x05 va)
      | .pager => .error (.page 1 ((65 - min t.bits 48) / 9) va)
      | .ok =>
        let s := s'.useLeaf c t write
        let device : Bool := fld t.leaf 62 60 = 1
        let pa := t.pbase + va.toNat % 2 ^ t.bits
        let pa := if t.pkg = s.pkgid then s.forwarded pa else pa
        if !s.kernelMay p pa then .error (.trap 0x05 va)
        else if t.pkg ≠ s.pkgid then .ok (.foreign t.pkg pa device, s)
        else
          match winOf (s.ham (hamOf c)).windows va with
          | some d => .ok (.window (winStash d va) pa d, s)
          | none => .ok (s.placeOf (hamOf c) pa device, s)

/-- Whether the pager has answered 1 or 2 for the page of an address, to the instruction at the pc: to its fetch, or to an
access of it (R144). -/
def State.refused (s : State) (va : Word) (exec : Bool) : Bool :=
  match s.me.answer with
  | some a => a.val ≠ 0 && a.val ≤ 2 && a.page.toNat = va.toNat % 2 ^ 57 / 4096 * 4096
                && ((s.me.strand.map Strand.pfetch).getD false) = exec
  | none => false

/-- The handler context, and a context that handles a trap, never wait for the pager: Translation Absent (R142, 17 R407). -/
def State.hardened (s : State) : Trouble → Trouble
  | .page c l va => if s.onHandler || s.me.handling then .trap 0x04 va else .page c l va
  | t => t

/-- An address resolved for the acting context. An access that waited for a pager future which the pager completed with 1 or
2 raises the trap that this names, whatever the table says now (R144). -/
def State.resolve (s : State) (va : Word) (kind : Access) : Except Trouble (Place × State) :=
  if s.refused va (kind = .exec) then .error (.trap (if (s.me.answer.map Answer.val) = some 1 then 0x04 else 0x05) va)
  else
    match s.resolveFor s.curCore s.curCtx s.me.tblroot s.me.priv va kind with
    | .ok r => .ok r
    | .error t => .error (s.hardened t)

/-! ### Reading and writing a place, within one line -/

/-- Physical address of the memory behind a window line: found by the launch's table. -/
def State.windowHome (s : State) (h : Nat) (d : BitVec 128) (stash : Nat) : Option Nat :=
  match s.launchOf h with
  | none => none
  | some l =>
    let va := fld d 127 83 * 4096 + (stash - (stashBase (8 * fld d 7 0 + fld d 10 8) + fld d 69 64 * 4096))
    match s.translateLeaf (8 * h) l.tblroot va true with
    | .ok (t, _) => some (s.forwarded (t.pbase + va % 2 ^ t.bits))
    | .error _ => none

/-- The lines of a hamlet's windows that stand for a line of global memory: their keys. -/
def State.windowsOf (s : State) (h line : Nat) : List Nat :=
  let x := s.ham h
  (x.winLines.map Prod.fst).filter fun key =>
    let st := 0x3D0000000000 + 64 * key
    match (x.windows.map Window.desc).find? fun d =>
        let lo := stashBase (8 * fld d 7 0 + fld d 10 8) + fld d 69 64 * 4096
        lo ≤ st && st < lo + (fld d 75 70 + 1) * 4096 with
    | some d => (s.windowHome h d st).map (· / 64 * 64) = some line
    | none => false

/-- The window that holds a stash line. -/
def winAt (ws : List Window) (stash : Nat) : Option (BitVec 128) :=
  (ws.map Window.desc).find? fun d =>
    let lo := stashBase (8 * fld d 7 0 + fld d 10 8) + fld d 69 64 * 4096
    lo ≤ stash && stash < lo + (fld d 75 70 + 1) * 4096

/-- The bytes of a line of global memory as a hamlet sees them: at the home, but for those that the hamlet holds dirty, in its
L1s or in a stash window (05 R125, 06 R153). -/
def State.hamletLine (s : State) (h line : Nat) : Row :=
  let home := rowOf (s.homeRead line 64)
  let r := match find (s.ham h).lines line with
    | some l => merge home l.data (byteMask l.dirty)
    | none => home
  (s.windowsOf h line).foldl (fun r key =>
    merge r (rowOf (memRead s.mem (0x3D0000000000 + 64 * key) 64)) (byteMask (look (⟨0, 0⟩ : WinLine) (s.ham h).winLines key).dirty)) r

/-- Bytes of global memory that no L1 of a hamlet holds, as it sees them. -/
def State.hamletRead (s : State) (h pa n : Nat) : List Byte :=
  if (s.ham h).winLines.isEmpty then s.homeRead pa n
  else bytesOf n ((s.hamletLine h (pa / 64 * 64)).toNat >>> (8 * (pa % 64)))

/-- The mask of listed bytes from an offset on. -/
def maskOf (off : Nat) (bs : List (Nat × Byte)) : BitVec 64 :=
  bs.foldl (fun acc (i, _) => acc ||| (1 <<< (off + i) : BitVec 64)) 0

/-- A line that an acquire has left with its dirty bytes alone, read again (06 R148). -/
def State.completeLine (s : State) (h line : Nat) (l : Line) : Line :=
  { l with data := merge (s.hamletLine h line) l.data (byteMask l.valid), valid := BitVec.allOnes 64, bad := s.listedLine line }

/-- Bytes written in one copy of a hamlet are seen in its L1s' copy, where they are no longer dirty (05 R125, 06 R153). -/
def State.shareL1 (s : State) (h pa : Nat) (bs : List (Nat × Byte)) : State :=
  match find (s.ham h).lines (pa / 64 * 64) with
  | none => s
  | some l =>
    let m := maskOf (pa % 64) bs
    s.setLine h (pa / 64 * 64) { l with data := rowPut l.data (pa % 64) bs, dirty := l.dirty &&& ~~~ m, valid := l.valid ||| m }

/-- Bytes written in one copy of a hamlet are seen in its window lines, but for the one of a key. -/
def State.shareWin (s : State) (h pa : Nat) (bs : List (Nat × Byte)) (skip : Option Nat) : State :=
  if (s.ham h).winLines.isEmpty then s
  else
    ((s.windowsOf h (pa / 64 * 64)).filter fun key => some key ≠ skip).foldl (fun t key =>
      let w := look (⟨0, 0⟩ : WinLine) (t.ham h).winLines key
      let m := maskOf (pa % 64) bs
      let t := { t with mem := memPut t.mem (0x3D0000000000 + 64 * key + pa % 64) bs }
      t.setHam h { t.ham h with
        winLines := put (t.ham h).winLines key { dirty := w.dirty &&& ~~~ m, valid := w.valid ||| m } }) s

/-- A window line filled by its first access (R128): from its home with its words full, or as zeros with its words
empty; one that an acquire has left with its dirty bytes alone is read again (06 R148). -/
def State.fillWindow (s : State) (h : Nat) (stash pa : Nat) (d : BitVec 128) : State :=
  let st := stash / 64 * 64
  let key := winKey st
  let line := pa / 64 * 64
  let fe := d.getLsbD 11
  match find (s.ham h).winLines key with
  | some w =>
    if fe || w.valid = BitVec.allOnes 64 then s
    else
      let old := rowOf (memRead s.mem st 64)
      let data := merge (s.hamletLine h line) old (byteMask w.valid)
      let t := (s.noteUnbacked (8 * h) line).lineIn line
      let t := { t with mem := memWrite t.mem st (bytesOf 64 data.toNat) }
      t.setHam h { t.ham h with winLines := put (t.ham h).winLines key { w with valid := BitVec.allOnes 64 } }
  | none =>
    let data := if fe then List.replicate 64 0 else bytesOf 64 (s.hamletLine h line).toNat
    let s := if fe then s else (s.noteUnbacked (8 * h) line).lineIn line
    let s := { s with mem := memWrite s.mem st data }
    let s := (List.range 8).foldl (fun t i => t.setFull (st + 8 * i) (!fe)) s
    s.setHam h { s.ham h with winLines := put (s.ham h).winLines key { dirty := 0 } }

/-- Bytes of a place as a hamlet's party reads them, for core `c`; `l1` is clear under the no-L1 policy, `st` set under the
stream policy (R126). A place in another hamlet or package is read by message, not here. -/
def State.readPlace (s : State) (c : Nat) (p : Place) (n : Nat) (l1 : Bool) (st : Bool := false) : List Byte × State :=
  let h := hamOf c
  match p with
  | .near pa => (s.homeRead pa n, s)
  | .window stash pa d =>
    let s := s.fillWindow h stash pa d
    (memRead s.mem stash n, s)
  | .global pa device =>
    let line := pa / 64 * 64
    match (if device then none else find (s.ham h).lines line) with
    | some l =>
      let have' : Bool := ones 64 n (pa % 64) &&& ~~~ l.valid = 0
      let l := if have' then l else s.completeLine h line l
      let s := if have' then s else (s.lineIn line).setLine h line l
      (bytesOf n (l.data.toNat >>> (8 * (pa % 64))), if l1 && !l.heldBy c then s.putLine c line l false else s)
    | none =>
      let bs := if device then s.homeSpan pa n else s.hamletRead h pa n
      let s := if s.region pa = .unbacked then s.recordUnbacked c pa else s
      if l1 && !device && (s.region pa).global then
        (bs, (s.lineIn line).putLine c line { data := rowOf (s.hamletRead h line 64), dirty := 0, stream := st } false)
      else (bs, s)
  | .far pa _ => (s.homeRead pa n, s)
  | .foreign _ _ _ => (List.replicate n 0, s)

/-- Bytes written to a place of the hamlet: its uncopied storage, a window line, or its L1 copy of a line (R125, R128).
Listed bytes are offsets from the place's address. -/
def State.writePlace (s : State) (c : Nat) (p : Place) (bs : List (Nat × Byte)) (st : Bool := false) : State :=
  let h := hamOf c
  match p with
  | .near pa => s.homeWrite pa bs
  | .window stash pa d =>
    let s := s.fillWindow h stash pa d
    let key := winKey (stash / 64 * 64)
    let s := { s with mem := memPut s.mem stash bs }
    let old := look (⟨0, 0⟩ : WinLine) (s.ham h).winLines key
    let m := maskOf (stash % 64) bs
    let s := s.setHam h { s.ham h with winLines := put (s.ham h).winLines key { dirty := old.dirty ||| m, valid := old.valid ||| m } }
    (s.shareL1 h pa bs).shareWin h pa bs (some key)
  | .global pa _ =>
    let line := pa / 64 * 64
    if s.region pa = .unbacked then s.recordUnbacked c pa
    else
      let held := find (s.ham h).lines line
      let s := if held.isSome then s else s.lineIn line
      let l := held.getD { data := rowOf (s.hamletRead h line 64), dirty := 0, bad := s.listedLine line, stream := st }
      let m := maskOf (pa % 64) bs
      (s.putLine c line { l with data := rowPut l.data (pa % 64) bs, dirty := l.dirty ||| m, valid := l.valid ||| m } true).shareWin h pa bs none
  | _ => s

/-! ### Listed lines (17 R416, 19 R450) -/

/-- Whether a hamlet's copies hold `n` bytes of a place: in a stash window, or in its L1s, with the line. -/
def State.held (s : State) (c : Nat) (p : Place) (n : Nat) : Option (Option Line) :=
  let x := s.ham (hamOf c)
  match p with
  | .window st _ _ =>
    match find x.winLines (winKey (st / 64 * 64)) with
    | some w => if ones 64 n (st % 64) &&& ~~~ w.valid = 0 then some none else none
    | none => none
  | .global _ true => none
  | .global pa false =>
    match find x.lines (pa / 64 * 64) with
    | some l => if ones 64 n (pa % 64) &&& ~~~ l.valid = 0 then some (some l) else none
    | none => none
  | _ => none

/-- The listed line that a read of a place would meet. -/
def State.placeBad (s : State) (c : Nat) (p : Place) (n : Nat) : Option Nat :=
  let listed (pa : Nat) : Option Nat :=
    if s.listedLine (pa / 64 * 64) then some (pa / 64 * 64)
    else if 64 < pa % 64 + n && s.listedLine (pa / 64 * 64 + 64) then some (pa / 64 * 64 + 64) else none
  match p with
  | .near pa | .far pa _ => listed pa
  | .window st pa d =>
    match listed st with
    | some l => some l
    | none => if d.getLsbD 11 || (s.held c p n).isSome then none else listed pa
  | .global pa _ =>
    match s.held c p n with
    | some (some l) => if l.bad && ones 64 n (pa % 64) &&& ~~~ l.dirty ≠ 0 then some (pa / 64 * 64) else none
    | _ => listed pa
  | .foreign _ _ _ => none

/-- The line whose fill an access to a place would need, which a CXL port does not deliver (20 R460). -/
def State.placeStuck (s : State) (c : Nat) (p : Place) (n : Nat) : Option Nat :=
  match p with
  | .global pa _ => if (s.held c p n).isSome || !s.cxlStuck (pa / 64 * 64) then none else some (pa / 64 * 64)
  | .window _ pa d =>
    if d.getLsbD 11 || (s.held c p n).isSome || !s.cxlStuck (pa / 64 * 64) then none else some (pa / 64 * 64)
  | _ => none

/-- The listed home line that a first access to a stash-window line would fill it from: it stays UNFILLED (19 R450). -/
def State.fillBad (s : State) (c : Nat) (p : Place) : Option Nat :=
  match p with
  | .window st pa d =>
    if d.getLsbD 11 || (find (s.ham (hamOf c)).winLines (winKey (st / 64 * 64))).isSome || !s.listedLine (pa / 64 * 64) then none
    else some (pa / 64 * 64)
  | _ => none

/-! ### Release and acquire -/

/-- Bytes at a home seen in a hamlet's copies of their line, in L1 and in stash windows, where these are not dirty (05 R125,
06 R153, R155). -/
def State.refresh (s : State) (h pa n : Nat) : State :=
  let line := pa / 64 * 64
  let now := offsets (s.homeRead pa n)
  let s := match find (s.ham h).lines line with
    | none => s
    | some l =>
      let bs := now.filter fun (q : Nat × Byte) => !l.dirty.getLsbD (pa % 64 + q.1)
      s.setHam h { s.ham h with lines := put (s.ham h).lines line { l with data := rowPut l.data (pa % 64) bs } }
  (s.windowsOf h line).foldl (fun t key =>
    let w := look (⟨0, 0⟩ : WinLine) (t.ham h).winLines key
    let bs := now.filter fun (q : Nat × Byte) => !w.dirty.getLsbD (pa % 64 + q.1)
    { t with mem := memPut t.mem (0x3D0000000000 + 64 * key + pa % 64) bs }) s

/-- A dirty window line written back to its home, unless its window is never written back (R128). -/
def State.writeBackWin (s : State) (h key : Nat) : State :=
  let st := 0x3D0000000000 + 64 * key
  match find (s.ham h).winLines key, winAt (s.ham h).windows st with
  | some w, some d =>
    if w.dirty = 0 || d.getLsbD 12 then s
    else
      match s.windowHome h d st with
      | none => s
      | some pa =>
        let l : Line := { data := rowOf (memRead s.mem st 64), dirty := w.dirty }
        let line := pa / 64 * 64
        let t := if s.cxlStuck line then s.cxlAsk line true (s.seqOf (8 * h))
          else (s.noteUnbacked (8 * h) line).homeWrite line (dirtyBytes l)
        t.setHam h { t.ham h with winLines := put (t.ham h).winLines key { w with dirty := 0 } }
  | _, _ => s

/-- The dirty bytes that a hamlet holds of a line reach their home, from its L1s and from its windows (06 R164). -/
def State.backLine (s : State) (h line : Nat) : State :=
  (s.windowsOf h line).foldl (fun t key => t.writeBackWin h key) (s.writeBack h line)

/-- The hamlet gives up its L1s' copy of a line, its dirty bytes written back; its window lines stay, clean. -/
def State.giveLine (s : State) (h line : Nat) : State := (s.backLine h line).dropLine h line

/-- Every dirty line of a hamlet, in its L1s and in its windows, written back to its home (06 R148 release, item 3). -/
def State.writeBackAll (s : State) (h : Nat) : State :=
  let s := ((s.ham h).lines.map Prod.fst).foldl (fun t l => t.writeBack h l) s
  ((s.ham h).winLines.map Prod.fst).foldl (fun t k => t.writeBackWin h k) s

/-- What an acquire leaves of a line of the L1s: its dirty bytes (06 R148). -/
def Line.acquired (l : Line) : Option Line :=
  if l.dirty = 0 then none else some { l with valid := l.dirty, bad := false }

/-- What an acquire leaves of a window line of a window that fills from memory: its dirty bytes (06 R148, R128). -/
def WinLine.acquired (w : WinLine) : Option WinLine := if w.dirty = 0 then none else some { w with valid := w.dirty }

/-- Every clean copy of a global line held in a hamlet invalidated, in the L1s and in windows that fill from memory; dirty bytes
stay (06 R148 acquire, item 2; R128). -/
def State.dropClean (s : State) (h : Nat) : State :=
  let x := s.ham h
  s.setHam h { x with
    lines := x.lines.filterMap fun l => l.2.acquired.map fun y => (l.1, y)
    winLines := x.winLines.filterMap fun w =>
      if ((winAt x.windows (0x3D0000000000 + 64 * w.1)).map fun d => d.getLsbD 11).getD true then some w
      else w.2.acquired.map fun y => (w.1, y) }

/-- Whether a scope reaches beyond the hamlet (06 R148). -/
def Scope.wide : Scope → Bool
  | .pkg | .sys => true
  | _ => false

/-- Whether the acting context's earlier stores are all applied: its named counts are zero and it has no entry in the
replay queue (06 R148 release, item 2). -/
def State.drained (s : State) : Bool :=
  let x := s.me
  x.c1 = 0 && x.c2 = 0 && x.c3 = 0 && s.myCore.replay.all fun r => r.ctx ≠ s.curCtx

/-- The release effects of the acting context at a scope, once its counts and queue are drained (06 R148). -/
def State.release (s : State) (sc : Scope) : State := if Scope.wide sc then s.writeBackAll (hamOf s.curCore) else s

/-- The acquire effects of the acting context at a scope (06 R148). -/
def State.acquire (s : State) (sc : Scope) : State := if Scope.wide sc then s.dropClean (hamOf s.curCore) else s

/-- The scope that covers an object (06 R146): HAMLET when the launch's set is one hamlet, PACKAGE otherwise. -/
def State.objScope (s : State) : Scope :=
  match s.launchOf (hamOf s.curCore) with
  | some l => if l.hamlets = (1 <<< hamOf s.curCore : BitVec 256) then .hamlet else .pkg
  | none => .pkg

/-- The scope of a code (06 R146). -/
def scopeOf (c : BitVec 2) : Scope := if c = 0 then .core else if c = 1 then .hamlet else if c = 2 then .pkg else .sys

end Sys2Proof.Machine
end

