-- ==== Sys2Proof/Machine/Frame.lean ====
section
/-! DEFINITION. The frame that every instruction runs in: its waits, its predicate, its body and what becomes of it (07
R171, R173, 18 R417, R418), and the troubles of an access: traps and pager futures (05 R142, 19 R450). -/

namespace Sys2Proof.Machine

/-! ### Tokens -/

/-- The tokens that a mask names, lowest first. -/
def tokensOf (m : BitVec 8) : List Nat := (List.range 8).filter fun i => m.getLsbD i

/-- The acquire of each named token at its copy's scope (06 R163). -/
def State.acquireTokens (s : State) (m : BitVec 8) : State :=
  (tokensOf m).foldl (fun t i => t.acquire (look Scope.pkg s.me.tokScope i)) s

/-- The lowest-numbered marked token among those named, with its TRAPINFO (19 R436). -/
def Ctx.marked (x : Ctx) (m : BitVec 8) : Option (Nat × Word) :=
  ((tokensOf m).filterMap fun i => (find x.marks i).map fun w => (i, w)).head?

/-- Copy Unresolved is raised for a token (19 R436): its mark clears, the token stays set. -/
def State.copyTrap (s : State) (tok : Nat) (info : Word) : State :=
  if s.me.returned then
    let x := s.me
    (s.setMe { x with marks := del x.marks tok }).trap 0x10 info x.faultPc
  else s.stall

/-! ### Variable latency -/

/-- The holds that end before the acting context issues: of the switch marker (R190), and of an acquire that waited for
its data (06 R148). -/
def State.unhold (s : State) : State :=
  let s := if s.me.hold = .switch then (let t := s.commitVar; t.setMe { t.me with hold := .none }) else s
  match s.me.acqAfter with
  | some sc => let t := s.acquire sc; t.setMe { t.me with acqAfter := none }
  | none => s

/-- Instructions that make a result of variable latency (07 R177). -/
def makesVar : Instr → Bool
  | .ld _ _ | .ldsync _ _ | .waita _ _ | .amo _ _ | .cas _ _ | .vld _ _ | .vgather _ | .donate _ | .fnew _
  | .fnewCount _ | .fput _ | .fget _ | .fgetPoll _ | .chrecv _ _ | .redgrpOpen _ | .redgrpClose _ => true
  | .amsend _ r => r
  | _ => false

/-- An instruction that would make a seventeenth outstanding result first waits for all sixteen (R192). -/
def State.roomFor (s : State) (i : Instr) : Option State :=
  if makesVar i && 16 ≤ s.me.outstanding then if s.me.returned then some s.commitVar else none else some s

/-! ### The frame -/

/-- The waits of an extended form (R171): the state in which they are over, with the acquires of the token wait, or what
comes of the instruction instead. -/
def State.waited (s : State) (o : Ops) : Except State State :=
  match o.ext with
  | none => .ok s
  | some c =>
    if !s.me.waitsOver c then .error s.stall
    else
      match s.me.marked c.kmask with
      | some (t, info) => .error (s.copyTrap t info)
      | none => .ok (s.acquireTokens c.kmask)

/-- Whether bit 0 of the governing predicate lets a scalar instruction act (R173). -/
def State.active (s : State) (o : Ops) : Bool := (s.lanes o).getLsbD 0

/-- Whether an operand field names bytes of the visible accumulator bank (05 R120). -/
def State.inBank (s : State) (o : Ops) (k : Kind) (x : BitVec 16) : Bool :=
  match k with
  | .none | .imm | .pred | .token | .accum | .tile => false
  | .vector => 0x4000 ≤ (s.view o 0 x).base && (s.view o 0 x).base < 0xD000
  | _ => 0x4000 ≤ scAddr o x && scAddr o x < 0xD000

/-- An instruction that reads or writes the visible bank is held while an ASWAP or AZERO `.vis` of its context is queued
(10 R268). -/
def State.bankHeld (s : State) (i : Instr) (o : Ops) : Bool :=
  match shape i with
  | none => false
  | some sh =>
    !s.onHandler
    && (s.myCore.mill.queue.any fun q =>
          q.ctx = s.curCtx && (match q.instr with | .aswap _ | .azeroVis _ => true | _ => false))
    && (s.inBank o sh.d o.d || s.inBank o sh.a o.a || (o.lit.isNone && s.inBank o sh.b o.b))

/-- An instruction that is governed by bit 0 of its predicate: waits, predicate, body (R417, R418). -/
def State.perform (s : State) (i : Instr) (o : Ops) (body : State → Act) : State :=
  match s.waited o with
  | .error t => t
  | .ok t =>
    if !t.active o then t.retire o
    else if t.bankHeld i o then t.stall
    else
      match t.roomFor i with
      | none => t.stall
      | some u => u.finish i o (body u)

/-- A vector instruction: the body sees the lane mask; `pre` is the decoder's check of the views (18 R422, 09 R239),
which comes before the waits. -/
def State.performVec (s : State) (i : Instr) (o : Ops) (pre : State → Bool) (body : State → Act) : State :=
  if !pre s then
    s.trap 0x01 ((match encode i with | w :: _ => w.setWidth 64 | [] => 0)) s.me.faultPc
  else
    match s.waited o with
    | .error t => t
    | .ok t =>
      if t.bankHeld i o then t.stall
      else
        match t.roomFor i with
        | none => t.stall
        | some u => u.finish i o (body u)

/-- The outcome of an instruction in its frame. -/
def State.run (s : State) (i : Instr) (o : Ops) (body : State → Act) : Host.Outcome State Fault Refusal :=
  .next (s.perform i o body)

/-- The base word of an instruction, as TRAPINFO of Illegal and Privileged Instruction holds it (17 R408). -/
def baseInfo (i : Instr) : Word := match encode i with | w :: _ => w.setWidth 64 | [] => 0

/-- Illegal Instruction at an instruction (R421 to R423). -/
def illegal (i : Instr) : Act := .trap 0x01 (baseInfo i)

/-! ### Checks of register-store operands -/

/-- The body of an instruction whose operands lie within their bounds, or the trap of R424. -/
def State.within (s : State) (ls : List Loc) (k : Act) : Act :=
  match s.locsFault ls with
  | some (c, info) => .trap c info
  | none => k

/-! ### Pager futures -/

/-- Kind code of a fault record (05 R143). -/
def Access.code : Access → Nat
  | .read | .data => 0
  | .write => 1
  | .exec => 2
  | .atomic => 3

/-- A fault record (05 R143). -/
def faultRecord (va : Word) (space : BitVec 12) (kind core level cause : Nat) (handle : BitVec 32) : BitVec 256 :=
  BitVec.ofNat 256
    (va.toNat % 2 ^ 57 * 2 ^ 199 + space.toNat * 2 ^ 187 + kind % 16 * 2 ^ 183 + core % 2048 * 2 ^ 172
      + level % 8 * 2 ^ 162 + cause % 4 * 2 ^ 160 + handle.toNat * 2 ^ 128)

/-- A future handle (02 R44). -/
def handleOf (gen : BitVec 12) (h idx : Nat) : BitVec 32 :=
  BitVec.ofNat 32 (gen.toNat * 2 ^ 20 + h % 256 * 2 ^ 12 + idx % 4096)

/-- The pager future of a space and page in a hamlet, or a new one with its fault record owed to the pager's queue (05
R142); none while all 64 entries are held. A new one takes the lowest free entry (log entry 34). -/
def State.pagerFuture (s : State) (c : Nat) (root va : Word) (kind : Access) (cause level : Nat) :
    Option (BitVec 32 × State) :=
  let s := s.noteWalk c root va
  let h := hamOf c
  let space : BitVec 12 := root.extractLsb' 52 12
  let page : Word := BitVec.ofNat 64 (va.toNat % 2 ^ 57 / 4096 * 4096)
  let ids := (List.range 64).map (4032 + ·)
  let x := s.ham h
  match ids.find? fun i => let f := look {} x.futures i; f.kind = .pager && f.va = page && f.space = space with
  | some i => some (handleOf (look {} x.futures i).gen h i, s)
  | none =>
    match ids.find? fun i => (look {} x.futures i).kind = .free with
    | none => none
    | some i =>
      let f := look {} x.futures i
      let hd := handleOf f.gen h i
      let s := s.setHam h { x with futures := put x.futures i { f with kind := .pager, full := false, va := page, space := space } }
      let rec' := faultRecord va space kind.code c level cause hd
      some (hd, ({ s with hub := { s.hub with heldFaults := s.hub.heldFaults ++ [rec'] } }).owe .faultRecordWrite)

/-- TRAPINFO of Memory Uncorrectable (17 R408): the storage code of the line and its address (17 R414). -/
def State.badInfo (s : State) (line : Nat) : Word :=
  let code := (find s.badCode line).getD <| match s.region line with
    | .hbm => 5
    | .lpddr => 6
    | .cxl _ => 7
    | .stash _ => 2
    | _ => 3
  BitVec.ofNat 64 (code * 2 ^ 60 + line % 2 ^ 46)

/-- What a trouble of an access comes to (05 R142): a trap; or a park on the pager future. Where a trap stands for a wait for
the pager (`hardened`) or for the pager's answer (R144), the walk is recorded if it has met an unbacked entry, and the answer
is past. -/
def State.troubled (s : State) (t : Trouble) (kind : Access) : Act :=
  match t with
  | .trap c va =>
    if s.me.answer.isSome then .trapIn (s.setMe { s.me with answer := none }) c va
    else if c = 0x04 && (s.onHandler || s.me.handling) then .trapIn (s.noteWalk s.curCore s.me.tblroot va) c va
    else .trap c va
  | .bad l => .trap 0x11 (s.badInfo l)
  | .page cause level va =>
    match s.pagerFuture s.curCore s.me.tblroot va kind cause level with
    | none => .starve s
    | some (h, t) =>
      .park (t.setMe { t.me with strand := t.me.strand.map fun d => { d with pfetch := kind = .exec } }) 0x08 (h.setWidth 64)

end Sys2Proof.Machine
end

