-- ==== Sys2Proof/Machine/Float.lean ====
section
/-! DEFINITION. Scalar floating-point instructions, opcodes 0x14 to 0x19 (08 R202, R208, R209). -/

namespace Sys2Proof.Machine

/-- The format of a scalar float type (R202). -/
def ftyFmt : FTy → Fmt
  | .f64 => .f64
  | .f32 => .f32
  | .f16 => .f16
  | .bf16 => .bf16

/-- The value in the low bits of an operand (R202). -/
def ftyVal (t : FTy) (x : Word) : Val := (ftyFmt t).decode (x.toNat % 2 ^ (ftyFmt t).width)

/-- A code and flags into sd after a latency; the bits above the code are cleared (R202). -/
def State.putF (s : State) (o : Ops) (lat : Nat) (r : Nat × Flags) : Act :=
  .done (s.fixed lat [cellAt (scAddr o o.d) 8 r.1] r.2)

/-- The places of an operation with d, a and, unless a literal replaces it, b. -/
def litLocs (o : Ops) : List Loc := [scLoc o o.a] ++ (if o.lit.isSome then [] else [scLoc o o.b]) ++ [scLoc o o.d]

/-- Body of FADD. -/
def faddBody (o : Ops) (t : FTy) (sub : Bool) (s : State) : Act :=
  let y := ftyVal t (s.bLit o)
  s.within (litLocs o)
    (s.putF o 4 ((ftyFmt t).finish (s.modeOf o)
      (addVal (s.modeOf o) (ftyVal t (s.scOp o o.a)) (if sub then y.neg else y))))

def execFadd (o : Ops) (t : FTy) (sub : Bool) (s : State) := s.run (.fadd o t sub) o (faddBody o t sub)

/-- Body of FMUL. -/
def fmulBody (o : Ops) (t : FTy) (s : State) : Act :=
  s.within (litLocs o)
    (s.putF o 4 ((ftyFmt t).finish (s.modeOf o) (mulVal (ftyVal t (s.scOp o o.a)) (ftyVal t (s.bLit o)))))

def execFmul (o : Ops) (t : FTy) (s : State) := s.run (.fmul o t) o (fmulBody o t)

/-- Body of FFMA. -/
def ffmaBody (o : Ops) (t : FTy) (f : FmaFn) (s : State) : Act :=
  s.within (litLocs o)
    (s.putF o 4 ((ftyFmt t).finish (s.modeOf o)
      (fmaVal (s.modeOf o) f (ftyVal t (s.scOp o o.a)) (ftyVal t (s.bLit o)) (ftyVal t (s.scOp o o.d)))))

def execFfma (o : Ops) (t : FTy) (f : FmaFn) (s : State) := s.run (.ffma o t f) o (ffmaBody o t f)

/-- Body of FDIV: `.sqrt` has no operand b. -/
def fdivBody (o : Ops) (t : FTy) (sqrt : Bool) (s : State) : Act :=
  let lat := if t = .f64 then 26 else 14
  let x := ftyVal t (s.scOp o o.a)
  s.within (if sqrt then [scLoc o o.a, scLoc o o.d] else litLocs o)
    (s.putF o lat ((ftyFmt t).finish (s.modeOf o) (if sqrt then sqrtVal x else divVal x (ftyVal t (s.bLit o)))))

def execFdiv (o : Ops) (t : FTy) (sqrt : Bool) (s : State) := s.run (.fdiv o t sqrt) o (fdivBody o t sqrt)

/-- Body of FMINMAX. -/
def fminmaxBody (o : Ops) (t : FTy) (isMax : Bool) (s : State) : Act :=
  let w := (ftyFmt t).width
  s.within (litLocs o)
    (s.putF o 2 (minmaxCode (ftyFmt t) isMax ((s.scOp o o.a).toNat % 2 ^ w) ((s.bLit o).toNat % 2 ^ w)))

def execFminmax (o : Ops) (t : FTy) (max : Bool) (s : State) := s.run (.fminmax o t max) o (fminmaxBody o t max)

/-- The relations that FCMP has, among those of VCMP. -/
def frelOf : FRel → VRel
  | .eq => .eq
  | .lt => .lt
  | .le => .le
  | .un => .un

/-- Body of FCMP. -/
def fcmpBody (o : Ops) (t : FTy) (r : FRel) (s : State) : Act :=
  let c := relFloat (frelOf r) (ftyVal t (s.scOp o o.a)) (ftyVal t (s.bLit o))
  s.within ([scLoc o o.a] ++ (if o.lit.isSome then [] else [scLoc o o.b]))
    (.done (s.fixed 2 (cellPred o.d.toNat (BitVec.allOnes 64) (if c.1 then BitVec.allOnes 64 else 0)) c.2))

def execFcmp (o : Ops) (t : FTy) (r : FRel) (s : State) := s.run (.fcmp o t r) o (fcmpBody o t r)

end Sys2Proof.Machine
end

