-- ==== Sys2Proof/Machine/Fetch.lean ====
section
/-! DEFINITION. Fetching instructions (18 R417) and stepping the operand fields of a REP body (07 R187). -/

namespace Sys2Proof

/-- The local physical address that a message names. -/
def Body.pa : Body → Nat
  | .store pa _ _ | .stsync pa _ | .feset pa _ | .zline pa | .load pa _ _ | .ldsync pa _ | .atomic pa _ | .am pa _ _ _
  | .wired pa _ _ | .staged pa _ _ | .wake pa | .listed pa => pa
  | _ => 0

end Sys2Proof

namespace Sys2Proof.Machine

/-- The name of a line of another package in `ibuf`. -/
def farKey (p : BitVec 20) (pa : Nat) : Word := BitVec.ofNat 64 (p.toNat * 2 ^ 40 + pa / 64)

/-- One instruction word at an address, for the acting context, or what stops the fetch. A word of another package is
taken from the bytes that a remote fetch brought (`ibuf`); a line of the own package is named where the fetch holds: a CXL port
does not deliver it (20 R460), or its hamlet is fenced (17 R415). -/
def State.fetchWord (s : State) (va : Word) : Except (Trouble ⊕ BitVec 20 × Nat) (BitVec 32 × State) :=
  match s.resolve va .exec with
  | .error t => .error (.inl t)
  | .ok (.foreign p pa _, t) =>
    match t.me.ibuf with
    | some (a, r) =>
      if a = farKey p pa then .ok (r.extractLsb' (8 * (pa % 64)) 32, t) else .error (.inr (p, pa))
    | none => .error (.inr (p, pa))
  | .ok (p, t) =>
    let shut := match p with | .far pa _ => t.fencedAt pa | _ => false
    match t.placeBad t.curCore p 4, t.placeStuck t.curCore p 4 with
    | some line, _ => .error (.inl (.bad line))
    | none, some line => .error (.inr (t.pkgid, line))
    | none, none =>
      if shut then .error (.inr (t.pkgid, 0))
      else
        let (bs, t) := t.readPlace t.curCore p 4 false
        .ok (BitVec.ofNat 32 (ofBytes bs), t)

/-- Whether a base word passes the decoder with some later words (R417 stage 2): the later words are fetched only then. -/
def basePasses (w : BitVec 32) : Bool :=
  match decodeWords [w, 0, 0, 0, 0], decodeWords [w, 0, 0x01000000, 0, 0] with
  | .error _, .error _ => false
  | _, _ => true

/-- Further words of an instruction. -/
def State.fetchMore (s : State) (va : Word) : Nat → Except (Trouble ⊕ BitVec 20 × Nat) (List (BitVec 32) × State)
  | 0 => .ok ([], s)
  | n + 1 =>
    match s.fetchWord va with
    | .error e => .error e
    | .ok (w, t) =>
      match t.fetchMore (va + 4) n with
      | .error e => .error e
      | .ok (ws, u) => .ok (w :: ws, u)

/-- What a fetch answers: an instruction, or a word that is none, or what stops it. -/
inductive Fetched where
  | instr (i : Instr) (s : State)
  | none (base : BitVec 32) (s : State)
  | stopped (e : Trouble ⊕ BitVec 20 × Nat)

/-- The instruction at an address (R417 stages 1 and 2). -/
def State.fetchAt (s : State) (va : Word) : Fetched :=
  match s.fetchWord va with
  | .error e => .stopped e
  | .ok (w, t) =>
    if !basePasses w then .none w t
    else
      match t.fetchMore (va + 4) (wordsOfLen (w.extractLsb' 0 2) - 1) with
      | .error e => .stopped e
      | .ok (ws, u) =>
        match decodeWords (w :: ws) with
        | .ok i => .instr i u
        | .error _ => .none w u



/-- A further packet for a package would wait (20 R453, 13 R368): it holds its context. -/
def State.linkFull (s : State) (p : BitVec 20) : Bool := s.outHeld p

/-- TRAPINFO of an access to an unreachable package (R454). -/
def deadInfo (pa : Nat) : Word := BitVec.ofNat 64 (0xA * 2 ^ 60 + pa % 2 ^ 46)

/-- The message by which the acting context reads a line of another package, or a word of its LDSYNC, before it goes on (05
R137, 20 R454): the answer comes back into `ibuf`, or into `dbuf`. -/
def State.remoteRead (s : State) (p : BitVec 20) (b : Body) (fetch : Bool) : State :=
  if s.deadPeer p then s.trap 0x11 (deadInfo b.pa) s.me.faultPc
  else if s.linkFull p || s.flight.any fun m => m.core = s.curCore && m.ctx = s.curCtx && m.tag = some 0 && m.fetch = fetch then
    s.stall
  else
    let (s, id) := s.fresh
    let h := s.myHam
    let s := if fetch then s else s.setMyHam { h with sent := h.sent + 1 }
    let m : Msg := { id := id + 1, core := s.curCore, ctx := s.curCtx, pkg := p, home := 320, cnt := 0, tag := some 0,
                     body := b, pc := s.me.faultPc, applied := false, fetch := fetch, since := s.cycle.toNat }
    State.stall ({ s with flight := s.flight ++ [m] }.numbered p (id + 1))

/-- The message of a remote instruction fetch, or the hold of one in the own package. -/
def State.remoteFetch (s : State) (p : BitVec 20) (pa : Nat) : State :=
  if p = s.pkgid then (s.cxlAsk (pa / 64 * 64) false 0).stall
  else s.remoteRead p (.load (pa / 64 * 64) 64 false) true

/-- Bytes read from a place of another package by a message that brings its line: the line, or what becomes of the
instruction meanwhile. -/
def State.lineOf (s : State) (p : BitVec 20) (pa : Nat) : Except State Row :=
  match s.me.dbuf with
  | some (a, r) => if a = farKey p pa then .ok r else .error (s.remoteRead p (.load (pa / 64 * 64) 64 false) false)
  | none => .error (s.remoteRead p (.load (pa / 64 * 64) 64 false) false)

/-- The instruction of a REP body at the place that REPSTATE names (07 R187): its stepped fields. -/
def stepField (x : BitVec 16) (sel : Bool) (delta : BitVec 16) : BitVec 16 := if sel then x + delta else x

/-- The operand fields of an extended instruction in a pass (R187); one-word fields and literals are unchanged. -/
def stepOps (o : Ops) (r : RepBuf) (pass : Nat) : Ops :=
  if o.ext.isSome then
    let delta := r.stride * 64 * BitVec.ofNat 16 pass
    { o with d := stepField o.d (r.mask.getLsbD 0) delta, a := stepField o.a (r.mask.getLsbD 1) delta,
             b := stepField o.b (r.mask.getLsbD 2) delta }
  else o

/-- An instruction with other operand fields. -/
def withOps (i : Instr) (o : Ops) : Instr :=
  match toRaw i with
  | some (op, fn) => (ofRaw op fn o).getD i
  | none => i

end Sys2Proof.Machine
end

