-- ==== Sys2Proof/Machine/Scalar.lean ====
section
/-! DEFINITION. Scalar integer instructions, opcodes 0x00 to 0x13, and PSET (08 R198 to R207, R215). -/

namespace Sys2Proof.Machine

/-- Width of an integer type (R198). -/
def ityWidth : ITy → Nat
  | .i8 | .n8 => 8
  | .i16 | .n16 => 16
  | .i32 | .n32 => 32
  | .i64 | .n64 => 64

/-- Whether an integer type is signed. -/
def itySigned : ITy → Bool
  | .i8 | .i16 | .i32 | .i64 => true
  | _ => false

/-- The low `w` bits of a word as an integer, two's complement or unsigned (R198). -/
def readInt (w : Nat) (sg : Bool) (x : Word) : Int :=
  if sg then (x.setWidth w).toInt else ((x.setWidth w).toNat : Int)

/-- An exact result reduced modulo 2^w and extended to 64 bits (R198). -/
def writeInt (w : Nat) (sg : Bool) (r : Int) : Word :=
  if sg then (BitVec.ofInt w r).signExtend 64 else (BitVec.ofInt w r).setWidth 64

/-- The integer operations of opcodes 0x00 to 0x0E. -/
inductive AluFn where
  | add | sub | mul | mulh | div | rem | and | or | xor | andn | shl | shr | rot | min | max
  deriving DecidableEq, Repr

/-- The exact result of an operation on `w`-bit operands (R203). -/
def aluInt (f : AluFn) (w : Nat) (sg : Bool) (x y : Word) : Int :=
  let xi := readInt w sg x
  let yi := readInt w sg y
  let xb : BitVec w := x.setWidth w
  let yb : BitVec w := y.setWidth w
  let k := yb.toNat % w
  match f with
  | .add => xi + yi
  | .sub => xi - yi
  | .mul => xi * yi
  | .mulh => (xi * yi).fdiv (2 ^ w)
  | .div => if yi = 0 then -1 else xi.tdiv yi
  | .rem => if yi = 0 then xi else xi.tmod yi
  | .and => (xb &&& yb).toNat
  | .or => (xb ||| yb).toNat
  | .xor => (xb ^^^ yb).toNat
  | .andn => (xb &&& ~~~ yb).toNat
  | .shl => xb.toNat * 2 ^ k
  | .shr => xi.fdiv (2 ^ k)
  | .rot => (xb.rotateLeft k).toNat
  | .min => if xi ≤ yi then xi else yi
  | .max => if xi ≤ yi then yi else xi

/-- The 64-bit result of an integer operation of a type (R198, R203). -/
def alu (f : AluFn) (t : ITy) (x y : Word) : Word :=
  writeInt (ityWidth t) (itySigned t) (aluInt f (ityWidth t) (itySigned t) x y)

/-- Latency of an integer operation (07 R177). -/
def aluLat (f : AluFn) (t : ITy) : Nat :=
  match f with
  | .mul => 3
  | .mulh => 4
  | .div | .rem => if ityWidth t = 64 then 34 else 18
  | _ => 1

/-- The places that an operation with d, a and, where it is a register, b names, sources first. -/
def aluLocs (o : Ops) (imm : Bool) : List Loc :=
  [scLoc o o.a] ++ (if imm then [] else [scLoc o o.b]) ++ [scLoc o o.d]

/-- Body of ADD to MAX: r into sd after its latency. -/
def aluBody (f : AluFn) (o : Ops) (imm : Bool) (t : ITy) (s : State) : Act :=
  s.within (aluLocs o imm)
    (.done (s.fixed (aluLat f t) [cellAt (scAddr o o.d) 8 (alu f t (s.scOp o o.a) (s.bOp o imm)).toNat]))

def execAdd (o : Ops) (imm : Bool) (t : ITy) (s : State) := s.run (.add o imm t) o (aluBody .add o imm t)
def execSub (o : Ops) (imm : Bool) (t : ITy) (s : State) := s.run (.sub o imm t) o (aluBody .sub o imm t)
def execMul (o : Ops) (imm : Bool) (t : ITy) (s : State) := s.run (.mul o imm t) o (aluBody .mul o imm t)
def execMulh (o : Ops) (imm : Bool) (t : ITy) (s : State) := s.run (.mulh o imm t) o (aluBody .mulh o imm t)
def execDiv (o : Ops) (imm : Bool) (t : ITy) (s : State) := s.run (.div o imm t) o (aluBody .div o imm t)
def execRem (o : Ops) (imm : Bool) (t : ITy) (s : State) := s.run (.rem o imm t) o (aluBody .rem o imm t)
def execAnd (o : Ops) (imm : Bool) (t : ITy) (s : State) := s.run (.and o imm t) o (aluBody .and o imm t)
def execOr (o : Ops) (imm : Bool) (t : ITy) (s : State) := s.run (.or o imm t) o (aluBody .or o imm t)
def execXor (o : Ops) (imm : Bool) (t : ITy) (s : State) := s.run (.xor o imm t) o (aluBody .xor o imm t)
def execAndn (o : Ops) (imm : Bool) (t : ITy) (s : State) := s.run (.andn o imm t) o (aluBody .andn o imm t)
def execShl (o : Ops) (imm : Bool) (t : ITy) (s : State) := s.run (.shl o imm t) o (aluBody .shl o imm t)
def execShr (o : Ops) (imm : Bool) (t : ITy) (s : State) := s.run (.shr o imm t) o (aluBody .shr o imm t)
def execRot (o : Ops) (imm : Bool) (t : ITy) (s : State) := s.run (.rot o imm t) o (aluBody .rot o imm t)
def execMin (o : Ops) (imm : Bool) (t : ITy) (s : State) := s.run (.min o imm t) o (aluBody .min o imm t)
def execMax (o : Ops) (imm : Bool) (t : ITy) (s : State) := s.run (.max o imm t) o (aluBody .max o imm t)

/-- A relation of CMP on 64-bit values (R204). -/
def cmpRel (cc : Cc) (x y : Word) : Bool :=
  match cc with
  | .eq => x = y
  | .ne => x ≠ y
  | .lt => x.toInt < y.toInt
  | .ge => y.toInt ≤ x.toInt
  | .ltu => x.toNat < y.toNat
  | .geu => y.toNat ≤ x.toNat
  | .tst => (x &&& y) ≠ 0

/-- All ones or zero: what CMP and FCMP write to a predicate (R204, R209). -/
def allOr (b : Bool) : Word := if b then BitVec.allOnes 64 else 0

/-- Body of CMP. -/
def cmpBody (o : Ops) (imm : Bool) (cc : Cc) (s : State) : Act :=
  s.within ([scLoc o o.a] ++ (if imm then [] else [scLoc o o.b]))
    (.done (s.fixed 1 (cellPred o.d.toNat (BitVec.allOnes 64) (allOr (cmpRel cc (s.scOp o o.a) (s.bOp o imm))))))

def execCmp (o : Ops) (imm : Bool) (cc : Cc) (s : State) := s.run (.cmp o imm cc) o (cmpBody o imm cc)

/-- A 64-bit value into sd with latency 1. -/
def State.put1 (s : State) (o : Ops) (v : Word) : Act := .done (s.fixed 1 [cellAt (scAddr o o.d) 8 v.toNat])

/-- Body of SEL (R205). -/
def selBody (o : Ops) (imm : Bool) (p : BitVec 3) (s : State) : Act :=
  s.within (aluLocs o imm)
    (s.put1 o (if (s.me.pred p.toNat).getLsbD 0 then s.scOp o o.a else s.bOp o imm))

def execSel (o : Ops) (imm : Bool) (p : BitVec 3) (s : State) := s.run (.sel o imm p) o (selBody o imm p)

/-- The number of set bits among the lowest `n`. -/
def popBelow (x : Word) : Nat → Nat
  | 0 => 0
  | n + 1 => popBelow x n + (if x.getLsbD n then 1 else 0)

/-- The number of zero bits above the highest set bit among the lowest `n` (R206). -/
def clzFrom (x : Word) : Nat → Nat
  | 0 => 0
  | n + 1 => if x.getLsbD n then 0 else 1 + clzFrom x n

/-- The number of zero bits below the lowest set bit, of the `n` bits from bit 64 − n (R206). -/
def ctzFrom (x : Word) : Nat → Nat
  | 0 => 0
  | n + 1 => if x.getLsbD (63 - n) then 0 else 1 + ctzFrom x n

/-- BITS on 64 bits (R206). -/
def bitsOp (f : BitsFn) (x : Word) : Word :=
  match f with
  | .pop => BitVec.ofNat 64 (popBelow x 64)
  | .clz => BitVec.ofNat 64 (clzFrom x 64)
  | .ctz => BitVec.ofNat 64 (ctzFrom x 64)
  | .brev => x.reverse
  | .bswap => BitVec.ofNat 64 (ofBytes (bytesOf 8 x.toNat).reverse)

/-- Body of BITS. -/
def bitsBody (o : Ops) (f : BitsFn) (s : State) : Act :=
  s.within [scLoc o o.a, scLoc o o.d] (s.put1 o (bitsOp f (s.scOp o o.a)))

def execBits (o : Ops) (f : BitsFn) (s : State) := s.run (.bits o f) o (bitsBody o f)

/-- Body of MOVI (R207). -/
def moviBody (o : Ops) (s : State) : Act := s.within [scLoc o o.d] (s.put1 o (immOf o))

def execMovi (o : Ops) (s : State) := s.run (.movi o) o (moviBody o)

/-- Body of LEA (R207). -/
def leaBody (o : Ops) (imm : Bool) (k : BitVec 3) (s : State) : Act :=
  s.within (aluLocs o imm) (s.put1 o (s.scOp o o.a + (s.bOp o imm <<< k.toNat)))

def execLea (o : Ops) (imm : Bool) (k : BitVec 3) (s : State) := s.run (.lea o imm k) o (leaBody o imm k)

/-- What PSET's predicate forms write (R215). -/
def psetOp (f : PFn) (x y : Word) : Word :=
  match f with
  | .and => x &&& y
  | .or => x ||| y
  | .xor => x ^^^ y
  | .andn => x &&& ~~~ y
  | .mov | .get => x

/-- Body of PSET (R215). -/
def psetBody (o : Ops) (f : PFn) (s : State) : Act :=
  match f with
  | .mov =>
    s.within [scLoc o o.a] (.done (s.fixed 1 (cellPred o.d.toNat (BitVec.allOnes 64) (s.scOp o o.a))))
  | .get => s.within [scLoc o o.d] (s.put1 o (s.me.pred o.a.toNat))
  | f =>
    .done (s.fixed 1 (cellPred o.d.toNat (BitVec.allOnes 64)
      (psetOp f (s.me.pred o.a.toNat) (s.me.pred o.b.toNat))))

def execPset (o : Ops) (f : PFn) (s : State) := s.run (.pset o f) o (psetBody o f)

end Sys2Proof.Machine
end

