-- ==== Sys2Proof/Machine/Control.lean ====
section
/-! DEFINITION. Control instructions, opcodes 0x1A to 0x1F (08 R210 to R214), and what begins a save (02 R43, R63). -/

namespace Sys2Proof.Machine

/-! ### Gang members and saves -/

/-- The followers of a leader's core: core, context and rank, rank rising (02 R40, R42). -/
def State.followers (s : State) (c : Nat) : List (Nat × Nat × Nat) :=
  let all := (List.range 8).flatMap fun i => (List.range 4).filterMap fun k =>
    let d := c / 8 * 8 + i
    let x := s.ctx d k
    if d ≠ c && x.follows && x.lead = c then some (d, k, fld x.grank 2 0) else none
  (List.range 8).flatMap fun g => all.filter fun m => m.2.2 = g

/-- Whether the acting context leads a gang. -/
def Ctx.leads (x : Ctx) : Bool := x.inGang && fld x.grank 2 0 = 0

/-- Every follower of a leader's core has issued what the leader has (11 R307). -/
def State.gangDrained (s : State) (c : Nat) : Bool :=
  (s.followers c).all fun m => (s.ctx m.1 m.2.1).gangq.isEmpty

/-- A context begins to be saved (R28, R63): it leaves RUNNING or FOLLOWING, and the save is owed. A BAR that has arrived
keeps its wait. -/
def State.beginSave (s : State) (c k : Nat) (whole : Bool := false) : State :=
  let x := s.ctx c k
  let p : Parking := x.parking.getD { cond := 0, key := 0 }
  (s.setCtx c k { x with
    status := .saving, hold := .none, pc := x.faultPc, rep := none, preempt := false, counts := false,
    latchA := none, latchB := none, latchD := none, parking := some { p with save := true, whole := whole } }).owe
    (.saveComplete (Fin.ofNat 2048 c) (Fin.ofNat 5 k))

/-- The acting context and, where it leads a gang, its followers begin to be saved (R43). -/
def State.beginSaveAll (s : State) : State :=
  let ms := if s.me.leads then s.followers s.curCore else []
  ms.foldl (fun t m => t.beginSave m.1 m.2.1) (s.beginSave s.curCore s.curCtx)

/-- Whether a pre-emption request waits for the acting context or a follower of it (R43). -/
def State.preemptDue (s : State) : Bool :=
  (s.me.preempt && !s.me.handling) || (s.me.leads && (s.followers s.curCore).any fun m => (s.ctx m.1 m.2.1).preempt)

/-- A context that holds no strand. -/
def Ctx.idled (x : Ctx) : Ctx :=
  { x with
    status := .idle, hold := .none, strand := none, grank := 0, gangq := [], results := [], rep := none, repstate := 0,
    parking := none, preempt := false, counts := false, deadline := 0, latchA := none, latchB := none, latchD := none, acqAfter := none,
    answer := none, ibuf := none, dbuf := none, late := none }

/-- A context enters IDLE (R28), holding no strand; it looks for work (03 R69). -/
def State.toIdle (s : State) (c k : Nat) : State :=
  (s.setCtx c k (s.ctx c k).idled).owe (.frameTake (Fin.ofNat 2048 c) (Fin.ofNat 5 k))

/-- A leader holds until its followers have issued what it has; then its instruction is taken up again (11 R307). -/
def State.awaitGang (s : State) : State := s.setMe { s.me with hold := .gang }

/-! ### Branches -/

/-- The offset of a relative target, in words (R210): `hi` the high half. -/
def relOff (o : Ops) (hi lo : BitVec 16) : Word :=
  if o.long then (hi ++ lo : BitVec 32).signExtend 64
  else ((hi.setWidth 6 : BitVec 6) ++ (lo.setWidth 6 : BitVec 6) : BitVec 12).signExtend 64

/-- A relative target (R210). -/
def State.relTarget (s : State) (o : Ops) (hi lo : BitVec 16) : Word := s.me.pc + 4 * relOff o hi lo

/-- A jump, or Misaligned Access for a target whose bits [1:0] are not zero (18 R425). A follower's stream is its leader's. -/
def State.goto (s t : State) (pc : Word) : Act :=
  if s.me.follows then .done t else if pc.extractLsb' 0 2 ≠ 0 then .trap 0x03 pc else .jump t pc

/-- Body of BR (R211). -/
def brBody (o : Ops) (onFalse : Bool) (s : State) : Act :=
  if s.me.follows then .done s
  else if (s.me.pred o.a.toNat).getLsbD 0 != onFalse then .jump s (s.relTarget o o.b o.d) else .done s

def execBr (o : Ops) (onFalse : Bool) (s : State) := s.run (.br o onFalse) o (brBody o onFalse)

/-- Body of JMP with a relative or a literal target. -/
def jmpBody (o : Ops) (s : State) : Act :=
  match o.lit with
  | some l => s.goto s l
  | none => if s.me.follows then .done s else .jump s (s.relTarget o o.b o.d)

def execJmp (o : Ops) (s : State) := s.run (.jmp o) o (jmpBody o)

/-- Body of JMP `.reg` and of RET. -/
def jmpRegBody (o : Ops) (s : State) : Act := s.within [scLoc o o.a] (s.goto s (s.scOp o o.a))

def execJmpReg (o : Ops) (s : State) := s.run (.jmpReg o) o (jmpRegBody o)
def execRet (o : Ops) (s : State) := s.run (.ret o) o (jmpRegBody o)

/-- The link written by CALL, with latency 1 (R211). -/
def State.link (s : State) (o : Ops) : State :=
  s.fixed 1 [cellAt (scAddr o o.d) 8 (s.me.pc + BitVec.ofNat 64 o.bytes).toNat]

/-- Body of CALL with a relative or a literal target. -/
def callBody (o : Ops) (s : State) : Act :=
  s.within [scLoc o o.d]
    (match o.lit with
     | some l => s.goto (s.link o) l
     | none => if s.me.follows then .done (s.link o) else .jump (s.link o) (s.relTarget o o.b o.a))

def execCall (o : Ops) (s : State) := s.run (.call o) o (callBody o)

/-- Body of CALL `.reg`. -/
def callRegBody (o : Ops) (s : State) : Act :=
  s.within [scLoc o o.a, scLoc o o.d] (s.goto (s.link o) (s.scOp o o.a))

def execCallReg (o : Ops) (s : State) := s.run (.callReg o) o (callRegBody o)

/-! ### REP -/

/-- Instructions that no REP body may hold (07 R187). -/
def noBody : Instr → Bool
  | .br _ _ | .jmp _ | .jmpReg _ | .call _ | .callReg _ | .ret _ | .rep _ | .safept _ | .trap _ | .rte _
  | .gangLead _ | .gangFollow _ | .gangLeave _ | .yield _ | .spawn _ | .spawnr _ | .split _ | .popf _ | .sync _
  | .publish _ | .tend _ | .donate _ => true
  | _ => false

/-- Length in bytes of an instruction. -/
def bytesOfInstr (i : Instr) : Nat := match opsOf i with | some o => o.bytes | none => 4

/-- A REP body fetched from an address (R187): `n` instructions, or what stops the fetch; `none` for an instruction that no
body may hold. A word that is no instruction takes its place in the body, and traps in its turn (R212, 18 R419). -/
def State.fetchBody (s : State) (va : Word) : Nat → Except (Option (Trouble ⊕ BitVec 20 × Nat)) (List Instr × State)
  | 0 => .ok ([], s)
  | n + 1 =>
    match s.fetchAt va with
    | .stopped e => .error (some e)
    | .none w t =>
      match t.fetchBody (va + 4) n with
      | .error e => .error e
      | .ok (is, u) => .ok (.unassignedEncoding w :: is, u)
    | .instr i t =>
      if noBody i then .error none
      else
        match t.fetchBody (va + BitVec.ofNat 64 (bytesOfInstr i)) n with
        | .error e => .error e
        | .ok (is, u) => .ok (i :: is, u)

/-- The bytes that a list of instructions occupies. -/
def bytesOfBody (is : List Instr) : Nat := is.foldl (fun acc i => acc + bytesOfInstr i) 0

/-- Body of REP (R212, R213, R188, 18 R419): it fetches its body, at most 64 words, and begins the first pass; a REP that
was left inside its body goes on at REPSTATE's pass and index. -/
def repBody (o : Ops) (s : State) : Act :=
  if s.me.follows then .done s
  else
    let n := fld o.d 11 0 + 1
    let l := fld o.a 3 0 + 1
    match s.fetchBody (s.me.pc + 12) l with
    | .error none => illegal (.rep o)
    | .error (some (.inl e)) => s.troubled e .exec
    | .error (some (.inr (p, pa))) => .left (s.remoteFetch p pa)
    | .ok (is, t) =>
      if 256 < bytesOfBody is then illegal (.rep o)
      else
        let x := t.me
        let again := x.repOn && !x.handling
        let index := if again then fld x.repstate 3 0 else 0
        let pass := if again then fld x.repstate 15 4 else 0
        let buf : RepBuf :=
          { pc := x.pc, after := x.pc + BitVec.ofNat 64 (12 + bytesOfBody is), passes := n,
            stride := (o.a.extractLsb' 4 4).signExtend 16, mask := o.a.extractLsb' 8 3, body := is }
        .left (t.setMe { x with
          rep := some buf, repstate := repWord pass index,
          pc := x.pc + BitVec.ofNat 64 (12 + bytesOfBody (is.take index)), hold := if o.sw then .switch else .none })

/-- REP: one that is taken up again inside its body neither waits nor reads its predicate again (R188). -/
def execRep (o : Ops) (s : State) : Host.Outcome State Fault Refusal :=
  if s.me.repOn && !s.me.handling && !s.me.follows then .next (s.finish (.rep o) o (repBody o s))
  else s.run (.rep o) o (repBody o)

/-! ### SAFEPT -/

/-- A map put in force for the acting context's strand (R61). Its bank bits are read when the strand is saved: as zero
while the context does not own the mill (R214). -/
def State.useMap (s : State) (r : Row) : State :=
  s.setMe { s.me with strand := s.me.strand.map fun d => { d with map := some r } }

/-- SAFEPT once its map is in force: a pending pre-emption request is taken (R63), by a leader once its followers have
come as far (R43). -/
def State.atSafept (s : State) (o : Ops) : Act :=
  if s.preemptDue then
    if s.me.leads && (s.me.hold ≠ .gang) then .left s.awaitGang
    else .left (s.retire o).beginSaveAll
  else .done s

end Sys2Proof.Machine
end

