-- ==== Sys2Proof/Machine/Wait.lean ====
section
/-! DEFINITION. Waiting: wake events and the records that they wake (02 R47 to R50, 03 R79 to R83), and the entries of
the future tables (02 R44 to R46). -/

namespace Sys2Proof.Machine

/-! ### Wake events (R82) -/

/-- A wake event: the conditions whose records are all woken, those of which only the first is, the barrier episode,
and a pager's answer. -/
structure WakeEv where
  all : List (BitVec 5)
  first : List (BitVec 5) := []
  episode : Option (BitVec 16) := none
  answer : Option Answer := none
  deriving DecidableEq, Repr

/-- The conditions that an event is about. -/
def WakeEv.conds (e : WakeEv) : List (BitVec 5) := e.all ++ e.first

/-- The events of R82. -/
def evValue : WakeEv := { all := [0x01] }
def evCount : WakeEv := { all := [0x02] }
def evWord : WakeEv := { all := [0x03], first := [0x04] }
def evBar (n : BitVec 16) (key : Word) : WakeEv := { all := [0x05], episode := some n, answer := some ⟨n.toNat, BitVec.allOnes 64, key⟩ }
def evFreed : WakeEv := { all := [], first := [0x06] }
def evFilled : WakeEv := { all := [], first := [0x07] }
def evPager (v : Nat) (page : Word) (hd : BitVec 32) : WakeEv := { all := [0x08], answer := some ⟨v, page, hd.setWidth 64⟩ }
/-- A future released: every record linked on it (12 R324). -/
def evGone : WakeEv := { all := [0x01, 0x02, 0x08] }

/-- Whether a hamlet holds a record, or a context about to link one, that waits on a key under one of some conditions. -/
def State.waitsFor (s : State) (h : Nat) (key : Word) (conds : List (BitVec 5)) : Bool :=
  ((s.ham h).waiters.any fun w => w.watch = none && w.key = key && conds.contains w.cond)
  || (List.range 8).any fun i => (List.range 4).any fun k =>
      match (s.ctx (8 * h + i) k).parking with
      | some p => p.key = key && conds.contains p.cond && !p.woken
      | none => false

/-- Which waiters of a list an event wakes, in linking order, each with what it wakes there, and those that stay. Of the
conditions `first` one record is woken; `taken`: it has been. A watch stands for the records of its hamlet, and stays in its
place (R81, R82). -/
def pickWoken (s : State) (key : Word) (e : WakeEv) : Bool → List Waiter → List (Waiter × WakeEv) × List Waiter × Bool
  | taken, [] => ([], [], taken)
  | taken, w :: r =>
    if w.key ≠ key then let (a, b, t) := pickWoken s key e taken r; (a, w :: b, t)
    else
      match w.watch with
      | some g =>
        let all := s.waitsFor g key e.all
        let first := !taken && s.waitsFor g key e.first
        let (a, b, t) := pickWoken s key e (taken || first) r
        (if all || first then (w, { e with first := if first then e.first else [] }) :: a else a, w :: b, t)
      | none =>
        let now := e.episode = none || e.episode = some w.episode
        let first := !taken && !e.all.contains w.cond && e.first.contains w.cond
        if now && (e.all.contains w.cond || first) then
          let (a, b, t) := pickWoken s key e (taken || first) r
          ((w, e) :: a, b, t)
        else
          let (a, b, t) := pickWoken s key e taken r
          (a, w :: b, t)

/-- The lowest-numbered IDLE task context of a core. -/
def State.idleCtx (s : State) (c : Nat) : Option Nat := (List.range 4).find? fun k => (s.ctx c k).status = .idle

/-- An IDLE context of a core looks for work, if there is one (03 R69). -/
def State.callIdle (s : State) (c : Nat) : State :=
  match s.idleCtx c with
  | some k => s.owe (.frameTake (Fin.ofNat 2048 c) (Fin.ofNat 5 k))
  | none => s

/-- A strand enters a core's ready queue (03 R70). -/
def State.makeReady (s : State) (c : Nat) (r : Ready) : State :=
  let co := s.core c
  (s.setCore c { co with ready := co.ready ++ [r] }).callIdle c

/-- A woken record enters its core's ready queue (R50, R70); a watch sends a wake message and stays (R81). -/
def State.wakeOne (s : State) (h : Nat) (e : WakeEv) (w : Waiter) : State :=
  match w.watch with
  | some g =>
    let x := s.ham g
    let wake : Wake := { key := w.key, all := e.all, first := e.first, episode := e.episode, answer := e.answer }
    (s.setHam g { x with wakes := x.wakes ++ [wake] }).owe (.wakeMessage (Fin.ofNat 256 g))
  | none =>
    s.makeReady (8 * h + w.core) (.woken { w with answer := e.answer })

/-- A wait in place, of a context or of its save, that an event ends: the event is noted, and what it told. -/
def Parking.note (p : Parking) (key : Word) (e : WakeEv) : Option Parking :=
  if p.key = key && p.inPlace && !p.woken && e.all.contains p.cond && (e.episode = none || e.episode = some p.episode) then
    some { p with woken := true, answer := e.answer }
  else none

/-- Contexts, of whichever hamlet, that are still parking on a key note the event (R80), and so does what waits in its
place. -/
def State.wakePending (s : State) (key : Word) (e : WakeEv) (taken : Bool) : State :=
  let cs := (s.cores.map Prod.fst).flatMap fun c => (List.range 4).map fun k => (c, k)
  let t := (cs.foldl (fun (acc : State × Bool) ck =>
    let x := acc.1.ctx ck.1 ck.2
    match x.parking with
    | none => acc
    | some p =>
      let isAll := e.all.contains p.cond
      let isFirst := e.first.contains p.cond && !acc.2
      match p.note key e with
      | some q =>
        if q.save then (acc.1.setCtx ck.1 ck.2 { x with parking := some q }, acc.2)
        else (acc.1.setCtx ck.1 ck.2 { x with parking := none, answer := q.answer }, acc.2)
      | none =>
        if p.key = key && !p.save && !p.inPlace && !p.woken && (isAll || isFirst)
            && (e.episode = none || e.episode = some p.episode) then
          (acc.1.setCtx ck.1 ck.2 { x with parking := some { p with woken := true, answer := e.answer } }, acc.2 || !isAll)
        else acc) (s, taken)).1
  (t.cores.map Prod.fst).foldl (fun t c =>
    let co := t.core c
    if co.saved.any fun v => (v.note.bind fun p => p.note key e).isSome then
      t.setCore c { co with saved := co.saved.map fun v => { v with note := v.note.map fun p => (p.note key e).getD p } }
    else t) t

/-- The watches that a hamlet withdraws once no record of a key is left in its list (R81). -/
def State.withdraw (s : State) (h : Nat) (key : Word) : State :=
  if (s.ham h).waiters.any fun w => w.watch = none && w.key = key then s
  else
    (s.hamlets.map Prod.fst).foldl (fun t g =>
      let x := t.ham g
      if x.waiters.any fun w => w.watch = some h && w.key = key then
        t.setHam g { x with waiters := x.waiters.filter fun w => !(w.watch = some h && w.key = key) }
      else t) s

/-- A wake event at a hamlet (R82): the records on the object's list, then those of the overflow list, in linking order,
then contexts that are still parking. -/
def State.wake (s : State) (h : Nat) (key : Word) (e : WakeEv) : State :=
  let x := s.ham h
  let (w1, k1, t1) := pickWoken s key e false (x.waiters.filter fun w => !w.listed)
  let (w2, k2, t2) := pickWoken s key e t1 (x.waiters.filter fun w => w.listed)
  let s := s.setHam h { x with waiters := k1 ++ k2 }
  let s := (w1 ++ w2).foldl (fun t w => t.wakeOne h w.2 w.1) s
  (s.wakePending key e t2).withdraw h key

/-- The key of a full/empty word: its local physical address (R49). -/
def wordKey (pa : Nat) : Word := BitVec.ofNat 64 (pa / 8 * 8)

/-- The hamlet whose storage holds a full/empty word. -/
def State.wordHamlet (s : State) (pa : Nat) : Nat :=
  match s.region pa with
  | .stash c => hamOf c
  | .commons h => h
  | _ => 0

/-- The key of a full/empty word of another package (log entry 35). -/
def farWord (p : BitVec 20) (pa : Nat) : Word := BitVec.ofNat 64 (2 ^ 63 + p.toNat * 2 ^ 43 + pa / 8)

/-- The hamlets of other packages that wait for a word are sent a wake (R81; log entry 35). -/
def State.wakeFar (s : State) (pa : Nat) : State :=
  (s.watches.filter fun w => w.pa = pa / 8 * 8).foldl (fun t w => t.packetOut w.pkg w.core 0 0 (.wake w.pa)) s

/-- A word set full wakes its waiters (R82, 08 R219, R220). -/
def State.wakeWord (s : State) (pa : Nat) : State := (s.wake (s.wordHamlet pa) (wordKey pa) evWord).wakeFar pa

/-- A wake for a word of another package reaches a hamlet (R81): its records are woken, and what a context of it has been told
of the word meanwhile is past. -/
def State.wakeFromFar (s : State) (h : Nat) (p : BitVec 20) (pa : Nat) : State :=
  let key := farWord p pa
  let cs := (List.range 8).flatMap fun i => (List.range 5).map fun k => (8 * h + i, k)
  let s := cs.foldl (fun t ck =>
    let x := t.ctx ck.1 ck.2
    match x.dbuf with
    | some (a, r) => if a = key && r.getLsbD 64 then t.setCtx ck.1 ck.2 { x with dbuf := none } else t
    | none => t) s
  s.wake h key evWord

/-- The words that an engine write touches set full, where they have full/empty bits, and their waiters woken (R129, R82). -/
def State.fillWords (s : State) (pa n : Nat) : State :=
  if s.feWord pa then
    (List.range ((pa + n + 7) / 8 - pa / 8)).foldl
      (fun t i => (t.setFull (pa / 8 * 8 + 8 * i) true).wakeWord (pa / 8 * 8 + 8 * i)) s
  else s

/-! ### Futures (R44 to R46) -/

/-- The hamlet and the entry that a handle names. -/
def hdHam (h : BitVec 32) : Nat := fld h 19 12
def hdIdx (h : BitVec 32) : Nat := fld h 11 0

/-- The entry that a handle names. -/
def State.future (s : State) (hd : BitVec 32) : Future := look {} (s.ham (hdHam hd)).futures (hdIdx hd)

/-- An entry replaced. -/
def State.setFuture (s : State) (hd : BitVec 32) (f : Future) : State :=
  let x := s.ham (hdHam hd)
  s.setHam (hdHam hd) { x with futures := put x.futures (hdIdx hd) f }

/-- The hamlets of a hamlet's launch; a hamlet without one is its own set. -/
def State.inSet (s : State) (h g : Nat) : Bool :=
  match s.launchOf h with
  | some l => l.hamlets.getLsbD g
  | none => g = h

/-- A handle is stale (R46, 18 R428): generation 0, another generation than the entry's, a hamlet outside the launch's
set, or an entry that holds no future, whatever its generation (log entry 60). -/
def State.stale (s : State) (h : Nat) (hd : BitVec 32) : Bool :=
  let f := s.future hd
  fld hd 31 20 = 0 || f.gen ≠ hd.extractLsb' 20 12 || !s.inSet h (hdHam hd) || f.kind = .free

/-- TRAPINFO of Future Stale (17 R408). -/
def State.staleInfo (s : State) (hd : BitVec 32) : Word :=
  BitVec.ofNat 64 ((s.future hd).gen.toNat * 2 ^ 32 + hd.toNat)

/-- The generation after one (R45): 4,095 advances to 1. -/
def nextGen (g : BitVec 12) : BitVec 12 := if g = 4095 then 1 else g + 1

/-- Contexts of a hamlet that have found every pager future held take up their instruction again: one has been released (05
R142). -/
def State.feed (s : State) (h : Nat) : State :=
  let cs := (List.range 8).flatMap fun i => (List.range 4).map fun k => (8 * h + i, k)
  cs.foldl (fun t ck =>
    let x := t.ctx ck.1 ck.2
    match x.parking with
    | some p => if p.starved && x.status = .parking then t.setCtx ck.1 ck.2 { x with status := .running, parking := none } else t
    | none => t) s

/-- An entry returned to the free pool, its generation advanced; records still linked on it are woken (R45, 12 R324). -/
def State.freeFuture (s : State) (hd : BitVec 32) : State :=
  let f := s.future hd
  let s := s.setFuture hd { kind := .free, gen := nextGen f.gen }
  (s.wake (hdHam hd) (hd.setWidth 64) evGone).feed (hdHam hd)

/-- A count future's count changed by a signed number; it wakes its waiters on becoming SATISFIED (R45). -/
def State.addCount (s : State) (hd : BitVec 32) (d : Word) : State :=
  let f := s.future hd
  let v := f.value + d
  let s := s.setFuture hd { f with value := v }
  if 0 < f.value.toInt && v.toInt ≤ 0 then s.wake (hdHam hd) (hd.setWidth 64) evCount else s

/-- A free entry of a hamlet's table below the pager's (R130, R321). Which one is open (log entry 10). -/
def State.freeEntry (s : State) (h : Nat) : Option Nat :=
  let used := ((s.ham h).futures.filter fun e => e.2.kind ≠ .free).map Prod.fst
  let n := 4032 - (used.filter (· < 4032)).length
  if n = 0 then none
  else
    let k := Config.freeEntry s.free % n
    ((List.range 4032).filter fun i => !used.contains i)[k]?

/-- A future allocated in a hamlet: its handle; none while the table has no free entry. -/
def State.allocFuture (s : State) (h : Nat) (kind : FKind) (v : Word) : Option (BitVec 32 × State) :=
  match s.freeEntry h with
  | none => none
  | some i =>
    let f := look {} (s.ham h).futures i
    let hd := handleOf f.gen h i
    some (hd, { s with free := s.free + 1 }.setFuture hd { f with kind := kind, full := false, value := v })

/-- A pager future completed (05 R144, 19 R432): its waiters wake with the answer, replay-queue entries that waited for
it become ready or refused, copies go on or end, and the entry is released. The wake is an acquire at PACKAGE scope (06
R157). -/
def State.pagerDone (s : State) (hd : BitVec 32) (v : Nat) : State :=
  let f := s.future hd
  let v := if v ≤ 2 then v else 1
  let h := hdHam hd
  let s := s.setFuture hd { kind := .free, gen := nextGen f.gen }
  let s := (List.range 8).foldl (fun t i =>
    let c := 8 * h + i
    let co := t.core c
    let hit := (co.replay.filter fun r => r.handle = hd).map fun r => (r.ctx, r.va.toNat / 4096)
    let replay := co.replay.map fun r =>
      if v = 0 then (if r.handle = hd then { r with handle := 0 } else r)
      else if hit.contains (r.ctx, r.va.toNat / 4096) then { r with handle := 0, refused := some (if v = 1 then 0x04 else 0x05) }
      else r
    let copies := co.copies.map fun k =>
      if k.state = .pager hd then
        (if v = 0 then { k with state := .going } else { k with state := .going, outcome := 4, ended := true })
      else k
    if co.replay.isEmpty && co.copies.isEmpty then t
    else
      let t := t.setCore c { co with replay := replay, copies := copies }
      let t := if !hit.isEmpty && v = 0 then t.owe (.storeReplay (Fin.ofNat 2048 c)) else t
      co.copies.foldl (fun t k =>
        if k.state = .pager hd then t.owe (.copyComplete (Fin.ofNat 2048 c) (Fin.ofNat 5 k.ctx) k.tok) else t) t) s
  ((s.wake h (hd.setWidth 64) (evPager v f.va hd)).feed h).dropClean h

end Sys2Proof.Machine
end

