-- ==== Sys2Proof/Machine/Wire.lean ====
section
/-! DEFINITION. Formats on the wire: the format field of packets (12 R330), narrowing at a sending interface and widening at a
receiving one (04 R117, R118). -/

namespace Sys2Proof.Machine

/-- Bytes of an element of a type code. -/
def codeBytes (e : BitVec 4) : Nat := widthOf e / 8

/-- The format field of a packet (R330). -/
def wireField (sc wc dc : BitVec 4) (q : BitVec 32) (rm : BitVec 3) (red : Bool) : BitVec 48 :=
  q ++ rm ++ BitVec.ofBool red ++ dc ++ wc ++ sc

/-- Fields of a format field. -/
def wireSrc (f : BitVec 48) : BitVec 4 := f.extractLsb' 0 4
def wireCode (f : BitVec 48) : BitVec 4 := f.extractLsb' 4 4
def wireDst (f : BitVec 48) : BitVec 4 := f.extractLsb' 8 4
def wireAdds (f : BitVec 48) : Bool := f.getLsbD 12
def wireMode (f : BitVec 48) : Mode := fld f 15 13
def wireDesc (f : BitVec 48) : BitVec 32 := f.extractLsb' 16 32

/-- The format that travels, and whether it is block-scaled. -/
def wireFmt (f : BitVec 48) : Fmt := if wireCode f = 14 then fmtOfDesc (wireDesc f) else fmtOfCode (wireCode f)
def wireScaled (f : BitVec 48) : Bool := wireCode f = 14 && fld (wireDesc f) 12 11 ≠ 0

/-- A block of elements as a sending interface narrows it (R117): each code with the scale word of the block, 0 where there is
none. A wire code of 0 leaves the elements as they are. -/
def narrowBlock (f : BitVec 48) (xs : List Nat) : List (Nat × BitVec 32) :=
  let w := wireFmt f
  let vs := xs.map (fmtOfCode (wireSrc f)).decode
  if wireCode f = 0 then xs.map fun c => (c, 0)
  else if wireScaled f then
    let t := blockScale (fld (wireDesc f) 12 11) (w.magnitude w.maxCode) (wireDesc f) vs
    vs.map fun v => ((w.round (wireMode f) 0 (divVal v (scaleVal t)).1).1, t)
  else vs.map fun v => ((w.round (wireMode f) 0 v).1, 0)

/-- A value widened at a receiving interface: exact where the format holds it; a block-scaled element to FP32 or FP64 is
rounded to nearest even; any other result is open. -/
def widenAt (wc dc : BitVec 4) (scaled : Bool) (bits : Nat) (v : Val) : Nat :=
  let r := (fmtOfCode dc).round 1 0 v
  if r.2 = 0 || (scaled && (dc = 11 || dc = 12)) then r.1 else Config.wireRound wc dc bits

/-- An element as a receiving interface widens it to the destination format (R118). -/
def widenElem (f : BitVec 48) (x : Nat × BitVec 32) : Nat :=
  let w := wireFmt f
  let dc := wireDst f
  if wireCode f = 0 then x.1
  else if wireScaled f then
    if badScale x.2 then ((fmtOfCode dc).defaultNaN).getD 0
    else widenAt (wireCode f) dc true (x.1 + x.2.toNat * 2 ^ 64) (mulVal (w.decode x.1) (scaleVal x.2)).1
  else widenAt (wireCode f) dc false x.1 (w.decode x.1)

end Sys2Proof.Machine
end

