-- ==== Sys2Proof/Machine/Memory.lean ====
section
/-! DEFINITION. Loads, stores, full/empty words, line control and fences, opcodes 0x21 to 0x2C (08 R200, R201, R216 to
R228), with the posting of stores (06 R160) and the replay queue (06 R166). -/

namespace Sys2Proof

/-- Number of bytes of a type of AMO (08 R229). -/
def amoBytes : AmoFn → Nat
  | .add32 | .swap32 | .fadd32 => 4
  | _ => 8

/-- Number of bytes of a form of CAS (08 R230). -/
def casBytes : CasFn → Nat
  | .d8 => 8
  | .n32 => 4
  | .pair => 16

/-- Number of bytes from its address that a message reads or writes. -/
def Body.span : Body → Nat
  | .store _ bs _ => match bs.getLast? with | some (i, _) => i + 1 | none => 0
  | .stsync _ _ | .feset _ _ | .ldsync _ _ => 8
  | .wired _ f xs => Machine.codeBytes (Machine.wireDst f) * xs.length
  | .zline _ | .am _ _ _ _ => 64
  | .load _ n _ => n
  | .atomic _ (.amo f _) => amoBytes f
  | .atomic _ (.cas f _ _) => casBytes f
  | _ => 0

/-- Whether a message's effect on memory cannot be foreseen by its sender. -/
def Body.isAtomic : Body → Bool
  | .atomic _ _ | .am _ _ _ _ => true
  | .wired _ f _ | .staged _ f _ => Machine.wireAdds f
  | _ => false

end Sys2Proof

namespace Sys2Proof.Machine

/-! ### Named counts and messages -/

/-- A context with a named count replaced (06 R160). -/
def Ctx.setCount (x : Ctx) (n : Nat) (v : BitVec 16) : Ctx :=
  if n = 1 then { x with c1 := v } else if n = 2 then { x with c2 := v } else if n = 3 then { x with c3 := v } else x

/-- `k` messages more would take a named count of the acting context past its largest value (R160). -/
def State.countFull (s : State) (n : Nat) (k : Nat := 1) : Bool := n ≠ 0 && 0xFFFF < (s.me.count n).toNat + k

/-- The core whose handler context serves an address for other hamlets (05 R123). -/
def State.homeCore (s : State) (pa : Nat) : Nat :=
  match s.region pa with
  | .stash c => c
  | .commons h => 8 * h + pa / 64 % 8
  | _ => 0

/-- Whether a message within the package is a row of MCAST (12 R341). -/
def Body.isRow : Body → Bool
  | .store _ _ full => full
  | _ => false

/-- The event by which a message of the own package reaches its home. -/
def State.arrival (s : State) (id home : Nat) (b : Body) : Instr :=
  if Body.isRow b then .mcastDelivery id
  else if 64 ≤ home && home < 320 then .remoteAccessService (Fin.ofNat 2048 (s.homeCore b.pa))
  else if b.isAtomic then .atomicApply id
  else .postedStoreApply id

/-- A posted item to an unreachable package is discarded, as though acknowledged (20 R454): the hamlet's trap flag is set,
and event 0x0C recorded. -/
def State.discardDead (s : State) (c : Nat) : State :=
  (s.mark (hamOf c) Marks.trapped).record { event := 0x0C, cls := 4, seq := s.seqOf c, core := c }

/-- Whether an access of the acting context to a page of device type is not applied yet (06 R150 item 8). -/
def State.posting (s : State) : Bool :=
  s.flight.any fun m => m.core = s.curCore && m.ctx = s.curCtx && !m.applied && m.dev

/-- A message leaves the acting context (06 R160, 03 R90): numbered, counted, and owed its event; one for another
package takes its end-to-end sequence number (20 R453), an access to a page of device type once the earlier ones of the context are
performed (05 R137). Its number is answered. -/
def State.send (s : State) (pkg : BitVec 20) (cnt : Nat) (tagged : Bool) (b : Body) (dev : Bool := false) : State × Nat :=
  if pkg ≠ s.pkgid && s.deadPeer pkg then (s.discardDead s.curCore, 0)
  else
  let (s, n) := s.fresh
  let id := n + 1
  let home := if pkg = s.pkgid then s.homeOf b.pa else 320
  let m : Msg := { id := id, core := s.curCore, ctx := s.curCtx, pkg := pkg, home := home, cnt := cnt,
                   tag := if tagged then some id else none, body := b,
                   pc := s.me.faultPc, applied := false, dev := dev, since := s.cycle.toNat }
  let x := s.me
  let behind : Bool := dev && s.posting
  let s := if cnt = 0 then s else s.setMe (x.setCount cnt (x.count cnt + 1))
  let h := s.myHam
  let s := { s.setMyHam { h with sent := h.sent + 1 } with flight := s.flight ++ [m] }
  if pkg = s.pkgid then (s.owe (s.arrival id home b), id)
  else if behind then (s.setMe { s.me with devq := s.me.devq ++ [(pkg, id)] }, id)
  else (s.numbered pkg id, id)

/-- Whether a message of the acting context, not applied yet, overlaps bytes of a package. -/
def State.inFlight (s : State) (pkg : BitVec 20) (pa n : Nat) : Bool :=
  s.flight.any fun m => m.core = s.curCore && m.ctx = s.curCtx && !m.applied && m.pkg = pkg
    && pa < m.body.pa + m.body.span && m.body.pa < pa + n

/-- Whether an access of the acting context has been sent and is not applied yet (06 R162). -/
def State.sending (s : State) : Bool :=
  s.flight.any fun m => m.core = s.curCore && m.ctx = s.curCtx && !m.applied && m.cnt ≠ 0

/-- Whether a message of the acting core to a home, not applied yet, precedes an access made at the home directly (R160), or the
home is a fenced hamlet, which answers nothing (17 R415). -/
def State.pathBusy (s : State) (home : Nat) : Bool :=
  (64 ≤ home && home < 320 && (s.ham (home - 64)).fenced)
  || s.flight.any fun m => m.core = s.curCore && !m.applied && m.pkg = s.pkgid && m.home = home

/-- An access that is made at its home directly, counted as sent and as received (03 R90): at the home's hamlet where that
lies in the launch's set, else at the own one. -/
def State.direct (s : State) (pa : Nat) : State :=
  let h := hamOf s.curCore
  let s := s.setHam h { s.ham h with sent := (s.ham h).sent + 1 }
  let g := s.homeOf pa - 64
  s.received (if s.inSet h g then g else h)

/-- The named count of a posted store to global memory of the own package (R160). -/
def State.postCount (s : State) (pa : Nat) : Nat := match s.region pa with | .cxl _ => 3 | _ => 1

/-! ### The parts of an access -/

/-- The parts of an access of `n` bytes, at most 64, cut at line boundaries: offset and length. -/
def parts (va : Word) (n : Nat) : List (Nat × Nat) :=
  let k := 64 - va.toNat % 64
  if n ≤ k then [(0, n)] else [(0, k), (k, n - k)]

/-- A part of an access with the place that it names. -/
structure Part where
  off : Nat
  n : Nat
  place : Place
  deriving DecidableEq, Repr

/-- The parts of an access resolved under a table and at a privilege, with the troubles met, each with its part. -/
def State.resolveParts (s : State) (root : Word) (p : Priv) (ea : Word) (kind : Access) (ps : List (Nat × Nat)) :
    List Part × List (Nat × Nat × Trouble) × State :=
  ps.foldl (fun acc q =>
    match acc.2.2.resolveFor s.curCore s.curCtx root p (ea + BitVec.ofNat 64 q.1) kind with
    | .ok (pl, t) => (acc.1 ++ [{ off := q.1, n := q.2, place := pl }], acc.2.1, t)
    | .error e => (acc.1, acc.2.1 ++ [(q.1, q.2, e)], acc.2.2)) ([], [], s)

/-- Rank of a trouble among those of one access (17 R409). -/
def Trouble.rank : Trouble → Nat
  | .trap 0x04 _ => 0
  | .trap _ _ => 1
  | .bad _ => 2
  | .page _ _ _ => 3

/-- The trouble that is reported: the first of the lowest rank. -/
def worst (ts : List Trouble) : Option Trouble :=
  ((List.range 4).filterMap fun k => ts.find? fun t => t.rank = k).head?

/-- A trap of an access names its effective address (18 R425). -/
def Trouble.at (ea : Word) : Trouble → Trouble
  | .trap c _ => .trap c ea
  | t => t

/-! ### The replay queue (06 R166, 19 R432) -/

/-- The oldest refused entry of the acting context. -/
def State.ownRefused (s : State) : Option Replay :=
  s.myCore.replay.find? fun r => r.ctx = s.curCtx && r.refused.isSome

/-- The refused entry whose trap an access raises in place of its own (R432): where it overlaps a refused entry, or the pager has
refused its page after it waited for it with the entries. -/
def State.refusedMeet (s : State) (ea : Word) (n : Nat) (kind : Access) : Option Replay :=
  let own := s.ownRefused
  if own.isSome && (s.refused ea (kind = .exec) || s.myCore.replay.any fun r => r.ctx = s.curCtx && r.refused.isSome
      && ea.toNat < r.va.toNat + r.body.span && r.va.toNat < ea.toNat + n) then own else none

/-- The trap that a refused entry raises: every refused entry of the context is discarded. -/
def State.refusedAct (s : State) (r : Replay) : Act :=
  let co := s.myCore
  .trapIn (s.setMyCore { co with replay := co.replay.filter fun q => !(q.ctx = s.curCtx && q.refused.isSome) })
    (r.refused.getD 0x05) (match r.hole with | some l => s.badInfo l | none => r.va)

/-- A wait for an entry: on its pager future; while a trap is handled, or the future is completed, a hold (R166). -/
def State.waitEntry (s : State) (r : Replay) : Act :=
  if r.handle = 0 || s.me.handling || s.onHandler then .hold s else .park s 0x08 (r.handle.setWidth 64)

/-- The entries of the acting context are gone (R166), or what the instruction does instead. -/
def State.withQueueGone (s : State) (k : State → Act) : Act :=
  match s.ownRefused with
  | some r => s.refusedAct r
  | none =>
    match s.myCore.replay.find? fun r => r.ctx = s.curCtx with
    | some r => s.waitEntry r
    | none => k s

/-- The release effects of the acting context at a scope, then `k` (06 R148): its loads have returned and its stores are applied;
`sync` asks for the queue to be empty at CORE scope too (R166: FENCE `.sc`, STSYNC). -/
def State.withRelease (s : State) (sc : Scope) (sync : Bool) (k : State → Act) : Act :=
  if !s.me.returned then .hold s
  else if sc = .core then
    (if s.sending then .hold s else if sync then s.withQueueGone k else k s)
  else
    s.withQueueGone fun t =>
      if t.me.c1 = 0 && t.me.c2 = 0 && t.me.c3 = 0 then k (t.release sc) else .hold t

/-- No entry of the replay queue belongs to the acting context (06 R166). -/
def State.queueGone (s : State) : Bool := s.myCore.replay.all fun r => r.ctx ≠ s.curCtx

/-- The state without the acting context's entries of the replay queue. -/
def State.unqueued (s : State) : State :=
  if s.queueGone then s
  else let co := s.myCore; s.setMyCore { co with replay := co.replay.filter fun r => r.ctx ≠ s.curCtx }

/-- An instruction with release effects: its own precise faults come before the waits of the release (18 R431). -/
def State.released (s : State) (sc : Scope) (sync : Bool) (k : State → Act) : Act :=
  match k s.unqueued with
  | .trap c info => .trap c info
  | _ => s.withRelease sc sync k

/-- The entry of the acting context that overlaps bytes (R166). -/
def State.queued (s : State) (ea : Word) (n : Nat) : Option Replay :=
  s.myCore.replay.find? fun r => r.ctx = s.curCtx
    && ea.toNat < r.va.toNat + r.body.span && r.va.toNat < ea.toNat + n

/-- How a store is served: under the no-L1 policy, as the write of a release at PACKAGE scope or wider, and under the stream
policy (05 R126, 06 R148). -/
structure How where
  post : Bool := false
  wide : Bool := false
  stream : Bool := false
  deriving DecidableEq, Repr

/-- A store enters the replay queue behind the others, waiting for a pager future; a full queue parks the context, or
raises the trap of a refused entry (R166, R432). Pieces of the instruction that have entered stay in the queue, and enter again when
it is tried again (log entry 118). -/
def State.enqueue (s : State) (root : Word) (p : Priv) (va : Word) (b : Body) (hd : BitVec 32) (w : How) (k : State → Act) :
    Act :=
  let co := s.myCore
  if 32 ≤ co.replay.length then
    match s.ownRefused with
    | some r => s.refusedAct r
    | none =>
      match co.replay.find? (fun r => r.ctx = s.curCtx), co.replay.head? with
      | some r, _ => s.waitEntry r
      | none, some r => s.waitEntry r
      | none, none => .hold s
  else
    k (s.setMyCore { co with
      replay := co.replay ++ [{ ctx := s.curCtx, va := va, root := root, priv := p, body := b, handle := hd, refused := none,
                                post := w.post, wide := w.wide, stream := w.stream }] })

/-- Same 4 KiB page. -/
def samePage (a b : Word) : Bool := a.toNat / 4096 = b.toNat / 4096

/-- A store to a page that an entry of the context waits for enters the queue behind it; another one whose page is absent
or the pager's takes a pager future (R166, 05 R142). `none` for a store that neither meets. -/
def State.storeFault (s : State) (root : Word) (p : Priv) (va : Word) (kind : Access) (t : Option Trouble) (b : Body)
    (w : How) (k : State → Act) : Option Act :=
  match s.myCore.replay.find? fun r => r.ctx = s.curCtx && samePage r.va va with
  | some r => some (s.enqueue root p va b r.handle w k)
  | none =>
    match t with
    | some (.page cause level pva) =>
      some (match s.pagerFuture s.curCore root pva kind cause level with
        | none => .starve s
        | some (hd, u) => u.enqueue root p va b hd w k)
    | _ => none

/-! ### Loads -/

/-- A part of a load that a message brings: its place in the operand, its length, the package and address that it is read
from, and whether its page is of device type. -/
structure Remote where
  off : Nat
  n : Nat
  pkg : BitVec 20
  pa : Nat
  dev : Bool
  deriving DecidableEq, Repr

/-- What the parts of a load come to: the bytes at hand, as a number with the part's bytes at its offset, and the parts
that a message brings. -/
inductive Loaded where
  | act (a : Act)
  | ok (v : Nat) (remote : List Remote) (s : State)

/-- The pending accesses of the acting context that a read of a place must wait for: its own stores and atomics in flight to
the same bytes, so that it takes its instant after theirs (R155, R217), and for a device page every posted access (R150 items 1
and 8). -/
def State.mustWait (s : State) (p : Place) (n : Nat) : Bool :=
  match p with
  | .near pa | .window _ pa _ => s.inFlight s.pkgid pa n
  | .global pa device => s.inFlight s.pkgid pa n || (device && s.posting)
  | .far _ device => device && s.posting
  | .foreign pk _ device => s.linkFull pk || (device && s.posting)

/-- A piece of an access, within one line: its address and length, its place in the operand, and the address that a trap
of it names. -/
structure Piece where
  va : Word
  n : Nat
  off : Nat
  info : Word
  deriving DecidableEq, Repr

/-- The pieces of an access of `n` bytes at an address, placed from `off` on in the operand. -/
def pieces (ea : Word) (n off : Nat) (info : Word) : List Piece :=
  (parts ea n).map fun q => { va := ea + BitVec.ofNat 64 q.1, n := q.2, off := off + q.1, info := info }

/-- Pieces resolved for the acting context, with the troubles met. -/
def State.resolvePieces (s : State) (kind : Access) (ps : List Piece) : List (Piece × Place) × List Trouble × State :=
  ps.foldl (fun acc q =>
    match acc.2.2.resolve q.va kind with
    | .ok (pl, t) => (acc.1 ++ [(q, pl)], acc.2.1, t)
    | .error e => (acc.1, acc.2.1 ++ [e.at q.info], acc.2.2)) ([], [], s)

/-- An access that overlaps an entry of the acting context raises Translation Absent while a trap is handled (R166, 17 R407). -/
def State.lateQueue (s : State) (info : Word) : List Trouble := if s.me.handling then [.trap 0x04 info] else []

/-- The bytes of the pieces of a load (R200, R216, R217, 09 R241, R243): each with its place in the operand. `l1`: a line
may be allocated in the L1, `st`: under the stream policy. A trap of any piece comes before the waits of all (18 R426). Of
accesses to pages of device type, those that follow one made by message are made by message too, in its turn (09 R241). -/
def State.readPieces (s : State) (ps : List Piece) (kind : Access) (l1 : Bool) (st : Bool := false) : Loaded :=
  let (got, bad, t) := s.resolvePieces kind ps
  let listed := got.filterMap fun q => (t.placeBad t.curCore q.2 q.1.n).map Trouble.bad
  let behind := ps.findSome? fun q => (s.queued q.va q.n).map fun r => (r, q.info)
  let late := match behind with | some (_, info) => s.lateQueue info | none => []
  match ps.findSome? fun q => s.refusedMeet q.va q.n kind with
  | some r => .act (s.refusedAct r)
  | none =>
  match worst (bad ++ late ++ listed), behind with
  | some (.trap c va), _ => .act (s.troubled (.trap c va) kind)
  | some (.bad l), _ => .act (s.troubled (.bad l) kind)
  | _, some (r, _) => .act (s.waitEntry r)
  | some e, none => .act (s.troubled e kind)
  | none, none =>
    let gone := got.findSome? fun q => match q.2 with
      | .foreign pk pa _ => if t.deadPeer pk then some (deadInfo pa) else none
      | _ => none
    match got.findSome? fun q => t.placeStuck t.curCore q.2 q.1.n with
    | some l => .act (.hold (t.cxlAsk l false 0))
    | none =>
    if got.any fun q => t.mustWait q.2 q.1.n then .act (.hold s)
    else if gone.isSome then .act (.trap 0x11 (gone.getD 0))
    else
      let away (acc : Nat × List Remote × State) (q : Piece) (pk : BitVec 20) (pa : Nat) (dev : Bool) : Nat × List Remote × State :=
        (acc.1, acc.2.1 ++ [{ off := q.off, n := q.n, pkg := pk, pa := pa, dev := dev }], acc.2.2)
      let r := got.foldl (fun (acc : Nat × List Remote × State) q =>
        match q.2 with
        | .far pa dev => away acc q.1 t.pkgid pa dev
        | .foreign pk pa dev => away acc q.1 pk pa dev
        | pl =>
          match pl, acc.2.1.any Remote.dev with
          | .global pa true, true => away acc q.1 t.pkgid pa true
          | _, _ =>
            let (bs, u) := acc.2.2.readPlace t.curCore pl q.1.n l1 st
            (acc.1 + ofBytes bs * 2 ^ (8 * q.1.off), acc.2.1, u)) (0, [], t)
      .ok r.1 r.2.1 r.2.2

/-- The messages of a load's remote parts: what its result awaits, from bit `pos` of its row on. The part with the
operand's sign brings its extension along. -/
def State.sendLoads (s : State) (remote : List Remote) (pos n : Nat) (sx : Bool) : State × List (Nat × Nat) :=
  remote.foldl (fun acc r =>
    let (t, id) := acc.1.send r.pkg 0 true (.load r.pa r.n (sx && r.off + r.n = n)) r.dev
    (t, acc.2 ++ [(id, pos + 8 * r.off)])) (s, [])

/-- The acquire of an ordered access: at once, or once its awaited data have returned (06 R148). -/
def State.acquireAfter (s : State) (sc : Scope) (awaited : Bool) : State :=
  if awaited then s.setMe { s.me with acqAfter := some sc } else s.acquire sc

/-- Order code and scope of an instruction (R146, R147). -/
def ordOf (o : Ops) : Nat × Scope :=
  match o.ext with
  | some c => (c.ord.toNat, scopeOf c.scope)
  | none => (0, .core)

/-- No-L1 policy (05 R126). -/
def noL1 (o : Ops) : Bool := match o.ext with | some c => c.pol = 1 | none => false

/-- Stream policy (05 R126). -/
def streams (o : Ops) : Bool := match o.ext with | some c => c.pol = 2 | none => false

/-- Bytes of an LD. -/
def ldBytes : LdTy → Nat
  | .n8 | .i8 => 1
  | .n16 | .i16 => 2
  | .n32 | .i32 => 4
  | .n64 => 8
  | .pair => 16

/-- Whether an LD extends a sign. -/
def ldSigned : LdTy → Bool
  | .i8 | .i16 | .i32 => true
  | _ => false

/-- `n` bytes extended to 64 bits. -/
def extendTo64 (sx : Bool) (n v : Nat) : Nat :=
  if sx && v.testBit (8 * n - 1) then v % 2 ^ (8 * n) + (2 ^ 64 - 2 ^ (8 * n)) else v

/-- A natural alignment that an ordered or atomic access must have (R147). -/
def aligned (ea : Word) (n : Nat) : Bool := ea.toNat % n = 0

/-- Body of LD (R216). -/
def ldBody (o : Ops) (t : LdTy) (s : State) : Act :=
  let n := ldBytes t
  let w := if n = 16 then 16 else 8
  let (ord, sc) := ordOf o
  let ea := s.ea o n
  s.within [scLoc o o.a, rsLoc o o.d w]
    (if ord ≠ 0 && !aligned ea n then .trap 0x03 ea
     else
       match s.readPieces (pieces ea n 0 ea) .read (!noL1 o) (streams o) with
       | .act a => a
       | .ok v remote u =>
         let d := scAddr o o.d
         let (u, awaited) := u.sendLoads remote (8 * (d % 64)) n (ldSigned t)
         let u := u.varAwait [cellAt d w (extendTo64 (ldSigned t) n v)] awaited
         .done (if ord = 1 then u.acquireAfter sc (!awaited.isEmpty) else u))

def execLd (o : Ops) (t : LdTy) (s : State) := s.run (.ld o t) o (ldBody o t)

/-- An aligned access within one line whose value decides what the instruction does (SAFEPT, WAITA): its bytes at once. Those
of another package are fetched first; storage of another hamlet is read at its home once the core's earlier messages there
are applied (R160). -/
def State.readNow (s : State) (ea : Word) (n : Nat) (l1 : Bool) (st : Bool := false) : Except Act (Nat × State) :=
  match s.readPieces (pieces ea n 0 ea) .read l1 st with
  | .act a => .error a
  | .ok v [] u => .ok (v, u)
  | .ok _ (r :: _) u =>
    if r.pkg = u.pkgid then
      if u.pathBusy (u.homeOf r.pa) then .error (.hold s) else .ok (ofBytes (u.homeRead r.pa n), u.direct r.pa)
    else
      match u.lineOf r.pkg r.pa with
      | .ok l => .ok (l.toNat / 2 ^ (8 * (r.pa % 64)) % 2 ^ (8 * n), u.setMe { u.me with dbuf := none })
      | .error t => .error (.left t)

/-- Body of SAFEPT (R214): an access of 64 bytes; on the handler context a NOP, and a follower takes its leader's map. -/
def safeptBody (o : Ops) (s : State) : Act :=
  if s.onHandler || s.me.follows then .done s
  else if s.me.hold = .gang then s.atSafept o
  else
    let ea := match o.lit with | some l => l | none => s.ea o 64
    s.within (if o.lit.isSome then [] else [scLoc o o.a])
      (if ea.extractLsb' 0 6 ≠ 0 then .trap 0x03 ea
       else
         match s.readNow ea 64 (!noL1 o) (streams o) with
         | .error a => a
         | .ok (v, t) => (t.useMap (BitVec.ofNat 512 v)).atSafept o)

def execSafept (o : Ops) (s : State) := s.run (.safept o) o (safeptBody o)

/-! ### Stores -/

/-- Whether a store to a place must wait: for messages of its own context to the same bytes, for a device page every access
to one, for a named count at its largest value (R150, R160); `wide`: a write performed at its home waits for what its core
has sent there before (R160). -/
def State.storeHeld (s : State) (p : Place) (n : Nat) (post : Bool) (wide : Bool := false) : Bool :=
  match p with
  | .near pa => s.inFlight s.pkgid pa n
  | .window _ pa _ => s.inFlight s.pkgid pa n || (wide && s.pathBusy (s.homeOf pa))
  | .global pa device =>
    if device then s.countFull (s.postCount pa) || s.posting
    else if wide then s.inFlight s.pkgid pa n || s.pathBusy (s.homeOf pa)
    else if post then s.countFull (s.postCount pa)
    else s.inFlight s.pkgid pa n
  | .far _ device => s.countFull 1 || (device && s.posting)
  | .foreign pk _ device => s.countFull 2 || s.linkFull pk || (device && s.posting)

/-- The named count that a store to a place is counted in; 0 for one that is not posted (R160). -/
def State.countOf (s : State) (p : Place) (post wide : Bool) : Nat :=
  match p with
  | .near _ | .window _ _ _ => 0
  | .global pa device => if device || (post && !wide) then s.postCount pa else 0
  | .far _ _ => 1
  | .foreign _ _ _ => 2

/-- An instruction's stores to some places would take a named count past its largest value (R160). -/
def State.countsFull (s : State) (ps : List Place) (post wide : Bool) : Bool :=
  [1, 2, 3].any fun c => s.countFull c (ps.filter fun p => s.countOf p post wide = c).length && ps.any fun p => s.countOf p post wide = c

/-- A window line is dirty from a byte on (05 R128). -/
def State.dirtyWindow (s : State) (h st : Nat) (bs : List (Nat × Byte)) (on : Bool) : State :=
  let key := winKey (st / 64 * 64)
  match find (s.ham h).winLines key with
  | none => s
  | some w =>
    let m := maskOf (st % 64) bs
    s.setHam h { s.ham h with
      winLines := put (s.ham h).winLines key
        { dirty := if on then w.dirty ||| m else w.dirty &&& ~~~ m, valid := w.valid ||| m } }

/-- The write of a release at PACKAGE scope or wider to a stash window (06 R148, R154): performed in the window and at its
home. In a window that is never written back the bytes stay dirty (05 R128; log entry 36). A line that a listed home would fill
stays UNFILLED (19 R450). -/
def State.windowHomePut (s : State) (h st pa : Nat) (d : BitVec 128) (bs : List (Nat × Byte)) : State :=
  let open' : Bool := !d.getLsbD 11 && (find (s.ham h).winLines (winKey (st / 64 * 64))).isNone
  let t := (s.noteUnbacked (8 * h) pa).homePut pa bs
  let t := (t.shareL1 h pa bs).shareWin h pa bs (some (winKey (st / 64 * 64)))
  if open' && t.listedLine (pa / 64 * 64) then t
  else
    let t := t.fillWindow h st pa d
    { t with mem := memPut t.mem st bs }.dirtyWindow h st bs (d.getLsbD 12)

/-- The bytes of one part written: into the hamlet's copy, at the home, or posted (R160, 05 R126). `post`: no-L1 policy, for
which a copy that the hamlet holds stays and takes the bytes when they are applied; `wide`: a release at PACKAGE scope or wider, whose
write is performed at its home (06 R148). -/
def State.putPart (s : State) (p : Place) (bs : List (Nat × Byte)) (post wide : Bool) (st : Bool := false) : State :=
  let h := hamOf s.curCore
  match p with
  | .near pa => s.homePut pa bs
  | .window stash pa d => if wide then s.windowHomePut h stash pa d bs else s.writePlace s.curCore p bs
  | .global pa device =>
    let line := pa / 64 * 64
    if device then ((s.giveLine h line).send s.pkgid (s.postCount pa) false (.store pa bs false) true).1
    else if wide then (((s.giveLine h line).noteUnbacked s.curCore pa).homePut pa bs).shareWin h pa bs none
    else if post then ((s.backLine h line).send s.pkgid (s.postCount pa) false (.store pa bs false)).1
    else s.writePlace s.curCore p bs st
  | .far pa dev => (s.send s.pkgid 1 false (.store pa bs false) dev).1
  | .foreign pk pa dev => (s.send pk 2 false (.store pa bs false) dev).1

/-- The bytes of a part, with offsets from the part. -/
def partBytes (bs : List (Nat × Byte)) (off n : Nat) : List (Nat × Byte) :=
  (bs.filter fun b => off ≤ b.1 && b.1 < off + n).map fun b => (b.1 - off, b.2)

/-- One store of an instruction: its address and length, its bytes, listed by offset, the address that a trap names, and the
address at which the instruction's access begins. -/
structure StoreOne where
  va : Word
  n : Nat
  bytes : List (Nat × Byte)
  info : Word
  base : Word := va
  deriving DecidableEq, Repr

/-- The parts of a store that hold bytes. -/
def StoreOne.cut (x : StoreOne) : List (Nat × Nat) := (parts x.va x.n).filter fun q => !(partBytes x.bytes q.1 q.2).isEmpty

/-- The parts that may be written now: resolved, and to no page that an entry of the context waits for (R166). -/
def State.writable (s : State) (x : StoreOne) (got : List Part) : List Part :=
  got.filter fun q =>
    !(s.myCore.replay.any fun r => r.ctx = s.curCtx && samePage r.va (x.va + BitVec.ofNat 64 q.off))

/-- The parts of one store that may not be written now enter the replay queue (R166). -/
def State.queueItem (s : State) (root : Word) (p : Priv) (w : How) (x : StoreOne) (k : State → Act) : Act :=
  let (got, bad, t) := s.resolveParts root p x.va .write x.cut
  let now := s.writable x got
  let one (v : State) (off : Nat) (all : Bool) (k : State → Act) : Act :=
    let va := x.va + BitVec.ofNat 64 off
    let mine := if all then partBytes x.bytes off x.n else (match x.cut.find? fun q => q.1 = off with
      | some q => partBytes x.bytes off q.2 | none => [])
    (v.storeFault root p va .write ((bad.find? fun b => b.1 = off).map fun b => b.2.2)
      (.store 0 mine false) w k).getD (k v)
  match (x.cut.filter fun q => !(now.any fun g => g.off = q.1)).map Prod.fst with
  | [] => k s
  | [off] => one t off false k
  | off :: off2 :: _ =>
    if samePage (x.va + BitVec.ofNat 64 off) (x.va + BitVec.ofNat 64 off2) then one t off true k
    else one t off false fun v => one v off2 false k

/-- The stores of an instruction that may not be written now, one after the other. -/
def State.queueEach (root : Word) (p : Priv) (w : How) (k : State → Act) : List StoreOne → State → Act
  | [], s => k s
  | x :: r, s => s.queueItem root p w x (State.queueEach root p w k r)

/-- Bytes written to a place. -/
structure Write where
  place : Place
  bytes : List (Nat × Byte)
  deriving DecidableEq, Repr

/-- A place with another address in the same line. -/
def Place.line (p : Place) : Place × Nat :=
  match p with
  | .near pa => (.near (pa / 64 * 64), pa % 64)
  | .far pa d => (.far (pa / 64 * 64) d, pa % 64)
  | .window st pa d => (.window (st / 64 * 64) (pa / 64 * 64) d, st % 64)
  | .global pa d => (.global (pa / 64 * 64) d, pa % 64)
  | .foreign pk pa d => (.foreign pk (pa / 64 * 64) d, pa % 64)

/-- A place `n` bytes on. -/
def Place.plus (p : Place) (n : Nat) : Place :=
  match p with
  | .near pa => .near (pa + n)
  | .far pa d => .far (pa + n) d
  | .window st pa d => .window (st + n) (pa + n) d
  | .global pa d => .global (pa + n) d
  | .foreign pk pa d => .foreign pk (pa + n) d

/-- Writes to one line made one, later ones last (06 R156, 09 R241). -/
def joinWrites : List Write → List Write
  | [] => []
  | w :: r =>
    let (l, o) := w.place.line
    let bs := w.bytes.map fun b => (b.1 + o, b.2)
    match joinWrites r with
    | [] => [{ place := l, bytes := bs }]
    | x :: rest =>
      if x.place = l then
        { place := l,
          bytes := (List.range 64).filterMap fun i =>
            ((x.bytes.find? fun b => b.1 = i).orElse fun _ => bs.find? fun b => b.1 = i) } :: rest
      else { place := l, bytes := bs } :: x :: rest

/-- A write of listed bytes of a place, from the first of them on; none of no bytes. -/
def writeFrom (p : Place) (bs : List (Nat × Byte)) : List Write :=
  match bs with
  | [] => []
  | (o, _) :: _ => [{ place := p.plus o, bytes := bs.map fun b => (b.1 - o, b.2) }]

/-- The writes of lines as they are made: on a page of device type, accesses of 16 bytes in ascending address, of which the
first begins `al` bytes from a multiple of 16, and one may run from a line into the next (R241). `carry`: what the line before
leaves for it. -/
def cutWrites (al : Nat) : Option Write → List Write → List Write
  | none, [] => []
  | some c, [] => writeFrom c.place c.bytes
  | carry, w :: r =>
    if !w.place.device then
      (match carry with | some c => writeFrom c.place c.bytes | none => []) ++ writeFrom w.place w.bytes ++ cutWrites al none r
    else
      let part (j : Nat) : List (Nat × Byte) := w.bytes.filter fun b => (b.1 + 16 - al) / 16 = j
      let head : List Write := match carry with
        | some c =>
          if c.place.plus 64 = w.place then writeFrom c.place (c.bytes ++ (part 0).map fun b => (b.1 + 64, b.2))
          else writeFrom c.place c.bytes ++ writeFrom w.place (part 0)
        | none => writeFrom w.place (part 0)
      head ++ [1, 2, 3].flatMap (fun j => writeFrom w.place (part j))
        ++ cutWrites al (if (part 4).isEmpty then none else some { place := w.place, bytes := part 4 }) r

/-- The writes of the stores of an instruction that may be made now, with what their translation leaves. `joined`: they are one
contiguous access, those of one line one write. -/
def State.writesOf (s : State) (root : Word) (p : Priv) (xs : List StoreOne) (joined : Bool) : List Write × State :=
  let r := xs.foldl (fun (acc : List Write × State) x =>
    let (got, _, t) := acc.2.resolveParts root p x.va .write x.cut
    (acc.1 ++ (t.writable x got).map fun q => { place := q.place, bytes := partBytes x.bytes q.off q.n }, t)) ([], s)
  let al := match xs with | x :: _ => x.base.toNat % 16 | [] => 0
  (if joined then cutWrites al none (joinWrites r.1) else r.1, r.2)

/-- The bytes from a write's address to its last. -/
def Write.span (w : Write) : Nat := match w.bytes.getLast? with | some (i, _) => i + 1 | none => 0

/-- The line that a write must fill first and a CXL port does not deliver (20 R460). -/
def State.writeStuck (s : State) (w : Write) (post wide : Bool) : Option Nat :=
  match w.place with
  | .global _ device => if device || post || wide then none else s.placeStuck s.curCore w.place w.span
  | p => s.placeStuck s.curCore p w.span

/-- The stores of an instruction (R216, R166, 09 R241, 18 R426): a trap of any of them comes before all; those that meet an
absent page enter the replay queue; then the others are written, in order. -/
def State.storeItems (s : State) (root : Word) (p : Priv) (xs : List StoreOne) (w : How) (joined : Bool) (k : State → Act) :
    Act :=
  let seen := xs.map fun x => (x, s.resolveParts root p x.va .write x.cut)
  let bad := seen.flatMap fun q => q.2.2.1.map fun b => (s.hardened b.2.2).at q.1.info
  let listed := seen.flatMap fun q => q.2.1.filterMap fun g => (s.fillBad s.curCore g.place).map Trouble.bad
  match worst (bad ++ listed) with
  | some (.trap c va) => s.troubled (.trap c va) .write
  | some (.bad l) => .trap 0x11 (s.badInfo l)
  | _ =>
    let queue := seen.filter fun q => (s.writable q.1 q.2.1).length < q.1.cut.length
    let now := (s.writesOf root p xs joined).1
    match now.findSome? fun g => s.writeStuck g w.post w.wide with
    | some l => .hold (s.cxlAsk l false 0)
    | none =>
    if (now.any fun g => s.storeHeld g.place g.span w.post w.wide) || s.countsFull (now.map Write.place) w.post w.wide then
      .hold s
    else
      match (if 32 < s.myCore.replay.length + queue.length then s.ownRefused else none) with
      | some r => s.refusedAct r
      | none =>
        State.queueEach root p w (fun t =>
          let (ws, u) := t.writesOf root p xs joined
          k (ws.foldl (fun u g => u.putPart g.place g.bytes w.post w.wide w.stream) u)) xs s

/-- Bytes of an ST. -/
def stBytes : StTy → Nat
  | .n8 => 1
  | .n16 => 2
  | .n32 => 4
  | .n64 => 8
  | .pair => 16

/-- How the stores of an instruction are served. -/
def howOf (o : Ops) : How :=
  { post := noL1 o, wide := (ordOf o).1 = 2 && Scope.wide (ordOf o).2, stream := streams o }

/-- Body of ST (R216). -/
def stBody (o : Ops) (t : StTy) (s : State) : Act :=
  let n := stBytes t
  let w := if n = 16 then 16 else 8
  let (ord, sc) := ordOf o
  let ea := s.ea o n
  let go (u : State) : Act :=
    u.storeItems u.me.tblroot u.me.priv
      [{ va := ea, n := n, bytes := offsets (bytesOf n (s.rs (scAddr o o.d) w)), info := ea }] (howOf o) false .done
  s.within [scLoc o o.a, rsLoc o o.d w]
    (if ord ≠ 0 && !aligned ea n then .trap 0x03 ea
     else if ord = 2 then s.released sc false go else go s)

def execSt (o : Ops) (t : StTy) (s : State) := s.run (.st o t) o (stBody o t)

/-! ### Full/empty words (R218 to R220) -/

/-- An access to a full/empty word: its place, with the storage address of the word; the traps of R425, and for a read the wait
for an entry of the replay queue that it overlaps (R166, R432). -/
def State.withWord (s : State) (ea : Word) (kind : Access) (k : State → Place → Nat → Act) : Act :=
  if !aligned ea 8 then .trap 0x03 ea
  else
    match s.refusedMeet ea 8 kind with
    | some r => s.refusedAct r
    | none =>
      let behind := if kind = .read then s.queued ea 8 else none
      let late := if behind.isSome then s.lateQueue ea else []
      match s.resolve ea kind with
      | .error e =>
        match worst (e.at ea :: late), behind with
        | some (.trap c va), _ => s.troubled (.trap c va) kind
        | some (.bad l), _ => s.troubled (.bad l) kind
        | _, some r => s.waitEntry r
        | _, none => s.troubled (e.at ea) kind
      | .ok (p, t) =>
        let pa := match p with | .near pa | .far pa _ | .global pa _ | .foreign _ pa _ => pa | .window st _ _ => st
        if !late.isEmpty then .trap 0x04 ea
        else if !t.feWord pa then .trap 0x05 ea
        else
          match (if kind = .read then t.placeBad t.curCore p 8 else t.fillBad t.curCore p), behind with
          | some l, _ => .trap 0x11 (s.badInfo l)
          | none, some r => s.waitEntry r
          | none, none =>
            match t.placeStuck t.curCore p 8 with
            | some l => .hold (t.cxlAsk l false 0)
            | none => k t p pa

/-- A window line is filled before its word is used (05 R128). -/
def State.filled (s : State) : Place → State
  | .window st pa d => s.fillWindow (hamOf s.curCore) st pa d
  | _ => s

/-- The scope of LDSYNC and STSYNC (06 R159). -/
def State.syncScope (s : State) (o : Ops) : Scope := if (ordOf o).1 = 0 then s.objScope else (ordOf o).2

/-- Body of LDSYNC (R218). A word of another package is asked for by a message; its home answers at once, with the word or
that it is empty, and the instruction then completes or parks (02 R47; log entry 35). `.cons` asks for no more permission than a
read (log entry 117). -/
def ldsyncBody (o : Ops) (cons : Bool) (s : State) : Act :=
  if s.onHandler then illegal (.ldsync o cons)
  else
    let ea := s.ea o 8
    let d := scAddr o o.d
    s.within [scLoc o o.a, scLoc o o.d]
      (s.withWord ea .read fun t p pa =>
           let cond : BitVec 5 := if cons then 0x04 else 0x03
           match p with
           | .foreign pk pa dev =>
             (match t.me.dbuf with
              | some (a, r) =>
                if a = farWord pk pa then
                  let u := t.setMe { t.me with dbuf := none }
                  if r.getLsbD 64 then .park u cond a
                  else .done ((u.var [cellAt d 8 (fld r 63 0)]).acquire (s.syncScope o))
                else if dev && t.posting then .hold s
                else .left (t.remoteRead pk (.ldsync pa cons) false)
              | none => if dev && t.posting then .hold s else .left (t.remoteRead pk (.ldsync pa cons) false))
           | _ =>
             if (match p with | .far q dev => t.pathBusy (t.homeOf q) || (dev && t.posting) | _ => false) then .hold s
             else
               let t := t.filled p
               let t := match p with | .far q _ => t.direct q | _ => t
               if !t.isFull pa then .park t cond (wordKey pa)
               else
                 let t' := if cons then t.setFull pa false else t
                 .done ((t'.var [cellAt d 8 (ofBytes (t.homeRead pa 8))]).acquire (s.syncScope o)))

def execLdsync (o : Ops) (cons : Bool) (s : State) := s.run (.ldsync o cons) o (ldsyncBody o cons)

/-- STSYNC at its home: data and full bit in one event, and the wake (R219). -/
def State.syncStore (s : State) (pa : Nat) (v : Word) : State :=
  ((s.homePut pa (offsets (bytesOf 8 v.toNat))).setFull pa true).wakeWord pa

/-- FESET at its home (R220). -/
def State.setWord (s : State) (pa : Nat) (full : Bool) : State :=
  let t := s.setFull pa full
  if full then t.wakeWord pa else t

/-- Body of STSYNC (R219). -/
def stsyncBody (o : Ops) (s : State) : Act :=
  let ea := s.ea o 8
  let v := s.scOp o o.d
  s.within [scLoc o o.a, scLoc o o.d]
    (if !aligned ea 8 then .trap 0x03 ea
     else
       s.released (s.syncScope o) true fun r =>
         r.withWord ea .write fun t p pa =>
           let wide := Scope.wide (s.syncScope o)
           if t.storeHeld p 8 false wide then .hold s
           else
             match p with
             | .foreign pk q dev => .done (t.send pk 2 false (.stsync q v) dev).1
             | .far q dev => .done (t.send t.pkgid 1 false (.stsync q v) dev).1
             | .window st home d =>
               let bs := offsets (bytesOf 8 v.toNat)
               let h := hamOf t.curCore
               let u := if wide then t.windowHomePut h st home d bs
                 else (((t.filled p).dirtyWindow h st bs true).shareL1 h home bs).shareWin h home bs (some (winKey (st / 64 * 64)))
               .done (u.syncStore st v)
             | _ => .done (t.syncStore pa v))

def execStsync (o : Ops) (s : State) := s.run (.stsync o) o (stsyncBody o)

/-- Body of FESET (R220). -/
def fesetBody (o : Ops) (full : Bool) (s : State) : Act :=
  let ea := s.ea o 8
  s.within [scLoc o o.a]
    (s.withWord ea .write fun t p pa =>
      if t.storeHeld p 8 false then .hold s
      else
        match p with
        | .foreign pk q dev => .done (t.send pk 2 false (.feset q full) dev).1
        | .far q dev => .done (t.send t.pkgid 1 false (.feset q full) dev).1
        | _ => .done ((t.filled p).setWord pa full))

def execFeset (o : Ops) (full : Bool) (s : State) := s.run (.feset o full) o (fesetBody o full)

/-! ### Line control (R221 to R224) -/

/-- The line of an address. -/
def lineVa (ea : Word) : Word := ea &&& ~~~ 63

/-- Body of PREF (R221): a line that a read could reach is brought in; every trouble drops it. -/
def prefBody (o : Ops) (dst : PrefTo) (s : State) : Act :=
  s.within [scLoc o o.a]
    (let va := lineVa (s.ea o 64)
     match s.resolve va .read with
     | .error _ => .done (s.noteWalk s.curCore s.me.tblroot va)
     | .ok (p, t) =>
       if (t.placeBad t.curCore p 64).isSome || (t.placeStuck t.curCore p 64).isSome then .done t
       else
         match p, dst with
         | .global pa false, .l1 =>
           .done (if (t.region pa).global then (t.readPlace t.curCore p 64 (!noL1 o) (streams o)).2 else t.noteUnbacked t.curCore pa)
         | .global pa false, .home => .done (if (t.region pa).global then t.lineIn (pa / 64 * 64) else t.noteUnbacked t.curCore pa)
         | .window _ _ _, .win => .done (t.filled p)
         | _, _ => .done t)

def execPref (o : Ops) (dst : PrefTo) (s : State) := s.run (.pref o dst) o (prefBody o dst)

/-- A window line dropped (R222): UNFILLED, or zeros with every word empty where the window fills so. -/
def State.dropWindow (s : State) (h st : Nat) (d : BitVec 128) : State :=
  let key := winKey (st / 64 * 64)
  let line := st / 64 * 64
  if d.getLsbD 11 then
    let s := { s with mem := memWrite s.mem line (List.replicate 64 0) }
    let s := (List.range 8).foldl (fun t i => t.setFull (line + 8 * i) false) s
    s.setHam h { s.ham h with winLines := put (s.ham h).winLines key { dirty := 0 } }
  else s.setHam h { s.ham h with winLines := del (s.ham h).winLines key }

/-- Body of STASH (R222). -/
def stashBody (o : Ops) (drop : Bool) (s : State) : Act :=
  s.within [scLoc o o.a]
    (let va := lineVa (s.ea o 64)
     if !canonical va then .trap 0x04 (s.ea o 64)
     else
       match winOf s.myHam.windows va with
       | none => .done s
       | some d =>
         if drop then .done (s.dropWindow (hamOf s.curCore) (winStash d va) d)
         else
           match s.resolve va .read with
           | .error e => s.troubled (e.at (s.ea o 64)) .read
           | .ok (p, t) =>
             match t.fillBad t.curCore p, t.placeStuck t.curCore p 64 with
             | some l, _ => .trap 0x11 (s.badInfo l)
             | none, some l => .hold (t.cxlAsk l false 0)
             | none, none => .done (t.filled p))

def execStash (o : Ops) (drop : Bool) (s : State) := s.run (.stash o drop) o (stashBody o drop)

/-- A hamlet's dirty bytes of a line are written back from its L1s and its windows, and with `inv` its clean copies invalidated
(R223). -/
def State.flushLine (s : State) (h line : Nat) (inv : Bool) : State :=
  let t := s.backLine h line
  if !inv then t
  else
    let keys := (t.windowsOf h line).filter fun key =>
      (look (⟨0, 0⟩ : WinLine) (t.ham h).winLines key).dirty = 0
        && !((winAt (t.ham h).windows (0x3D0000000000 + 64 * key)).map fun d => d.getLsbD 11).getD true
    let t := t.dropLine h line
    t.setHam h { t.ham h with winLines := keys.foldl (fun m key => del m key) (t.ham h).winLines }

/-- Body of FLUSH (R223). Its walk waits for no pager, and an absent page makes it a NOP. -/
def flushBody (o : Ops) (inv : Bool) (s : State) : Act :=
  s.within [scLoc o o.a]
    (let va := lineVa (s.ea o 64)
     match s.resolveFor s.curCore s.curCtx s.me.tblroot s.me.priv va .data with
     | .error (.page _ _ _) => .done (s.noteWalk s.curCore s.me.tblroot va)
     | .error e => s.troubled (e.at (s.ea o 64)) .data
     | .ok (p, t) =>
       let h := hamOf t.curCore
       match p with
       | .global pa false => .done (t.flushLine h (pa / 64 * 64) inv)
       | .window _ pa _ => .done (t.flushLine h (pa / 64 * 64) inv)
       | _ => .done t)

def execFlush (o : Ops) (inv : Bool) (s : State) := s.run (.flush o inv) o (flushBody o inv)

/-- 64 zero bytes. -/
def zeros64 : List (Nat × Byte) := offsets (List.replicate 64 0)

/-- The dirty bytes of a line in a hamlet's windows that fill from memory are discarded (R224). -/
def State.dropCopies (s : State) (h line : Nat) : State :=
  if (s.ham h).winLines.isEmpty then s
  else
    (s.windowsOf h line).foldl (fun t key =>
      let fe := ((winAt (t.ham h).windows (0x3D0000000000 + 64 * key)).map fun d => d.getLsbD 11).getD true
      t.setHam h { t.ham h with winLines := if fe then put (t.ham h).winLines key { dirty := 0 } else del (t.ham h).winLines key }) s

/-- ZLINE on a place (R224): on a page of device type, four stores of 16 bytes. -/
def State.zeroPlace (s : State) (p : Place) : State :=
  let h := hamOf s.curCore
  let four (pk : BitVec 20) (cnt pa : Nat) : State :=
    (List.range 4).foldl (fun t i => (t.send pk cnt false (.store (pa + 16 * i) (zeros64.take 16) false) true).1) s
  match p with
  | .near pa => s.homePut pa zeros64
  | .window _ _ _ => s.writePlace s.curCore p zeros64
  | .global pa true => four s.pkgid (s.postCount pa) pa
  | .global pa false => (((s.dropLine h pa).dropCopies h pa).send s.pkgid (s.postCount pa) false (.zline pa)).1
  | .far pa true => four s.pkgid 1 pa
  | .far pa false => (s.send s.pkgid 1 false (.store pa zeros64 false)).1
  | .foreign pk pa true => four pk 2 pa
  | .foreign pk pa false => (s.send pk 2 false (.zline pa)).1

/-- ZLINE on a place must wait (R150, R160). -/
def State.zeroHeld (s : State) (p : Place) : Bool :=
  s.storeHeld p 64 true || s.countFull (s.countOf p true false) (if p.device then 4 else 1)

/-- Body of ZLINE (R224): a plain store of 64 bytes. -/
def zlineBody (o : Ops) (s : State) : Act :=
  let ea := s.ea o 64
  s.within [scLoc o o.a]
    (if !aligned ea 64 then .trap 0x03 ea
     else
       let root := s.me.tblroot
       let go (t : State) (e : Option Trouble) (p : Option Place) : Act :=
         match s.storeFault root s.me.priv ea .write e (.zline 0) {} .done with
         | some a => if s.onHandler || s.me.handling then .trap 0x04 ea else a
         | none =>
           match p with
           | some p =>
             match (match p with | .window _ _ _ => t.placeStuck t.curCore p 64 | _ => none) with
             | some l => .hold (t.cxlAsk l false 0)
             | none => if t.zeroHeld p then .hold s else .done (t.zeroPlace p)
           | none => .done t
       match s.resolveFor s.curCore s.curCtx root s.me.priv ea .write with
       | .error (.page c l va) => if s.onHandler || s.me.handling then s.troubled (.trap 0x04 ea) .write else go s (some (.page c l va)) none
       | .error e => s.troubled (e.at ea) .write
       | .ok (p, t) =>
         match p, t.fillBad t.curCore p with
         | .window _ _ _, some l => .trap 0x11 (s.badInfo l)
         | _, _ => go t none (some p))

def execZline (o : Ops) (s : State) := s.run (.zline o) o (zlineBody o)

/-! ### Ordering and waiting (R225 to R228) -/

/-- Body of FENCE (R225, 06 R149). -/
def fenceBody (scope : Scope) (kind : FenceKind) (s : State) : Act :=
  match kind with
  | .acq => if s.me.returned then .done (s.acquire scope) else .hold s
  | .rel => s.withRelease scope false .done
  | .ar => s.withRelease scope false fun t => .done (t.acquire scope)
  | .sc => s.withRelease scope true fun t => .done (t.acquire scope)

def execFence (o : Ops) (scope : Scope) (kind : FenceKind) (s : State) :=
  s.run (.fence o scope kind) o (fenceBody scope kind)

/-- Body of WAITC (R226). -/
def waitcBody (n : BitVec 2) (s : State) : Act :=
  let x := s.me
  if (if n = 0 then x.c1 = 0 && x.c2 = 0 && x.c3 = 0 else x.count n.toNat = 0) then .done s else .hold s

def execWaitc (o : Ops) (n : BitVec 2) (s : State) := s.run (.waitc o n) o (waitcBody n)

/-- Body of WAITA (R227, R228): between two reads, each served as under the no-L1 policy, the context holds. -/
def waitaBody (o : Ops) (eq : Bool) (s : State) : Act :=
  let ea := s.ea o 8
  let c := s.scOp o o.d
  s.within [scLoc o o.a, scLoc o o.d]
    (if !aligned ea 8 then .trap 0x03 ea
     else
       match s.readNow ea 8 false with
       | .error a => a
       | .ok (v, t) =>
         if (BitVec.ofNat 64 v = c) = (eq = true) then .done (t.var [cellAt (scAddr o o.d) 8 v]) else .hold t)

def execWaita (o : Ops) (eq : Bool) (s : State) := s.run (.waita o eq) o (waitaBody o eq)

end Sys2Proof.Machine
end

