-- ==== Sys2Proof/Machine/Atomic.lean ====
section
/-! DEFINITION. Atomics, opcodes 0x2D to 0x2F (08 R229 to R232), and what a home applies (06 R164). -/

namespace Sys2Proof.Machine

/-- f(old, x) of R229, with the flags of the one rounding (R232). Operands hold the low bits of the operation's width. -/
def amoFn (f : AmoFn) (old x : Word) : Word × Flags :=
  let add (g : Fmt) : Word × Flags :=
    let r := g.finish 1 (addVal 1 (g.decode old.toNat) (g.decode x.toNat))
    (BitVec.ofNat 64 r.1, r.2)
  match f with
  | .swap | .swap32 => (x, 0)
  | .add => (old + x, 0)
  | .add32 => (((old + x).setWidth 32 : BitVec 32).setWidth 64, 0)
  | .and => (old &&& x, 0)
  | .or => (old ||| x, 0)
  | .xor => (old ^^^ x, 0)
  | .min => (if old.toInt ≤ x.toInt then old else x, 0)
  | .max => (if old.toInt ≤ x.toInt then x else old, 0)
  | .minu => (if old.toNat ≤ x.toNat then old else x, 0)
  | .maxu => (if old.toNat ≤ x.toNat then x else old, 0)
  | .fadd32 => add .f32
  | .fadd64 => add .f64

/-- Number of bytes that an atomic acts on. -/
def fnBytes : AtomicFn → Nat
  | .amo f _ => amoBytes f
  | .cas f _ _ => casBytes f

/-- The value that an atomic leaves, if it writes, and its flags, from the value that it finds (R229, R230). -/
def fnApply (f : AtomicFn) (old : Nat) : Option Nat × Flags :=
  match f with
  | .amo g x =>
    let n := amoBytes g
    let r := amoFn g (BitVec.ofNat 64 old) (BitVec.ofNat 64 (x.toNat % 2 ^ (8 * n)))
    (some r.1.toNat, r.2)
  | .cas _ cmp new => (if old = cmp.toNat then some new.toNat else none, 0)

/-- An atomic applied at its home, one event (06 R164): the old value, its flags, and the state. -/
def State.applyAtomic (s : State) (pa : Nat) (f : AtomicFn) : Nat × Flags × State :=
  let n := fnBytes f
  let old := ofBytes (s.homeRead pa n)
  let (new, fl) := fnApply f old
  (old, fl, match new with | some v => s.homePut pa (offsets (bytesOf n v)) | none => s)

/-- Before an atomic leaves its hamlet, the hamlet's dirty bytes of its line are written back and its clean copy is
invalidated (06 R164). The dirty bytes of a window that is otherwise never written back are written back too; a line of a
window that fills with zeros stays, clean (log entry 36). -/
def State.evictFor (s : State) (p : Place) : State :=
  let h := hamOf s.curCore
  match p with
  | .global pa _ => s.flushLine h (pa / 64 * 64) true
  | .window st pa d =>
    let key := winKey (st / 64 * 64)
    let line := 0x3D0000000000 + 64 * key
    let w := look (⟨0, 0⟩ : WinLine) (s.ham h).winLines key
    let t := s.homePut (pa / 64 * 64) (dirtyBytes { data := rowOf (memRead s.mem line 64), dirty := w.dirty })
    let t := t.setHam h { t.ham h with
      winLines := if (find (t.ham h).winLines key).isSome then put (t.ham h).winLines key { w with dirty := 0 } else (t.ham h).winLines }
    (if d.getLsbD 11 then t else t.dropWindow h st d).flushLine h (pa / 64 * 64) true
  | _ => s

/-- Package and address of the home that an atomic goes to, and the named count that a RED to it takes; none for storage
of the own hamlet, which its directory serves (R231, 06 R164). -/
def State.atomicHome (s : State) : Place → Option (BitVec 20 × Nat × Nat)
  | .near _ => none
  | .window _ pa _ => some (s.pkgid, pa, s.postCount pa)
  | .global pa _ => some (s.pkgid, pa, s.postCount pa)
  | .far pa _ => some (s.pkgid, pa, 1)
  | .foreign pk pa _ => some (pk, pa, 2)

/-- Body of AMO and CAS once their operands are read: `w` bytes of the old value go to the destination. -/
def atomicBody (o : Ops) (f : AtomicFn) (w : Nat) (s : State) : Act :=
  let n := fnBytes f
  let ea := s.ea o n
  let d := scAddr o o.d
  let (ord, sc) := ordOf o
  if !aligned ea n then .trap 0x03 ea
  else
    let go (r : State) : Act :=
      let waiting := r.queued ea n
      let late := if waiting.isSome then r.lateQueue ea else []
      match r.refusedMeet ea n .atomic with
      | some q => r.refusedAct q
      | none =>
      match r.resolve ea .atomic with
      | .error e =>
        match worst (e.at ea :: late), waiting with
        | some (.page _ _ _), some q => r.waitEntry q
        | some e, _ => r.troubled e .atomic
        | none, _ => r.troubled (e.at ea) .atomic
      | .ok (p, t) =>
        match t.placeBad t.curCore p n, waiting with
        | some l, _ => if late.isEmpty then .trap 0x11 (s.badInfo l) else .trap 0x04 ea
        | none, some q => if late.isEmpty then r.waitEntry q else .trap 0x04 ea
        | none, none =>
          match t.placeStuck t.curCore p n with
          | some l => .hold (t.cxlAsk l false 0)
          | none =>
            let acq := ord = 1 || ord = 3
            match p, t.atomicHome p with
            | .near pa, _ =>
              let (old, fl, u) := t.applyAtomic pa f
              .done (if acq then (u.var [cellAt d w old] fl).acquire sc else u.var [cellAt d w old] fl)
            | _, some (pk, pa, _) =>
              if p.device && t.posting then .hold s
              else if pk ≠ t.pkgid && t.deadPeer pk then .trap 0x11 (deadInfo pa)
              else if pk ≠ t.pkgid && t.linkFull pk then .hold s
              else
                let (u, id) := (t.evictFor p).send pk 0 true (.atomic pa f) p.device
                let u := u.varAwait [cellAt d w 0] [(id, 8 * (d % 64))]
                .done (if acq then u.acquireAfter sc true else u)
            | _, none => .done t
    if ord = 2 || ord = 3 then s.released sc false go else go s

/-- Body of AMO (R229). -/
def amoBody (o : Ops) (f : AmoFn) (s : State) : Act :=
  s.within [scLoc o o.a, scLoc o o.d] (atomicBody o (.amo f (s.scOp o o.d)) 8 s)

def execAmo (o : Ops) (f : AmoFn) (s : State) := s.run (.amo o f) o (amoBody o f)

/-- The atomic that a CAS asks for: its compare and new values (R230). -/
def State.casFn (s : State) (o : Ops) (f : CasFn) : AtomicFn :=
  let d := scAddr o o.d
  let n := casBytes f
  let step := if f = .pair then 16 else 8
  .cas f (BitVec.ofNat 128 (s.rs d n)) (BitVec.ofNat 128 (s.rs (d + step) n))

/-- Body of CAS. -/
def casBody (o : Ops) (f : CasFn) (s : State) : Act :=
  let w := if f = .pair then 16 else 8
  s.within [scLoc o o.a, rsLoc o o.d (2 * w)] (atomicBody o (s.casFn o f) w s)

def execCas (o : Ops) (f : CasFn) (s : State) := s.run (.cas o f) o (casBody o f)

/-- Body of RED (R231): posted; an absent page takes it into the replay queue. -/
def redBody (o : Ops) (f : AmoFn) (s : State) : Act :=
  let fn : AtomicFn := .amo f (s.scOp o o.d)
  let n := amoBytes f
  let ea := s.ea o n
  let (ord, sc) := ordOf o
  s.within [scLoc o o.a, scLoc o o.d]
    (if !aligned ea n then .trap 0x03 ea
     else
       let root := s.me.tblroot
       let fault (r : State) (e : Option Trouble) : Option Act :=
         (r.storeFault root s.me.priv ea .atomic e (.atomic 0 fn) {} .done).map fun a =>
           if r.onHandler || r.me.handling then .trap 0x04 ea else a
       let go (r : State) : Act :=
         match r.resolveFor r.curCore r.curCtx root r.me.priv ea .atomic with
         | .error (.page c l va) =>
           if r.onHandler || r.me.handling then r.troubled (.trap 0x04 ea) .atomic else (fault r (some (.page c l va))).getD (.hold s)
         | .error e => r.troubled (e.at ea) .atomic
         | .ok (p, t) =>
           match fault r none with
           | some a => a
           | none =>
             match p, t.atomicHome p with
             | .near pa, _ => .done (t.applyAtomic pa fn).2.2
             | _, some (pk, pa, cnt) =>
               if t.countFull cnt || (pk ≠ t.pkgid && t.linkFull pk) || (p.device && t.posting) then .hold s
               else .done ((t.evictFor p).send pk cnt false (.atomic pa fn) p.device).1
             | _, none => .done t
       if ord = 2 then s.released sc false go else go s)

def execRed (o : Ops) (f : AmoFn) (s : State) := s.run (.red o f) o (redBody o f)

end Sys2Proof.Machine
end

