-- ==== Sys2Proof/Machine/Crypto.lean ====
section
/-! DEFINITION. SHA-384 and ECDSA on brainpoolP384r1, by which root firmware checks launch images and service firmware and signs
attestation reports (01 R19, 13 R363, R371, R372). The two functions are those of their standards (PRESUMED, log entry 45). -/

namespace Sys2Proof.Machine

/-! ### SHA-384 -/

/-- The round constants. -/
def shaRounds : List (BitVec 64) :=
  [0x428A2F98D728AE22, 0x7137449123EF65CD, 0xB5C0FBCFEC4D3B2F, 0xE9B5DBA58189DBBC,
     0x3956C25BF348B538, 0x59F111F1B605D019, 0x923F82A4AF194F9B, 0xAB1C5ED5DA6D8118]
  ++ [0xD807AA98A3030242, 0x12835B0145706FBE, 0x243185BE4EE4B28C, 0x550C7DC3D5FFB4E2,
     0x72BE5D74F27B896F, 0x80DEB1FE3B1696B1, 0x9BDC06A725C71235, 0xC19BF174CF692694]
  ++ [0xE49B69C19EF14AD2, 0xEFBE4786384F25E3, 0x0FC19DC68B8CD5B5, 0x240CA1CC77AC9C65,
     0x2DE92C6F592B0275, 0x4A7484AA6EA6E483, 0x5CB0A9DCBD41FBD4, 0x76F988DA831153B5]
  ++ [0x983E5152EE66DFAB, 0xA831C66D2DB43210, 0xB00327C898FB213F, 0xBF597FC7BEEF0EE4,
     0xC6E00BF33DA88FC2, 0xD5A79147930AA725, 0x06CA6351E003826F, 0x142929670A0E6E70]
  ++ [0x27B70A8546D22FFC, 0x2E1B21385C26C926, 0x4D2C6DFC5AC42AED, 0x53380D139D95B3DF,
     0x650A73548BAF63DE, 0x766A0ABB3C77B2A8, 0x81C2C92E47EDAEE6, 0x92722C851482353B]
  ++ [0xA2BFE8A14CF10364, 0xA81A664BBC423001, 0xC24B8B70D0F89791, 0xC76C51A30654BE30,
     0xD192E819D6EF5218, 0xD69906245565A910, 0xF40E35855771202A, 0x106AA07032BBD1B8]
  ++ [0x19A4C116B8D2D0C8, 0x1E376C085141AB53, 0x2748774CDF8EEB99, 0x34B0BCB5E19B48A8,
     0x391C0CB3C5C95A63, 0x4ED8AA4AE3418ACB, 0x5B9CCA4F7763E373, 0x682E6FF3D6B2B8A3]
  ++ [0x748F82EE5DEFB2FC, 0x78A5636F43172F60, 0x84C87814A1F0AB72, 0x8CC702081A6439EC,
     0x90BEFFFA23631E28, 0xA4506CEBDE82BDE9, 0xBEF9A3F7B2C67915, 0xC67178F2E372532B]
  ++ [0xCA273ECEEA26619C, 0xD186B8C721C0C207, 0xEADA7DD6CDE0EB1E, 0xF57D4F7FEE6ED178,
     0x06F067AA72176FBA, 0x0A637DC5A2C898A6, 0x113F9804BEF90DAE, 0x1B710B35131C471B]
  ++ [0x28DB77F523047D84, 0x32CAAB7B40C72493, 0x3C9EBE0A15C9BEBC, 0x431D67C49C100D4C,
     0x4CC5D4BECB3E42B6, 0x597F299CFC657E2A, 0x5FCB6FAB3AD6FAEC, 0x6C44198C4A475817]

/-- The eight working words, a first. -/
structure Sha where
  a : BitVec 64
  b : BitVec 64
  c : BitVec 64
  d : BitVec 64
  e : BitVec 64
  f : BitVec 64
  g : BitVec 64
  h : BitVec 64
  deriving DecidableEq, Repr

/-- The initial words. -/
def shaInit : Sha :=
  ⟨0xCBBB9D5DC1059ED8, 0x629A292A367CD507, 0x9159015A3070DD17, 0x152FECD8F70E5939,
    0x67332667FFC00B31, 0x8EB44A8768581511, 0xDB0C2E0D64F98FA7, 0x47B5481DBEFA4FA4⟩

/-- One round with a constant and a word of the schedule. -/
def Sha.round (x : Sha) (k w : BitVec 64) : Sha :=
  let t := x.h + (x.e.rotateRight 14 ^^^ x.e.rotateRight 18 ^^^ x.e.rotateRight 41) + ((x.e &&& x.f) ^^^ (~~~x.e &&& x.g)) + k + w
  let u := (x.a.rotateRight 28 ^^^ x.a.rotateRight 34 ^^^ x.a.rotateRight 39)
    + ((x.a &&& x.b) ^^^ (x.a &&& x.c) ^^^ (x.b &&& x.c))
  ⟨t + u, x.a, x.b, x.c, x.d + t, x.e, x.f, x.g⟩

/-- The message schedule extended by as many words; the newest stands first. -/
def shaSchedule : Nat → List (BitVec 64) → List (BitVec 64)
  | 0, ws => ws
  | n + 1, ws =>
    let w (i : Nat) : BitVec 64 := (ws[i]?).getD 0
    let x := (w 1).rotateRight 19 ^^^ (w 1).rotateRight 61 ^^^ (w 1 >>> 6)
    let y := (w 14).rotateRight 1 ^^^ (w 14).rotateRight 8 ^^^ (w 14 >>> 7)
    shaSchedule n ((w 15 + y + w 6 + x) :: ws)

/-- A number from bytes, the highest first, and `n` such bytes of a number. -/
def beNat (bs : List Byte) : Nat := bs.foldl (fun acc b => 256 * acc + b.toNat) 0
def beBytes (n v : Nat) : List Byte := (List.range n).map fun i => BitVec.ofNat 8 (v >>> (8 * (n - 1 - i)))

/-- The state after a block of 128 bytes. -/
def Sha.block (x : Sha) (bs : List Byte) : Sha :=
  let ws := (List.range 16).map fun i => BitVec.ofNat 64 (beNat ((bs.drop (8 * i)).take 8))
  let y := (shaRounds.zip (shaSchedule 64 ws.reverse).reverse).foldl (fun y kw => y.round kw.1 kw.2) x
  ⟨x.a + y.a, x.b + y.b, x.c + y.c, x.d + y.d, x.e + y.e, x.f + y.f, x.g + y.g, x.h + y.h⟩

/-- The state after as many blocks. -/
def Sha.blocks (x : Sha) : Nat → List Byte → Sha
  | 0, _ => x
  | n + 1, bs => (x.block (bs.take 128)).blocks n (bs.drop 128)

/-- A message padded to whole blocks. -/
def shaPad (bs : List Byte) : List Byte :=
  bs ++ [0x80] ++ List.replicate ((239 - bs.length % 128) % 128) 0 ++ beBytes 16 (8 * bs.length)

/-- The 48 bytes of the digest of a message, in their order. -/
def shaBytes (bs : List Byte) : List Byte :=
  let m := shaPad bs
  let x := shaInit.blocks (m.length / 128) m
  [x.a, x.b, x.c, x.d, x.e, x.f].flatMap fun w => beBytes 8 w.toNat

/-- Bytes as one number, the first byte lowest, as a record's fields hold them. -/
def packBytes (n : Nat) (bs : List Byte) : BitVec n := BitVec.ofNat n (bs.foldr (fun b acc => b.toNat + 256 * acc) 0)

/-- The digest as memory holds it. -/
def sha384 (bs : List Byte) : BitVec 384 := packBytes 384 (shaBytes bs)

/-! ### The curve -/

/-- brainpoolP384r1: the field's prime, the coefficient of x, the base point, and its order. -/
def curveP : Nat := 0x8CB91E82A3386D280F5D6F7E50E641DF152F7109ED5456B412B1DA197FB71123ACD3A729901D1A71874700133107EC53
def curveA : Nat := 0x7BC382C63D8C150C3C72080ACE05AFA0C2BEA28E4FB22787139165EFBA91F90F8AA5814A503AD4EB04A8C7DD22CE2826
def curveG : Nat × Nat :=
  (0x1D1C64F068CF45FFA2A63A81B7C13F6B8847A3E77EF14FE3DB7FCAFE0CBD10E8E826E03436D646AAEF87B2E247D4AF1E,
   0x8ABE1D7520F9C2A45CB1EB8E95CFD55262B70B29FEEC5864E19C054FF99129280E4646217791811142820341263C5315)
def curveN : Nat := 0x8CB91E82A3386D280F5D6F7E50E641DF152F7109ED5456B31F166E6CAC0425A7CF3AB6AF6B7FC3103B883202E9046565

/-- A power modulo a number, for exponents of as many bits. -/
def modPow (m : Nat) : Nat → Nat → Nat → Nat
  | 0, _, _ => 1 % m
  | n + 1, b, e => let r := modPow m n (b * b % m) (e / 2); if e % 2 = 1 then b * r % m else r

/-- The inverse modulo a prime of 384 bits. -/
def modInv (m a : Nat) : Nat := modPow m 384 (a % m) (m - 2)

/-- The sum of two points; none is the point at infinity. -/
def ecAdd : Option (Nat × Nat) → Option (Nat × Nat) → Option (Nat × Nat)
  | none, q => q
  | p, none => p
  | some (x, y), some (u, v) =>
    if x = u && (y + v) % curveP = 0 then none
    else
      let l := if x = u then (3 * x * x + curveA) * modInv curveP (2 * y) else (v + curveP - y) * modInv curveP (u + curveP - x)
      let z := (l * l + 2 * curveP - x - u) % curveP
      some (z, (l * (x + curveP - z) + curveP - y) % curveP)

/-- A multiple of a point, for factors of as many bits. -/
def ecMul : Nat → Nat → Option (Nat × Nat) → Option (Nat × Nat)
  | 0, _, _ => none
  | n + 1, k, p => let r := ecMul n (k / 2) (ecAdd p p); if k % 2 = 1 then ecAdd p r else r

/-! ### ECDSA -/

/-- The number that a digest signs. -/
def digestNat (d : BitVec 384) : Nat := beNat ((List.range 48).map fun i => d.extractLsb' (8 * i) 8)

/-- r and s of a signature: two numbers of 48 bytes each, the highest byte first (R371). -/
def sigPart (sig : BitVec 768) (i : Nat) : Nat := beNat ((List.range 48).map fun j => sig.extractLsb' (384 * i + 8 * j) 8)

/-- Whether a signature of a digest verifies under a public key. -/
def ecVerify (key : Nat × Nat) (digest : BitVec 384) (sig : BitVec 768) : Bool :=
  let r := sigPart sig 0
  let t := sigPart sig 1
  if r = 0 || curveN ≤ r || t = 0 || curveN ≤ t then false
  else
    let w := modInv curveN t
    match ecAdd (ecMul 384 (digestNat digest * w % curveN) (some curveG)) (ecMul 384 (r * w % curveN) (some key)) with
    | some (x, _) => x % curveN == r
    | none => false

/-- The signature of a digest by a private key, with a secret number of its own. -/
def ecSign (key secret : Nat) (digest : BitVec 384) : BitVec 768 :=
  let r := (match ecMul 384 (secret % curveN) (some curveG) with | some (x, _) => x | none => 0) % curveN
  let t := modInv curveN secret * (digestNat digest + r * key) % curveN
  packBytes 768 (beBytes 48 r ++ beBytes 48 t)

/-- Whether a signature of a digest verifies under the Maelsor key (R371). -/
def verifies (digest : BitVec 384) (sig : BitVec 768) : Bool := ecVerify Config.maelsorKey digest sig

/-- The device's signature of a digest (R372). -/
def deviceSign (n : Nat) (digest : BitVec 384) : BitVec 768 := ecSign Config.deviceKey (Config.signSecret n) digest

end Sys2Proof.Machine
end

