-- ==== Sys2Proof/Machine/Message.lean ====
section
/-! DEFINITION. Active messages, opcodes 0x30 and 0x31 (08 R233 to R236), handler runs (02 R64, 17 R411, 19 R443), and
the steps in which messages reach their homes and their answers come back (05 R123, 06 R160, R164, R166). -/

namespace Sys2Proof.Machine

/-! ### Handler runs -/

/-- The event that starts the run at the head of a core's inbox is owed. -/
def State.oweRun (s : State) (c : Nat) : State :=
  match (s.core c).inbox with
  | [] => s
  | r :: _ =>
    match r.kind with
    | .message => s.owe (.activeMessageRun (Fin.ofNat 2048 c))
    | _ => s.owe (.escalationRun (Fin.ofNat 2048 c))

/-- A run enters a core's inbox, in arrival order (R64). -/
def State.deliver (s : State) (c : Nat) (r : Run) : State :=
  let co := s.core c
  let s := s.setCore c { co with inbox := co.inbox ++ [r] }
  if co.inbox.isEmpty then s.oweRun c else s

/-- The register store of a run (R234): s0, s1 and s8 to s15; the rest is zero. -/
def runStore (r : Run) : Map Row :=
  [(0, rowOfWords [r.dst, senderWord r.pkg r.core r.ctx r.reply]), (1, r.payload)]

/-- A run starts on the handler context (R234, 17 R411): a message at kernel privilege, an escalation or a copy fault at
device-runtime privilege. A message is applied when its run starts (06 R150). Predicates and FPSTATUS stay as the last run left
them, and no trap is being handled (log entry 22). -/
def State.startRun (s : State) (c : Nat) (r : Run) : State :=
  let co := s.core c
  let x := s.ctx c 4
  let s := s.setCore c { co with inbox := co.inbox.drop 1 }
  let mine : Bool := r.kind = RunKind.message && r.pkg = s.pkgid
  let s := match (if r.kind = RunKind.message && r.pkg ≠ s.pkgid then s.incoming.find? fun (q : Msg) => q.id = r.inc else none) with
    | some m => s.ack m.pkg m.seq
    | none => s
  let s := { s with
    flight := if mine then s.flight.map fun (q : Msg) => if q.id = r.msg then { q with applied := true } else q else s.flight,
    incoming := if r.kind = RunKind.message && r.pkg ≠ s.pkgid then s.incoming.filter fun (q : Msg) => q.id ≠ r.inc else s.incoming }
  (s.setCtx c 4 { x with
    status := .running, pc := r.entry, store := runStore r, tblroot := r.root, run := some r, runCycles := s.cycle.toNat,
    priv := if r.kind = RunKind.message then .kernel else .runtime, trapcause := setFld x.trapcause 12 12 0, late := none, dbuf := none,
    hold := .none, results := [], rep := none, repstate := 0, latchA := none, latchB := none, latchD := none }).oweOnce
    (.handlerOverrun (Fin.ofNat 2048 c))

/-- A handler context that has ended its run is idle, and the next one is owed its start. -/
def State.endRun (s : State) (c : Nat) : State :=
  let x := s.ctx c 4
  (s.setCtx c 4 { x with status := .idle, run := none, hold := .none, results := [], rep := none }).oweRun c

/-- An active message, or a reeve run, starts on an idle handler context if it heads the inbox. A fenced hamlet answers no
message (17 R415). -/
def State.tryRun (s : State) (c : Nat) (mine : RunKind → Bool) : State :=
  if (s.ctx c 4).status ≠ .idle || (s.ham (hamOf c)).fenced then s
  else
    match (s.core c).inbox with
    | [] => s
    | r :: _ => if !mine r.kind then s else s.startRun c r

def execActiveMessageRun (c : CoreId) (s : State) : Host.Outcome State Fault Refusal :=
  .next (s.tryRun c.val fun k => k = .message)

def execEscalationRun (c : CoreId) (s : State) : Host.Outcome State Fault Refusal :=
  .next (s.tryRun c.val fun k => k ≠ .message)

/-- A handler budget (12 R346): a value below 256 counts as 256. -/
def Core.budget (co : Core) : Nat := max co.hbudget.toNat 256

/-- A run whose budget is past ends at once and escalates (R64, R443), with Handler Overrun (17 R408). -/
def State.overrun (s : State) (c : CoreId) : State :=
  let x := s.ctx c.val 4
  match x.status, x.run with
  | .running, some r =>
    if r.begun && (s.core c.val).budget < s.cycle.toNat - x.runCycles && x.returned then
      (s.as c.val 4).enterTrap false true 0x0D (senderWord r.pkg r.core r.ctx r.reply) x.faultPc
    else s.oweOnce (.handlerOverrun c)
  | _, _ => s

def execHandlerOverrun (c : CoreId) (s : State) : Host.Outcome State Fault Refusal := .next (s.overrun c)

/-! ### Dispositions (17 R411) -/

/-- The error record of a stopped context (17 R411, R413 event 0x01). -/
def State.recordStop (s : State) (c k : Nat) : State :=
  let x := s.ctx c k
  (s.record { event := 0x01, cls := 4, seq := s.seqOf c, info := x.trapinfo, tpc := x.trappc, core := c,
              cause := fld x.trapcause 5 0 }).mark (hamOf c) (Marks.class · 4)

/-- The reeve's disposition of a stopped context (R411): 0 resumes it at TRAPPC, or its save writes (02 R48), any other leaves it stopped with a
record. A handler context takes its next message either way (19 R443). -/
def State.dispose (s : State) (c k : Nat) (word : Word) : State :=
  let x := s.ctx c k
  if x.status ≠ .stopped then s
  else
    let s := if word = 0 then s.mark (hamOf c) (Marks.class · 3) else s.recordStop c k
    if k = 4 then (if word = 0 then s.setCtx c 4 { s.ctx c 4 with trapcause := setFld (s.ctx c 4).trapcause 12 12 0 } else s).endRun c
    else if word = 0 then
      let y := x.rte s.cycle.toNat
      match x.parking with
      | some p =>
        if p.save then (s.setCtx c k { y with status := .saving, hold := .none }).owe (.saveComplete (Fin.ofNat 2048 c) (Fin.ofNat 5 k))
        else if !p.inPlace then (s.setCtx c k { y with status := .parking, hold := .none }).owe (.parkSaveDone (Fin.ofNat 2048 c) (Fin.ofNat 5 k))
        else s.setCtx c k { y with status := if x.follows then .following else .running, hold := .none }
      | none => s.setCtx c k { y with status := if x.follows then .following else .running, hold := .none }
    else s

def execDisposition (c : CoreId) (k : CtxId) (word : Word) (s : State) : Host.Outcome State Fault Refusal :=
  .next (s.dispose c.val k.val word)

/-! ### AMSEND and AMRET -/

/-- Body of AMSEND (R233). -/
def amsendBody (o : Ops) (rep : Bool) (s : State) : Act :=
  if rep && s.onHandler then illegal (.amsend o rep)
  else
    let d := scAddr o o.d
    let va := s.scOp o o.a
    let entry := s.scOp o o.b
    let payload := BitVec.ofNat 512 (s.rs d 64)
    let (ord, sc) := ordOf o
    s.within [{ addr := d, bytes := 64, storeOnly := true }, scLoc o o.a, scLoc o o.b]
      (let go (r : State) : Act :=
        match r.resolve va .data with
        | .error e => r.troubled (e.at va) .data
        | .ok (p, t) =>
          let dest : Option (BitVec 20 × Nat × Nat) := match p with
            | .near pa => some (t.pkgid, pa, 0)
            | .far pa _ => some (t.pkgid, pa, 1)
            | .foreign pk pa _ => match t.region pa with
              | .stash _ | .commons _ => some (pk, pa, 2)
              | _ => none
            | _ => none
          match dest with
          | none => .trap 0x05 va
          | some (pk, pa, cnt) =>
            if rep && pk ≠ t.pkgid && t.deadPeer pk then .trap 0x11 (deadInfo pa)
            else if t.countFull cnt || (pk ≠ t.pkgid && t.linkFull pk) then .hold s
            else
              let (u, id) := t.send pk cnt rep (.am pa va entry payload)
              .done (if rep then u.varAwait [cellAt d 64 0] [(id, 0)] else u)
       if ord = 2 then s.released sc false go else go s)

def execAmsend (o : Ops) (rep : Bool) (s : State) := s.run (.amsend o rep) o (amsendBody o rep)

/-- Body of AMRET (R235): the run ends, with its reply. xf bit 0 asks for a release at the scope. -/
def amretBody (o : Ops) (s : State) : Act :=
  match s.onHandler, s.me.run with
  | true, some r =>
    let d := scAddr o o.d
    let fin (t : State) : Act :=
      .left (((t.latched (.amret o) o).answerRun t.curCore r (BitVec.ofNat 512 (s.rs d 64))).endRun t.curCore)
    s.within (if r.reply then [{ addr := d, bytes := 64, storeOnly := true }] else [])
      (match o.ext with
       | some c => if c.xf.getLsbD 0 then s.withRelease (scopeOf c.scope) false fin else if s.me.returned then fin s.commitAll else .hold s
       | none => if s.me.returned then fin s.commitAll else .hold s)
  | _, _ => illegal (.amret o)

def execAmret (o : Ops) (s : State) := s.run (.amret o) o (amretBody o)

/-! ### Messages at their homes -/

/-- The function of a `.red` copy's element (12 R333): its type, and the operand widened to it. -/
def redFn (t : ETy) (x : Word) : AtomicFn :=
  match t with
  | .f32 => .amo .fadd32 x
  | .f64 => .amo .fadd64 x
  | .i32 | .n32 => .amo .add32 x
  | _ => .amo .add x

/-- Elements of a copy packet applied at their homes (12 R330, 04 R117). -/
def State.applyWired (s : State) (pa : Nat) (f : BitVec 48) (xs : List (Nat × BitVec 32)) : State :=
  let w := codeBytes (wireDst f)
  let zs := xs.map (widenElem f)
  let t := if wireAdds f then
      zs.zipIdx.foldl (fun u (z, i) => (u.applyAtomic (pa + w * i) (redFn ((etyOf (wireDst f)).getD .i64) (BitVec.ofNat 64 z))).2.2) s
    else s.homePut pa (offsets (zs.flatMap (bytesOf w)))
  t.fillWords pa (w * xs.length)

/-- What a message does at its home, one event (06 R160, R164, 08 R219, R220, R236): its answer and flags. None for an
LDSYNC whose word is empty. -/
def State.applyBody (s : State) (b : Body) : Option (Row × BitVec 6 × State) :=
  match b with
  | .store pa bs full =>
    let t := s.homePut pa bs
    some (0, 0, if full then t.fillWords pa b.span else t)
  | .stsync pa v => some (0, 0, s.syncStore pa v)
  | .feset pa full => some (0, 0, s.setWord pa full)
  | .zline pa => some (0, 0, s.homePut pa zeros64)
  | .load pa n sx =>
    let v := ofBytes (s.homeSpan pa n)
    some (BitVec.ofNat 512 (if sx then extendTo64 true n v else v), 0, if (s.region pa).global then s.lineIn (pa / 64 * 64) else s)
  | .ldsync pa cons =>
    if !s.isFull pa then none
    else some (BitVec.ofNat 512 (ofBytes (memRead s.mem pa 8)), 0, if cons then s.setFull pa false else s)
  | .atomic pa f => let (old, fl, t) := s.applyAtomic pa f; some (BitVec.ofNat 512 old, fl, t)
  | .wired pa f xs => some (0, 0, s.applyWired pa f xs)
  | .staged pa f rs => some (0, 0, rs.foldl (fun t q => t.applyWired (t.forwarded (pa + q.1)) f q.2) s)
  | _ => some (0, 0, s)

/-- What a message has left at its home, seen in the copies of the sender's hamlet (05 R125, 06 R153, 08 R217). -/
def State.refreshCopy (s : State) (h : Nat) (b : Body) : State :=
  match b with
  | .load _ _ _ => s
  | b => s.refresh h b.pa b.span

/-- A message counted as received at its destination (03 R90), where that lies in the sender's launch; a slice counts to
the sender's hamlet (log entry 23). One counted in c3 is counted by its acknowledgement. -/
def State.countIn (s : State) (m : Msg) : State :=
  let src := hamOf m.core
  let dst := if m.home < 64 then src else m.home - 64
  if m.cnt ≠ 3 && m.home < 320 && s.inSet src dst then s.received dst else s

/-- Whether a message left the launch's set, to a CXL device too, so that its acknowledgement counts it (R90). -/
def State.leftSet (s : State) (m : Msg) : Bool :=
  m.cnt = 3 || !(m.pkg = s.pkgid && (m.home < 64 || s.inSet (hamOf m.core) (m.home - 64)))

/-- Whether an earlier message of the same core to the same home is not applied yet (06 R160), be it on its way to where its
page lay before a move (06 R167), or of two accesses of a context to pages of device type the earlier one (06 R150). -/
def State.overtakes (s : State) (m : Msg) : Bool :=
  s.flight.any fun q => q.core = m.core && q.id < m.id && !q.applied
    && ((q.pkg = m.pkg && (q.home = m.home || (q.pkg = s.pkgid && s.homeOf (s.forwarded q.body.pa) = m.home)))
        || (m.dev && q.dev && q.ctx = m.ctx))

/-- The home of a message to another package whose launch has ended meanwhile. -/
def orphan : Nat := 321

/-- The next access of a context to a page of device type of another package leaves, once its earlier ones are performed (05
R137). -/
def State.nextDev (s : State) (c k : Nat) : State :=
  let x := s.ctx c k
  match x.devq with
  | [] => s
  | (pkg, id) :: rest =>
    if s.flight.any fun q => q.core = c && q.ctx = k && q.dev && !q.applied && q.id < id then s
    else (s.setCtx c k { x with devq := rest }).numbered pkg id

/-- The named count of a message falls and the message is gone (06 R160, 03 R90). -/
def State.acknowledge (s : State) (m : Msg) : State :=
  let s := { s with flight := s.flight.filter fun (q : Msg) => q.id ≠ m.id }
  let x := s.ctx m.core m.ctx
  let x := if m.cnt = 0 then x else x.setCount m.cnt (x.count m.cnt - 1)
  let s := s.setCtx m.core m.ctx { x with devq := x.devq.filter fun e => e.2 ≠ m.id }
  let s := if m.home ≠ orphan && !m.fetch && s.leftSet m then s.received (hamOf m.core) else s
  s.nextDev m.core m.ctx

/-- A result that waits for a message is dropped. -/
def Ctx.forget (x : Ctx) (id : Nat) : Ctx :=
  { x with results := x.results.filter fun r => match r.due with | .var aw => !(aw.any fun a => a.1 = id) | .fixed _ => true }

/-- A read of an instruction has met a listed line at its home (17 R416, 19 R450): Memory Uncorrectable, precise, once the
context's other results have returned. -/
def State.lostRead (s : State) (m : Msg) (info : Word) : State :=
  match m.tag with
  | none => s.acknowledge m
  | some t =>
    let x := (s.ctx m.core m.ctx).forget t
    let y : Ctx := { x with late := some (x.late.getD (info, m.pc, false)) }
    ((s.setCtx m.core m.ctx y).acknowledge m).takeLate m.core m.ctx

/-- The number of the request of a posted message to a CXL port among those that have had no completion: above every line. -/
def postKey (id : Nat) : Nat := 2 ^ 46 + id

/-- A posted store to a CXL port fails (20 R460): discarded, as though acknowledged. -/
def State.lostStore (s : State) (m : Msg) : State :=
  let t := (s.mark (hamOf m.core) Marks.trapped).record
    { event := 0x10, cls := 4, addr := m.body.pa, seq := s.seqOf m.core, core := m.core }
  ({ t with hub := { t.hub with cxlPend := del t.hub.cxlPend (postKey m.id) } } : State).acknowledge m

/-- What becomes of a message whose line a CXL port does not serve, if it is one (20 R460): a posted one fails at once where the
port is down; any other waits for its time-out. -/
def State.cxlMeets (s : State) (m : Msg) (again : Instr) : Option State :=
  let line := m.body.pa / 64 * 64
  match s.cxlPort line with
  | none => none
  | some p =>
    if m.cnt = 3 && s.hub.cxlDown.contains p then some (s.lostStore m)
    else if m.cnt = 3 && (find s.hub.cxlPend (postKey m.id)).isSome then some (s.oweOnce again)
    else if s.cxlStuck line then some ((s.cxlAsk line false 0).oweOnce again)
    else none

/-- The home is a fenced hamlet, which answers no message (17 R415). -/
def State.mute (s : State) (m : Msg) : Bool := 64 ≤ m.home && m.home < 320 && (s.ham (m.home - 64)).fenced

/-- The first listed line among those that a message reads at its home (17 R416). -/
def State.bodyBad (s : State) (b : Body) : Option Nat :=
  match b with
  | .load pa _ _ | .ldsync pa _ | .atomic pa (.amo _ _) | .atomic pa (.cas _ _ _) =>
    if s.listedLine (pa / 64 * 64) then some (pa / 64 * 64) else none
  | _ => none

/-- A message is applied at its home, or enters the home core's inbox (R236), or waits there; `again` is owed while it must wait.
A fenced hamlet answers none (17 R415). -/
def State.applyMsg (s : State) (m : Msg) (again : Instr) : State :=
  if s.mute m then s
  else if s.overtakes m then s.owe again
  else if s.forwarded m.body.pa ≠ m.body.pa then s.owe (.pageMoveBounce m.id)
  else
    match m.body with
    | .am pa dst entry payload =>
      let run : Run := { kind := .message, pkg := m.pkg, core := m.core, ctx := m.ctx, reply := m.tag.isSome, msg := m.id,
                         entry := entry, dst := dst, root := (s.ctx m.core m.ctx).tblroot, payload := payload }
      let s := { s with flight := s.flight.map fun (q : Msg) => if q.id = m.id then { q with delivered := true } else q }
      s.deliver (s.homeCore pa) run
    | b =>
      match s.cxlMeets m again, (if m.tag.isSome then s.bodyBad b else none) with
      | some t, _ => t
      | none, some l => (s.lostRead m (s.badInfo l)).countIn m
      | none, none =>
        match (s.noteUnbacked m.core b.pa).applyBody b with
        | none => s.owe again
        | some (data, fl, t) => (((t.refreshCopy (hamOf m.core) b).finishMsg m.id data fl).countIn m)

/-- The message of a number that its home has not applied. -/
def State.waiting (s : State) (id : Nat) : Option Msg :=
  s.flight.find? fun (m : Msg) => m.id = id && !m.applied && m.pkg = s.pkgid

/-- A message that is not served by a core (06 R160): at a slice, or for an address that has no home. -/
def Msg.atSlice (m : Msg) : Bool := m.home < 64 || m.home = 320

def execPostedStoreApply (id : Nat) (s : State) : Host.Outcome State Fault Refusal :=
  .next (match s.waiting id with
    | some m => if m.atSlice then s.applyMsg m (.postedStoreApply id) else s
    | none => s)

def execAtomicApply (id : Nat) (s : State) : Host.Outcome State Fault Refusal :=
  .next (match s.waiting id with
    | some m => if m.atSlice then s.applyMsg m (.atomicApply id) else s
    | none => s)

/-! ### Messages of other packages -/

/-- TBLROOT of a run for another package: that of the launch at its home (08 R234; log entry 25). -/
def State.homeRoot (s : State) (pa : Nat) : Word := ((s.launchOf (hamOf (s.homeCore pa))).map Launch.tblroot).getD 0

/-- Whether no earlier packet of the same package still waits to be applied (20 R453), but for those that a fenced hamlet holds and
those that wait in an inbox, which later messages of the same core to the same home wait for (06 R160). -/
def State.inOrder (s : State) (m : Msg) : Bool :=
  !(s.incoming.any fun (q : Msg) => q.pkg = m.pkg && q.id < m.id
      && ((q.core = m.core && q.home = m.home) || (!q.delivered && !s.mute q)))

/-- An access of another package to an unbacked address is recorded (05 R122). -/
def State.noteForeign (s : State) (pa : Nat) : State :=
  if s.region pa = .unbacked then s.record { event := 0x05, cls := 0, addr := pa } else s

/-- A message of another package at its home: applied and answered, or acknowledged, or it waits. An LDSYNC whose word is empty is
answered so, and its hamlet is noted (02 R47; log entry 35); a read that meets a listed line is answered by that (19 R450). A line
that a CXL port does not serve is waited for, and a write to one that is down is lost (20 R460). -/
def State.serveIncoming (s : State) (m : Msg) : State :=
  let again : Instr := .remoteAccessService (Fin.ofNat 2048 (s.homeCore m.body.pa))
  if s.mute m then s
  else if !s.inOrder m then s.oweOnce again
  else
    let gone (t : State) : State := { t with incoming := t.incoming.filter fun (q : Msg) => q.id ≠ m.id }
    let answer (t : State) (b : Body) : State := match m.tag with
      | some g => ((gone t).ack m.pkg m.seq).packetOut m.pkg m.core m.ctx g b
      | none => (gone t).ack m.pkg m.seq
    let stuck : Option Nat := if s.cxlStuck (m.body.pa / 64 * 64) then s.cxlPort (m.body.pa / 64 * 64) else none
    if stuck.isSome then
      if m.tag = none && (stuck.map s.hub.cxlDown.contains).getD false then
        answer (s.record { event := 0x10, cls := 4, addr := m.body.pa }) (.reply 0 0)
      else (s.cxlAsk (m.body.pa / 64 * 64) false 0).oweOnce again
    else
    match m.body, (if m.tag.isSome then s.bodyBad m.body else none) with
    | .am pa dst entry payload, _ =>
      ({ s with incoming := s.incoming.map fun (q : Msg) => if q.id = m.id then { q with delivered := true } else q } : State).deliver
        (s.homeCore pa)
        { kind := .message, pkg := m.pkg, core := m.core, ctx := m.ctx, reply := m.tag.isSome, msg := m.tag.getD 0,
          entry := entry, dst := dst, root := s.homeRoot pa, payload := payload, inc := m.id }
    | _, some _ => answer s (.lost m.body.pa)
    | b, none =>
      match (s.noteForeign b.pa).applyBody b with
      | none =>
        let w : FarWatch := { pa := b.pa / 8 * 8, pkg := m.pkg, core := m.core / 8 * 8 }
        answer { s with watches := if s.watches.contains w then s.watches else s.watches ++ [w] } .empty
      | some (data, fl, t) => answer t (.reply data fl)

/-- The oldest message of another package that waits at a core's homes is served. -/
def State.serveOldest (s : State) (c : Nat) : State :=
  let here (m : Msg) : Bool := s.homeCore m.body.pa = c && !m.delivered && !s.mute m
  match s.incoming.find? fun (m : Msg) => here m && s.inOrder m with
  | some m =>
    let t := s.serveIncoming m
    if t.incoming.any here then t.oweOnce (.remoteAccessService (Fin.ofNat 2048 c)) else t
  | none => if s.incoming.any here then s.oweOnce (.remoteAccessService (Fin.ofNat 2048 c)) else s

/-- The oldest message that waits at a core's stash or commons is served (R236), of this package first; a fenced hamlet
answers none (17 R415). -/
def State.serveHome (s : State) (c : Nat) : State :=
  let here (m : Msg) : Bool :=
    !m.applied && !m.delivered && !s.mute m && m.pkg = s.pkgid && 64 ≤ m.home && m.home < 320 && !Body.isRow m.body && s.homeCore m.body.pa = c
  match s.flight.find? fun (m : Msg) => here m && !s.overtakes m with
  | some m => s.applyMsg m (.remoteAccessService (Fin.ofNat 2048 c))
  | none =>
    let t := s.serveOldest c
    if t.flight.any here then t.oweOnce (.remoteAccessService (Fin.ofNat 2048 c)) else t

def execRemoteAccessService (c : CoreId) (s : State) : Host.Outcome State Fault Refusal := .next (s.serveHome c.val)

/-! ### Answers -/

/-- A result with a part of its data placed (07 R190). -/
def Result.fill (r : Result) (tag : Nat) (data : Row) (fl : BitVec 6) : Result :=
  match r.due with
  | .fixed _ => r
  | .var aw =>
    match aw.find? fun a => a.1 = tag with
    | none => r
    | some a =>
      { due := .var (aw.filter fun b => b.1 ≠ tag), flags := r.flags ||| fl,
        cells := r.cells.map fun c => { c with data := c.data ||| ((data <<< a.2) &&& c.mask) } }


/-- The data of a message reach the copy that waits for them (12 R331). -/
def Copy.take (y : Copy) (id : Nat) (data : Row) : Copy :=
  { y with fetch := y.fetch.map fun f => if f.2.1 = id then (f.1, f.2.1, some data) else f }

/-- A reply reaches the context, or its copy, that waits for it (R233, 07 R190). -/
def State.takeReply (s : State) (m : Msg) (data : Row) (fl : BitVec 6) : State :=
  let co := s.core m.core
  let s := if co.copies.isEmpty then s else s.setCore m.core { co with copies := co.copies.map fun y => y.take m.id data }
  let x := s.ctx m.core m.ctx
  let y := match m.tag with
    | some 0 =>
      if m.fetch then { x with ibuf := some (farKey m.pkg m.body.pa, data) }
      else { x with dbuf := some (match m.body with | .ldsync pa _ => farWord m.pkg pa | b => farKey m.pkg b.pa, data) }
    | some t => { x with results := x.results.map fun (r : Result) => r.fill t data fl }
    | none => x
  ((s.setCtx m.core m.ctx y).acknowledge m).takeLate m.core m.ctx

def execReplyArrival (id : Nat) (s : State) : Host.Outcome State Fault Refusal :=
  .next (match s.flight.find? fun (m : Msg) => m.id = id && m.applied with
    | some m => match m.body with
      | .reply data fl => s.takeReply m data fl
      | _ => s
    | none => s)

/-- An acknowledgement returns: from a home of the package, or from another package, whose packets count as delivered
up to it (20 R453). -/
def execPostedAck (id : Nat) (s : State) : Host.Outcome State Fault Refusal :=
  .next (match s.flight.find? fun (m : Msg) => m.id = id with
    | none => s
    | some m =>
      if m.pkg = s.pkgid then (if m.applied && m.tag = none then s.acknowledge m else s)
      else if s.hub.heldOut.any fun q => q.2 = id then s
      else
        let s := s.delivered m.pkg id
        match m.tag, m.body with
        | none, _ => s.acknowledge m
        | some _, .reply _ _ | some _, .empty | some _, .lost _ | some _, .wake _ =>
          { s with flight := s.flight.filter fun (q : Msg) => q.id ≠ id }
        | some _, _ => s)

/-- Returned results commit when a switch-marker hold ends (07 R190). -/
def execVariableResultCommit (c : CoreId) (k : CtxId) (s : State) : Host.Outcome State Fault Refusal :=
  let x := s.ctx c.val k.val
  .next (if x.hold = .switch && x.returned then (s.as c.val k.val).unhold else s)

/-- A hold of WAITA ends (08 R227): the instruction reads again when it is next issued. -/
def execWaitaRetry (c : CoreId) (k : CtxId) (s : State) : Host.Outcome State Fault Refusal :=
  let x := s.ctx c.val k.val
  .next (if x.hold = .wait then s.setCtx c.val k.val { x with hold := .none } else s)

/-! ### Evictions and fills (05 R131, R133) -/

/-- A line leaves a hamlet's L1s and its slice, a zero line as 64 zero bytes (R131). -/
def State.evict (s : State) (h line : Nat) : State :=
  let s := (s.writeBack h line).dropLine h line
  if s.zeros.contains (line / 64) then
    { s with zeros := s.zeros.filter (· ≠ line / 64), mem := memWrite s.mem line (List.replicate 64 0) }
  else s.leaveWay line

def execLineEviction (h : HamletId) (line : Nat) (s : State) : Host.Outcome State Fault Refusal :=
  .next (s.evict h.val (line / 64 * 64))

/-- A scale-window line filled by its controller; codes of a listed line are not delivered (17 R416). -/
def State.fillScales (s : State) (line : Nat) : State :=
  match scaleRange s.ranges line with
  | some _ =>
    if s.listedLine line then s
    else
      let row := s.homeLine line
      let t := s.takeWay line
      { t with scales := put t.scales line row }
  | none => s

def execScaleWindowFill (line : Nat) (s : State) : Host.Outcome State Fault Refusal :=
  .next (s.fillScales (line / 64 * 64))

def execScaleWindowEvict (line : Nat) (s : State) : Host.Outcome State Fault Refusal :=
  .next (s.leaveWay (line / 64 * 64))

/-- A walker completes a translation for a context (05 R139, R140): a leaf's bits are set and it is cached, where it allows the
access; other outcomes are never cached. -/
def execTableWalk (c : CoreId) (k : CtxId) (va : Word) (write : Bool) (s : State) : Host.Outcome State Fault Refusal :=
  .next (if canonical va && !localWindow va then
      let x := s.ctx c.val k.val
      match s.translateLeaf c.val x.tblroot (va.toNat % 2 ^ 57) write with
      | .ok (t, u) =>
        let may (k : Access) : Bool := leafGrant t.leaf k x.priv = .ok
        if (if write then may .write else may .read || may .exec) then u.useLeaf c.val t write else s
      | .error _ => s.noteWalk c.val x.tblroot va
    else s)

/-- A back-invalidation reaches the home slice of a shared CXL line (05 R134): every hamlet's copy is written back and
dropped, and the device is answered. -/
def State.snoop (s : State) (line : Nat) : State :=
  let line := line / 64 * 64
  match s.region line with
  | .cxl _ =>
    if !s.hub.shared.contains (line / 2 ^ 30) then s
    else ((s.hamlets.map Prod.fst).foldl (fun t h => t.flushLine h line true) s).leaveWay line
  | _ => s

def execBackInvalidation (line : Nat) (s : State) : Host.Outcome State Fault Refusal := .next (s.snoop line)

/-! ### Replay of stores (06 R166, 19 R432) -/

/-- Every entry of a context for a page is refused; `hole` is the listed line that the walk read, if that is why. -/
def refuseAll (l : List Replay) (k : Nat) (va : Word) (cause : BitVec 6) (hole : Option Nat := none) : List Replay :=
  l.map fun r => if r.ctx = k && samePage r.va va then { r with handle := 0, refused := some cause, hole := hole } else r

/-- A write of a replay made at its home directly, for a strand that is parked: it has no context to count it (log entry 38). -/
def State.replayHome (s : State) (p : Place) (pa : Nat) (bs : List (Nat × Byte)) : State :=
  let h := hamOf s.curCore
  let line := pa / 64 * 64
  let t := if p.device then s.giveLine h line else s.backLine h line
  let t := t.noteUnbacked s.curCore pa
  if t.cxlStuck line then
    (t.mark h Marks.trapped).record { event := 0x10, cls := 4, addr := pa, seq := s.seqOf s.curCore, core := s.curCore }
  else
  let t := if p.device && bs.length = 64 then (List.range 4).foldl (fun u i => u.homePut (pa + 16 * i) (bs.take 16)) t else t.homePut pa bs
  (t.direct pa).refresh h pa (bs.length)

/-- Listed bytes written by a replay. -/
def State.replayPut (s : State) (r : Replay) (p : Place) (bs : List (Nat × Byte)) : State :=
  if r.ctx < 5 then s.putPart p bs (r.post || r.wide) (match p with | .window _ _ _ => r.wide | _ => false) r.stream
  else
    match p with
    | .near _ => s.putPart p bs false false
    | .window _ _ _ => s.putPart p bs false r.wide
    | .global pa device => if device || r.post || r.wide then s.replayHome p pa bs else s.putPart p bs false false r.stream
    | .far pa _ => s.replayHome p pa bs
    | .foreign _ _ _ => s.putPart p bs false false

/-- 64 zero bytes written by a replay (08 R224). -/
def State.replayZero (s : State) (r : Replay) (p : Place) : State :=
  if r.ctx < 5 then s.zeroPlace p
  else
    match p with
    | .global pa _ | .far pa _ =>
      ((s.dropLine (hamOf s.curCore) pa).dropCopies (hamOf s.curCore) pa).replayHome p pa zeros64
    | p => s.zeroPlace p

/-- An atomic applied by a replay. -/
def State.replayAtomic (s : State) (r : Replay) (p : Place) (f : AtomicFn) : State :=
  match p, s.atomicHome p with
  | .near pa, _ => (s.applyAtomic pa f).2.2
  | _, some (pk, pa, cnt) =>
    if r.ctx < 5 || pk ≠ s.pkgid then ((s.evictFor p).send pk cnt false (.atomic pa f) p.device).1
    else ((((s.evictFor p).applyAtomic pa f).2.2).direct pa).refresh (hamOf s.curCore) pa (fnBytes f)
  | _, none => s

/-- An entry performed at a place. -/
def State.replayAt (s : State) (r : Replay) (p : Place) (off n : Nat) : State :=
  match r.body with
  | .atomic _ f => s.replayAtomic r p f
  | .store _ bs _ => s.replayPut r p (partBytes bs off n)
  | _ => s.replayZero r p

/-- An entry must wait: for its context's other accesses, its named count or the core's earlier messages to the same home
(06 R150, R160), or for a CXL port that has not failed it (20 R460). -/
def State.replayHeld (s : State) (r : Replay) (p : Place) (n : Nat) : Bool :=
  let atomic : Bool := match r.body with | .atomic _ _ => true | _ => false
  let zl : Bool := match r.body with | .zline _ => true | _ => false
  match p with
  | .near _ => false
  | .foreign pk _ _ => s.linkFull pk || (r.ctx < 5 && s.zeroHeld p)
  | .window _ pa _ => s.inFlight s.pkgid pa n || ((r.wide || atomic) && s.pathBusy (s.homeOf pa))
  | .global pa device =>
    if r.ctx < 5 then s.storeHeld p n (r.post || r.wide || atomic || zl) || (zl && s.zeroHeld p)
    else (device || r.post || r.wide || atomic || zl)
      && (s.pathBusy (s.homeOf pa) || (s.cxlStuck (pa / 64 * 64) && !((s.cxlPort (pa / 64 * 64)).map s.hub.cxlDown.contains).getD false))
  | .far pa _ => if r.ctx < 5 then s.zeroHeld p else s.pathBusy (s.homeOf pa)

/-- The entry replays: performed, or waiting for a new pager future, or refused; none while it must wait. The messages of a
parked strand to other packages are counted in no context that runs (log entry 38). -/
def State.replayOne (s : State) (c : Nat) (r : Replay) : Option State :=
  let kind : Access := match r.body with | .atomic _ _ => .atomic | _ => .write
  let s := s.as c (if r.ctx < 5 then r.ctx else 7)
  let ps := match r.body with | .store _ _ _ => parts r.va r.body.span | _ => [(0, r.body.span)]
  let (got, bad, t) := s.resolveParts r.root r.priv r.va kind ps
  let keep (u : State) (f : List Replay → List Replay) : State := let co := u.core c; u.setCore c { co with replay := f co.replay }
  match worst (bad.map fun b => b.2.2) with
  | some (.trap _ _) => some (keep t fun l => refuseAll l r.ctx r.va 0x05)
  | some (.bad l) => some (keep t fun q => refuseAll q r.ctx r.va 0x11 (some l))
  | some (.page cause level va) =>
    (t.pagerFuture c r.root va kind cause level).map fun u =>
      keep u.2 fun l => l.map fun q => if q.ctx = r.ctx && samePage q.va r.va && q.refused.isNone then { q with handle := u.1 } else q
  | none =>
    let direct : Bool := match r.body with | .store _ _ _ => !r.post && !r.wide | _ => false
    match (if direct then got.findSome? fun q => if q.place.device then none else t.placeStuck c q.place q.n else none) with
    | some l => some (t.cxlAsk l false 0)
    | none =>
    if got.any fun q => t.replayHeld r q.place q.n then none
    else
      let u := got.foldl (fun v q => v.replayAt r q.place q.off q.n) t
      some (keep u fun l => l.erase r)

/-- Entries replay in queue order once their futures are complete (R166). -/
def execStoreReplay (c : CoreId) (s : State) : Host.Outcome State Fault Refusal :=
  .next (match (s.core c.val).replay.find? fun r => r.handle = 0 && r.refused.isNone with
    | none => s
    | some r =>
      let t := (s.replayOne c.val r).getD s
      if (t.core c.val).replay.any fun q => q.handle = 0 && q.refused.isNone then t.oweOnce (.storeReplay c) else t)

end Sys2Proof.Machine
end

