-- ==== Sys2Proof/Machine/Future.lean ====
section
/-! DEFINITION. Futures, opcodes 0x5B to 0x5E (12 R321 to R324, 02 R44 to R46, 18 R428). -/

namespace Sys2Proof.Machine

/-- The handle in bits [31:0] of a scalar. -/
def handleIn (w : Word) : BitVec 32 := w.setWidth 32

/-- A message of the acting core to another hamlet, not applied yet, precedes an operation on an object there (06 R160). -/
def State.objBusy (s : State) (h : Nat) : Bool := h ≠ hamOf s.curCore && s.pathBusy (64 + h)

/-- Whether a handle names an entry of the pager (05 R130). -/
def pagerEntry (hd : BitVec 32) : Bool := 4032 ≤ hdIdx hd

/-- Body of FNEW and FNEW `.count` (R321); the null handle where no entry is free. -/
def fnewBody (i : Instr) (o : Ops) (count : Bool) (s : State) : Act :=
  if s.onHandler then illegal i
  else if s.me.follows then .done s
  else
    s.within ((if count then [scLoc o o.a] else []) ++ [scLoc o o.d])
      (match s.allocFuture (hamOf s.curCore) (if count then .count else .value) (if count then s.scOp o o.a else 0) with
       | none => .done (s.var [cellAt (scAddr o o.d) 8 0])
       | some (hd, t) => .done (t.var [cellAt (scAddr o o.d) 8 hd.toNat]))

def execFnew (o : Ops) (s : State) := s.run (.fnew o) o (fnewBody (.fnew o) o false)
def execFnewCount (o : Ops) (s : State) := s.run (.fnewCount o) o (fnewBody (.fnewCount o) o true)

/-- FPUT applied at the entry's hamlet (R322): its status, and the state. -/
def State.putFuture (s : State) (hd : BitVec 32) (v : Word) : Word × State :=
  let f := s.future hd
  match f.kind with
  | .value =>
    if f.full then (1, s)
    else (0, (s.setFuture hd { f with full := true, value := v }).wake (hdHam hd) (hd.setWidth 64) evValue)
  | .count => (f.value + v, s.addCount hd v)
  | .pager => (0, s.pagerDone hd v.toNat)
  | .free => (0, s)

/-- Privileged Instruction for kernel code on an entry of the pager (R428). -/
def State.pagerGuard (s : State) (i : Instr) (hd : BitVec 32) (k : Act) : Act :=
  if pagerEntry hd && s.me.priv = .kernel then .trap 0x02 (baseInfo i) else k

/-- A handle checked (R46, R428), then `k`. -/
def State.fresher (s : State) (hd : BitVec 32) (k : Act) : Act :=
  if s.stale (hamOf s.curCore) hd then .trap 0x0A (s.staleInfo hd) else k

/-- Body of FPUT (R322). -/
def fputBody (o : Ops) (s : State) : Act :=
  let hd := handleIn (s.scOp o o.a)
  let v := s.bLit o
  s.within [scLoc o o.a]
    (s.pagerGuard (.fput o) hd
      (s.within ((if o.lit.isSome then [] else [scLoc o o.b]) ++ [scLoc o o.d])
        (s.fresher hd
          (s.withRelease s.objScope false fun t =>
            if t.objBusy (hdHam hd) then .hold t
            else
              let (r, u) := t.putFuture hd v
              .done (u.var [cellAt (scAddr o o.d) 8 r.toNat])))))

def execFput (o : Ops) (s : State) := s.run (.fput o) o (fputBody o)

/-- The answer that ended the acting context's wait on an object, if any. -/
def State.answered (s : State) (key : Word) : Option Answer := s.me.answer.filter fun a => a.key = key

/-- Body of FGET, wait form (R323). -/
def fgetBody (o : Ops) (s : State) : Act :=
  let hd := handleIn (s.scOp o o.a)
  let key : Word := hd.setWidth 64
  let f := s.future hd
  let fin (t : State) (v : Word) : Act := .done (t.var [cellAt (scAddr o o.d) 8 v.toNat])
  if s.onHandler then illegal (.fget o)
  else
    s.within [scLoc o o.a, scLoc o o.d]
      (match s.answered key with
       | some a => fin (s.acquire .pkg) (BitVec.ofNat 64 a.val)
       | none =>
         s.fresher hd
           (if s.objBusy (hdHam hd) then .hold s
            else match f.kind with
              | .value => if f.full then fin (s.acquire s.objScope) f.value else .park s 0x01 key
              | .count => if f.value.toInt ≤ 0 then fin (s.acquire s.objScope) f.value else .park s 0x02 key
              | .pager => .park s 0x08 key
              | .free => .hold s))

def execFget (o : Ops) (s : State) := s.run (.fget o) o (fgetBody o)

/-- Body of FGET `.poll` (R323). What S[d] holds for a pager future that is not complete is open. -/
def fgetPollBody (o : Ops) (s : State) : Act :=
  let hd := handleIn (s.scOp o o.a)
  let f := s.future hd
  let fin (t : State) (v : Word) (ready : Bool) : Act :=
    .done (t.var [cellAt (scAddr o o.d) 16 (v.toNat + (if ready then 2 ^ 64 else 0))])
  s.within [scLoc o o.a, rsLoc o o.d 16]
    (s.fresher hd
      (if s.objBusy (hdHam hd) then .hold s
       else match f.kind with
         | .value => if f.full then fin (s.acquire s.objScope) f.value true else fin s 0 false
         | .count => if f.value.toInt ≤ 0 then fin (s.acquire s.objScope) f.value true else fin s f.value false
         | .pager => fin { s with free := s.free + 1 } (Config.freeWord s.free) false
         | .free => .hold s))

def execFgetPoll (o : Ops) (s : State) := s.run (.fgetPoll o) o (fgetPollBody o)

/-- Body of FREL (R324). -/
def frelBody (o : Ops) (s : State) : Act :=
  let hd := handleIn (s.scOp o o.a)
  if s.onHandler then illegal (.frel o)
  else if s.me.follows then .done s
  else
    s.within [scLoc o o.a]
      (s.pagerGuard (.frel o) hd
        (s.fresher hd (if s.objBusy (hdHam hd) then .hold s else .done (s.freeFuture hd))))

def execFrel (o : Ops) (s : State) := s.run (.frel o) o (frelBody o)


end Sys2Proof.Machine
end

