-- ==== Sys2Proof/Machine/Sync.lean ====
section
/-! DEFINITION. Barriers and the peal, QUIESCE and channels, opcodes 0x5F to 0x62 (03 R84 to R91, 02 R58, 12 R325 to R329,
18 R429). -/

namespace Sys2Proof.Machine

/-- A launch replaced, by its sequence number. -/
def State.setLaunch (s : State) (l : Launch) : State :=
  { s with launches := s.launches.map fun (m : Launch) => if m.seq = l.seq then l else m }

/-- The hamlets of a hamlet's launch; a hamlet without one is its own set. -/
def State.setOf (s : State) (h : Nat) : List Nat :=
  match s.launchOf h with
  | some l => (List.range 256).filter fun g => l.hamlets.getLsbD g
  | none => [h]

/-! ### The peal pattern (R86) -/

/-- The peal pattern of a hamlet's launch; all zero where none is named. -/
def State.pattern (s : State) (h : Nat) : BitVec 2048 :=
  match s.launchOf h with
  | some l => l.peal
  | none => 0

/-- E_b; 1 where no pattern is named. -/
def expectOf (p : BitVec 2048) (n : Nat) : Nat := if p = 0 then 1 else fld p (783 + 16 * n) (768 + 16 * n)

/-- gap_q and the phase of a hamlet. -/
def gapOf (p : BitVec 2048) (q : Nat) : Nat := fld p (523 + 16 * q) (512 + 16 * q)
def phaseOf (p : BitVec 2048) (h : Nat) : Nat := fld p (1027 + 4 * h) (1024 + 4 * h)

/-- T_p - T0 (R87): `x` the largest extra gap. -/
def pealDelay (p : BitVec 2048) (sc : BarScope) (x ph : Nat) : Nat :=
  (if sc = .die then 32 else 128) + gapOf p 0 + (List.range ph).foldl (fun acc q => acc + gapOf p (q + 1) + x) 0

/-! ### Barriers (R84, R85) -/

def BarScope.index : BarScope → Nat
  | .hamlet => 0
  | .die => 1
  | .pkg => 2

/-- The order's scope: die orders as PACKAGE (R157). -/
def BarScope.scope : BarScope → Scope
  | .hamlet => .hamlet
  | _ => .pkg

/-- Key of a barrier of a hamlet (02 R49; log entry 119). -/
def barKey (h : Nat) (sc : BarScope) (n : BitVec 2) : Word := BitVec.ofNat 64 (2 ^ 62 + h * 64 + 4 * BarScope.index sc + n.toNat)

/-- A barrier of a hamlet, and the hamlet with it replaced. -/
def State.barrier (s : State) (h : Nat) (sc : BarScope) (n : BitVec 2) : Barrier :=
  look {} (s.ham h).barriers (4 * BarScope.index sc + n.toNat)

def State.setBarrier (s : State) (h : Nat) (sc : BarScope) (n : BitVec 2) (b : Barrier) : State :=
  let x := s.ham h
  s.setHam h { x with barriers := put x.barriers (4 * BarScope.index sc + n.toNat) b }

/-- The transition of an episode whose last arrival has come (R85): a HAMLET-scope release begins, or the hamlet arrival
is sent with PEALCFG's extra gap. -/
def State.completeEpisode (s : State) (h : Nat) (sc : BarScope) (n : BitVec 2) (b : Barrier) : State :=
  let g : HamletId := Fin.ofNat 256 h
  match sc with
  | .hamlet =>
    (s.setBarrier h sc n { b with state := .releasing, count := 0, held := false, t0 := s.cycle.toNat }).owe (.hamletBarrierRelease g n)
  | _ =>
    (s.setBarrier h sc n { b with state := .sent, count := 0, held := false, arrivedExtra := (s.ham h).extra }).owe
      (.barrierRootArrival g sc n)

/-- An arrival (R85): the episode that it counts for, whether it completes a HAMLET-scope barrier, and the state. -/
def State.arrive (s : State) (h : Nat) (sc : BarScope) (n : BitVec 2) : BitVec 16 × Bool × State :=
  let b := s.barrier h sc n
  let e := expectOf (s.pattern h) n.toNat
  match b.state with
  | .counting =>
    if b.count + 1 < e then (b.episode, false, s.setBarrier h sc n { b with count := b.count + 1 })
    else (b.episode, sc = .hamlet, s.completeEpisode h sc n b)
  | _ => (b.episode + 1, false, s.setBarrier h sc n { b with count := b.count + 1, held := e ≤ b.count + 1 })

/-- Body of BAR (R325). An arrival that has been made is not made again: the instruction completes once the release has
reached its strand, and until then it parks or, where R84 and R85 say so, holds in its place. -/
def barBody (o : Ops) (n : BitVec 2) (sc : BarScope) (s : State) : Act :=
  let h := hamOf s.curCore
  let key := barKey h sc n
  let arrived : Bool := match s.me.parking with | some p => p.inPlace && p.key = key | none => false
  if s.onHandler then illegal (.bar o n sc)
  else if s.me.follows then .done s
  else if (s.answered key).isSome then .done (s.acquire (BarScope.scope sc))
  else if arrived then .hold s
  else
    s.withRelease (BarScope.scope sc) false fun t =>
      let (ep, last, u) := t.arrive h sc n
      .left (if last then u.waitHere 0x05 key ep else u.park 0x05 key ep)

def execBar (o : Ops) (n : BitVec 2) (scope : BarScope) (s : State) := s.run (.bar o n scope) o (barBody o n scope)

/-- Episode n of a barrier is released in a hamlet (R85): its records are woken, and a completed next episode goes on. -/
def State.releaseBar (s : State) (h : Nat) (sc : BarScope) (n : BitVec 2) : State :=
  let b := s.barrier h sc n
  let t := s.wake h (barKey h sc n) (evBar b.episode (barKey h sc n))
  let b := { b with episode := b.episode + 1 }
  if b.held then t.completeEpisode h sc n b else t.setBarrier h sc n { b with state := .counting }

/-- A HAMLET-scope episode is released at T0 + 8 (R85). -/
def State.hamletRelease (s : State) (h : Nat) (n : BitVec 2) : State :=
  let b := s.barrier h .hamlet n
  if b.state ≠ .releasing then s
  else if s.cycle.toNat < b.t0 + 8 then s.owe (.hamletBarrierRelease (Fin.ofNat 256 h) n)
  else s.releaseBar h .hamlet n

def execHamletBarrierRelease (h : HamletId) (n : BitVec 2) (s : State) : Host.Outcome State Fault Refusal :=
  .next (s.hamletRelease h.val n)

/-- Key of the barrier root that a hamlet's arrivals of a scope and number go to. -/
def State.rootKey (s : State) (h : Nat) (sc : BarScope) (n : BitVec 2) : Nat :=
  ((s.seqOf (8 * h)).toNat * 5 + (if sc = .die then h / 64 else 4)) * 4 + n.toNat

/-- The hamlets that a barrier root counts (R84). -/
def State.rootSet (s : State) (h : Nat) (sc : BarScope) : List Nat :=
  (s.setOf h).filter fun g => sc ≠ .die || g / 64 = h / 64

/-- A root that has every arrival peals: T0 is this cycle, and each hamlet's release is owed. -/
def State.startPeal (s : State) (h : Nat) (sc : BarScope) (n : BitVec 2) (r : BarRoot) : State :=
  let ms := s.rootSet h sc
  let key := s.rootKey h sc n
  if ms.all r.arrived.contains then
    let s := { s with roots := put s.roots key { r with pealing := true, t0 := s.cycle.toNat, gap := r.extra, released := [] } }
    ms.foldl (fun t g => t.owe (.pealPhaseRelease (Fin.ofNat 256 g) sc n)) s
  else { s with roots := put s.roots key r }

/-- A hamlet arrival reaches its barrier root (R85). -/
def State.rootArrival (s : State) (h : Nat) (sc : BarScope) (n : BitVec 2) : State :=
  let b := s.barrier h sc n
  let r := look {} s.roots (s.rootKey h sc n)
  if sc = .hamlet || b.state ≠ .sent then s
  else if r.pealing then
    if r.released.contains h && !r.nextArrived.contains h then
      { s with roots := put s.roots (s.rootKey h sc n)
                { r with nextArrived := r.nextArrived ++ [h], nextExtra := max r.nextExtra b.arrivedExtra.toNat } }
    else s
  else if r.arrived.contains h then s
  else s.startPeal h sc n { r with arrived := r.arrived ++ [h], extra := max r.extra b.arrivedExtra.toNat }

def execBarrierRootArrival (h : HamletId) (scope : BarScope) (n : BitVec 2) (s : State) : Host.Outcome State Fault Refusal :=
  .next (s.rootArrival h.val scope n)

/-- At T_p a hamlet of phase p is released (R87); after the last one the root waits again, for the arrivals of the next
episode. -/
def State.pealRelease (s : State) (h : Nat) (sc : BarScope) (n : BitVec 2) : State :=
  let key := s.rootKey h sc n
  let r := look {} s.roots key
  let p := s.pattern h
  if !r.pealing || !r.arrived.contains h || r.released.contains h then s
  else if s.cycle.toNat < r.t0 + pealDelay p sc r.gap (phaseOf p h) then s.owe (.pealPhaseRelease (Fin.ofNat 256 h) sc n)
  else
    let done := r.released ++ [h]
    let t := s.releaseBar h sc n
    if r.arrived.all done.contains then t.startPeal h sc n { arrived := r.nextArrived, extra := r.nextExtra }
    else { t with roots := put t.roots key { r with released := done } }

def execPealPhaseRelease (h : HamletId) (scope : BarScope) (n : BitVec 2) (s : State) : Host.Outcome State Fault Refusal :=
  .next (s.pealRelease h.val scope n)

/-! ### QUIESCE (R90, R91, R327) -/

/-- The sums of the counters of a set of hamlets (R90): sent and received. -/
def State.sums (s : State) (hs : List Nat) : Word × Word :=
  hs.foldl (fun acc h => (acc.1 + (s.ham h).sent, acc.2 + (s.ham h).received)) (0, 0)

/-- The root of a launch's completion tree, and the children of a hamlet in it (02 R56). -/
def Launch.treeRoots (l : Launch) : List Nat := (l.tree.filter fun e => e.2.getLsbD 15).map Prod.fst
def Launch.children (l : Launch) (h : Nat) : List Nat :=
  (l.tree.filter fun e => !e.2.getLsbD 15 && fld e.2 7 0 = h).map Prod.fst

/-- Body of QUIESCE: the context holds until a detection that it has joined ends. A hamlet without a launch is its own
set, whose counters are at hand (log entry 77). It acquires the effects of every counted item, which its hamlets release at PACKAGE
scope (06 R157). -/
def quiesceBody (o : Ops) (s : State) : Act :=
  if s.onHandler then illegal (.quiesce o)
  else
    match s.launchOf (hamOf s.curCore) with
    | none =>
      let t := s.sums [hamOf s.curCore]
      if t.1 = t.2 then .done ((s.writeBackAll (hamOf s.curCore)).acquire .pkg) else .hold s
    | some l =>
      let me := (s.curCore, s.curCtx)
      if l.finished.contains me then .done ((s.setLaunch { l with finished := l.finished.filter (· ≠ me) }).acquire .pkg)
      else
        match l.detection with
        | none =>
          .hold ((s.setLaunch { l with
              detection := some { waiting := [me], last := none, sweeps := 0, down := l.treeRoots, sum := (0, 0) } }).owe
            (.detectionSweep l.seq.toNat))
        | some d => .hold (if d.waiting.contains me then s else s.setLaunch { l with detection := some { d with waiting := d.waiting ++ [me] } })

def execQuiesce (o : Ops) (s : State) := s.run (.quiesce o) o (quiesceBody o)

/-- The launch of a sequence number. -/
def State.launchBySeq (s : State) (q : Nat) : Option Launch := s.launches.find? fun l => l.seq.toNat = q

/-- The request of a sweep reaches a hamlet, which records its counter pair and passes it on; once it has reached all and their
sums have come to the root, the detection ends, or the next sweep starts (R91). The end releases the effects of the counted items at
PACKAGE scope in every hamlet of the set (06 R157). -/
def State.sweep (s : State) (q : Nat) : State :=
  match s.launchBySeq q with
  | none => s
  | some l =>
    match l.detection with
    | none => s
    | some d =>
      match d.down with
      | h :: rest =>
        let v := s.sums [h]
        (s.setLaunch { l with
          detection := some { d with down := rest ++ l.children h, sum := (d.sum.1 + v.1, d.sum.2 + v.2) } }).owe (.detectionSweep q)
      | [] =>
        let v := d.sum
        if 1 ≤ d.sweeps && d.last = some v && v.1 = v.2 then
          (((s.hamlets.map Prod.fst).filter fun h => l.hamlets.getLsbD h).foldl State.writeBackAll s).setLaunch
            { l with detection := none, finished := l.finished ++ d.waiting }
        else
          (s.setLaunch { l with
            detection := some { d with last := some v, sweeps := d.sweeps + 1, down := l.treeRoots, sum := (0, 0) } }).owe
            (.detectionSweep q)

/-- A context that leaves QUIESCE by being saved is in no detection any more; its strand starts or joins one when it resumes. -/
def State.unquiesce (s : State) (c k : Nat) : State :=
  { s with launches := s.launches.map fun (l : Launch) => { l with
      finished := l.finished.filter (· ≠ (c, k))
      detection := l.detection.map fun d => { d with waiting := d.waiting.filter (· ≠ (c, k)) } } }

def execDetectionSweep (l : Nat) (s : State) : Host.Outcome State Fault Refusal := .next (s.sweep l)

/-! ### Channels (02 R58, R328, R329) -/

/-- Key of a channel (02 R49; log entry 119). -/
def chanKey (h n : Nat) : Word := BitVec.ofNat 64 (2 ^ 61 + h * 16 + n)

/-- The checks of CHSEND and CHRECV (R328, 18 R429), then `k` with the channel's hamlet, the channel and the
register-store address. -/
def State.channel (s : State) (i : Instr) (o : Ops) (n : BitVec 4) (k : Nat → Chan → Nat → Act) : Act :=
  let v := s.scOp o o.a
  let h := v.toNat % 256
  let x := scAddr o o.d
  if s.onHandler then illegal i
  else
    s.within [scLoc o o.a]
      (if 256 ≤ v.toNat then illegal i
       else
         match (if s.inSet (hamOf s.curCore) h then find (s.ham h).channels n.toNat else none) with
         | none => .trap 0x0C (BitVec.ofNat 64 (h + n.toNat * 256))
         | some c =>
           if x % c.size ≠ 0 then illegal i
           else s.within [{ addr := x, bytes := c.size, storeOnly := true }] (if s.objBusy h then .hold s else k h c x))

/-- A channel of a hamlet replaced. -/
def State.setChan (s : State) (h n : Nat) (c : Chan) : State :=
  let x := s.ham h
  s.setHam h { x with channels := put x.channels n c }

/-- Address of the slot `i` places after the oldest filled one (05 R130). -/
def Chan.slotAt (c : Chan) (h n i : Nat) : Nat := commonsBase h + 0xF0000 + 4096 * n + (c.head + i) % c.slots * c.size

/-- The slot after the last filled one takes bytes, one event at the channel's hamlet (R58, R329). -/
def State.chanFill (s : State) (h n : Nat) (c : Chan) (v : Nat) : State :=
  ((s.homePut (c.slotAt h n c.count) (offsets (bytesOf c.size v))).setChan h n { c with count := c.count + 1 }).wake h
    (chanKey h n) evFilled

/-- The oldest filled slot is taken (R58). -/
def State.chanTakeSlot (s : State) (h n : Nat) (c : Chan) : State :=
  (s.setChan h n { c with head := (c.head + 1) % c.slots, count := c.count - 1 }).wake h (chanKey h n) evFreed

/-- Body of CHSEND. -/
def chsendBody (o : Ops) (ch : BitVec 4) (s : State) : Act :=
  s.channel (.chsend o ch) o ch fun h c x =>
    if c.slots ≤ c.count then .park s 0x06 (chanKey h ch.toNat)
    else s.withRelease s.objScope false fun t => .done (t.chanFill h ch.toNat c (s.rs x c.size))

def execChsend (o : Ops) (ch : BitVec 4) (s : State) := s.run (.chsend o ch) o (chsendBody o ch)

/-- Body of CHRECV. A slot in a listed line is not delivered (17 R416). -/
def chrecvBody (o : Ops) (ch : BitVec 4) (s : State) : Act :=
  s.channel (.chrecv o ch) o ch fun h c x =>
    if c.count = 0 then .park s 0x07 (chanKey h ch.toNat)
    else
      let pa := c.slotAt h ch.toNat 0
      if s.listedLine (pa / 64 * 64) then .trap 0x11 (s.badInfo (pa / 64 * 64))
      else .done (((s.chanTakeSlot h ch.toNat c).acquire s.objScope).var [cellAt x c.size (ofBytes (s.homeRead pa c.size))])

def execChrecv (o : Ops) (ch : BitVec 4) (s : State) := s.run (.chrecv o ch) o (chrecvBody o ch)

end Sys2Proof.Machine
end

