-- ==== Sys2Proof/Machine/Contain.lean ====
section
/-! DEFINITION. The end of a launch (02 R55 to R57, 13 R357), containment (17 R412, R415) and bad lines (17 R416). -/

namespace Sys2Proof.Machine

/-! ### Status words (02 R55) -/

/-- A status word of marks and a number of ends. -/
def statusWord (m : Marks) (ends : Nat) : Word :=
  let b (x : Bool) (n : Nat) : Nat := if x then 2 ^ n else 0
  BitVec.ofNat 64 (m.cls % 16 * 2 ^ 48 + min ends (2 ^ 32 - 1) * 2 ^ 16 + b m.joinspill 4 + b m.dequespill 3
    + b m.overflow 2 + b m.deadline 1 + b m.trap 0)

/-- Two words combined: flags ORed, ends added, the higher class. -/
def combineWords (a b : Word) : Word :=
  BitVec.ofNat 64 (max (fld a 51 48) (fld b 51 48) * 2 ^ 48 + min (fld a 47 16 + fld b 47 16) (2 ^ 32 - 1) * 2 ^ 16)
    ||| ((a ||| b) &&& 0x1F)

/-- The hamlets of a launch. -/
def Launch.set (l : Launch) : List Nat := (List.range 256).filter fun h => l.hamlets.getLsbD h

/-- A completion owed to the operating system (13 R355). -/
def State.complete (s : State) (k : Completion) : State :=
  ({ s with hub := { s.hub with owed := s.hub.owed ++ [k] } }).oweOnce .completionRecordWrite

/-- Place of a completion record (13 R351). -/
def compAddr (n : Nat) : Nat := controlBase + 0x1000 + 32 * (n % 64)

/-- A completion record with `valid` 1 (13 R355). -/
def compBytes (k : Completion) : List Byte :=
  bytesOf 32 (k.word.toNat * 2 ^ 128 + k.seq.toNat * 2 ^ 64 + k.info.toNat * 2 ^ 32 + k.status.toNat * 2 ^ 16
    + k.code.toNat * 2 ^ 8 + 1)

/-- Root firmware writes the next completion record once its `valid` is 0 (13 R355). -/
def State.writeCompletion (s : State) : State :=
  match s.hub.owed with
  | [] => s
  | k :: r =>
    let a := compAddr s.hub.compPos
    if (memGet s.mem a).getLsbD 0 then s.oweOnce .completionRecordWrite
    else
      let t := ({ s with mem := memWrite s.mem a (compBytes k), hub := { s.hub with owed := r, compPos := s.hub.compPos + 1 } }).irq 1
      if r.isEmpty then t else t.oweOnce .completionRecordWrite

def execCompletionRecordWrite (s : State) : Host.Outcome State Fault Refusal := .next s.writeCompletion

/-! ### The end of a launch -/

/-- Whether a core's deque unit holds a published frame (03 R74). -/
def Core.published (co : Core) : Bool :=
  co.deques.any fun e => e.2.any fun x => match x.item with | .frame f => f.published | .stub _ => false

/-- The steal mask that a hamlet's deque units give (03 R74). -/
def State.stealBits (s : State) (h : Nat) : BitVec 8 :=
  (List.range 8).foldl (fun (b : BitVec 8) i => if (s.core (8 * h + i)).published then b ||| (1 <<< i) else b) 0

/-- What a launch leaves in a hamlet when it ends: its windows' dirty lines are written back (05 R128), and its channels,
windows, barriers and reduction nodes are gone; its overflow area is released once it holds no record (19 R441). Frames of a strand
that runs on stay published (02 R34, 03 R74). -/
def State.clearHamlet (s : State) (h : Nat) : State :=
  let t := ((s.ham h).winLines.map Prod.fst).foldl (fun t k => t.writeBackWin h k) s
  t.setHam h { t.ham h with
    seq := none, marks := {}, stealMask := t.stealBits h, winLines := [], windows := [], channels := [], nodes := [], barriers := []
    area := if (t.ham h).spills then (t.ham h).area else none }

/-- A core of an ended launch: no strand, frame, waiter, copy or store of it is left, and its mill has no owner. Runs that are
no message's stay (17 R411); a message from elsewhere ends as one whose run ends early (19 R443). -/
def State.clearCore (s : State) (c : Nat) : State :=
  let co := s.core c
  let clean (x : Ctx) : Ctx :=
    { x.idled with tokens := 0xFF, marks := [], tokScope := [], c1 := 0, c2 := 0, c3 := 0, devq := [], trapcause := setFld x.trapcause 12 12 0 }
  let run := (s.ctx c 4).run
  let keepRun : Bool := match run with | some r => r.kind ≠ .message | none => false
  let handler := if keepRun then s.ctx c 4 else { clean (s.ctx c 4) with run := none }
  let s := s.setCore c { co with
    ctxs := put ((co.ctxs.map fun e => (e.1, clean e.2))) 4 handler
    deques := [], stealQ := [], ready := [], glean := .rest, backoff := 64, replay := [], copies := [], saved := []
    inbox := co.inbox.filter fun r => r.kind ≠ .message
    mill := { co.mill with owned := false, gang := false, queue := [], pend := 0, pendinfo := 0, discarded := 0 } }
  let away (r : Run) : Bool := r.kind = .message && (r.pkg ≠ s.pkgid || s.seqOf r.core ≠ s.seqOf c)
  let s := ((if keepRun then [] else (match (run : Option Run) with | some r => [r] | none => [])) ++ co.inbox).foldl
    (fun t r => if away r then t.answerRun c r r.failed else t) s
  if keepRun then s else s.oweRun c

/-- The messages of ended contexts: those in the package, and those that have not left yet, are discarded, the others have no one to
answer. -/
def State.clearFlight (s : State) (hs : List Nat) : State :=
  let unsent (m : Msg) : Bool := m.dev && (s.ctx m.core m.ctx).devq.any fun e => e.2 = m.id
  let left := s.flight.filter fun (m : Msg) => !(hs.contains (hamOf m.core) && ((m.pkg = s.pkgid && m.home ≤ 320) || unsent m))
  { s with flight := left.map (fun (m : Msg) =>
      let answer : Bool := match m.body with
        | .reply _ _ | .empty | .lost _ | .wake _ | .donReturn _ _ => true
        | _ => false
      if hs.contains (hamOf m.core) && !answer then { m with cnt := 0, tag := none, home := orphan } else m) }

/-- The waiters of ended hamlets are discarded, and the watches that they hold elsewhere. -/
def State.clearWaiters (s : State) (hs : List Nat) : State :=
  { s with hamlets := s.hamlets.map fun e =>
      (e.1, { e.2 with
        waiters := if hs.contains e.1 then [] else (e.2.waiters.filter fun w => !(w.watch.map hs.contains).getD false)
        wakes := if hs.contains e.1 then [] else e.2.wakes }) }

/-- A launch leaves the package. Where it is stopped, its contexts stop and its frames and waiters are discarded. -/
def State.dropLaunch (s : State) (l : Launch) (stop : Bool) : State :=
  let hs := l.set
  let s := if stop then
      let t := ((s.clearFlight hs).clearWaiters hs)
      ((t.cores.map Prod.fst).filter fun c => hs.contains (hamOf c)).foldl (fun t c => t.clearCore c) t
    else s
  let s := hs.foldl (fun t h => if (find t.hamlets h).isSome then t.clearHamlet h else t) s
  { s with launches := s.launches.filter fun (m : Launch) => m.seq ≠ l.seq
           roots := s.roots.filter fun r => r.1 / 20 ≠ l.seq.toNat }

/-- The combined word of a launch that does not end by its root ends (02 R56): what has reached the root, what every hamlet
has accumulated, and the class of the records that name it. -/
def State.endWord (s : State) (l : Launch) : Word :=
  combineWords (l.set.foldl (fun w h => combineWords w (statusWord (s.ham h).marks 0)) l.total) (statusWord { cls := l.cls } 0)

/-- A launch ends with ABORTED (13 R357): its completion is owed. -/
def State.abortLaunch (s : State) (l : Launch) : State :=
  let w := s.endWord l
  (s.dropLaunch l true).complete { word := w, seq := l.seq, info := 0, status := 0x08, code := 0x02 }

/-- A launch ends by its root ends (02 R56). -/
def State.finishLaunch (s : State) (l : Launch) : State :=
  (s.dropLaunch l false).complete { word := l.total, seq := l.seq, info := 0, status := 0, code := 0x02 }

/-! ### Root ends (02 R34, R56) -/

/-- A hamlet has a status word for a root end; what it has accumulated travels with it. -/
def State.rootEnd (s : State) (h : Nat) : State :=
  match s.launchOf h with
  | none => s
  | some l =>
    let w := statusWord (s.ham h).marks 1
    let s := s.mark h fun _ => {}
    (s.setLaunch { l with held := l.held ++ [(h, w)] }).owe (.statusWordArrival l.seq.toNat)

/-- Whether a read issued in a hamlet, which may be one of launch arguments, has not completed: a load or an atomic whose answer
is awaited, or a copy that moves its bytes. -/
def State.readsOut (s : State) (h : Nat) : Bool :=
  (s.flight.any fun (m : Msg) => hamOf m.core = h && m.home < 321 && m.tag.isSome && (match m.body with
      | .load _ _ _ | .ldsync _ _ | .atomic _ _ => true
      | .reply _ _ => m.pkg = s.pkgid
      | _ => false))
  || (List.range 8).any fun i => (s.core (8 * h + i)).copies.any fun y => y.state = .going

/-- A word leaves its hamlet once the reads issued there have completed (R56); or the oldest word on its way reaches a node of
the completion tree: forwarded to the parent, or counted at the root; or the launch ends, once no read of it is outstanding
(R57). -/
def State.wordArrival (s : State) (q : Nat) : State :=
  match s.launchBySeq q with
  | none => s
  | some l =>
    let again (t : State) : State := t.owe (.statusWordArrival q)
    match l.held.find? fun e => !s.readsOut e.1 with
    | some e => again (s.setLaunch { l with held := l.held.erase e, words := l.words ++ [e] })
    | none =>
      match l.words with
      | (h, w) :: rest =>
        let e := look (0 : BitVec 16) l.tree h
        if e.getLsbD 15 then again (s.setLaunch { l with words := rest, total := combineWords l.total w })
        else again (s.setLaunch { l with words := rest ++ [(fld e 7 0, w)] })
      | [] =>
        if l.nframes ≤ fld l.total 47 16 then (if l.set.any s.readsOut then again s else s.finishLaunch l)
        else if l.held.isEmpty then s else again s

def execStatusWordArrival (l : Nat) (s : State) : Host.Outcome State Fault Refusal := .next (s.wordArrival l)

/-! ### Containment (17 R415) -/

/-- A hamlet is fenced: an event is recorded, and its launch ends. -/
def State.fence (s : State) (h : Nat) (event : Nat) : State :=
  if (s.ham h).fenced then s
  else
    let q := s.seqOf (8 * h)
    let s := s.record { event := event, cls := 5, seq := q, unit := h }
    let s := s.setHam h { s.ham h with fenced := true }
    match s.launchOf h with
    | some l => s.abortLaunch { l with cls := max l.cls 5 }
    | none => s

/-- The package stops: an event is recorded for each launch, or one for none, and every launch ends. -/
def State.stopPackage (s : State) : State :=
  if s.stopped then s
  else
    let qs := s.launches.map Launch.seq
    let s := (if qs.isEmpty then [0] else qs).foldl (fun t q => t.record { event := 0x06, cls := 6, seq := q }) s
    let s := { s with stopped := true }
    s.launches.foldl (fun t l => t.abortLaunch { l with cls := 6 }) s

/-! ### Bad lines (17 R416) -/

/-- The list that a line is entered on: by a number of its own, with its size, and the hamlet that its overflow fences. -/
def State.badList (s : State) (line : Nat) : Nat × Nat × Option Nat :=
  match s.region line with
  | .stash c => (1000 + c, 16, some (hamOf c))
  | .commons h => (4000 + h, 16, some h)
  | _ => (s.homeOf line, 64, none)

/-- Unit index of a line within the storage of its memory (17 R413). -/
def State.unitOf (s : State) (line : Nat) : Nat :=
  match s.region line with
  | .stash c => c
  | .commons h => h
  | .hbm => s.controllerOf line
  | .lpddr => s.controllerOf line - 8
  | .cxl n => n
  | _ => 0

/-- A line is listed as bad, with its record: class 4 where data of a launch were lost. A full list fences its hamlet or stops
the package. `code` is the storage code of what was lost with the unit there, where that is not the line's own memory (R414). A line
that is listed already is found once more, with a record (R416). -/
def State.listLine (s : State) (line : Nat) (seq : Word) (lost : Bool) (code : Option (Nat × Nat) := none) : State :=
  let line := line / 64 * 64
  let (n, size, h) := s.badList line
  let s := s.record { event := 0x03, cls := if lost && seq ≠ 0 then 4 else 0, addr := line, seq := seq,
                      unit := match code with | some e => e.2 | none => s.unitOf line }
  if !s.bad.contains line && size ≤ (s.bad.filter fun l => (s.badList l).1 = n).length then
    match h with
    | some h => s.fence h 0x04
    | none => s.stopPackage
  else { s with bad := setIns s.bad line,
                badCode := match code with | some e => put s.badCode line e.1 | none => del s.badCode line }

end Sys2Proof.Machine
end

