-- ==== Sys2Proof/Machine/Mill.lean ====
section
/-! DEFINITION. Mill commands at issue, opcodes 0x49 to 0x52 without GANG (10 R263 to R271, 11 R287 to R305, 18 R427): what
they check, what they capture, and the queue. -/

namespace Sys2Proof.Machine

/-! ### Tables of rows -/

/-- `n` bytes of a table of 64-byte rows from a byte on, as a number. -/
def mapRead (m : Map Row) (addr n : Nat) : Nat :=
  let k := (addr % 64 + n + 63) / 64
  let all := (List.range k).foldl (fun acc i => acc + (look 0 m (addr / 64 + i)).toNat * 2 ^ (512 * i)) 0
  (all >>> (8 * (addr % 64))) % 2 ^ (8 * n)

/-- `n` bytes of a table written, byte by byte. -/
def mapWrite (m : Map Row) (addr n v : Nat) : Map Row :=
  (bytesOf n v).zipIdx.foldl (fun t (b, i) =>
    let a := addr + i
    put t (a / 64) (rowPut (look 0 t (a / 64)) (a % 64) [(0, b)])) m

/-- The working bank, and the mill with it replaced (10 R270). -/
def Mill.work (m : Mill) : Map Row := if m.vis1 then m.bank0 else m.bank1
def Mill.setWork (m : Mill) (b : Map Row) : Mill := if m.vis1 then { m with bank0 := b } else { m with bank1 := b }

/-- The mill of a core replaced. -/
def State.setMill (s : State) (c : Nat) (m : Mill) : State := let co := s.core c; s.setCore c { co with mill := m }

/-- A scale buffer word (10 R266): line and word. -/
def ScaleBuf.word (b : ScaleBuf) (l w : Nat) : BitVec 32 := (find b.words (64 * l + w)).getD b.fill

/-- A scale buffer of which every word is 1.0. -/
def scaleOnes : ScaleBuf := { fill := 0x3F800000, words := [] }

/-! ### Memory descriptors (R264) -/

/-- The fields of a memory operand descriptor. -/
structure MemDesc where
  etype : BitVec 4
  rot : Nat
  rows : Nat
  cols : Nat
  rpitch : Nat
  tpitch : Nat
  reserved : Nat
  base : Nat
  deriving DecidableEq, Repr

/-- A descriptor read. -/
def memDesc (d : BitVec 128) : MemDesc :=
  { etype := d.extractLsb' 124 4, rot := fld d 123 120, rows := fld d 119 108 + 1, cols := fld d 107 96 + 1,
    rpitch := fld d 95 80, tpitch := fld d 79 64, reserved := fld d 63 57, base := fld d 56 0 }

/-- Addresses of the chunks of row i at a piece offset, in the row's own order (R264). -/
def MemDesc.chunks (d : MemDesc) (w p i : Nat) : List Nat :=
  (List.range ((d.cols * w + 511) / 512)).map fun c =>
    d.base + 64 * (d.tpitch * p + d.rpitch * i + (c + d.rot * i) % d.rpitch)

/-- Addresses of every chunk at a piece offset. -/
def MemDesc.all (d : MemDesc) (w p : Nat) : List Nat := (List.range d.rows).flatMap (d.chunks w p)

/-- The storage address of an address in one of R263's windows, for a context of a core. -/
def State.millPa (s : State) (c k : Nat) (va : Nat) : Option Nat :=
  let v : Word := BitVec.ofNat 64 va
  let off := va % 2 ^ 40
  if localWindow v && (off < 0x100000 || 0x200000 ≤ off) then
    match s.decodeLocal c k .runtime v with
    | .ok pa => some pa
    | .error _ => none
  else none

/-- The window of R263 in which an address lies: stash storage, the two tile slices, the commons user area. -/
def State.millWindow (s : State) (c k : Nat) (va : Nat) : Option Nat :=
  let off := va % 2 ^ 40
  if (s.millPa c k va).isNone then none
  else some (if off < 0x100000 then 0 else if off < 0x300000 then 1 else if off < 0x310000 then 2 else 3)

/-- The lowest of a list of numbers. -/
def lowest (l : List Nat) : Option Nat := l.foldl (fun acc x => match acc with | none => some x | some y => some (min x y)) none

/-- Faults of a command, in the order of 17 R409. -/
abbrev Faults := List (BitVec 6 × Word)

/-- Rank of a cause (R409). -/
def causeRank (c : BitVec 6) : Nat := if c = 0x01 then 0 else if c = 0x08 then 1 else if c = 0x09 then 2 else if c = 0x03 then 3 else 4

/-- The first fault of the lowest rank. -/
def firstFault (fs : Faults) : Option (BitVec 6 × Word) :=
  ((List.range 5).filterMap fun k => fs.find? fun f => causeRank f.1 = k).head?

/-- Illegal Instruction under a condition. -/
def bad01 (i : Instr) (b : Bool) : Faults := if b then [(0x01, baseInfo i)] else []

/-- The faults of a memory descriptor with elements of `w` bits (R264, R427): form, base, and at every piece offset the one
window that the whole operand must lie in: that of its first chunk (DESIGN CHOICE, log entry 41). -/
def State.descFaults (s : State) (i : Instr) (d : MemDesc) (w : Nat) (ps : List Nat) : Faults :=
  let form := d.reserved ≠ 0 || d.rpitch = 0 || 512 * d.rpitch < d.cols * w
  bad01 i form ++ (if d.base % 64 ≠ 0 then ([((0x03 : BitVec 6), BitVec.ofNat 64 d.base)] : Faults) else [])
  ++ (if form then []
      else match lowest (ps.flatMap fun p =>
          let as := d.all w p
          let win := (as.head?).bind (s.millWindow s.curCore s.curCtx)
          as.filter fun a => win = none || s.millWindow s.curCore s.curCtx a ≠ win) with
        | some a => ([(0x05, BitVec.ofNat 64 a)] : Faults)
        | none => [])

/-- Rank and number of members of a context's gang (02 R42); rank 0 of one outside a gang. -/
def Ctx.gangRank (x : Ctx) : Nat × Nat := if x.inGang then (fld x.grank 2 0, fld x.grank 5 3 + 1) else (0, 1)

/-- Piece offsets (R273) of A and of B for a rank, and those that a gang of n members may use. -/
def pieceA (g : Nat) : Nat := g / 4
def pieceB (g : Nat) : Nat := g % 4
def piecesA (n : Nat) : List Nat := List.range ((n - 1) / 4 + 1)
def piecesB (n : Nat) : List Nat := List.range (min n 4)

/-! ### Classes of operands (R261) -/

/-- A pair of operand types: the window of GroupSum (0 for none), whether it is the INT class, whether FP64, the accumulator's
etype, the group size, and the two formats. -/
structure MulClass where
  win : Nat
  int : Bool
  f64 : Bool
  acc : BitVec 4
  group : Nat
  fa : Fmt
  fb : Fmt
  deriving DecidableEq, Repr

/-- An integer format of `w` bits with a sign. -/
def intFmt (w : Nat) : Fmt := { sgn := true, ew := 0, mw := w - 1, bias := 0, special := 0 }

/-- The class of a pair of etypes (R261), or none. -/
def mulClass (ea eb : BitVec 4) (fmt : Word) : Option MulClass :=
  let da : BitVec 32 := fmt.setWidth 32
  let db : BitVec 32 := (fmt >>> 32).setWidth 32
  let fa := fmtOfDesc da
  let fb := fmtOfDesc db
  let f (win : Nat) (g : Nat) (x : Fmt) : MulClass := { win := win, int := false, f64 := false, acc := 0xB, group := g, fa := x, fb := x }
  let n (w : Nat) : MulClass :=
    { win := 0, int := true, f64 := false, acc := 0x3, group := 32, fa := intFmt w, fb := intFmt w }
  if ea ≠ eb then none
  else if ea = 0xC then some { win := 0, int := false, f64 := true, acc := 0xC, group := 1, fa := .f64, fb := .f64 }
  else if ea = 0xB then some (f 80 8 .f32)
  else if ea = 0x9 then some (f 64 32 .f16)
  else if ea = 0xA then some (f 64 32 .bf16)
  else if ea = 0x1 then some (n 8)
  else if ea = 0xD then some (n 4)
  else if ea = 0xE then
    if fa.ew = 0 && fb.ew = 0 && fa.bias = 0 && fb.bias = 0 && fld da 12 11 = 0 && fld db 12 11 = 0 then
      some { win := 0, int := true, f64 := false, acc := 0x3, group := 32, fa := fa, fb := fb }
    else some { win := 0, int := false, f64 := false, acc := 0xB, group := 32, fa := fa, fb := fb }
  else none

/-! ### Operands of MMUL and MSPB -/

/-- An operand: a tile view or a memory descriptor. -/
inductive MulOp where
  | tile (v : View)
  | mem (d : MemDesc)
  deriving DecidableEq, Repr

def MulOp.etype : MulOp → BitVec 4
  | .tile v => v.etype
  | .mem d => d.etype

def MulOp.rows : MulOp → Nat
  | .tile v => v.rows
  | .mem d => d.rows

def MulOp.cols : MulOp → Nat
  | .tile v => v.cols
  | .mem d => d.cols

/-- View Bounds of a view (18 R424). -/
def viewFault (v : View) : BitVec 6 × Word := (0x08, viewInfo v.base v.num v.cls)

/-- A fault of an operand's shape, pair or type: by its view, or Illegal Instruction for a descriptor (R427). -/
def MulOp.fault (x : MulOp) (i : Instr) : BitVec 6 × Word :=
  match x with
  | .tile v => viewFault v
  | .mem _ => (0x01, baseInfo i)

/-- The etypes that an operand of MMUL or MSPB may have (R261). -/
def mulType (e : BitVec 4) : Bool := e = 0x1 || e = 0xD || e = 0xE || (0x9 ≤ e.toNat && e.toNat ≤ 0xC)

/-- The faults of a pair that R261 does not list, or whose Ks differ: of each operand that is a descriptor, of the view that is
wrong by itself, or of the first view (DESIGN CHOICE, log entry 41). -/
def pairFaults (i : Instr) (a b : MulOp) : Faults :=
  let one (x y : MulOp) : Faults := match x with
    | .mem _ => [x.fault i]
    | .tile _ => if mulType x.etype && !mulType y.etype then [] else [x.fault i]
  one a b ++ one b a

/-- The fault of a tile view with rows of `len` bytes in a register store of `hi` bytes (07 R185, 18 R424): by its first byte, or
by its first byte outside. -/
def tileFaults (v : View) (len hi : Nat) : Faults :=
  if !(fld v.word 63 58 = 0 && fld v.word 31 20 = 0 && v.base % 8 = 0 && len ≤ v.pitch) then [viewFault v]
  else
    match (List.range v.rows).find? fun r => hi < v.base + v.pitch * r + len with
    | some r => [(0x08, viewInfo (max hi (v.base + v.pitch * r)) v.num v.cls)]
    | none => []

/-- The faults of an operand by itself, with elements of `w` bits. -/
def State.opFaults (s : State) (i : Instr) (x : MulOp) (w : Nat) (ps : List Nat) : Faults :=
  match x with
  | .tile v => tileFaults v ((v.cols * w + 7) / 8) s.storeEnd
  | .mem d => s.descFaults i d w ps

/-- A view's word with the base that is in force. -/
def View.asWord (v : View) : Word := setFld v.word 15 0 v.base

/-- The tile view of a number, as it stands. -/
def State.tileView (s : State) (n : Nat) : View := viewOf (s.sc (viewAddr 1 n)) 1 n none

/-- Operand A or B of an MMUL or MSPB: `bit` of xf names a descriptor. -/
def State.mulOp (s : State) (o : Ops) (x : BitVec 16) (bit : Nat) : MulOp :=
  if (xfOf o).getLsbD bit then .mem (memDesc (BitVec.ofNat 128 (s.rs (scAddr o x) 16))) else .tile (s.view o 1 x)

/-- What a command captures beside its own operands. -/
def State.capture (s : State) (i : Instr) : MillCmd :=
  { instr := i, ctx := s.curCtx, viewD := 0, viewA := 0, viewB := 0, bmA := 0, bmB := 0, descD := 0, descA := 0, descB := 0,
    fmt := s.myCore.mill.millfmt, rm := 0, root := s.me.tblroot, priv := s.me.priv, rank := s.me.gangRank.1, store := s.me.store,
    started := false }

/-- Mill Ownership of a command (R427). -/
def State.ownFault (s : State) : Faults := if s.ownsMill then [] else [(0x09, s.myCore.mill.millst)]

/-- A command enters the queue (R267); it is counted (03 R90). While both slots are held, the context holds. -/
def State.command (s : State) (fs : Faults) (cmd : MillCmd) : Act :=
  match firstFault (fs ++ s.ownFault) with
  | some f => .trap f.1 f.2
  | none =>
    let m := s.myCore.mill
    if 2 ≤ m.queue.length then .hold s
    else
      let t := s.setMill s.curCore { m with queue := m.queue ++ [cmd] }
      let h := t.myHam
      let t := t.setMyHam { h with sent := h.sent + 1 }
      .done (if m.queue.isEmpty then t.owe (.millCommandCurrent (Fin.ofNat 2048 s.curCore)) else t)

/-- Faults of places named like scalars. -/
def State.locFaults (s : State) (ls : List Loc) : Faults := ls.filterMap s.locFault

/-- A descriptor in the register store (R288): it lies in ordinary store bytes. -/
def descLoc (o : Ops) (x : BitVec 16) (n : Nat) : Loc := { rsLoc o x n with storeOnly := true }

/-- The origin of an accumulator view in the working bank: row and column (10 R265). -/
def originOf (v : View) (esz : Nat) : Nat × Nat := ((v.base - 0x4000) / 384, (v.base - 0x4000) % 384 / esz)

/-- The faults of a command's accumulator view (R295, 07 R184, R185): its form and shape, its area, its origin. -/
def accFaults (v : View) (cl : MulClass) (m n : Nat) : Faults :=
  let esz := if cl.f64 then 8 else 4
  let (r, c) := originOf v esz
  if !(v.etype = cl.acc && fld v.word 63 58 = 0 && fld v.word 31 20 = 0 && v.pitch = 384 && v.rows = m && v.cols = n
      && 0x4000 ≤ v.base) then [viewFault v]
  else
    match (List.range m).find? fun i => 0xD000 < v.base + 384 * i + n * esz with
    | some i => [(0x08, viewInfo (max 0xD000 (v.base + 384 * i)) v.num v.cls)]
    | none => if r + m ≤ 96 && (c + n) * esz ≤ 384 then [] else [viewFault v]

/-- The faults that an operand has by itself where the descriptor of the other one lies out of bounds and is not read (17 R409,
18 R424). -/
def State.loneFaults (s : State) (i : Instr) (x : MulOp) (w : MulClass → Nat) (ps : List Nat) : Faults :=
  if !mulType x.etype then [x.fault i]
  else match mulClass x.etype x.etype s.myCore.mill.millfmt with
    | none => []
    | some cl => s.opFaults i x (w cl) ps

/-- Body of MMUL and MSPB at issue (R295, R296). A descriptor that lies out of bounds is not judged (17 R409). -/
def mulBody (i : Instr) (o : Ops) (sparse : Bool) (s : State) : Act :=
  let a := s.mulOp o o.a 0
  let b := s.mulOp o o.b 1
  let d := s.view o 2 o.d
  let fmt := s.myCore.mill.millfmt
  let da : BitVec 32 := fmt.setWidth 32
  let db : BitVec 32 := (fmt >>> 32).setWidth 32
  let (_, size) := s.me.gangRank
  let isMem (x : MulOp) : Bool := match x with | .mem _ => true | .tile _ => false
  let la := s.locFaults (if isMem a then [descLoc o o.a (if sparse then 32 else 16)] else [])
  let lb := s.locFaults (if isMem b then [descLoc o o.b (if sparse then 32 else 16)] else [])
  let m := a.rows
  let k := a.cols
  let n := b.cols
  let scaleBad (x : BitVec 32) : Bool := fld x 12 11 ≠ 0 && 64 * blockOf x < k
  let half (x : MulOp) (d : BitVec 32) : Faults := bad01 i (x.etype = 0xE && (!descValid d || scaleBad d))
  let alone : Faults := if !la.isEmpty && !lb.isEmpty then []
    else if la.isEmpty then half a da ++ (if 96 < m then [a.fault i] else []) ++ s.loneFaults i a (fun cl => cl.fa.width) (piecesA size)
    else half b db ++ s.loneFaults i b (fun cl => cl.fb.width) (piecesB size)
  let fs : Faults := la ++ lb ++ if !la.isEmpty || !lb.isEmpty then alone else
    half a da ++ half b db ++ (if 96 < m then [a.fault i] else [])
    ++ (if b.rows ≠ k then pairFaults i a b else []) ++
    match mulClass a.etype b.etype fmt with
    | none => (if 96 < n then [b.fault i] else []) ++ pairFaults i a b
    | some cl =>
      let bmp (on : Bool) (x : MulOp) (f : BitVec 16) (lo cnt : Nat) (ps : List Nat) : Faults :=
        if !on then []
        else match x with
          | .mem _ =>
            let e := memDesc (BitVec.ofNat 128 (s.rs (scAddr o f + 16) 16))
            if e.etype ≠ 0 || e.cols ≠ k || e.rows ≠ cnt then bad01 i true else s.descFaults i e 1 ps
          | .tile _ =>
            let v := s.tileView (fld (xfOf o) (lo + 2) lo)
            if v.rows = cnt then tileFaults v ((k + 7) / 8) s.storeEnd else [viewFault v]
      (if (if cl.f64 then 48 else 96) < n then [b.fault i] else []) ++ accFaults d cl m n
      ++ s.opFaults i a cl.fa.width (piecesA size) ++ s.opFaults i b cl.fb.width (piecesB size)
      ++ bmp sparse a o.a 2 m (piecesA size) ++ bmp sparse b o.b 5 n (piecesB size)
  let cmd : MillCmd := { s.capture i with
    viewD := d.asWord
    viewA := match a with | .tile v => v.asWord | .mem _ => 0
    viewB := match b with | .tile v => v.asWord | .mem _ => 0
    bmA := s.sc (viewAddr 1 (fld (xfOf o) 4 2)), bmB := s.sc (viewAddr 1 (fld (xfOf o) 7 5))
    descA := BitVec.ofNat 256 (s.rs (scAddr o o.a) 32), descB := BitVec.ofNat 256 (s.rs (scAddr o o.b) 32)
    rm := BitVec.ofNat 3 (s.modeOf o) }
  s.command fs cmd

def execMmul (o : Ops) (m : MulMode) (s : State) := s.run (.mmul o m) o (mulBody (.mmul o m) o false)
def execMspb (o : Ops) (m : MulMode) (s : State) := s.run (.mspb o m) o (mulBody (.mspb o m) o true)

/-! ### MSCL, JOIN, JDRAIN (R298 to R303) -/

/-- Body of MSCL. A descriptor that lies out of bounds is not judged (17 R409). -/
def msclBody (o : Ops) (b : Bool) (s : State) : Act :=
  let i : Instr := .mscl o b
  let raw := s.rs (scAddr o o.a) 16
  let d := memDesc (BitVec.ofNat 128 raw)
  let (_, size) := s.me.gangRank
  let out := s.locFaults [descLoc o o.a 16]
  let fs := if !out.isEmpty then out
    else bad01 i (d.etype ≠ 0xB || 96 < d.rows || 64 < d.cols) ++ s.descFaults i d 32 (if b then piecesB size else piecesA size)
  s.command fs { s.capture i with descA := BitVec.ofNat 256 raw }

def execMscl (o : Ops) (b : Bool) (s : State) := s.run (.mscl o b) o (msclBody o b)

/-- Base and count of a fiber or spill descriptor (R276). -/
def fiberDesc (d : BitVec 128) : Nat × Nat := (fld d 56 0, fld d 127 96)

/-- The faults of a fiber or spill descriptor: reserved bits, alignment, one window (R300). -/
def State.fiberFaults (s : State) (i : Instr) (d : BitVec 128) : Faults :=
  let (base, n) := fiberDesc d
  let pa (a : Nat) : Option Nat := s.millPa s.curCore s.curCtx a
  let ends : Faults :=
    if n = 0 then (if (pa base).isSome then [] else [(0x05, BitVec.ofNat 64 base)])
    else
      match lowest (((List.range n).map fun j => base + 16 * j).filter fun a => (pa a).isNone) with
      | some a => [(0x05, BitVec.ofNat 64 a)]
      | none =>
        match (List.range n).find? fun j => (pa (base + 16 * j)).map (· - 16 * j) ≠ pa base with
        | some j => [(0x05, BitVec.ofNat 64 (base + 16 * j))]
        | none => []
  bad01 i (fld d 95 57 ≠ 0) ++ (if base % 16 ≠ 0 then [((0x03 : BitVec 6), BitVec.ofNat 64 base)] else []) ++ ends

/-- Body of JOIN. A descriptor that lies out of bounds is not judged (17 R409). -/
def joinBody (o : Ops) (s : State) : Act :=
  let i : Instr := .join o
  let rd (x : BitVec 16) : BitVec 128 := BitVec.ofNat 128 (s.rs (scAddr o x) 16)
  let one (x : BitVec 16) : Faults := if (s.locFaults [descLoc o x 16]).isEmpty then s.fiberFaults i (rd x) else []
  let fs := s.locFaults [descLoc o o.a 16, descLoc o o.b 16, descLoc o o.d 16] ++ one o.d ++ one o.a ++ one o.b
  s.command fs { s.capture i with descD := (rd o.d).setWidth 256, descA := (rd o.a).setWidth 256, descB := (rd o.b).setWidth 256 }

def execJoin (o : Ops) (s : State) := s.run (.join o) o (joinBody o)

/-- Body of JDRAIN, both forms. A descriptor that lies out of bounds is not judged (17 R409). -/
def drainBody (i : Instr) (o : Ops) (s : State) : Act :=
  let d := BitVec.ofNat 256 (s.rs (scAddr o o.d) 32)
  let mis (a : Nat) : Faults := if a % 4 ≠ 0 then [(0x03, BitVec.ofNat 64 a)] else []
  let out := s.locFaults [descLoc o o.d 32]
  let fs := if !out.isEmpty then out
    else bad01 i (fld d 255 240 ≠ 0 || fld d 239 216 = 0 || 0xFFFFFF < fld d 215 192 + fld d 239 216)
      ++ mis (fld d 191 128) ++ mis (fld d 127 64) ++ mis (fld d 63 0)
  s.command fs { s.capture i with descD := d, viewD := BitVec.ofNat 64 (scAddr o o.d) }

def execJdrain (o : Ops) (s : State) := s.run (.jdrain o) o (drainBody (.jdrain o) o)
def execJdrainResume (o : Ops) (s : State) := s.run (.jdrainResume o) o (drainBody (.jdrainResume o) o)

/-! ### ASWAP, AZERO (R304) -/

/-- ASWAP and AZERO `.vis` wait until the context's results addressed to the visible bank have committed (R268). -/
def State.bankCommitted (s : State) (k : State → Act) : Act :=
  let toBank (r : Result) : Bool := r.cells.any fun c => match c.tgt with | .row n => 256 ≤ n | .pred _ => false
  let waits (r : Result) : Bool := match r.due with | .var (_ :: _) => true | _ => false
  if s.me.results.any fun r => toBank r && waits r then .hold s else k (s.commit toBank)

def execAswap (o : Ops) (s : State) :=
  s.run (.aswap o) o fun t => t.bankCommitted fun u => u.command [] (u.capture (.aswap o))

def execAzero (o : Ops) (s : State) := s.run (.azero o) o fun t => t.command [] (t.capture (.azero o))

def execAzeroVis (o : Ops) (s : State) :=
  s.run (.azeroVis o) o fun t => t.bankCommitted fun u => u.command [] (u.capture (.azeroVis o))

/-! ### MFMT, MWAIT (R291, R293, R305) -/

/-- TRAPINFO of the mill's pending trap (19 R445). -/
def Mill.pendWord (m : Mill) : Word := if m.pend = 0x06 then m.pendinfo ||| (m.discarded.setWidth 64 <<< 48) else m.pendinfo

/-- Acting as MWAIT first (R291, R305): a hold until the context's commands have completed, then a trap that the strand
carries or that the mill holds, then `k`. -/
def State.withMill (s : State) (k : State → Act) : Act :=
  let m := s.myCore.mill
  if m.queue.any fun q => q.ctx = s.curCtx then .hold s
  else
    match s.me.strand with
    | some d =>
      if d.pend ≠ 0 then
        .trapIn (s.setMe { s.me with strand := some { d with pend := 0, pendinfo := 0 } }) d.pend d.pendinfo
      else if m.pend ≠ 0 && s.ownsMill then
        .trapIn (s.setMill s.curCore { m with pend := 0, pendinfo := 0, discarded := 0 }) m.pend m.pendWord
      else k s
    | none => k s

def execMwait (o : Ops) (s : State) := s.run (.mwait o) o fun t => t.withMill .done

/-- A mill taken by a context (R293). -/
def Mill.taken (m : Mill) (k : Nat) : Mill :=
  { m with owned := true, owner := k, gang := false, scaleA := scaleOnes, scaleB := scaleOnes, recA := 0, recB := 0 }

/-- Body of MFMT. -/
def mfmtBody (o : Ops) (s : State) : Act :=
  let m := s.myCore.mill
  s.within [scLoc o o.a]
      (if s.onHandler then .trap 0x09 m.millst
       else if m.owned && m.owner ≠ s.curCtx then .hold s
       else
         let v := s.scOp o o.a
         if m.owned then .done (s.setMill s.curCore { m with millfmt := v })
         else
           let t := s.setMill s.curCore { m.taken s.curCtx with millfmt := v }
           .done (t.setMe { t.me with strand := t.me.strand.map fun d => { d with ascale := 0, bscale := 0 } }))

def execMfmt (o : Ops) (s : State) := s.run (.mfmt o) o (mfmtBody o)

/-- Body of MFMT `.rel`: a strand that waits for the mill may be taken at once (03 R69). -/
def mfmtRelBody (_ : Ops) (s : State) : Act :=
  if s.onHandler then .trap 0x09 s.myCore.mill.millst
  else
    s.withMill fun t =>
      let m := t.myCore.mill
      .done (if t.ownsMill && !m.gang then (t.setMill t.curCore { m with owned := false }).callIdle t.curCore else t)

def execMfmtRel (o : Ops) (s : State) := s.run (.mfmtRel o) o (mfmtRelBody o)

end Sys2Proof.Machine
end

