-- ==== Sys2Proof/Machine/MillRun.lean ====
section
/-! DEFINITION. What a mill command does when it is current and when it completes (04 R109 to R112, 10 R264 to R285, 11
R291 to R304, 19 R445, R447), and the ramp limit (10 R286). -/

namespace Sys2Proof.Machine

/-! ### Reading operands -/

/-- A packed row of a memory operand: its chunks in order, as one number; none where a chunk lies outside the windows. -/
def State.memRow (s : State) (c k : Nat) (as : List Nat) : Nat :=
  (as.zipIdx.foldl (fun acc (a, i) =>
    match s.millPa c k a with
    | some pa => acc + ofBytes (memRead s.mem pa 64) * 2 ^ (512 * i)
    | none => acc) 0)

/-- The lines that a list of window addresses names and that are listed as bad (17 R416). -/
def State.badOf (s : State) (c k : Nat) (as : List Nat) : Option Nat :=
  as.findSome? fun a => match s.millPa c k a with
    | some pa => if s.bad.contains (pa / 64 * 64) then some (pa / 64 * 64) else none
    | none => none

/-- Rows of an operand as packed numbers, with elements of `w` bits, at a piece offset (R264, R273). -/
def State.mulRows (s : State) (c : Nat) (q : MillCmd) (x : MulOp) (w p : Nat) : List Nat :=
  match x with
  | .tile v => (List.range v.rows).map fun i => mapRead q.store (v.base + v.pitch * i) ((v.cols * w + 7) / 8)
  | .mem d => (List.range d.rows).map fun i => s.memRow c q.ctx (d.chunks w p i)

/-- A listed line that the reading of an operand meets; the chunks of which no element is present are not read (R274). -/
def State.mulBad (s : State) (c : Nat) (q : MillCmd) (x : MulOp) (w p : Nat) (present : Nat → Nat → Bool) : Option Nat :=
  match x with
  | .tile _ => none
  | .mem d =>
    (List.range d.rows).findSome? fun i =>
      s.badOf c q.ctx (((d.chunks w p i).zipIdx.filter fun a =>
        (List.range d.cols).any fun j => present i j && j * w < 512 * a.2 + 512 && 512 * a.2 < j * w + w).map Prod.fst)

/-- Element k of a packed row. -/
def elemAt (rows : List Nat) (w i k : Nat) : Nat := ((rows.getD i 0) >>> (w * k)) % 2 ^ w

/-! ### MMUL and MSPB (R296) -/

/-- What an MMUL or MSPB reads: its class, its operands with their piece offsets, its bitmaps, and M, K and N. -/
structure Mul where
  cl : MulClass
  a : MulOp
  b : MulOp
  pa : Nat
  pb : Nat
  bma : Option MulOp
  bmb : Option MulOp
  scaleA : Bool
  scaleB : Bool
  blkA : Nat
  blkB : Nat
  strict : Bool
  q : Bool

/-- The operands that a captured command names. -/
def MillCmd.mul (q : MillCmd) : Option Mul :=
  match opsOf q.instr with
  | none => none
  | some o =>
    let xf := xfOf o
    let sparse := match q.instr with | .mspb _ _ => true | _ => false
    let side (bit : Nat) (d : BitVec 256) (v : Word) : MulOp :=
      if xf.getLsbD bit then .mem (memDesc (d.setWidth 128)) else .tile (viewOf v 1 0 none)
    let a := side 0 q.descA q.viewA
    let bits (bit : Nat) (d : BitVec 256) (v : Word) : Option MulOp :=
      if !sparse then none
      else if xf.getLsbD bit then some (.mem (memDesc (d.extractLsb' 128 128)))
      else some (.tile { viewOf v 1 0 none with cols := a.cols })
    let b := side 1 q.descB q.viewB
    let da : BitVec 32 := q.fmt.setWidth 32
    let db : BitVec 32 := q.fmt.extractLsb' 32 32
    (mulClass a.etype b.etype q.fmt).map fun cl =>
      { cl := cl, a := a, b := b, pa := pieceA q.rank, pb := pieceB q.rank, bma := bits 0 q.descA q.bmA,
        bmb := bits 1 q.descB q.bmB, scaleA := a.etype = 0xE && fld da 12 11 ≠ 0,
        scaleB := b.etype = 0xE && fld db 12 11 ≠ 0, blkA := blockOf da, blkB := blockOf db,
        strict := q.fmt.getLsbD 10 || q.fmt.getLsbD 42, q := a.etype = 0xE }

/-- The bitmap strings of an MSPB operand as packed numbers. -/
def State.bitRows (s : State) (c : Nat) (q : MillCmd) (x : Option MulOp) (p : Nat) : Option (List Nat) :=
  x.map fun y => s.mulRows c q y 1 p

/-- Whether bit k of a string is set, or there is no bitmap: the element is present (R274). -/
def bitOn (b : Option (List Nat)) (i k : Nat) : Bool := match b with | none => true | some r => (r.getD i 0).testBit k

/-- The first forbidden scale that a command would consume (R266, 19 R445): buffer, line, word and value. `ba` and `bb`: the
bitmaps of an MSPB, which reads no block whose bits are all clear (R101, R274). -/
def Mul.scaleFault (u : Mul) (m : Mill) (ba bb : Option (List Nat)) : Option (Nat × Nat × Nat × BitVec 32) :=
  let look' (buf : Nat) (on : Bool) (b : ScaleBuf) (lines blk : Nat) (bits : Option (List Nat)) :
      Option (Nat × Nat × Nat × BitVec 32) :=
    if !on then none
    else
      (List.range lines).findSome? fun l =>
        ((List.range ((u.a.cols + blk - 1) / blk)).find? fun w =>
          badScale (b.word l w) && (List.range (min blk (u.a.cols - blk * w))).any fun j => bitOn bits l (blk * w + j)).map
          fun w => (buf, l, w, b.word l w)
  match look' 0 u.scaleA m.scaleA u.a.rows u.blkA ba with
  | some f => some f
  | none => look' 1 u.scaleB m.scaleB u.b.cols u.blkB bb

/-- The scale of an element: line and block of the word, 1.0 without one (R266). -/
def scaleOf (on : Bool) (b : ScaleBuf) (blk line k : Nat) : Val :=
  if on then scaleVal (b.word line (k / blk)) else .fin false 1 0

/-- A value that is not finite. -/
def Val.special : Val → Bool
  | .fin _ _ _ => false
  | _ => true

/-- A NaN code of a free narrow format is not a signalling one (04 R96). -/
def quiet (q : Bool) (v : Val) : Val := match q, v with | true, .nan _ => .nan false | _, v => v

/-- The products of one group with the flags raised in forming them (R109, R111): `f` answers the product of a k, or
whether strict-zero adds a NaN there. -/
def groupList (f : Nat → Option (Val × Flags)) (ks : List Nat) : List Val × Flags :=
  ks.foldl (fun acc k => match f k with
    | some (v, fl) => (acc.1 ++ [v], acc.2 ||| fl)
    | none => acc) ([], 0)

/-- The integer that a sum of integer products is. -/
def Val.toUnit : Val → Int
  | .fin n m e => if n then -(toUnits m e 0 : Int) else toUnits m e 0
  | _ => 0

/-- One accumulation of R110: the accumulator's code, a group's products. -/
def MulClass.accumulate (cl : MulClass) (mode : Mode) (acc : Nat) (ps : List Val) : Nat × Flags :=
  if ps.isEmpty then (acc, 0)
  else if cl.f64 then Fmt.f64.finish mode (addVal mode (Fmt.f64.decode acc) (ps.headD (.fin false 0 0)))
  else if cl.int then
    let old := (BitVec.ofNat 32 acc).toInt
    let (n, sat) := saturate true 32 (old + (groupSum 0 ps).1.toUnit)
    ((BitVec.ofInt 32 n).toNat, raise fSat sat)
  else
    let (g, fg) := Fmt.f32.finish mode (groupSum cl.win ps)
    let (r, fr) := Fmt.f32.finish mode (addVal mode (Fmt.f32.decode acc) (Fmt.f32.decode g))
    (r, fg ||| fr)

/-- The groups of R110: 0 to K − 1 cut into lists of G. -/
def groupsOf (g k : Nat) : List (List Nat) :=
  (List.range ((k + g - 1) / g)).map fun i => (List.range (min g (k - g * i))).map (g * i + ·)

/-- Element (i, j) of a command: the code that its accumulator takes, with the flags. -/
def Mul.element (u : Mul) (mode : Mode) (prod : Nat → Option (Val × Flags)) (acc : Nat) : Nat × Flags :=
  (groupsOf u.cl.group u.a.cols).foldl (fun st ks =>
    let (ps, fl) := groupList prod ks
    let (r, fr) := u.cl.accumulate mode st.1 ps
    (r, st.2 ||| fl ||| fr)) (acc, 0)

/-- The effect of an MMUL or MSPB on its mill, with its flags (R296). -/
def State.mulEffect (s : State) (c : Nat) (q : MillCmd) (u : Mul) : Mill × Flags :=
  let m := (s.core c).mill
  let wa := u.cl.fa.width
  let wb := u.cl.fb.width
  let ra := s.mulRows c q u.a wa u.pa
  let rb := s.mulRows c q u.b wb u.pb
  let ba := s.bitRows c q u.bma u.pa
  let bb := s.bitRows c q u.bmb u.pb
  let product (i j k : Nat) : Option (Val × Flags) :=
    let x := quiet u.q (u.cl.fa.decode (elemAt ra wa i k))
    let y := quiet u.q (u.cl.fb.decode (elemAt rb wb k j))
    match bitOn ba i k, bitOn bb j k with
    | true, true =>
      let (p, fl) := mulVal x y
      let sc := (mulVal (scaleOf u.scaleA m.scaleA u.blkA i k) (scaleOf u.scaleB m.scaleB u.blkB j k)).1
      some ((mulVal p sc).1, fl)
    | true, false => if u.strict && x.special then some (.nan false, fNv) else none
    | false, true => if u.strict && y.special then some (.nan false, fNv) else none
    | false, false => none
  let esz := if u.cl.f64 then 8 else 4
  let (r0, c0) := originOf (viewOf q.viewD 2 0 none) esz
  let cells := (List.range u.a.rows).flatMap fun i => (List.range u.b.cols).map fun j => (i, j)
  let r := cells.foldl (fun (st : Map Row × Flags) (ij : Nat × Nat) =>
    let at' := 384 * (r0 + ij.1) + esz * (c0 + ij.2)
    let (v, fl) := u.element q.rm.toNat (product ij.1 ij.2) (mapRead st.1 at' esz)
    (mapWrite st.1 at' esz v, st.2 ||| fl)) (m.work, 0)
  (m.setWork r.1, r.2)

/-! ### MSCL (R298) -/

/-- The words of a memory descriptor of FP32 elements at a piece offset, put into a scale buffer. -/
def State.loadScales (s : State) (c k : Nat) (b : ScaleBuf) (d : MemDesc) (p : Nat) : ScaleBuf :=
  (List.range d.rows).foldl (fun b l =>
    let row := s.memRow c k (d.chunks 32 p l)
    (List.range d.cols).foldl (fun b w =>
      { b with words := put b.words (64 * l + w) (BitVec.ofNat 32 (row >>> (32 * w))) }) b) b

/-! ### JOIN (R277 to R281, R301) -/

/-- An entry of a fiber: k, c and v. -/
structure FEntry where
  k : Nat
  c : Nat
  v : BitVec 32
  deriving DecidableEq, Repr

/-- An entry read from a number. -/
def fentry (x : BitVec 128) : FEntry := { k := fld x 119 96, c := fld x 87 64, v := x.setWidth 32 }

/-- The entries of a fiber as they lie in memory. -/
def State.fiber (s : State) (c k : Nat) (d : BitVec 128) : List FEntry :=
  let (base, n) := fiberDesc d
  (List.range n).map fun j =>
    fentry (BitVec.ofNat 128 ((s.millPa c k (base + 16 * j)).elim 0 fun pa => ofBytes (memRead s.mem pa 16)))

/-- The entries before the first offending one, and that one's k (R277, R300). -/
def cutFiber : Option FEntry → List FEntry → List FEntry × Option Nat
  | _, [] => ([], none)
  | p, e :: r =>
    let lower : Bool := match p with | some q => e.k < q.k || (e.k = q.k && e.c < q.c) | none => false
    if lower || e.c = 0xFFFFFF then ([], some e.k)
    else let (l, o) := cutFiber (some e) r; (e :: l, o)

/-- Home bucket of a key (R278). -/
def bucketOf (i j : Nat) : Nat := ((i * 0x9E37) ^^^ j) % 2 ^ 24 % 768

/-- Bank offsets of the probe window of a key (R279). -/
def windowOf (i j : Nat) : List Nat :=
  (List.range 4).flatMap fun b => (List.range 4).map fun t => 48 * ((bucketOf i j + b) % 768) + 12 * t

/-- A table entry (R278): key, valid, value. -/
def entryKey (x : Nat) : Nat × Nat := (x / 2 ^ 72 % 2 ^ 24, x / 2 ^ 48 % 2 ^ 24)
def entryValid (x : Nat) : Bool := x.testBit 32

/-- What a JOIN has made so far: the table, JSTAT, the spilled entries by number, and the flags. -/
structure JoinAcc where
  bank : Map Row
  order : Bool
  lost : Bool
  spill : Bool
  marker : Bool
  spilled : Nat
  out : List (Nat × Nat)
  fl : Flags

/-- A product with its key applied (R279, R280, R112); `cap` is the capacity of the spill stream, below which a spill is dropped too
(log entry 120). -/
def JoinAcc.apply (t : JoinAcc) (cap i j : Nat) (p : Val) (fl : Flags) : JoinAcc :=
  let w := windowOf i j
  let at' (o : Nat) : Nat := mapRead t.bank o 12
  match w.find? fun o => entryValid (at' o) && entryKey (at' o) = (i, j) with
  | some o =>
    let (r, f) := Fmt.f32.finish 1 (addVal 1 (Fmt.f32.decode (at' o % 2 ^ 32)) p)
    { t with bank := mapWrite t.bank o 4 r, fl := t.fl ||| fl ||| f }
  | none =>
    let (r, f) := Fmt.f32.finish 1 (p, 0)
    match w.find? fun o => !entryValid (at' o) with
    | some o => { t with bank := mapWrite t.bank o 12 (r + 2 ^ 32 + j * 2 ^ 48 + i * 2 ^ 72), fl := t.fl ||| fl ||| f }
    | none =>
      let t := { t with spill := true, fl := t.fl ||| fl ||| f }
      if cap ≤ t.spilled then { t with lost := true }
      else { t with out := t.out ++ [(t.spilled, r + j * 2 ^ 64 + i * 2 ^ 88)], spilled := t.spilled + 1 }

/-- JSTAT (R281). -/
def JoinAcc.jstat (t : JoinAcc) : Word :=
  BitVec.ofNat 64 ((if t.order then 2 ^ 63 else 0) + (if t.lost then 2 ^ 62 else 0) + (if t.spill then 2 ^ 61 else 0)
    + (if t.marker then 2 ^ 60 else 0) + t.spilled % 2 ^ 32)

/-- A JOIN over two fibers (R277, R301). Of the strict-zero markers of R112, those of A's unmatched entries are inserted before
those of B's: the spec gives no order (DESIGN CHOICE, log entry 40). A marker that spills or is dropped counts as inserted (log entry
122). -/
def joinRun (m : Mill) (strict : Bool) (cap : Nat) (fa fb : List FEntry) : JoinAcc :=
  let (a, ka) := cutFiber none fa
  let (b, kb) := cutFiber none fb
  let ke := lowest (ka.toList ++ kb.toList)
  let below (l : List FEntry) : List FEntry := match ke with | some k => l.filter fun e => e.k < k | none => l
  let a := below a
  let b := below b
  let t : JoinAcc :=
    { bank := m.work, order := m.jstat.getLsbD 63 || ke.isSome, lost := m.jstat.getLsbD 62, spill := m.jstat.getLsbD 61,
      marker := m.jstat.getLsbD 60, spilled := fld m.jstat 31 0, out := [], fl := 0 }
  let t := a.foldl (fun t x => (b.filter fun y => y.k = x.k).foldl (fun t y =>
    let (p, fl) := mulVal (Fmt.f32.decode x.v.toNat) (Fmt.f32.decode y.v.toNat)
    t.apply cap x.c y.c p fl) t) t
  if !strict then t
  else
    let loose (l o : List FEntry) : List FEntry :=
      l.filter fun x => (Fmt.f32.decode x.v.toNat).special && !(o.any fun y => y.k = x.k)
    let t := (loose a b).foldl (fun t x => { t.apply cap x.c 0xFFFFFF (.nan false) fNv with marker := true }) t
    (loose b a).foldl (fun t y => { t.apply cap 0xFFFFFF y.c (.nan false) fNv with marker := true }) t

/-! ### Writes of engines -/

/-- Bytes of one line written at a home: on a page of device type, which has no zero lines, 16 bytes at a time (05 R137). -/
def State.linePut (s : State) (pa : Nat) (bs : List Byte) (device : Bool) : State :=
  if device && bs.length = 64 then
    (List.range 4).foldl (fun t i => t.homePut (pa + 16 * i) (offsets ((bs.drop (16 * i)).take 16))) s
  else s.homePut pa (offsets bs)

/-- Bytes written at a home of global memory for a hamlet, whose copies of them are invalidated or take them (R162). A CXL port
that does not complete the write has lost it (20 R460). -/
def State.globalPut (s : State) (c pa : Nat) (bs : List Byte) (device : Bool) : State :=
  let h := hamOf c
  let t := (s.noteUnbacked c pa).giveLine h (pa / 64 * 64)
  if t.cxlStuck (pa / 64 * 64) then t.cxlAsk (pa / 64 * 64) true (t.seqOf c)
  else (t.linePut pa bs device).refresh h pa bs.length

/-- Bytes written by an engine at their home, with their full bits (R269, 05 R129). -/
def State.engineWrite (s : State) (pa n v : Nat) : State := (s.homePut pa (offsets (bytesOf n v))).fillWords pa n

/-! ### JDRAIN (R282 to R285, R302) -/

/-- A list of numbers with one put at its place by an order, after its equals. -/
def insertBy {α : Type} (le : α → α → Bool) (x : α) : List α → List α
  | [] => [x]
  | y :: r => if le y x then y :: insertBy le x r else x :: y :: r

/-- The selected entries of a table in the order of R283: i, j and value. -/
def drainList (bank : Map Row) (row0 nr : Nat) : List (Nat × Nat × Nat) :=
  let all := (List.range 3072).filterMap fun n =>
    let x := mapRead bank (12 * n) 12
    let (i, j) := entryKey x
    if entryValid x && ((row0 ≤ i && i < row0 + nr) || i = 0xFFFFFF) then some (i, j, x % 2 ^ 32) else none
  all.foldl (fun l x => insertBy (fun y z => y.1 < z.1 || (y.1 = z.1 && y.2.1 ≤ z.2.1)) x l) []

/-- One write of a drain: array (0 vals, 1 cols, 2 rptr), position, address, value. -/
structure DrainWrite where
  arr : Nat
  pos : Nat
  va : Word
  val : Nat
  deriving DecidableEq, Repr

/-- DRAINPOS (R284). -/
def drainPos (state phase entry row : Nat) (desc : Word) : Word :=
  BitVec.ofNat 64 (state * 2 ^ 62 + phase * 2 ^ 61 + entry * 2 ^ 44 + row * 2 ^ 16 + desc.toNat % 2 ^ 16)

/-- The writes of a drain from a position on (R283, R302). -/
def drainWrites (es : List (Nat × Nat × Nat)) (d : BitVec 256) (phase entry row : Nat) : List DrainWrite :=
  let vals : Word := d.extractLsb' 0 64
  let cols : Word := d.extractLsb' 64 64
  let rptr : Word := d.extractLsb' 128 64
  let row0 := fld d 215 192
  let nr := fld d 239 216
  let four (n : Nat) : Word := BitVec.ofNat 64 (4 * n)
  let first := if phase = 0 then
      (es.zipIdx.filter fun e => entry ≤ e.2).flatMap fun e =>
        [({ arr := 0, pos := e.2, va := vals + four e.2, val := e.1.2.2 } : DrainWrite),
         { arr := 1, pos := e.2, va := cols + four e.2, val := e.1.2.1 }]
    else []
  let from' := if phase = 0 then 0 else row
  first ++ (List.range (nr + 2 - from')).map fun i =>
    let r := from' + i
    { arr := 2, pos := r, va := rptr + four r,
      val := if nr < r then es.length else (es.filter fun e => e.1 < row0 + r).length }

/-- The translation outcome that failed a write (R447): 0 absent, 1 pager write, 2 permission, 3 malformed. -/
def State.outcomeOf (s : State) (c : Nat) (root va : Word) (t : Trouble) : Nat :=
  match t with
  | .trap 0x05 _ =>
    if canonical va && !localWindow va then
      match s.translateLeaf c root (va.toNat % 2 ^ 57) true with
      | .error .malformed => 3
      | _ => 2
    else 2
  | t => t.outcome

/-- One drain write, under the table and the privilege of its command (R282; log entry 11), home-applied (R269), or its failing
outcome. -/
def State.drainWrite (s : State) (c : Nat) (q : MillCmd) (w : DrainWrite) : Except Nat State :=
  match s.resolveFor c q.ctx q.root q.priv w.va .write with
  | .error t => .error (s.outcomeOf c q.root w.va t)
  | .ok (p, t) =>
    .ok (match p with
      | .near pa | .far pa _ => t.engineWrite pa 4 w.val
      | .window st pa d => (t.windowHomePut (hamOf c) st pa d (offsets (bytesOf 4 w.val))).fillWords st 4
      | .global pa device => t.globalPut c pa (bytesOf 4 w.val) device
      | .foreign pk pa dev =>
        let a := t.curCore
        let b := t.curCtx
        ((t.as c q.ctx).send pk 0 false (.store pa (offsets (bytesOf 4 w.val)) true) dev).1.as a b)

/-- A drain write must wait: its home is in a fenced hamlet, which answers nothing (17 R415). -/
def State.drainMute (s : State) (c : Nat) (q : MillCmd) (w : DrainWrite) : Bool :=
  match s.resolveFor c q.ctx q.root q.priv w.va .write with
  | .ok (.far pa _, t) => t.fencedAt pa
  | _ => false

/-- The writes of a drain performed in order, up to the first that fails: that one and its outcome. -/
def State.drainAll (s : State) (c : Nat) (q : MillCmd) : List DrainWrite → State × Option (DrainWrite × Nat)
  | [] => (s, none)
  | w :: r =>
    match s.drainWrite c q w with
    | .ok t => t.drainAll c q r
    | .error e => (s, some (w, e))

/-- DRAINPOS of a core. -/
def State.setDrain (s : State) (c : Nat) (w : Word) : State := s.setMill c { (s.core c).mill with drainpos := w }

/-- DRAINPOS once a drain is current (R302): running, from entry 0 or from where the last one stopped; a `.resume` with nothing to
write, and a command of another kind, leave it. -/
def MillCmd.beginPos (q : MillCmd) (old : Word) : Word :=
  match q.instr with
  | .jdrain _ => drainPos 1 0 0 0 q.viewD
  | .jdrainResume _ =>
    if fld old 63 62 = 0 || fld old 63 62 = 3 then old else drainPos 1 (fld old 61 61) (fld old 55 44) (fld old 40 16) q.viewD
  | _ => old

/-- What a drain comes to when its turn comes: it has nothing to write; it waits for writes that are on their way; a write fails,
with the pending trap's TRAPINFO; or it is done. -/
inductive Drained where
  | nothing
  | waits (s : State) (q : MillCmd)
  | fails (s : State) (info : Word)
  | done (s : State)

/-- The numbers of the messages that have been sent since a running number. -/
def State.sentSince (s : State) (n : Nat) : List Nat := (s.flight.filter fun m => n < m.id).map Msg.id

/-- One phase of a drain performed (R283, R302), then `k`: a failing write stops it at its position, and messages on their way are
waited for, at `next` (R269, R285). -/
def State.drainPhase (s : State) (c : Nat) (q : MillCmd) (entries : Nat) (ws : List DrainWrite) (next : Word) (k : State → Drained) :
    Drained :=
  if ws.any (s.drainMute c q) then .waits s q
  else
    let (t, r) := s.drainAll c q ws
    let out := t.sentSince s.seqno
    match r with
    | some (w, e) =>
      let t := t.noteWalk c q.root w.va
      let phase := if w.arr = 2 then 1 else 0
      let pos := if phase = 0 then drainPos 2 0 w.pos 0 q.viewD else drainPos 2 1 entries w.pos q.viewD
      let info := BitVec.ofNat 64 (w.arr * 2 ^ 61 + phase * 2 ^ 60 + e % 8 * 2 ^ 57 + w.va.toNat % 2 ^ 57)
      if out.isEmpty then .fails (t.setDrain c pos) info else .waits t { q with out := out, stop := some (pos, info) }
    | none => if out.isEmpty then k t else .waits (t.setDrain c next) { q with out := out }

/-- A drain that is current (R302): values and columns, then, once these are performed (R283), row pointers. DRAINPOS then holds
state 3, its row being open. -/
def State.drainRun (s : State) (c : Nat) (q : MillCmd) : Drained :=
  let pos := (s.core c).mill.drainpos
  if fld pos 63 62 ≠ 1 then .nothing
  else if s.flight.any fun m => q.out.contains m.id then .waits s q
  else
    match q.stop with
    | some (p, info) => .fails (s.setDrain c p) info
    | none =>
      let nr := fld q.descD 239 216
      let es := drainList (s.core c).mill.work (fld q.descD 215 192) nr
      let ws := drainWrites es q.descD (fld pos 61 61) (fld pos 55 44) (fld pos 40 16)
      let rows (t : State) : Drained :=
        t.drainPhase c q es.length (ws.filter fun w => w.arr = 2) (drainPos 1 1 es.length (nr + 2) q.viewD) fun u =>
          .done (({ u with free := u.free + 1 } : State).setDrain c
            (drainPos 3 1 es.length ((Config.freeWord u.free).toNat % (nr + 2)) q.viewD))
      if fld pos 61 61 = 0 then
        s.drainPhase c q es.length (ws.filter fun w => w.arr ≠ 2) (drainPos 1 1 es.length 0 q.viewD) rows
      else rows s

/-! ### Current and complete (R267, R291) -/

/-- The listed line that a command would read (19 R450). -/
def State.millBad (s : State) (c : Nat) (q : MillCmd) : Option Nat :=
  let fib (d : BitVec 256) : Option Nat :=
    let f := s.fiber c q.ctx (d.setWidth 128)
    let n := (cutFiber none f).1.length
    let base := (fiberDesc (d.setWidth 128)).1
    s.badOf c q.ctx ((List.range (min f.length (n + 1))).map fun j => base + 16 * j)
  match q.instr with
  | .mmul _ _ | .mspb _ _ =>
    match q.mul with
    | none => none
    | some u =>
      let all (_ _ : Nat) : Bool := true
      let ba := s.bitRows c q u.bma u.pa
      let bb := s.bitRows c q u.bmb u.pb
      ([u.bma.bind fun x => s.mulBad c q x 1 u.pa all, u.bmb.bind fun x => s.mulBad c q x 1 u.pb all,
        s.mulBad c q u.a u.cl.fa.width u.pa (bitOn ba), s.mulBad c q u.b u.cl.fb.width u.pb fun k j => bitOn bb j k].filterMap
          id).head?
  | .mscl _ b => s.badOf c q.ctx ((memDesc (q.descA.setWidth 128)).all 32 (if b then pieceB q.rank else pieceA q.rank))
  | .join _ => match fib q.descA with | some l => some l | none => fib q.descB
  | _ => none

/-- The command at the head of a mill's queue leaves it; it counts as received (03 R90), and the next one may become
current. -/
def State.popMill (s : State) (c : Nat) : State :=
  let m := (s.core c).mill
  let t := (s.setMill c { m with queue := m.queue.drop 1 }).received (hamOf c)
  if 1 < m.queue.length then t.owe (.millCommandCurrent (Fin.ofNat 2048 c)) else t

/-- Whether every earlier access of a context is performed (R269): no message of it is on its way to a home, and no store
of it waits to replay. -/
def State.performed (s : State) (c k : Nat) : Bool :=
  !(s.flight.any fun m => m.core = c && m.ctx = k && !m.applied)
  && (s.core c).replay.all fun r => r.ctx ≠ k || r.refused.isSome

/-- A command becomes current (R266, R291): it starts, or it is discarded. -/
def State.millCurrent (s : State) (c : CoreId) : State :=
  let m := (s.core c.val).mill
  match m.queue with
  | [] => s
  | q :: r =>
    if q.started then s
    else if !s.performed c.val q.ctx then s.owe (.millCommandCurrent c)
    else if m.pend ≠ 0 then
      (s.setMill c.val { m with discarded := if m.discarded = 7 then 7 else m.discarded + 1 }).popMill c.val
    else
      match (match q.instr with
        | .mmul _ _ | .mspb _ _ => q.mul.bind fun u => u.scaleFault m (s.bitRows c.val q u.bma u.pa) (s.bitRows c.val q u.bmb u.pb)
        | _ => none) with
      | some (buf, l, w, x) =>
        (s.setMill c.val { m with
          pend := 0x06, discarded := 1,
          pendinfo := BitVec.ofNat 64 (buf * 2 ^ 45 + l * 2 ^ 38 + w * 2 ^ 32 + x.toNat) }).popMill c.val
      | none =>
        (s.setMill c.val { m with queue := { q with started := true } :: r, drainpos := q.beginPos m.drainpos }).owe
          (.millCommandComplete c)

def execMillCommandCurrent (c : CoreId) (s : State) : Host.Outcome State Fault Refusal := .next (s.millCurrent c)

/-- Flags ORed into a context's FPSTATUS (04 R106). -/
def State.orFlags (s : State) (c k : Nat) (fl : Flags) : State :=
  let x := s.ctx c k
  s.setCtx c k { x with fpstatus := x.fpstatus ||| fl.setWidth 64 }

/-- The effect of a command other than a drain. A JOIN that has dropped every product that it spilled leaves `joinspill` (log entry
121). -/
def State.millEffect (s : State) (c : Nat) (q : MillCmd) : State :=
  let m := (s.core c).mill
  match q.instr with
  | .mmul _ _ | .mspb _ _ =>
    match q.mul with
    | none => s
    | some u => let (m', fl) := s.mulEffect c q u; (s.setMill c m').orFlags c q.ctx fl
  | .mscl _ b =>
    let raw : BitVec 128 := q.descA.setWidth 128
    let p := if b then pieceB q.rank else pieceA q.rank
    let load (x : ScaleBuf) : ScaleBuf := s.loadScales c q.ctx x (memDesc raw) p
    s.setMill c (if b then { m with scaleB := load m.scaleB, recB := raw } else { m with scaleA := load m.scaleA, recA := raw })
  | .join _ =>
    let d : BitVec 128 := q.descD.setWidth 128
    let t := joinRun m (q.fmt.getLsbD 10 || q.fmt.getLsbD 42) (fiberDesc d).2 (s.fiber c q.ctx (q.descA.setWidth 128))
      (s.fiber c q.ctx (q.descB.setWidth 128))
    let s := s.setMill c { m.setWork t.bank with jstat := t.jstat }
    let s := t.out.foldl (fun u (n, v) => match u.millPa c q.ctx ((fiberDesc d).1 + 16 * n) with
      | some pa => u.engineWrite pa 16 v
      | none => u) s
    let s := if t.out.isEmpty then s else s.mark (hamOf c) fun x => { x with joinspill := true }
    s.orFlags c q.ctx t.fl
  | .aswap _ => s.setMill c { m with vis1 := !m.vis1 }
  | .azero _ => s.setMill c { m.setWork [] with jstat := 0, drainpos := 0 }
  | .azeroVis _ => s.setMill c (if m.vis1 then { m with bank1 := [] } else { m with bank0 := [] })
  | _ => s

/-- The command at the head of a mill's queue replaced. -/
def State.setCmd (s : State) (c : Nat) (q : MillCmd) : State :=
  let m := (s.core c).mill
  s.setMill c { m with queue := q :: m.queue.drop 1 }

/-- A command completes (R267): with its effect, or, where it reads a listed line, with none and its owner stopped (19
R450). A drain waits for its writes that are on their way, and one whose next write fails is left to be interrupted. -/
def State.millComplete (s : State) (c : CoreId) : State :=
  match (s.core c.val).mill.queue with
  | [] => s
  | q :: _ =>
    if !q.started then s
    else
      match s.millBad c.val q with
      | some l =>
        (s.popMill c.val).storageTrap c.val q.ctx (s.badInfo l)
      | none =>
        match q.instr with
        | .jdrain _ | .jdrainResume _ =>
          match s.drainRun c.val q with
          | .nothing => s.popMill c.val
          | .done t => t.popMill c.val
          | .waits t q' => (t.setCmd c.val q').owe (.millCommandComplete c)
          | .fails _ _ => s.owe (.drainInterrupted c)
        | _ => (s.millEffect c.val q).popMill c.val

def execMillCommandComplete (c : CoreId) (s : State) : Host.Outcome State Fault Refusal := .next (s.millComplete c)

/-- A drain stops at a write that fails (R285): DRAINPOS and the pending trap record it, and the command completes. -/
def State.drainStop (s : State) (c : CoreId) : State :=
  match (s.core c.val).mill.queue with
  | [] => s
  | q :: _ =>
    let drains := match q.instr with | .jdrain _ | .jdrainResume _ => true | _ => false
    if !q.started || !drains then s
    else
      match s.drainRun c.val q with
      | .nothing => s.popMill c.val
      | .done t => t.popMill c.val
      | .waits t q' => (t.setCmd c.val q').owe (.millCommandComplete c)
      | .fails t info =>
        let m := (t.core c.val).mill
        (t.setMill c.val (if m.pend = 0 then { m with pend := 0x0F, pendinfo := info, discarded := 0 } else m)).popMill c.val

def execDrainInterrupted (c : CoreId) (s : State) : Host.Outcome State Fault Refusal := .next (s.drainStop c)

/-! ### The ramp limit (R286) -/

/-- Whether a product command is current. -/
def Mill.multiplying (m : Mill) : Bool :=
  match m.queue with
  | q :: _ => q.started && (match q.instr with | .mmul _ _ | .mspb _ _ | .join _ => true | _ => false)
  | [] => false

def execRampRise (c : CoreId) (s : State) : Host.Outcome State Fault Refusal :=
  let m := (s.core c.val).mill
  .next (if m.multiplying then s.setMill c.val { m with level := min 16 (m.level + 1) } else s)

def execRampFall (c : CoreId) (s : State) : Host.Outcome State Fault Refusal :=
  let m := (s.core c.val).mill
  .next (if m.multiplying then s else s.setMill c.val { m with level := 1 })

end Sys2Proof.Machine
end

