-- ==== Sys2Proof/Machine/Copy.lean ====
section
/-! DEFINITION. Copies, opcodes 0x63 to 0x65 (12 R330 to R336, 06 R162, R163, 18 R429), and the copy engine (19 R434 to
R437). -/

namespace Sys2Proof.Machine

/-! ### Descriptors (R331) -/

def copySrc (d : BitVec 256) : Word := d.extractLsb' 0 64
def copyDst (d : BitVec 256) : Word := d.extractLsb' 64 64
def copyLen (d : BitVec 256) : Nat := fld d 155 128
def copyScode (d : BitVec 256) : BitVec 4 := d.extractLsb' 156 4
def copyWcode (d : BitVec 256) : BitVec 4 := d.extractLsb' 160 4
def copyDcode (d : BitVec 256) : BitVec 4 := d.extractLsb' 164 4
def copyRows (d : BitVec 256) : Nat := fld d 179 168 + 1
def copyQdesc (d : BitVec 256) : BitVec 32 := d.extractLsb' 224 32

/-- A copy whose wire is block-scaled. -/
def copyScaled (d : BitVec 256) : Bool := copyWcode d = 14 && fld (copyQdesc d) 12 11 ≠ 0

/-- Row r of a copy: source and destination addresses. -/
def copyRow (f : CopyForm) (d : BitVec 256) (r : Nat) : Word × Word :=
  if f = .twod then (copySrc d + BitVec.ofNat 64 (r * fld d 201 180), copyDst d + BitVec.ofNat 64 (r * fld d 223 202))
  else (copySrc d, copyDst d)

/-- Number of rows, and destination bytes of a row. -/
def copyCount (f : CopyForm) (d : BitVec 256) : Nat := if f = .twod then copyRows d else 1
def copyDstLen (f : CopyForm) (d : BitVec 256) : Nat :=
  match f with
  | .cvt | .red => copyLen d / codeBytes (copyScode d) * codeBytes (copyDcode d)
  | _ => copyLen d

/-- Whether a descriptor breaks the limits of R331 and R332 (R429). -/
def copyIllegal (f : CopyForm) (d : BitVec 256) : Bool :=
  let sc := copyScode d
  let wc := copyWcode d
  let dc := copyDcode d
  let q := copyQdesc d
  let rows : Bool := fld d 223 168 ≠ 0
  match f with
  | .plain => rows || fld d 167 156 ≠ 0 || q ≠ 0
  | .twod => fld d 167 156 ≠ 0 || q ≠ 0
  | .cvt =>
    rows || !isFloat sc || !isFloat dc || !(isFloat wc || wc = 14)
    || (if wc = 14 then !descValid q else q ≠ 0)
    || copyLen d % codeBytes sc ≠ 0
    || (copyScaled d && copyLen d / codeBytes sc % blockOf q ≠ 0)
  | .red =>
    rows || q ≠ 0 || sc ≠ dc || !(dc = 3 || dc = 4 || dc = 11 || dc = 12)
    || !(wc = 0 || (dc = 11 && (wc = 9 || wc = 10)))
    || copyLen d % codeBytes sc ≠ 0

/-- The address that breaks the alignment of `.cvt` and `.red` (R332). -/
def copyMisaligned (f : CopyForm) (d : BitVec 256) : Option Word :=
  match f with
  | .cvt | .red =>
    if (copySrc d).toNat % codeBytes (copyScode d) ≠ 0 then some (copySrc d)
    else if (copyDst d).toNat % codeBytes (copyDcode d) ≠ 0 then some (copyDst d)
    else none
  | _ => none

/-! ### Addresses that trap at issue (R429) -/

/-- The cause that a byte raises at issue: it breaks R135, or the local windows refuse it. Channel buffers do not trap at issue. -/
def State.byteFault (s : State) (va : Word) : Option (BitVec 6) :=
  if !canonical va then some 0x04
  else if localWindow va then
    match s.decodeLocal s.curCore s.curCtx s.me.priv va with
    | .error (.trap c _) => some c
    | _ => none
  else none

/-- Addresses at which what a byte raises may change. -/
def State.cuts (s : State) : List Word :=
  let z := s.slices (hamOf s.curCore)
  ([0, 0x100000, 0x200000, 0x240000, 0x300000, 0x300000 + z.1, 0x310000, 0x310000 + z.2].map fun b =>
    (BitVec.ofNat 64 (0x00FFFF0000000000 + b) : Word)) ++ [0x0100000000000000, 0xFF00000000000000]

/-- The first byte of a range that faults at issue, with its cause. -/
def State.rangeFault (s : State) (va : Word) (n : Nat) : Option (BitVec 6 × Word) :=
  let at' (i : Nat) : Word := va + BitVec.ofNat 64 i
  let ds := 0 :: (s.cuts.map fun c => (c - va).toNat).filter (· < n)
  match lowest (ds.filter fun i => (s.byteFault (at' i)).isSome) with
  | some i => (s.byteFault (at' i)).map fun c => (c, at' i)
  | none => none

/-- The fault of a copy's addresses (R429), Translation Absent first (17 R409). -/
def State.copyFaultOf (s : State) (f : CopyForm) (d : BitVec 256) : Option (BitVec 6 × Word) :=
  let fs := (List.range (copyCount f d)).flatMap fun r =>
    [s.rangeFault (copyRow f d r).1 (copyLen d), s.rangeFault (copyRow f d r).2 (copyDstLen f d)].filterMap id
  match fs.find? fun x => x.1 = 0x04 with
  | some x => some x
  | none => fs.head?

/-! ### Issue (R334, 06 R162) -/

/-- A range cut at 4 KiB pages. -/
def pageSegs (va : Word) (n : Nat) : List (Word × Nat) :=
  let o := va.toNat % 4096
  (List.range ((o + n + 4095) / 4096)).map fun i =>
    let lo := if i = 0 then 0 else 4096 * i - o
    (va + BitVec.ofNat 64 lo, min n (4096 * (i + 1) - o) - lo)

/-- The hamlet's dirty bytes of the lines that overlap a physical range are written back, from L1 and from stash windows. -/
def State.writeBackRange (s : State) (pa n : Nat) : State :=
  let h := hamOf s.curCore
  let hit (l : Nat) : Bool := pa < l + 64 && l < pa + n
  let s := ((s.ham h).lines.filter fun l => l.2.dirty ≠ 0 && hit l.1).foldl (fun t l => t.writeBack h l.1) s
  let back (key : Nat) : Bool :=
    match winAt (s.ham h).windows (0x3D0000000000 + 64 * key) with
    | some d => ((s.windowHome h d (0x3D0000000000 + 64 * key)).map fun a => hit (a / 64 * 64)).getD false
    | none => false
  ((s.ham h).winLines.filter fun l => l.2.dirty ≠ 0 && back l.1).foldl (fun t l => t.writeBackWin h l.1) s

/-- The hamlet's dirty bytes that overlap a copy's source are written back (R162). -/
def State.flushSource (s : State) (f : CopyForm) (d : BitVec 256) : State :=
  if (s.myHam.lines.all fun l => l.2.dirty = 0) && s.myHam.winLines.all fun l => l.2.dirty = 0 then s
  else
    ((List.range (copyCount f d)).flatMap fun r => pageSegs (copyRow f d r).1 (copyLen d)).foldl (fun t g =>
      match t.resolve g.1 .read with
      | .ok (.global pa _, _) | .ok (.window _ pa _, _) => t.writeBackRange pa g.2
      | _ => t) s

/-- Every earlier access of the acting context is performed (R162): results returned, posted accesses applied, and no store of
it that is not refused waits in the replay queue. -/
def State.allPerformed (s : State) : Bool :=
  s.me.returned && !s.posting && !s.sending && s.myCore.replay.all fun r => r.ctx ≠ s.curCtx || r.refused.isSome

/-- Bits of a token. -/
def tokBit (k : BitVec 3) : BitVec 8 := 1 <<< k.toNat

/-- A copy that has passed its checks is issued: its token clears, a mark on it is discarded (R437), and the engine begins. A
copy of no bytes has its token set at once. -/
def State.issueCopy (s : State) (o : Ops) (f : CopyForm) (d : BitVec 256) : State :=
  let tok : BitVec 3 := o.d.setWidth 3
  let sc : Scope := match o.ext with | some c => scopeOf c.scope | none => .pkg
  let s := if (find s.me.marks tok.toNat).isSome then s.mark (hamOf s.curCore) Marks.trapped else s
  let x := s.me
  let h := s.myHam
  let s := s.setMe { x with marks := del x.marks tok.toNat, tokScope := put x.tokScope tok.toNat sc }
  let s := s.setMyHam { h with sent := h.sent + 1 }
  if copyLen d = 0 then s.received (hamOf s.curCore)
  else
    let x := s.me
    let s := s.setMe { x with tokens := x.tokens &&& ~~~ tokBit tok }
    let co := s.myCore
    let rm : BitVec 3 := if f = .cvt then BitVec.ofNat 3 (s.modeOf o) else 1
    (s.setMyCore { co with
      copies := co.copies ++ [{ ctx := s.curCtx, tok := tok, desc := d, form := f, scope := sc, rm := rm, root := x.tblroot,
                                priv := x.priv }] }).owe
      (.copyComplete (Fin.ofNat 2048 s.curCore) (Fin.ofNat 5 s.curCtx) tok)

/-- Body of COPY (R331 to R334). -/
def copyBody (o : Ops) (f : CopyForm) (s : State) : Act :=
  let d := BitVec.ofNat 256 (s.rs (scAddr o o.a) 32)
  let some' : Bool := copyLen d ≠ 0
  s.within [{ rsLoc o o.a 32 with storeOnly := true }]
    (if copyIllegal f d then illegal (.copy o f)
     else
       match (if some' then copyMisaligned f d else none), (if some' then s.copyFaultOf f d else none) with
       | some a, _ => .trap 0x03 a
       | none, some (c, a) => .trap c a
       | none, none =>
         if !s.me.tokens.getLsbD (o.d.toNat % 8) || !s.allPerformed then .hold s
         else .done ((s.flushSource f d).issueCopy o f d))

def execCopy (o : Ops) (f : CopyForm) (s : State) := s.run (.copy o f) o (copyBody o f)

/-! ### Tokens (R335, R336) -/

/-- The mask of WAITK. -/
def waitMask (o : Ops) : BitVec 8 :=
  if o.ext.isSome then o.a.setWidth 8 else (o.a.setWidth 6 : BitVec 6).setWidth 8 ||| (o.d.setWidth 8 <<< 6)

/-- Body of WAITK: the tokens of the mask that are set are acquired. -/
def waitkBody (o : Ops) (any : Bool) (s : State) : Act :=
  let m := waitMask o
  let got := m &&& s.me.tokens
  let met : Bool := if any then m = 0 || got ≠ 0 else got = m
  if !met then .hold s
  else
    match s.me.marked got with
    | some (t, info) => .left (s.copyTrap t info)
    | none => .done (s.acquireTokens got)

def execWaitk (o : Ops) (any : Bool) (s : State) := s.run (.waitk o any) o (waitkBody o any)

/-- Body of TOKQ. -/
def tokqBody (o : Ops) (s : State) : Act :=
  s.within [scLoc o o.d] (.done (s.fixed 2 [cellAt (scAddr o o.d) 8 s.me.tokens.toNat]))

def execTokq (o : Ops) (s : State) := s.run (.tokq o) o (tokqBody o)

/-! ### Elements on the wire (12 R330) -/

/-- The format field of a copy's packets. A `.red` copy whose wire code is 0 sends its elements as they are. -/
def copyField (f : CopyForm) (d : BitVec 256) (rm : BitVec 3) : BitVec 48 :=
  wireField (copyScode d) (copyWcode d) (copyDcode d) (if copyWcode d = 14 then copyQdesc d else 0) rm (f = .red)

/-- Numbers of `n` bytes each, from bytes. -/
def chunks (n : Nat) (bs : List Byte) : List Nat :=
  (List.range (bs.length / max n 1)).map fun i => ofBytes ((bs.drop (n * i)).take n)

/-! ### Pieces (R434) -/

/-- The next piece of a copy: what it reads (whole blocks of a scaled wire), what it writes, the source bytes that it moves,
and the element of what is read at which it begins. -/
structure Geo where
  src : Word
  n : Nat
  dst : Word
  m : Nat
  step : Nat
  skip : Nat
  deriving DecidableEq, Repr

/-- The geometry of the piece at a source offset. -/
def copyGeo (f : CopyForm) (d : BitVec 256) (off : Nat) : Geo :=
  let len := copyLen d
  let ws := codeBytes (copyScode d)
  let wd := codeBytes (copyDcode d)
  match f with
  | .cvt | .red =>
    let e := off / ws
    let dst := copyDst d + BitVec.ofNat 64 (e * wd)
    let cnt := min (len / ws - e) ((64 - dst.toNat % 64) / wd)
    let b := if copyScaled d then blockOf (copyQdesc d) else 1
    let e0 := e / b * b
    let e1 := (e + cnt + b - 1) / b * b
    { src := copySrc d + BitVec.ofNat 64 (e0 * ws), n := (e1 - e0) * ws, dst := dst, m := cnt * wd, step := cnt * ws, skip := e - e0 }
  | _ =>
    let i := off % len
    let p := copyRow f d (off / len)
    let dst := p.2 + BitVec.ofNat 64 i
    let k := min (len - i) (64 - dst.toNat % 64)
    { src := p.1 + BitVec.ofNat 64 i, n := k, dst := dst, m := k, step := k, skip := 0 }

/-- The elements of a piece as they travel, from the bytes that it reads (R117): whole blocks are narrowed. -/
def copyWire (f : CopyForm) (d : BitVec 256) (rm : BitVec 3) (g : Geo) (bs : List Byte) : List (Nat × BitVec 32) :=
  let b := if copyScaled d then blockOf (copyQdesc d) else 1
  let xs := chunks (codeBytes (copyScode d)) bs
  let blocks := (List.range ((xs.length + b - 1) / b)).flatMap fun i =>
    narrowBlock (copyField f d rm) ((xs.drop (b * i)).take b)
  (blocks.drop g.skip).take (g.m / codeBytes (copyDcode d))

/-- A range cut at line boundaries: offset and length. -/
def lineParts (va : Word) (n : Nat) : List (Nat × Nat) :=
  let o := va.toNat % 64
  (List.range ((o + n + 63) / 64)).map fun i =>
    let lo := if i = 0 then 0 else 64 * i - o
    (lo, min n (64 * (i + 1) - o) - lo)

/-- Whether a copy that reads a place meets a listed line (19 R450). -/
def State.sourceBad (s : State) (c : Nat) (p : Place) (n : Nat) : Bool :=
  match p with
  | .global pa _ => s.listedLine (pa / 64 * 64)
  | p => (s.placeBad c p n).isSome

/-- Bytes of a place as the copy engine of a core reads them: at their home, or in the storage of a window. -/
def State.engineRead (s : State) (c : Nat) (p : Place) (n : Nat) : List Byte × State :=
  match p with
  | .near pa | .far pa _ => (s.homeRead pa n, s)
  | .global pa _ => (s.homeRead pa n, s.noteUnbacked c pa)
  | .window _ _ _ => s.readPlace c p n false
  | .foreign _ _ _ => (List.replicate n 0, s)

/-- A message of a copy to another package: its number, 0 where that is unreachable. -/
def State.copySend (s : State) (c k : Nat) (pk : BitVec 20) (tagged : Bool) (b : Body) : State × Nat :=
  let (a, b') := (s.curCore, s.curCtx)
  let (t, id) := (s.as c k).send pk 0 tagged b
  (t.as a b', id)

/-- Bytes of one line stored in another package: on a page of device type, which has no zero lines, 16 bytes at a time (05 R137).
The numbers of the messages are answered. -/
def State.farStore (s : State) (c k : Nat) (pk : BitVec 20) (pa : Nat) (bs : List Byte) (device full : Bool) : State × List Nat :=
  let step := if device then 16 else 64
  (List.range ((bs.length + step - 1) / step)).foldl (fun acc i =>
    let (t, id) := acc.1.copySend c k pk false (.store (pa + step * i) (offsets ((bs.drop (step * i)).take step)) full)
    (t, acc.2 ++ [id])) (s, [])

/-- Bytes written by a copy to a place, all in one line: home-applied, the issuing hamlet's copies invalidated, words of
full/empty storage set full (R162, 05 R129). The messages that carry them to another package are answered. -/
def State.copyPut (s : State) (c k : Nat) (p : Place) (bs : List Byte) : State × List Nat :=
  match p with
  | .near pa | .far pa _ => ((s.homePut pa (offsets bs)).fillWords pa bs.length, [])
  | .window st pa d => ((s.windowHomePut (hamOf c) st pa d (offsets bs)).fillWords st bs.length, [])
  | .global pa device => (s.globalPut c pa bs device, [])
  | .foreign pk pa device => s.farStore c k pk pa bs device true

/-- Elements of a copy that reach their destination (R118, R333): of `.cvt` widened and written, of `.red` added, each as one
event; to another package they travel as they are. -/
def State.copyElems (s : State) (c k : Nat) (p : Place) (f : BitVec 48) (xs : List (Nat × BitVec 32)) : State × List Nat :=
  let dc := wireDst f
  let w := codeBytes dc
  let zs := xs.map (widenElem f)
  let (a, b) := (s.curCore, s.curCtx)
  let add (t : State) (pa : Nat) : State :=
    zs.zipIdx.foldl (fun t (z, i) => (t.applyAtomic (pa + w * i) (redFn ((etyOf dc).getD .i64) (BitVec.ofNat 64 z))).2.2) t
  match p with
  | .foreign pk pa _ => let (t, id) := s.copySend c k pk false (.wired pa f xs); (t, [id])
  | p =>
    if !wireAdds f then s.copyPut c k p (zs.flatMap (bytesOf w))
    else
      match p with
      | .near pa | .far pa _ => ((add s pa).fillWords pa (w * xs.length), [])
      | .window st pa _ =>
        ((((add (((s.noteUnbacked c pa).as c k).evictFor p) pa).as a b).refresh (hamOf c) pa (w * xs.length)).fillWords st
          (w * xs.length), [])
      | .global pa _ =>
        (((add (((s.noteUnbacked c pa).as c k).evictFor p) pa).as a b).refresh (hamOf c) pa (w * xs.length), [])
      | .foreign _ _ _ => (s, [])

/-- The other package that a place lies in. -/
def Place.package : Place → Option (BitVec 20)
  | .foreign pk _ _ => some pk
  | _ => none

/-- Source parts resolved for a copy, or the part that fails. -/
def State.copyParts (s : State) (c : Nat) (y : Copy) (g : Geo) : List (Nat × Nat) → List (Nat × Nat × Place) →
    Except (Word × Trouble) (List (Nat × Nat × Place) × State)
  | [], got => .ok (got, s)
  | (o, n) :: r, got =>
    let va := g.src + BitVec.ofNat 64 o
    match s.resolveFor c y.ctx y.root y.priv va .read with
    | .error e => .error (va, e)
    | .ok (p, t) => t.copyParts c y g r (got ++ [(o, n, p)])

/-- What a piece comes to: a fault of its source or destination, a wait for data of another package, or the copy after it. -/
inductive Piece' where
  | fault (dst : Bool) (va : Word) (e : Trouble)
  | wait (s : State) (y : Copy)
  | moved (s : State) (y : Copy)

/-- The offset under which a copy's `fetch` holds what its destination in another package held before. -/
def oldKey : Nat := 2 ^ 40

/-- The messages that bring the parts of a source which lie in other packages, and, where the destination lies in one of these, the
bytes that the piece writes over (R334). -/
def State.askParts (s : State) (c : Nat) (y : Copy) (ps : List (Nat × Nat × Place)) (dst : Place) (m : Nat) : State × Copy :=
  let ask (acc : State × Copy) (off n : Nat) (p : Place) : State × Copy :=
    match p with
    | .foreign pk pa _ =>
      let (t, id) := acc.1.copySend c y.ctx pk true (.load pa n false)
      (t, { acc.2 with fetch := acc.2.fetch ++ [(off, id, none)] })
    | _ => acc
  let r := ps.foldl (fun acc q => ask acc q.1 q.2.1 q.2.2) (s, y)
  if ps.any fun q => q.2.2.package.isSome && q.2.2.package = dst.package then ask r oldKey m dst else r

/-- A name for the address at which the bytes of a place lie, in this package or another. -/
def Place.storage : Place → Nat
  | .near pa | .far pa _ | .global pa _ => pa
  | .window st _ _ => st
  | .foreign pk pa _ => (pk.toNat + 1) * 2 ^ 46 + pa

/-- Bytes from an address on as they stood before the copy wrote over them (R334). -/
def Copy.before (y : Copy) (pa : Nat) (bs : List Byte) : List Byte :=
  bs.zipIdx.map fun (b, i) =>
    match find y.was ((pa + i) / 64) with
    | some (m, r) => if m.getLsbD ((pa + i) % 64) then r.extractLsb' (8 * ((pa + i) % 64)) 8 else b
    | none => b

/-- What a copy is about to write over at an address is kept, but for bytes that it has written before (R334): a chunk of its
source that overlaps its destination is read whole as it stood before. -/
def Copy.keep (y : Copy) (pa : Nat) (now : List Byte) : Copy :=
  let (m, r) := (find y.was (pa / 64)).getD (0, 0)
  let new := (offsets now).filter fun b => !m.getLsbD (pa % 64 + b.1)
  let mask := new.foldl (fun acc (i, _) => acc ||| (1 <<< (pa % 64 + i) : BitVec 64)) m
  { y with was := put y.was (pa / 64) (mask, rowPut r (pa % 64) new) }

/-- The bytes of a source whose remote parts have come. -/
def State.gather (s : State) (c : Nat) (y : Copy) (ps : List (Nat × Nat × Place)) : List Byte × State :=
  ps.foldl (fun acc q =>
    match q.2.2 with
    | .foreign _ _ _ =>
      let d := ((y.fetch.find? fun f => f.1 = q.1).bind fun f => f.2.2).getD 0
      (acc.1 ++ y.before q.2.2.storage (bytesOf q.2.1 d.toNat), acc.2)
    | p =>
      let (bs, t) := acc.2.engineRead c p q.2.1
      (acc.1 ++ y.before p.storage bs, t)) ([], s)

/-- The bytes of a piece's source that an earlier piece has read. -/
def Copy.have' (y : Copy) (src : Word) : List Byte := if (src - y.aheadAt).toNat ≤ y.ahead.length then y.ahead.drop (src - y.aheadAt).toNat else []

/-- Source bytes that a piece reads beside its own: to the end of the chunk of 16 bytes that it ends in, as far as its row goes, so
that no chunk is read in two parts (06 R156, R162). -/
def copyExtra (f : CopyForm) (d : BitVec 256) (off : Nat) (g : Geo) : Nat :=
  let start := match f with | .twod => (copyRow f d (off / copyLen d)).1 | _ => copySrc d
  min ((16 - (g.src.toNat + g.n) % 16) % 16) (copyLen d - ((g.src - start).toNat + g.n))

/-- The destination line of a piece whose source is listed is listed itself, at its home (17 R416). -/
def State.listDest (s : State) (c k : Nat) (p : Place) : State × List Nat :=
  match p with
  | .near pa | .far pa _ | .global pa _ => (s.listLine pa (s.seqOf c) true, [])
  | .window st _ _ => (s.listLine st (s.seqOf c) true, [])
  | .foreign pk pa _ => let (t, id) := s.copySend c k pk false (.listed pa); (t, [id])

/-- The home of a place is a fenced hamlet, which answers nothing (17 R415). -/
def State.placeMute (s : State) : Place → Bool
  | .near pa | .far pa _ => s.fencedAt pa
  | _ => false

/-- A line of a CXL port that an engine's read of a place must wait for (20 R460). -/
def State.engineStuck (s : State) (c : Nat) (p : Place) (n : Nat) : Option Nat :=
  match p with
  | .global pa _ => if s.cxlStuck (pa / 64 * 64) then some (pa / 64 * 64) else none
  | p => s.placeStuck c p n

/-- The next piece of a copy of a core. -/
def State.movePiece (s : State) (c : Nat) (y : Copy) : Piece' :=
  let g := copyGeo y.form y.desc y.off
  let have' := y.have' g.src
  let ask := g.n + copyExtra y.form y.desc y.off g - have'.length
  let from' : Geo := { g with src := g.src + BitVec.ofNat 64 have'.length }
  match s.copyParts c y from' (if ask = 0 then [] else lineParts from'.src ask) [] with
  | .error (va, e) => .fault false va e
  | .ok (ps, t) =>
    match t.resolveFor c y.ctx y.root y.priv g.dst (if y.form = .red then .atomic else .write) with
    | .error e => .fault true g.dst e
    | .ok (p, t) =>
      let far : Bool := ps.any fun q => q.2.2.package.isSome
      if (ps.any fun q => t.placeMute q.2.2) || t.placeMute p then .wait t y
      else
      match (ps.findSome? fun q => t.engineStuck c q.2.2 q.2.1).or (if y.form = .red then t.engineStuck c p g.m else none) with
      | some l => .wait (t.cxlAsk l false 0) y
      | none =>
      if far && y.fetch.isEmpty then let (u, z) := t.askParts c y ps p g.m; .wait u z
      else if y.fetch.any fun f => f.2.1 ≠ 0 && f.2.2 = none then .wait t y
      else
        let next (u : State) (ids : List Nat) (z : Copy) (all : List Byte := []) : Piece' :=
          let to' := (copyGeo z.form z.desc (z.off + g.step)).src
          let z := { z with aheadAt := to', ahead := if (to' - g.src).toNat ≤ all.length then all.drop (to' - g.src).toNat else [] }
          .moved u { z with off := z.off + g.step, fetch := [], spoilt := false, out := z.out ++ ids.filter (· ≠ 0) }
        if y.spoilt || ps.any fun q => t.sourceBad c q.2.2 q.2.1 then let (u, ids) := t.listDest c y.ctx p; next u ids y
        else if y.fetch.any fun f => f.2.1 = 0 then next t [] y
        else
          let (more, u) := t.gather c y ps
          let all := have' ++ more
          let bs := all.take g.n
          let old := match p with
            | .foreign _ _ _ => (y.fetch.find? fun f => f.1 = oldKey).bind fun f => f.2.2.map fun r => bytesOf g.m r.toNat
            | p => some (u.engineRead c p g.m).1
          let z := match old with | some o => y.keep p.storage o | none => y
          let r := match y.form with
            | .plain | .twod => u.copyPut c y.ctx p bs
            | _ => u.copyElems c y.ctx p (copyField y.form y.desc y.rm) (copyWire y.form y.desc y.rm g bs)
          next r.1 r.2 z all

/-! ### The engine's events -/

/-- A core's copy on a token of a context. -/
def State.copyOf (s : State) (c k : Nat) (tok : BitVec 3) : Option Copy :=
  (s.core c).copies.find? fun y => y.ctx = k && y.tok = tok

/-- A copy replaced. -/
def State.setCopy (s : State) (c : Nat) (y : Copy) : State :=
  let co := s.core c
  s.setCore c { co with copies := co.copies.map fun z => if z.ctx = y.ctx && z.tok = y.tok then y else z }

/-- TRAPINFO of Copy Unresolved (R436). -/
def copyInfo (y : Copy) : Word :=
  BitVec.ofNat 64 (y.tok.toNat * 2 ^ 61 + (if y.dst then 2 ^ 60 else 0) + y.outcome % 8 * 2 ^ 57 + y.va.toNat % 2 ^ 57)

/-- A copy has ended: its token is set (06 R163), marked where it ended unresolved (R436). -/
def State.endCopy (s : State) (c : Nat) (y : Copy) : State :=
  let co := s.core c
  let s := s.setCore c { co with copies := co.copies.filter fun z => !(z.ctx = y.ctx && z.tok = y.tok) }
  let x := s.ctx c y.ctx
  let marks := if y.ended then put x.marks y.tok.toNat (copyInfo y) else x.marks
  (s.setCtx c y.ctx { x with tokens := x.tokens ||| tokBit y.tok, marks := marks }).received (hamOf c)

/-- The engine's next act for a copy: a piece, the end once every write is applied, or the stop before the reeve (R434). -/
def State.copyStep (s : State) (c : CoreId) (k : CtxId) (tok : BitVec 3) : State :=
  match s.copyOf c.val k.val tok with
  | none => s
  | some y =>
    let again (t : State) : State := t.oweOnce (.copyComplete c k tok)
    if y.state ≠ .going then s
    else if y.ended || copyLen y.desc * copyCount y.form y.desc ≤ y.off then
      if s.flight.any fun (m : Msg) => y.out.contains m.id then again s else s.endCopy c.val y
    else
      match s.movePiece c.val y with
      | .wait t z | .moved t z => again (t.setCopy c.val z)
      | .fault dst va e =>
        let lv := match e with | .page _ l _ => l | _ => 0
        let s := s.noteWalk c.val y.root va
        (s.setCopy c.val { y with state := .reeve, fetch := [], va := va, dst := dst, outcome := s.outcomeOf c.val y.root va e,
                                  level := lv }).owe (.copyFault c k tok)

def execCopyComplete (c : CoreId) (k : CtxId) (tok : BitVec 3) (s : State) : Host.Outcome State Fault Refusal :=
  .next (s.copyStep c k tok)

/-- A copy-fault message enters the reeve core's inbox (R434). -/
def State.sendCopyFault (s : State) (c : CoreId) (k : CtxId) (tok : BitVec 3) : State :=
  match s.copyOf c.val k.val tok with
  | none => s
  | some y =>
    let r := s.reeve (c.val / 512)
    let waiting : Bool := (List.range 2048).any fun d => (find s.cores d).isSome &&
      ((s.core d).inbox ++ ((s.ctx d 4).run.map fun q => [q]).getD []).any fun q =>
        q.kind = .copyFault tok && q.core = c.val && q.ctx = k.val
    if y.state ≠ .reeve || waiting then s
    else
      let run : Run :=
        { kind := .copyFault tok, pkg := s.pkgid, core := c.val, ctx := k.val, reply := true, msg := 0,
          entry := (s.core r).reevevec, dst := 0, root := y.root,
          payload := rowOfWords [s.corenum c.val, BitVec.ofNat 64 (k.val + tok.toNat * 256), 0x10, y.va,
            BitVec.ofNat 64 (y.outcome % 8 + (if y.dst then 8 else 0)),
            BitVec.ofNat 64 (fld y.root 63 52 + (code scopeList y.scope).toNat * 65536), s.seqOf c.val, BitVec.ofNat 64 y.off] }
      s.deliver r run

def execCopyFault (c : CoreId) (k : CtxId) (tok : BitVec 3) (s : State) : Host.Outcome State Fault Refusal :=
  .next (s.sendCopyFault c k tok)

/-- The resume packet (R435): resume, wait for the page, or end unresolved. While no pager future is free the page waits. -/
def State.resumeCopy (s : State) (c : CoreId) (k : CtxId) (tok : BitVec 3) (word : Word) : State :=
  match s.copyOf c.val k.val tok with
  | none => s
  | some y =>
    if y.state ≠ .reeve then s
    else if word = 0 then (s.setCopy c.val { y with state := .going }).owe (.copyComplete c k tok)
    else if word = 2 && y.outcome ≤ 1 then
      match s.pagerFuture c.val y.root y.va (if y.dst then .write else .read) y.outcome y.level with
      | none => s.owe (.copyResumePacket c k tok word)
      | some (hd, t) => t.setCopy c.val { y with state := .pager hd }
    else (s.setCopy c.val { y with state := .going, ended := true, outcome := 5 }).owe (.copyComplete c k tok)

def execCopyResumePacket (c : CoreId) (k : CtxId) (tok : BitVec 3) (word : Word) (s : State) :
    Host.Outcome State Fault Refusal := .next (s.resumeCopy c k tok word)

end Sys2Proof.Machine
end

