-- ==== Sys2Proof/Machine/Vector.lean ====
section
/-! DEFINITION. Vector memory and lane instructions, opcodes 0x32 to 0x44 (09 R237 to R253, 18 R426). -/

namespace Sys2Proof.Machine

/-! ### Lanes (R237) -/

/-- The row that a view's base names. -/
def State.rowAt (s : State) (v : View) : Row := s.row (v.base / 64)

/-- Lane i of a row of elements of `w` bits. -/
def laneOf (w : Nat) (r : Row) (i : Nat) : Nat := (r.toNat >>> (w * i)) % 2 ^ w

/-- Lane i of a row as an integer. -/
def laneInt (w : Nat) (sg : Bool) (r : Row) (i : Nat) : Int := readInt w sg (BitVec.ofNat 64 (laneOf w r i))

/-- The cell and the flags of the elements, of `w` bits each, that `f` gives for the indices that are active: element i
is written at index `at' i`. -/
def elemCell (row w n : Nat) (act : Word) (at' : Nat → Nat) (f : Nat → Nat × Flags) : Cell × Flags :=
  let r := (List.range n).foldl (fun (acc : Row × Row × Flags) i =>
    if act.getLsbD i then
      let x := f i
      let p := w * at' i
      (acc.1 ||| ones 512 w p, acc.2.1 ||| (BitVec.ofNat 512 (x.1 % 2 ^ w) <<< p), acc.2.2 ||| x.2)
    else acc) (0, 0, 0)
  ({ tgt := .row row, mask := r.1, data := r.2.1 }, r.2.2)

/-- The active lanes of a view written after a latency. -/
def State.putLanes (s : State) (v : View) (w lat : Nat) (act : Word) (f : Nat → Nat × Flags) : Act :=
  let r := elemCell (v.base / 64) w (512 / w) act id f
  .done (s.fixed lat [r.1] r.2)

/-- The body of an instruction whose operands raise no fault; View Bounds of any comes before Mill Ownership of any (17
R409). -/
def orFault (fs : List (Option (BitVec 6 × Word))) (k : Act) : Act :=
  let all := fs.filterMap id
  match all.find? fun f => f.1 = 0x08 with
  | some f => .trap f.1 f.2
  | none => match all with | f :: _ => .trap f.1 f.2 | [] => k

/-- rm is zero (R239). -/
def rmZero (o : Ops) : Bool := match o.ext with | some c => c.rm = 0 | none => true

/-- The decoder's check of rm for an instruction that rounds where E is a float type (R239, R172). -/
def rmFits (o : Ops) (e : BitVec 4) : Bool := rmZero o || !isInt e

/-- The element format of a type code. -/
def fmtOf (e : BitVec 4) : Fmt := fmtOfCode e

/-- A row with the places of the three vector operands of type E, E being the d view's. -/
structure Three where
  d : View
  a : View
  b : View
  w : Nat

/-- The three vector operands of an instruction. -/
def State.three (s : State) (o : Ops) : Three :=
  let d := s.vec o o.d
  { d := d, a := s.vec o o.a, b := s.vec o o.b, w := widthOf d.etype }

/-- Whether a view has the type E; a d view without an element type requires nothing of the others (R238). -/
def Three.fits (t : Three) (v : View) : Bool := v.etype = t.d.etype || widthOf t.d.etype < 8

/-- The faults of three vector operands, E allowed or not (R238). -/
def State.threeFaults (s : State) (t : Three) (ok : Bool) : List (Option (BitVec 6 × Word)) :=
  [s.vecFault t.a (t.fits t.a), s.vecFault t.b (t.fits t.b), s.vecFault t.d ok]

/-- The faults of two vector operands, a and d. -/
def State.twoFaults (s : State) (t : Three) (ok : Bool) : List (Option (BitVec 6 × Word)) :=
  [s.vecFault t.a (t.fits t.a), s.vecFault t.d ok]

/-! ### Lane arithmetic (R244) -/

/-- A lane operation of two operands: float by its exact value, integer by its exact result. -/
def State.lane2 (s : State) (o : Ops) (t : Three) (fl : Mode → Val → Val → Val × Flags) (int : Int → Int → Int) (i : Nat) :
    Nat × Flags :=
  let e := t.d.etype
  let x := laneOf t.w (s.rowAt t.a) i
  let y := laneOf t.w (s.rowAt t.b) i
  if isFloat e then
    let m := s.modeOf o
    (fmtOf e).finish m (fl m ((fmtOf e).decode x) ((fmtOf e).decode y))
  else
    ((int (laneInt t.w (isSigned e) (s.rowAt t.a) i) (laneInt t.w (isSigned e) (s.rowAt t.b) i) % (2 ^ t.w : Nat)).toNat, 0)

/-- Body of VADD. -/
def vaddBody (o : Ops) (sub : Bool) (s : State) : Act :=
  let t := s.three o
  orFault (s.threeFaults t true)
    (s.putLanes t.d t.w 4 (s.lanes o)
      (s.lane2 o t (fun m x y => addVal m x (if sub then y.neg else y)) (fun x y => if sub then x - y else x + y)))

def execVadd (o : Ops) (sub : Bool) (s : State) : Host.Outcome State Fault Refusal :=
  .next (s.performVec (.vadd o sub) o (fun t => rmFits o (t.vec o o.d).etype) (vaddBody o sub))

/-- Body of VMUL. -/
def vmulBody (o : Ops) (s : State) : Act :=
  let t := s.three o
  orFault (s.threeFaults t true)
    (s.putLanes t.d t.w 4 (s.lanes o) (s.lane2 o t (fun _ x y => mulVal x y) (fun x y => x * y)))

def execVmul (o : Ops) (s : State) : Host.Outcome State Fault Refusal :=
  .next (s.performVec (.vmul o) o (fun t => rmFits o (t.vec o o.d).etype) (vmulBody o))

/-- Body of VFMA. -/
def vfmaBody (o : Ops) (f : FmaFn) (s : State) : Act :=
  let t := s.three o
  let g := fmtOf t.d.etype
  let m := s.modeOf o
  let v (w : View) (i : Nat) : Val := g.decode (laneOf t.w (s.rowAt w) i)
  orFault (s.threeFaults t (isFloat t.d.etype))
    (s.putLanes t.d t.w 4 (s.lanes o) fun i => g.finish m (fmaVal m f (v t.a i) (v t.b i) (v t.d i)))

def execVfma (o : Ops) (f : FmaFn) (s : State) : Host.Outcome State Fault Refusal :=
  .next (s.performVec (.vfma o f) o (fun _ => true) (vfmaBody o f))

/-- Body of VDIV: `.sqrt` has no operand b. -/
def vdivBody (o : Ops) (sqrt : Bool) (s : State) : Act :=
  let t := s.three o
  let g := fmtOf t.d.etype
  let m := s.modeOf o
  let v (w : View) (i : Nat) : Val := g.decode (laneOf t.w (s.rowAt w) i)
  let ok := isFloat t.d.etype
  orFault (if sqrt then s.twoFaults t ok else s.threeFaults t ok)
    (s.putLanes t.d t.w (if t.d.etype = 12 then 30 else 18) (s.lanes o) fun i =>
      g.finish m (if sqrt then sqrtVal (v t.a i) else divVal (v t.a i) (v t.b i)))

def execVdiv (o : Ops) (sqrt : Bool) (s : State) : Host.Outcome State Fault Refusal :=
  .next (s.performVec (.vdiv o sqrt) o (fun _ => true) (vdivBody o sqrt))

/-- The lesser or the greater of two lanes (R244). -/
def minmaxLane (e : BitVec 4) (isMax : Bool) (x y : Nat) : Nat × Flags :=
  if isFloat e then minmaxCode (fmtOf e) isMax x y
  else
    let v (z : Nat) : Int := readInt (widthOf e) (isSigned e) (BitVec.ofNat 64 z)
    (if isMax then (if v x ≤ v y then y else x) else (if v x ≤ v y then x else y), 0)

/-- Body of VMINMAX. -/
def vminmaxBody (o : Ops) (isMax : Bool) (s : State) : Act :=
  let t := s.three o
  orFault (s.threeFaults t true)
    (s.putLanes t.d t.w 2 (s.lanes o) fun i =>
      minmaxLane t.d.etype isMax (laneOf t.w (s.rowAt t.a) i) (laneOf t.w (s.rowAt t.b) i))

def execVminmax (o : Ops) (max : Bool) (s : State) : Host.Outcome State Fault Refusal :=
  .next (s.performVec (.vminmax o max) o (fun _ => true) (vminmaxBody o max))

/-! ### VLOGIC, VCMP, VSEL (R245 to R247) -/

/-- VLOGIC on one lane of `w` bits. -/
def logicLane (f : VlogicFn) (w x y : Nat) : Nat :=
  let a : BitVec w := BitVec.ofNat w x
  let b : BitVec w := BitVec.ofNat w y
  let k := y % w
  match f with
  | .and => (a &&& b).toNat
  | .or => (a ||| b).toNat
  | .xor => (a ^^^ b).toNat
  | .andn => (a &&& ~~~ b).toNat
  | .shl => (a <<< k).toNat
  | .shr => (a >>> k).toNat
  | .sra => (a.sshiftRight k).toNat
  | .rot => (a.rotateLeft k).toNat

/-- Functions 4 to 7 of VLOGIC need an integer type. -/
def logicShifts : VlogicFn → Bool
  | .shl | .shr | .sra | .rot => true
  | _ => false

/-- Body of VLOGIC. -/
def vlogicBody (o : Ops) (f : VlogicFn) (s : State) : Act :=
  let t := s.three o
  orFault (s.threeFaults t (!logicShifts f || isInt t.d.etype))
    (s.putLanes t.d t.w 2 (s.lanes o) fun i =>
      (logicLane f t.w (laneOf t.w (s.rowAt t.a) i) (laneOf t.w (s.rowAt t.b) i), 0))

def execVlogic (o : Ops) (f : VlogicFn) (s : State) : Host.Outcome State Fault Refusal :=
  .next (s.performVec (.vlogic o f) o (fun _ => true) (vlogicBody o f))

/-- A relation of VCMP on two lanes. -/
def relLane (e : BitVec 4) (r : VRel) (x y : Nat) : Bool × Flags :=
  if isFloat e then relFloat r ((fmtOf e).decode x) ((fmtOf e).decode y)
  else
    let v (z : Nat) : Int := readInt (widthOf e) (isSigned e) (BitVec.ofNat 64 z)
    (match r with
     | .eq => x = y
     | .ne => x ≠ y
     | .lt => v x < v y
     | .le => v x ≤ v y
     | .un => false, 0)

/-- Body of VCMP: active lanes take their bit, bits from L on are zero. -/
def vcmpBody (o : Ops) (r : VRel) (s : State) : Act :=
  let a := s.vec o o.a
  let b := s.vec o o.b
  let w := widthOf a.etype
  let n := 512 / w
  let act := s.lanes o
  let res := (List.range n).foldl (fun (acc : Word × Word × Flags) i =>
    if act.getLsbD i then
      let x := relLane a.etype r (laneOf w (s.rowAt a) i) (laneOf w (s.rowAt b) i)
      (acc.1 ||| ones 64 1 i, acc.2.1 ||| (if x.1 then ones 64 1 i else 0), acc.2.2 ||| x.2)
    else acc) (BitVec.allOnes 64 <<< n, 0, 0)
  orFault [s.vecFault a (r ≠ .un || isFloat a.etype), s.vecFault b (b.etype = a.etype)]
    (.done (s.fixed 2 (cellPred o.d.toNat res.1 res.2.1) res.2.2))

def execVcmp (o : Ops) (r : VRel) (s : State) : Host.Outcome State Fault Refusal :=
  .next (s.performVec (.vcmp o r) o (fun _ => true) (vcmpBody o r))

/-- Body of VSEL: the selecting predicate is in xf. -/
def vselBody (o : Ops) (s : State) : Act :=
  let t := s.three o
  let x := xfOf o
  let p := s.me.pred (fld x 2 0)
  let sel := if x.getLsbD 3 then ~~~ p else p
  orFault (s.threeFaults t true)
    (s.putLanes t.d t.w 2 (s.lanes o) fun i => (laneOf t.w (s.rowAt (if sel.getLsbD i then t.a else t.b)) i, 0))

def execVsel (o : Ops) (s : State) : Host.Outcome State Fault Refusal :=
  .next (s.performVec (.vsel o) o (fun _ => true) (vselBody o))

/-! ### VPERM, VBCAST (R248, R249) -/

/-- The source of lane i of VPERM: operand a or b, and the lane there. -/
def permLane (f : PermFn) (n i k x : Nat) : Bool × Nat :=
  match f with
  | .idx => (true, x % n)
  | .rotl => (true, (i + n - k % n) % n)
  | .ilo => (i % 2 = 0, i / 2)
  | .ihi => (i % 2 = 0, n / 2 + i / 2)

/-- Body of VPERM. -/
def vpermBody (o : Ops) (f : PermFn) (s : State) : Act :=
  let t := s.three o
  let n := 512 / t.w
  let wi := widthOf t.b.etype
  let k := (s.scOp o o.b).toNat % n
  let aOk := s.vecFault t.a (t.fits t.a)
  let dOk := s.vecFault t.d true
  let bOk := match f with
    | .idx => s.vecFault t.b (isInt t.b.etype && wi ≤ t.w)
    | .rotl => s.locFault (scLoc o o.b)
    | _ => s.vecFault t.b (t.fits t.b)
  orFault [aOk, bOk, dOk]
    (s.putLanes t.d t.w 2 (s.lanes o) fun i =>
      let p := permLane f n i k (match f with | .idx => laneOf wi (s.rowAt t.b) i | _ => 0)
      (laneOf t.w (s.rowAt (if p.1 then t.a else t.b)) p.2, 0))

def execVperm (o : Ops) (f : PermFn) (s : State) : Host.Outcome State Fault Refusal :=
  .next (s.performVec (.vperm o f) o (fun _ => true) (vpermBody o f))

/-- Body of VBCAST. -/
def vbcastBody (o : Ops) (lane : Bool) (s : State) : Act :=
  let t := s.three o
  let x := if lane then laneOf t.w (s.rowAt t.a) ((immOf o).toInt % (512 / t.w : Nat)).toNat else (s.bLit o).toNat
  orFault (if lane then s.twoFaults t true
           else [if o.lit.isSome then none else s.locFault (scLoc o o.b), s.vecFault t.d true])
    (s.putLanes t.d t.w 2 (s.lanes o) fun _ => (x, 0))

def execVbcast (o : Ops) (lane : Bool) (s : State) : Host.Outcome State Fault Refusal :=
  .next (s.performVec (.vbcast o lane) o (fun _ => true) (vbcastBody o lane))

/-! ### VRED, VSCAN, VDOT (R250 to R252) -/

/-- One node of a reduction. -/
def redNode (e : BitVec 4) (f : RedFn) (m : Mode) (x y : Nat × Flags) : Nat × Flags :=
  let r : Nat × Flags := match f with
    | .sum =>
      if isFloat e then (fmtOf e).finish m (addVal m ((fmtOf e).decode x.1) ((fmtOf e).decode y.1))
      else ((x.1 + y.1) % 2 ^ widthOf e, 0)
    | .min => minmaxLane e false x.1 y.1
    | .max => minmaxLane e true x.1 y.1
  (r.1, x.2 ||| y.2 ||| r.2)

/-- Body of VRED. -/
def vredBody (o : Ops) (f : RedFn) (s : State) : Act :=
  let a := s.vec o o.a
  let w := widthOf a.etype
  let n := 512 / w
  let act := s.lanes o
  let leaves := (List.range n).map fun i =>
    if act.getLsbD i then some (laneOf w (s.rowAt a) i, (0 : Flags)) else none
  let r := (tree (redNode a.etype f (s.modeOf o)) n.log2 leaves).getD (0, 0)
  let v := if isFloat a.etype then r.1 else extendTo64 (isSigned a.etype) (w / 8) r.1
  orFault [s.vecFault a true, s.locFault (scLoc o o.d)] (.done (s.fixed 10 [cellAt (scAddr o o.d) 8 v] r.2))

def execVred (o : Ops) (f : RedFn) (s : State) : Host.Outcome State Fault Refusal :=
  .next (s.performVec (.vred o f) o (fun t => rmFits o (t.vec o o.a).etype) (vredBody o f))

/-- One step of a scan at distance d (04 R114): lanes and the flags raised so far. -/
def scanStep (e : BitVec 4) (m : Mode) (act : Word) (xs : List Nat × Flags) (d : Nat) : List Nat × Flags :=
  let r := xs.1.zipIdx.map fun (x, q) =>
    if d ≤ q && act.getLsbD q && act.getLsbD (q - d) then redNode e .sum m (xs.1.getD (q - d) 0, 0) (x, 0) else (x, 0)
  (r.map Prod.fst, r.foldl (fun f x => f ||| x.2) xs.2)

/-- Body of VSCAN. -/
def vscanBody (o : Ops) (s : State) : Act :=
  let t := s.three o
  let n := 512 / t.w
  let act := s.lanes o
  let xs := (List.range n).map fun i => laneOf t.w (s.rowAt t.a) i
  let r := ((List.range n.log2).map fun k => 2 ^ k).foldl (scanStep t.d.etype (s.modeOf o) act) (xs, 0)
  let c := elemCell (t.d.base / 64) t.w n act id fun i => (r.1.getD i 0, 0)
  orFault (s.twoFaults t true) (.done (s.fixed 12 [c.1] r.2))

def execVscan (o : Ops) (s : State) : Host.Outcome State Fault Refusal :=
  .next (s.performVec (.vscan o) o (fun t => rmFits o (t.vec o o.d).etype) (vscanBody o))

/-- The exact sum of several addends (R252), with the zero that its rule gives. -/
def sumVals (mode : Mode) (xs : List Val) : Val × Flags :=
  let both := xs.any (· = .inf true) && xs.any (· = .inf false)
  if xs.any Val.isNaN || both then (.nan false, raise fNv both)
  else match xs.find? Val.isInf with
    | some v => (v, 0)
    | none =>
      let us := xs.map fun x => match x with | .fin _ _ e => e | _ => 0
      let u := us.foldl min (us.headD 0)
      let t : Int := xs.foldl (fun acc x => match x with | .fin n m e => acc + signedUnits n m e u | _ => acc) 0
      if t ≠ 0 then (.fin (t < 0) t.natAbs u, 0)
      else if xs.all Val.isZero && xs.all Val.isNeg then (.fin true 0 0, 0)
      else if xs.all Val.isZero && xs.all (!·.isNeg) then (.fin false 0 0, 0)
      else (.fin (mode = 4) 0 0, 0)

/-- Whether the types of a VDOT are a pair of R252. -/
def dotOk (d a b : BitVec 4) : Bool :=
  (d = 11 && ((a = 9 && b = 9) || (a = 10 && b = 10))) || (d = 3 && (a = 1 || a = 5) && (b = 1 || b = 5))

/-- One lane of VDOT. -/
def State.dotLane (s : State) (o : Ops) (t : Three) (i : Nat) : Nat × Flags :=
  let ra := s.rowAt t.a
  let rb := s.rowAt t.b
  if t.d.etype = 11 then
    let g := fmtOf t.a.etype
    let z := Fmt.f32.decode (laneOf 32 (s.rowAt t.d) i)
    let ps := (List.range 2).map fun j => mulVal (g.decode (laneOf 16 ra (2 * i + j))) (g.decode (laneOf 16 rb (2 * i + j)))
    let m := s.modeOf o
    let r := Fmt.f32.finish m (sumVals m (z :: ps.map Prod.fst))
    (r.1, ps.foldl (fun f p => f ||| p.2) (r.2 ||| snanFlag [z]))
  else
    let p := (List.range 4).foldl (fun (acc : Int) j =>
      acc + laneInt 8 (isSigned t.a.etype) ra (4 * i + j) * laneInt 8 (isSigned t.b.etype) rb (4 * i + j)) 0
    let r := saturate true 32 (laneInt 32 true (s.rowAt t.d) i + p)
    ((r.1 % 4294967296).toNat, raise fSat r.2)

/-- Body of VDOT. -/
def vdotBody (o : Ops) (s : State) : Act :=
  let t := s.three o
  orFault [s.vecFault t.a true, s.vecFault t.b true, s.vecFault t.d (dotOk t.d.etype t.a.etype t.b.etype)]
    (s.putLanes t.d 32 6 (s.lanes o) (s.dotLane o t))

def execVdot (o : Ops) (s : State) : Host.Outcome State Fault Refusal :=
  .next (s.performVec (.vdot o) o (fun t => rmFits o (t.vec o o.d).etype) (vdotBody o))

/-! ### VPACKM, VEXPM (R253) -/

/-- Body of VPACKM. -/
def vpackmBody (o : Ops) (s : State) : Act :=
  let t := s.three o
  let n := 512 / t.w
  let mask := s.me.pred o.b.toNat
  let seq := ((List.range n).filter fun i => mask.getLsbD i).map fun i => laneOf t.w (s.rowAt t.a) i
  orFault (s.twoFaults t true) (s.putLanes t.d t.w 3 (s.lanes o) fun i => (seq.getD i 0, 0))

def execVpackm (o : Ops) (s : State) : Host.Outcome State Fault Refusal :=
  .next (s.performVec (.vpackm o) o (fun _ => true) (vpackmBody o))

/-- Body of VEXPM. -/
def vexpmBody (o : Ops) (s : State) : Act :=
  let t := s.three o
  let mask := s.me.pred o.b.toNat
  orFault (s.twoFaults t true)
    (s.putLanes t.d t.w 3 (s.lanes o &&& mask) fun i => (laneOf t.w (s.rowAt t.a) (popBelow mask i), 0))

def execVexpm (o : Ops) (s : State) : Host.Outcome State Fault Refusal :=
  .next (s.performVec (.vexpm o) o (fun _ => true) (vexpmBody o))

/-! ### Vector memory (R240 to R243) -/

/-- The address of lane i (R240): contiguous, strided or by an index. -/
def State.laneEa (s : State) (o : Ops) (strided : Bool) (wb i : Nat) : Word :=
  if strided then s.scOp o o.a + BitVec.ofNat 64 i * (match o.lit with | some l => l | none => s.scOp o o.b)
  else s.ea o 64 + BitVec.ofNat 64 (i * wb)

/-- The address of a gathered or scattered lane. -/
def State.indexEa (s : State) (o : Ops) (b : View) (wb i : Nat) : Word :=
  s.scOp o o.a + BitVec.ofInt 64 (laneInt (widthOf b.etype) (isSigned b.etype) (s.rowAt b) i * (wb : Int))

/-- The active lanes of a row of elements of `w` bits. -/
def activeLanes (w : Nat) (act : Word) : List Nat := (List.range (512 / w)).filter fun i => act.getLsbD i

/-- Runs of consecutive lanes among rising ones: first lane and number. -/
def laneRuns : List Nat → List (Nat × Nat)
  | [] => []
  | i :: r =>
    match laneRuns r with
    | (j, n) :: rest => if j = i + 1 then (i, n + 1) :: rest else (i, 1) :: (j, n) :: rest
    | [] => [(i, 1)]

/-- The common part of two ranges of bytes, if any. -/
def common (p q : Nat × Nat) : Option (Nat × Nat) :=
  let lo := max p.1 q.1
  let hi := min (p.1 + p.2) (q.1 + q.2)
  if lo < hi then some (lo, hi - lo) else none

/-- Where a contiguous access is cut: at line boundaries, on a page of device type into four accesses of 16 bytes (R241), of which
one that runs over the end of a page is two (log entry 127). -/
def cutsOf (ea : Word) (device : Bool) : List (Nat × Nat) :=
  if device then
    (List.range 4).flatMap fun j =>
      let va := ea + BitVec.ofNat 64 (16 * j)
      if va.toNat % 4096 + 16 ≤ 4096 then [(16 * j, 16)] else (parts va 16).map fun q => (16 * j + q.1, q.2)
  else parts ea 64

/-- Whether a contiguous access meets a page of device type. -/
def State.onDevice (s : State) (ea : Word) (kind : Access) : Bool :=
  (parts ea 64).any fun q => match s.resolve (ea + BitVec.ofNat 64 q.1) kind with
    | .ok (p, _) => p.device
    | _ => false

/-- The lanes of a contiguous access that bytes [off, off + n) of it touch: the address of the lowest. -/
def State.lowLane (s : State) (o : Ops) (wb off n : Nat) (act : List Nat) : Word :=
  s.laneEa o false wb ((act.find? fun i => i * wb < off + n && off < i * wb + wb).getD 0)

/-- A loaded row: awaited where a message brings it. -/
def putRow (v : View) (w : Nat) (act : Word) (l : Loaded) (k : State → Bool → Act) : Act :=
  match l with
  | .act a => a
  | .ok x remote u =>
    let (u, awaited) := u.sendLoads remote 0 64 false
    let mask := (elemCell 0 w (512 / w) act id fun _ => (0, 0)).1.mask
    k (u.varAwait [{ tgt := .row (v.base / 64), mask := mask, data := BitVec.ofNat 512 x }] awaited) (!awaited.isEmpty)

/-- Body of VLD. -/
def vldBody (o : Ops) (strided : Bool) (s : State) : Act :=
  let d := s.vec o o.d
  let w := widthOf d.etype
  let wb := w / 8
  let act := s.lanes o
  let on := activeLanes w act
  let (ord, sc) := ordOf o
  let ea := s.ea o 64
  orFault [s.locFault (scLoc o o.a), if strided && o.lit.isNone then s.locFault (scLoc o o.b) else none, s.vecFault d true]
    (if ord ≠ 0 && !aligned ea 64 then .trap 0x03 ea
     else if on.isEmpty && ord = 1 then (if s.me.returned then .done (s.acquire sc) else .hold s)
     else
       let ps : List Piece :=
         if strided then on.flatMap fun i => let la := s.laneEa o true wb i; pieces la wb (i * wb) la
         else
           (cutsOf ea (s.onDevice ea .read)).flatMap fun q =>
             ((laneRuns on).filterMap fun r => common q (wb * r.1, wb * r.2)).map fun g =>
               { va := ea + BitVec.ofNat 64 g.1, n := g.2, off := g.1, info := s.lowLane o wb g.1 g.2 on }
       putRow d w act (s.readPieces ps .read (!noL1 o) (streams o)) fun u waits =>
         .done (if ord = 1 then u.acquireAfter sc waits else u))

def execVld (o : Ops) (strided : Bool) (s : State) : Host.Outcome State Fault Refusal :=
  .next (s.performVec (.vld o strided) o (fun _ => true) (vldBody o strided))

/-- Body of VGATHER. -/
def vgatherBody (o : Ops) (s : State) : Act :=
  let d := s.vec o o.d
  let b := s.vec o o.b
  let w := widthOf d.etype
  let act := s.lanes o
  orFault [s.locFault (scLoc o o.a), s.vecFault b (isInt b.etype && widthOf b.etype ≤ w), s.vecFault d true]
    (let ps := (activeLanes w act).flatMap fun i => let la := s.indexEa o b (w / 8) i; pieces la (w / 8) (i * (w / 8)) la
     putRow d w act (s.readPieces ps .read (!noL1 o) (streams o)) fun u _ => .done u)

def execVgather (o : Ops) (s : State) : Host.Outcome State Fault Refusal :=
  .next (s.performVec (.vgather o) o (fun _ => true) (vgatherBody o))

/-- The bytes of lane i of a row, listed by offset. -/
def laneBytes (w : Nat) (r : Row) (i : Nat) : List (Nat × Byte) := offsets (bytesOf (w / 8) (laneOf w r i))

/-- Body of VST: the lanes of a contiguous one that lie in one line are written as one, on a page of device type in accesses
of 16 bytes (R241). -/
def vstBody (o : Ops) (strided : Bool) (s : State) : Act :=
  let d := s.vec o o.d
  let w := widthOf d.etype
  let on := activeLanes w (s.lanes o)
  let r := s.rowAt d
  let (ord, sc) := ordOf o
  let ea := s.ea o 64
  let go (u : State) : Act :=
    let items := on.map fun i =>
      ({ va := s.laneEa o strided (w / 8) i, n := w / 8, bytes := laneBytes w r i, info := s.laneEa o strided (w / 8) i,
         base := if strided then s.laneEa o strided (w / 8) i else ea } : StoreOne)
    u.storeItems u.me.tblroot u.me.priv items (howOf o) (!strided) .done
  orFault [s.locFault (scLoc o o.a), if strided && o.lit.isNone then s.locFault (scLoc o o.b) else none, s.vecFault d true]
    (if ord ≠ 0 && !aligned ea 64 then .trap 0x03 ea
     else if ord = 2 then s.released sc false go else go s)

def execVst (o : Ops) (strided : Bool) (s : State) : Host.Outcome State Fault Refusal :=
  .next (s.performVec (.vst o strided) o (fun _ => true) (vstBody o strided))

/-- Body of VSCATTER: lanes in ascending order (R242). -/
def vscatterBody (o : Ops) (s : State) : Act :=
  let d := s.vec o o.d
  let b := s.vec o o.b
  let w := widthOf d.etype
  let items := (activeLanes w (s.lanes o)).map fun i =>
    ({ va := s.indexEa o b (w / 8) i, n := w / 8, bytes := laneBytes w (s.rowAt d) i, info := s.indexEa o b (w / 8) i } : StoreOne)
  orFault [s.locFault (scLoc o o.a), s.vecFault b (isInt b.etype && widthOf b.etype ≤ w), s.vecFault d true]
    (s.storeItems s.me.tblroot s.me.priv items { howOf o with wide := false } false .done)

def execVscatter (o : Ops) (s : State) : Host.Outcome State Fault Refusal :=
  .next (s.performVec (.vscatter o) o (fun _ => true) (vscatterBody o))

end Sys2Proof.Machine
end

