-- ==== Sys2Proof/Machine/Reduce.lean ====
section
/-! DEFINITION. Reduction groups and multicast, opcodes 0x66 to 0x68 (12 R337 to R341, 18 R430, 20 R456, R457). -/

namespace Sys2Proof.Machine

/-! ### Nodes (R337) -/

/-- Fields of a node record. -/
def Node.parent (n : Node) : Nat := fld n.record 103 93
def Node.kid (n : Node) (i : Nat) : Nat := fld n.record (114 + 11 * i) (104 + 11 * i)
def Node.kids (n : Node) : List Nat := (List.range (min (fld n.record 92 89) 8)).map n.kid
def Node.isLocal (n : Node) : Bool := n.record.getLsbD 88
def Node.isRoot (n : Node) : Bool := n.parent = 0x7FF
def Node.fmt (n : Node) : Fmt := if fld n.record 87 86 = 1 then .f64 else .f32
def Node.wire (n : Node) : BitVec 4 := n.record.extractLsb' 82 4
def Node.elems (n : Node) : Nat := fld n.record 81 77 + 1

/-- The node of a core in a group. -/
def State.node (s : State) (c g : Nat) : Option Node := find (s.ham (hamOf c)).nodes (8 * g + c % 8)

def State.setNode (s : State) (c g : Nat) (n : Node) : State :=
  let x := s.ham (hamOf c)
  s.setHam (hamOf c) { x with nodes := put x.nodes (8 * g + c % 8) n }

/-- The member cores of a group in the launch of a hamlet. -/
def State.members (s : State) (h g : Nat) : List Nat :=
  (s.setOf h).flatMap fun x => ((List.range 8).map (8 * x + ·)).filter fun c => (s.node c g).isSome

/-- The root of the tree above a core, with as many levels left as `fuel`. -/
def State.redRoot (s : State) (g : Nat) : Nat → Nat → Nat
  | 0, c => c
  | fuel + 1, c =>
    match s.node c g with
    | none => c
    | some n => if n.isRoot then c else s.redRoot g fuel n.parent

/-! ### Combining (R340, 04 R115) -/

/-- The elements of a row, and a row of elements, in the group's format. -/
def Node.elements (n : Node) (r : Row) : List Nat := (List.range n.elems).map fun i => laneOf n.fmt.width r i

def Node.toRow (n : Node) (xs : List Nat) : Row :=
  BitVec.ofNat 512 (xs.zipIdx.foldl (fun acc (x, i) => acc + x * 2 ^ (n.fmt.width * i)) 0)

/-- One addition, element by element, rounded to nearest even. -/
def Node.addRows (n : Node) (a b : Row) : Row :=
  n.toRow (((n.elements a).zip (n.elements b)).map fun (x, y) =>
    (n.fmt.finish 1 (addVal 1 (n.fmt.decode x) (n.fmt.decode y))).1)

/-- The inputs that an episode holds, in programmed order: the local contribution, then the children's packets. -/
def Node.inputs (n : Node) (e : Episode) : List Packet :=
  (match e.own with
    | some r => [{ data := n.toRow (n.elements r), leaves := 1, missing := false, narrowed := false, empty := false }]
    | none => [])
  ++ (List.range n.kids.length).filterMap fun i => find e.child i

/-- A node acts on an episode: it holds a packet from every child, and its local contribution unless a flush has come. -/
def Node.ready (n : Node) (e : Episode) : Bool :=
  ((List.range n.kids.length).all fun i => (find e.child i).isSome) && (!n.isLocal || e.own.isSome || e.flushed)
  && (e.flushed || !(n.inputs e).isEmpty)

/-- The packet that an episode's inputs combine to: left to right, absent and empty ones left out (R456). -/
def Node.combine (n : Node) (e : Episode) : Packet :=
  let all := n.inputs e
  let missing := e.flushed || all.any Packet.missing
  let narrowed := all.any Packet.narrowed
  match all.filter fun p => !p.empty with
  | [] => { data := 0, leaves := 0, missing := missing, narrowed := narrowed, empty := true }
  | p :: r =>
    { data := r.foldl (fun acc q => n.addRows acc q.data) p.data,
      leaves := r.foldl (fun acc q => acc + q.leaves) p.leaves,
      missing := missing, narrowed := narrowed, empty := false }

/-- The format field of the packets that a node sends (12 R330): none, or binary32 narrowed under RNE. -/
def Node.field (n : Node) : BitVec 48 := if n.wire = 0 then 0 else wireField 11 n.wire 11 0 1 false

/-- A packet as it travels: a sending node narrows its elements to the wire format (04 R117), and they are packed in the width
of that format. -/
def Node.wired (n : Node) (p : Packet) : Packet :=
  if n.wire = 0 || p.empty then p
  else
    let f := n.field
    let data := (narrowBlock f (n.elements p.data)).zipIdx.foldl (fun acc e => acc + e.1.1 * 2 ^ ((wireFmt f).width * e.2)) 0
    { p with fmt := f, data := BitVec.ofNat 512 data, narrowed := true }

/-- A packet as a receiving node takes it: its elements widened as its format field says (04 R118). -/
def Node.unwired (n : Node) (p : Packet) : Packet :=
  if p.fmt = 0 then p
  else
    let xs := (List.range n.elems).map fun i => widenElem p.fmt (laneOf (wireFmt p.fmt).width p.data i, 0)
    { p with fmt := 0, data := n.toRow xs }

/-- A group status word (R338). -/
def groupStatus (ep leaves : BitVec 16) (unwritten missing narrowed : Bool) : Word :=
  let b (x : Bool) (n : Nat) : Nat := if x then 2 ^ n else 0
  BitVec.ofNat 64 (ep.toNat * 2 ^ 48 + leaves.toNat * 2 ^ 16 + b unwritten 3 + b missing 2 + b narrowed 1 + 1)

/-! ### The root's end (R340) -/

/-- The places of a result's parts; none where one of them cannot be written. -/
def State.resultParts (s : State) (c : Nat) (root va : Word) :
    List (Nat × Nat) → List (Nat × Nat × Place) → Option (List (Nat × Nat × Place) × State)
  | [], got => some (got, s)
  | (o, n) :: r, got =>
    match s.resolveFor c 4 root .kernel (va + BitVec.ofNat 64 o) .write with
    | .error _ => none
    | .ok (p, t) => t.resultParts c root va r (got ++ [(o, n, p)])

/-- A part of a result written at its home: whether the home is unbacked, and the state. A fenced hamlet takes none (17 R415). -/
def State.resultPut (s : State) (c : Nat) (p : Place) (bs : List Byte) : Bool × State :=
  match p with
  | .near pa => (false, s.homePut pa (offsets bs))
  | .far pa device => (false, if s.fencedAt pa then s else s.linePut pa bs device)
  | .window st pa d => (s.region pa = .unbacked, s.windowHomePut (hamOf c) st pa d (offsets bs))
  | .global pa device => (s.region pa = .unbacked, s.globalPut c pa bs device)
  | .foreign pk pa device => (false, (s.farStore c 4 pk pa bs device false).1)

/-- The result of an episode written under the launch's TBLROOT, with the release at PACKAGE scope: whether it stayed unwritten,
and the state. -/
def State.writeResult (s : State) (c g : Nat) (n : Node) (data : Row) : Bool × State :=
  let root := ((s.launchOf (hamOf c)).map Launch.tblroot).getD 0
  let va : Word := n.record.extractLsb' 192 64
  let len := n.elems * n.fmt.width / 8
  let bytes := bytesOf len data.toNat
  match s.resultParts c root va (lineParts va len) [] with
  | none => (true, s.record { event := 0x17, cls := 0, seq := s.seqOf c, info := va, unit := g })
  | some (ps, t) =>
    ps.foldl (fun acc q =>
      let r := acc.2.resultPut c q.2.2 ((bytes.drop q.1).take q.2.1)
      (acc.1 || r.1, r.2)) (false, t.writeBackAll (hamOf c))

/-- The done notice leaves for every member of a group. -/
def State.sendDone (s : State) (c g : Nat) (w : Word) : State :=
  (s.members (hamOf c) g).foldl (fun t d =>
    match t.node d g with
    | none => t
    | some n => (t.setNode d g { n with notice := n.notice ++ [w] }).owe (.doneNoticeArrival (Fin.ofNat 2048 d) (BitVec.ofNat 6 g))) s

/-- The root ends an episode: its result is written unless it holds no input at all, and the contributions combined count
as received (R340, R456, 03 R90). -/
def State.endEpisode (s : State) (c g : Nat) (n : Node) (p : Packet) : State :=
  let r := if p.empty then (false, s) else s.writeResult c g n p.data
  let x := r.2.ham (hamOf c)
  let s := r.2.setHam (hamOf c) { x with received := x.received + p.leaves.setWidth 64 }
  let s := if p.missing then s.record { event := 0x0E, cls := 0, seq := s.seqOf c, unit := g } else s
  s.sendDone c g (groupStatus n.fwd p.leaves r.1 p.missing p.narrowed)

/-! ### The tree's steps -/

/-- A child of a node has a packet that it can take. -/
def State.deliverable (s : State) (g : Nat) (n : Node) (d : Nat) : Bool :=
  match (s.node d g).bind fun k => k.out.head? with
  | some (e, _) => e = n.fwd || e = n.fwd + 1
  | none => false

/-- The arrival at a node of its children's packets is owed, if there is one to take. -/
def State.owePackets (s : State) (c g : Nat) : State :=
  match s.node c g with
  | none => s
  | some n =>
    if n.kids.any (s.deliverable g n) then s.oweOnce (.reductionPacketArrival (Fin.ofNat 2048 c) (BitVec.ofNat 6 g)) else s

/-- A node acts on its current episode, and on the next ones, while it holds their inputs (R340, R457). -/
def State.nodeAct (s : State) (c g : Nat) : Nat → State
  | 0 => s
  | fuel + 1 =>
    match s.node c g with
    | none => s
    | some n =>
      if !n.ready n.cur then s
      else
        let p := n.combine n.cur
        let m : Node := { n with cur := n.next, next := {}, fwd := n.fwd + 1 }
        let t := if n.isRoot then (s.setNode c g m).endEpisode c g n p
          else (s.setNode c g { m with out := n.out ++ [(n.fwd, n.wired p)] }).oweOnce
            (.reductionPacketArrival (Fin.ofNat 2048 n.parent) (BitVec.ofNat 6 g))
        (t.owePackets c g).nodeAct c g fuel

/-- An input enters an episode of a node; at a root its first one starts the timer (R456). -/
def State.timed (s : State) (c g : Nat) (n : Node) (e : Episode) : Episode × State :=
  if n.isRoot && e.since = none then
    ({ e with since := some s.cycle.toNat }, s.oweOnce (.reductionTimeout (Fin.ofNat 2048 c) (BitVec.ofNat 6 g)))
  else (e, s)

/-- A child's packet reaches its node, widened: the current episode's or the next one's; a later one waits (R457). -/
def State.packetIn (s : State) (c g : Nat) : State :=
  match s.node c g with
  | none => s
  | some n =>
    match n.kids.zipIdx.find? fun d => s.deliverable g n d.1 with
    | none => s
    | some (d, i) =>
      match s.node d g with
      | none => s
      | some k =>
        match k.out with
        | [] => s
        | (e, p) :: rest =>
          let s := s.setNode d g { k with out := rest }
          let n := (s.node c g).getD n
          let t := if e = n.fwd then
              let (x, u) := s.timed c g n { n.cur with child := put n.cur.child i (n.unwired p) }
              u.setNode c g { n with cur := x }
            else
              let (x, u) := s.timed c g n { n.next with child := put n.next.child i (n.unwired p) }
              u.setNode c g { n with next := x }
          (t.owePackets c g).nodeAct c g 2

def execReductionPacketArrival (c : CoreId) (g : BitVec 6) (s : State) : Host.Outcome State Fault Refusal :=
  .next (s.packetIn c.val g.toNat)

/-- A done notice reaches its node (R339). -/
def State.noticeIn (s : State) (c g : Nat) : State :=
  match s.node c g with
  | none => s
  | some n =>
    match n.notice with
    | [] => s
    | w :: r => s.setNode c g { n with notice := r, done := n.done ++ [w] }

def execDoneNoticeArrival (c : CoreId) (g : BitVec 6) (s : State) : Host.Outcome State Fault Refusal :=
  .next (s.noticeIn c.val g.toNat)

/-- A flush of a node's current episode: noted, and sent to each child whose packet it lacks (R456). -/
def State.flushNode (s : State) (c g : Nat) (n : Node) : State :=
  let t := s.setNode c g { n with cur := { n.cur with flushed := true } }
  let t := n.kids.zipIdx.foldl (fun t d =>
    if (find n.cur.child d.2).isSome then t
    else
      match t.node d.1 g with
      | none => t
      | some k => (t.setNode d.1 g { k with flush := k.flush ++ [n.fwd] }).owe
          (.reductionFlushArrival (Fin.ofNat 2048 d.1) (BitVec.ofNat 6 g))) t
  t.nodeAct c g 2

/-- The cycles after which a root's timer expires (R456). -/
def redTimeout : Nat := 1048576

/-- The root's timer (R456). -/
def State.redTimer (s : State) (c g : Nat) : State :=
  match s.node c g with
  | none => s
  | some n =>
    let again (t : State) : State := t.oweOnce (.reductionTimeout (Fin.ofNat 2048 c) (BitVec.ofNat 6 g))
    if !n.isRoot then s
    else
      match n.cur.since with
      | none => if n.next.since.isSome then again s else s
      | some t0 =>
        if n.cur.flushed then s
        else if s.cycle.toNat < t0 + redTimeout then again s
        else
          let t := s.flushNode c g n
          match (t.node c g).bind fun m => m.cur.since with
          | some _ => again t
          | none => t

def execReductionTimeout (c : CoreId) (g : BitVec 6) (s : State) : Host.Outcome State Fault Refusal :=
  .next (s.redTimer c.val g.toNat)

/-- A flush reaches a node (R456): one that has forwarded the episode does nothing more. -/
def State.flushIn (s : State) (c g : Nat) : State :=
  match s.node c g with
  | none => s
  | some n =>
    match n.flush with
    | [] => s
    | e :: r =>
      let m : Node := { n with flush := r }
      if e = n.fwd then s.flushNode c g m else s.setNode c g m

def execReductionFlushArrival (c : CoreId) (g : BitVec 6) (s : State) : Host.Outcome State Fault Refusal :=
  .next (s.flushIn c.val g.toNat)

/-! ### REDGRP and REDPKT (R339, R340, R430) -/

/-- The checks that the three instructions share: S[a][63:6], the operands' places, and the node. -/
def State.withNode (s : State) (i : Instr) (o : Ops) (locs : List Loc) (k : Nat → Node → Act) : Act :=
  let g := (s.scOp o o.a).toNat
  s.within [scLoc o o.a]
    (if 64 ≤ g then illegal i
     else
       s.within locs
         (match s.node s.curCore g with
          | none => .trap 0x0B (BitVec.ofNat 64 (g + 256))
          | some n => k g n))

/-- Body of REDGRP `.open`. -/
def redgrpOpenBody (o : Ops) (s : State) : Act :=
  s.withNode (.redgrpOpen o) o [scLoc o o.d] fun g n =>
    if n.isOpen then .trap 0x0B (BitVec.ofNat 64 g)
    else
      .done ((s.setNode s.curCore g { n with isOpen := true, contributed := false }).var
        [cellAt (scAddr o o.d) 8 n.episode.toNat])

def execRedgrpOpen (o : Ops) (s : State) := s.run (.redgrpOpen o) o (redgrpOpenBody o)

/-- Body of REDGRP `.close`: held until the episode's done notice has come. -/
def redgrpCloseBody (o : Ops) (s : State) : Act :=
  if s.onHandler then illegal (.redgrpClose o)
  else
    s.withNode (.redgrpClose o) o [scLoc o o.d] fun g n =>
      if !n.isOpen then .trap 0x0B (BitVec.ofNat 64 g)
      else
        match n.done.find? fun w => w.extractLsb' 48 16 = n.episode with
        | none => .hold s
        | some w =>
          .done (((s.setNode s.curCore g { n with isOpen := false, episode := n.episode + 1,
                                                  done := n.done.filter (· ≠ w) }).var
            [cellAt (scAddr o o.d) 8 w.toNat]).acquire .pkg)

def execRedgrpClose (o : Ops) (s : State) := s.run (.redgrpClose o) o (redgrpCloseBody o)

/-- A contribution enters its node; one of an episode that the node has forwarded is discarded, and counts as received at
the group's root (R457). -/
def State.contribute (s : State) (g : Nat) (n : Node) (r : Row) : State :=
  let c := s.curCore
  let x := s.myHam
  let s := s.setMyHam { x with sent := x.sent + 1 }
  let n : Node := { (s.node c g).getD n with contributed := true }
  if n.episode ≠ n.fwd then (s.setNode c g n).received (hamOf (s.redRoot g 2048 c))
  else
    let (e, t) := s.timed c g n { n.cur with own := some r }
    (t.setNode c g { n with cur := e }).nodeAct c g 2

/-- Body of REDPKT. -/
def redpktBody (o : Ops) (s : State) : Act :=
  let d := scAddr o o.d
  s.withNode (.redpkt o) o [{ addr := d, bytes := 64, storeOnly := true }] fun g n =>
    if !n.isOpen || !n.isLocal || n.contributed then .trap 0x0B (BitVec.ofNat 64 g)
    else .done (s.contribute g n (BitVec.ofNat 512 (s.rs d 64)))

def execRedpkt (o : Ops) (s : State) := s.run (.redpkt o) o (redpktBody o)

/-! ### MCAST (R341) -/

/-- The row written in the commons of the acting hamlet, or sent to that of another one. -/
def State.mcastOne (s : State) (off : Nat) (bs : List (Nat × Byte)) (h : Nat) : State :=
  let pa := commonsBase h + off
  if h = hamOf s.curCore then (s.homePut pa bs).fillWords pa 64
  else (s.send s.pkgid 1 false (.store pa bs true)).1

/-- Body of MCAST. A group that does not exist comes before the bounds of the other operands (17 R409, 18 R430). -/
def mcastBody (o : Ops) (s : State) : Act :=
  let d := scAddr o o.d
  let off := s.scOp o o.a
  let g := (s.scOp o o.b).toNat
  if (s.locFault (scLoc o o.b)).isNone && 64 ≤ g then illegal (.mcast o)
  else
       s.within [scLoc o o.a, scLoc o o.b, { addr := d, bytes := 64, storeOnly := true }]
         (if !aligned off 64 then .trap 0x03 off
          else if (s.node s.curCore g).isNone then .trap 0x0B (BitVec.ofNat 64 (g + 256))
          else if 0x100000 ≤ off.toNat then .trap 0x05 off
          else
            let hs := ((s.members (hamOf s.curCore) g).map hamOf).eraseDups
            if 0xFFFF < (s.me.count 1).toNat + hs.length then .hold s
            else
              .done (hs.foldl (fun t h => t.mcastOne off.toNat (offsets (bytesOf 64 (s.rs d 64))) h) s))

def execMcast (o : Ops) (s : State) := s.run (.mcast o) o (mcastBody o)

/-- A multicast row reaches a destination hamlet. -/
def execMcastDelivery (id : Nat) (s : State) : Host.Outcome State Fault Refusal :=
  .next (match s.waiting id with
    | some m => if Body.isRow m.body then s.applyMsg m (.mcastDelivery id) else s
    | none => s)

end Sys2Proof.Machine
end

