-- ==== Sys2Proof/Machine/System.lean ====
section
/-! DEFINITION. System instructions, opcodes 0x69 to 0x6F (12 R342 to R348, 18 R430), and what a word that is no instruction
does (18 R421). -/

namespace Sys2Proof.Machine

def execNop (o : Ops) (s : State) := s.run (.nop o) o .done

/-- Body of TRAP (R342). -/
def trapBody (o : Ops) (_ : State) : Act := .trapNext 0x12 ((number12 o o.a).setWidth 64)

def execTrap (o : Ops) (s : State) := s.run (.trap o) o (trapBody o)

/-- A context that has returned from a trap: a pre-emption request held meanwhile is taken at TRAPPC, under the live map in
force (R343, 17 R407). -/
def State.takeHeld (s : State) : State :=
  let x := s.me
  if x.preempt && x.strand.isSome && !x.inGang && !x.wordDue then s.beginSave s.curCore s.curCtx else s

/-- Body of RTE (R343): execution goes on at TRAPPC. What the strand waited for before the trap it still waits for. A trap
that device runtime has repaired counts as class 3 (17 R413). Illegal Instruction comes before Privileged Instruction (17
R409). -/
def rteBody (o : Ops) (s : State) : Act :=
  let x := s.me
  if !x.handling then illegal (.rte o)
  else if x.priv = .kernel || x.priv.code < (Priv.ofCode (fld x.trapcause 11 10)).code then .trap 0x02 (baseInfo (.rte o))
  else
    let t := if fld x.trapcause 5 0 = 0x13 then s else s.mark (hamOf s.curCore) (Marks.class · 3)
    .left (t.setMe { t.me.rte t.cycle.toNat with hold := if o.sw then .switch else .none }).takeHeld

def execRte (o : Ops) (s : State) := s.run (.rte o) o (rteBody o)

def execYield (o : Ops) (s : State) := s.run (.yield o) o .done

/-! ### Control registers (R345, R346) -/

/-- Registers that kernel code may not touch (R346, 17 R407). -/
def sysPrivileged (r : Nat) : Bool := 0x020 ≤ r

/-- Read-only registers (R346). -/
def sysReadOnly (r : Nat) : Bool := (1 < r && r < 7) || (0x010 ≤ r && r < 0x014)

/-- FEATURES (R346). -/
def featuresWord : Word := 0x1F

/-- The value of a control register. -/
def State.sysreg (s : State) (r : Nat) : Word :=
  let x := s.me
  let co := s.myCore
  let h := s.myHam
  if r = 0x000 then x.fpstatus
  else if r = 0x001 then x.srstate.setWidth 64
  else if r = 0x002 then x.repstate.setWidth 64
  else if r = 0x003 then x.grank
  else if r = 0x004 then s.corenum s.curCore
  else if r = 0x005 then featuresWord
  else if r = 0x006 then s.cycle
  else if r = 0x007 then h.pealcfg ||| h.extra.setWidth 64
  else if r = 0x010 then co.mill.jstat
  else if r = 0x011 then co.mill.drainpos
  else if r = 0x012 then co.mill.millfmt
  else if r = 0x013 then co.mill.millst
  else if r = 0x020 then x.trapcause
  else if r = 0x021 then x.trappc
  else if r = 0x022 then x.trapinfo
  else if r = 0x030 then x.tblroot
  else if r = 0x031 then (if co.hbudget.toNat < 256 then 256 else co.hbudget)
  else if r = 0x032 then (if co.pdeadline = 0 then 65536 else co.pdeadline)
  else if r = 0x033 then x.trapvec
  else co.reevevec

/-- TRAPINFO of Privileged Instruction for SYSRD and SYSWR (17 R408). -/
def sysInfo (i : Instr) (r : Nat) : Word := baseInfo i + BitVec.ofNat 64 (r * 2 ^ 32)

/-- Body of SYSRD. -/
def sysrdBody (o : Ops) (s : State) : Act :=
  let r := (number12 o o.a).toNat
  if sysPrivileged r && s.me.priv = .kernel then .trap 0x02 (sysInfo (.sysrd o) r)
  else s.within [scLoc o o.d] (.done (s.fixed 2 [cellAt (scAddr o o.d) 8 (s.sysreg r).toNat]))

def execSysrd (o : Ops) (s : State) := s.run (.sysrd o) o (sysrdBody o)

/-- FPSTATUS written (04 R105): `rm` takes only the codes of R104 that name a mode, bits [63:9] stay. -/
def writeFp (old v : Word) : Word :=
  let keep := setFld old 5 0 (fld v 5 0)
  if 1 ≤ fld v 8 6 && fld v 8 6 ≤ 4 then setFld keep 8 6 (fld v 8 6) else keep

/-- TRAPCAUSE written (R344): `valid` and, for a code that names a privilege, `prev`. -/
def writeCause (old v : Word) : Word :=
  let keep := setFld old 12 12 (fld v 12 12)
  if fld v 11 10 = 3 then keep else setFld keep 11 10 (fld v 11 10)

/-- The writable bits of TBLROOT (05 R135), and of an address (17 R407). -/
def writeRoot (old v : Word) : Word := setFld (setFld old 63 52 (fld v 63 52)) 45 13 (fld v 45 13)
def writeAddr (old v : Word) : Word := setFld old 56 0 (fld v 56 0)

/-- TRAPCAUSE of a context replaced: the count towards the save deadline stops while `valid` is 1 (17 R407). -/
def Ctx.withCause (x : Ctx) (v : Word) (now : Nat) : Ctx :=
  let y := if v.getLsbD 12 then x.stopCount now else if x.handling then { x with since := now } else x
  { y with trapcause := v }

/-- A control register written. -/
def State.setSysreg (s : State) (r : Nat) (v : Word) : State :=
  let x := s.me
  let co := s.myCore
  if r = 0x000 then s.setMe { x with fpstatus := writeFp x.fpstatus v }
  else if r = 0x001 then s.setMe { x with srstate := v.setWidth 32 }
  else if r = 0x007 then s.setMyHam { s.myHam with extra := v.setWidth 12 }
  else if r = 0x020 then s.setMe (x.withCause (writeCause x.trapcause v) s.cycle.toNat)
  else if r = 0x021 then s.setMe { x with trappc := v }
  else if r = 0x022 then s.setMe { x with trapinfo := v }
  else if r = 0x030 then s.setMe { x with tblroot := writeRoot x.tblroot v }
  else if r = 0x031 then s.setMyCore { co with hbudget := v &&& 0xFFFF }
  else if r = 0x032 then s.setMyCore { co with pdeadline := v &&& 0xFFFFFFFF }
  else if r = 0x033 then s.setMe { x with trapvec := writeAddr x.trapvec v }
  else if r = 0x034 then s.setMyCore { co with reevevec := writeAddr co.reevevec v }
  else s

/-- Body of SYSWR. -/
def syswrBody (o : Ops) (s : State) : Act :=
  let r := (number12 o o.d).toNat
  let p := s.me.priv
  if sysReadOnly r || (sysPrivileged r && p = .kernel) || (r = 0x034 && p ≠ .firmware) then .trap 0x02 (sysInfo (.syswr o) r)
  else s.within [scLoc o o.a] (.done (s.setSysreg r (s.scOp o o.a)))

def execSyswr (o : Ops) (s : State) := s.run (.syswr o) o (syswrBody o)

/-! ### TLBINV (R347) -/


/-- Whether a message can still reach the old home of a page that has moved (20 R458): an entry maps its frame, or a message
travels there. -/
def State.reaches (s : State) (frame : Nat) : Bool :=
  (s.allTlb.any fun t => s.maps t frame)
  || s.flight.any fun (m : Msg) => !m.applied && m.pkg = s.pkgid && m.body.pa / 4096 = frame

/-- The entries that `gone` selects are removed from every TLB; a forwarder that nothing can reach any more ends. -/
def State.dropTlb (s : State) (gone : Tlb → Bool) : State :=
  let cores := s.cores.map fun (c : Nat × Core) => (c.1, { c.2 with tlb := c.2.tlb.filter fun t => !gone t })
  let hamlets := s.hamlets.map fun (h : Nat × Hamlet) => (h.1, { h.2 with tlb := h.2.tlb.filter fun t => !gone t })
  let t : State := { s with cores := cores, hamlets := hamlets }
  { t with forwards := t.forwards.filter fun f => t.reaches f.1 }

/-- Whether a message that is not applied yet goes to a page that an entry of `gone` maps. -/
def State.travelling (s : State) (gone : Tlb → Bool) : Bool :=
  s.flight.any fun (m : Msg) => !m.applied && s.allTlb.any fun t =>
    gone t && t.pkg = m.pkg && t.pbase ≤ m.body.pa && m.body.pa < t.pbase + 2 ^ t.bits

/-- Body of TLBINV: it holds until every access translated through a removed entry has been performed. -/
def tlbinvBody (i : Instr) (reads : List Loc) (s : State) (gone : Tlb → Bool) : Act :=
  if s.me.priv = .kernel then .trap 0x02 (baseInfo i)
  else s.within reads (if s.travelling gone then .hold s else .done (s.dropTlb gone))

def execTlbinv (o : Ops) (s : State) :=
  s.run (.tlbinv o) o fun t => tlbinvBody (.tlbinv o) [scLoc o o.a] t fun e =>
    e.covers (t.me.tblroot.extractLsb' 52 12) ((t.scOp o o.a).toNat % 2 ^ 57)

def execTlbinvSpace (o : Ops) (s : State) :=
  s.run (.tlbinvSpace o) o fun t => tlbinvBody (.tlbinvSpace o) [scLoc o o.a] t fun e => e.space = (t.scOp o o.a).setWidth 12

def execTlbinvAll (o : Ops) (s : State) := s.run (.tlbinvAll o) o fun t => tlbinvBody (.tlbinvAll o) [] t fun _ => true

/-- A word that is no instruction (18 R421): Illegal Instruction with the base word. -/
def execUnassignedEncoding (base : BitVec 32) (s : State) : Host.Outcome State Fault Refusal :=
  .next (s.trap 0x01 (base.setWidth 64) s.me.faultPc)

end Sys2Proof.Machine
end

