-- ==== Sys2Proof/Machine/Hardware.lean ====
section
/-! DEFINITION. Faults of storage, power and temperature, die bridges and package-link ports (00 R24 to R26, 17 R413 to R416, 20
R452, R455, R461 to R464), the fault queue (13 R364), and pages that move (06 R167, 20 R458). -/

namespace Sys2Proof.Machine

/-! ### The fault queue (R364) -/

/-- Place of a fault record (13 R351). -/
def faultAddr (n : Nat) : Nat := controlBase + 0x100000 + 32 * (n % 16384)

/-- The next held fault record is written, if the queue has room. -/
def State.writeFault (s : State) : State :=
  match s.hub.heldFaults with
  | [] => s
  | r :: rest =>
    let b := s.hub
    if (b.fqTail - b.fqHead).toNat = 16384 then s
    else
      let t := { s with mem := memWrite s.mem (faultAddr b.fqTail.toNat) (bytesOf 32 r.toNat),
                        hub := { b with heldFaults := rest, fqTail := b.fqTail + 1 } }
      let t := if b.fqTail = b.fqHead then t.irq 2 else t
      if rest.isEmpty then t else t.oweOnce .faultRecordWrite

def execFaultRecordWrite (s : State) : Host.Outcome State Fault Refusal := .next s.writeFault

/-- FQHEAD written by the operating system; a value past the tail is ignored. -/
def State.setFqHead (s : State) (v : BitVec 32) : State :=
  if 16384 < (s.hub.fqTail - v).toNat then s
  else
    let t := { s with hub := { s.hub with fqHead := v } }
    if t.hub.heldFaults.isEmpty then t else t.oweOnce .faultRecordWrite

def execFqheadWrite (v : BitVec 32) (s : State) : Host.Outcome State Fault Refusal := .next (s.setFqHead v)

/-! ### Storage (R413 to R416) -/


/-- TRAPINFO of storage that is no memory line (R408). -/
def storageInfo (code addr : Nat) : Word := BitVec.ofNat 64 (code * 2 ^ 60 + addr % 2 ^ 46)

/-- An uncorrectable L1 line of a core's hamlet: refetched where it is clean, else listed at its home (R414). -/
def State.l1Lost (s : State) (c line : Nat) : State :=
  let h := hamOf c
  match find (s.ham h).lines line with
  | none => s
  | some l => if l.dirty = 0 then s.dropLine h line else (s.dropLine h line).listLine line (s.seqOf c) true (some (1, c))

/-- What an uncorrectable error does, by its storage code (R414). `unit` is a core, a hamlet, or for the register store 8 × core +
context. -/
def State.uncorrectable (s : State) (code unit addr : Nat) : State :=
  let line := addr / 64 * 64
  let each (c : Nat) (t : State) : State := (List.range 5).foldl (fun t k => t.storageTrap c k (storageInfo code addr)) t
  if code = 0 then s.storageTrap (unit / 8) (unit % 8) (storageInfo 0 addr)
  else if code = 1 then s.l1Lost unit line
  else if code = 8 then
    let m := (s.core unit).mill
    if m.owned then s.storageTrap unit m.owner (storageInfo 8 addr) else s
  else if code = 9 then each unit s
  else if code = 0xB then s.fence (unit % 256) 0x04
  else if code = 0xC then s.stopPackage
  else if code = 4 then s.listLine line 0 false (some (4, s.homeOf line))
  else if code = 2 || code = 3 || code = 5 || code = 6 || code = 7 then s.listLine line 0 false
  else s

/-- Scrubbing reads a word; a correctable error is written back corrected and changes no value (R414, 00 R25). -/
def execScrubPass (code : BitVec 4) (unit : BitVec 16) (addr : BitVec 46) (uncorrectable : Bool) (s : State) :
    Host.Outcome State Fault Refusal :=
  .next (if uncorrectable then s.uncorrectable code.toNat unit.toNat addr.toNat else s)

/-- The corrected events of a unit are written as one record (R413). -/
def execCorrectedRecordCoalesce (code : BitVec 4) (unit : BitVec 16) (count : BitVec 16) (s : State) :
    Host.Outcome State Fault Refusal :=
  .next (if count = 0 then s
    else s.record { event := 0x02, cls := 2, unit := unit.toNat, count := count.toNat, info := code.setWidth 64 })

/-! ### Power and temperature (00 R24 to R26, 20 R462) -/

/-- A hamlet at another operating point. -/
def State.setPoint (s : State) (h : Nat) (p : BitVec 2) : State := s.setHam h { s.ham h with point := p }

/-- The lower and the next of two points. -/
def lowerPoint (p : BitVec 2) : BitVec 2 := if p = 0 then 0 else p - 1
def minPoint (a b : BitVec 2) : BitVec 2 := if a ≤ b then a else b

/-- A hamlet chooses an operating point, never above its ceiling (R24) nor above its thermal cap (R26). -/
def State.choosePoint (s : State) (h : Nat) (p : BitVec 2) : State :=
  let x := s.ham h
  s.setPoint h (minPoint p (minPoint x.cap x.ceiling))

def execOperatingPointChange (h : HamletId) (p : BitVec 2) (s : State) : Host.Outcome State Fault Refusal :=
  .next (s.choosePoint h.val p)

/-- A hamlet one operating point lower, which becomes its thermal cap (R26). -/
def Hamlet.drop (x : Hamlet) : Hamlet := { x with point := lowerPoint x.point, cap := lowerPoint x.point }

/-- What a hamlet's sensor says (R26): one that passes the throttle threshold drops the hamlet one point. -/
def State.threshold (s : State) (h : Nat) (now : Heat) : State :=
  let x := s.ham h
  s.setHam h { (if now = .hot && x.heat ≠ .hot then x.drop else x) with heat := now }

def execThrottleThreshold (h : HamletId) (now : Heat) (s : State) : Host.Outcome State Fault Refusal :=
  .next (s.threshold h.val now)

/-- Each millisecond a hamlet drops one point while its sensor is above the threshold; once it is 5 °C below, its thermal cap rises
by one, and a hamlet that runs at the cap climbs with it, as far as its ceiling; between the two neither happens (R26). -/
def State.throttle (s : State) (h : Nat) : State :=
  let x := s.ham h
  match x.heat with
  | .hot => s.setHam h x.drop
  | .warm => s
  | .cool =>
    if x.cap = 3 then s
    else s.setHam h { x with cap := x.cap + 1, point := if x.point = x.cap then minPoint (x.cap + 1) x.ceiling else x.point }

def execThrottleStep (h : HamletId) (s : State) : Host.Outcome State Fault Refusal := .next (s.throttle h.val)

/-- A hamlet at the shutdown threshold stops issue and is fenced (R26, R462). -/
def State.shutDown (s : State) (h : Nat) : State := (s.setHam h { s.ham h with shut := true }).fence h 0x12

def execThermalShutdown (h : HamletId) (s : State) : Host.Outcome State Fault Refusal := .next (s.shutDown h.val)

/-- A reduced supply lowers every hamlet's ceiling (R24, R462). -/
def State.lowerCeiling (s : State) (c : BitVec 2) : State :=
  let t := (List.range 256).foldl (fun t h =>
    let x := t.ham h
    t.setHam h { x with ceiling := minPoint x.ceiling c, point := minPoint x.point (minPoint x.ceiling c) }) s
  t.record { event := 0x13, cls := 0, info := c.setWidth 64 }

def execReducedSupply (ceiling : BitVec 2) (s : State) : Host.Outcome State Fault Refusal := .next (s.lowerCeiling ceiling)

/-- The power stage trips on a core-rail step: the package stops, with event 0x06 (R462). -/
def execRailTrip (s : State) : Host.Outcome State Fault Refusal := .next s.stopPackage

/-! ### Links and bridges (20 R452, R455) -/

/-- A port of the package. -/
def State.port (s : State) (p : Nat) : Port := look {} s.ports p

/-- Reference cycles without an acknowledgement after which a package is unreachable (R454). -/
def deadAfter : Nat := 2 ^ 24

/-- The packets of a package have gone unacknowledged for so long that it is unreachable (R454). -/
def State.silent (s : State) (d : BitVec 20) : Bool :=
  let p := look ({} : Peer) s.peers d.toNat
  !p.unacked.isEmpty && deadAfter ≤ s.cycle.toNat - p.since

/-- A package is unreachable (R454) from this one, which waits for something of it: for want of a path, or of acknowledgements. -/
def State.cutOff (s : State) (d : BitVec 20) : Bool :=
  (s.deadPeer d || s.silent d)
  && (!(look ({} : Peer) s.peers d.toNat).unacked.isEmpty || s.flight.any fun (m : Msg) => m.pkg = d)

/-- Packages whose effective mask has become zero, and from which something is awaited, are unreachable (R454). -/
def State.oweUnreachable (s : State) : State :=
  (s.flight.map fun (m : Msg) => m.pkg).foldl (fun t d =>
    if d ≠ t.pkgid && t.portMask d = 0 then t.oweOnce (.destinationUnreachable d) else t) s

/-- A port goes down, or is left down (R452, R461): it leaves every port mask. -/
def State.dropPort (s : State) (p : Nat) : State :=
  (({ s with ports := put s.ports p {} } : State).record { event := 0x0B, cls := 0, unit := p }).oweUnreachable

/-- A port replaced. -/
def State.setPort (s : State) (p : Nat) (x : Port) : State := { s with ports := put s.ports p x }

/-- Failed replays in a row that make a port retrain (R452). -/
def replayLimit : Nat := 8

/-- A flit reaches a port's receiver (R452): the one that it expects is taken; one with a wrong CRC or out of sequence is discarded,
and a replay from the one that it expects is asked for. -/
def State.flitIn (s : State) (p : Nat) (seq : BitVec 12) (good : Bool) : State :=
  let x := s.port p
  if !x.up then s
  else if good && seq = x.expect then s.setPort p { x with expect := x.expect + 1, asked := false }
  else s.setPort p { x with asked := true }

/-- The neighbour acknowledges a flit, and all before it: the replay buffer keeps the later ones (R452). -/
def State.flitAck (s : State) (p : Nat) (seq : BitVec 12) : State :=
  let x := s.port p
  if x.buffer.contains seq then s.setPort p { x with buffer := (x.buffer.dropWhile (· ≠ seq)).drop 1, fails := 0 } else s

/-- A replay of a port's oldest flit has failed; the eighth in a row makes the port retrain (R452). -/
def State.replayFailed (s : State) (p : Nat) : State :=
  let x := s.port p
  if !x.up || x.buffer.isEmpty then s
  else if replayLimit ≤ x.fails + 1 then s.setPort p { x with training := true, fails := 0 }
  else s.setPort p { x with fails := x.fails + 1 }

/-- A replay of flits has completed (R452): it changes only time. -/
def execLinkReplay (port : Fin 12) (s : State) : Host.Outcome State Fault Refusal :=
  .next (if (s.port port.val).up then
    (s.setPort port.val { s.port port.val with fails := 0 }).record { event := 0x0A, cls := 2, unit := port.val } else s)

/-- A port has trained at some number of lanes (R374, R452): for the first time, or again, when it keeps its flits. -/
def State.trained (s : State) (p lanes : Nat) : State :=
  let x := s.port p
  if !x.up && !x.training then s
  else if lanes = 8 || lanes = 4 then
    let t := s.setPort p { x with up := true, lanes := lanes, training := false, fails := 0 }
    if x.up then t.record { event := 0x0A, cls := 2, unit := p } else t
  else s.dropPort p

def execLinkRetrain (port : Fin 12) (lanes : Nat) (s : State) : Host.Outcome State Fault Refusal :=
  .next (s.trained port.val lanes)

def execPortDown (port : Fin 12) (s : State) : Host.Outcome State Fault Refusal :=
  .next (if (s.port port.val).up || (s.port port.val).training then s.dropPort port.val else s)

/-- A repaired lane of a die bridge (R455). -/
def execLaneRepair (die : Fin 4) (s : State) : Host.Outcome State Fault Refusal :=
  .next (s.record { event := 0x11, cls := 2, unit := die.val })

/-- A die bridge that cannot repair stops the package (R455). -/
def execBridgeFailure (die : Fin 4) (s : State) : Host.Outcome State Fault Refusal :=
  let _ := die
  .next s.stopPackage

/-! ### Service firmware (20 R461, R463) -/

/-- Service firmware starts: its reports count from 0 (R463). -/
def Hub.startService (b : Hub) (digest : BitVec 384) : Hub := { b with service := true, serviceDigest := digest, reportNo := 0 }

/-- Service firmware that is silent for 100 ms is verified and started again from the module flash (R461). -/
def State.restartService (s : State) : State :=
  if !s.hub.service then s
  else if verifies Config.flashServiceDigest Config.flashSignature then
    ({ s with hub := s.hub.startService Config.flashServiceDigest } : State).record { event := 0x14, cls := 0 }
  else ({ s with hub := { s.hub with service := false, serviceDigest := 0 } } : State).record { event := 0x15, cls := 0 }

def execServiceMailboxTimeout (s : State) : Host.Outcome State Fault Refusal := .next s.restartService

/-- Service firmware posts a management-port message (13 R352). -/
def execManagementPortMessage (s : State) : Host.Outcome State Fault Refusal := .next (if s.hub.service then s.irq 4 else s)

/-! ### Pages that move (06 R167, 20 R458) -/

/-- The lines of a 4 KiB frame. -/
def frameLines (f : Nat) : List Nat := (List.range 64).map fun i => f * 4096 + 64 * i

/-- A page moves: its old home takes what the hamlets still hold of it, its bytes pass to the new home, where a listed line is
listed (17 R416), and a forwarder stays. -/
def State.movePage (s : State) (old new : Nat) : State :=
  if old = new then s
  else
    let s := (frameLines old ++ frameLines new).foldl (fun t line =>
      (t.hamlets.map Prod.fst).foldl (fun t h => t.giveLine h line) t) s
    let s := (frameLines old).foldl (fun t line =>
      let to' := line + (new - old) * 4096 - (old - new) * 4096
      if t.listedLine line then t.listLine to' 0 true else t.homePut to' (offsets (t.homeRead line 64))) s
    { s with forwards := ((s.forwards.map fun f => if f.2 = old then (f.1, new) else f).filter fun f => f.1 ≠ old && f.1 ≠ new)
               ++ [(old, new)] }

def execPageMove (old new : BitVec 34) (s : State) : Host.Outcome State Fault Refusal :=
  .next (s.movePage old.toNat new.toNat)

/-- A message's body with another address. -/
def Body.at' (b : Body) (pa : Nat) : Body :=
  match b with
  | .store _ bs full => .store pa bs full
  | .stsync _ v => .stsync pa v
  | .feset _ f => .feset pa f
  | .zline _ => .zline pa
  | .load _ n sx => .load pa n sx
  | .ldsync _ c => .ldsync pa c
  | .atomic _ f => .atomic pa f
  | .am _ d e p => .am pa d e p
  | .wired _ f xs => .wired pa f xs
  | .listed _ => .listed pa
  | b => b

/-- A bounce reaches the source of a message (R167): it and every later message of its core to that page are sent again, in
their order, to the new home. -/
def State.bounce (s : State) (id : Nat) : State :=
  match s.waiting id with
  | none => s
  | some m =>
    if s.forwarded m.body.pa = m.body.pa then s.owe (s.arrival id m.home m.body)
    else
      let mine (q : Msg) : Bool := q.core = m.core && q.pkg = s.pkgid && !q.applied && m.id ≤ q.id && q.body.pa / 4096 = m.body.pa / 4096
      let again (q : Msg) : Msg := { q with body := Body.at' q.body (s.forwarded q.body.pa), home := s.homeOf (s.forwarded q.body.pa) }
      let moved := (s.flight.filter mine).map again
      moved.foldl (fun t q => t.owe (t.arrival q.id q.home q.body))
        { s with flight := s.flight.map fun (q : Msg) => if mine q then again q else q }

def execPageMoveBounce (id : Nat) (s : State) : Host.Outcome State Fault Refusal := .next (s.bounce id)

end Sys2Proof.Machine
end

