-- ==== Sys2Proof/Machine/Strand.lean ====
section
/-! DEFINITION. Strands: frames (02 R29), what a park or a save writes and what becomes of it (02 R48, R49, R62, R63, R465, 19
R441, R449), and how a strand begins and resumes (02 R50, 07 R186). -/

namespace Sys2Proof.Machine

/-! ### Frames (R29) -/

/-- The header of a strand that begins from a frame (12 R312). -/
def Strand.ofFrame (f : Frame) (seq : Word) : Strand :=
  { base := f.parentj, synch := f.synch, fp := f.fp, prio := f.prio, features := f.features, tile := f.tile,
    originpkg := f.originpkg, originh := f.originh, donated := f.donated, root := f.root, kind := f.kind, arg := f.arg,
    seq := seq }

/-- A frame with a strand's header, at an address. -/
def Strand.frame (d : Strand) (pc : BitVec 57) (repstate : BitVec 32) : Frame :=
  { tile := d.tile, donated := d.donated, root := d.root, originh := d.originh, originpkg := d.originpkg, arg := d.arg,
    repstate := repstate, features := d.features, parentj := d.base, synch := d.synch, fp := d.fp, published := false,
    prio := d.prio, kind := d.kind, pc := pc }

/-! ### What a save holds (R48, R59, R60, R62) -/

/-- Bytes of a tile descriptor (R30): whether they lie in the commons slice, the first, and their number. -/
def tileRange (t : BitVec 32) : Option (Bool × Nat × Nat) :=
  if t.getLsbD 31 then some (t.getLsbD 30, 64 * fld t 29 15, 64 * (fld t 14 0 + 1)) else none

/-- The rows, banks and ranges that a save holds. -/
structure Plan where
  rows : List Nat
  vis : Bool
  work : Bool
  ranges : List (Bool × Nat × Nat)
  deriving DecidableEq, Repr

/-- What a save of a strand holds: under its map, or the whole of it. `owned`: its context owned the mill. -/
def planOf (map : Option Row) (whole owned : Bool) (z : Nat × Nat) : Plan :=
  match (if whole then none else map) with
  | some r =>
    { rows := (List.range 128).filter fun n => r.getLsbD n, vis := owned && r.getLsbD 128, work := owned && r.getLsbD 129,
      ranges := (List.range 4).filterMap fun i => tileRange (r.extractLsb' (256 + 32 * i) 32) }
  | none => { rows := List.range 128, vis := owned, work := owned, ranges := [(false, 0, z.1), (true, 0, z.2)] }

/-- Bytes of a save. -/
def Plan.size (p : Plan) : Nat :=
  192 + 64 * p.rows.length + (if p.vis then 36864 else 0) + (if p.work then 36864 else 0)
    + p.ranges.foldl (fun acc g => acc + g.2.2) 0

/-- Where in a save the ranges begin. -/
def Plan.tail (p : Plan) : Nat :=
  192 + 64 * p.rows.length + (if p.vis then 36864 else 0) + (if p.work then 36864 else 0)

/-- The lowest address of a save below `fp`. -/
def belowFp (fp : BitVec 57) (map : Option Row) (p : Plan) : Word :=
  sext57 fp - BitVec.ofNat 64 (match map with | some r => fld r 159 136 | none => p.size)

/-- The lowest address of the save of a strand: below its `fp`. The members of a gang save under one `fp`, each below that of the
rank before it (DESIGN CHOICE, log entry 42: the spec does not say where a follower saves, 02 R43). -/
def saveBase (x : Ctx) (d : Strand) (p : Plan) : Word :=
  let n := sext57 d.fp - belowFp d.fp d.map p
  belowFp d.fp d.map p - (if x.inGang then BitVec.ofNat 64 (fld x.grank 2 0) * n else 0)

/-- Address in memory of a byte of a context's tile slices. -/
def State.sliceAt (s : State) (c k : Nat) (commons : Bool) (off : Nat) : Nat :=
  (if commons then (s.sliceBase c k).2 else (s.sliceBase c k).1) + off

/-- Whether a context owns its core's mill. -/
def State.owns (s : State) (c k : Nat) : Bool := (s.core c).mill.owned && (s.core c).mill.owner == k

/-- The visible bank (10 R270). -/
def Mill.visible (m : Mill) : Map Row := if m.vis1 then m.bank1 else m.bank0

/-- The context record of a context's strand (R465). -/
def State.contextRecord (s : State) (c k : Nat) (d : Strand) : Nat :=
  let x := s.ctx c k
  let m := (s.core c).mill
  let own := s.owns c k
  let preds := (List.range 7).foldl (fun acc i => acc + (x.pred (i + 1)).toNat * 2 ^ (64 * i)) 0
  let (pend, info) := if d.pend = 0 && own then (m.pend, if m.pend = 0 then 0 else m.pendWord) else (d.pend, d.pendinfo)
  let (a, b) := if own then (m.recA, m.recB) else (d.ascale, d.bscale)
  let w (v : Word) (n : Nat) : Nat := if own then v.toNat * 2 ^ n else 0
  b.toNat * 2 ^ 896 + a.toNat * 2 ^ 768 + info.toNat * 2 ^ 704 + w m.drainpos 640 + w m.jstat 576 + w m.millfmt 512
    + x.srstate.toNat * 2 ^ 480 + fld x.fpstatus 8 0 * 2 ^ 464 + pend.toNat * 2 ^ 448 + preds

/-- Bytes of a bank. -/
def bankBytes (b : Map Row) : List Byte := (List.range 576).flatMap fun n => bytesOf 64 (look 0 b n).toNat

/-- The bytes that a save writes, in the order of R62. -/
def State.saveBytes (s : State) (c k : Nat) (d : Strand) (f : Frame) (p : Plan) : List Byte :=
  let x := s.ctx c k
  let m := (s.core c).mill
  bytesOf 64 f.row.toNat ++ bytesOf 128 (s.contextRecord c k d)
    ++ p.rows.flatMap (fun n => bytesOf 64 (look 0 x.store n).toNat)
    ++ (if p.vis then bankBytes m.visible else []) ++ (if p.work then bankBytes m.work else [])
    ++ p.ranges.flatMap fun g => memRead s.mem (s.sliceAt c k g.1 g.2.1) g.2.2

/-! ### Writing and reading a save area -/

/-- Bytes within one line written by the save path of a context (R48): translated under its table, never posted; a fault
names its cause. What goes to another package is kept beside the strand. -/
def State.saveLine (s : State) (c k : Nat) (va : Word) (bs : List Byte) : Except (BitVec 6 × Word) State :=
  let x := s.ctx c k
  match s.resolveFor c k x.tblroot x.priv va .write with
  | .error (.page _ _ _) => .error (0x04, va)
  | .error (.trap cause _) => .error (cause, va)
  | .error (.bad l) => .error (0x11, s.badInfo l)
  | .ok (p, t) =>
    match t.fillBad c p with
    | some l => .error (0x11, s.badInfo l)
    | none =>
      .ok (match p with
        | .near pa | .far pa _ => t.homePut pa (offsets bs)
        | .global pa true => t.globalPut c pa bs true
        | .foreign pk pa device =>
          let u := (t.farStore c k pk pa bs device false).1
          let y := u.ctx c k
          let at' := va.toNat / 64 * 64
          u.setCtx c k { y with strand := y.strand.map fun d =>
            { d with shadow := put d.shadow at' (rowPut (look 0 d.shadow at') (va.toNat % 64) (offsets bs)) } }
        | p => t.writePlace c p (offsets bs))

/-- A save must wait: a fenced hamlet takes none of it (17 R415), or a CXL port does not deliver a line that it fills (20 R460). -/
def State.saveHeld (s : State) (c k : Nat) (va : Word) (n : Nat) : Option State :=
  let x := s.ctx c k
  (lineParts va n).findSome? fun q =>
    match s.resolveFor c k x.tblroot x.priv (va + BitVec.ofNat 64 q.1) .write with
    | .ok (p, t) => if t.placeMute p then some s else (t.placeStuck c p q.2).map fun l => s.cxlAsk l false 0
    | .error _ => none

/-- Bytes written by the save path, up to the first that faults; a walk that stops at an unbacked entry is recorded (05 R122). -/
def State.savePut (s : State) (c k : Nat) (va : Word) (bs : List Byte) : State × Option (BitVec 6 × Word) :=
  (lineParts va bs.length).foldl (fun acc q =>
    match acc.2 with
    | some _ => acc
    | none =>
      match acc.1.saveLine c k (va + BitVec.ofNat 64 q.1) ((bs.drop q.1).take q.2) with
      | .ok t => (t, none)
      | .error e => (acc.1.noteWalk c (acc.1.ctx c k).tblroot (va + BitVec.ofNat 64 q.1), some e)) (s, none)

/-- Bytes whose values are open. -/
def State.freeBytes (s : State) (n : Nat) : List Byte × State :=
  (bytesOf n ((List.range 8).foldl (fun acc i => acc + (Config.freeWord (s.free + i)).toNat * 2 ^ (64 * i)) 0),
   { s with free := s.free + 8 })

/-- Bytes of a save area within one line, as resumption reads them. What it cannot read, a listed line (17 R416), one that a CXL port
does not deliver and storage of a fenced hamlet among it, is open. -/
def State.saveRead (s : State) (c k : Nat) (d : Strand) (va : Word) (n : Nat) : List Byte × State :=
  let x := s.ctx c k
  match s.resolveFor c k x.tblroot .runtime va .data with
  | .error _ => s.freeBytes n
  | .ok (.foreign _ _ _, t) =>
    match find d.shadow (va.toNat / 64 * 64) with
    | some r => (bytesOf n (r.toNat >>> (8 * (va.toNat % 64))), t)
    | none => t.freeBytes n
  | .ok (p, t) =>
    if (t.placeBad c p n).isSome || (t.placeStuck c p n).isSome || t.placeMute p then t.freeBytes n else t.readPlace c p n true

/-- Whether bytes of a save area lie in a listed line. -/
def State.saveBad (s : State) (c k : Nat) (va : Word) (n : Nat) : Bool :=
  (lineParts va n).any fun q =>
    match s.resolveFor c k (s.ctx c k).tblroot .runtime (va + BitVec.ofNat 64 q.1) .data with
    | .ok (p, t) => (t.placeBad c p q.2).isSome || (t.placeStuck c p q.2).isSome
    | .error _ => false

/-- The lines that hold bytes of a save area are listed, at their homes (17 R416). -/
def State.saveList (s : State) (c k : Nat) (va : Word) (n : Nat) : State :=
  (lineParts va n).foldl (fun t q =>
    match t.resolveFor c k (t.ctx c k).tblroot .runtime (va + BitVec.ofNat 64 q.1) .data with
    | .ok (p, u) => (u.listDest c k p).1
    | .error _ => t) s

/-- Bytes of a save area. -/
def State.saveGet (s : State) (c k : Nat) (d : Strand) (va : Word) (n : Nat) : List Byte × State :=
  (lineParts va n).foldl (fun acc q =>
    let (bs, t) := acc.2.saveRead c k d (va + BitVec.ofNat 64 q.1) q.2
    (acc.1 ++ bs, t)) ([], s)

/-! ### The end of a park or save -/

/-- Whether a context has nothing left that a park or a save waits for (R48, R63): mill commands, copies, named counts. -/
def State.settled (s : State) (c k : Nat) : Bool :=
  let x := s.ctx c k
  let co := s.core c
  x.c1 = 0 && x.c2 = 0 && x.c3 = 0 && (co.mill.queue.all fun q => q.ctx ≠ k) && co.copies.all fun y => y.ctx ≠ k

/-- The mill of a context that parks or is saved loses its owner, and its pending trap goes with the strand (R48, 11 R291). -/
def State.leaveMill (s : State) (c k : Nat) : State :=
  if s.owns c k then
    let m := (s.core c).mill
    s.setMill c { m with owned := false, gang := false, pend := 0, pendinfo := 0, discarded := 0 }
  else s

/-- The strand that a context gives up: its privilege, the scopes of its tokens, and a tag for its replay-queue entries, which
now carry it. -/
def State.giveUp (s : State) (c k : Nat) (d : Strand) : Strand × State :=
  let x := s.ctx c k
  let d := { d with priv := x.priv, tokScope := x.tokScope }
  if (s.core c).replay.any fun r => r.ctx = k then
    let (s, n) := s.fresh
    let tag := 8 * (n + 1) + k
    let co := s.core c
    ({ d with tag := tag },
     s.setCore c { co with replay := co.replay.map fun r => if r.ctx = k then { r with ctx := tag } else r })
  else ({ d with tag := 0 }, s)

/-- Records of a hamlet (R49, R441): of its lists and of its ready queues. -/
def State.records (s : State) (h : Nat) : Nat :=
  (s.ham h).waiters.length + (List.range 8).foldl (fun acc i =>
    acc + ((s.core (8 * h + i)).ready.filter fun r => match r with | .woken _ => true | _ => false).length) 0

/-- The cells that the records of a hamlet hold, of the pool or of the overflow area. -/
def State.cells (s : State) (h : Nat) (overflow : Bool) : List Nat :=
  ((s.ham h).waiters ++ (List.range 8).flatMap fun i =>
      (s.core (8 * h + i)).ready.filterMap fun r => match r with | .woken w => some w | .fresh _ _ _ => none).filterMap fun w =>
    if w.overflow = overflow then some w.slot else none

/-- A record is linked in a hamlet (R49, R83): in the overflow area once the pool is exhausted, on the overflow list where
the wait table has no entry for its key. It takes the lowest free cell (log entry 30). -/
def State.addRecord (s : State) (h : Nat) (w : Waiter) : State :=
  let x := s.ham h
  let keys := ((x.waiters.filter fun v => !v.listed).map Waiter.key).eraseDups
  let listed := !keys.contains w.key && 256 ≤ keys.length
  let pool := s.cells h false
  let full := 2048 ≤ pool.length
  let used := if full then s.cells h true else pool
  let slot := ((List.range (used.length + 1)).find? fun i => !used.contains i).getD 0
  let w := { w with overflow := full, slot := slot, listed := listed }
  let s := s.setHam h { x with waiters := x.waiters ++ [w] }
  if listed then s.mark h fun m => { m with overflow := true } else s

/-- The hamlet that holds the object of a key, for a waiter of a hamlet (R49, R79). -/
def State.keyHam (s : State) (h : Nat) (cond : BitVec 5) (key : Word) : Nat :=
  if cond = 0x01 || cond = 0x02 || cond = 0x08 then hdHam (key.setWidth 32)
  else if cond = 0x03 || cond = 0x04 then s.wordHamlet key.toNat
  else if cond = 0x05 then h
  else (key.toNat - 2 ^ 61) / 16 % 256

/-- A parked strand is linked, with a watch where its object lies elsewhere (R81); a wake event that has come meanwhile takes
it at once (R80). -/
def State.linkRecord (s : State) (h : Nat) (p : Parking) (w : Waiter) : State :=
  if p.woken then s.makeReady (8 * h + w.core) (.woken { w with answer := p.answer })
  else
    let g := s.keyHam h w.cond w.key
    let t := s.addRecord h w
    if g = h || (t.ham g).waiters.any (fun v => v.watch = some h && v.key = w.key) then t
    else t.addRecord g { w with cond := 0x1F, save := 0, core := 0, strand := {}, frame := { pc := BitVec.ofNat 57 h },
                                owned := false, marks := [], watch := some h }

/-- Records that a hamlet can hold (R441): of its pool and of its overflow area. -/
def recordsMax : Nat := 10240

/-- A park finds no cell for its record in a hamlet, or none for its watch in that of its object (R441). -/
def State.noCell (s : State) (h : Nat) (p : Parking) : Bool :=
  let g := s.keyHam h p.cond p.key
  recordsMax ≤ s.records h
    || (g ≠ h && !p.woken && !((s.ham g).waiters.any fun v => v.watch = some h && v.key = p.key) && recordsMax ≤ s.records g)

/-- The record of a context whose save is written, if a cell is free (R441): it is linked, and the context becomes IDLE. -/
def State.linkPark (s : State) (c k : Nat) : State :=
  let x := s.ctx c k
  let h := hamOf c
  match x.parking, x.strand with
  | some p, some d =>
    let own := p.owned || s.owns c k
    let s := s.leaveMill c k
    if s.noCell h p then
      ((s.setCtx c k { x with parking := some { p with waiting := true, owned := own } }).owe
        (.overflowLinkWait (Fin.ofNat 2048 c) (Fin.ofNat 5 k))).callIdle c
    else
      let z := s.slices h
      let save := saveBase x d (planOf d.map false own z)
      let (d, s) := s.giveUp c k d
      let w : Waiter := { key := p.key, cond := p.cond, episode := p.episode, save := save, core := c % 8, strand := d,
                          frame := d.frame (x.pc.setWidth 57) x.repstate, owned := own, marks := x.marks, watch := none,
                          overflow := false, listed := false, answer := none }
      ((s.toIdle c k).linkRecord h p w)
  | _, _ => s

/-- The chunks of 64 bytes of a save's ranges: the address in the slice and the place in the save of each. -/
def State.saveChunks (s : State) (c k : Nat) (p : Plan) : List (Nat × Nat) :=
  (p.ranges.foldl (fun (acc : List (Nat × Nat) × Nat) g =>
    (acc.1 ++ (List.range (g.2.2 / 64)).map fun i => (s.sliceAt c k g.1 (g.2.1 + 64 * i), acc.2 + 64 * i), acc.2 + g.2.2))
    ([], p.tail)).1

/-- A save does not deliver a listed line of a tile slice: the lines of the save area that would hold it are listed (17 R416). -/
def State.saveListed (s : State) (c k : Nat) (base : Word) (p : Plan) : State :=
  if s.bad.isEmpty then s
  else (s.saveChunks c k p).foldl (fun t q =>
    if t.bad.contains (q.1 / 64 * 64) then t.saveList c k (base + BitVec.ofNat 64 q.2) 64 else t) s

/-- A context's save is written below its strand's `fp`, or into its pre-emption area where it is whole. A fault stops the
context, direct to the reeve core (R48). `again` is owed while it must wait. -/
def State.writeSave (s : State) (c k : Nat) (whole : Bool) (again : Instr) (go : State → State) : State :=
  let x := s.ctx c k
  match x.strand with
  | none => s
  | some d =>
    let p := planOf d.map whole (s.owns c k) (s.slices (hamOf c))
    let base := if whole then sext57 x.savearea else saveBase x d p
    let f := d.frame (x.pc.setWidth 57) x.repstate
    match s.saveHeld c k base p.size with
    | some t => t.owe again
    | none =>
      match s.savePut c k base (s.saveBytes c k d f p) with
      | (t, none) => go (t.saveListed c k base p)
      | (t, some (cause, va)) => ((t.as c k).enterTrap false true cause va x.pc).as s.curCore s.curCtx

/-- The save of a parking context goes on (R48). -/
def State.parkStep (s : State) (c : CoreId) (k : CtxId) : State :=
  let x := s.ctx c.val k.val
  match x.parking with
  | some p =>
    if x.status ≠ .parking || p.waiting then s
    else if !s.settled c.val k.val then s.owe (.parkSaveDone c k)
    else s.writeSave c.val k.val false (.parkSaveDone c k) fun t => t.linkPark c.val k.val
  | none => s

def execParkSaveDone (c : CoreId) (k : CtxId) (s : State) : Host.Outcome State Fault Refusal := .next (s.parkStep c k)

/-- A park that waits for a cell of the overflow area (R441). -/
def execOverflowLinkWait (c : CoreId) (k : CtxId) (s : State) : Host.Outcome State Fault Refusal :=
  let x := s.ctx c.val k.val
  .next (match x.parking with
    | some p => if x.status = .parking && p.waiting then s.linkPark c.val k.val else s
    | none => s)

/-- A saved strand belongs to device runtime (R28, R63); its context becomes IDLE. -/
def State.endSave (s : State) (c k : Nat) : State :=
  let x := s.ctx c k
  match x.parking, x.strand with
  | some p, some d =>
    let own := s.owns c k
    let save := if p.whole then sext57 x.savearea else saveBase x d (planOf d.map false own (s.slices (hamOf c)))
    let (d, s) := (s.unquiesce c k).giveUp c k { d with notice := p.whole || d.notice }
    let v : Saved := { ctx := k, save := save, strand := d, frame := d.frame (x.pc.setWidth 57) x.repstate, owned := own,
                       marks := x.marks, gang := x.inGang, grank := x.grank, lead := x.lead, whole := p.whole,
                       note := if p.cond = 0 then none else some { p with save := false, whole := false },
                       gangq := x.gangq, released := false }
    let s := s.leaveMill c k
    let co := s.core c
    (s.setCore c { co with saved := co.saved ++ [v] }).toIdle c k
  | _, _ => s

/-- The save of a pre-empted context goes on (R63): its results commit once they have returned. -/
def State.saveStep (s : State) (c : CoreId) (k : CtxId) : State :=
  let x := s.ctx c.val k.val
  match x.parking with
  | some p =>
    if x.status ≠ .saving then s
    else if !x.returned || !s.settled c.val k.val then s.owe (.saveComplete c k)
    else
      (((s.as c.val k.val).commitAll).as s.curCore s.curCtx).writeSave c.val k.val p.whole (.saveComplete c k) fun t =>
        t.endSave c.val k.val
  | none => s

def execSaveComplete (c : CoreId) (k : CtxId) (s : State) : Host.Outcome State Fault Refusal := .next (s.saveStep c k)

/-! ### Pre-emption (R63, 19 R449) -/

/-- The member of a context's gang at which its deadline counts (R449): its leader, or itself. -/
def State.leaderOf (s : State) (c k : Nat) : Nat × Nat :=
  let x := s.ctx c k
  if x.follows then
    match (List.range 4).find? fun j => (s.ctx x.lead j).leads with
    | some j => (x.lead, j)
    | none => (c, k)
  else (c, k)

/-- The members of the gang of a context, or itself. -/
def State.gangOf (s : State) (c k : Nat) : List (Nat × Nat) :=
  let l := s.leaderOf c k
  if (s.ctx l.1 l.2).inGang then l :: (s.followers l.1).map fun m => (m.1, m.2.1) else [(c, k)]

/-- The count towards a deadline begins, at the leader of a gang (R449); a request to another of its members goes on with the count
of the earlier one (log entry 57). -/
def State.startCount (s : State) (c k : Nat) : State :=
  let l := s.leaderOf c k
  if !(s.ctx c k).preempt && (s.gangOf c k).any fun m => (s.ctx m.1 m.2).preempt then s
  else s.setCtx l.1 l.2 { s.ctx l.1 l.2 with counts := true, since := s.cycle.toNat, deadline := 0 }

/-- Device runtime asks for a context, with its pre-emption area. An IDLE context, one whose strand is parked or being saved,
and the handler context have nothing to save. -/
def State.askSave (s : State) (c : CoreId) (k : CtxId) (area : BitVec 57) : State :=
  if k.val = 4 then s
  else
    match (s.ctx c.val k.val).status with
    | .running | .following | .stopped =>
      let t := s.startCount c.val k.val
      (t.setCtx c.val k.val { t.ctx c.val k.val with preempt := true, savearea := area }).oweOnce (.saveDeadlineExpiry c k)
    | _ => s

def execPreemptRequest (c : CoreId) (k : CtxId) (area : BitVec 57) (s : State) : Host.Outcome State Fault Refusal :=
  .next (s.askSave c k area)

/-- A Deadline Save is marked in its hamlet's status (R55, R449). -/
def Marks.late (m : Marks) : Marks := { m with deadline := true, cls := max m.cls 1 }

/-- The cycles that have counted towards a context's deadline (R449): one that had left the gang in which its request counted begins
anew (log entry 57). -/
def Ctx.counted (l : Ctx) (now : Nat) : Nat :=
  if !l.counts then 0
  else l.deadline + (if (l.status = .running || l.status = .following) && !l.handling then now - l.since else 0)

/-- The deadline of a pre-emption request (R449): it counts, at the leader of a gang, while that context runs and handles no trap;
past it, the context, or its whole gang, is saved whole, once no word that an LDSYNC has been given is still on its way. -/
def State.deadlineStep (s : State) (c : CoreId) (k : CtxId) : State :=
  let (lc, lk) := s.leaderOf c.val k.val
  let l := s.ctx lc lk
  let limit := if (s.core lc).pdeadline = 0 then 65536 else (s.core lc).pdeadline.toNat
  if !(s.ctx c.val k.val).preempt then s
  else
    let on : Bool := (l.status = .running || l.status = .following) && !l.handling
    let n := l.counted s.cycle.toNat
    let ms := s.gangOf c.val k.val
    if on && limit ≤ n && !ms.any fun m => (s.ctx m.1 m.2).wordDue then
      ms.foldl (fun t m => (t.beginSave m.1 m.2 true).mark (hamOf m.1) Marks.late) s
    else (s.setCtx lc lk { l with counts := true, deadline := n, since := s.cycle.toNat }).owe (.saveDeadlineExpiry c k)

def execSaveDeadlineExpiry (c : CoreId) (k : CtxId) (s : State) : Host.Outcome State Fault Refusal := .next (s.deadlineStep c k)

/-- Device runtime releases the strands saved from a context number (R63, 03 R69 source 1). -/
def execResumptionRelease (c : CoreId) (k : CtxId) (s : State) : Host.Outcome State Fault Refusal :=
  let co := s.core c.val
  .next (if co.saved.any fun v => v.ctx = k.val && !v.released then
      (s.setCore c.val { co with saved := co.saved.map fun v => if v.ctx = k.val then { v with released := true } else v }).owe
        (.frameTake c k)
    else s)

/-! ### Beginning and resuming -/

/-- Bytes of memory from an address on set to what an unlisted address reads as. -/
def memClear (m : List Host.Cell) (a n : Nat) : List Host.Cell := m.filter fun e => e.1 < a || a + n ≤ e.1

/-- Whether a tile's key is in the commons slice, and its place there; the mark of a byte that comes from a listed line. -/
def tileCommons (key : Nat) : Bool := 2 ^ 20 ≤ key % 2 ^ 21
def tileLost (key : Nat) : Bool := 2 ^ 21 ≤ key

/-- Tile bytes written into a context's slices: a key is 2^20 for the commons slice, plus the place in it. A byte from a listed
line (2^21 more) is not delivered: its line here is listed (17 R416). -/
def State.putTiles (s : State) (c k : Nat) (ts : List (Nat × Byte)) : State :=
  let at' (key : Nat) : Nat := s.sliceAt c k (tileCommons key) (key % 2 ^ 20)
  let t := { s with mem := (ts.filter fun b => !tileLost b.1).foldl (fun m b => memSet m (at' b.1) b.2) s.mem }
  (((ts.filter fun b => tileLost b.1).map fun b => at' b.1 / 64 * 64).eraseDups).foldl (fun u l => u.listLine l (u.seqOf c) true) t

/-- A core whose context takes work: its backoff starts again (03 R78). -/
def State.tookWork (s : State) (c : Nat) : State := let co := s.core c; s.setCore c { co with backoff := 64 }

/-- The register store with which a frame that has not run before begins (07 R186): its `fp`, its `arg`, and the launch's view
presets in the view block. -/
def freshStore (f : Frame) (views : BitVec 2048) : Map Row :=
  [(0, rowOfWords [f.fp.setWidth 64, f.arg])] ++ (List.range 4).map fun i => (8 + i, heldRow (8 + i) (views.extractLsb' (512 * i) 512))

/-- The view presets of a hamlet's launch. -/
def State.viewsOf (s : State) (h : Nat) : BitVec 2048 := match s.launchOf h with | some l => l.views | none => 0

/-- A context begins a strand from a frame that has not run before (07 R186). -/
def State.begin' (s : State) (c k : Nat) (f : Frame) (seq : Word) (ts : List (Nat × Byte)) : State :=
  let x := s.ctx c k
  ((s.putTiles c k ts).setCtx c k { x.idled with
    status := .running, pc := sext57 f.pc, store := freshStore f (s.viewsOf (hamOf c)), preds := [], fpstatus := 0x40,
    srstate := 0, tokens := 0xFF, marks := [], tokScope := [], c1 := 0, c2 := 0, c3 := 0, priv := .kernel,
    strand := some (Strand.ofFrame f seq) }).tookWork c

/-- Rows from bytes. -/
def rowsOf (bs : List Byte) (n : Nat) : List Row := (List.range n).map fun i => rowOf ((bs.drop (64 * i)).take 64)

/-- A bank from bytes. -/
def bankOf (bs : List Byte) : Map Row := ((rowsOf bs 576).zipIdx.map fun (r, i) => (i, r)).filter fun e => e.2 ≠ 0

/-- A scale buffer refilled by its record (11 R299); where that names a listed line, which is not delivered (17 R416), its words are
open. -/
def State.refillScales (s : State) (c k : Nat) (r : BitVec 128) (p n : Nat) : ScaleBuf :=
  let d := memDesc r
  if r = 0 then scaleOnes
  else if (s.badOf c k (d.all 32 p)).isSome then
    (List.range d.rows).foldl (fun b l => (List.range d.cols).foldl (fun (b : ScaleBuf) w =>
      { b with words := put b.words (64 * l + w) ((Config.freeWord (n + 64 * l + w)).setWidth 32) }) b) scaleOnes
  else s.loadScales c k scaleOnes d p

/-- The mill of a core retaken by a strand that resumes (R50, 11 R299): its banks, MILLFMT, JSTAT and DRAINPOS, its records and,
by them, the scale buffers. -/
def State.retake (s : State) (c k : Nat) (gang : Bool) (rank : Nat) (rec' : BitVec 1024) (vis work : Map Row) : State :=
  let m := (s.core c).mill
  let a : BitVec 128 := rec'.extractLsb' 768 128
  let b : BitVec 128 := rec'.extractLsb' 896 128
  let m := { m.taken k with
    gang := gang, bank0 := if m.vis1 then work else vis, bank1 := if m.vis1 then vis else work, recA := a, recB := b,
    millfmt := rec'.extractLsb' 512 64, jstat := rec'.extractLsb' 576 64, drainpos := rec'.extractLsb' 640 64 }
  let t := s.setMill c m
  let words := 64 * 4096
  { t.setMill c { m with
      scaleA := t.refillScales c k a (pieceA rank) t.free, scaleB := t.refillScales c k b (pieceB rank) (t.free + words) } with
    free := t.free + 2 * words }

/-- A resumption: the strand, its frame, its save, and what goes with them. -/
structure Back where
  strand : Strand
  frame : Frame
  save : Word
  whole : Bool
  owned : Bool
  marks : Map Word
  answer : Option Answer := none
  note : Option Parking := none
  gang : Bool := false
  grank : Word := 0
  lead : Nat := 0
  gangq : List Fwd := []
  deriving DecidableEq, Repr

/-- What of its save comes back, and whether it needs the mill (R50). -/
def State.backPlan (s : State) (c : Nat) (b : Back) : Plan := planOf b.strand.map b.whole b.owned (s.slices (hamOf c))
def State.needsMill (s : State) (c : Nat) (b : Back) : Bool :=
  let p := s.backPlan c b
  p.vis || p.work || b.gang

/-- A strand resumes on a context (R50, R62): rows, banks and ranges outside its map read as zero; a Deadline Save is then
due as a notice, at its first instruction (19 R449). -/
def State.resume (s : State) (c k : Nat) (b : Back) : State :=
  let p := s.backPlan c b
  let (bs, s) := s.saveGet c k b.strand b.save p.size
  let z := s.slices (hamOf c)
  let rec' : BitVec 1024 := BitVec.ofNat 1024 (ofBytes ((bs.drop 64).take 128))
  let rows := (p.rows.zip (rowsOf (bs.drop 192) p.rows.length)).map fun r => (r.1, heldRow r.1 r.2)
  let banks := bs.drop (192 + 64 * p.rows.length)
  let vis := if p.vis then bankOf banks else []
  let work := if p.work then bankOf (banks.drop (if p.vis then 36864 else 0)) else []
  let clean := memClear (memClear s.mem (s.sliceAt c k false 0) z.1) (s.sliceAt c k true 0) z.2
  let mem := (p.ranges.foldl (fun (acc : List Host.Cell × List Byte) g =>
    (memWrite acc.1 (s.sliceAt c k g.1 g.2.1) (acc.2.take g.2.2), acc.2.drop g.2.2)) (clean, bs.drop p.tail)).1
  let lost := if s.bad.isEmpty then []
    else ((s.saveChunks c k p).filter fun q => s.saveBad c k (b.save + BitVec.ofNat 64 q.2) 64).map Prod.fst
  let d := b.strand
  let mine (r : Replay) : Replay := if r.ctx = d.tag then { r with ctx := k } else r
  let s := lost.foldl (fun t a => t.listLine a (t.seqOf c) true) { s with mem := mem }
  let co := s.core c
  let s := s.setCore c { co with replay := if d.tag = 0 then co.replay else co.replay.map mine }
  let x := s.ctx c k
  let pc := sext57 b.frame.pc
  let y : Ctx := { x.idled with
    status := if b.gang && fld b.grank 2 0 ≠ 0 then .following else .running
    pc := pc, store := rows, preds := (List.range 7).map (fun i => (i + 1, rec'.extractLsb' (64 * i) 64))
    fpstatus := BitVec.ofNat 64 (fld rec' 472 464), srstate := rec'.extractLsb' 480 32, repstate := b.frame.repstate
    tokens := 0xFF, marks := b.marks, tokScope := d.tokScope, c1 := 0, c2 := 0, c3 := 0, priv := d.priv
    grank := if b.gang then b.grank else 0, lead := b.lead, gangq := b.gangq, parking := b.note, answer := b.answer
    strand := some { d with
      pend := rec'.extractLsb' 448 6, pendinfo := rec'.extractLsb' 704 64, ascale := rec'.extractLsb' 768 128,
      bscale := rec'.extractLsb' 896 128, tag := 0, shadow := [] } }
  let s := (s.setCtx c k y).tookWork c
  if s.needsMill c b then s.retake c k b.gang (fld y.grank 2 0) rec' vis work else s

end Sys2Proof.Machine
end

