-- ==== Sys2Proof/Machine/Deque.lean ====
section
/-! DEFINITION. The deque unit (03 R71, R72, R74), the departure of a frame from its deque (02 R33, R35), and SPAWN, SPAWNR,
SPLIT, POPF, SYNC and PUBLISH, opcodes 0x53 to 0x58 (02 R32 to R37, 12 R313 to R318, 18 R428, 19 R442). -/

namespace Sys2Proof.Machine

/-! ### Slots -/

/-- The frame of a slot. -/
def Slot.frame? (x : Slot) : Option Frame := match x.item with | .frame f => some f | .stub _ => none

/-- Whether a slot holds a frame that a thief may take. -/
def Slot.open' (x : Slot) : Bool := !x.locked && match x.item with | .frame f => f.published | .stub _ => false

/-- The slots of a strand's deque, oldest first. -/
def Core.slotsOf (co : Core) (d : Strand) : List Slot := match d.deque with | some q => look [] co.deques q | none => []

/-- Resident slots of a deque, and of the unit; slots in the spill area. -/
def residentIn (l : List Slot) : Nat := (l.filter fun x => !x.spilled).length
def Core.resident (co : Core) : Nat := co.deques.foldl (fun acc e => acc + residentIn e.2) 0
def Core.spilled (co : Core) : Nat := co.deques.foldl (fun acc e => acc + (e.2.length - residentIn e.2)) 0

/-- The oldest `n` resident slots of a deque moved to the spill area. -/
def spillOldest : Nat → List Slot → List Slot
  | _, [] => []
  | 0, l => l
  | n + 1, x :: r => if x.spilled then x :: spillOldest (n + 1) r else { x with spilled := true } :: spillOldest n r

/-- A spill (R72): of the deque with the most resident slots, the lowest identifier on ties. None while the area is full; with
fewer than 8 free slots it takes as many (DESIGN CHOICE, log entry 43). -/
def Core.spill (co : Core) : Option Core :=
  let room := 1024 - co.spilled
  if room = 0 then none
  else
    let most := co.deques.foldl (fun acc e => max acc (residentIn e.2)) 0
    match co.deques.find? fun e => residentIn e.2 = most with
    | some e => some { co with deques := put co.deques e.1 (spillOldest (min 8 room) e.2) }
    | none => none

/-- The steal mask of a core's hamlet follows its deques (R74). -/
def State.remask (s : State) (c : Nat) : State :=
  let b : BitVec 8 := 1 <<< (c % 8)
  let h := s.ham (hamOf c)
  let on : Bool := (s.core c).published
  s.setHam (hamOf c) { h with stealMask := if on then h.stealMask ||| b else h.stealMask &&& ~~~ b }

/-- A strand replaced wherever the one of a deque is: in a context, a waiter record or a save. -/
def State.onDeque (s : State) (c q : Nat) (f : Strand → Strand) : State :=
  let g (d : Strand) : Strand := if d.deque = some q then f d else d
  let co := s.core c
  let s := s.setCore c { co with
    ctxs := co.ctxs.map fun e => (e.1, { e.2 with strand := e.2.strand.map g })
    ready := co.ready.map fun r => match r with | .woken w => .woken { w with strand := g w.strand } | r => r
    saved := co.saved.map fun v => { v with strand := g v.strand } }
  let h := s.ham (hamOf c)
  s.setHam (hamOf c) { h with
    waiters := h.waiters.map fun w => if w.core = c % 8 && w.watch = none then { w with strand := g w.strand } else w }

/-- The slots of a deque replaced: an empty one gives its descriptor back (R71). -/
def State.setSlots (s : State) (c q : Nat) (l : List Slot) : State :=
  let co := s.core c
  (if l.isEmpty then (s.setCore c { co with deques := del co.deques q }).onDeque c q fun d => { d with deque := none }
   else s.setCore c { co with deques := put co.deques q l }).remask c

/-- The deque that a thief is given from: of those whose oldest frame is published, the one whose oldest frame was pushed
earliest, with that frame's slot. -/
def Core.victim (co : Core) : Option (Nat × Nat × Slot) :=
  let cs := co.deques.filterMap fun e =>
    let i := e.2.findIdx fun x => x.frame?.isSome
    match e.2[i]? with
    | some x => if x.open' then some (e.1, i, x) else none
    | none => none
  cs.foldl (fun acc x => match acc with
    | some y => if x.2.2.stamp < y.2.2.stamp then some x else some y
    | none => some x) none

/-- The owner takes the tail of a deque (R38): a request that would be given the same frame in this cycle is refused. -/
def State.ownerTakes (s : State) (c q : Nat) : State :=
  let co := s.core c
  match co.victim with
  | some (p, i, _) => if p = q && i + 1 = (look [] co.deques q).length then s.setCore c { co with took := some s.cycle } else s
  | none => s

/-- A free deque identifier (R71): none while all 256 descriptors are held. Which one is open: the next free one after the last
given, modulo 65,536 (DESIGN CHOICE, log entry 43). -/
def Core.freeDeque (co : Core) : Option Nat :=
  if 256 ≤ co.deques.length then none
  else ((List.range 257).map fun i => (co.nextDeque + i) % 65536).find? fun q => (find co.deques q).isNone

/-- Whether a push onto a strand's deque overflows (R442): 0 for no free descriptor, 1 for a full spill area. -/
def Core.overflow (co : Core) (d : Strand) : Option Nat :=
  if d.deque.isNone && 256 ≤ co.deques.length then some 0
  else if 64 ≤ co.resident && co.spill.isNone then some 1
  else none

/-- A frame pushed at the tail of the deque of a strand that runs on a context of a core, where nothing overflows. -/
def State.pushFrame (s : State) (c k : Nat) (f : Frame) : State :=
  let x := s.ctx c k
  match x.strand with
  | none => s
  | some d =>
    let (s, n) := s.fresh
    let co := s.core c
    let (co, s) := if 64 ≤ co.resident then
        (co.spill.getD co, s.mark (hamOf c) fun m => { m with dequespill := true }) else (co, s)
    let slot : Slot := { item := .frame f, spilled := false, stamp := n }
    match d.deque with
    | some q => (s.setCore c co).setSlots c q (look [] co.deques q ++ [slot])
    | none =>
      match co.freeDeque with
      | none => s
      | some q =>
        let s := s.setCore c { co with nextDeque := (q + 1) % 65536 }
        (s.setCtx c k { s.ctx c k with strand := some { d with deque := some q } }).setSlots c q [slot]

/-- Up to 8 of the youngest spilled slots of a deque read back, while its resident part is empty (R72). With all 64 slots held
it brings one, beyond the 64 (DESIGN CHOICE, log entry 43: the spec says only that the pop completes after the read). -/
def State.readBack (s : State) (c q : Nat) : State :=
  let co := s.core c
  let l := look [] co.deques q
  if residentIn l ≠ 0 then s
  else
    let n := min 8 (max 1 (64 - co.resident))
    let back := (l.drop (l.length - n)).map fun x => { x with spilled := false }
    s.setCore c { co with deques := put co.deques q (l.take (l.length - n) ++ back) }

def execSpillReadback (c : CoreId) (dq : Nat) (s : State) : Host.Outcome State Fault Refusal :=
  .next (if (find (s.core c.val).deques dq).isSome then s.readBack c.val dq else s)

/-! ### Ranges (R35) -/

/-- Grain, hi and lo of a range argument; a grain of 0 reads as 1. -/
def rangeGrain (a : Word) : Nat := max 1 (fld a 63 48)
def rangeHi (a : Word) : Nat := fld a 47 24
def rangeLo (a : Word) : Nat := fld a 23 0

/-- A range argument with other bounds. -/
def rangeArg (a : Word) (hi lo : Nat) : Word := BitVec.ofNat 64 (fld a 63 48 * 2 ^ 48 + hi % 2 ^ 24 * 2 ^ 24 + lo % 2 ^ 24)

/-- Whether a range splits, and its middle. -/
def rangeSplits (a : Word) : Bool := rangeGrain a < rangeHi a - rangeLo a
def rangeMid (a : Word) : Nat := rangeLo a + (rangeHi a - rangeLo a) / 2

/-! ### Counts -/

/-- A count changed through a handle that a frame carries: a null or stale one names none. -/
def State.bump (s : State) (h : Nat) (hd : BitVec 32) (v : Word) : State := if s.stale h hd then s else s.addCount hd v

/-! ### A frame leaves its deque (R33 steps 1 to 4, R51) -/

/-- The strand of a deque of a core, if any holds it. -/
def State.strandOf (s : State) (c q : Nat) : Option Strand :=
  let co := s.core c
  let all := co.ctxs.filterMap (fun e => e.2.strand) ++ (s.ham (hamOf c)).waiters.filterMap (fun w =>
      if w.core = c % 8 && w.watch = none then some w.strand else none)
    ++ co.ready.filterMap (fun r => match r with | .woken w => some w.strand | _ => none) ++ co.saved.map Saved.strand
  all.find? fun d => d.deque = some q

/-- The future of a departing continuation's `synch` (step 2): one more work for it; none while the table is full. -/
def State.departSynch (s : State) (c : Nat) (f : Frame) : Option (Frame × State) :=
  if f.synch ≠ 0 then some (f, s.bump (hamOf c) f.synch 1)
  else (s.allocFuture (hamOf c) .count 1).map fun r => ({ f with synch := r.1 }, r.2)

/-- The join of a departing continuation (step 3): of slot 0 the strand's own, else that of the stub before it, which goes. -/
def State.departJoin (s : State) (c q i : Nat) (l : List Slot) (f : Frame) : Frame × List Slot × State :=
  if i = 0 then
    match s.strandOf c q with
    | some d =>
      ({ f with parentj := d.base, root := d.root, donated := d.donated, originpkg := d.originpkg, originh := d.originh }, l,
       s.onDeque c q fun d => { d with base := 0, root := false, donated := false, originpkg := 0, originh := 0 })
    | none => (f, l, s)
  else
    match l[i - 1]? with
    | some { item := .stub h, .. } => ({ f with parentj := h }, l.eraseIdx (i - 1), s)
    | _ => (f, l, s)

/-- The frame of slot i leaves its deque for a thief: as much of it as leaves, or none where no future is free. -/
def State.depart (s : State) (c q i : Nat) : Option (Frame × State) :=
  let l := look [] (s.core c).deques q
  match l[i]? with
  | some { item := .frame f, spilled := sp, stamp := n, .. } =>
    if f.kind = 1 && rangeSplits f.arg then
      let lower := { f with arg := rangeArg f.arg (rangeMid f.arg) (rangeLo f.arg) }
      let t := (s.bump (hamOf c) f.parentj 1).setSlots c q (l.set i { item := .frame lower, spilled := sp, stamp := n })
      some ({ f with arg := rangeArg f.arg (rangeHi f.arg) (rangeMid f.arg) }, t)
    else if f.kind = 0 then
      (s.departSynch c f).map fun r =>
        let (g, m, t) := r.2.departJoin c q i (l.set i { item := .stub r.1.synch, spilled := sp, stamp := n }) r.1
        (g, t.setSlots c q m)
    else some (f, s.setSlots c q (l.eraseIdx i))
  | _ => none

/-! ### Tile bytes (R33 step 5) -/

/-- Where the strand of a deque keeps the bytes of its slices: those of a context, or a save. -/
inductive Keep where
  | slices (k : Nat)
  | save (b : Back)

/-- The save that a waiter record names, and that of a saved strand. -/
def Waiter.back (w : Waiter) : Back :=
  { strand := w.strand, frame := w.frame, save := w.save, whole := false, owned := w.owned, marks := w.marks, answer := w.answer }
def Saved.back (v : Saved) : Back :=
  { strand := v.strand, frame := v.frame, save := v.save, whole := v.whole, owned := v.owned, marks := v.marks,
    note := v.note.filter fun p => !p.woken, answer := v.note.bind Parking.answer, gang := v.gang, grank := v.grank,
    lead := v.lead, gangq := v.gangq }

/-- Where the strand of a deque is. -/
def State.keepOf (s : State) (c q : Nat) : Option Keep :=
  let co := s.core c
  match co.ctxs.find? fun e => (e.2.strand.bind Strand.deque) = some q with
  | some e => some (.slices e.1)
  | none =>
    let recs := ((s.ham (hamOf c)).waiters.filter fun w => w.core = c % 8 && w.watch = none)
      ++ co.ready.filterMap fun r => match r with | .woken w => some w | _ => none
    match recs.find? fun w => w.strand.deque = some q with
    | some w => some (.save w.back)
    | none => (co.saved.find? fun v => v.strand.deque = some q).map fun v => .save v.back

/-- The bytes of a save that lie at places of a slice. -/
def saveTiles (p : Plan) (bs : List Byte) (commons : Bool) (off n : Nat) : List Byte :=
  (List.range n).map fun i =>
    (p.ranges.foldl (fun (acc : Option Byte × Nat) g =>
      let hit : Bool := g.1 = commons && g.2.1 ≤ off + i && off + i < g.2.1 + g.2.2
      (if acc.1.isNone && hit then bs[acc.2 + (off + i - g.2.1)]? else acc.1, acc.2 + g.2.2)) (none, 0)).1.getD 0

/-- The bytes of a frame's valid tiles, as they travel with it: a key is 2^20 for the commons slice, plus the place in it; 2^21
more marks a byte of a listed line (17 R416). -/
def State.tilesOf (s : State) (c : Nat) (keep : Keep) (f : Frame) : List (Nat × Byte) × State :=
  let ts := f.tile.toList.filterMap tileRange
  let keyed (g : Bool × Nat × Nat) (bs : List Byte) : List (Nat × Byte) :=
    bs.zipIdx.map fun (b, i) => ((if g.1 then 2 ^ 20 else 0) + g.2.1 + i, b)
  match keep with
  | .slices k =>
    let marked (g : Bool × Nat × Nat) (b : Nat × Byte) : Nat × Byte :=
      if !s.bad.isEmpty && s.bad.contains (s.sliceAt c k g.1 (b.1 % 2 ^ 20) / 64 * 64) then (b.1 + 2 ^ 21, b.2) else b
    (ts.flatMap fun g => (keyed g (memRead s.mem (s.sliceAt c k g.1 g.2.1) g.2.2)).map (marked g), s)
  | .save b =>
    if ts.isEmpty then ([], s)
    else
      let p := s.backPlan c b
      let va := b.save + BitVec.ofNat 64 p.tail
      let (bs, t) := s.saveGet c 0 b.strand va (p.size - p.tail)
      let lost : List Byte := if s.bad.isEmpty then []
        else (lineParts va (p.size - p.tail)).flatMap fun q =>
          List.replicate q.2 (if s.saveBad c 0 (va + BitVec.ofNat 64 q.1) q.2 then 1 else 0)
      (ts.flatMap fun g => ((keyed g (saveTiles p bs g.1 g.2.1 g.2.2)).zip (saveTiles p lost g.1 g.2.1 g.2.2)).map
        fun (b, l) => if l = 0 then b else (b.1 + 2 ^ 21, b.2), t)

/-- The tiles of the frame of a deque's slot. -/
def State.dequeTiles (s : State) (c q : Nat) (f : Frame) : List (Nat × Byte) × State :=
  match s.keepOf c q with
  | some k => s.tilesOf c k f
  | none => ([], s)

/-! ### What the owner's operations check -/

/-- Translation Absent for a tile of the strand's header beyond the launch's slices (R428): its first byte beyond, as a window
address. -/
def State.tileFault (s : State) (d : Strand) : Option (BitVec 6 × Word) :=
  let z := s.slices (hamOf s.curCore)
  d.tile.toList.findSome? fun t =>
    match tileRange t with
    | some (commons, off, n) =>
      let size := if commons then z.2 else z.1
      if size < off + n then
        some (0x04, BitVec.ofNat 64 (0xFFFF * 2 ^ 40 + (if commons then 0x310000 else 0x300000) + max off size))
      else none
    | none => none

/-- The faults of a push after its operands' alignment (R428, 17 R409): Deque Overflow, then the tiles. -/
def State.pushFault (s : State) (d : Strand) : Option (BitVec 6 × Word) :=
  match s.myCore.overflow d with
  | some n => some (0x0E, BitVec.ofNat 64 n)
  | none => s.tileFault d

/-- Whether a frame of the acting context is on its way to another package's donation queue: the owner's operations on its
deque wait for the answer. -/
def State.donating (s : State) : Bool :=
  match s.me.strand with
  | some d => (s.myCore.slotsOf d).any Slot.locked
  | none => false

/-! ### SPAWN (R32, R73, R313, R314) -/

/-- The target of a SPAWN. -/
def State.spawnTarget (s : State) (o : Ops) : Word :=
  match o.lit with
  | some l => l
  | none => s.relTarget o o.b o.d

/-- SPAWN on the handler context: a published message frame, placed on the deque of the strand of the lowest-numbered RUNNING
context, or in the ready queue (R73). -/
def State.spawnMessage (s : State) (o : Ops) : Act :=
  let c := s.curCore
  let f : Frame := { pc := (s.spawnTarget o).setWidth 57, kind := 2, arg := s.scOp o o.a, published := true }
  match (List.range 4).find? fun k => (s.ctx c k).status = .running && (s.ctx c k).strand.isSome with
  | none => .done (s.makeReady c (.fresh f (s.seqOf c) []))
  | some k =>
    match s.myCore.overflow ((s.ctx c k).strand.getD {}) with
    | some n => .trap 0x0E (BitVec.ofNat 64 n)
    | none => .done (s.pushFrame c k f)

/-- The continuation frame of a SPAWN (R32 step 1). -/
def State.continuation (s : State) (o : Ops) (d : Strand) : Frame :=
  let first : Bool := (s.myCore.slotsOf d).isEmpty
  let f : Frame := { pc := (s.me.pc + BitVec.ofNat 64 o.bytes).setWidth 57, fp := (s.scOp o o.a).setWidth 57, prio := d.prio,
                     features := d.features, tile := d.tile, synch := d.synch }
  if first then { f with parentj := d.base, root := d.root, donated := d.donated, originpkg := d.originpkg, originh := d.originh }
  else f

/-- Body of SPAWN. -/
def spawnBody (o : Ops) (s : State) : Act :=
  s.within [scLoc o o.a]
    (if s.onHandler then s.spawnMessage o
     else
       match s.me.strand with
       | none => .hold s
       | some d =>
         if s.me.follows then .done s
         else if (s.scOp o o.a).extractLsb' 0 4 ≠ 0 then .trap 0x03 (s.scOp o o.a)
         else
           match s.pushFault d with
           | some f => .trap f.1 f.2
           | none =>
             s.withRelease .core false fun t =>
               let u := t.pushFrame t.curCore t.curCtx (t.continuation o d)
               .jump (u.setMe { u.me with strand := u.me.strand.map fun e => { e with synch := 0 } }) (s.spawnTarget o))

def execSpawn (o : Ops) (s : State) := s.run (.spawn o) o (spawnBody o)

/-! ### SPAWNR (R35, R315) -/

/-- The strand's S, with one work more: allocated where it is null. -/
def State.oneMore (s : State) (d : Strand) : Option (BitVec 32 × State) :=
  if d.synch ≠ 0 then some (d.synch, s.addCount d.synch 1) else s.allocFuture (hamOf s.curCore) .count 1

/-- Body of SPAWNR. While the future table has no free entry, the context holds. -/
def spawnrBody (o : Ops) (s : State) : Act :=
  let fp := s.scOp o o.d
  let pc := s.scOp o o.b
  if s.onHandler then illegal (.spawnr o)
  else if s.me.follows then .done s
  else
    match s.me.strand with
    | none => .hold s
    | some d =>
      s.within [scLoc o o.d, scLoc o o.a, scLoc o o.b]
        (if fp.extractLsb' 0 4 ≠ 0 then .trap 0x03 fp
         else if pc.extractLsb' 0 2 ≠ 0 then .trap 0x03 pc
         else if d.synch ≠ 0 && s.stale (hamOf s.curCore) d.synch then .trap 0x0A (s.staleInfo d.synch)
         else
           match s.pushFault d with
           | some f => .trap f.1 f.2
           | none =>
             s.withRelease s.objScope false fun t =>
               if d.synch ≠ 0 && t.objBusy (hdHam d.synch) then .hold t
               else
                 match t.oneMore d with
                 | none => .hold t
                 | some (hd, u) =>
                   let f : Frame := { pc := pc.setWidth 57, kind := 1, fp := fp.setWidth 57, arg := s.scOp o o.a, parentj := hd,
                                      prio := d.prio, features := d.features, tile := d.tile }
                   let u := u.setMe { u.me with strand := u.me.strand.map fun e => { e with synch := hd } }
                   .done (u.pushFrame u.curCore u.curCtx f))

def execSpawnr (o : Ops) (s : State) := s.run (.spawnr o) o (spawnrBody o)

/-! ### SPLIT and POPF (R316, R317) -/

/-- The results of SPLIT and POPF: a pair, of latency 1. -/
def State.pieceOut (s : State) (o : Ops) (a : Word) (j : Option (BitVec 32)) : State :=
  let second := match j with | some h => 2 ^ 63 + h.toNat | none => 0
  s.fixed 1 [cellAt (scAddr o o.d) 16 (a.toNat + second * 2 ^ 64)]

/-- Body of SPLIT and POPF. A tail frame in the spill area is read back first. -/
def splitBody (i : Instr) (o : Ops) (split : Bool) (s : State) : Act :=
  if s.onHandler then illegal i
  else if s.me.follows then .done s
  else
    s.within [rsLoc o o.d 16]
      (match s.me.strand.bind Strand.deque with
       | none => .done (s.pieceOut o 0 none)
       | some q =>
         let c := s.curCore
         let l := look [] s.myCore.deques q
         match l.getLast? with
         | some { item := .frame f, spilled := sp, stamp := n, .. } =>
           if s.donating then .hold s
           else if sp then .hold (s.oweOnce (.spillReadback (Fin.ofNat 2048 c) q))
           else if f.kind ≠ 1 then .done (s.pieceOut o 0 none)
           else if split && rangeSplits f.arg then
             let mid := rangeMid f.arg
             let upper := { f with arg := rangeArg f.arg (rangeHi f.arg) mid }
             let fin (t : State) : Act :=
               .done (((t.ownerTakes c q).setSlots c q (l.dropLast ++ [{ item := .frame upper, spilled := false, stamp := n }])).pieceOut o
                 (rangeArg f.arg mid (rangeLo f.arg)) (some f.parentj))
             if f.parentj = 0 then fin s
             else if s.stale (hamOf c) f.parentj then .trap 0x0A (s.staleInfo f.parentj)
             else
               s.withRelease s.objScope false fun t =>
                 if t.objBusy (hdHam f.parentj) then .hold t else fin (t.addCount f.parentj 1)
           else .done (((s.ownerTakes c q).setSlots c q l.dropLast).pieceOut o f.arg (some f.parentj))
         | _ => .done (s.pieceOut o 0 none))

def execSplit (o : Ops) (s : State) := s.run (.split o) o (splitBody (.split o) o true)
def execPopf (o : Ops) (s : State) := s.run (.popf o) o (splitBody (.popf o) o false)

/-! ### SYNC and PUBLISH (R36, R37, R318) -/

/-- The implicit and the explicit SYNC of a strand on a handle, then `k` with the acquire: at SYSTEM scope where the end of a
donated strand has counted on the future (06 R157). -/
def State.syncOn (s : State) (hd : BitVec 32) (k : State → Act) : Act :=
  if hd = 0 then k s
  else
    s.fresher hd
      (if s.objBusy (hdHam hd) then .hold s
       else if (s.future hd).value.toInt ≤ 0 then k (s.acquire (if (s.future hd).donated then .sys else s.objScope))
       else .park s 0x02 (hd.setWidth 64))

/-- The sync handle of the acting context's strand. -/
def State.mySynch (s : State) : BitVec 32 := (s.me.strand.map Strand.synch).getD 0

/-- Body of SYNC. -/
def syncBody (o : Ops) (s : State) : Act :=
  if s.onHandler then illegal (.sync o) else if s.me.follows then .done s else s.syncOn s.mySynch .done

def execSync (o : Ops) (s : State) := s.run (.sync o) o (syncBody o)

/-- A slot whose frame is published. -/
def Slot.published (x : Slot) : Slot :=
  match x.item with
  | .frame f => { x with item := .frame { f with published := true } }
  | .stub _ => x

/-- Body of PUBLISH. -/
def publishBody (o : Ops) (s : State) : Act :=
  if s.onHandler then illegal (.publish o)
  else if s.me.follows then .done s
  else
    s.withRelease .pkg false fun t =>
      match t.me.strand.bind Strand.deque with
      | some q => .done (t.setSlots t.curCore q ((look [] t.myCore.deques q).map Slot.published))
      | none => .done t

def execPublish (o : Ops) (s : State) := s.run (.publish o) o (publishBody o)

end Sys2Proof.Machine
end

