-- ==== Sys2Proof/Machine/Gang.lean ====
section
/-! DEFINITION. GANG, opcode 0x51 (02 R40 to R43, 11 R306 to R309, 18 R427, 19 R446). -/

namespace Sys2Proof.Machine

/-- The cores that a leader's mask names beside its own, in the order of their ranks (R40, R306). -/
def gangCores (c : Nat) (mask : BitVec 8) : List Nat :=
  (List.range 7).filterMap fun i =>
    let n := (c % 8 + 1 + i) % 8
    if mask.getLsbD n then some (c / 8 * 8 + n) else none

/-- Whether every named core qualifies (R40): its mill has no owner, and a task context is IDLE. -/
def State.claimable (s : State) (cs : List Nat) : Bool :=
  cs.all fun c => !(s.core c).mill.owned && (s.idleCtx c).isSome

/-- GRANK of a member (R42). -/
def grankOf (size rank : Nat) : Word := BitVec.ofNat 64 (64 + (size - 1) * 8 + rank)

/-- A context claimed as a follower (R306, 07 R186): it takes the leader's view block, rounding mode, table and
privilege, and its mill. It has no frame of its own: its header takes the leader's `fp` (DESIGN CHOICE, log entry 42). -/
def State.enlist (s : State) (lead rank size : Nat) (l : Ctx) (fmt : Word) (c : Nat) : State :=
  match s.idleCtx c with
  | none => s
  | some k =>
    let x := s.ctx c k
    let block := [8, 9, 10, 11].foldl (fun m n => put m n (look 0 l.store n)) ([] : Map Row)
    let s := s.setCtx c k { x with
      status := .following, pc := l.pc, store := block, preds := [], fpstatus := l.fpstatus &&& 0x1C0, srstate := 0,
      repstate := 0, rep := none, grank := grankOf size rank, tblroot := l.tblroot, priv := l.priv, results := [],
      hold := .none, lead := lead, gangq := [], marks := [],
      strand := some { seq := (l.strand.map Strand.seq).getD 0, fp := (l.strand.map Strand.fp).getD 0 } }
    let m := (s.core c).mill
    s.setMill c { m.taken k with gang := true, pend := 0, pendinfo := 0, discarded := 0, millfmt := fmt }

/-- The claim of a leader, in one step (R306). -/
def State.claim (s : State) (cs : List Nat) : State :=
  let l := s.me
  let size := cs.length + 1
  let fmt := s.myCore.mill.millfmt
  let t := cs.zipIdx.foldl (fun t (c, i) => t.enlist s.curCore (i + 1) size l fmt c) s
  let t := t.setMill t.curCore { t.myCore.mill with gang := true }
  t.setMe { t.me with grank := grankOf size 0 }

/-- Whether nothing but its next instruction can hold a context (03 R66, 07 R190; 06 R148): a trap that waits for outstanding
results holds it (07 R193). -/
def Ctx.free (x : Ctx) : Bool :=
  (x.status = .running || x.status = .following) && x.late.isNone && ((x.hold ≠ .switch && x.acqAfter = none) || x.returned)

/-- What a context that may issue, in no gang, would issue next, with the state in which it would. -/
def State.nextOf (s : State) (c k : Nat) : Option (Instr × State) :=
  let x := s.ctx c k
  if x.status ≠ .running || !x.free || x.inGang || x.rep.isSome then none
  else
    match (let t := (s.as c k).unhold.tick; t.fetchAt x.pc) with
    | .instr i u => some (i, u)
    | _ => none

/-- A context of a core takes its mill by MFMT in this cycle (R309). -/
def State.takesMill (s : State) (c : Nat) : Bool :=
  !(s.core c).mill.owned && (List.range 4).any fun k =>
    match s.nextOf c k with
    | some (.mfmt o, u) => (((u.perform (.mfmt o) o (mfmtBody o)).core c).mill).owned
    | _ => false

/-- The faults of GANG `.lead`, with the cores that it names. -/
def State.leadFaults (s : State) (o : Ops) : Option (BitVec 6 × Word) :=
  let mask : BitVec 8 := (s.scOp o o.a).setWidth 8
  let bad : Bool := !mask.getLsbD (s.curCore % 8) || (gangCores s.curCore mask).isEmpty
  firstFault (bad01 (.gangLead o) (s.me.inGang || ((s.locsFault [scLoc o o.a]).isNone && bad)) ++ s.ownFault)

/-- The cores that the operand of GANG `.lead` names. -/
def State.leadCores (s : State) (o : Ops) : List Nat := gangCores s.curCore ((s.scOp o o.a).setWidth 8)

/-- A leader on a lower-numbered core of the hamlet reaches its claim in this cycle with a mask that overlaps (R309). -/
def State.outranked (s : State) (c : Nat) (cs : List Nat) : Bool :=
  ((List.range (c % 8)).map (c / 8 * 8 + ·)).any fun d => (List.range 4).any fun k =>
    match s.nextOf d k with
    | some (.gangLead o, u) =>
      let ds := u.leadCores o
      u.active o && (u.leadFaults o).isNone && u.claimable ds && (d :: ds).any (c :: cs).contains
        && !ds.any u.takesMill
    | _ => false

/-- The claim of the named cores may be made: they qualify (R40), and no claim or MFMT is served before it (R309). -/
def State.mayClaim (s : State) (cs : List Nat) : Bool :=
  s.claimable cs && !cs.any s.takesMill && !s.outranked s.curCore cs

/-- Body of GANG `.lead`: the leader holds until the named cores qualify, and while another is served first (R309). -/
def gangLeadBody (o : Ops) (s : State) : Act :=
  match s.leadFaults o with
  | some (0x01, info) => .trap 0x01 info
  | f =>
    s.within [scLoc o o.a]
      (match f with
       | some f => .trap f.1 f.2
       | none =>
         let cs := s.leadCores o
         if s.mayClaim cs then .done (s.claim cs) else .hold s)

def execGangLead (o : Ops) (s : State) := s.run (.gangLead o) o (gangLeadBody o)

/-- The gang that the acting context leads ends (R308): its followers become IDLE and release their mills. -/
def State.endGang (s : State) : State :=
  let t := (s.followers s.curCore).foldl (fun t m =>
    let x := (t.core m.1).mill
    (t.toIdle m.1 m.2.1).setMill m.1 { x with owned := false, gang := false }) s
  let t := t.setMill t.curCore { t.myCore.mill with gang := false }
  t.setMe { t.me with grank := 0 }

/-- A gang's wait for its mills: the instruction acts as MWAIT; a leader then waits for its followers, and `k` follows
(R307). -/
def State.withGang (s : State) (k : State → Act) : Act :=
  if s.onHandler then .trap 0x09 s.myCore.mill.millst
  else if s.me.leads && s.me.hold = .gang then k s
  else s.withMill fun t => if t.me.leads then .left t.awaitGang else k t

/-- Body of GANG `.follow`. -/
def gangFollowBody (s : State) : Act := s.withGang .done

def execGangFollow (o : Ops) (s : State) := s.run (.gangFollow o) o gangFollowBody

/-- Body of GANG `.leave`. -/
def gangLeaveBody (s : State) : Act := s.withGang fun t => .done (if t.me.leads then t.endGang else t)

def execGangLeave (o : Ops) (s : State) := s.run (.gangLeave o) o gangLeaveBody

/-- The claim comes due for a leader that holds in GANG `.lead`: it issues that instruction, if its cores qualify. -/
def State.claimDue (s : State) (c k : Nat) : State :=
  if (s.ctx c k).hold ≠ .wait then s
  else
    match s.nextOf c k with
    | some (.gangLead o, u) =>
      let v := u.perform (.gangLead o) o (gangLeadBody o)
      if (v.ctx c k).inGang then v else s
    | _ => s

def execGangClaim (c : CoreId) (k : CtxId) (s : State) : Host.Outcome State Fault Refusal := .next (s.claimDue c.val k.val)

end Sys2Proof.Machine
end

