-- ==== Sys2Proof/Machine/Task.lean ====
section
/-! DEFINITION. TEND and DONATE, opcodes 0x59 and 0x5A (02 R34, R51, 12 R319, R320, 18 R428), and what a donation and its end do
at the part that they reach (02 R52, 13 R369, 19 R444). -/

namespace Sys2Proof.Machine

/-! ### The end of a donated strand (R34) -/

/-- A count decrement of a donated strand's end: its future counts one less, and holds that it has; a root end is reported where
it carries one. -/
def State.donatedEnd (s : State) (hd : BitVec 32) (root : Bool) : State :=
  let h := hdHam hd
  let s := if s.stale h hd then s else s.setFuture hd { s.future hd with donated := true }
  let t := s.bump h hd (-1)
  if root then t.rootEnd h else t

def execDonatedDecrement (handle : BitVec 32) (root : Bool) (s : State) : Host.Outcome State Fault Refusal :=
  .next (s.donatedEnd handle root)

/-! ### TEND (R34, R319) -/

/-- The strand's S is released (R45). -/
def State.dropSynch (s : State) : State :=
  if s.mySynch = 0 || s.stale (hamOf s.curCore) s.mySynch then s else s.freeFuture s.mySynch

/-- The acting context's strand has ended. -/
def State.gone (s : State) : Act := .left (s.toIdle s.curCore s.curCtx)

/-- The tail frame of a deque popped by TEND: its strand goes on with the frame's header, from its `pc`. A range or a message
frame begins as one that has not run before (07 R186): the results of earlier instructions commit first. -/
def State.popFrame (s : State) (q : Nat) (l : List Slot) (f : Frame) : Act :=
  let t := (s.ownerTakes s.curCore q).setSlots s.curCore q l.dropLast
  let header (d : Strand) : Strand :=
    { d with base := f.parentj, synch := f.synch, fp := f.fp, prio := f.prio, features := f.features, tile := f.tile,
             root := f.root, donated := f.donated, originpkg := f.originpkg, originh := f.originh, kind := f.kind, arg := f.arg }
  if f.kind = 0 then .jump (t.setMe { t.me with strand := t.me.strand.map header }) (sext57 f.pc)
  else if !s.me.returned then .hold s
  else
    let u := t.commitAll
    let x := u.me
    .jump (u.setMe { x with
      store := freshStore f (u.viewsOf (hamOf u.curCore)), preds := [], fpstatus := 0x40, srstate := 0,
      strand := x.strand.map fun d => { header d with map := none } }) (sext57 f.pc)

/-- A decrement of a handle by the end of a strand, with release at a scope; then `k`. -/
def State.endOn (s : State) (hd : BitVec 32) (sc : Scope) (k : State → Act) : Act :=
  s.fresher hd
    (s.withRelease sc false fun t => if t.objBusy (hdHam hd) then .hold t else k (t.addCount hd (-1)))

/-- The decrement of a donated strand's end leaves for its origin; a package may be its own. -/
def State.sendEnd (s : State) (d : Strand) : State :=
  if d.originpkg = s.pkgid then s.owe (.donatedDecrement d.originh d.root)
  else (s.send d.originpkg 0 false (.decrement d.originh d.root)).1

/-- The first case of R34 that applies to a strand. -/
def State.endCase (s : State) (d : Strand) : Act :=
  let h := hamOf s.curCore
  let fin (t : State) : Act := t.dropSynch.gone
  let l := s.myCore.slotsOf d
  match d.deque, l.getLast? with
  | some q, some { item := .frame f, spilled := sp, .. } =>
    if s.donating then .hold s
    else if sp then .hold (s.oweOnce (.spillReadback (Fin.ofNat 2048 s.curCore) q))
    else s.popFrame q l f
  | some q, some { item := .stub hd, .. } =>
    s.endOn hd s.objScope fun t => (t.setSlots t.curCore q l.dropLast).gone
  | _, _ =>
    if d.base ≠ 0 then
      s.endOn d.base (if d.root then .sys else s.objScope) fun t => fin (if d.root then t.rootEnd h else t)
    else if d.donated then
      s.withRelease .sys false fun t =>
        if d.originpkg ≠ t.pkgid && !t.deadPeer d.originpkg && t.linkFull d.originpkg then .hold t else fin (t.sendEnd d)
    else if d.root then s.withRelease .sys false fun t => fin (t.rootEnd h)
    else s.withRelease .hamlet false fin

/-- Every mark of the acting context's tokens is discarded (19 R437). -/
def State.dropMarks (s : State) : State :=
  if s.me.marks.isEmpty then s else (s.setMe { s.me with marks := [] }).mark (hamOf s.curCore) Marks.trapped

/-- The acting context releases its mill (11 R294); a strand that waits for the mill may be taken at once (03 R69). -/
def State.freeMill (s : State) : State :=
  if s.ownsMill then (s.setMill s.curCore { s.myCore.mill with owned := false, gang := false }).callIdle s.curCore else s

/-- Body of TEND. -/
def tendBody (o : Ops) (s : State) : Act :=
  if s.onHandler then illegal (.tend o)
  else if s.me.follows then s.withMill .done
  else
    s.withGang fun g =>
      let t := (if g.me.leads then g.endGang else g).freeMill
      if t.me.tokens ≠ 0xFF then .hold t
      else
        match t.me.strand with
        | none => .hold t
        | some d => t.dropMarks.syncOn d.synch fun u => u.endCase d

def execTend (o : Ops) (s : State) := s.run (.tend o) o (tendBody o)

/-! ### Donation queues (R52, R369, R444) -/

/-- A frame as its receiver keeps it (R51). -/
def Frame.donatedTo (f : Frame) : Frame := { f with parentj := 0, synch := 0, donated := true, published := true }

/-- Bytes of an entry of a donation queue (13 R369). -/
def donEntry : Nat := 98304

/-- An entry of a donation queue written in second-tier memory (13 R369): the frame, then its tile bytes in the order of its tiles
(DESIGN CHOICE, log entry 47). A line that would hold a byte of a listed line is listed (17 R416). -/
def State.writeEntry (s : State) (pa : Nat) (f : Frame) (ts : List (Nat × Byte)) : State :=
  let bs := bytesOf 64 f.row.toNat ++ ts.map Prod.snd
  let keyed : List (Nat × Byte) := List.replicate 64 (0, 0) ++ ts
  let lost (q : Nat × Nat) : Bool := ((keyed.drop q.1).take q.2).any fun b => tileLost b.1
  (lineParts (BitVec.ofNat 64 pa) bs.length).foldl (fun (t : State) (q : Nat × Nat) =>
    if lost q then t.listLine (pa + q.1) 0 true else t.homePut (pa + q.1) (offsets ((bs.drop q.1).take q.2))) s

/-- A donation reaches its queue: whether the queue takes it (R51), with what becomes of it. -/
def State.takeDonation (s : State) (q : BitVec 4) (f : Frame) (ts : List (Nat × Byte)) : Bool × State :=
  let d := look ({} : DonQueue) s.hub.donqs q.toNat
  if d.cap ≤ d.frames.length then (false, s)
  else
    let t := s.writeEntry (d.base.toNat + donEntry * (d.next % d.cap)) f.donatedTo ts
    (true, { t with hub := { t.hub with
      donqs := put t.hub.donqs q.toNat { d with frames := d.frames ++ [(f.donatedTo, ts)], next := d.next + 1 } } })

/-- A donated frame that its receiver cannot run goes back (R444); one of this package's own comes back at once. -/
def State.refuseDonation (s : State) (src : BitVec 20) (f : Frame) (missing : BitVec 32) : State :=
  if src = s.pkgid then s.owe (.donatedFrameReturn f.row missing)
  else s.packetOut src 0 0 0 (.donReturn f.row missing)

/-- The features that a frame requires and this package lacks (R31). -/
def lacking (f : Frame) : BitVec 32 := f.features &&& ~~~ featuresWord.setWidth 32

/-- A donation arrives (R52, R444): queued, returned for want of a feature, or not taken. -/
def State.donation (s : State) (src : BitVec 20) (q : BitVec 4) (f : Frame) (ts : List (Nat × Byte)) : Bool × State :=
  if lacking f ≠ 0 then (true, s.refuseDonation src f (lacking f)) else s.takeDonation q f ts

def execDonationArrival (src : BitVec 20) (q : BitVec 4) (frame : Row) (tiles : List (Nat × Byte)) (s : State) :
    Host.Outcome State Fault Refusal := .next (s.donation src q (frameOf frame) tiles).2

/-- A returned frame as its origin keeps it (R444). -/
def Frame.home (f : Frame) : Frame :=
  { f with originpkg := 0, originh := 0, donated := false, parentj := f.originh, synch := 0, published := true }

/-- A returned frame enters the ready queue of the lowest-numbered core of the hamlet of its `originh`, and is recorded
(R444). -/
def State.returned (s : State) (f : Frame) (missing : BitVec 32) : State :=
  let h := hdHam f.originh
  let q := s.seqOf (8 * h)
  (s.record { event := 0x08, cls := 0, seq := q, info := missing.setWidth 64, cause := 7 }).makeReady (8 * h) (.fresh f.home q [])

def execDonatedFrameReturn (frame : Row) (missing : BitVec 32) (s : State) : Host.Outcome State Fault Refusal :=
  .next (s.returned (frameOf frame) missing)

/-! ### DONATE (R51, R320) -/

/-- The slot of the oldest published frame. -/
def openSlot (l : List Slot) : Option Nat := let i := l.findIdx Slot.open'; if i < l.length then some i else none

/-- A frame that is donated: R33's treatment of its `synch`, and the increment for the work held abroad; none while no future
is free. -/
def State.donateCounts (s : State) (f : Frame) : Option (Frame × State) :=
  let h := hamOf s.curCore
  if f.kind = 0 then (s.departSynch s.curCore f).map fun r => (r.1, r.2.bump h r.1.synch 1)
  else some (f, s.bump h f.synch 1)

/-- The donated frame leaves slot i: R33's treatment of `parentj`, and the stub that a continuation leaves. -/
def State.donateLeave (s : State) (c q i : Nat) (f : Frame) : Frame × State :=
  let l := look [] (s.core c).deques q
  let stamp := (l[i]?.map Slot.stamp).getD 0
  if f.kind = 0 then
    let (g, m, t) := s.departJoin c q i (l.set i { item := .stub f.synch, spilled := false, stamp := stamp }) f
    (g, t.setSlots c q m)
  else (f, s.setSlots c q (l.eraseIdx i))

/-- The frame as it travels (R51). -/
def State.stamped (s : State) (f : Frame) : Frame := { f with originpkg := s.pkgid, originh := f.synch }

/-- A donation within the package: it leaves the launch's set and is acknowledged at once, so it counts as sent and as received
by its hamlet (03 R90). -/
def State.donateHere (s : State) (o : Ops) (w : Word) (q i : Nat) (f : Frame) : Act :=
  let d := look ({} : DonQueue) s.hub.donqs (fld w 23 20)
  let out (t : State) (n : Nat) : Act := .done (t.var [cellAt (scAddr o o.d) 8 n])
  if d.cap ≤ d.frames.length then out s 1
  else
    match s.donateCounts f with
    | none => .hold s
    | some (g, t) =>
      let (ts, t) := t.dequeTiles t.curCore q f
      let (e, u) := t.donateLeave t.curCore q i g
      let h := u.myHam
      let u := u.setMyHam { h with sent := h.sent + 1, received := h.received + 1 }
      out (u.donation u.pkgid (w.extractLsb' 20 4) (u.stamped e) ts).2 0

/-- The record of a donation that was reinstated, class 0, or lost, class 4 (20 R459). -/
def State.donationRecord (s : State) (c cls : Nat) : State :=
  s.record { event := 0x0D, cls := cls, seq := s.seqOf c, core := c }

/-- A donation to another package: the frame keeps its slot, which is locked, until the answer has come. -/
def State.donateAway (s : State) (o : Ops) (w : Word) (q i : Nat) (f : Frame) : Act :=
  let p : BitVec 20 := w.extractLsb' 0 20
  let a := scAddr o o.d
  if s.linkFull p then .hold s
  else
    match s.donateCounts f with
    | none => .hold s
    | some (g, t) =>
      let (ts, t) := t.dequeTiles t.curCore q f
      let e := (t.donateLeave t.curCore q i g).1
      let l := look [] t.myCore.deques q
      let co := t.myCore
      let u := t.setMyCore { co with deques := put co.deques q (l.modify i fun x => { x with locked := true }) }
      let (v, id) := u.send p 0 true (.donation (w.extractLsb' 20 4) (u.stamped e).row ts)
      .done (v.varAwait [cellAt a 8 0] [(id, 8 * (a % 64))])

/-- Body of DONATE. A package whose effective port mask is zero is not reachable (13 R367): status 3, and the frame stays where it
is, which is recorded as a donation of which no part was delivered (20 R459; DESIGN CHOICE, log entry 62). -/
def donateBody (o : Ops) (s : State) : Act :=
  let w := s.scOp o o.a
  let p : BitVec 20 := w.extractLsb' 0 20
  let out (t : State) (n : Nat) : Act := .done (t.var [cellAt (scAddr o o.d) 8 n])
  if s.onHandler then illegal (.donate o)
  else if s.me.follows then .done s
  else if (s.locsFault [scLoc o o.a]).isNone && fld w 63 24 ≠ 0 then illegal (.donate o)
  else
    s.within [scLoc o o.a, scLoc o o.d]
      (match s.me.strand.bind Strand.deque with
       | none => out s 2
       | some q =>
         s.withRelease .sys false fun t =>
           let l := look [] t.myCore.deques q
           match openSlot l with
           | none => out t 2
           | some i =>
             match (l[i]?.bind Slot.frame?) with
             | none => out t 2
             | some f =>
               if p = t.pkgid then t.donateHere o w q i f
               else if t.portMask p = 0 then out (t.donationRecord t.curCore 0) 3
               else if t.deadPeer p then out t 3
               else t.donateAway o w q i f)

def execDonate (o : Ops) (s : State) := s.run (.donate o) o (donateBody o)

/-- The answer to a donation comes back (R51): the frame has left, or it stays and what `donateCounts` has done is undone. -/
def State.donationAnswered (s : State) (m : Msg) (g : Frame) (full : Bool) : State :=
  match (s.ctx m.core m.ctx).strand.bind Strand.deque with
  | none => s
  | some q =>
    let co := s.core m.core
    let l := look [] co.deques q
    let i := l.findIdx Slot.locked
    match (l[i]?).bind Slot.frame? with
    | none => s
    | some f =>
      let open_ := l.modify i fun x => { x with locked := false }
      let h := hamOf m.core
      let t := s.setCore m.core { co with deques := put co.deques q open_ }
      if full then
        if f.synch = 0 && g.originh ≠ 0 then (if t.stale h g.originh then t else t.freeFuture g.originh)
        else t.bump h g.originh (if f.kind = 0 then -2 else -1)
      else (t.donateLeave m.core q i { f with synch := g.originh }).2

/-- A donation whose packet has never left, since the effective mask of its package is zero, is reinstated as a returned frame
is, at `prio` into the ready queue of the lowest-numbered core of the hamlet of its `originh` (20 R459, 19 R444). -/
def State.reinstate (s : State) (m : Msg) (f : Frame) (ts : List (Nat × Byte)) : State :=
  let h := hdHam f.originh
  ((s.donationAnswered m f false).donationRecord m.core 0).makeReady (8 * h) (.fresh f.home (s.seqOf (8 * h)) ts)

end Sys2Proof.Machine
end

