-- ==== Sys2Proof/Machine/Sched.lean ====
section
/-! DEFINITION. Where an idle context finds work (02 R54, 03 R69 to R78), steals (02 R33), and wake messages (03 R81). -/

namespace Sys2Proof.Machine

/-! ### Routers (00 R6, 02 R54, 03 R75) -/

/-- Die, x and y of a hamlet's router. -/
def dieOf (h : Nat) : Nat := h / 64
def rowOfHam (h : Nat) : Nat := h % 64 / 16
def colOfHam (h : Nat) : Nat := h % 16 / 4 + 1

/-- The hamlets of a router of a die; none on columns 0 and 5. -/
def routerHams (d x y : Nat) : List Nat :=
  if 1 ≤ x && x ≤ 4 then (List.range 4).map fun i => 64 * d + 16 * y + 4 * (x - 1) + i else []

/-- Whether a root frame's radius admits a hamlet (R54). -/
def Rooted.admits (r : Rooted) (h : Nat) : Bool :=
  r.radius = 3
  || (dieOf h = r.die && (if colOfHam h = r.x then 0 else 1) + (if rowOfHam h = r.y then 0 else 1) ≤ r.radius)

/-! ### Root frames on their walk (R54) -/

/-- The first idle task context of some hamlets, taken in their order. -/
def State.firstIdle (s : State) (hs : List Nat) : Option (Nat × Nat) :=
  (hs.flatMap fun h => (List.range 8).map (8 * h + ·)).findSome? fun c =>
    if (s.ham (hamOf c)).fenced || (s.ham (hamOf c)).shut then none else (s.idleCtx c).map fun k => (c, k)

/-- A strand begins with an acquire at SYSTEM scope: a launch's root frame, or a donated frame (06 R157). -/
def State.beginFar (s : State) (c k : Nat) (f : Frame) (seq : Word) (ts : List (Nat × Byte)) : State :=
  (s.begin' c k f seq ts).dropClean (hamOf c)

/-- One router of the walk of the oldest frame that has not reached its hint: it is taken there, waits there, or goes on.
The walk comes before every other event that is owed (log entry 5). -/
def State.walkFrame (s : State) (q : Nat) : State :=
  match s.launchBySeq q with
  | none => s
  | some l =>
    let i := l.frames.findIdx fun r => !r.waiting
    match l.frames[i]? with
    | none => s
    | some r =>
      let offered := (routerHams r.die r.atx r.aty).filter fun h => l.hamlets.getLsbD h && r.admits h
      let again (t : State) : State :=
        match t.launchBySeq q with
        | some m => if m.frames.any fun v => !v.waiting then { t with agenda := .rootFrameWalk q :: t.agenda } else t
        | none => t
      match s.firstIdle offered with
      | some (c, k) => again ((s.setLaunch { l with frames := l.frames.eraseIdx i }).beginFar c k r.frame l.seq [])
      | none =>
        let put' (v : Rooted) : State := s.setLaunch { l with frames := l.frames.set i v }
        if r.atx ≠ r.x then again (put' { r with atx := r.atx + 1 })
        else if r.aty ≠ r.y then again (put' { r with aty := r.aty + 1 })
        else
          let t := again (put' { r with waiting := true })
          match t.firstIdle ((List.range 256).filter fun h => l.hamlets.getLsbD h && r.admits h) with
          | some (c, k) => t.owe (.frameTake (Fin.ofNat 2048 c) (Fin.ofNat 5 k))
          | none => t

def execRootFrameWalk (l : Nat) (s : State) : Host.Outcome State Fault Refusal := .next (s.walkFrame l)

/-! ### Grants (R33, R76) -/

/-- The scope that covers two cores (06 R146). -/
def coverScope (a b : Nat) : Scope := if a = b then .core else if hamOf a = hamOf b then .hamlet else .pkg

/-- Whether the strand of a deque has no access that a release at a scope waits for (06 R148, R158): results that have not
returned and operations that are not applied, and at scopes wider than CORE its named counts and its replay queue. -/
def State.victimDrained (s : State) (c q : Nat) (sc : Scope) : Bool :=
  match s.keepOf c q with
  | some (.slices k) =>
    let x := s.ctx c k
    x.returned && !(s.as c k).sending
      && (sc = .core || (x.c1 = 0 && x.c2 = 0 && x.c3 = 0 && (s.core c).replay.all fun r => r.ctx ≠ k))
  | some (.save b) => sc = .core || (s.core c).replay.all fun r => b.strand.tag = 0 || r.ctx ≠ b.strand.tag
  | none => true

/-- What a deque unit answers to a thief. -/
inductive Answered where
  | refused
  | wait
  | granted (f : Frame) (tiles : List (Nat × Byte)) (s : State)

/-- A deque unit's answer to a thief of another core or of its own: a grant, with the release at the covering scope, or a
refusal. -/
def State.grant (s : State) (c thief : Nat) (features : BitVec 32) : Answered :=
  match (s.core c).victim with
  | none => .refused
  | some (q, i, x) =>
    match x.frame? with
    | none => .refused
    | some f =>
      let sc := coverScope c thief
      if f.features &&& ~~~ features ≠ 0 then .refused
      else if !s.victimDrained c q sc then .wait
      else
        let (ts, t) := s.dequeTiles c q f
        match t.depart c q i with
        | none => .refused
        | some (g, u) => .granted g ts (if sc = .pkg then u.writeBackAll (hamOf c) else u)

/-! ### The sources of R69 -/

/-- A strand saved from a context number, released, that can resume now (source 1). -/
def State.savedFor (s : State) (c k : Nat) : Option Saved :=
  (s.core c).saved.find? fun v => v.ctx = k && v.released && (!s.needsMill c v.back || !(s.core c).mill.owned)

/-- Priority of a strand in a ready queue, and whether it can be taken now (R50). -/
def Ready.prio : Ready → Nat
  | .woken w => w.strand.prio.toNat
  | .fresh f _ _ => f.prio.toNat
def State.takeable (s : State) (c : Nat) (r : Ready) : Bool :=
  match r with
  | .woken w => !s.needsMill c w.back || !(s.core c).mill.owned
  | .fresh _ _ _ => true

/-- The place in the ready queue of what is taken next: the highest priority, the oldest within it (source 2). -/
def State.nextReady (s : State) (c : Nat) : Option Nat :=
  let l := (s.core c).ready.zipIdx.filter fun e => s.takeable c e.1
  (([3, 2, 1, 0] : List Nat).findSome? fun p => l.find? fun e => e.1.prio = p).map Prod.snd

/-- The place among its launch's frames of the first waiting root frame that a hamlet may take (source 3). -/
def State.nextRoot (s : State) (h : Nat) : Option (Launch × Nat × Rooted) :=
  match s.launchOf h with
  | none => none
  | some l =>
    let i := l.frames.findIdx fun r => r.waiting && r.admits h
    (l.frames[i]?).map fun r => (l, i, r)

/-- The oldest frame of the first donation queue that holds one (source 6). -/
def State.nextDonated (s : State) : Option (Nat × Frame × List (Nat × Byte) × State) :=
  (List.range 16).findSome? fun q =>
    let d := look ({} : DonQueue) s.hub.donqs q
    match d.frames with
    | [] => none
    | (f, ts) :: r => some (q, f, ts, { s with hub := { s.hub with donqs := put s.hub.donqs q { d with frames := r } } })

/-- A context takes a strand of its ready queue. -/
def State.takeReady (s : State) (c k : Nat) (r : Ready) : State :=
  match r with
  | .woken w =>
    let t := s.resume c k w.back
    (List.range 8).foldl (fun (t : State) i =>
      (List.range 4).foldl (fun (t : State) j =>
        let p := (t.ctx (c / 8 * 8 + i) j).parking
        if (p.map Parking.waiting).getD false then
          t.oweOnce (.overflowLinkWait (Fin.ofNat 2048 (c / 8 * 8 + i)) (Fin.ofNat 5 j)) else t) t) t
  | .fresh f seq ts => s.begin' c k f seq ts

/-- A gleaner that waits in its backoff: only sources 1 to 3 are served meanwhile (R69). -/
def Glean.backedOff : Glean → Bool
  | .backoff _ => true
  | _ => false

/-- An idle context finds work: what it takes from sources 1 to 4, or that the gleaner, where it rests, is asked. -/
def State.findWork (s : State) (c k : Nat) : State :=
  let co := s.core c
  let h := hamOf c
  match s.savedFor c k with
  | some v => (s.setCore c { co with saved := co.saved.erase v }).resume c k v.back
  | none =>
    match s.nextReady c with
    | some i =>
      match co.ready[i]? with
      | some r => (s.setCore c { co with ready := co.ready.eraseIdx i }).takeReady c k r
      | none => s
    | none =>
      match s.nextRoot h with
      | some (l, i, r) => (s.setLaunch { l with frames := l.frames.eraseIdx i }).beginFar c k r.frame l.seq []
      | none =>
        if co.glean.backedOff || (s.launchOf h).isNone then s
        else
          match s.grant c c (featuresWord.setWidth 32) with
          | .granted f ts t => t.begin' c k f (t.seqOf c) ts
          | .wait => s.oweOnce (.frameTake (Fin.ofNat 2048 c) (Fin.ofNat 5 k))
          | .refused =>
            if co.glean = .rest then
              (s.setCore c { co with glean := .probing, sweep := 0 }).oweOnce (.stealRequest (Fin.ofNat 2048 c))
            else s

/-- The IDLE contexts of a core look for work, the lowest-numbered first. -/
def State.takeFrames (s : State) (c : Nat) : State :=
  if (s.ham (hamOf c)).fenced || (s.ham (hamOf c)).shut || s.stopped then s
  else (List.range 4).foldl (fun t k => if (t.ctx c k).status = .idle then t.findWork c k else t) s

def execFrameTake (c : CoreId) (k : CtxId) (s : State) : Host.Outcome State Fault Refusal :=
  .next (if (s.ctx c.val k.val).status = .idle && k.val ≠ 4 then s.takeFrames c.val else s)

/-! ### The gleaner (R75 to R78) -/

/-- Numbers from a list after one, wrapping. -/
def wrapAfter (l : List Nat) (x : Nat) : List Nat := l.filter (x < ·) ++ l.filter (· < x)

/-- The hamlets that a gleaner of a hamlet probes, in order (R75 steps 2 to 6). -/
def probeHams (h : Nat) : List Nat :=
  let d := dieOf h
  let x := colOfHam h
  let y := rowOfHam h
  let s2 := wrapAfter (routerHams d x y) h
  let s3 := (wrapAfter [1, 2, 3, 4] x).flatMap fun i => routerHams d i y
  let s4 := (wrapAfter [0, 1, 2, 3] y).flatMap fun j => routerHams d x j
  let s5 := ((List.range 64).map (64 * d + ·)).filter fun g => colOfHam g ≠ x && rowOfHam g ≠ y
  let s6 := [(d + 1) % 4, (d + 3) % 4, (d + 2) % 4].flatMap fun e => (List.range 64).map (64 * e + ·)
  s2 ++ s3 ++ s4 ++ s5 ++ s6

/-- The core that a probe at a place of the order reaches: a peer of the own hamlet, or the first core with its mask bit set of
another hamlet of the set. None where the probe is refused at once, or not made. -/
def State.probeAt (s : State) (c i : Nat) : Option Nat :=
  let h := hamOf c
  let masked (g n : Nat) : Bool := (s.ham g).stealMask.getLsbD n
  if i < 7 then
    let n := (c + 1 + i) % 8
    if masked h n then some (8 * h + n) else none
  else
    match (probeHams h)[i - 7]? with
    | none => none
    | some g =>
      if !s.inSet h g || (s.ham g).fenced then none
      else ((List.range 8).map fun j => (c + j) % 8).find? (masked g) |>.map (8 * g + ·)

/-- A sweep has ended with no grant: a donated frame, or the backoff. -/
def State.sweepOver (s : State) (c : Nat) : State :=
  match s.idleCtx c, s.nextDonated with
  | some k, some (_, f, ts, t) =>
    let co := t.core c
    ((t.setCore c { co with glean := .rest }).beginFar c k f (t.seqOf c) ts).callIdle c
  | _, _ =>
    let co := s.core c
    (s.setCore c { co with glean := .backoff (s.cycle.toNat + co.backoff), backoff := min 4096 (2 * co.backoff) }).owe
      (.gleanerBackoff (Fin.ofNat 2048 c))

/-- The next probe of a gleaner's sweep. -/
def State.probe (s : State) (c : CoreId) : State :=
  let co := s.core c.val
  if co.glean ≠ .probing then s
  else if (s.idleCtx c.val).isNone then s.setCore c.val { co with glean := .rest }
  else if 262 ≤ co.sweep then s.sweepOver c.val
  else
    let next (t : State) : State := let e := t.core c.val; (t.setCore c.val { e with sweep := e.sweep + 1 }).owe (.stealRequest c)
    match s.probeAt c.val co.sweep with
    | none => next s
    | some v =>
      let w := s.core v
      if 8 ≤ w.stealQ.length then next s
      else
        let req : StealReq := { core := c.val, ctx := (s.idleCtx c.val).getD 0, features := featuresWord.setWidth 32 }
        let t := s.setCore v { w with stealQ := w.stealQ ++ [req] }
        let e := t.core c.val
        (t.setCore c.val { e with glean := .asked v }).owe (.stealGrant (Fin.ofNat 2048 v))

def execStealRequest (c : CoreId) (s : State) : Host.Outcome State Fault Refusal := .next (s.probe c)

/-- The oldest request in a deque unit's steal queue is answered (R71). It is served in the cycle of the step before: it is
refused where the owner has taken the chosen frame in that step (R38, R76 "race"; DESIGN CHOICE, log entry 44). -/
def State.answerSteal (s : State) (v : CoreId) : State :=
  let w := s.core v.val
  match w.stealQ with
  | [] => s
  | r :: rest =>
    let s' := s.setCore v.val { w with stealQ := rest }
    let e := s'.core r.core
    if e.glean ≠ .asked v.val then s'
    else
      match if w.took = some (s.cycle - 1) then Answered.refused else s.grant v.val r.core r.features with
      | .wait => s.owe (.stealGrant v)
      | .refused =>
        (s'.setCore r.core { e with glean := .probing, sweep := e.sweep + 1 }).owe (.stealRequest (Fin.ofNat 2048 r.core))
      | .granted f ts t =>
        let t := t.setCore v.val { t.core v.val with stealQ := rest }
        (t.setCore r.core { t.core r.core with glean := .granted f (t.seqOf v.val) ts (hamOf v.val ≠ hamOf r.core) }).owe
          (.stolenFrameArrival (Fin.ofNat 2048 r.core))

def execStealGrant (c : CoreId) (s : State) : Host.Outcome State Fault Refusal := .next (s.answerSteal c)

/-- A stolen frame arrives (R77): at the lowest-numbered IDLE context, or in the ready queue. -/
def State.stolen (s : State) (c : Nat) : State :=
  let co := s.core c
  match co.glean with
  | .granted f seq ts far =>
    let s := s.setCore c { co with glean := .rest }
    let s := if far then s.dropClean (hamOf c) else s
    match s.idleCtx c with
    | some k => (s.begin' c k f seq ts).callIdle c
    | none => s.makeReady c (.fresh f seq ts)
  | _ => s

def execStolenFrameArrival (c : CoreId) (s : State) : Host.Outcome State Fault Refusal := .next (s.stolen c.val)

/-- The backoff of a gleaner ends (R78). -/
def State.backoffOver (s : State) (c : Nat) : State :=
  let co := s.core c
  match co.glean with
  | .backoff due =>
    if s.cycle.toNat < due then s.owe (.gleanerBackoff (Fin.ofNat 2048 c))
    else (s.setCore c { co with glean := .rest }).callIdle c
  | _ => s

def execGleanerBackoff (c : CoreId) (s : State) : Host.Outcome State Fault Refusal := .next (s.backoffOver c.val)

/-! ### Wake messages (R81) -/

/-- The oldest wake message of a hamlet: R82 applies to its own list. -/
def State.wakeMsg (s : State) (h : Nat) : State :=
  let x := s.ham h
  match x.wakes with
  | [] => s
  | w :: r => (s.setHam h { x with wakes := r }).wake h w.key { all := w.all, first := w.first, episode := w.episode, answer := w.answer }

def execWakeMessage (h : HamletId) (s : State) : Host.Outcome State Fault Refusal := .next (s.wakeMsg h.val)

end Sys2Proof.Machine
end

