-- ==== Sys2Proof/Machine/Packet.lean ====
section
/-! DEFINITION. Packets between packages (20 R453, R454, R459): messages of other packages at their homes, the answers to this
package's own, and what becomes of what an unreachable package owes. -/

namespace Sys2Proof.Machine

/-! ### Messages of other packages -/

/-- A message of another package arrives. A page that has moved is served at its new home (06 R167). It is acknowledged once it is
applied (20 R453). -/
def State.takeIn (s : State) (src : BitVec 20) (seq : BitVec 32) (core ctx tag : Nat) (b : Body) : State :=
  let pa := s.forwarded b.pa
  let (t, n) := s.fresh
  let m : Msg := { id := n + 1, core := core, ctx := ctx, pkg := src, home := t.homeOf pa, cnt := 0,
                   tag := if tag = 0 then none else some tag, body := Body.at' b pa, pc := 0, applied := false, seq := seq }
  ({ t with incoming := t.incoming ++ [m] } : State).serveIncoming m

/-! ### Answers -/

/-- The channel whose stage waits for a message takes its data (13 R365), or learns that they were listed (19 R450). -/
def State.chanTake (s : State) (id : Nat) (data : Row) (lost : Bool) : State :=
  match s.hub.chans.find? fun e => e.2.fetch.any fun f => f.2.1 = id with
  | none => s
  | some (n, c) =>
    let gone := if lost then (c.fetch.filter fun f => f.2.1 = id).map Prod.fst else []
    let c : SysChan := { c with
      fetch := c.fetch.map fun f => if f.2.1 = id then (f.1, f.2.1, some data) else f, lost := c.lost ++ gone }
    let s := { s with hub := { s.hub with chans := put s.hub.chans n c }, flight := s.flight.filter fun (q : Msg) => q.id ≠ id }
    if c.fetch.all fun f => f.2.2.isSome then s.oweOnce (.syscopyRecord (Fin.ofNat 16 n)) else s

/-- A read of another package has met a listed line there (19 R450): the copy or channel that waits lists its destination; an
instruction raises Memory Uncorrectable, precisely, once its context's other results have returned. -/
def State.lostAnswer (s : State) (src : BitVec 20) (id pa : Nat) : State :=
  match s.flight.find? fun (m : Msg) => m.id = id && m.pkg = src && !m.applied with
  | none => s
  | some m =>
    let s := s.delivered src id
    if s.hub.chans.any fun e => e.2.fetch.any fun f => f.2.1 = id then s.chanTake id 0 true
    else
      let co := s.core m.core
      if co.copies.any fun y => y.fetch.any fun f => f.2.1 = id then
        let spoil (y : Copy) : Copy := { y.take id 0 with spoilt := y.spoilt || y.fetch.any fun f => f.2.1 = id }
        (s.setCore m.core { co with copies := co.copies.map spoil }).acknowledge m
      else s.lostRead m (deadInfo pa)

/-- An answer of another package: to a donation (02 R51), to a message whose sender is gone, to a system channel, or to a waiting
result or copy. -/
def State.answered' (s : State) (src : BitVec 20) (id : Nat) (data : Row) (fl : BitVec 6) : State :=
  match s.flight.find? fun (m : Msg) => m.id = id && m.pkg = src && !m.applied with
  | none => s
  | some m =>
    let s := s.delivered src id
    if s.hub.chans.any fun e => e.2.fetch.any fun f => f.2.1 = id then s.chanTake id data false
    else
      match m.tag, m.body with
      | none, _ => s.acknowledge m
      | some _, .reply _ _ => s
      | some _, .donation _ f _ => (s.donationAnswered m (frameOf f) (data.getLsbD 0)).takeReply m data fl
      | some _, _ => s.takeReply m data fl

/-- What a packet does, in its place in the sequence (R453); one that is applied at once is acknowledged at once. -/
def State.packet (s : State) (src : BitVec 20) (seq : BitVec 32) (core ctx tag : Nat) (b : Body) : State :=
  let t := s.ack src seq
  match b with
  | .reply data fl => t.answered' src tag data fl
  | .empty => t.answered' src tag (1 <<< 64) 0
  | .lost pa => t.lostAnswer src tag pa
  | .wake pa => t.wakeFromFar (hamOf core) src pa
  | .listed pa => t.listLine (t.forwarded pa) 0 true
  | .decrement hd root => t.donatedEnd hd root
  | .donation q f ts =>
    let (taken, t) := t.donation src q (frameOf f) ts
    if tag = 0 then t else t.packetOut src core ctx tag (.reply (if taken then 0 else 1) 0)
  | .donReturn f missing => t.returned (frameOf f) missing
  | b => s.takeIn src seq core ctx tag b

/-- A packet arrives: one that is not the next of its sequence is discarded (R453). A stopped package answers none (17 R415). One
for another package leaves by the port of this package's tables (13 R367); without a port it is lost. -/
def State.packetArrival (s : State) (src dst : BitVec 20) (seq : BitVec 32) (core ctx tag : Nat) (b : Body) : State :=
  let p := look ({} : Peer) s.peers src.toNat
  if src = s.pkgid then s
  else if dst ≠ s.pkgid then
    let t := s.sendFlit (s.portFor src dst)
    { t with hub := { t.hub with transit := (s.portFor src dst).map fun port =>
      { port := port, src := src, dst := dst, seq := seq, core := core, ctx := ctx, tag := tag, body := b } } }
  else if s.stopped || seq ≠ p.expect then s
  else ({ s with peers := put s.peers src.toNat { p with expect := p.expect + 1 } } : State).packet src seq core ctx tag b

def execPackagePacketArrival (route : Route) (seq : BitVec 32) (core : CoreId) (k : CtxId) (tag : Nat) (body : Body)
    (s : State) : Host.Outcome State Fault Refusal := .next (s.packetArrival route.src route.dst seq core.val k.val tag body)

/-- Reference cycles without an acknowledgement after which packets are sent again (R453). -/
def resendAfter : Nat := 2 ^ 16

/-- The watch over the packets of a package that are not acknowledged: each 2^16 cycles without an acknowledgement they are sent
once more, in order, and stay what they are (R453); after 2^24 the package is unreachable (R454). -/
def State.resend (s : State) (d : BitVec 20) : State :=
  let p := look ({} : Peer) s.peers d.toNat
  let waited := s.cycle.toNat - p.since
  if p.unacked.isEmpty || p.dead then s
  else if deadAfter ≤ waited then s.oweOnce (.destinationUnreachable d)
  else if (p.resends + 1) * resendAfter ≤ waited then
    State.oweOnce { s with peers := put s.peers d.toNat { p with resends := p.resends + 1 } } (.endToEndResend d)
  else s.oweOnce (.endToEndResend d)

def execEndToEndResend (dst : BitVec 20) (s : State) : Host.Outcome State Fault Refusal := .next (s.resend dst)

/-! ### Unreachable packages (R454, R459) -/

/-- A result that waits for a message takes an open value (log entry 10). -/
def State.openResult (s : State) (c k id : Nat) : State :=
  let x := s.ctx c k
  let t := s.setCtx c k { x with results := x.results.map fun (r : Result) => r.fill id ((Config.freeWord s.free).setWidth 512 * (2 ^ 64 + 1)) 0 }
  { t with free := t.free + 1 }

/-- A message to an unreachable package fails. A donation whose packet has never left, for want of a port, is reinstated; of any other
the part cannot tell whether it arrived (R459). -/
def State.failMsg (s : State) (m : Msg) : State :=
  let unsent : Bool := s.portMask m.pkg = 0 && s.hub.heldOut.contains (m.pkg, m.id)
  let s := s.delivered m.pkg m.id
  let gone (t : State) : State := { t with flight := t.flight.filter fun (q : Msg) => q.id ≠ m.id }
  let co := s.core m.core
  match m.tag, m.body with
  | none, _ => if m.home = orphan then gone s else (s.discardDead m.core).acknowledge m
  | some _, .reply _ _ | some _, .empty | some _, .lost _ | some _, .wake _ => gone s
  | some _, .donReturn _ _ => (gone s).record { event := 0x0D, cls := 4 }
  | some t, .donation _ f ts =>
    if unsent then (s.reinstate m (frameOf f) ts).takeReply m 3 0
    else
      let u := (s.donationAnswered m (frameOf f) false).donationRecord m.core 4
      ((u.openResult m.core m.ctx t).acknowledge m).takeLate m.core m.ctx
  | some t, _ =>
    if co.copies.any fun y => y.fetch.any fun f => f.2.1 = m.id then
      let lost (y : Copy) : Copy := { y with fetch := y.fetch.map fun f => if f.2.1 = m.id then (f.1, 0, none) else f }
      ((s.setCore m.core { co with copies := co.copies.map lost }).discardDead m.core).acknowledge m
    else
      let x := s.ctx m.core m.ctx
      let waits : Bool := t = 0 || x.results.any fun r => match r.due with | .var aw => aw.any fun a => a.1 = t | .fixed _ => false
      if !waits then s.acknowledge m
      else
        let u := (s.setCtx m.core m.ctx (x.forget t)).acknowledge m
        ((u.as m.core m.ctx).trap 0x11 (deadInfo m.body.pa) m.pc).as s.curCore s.curCtx

/-- The messages to a package fail, oldest first. Of the answers that one context waits for, the oldest is raised, and those of
later instructions are forgotten, for these have not been executed (R454, 00 R12). It is raised once the context's other
results have returned (17 R407); `false` where that must be waited for. -/
def State.failAll (s : State) (d : BitVec 20) : List Msg → State × Bool
  | [] => (s, true)
  | m :: r =>
    let x := s.ctx m.core m.ctx
    let mine : List Nat := (s.flight.filter fun (q : Msg) => q.pkg = d && q.core = m.core && q.ctx = m.ctx).map fun (q : Msg) => q.id
    let ready : Bool := x.results.all fun q => match q.due with | .var aw => aw.all fun a => mine.contains a.1 | .fixed _ => true
    let trapping : Bool := match m.tag, m.body with
      | some _, .reply _ _ | some _, .donReturn _ _ | some _, .donation _ _ _ | none, _ => false
      | some _, .empty | some _, .lost _ | some _, .wake _ => false
      | some _, _ => m.home ≠ orphan
    if trapping && !ready then (s, false)
    else if trapping then
      let y : Ctx := mine.foldl (fun (y : Ctx) i => if i = m.id then y else y.forget i) x
      ((s.setCtx m.core m.ctx y).failMsg m).failAll d r
    else (s.failMsg m).failAll d r

/-- The system channels that a package's failure reaches abandon their records (19 R438). -/
def State.failChans (s : State) (d : BitVec 20) : State :=
  let ids := (s.flight.filter fun (m : Msg) => m.pkg = d).map fun (m : Msg) => m.id
  s.hub.chans.foldl (fun t e =>
    if e.2.state = 1 && ((e.2.fetch.any fun f => ids.contains f.2.1) || e.2.out.any ids.contains) then
      let c : SysChan := { e.2 with failing := some 0x07, fetch := [] }
      ({ t with hub := { t.hub with chans := put t.hub.chans e.1 c } } : State).oweOnce (.syscopyStageAck (Fin.ofNat 16 e.1))
    else t) s


/-- What is on its way to a package that has become unreachable fails (R454). A package that has been silent stays unreachable until
the ports or the package are set up anew (DESIGN CHOICE, log entry 98). -/
def State.unreachable (s : State) (d : BitVec 20) : State :=
  let p := look ({} : Peer) s.peers d.toNat
  if d = s.pkgid || !s.cutOff d then s
  else
    let s := if s.silent d then { s with peers := put s.peers d.toNat { p with dead := true } } else s
    let s := s.failChans d
    let (t, done) := s.failAll d (s.flight.filter fun (m : Msg) => m.pkg = d)
    if done then t else t.oweOnce (.destinationUnreachable d)

def execDestinationUnreachable (dst : BitVec 20) (s : State) : Host.Outcome State Fault Refusal := .next (s.unreachable dst)

end Sys2Proof.Machine
end

