-- ==== Sys2Proof/Machine/Channel.lean ====
section
/-! DEFINITION. The system copy channels (13 R365, 19 R438 to R440). -/

namespace Sys2Proof.Machine

/-! ### Transfer records (R365) -/

def recOwn (r : Row) : Bool := r.getLsbD 0
def recIrq (r : Row) : Bool := r.getLsbD 1
def recNext (r : Row) : Word := r.extractLsb' 64 64
def recSrc (r : Row) : BitVec 66 := r.extractLsb' 128 66
def recDst (r : Row) : BitVec 66 := r.extractLsb' 256 66
def recLen (r : Row) : Nat := fld r 415 384

/-- The format field (12 R330). -/
def recFmt (r : Row) : BitVec 48 := r.extractLsb' 448 48

/-- Whether a reserved field is not zero. -/
def recReserved (r : Row) : Bool :=
  fld r 7 2 ≠ 0 || fld r 63 16 ≠ 0 || fld r 255 194 ≠ 0 || fld r 383 322 ≠ 0 || fld r 447 416 ≠ 0 || fld r 511 496 ≠ 0

/-- The form of COPY that a format field asks for, and its rounding mode. -/
def recForm (r : Row) : CopyForm := if recFmt r = 0 then .plain else if (recFmt r).getLsbD 12 then .red else .cvt
def recRm (r : Row) : Nat := fld (recFmt r) 15 13

/-- The descriptor (12 R331) of a part of a record: `n` source bytes from the offset `off`. The addresses are local ones. -/
def recDesc (r : Row) (off n : Nat) : BitVec 256 :=
  let f := recFmt r
  let ws := max (codeBytes (f.extractLsb' 0 4)) 1
  let wd := codeBytes (f.extractLsb' 8 4)
  let dOff := if recForm r = .plain then off else off / ws * wd
  let codes := if recForm r = .plain then 0
    else fld f 3 0 * 2 ^ 156 + fld f 7 4 * 2 ^ 160 + fld f 11 8 * 2 ^ 164 + fld f 47 16 * 2 ^ 224
  BitVec.ofNat 256 ((fld (recSrc r) 45 0 + off) + (fld (recDst r) 45 0 + dOff) * 2 ^ 64 + n % 2 ^ 28 * 2 ^ 128 + codes)

/-- Whether a record breaks a limit of the copy that it asks for (12 R332). -/
def recInvalid (r : Row) : Bool :=
  let f := recForm r
  let d := recDesc r 0 0
  let ws := max (codeBytes (copyScode d)) 1
  copyIllegal f d || (copyMisaligned f d).isSome
  || (f ≠ .plain && recLen r % ws ≠ 0)
  || (f = .cvt && (recRm r = 0 || 4 < recRm r || (copyScaled d && recLen r / ws % blockOf (copyQdesc d) ≠ 0)))
  || (f = .red && 1 < recRm r)

/-- Package and local address of a system physical address (05 R122). -/
def sysPkg (x : BitVec 66) : BitVec 20 := x.extractLsb' 46 20
def sysPa (x : BitVec 66) : Nat := fld x 45 0

/-! ### Stages (R439) -/

/-- Bytes of a stage. -/
def stageBytes : Nat := 4096

/-- A channel, and the hub with it replaced. -/
def State.chan (s : State) (n : Nat) : SysChan := look {} s.hub.chans n
def State.setSysChan (s : State) (n : Nat) (c : SysChan) : State := { s with hub := { s.hub with chans := put s.hub.chans n c } }

/-- A channel's next step is owed. -/
def State.oweChan (s : State) (n : Nat) : State := s.oweOnce (.syscopyRecord (Fin.ofNat 16 n))
def State.oweStage (s : State) (n : Nat) : State := s.oweOnce (.syscopyStageAck (Fin.ofNat 16 n))

/-- A message of a channel to another package. -/
def State.chanSend (s : State) (n : Nat) (pkg : BitVec 20) (tagged : Bool) (b : Body) : State × Nat :=
  let (t, i) := s.fresh
  let m : Msg := { id := i + 1, core := 2048, ctx := n, pkg := pkg, home := orphan, cnt := 0,
                   tag := if tagged then some (i + 1) else none, body := b, pc := 0, applied := false }
  (({ t with flight := t.flight ++ [m] } : State).numbered pkg (i + 1), i + 1)

/-- A channel abandons its record (R438): it stops once what it has issued is done. -/
def State.abandon (s : State) (n : Nat) : State :=
  (s.setSysChan n { s.chan n with failing := some 0x07, fetch := [] }).oweStage n

/-- A record is complete (R365): status, `own` := 0, the interrupt, and the next record. -/
def State.finishRecord (s : State) (n : Nat) (r : Row) (status : Byte) : State :=
  let c := s.chan n
  let a := c.cur.toNat
  let t := s.homePut a (offsets [r.extractLsb' 0 8 &&& 0xFE, status])
  let t := if recIrq r then t.irq (16 + n) else t
  if recNext r = 0 then t.setSysChan n {} else (t.setSysChan n { cur := recNext r, state := 1 }).oweChan n

/-- Whether part of a local range is unbacked. -/
def State.unbackedRange (s : State) (pa n : Nat) : Bool :=
  (lineParts (BitVec.ofNat 64 pa) n).any fun p => s.region (pa + p.1) = .unbacked

/-- The pieces of a stage from an offset on, each with the geometry of a copy's (19 R434). -/
def stagePieces (f : CopyForm) (d : BitVec 256) (n : Nat) : Nat → Nat → List Geo
  | 0, _ => []
  | fuel + 1, off => if n ≤ off then [] else let g := copyGeo f d off; g :: stagePieces f d n fuel (off + max g.step 1)

/-- What a stage does at its destination (R365): at its homes, as an engine write, or by a message to another package. -/
def State.chanPut (s : State) (n : Nat) (pkg : BitVec 20) (b : Body) : State × List Nat :=
  if pkg ≠ s.pkgid then let (t, id) := s.chanSend n pkg false b; (t, [id])
  else
    match b with
    | .listed pa => (s.listLine (s.forwarded pa) 0 true, [])
    | .store pa bs full => ((s.applyBody (.store (s.forwarded pa) bs full)).elim s fun r => r.2.2, [])
    | .wired pa f xs => ((s.applyBody (.wired (s.forwarded pa) f xs)).elim s fun r => r.2.2, [])
    | .staged pa f rs => ((s.applyBody (.staged pa f rs)).elim s fun r => r.2.2, [])
    | _ => (s, [])

/-- Elements of a stage with their addresses, as runs of consecutive ones. -/
def addRuns (w : Nat) : List (Nat × Nat × BitVec 32) → List (Nat × List (Nat × BitVec 32))
  | [] => []
  | (pa, x) :: r =>
    match addRuns w r with
    | (q, xs) :: rest => if pa + w = q then (pa, x :: xs) :: rest else (pa, [x]) :: (q, xs) :: rest
    | [] => [(pa, [x])]

/-- A stage whose source bytes are at hand is moved; pieces whose source is listed list their destination (19 R450). The elements
of a reduction stage are carried and applied together (R439). -/
def State.moveStage (s : State) (n : Nat) (r : Row) (len : Nat) (bs : List Byte) : State :=
  let c := s.chan n
  let f := recForm r
  let d := recDesc r c.done.toNat len
  let dp := sysPkg (recDst r)
  let parts := lineParts (BitVec.ofNat 64 (sysPa (recSrc r) + c.done.toNat)) len
  let listed (g : Geo) : Bool :=
    let o := g.src.toNat - (copySrc d).toNat
    if sysPkg (recSrc r) = s.pkgid then
      (lineParts g.src g.n).any fun p => s.listedLine (s.forwarded (g.src.toNat + p.1) / 64 * 64)
    else parts.any fun p => c.lost.contains p.1 && p.1 < o + g.n && o < p.1 + p.2
  let rm : BitVec 3 := BitVec.ofNat 3 (recRm r)
  let w := codeBytes (copyDcode d)
  let put' (t : State × List Nat) (b : Body) : State × List Nat := let (u, ids) := t.1.chanPut n dp b; (u, t.2 ++ ids)
  let elems (g : Geo) : List (Nat × BitVec 32) :=
    copyWire f d rm g ((bs.drop (g.src.toNat - (copySrc d).toNat)).take g.n)
  let moved (t : State × List Nat) (g : Geo) : State × List Nat :=
    if listed g then put' t (.listed g.dst.toNat)
    else
      match f with
      | .red => t
      | .cvt => put' t (.wired g.dst.toNat (copyField f d rm) (elems g))
      | _ => put' t (.store g.dst.toNat (offsets ((bs.drop (g.src.toNat - (copySrc d).toNat)).take g.n)) true)
  let ps := stagePieces f d len 520 0
  let (t, ids) := ps.foldl moved (s, [])
  let adds : List (Nat × Nat × BitVec 32) := if f = .red then
      (ps.filter fun g => !listed g).flatMap fun g => (elems g).zipIdx.map fun e => (g.dst.toNat + w * e.2, e.1)
    else []
  let first := (copyDst d).toNat
  let (t, ids) := if adds.isEmpty then (t, ids)
    else put' (t, ids) (.staged first (copyField f d rm) ((addRuns w adds).map fun q => (q.1 - first, q.2)))
  (t.setSysChan n { t.chan n with staged := some len, fetch := [], lost := [], out := ids }).oweStage n

/-- The parts of a stage's source, asked of another package, or read. -/
def State.readStage (s : State) (n : Nat) (r : Row) (len : Nat) : State :=
  let c := s.chan n
  let pa := sysPa (recSrc r) + c.done.toNat
  let ps := lineParts (BitVec.ofNat 64 pa) len
  if sysPkg (recSrc r) = s.pkgid then
    s.moveStage n r len (ps.flatMap fun p => s.homeRead (s.forwarded (pa + p.1)) p.2)
  else
    let (t, fs) := ps.foldl (fun acc p =>
      let (t, id) := acc.1.chanSend n (sysPkg (recSrc r)) true (.load (pa + p.1) p.2 false)
      (t, acc.2 ++ [(p.1, id, (none : Option Row))])) (s, [])
    t.setSysChan n { t.chan n with staged := some len, fetch := fs }

/-- The parts of this package's memory that the next stage of a channel uses: its record, and of the stage's source and destination
what lies here. -/
def State.stageParts (s : State) (n : Nat) : List Nat :=
  let c := s.chan n
  let r := rowOf (s.homeRead c.cur.toNat 64)
  let len := min stageBytes (recLen r - c.done.toNat)
  let d := recDesc r c.done.toNat len
  let lines (va : Word) (k : Nat) : List Nat := (lineParts va k).map fun p => s.forwarded (va.toNat + p.1) / 64 * 64
  c.cur.toNat / 64 * 64 :: ((if sysPkg (recSrc r) = s.pkgid then lines (copySrc d) len else [])
    ++ if sysPkg (recDst r) = s.pkgid then lines (copyDst d) (copyDstLen (recForm r) d) else [])

/-- The next stage of a channel's record begins, or the record ends (R365, R438). A line of a CXL port that is down abandons the
record; one that the device has not served is waited for (20 R460), and so is a fenced hamlet (17 R415). -/
def State.nextStage (s : State) (n : Nat) : State :=
  let c := s.chan n
  let a := c.cur.toNat
  let stuck := (s.stageParts n).find? s.cxlStuck
  if s.region a = .unbacked || (stuck.bind fun l => (s.cxlPort l).map s.hub.cxlDown.contains) = some true then s.abandon n
  else if stuck.isSome || (s.stageParts n).any s.fencedAt then
    (match stuck with | some l => s.cxlAsk l false 0 | none => s).oweChan n
  else
    let r := rowOf (s.homeRead a 64)
    let other (p : BitVec 20) : Bool := p ≠ s.pkgid
    if !recOwn r then s.setSysChan n { c with state := 2 }
    else if recReserved r then s.finishRecord n r 0x01
    else if recInvalid r then s.finishRecord n r 0x03
    else if recLen r ≤ c.done.toNat then s.finishRecord n r 0x00
    else
      let sp := sysPkg (recSrc r)
      let dp := sysPkg (recDst r)
      let len := min stageBytes (recLen r - c.done.toNat)
      let d := recDesc r c.done.toNat len
      if (other sp && s.deadPeer sp) || (other dp && s.deadPeer dp)
          || (!other sp && s.unbackedRange (copySrc d).toNat len)
          || (!other dp && s.unbackedRange (copyDst d).toNat (copyDstLen (recForm r) d)) then s.abandon n
      else if (other sp && s.linkFull sp) || (other dp && s.linkFull dp) then s.oweChan n
      else s.readStage n r len

/-- A running channel's next act: a stage begins, or one whose data have come is moved. -/
def State.chanStep (s : State) (n : Nat) : State :=
  let c := s.chan n
  if c.state ≠ 1 || c.failing.isSome then s
  else
    match c.staged with
    | none => s.nextStage n
    | some len =>
      if c.fetch.isEmpty || (c.fetch.any fun f => f.2.2.isNone) then s
      else
        let r := rowOf (s.homeRead c.cur.toNat 64)
        s.moveStage n r len (c.fetch.flatMap fun f =>
          let n := (lineParts (BitVec.ofNat 64 (sysPa (recSrc r) + c.done.toNat)) len).find? fun p => p.1 = f.1
          bytesOf ((n.map Prod.snd).getD 0) (f.2.2.getD 0).toNat)

def execSyscopyRecord (ch : Fin 16) (s : State) : Host.Outcome State Fault Refusal := .next (s.chanStep ch.val)

/-- The writes of a channel's stage are acknowledged (R439), or the abandonment that waited for them is complete (R438). -/
def State.stageAck (s : State) (n : Nat) : State :=
  let c := s.chan n
  if s.flight.any fun (m : Msg) => c.out.contains m.id then s.oweStage n
  else
    match c.failing, c.staged with
    | some e, _ =>
      (s.setSysChan n { cur := c.cur, done := c.done, event := e, state := 2 }).record
        { event := 0x07, cls := 0, addr := c.cur.toNat, info := c.done.setWidth 64 }
    | none, some len =>
      if !c.fetch.isEmpty then s
      else (s.setSysChan n { c with done := c.done + BitVec.ofNat 32 len, staged := none, out := [] }).oweChan n
    | none, none => s

def execSyscopyStageAck (ch : Fin 16) (s : State) : Host.Outcome State Fault Refusal := .next (s.stageAck ch.val)

end Sys2Proof.Machine
end

