-- ==== Sys2Proof/Machine/Cxl.lean ====
section
/-! DEFINITION. CXL ports that fail, and their retraining (20 R460, 19 R438). -/

namespace Sys2Proof.Machine

/-- A line of a CXL port's window. -/
def cxlLine (p n : Nat) : Nat := 0x100000000000 + p * 2 ^ 40 + 64 * n

/-- Reference cycles without a completion after which a request to a CXL port fails (R460): 16 ms. -/
def cxlAfter : Nat := 15040000

/-- A request to a port fails, from a reference cycle on that it waits: the port is down, or the time is over (R460). -/
def State.cxlOver (s : State) (p since : Nat) : Bool := s.hub.cxlDown.contains p || cxlAfter ≤ s.cycle.toNat - since

/-- The system channels whose stage uses a line abandon their records (19 R438). -/
def State.cxlChans (s : State) (line : Nat) : State :=
  (List.range 16).foldl (fun t n =>
    if (t.chan n).state = 1 && (t.chan n).failing.isNone && (t.stageParts n).contains line then t.abandon n else t) s

/-- The request of a line has failed, or goes on waiting: the line is listed, and a write-back is recorded (R460). -/
def State.cxlLineFails (s : State) (p id : Nat) : State :=
  let line := cxlLine p (id - 2 ^ 64)
  match find s.hub.cxlPend line with
  | none => s
  | some r =>
    if !s.cxlOver p r.since then s.oweOnce (.cxlTimeout (Fin.ofNat 8 p) id)
    else
      let t := ({ s with hub := { s.hub with cxlPend := del s.hub.cxlPend line } } : State).cxlChans line
      let t := t.listLine line r.seq r.write
      if r.write then t.record { event := 0x10, cls := 4, addr := line, seq := r.seq, unit := p } else t

/-- The request of a posted store has failed, or goes on waiting; one that has been applied waits no longer. -/
def State.cxlPostFails (s : State) (p id : Nat) : State :=
  match s.waiting id with
  | some m =>
    if m.cnt ≠ 3 || s.cxlPort m.body.pa ≠ some p then s
    else if s.cxlOver p m.since then s.lostStore m
    else if (find s.hub.cxlPend (postKey id)).isSome then s.oweOnce (.cxlTimeout (Fin.ofNat 8 p) id) else s
  | none => { s with hub := { s.hub with cxlPend := del s.hub.cxlPend (postKey id) } }

/-- A request to a CXL port comes to its time-out (R460): that of a line, or of the posted store of that number. -/
def execCxlTimeout (port : Fin 8) (id : Nat) (s : State) : Host.Outcome State Fault Refusal :=
  .next (if 2 ^ 64 ≤ id then s.cxlLineFails port.val id else s.cxlPostFails port.val id)

/-- A device does not complete the request of a line, or of a posted store. -/
def State.cxlSilence (s : State) (p id : Nat) : State :=
  let ask (key since : Nat) : State :=
    ({ s with hub := { s.hub with cxlPend := put s.hub.cxlPend key { since := since } } } : State).oweOnce (.cxlTimeout (Fin.ofNat 8 p) id)
  if 2 ^ 64 ≤ id then
    if s.cxlPort (cxlLine p (id - 2 ^ 64)) = some p then s.cxlAsk (cxlLine p (id - 2 ^ 64)) false 0 else s
  else
    match s.waiting id with
    | some m => if m.cnt = 3 && s.cxlPort m.body.pa = some p then ask (postKey id) m.since else s
    | none => s

/-- A CXL port that its devices trained goes down (R460). -/
def State.cxlFalls (s : State) (p : Nat) : State :=
  if look 0 s.hub.cxl p = 0 || s.hub.cxlDown.contains p then s
  else { s with hub := { s.hub with cxlDown := setIns s.hub.cxlDown p } }

/-- Service firmware has retrained a CXL port that went down (R460): out of service unless it trains at its former capacity. -/
def State.cxlTrain (s : State) (p : Nat) (ok : Bool) : State :=
  let b := s.hub
  if !b.service || !b.cxlDown.contains p || b.cxlOut.contains p then s
  else
    ({ s with hub := { b with cxlDown := if ok then b.cxlDown.filter (· ≠ p) else b.cxlDown,
                              cxlOut := if ok then b.cxlOut else setIns b.cxlOut p } } : State).record
      { event := 0x0F, cls := 0, unit := p }

def execCxlRetrain (port : Fin 8) (ok : Bool) (s : State) : Host.Outcome State Fault Refusal := .next (s.cxlTrain port.val ok)

end Sys2Proof.Machine
end

