-- ==== Sys2Proof/Machine/Command.lean ====
section
/-! DEFINITION. Root firmware's command set but for LAUNCH (13 R353 to R358, R365, R368, R369, R371, R372; 19 R440). -/

namespace Sys2Proof.Machine

/-! ### Slots (R353 to R356) -/

def cmdOp (w : Row) (i : Nat) : Word := w.extractLsb' (192 + 64 * i) 64
def cmdArg (w : Row) : Word := w.extractLsb' 128 64
def cmdSeq (w : Row) : Word := w.extractLsb' 64 64

/-- Whether a reserved field of a slot is not zero. -/
def cmdReserved (w : Row) : Bool := fld w 511 384 ≠ 0 || fld w 63 16 ≠ 0 || fld w 7 1 ≠ 0

/-- Status codes (R356). -/
def stReserved : BitVec 8 := 0x01
def stUnknown : BitVec 8 := 0x02
def stInvalid : BitVec 8 := 0x03
def stBusy : BitVec 8 := 0x04
def stUnbacked : BitVec 8 := 0x05
def stFeature : BitVec 8 := 0x06
def stSignature : BitVec 8 := 0x07

/-- What a command comes to: done, with `info` and `word`; ended with another status; a launch that has started; or root
firmware still waits for what the command must wait for. -/
inductive Verdict where
  | ok (s : State) (info : Nat) (word : Word)
  | ended (s : State) (status : BitVec 8)
  | started (s : State)
  | later (s : State)

/-- Root firmware has read the slot at its position: `own` clears, and it goes to the next one (R354). -/
def State.takeSlot (s : State) : State :=
  let a := controlBase + 64 * (s.hub.cmdPos % 64)
  { s with mem := memSet s.mem a (memGet s.mem a &&& 0xFE), hub := { s.hub with cmdPos := s.hub.cmdPos + 1 } }

/-- The completion of a command, which ends the hold of a LINKCFG that has waited (R368). -/
def State.answer (s : State) (w : Row) (status : BitVec 8) (info : Nat) (word : Word) : State :=
  (if s.hub.linkHold then s.endLinkHold else s).takeSlot.complete { word := word, seq := cmdSeq w, info := BitVec.ofNat 32 info, status := status, code := w.extractLsb' 8 8 }

/-- A command in its frame: a stopped package refuses all but QUERY and RESET (17 R415); a slot with reserved bits set is
refused (00 R10). -/
def State.hubCommand (s : State) (w : Row) (always : Bool) (k : State → Verdict) : Host.Outcome State Fault Refusal :=
  .next (if s.stopped && !always then s.answer w stBusy 0 0
    else if cmdReserved w then s.answer w stReserved 0 0
    else match k s with
      | .ok t info word => t.answer w 0 info word
      | .ended t st => t.answer w st 0 0
      | .started t => t.takeSlot
      | .later t => t)

/-- Whether a local physical range is backed (05 R122). -/
def State.backed (s : State) (a : Word) (n : Nat) : Bool :=
  let x := a.toNat
  match s.region x, s.region (x + (n - 1)) with
  | .stash _, .stash _ | .commons _, .commons _ => true
  | p, q => p ≠ .unbacked && p = q

/-- Whether an argument address is one: 64-byte aligned and not 0 (R353). -/
def argOk (a : Word) : Bool := a ≠ 0 && aligned a 64

/-- Bytes at their homes. -/
def State.bytesAt (s : State) (a n : Nat) : List Byte := (List.range n).flatMap fun i => s.homeRead (a + i) 1

/-- The argument record of a command, of `n` bytes: none, or the status that its address ends with. -/
def State.argBad (s : State) (w : Row) (n : Nat) : Option (BitVec 8) :=
  if !argOk (cmdArg w) then some stInvalid else if !s.backed (cmdArg w) n then some stUnbacked else none

/-! ### QUERY (R358) -/

/-- The capacity in GiB that QUERY reports for a port (R358, R370): 0 for one that is out of service (20 R460). -/
def State.cxlGib (s : State) (n : Nat) : Nat := if s.hub.cxlOut.contains n then 0 else min (look 0 s.hub.cxl n).toNat 768

def State.queryRow (s : State) : Row :=
  BitVec.ofNat 512
    (featuresWord.toNat * 2 ^ 448 + s.hub.lpddr % 2 ^ 64 * 2 ^ 384
      + (List.range 8).foldl (fun acc n => acc + s.cxlGib n * 2 ^ (128 + 32 * n)) 0
      + s.hub.rampstep.toNat * 2 ^ 96 + s.hub.gmin.toNat * 2 ^ 84 + s.hub.hmax.toNat * 2 ^ 79 + s.pkgid.toNat * 2 ^ 32
      + Config.romRevision.toNat)

def execQuery (slot : Row) (s : State) : Host.Outcome State Fault Refusal :=
  s.hubCommand slot true fun t =>
    match t.argBad slot 64 with
    | some e => .ended t e
    | none => .ok (t.homePut (cmdArg slot).toNat (offsets (bytesOf 64 t.queryRow.toNat))) 0 0

/-! ### ABORT, PAGERDONE, TLBINV, PEALFLOOR -/

def execAbort (slot : Row) (s : State) : Host.Outcome State Fault Refusal :=
  s.hubCommand slot false fun t =>
    match t.launches.find? fun l => l.seq = cmdOp slot 0 with
    | none => .ended t stInvalid
    | some l => .ok (t.abortLaunch l) 0 (t.endWord l)

def execPagerdone (slot : Row) (s : State) : Host.Outcome State Fault Refusal :=
  s.hubCommand slot false fun t =>
    let hd : BitVec 32 := (cmdOp slot 0).setWidth 32
    let f := t.future hd
    if fld (cmdOp slot 0) 63 32 ≠ 0 || hdIdx hd < 4032 || fld hd 31 20 = 0 || f.gen ≠ hd.extractLsb' 20 12 || f.kind ≠ .pager
        || 2 < (cmdOp slot 1).toNat then .ended t stInvalid
    else .ok (t.pagerDone hd (cmdOp slot 1).toNat) 0 0

def execTlbinvCommand (slot : Row) (s : State) : Host.Outcome State Fault Refusal :=
  s.hubCommand slot false fun t =>
    let form := (cmdOp slot 0).toNat
    let space : BitVec 12 := (cmdOp slot 2).setWidth 12
    let gone (e : Tlb) : Bool :=
      if form = 0 then e.covers space ((cmdOp slot 1).toNat % 2 ^ 57) else if form = 1 then e.space = space else true
    if 2 < form then .ended t stInvalid
    else if t.travelling gone then .later t
    else .ok (t.dropTlb gone) 0 0

def execPealfloor (slot : Row) (s : State) : Host.Outcome State Fault Refusal :=
  s.hubCommand slot false fun t =>
    let g := (cmdOp slot 0).toNat
    let h := (cmdOp slot 1).toNat
    if g < t.hub.gmin.toNat || 4096 ≤ g || t.hub.hmax.toNat < h then .ended t stInvalid
    else .ok { t with hub := { t.hub with gmin := BitVec.ofNat 12 g, hmax := BitVec.ofNat 5 h } } 0 0

/-! ### RANGE and CXLSHARE (05 R132, R134) -/

/-- Fields of a range register image. -/
def rangeElems (r : BitVec 256) : Nat × Nat :=
  (fld r 45 0, fld r 223 192 * blockOf (r.extractLsb' 224 32) * (fmtOfDesc (r.extractLsb' 224 32)).width / 8)
def rangeWindow (r : BitVec 256) : Nat × Nat := (fld r 109 64, (4 * fld r 223 192 + 63) / 64 * 64)
def rangeCodes (r : BitVec 256) : Nat × Nat := (fld r 173 128, fld r 223 192)

/-- The parts of the map that a range names. -/
def rangeParts (r : BitVec 256) : List (Nat × Nat) :=
  rangeElems r :: (if rangeScales r then [rangeWindow r, rangeCodes r] else [])

/-- The parts that a range image names, enabled or not: a scale window and a code array in scale mode MX E8M0 decoded. -/
def imageParts (r : BitVec 256) : List (Nat × Nat) := rangeParts (r ||| (1 <<< 46))

/-- Whether two parts overlap. -/
def overlapping (a b : Nat × Nat) : Bool := a.1 < b.1 + b.2 && b.1 < a.1 + a.2

/-- Whether a part lies within one controller's addresses: an HBM stack's turn every 4 KiB, an LPDDR6 pair's every 8 KiB (00 R122). -/
def State.inController (s : State) (c : Nat) (p : Nat × Nat) : Bool :=
  let last := p.1 + p.2 - 1
  s.controllerOf p.1 = c && s.controllerOf last = c
  && (if c < 8 then p.1 / 4096 = last / 4096 else if c < 16 then p.1 / 8192 = last / 8192 else true)

/-- Whether a range image is one that root firmware rejects (R132), enabled or not. -/
def State.rangeInvalid (s : State) (c i : Nat) (r : BitVec 256) : Bool :=
  let desc : BitVec 32 := r.extractLsb' 224 32
  let others := (s.ranges.filter fun e => e.1 / 16 = c && e.1 % 16 ≠ i && e.2.getLsbD 46).flatMap fun e => rangeParts e.2
  !descValid desc || fld r 223 192 = 0 || fld r 45 0 % 64 ≠ 0 || (rangeElems r).2 % 64 ≠ 0
  || (rangeScales (r ||| (1 <<< 46)) && (fld r 109 64 % 64 ≠ 0 || fld r 173 128 % 64 ≠ 0))
  || (imageParts r).any fun p => !s.inController c p || others.any (overlapping p)

/-- Whether a range image's reserved fields are not zero. -/
def rangeReserved (r : BitVec 256) : Bool := fld r 191 174 ≠ 0 || fld r 127 110 ≠ 0 || fld r 63 47 ≠ 0

/-- The lines of a range that its controller's slices hold are written back (R132, R357): scale-window lines are encoded, and zero
lines written out. -/
def State.flushRange (s : State) (r : BitVec 256) : State :=
  let inside (line : Nat) : Bool := (rangeParts r).any (overlapping (line, 64))
  let s := (s.scales.map Prod.fst).foldl (fun t line => if inside line then t.evictScales line else t) s
  s.zeros.foldl (fun t z => if inside (64 * z) then
    { t with zeros := t.zeros.filter (· ≠ z), mem := memWrite t.mem (64 * z) (List.replicate 64 0) } else t) s

def execRange (slot : Row) (s : State) : Host.Outcome State Fault Refusal :=
  s.hubCommand slot false fun t =>
    let c := (cmdOp slot 0).toNat
    let i := (cmdOp slot 1).toNat
    match t.argBad slot 32 with
    | some e => .ended t e
    | none =>
      let r := BitVec.ofNat 256 (ofBytes (t.bytesAt (cmdArg slot).toNat 32))
      if rangeReserved r then .ended t stReserved
      else if 24 ≤ c || 16 ≤ i then .ended t stInvalid
      else if !t.launches.isEmpty then .ended t stBusy
      else if (imageParts r).any fun p => p.2 ≠ 0 && !t.backed (BitVec.ofNat 64 p.1) p.2 then .ended t stUnbacked
      else if t.rangeInvalid c i r then .ended t stInvalid
      else
        let old := look (0 : BitVec 256) t.ranges (16 * c + i)
        let u := (t.flushRange old).flushRange r
        .ok { u with ranges := put u.ranges (16 * c + i) r } 0 0

/-- The GiB of a range, by their numbers. -/
def gibs (base len : Nat) : List Nat := (List.range (len / 2 ^ 30)).map (base / 2 ^ 30 + ·)

def execCxlshare (slot : Row) (s : State) : Host.Outcome State Fault Refusal :=
  s.hubCommand slot false fun t =>
    let base := (cmdOp slot 0).toNat
    let len := (cmdOp slot 1).toNat
    let port (a : Nat) : Option Nat := match t.region a with | .cxl n => some n | _ => none
    if base % 2 ^ 30 ≠ 0 || len % 2 ^ 30 ≠ 0 || len = 0 || 1 < (cmdOp slot 2).toNat || (port base).isNone
        || port base ≠ port (base + len - 1) then .ended t stInvalid
    else if !t.launches.isEmpty then .ended t stBusy
    else
      let shared := if cmdOp slot 2 = 1 then (gibs base len).foldl setIns t.hub.shared
        else t.hub.shared.filter fun g => !(gibs base len).contains g
      .ok { t with hub := { t.hub with shared := shared } } 0 0

/-! ### LINKCFG (R367, R368) -/

/-- A routing table of 1,024 entries in memory, entries of 0 left out. -/
def State.readTable (s : State) (a : Nat) : Map (BitVec 16) :=
  ((List.range 1024).map fun i => (i, BitVec.ofNat 16 (ofBytes (s.bytesAt (a + 2 * i) 2)))).filter fun e => e.2 ≠ 0

/-- LINKCFG. Bits [15:12] of a table's entry, which R367 does not name, are taken as reserved (DESIGN CHOICE, log entry 46). A later
LINKCFG lets new packets wait until every packet sent is acknowledged; a package that had been silent is tried again (log entry 98). -/
def execLinkcfg (slot : Row) (s : State) : Host.Outcome State Fault Refusal :=
  s.hubCommand slot false fun t =>
    let id : BitVec 20 := (cmdOp slot 0).setWidth 20
    match t.argBad slot 4096 with
    | some e => .ended t e
    | none =>
      if fld (cmdOp slot 0) 63 20 ≠ 0 || (t.hub.configured && id ≠ t.pkgid) then .ended t stInvalid
      else if !t.hub.service then .ended t stBusy
      else
        let gt := t.readTable (cmdArg slot).toNat
        let mt := t.readTable ((cmdArg slot).toNat + 2048)
        if (gt ++ mt).any fun e => fld e.2 15 12 ≠ 0 then .ended t stReserved
        else if !t.hub.configured then
          .ok { t with pkgid := id, groupTable := gt, memberTable := mt, hub := { t.hub with configured := true },
                       ports := (List.range 12).map fun p => (p, { training := true }) } 0 0
        else if t.peers.any fun e => !e.2.unacked.isEmpty then .later { t with hub := { t.hub with linkHold := true } }
        else .ok ({ t with groupTable := gt, memberTable := mt,
                           peers := t.peers.map fun (e : Nat × Peer) => (e.1, { e.2 with dead := false }) } : State).oweUnreachable 0 0

/-! ### SYSCOPY and DONQ (R365, R369; 19 R440) -/

def execSyscopy (slot : Row) (s : State) : Host.Outcome State Fault Refusal :=
  s.hubCommand slot false fun t =>
    let n := (cmdOp slot 0).toNat
    let head := cmdOp slot 1
    let c := t.chan n
    if 16 ≤ n || !aligned head 64 then .ended t stInvalid
    else if c.state = 1 then .ended t stBusy
    else if head = 0 then
      if c.state = 2 then .ok ((t.setSysChan n { cur := c.cur, done := c.done, state := 1 }).oweChan n) 0 0 else .ended t stInvalid
    else if !t.backed head 64 then .ended t stUnbacked
    else .ok ((t.setSysChan n { cur := head, state := 1 }).oweChan n) 0 0


/-- An address of second-tier memory: of LPDDR6 or of a CXL device (05 R122). -/
def State.secondTier (s : State) (a : Nat) : Bool := match s.region a with | .lpddr | .cxl _ => true | _ => false

def execDonq (slot : Row) (s : State) : Host.Outcome State Fault Refusal :=
  s.hubCommand slot false fun t =>
    let q := (cmdOp slot 0).toNat
    let cap := (cmdOp slot 1).toNat
    let base := cmdOp slot 2
    let d := look ({} : DonQueue) t.hub.donqs q
    if 16 ≤ q || 256 < cap then .ended t stInvalid
    else if !d.frames.isEmpty then .ended t stBusy
    else if cap ≠ 0 && !t.backed base (cap * donEntry) then .ended t stUnbacked
    else if cap ≠ 0 && !t.secondTier base.toNat then .ended t stInvalid
    else .ok { t with hub := { t.hub with donqs := put t.hub.donqs q { cap := cap, base := base, frames := [] } } } 0 0

/-! ### ATTEST and SVCLOAD (R371, R372) -/

/-- The first 208 bytes of the attestation report: what its signature covers. -/
def State.attestBody (s : State) (nonce : Nat) (digest : BitVec 384) : List Byte :=
  bytesOf 208
    (nonce % 2 ^ 384 + s.pkgid.toNat * 2 ^ 384 + featuresWord.toNat * 2 ^ 448 + Config.romDigest.toNat * 2 ^ 512
      + (if s.hub.service then s.hub.serviceDigest.toNat else 0) * 2 ^ 896 + digest.toNat * 2 ^ 1280)

def execAttest (slot : Row) (s : State) : Host.Outcome State Fault Refusal :=
  s.hubCommand slot false fun t =>
    let a := (cmdArg slot).toNat
    let l := t.launches.find? fun l => l.seq = cmdOp slot 0
    let cert := Config.certificate.take 2048
    let n := if cmdOp slot 1 = 1 then cert.length else 304
    match t.argBad slot n with
    | some e => .ended t e
    | none =>
      if 1 < (cmdOp slot 1).toNat || (cmdOp slot 0 ≠ 0 && l.isNone) then .ended t stInvalid
      else if cmdOp slot 1 = 1 then .ok (t.homePut a (offsets cert)) n 0
      else
        let body := t.attestBody (ofBytes (t.bytesAt a 48)) (if cmdOp slot 0 = 0 then 0 else (l.map Launch.digest).getD 0)
        let sig := deviceSign t.free (sha384 body)
        .ok ({ t with free := t.free + 1 }.homePut a (offsets (body ++ bytesOf 96 sig.toNat))) 304 0

def execSvcload (slot : Row) (s : State) : Host.Outcome State Fault Refusal :=
  s.hubCommand slot false fun t =>
    match t.argBad slot 24 with
    | some e => .ended t e
    | none =>
      let word (i : Nat) : Word := BitVec.ofNat 64 (ofBytes (t.bytesAt ((cmdArg slot).toNat + 8 * i) 8))
      if !t.backed (word 0) (word 1).toNat || !t.backed (word 2) 96 then .ended t stUnbacked
      else
        let digest := sha384 (t.bytesAt (word 0).toNat (word 1).toNat)
        if verifies digest (BitVec.ofNat 768 (ofBytes (t.bytesAt (word 2).toNat 96))) then
          .ok { t with hub := t.hub.startService digest } 0 0
        else .ended (t.record { event := 0x15, cls := 0 }) stSignature

/-- An unassigned code (R357); a stopped package refuses it as every other (17 R415). It ends with that, whatever its reserved fields
hold: the spec gives RESERVED no place before UNKNOWN or BUSY (DESIGN CHOICE, log entry 100). -/
def execUnknownCommand (slot : Row) (s : State) : Host.Outcome State Fault Refusal :=
  .next (s.answer slot (if s.stopped then stBusy else stUnknown) 0 0)

/-! ### RESET and boot (R357, R373; 20 R459 to R461) -/

/-- The frames of the donation queues go back to their origins (R459). Those of this package end with their launches. -/
def State.returnFrames (s : State) : State :=
  let fs := s.hub.donqs.flatMap fun e => e.2.frames.map Prod.fst
  let t := fs.foldl (fun t f =>
    if f.originpkg = t.pkgid then t
    else if t.deadPeer f.originpkg then t.donationRecord 0 4
    else t.packetOut f.originpkg 0 0 0 (.donReturn f.row 0)) s
  { t with hub := { t.hub with donqs := t.hub.donqs.map fun (e : Nat × DonQueue) => (e.1, { e.2 with frames := [] }) } }

/-- A core as reset leaves it, with the entries that root firmware writes at boot (17 R407). -/
def Core.asReset (co : Core) : Core :=
  { reevevec := co.reevevec
    ctxs := (co.ctxs.map fun (e : Nat × Ctx) => (e.1, ({ trapvec := e.2.trapvec } : Ctx))).filter fun e => e.2.trapvec ≠ 0 }

/-- Whether an address lies in storage of the compute dies that a reset clears: stash storage and commons. -/
def dieStorage (a : Nat) : Bool := 0x3D0000000000 ≤ a && a < 0x3F0000000000

/-- The compute dies are reset, their bridges and HBM4E trained again, and the commons zeroed (R373 steps 3 and 4). -/
def State.resetDies (s : State) : State :=
  let s := s.zeros.foldl (fun t z => { t with mem := memWrite t.mem (64 * z) (List.replicate 64 0) }) s
  { s with
    cores := s.cores.map fun (e : Nat × Core) => (e.1, e.2.asReset)
    hamlets := s.hamlets.map fun (e : Nat × Hamlet) => (e.1, ({ ceiling := e.2.ceiling, point := e.2.ceiling } : Hamlet))
    mem := s.mem.filter fun (c : Host.Cell) => !dieStorage c.1
    full := [], zeros := [], ways := [], tainted := [], scales := [], bad := [], badCode := [], forwards := [], roots := []
    stopped := false
    ranges := s.ranges.filter fun (e : Nat × BitVec 256) => 8 ≤ e.1 / 16
    peers := s.peers.map fun (e : Nat × Peer) => (e.1, { e.2 with dead := false })
    hub := { s.hub with cxlDown := s.hub.cxlDown.filter fun p => !s.hub.cxlOut.contains p, cxlOut := [] } }

/-- RESET reaches the system channels that run: each abandons its record, and stops once what it has issued is done (19 R438). -/
def State.resetChans (s : State) : State :=
  (List.range 16).foldl (fun t n => if (t.chan n).state = 1 && (t.chan n).failing.isNone then t.abandon n else t) s

def execReset (slot : Row) (s : State) : Host.Outcome State Fault Refusal :=
  s.hubCommand slot true fun t =>
    if cmdOp slot 0 ≠ 0 then .ended t stInvalid
    else if t.hub.chans.any fun e => e.2.state = 1 then .later t.resetChans
    else .ok ((t.launches.foldl State.abortLaunch t).returnFrames.resetDies) 0 0

/-- Contexts and cores with the entries that root firmware writes at boot (17 R407). -/
def bootCores (trapvec reevevec : Word) : Map Core :=
  (List.range 2048).map fun c =>
    (c, { reevevec := writeAddr 0 reevevec, ctxs := (List.range 5).map fun k => (k, { trapvec := writeAddr 0 trapvec }) })

/-- Step 6 of the boot: whether the module flash yields service firmware, and its signature verifies. -/
def bootStarts (r : BootReport) : Bool := r.service && verifies Config.flashServiceDigest Config.flashSignature

/-- The hub after the boot's steps. -/
def bootHub (r : BootReport) : Hub :=
  let b : Hub := { gmin := r.gmin, hmax := r.hmax, rampstep := r.rampstep, lpddr := r.lpddr, booted := true,
                   cxl := if bootStarts r then r.cxl.zipIdx.map fun (c, i) => (i, c) else [] }
  if bootStarts r then b.startService Config.flashServiceDigest else b

/-- The package after power-good (R373): booted, or stopped at a step that failed (R461, R463). -/
def State.boot (s : State) (r : BootReport) : State :=
  let base : State := { State.reset with inputs := s.inputs, free := s.free }
  if r.failStep ≠ 0 then
    let row := errRow 0 0 { event := 0x16, cls := 6, info := BitVec.ofNat 64 r.failStep }
    let told : Bool := bootStarts r && 8 ≤ r.failStep
    { base with hub := { bootStop := r.failStep, reports := if told then [base.report row] else [],
                         reportNo := if told then 1 else 0 } }
  else
    let t : State := { base with hub := bootHub r, cores := bootCores r.trapvec r.reevevec }
    let t := r.lpddrOut.foldl (fun u n => u.record { event := 0x0F, cls := 0, unit := n.toNat }) t
    if bootStarts r then t else t.record { event := 0x15, cls := 0 }

def execPowerGood (r : BootReport) (s : State) : Host.Outcome State Fault Refusal := .next (s.boot r)

end Sys2Proof.Machine
end

