-- ==== Sys2Proof/Machine/Convert.lean ====
section
/-! DEFINITION. Conversions, opcodes 0x46 to 0x48 (09 R256 to R259). -/

namespace Sys2Proof.Machine

/-! ### Sources and targets -/

/-- An element of a source: a float or an integer. -/
def sourceVal (e : BitVec 4) (code : Nat) : Val :=
  if isFloat e then (fmtOf e).decode code else .ofInt (readInt (widthOf e) (isSigned e) (BitVec.ofNat 64 code))

/-- Where a conversion goes: an integer type, or a format. -/
inductive Target' where
  | int (signed : Bool) (w : Nat)
  | fmt (f : Fmt)
  deriving DecidableEq, Repr

/-- Width in bits of a target's elements. -/
def Target'.width : Target' → Nat
  | .int _ w => w
  | .fmt f => f.width

/-- The target that a code names (R176), a descriptor for .q. -/
def targetOf (t : ETy) (d : BitVec 32) : Target' :=
  let e := etyCode t
  if t = .q then .fmt (fmtOfDesc d)
  else if isFloat e then .fmt (fmtOf e)
  else .int (isSigned e) (widthOf e)

/-- One element converted (R257): `beyond` is the flag of a float out of an integer's range. -/
def convert (tg : Target') (beyond : Flags) (m : Mode) (x : Nat) (fromInt : Bool) (v : Val) : Nat × Flags :=
  match tg with
  | .fmt f => let r := f.round m x v; (r.1, r.2 ||| snanFlag [v])
  | .int sg w =>
    let r := toInteger sg w (if fromInt then fSat else beyond) m x v
    ((r.1 % (2 ^ w : Nat)).toNat, r.2)

/-- The draws of stochastic rounding for the active ones of `n` elements, and SRSTATE after them (04 R108). -/
def srDraws (act : Word) : Nat → Nat → BitVec 32 → List Nat × BitVec 32
  | 0, _, st => ([], st)
  | n + 1, i, st =>
    if act.getLsbD i then
      let t := srStep st
      let r := srDraws act n (i + 1) t
      (t.toNat :: r.1, r.2)
    else
      let r := srDraws act n (i + 1) st
      (0 :: r.1, r.2)

/-- The draws for `n` elements under a mode, and the state with SRSTATE stepped. -/
def State.draws (s : State) (m : Mode) (act : Word) (n : Nat) : List Nat × State :=
  if m = 5 then
    let r := srDraws act n 0 s.me.srstate
    (r.1, s.setMe { s.me with srstate := r.2 })
  else ([], s)

/-- The descriptor in S[b][31:0]. -/
def State.descOf (s : State) (o : Ops) : BitVec 32 := (s.scOp o o.b).setWidth 32

/-! ### CVT -/

/-- Number of elements of a CVT, and whether part lies within its limit (R256). -/
def partOk (part ws wt : Nat) : Bool :=
  ws = 0 || wt = 0 || ((part + 1) * (512 / max ws wt) * min ws wt ≤ 512 && (ws ≠ wt || part = 0))

/-- The decoder's check of CVT's part. -/
def cvtPre (o : Ops) (t : ETy) (s : State) : Bool :=
  let d := s.descOf o
  (t = .q && !descValid d)
  || partOk (fld (xfOf o) 5 0) (widthOf (s.vec o o.a).etype) (Target'.width (targetOf t d))

/-- Body of CVT. -/
def cvtBody (o : Ops) (t : ETy) (s : State) : Act :=
  let a := s.vec o o.a
  let d := s.vec o o.d
  let ws := widthOf a.etype
  let tg := targetOf t (s.descOf o)
  let wt := Target'.width tg
  let n := 512 / max ws wt
  let part := fld (xfOf o) 5 0
  let act := s.lanes o
  let m := s.modeOf o
  if t = .q && (s.locFault (scLoc o o.b)).isNone && !descValid (s.descOf o) then illegal (.cvt o t)
  else orFault [s.vecFault a true, if t = .q then s.locFault (scLoc o o.b) else none, s.vecFault d true]
      (let (xs, u) := s.draws m act n
       let r := elemCell (d.base / 64) wt n act (fun i => if wt < ws then part * n + i else i) fun i =>
         convert tg fNv m (xs.getD i 0) (isInt a.etype)
           (sourceVal a.etype (laneOf ws (s.rowAt a) (if ws < wt then part * n + i else i)))
       .done (u.fixed 4 [r.1] r.2))

def execCvt (o : Ops) (t : ETy) (s : State) : Host.Outcome State Fault Refusal :=
  .next (s.performVec (.cvt o t) o (cvtPre o t) (cvtBody o t))

/-! ### CVTN -/

/-- Whether a CVTN's descriptor passes: valid for .q, `blk` and `scl` not reserved otherwise. -/
def cvtnDesc (t : ETy) (d : BitVec 32) : Bool := if t = .q then descValid d else fld d 14 13 ≠ 3 && fld d 12 11 ≠ 3

/-- The decoder's check of CVTN's target block. -/
def cvtnPre (o : Ops) (t : ETy) (s : State) : Bool :=
  let d := s.descOf o
  !cvtnDesc t d || (fld (xfOf o) 7 3 + 1) * blockOf d * Target'.width (targetOf t d) ≤ 512

/-- The largest finite value of a CVTN target (R258). -/
def topOf (tg : Target') : Nat × Int :=
  match tg with
  | .int _ _ => (127, 0)
  | .fmt f => f.magnitude f.maxCode

/-- Body of CVTN: one block, its scale into S[b]. -/
def cvtnBody (o : Ops) (t : ETy) (s : State) : Act :=
  let a := s.vec o o.a
  let d := s.vec o o.d
  let ws := widthOf a.etype
  let desc := s.descOf o
  let tg := targetOf t desc
  let wt := Target'.width tg
  let n := blockOf desc
  let act := s.lanes o
  let m := s.modeOf o
  let first := fld (xfOf o) 2 0 * n
  let rowOfElem (j : Nat) : Nat := a.base / 64 + (first + j) * ws / 512
  let on := (List.range n).filter fun i => act.getLsbD i
  let rows := (on.map rowOfElem).eraseDups.map fun r => ({ addr := 64 * r, bytes := 64, storeOnly := true } : Loc)
  if (s.locFault (scLoc o o.b)).isNone && !cvtnDesc t desc then illegal (.cvtn o t)
  else orFault ([s.vecFault a (isFloat a.etype && wt ≤ ws)] ++ rows.map s.locFault
      ++ [s.locFault (scLoc o o.b), s.vecFault d true])
      (let val (j : Nat) : Val := sourceVal a.etype (laneOf ws (s.row (rowOfElem j)) ((first + j) % (512 / ws)))
       let sc := blockScale (fld desc 12 11) (topOf tg) desc (on.map val)
       let (xs, u) := s.draws m act n
       let r := elemCell (d.base / 64) wt n act (fun j => fld (xfOf o) 7 3 * n + j) fun j =>
         let q := divVal (val j) (scaleVal sc)
         let c := convert tg fSat m (xs.getD j 0) false q.1
         (c.1, c.2 ||| q.2)
       .done (u.fixed 6 [r.1, cellAt (scAddr o o.b) 8 (sc.toNat * 2 ^ 32 + desc.toNat)] r.2))

def execCvtn (o : Ops) (t : ETy) (s : State) : Host.Outcome State Fault Refusal :=
  .next (s.performVec (.cvtn o t) o (cvtnPre o t) (cvtnBody o t))

/-! ### CVTW -/

/-- The decoder's check of CVTW's part. -/
def cvtwPre (o : Ops) (t : ETy) (s : State) : Bool :=
  let d := s.descOf o
  !descValid d || (fld (xfOf o) 5 0 + 1) * (512 / widthOf (etyCode t)) * (fmtOfDesc d).width ≤ 512

/-- Body of CVTW. -/
def cvtwBody (o : Ops) (t : ETy) (s : State) : Act :=
  let a := s.vec o o.a
  let d := s.vec o o.d
  let desc := s.descOf o
  let f := fmtOfDesc desc
  let sc : BitVec 32 := (s.scOp o o.b >>> 32).setWidth 32
  let tg := targetOf t desc
  let n := 512 / Target'.width tg
  let act := s.lanes o
  let m := s.modeOf o
  let scaled := fld desc 12 11 ≠ 0
  let toInt : Bool := match tg with | .int _ _ => true | .fmt _ => false
  if (s.locFault (scLoc o o.b)).isNone && (!descValid desc || (toInt && (f.ew ≠ 0 || scaled))) then illegal (.cvtw o t)
  else orFault [s.vecFault a true, s.locFault (scLoc o o.b), s.vecFault d true]
    (if scaled && badScale sc && (List.range n).any (fun i => act.getLsbD i) then .trap 0x06 (sc.setWidth 64)
     else
       let r := elemCell (d.base / 64) (Target'.width tg) n act id fun i =>
         let v := f.decode (laneOf f.width (s.rowAt a) (fld (xfOf o) 5 0 * n + i))
         let v := match v with | .nan _ => Val.nan false | v => v
         convert tg fSat m 0 false (if scaled then (mulVal v (scaleVal sc)).1 else v)
       .done (s.fixed 4 [r.1] r.2))

def execCvtw (o : Ops) (t : ETy) (s : State) : Host.Outcome State Fault Refusal :=
  .next (s.performVec (.cvtw o t) o (cvtwPre o t) (cvtwBody o t))

end Sys2Proof.Machine
end

