-- ==== Sys2Proof/Machine/Launch.lean ====
section
/-! DEFINITION. LAUNCH (13 R359 to R363; 02 R29 to R31, R53, R54; 03 R86, R88; 05 R127). -/

namespace Sys2Proof.Machine

/-! ### The record and its arrays (R359 to R362) -/

/-- A launch record as root firmware reads it. -/
structure LaunchRec where
  rec' : BitVec 1024
  frames : List (BitVec 1024)
  chans : List Word
  wins : List (BitVec 128)
  tree : List (BitVec 16)
  reds : List Row
  peal : BitVec 2048
  views : BitVec 2048
  digest : BitVec 384

/-- A 64-bit address field. -/
def lrAddr (r : BitVec 1024) (lo : Nat) : Word := r.extractLsb' lo 64

def lrHamlets (r : BitVec 1024) : BitVec 256 := r.extractLsb' 256 256
def lrNframes (r : BitVec 1024) : Nat := fld r 587 576 + 1
def lrStash (r : BitVec 1024) : Nat := fld r 623 608
def lrCommons (r : BitVec 1024) : Nat := fld r 639 624
def lrNchan (r : BitVec 1024) : Nat := fld r 847 832
def lrNwin (r : BitVec 1024) : Nat := fld r 863 848
def lrNred (r : BitVec 1024) : Nat := fld r 879 864

/-- The hamlets of the set. -/
def LaunchRec.set (l : LaunchRec) : List Nat := (List.range 256).filter fun h => (lrHamlets l.rec').getLsbD h

/-- The arrays that a record names: address and length. -/
def lrArrays (r : BitVec 1024) : List (Word × Nat) :=
  [(lrAddr r 0, (lrAddr r 64).toNat), (lrAddr r 128, 48), (lrAddr r 512, 128 * lrNframes r), (lrAddr r 640, 256),
   (lrAddr r 704, 256), (lrAddr r 768, 8 * lrNchan r), (lrAddr r 896, 16 * lrNwin r), (lrAddr r 960, 512 + 64 * lrNred r)]

/-- `n` entries of `w` bytes from an address. -/
def State.entries (s : State) (a : Word) (n w : Nat) : List Nat :=
  (List.range n).map fun i => ofBytes (s.bytesAt (a.toNat + w * i) w)

/-- A record with its arrays. -/
def State.loadRec (s : State) (a : Nat) : LaunchRec :=
  let r := BitVec.ofNat 1024 (ofBytes (s.bytesAt a 128))
  let wide (w : Nat) (lo : Nat) : Nat := ofBytes (s.bytesAt (lrAddr r lo).toNat w)
  { rec' := r
    frames := (s.entries (lrAddr r 512) (lrNframes r) 128).map (BitVec.ofNat 1024)
    chans := (s.entries (lrAddr r 768) (lrNchan r) 8).map (BitVec.ofNat 64)
    wins := (s.entries (lrAddr r 896) (lrNwin r) 16).map (BitVec.ofNat 128)
    tree := (s.entries (lrAddr r 960) 256 2).map (BitVec.ofNat 16)
    reds := (s.entries (lrAddr r 960 + 512) (lrNred r) 64).map (BitVec.ofNat 512)
    peal := BitVec.ofNat 2048 (wide 256 640)
    views := BitVec.ofNat 2048 (wide 256 704)
    digest := BitVec.ofNat 384 (wide 48 128) }

/-- The frame of a root frame entry, and its place (R360). -/
def entryFrame (e : BitVec 1024) : Frame := frameOf (e.extractLsb' 0 512)
def entryRooted (e : BitVec 1024) : Rooted :=
  { frame := { entryFrame e with root := true }, die := fld e 513 512, x := fld e 516 514, y := fld e 518 517,
    radius := fld e 520 519, atx := 0, aty := 0, waiting := false }

/-- Core, group and node of a reduction entry (R362). -/
def redCore (e : Row) : Nat := fld e 272 262
def redGroup (e : Row) : Nat := fld e 261 256
def entryNode (e : Row) : Node := { record := e.extractLsb' 0 256 }

/-! ### Checks (R363) -/

/-- Reserved fields of the peal pattern (R86). -/
def pealReserved (p : BitVec 2048) : Bool :=
  fld p 1023 832 ≠ 0 || fld p 511 4 ≠ 0 || (List.range 16).any fun q => fld p (527 + 16 * q) (524 + 16 * q) ≠ 0

/-- Fields of a root frame entry that must be zero (R29, R360). -/
def frameReserved (e : BitVec 1024) : Bool :=
  fld e 1023 521 ≠ 0 || fld e 383 372 ≠ 0 || fld e 255 224 ≠ 0 || fld e 127 121 ≠ 0 || fld e 63 61 ≠ 0

/-- The level-1 table that a record's TBLROOT names: address and length (05 R135, R136). -/
def lrTable (r : BitVec 1024) : Word × Nat := (BitVec.ofNat 64 (fld (lrAddr r 192) 45 13 * 8192), 8192)

/-- Whether a reserved field of a record, of its TBLROOT (05 R135) or of an entry is not zero. -/
def LaunchRec.reserved (l : LaunchRec) : Bool :=
  fld l.rec' 895 880 ≠ 0 || fld l.rec' 607 588 ≠ 0 || fld (lrAddr l.rec' 192) 51 46 ≠ 0 || fld (lrAddr l.rec' 192) 12 0 ≠ 0
  || l.frames.any frameReserved || (l.chans.any fun c => fld c 63 20 ≠ 0)
  || (l.wins.any fun w => fld w 82 76 ≠ 0 || fld w 63 13 ≠ 0)
  || (l.reds.any fun e => fld e 511 273 ≠ 0 || fld e 76 0 ≠ 0) || pealReserved l.peal

/-- Limits of the record's own fields (R359), and the alignment of its addresses. -/
def recordInvalid (r : BitVec 1024) : Bool :=
  lrHamlets r = 0 || 16384 < lrNred r || 16384 < lrNwin r || 4096 < lrNchan r || 16 < lrCommons r || 64 < lrStash r
  || lrStash r % 4 ≠ 0 || (lrArrays r).any fun a => a.2 ≠ 0 && !aligned a.1 64

/-- A tile that does not lie within its slice (R30). -/
def tileOut (stash commons : Nat) (t : BitVec 32) : Bool :=
  match tileRange t with
  | some (c, off, n) => (if c then commons else stash) * 1024 < off + n
  | none => false

/-- A root frame that is refused (R29, R30, R54). -/
def LaunchRec.frameInvalid (l : LaunchRec) (e : BitVec 1024) : Bool :=
  let f := entryFrame e
  let p := entryRooted e
  f.tile.toList.any (tileOut (lrStash l.rec') (lrCommons l.rec')) || f.kind = 3 || fld f.pc 1 0 ≠ 0 || fld f.fp 3 0 ≠ 0
  || 5 < p.x || !(l.set.any p.admits)

/-- A peal pattern that is refused (R86, R88). -/
def State.pealInvalid (s : State) (l : LaunchRec) : Bool :=
  let p := l.peal
  let last := fld p 3 0
  if p = 0 then false
  else
    (l.set.any fun h => last < phaseOf p h) || ((List.range 4).any fun b => expectOf p b = 0)
    || ((List.range last).any fun q => gapOf p (q + 1) < s.hub.gmin.toNat)
    || (List.range (last + 1)).any fun q => s.hub.hmax.toNat < (l.set.filter fun h => phaseOf p h = q).length

/-- Whether a relation holds of no two entries of a list. -/
def noPair {α : Type} (r : α → α → Bool) : List α → Bool
  | [] => true
  | x :: rest => !(rest.any (r x)) && noPair r rest

/-- Core, stash range and virtual range of a window (R127). -/
def winCore (w : BitVec 128) : Nat := 8 * fld w 7 0 + fld w 10 8
def winStashRange (w : BitVec 128) : Nat × Nat := (fld w 69 64 * 4096, (fld w 75 70 + 1) * 4096)
def winVaRange (w : BitVec 128) : Nat × Nat := (fld w 127 83 * 4096, (fld w 75 70 + 1) * 4096)

/-- Whether every page of a window is mapped as it must be. -/
def State.winMapped (s : State) (root : Word) (w : BitVec 128) : Bool :=
  (List.range (fld w 75 70 + 1)).all fun i =>
    match s.walk (((winVaRange w).1 + 4096 * i) % 2 ^ 57) 1 (fld root 45 13 * 8192) 5 with
    | .leaf e _ _ _ _ => if w.getLsbD 12 then e.getLsbD 3 else e.getLsbD 4
    | _ => false

/-- A set of windows that is refused (R127). -/
def State.winsInvalid (s : State) (l : LaunchRec) : Bool :=
  let slices := 4 * lrStash l.rec' * 1024
  (l.wins.any fun w =>
    0x40000 < (winStashRange w).1 + (winStashRange w).2 || (winStashRange w).1 < slices
    || overlapping (winVaRange w) (0xFFFF0000000000, 2 ^ 40)
    || 8 < (l.wins.filter fun v => winCore v = winCore w).length || !s.winMapped (lrAddr l.rec' 192) w)
  || !noPair (fun a b => (winCore a = winCore b && overlapping (winStashRange a) (winStashRange b))
      || (fld a 7 0 = fld b 7 0 && overlapping (winVaRange a) (winVaRange b))) l.wins

/-- Channel entries that are refused (R361). -/
def LaunchRec.chansInvalid (l : LaunchRec) : Bool :=
  (l.chans.any fun c => !l.set.contains (fld c 7 0))
  || !noPair (fun a b => fld a 7 0 = fld b 7 0 && fld a 11 8 = fld b 11 8) l.chans

/-- Whether a hamlet's parents lead to a root, within the set. -/
def LaunchRec.climbs (l : LaunchRec) : Nat → Nat → Bool
  | 0, _ => false
  | fuel + 1, h =>
    let e := (l.tree[h]?).getD 0
    l.set.contains h && (e.getLsbD 15 || l.climbs fuel (fld e 7 0))

/-- A completion tree that is refused (R362). -/
def LaunchRec.treeInvalid (l : LaunchRec) : Bool :=
  (l.set.filter fun h => ((l.tree[h]?).getD 0).getLsbD 15).length ≠ 1 || !(l.set.all (l.climbs 257))

/-- Reduction entries that are refused (R337, R362). -/
def LaunchRec.redsInvalid (l : LaunchRec) : Bool :=
  (l.reds.any fun e =>
    let n := entryNode e
    let f := fld n.record 87 86
    !l.set.contains (hamOf (redCore e)) || 1 < f || !(n.wire = 0 || (f = 0 && (n.wire = 9 || n.wire = 10)))
    || (if f = 0 then 16 else 8) < n.elems || 8 < fld n.record 92 89
    || (!n.isRoot && !(l.reds.any fun p =>
        redCore p = n.parent && redGroup p = redGroup e && (entryNode p).kids.contains (redCore e))))
  || !noPair (fun a b => redCore a = redCore b && redGroup a = redGroup b) l.reds

/-- The status with which a launch is refused, if any, in the order of R363's table. -/
def State.launchBad (s : State) (w : Row) : Option (BitVec 8) :=
  match s.argBad w 128 with
  | some e => some e
  | none =>
    let l := s.loadRec (cmdArg w).toNat
    let r := l.rec'
    let meets (h : Nat) : Bool := (s.ham h).fenced || s.launches.any fun m => m.hamlets.getLsbD h
    if l.reserved then some stReserved
    else if l.set.any meets || 16 ≤ s.launches.length then some stBusy
    else if (lrTable r :: lrArrays r).any fun a => !s.backed a.1 (max a.2 1) then some stUnbacked
    else if sha384 (s.bytesAt (lrAddr r 0).toNat (lrAddr r 64).toNat) ≠ l.digest then some stSignature
    else if l.frames.any fun e => lacking (entryFrame e) ≠ 0 then some stFeature
    else if recordInvalid r || l.frames.any l.frameInvalid || s.pealInvalid l || s.winsInvalid l || l.chansInvalid
        || l.treeInvalid || l.redsInvalid then some stInvalid
    else none

/-! ### The start -/

/-- The launch that a record describes. -/
def LaunchRec.launch (l : LaunchRec) (seq : Word) : Launch :=
  { seq := seq, hamlets := lrHamlets l.rec', tblroot := lrAddr l.rec' 192, digest := l.digest, views := l.views, peal := l.peal,
    stashkib := lrStash l.rec', commonskib := lrCommons l.rec', nframes := lrNframes l.rec',
    tree := l.set.map fun h => (h, (l.tree[h]?).getD 0), frames := l.frames.map entryRooted, words := [], total := 0,
    held := [], detection := none, finished := [], cls := 0 }

/-- PEALCFG's read-only fields (12 R326). -/
def State.pealWord (s : State) (p : BitVec 2048) (h : Nat) : Word :=
  let phase := if p = 0 then 0 else phaseOf p h
  BitVec.ofNat 64 (s.hub.gmin.toNat * 2 ^ 24 + fld p 3 0 * 2 ^ 20 + phase * 2 ^ 16)

/-- A channel as it is declared (02 R58, R361). -/
def chanOf (e : Word) : Chan := { size := 8 * 2 ^ fld e 19 18, slots := fld e 17 12 + 1 }

/-- Where root firmware reserves the overflow area of a hamlet, 1 MiB of first-tier memory (19 R441): at a place that the spec leaves
open (log entry 123). -/
def overflowPlace (h : Nat) : Nat := (Config.overflowBase % (2 ^ 19 - 256) + h) * 2 ^ 20

/-- A hamlet of the set takes on its launch: windows, channels, reduction nodes, barriers and counters begin anew, and the
accumulator banks of its cores hold zeros (10 R270). -/
def State.startHamlet (s : State) (l : LaunchRec) (seq : Word) (h : Nat) : State :=
  let x := s.ham h
  let t := s.setHam h { x with
    seq := some seq, marks := {}, stealMask := s.stealBits h, sent := 0, received := 0, extra := 0, pealcfg := s.pealWord l.peal h
    barriers := [], area := some (overflowPlace h)
    winLines := [], windows := (l.wins.filter fun w => fld w 7 0 = h).map fun w => { desc := w }
    channels := (l.chans.filter fun c => fld c 7 0 = h).foldl (fun m c => put m (fld c 11 8) (chanOf c)) []
    nodes := (l.reds.filter fun e => hamOf (redCore e) = h).foldl
      (fun m e => put m (8 * redGroup e + redCore e % 8) (entryNode e)) [] }
  (List.range 8).foldl (fun t i =>
    let t := t.setMill (8 * h + i) { (t.core (8 * h + i)).mill with bank0 := [], bank1 := [] }
    (List.range 5).foldl (fun t k =>
      t.setCtx (8 * h + i) k { t.ctx (8 * h + i) k with tblroot := lrAddr l.rec' 192 }) t) t

/-- Whether a full/empty word lies in a tile slice or the commons user area of a hamlet (05 R129). -/
def wordOfLaunch (hs : List Nat) (slices word : Nat) : Bool :=
  let a := 8 * word
  if 0x3E0000000000 ≤ a then hs.contains ((a - 0x3E0000000000) / 0x200000) && (a - 0x3E0000000000) % 0x200000 < 0x100000
  else hs.contains ((a - 0x3D0000000000) / 0x40000 / 8) && (a - 0x3D0000000000) % 0x40000 < slices

/-- A launch starts: its hamlets are set up, its root frames begin their walk, and the cores of the set look for work. -/
def State.startLaunch (s : State) (l : LaunchRec) (seq : Word) : State :=
  let hs := l.set
  let t := { s with launches := s.launches ++ [l.launch seq],
                    roots := s.roots.filter fun (r : Nat × BarRoot) => r.1 / 20 ≠ seq.toNat,
                    full := s.full.filter fun w => !wordOfLaunch hs (4 * lrStash l.rec' * 1024) w }
  let t := hs.foldl (fun t h => t.startHamlet l seq h) t
  let t := { t with agenda := .rootFrameWalk seq.toNat :: t.agenda }
  hs.foldl (fun t h => (List.range 8).foldl (fun t i => t.owe (.frameTake (Fin.ofNat 2048 (8 * h + i)) 0)) t) t

def execLaunch (slot : Row) (s : State) : Host.Outcome State Fault Refusal :=
  s.hubCommand slot false fun t =>
    match t.launchBad slot with
    | some e => .ended t e
    | none => .started (t.startLaunch (t.loadRec (cmdArg slot).toNat) (cmdSeq slot))

end Sys2Proof.Machine
end

