-- ==== Sys2Proof/Machine/VMath.lean ====
section
/-! DEFINITION. VMATH, opcode 0x45 (09 R254, R255): the exact value of each function, to far more bits than any rounding of
its types looks at, its lowest bit sticky (log entry 24). -/

namespace Sys2Proof.Machine

/-! ### Fixed-point reals: an integer x stands for x / 2^800 -/

/-- Number of fraction bits. -/
def fxBits : Nat := 800

/-- 1. -/
def fxOne : Nat := 2 ^ fxBits

/-- A product. -/
def fxMul (a b : Nat) : Nat := (a * b) >>> fxBits

/-- A quotient. -/
def fxDiv (a b : Nat) : Nat := (a <<< fxBits) / b

/-- Σ 1 / (k × 2^k) from k on: ln 2. -/
def ln2From : Nat → Nat → Nat
  | 0, _ => 0
  | n + 1, k => (fxOne >>> k) / k + ln2From n (k + 1)

/-- ln 2. -/
def fxLn2 : Nat := ln2From 800 1

/-- Σ (−1)^k x^(2k+1) / (2k+1) for x = 1 / q, from a term and an odd number on. -/
def atanFrom (q : Nat) : Nat → Int → Nat → Int
  | 0, _, _ => 0
  | n + 1, t, k => t / k + atanFrom q n (-(t / (q * q))) (k + 2)

/-- π by Machin's formula. -/
def fxPi : Nat :=
  (16 * atanFrom 5 180 (fxOne / 5 : Nat) 1 - 4 * atanFrom 239 60 (fxOne / 239 : Nat) 1).toNat

/-- Σ y^n / n! from a term on. -/
def expFrom (y : Nat) : Nat → Nat → Nat → Nat
  | 0, _, _ => 0
  | n + 1, t, k => t + expFrom y n (fxMul t y / k) (k + 1)

/-- e^y for 0 ≤ y < 1. -/
def fxExp (y : Nat) : Nat := expFrom y 180 fxOne 1

/-- e^−y, y ≥ 0, to 2^−780. -/
def fxExpNeg (y : Nat) : Nat :=
  let k := y / fxLn2
  fxDiv fxOne (fxExp (y % fxLn2)) >>> k

/-- Σ z^(2k+1) / (2k+1) from a power and an odd number on. -/
def atanhFrom (z2 : Nat) : Nat → Nat → Nat → Nat
  | 0, _, _ => 0
  | n + 1, t, k => t / k + atanhFrom z2 n (fxMul t z2) (k + 2)

/-- ln m for 1 ≤ m < 2. -/
def fxLn (m : Nat) : Nat :=
  let z := fxDiv (m - fxOne) (m + fxOne)
  2 * atanhFrom (fxMul z z) 260 z 1

/-- Σ (−1)^k y^(2k+1) / (2k+1)! from a term on. -/
def sinFrom (y2 : Nat) : Nat → Nat → Nat → Int
  | 0, _, _ => 0
  | n + 1, t, k => (t : Int) - sinFrom y2 n (fxMul t y2 / ((k + 1) * (k + 2))) (k + 2)

/-- sin(π u) for 0 < u ≤ 1/2. -/
def fxSinPi (u : Nat) : Nat :=
  let y := fxMul fxPi u
  (sinFrom (fxMul y y) 100 y 1).toNat

/-- A fixed-point magnitude as a value: its last 40 bits dropped, the bit below them sticky. -/
def fxVal (neg : Bool) (x : Nat) : Val := .fin neg (2 * (x >>> 40) + 1) (39 - (fxBits : Int))

/-- Just below 1. -/
def belowOne (neg : Bool) : Val := .fin neg (2 ^ 600 - 1) (-600)

/-- |x| = m × 2^e in fixed point, for |x| < 2^12. -/
def fxOf (m : Nat) (e : Int) : Nat := if 0 ≤ e then (m <<< e.toNat) <<< fxBits else (m <<< fxBits) >>> (-e).toNat

/-! ### The functions -/

/-- 2^x. -/
def exp2Val (neg : Bool) (m : Nat) (e : Int) : Val :=
  if m = 0 then .fin false 1 0
  else if 12 ≤ expOf m e then .fin false 1 (if neg then -5000 else 5000)
  else
    let x := fxOf m e
    let k : Int := (x / fxOne : Nat)
    let f := x % fxOne
    if f = 0 then .fin false 1 (if neg then -k else k)
    else
      let (k, f) := if neg then (-k - 1, fxOne - f) else (k, f)
      match fxVal false (fxExp (fxMul f fxLn2)) with
      | .fin n q u => .fin n q (u + k)
      | v => v

/-- log2 x, x > 0. -/
def log2Val (m : Nat) (e : Int) : Val :=
  let k := expOf m e
  if m = 2 ^ m.log2 then .ofInt k
  else
    let f := fxDiv (fxLn ((m <<< fxBits) >>> m.log2)) fxLn2
    let t : Int := k * (fxOne : Int) + f
    fxVal (t < 0) t.natAbs

/-- 1 / √x, x > 0. -/
def rsqrtVal (m : Nat) (e : Int) : Val :=
  let (m, e) := if e % 2 = 0 then (m, e) else (2 * m, e - 1)
  let r := isqrt (2 ^ 1600 / m)
  .fin false (2 * r + (if r * r * m = 2 ^ 1600 then 0 else 1)) (-(e / 2) - 801)

/-- sin(πx); a zero for an integer takes the sign of x. -/
def sinpiVal (neg : Bool) (m : Nat) (e : Int) : Val :=
  if m = 0 || 0 ≤ e then .fin neg 0 0
  else
    let k := (-e).toNat
    let r := m % 2 ^ (k + 1)
    let flip := 2 ^ k ≤ r
    let t := r % 2 ^ k
    if t = 0 then .fin neg 0 0
    else
      let u := if 2 * t ≤ 2 ^ k then t else 2 ^ k - t
      if 2 * u = 2 ^ k then .fin (neg != flip) 1 0 else fxVal (neg != flip) (fxSinPi ((u <<< fxBits) >>> k))

/-- cos(πx). -/
def cospiVal (m : Nat) (e : Int) : Val :=
  if m = 0 then .fin false 1 0
  else if 0 ≤ e then .fin (e = 0 && m % 2 = 1) 1 0
  else
    let k := (-e).toNat
    let r := m % 2 ^ (k + 1)
    let t := if 2 ^ k < r then 2 ^ (k + 1) - r else r
    let flip : Bool := 2 ^ k < 2 * t
    let u := if flip then 2 ^ k - t else t
    if u = 0 then .fin flip 1 0
    else if 2 * u = 2 ^ k then .fin false 0 0
    else fxVal flip (fxSinPi (((2 ^ k - 2 * u) <<< fxBits) >>> (k + 1)))

/-- tanh x. -/
def tanhVal (neg : Bool) (m : Nat) (e : Int) : Val :=
  if m = 0 then .fin neg 0 0
  else if 8 ≤ expOf m e then belowOne neg
  else let E := fxExpNeg (2 * fxOf m e); fxVal neg (fxDiv (fxOne - E) (fxOne + E))

/-- 1 / (1 + e^−x). -/
def sigmVal (neg : Bool) (m : Nat) (e : Int) : Val :=
  if m = 0 then .fin false 1 (-1)
  else if 8 ≤ expOf m e then (if neg then .fin false 1 (-5000) else belowOne false)
  else let E := fxExpNeg (fxOf m e); fxVal false (if neg then fxDiv E (fxOne + E) else fxDiv fxOne (fxOne + E))

/-- A function of VMATH: the exact value and the flags of R255. -/
def mathVal (f : MathFn) (x : Val) : Val × Flags :=
  match x with
  | .nan q => (.nan false, raise fNv q)
  | .inf neg =>
    match f with
    | .exp2 => (if neg then .fin false 0 0 else .inf false, 0)
    | .log2 | .rsqrt => if neg then (.nan false, fNv) else (if f = .log2 then .inf false else .fin false 0 0, 0)
    | .rcp => (.fin neg 0 0, 0)
    | .sinpi | .cospi => (.nan false, fNv)
    | .tanh => (.fin neg 1 0, 0)
    | .sigm => (if neg then .fin false 0 0 else .fin false 1 0, 0)
  | .fin neg m e =>
    match f with
    | .exp2 => (exp2Val neg m e, 0)
    | .log2 => if m = 0 then (.inf true, fDz) else if neg then (.nan false, fNv) else (log2Val m e, 0)
    | .rcp => if m = 0 then (.inf neg, fDz) else (quotVal neg 1 0 m e, 0)
    | .rsqrt => if m = 0 then (.inf neg, fDz) else if neg then (.nan false, fNv) else (rsqrtVal m e, 0)
    | .sinpi => (sinpiVal neg m e, 0)
    | .cospi => (cospiVal m e, 0)
    | .tanh => (tanhVal neg m e, 0)
    | .sigm => (sigmVal neg m e, 0)

/-- Body of VMATH. -/
def vmathBody (o : Ops) (f : MathFn) (s : State) : Act :=
  let t := s.three o
  let g := fmtOf t.d.etype
  orFault (s.twoFaults t (t.d.etype = 9 || t.d.etype = 10 || t.d.etype = 11))
    (s.putLanes t.d t.w 14 (s.lanes o) fun i => g.finish (s.modeOf o) (mathVal f (g.decode (laneOf t.w (s.rowAt t.a) i))))

def execVmath (o : Ops) (f : MathFn) (s : State) : Host.Outcome State Fault Refusal :=
  .next (s.performVec (.vmath o f) o (fun _ => true) (vmathBody o f))

end Sys2Proof.Machine
end

