-- ==== Sys2Proof/Machine/Dispatch.lean ====
section
/-! DEFINITION. The dispatch: one arm per instruction, each a call of its meaning. -/

namespace Sys2Proof.Machine

open Sys2Proof

def exec (i : Instr) (s : State) : Host.Outcome State Fault Refusal :=
  match i with
  | .add o imm t => Sys2Proof.Machine.execAdd o imm t s
  | .sub o imm t => Sys2Proof.Machine.execSub o imm t s
  | .mul o imm t => Sys2Proof.Machine.execMul o imm t s
  | .mulh o imm t => Sys2Proof.Machine.execMulh o imm t s
  | .div o imm t => Sys2Proof.Machine.execDiv o imm t s
  | .rem o imm t => Sys2Proof.Machine.execRem o imm t s
  | .and o imm t => Sys2Proof.Machine.execAnd o imm t s
  | .or o imm t => Sys2Proof.Machine.execOr o imm t s
  | .xor o imm t => Sys2Proof.Machine.execXor o imm t s
  | .andn o imm t => Sys2Proof.Machine.execAndn o imm t s
  | .shl o imm t => Sys2Proof.Machine.execShl o imm t s
  | .shr o imm t => Sys2Proof.Machine.execShr o imm t s
  | .rot o imm t => Sys2Proof.Machine.execRot o imm t s
  | .min o imm t => Sys2Proof.Machine.execMin o imm t s
  | .max o imm t => Sys2Proof.Machine.execMax o imm t s
  | .cmp o imm cc => Sys2Proof.Machine.execCmp o imm cc s
  | .sel o imm p => Sys2Proof.Machine.execSel o imm p s
  | .bits o f => Sys2Proof.Machine.execBits o f s
  | .movi o => Sys2Proof.Machine.execMovi o s
  | .lea o imm k => Sys2Proof.Machine.execLea o imm k s
  | .fadd o t sub => Sys2Proof.Machine.execFadd o t sub s
  | .fmul o t => Sys2Proof.Machine.execFmul o t s
  | .ffma o t f => Sys2Proof.Machine.execFfma o t f s
  | .fdiv o t sqrt => Sys2Proof.Machine.execFdiv o t sqrt s
  | .fminmax o t max => Sys2Proof.Machine.execFminmax o t max s
  | .fcmp o t r => Sys2Proof.Machine.execFcmp o t r s
  | .br o onFalse => Sys2Proof.Machine.execBr o onFalse s
  | .jmp o => Sys2Proof.Machine.execJmp o s
  | .jmpReg o => Sys2Proof.Machine.execJmpReg o s
  | .call o => Sys2Proof.Machine.execCall o s
  | .callReg o => Sys2Proof.Machine.execCallReg o s
  | .ret o => Sys2Proof.Machine.execRet o s
  | .rep o => Sys2Proof.Machine.execRep o s
  | .safept o => Sys2Proof.Machine.execSafept o s
  | .pset o f => Sys2Proof.Machine.execPset o f s
  | .ld o t => Sys2Proof.Machine.execLd o t s
  | .st o t => Sys2Proof.Machine.execSt o t s
  | .ldsync o cons => Sys2Proof.Machine.execLdsync o cons s
  | .stsync o => Sys2Proof.Machine.execStsync o s
  | .feset o full => Sys2Proof.Machine.execFeset o full s
  | .pref o dst => Sys2Proof.Machine.execPref o dst s
  | .stash o drop => Sys2Proof.Machine.execStash o drop s
  | .flush o inv => Sys2Proof.Machine.execFlush o inv s
  | .fence o scope kind => Sys2Proof.Machine.execFence o scope kind s
  | .waitc o n => Sys2Proof.Machine.execWaitc o n s
  | .waita o eq => Sys2Proof.Machine.execWaita o eq s
  | .zline o => Sys2Proof.Machine.execZline o s
  | .amo o f => Sys2Proof.Machine.execAmo o f s
  | .cas o f => Sys2Proof.Machine.execCas o f s
  | .red o f => Sys2Proof.Machine.execRed o f s
  | .amsend o rep => Sys2Proof.Machine.execAmsend o rep s
  | .amret o => Sys2Proof.Machine.execAmret o s
  | .vld o strided => Sys2Proof.Machine.execVld o strided s
  | .vst o strided => Sys2Proof.Machine.execVst o strided s
  | .vgather o => Sys2Proof.Machine.execVgather o s
  | .vscatter o => Sys2Proof.Machine.execVscatter o s
  | .vadd o sub => Sys2Proof.Machine.execVadd o sub s
  | .vmul o => Sys2Proof.Machine.execVmul o s
  | .vfma o f => Sys2Proof.Machine.execVfma o f s
  | .vdiv o sqrt => Sys2Proof.Machine.execVdiv o sqrt s
  | .vminmax o max => Sys2Proof.Machine.execVminmax o max s
  | .vlogic o f => Sys2Proof.Machine.execVlogic o f s
  | .vcmp o r => Sys2Proof.Machine.execVcmp o r s
  | .vsel o => Sys2Proof.Machine.execVsel o s
  | .vperm o f => Sys2Proof.Machine.execVperm o f s
  | .vbcast o lane => Sys2Proof.Machine.execVbcast o lane s
  | .vred o f => Sys2Proof.Machine.execVred o f s
  | .vscan o => Sys2Proof.Machine.execVscan o s
  | .vdot o => Sys2Proof.Machine.execVdot o s
  | .vpackm o => Sys2Proof.Machine.execVpackm o s
  | .vexpm o => Sys2Proof.Machine.execVexpm o s
  | .vmath o f => Sys2Proof.Machine.execVmath o f s
  | .cvt o t => Sys2Proof.Machine.execCvt o t s
  | .cvtn o t => Sys2Proof.Machine.execCvtn o t s
  | .cvtw o t => Sys2Proof.Machine.execCvtw o t s
  | .mfmt o => Sys2Proof.Machine.execMfmt o s
  | .mfmtRel o => Sys2Proof.Machine.execMfmtRel o s
  | .mmul o m => Sys2Proof.Machine.execMmul o m s
  | .mspb o m => Sys2Proof.Machine.execMspb o m s
  | .join o => Sys2Proof.Machine.execJoin o s
  | .jdrain o => Sys2Proof.Machine.execJdrain o s
  | .jdrainResume o => Sys2Proof.Machine.execJdrainResume o s
  | .aswap o => Sys2Proof.Machine.execAswap o s
  | .azero o => Sys2Proof.Machine.execAzero o s
  | .azeroVis o => Sys2Proof.Machine.execAzeroVis o s
  | .mwait o => Sys2Proof.Machine.execMwait o s
  | .gangLead o => Sys2Proof.Machine.execGangLead o s
  | .gangFollow o => Sys2Proof.Machine.execGangFollow o s
  | .gangLeave o => Sys2Proof.Machine.execGangLeave o s
  | .mscl o b => Sys2Proof.Machine.execMscl o b s
  | .spawn o => Sys2Proof.Machine.execSpawn o s
  | .spawnr o => Sys2Proof.Machine.execSpawnr o s
  | .split o => Sys2Proof.Machine.execSplit o s
  | .popf o => Sys2Proof.Machine.execPopf o s
  | .sync o => Sys2Proof.Machine.execSync o s
  | .publish o => Sys2Proof.Machine.execPublish o s
  | .tend o => Sys2Proof.Machine.execTend o s
  | .donate o => Sys2Proof.Machine.execDonate o s
  | .fnew o => Sys2Proof.Machine.execFnew o s
  | .fnewCount o => Sys2Proof.Machine.execFnewCount o s
  | .fput o => Sys2Proof.Machine.execFput o s
  | .fget o => Sys2Proof.Machine.execFget o s
  | .fgetPoll o => Sys2Proof.Machine.execFgetPoll o s
  | .frel o => Sys2Proof.Machine.execFrel o s
  | .bar o n scope => Sys2Proof.Machine.execBar o n scope s
  | .quiesce o => Sys2Proof.Machine.execQuiesce o s
  | .chsend o ch => Sys2Proof.Machine.execChsend o ch s
  | .chrecv o ch => Sys2Proof.Machine.execChrecv o ch s
  | .copy o f => Sys2Proof.Machine.execCopy o f s
  | .waitk o any => Sys2Proof.Machine.execWaitk o any s
  | .tokq o => Sys2Proof.Machine.execTokq o s
  | .redgrpOpen o => Sys2Proof.Machine.execRedgrpOpen o s
  | .redgrpClose o => Sys2Proof.Machine.execRedgrpClose o s
  | .redpkt o => Sys2Proof.Machine.execRedpkt o s
  | .mcast o => Sys2Proof.Machine.execMcast o s
  | .nop o => Sys2Proof.Machine.execNop o s
  | .trap o => Sys2Proof.Machine.execTrap o s
  | .rte o => Sys2Proof.Machine.execRte o s
  | .sysrd o => Sys2Proof.Machine.execSysrd o s
  | .syswr o => Sys2Proof.Machine.execSyswr o s
  | .tlbinv o => Sys2Proof.Machine.execTlbinv o s
  | .tlbinvSpace o => Sys2Proof.Machine.execTlbinvSpace o s
  | .tlbinvAll o => Sys2Proof.Machine.execTlbinvAll o s
  | .yield o => Sys2Proof.Machine.execYield o s
  | .escalationRun c => Sys2Proof.Machine.execEscalationRun c s
  | .disposition c k word => Sys2Proof.Machine.execDisposition c k word s
  | .variableResultCommit c k => Sys2Proof.Machine.execVariableResultCommit c k s
  | .frameTake c k => Sys2Proof.Machine.execFrameTake c k s
  | .rootFrameWalk l => Sys2Proof.Machine.execRootFrameWalk l s
  | .stealRequest c => Sys2Proof.Machine.execStealRequest c s
  | .stealGrant c => Sys2Proof.Machine.execStealGrant c s
  | .stolenFrameArrival c => Sys2Proof.Machine.execStolenFrameArrival c s
  | .gleanerBackoff c => Sys2Proof.Machine.execGleanerBackoff c s
  | .spillReadback c dq => Sys2Proof.Machine.execSpillReadback c dq s
  | .parkSaveDone c k => Sys2Proof.Machine.execParkSaveDone c k s
  | .wakeMessage h => Sys2Proof.Machine.execWakeMessage h s
  | .overflowLinkWait c k => Sys2Proof.Machine.execOverflowLinkWait c k s
  | .preemptRequest c k area => Sys2Proof.Machine.execPreemptRequest c k area s
  | .saveDeadlineExpiry c k => Sys2Proof.Machine.execSaveDeadlineExpiry c k s
  | .saveComplete c k => Sys2Proof.Machine.execSaveComplete c k s
  | .gangClaim c k => Sys2Proof.Machine.execGangClaim c k s
  | .barrierRootArrival h scope n => Sys2Proof.Machine.execBarrierRootArrival h scope n s
  | .hamletBarrierRelease h n => Sys2Proof.Machine.execHamletBarrierRelease h n s
  | .pealPhaseRelease h scope n => Sys2Proof.Machine.execPealPhaseRelease h scope n s
  | .detectionSweep l => Sys2Proof.Machine.execDetectionSweep l s
  | .donatedDecrement handle root => Sys2Proof.Machine.execDonatedDecrement handle root s
  | .statusWordArrival l => Sys2Proof.Machine.execStatusWordArrival l s
  | .completionRecordWrite => Sys2Proof.Machine.execCompletionRecordWrite s
  | .activeMessageRun c => Sys2Proof.Machine.execActiveMessageRun c s
  | .handlerOverrun c => Sys2Proof.Machine.execHandlerOverrun c s
  | .remoteAccessService c => Sys2Proof.Machine.execRemoteAccessService c s
  | .replyArrival id => Sys2Proof.Machine.execReplyArrival id s
  | .postedStoreApply id => Sys2Proof.Machine.execPostedStoreApply id s
  | .atomicApply id => Sys2Proof.Machine.execAtomicApply id s
  | .postedAck id => Sys2Proof.Machine.execPostedAck id s
  | .waitaRetry c k => Sys2Proof.Machine.execWaitaRetry c k s
  | .lineEviction h line => Sys2Proof.Machine.execLineEviction h line s
  | .scaleWindowFill line => Sys2Proof.Machine.execScaleWindowFill line s
  | .scaleWindowEvict line => Sys2Proof.Machine.execScaleWindowEvict line s
  | .tableWalk c k va write => Sys2Proof.Machine.execTableWalk c k va write s
  | .faultRecordWrite => Sys2Proof.Machine.execFaultRecordWrite s
  | .fqheadWrite v => Sys2Proof.Machine.execFqheadWrite v s
  | .storeReplay c => Sys2Proof.Machine.execStoreReplay c s
  | .pageMoveBounce id => Sys2Proof.Machine.execPageMoveBounce id s
  | .backInvalidation line => Sys2Proof.Machine.execBackInvalidation line s
  | .copyComplete c k tok => Sys2Proof.Machine.execCopyComplete c k tok s
  | .copyFault c k tok => Sys2Proof.Machine.execCopyFault c k tok s
  | .copyResumePacket c k tok word => Sys2Proof.Machine.execCopyResumePacket c k tok word s
  | .millCommandCurrent c => Sys2Proof.Machine.execMillCommandCurrent c s
  | .millCommandComplete c => Sys2Proof.Machine.execMillCommandComplete c s
  | .drainInterrupted c => Sys2Proof.Machine.execDrainInterrupted c s
  | .rampRise c => Sys2Proof.Machine.execRampRise c s
  | .rampFall c => Sys2Proof.Machine.execRampFall c s
  | .reductionPacketArrival c g => Sys2Proof.Machine.execReductionPacketArrival c g s
  | .doneNoticeArrival c g => Sys2Proof.Machine.execDoneNoticeArrival c g s
  | .reductionTimeout c g => Sys2Proof.Machine.execReductionTimeout c g s
  | .reductionFlushArrival c g => Sys2Proof.Machine.execReductionFlushArrival c g s
  | .mcastDelivery id => Sys2Proof.Machine.execMcastDelivery id s
  | .donationArrival src q frame tiles => Sys2Proof.Machine.execDonationArrival src q frame tiles s
  | .donatedFrameReturn frame missing => Sys2Proof.Machine.execDonatedFrameReturn frame missing s
  | .scrubPass code unit addr uncorrectable => Sys2Proof.Machine.execScrubPass code unit addr uncorrectable s
  | .correctedRecordCoalesce code unit count => Sys2Proof.Machine.execCorrectedRecordCoalesce code unit count s
  | .operatingPointChange h p => Sys2Proof.Machine.execOperatingPointChange h p s
  | .throttleThreshold h now => Sys2Proof.Machine.execThrottleThreshold h now s
  | .throttleStep h => Sys2Proof.Machine.execThrottleStep h s
  | .thermalShutdown h => Sys2Proof.Machine.execThermalShutdown h s
  | .reducedSupply ceiling => Sys2Proof.Machine.execReducedSupply ceiling s
  | .railTrip => Sys2Proof.Machine.execRailTrip s
  | .linkReplay port => Sys2Proof.Machine.execLinkReplay port s
  | .linkRetrain port lanes => Sys2Proof.Machine.execLinkRetrain port lanes s
  | .portDown port => Sys2Proof.Machine.execPortDown port s
  | .packagePacketArrival route seq core k tag body => Sys2Proof.Machine.execPackagePacketArrival route seq core k tag body s
  | .endToEndResend dst => Sys2Proof.Machine.execEndToEndResend dst s
  | .destinationUnreachable dst => Sys2Proof.Machine.execDestinationUnreachable dst s
  | .laneRepair die => Sys2Proof.Machine.execLaneRepair die s
  | .bridgeFailure die => Sys2Proof.Machine.execBridgeFailure die s
  | .cxlTimeout port id => Sys2Proof.Machine.execCxlTimeout port id s
  | .cxlRetrain port ok => Sys2Proof.Machine.execCxlRetrain port ok s
  | .syscopyRecord ch => Sys2Proof.Machine.execSyscopyRecord ch s
  | .syscopyStageAck ch => Sys2Proof.Machine.execSyscopyStageAck ch s
  | .powerGood r => Sys2Proof.Machine.execPowerGood r s
  | .serviceMailboxTimeout => Sys2Proof.Machine.execServiceMailboxTimeout s
  | .query slot => Sys2Proof.Machine.execQuery slot s
  | .launch slot => Sys2Proof.Machine.execLaunch slot s
  | .abort slot => Sys2Proof.Machine.execAbort slot s
  | .pagerdone slot => Sys2Proof.Machine.execPagerdone slot s
  | .range slot => Sys2Proof.Machine.execRange slot s
  | .cxlshare slot => Sys2Proof.Machine.execCxlshare slot s
  | .linkcfg slot => Sys2Proof.Machine.execLinkcfg slot s
  | .syscopy slot => Sys2Proof.Machine.execSyscopy slot s
  | .tlbinvCommand slot => Sys2Proof.Machine.execTlbinvCommand slot s
  | .donq slot => Sys2Proof.Machine.execDonq slot s
  | .attest slot => Sys2Proof.Machine.execAttest slot s
  | .svcload slot => Sys2Proof.Machine.execSvcload slot s
  | .reset slot => Sys2Proof.Machine.execReset slot s
  | .pealfloor slot => Sys2Proof.Machine.execPealfloor slot s
  | .unknownCommand slot => Sys2Proof.Machine.execUnknownCommand slot s
  | .unassignedEncoding base => Sys2Proof.Machine.execUnassignedEncoding base s
  | .pageMove old new => Sys2Proof.Machine.execPageMove old new s
  | .resumptionRelease c k => Sys2Proof.Machine.execResumptionRelease c k s
  | .managementPortMessage => Sys2Proof.Machine.execManagementPortMessage s

end Sys2Proof.Machine
end

