-- ==== Sys2Proof/Machine/HubPort.lean ====
section
/-! DEFINITION. What a hub core's accesses do (13 R349, R351, R352, R364; 19 R438): a hub core is a party in no hamlet, and every
access of it is performed at its home. -/

namespace Sys2Proof.Machine

/-! ### Control space (R351) -/

/-- The state of a copy channel as control space shows it (19 R438). -/
def SysChan.row (c : SysChan) : Row :=
  BitVec.ofNat 512 (c.cur.toNat * 2 ^ 448 + c.done.toNat * 2 ^ 416 + c.event.toNat * 2 ^ 384 + c.state.toNat)

/-- Byte `i` of a number. -/
def byteAt (v i : Nat) : Byte := BitVec.ofNat 8 (v >>> (8 * i))

/-- Regions of control space that hold records in memory: the command and completion rings, the fault queue, the error ring. -/
def inRings (off : Nat) : Bool :=
  off < 0x1800 || (0x100000 ≤ off && off < 0x180000) || (0x200000 ≤ off && off < 0x210000)

/-- A byte of control space at an offset. The word of interrupt source n lies at 4n of its block (DESIGN CHOICE, log entry 48); what
is not listed reads zero. -/
def State.controlByte (s : State) (off : Nat) : Byte :=
  if inRings off then memGet s.mem (controlBase + off)
  else if 0x180000 ≤ off && off < 0x180010 then byteAt (s.hub.fqTail.toNat + s.hub.fqHead.toNat * 2 ^ 32) (off - 0x180000)
  else if 0x300000 ≤ off && off < 0x310000 then byteAt (look 0 s.hub.irqTable ((off - 0x300000) / 4)).toNat (off % 4)
  else if 0x400000 ≤ off && off < 0x400400 then
    byteAt (SysChan.row (look {} s.hub.chans ((off - 0x400000) / 64))).toNat (off % 64)
  else 0

/-- A byte of control space written by a hub core: of completion and error records only `valid` (00 R9, R355, 17 R413), of FQHEAD's
bytes none by itself; what is read-only or not listed discards it. -/
def State.controlSet (s : State) (off : Nat) (b : Byte) : State :=
  let store (v : Byte) : State := { s with mem := memSet s.mem (controlBase + off) v }
  if off < 0x1000 then store b
  else if off < 0x1800 then (if off % 32 = 0 then store (b &&& 1) else s)
  else if 0x200000 ≤ off && off < 0x210000 then (if off % 64 = 0 then store (b &&& 1) else s)
  else if 0x300000 ≤ off && off < 0x310000 then
    let n := (off - 0x300000) / 4
    let i := 8 * (off % 4)
    { s with hub := { s.hub with irqTable := put s.hub.irqTable n (setFld (look 0 s.hub.irqTable n) (i + 7) i b.toNat) } }
  else s

/-- Bytes of FQHEAD with those of a store laid over them; none where the store touches none. -/
def State.fqHeadStored (s : State) (off : Nat) (bs : List Byte) : Option (BitVec 32) :=
  let at' (i : Nat) : Option Byte := if off ≤ 0x180004 + i then bs[0x180004 + i - off]? else none
  if (List.range 4).any fun i => (at' i).isSome then
    some (BitVec.ofNat 32 (ofBytes ((List.range 4).map fun i => (at' i).getD (byteAt s.hub.fqHead.toNat i))))
  else none

/-- Bytes of control space written by a hub core. -/
def State.controlWrite (s : State) (off : Nat) (bs : List Byte) : State :=
  let t := bs.zipIdx.foldl (fun t e => t.controlSet (off + e.2) e.1) s
  match s.fqHeadStored off bs with
  | some v => t.setFqHead v
  | none => t

/-! ### The accesses (R349) -/

/-- A hub core's access to an unbacked address is recorded, with class 0 (05 R122, 17 R413). -/
def State.hubUnbacked (s : State) (pa : Nat) : State := s.record { event := 0x05, cls := 0, addr := pa }

/-- A line that a CXL port does not serve among those of a hub core's access (20 R460). -/
def State.hubStuck (s : State) (pa n : Nat) : Option Nat :=
  ((List.range n).map fun i => (pa + i) / 64 * 64).find? s.cxlStuck

/-- A hub core's store. A write to a line that a CXL port does not serve is lost (20 R460). -/
def State.hubStore (s : State) (pa : Nat) (bs : List Byte) : State :=
  match s.region pa, s.hubStuck pa bs.length with
  | .control, _ => s.controlWrite (pa - controlBase) bs
  | .unbacked, _ => s.hubUnbacked pa
  | _, some _ => s.record { event := 0x10, cls := 4, addr := pa }
  | _, none => s.homePut pa (offsets bs)

/-- The bytes that a hub core reads: of a listed line they are open (17 R416: data of such a line are never delivered), and so of
one that a CXL port does not serve, whose request is left to its time-out (20 R460). -/
def State.hubBytes (s : State) (pa n : Nat) : List Byte × State :=
  match s.region pa, s.hubStuck pa n with
  | .control, _ => ((List.range n).map fun i => s.controlByte (pa - controlBase + i), s)
  | .unbacked, _ => (List.replicate n 0, s.hubUnbacked pa)
  | _, some l => (s.cxlAsk l false 0).freeBytes n
  | _, none => if (List.range n).any fun i => s.listedLine ((pa + i) / 64 * 64) then s.freeBytes n else (s.bytesAt pa n, s)

/-- A hub core's load: what it returns stands in `read`. -/
def State.hubLoad (s : State) (pa n : Nat) : State :=
  let (bs, t) := s.hubBytes pa n
  { t with hub := { t.hub with read := BitVec.ofNat 512 (ofBytes bs) } }

/-- A hub core's atomic: the old value stands in `read`, and what it leaves is written in the same event. -/
def State.hubAtomic (s : State) (pa : Nat) (f : AtomicFn) : State :=
  let (bs, t) := s.hubBytes pa (fnBytes f)
  let u : State := { t with hub := { t.hub with read := BitVec.ofNat 512 (ofBytes bs) } }
  match s.region pa, (fnApply f (ofBytes bs)).1 with
  | .unbacked, _ | _, none => u
  | _, some v => u.hubStore pa (bytesOf (fnBytes f) v)

end Sys2Proof.Machine
end

