-- ==== Sys2Proof/Machine/Issue.lean ====
section
/-! DEFINITION. Issue: choosing the context that issues (03 R66, R67), and what else
a step may do when nothing issues. -/

namespace Sys2Proof.Machine

/-- A context may issue by itself (R66): it runs, nothing holds it, and no gang excludes it. A follower never fetches; it
issues what its leader has issued (02 R41). -/
def State.mayIssue (s : State) (c k : Nat) : Bool :=
  let x := s.ctx c k
  x.status = .running && x.free && (k = 4 || x.inGang || !((List.range 4).any fun j => (s.ctx c j).inGang))

/-- A handler run's budget counts from its first issue (19 R443). -/
def State.firstIssue (s : State) : State :=
  match s.me.run with
  | some r => if r.begun then s else s.setMe { s.me with run := some { r with begun := true }, runCycles := s.cycle.toNat }
  | none => s

/-- The state in which the acting context issues its next instruction: fixed results come one issue nearer (R189). A
gang leader that takes an instruction up again has issued it already. -/
def State.ready (s : State) : State := if s.me.hold = .gang then s else s.tick.firstIssue

/-- The instruction that the acting context issues next: of a REP body, whose stepped fields the decoder checks in every
pass (R187), or fetched at the pc. -/
def State.nextInstr (s : State) : Fetched :=
  let x := s.me
  match x.rep with
  | some r =>
    if x.repOn then
      match r.body[fld x.repstate 3 0]? with
      | some (.unassignedEncoding w) => .none w s
      | some i =>
        let j := match opsOf i with | some o => withOps i (stepOps o r (fld x.repstate 15 4)) | none => i
        if legal j then .instr j s else .none (match encode i with | w :: _ => w | [] => 0) s
      | none => s.fetchAt x.pc
    else s.fetchAt x.pc
  | none => s.fetchAt x.pc

/-- An instruction's run where a Deadline Save's notice is due (17 R409, 19 R449): the instruction's own trap is raised in its
place, if it raises one; else the notice, before the instruction. -/
def State.noticed (s : State) (run : State → Host.Outcome State Fault Refusal) : Host.Outcome State Fault Refusal :=
  let x := s.me
  match x.strand with
  | none => run s
  | some d =>
    if !d.notice then run s
    else
      let q := s.setMe { x with strand := some { d with notice := false } }
      match run q with
      | .next t =>
        let y := t.ctx s.curCore s.curCtx
        if (y.handling && !x.handling) || y.status = .stopped then .next t
        else .next (q.enterTrap true false 0x13 0 x.faultPc)
      | r => r

/-- The acting context issues: its next instruction runs. Its instruction is answered beside what comes of it. -/
def State.issueMe (s : State) : Host.Outcome State Fault Refusal × Option Instr :=
  let t := s.ready
  match t.nextInstr with
  | .instr i u => (u.noticed (exec i), some i)
  | .none w u => (u.noticed (exec (.unassignedEncoding w)), none)
  | .stopped (.inl e) =>
    (t.noticed fun u => .next (u.finish (.nop { sw := false, ext := none, lit := none, d := 0, a := 0, b := 0 })
      { sw := false, ext := none, lit := none, d := 0, a := 0, b := 0 } (u.troubled e .exec)), none)
  | .stopped (.inr (p, pa)) => (.next (t.remoteFetch p pa), none)

/-- A context whose instruction found a wait unmet in `t` has issued nothing (R66): it stands as in `s`. What the test
itself set going (a message, a pager future, a walk's bits, the bytes of a read that it has looked at) stays, and what an
instruction does before it waits (TEND releases its mill and ends its gang, 12 R319). -/
def State.heldAs (s t : State) (c k : Nat) : State :=
  let x := s.ctx c k
  let y := t.ctx c k
  let co := s.core c
  let here : Core := { co with
    mill := { (t.core c).mill with bank0 := co.mill.bank0, bank1 := co.mill.bank1 }
    ctxs := put co.ctxs k { x with
      hold := if x.hold = .gang && y.inGang then .gang else .wait, ibuf := y.ibuf, dbuf := y.dbuf, parking := y.parking,
      grank := y.grank } }
  { t with curCore := s.curCore, curCtx := s.curCtx, cores := put t.cores c here }

/-! ### Gang steps (R68, 02 R41) -/

/-- A follower's instruction that is due in a gang step. -/
def State.dueFwd (s : State) (c k : Nat) : Option Fwd :=
  match (s.ctx c k).gangq with
  | f :: _ => if f.steps ≤ 1 then some f else none
  | [] => none

/-- A follower's queue with every instruction one gang step nearer. -/
def nearer (q : List Fwd) : List Fwd := q.map fun (f : Fwd) => { f with steps := f.steps - 1 }

/-- A follower's queue after its turn in a gang step. One that stayed behind in an earlier step catches up with no step. -/
def stepQueue (q : List Fwd) : List Fwd :=
  match q with
  | f :: r => if f.steps = 0 then r else nearer (if f.steps = 1 then r else q)
  | [] => []

/-- The follower that stayed behind in an earlier gang step: another member of the gang had taken what its own instruction waits
for (DESIGN CHOICE, log entry 50). -/
def State.behindIn (s : State) (fs : List (Nat × Nat × Nat)) : Option (Nat × Nat × Fwd) :=
  fs.findSome? fun m => match (s.ctx m.1 m.2.1).gangq with
    | f :: _ => if f.steps = 0 then some (m.1, m.2.1, f) else none
    | [] => none

/-- A follower issues what its leader issued: at the leader's address, with its REPSTATE and live map (02 R43, 07 R188). -/
def State.follow (s : State) (f : Fwd) : Host.Outcome State Fault Refusal :=
  let t := s.unhold
  let x := t.me
  let t := t.setMe { x with pc := f.pc, repstate := f.repstate, rep := f.rep, gangq := stepQueue x.gangq,
                            strand := x.strand.map fun d => { d with map := f.map } }
  t.tick.noticed (exec f.instr)

/-- Whether an instruction that trapped is past when its context resumes: TRAP's TRAPPC is the next instruction (12 R342). -/
def isTrap : Instr → Bool
  | .trap _ => true
  | _ => false

/-- Whether an instruction that is due at a follower would hold, and what its test itself sets going (R68: decided before the
step). -/
def State.wouldHold (s : State) (c k : Nat) (f : Fwd) : Option State :=
  match (s.as c k).follow f with
  | .next t => if (t.ctx c k).hold = .wait then some (s.heldAs t c k) else none
  | _ => none

/-- The first follower whose due instruction would hold, before the step of any member: every member stands as in `s`, but for
what that test sets going. -/
def State.followerHolds (s : State) : List (Nat × Nat × Nat) → Option State
  | [] => none
  | (c, k, _) :: rest =>
    match (s.dueFwd c k).bind (s.wouldHold c k) with
    | some t => some t
    | none => s.followerHolds rest

/-- What comes of the followers' turns in one gang step: every one has issued (and which of them was the first to trap), or the
machine stops. -/
inductive Turns where
  | all (s : State) (trapped : Option (Nat × Nat × Fwd))
  | stops (r : Host.Outcome State Fault Refusal)

/-- The turns of a gang's followers in one gang step, in which none of them would hold; one whose wait another member's turn
has undone stays behind. -/
def State.followAll (s : State) (trapped : Option (Nat × Nat × Fwd)) : List (Nat × Nat × Nat) → Turns
  | [] => .all s trapped
  | (c, k, _) :: rest =>
    match s.dueFwd c k with
    | none =>
      let x := s.ctx c k
      (s.setCtx c k { x with gangq := stepQueue x.gangq }).followAll trapped rest
    | some f =>
      match (s.as c k).follow f with
      | .next t =>
        if (t.ctx c k).hold = .wait then
          let u := s.heldAs t c k
          let y := u.ctx c k
          (u.setCtx c k { y with gangq := nearer y.gangq }).followAll trapped rest
        else
          let first := if trapped.isNone && (t.ctx c k).status = Status.stopped then some (c, k, f) else trapped
          let co := t.core c
          (t.setCore c { co with ptr := k }).followAll first rest
      | r => .stops r

/-- A cycle in which a follower traps: it alone acts, and every other member holds (R410, 18 R431), so that the faults of the
others are raised when the gang steps again. An instruction that trapped is issued again, except TRAP. -/
def State.gangTrap (s : State) (c k : Nat) (f : Fwd) : Option State :=
  match (s.as c k).follow f with
  | .next t =>
    let y := t.ctx c k
    let q := (s.ctx c k).gangq
    if y.status = .stopped then some (t.setCtx c k { y with gangq := if isTrap f.instr then q.drop 1 else q }) else none
  | _ => none

/-- What one gang step comes to, once every follower has had its turn in `t`. -/
def State.gangTurns (s t : State) (trapped : Option (Nat × Nat × Fwd)) : State :=
  (trapped.bind fun q => s.gangTrap q.1 q.2.1 q.2.2).getD t


/-- What a leader has issued, on its way to its followers (R68). -/
def State.forward (s : State) (c k : Nat) (i : Instr) (pc : Word) (rep : BitVec 32) (buf : Option RepBuf := none) : State :=
  let map := (s.ctx c k).strand.bind Strand.map
  (s.followers c).foldl (fun t m =>
    let x := t.ctx m.1 m.2.1
    t.setCtx m.1 m.2.1 { x with
      gangq := x.gangq ++ [{ steps := 2 * m.2.2, instr := i, pc := pc, repstate := rep, map := map, rep := buf }] }) s

/-- A follower that stayed behind issues, and no other member does. -/
def State.catchUp (s : State) (d j : Nat) (f : Fwd) : State × Option (Host.Outcome State Fault Refusal) :=
  match (s.as d j).follow f with
  | .next t =>
    if (t.ctx d j).hold = .wait then (s.heldAs t d j, none)
    else if (t.ctx d j).status = Status.stopped then (s, (s.gangTrap d j f).map .next)
    else (s, some (.next t))
  | r => (s, some r)

/-- One gang step (R68): every member issues what is due, or none does; whether one would hold is decided before the step, for all
of them. Where a member traps, it alone acts (18 R431), the one of lowest rank if several would. A leader that waits for its
followers issues nothing until they have come as far (11 R307). -/
def State.gangStep (s : State) (c k : Nat) : State × Option (Host.Outcome State Fault Refusal) :=
  let fs := s.followers c
  if fs.length ≠ fld (s.ctx c k).grank 5 3 || fs.any fun m => !(s.ctx m.1 m.2.1).free then (s, none)
  else
    let x := s.ctx c k
    match s.behindIn fs, s.followerHolds fs with
    | some (d, j, f), _ => s.catchUp d j f
    | none, some t => (t, none)
    | none, none =>
    if x.hold = .gang && !s.gangDrained c then
      match s.followAll none fs with
      | .all t first => (s, some (.next (s.gangTurns t first)))
      | .stops r => (s, some r)
    else
      let s := (s.as c k).unhold
      match s.issueMe with
      | (.next t, i) =>
        if (t.ctx c k).hold = .wait then (s.heldAs t c k, none)
        else
          match t.followAll none fs with
          | .all u first =>
            let z : Ctx := t.ctx c k
            let stops : Bool := z.status = Status.stopped
            let go (i : Instr) : Bool := x.hold ≠ Hold.gang && (z.status = Status.running || (stops && isTrap i)) && z.inGang
            let sent (v : State) : State :=
              match i with
              | some i => if go i then v.forward c k i x.pc x.repstate (if x.repOn then x.rep else none) else v
              | none => v
            let u := if stops then sent t else s.gangTurns (sent u) first
            let co := u.core c
            (s, some (.next (u.setCore c { co with ptr := k })))
          | .stops r => (s, some r)
      | (r, _) => (s, some r)

/-! ### The selector (R67) -/

/-- The first context of a core, in the selector's order after P (R67), that issues: the state after it. A context
whose instruction waits is passed over. -/
def State.issueCore (s : State) (c : Nat) : List Nat → State × Option (Host.Outcome State Fault Refusal)
  | [] => (s, none)
  | k :: rest =>
    if s.mayIssue c k then
      if (s.ctx c k).leads then
        match s.gangStep c k with
        | (t, none) => t.issueCore c rest
        | r => r
      else
        let s := (s.as c k).unhold
        match s.issueMe.1 with
        | .next t =>
          if (t.ctx c k).hold = .wait && (t.ctx c k).status = .running then (s.heldAs t c k).issueCore c rest
          else let co := t.core c; (s, some (.next (t.setCore c { co with ptr := k })))
        | r => (s, some r)
    else s.issueCore c rest

/-- The contexts of a core in the selector's order (R67). -/
def order (p : Nat) : List Nat := (List.range 5).map fun i => (p + 1 + i) % 5

/-- The first core, from a place in the list of cores, that issues. A core of a fenced or shut-down hamlet issues
nothing (17 R415, 20 R462). -/
def State.issueFrom (s : State) : List Nat → State × Option (Host.Outcome State Fault Refusal)
  | [] => (s, none)
  | c :: rest =>
    if (s.ham (hamOf c)).fenced || (s.ham (hamOf c)).shut then s.issueFrom rest
    else
      match s.issueCore c (order (s.core c).ptr) with
      | (_, some (.next t)) => (s, some (.next { t with turn := c + 1 }))
      | (t, some r) => (t, some r)
      | (t, none) => t.issueFrom rest

/-- The cores that the state lists, from the one whose turn it is. -/
def State.coreOrder (s : State) : List Nat :=
  let cs := s.cores.map Prod.fst
  cs.filter (s.turn ≤ ·) ++ cs.filter (· < s.turn)

/-- The 64 bytes of a command slot (13 R353). -/
def State.slot (s : State) (n : Nat) : Row := rowOf (memRead s.mem (controlBase + 64 * (n % 64)) 64)

/-- Whether a completion that is owed is the one of a launch that had started: it has ended, or been aborted (13 R354, R356). -/
def Completion.ofStarted (k : Completion) : Bool := k.code = 0x02 && (k.status = 0 || k.status = 0x08)

/-- The command that root firmware takes next (13 R354): the slot at its position, once `own` is 1 and the completion of every
earlier command is written, but for launches that have started (R355). -/
def State.nextCommand (s : State) : Option Instr :=
  let w := s.slot s.hub.cmdPos
  if !s.hub.booted || !w.getLsbD 0 || s.hub.owed.any fun k => !k.ofStarted then none
  else
    some (match fld w 15 8 with
      | 0x01 => .query w
      | 0x02 => .launch w
      | 0x03 => .abort w
      | 0x04 => .pagerdone w
      | 0x05 => .range w
      | 0x06 => .cxlshare w
      | 0x07 => .linkcfg w
      | 0x08 => .syscopy w
      | 0x09 => .tlbinvCommand w
      | 0x0A => .donq w
      | 0x0B => .attest w
      | 0x0C => .svcload w
      | 0x0D => .reset w
      | 0x0E => .pealfloor w
      | _ => .unknownCommand w)

/-- One reference cycle more (12 R346). -/
def State.later (s : State) : State := { s with cycle := s.cycle + 1 }

end Sys2Proof.Machine
end

