-- ==== Sys2Proof/Machine/Step.lean ====
section
/-! DEFINITION. The step of the machine, and the state in which a given instruction is the next to run. -/

namespace Sys2Proof.Machine

/-- A context issues, if one can: what it comes to, and the state without it. -/
def State.tryIssue (s : State) : State × Option (Host.Outcome State Fault Refusal) :=
  if s.stopped then (s, none) else s.issueFrom s.coreOrder

/-- The turns of a step from the one that is due on: contexts issue (0), an event that the part owes (1), a command of
root firmware (2). With none of them, a cycle has passed. Each `fuel` is one turn. -/
def State.takeTurn (s : State) (phase : Nat) : Nat → Host.Outcome State Fault Refusal
  | 0 => .next s
  | fuel + 1 =>
    if phase = 0 then
      match ({ s with phase := 1 } : State).tryIssue with
      | (_, some r) => r
      | (t, none) => t.takeTurn 1 fuel
    else if phase = 1 then
      match s.agenda with
      | i :: r => exec i { s with agenda := r, phase := 2 }
      | [] => s.takeTurn 2 fuel
    else
      match s.nextCommand with
      | some i => exec i { s with phase := 0 }
      | none => s.takeTurn 0 fuel

/-- One step. What comes from outside, or has been given its turn, is first; then the turn that is due. -/
def step (s : State) : Host.Outcome State Fault Refusal :=
  let t := s.later
  match t.inputs with
  | .event i :: r => exec i { t with inputs := r }
  | .hubStore pa bs :: r => .next (State.hubStore { t with inputs := r } pa bs)
  | .hubLoad pa n :: r => .next (State.hubLoad { t with inputs := r } pa n)
  | .hubAtomic pa f :: r => .next (State.hubAtomic { t with inputs := r } pa f)
  | .flitIn p q good :: r => .next (State.flitIn { t with inputs := r } p q good)
  | .flitAck p q :: r => .next (State.flitAck { t with inputs := r } p q)
  | .replayFailed p :: r => .next (State.replayFailed { t with inputs := r } p)
  | .cxlDown p :: r => .next (State.cxlFalls { t with inputs := r } p)
  | .cxlSilent p id :: r => .next (State.cxlSilence { t with inputs := r } p id)
  | [] => t.takeTurn t.phase 3

/-- Where `withFetchWord` places an instruction: a virtual address and the frame of its page. -/
def fetchVa : Nat := 0x10000
def fetchPa : Nat := 0x10000

/-- The leaf that maps the placed instruction's page: readable, writable and executable, accessed and dirty. -/
def fetchLeaf : BitVec 128 := BitVec.ofNat 128 (fetchPa + 0x33D)

/-- The state with an instruction placed where the next step fetches, and a context of core 0 running it: the page is
mapped by a core TLB entry, and nothing else is due before it (log entry 1). -/
def State.withFetchWord (s : State) (nbits w : Nat) : State :=
  let t : Tlb := { space := 0, vbase := fetchVa, bits := 12, pbase := fetchPa, pkg := s.pkgid, leaf := fetchLeaf,
                   entry := 0, dirty := true }
  let co := s.core 0
  let x : Ctx := { look {} co.ctxs 0 with status := .running, pc := BitVec.ofNat 64 fetchVa, tblroot := 0, hold := .none,
                                          rep := none, repstate := 0, grank := 0, acqAfter := none,
                                          strand := some {} }
  let s := s.setCore 0 { co with ctxs := put co.ctxs 0 x, ptr := 4, tlb := t :: co.tlb }
  { s with mem := memWrite s.mem fetchPa (bytesOf 20 (w % 2 ^ nbits)), inputs := [], turn := 0, phase := 0, stopped := false }

end Sys2Proof.Machine
end

