-- ==== Sys2Proof/Safety.lean ====
section
/-! DEFINITION. What counts as a safe run, and the terms in which statements are made: when nothing keeps an instruction
from acting, the state in which it acts, and what an instruction that retires leaves as it was. -/

namespace Sys2Proof

/-- A step that neither faults nor refuses. -/
def Answers (s : Machine.State) : Prop := ∃ t, Machine.step s = .next t

/-- A run of `n` steps from a state, each of which answers. -/
def SafeFor : Nat → Machine.State → Prop
  | 0, _ => True
  | n + 1, s => ∃ t, Machine.step s = .next t ∧ SafeFor n t

namespace Machine

/-! ### When an instruction acts -/

/-- The count wait and the token wait of an extended form are over, and no token that it waits for is marked (07 R171, 06
R161, 19 R436). A one-word form waits for nothing. -/
def State.waitsDone (s : State) (o : Ops) : Bool :=
  match o.ext with
  | none => true
  | some c => s.me.waitsOver c && (s.me.marked c.kmask).isNone

/-- The state in which an instruction acts: after the acquires of its token wait (06 R163). -/
def State.entered (s : State) (o : Ops) : State :=
  match o.ext with
  | none => s
  | some c => s.acquireTokens c.kmask

/-- There is room for an outstanding result, where the instruction makes one (07 R192), and its bank is not held by a
queued swap (10 R268). -/
def State.clear (s : State) (i : Instr) (o : Ops) : Bool :=
  !s.bankHeld i o && (!makesVar i || s.me.outstanding < 16)

/-- Nothing keeps an instruction that bit 0 of its predicate governs from acting (07 R171, R173, R192; 10 R268). -/
def State.goes (s : State) (i : Instr) (o : Ops) : Bool :=
  s.waitsDone o && (s.entered o).active o && (s.entered o).clear i o

/-- Nothing keeps a vector instruction from acting on its lanes; `pre` is the decoder's check of its views (18 R422). -/
def State.goesVec (s : State) (i : Instr) (o : Ops) (pre : State → Bool) : Bool :=
  pre s && s.waitsDone o && (s.entered o).clear i o

/-- The encoded instructions that bit 0 of the predicate governs (07 R173): all but the lane-wise ones. -/
def bitGoverned : Instr → Bool
  | .vld _ _ | .vst _ _ | .vgather _ | .vscatter _ | .vadd _ _ | .vmul _ | .vfma _ _ | .vdiv _ _ | .vminmax _ _
  | .vlogic _ _ | .vcmp _ _ | .vsel _ | .vperm _ _ | .vbcast _ _ | .vred _ _ | .vscan _ | .vdot _ | .vpackm _
  | .vexpm _ | .vmath _ _ | .cvt _ _ | .cvtn _ _ | .cvtw _ _ => false
  | i => (opsOf i).isSome

/-! ### What an instruction leaves -/

/-- `t` is `u` but for the acting context's place in its program, its latches, its results, its hold and what its strand
was told by the wake that it has now used: every register, predicate, flag, trap register, token, count and byte of
memory is as in `u`. -/
def OnlyIssue (u t : State) : Prop :=
  ∃ x : Ctx, t = u.setMe x ∧ x = { u.me with
    pc := x.pc, rep := x.rep, repstate := x.repstate, hold := x.hold, results := x.results, latchA := x.latchA,
    latchB := x.latchB, latchD := x.latchD, answer := x.answer, parking := x.parking }

/-- An instruction retires after the effects that lead to `u`: it leaves the results `rs` behind, youngest in program
order (07 R189, R191), its switch marker sets the hold (03 R66), and the pc goes on after it, or to `target`; inside a
REP body the pc follows the REP. -/
def Retires (u t : State) (o : Ops) (rs : List Result) (target : Option Word := none) : Prop :=
  OnlyIssue u t ∧ t.me.results = u.me.results ++ rs ∧ t.me.hold = (if o.sw then .switch else .none) ∧
    (u.me.repOn = false ∨ target.isSome → t.me.pc = target.getD (u.me.pc + BitVec.ofNat 64 o.bytes))

/-- A result of fixed latency (07 R189). -/
def fixedResult (lat : Nat) (cells : List Cell) (flags : BitVec 6 := 0) : Result :=
  { due := .fixed lat, cells := cells, flags := flags }

/-- A result of variable latency whose data are present (07 R190). -/
def varResult (cells : List Cell) (flags : BitVec 6 := 0) : Result := { due := .var [], cells := cells, flags := flags }

/-- The 64-bit value `v` into the scalar that operand d names. -/
def intoD (o : Ops) (v : Word) : List Cell := [cellAt (scAddr o o.d) 8 v.toNat]

/-- The whole of the predicate that operand d names, none for p0. -/
def intoP (o : Ops) (v : Word) : List Cell := cellPred o.d.toNat (BitVec.allOnes 64) v

/-! ### Memory -/

/-- A place that is read and written with no message: storage of the own hamlet, a line of a stash window, or global
memory of the own package (05 R123, R125). -/
def Place.here : Place → Bool
  | .near _ | .window _ _ _ | .global _ _ => true
  | _ => false


/-- What a release at a scope waits for has come (06 R148): every result has returned; at CORE scope what the context has sent is
applied; beyond CORE, or where `sync` asks for it, the context's replay entries are gone, and beyond CORE its named counts are
zero. -/
def State.releaseReady (s : State) (sc : Scope) (sync : Bool) : Bool :=
  s.me.returned && (if sc = .core then !s.sending && (!sync || s.queueGone)
    else s.queueGone && s.me.c1 = 0 && s.me.c2 = 0 && s.me.c3 = 0)

/-- The state in which an access of an order acts: after the release effects where the order is a release (06 R147, R148). -/
def State.orderedBy (s : State) (ord : Nat) (sc : Scope) : State := if ord = 2 ∨ ord = 3 then s.release sc else s

/-- Listed bytes with distinct offsets, which lie in one line from an address on. -/
def inLine (pa : Nat) (bs : List (Nat × Byte)) : Prop := (bs.map Prod.fst).Nodup ∧ ∀ b ∈ bs, pa % 64 + b.1 < 64

/-- No scale window serves the line of an address (05 R133). -/
def State.plainLine (s : State) (pa : Nat) : Prop :=
  scaleRange s.ranges (pa / 64 * 64) = none ∧ find s.scales (pa / 64 * 64) = none

/-- `n` bytes at a virtual address lie in the window of the own commons, below its channel buffers and system area (05 R121,
R130). -/
def commonsAt (va : Word) (n : Nat) : Bool := localWindow va && va.toNat % 2 ^ 40 + n ≤ 0xF0000

/-- The storage that an address of the own commons' window names (05 R121). -/
def State.commonsPa (s : State) (va : Word) : Nat := commonsBase (hamOf s.curCore) + va.toNat % 2 ^ 40

/-! ### Results of lane instructions -/

/-- What an instruction that writes elements of a vector row commits (09 R237): of `n` elements of `w` bits, each active one takes
its place in the view's row as the low `w` bits of `f i`, no other bit of a row changes, and the flags are those that
any of them raises. -/
def LaneCell (v : View) (w n : Nat) (act : Word) (place : Nat → Nat) (f : Nat → Nat × Flags) (c : Cell) (fl : Flags) : Prop :=
  c.tgt = .row (v.base / 64) ∧
    (∀ p, p < 512 → c.mask.getLsbD p = (List.range n).any fun i => act.getLsbD i && decide (place i = p / w)) ∧
    (∀ i, i < n → act.getLsbD i = true → laneOf w c.data (place i) = (f i).1 % 2 ^ w) ∧
    ∀ b, fl.getLsbD b = (List.range n).any fun i => act.getLsbD i && (f i).2.getLsbD b

/-- The instruction retires with one result of fixed latency, the lanes of the row of `t.d`. -/
def Lanes (u v : State) (o : Ops) (t : Three) (lat : Nat) (f : Nat → Nat × Flags) : Prop :=
  ∃ c fl, Retires u v o [fixedResult lat [c] fl] ∧ LaneCell t.d t.w (512 / t.w) (u.lanes o) id f c fl

/-! ### Mill commands -/

/-- A command at the end of the own mill's queue (10 R267), counted as sent (03 R90); the first of a queue may become current. -/
def State.enqueued (s : State) (cmd : MillCmd) : State :=
  let m := s.myCore.mill
  let t := s.setMill s.curCore { m with queue := m.queue ++ [cmd] }
  let t := t.setMyHam { t.myHam with sent := t.myHam.sent + 1 }
  if m.queue.isEmpty then t.owe (.millCommandCurrent (Fin.ofNat 2048 s.curCore)) else t

/-- The own mill takes another command (10 R267): the context owns it and one of the queue's two slots is free. -/
def State.millFree (s : State) : Bool := s.ownsMill && s.myCore.mill.queue.length < 2

/-- No command of the acting context is queued, and no mill trap waits for it (11 R291, R305). -/
def State.millQuiet (s : State) : Bool :=
  (s.myCore.mill.queue.all fun q => q.ctx ≠ s.curCtx) &&
    match s.me.strand with
    | none => true
    | some d => d.pend = 0 && (s.myCore.mill.pend = 0 || !s.ownsMill)

/-! ### Strands -/

/-- A context runs a frame that has not run before (07 R186): at its `pc`, with s0 its `fp` and s1 its `arg`, the launch's views in
the view block, zero elsewhere, no predicate, FPSTATUS and SRSTATE as at reset. -/
def Begun (t : State) (c k : Nat) (f : Frame) (seq : Word) (views : BitVec 2048) : Prop :=
  let x := t.ctx c k
  x.status = .running ∧ x.pc = sext57 f.pc ∧
    (∀ n, look 0 x.store n = if n = 0 then (f.arg.setWidth 512 <<< 64) ||| f.fp.setWidth 512
      else if 8 ≤ n ∧ n < 12 then views.extractLsb' (512 * (n - 8)) 512 else 0) ∧
    (∀ n, n ≠ 0 → x.pred n = 0) ∧ x.fpstatus = 0x40 ∧ x.srstate = 0 ∧ x.tokens = 0xFF ∧ x.results = [] ∧
    x.strand = some (Strand.ofFrame f seq)

/-- The strand of a context that has parked, at the end of its save (02 R48, R49, R80): the context is IDLE, and its record waits
in its hamlet, or, where its event has come meanwhile, in its core's ready queue with what the event told. -/
def Linked (t v : State) (c k : Nat) (p : Parking) (d : Strand) : Prop :=
  let own : Bool := p.owned || t.owns c k
  (v.ctx c k).status = .idle ∧ (v.ctx c k).strand = none ∧
    ∃ w : Waiter, w.key = p.key ∧ w.cond = p.cond ∧ w.episode = p.episode ∧ w.core = c % 8 ∧ w.watch = none ∧ w.owned = own ∧
      w.save = saveBase (t.ctx c k) d (planOf d.map false own (t.slices (hamOf c))) ∧
      w.frame = d.frame ((t.ctx c k).pc.setWidth 57) (t.ctx c k).repstate ∧ w.marks = (t.ctx c k).marks ∧
      if p.woken then w.answer = p.answer ∧ Ready.woken w ∈ (v.core c).ready else w ∈ (v.ham (hamOf c)).waiters

/-- What a save of a context waits for, if anything: a fenced hamlet, or a line of a CXL port (17 R415, 20 R460). -/
def State.saveWaits (s : State) (c k : Nat) (whole : Bool) (d : Strand) : Option State :=
  let x := s.ctx c k
  let p := planOf d.map whole (s.owns c k) (s.slices (hamOf c))
  s.saveHeld c k (if whole then sext57 x.savearea else saveBase x d p) p.size

/-- What the save path of a context leaves when it has written its strand's save, and the cause and address of its fault, if any
(02 R48, R62, R63). -/
def State.savedAt (s : State) (c k : Nat) (whole : Bool) (d : Strand) : State × Option (BitVec 6 × Word) :=
  let x := s.ctx c k
  let p := planOf d.map whole (s.owns c k) (s.slices (hamOf c))
  let base := if whole then sext57 x.savearea else saveBase x d p
  match s.savePut c k base (s.saveBytes c k d (d.frame (x.pc.setWidth 57) x.repstate) p) with
  | (t, none) => (t.saveListed c k base p, none)
  | e => e

/-- A core looks for work: nothing stops its hamlet, and no task context of it but one is IDLE, in `s` below that one and in `t`
above it (03 R69). -/
def LoneIdle (s t : State) (c k : Nat) : Prop :=
  (s.ham (hamOf c)).fenced = false ∧ (s.ham (hamOf c)).shut = false ∧ s.stopped = false ∧ k < 4 ∧
    (s.ctx c k).status = .idle ∧ (∀ j, j < k → (s.ctx c j).status ≠ .idle) ∧
    ∀ j, k < j → j < 4 → (t.ctx c j).status ≠ .idle

/-! ### Commands -/

/-- Root firmware acts on a command: the package runs, or the command is QUERY or RESET (17 R415), and no reserved field of the slot
is set (13 R353). -/
def State.takes (s : State) (w : Row) (always : Bool) : Bool :=
  (!s.stopped || always) && fld w 511 384 = 0 && fld w 63 16 = 0 && fld w 7 1 = 0

/-- An argument address of `n` bytes is in order (13 R353, 05 R122). -/
def State.argGood (s : State) (w : Row) (n : Nat) : Bool :=
  cmdArg w ≠ 0 && (cmdArg w).toNat % 64 = 0 && s.backed (cmdArg w) n

/-! ### Families of instructions, and their results said independently -/

/-- The instruction of opcodes 0x00 to 0x0E that computes an operation (07 R177, 08 R203). -/
def aluInstr (f : AluFn) (o : Ops) (imm : Bool) (t : ITy) : Instr :=
  match f with
  | .add => .add o imm t
  | .sub => .sub o imm t
  | .mul => .mul o imm t
  | .mulh => .mulh o imm t
  | .div => .div o imm t
  | .rem => .rem o imm t
  | .and => .and o imm t
  | .or => .or o imm t
  | .xor => .xor o imm t
  | .andn => .andn o imm t
  | .shl => .shl o imm t
  | .shr => .shr o imm t
  | .rot => .rot o imm t
  | .min => .min o imm t
  | .max => .max o imm t

/-- The results of 08 R203 on the low `w` bits, in the terms of bit vectors, extended under R198. -/
def aluSpec (f : AluFn) (w : Nat) (sg : Bool) (x' y' : Word) : Word :=
  let x : BitVec w := x'.setWidth w
  let y : BitVec w := y'.setWidth w
  let k := y.toNat % w
  let r : BitVec w :=
    match f with
    | .add => x + y
    | .sub => x - y
    | .mul => x * y
    | .mulh =>
      if sg then ((x.signExtend (2 * w) * y.signExtend (2 * w) : BitVec (2 * w)) >>> w).setWidth w
      else ((x.setWidth (2 * w) * y.setWidth (2 * w) : BitVec (2 * w)) >>> w).setWidth w
    | .div => if y = 0 then BitVec.allOnes w else if sg then x.sdiv y else x / y
    | .rem => if y = 0 then x else if sg then x.srem y else x % y
    | .and => x &&& y
    | .or => x ||| y
    | .xor => x ^^^ y
    | .andn => x &&& ~~~ y
    | .shl => x <<< k
    | .shr => if sg then x.sshiftRight k else x >>> k
    | .rot => x.rotateLeft k
    | .min => if (if sg then x.sle y else x.ule y) then x else y
    | .max => if (if sg then x.sle y else x.ule y) then y else x
  if sg then r.signExtend 64 else r.setWidth 64

end Machine

end Sys2Proof
end

