-- ==== Sys2Proof/Certificates/Slice0/Obligations.lean ====
section
/-! DEFINITION. The statements for the provers, from the numbered rules of the spec. -/

open Sys2Proof Sys2Proof.Machine

/-! ### Encoding -/

/-- Decoding the encoding of a well-formed instruction gives it back, whatever words follow it, from words and from
bytes alike (07 R168 to R178). -/
def Obligations.DecodeOfEncode : Prop :=
  ∀ (i : Instr), WellFormed i → ∀ (rest : List (BitVec 32)),
    decodeWords (encode i ++ rest) = .ok i ∧
      decode (bytesOfWords (encode i ++ rest)) = .ok (i, 4 * (encode i).length)

/-- Whatever the decoder accepts is well-formed, and the words that it read are that instruction's encoding: no bit of an
accepted word is dropped (18 R421, R422). -/
def Obligations.EncodeOfDecode : Prop :=
  ∀ (ws : List (BitVec 32)) (i : Instr), decodeWords ws = .ok i →
    WellFormed i ∧ ∃ rest, ws = encode i ++ rest

/-- Words written out bit by bit from the spec's layouts decode to the instructions they stand for: one-word forms of several
families, one with a literal, and extended forms (07 R168 to R177 and the examples of the spec). -/
def Obligations.SpecWordsDecode : Prop :=
  decodeWords [0x01C61400] = .ok (.add { sw := false, ext := none, lit := none, d := 5, a := 6, b := 7 } false .i64) ∧
  decodeWords [0x01C61404] = .ok (.add { sw := true, ext := none, lit := none, d := 5, a := 6, b := 7 } false .i64) ∧
  decodeWords [0x9F461400] = .ok (.add { sw := false, ext := none, lit := none, d := 5, a := 6, b := 0x3D } true .i32) ∧
  decodeWords [0x21021508] = .ok (.ld { sw := false, ext := none, lit := none, d := 5, a := 2, b := 4 } .n32) ∧
  decodeWords [0x00000348] = .ok (.nop { sw := false, ext := none, lit := none, d := 0, a := 0, b := 0 }) ∧
  decodeWords [0x300002F8] = .ok (.bar { sw := false, ext := none, lit := none, d := 0, a := 0, b := 0 } 0 .pkg) ∧
  decodeWords [0x00112B60] = .ok (.sysrd { sw := false, ext := none, lit := none, d := 10, a := 0x11, b := 0 }) ∧
  decodeWords [0x00000492, 0x55667788, 0x11223344] =
    .ok (.movi { sw := false, ext := none, lit := some 0x1122334455667788, d := 1, a := 0, b := 0 }) ∧
  (let c : Ctl := { hold := 0, cw := 0, pol := 0, ord := 0, scope := 0, rm := 0, pneg := false, pred := 0, kmask := 0, xf := 0 }
   decodeWords [0xB0140169, 0x00180038, 0x00000008] =
     .ok (.amo { sw := false, ext := some { c with ord := 2, scope := 2 }, lit := none, d := 0x38, a := 0x18, b := 8 } .fadd32) ∧
   decodeWords [0x000000F1, 0x01100003, 0x00000000] =
     .ok (.rep { sw := false, ext := some c, lit := none, d := 3, a := 0x110, b := 0 }))

/-- The decoder refuses an opcode from 0x70 on in any form, the functions that R177 does not list for CMP, RED and BAR, the
lengths with a literal on RET, and pred 0 with pneg 1 in an extended form, with a literal and without (18 R421). -/
def Obligations.IllegalWordsRefused : Prop :=
  ∀ (w : BitVec 32) (rest : List (BitVec 32)),
    (0x70 ≤ (w.extractLsb' 3 7).toNat ∨
      (w.extractLsb' 3 7 = 0x0F ∧ w.extractLsb' 28 3 = 7) ∨
      (w.extractLsb' 3 7 = 0x2F ∧
        (w.extractLsb' 28 4 = 0 ∨ w.extractLsb' 28 4 = 10 ∨ 13 ≤ (w.extractLsb' 28 4).toNat)) ∨
      (w.extractLsb' 3 7 = 0x5F ∧ w.extractLsb' 28 2 = 0) ∨
      (w.extractLsb' 3 7 = 0x1D ∧ w.getLsbD 1) ∨
      (w.getLsbD 0 ∧ w.extractLsb' 10 3 = 0 ∧ w.getLsbD 13)) →
    ∀ i, decodeWords (w :: rest) ≠ .ok i

/-! ### Fetching, issuing and stepping -/

/-- A step runs the decoded instruction. Where nothing from outside is due, it is the turn of the contexts, `c` is the first
core due, its hamlet is neither fenced nor shut down, and `k` is the first context of it in the selector's order that may issue
and no gang leader, nothing holding it: the step is `exec` of the context's next instruction, in the state in which it is
fetched after the earlier results have come one issue nearer (and a handler run has begun to count its budget), followed by the
selector's pointer and the turn; the instruction is one that does not find its wait unmet. Where a Deadline Save's notice is due
and the instruction raises no trap of its own, the step takes cause 0x13 before it (19 R449). What stands before the contexts in
a step, the turns of the cores and the moment of the notice are the model's choices and readings (log entries 5 and 54). -/
def Obligations.StepRunsInstruction : Prop :=
  ∀ (s u t : State) (c k : Nat) (cs before after : List Nat) (i : Instr),
    let r : State := { s.later with phase := 1 }
    s.inputs = [] → s.phase = 0 → s.stopped = false →
    r.coreOrder = c :: cs → (r.ham (hamOf c)).fenced = false → (r.ham (hamOf c)).shut = false →
    order (r.core c).ptr = before ++ k :: after → (∀ j ∈ before, r.mayIssue c j = false) →
    r.mayIssue c k = true → (r.ctx c k).leads = false → (r.ctx c k).hold = .none → (r.ctx c k).acqAfter = none →
    (r.as c k).ready.nextInstr = .instr i u →
    let after := fun (t : State) => step s = .next { t.setCore c { t.core c with ptr := k } with turn := c + 1 }
    ((u.me.strand.map Strand.notice).getD false = false → exec i u = .next t → (t.ctx c k).hold ≠ .wait → after t) ∧
    (∀ d, u.me.strand = some d → d.notice = true → u.me.handling = false →
      let q := u.setMe { u.me with strand := some { d with notice := false } }
      exec i q = .next t → (t.ctx u.curCore u.curCtx).handling = false → (t.ctx u.curCore u.curCtx).status ≠ .stopped →
      let e := q.enterTrap true false 0x13 0 u.me.faultPc
      (e.ctx c k).hold ≠ .wait → after e)

/-- The package as reset leaves it: every context IDLE with no strand, TRAPCAUSE 0, every predicate and register row zero
(log entry 2), every token set, every named count zero; no hamlet fenced; no launch, no command taken (02 R28, 12 R344, 13
R373). The values of the rows, predicates and tokens and of memory are the model's own choice (log entries 2, 3 and 4). -/
def Obligations.ResetState : Prop :=
  (∀ c k, (State.reset.ctx c k).status = .idle ∧ (State.reset.ctx c k).strand = none ∧
      (State.reset.ctx c k).trapcause = 0 ∧ (State.reset.ctx c k).results = [] ∧
      (∀ n, look 0 (State.reset.ctx c k).store n = 0) ∧ (∀ n, n ≠ 0 → (State.reset.ctx c k).pred n = 0) ∧
      (State.reset.ctx c k).tokens = 0xFF ∧ (∀ n, (State.reset.ctx c k).count n = 0)) ∧
  (∀ c, (State.reset.core c).ready = [] ∧ (State.reset.core c).mill.owned = false) ∧
  (∀ h, (State.reset.ham h).fenced = false ∧ (State.reset.ham h).seq = none) ∧
  State.reset.launches = [] ∧ State.reset.hub.cmdPos = 0 ∧ State.reset.hub.booted = false ∧
  Memory.wf State.reset.mem = true ∧ (∀ a, memGet State.reset.mem a = 0)

/-- Four bytes at a resolved place are the instruction word there, little-endian (00 R5, 07 R168), unless its line is listed as
bad: of the own hamlet's storage; of global memory, at its home where the hamlet holds no copy of the line (of a page of device
type in any case), and from the copy where it holds one with these bytes. Words fetched one after the other that decode to an
instruction are fetched as that instruction (18 R417 stages 1 and 2): one, three or five of them, as bits [1:0] of the first say
(07 R168). Outside a REP body the next instruction is the one fetched at the pc (07 R168). -/
def Obligations.FetchReadsProgram : Prop :=
  (∀ (s t : State) (va : Word) (pa : Nat) (b0 b1 b2 b3 : Byte),
     pa % 64 ≤ 60 → t.listedLine (pa / 64 * 64) = false → t.homeRead pa 4 = [b0, b1, b2, b3] →
     (s.resolve va .exec = .ok (.near pa, t) → s.fetchWord va = .ok (b3 ++ b2 ++ b1 ++ b0, t)) ∧
     (∀ dev, s.resolve va .exec = .ok (.global pa dev, t) → (t.region pa).global = true → t.cxlStuck (pa / 64 * 64) = false →
       (dev = true ∨ find (t.ham (hamOf t.curCore)).lines (pa / 64 * 64) = none ∧ (t.ham (hamOf t.curCore)).winLines = []) →
       s.fetchWord va = .ok (b3 ++ b2 ++ b1 ++ b0, t))) ∧
  (∀ (s t : State) (va : Word) (pa : Nat) (l : Line),
     s.resolve va .exec = .ok (.global pa false, t) → pa % 64 ≤ 60 →
     find (t.ham (hamOf t.curCore)).lines (pa / 64 * 64) = some l → ones 64 4 (pa % 64) &&& ~~~ l.valid = 0 →
     (l.bad = false ∨ ones 64 4 (pa % 64) &&& ~~~ l.dirty = 0) →
     s.fetchWord va = .ok (l.data.extractLsb' (8 * (pa % 64)) 32, t)) ∧
  (∀ (s t : State) (va : Word) (w : BitVec 32) (ws : List (BitVec 32)) (i : Instr),
     s.fetchWord va = .ok (w, t) →
     ws.length + 1 = wordsOfLen (w.extractLsb' 0 2) →
     t.fetchMore (va + 4) ws.length = .ok (ws, t) →
     decodeWords (w :: ws) = .ok i →
     s.fetchAt va = .instr i t) ∧
  (∀ (s : State), s.me.repOn = false → s.nextInstr = s.fetchAt s.me.pc)


/-! ### Results, waits and predicates -/

/-- A result of variable latency is not read before its hold ends: however many instructions issue, rows read as before;
a context behind a switch marker may not issue until the data have returned, and at the end of the hold the result
commits (07 R190). -/
def Obligations.VariableLatencyCommits : Prop :=
  ∀ (s : State) (c : Cell) (ws : List (Nat × Nat)) (k : Nat), s.me.results = [] →
    let r : Result := { due := .var ws, cells := [c], flags := 0 }
    (∀ n, (State.tick^[k] (s.push r)).row n = s.row n) ∧
    (s.me.hold = .switch → ws ≠ [] → (s.push r).mayIssue s.curCore s.curCtx = false) ∧
    (s.me.hold = .switch → s.me.acqAfter = none → ws = [] →
      (s.push r).unhold.me.results = [] ∧ (s.push r).unhold.me.hold = .none ∧
      ∀ n, (s.push r).unhold.row n = (s.writeCell c).row n)

/-- A commit does not write what a later instruction has already written by its own commit: the younger result's bits stand
when it commits first, and the older one then writes the bits that the younger did not (07 R191). The reserved bits of
MIRRORS stay zero (07 R182, 00 R10). -/
def Obligations.YoungerResultStands : Prop :=
  ∀ (s : State) (n : Nat) (ca cb : Cell), s.me.results = [] → ca.tgt = .row n → cb.tgt = .row n →
    let u := (((s.push (varResult [ca])).push (fixedResult 0 [cb])).tick).commitVar
    u.me.results = [] ∧ ∀ i, (u.row n).getLsbD i =
      if n = 11 ∧ mirrorRsv.getLsbD i then false
      else if cb.mask.getLsbD i then cb.data.getLsbD i else if ca.mask.getLsbD i then ca.data.getLsbD i
      else (s.row n).getLsbD i

/-- p0 reads as all ones, and no result is written to it (07 R173). An instruction whose predicate's bit 0 is false retires with
no effect but its waits, and checks no operand (07 R173): for every encoded instruction but the lane-wise ones and a REP that is
taken up again. -/
def Obligations.PredicatedOff : Prop :=
  (∀ (x : Ctx) (mask v : Word), x.pred 0 = BitVec.allOnes 64 ∧ cellPred 0 mask v = []) ∧
  (∀ (s : State) (i : Instr) (o : Ops), opsOf i = some o → bitGoverned i = true → s.me.repOn = false →
     s.waitsDone o = true → (s.entered o).active o = false →
     ∃ t, exec i s = .next t ∧ Retires (s.entered o) t o [])

/-- An instruction whose count wait or token wait is not over does not issue: its context holds and nothing else changes
(07 R171, 06 R161). A seventeenth outstanding result waits: an instruction that makes one while 16 are outstanding holds until all have
returned, and then acts in the state in which they have committed (07 R192). -/
def Obligations.WaitsHold : Prop :=
  (∀ (s : State) (i : Instr) (o : Ops) (c : Ctl), opsOf i = some o → o.ext = some c → bitGoverned i = true →
     s.me.repOn = false → s.me.waitsOver c = false → exec i s = .next s.stall) ∧
  (∀ (s : State) (i : Instr), makesVar i = true → 16 ≤ s.me.outstanding →
     (s.me.returned = false → s.roomFor i = none) ∧ (s.me.returned = true → s.roomFor i = some s.commitVar))

/-- A result of fixed latency L commits immediately before the L-th following issue of its context: up to then every row
reads as before it, and then as the cells write it (07 R189). What a cell writes: the bits of its mask in the row that it names,
and nothing of another row (07 R179); the reserved bits of MIRRORS, in row 11, then read zero (07 R182, 00 R10). -/
def Obligations.FixedLatencyCommits : Prop :=
  (∀ (s : State) (c : Cell) (lat k : Nat), s.me.results = [] → 1 ≤ lat → k ≤ lat →
     let t := State.tick^[k] (s.fixed lat [c])
     (k < lat → ∀ n, t.row n = s.row n ∧ t.me.pred n = s.me.pred n) ∧
     (k = lat → t.me.results = [] ∧ ∀ n, t.row n = (s.writeCell c).row n ∧ t.me.pred n = (s.writeCell c).me.pred n)) ∧
  (∀ (s : State) (c : Cell) (n : Nat), c.tgt = .row n → ∀ (m i : Nat),
     ((s.writeCell c).row m).getLsbD i =
       if m = n ∧ n = 11 ∧ mirrorRsv.getLsbD i then false
       else if m = n ∧ c.mask.getLsbD i then c.data.getLsbD i else (s.row m).getLsbD i)


/-! ### Traps -/

/-- A trap while the context handles one, that is direct, on the handler context or in a gang escalates: the trap registers are
filled, the context stops with its strand, and an escalation with the core, the context and the three trap registers enters the
inbox of the die's reeve core (17 R410). A handler run ends at once: a message of the own package that asked for a reply gets one
of 64 bytes of 0xFF, and on the reeve core's own handler context disposition 1 comes due with no run (19 R443). -/
def Obligations.TrapEscalates : Prop :=
  ∀ (s : State) (direct : Bool) (cause : BitVec 6) (info pc : Word), s.me.returned = true → cause ≠ 0x13 →
    (s.me.handling = true ∨ direct = true ∨ s.onHandler = true ∨ s.me.inGang = true) →
    let t := s.enterTrap false direct cause info pc
    let r := s.reeve (s.curCore / 512)
    (direct = false → s.trap cause info pc = t) ∧
    t.me.status = .stopped ∧ t.me.trappc = pc ∧ t.me.trapinfo = info ∧ t.me.trapcause.setWidth 6 = cause ∧
      t.me.strand = s.me.strand ∧ t.me.priv = s.me.priv ∧ t.me.run = none ∧
      (¬(r = s.curCore ∧ s.curCtx = 4) →
        ∃ run, (t.core r).inbox = (s.core r).inbox ++ [run] ∧ run.kind = .escalation ∧ run.core = s.curCore ∧
          run.ctx = s.curCtx ∧ run.entry = (s.core r).reevevec ∧
          run.payload = rowOfWords [s.corenum s.curCore, BitVec.ofNat 64 s.curCtx, t.me.trapcause, pc, info,
            s.seqOf s.curCore]) ∧
      (r = s.curCore → s.curCtx = 4 → .disposition (Fin.ofNat 2048 s.curCore) 4 1 ∈ t.agenda) ∧
      (∀ q m, s.me.run = some q → q.kind = .message → q.pkg = s.pkgid → s.flight.find? (fun (n : Msg) => n.id = q.msg) = some m →
        m.tag.isSome → t.flight.find? (fun (n : Msg) => n.id = q.msg) =
          some { m with applied := true, body := .reply (BitVec.allOnes 512) 0 })

/-- RTE at device-runtime privilege or above, with `valid` 1 and a `prev` no higher: execution goes on at TRAPPC at the
privilege of `prev`, `valid` clears, and every other field of the context but the hold, and the cycle from which a save deadline
counts on (17 R407), stays; a pre-emption request held meanwhile is taken there: that it waited is log entry 57, and that RTE saves
under the map in force log entry 111. With `valid` 0 it raises Illegal Instruction; else, in kernel code or with a higher `prev`,
Privileged Instruction (12 R343, 17 R409). -/
def Obligations.ReturnFromTrap : Prop :=
  ∀ (s : State) (o : Ops), s.goes (.rte o) o = true → (s.entered o).me.returned = true →
    let u := s.entered o
    let p := Priv.ofCode (fld u.me.trapcause 11 10)
    (u.me.priv ≠ .kernel → u.me.handling = true → p.code ≤ u.me.priv.code →
      ∃ t, exec (.rte o) s = .next t ∧ t.me.priv = p ∧ t.me.handling = false ∧
        (∀ i, i ≠ 12 → t.me.trapcause.getLsbD i = u.me.trapcause.getLsbD i) ∧ t.mem = u.mem ∧
        (u.me.preempt = false → t.me.pc = u.me.trappc ∧
          t.me = { u.me with pc := t.me.pc, priv := t.me.priv, trapcause := t.me.trapcause, hold := t.me.hold,
                             since := t.me.since }) ∧
        (u.me.preempt = true → u.me.strand.isSome → u.me.inGang = false → u.me.wordDue = false → u.me.rep = none →
          t.me.status = .saving ∧ t.me.pc = u.me.trappc ∧ t.me.preempt = false ∧
            (t.me.parking.map fun q => (q.save, q.whole)) = some (true, false))) ∧
    (u.me.handling = false → exec (.rte o) s = .next (u.trap 0x01 (baseInfo (.rte o)) u.me.faultPc)) ∧
    (u.me.handling = true → u.me.priv = .kernel ∨ u.me.priv.code < p.code →
      exec (.rte o) s = .next (u.trap 0x02 (baseInfo (.rte o)) u.me.faultPc))

/-- A trap on a task context that handles none takes effect as 17 R407 says: every outstanding result commits; TRAPCAUSE takes
valid, the privilege, the context, the notice bit and the cause; TRAPPC and TRAPINFO are written; the privilege becomes
device runtime and the pc TRAPVEC, whose 57 bits are sign-extended (log entry 19); the hamlet's trap flag is set; memory, tokens, counts,
TRAPVEC and TBLROOT stay. A trap waits for a result that has not returned: its context holds and nothing else changes (07 R193). -/
def Obligations.TrapEntry : Prop :=
  (∀ (s : State) (cause : BitVec 6) (info pc : Word), s.me.returned = true → cause ≠ 0x13 → s.curCtx < 4 →
     s.me.handling = false → s.me.inGang = false →
     let u := s.commitAll
     let t := s.trap cause info pc
     t.me.results = [] ∧ t.me.trapcause.getLsbD 12 = true ∧ fld t.me.trapcause 11 10 = s.me.priv.code ∧
       fld t.me.trapcause 9 7 = s.curCtx ∧ t.me.trapcause.getLsbD 6 = false ∧ fld t.me.trapcause 63 13 = 0 ∧
       t.me.trapcause.setWidth 6 = cause ∧ t.me.trappc = pc ∧ t.me.trapinfo = info ∧
       t.me.priv = .runtime ∧ t.me.pc = sext57 (s.me.trapvec.setWidth 57) ∧
       t.me.status = s.me.status ∧ t.me.store = u.me.store ∧ t.me.preds = u.me.preds ∧ t.me.tokens = s.me.tokens ∧
       (∀ n, t.me.count n = s.me.count n) ∧ t.me.trapvec = s.me.trapvec ∧ t.me.tblroot = s.me.tblroot ∧
       (t.ham (hamOf s.curCore)).marks.trap = true ∧ t.mem = s.mem) ∧
  (∀ (s : State) (cause : BitVec 6) (info pc : Word), s.me.returned = false → s.trap cause info pc = s.stall)

/-- TRAP raises cause 0x12 with its number in TRAPINFO and the address of the next instruction in TRAPPC (12 R342). A word that
is no instruction raises Illegal Instruction with the word in TRAPINFO, at its own address (18 R421). -/
def Obligations.TrapInstruction : Prop :=
  (∀ (s : State) (o : Ops), s.goes (.trap o) o = true → (s.entered o).me.returned = true →
     exec (.trap o) s = .next ((s.entered o).trap 0x12 ((number12 o o.a).setWidth 64)
       ((s.entered o).me.pc + BitVec.ofNat 64 o.bytes))) ∧
  (∀ (s : State) (base : BitVec 32),
     exec (.unassignedEncoding base) s = .next (s.trap 0x01 (base.setWidth 64) s.me.faultPc))

/-- SYSRD reads the control registers of R346 and SYSWR writes them: a read is a result of latency 2 into sd; FPSTATUS takes the
flags, TRAPPC and TRAPINFO all bits, TRAPCAUSE `valid` and a `prev` that is not 0b11, TRAPVEC an address, and what a write does
not take stays (12 R344 to R346, 17 R407). TLBINV, in each of its three forms, at device-runtime privilege or above and with no
access on its way through a removed entry: no TLB of the package holds an entry of the page, of the space or at all; kernel code
raises Privileged Instruction (12 R347). -/
def Obligations.ControlRegisters : Prop :=
  ((∀ (s : State) (o : Ops), s.goes (.sysrd o) o = true →
     let u := s.entered o
     let r := (number12 o o.a).toNat
     (0x020 ≤ r → u.me.priv = .kernel → exec (.sysrd o) s = .next (u.trap 0x02 (sysInfo (.sysrd o) r) u.me.faultPc)) ∧
     ((r < 0x020 ∨ u.me.priv ≠ .kernel) → u.locsFault [scLoc o o.d] = none →
       ∃ t, exec (.sysrd o) s = .next t ∧ Retires u t o [fixedResult 2 (intoD o (u.sysreg r))])) ∧
   (∀ s : State, s.sysreg 0x000 = s.me.fpstatus ∧ s.sysreg 0x004 = s.corenum s.curCore ∧ s.sysreg 0x006 = s.cycle ∧
       s.sysreg 0x020 = s.me.trapcause ∧ s.sysreg 0x021 = s.me.trappc ∧ s.sysreg 0x022 = s.me.trapinfo ∧
       s.sysreg 0x030 = s.me.tblroot ∧ s.sysreg 0x033 = s.me.trapvec ∧ s.sysreg 0x013 = s.myCore.mill.millst) ∧
   (∀ (s : State) (o : Ops), s.goes (.syswr o) o = true →
     let u := s.entered o
     let r := (number12 o o.d).toNat
     (sysReadOnly r = true ∨ (0x020 ≤ r ∧ u.me.priv = .kernel) ∨ (r = 0x034 ∧ u.me.priv ≠ .firmware) →
       exec (.syswr o) s = .next (u.trap 0x02 (sysInfo (.syswr o) r) u.me.faultPc)) ∧
     (sysReadOnly r = false → (r < 0x020 ∨ u.me.priv ≠ .kernel) → (r ≠ 0x034 ∨ u.me.priv = .firmware) →
       u.locsFault [scLoc o o.a] = none →
       ∃ t, exec (.syswr o) s = .next t ∧ Retires (u.setSysreg r (u.scOp o o.a)) t o [])) ∧
   (∀ (s : State) (v : Word),
     ((s.setSysreg 0x020 v).me.trapcause.getLsbD 12 = v.getLsbD 12 ∧
       fld (s.setSysreg 0x020 v).me.trapcause 11 10 =
         (if fld v 11 10 = 3 then fld s.me.trapcause 11 10 else fld v 11 10) ∧
       (s.setSysreg 0x020 v).me.trapcause.setWidth 10 = s.me.trapcause.setWidth 10) ∧
     (s.setSysreg 0x021 v).me.trappc = v ∧ (s.setSysreg 0x022 v).me.trapinfo = v ∧
     (s.setSysreg 0x033 v).me.trapvec.setWidth 57 = v.setWidth 57 ∧
     (s.setSysreg 0x000 v).me.fpstatus.setWidth 6 = v.setWidth 6)) ∧
  (∀ (s : State) (o : Ops) (i : Instr) (gone : Tlb → Bool),
     let u := s.entered o
     ((i = .tlbinv o ∧ gone = fun (e : Tlb) => e.covers (u.me.tblroot.extractLsb' 52 12) ((u.scOp o o.a).toNat % 2 ^ 57)) ∨
       (i = .tlbinvSpace o ∧ gone = fun (e : Tlb) => decide (e.space = (u.scOp o o.a).setWidth 12)) ∨
       (i = .tlbinvAll o ∧ gone = fun _ => true)) →
     s.goes i o = true →
     (u.me.priv = .kernel → exec i s = .next (u.trap 0x02 (baseInfo i) u.me.faultPc)) ∧
     (u.me.priv ≠ .kernel → (i ≠ .tlbinvAll o → u.locsFault [scLoc o o.a] = none) → u.travelling gone = false →
       ∃ t, exec i s = .next t ∧ Retires (u.dropTlb gone) t o [] ∧ t.mem = u.mem ∧ (∀ e ∈ t.allTlb, gone e = false) ∧
         ∀ e ∈ u.allTlb, gone e = false → e ∈ t.allTlb))


/-! ### Scalar integer and floating-point instructions -/

/-- What ADD to MAX compute, in bit-vector terms: sums, products and their upper halves, quotients truncated toward zero with
all ones for a zero divisor, remainders with the dividend for a zero divisor, bitwise operations, shifts and a rotation by y
mod w, minima and maxima, on the low w bits of the operands and extended by the type's sign (08 R198, R203). -/
def Obligations.AluValues : Prop :=
  ∀ (f : AluFn) (t : ITy) (x y : Word), alu f t x y = aluSpec f (ityWidth t) (itySigned t) x y

/-- ADD to MAX put the result of R203, extended as R198 says, into sd after the latency of R177, and leave everything else: for
each of the fifteen opcodes, each type, and b from a register or as an immediate; a zero divisor is no trap. An operand outside the
register store of its context faults before anything is written: View Bounds with the first byte outside (18 R424), of the first
such operand in the order a, b, d (log entry 14). -/
def Obligations.AluCompletes : Prop :=
  (∀ (s : State) (f : AluFn) (o : Ops) (imm : Bool) (t : ITy), s.goes (aluInstr f o imm t) o = true →
     let u := s.entered o
     u.locsFault (aluLocs o imm) = none →
     ∃ v, exec (aluInstr f o imm t) s = .next v ∧
       Retires u v o [fixedResult (aluLat f t)
         (intoD o (aluSpec f (ityWidth t) (itySigned t) (u.scOp o o.a) (u.bOp o imm)))]) ∧
  (∀ (s : State) (f : AluFn) (o : Ops) (imm : Bool) (t : ITy) (c : BitVec 6) (info : Word),
     s.goes (aluInstr f o imm t) o = true → (s.entered o).locsFault (aluLocs o imm) = some (c, info) →
     exec (aluInstr f o imm t) s = .next ((s.entered o).trap c info (s.entered o).me.faultPc))

/-- FADD, FMUL, FFMA, FDIV, FMINMAX and FCMP: the value of R208 rounded once to the type's format under the mode of R104, with
its flags, into sd after the latency of R177; FMINMAX's code and FCMP's predicate with theirs (08 R202, R208, R209). Rounding to
.f64, .f32, .f16 or .bf16 in every mode: a finite value of the format is its own rounding and raises no flag; a NaN gives the
format's default NaN and an infinity stays, without a flag (04 R93, R104, R107). -/
def Obligations.FloatCompletes : Prop :=
  (∀ (s : State) (o : Ops) (t : FTy),
     let u := s.entered o
     let m := u.modeOf o
     let x := ftyVal t (u.scOp o o.a)
     let y := ftyVal t (u.bLit o)
     let z := ftyVal t (u.scOp o o.d)
     let into := fun (lat : Nat) (r : Nat × Flags) => fixedResult lat [cellAt (scAddr o o.d) 8 r.1] r.2
     (∀ sub, s.goes (.fadd o t sub) o = true → u.locsFault (litLocs o) = none →
       ∃ v, exec (.fadd o t sub) s = .next v ∧
         Retires u v o [into 4 ((ftyFmt t).finish m (addVal m x (if sub then y.neg else y)))]) ∧
     (s.goes (.fmul o t) o = true → u.locsFault (litLocs o) = none →
       ∃ v, exec (.fmul o t) s = .next v ∧ Retires u v o [into 4 ((ftyFmt t).finish m (mulVal x y))]) ∧
     (∀ f, s.goes (.ffma o t f) o = true → u.locsFault (litLocs o) = none →
       ∃ v, exec (.ffma o t f) s = .next v ∧ Retires u v o [into 4 ((ftyFmt t).finish m (fmaVal m f x y z))]) ∧
     (s.goes (.fdiv o t false) o = true → u.locsFault (litLocs o) = none →
       ∃ v, exec (.fdiv o t false) s = .next v ∧
         Retires u v o [into (if t = .f64 then 26 else 14) ((ftyFmt t).finish m (divVal x y))]) ∧
     (s.goes (.fdiv o t true) o = true → u.locsFault [scLoc o o.a, scLoc o o.d] = none →
       ∃ v, exec (.fdiv o t true) s = .next v ∧
         Retires u v o [into (if t = .f64 then 26 else 14) ((ftyFmt t).finish m (sqrtVal x))]) ∧
     (∀ mx, s.goes (.fminmax o t mx) o = true → u.locsFault (litLocs o) = none →
       ∃ v, exec (.fminmax o t mx) s = .next v ∧ Retires u v o [into 2 (minmaxCode (ftyFmt t) mx
         ((u.scOp o o.a).toNat % 2 ^ (ftyFmt t).width) ((u.bLit o).toNat % 2 ^ (ftyFmt t).width))]) ∧
     (∀ r, s.goes (.fcmp o t r) o = true →
       u.locsFault ([scLoc o o.a] ++ (if o.lit.isSome then [] else [scLoc o o.b])) = none →
       let c := relFloat (frelOf r) x y
       ∃ v, exec (.fcmp o t r) s = .next v ∧
         Retires u v o [fixedResult 2 (intoP o (if c.1 then BitVec.allOnes 64 else 0)) c.2])) ∧
  (∀ (t : FTy) (m : Mode) (x code : Nat), code < 2 ^ (ftyFmt t).width →
     let f := ftyFmt t
     (∀ n k e, f.decode code = .fin n k e → f.round m x (f.decode code) = (code, 0)) ∧
     (∀ n, f.decode code = .inf n → f.round m x (f.decode code) = (code, 0)) ∧
     (∀ q, f.decode code = .nan q → some (f.round m x (f.decode code)) = f.defaultNaN.map fun c => (c, 0)))

/-- CMP, SEL, BITS, MOVI, LEA and PSET: the predicate or scalar that each writes, with latency 1 (08 R204 to R207, R215). What
BITS computes: the number of set bits, the zero bits above the highest and below the lowest set bit, the bits and the bytes in
reverse order (08 R206). -/
def Obligations.ScalarMovesComplete : Prop :=
  (∀ (s : State) (o : Ops),
     let u := s.entered o
     (∀ imm cc, s.goes (.cmp o imm cc) o = true →
       u.locsFault ([scLoc o o.a] ++ (if imm then [] else [scLoc o o.b])) = none →
       ∃ v, exec (.cmp o imm cc) s = .next v ∧ Retires u v o [fixedResult 1 (intoP o
         (if (match cc with
             | .eq => u.scOp o o.a == u.bOp o imm
             | .ne => u.scOp o o.a != u.bOp o imm
             | .lt => (u.scOp o o.a).slt (u.bOp o imm)
             | .ge => !(u.scOp o o.a).slt (u.bOp o imm)
             | .ltu => (u.scOp o o.a).ult (u.bOp o imm)
             | .geu => !(u.scOp o o.a).ult (u.bOp o imm)
             | .tst => (u.scOp o o.a &&& u.bOp o imm) != 0) then BitVec.allOnes 64 else 0))]) ∧
     (∀ imm p, s.goes (.sel o imm p) o = true → u.locsFault (aluLocs o imm) = none →
       ∃ v, exec (.sel o imm p) s = .next v ∧ Retires u v o [fixedResult 1 (intoD o
         (if (u.me.pred p.toNat).getLsbD 0 then u.scOp o o.a else u.bOp o imm))]) ∧
     (∀ f, s.goes (.bits o f) o = true → u.locsFault [scLoc o o.a, scLoc o o.d] = none →
       ∃ v, exec (.bits o f) s = .next v ∧ Retires u v o [fixedResult 1 (intoD o (bitsOp f (u.scOp o o.a)))]) ∧
     (s.goes (.movi o) o = true → u.locsFault [scLoc o o.d] = none →
       ∃ v, exec (.movi o) s = .next v ∧ Retires u v o [fixedResult 1 (intoD o (immOf o))]) ∧
     (∀ imm k, s.goes (.lea o imm k) o = true → u.locsFault (aluLocs o imm) = none →
       ∃ v, exec (.lea o imm k) s = .next v ∧
         Retires u v o [fixedResult 1 (intoD o (u.scOp o o.a + u.bOp o imm * BitVec.ofNat 64 (2 ^ k.toNat)))]) ∧
     (∀ f, f ≠ .mov → f ≠ .get → s.goes (.pset o f) o = true →
       ∃ v, exec (.pset o f) s = .next v ∧ Retires u v o [fixedResult 1 (intoP o
         (psetOp f (u.me.pred o.a.toNat) (u.me.pred o.b.toNat)))]) ∧
     (s.goes (.pset o .mov) o = true → u.locsFault [scLoc o o.a] = none →
       ∃ v, exec (.pset o .mov) s = .next v ∧ Retires u v o [fixedResult 1 (intoP o (u.scOp o o.a))]) ∧
     (s.goes (.pset o .get) o = true → u.locsFault [scLoc o o.d] = none →
       ∃ v, exec (.pset o .get) s = .next v ∧ Retires u v o [fixedResult 1 (intoD o (u.me.pred o.a.toNat))])) ∧
  (∀ x : Word,
     (bitsOp .pop x).toNat = ((List.range 64).filter fun i => x.getLsbD i).length ∧
     (x = 0 → bitsOp .clz x = 64 ∧ bitsOp .ctz x = 64) ∧
     (∀ n, x.getLsbD n = true → (∀ i, n < i → x.getLsbD i = false) → bitsOp .clz x = BitVec.ofNat 64 (63 - n)) ∧
     (∀ n, x.getLsbD n = true → (∀ i, i < n → x.getLsbD i = false) → bitsOp .ctz x = BitVec.ofNat 64 n) ∧
     (∀ i, i < 64 → (bitsOp .brev x).getLsbD i = x.getLsbD (63 - i)) ∧
     (∀ i, i < 8 → (bitsOp .bswap x).extractLsb' (8 * i) 8 = x.extractLsb' (8 * (7 - i)) 8))


/-! ### Control instructions -/

/-- BR, JMP, CALL and RET go where 08 R210 and R211 say: a relative target is the instruction's address plus four times the signed
offset of its two fields, a register or literal target is taken as it stands unless its bits [1:0] are not zero, which
raises Misaligned Access with it; CALL leaves the address after it in its link with latency 1; a follower of a gang leaves
the program counter, and so the check of a target, to its leader (02 R41). -/
def Obligations.JumpsComplete : Prop :=
  ∀ (s : State) (o : Ops),
    let u := s.entered o
    let rel := fun (hi lo : BitVec 16) => u.me.pc + 4 *
      (if o.long then (hi ++ lo : BitVec 32).signExtend 64
       else ((hi.setWidth 6 : BitVec 6) ++ (lo.setWidth 6 : BitVec 6) : BitVec 12).signExtend 64)
    let link := [fixedResult 1 (intoD o (u.me.pc + BitVec.ofNat 64 o.bytes))]
    let goesTo := fun (i : Instr) (rs : List Result) (target : Option Word) =>
      ∃ v, exec i s = .next v ∧ Retires u v o rs (if u.me.follows then none else target)
    let jumps := fun (i : Instr) (rs : List Result) (target : Word) =>
      (target &&& 3 = 0 ∨ u.me.follows = true → goesTo i rs (some target)) ∧
      (target &&& 3 ≠ 0 → u.me.follows = false → exec i s = .next (u.trap 0x03 target u.me.faultPc))
    (∀ n, s.goes (.br o n) o = true →
      goesTo (.br o n) [] (if (u.me.pred o.a.toNat).getLsbD 0 != n then some (rel o.b o.d) else none)) ∧
    (s.goes (.jmp o) o = true → (o.lit = none → goesTo (.jmp o) [] (some (rel o.b o.d))) ∧
      ∀ l, o.lit = some l → jumps (.jmp o) [] l) ∧
    (∀ i, i = .jmpReg o ∨ i = .ret o → s.goes i o = true → u.locsFault [scLoc o o.a] = none →
      jumps i [] (u.scOp o o.a)) ∧
    (s.goes (.call o) o = true → u.locsFault [scLoc o o.d] = none →
      (o.lit = none → goesTo (.call o) link (some (rel o.b o.a))) ∧
      ∀ l, o.lit = some l → jumps (.call o) link l) ∧
    (s.goes (.callReg o) o = true → u.locsFault [scLoc o o.a, scLoc o o.d] = none →
      jumps (.callReg o) link (u.scOp o o.a))

/-- NOP and YIELD change nothing but the program counter (12 R342, R348). SAFEPT does the same on the handler context and on
a follower; elsewhere, with its address 64-byte aligned in the own hamlet's storage and no pre-emption waiting, the 64
bytes there come into force as the live map; a misaligned address raises Misaligned Access (08 R214). -/
def Obligations.NopYieldSafept : Prop :=
  ∀ (s t : State) (o : Ops) (pa : Nat),
    let u := s.entered o
    let ea := match o.lit with | some l => l | none => u.ea o 64
    (s.goes (.nop o) o = true → ∃ v, exec (.nop o) s = .next v ∧ Retires u v o []) ∧
    (s.goes (.yield o) o = true → ∃ v, exec (.yield o) s = .next v ∧ Retires u v o []) ∧
    (s.goes (.safept o) o = true → u.onHandler = true ∨ u.me.follows = true →
      ∃ v, exec (.safept o) s = .next v ∧ Retires u v o []) ∧
    (s.goes (.safept o) o = true → u.onHandler = false → u.me.follows = false → u.me.hold ≠ .gang →
      u.locsFault (if o.lit.isSome then [] else [scLoc o o.a]) = none →
      (ea &&& 63 ≠ 0 → exec (.safept o) s = .next (u.trap 0x03 ea u.me.faultPc)) ∧
      (ea &&& 63 = 0 → u.queued ea 64 = none → u.resolve ea .read = .ok (.near pa, t) →
        t.placeBad t.curCore (.near pa) 64 = none → t.mustWait (.near pa) 64 = false →
        let w := t.useMap (BitVec.ofNat 512 (ofBytes (t.homeRead pa 64)))
        w.preemptDue = false → ∃ v, exec (.safept o) s = .next v ∧ Retires w v o []))

/-- REP begins: with its body fetched from the address after it, at most 64 words of instructions that a body may hold, it
executes nothing itself and begins the first pass at the body's first instruction, REPSTATE 0x8000_0000; its count, stride and
mask are those of its fields, and nothing else of the context but its hold changes (07 R187, R188, 08 R212). In pass p a REP
body's extended instruction issues with p × stride × 64 added, modulo 2^16, to every operand field that the mask selects, if the
decoder takes it so; a one-word instruction issues as it stands (07 R187). The order of a REP's passes: after an instruction of
the body that is not its last the next one issues; after the last one the next pass begins at the body's first instruction;
after the last pass execution continues after the body, with REPSTATE 0 (07 R187, R188). -/
def Obligations.RepRuns : Prop :=
  (∀ (s t : State) (o : Ops) (is : List Instr), s.goes (.rep o) o = true → s.me.repOn = false →
     let u := s.entered o
     u.me.follows = false → u.me.repOn = false →
     u.fetchBody (u.me.pc + 12) ((o.a &&& 15).toNat + 1) = .ok (is, t) → t.me.repOn = false →
     is.length = (o.a &&& 15).toNat + 1 → bytesOfBody is ≤ 256 →
     ∃ v, exec (.rep o) s = .next v ∧ v.me.repstate = 0x80000000 ∧ v.me.pc = t.me.pc + 12 ∧
       v.me.rep = some { pc := t.me.pc, after := t.me.pc + BitVec.ofNat 64 (12 + bytesOfBody is),
                         passes := (o.d &&& 0xFFF).toNat + 1, stride := ((o.a >>> 4).setWidth 4 : BitVec 4).signExtend 16,
                         mask := (o.a >>> 8).setWidth 3, body := is } ∧
       v.me = { t.me with rep := v.me.rep, repstate := v.me.repstate, pc := v.me.pc, hold := v.me.hold } ∧ v.mem = t.mem) ∧
  ((∀ (s : State) (r : RepBuf) (i j : Instr) (o : Ops), s.me.rep = some r → s.me.repOn = true →
      r.body[fld s.me.repstate 3 0]? = some i → opsOf i = some o →
      let p := BitVec.ofNat 16 (fld s.me.repstate 15 4)
      let step := fun (x : BitVec 16) (n : Nat) => if o.ext.isSome && r.mask.getLsbD n then x + p * r.stride * 64 else x
      j = withOps i { o with d := step o.d 0, a := step o.a 1, b := step o.b 2 } → legal j = true →
      s.nextInstr = .instr j s) ∧
   (∀ (x : Ctx) (r : RepBuf) (sw : Bool) (n : Nat), x.rep = some r → x.repOn = true →
      let index := fld x.repstate 3 0
      let pass := fld x.repstate 15 4
      let y := x.retire sw n none
      (index + 1 < r.body.length → index < 15 →
        y.pc = x.pc + BitVec.ofNat 64 n ∧ y.rep = some r ∧ fld y.repstate 3 0 = index + 1 ∧
          fld y.repstate 15 4 = pass ∧ y.repOn = true) ∧
      (index + 1 = r.body.length → pass + 1 < r.passes → r.passes ≤ 4096 →
        y.pc = r.pc + 12 ∧ y.rep = some r ∧ fld y.repstate 3 0 = 0 ∧ fld y.repstate 15 4 = pass + 1 ∧ y.repOn = true) ∧
      (index + 1 = r.body.length → pass + 1 = r.passes → y.pc = r.after ∧ y.rep = none ∧ y.repstate = 0)))


/-! ### Memory and its instructions -/

/-- Bytes written at a home are read back there, and every other byte reads as before, whether the line was a zero line, becomes
one, or neither (05 R122, R131): for every backed address that is in no table which the part keeps by itself (05 R130),
within one line that no scale window serves, and outside the records of an overflow area (19 R441). Where the ways of the line's
set are full, another line leaves them and reads as before: for data ways stated where no scale-window line can be the one that
leaves. -/
def Obligations.HomeReadsBack : Prop :=
  ∀ (s : State) (pa a : Nat) (bs : List (Nat × Byte)), Memory.wf s.mem = true → s.region pa ≠ .unbacked → s.region a ≠ .unbacked →
    (∀ h, s.region pa = .commons h → isTable h pa = false) → (∀ h, s.region a = .commons h → isTable h a = false) →
    s.areaOf pa = none → s.areaOf a = none →
    (s.scales = [] ∨ (s.sameSet (pa / 64 * 64) s.ways).length < setWays) →
    s.plainLine pa → s.plainLine a → inLine pa bs →
    (s.homeWrite pa bs).homeRead a 1 =
      match bs.find? fun b => pa + b.1 = a with
      | some b => [b.2]
      | none => s.homeRead a 1

/-- ST within a line: its bytes are written to the place that its address names, after the effects of a release where its order is
one; in storage of the own hamlet they are written to memory at once. A misaligned ordered access raises Misaligned Access (08
R216, 06 R147, R148). A store to another hamlet, to another package, to a page of device type or under the no-L1 policy is posted:
it is a message with these bytes, counted in c1, c2 or c3 (06 R160) and as sent by its hamlet (03 R90); memory stays as it is, but
for the bytes of its line that the hamlet held dirty. -/
def Obligations.StoreCompletes : Prop :=
  (∀ (s w : State) (o : Ops) (t : StTy) (p : Place),
    let n := stBytes t
    let k := if n = 16 then 16 else 8
    let u := s.entered o
    let ea := u.ea o n
    let ord := (ordOf o).1
    let sc := (ordOf o).2
    let wide := ord = 2 && Scope.wide sc
    let bs := offsets (bytesOf n (u.rs (scAddr o o.d) k))
    s.goes (.st o t) o = true → u.locsFault [scLoc o o.a, rsLoc o o.d k] = none →
    (ord ≠ 0 → ea.toNat % n ≠ 0 → exec (.st o t) s = .next (u.trap 0x03 ea u.me.faultPc)) ∧
    ((ord = 0 ∨ ea.toNat % n = 0) → ord ≠ 3 → ea.toNat % 64 + n ≤ 64 →
      (ord = 2 → u.releaseReady sc false = true ∧ ∃ w', u.resolve ea .write = .ok (p, w') ∧ u.fillBad u.curCore p = none) →
      let u' := u.orderedBy ord sc
      u'.queueGone = true → u'.myCore.replay.length ≤ 32 →
      u'.resolve ea .write = .ok (p, w) → u'.fillBad u'.curCore p = none →
      u'.writeStuck { place := p, bytes := bs } (noL1 o) wide = none →
      u'.storeHeld p n (noL1 o) wide = false → u'.countsFull [p] (noL1 o) wide = false →
      ∃ v, exec (.st o t) s = .next v ∧ Retires (w.putPart p bs (noL1 o) wide (streams o)) v o [] ∧
        ∀ pa, p = .near pa → v.mem = (w.homePut pa bs).mem)) ∧
  (∀ (s : State) (p : Place) (bs : List (Nat × Byte)) (post wide st dev : Bool) (pk : BitVec 20) (pa cnt : Nat),
    ((p = .far pa dev ∧ pk = s.pkgid ∧ cnt = 1) ∨ (p = .foreign pk pa dev ∧ (pk ≠ s.pkgid → s.deadPeer pk = false) ∧ cnt = 2) ∨
      (p = .global pa dev ∧ (dev = true ∨ post = true ∧ wide = false) ∧ pk = s.pkgid ∧ cnt = s.postCount pa)) →
    let v := s.putPart p bs post wide st
    let h := hamOf s.curCore
    v.me.count cnt = s.me.count cnt + 1 ∧ (v.ham h).sent = (s.ham h).sent + 1 ∧
      (∃ m, v.flight = s.flight ++ [m] ∧ m.body = .store pa bs false ∧ m.pkg = pk ∧ m.cnt = cnt ∧ m.core = s.curCore ∧
        m.ctx = s.curCtx ∧ m.tag = none ∧ m.applied = false) ∧
      v.mem = (match p with
        | .global _ true => s.giveLine h (pa / 64 * 64)
        | .global _ false => s.backLine h (pa / 64 * 64)
        | _ => s).mem)

/-- ZLINE, PREF, STASH and FLUSH: ZLINE raises Misaligned Access off a line and else acts on the place that its address names: in
the own hamlet's storage it writes 64 zero bytes; in a stash window it stores them in the window's line; of global memory the
hamlet drops its copies and a posted message makes the line a zero line at its home, and on a page of device type it is four posted
stores of 16 zero bytes; another hamlet and another package take one such message. PREF brings a global line into the hamlet and is
dropped where a read could not reach; STASH outside every window does nothing, drops a window line, or fills it; FLUSH writes the
hamlet's dirty bytes of a global line back and, with `.inv`, drops the copy, and raises nothing for an absent page (08 R221 to
R224). -/
def Obligations.LineControlCompletes : Prop :=
  (∀ (s : State) (bs : List (Nat × Byte)) (pa : Nat), bs = offsets (List.replicate 64 0) →
    let h := hamOf s.curCore
    let posts := fun (t : State) (pk : BitVec 20) (cnt : Nat) (bodies : List Body) =>
      t.me.count cnt = s.me.count cnt + BitVec.ofNat 16 bodies.length ∧
        ∃ ms, t.flight = s.flight ++ ms ∧ ms.map Msg.body = bodies ∧
          ∀ m ∈ ms, m.pkg = pk ∧ m.cnt = cnt ∧ m.core = s.curCore ∧ m.ctx = s.curCtx ∧ m.applied = false
    let four := [0, 16, 32, 48].map fun i => Body.store (pa + i) (offsets (List.replicate 16 0)) false
    s.zeroPlace (.near pa) = s.homePut pa bs ∧
      (∀ st d, s.zeroPlace (.window st pa d) = s.writePlace s.curCore (.window st pa d) bs) ∧
      posts (s.zeroPlace (.global pa false)) s.pkgid (s.postCount pa) [.zline pa] ∧
      find ((s.zeroPlace (.global pa false)).ham h).lines pa = none ∧
      posts (s.zeroPlace (.global pa true)) s.pkgid (s.postCount pa) four ∧
      posts (s.zeroPlace (.far pa false)) s.pkgid 1 [.store pa bs false] ∧
      posts (s.zeroPlace (.far pa true)) s.pkgid 1 four ∧
      (∀ pk, pk ≠ s.pkgid → s.deadPeer pk = false → posts (s.zeroPlace (.foreign pk pa false)) pk 2 [.zline pa] ∧
        posts (s.zeroPlace (.foreign pk pa true)) pk 2 four)) ∧
  (∀ (s : State) (line : Nat) (inv : Bool),
    let h := hamOf s.curCore
    let t := s.flushLine h line inv
    (∀ l, find (t.ham h).lines line = some l → l.dirty = 0) ∧ (inv = true → find (t.ham h).lines line = none)) ∧
  ∀ (s w : State) (o : Ops) (pa : Nat) (p : Place),
    let u := s.entered o
    let ea := u.ea o 64
    let line := pa / 64 * 64
    u.locsFault [scLoc o o.a] = none →
    (s.goes (.zline o) o = true →
      (ea.toNat % 64 ≠ 0 → exec (.zline o) s = .next (u.trap 0x03 ea u.me.faultPc)) ∧
      (ea.toNat % 64 = 0 → u.queueGone = true → u.resolve ea .write = .ok (p, w) → w.fillBad w.curCore p = none →
        (∀ st q d, p = .window st q d → w.placeStuck w.curCore p 64 = none) → w.zeroHeld p = false →
        ∃ v, exec (.zline o) s = .next v ∧ Retires (w.zeroPlace p) v o [])) ∧
    (∀ dst, s.goes (.pref o dst) o = true →
      (∀ e, u.resolve (lineVa ea) .read = .error e →
        ∃ v, exec (.pref o dst) s = .next v ∧ Retires (u.noteWalk u.curCore u.me.tblroot (lineVa ea)) v o []) ∧
      (u.resolve (lineVa ea) .read = .ok (p, w) → ∃ v, exec (.pref o dst) s = .next v ∧
        ((w.placeBad w.curCore p 64).isSome ∨ (w.placeStuck w.curCore p 64).isSome → Retires w v o []) ∧
        (w.placeBad w.curCore p 64 = none → w.placeStuck w.curCore p 64 = none →
          (p = .global pa false → (w.region pa).global = true →
            (dst = .l1 → Retires (w.readPlace w.curCore p 64 (!noL1 o) (streams o)).2 v o []) ∧
            (dst = .home → Retires (w.lineIn line) v o [])) ∧
          (∀ st d, p = .window st pa d → dst = .win → Retires (w.fillWindow (hamOf w.curCore) st pa d) v o [])))) ∧
    (∀ drop, s.goes (.stash o drop) o = true → canonical (lineVa ea) = true →
      (winOf u.myHam.windows (lineVa ea) = none → ∃ v, exec (.stash o drop) s = .next v ∧ Retires u v o []) ∧
      (∀ d, winOf u.myHam.windows (lineVa ea) = some d →
        (drop = true → ∃ v, exec (.stash o drop) s = .next v ∧
          Retires (u.dropWindow (hamOf u.curCore) (winStash d (lineVa ea)) d) v o []) ∧
        (∀ st, drop = false → u.resolve (lineVa ea) .read = .ok (.window st pa d, w) →
          w.fillBad w.curCore (.window st pa d) = none → w.placeStuck w.curCore (.window st pa d) 64 = none →
          ∃ v, exec (.stash o drop) s = .next v ∧ Retires (w.fillWindow (hamOf w.curCore) st pa d) v o []))) ∧
    (∀ inv, s.goes (.flush o inv) o = true →
      let r := u.resolveFor u.curCore u.curCtx u.me.tblroot u.me.priv (lineVa ea) .data
      (p = .global pa false ∨ (∃ st d, p = .window st pa d) → r = .ok (p, w) →
        ∃ v, exec (.flush o inv) s = .next v ∧ Retires (w.flushLine (hamOf w.curCore) line inv) v o []) ∧
      (∀ c l va, r = .error (.page c l va) →
        ∃ v, exec (.flush o inv) s = .next v ∧ Retires (u.noteWalk u.curCore u.me.tblroot (lineVa ea)) v o []))

/-- FENCE takes the effects of its kind once what it waits for has come; WAITC retires once its count, or every count, is zero and
holds until then; WAITA retires with the value read once it equals, or differs from, sd as its function asks, and holds
otherwise (08 R225 to R228, 06 R148, R149). -/
def Obligations.OrderingCompletes : Prop :=
  ∀ (s w : State) (o : Ops) (p : Place),
    let u := s.entered o
    let ea := u.ea o 8
    (∀ sc k, s.goes (.fence o sc k) o = true →
      (k = .acq → u.me.returned = true) → (k = .rel ∨ k = .ar → u.releaseReady sc false = true) →
      (k = .sc → u.releaseReady sc true = true) →
      ∃ v, exec (.fence o sc k) s = .next v ∧ Retires (match k with
        | .acq => u.acquire sc
        | .rel => u.release sc
        | .ar | .sc => (u.release sc).acquire sc) v o []) ∧
    (∀ n, s.goes (.waitc o n) o = true →
      let zero := if n = 0 then u.me.c1 = 0 ∧ u.me.c2 = 0 ∧ u.me.c3 = 0 else u.me.count n.toNat = 0
      (zero → ∃ v, exec (.waitc o n) s = .next v ∧ Retires u v o []) ∧
      (¬ zero → exec (.waitc o n) s = .next u.stall)) ∧
    (∀ eq, s.goes (.waita o eq) o = true → u.locsFault [scLoc o o.a, scLoc o o.d] = none →
      (ea.toNat % 8 ≠ 0 → exec (.waita o eq) s = .next (u.trap 0x03 ea u.me.faultPc)) ∧
      (ea.toNat % 8 = 0 → u.queued ea 8 = none → u.resolve ea .read = .ok (p, w) → p.here = true →
        w.placeBad w.curCore p 8 = none → w.placeStuck w.curCore p 8 = none → w.mustWait p 8 = false →
        let r := w.readPlace w.curCore p 8 false
        let x : Word := BitVec.ofNat 64 (ofBytes r.1)
        ((eq = true ↔ x = u.scOp o o.d) → ∃ v, exec (.waita o eq) s = .next v ∧
          Retires r.2 v o [varResult (intoD o x)]) ∧
        (¬ (eq = true ↔ x = u.scOp o o.d) → exec (.waita o eq) s = .next r.2.stall)))

/-- What a release and an acquire do to a hamlet's copies (06 R148): at HAMLET scope or below nothing. At PACKAGE scope and beyond a
release leaves no dirty line in the hamlet's L1s, and the dirty bytes of a line are at their home afterwards (stated where no scale
window and no stash window stands in between); then each line of a stash window that is written back, in its turn, becomes clean and
its dirty bytes are at the home that the launch maps. An acquire leaves of every line its dirty bytes alone (log entry 86,
DEDUCED), in the L1s and in the windows that fill from memory, and no clean line; a line of a window that fills with zeros stays,
and so does memory. -/
def Obligations.ReleaseAndAcquire : Prop :=
  ∀ (s : State) (sc : Scope),
    let x := s.ham (hamOf s.curCore)
    let a := (s.acquire sc).ham (hamOf s.curCore)
    let r := (s.release sc).ham (hamOf s.curCore)
    let fills := fun (key : Nat) => (winAt x.windows (0x3D0000000000 + 64 * key)).map fun d => d.getLsbD 11
    (Scope.wide sc = false → s.release sc = s ∧ s.acquire sc = s) ∧
    (Scope.wide sc = true →
      (∀ line l, find a.lines line = some l → l.dirty ≠ 0 ∧ l.valid = l.dirty) ∧
      (∀ e ∈ x.lines, e.2.dirty ≠ 0 → ∃ y, (e.1, y) ∈ a.lines ∧ y.data = e.2.data ∧ y.dirty = e.2.dirty) ∧
      (∀ key w, find a.winLines key = some w → fills key = some false → w.dirty ≠ 0 ∧ w.valid = w.dirty) ∧
      (∀ e ∈ x.winLines, fills e.1 = some true → e ∈ a.winLines) ∧
      (s.acquire sc).mem = s.mem ∧
      (∀ line l, find r.lines line = some l → l.dirty = 0) ∧
      (let h := hamOf s.curCore
       let t := (x.lines.map Prod.fst).foldl (fun t line => t.writeBack h line) s
       s.release sc = ((t.ham h).winLines.map Prod.fst).foldl (fun t key => t.writeBackWin h key) t ∧
       ∀ key w d pa, find x.winLines key = some w → winAt x.windows (0x3D0000000000 + 64 * key) = some d →
         d.getLsbD 12 = false → w.dirty ≠ 0 → s.windowHome h d (0x3D0000000000 + 64 * key) = some pa →
         let line := pa / 64 * 64
         (s.region line).global = true → s.cxlStuck line = false →
         let v := s.writeBackWin h key
         find (v.ham h).winLines key = some { w with dirty := 0 } ∧
           (s.scales = [] → s.ranges = [] → ∀ i, w.dirty.getLsbD i = true → s.areaOf (line + i) = none →
             v.homeRead (line + i) 1 = [memGet s.mem (0x3D0000000000 + 64 * key + i)])) ∧
      (s.scales = [] → s.ranges = [] → x.winLines = [] → (x.lines.map Prod.fst).Nodup → (∀ e ∈ x.lines, e.1 % 64 = 0) →
        ∀ e ∈ x.lines, ∀ i, e.2.dirty.getLsbD i = true → (s.region e.1).global = true → s.cxlStuck e.1 = false →
          s.areaOf (e.1 + i) = none → (s.release sc).homeRead (e.1 + i) 1 = [e.2.data.extractLsb' (8 * i) 8]))

/-- A hamlet reads what it has written: a store to global memory goes into the hamlet's copy of its line, and the bytes are read back
from the copy (05 R125, 08 R217). What a read of a place gives (05 R125, R126): storage of the own hamlet its bytes at home; of a
line that the hamlet holds the bytes of its copy, which reads again those that an acquire has taken from it; of any other global
line what its home serves, and then, unless the access is no-L1 or the page of device type, the core's L1 holds a clean copy, marked
where the policy is stream. Memory stays while there is room: in the L1 of the core, whose size is the spec's but not its
organisation, and among the data ways of the line's set (log entry 31). -/
def Obligations.PlacesReadAsTheyStand : Prop :=
  (∀ (s : State) (c pa : Nat) (bs : List (Nat × Byte)) (l1 st : Bool), s.region pa ≠ .unbacked → inLine pa bs →
     let line := pa / 64 * 64
     let t := s.writePlace c (.global pa false) bs st
     ((s.inL1 c).length < l1Lines → (s.scales = [] ∨ (s.sameSet line s.ways).length < setWays) →
       (s.ham (hamOf c)).winLines = [] → t.mem = s.mem) ∧
       (∀ l, find (t.ham (hamOf c)).lines line = some l → l.heldBy c = true) ∧
       ∀ i b, (i, b) ∈ bs → (t.readPlace c (.global (pa + i) false) 1 l1 st).1 = [b]) ∧
  (∀ (s : State) (c pa n : Nat) (l1 device st : Bool),
     let h := hamOf c
     let line := pa / 64 * 64
     s.readPlace c (.near pa) n l1 st = (s.homeRead pa n, s) ∧
     (∀ l, find (s.ham h).lines line = some l →
       (ones 64 n (pa % 64) &&& ~~~ l.valid = 0 →
         (s.readPlace c (.global pa false) n l1 st).1 = bytesOf n (l.data.toNat >>> (8 * (pa % 64))) ∧
         (l1 = false ∨ l.heldBy c = true → (s.readPlace c (.global pa false) n l1 st).2 = s)) ∧
       (ones 64 n (pa % 64) &&& ~~~ l.valid ≠ 0 →
         (s.readPlace c (.global pa false) n l1 st).1 =
           bytesOf n ((merge (s.hamletLine h line) l.data (byteMask l.valid)).toNat >>> (8 * (pa % 64))))) ∧
     (device = true ∨ find (s.ham h).lines line = none ∧ (s.ham h).winLines = [] → (s.region pa).global = true →
       pa % 64 + n ≤ 64 →
       let t := (s.readPlace c (.global pa device) n l1 st).2
       (s.readPlace c (.global pa device) n l1 st).1 = s.homeRead pa n ∧
         ((s.inL1 c).length < l1Lines → (s.scales = [] ∨ (s.sameSet line s.ways).length < setWays) → t.mem = s.mem ∧
           find (t.ham h).lines line =
             if l1 && !device then
               some { data := rowOf (s.homeRead line 64), dirty := 0, stream := st, cores := coreBit c }
             else find (s.ham h).lines line)))

/-- LD of a place that needs no message, within a line: the bytes read there go to sd, extended by the type's sign, as a
result of variable latency; an acquire takes its effects. A misaligned ordered access raises Misaligned Access (08 R200, R216,
R217, 06 R147). LD of a place of another hamlet or package: a message asks its home for the bytes, and the result awaits its answer
(05 R123, 06 R160). -/
def Obligations.LoadCompletes : Prop :=
  (∀ (s w : State) (o : Ops) (t : LdTy) (p : Place),
     let n := ldBytes t
     let k := if n = 16 then 16 else 8
     let u := s.entered o
     let ea := u.ea o n
     let ord := (ordOf o).1
     s.goes (.ld o t) o = true → u.locsFault [scLoc o o.a, rsLoc o o.d k] = none →
     (ord ≠ 0 → ea.toNat % n ≠ 0 → exec (.ld o t) s = .next (u.trap 0x03 ea u.me.faultPc)) ∧
     ((ord = 0 ∨ ea.toNat % n = 0) → ea.toNat % 64 + n ≤ 64 → u.queued ea n = none →
       u.resolve ea .read = .ok (p, w) → p.here = true → w.placeBad w.curCore p n = none → w.placeStuck w.curCore p n = none →
       w.mustWait p n = false →
       let r := w.readPlace w.curCore p n (!noL1 o) (streams o)
       let b := ofBytes r.1
       ∃ v, exec (.ld o t) s = .next v ∧
         Retires (if ord = 1 then r.2.acquire (ordOf o).2 else r.2) v o
           [varResult [cellAt (scAddr o o.d) k
             (if ldSigned t then ((BitVec.ofNat (8 * n) b).signExtend 64).toNat else b)]])) ∧
  (∀ (s w : State) (o : Ops) (t : LdTy) (p : Place) (pk : BitVec 20) (pa : Nat) (dev : Bool),
     let n := ldBytes t
     let k := if n = 16 then 16 else 8
     let u := s.entered o
     let ea := u.ea o n
     s.goes (.ld o t) o = true → u.locsFault [scLoc o o.a, rsLoc o o.d k] = none → (ordOf o).1 = 0 →
     ea.toNat % 64 + n ≤ 64 → u.queued ea n = none → u.resolve ea .read = .ok (p, w) →
     (p = .far pa dev ∧ pk = w.pkgid ∨ p = .foreign pk pa dev ∧ w.deadPeer pk = false ∧ w.linkFull pk = false) →
     w.placeBad w.curCore p n = none → (dev = true → w.posting = false) →
     let m := w.send pk 0 true (.load pa n (ldSigned t)) dev
     ∃ v, exec (.ld o t) s = .next v ∧
       Retires m.1 v o [{ due := .var [(m.2, 8 * (scAddr o o.d % 64))], cells := [cellAt (scAddr o o.d) k 0], flags := 0 }] ∧
       v.mem = w.mem ∧ v.flight.map Msg.id = w.flight.map Msg.id ++ [m.2])

/-- The full/empty instructions. LDSYNC of a full word brings it, and `.cons` leaves it empty, and LDSYNC of an empty word parks on
it: in storage of the own hamlet, in a stash window, whose line is filled first, and in another hamlet, at its home; a word of
another package is asked for by a message, whose answer it takes; on the handler context it is illegal. STSYNC stores, sets the word
full and wakes its waiters in one event, and FESET sets the bit, and wakes where it sets it full; to another hamlet and to another
package each is a posted message. A misaligned address raises Misaligned Access in all three (08 R218 to R220). What STSYNC and
FESET do to their word: the word is full, or as FESET says, and no other word's bit changes (05 R129, 08 R219, R220). -/
def Obligations.FullEmptyWordsComplete : Prop :=
  (∀ (s w : State) (o : Ops) (p : Place),
     let u := s.entered o
     let ea := u.ea o 8
     let sc := u.syncScope o
     let pa := match p with | .near pa | .far pa _ | .global pa _ | .foreign _ pa _ => pa | .window st _ _ => st
     (∀ cons, s.goes (.ldsync o cons) o = true →
       let i := Instr.ldsync o cons
       let cond : BitVec 5 := if cons then 0x04 else 0x03
       (u.onHandler = true → exec i s = .next (u.trap 0x01 (baseInfo i) u.me.faultPc)) ∧
       (u.onHandler = false → u.locsFault [scLoc o o.a, scLoc o o.d] = none →
         (ea.toNat % 8 ≠ 0 → exec i s = .next (u.trap 0x03 ea u.me.faultPc)) ∧
         (ea.toNat % 8 = 0 → u.queued ea 8 = none → u.resolve ea .read = .ok (p, w) → w.feWord pa = true →
           w.placeBad w.curCore p 8 = none → w.placeStuck w.curCore p 8 = none →
           (∀ y : State, (p = .near pa ∧ y = w) ∨ (∃ q d, p = .window pa q d ∧ y = w.fillWindow (hamOf w.curCore) pa q d) ∨
               (∃ dev, p = .far pa dev ∧ w.pathBusy (w.homeOf pa) = false ∧ (dev = true → w.posting = false) ∧ y = w.direct pa) →
             (y.isFull pa = true → ∃ v, exec i s = .next v ∧
               Retires ((if cons then y.setFull pa false else y).acquire sc) v o
                 [varResult [cellAt (scAddr o o.d) 8 (ofBytes (y.homeRead pa 8))]] ∧ v.mem = y.mem) ∧
             (y.isFull pa = false → exec i s = .next (y.park cond (wordKey pa)))) ∧
           (∀ pk dev, p = .foreign pk pa dev → (dev = true → w.posting = false) →
             (w.me.dbuf = none → exec i s = .next (w.remoteRead pk (.ldsync pa cons) false)) ∧
             (∀ r, w.me.dbuf = some (farWord pk pa, r) →
               let y := w.setMe { w.me with dbuf := none }
               (r.getLsbD 64 = false → ∃ v, exec i s = .next v ∧
                 Retires (y.acquire sc) v o [varResult [cellAt (scAddr o o.d) 8 (fld r 63 0)]]) ∧
               (r.getLsbD 64 = true → exec i s = .next (y.park cond (farWord pk pa)))))))) ∧
     (s.goes (.stsync o) o = true → u.locsFault [scLoc o o.a, scLoc o o.d] = none →
       let x := u.scOp o o.d
       (ea.toNat % 8 ≠ 0 → exec (.stsync o) s = .next (u.trap 0x03 ea u.me.faultPc)) ∧
       (ea.toNat % 8 = 0 → u.releaseReady sc true = true →
         (∃ w', u.resolve ea .write = .ok (p, w') ∧ w'.feWord pa = true ∧ w'.fillBad w'.curCore p = none) →
         (u.release sc).resolve ea .write = .ok (p, w) → w.feWord pa = true → w.fillBad w.curCore p = none →
         w.placeStuck w.curCore p 8 = none → w.storeHeld p 8 false (Scope.wide sc) = false →
         ∃ v, exec (.stsync o) s = .next v ∧
           (p = .near pa → Retires (w.syncStore pa x) v o []) ∧
           (∀ q d, p = .window pa q d → Scope.wide sc = true →
             Retires ((w.windowHomePut (hamOf w.curCore) pa q d (offsets (bytesOf 8 x.toNat))).syncStore pa x) v o []) ∧
           (∀ dev, p = .far pa dev → Retires (w.send w.pkgid 1 false (.stsync pa x) dev).1 v o []) ∧
           (∀ pk dev, p = .foreign pk pa dev → Retires (w.send pk 2 false (.stsync pa x) dev).1 v o []))) ∧
     (∀ full, s.goes (.feset o full) o = true → u.locsFault [scLoc o o.a] = none →
       (ea.toNat % 8 ≠ 0 → exec (.feset o full) s = .next (u.trap 0x03 ea u.me.faultPc)) ∧
       (ea.toNat % 8 = 0 → u.refusedMeet ea 8 .write = none → u.resolve ea .write = .ok (p, w) → w.feWord pa = true →
         w.fillBad w.curCore p = none → w.placeStuck w.curCore p 8 = none → w.storeHeld p 8 false = false →
         ∃ v, exec (.feset o full) s = .next v ∧
           (p = .near pa → Retires (w.setWord pa full) v o []) ∧
           (∀ q d, p = .window pa q d → Retires ((w.fillWindow (hamOf w.curCore) pa q d).setWord pa full) v o []) ∧
           (∀ dev, p = .far pa dev → Retires (w.send w.pkgid 1 false (.feset pa full) dev).1 v o []) ∧
           (∀ pk dev, p = .foreign pk pa dev → Retires (w.send pk 2 false (.feset pa full) dev).1 v o [])))) ∧
  (∀ (s : State) (pa a : Nat) (v : Word) (b : Bool),
     (s.setFull pa b).isFull pa = b ∧ (a / 8 ≠ pa / 8 → (s.setFull pa b).isFull a = s.isFull a) ∧
     (s.setFull pa b).mem = s.mem ∧ (s.syncStore pa v).isFull pa = true ∧ (s.setWord pa b).isFull pa = b)

/-- AMO and CAS at storage of the own hamlet: the old value goes to sd and the new one to memory in one event, and an acquire or
a release takes its effects; RED does the same with no result. Elsewhere a message takes the operation to its home, for global
memory after the hamlet's copies of the line are written back and the clean ones dropped: AMO and CAS await its answer, and an
acquire follows it; RED is counted (08 R229 to R232, 06 R164). A misaligned address raises Misaligned Access. What the
operations of AMO and RED leave, and CAS (08 R229, R230): the operand, sums, bitwise results, signed and unsigned minima and
maxima; CAS writes only where the value found is the one compared. -/
def Obligations.AtomicsComplete : Prop :=
  (∀ (s w : State) (o : Ops) (p : Place) (pa : Nat),
     let u := s.entered o
     let ord := (ordOf o).1
     let sc := (ordOf o).2
     let acq := fun (x : State) => if ord = 1 ∨ ord = 3 then x.acquire sc else x
     let operand := u.scOp o o.d
     ((ord = 2 ∨ ord = 3) → u.releaseReady sc false = true) →
     let u' := u.orderedBy ord sc
     (∀ (i : Instr) (fn : AtomicFn) (k : Nat) (ls : List Loc),
       ((∃ f, i = .amo o f ∧ fn = .amo f operand ∧ k = 8 ∧ ls = [scLoc o o.a, scLoc o o.d]) ∨
         (∃ f, i = .cas o f ∧ fn = u.casFn o f ∧ k = (if f = .pair then 16 else 8) ∧
           ls = [scLoc o o.a, rsLoc o o.d (2 * k)])) →
       s.goes i o = true → u.locsFault ls = none →
       let n := fnBytes fn
       let ea := u.ea o n
       (ea.toNat % n ≠ 0 → exec i s = .next (u.trap 0x03 ea u.me.faultPc)) ∧
       (ea.toNat % n = 0 → u'.queued ea n = none → u'.resolve ea .atomic = .ok (p, w) → w.placeBad w.curCore p n = none →
         w.placeStuck w.curCore p n = none →
         ((ord = 2 ∨ ord = 3) → ∃ w', u.unqueued.resolve ea .atomic = .ok (p, w') ∧ w'.placeBad w'.curCore p n = none ∧
           ∀ pk q c, w'.atomicHome p = some (pk, q, c) → pk ≠ w'.pkgid → w'.deadPeer pk = false) →
         (p = .near pa →
           let old := ofBytes (w.homeRead pa n)
           ∃ v, exec i s = .next v ∧
             Retires (acq (match (fnApply fn old).1 with | some x => w.homePut pa (offsets (bytesOf n x)) | none => w)) v o
               [varResult [cellAt (scAddr o o.d) k old] (fnApply fn old).2]) ∧
         (∀ pk cnt, w.atomicHome p = some (pk, pa, cnt) → (p.device = true → w.posting = false) →
           (pk ≠ w.pkgid → w.deadPeer pk = false ∧ w.linkFull pk = false) →
           let m := (w.evictFor p).send pk 0 true (.atomic pa fn) p.device
           ∃ v, exec i s = .next v ∧ Retires (if ord = 1 ∨ ord = 3 then m.1.acquireAfter sc true else m.1) v o
             [{ due := .var [(m.2, 8 * (scAddr o o.d % 64))], cells := [cellAt (scAddr o o.d) k 0], flags := 0 }]))) ∧
     (∀ f, s.goes (.red o f) o = true → u.locsFault [scLoc o o.a, scLoc o o.d] = none → ord = 0 ∨ ord = 2 →
       let n := amoBytes f
       let ea := u.ea o n
       (ea.toNat % n ≠ 0 → exec (.red o f) s = .next (u.trap 0x03 ea u.me.faultPc)) ∧
       (ea.toNat % n = 0 → u'.queueGone = true → u'.resolve ea .atomic = .ok (p, w) →
         (ord = 2 → ∃ w', u.resolve ea .atomic = .ok (p, w')) →
         (p = .near pa →
           let old := ofBytes (w.homeRead pa n)
           ∃ v, exec (.red o f) s = .next v ∧
             Retires (w.homePut pa (offsets (bytesOf n (amoFn f (BitVec.ofNat 64 old)
               (BitVec.ofNat 64 (operand.toNat % 2 ^ (8 * n)))).1.toNat))) v o []) ∧
         (∀ pk cnt, w.atomicHome p = some (pk, pa, cnt) → w.countFull cnt = false → (pk ≠ w.pkgid → w.linkFull pk = false) →
           (p.device = true → w.posting = false) →
           ∃ v, exec (.red o f) s = .next v ∧
             Retires ((w.evictFor p).send pk cnt false (.atomic pa (.amo f operand)) p.device).1 v o [])))) ∧
  (∀ (old x : Word),
     (amoFn .swap old x).1 = x ∧ (amoFn .add old x).1 = old + x ∧ (amoFn .and old x).1 = old &&& x ∧
     (amoFn .or old x).1 = old ||| x ∧ (amoFn .xor old x).1 = old ^^^ x ∧
     (amoFn .min old x).1 = (if x.slt old then x else old) ∧ (amoFn .max old x).1 = (if old.slt x then x else old) ∧
     (amoFn .minu old x).1 = (if x.ult old then x else old) ∧ (amoFn .maxu old x).1 = (if old.ult x then x else old) ∧
     (amoFn .add32 old x).1.setWidth 32 = (old.setWidth 32 + x.setWidth 32 : BitVec 32) ∧
     (∀ f, (f = .swap ∨ f = .add ∨ f = .and ∨ f = .or ∨ f = .xor ∨ f = .min ∨ f = .max ∨ f = .minu ∨ f = .maxu) →
       (amoFn f old x).2 = 0) ∧
     (∀ (f : CasFn) (cmp new : BitVec 128) (n : Nat), fnApply (.cas f cmp new) n =
       (if n = cmp.toNat then some new.toNat else none, 0)))


/-! ### Active messages and messages at their homes -/

/-- AMSEND to stash or commons storage, of the own hamlet, of another one (counted in c1) or of another package (counted in c2),
sends its payload row, destination and entry in a message, and AMSEND `.r` awaits the reply as a 64-byte result (08 R233, 06
R160); that its address is decoded as a data access, which asks for no permission, is log entry 90. AMRET on the handler context
ends its run, which answers the sender with its 64 bytes; elsewhere it is an illegal instruction (08 R235, R236). -/
def Obligations.ActiveMessagesComplete : Prop :=
  ∀ (s w : State) (o : Ops) (p : Place) (pk : BitVec 20) (pa cnt : Nat),
    let u := s.entered o
    let d := scAddr o o.d
    let ord := (ordOf o).1
    let payload : Row := BitVec.ofNat 512 (u.rs d 64)
    let goesTo := fun (t : State) =>
      (p = .near pa ∧ pk = t.pkgid ∧ cnt = 0) ∨ (∃ dev, p = .far pa dev ∧ pk = t.pkgid ∧ cnt = 1) ∨
        (∃ dev, p = .foreign pk pa dev ∧ cnt = 2 ∧ ((∃ c, t.region pa = .stash c) ∨ ∃ h, t.region pa = .commons h) ∧
          t.deadPeer pk = false)
    (∀ rep, s.goes (.amsend o rep) o = true → (rep = true → u.onHandler = false) →
      u.locsFault [{ addr := d, bytes := 64, storeOnly := true }, scLoc o o.a, scLoc o o.b] = none →
      (ord = 2 → u.releaseReady (ordOf o).2 false = true ∧
        ∃ w', u.unqueued.resolve (u.scOp o o.a) .data = .ok (p, w') ∧ goesTo w') →
      (if ord = 2 then u.release (ordOf o).2 else u).resolve (u.scOp o o.a) .data = .ok (p, w) → goesTo w →
      w.countFull cnt = false → (pk ≠ w.pkgid → w.linkFull pk = false) →
      let m := w.send pk cnt rep (.am pa (u.scOp o o.a) (u.scOp o o.b) payload)
      ∃ v, exec (.amsend o rep) s = .next v ∧ Retires m.1 v o
        (if rep then [{ due := .var [(m.2, 0)], cells := [cellAt d 64 0], flags := 0 }] else []) ∧ v.mem = w.mem) ∧
    (∀ r m, s.goes (.amret o) o = true → u.onHandler = true → u.me.run = some r → r.kind = .message → r.pkg = u.pkgid →
      (r.reply = true → u.locsFault [{ addr := d, bytes := 64, storeOnly := true }] = none) →
      (xfOf o).getLsbD 0 = false → u.me.returned = true → u.flight.find? (fun q => q.id = r.msg) = some m →
      ∃ v, exec (.amret o) s = .next v ∧ (v.ctx u.curCore 4).status = .idle ∧ (v.ctx u.curCore 4).run = none ∧
        v.mem = u.mem ∧ v.flight = u.flight.map fun q => if q.id = r.msg then
          { m with applied := true, body := if m.tag.isSome then .reply payload 0 else m.body } else q) ∧
    (s.goes (.amret o) o = true → u.onHandler = false →
      exec (.amret o) s = .next (u.trap 0x01 (baseInfo (.amret o)) u.me.faultPc))

/-- The events of handler runs. The message at the head of an idle handler context's inbox starts there at kernel privilege, a
run for the reeve at device-runtime privilege: pc at the entry, s0 the destination, s1 the sender, s8 to s15 the payload, under
the run's table (08 R234, 17 R411); predicates and FPSTATUS as the last run left them (log entry 22). A run past its budget
stops with Handler Overrun (02 R64, 17 R408). Disposition 0 lets a stopped context go on at TRAPPC, at the privilege of `prev`;
any other leaves it stopped (17 R411). -/
def Obligations.HandlerRunEvents : Prop :=
  ∀ (s : State) (c : CoreId) (r : Run) (rest : List Run),
    let x := s.ctx c.val 4
    let starts := fun (i : Instr) (p : Priv) =>
      ∃ t, exec i s = .next t ∧ (t.core c.val).inbox = rest ∧ t.mem = s.mem ∧
        (let y := t.ctx c.val 4
         y.status = .running ∧ y.pc = r.entry ∧ y.priv = p ∧ y.tblroot = r.root ∧ y.run = some r ∧
           look 0 y.store 0 = rowOfWords [r.dst, senderWord r.pkg r.core r.ctx r.reply] ∧ look 0 y.store 1 = r.payload ∧
           (∀ n, 1 < n → look 0 y.store n = 0) ∧ y.preds = x.preds ∧ y.fpstatus = x.fpstatus) ∧
        ∀ k, k < 4 → t.ctx c.val k = s.ctx c.val k
    (x.status = .idle → (s.core c.val).inbox = r :: rest → (s.ham (hamOf c.val)).fenced = false →
      (r.kind = .message → starts (.activeMessageRun c) .kernel) ∧
      (r.kind ≠ .message → starts (.escalationRun c) .runtime)) ∧
    (x.status = .idle → (s.ham (hamOf c.val)).fenced = true → exec (.activeMessageRun c) s = .next s) ∧
    (x.status = .running → x.run = some r → r.begun = true → x.returned = true →
        max (s.core c.val).hbudget.toNat 256 < s.cycle.toNat - x.runCycles →
      ∃ t, exec (.handlerOverrun c) s = .next t ∧ (t.ctx c.val 4).status = .stopped ∧
        (t.ctx c.val 4).trapcause.setWidth 6 = (0x0D : BitVec 6) ∧
        (t.ctx c.val 4).trapinfo = senderWord r.pkg r.core r.ctx r.reply) ∧
    (∀ (k : CtxId) (word : Word), k.val ≠ 4 → (s.ctx c.val k.val).status = .stopped →
      (s.ctx c.val k.val).parking = none →
      ∃ t, exec (.disposition c k word) s = .next t ∧
        (word = 0 → (t.ctx c.val k.val).pc = (s.ctx c.val k.val).trappc ∧ (t.ctx c.val k.val).handling = false ∧
          (t.ctx c.val k.val).priv = Priv.ofCode (fld (s.ctx c.val k.val).trapcause 11 10) ∧
          (t.ctx c.val k.val).status = if (s.ctx c.val k.val).follows then .following else .running) ∧
        (word ≠ 0 → t.ctx c.val k.val = s.ctx c.val k.val ∧ 4 ≤ (t.ham (hamOf c.val)).marks.cls))

/-- The events of messages. A posted store to a slice, or to an address that has no home, is applied there once no earlier
message of its core to it waits, an atomic in one event with its old value as the answer; one that a CXL port keeps waiting or a
listed line meets is left out here. A message to a hamlet is served by its core, a load answering with the bytes, unless the
hamlet is fenced (17 R415). Which hamlet counts a message as received (03 R90), and that the sender's copies see what a message
has left at its home, are readings (log entries 23 and 87). The answer fills the results that await it; an acknowledgement takes
the message off its named count; and the end of a switch-marker hold commits what has returned; WAITA's next read may issue (06
R160, R164, 07 R190, 08 R227). -/
def Obligations.MessageEvents : Prop :=
  ∀ (s : State) (id pa : Nat) (m : Msg),
    (s.waiting id = some m → m.id = id → (m.home < 64 ∨ m.home = 320) → s.overtakes m = false → s.forwarded pa = pa →
      let n := s.noteUnbacked m.core pa
      (∀ bs, m.body = .store pa bs false → s.cxlMeets m (.postedStoreApply id) = none → exec (.postedStoreApply id) s =
        .next ((((n.homePut pa bs).refreshCopy (hamOf m.core) m.body).finishMsg id 0 0).countIn m)) ∧
      (∀ f, m.body = .atomic pa f → s.cxlMeets m (.atomicApply id) = none →
        (m.tag.isSome → s.listedLine (pa / 64 * 64) = false) →
        let r := n.applyAtomic pa f
        exec (.atomicApply id) s =
          .next (((r.2.2.refreshCopy (hamOf m.core) m.body).finishMsg id (BitVec.ofNat 512 r.1) r.2.1).countIn m))) ∧
    (∀ (c : CoreId) n, m.body = .load pa n false → s.forwarded pa = pa → s.region pa ≠ .unbacked →
      (s.region pa).global = false → s.listedLine (pa / 64 * 64) = false → s.overtakes m = false →
      s.flight = [m] → m.applied = false → m.delivered = false → m.pkg = s.pkgid → 64 ≤ m.home → m.home < 320 →
      s.homeCore pa = c.val →
      ((s.ham (m.home - 64)).fenced = false →
        exec (.remoteAccessService c) s = .next ((s.finishMsg m.id (BitVec.ofNat 512 (ofBytes (s.homeSpan pa n))) 0).countIn m)) ∧
      ((s.ham (m.home - 64)).fenced = true → s.incoming = [] → exec (.remoteAccessService c) s = .next s)) ∧
    (∀ data fl t, s.flight.find? (fun q => q.id = id && q.applied) = some m → m.body = .reply data fl →
      m.tag = some t → t ≠ 0 → m.cnt = 0 → (s.core m.core).copies = [] → (s.ctx m.core m.ctx).late = none →
      (s.ctx m.core m.ctx).devq = [] →
      ∃ v, exec (.replyArrival id) s = .next v ∧ v.mem = s.mem ∧ v.flight = s.flight.filter (fun q => q.id ≠ m.id) ∧
        v.ctx m.core m.ctx = { s.ctx m.core m.ctx with
          results := (s.ctx m.core m.ctx).results.map fun r => r.fill t data fl }) ∧
    (s.flight.find? (fun q => q.id = id) = some m → m.pkg = s.pkgid → m.applied = true → m.tag = none → m.cnt = 1 →
      (s.ctx m.core m.ctx).devq = [] →
      ∃ v, exec (.postedAck id) s = .next v ∧ v.mem = s.mem ∧ v.flight = s.flight.filter (fun q => q.id ≠ m.id) ∧
        v.ctx m.core m.ctx = { s.ctx m.core m.ctx with c1 := (s.ctx m.core m.ctx).c1 - 1 }) ∧
    (∀ (c : CoreId) (k : CtxId), (s.ctx c.val k.val).hold = .switch → (s.ctx c.val k.val).returned = true →
      (s.ctx c.val k.val).acqAfter = none →
      ∃ v, exec (.variableResultCommit c k) s = .next v ∧ (v.ctx c.val k.val).hold = .none ∧ v.mem = s.mem ∧
        ∀ r ∈ (v.ctx c.val k.val).results, ∃ n, r.due = .fixed n) ∧
    (∀ (c : CoreId) (k : CtxId), (s.ctx c.val k.val).hold = .wait →
      exec (.waitaRetry c k) s = .next (s.setCtx c.val k.val { s.ctx c.val k.val with hold := .none }))


/-! ### Vector instructions -/

/-- VADD to VEXPM and VMATH, wherever their views are in order: the active lanes of the row of vd take the values that 09 R244 to
R254 give, with the latency of 07 R177 and the flags that they raise, and nothing else changes. Integers wrap at the
element's width; floating-point lanes are rounded once under the mode of R104; VMATH's functions are those of a computation with
many more bits than the format has, rounded once (log entry 24). VCMP writes the bits of its predicate, zero from the lane count on;
VRED writes one scalar. -/
def Obligations.VectorArithmeticCompletes : Prop :=
  ∀ (s : State) (o : Ops),
    let u := s.entered o
    let t := u.three o
    let e := t.d.etype
    let g := fmtOf e
    let m := u.modeOf o
    let n := 512 / t.w
    let x := fun i => laneOf t.w (u.rowAt t.a) i
    let y := fun i => laneOf t.w (u.rowAt t.b) i
    let z := fun i => laneOf t.w (u.rowAt t.d) i
    let rmD := fun (q : State) => rmFits o (q.vec o o.d).etype
    let all := fun (_ : State) => true
    let three := fun (ok : Bool) => ∀ f ∈ u.threeFaults t ok, f = none
    let two := fun (ok : Bool) => ∀ f ∈ u.twoFaults t ok, f = none
    let gives := fun (i : Instr) (lat : Nat) (f : Nat → Nat × Flags) => ∃ v, exec i s = .next v ∧ Lanes u v o t lat f
    (∀ sub, s.goesVec (.vadd o sub) o rmD = true → three true → gives (.vadd o sub) 4 fun i =>
      if isFloat e then g.finish m (addVal m (g.decode (x i)) (if sub then (g.decode (y i)).neg else g.decode (y i)))
      else (if sub then x i + (2 ^ t.w - y i) else x i + y i, 0)) ∧
    (s.goesVec (.vmul o) o rmD = true → three true → gives (.vmul o) 4 fun i =>
      if isFloat e then g.finish m (mulVal (g.decode (x i)) (g.decode (y i))) else (x i * y i, 0)) ∧
    (∀ f, s.goesVec (.vfma o f) o all = true → three (isFloat e) → gives (.vfma o f) 4 fun i =>
      g.finish m (fmaVal m f (g.decode (x i)) (g.decode (y i)) (g.decode (z i)))) ∧
    (s.goesVec (.vdiv o false) o all = true → three (isFloat e) → gives (.vdiv o false) (if e = 12 then 30 else 18) fun i =>
      g.finish m (divVal (g.decode (x i)) (g.decode (y i)))) ∧
    (s.goesVec (.vdiv o true) o all = true → two (isFloat e) → gives (.vdiv o true) (if e = 12 then 30 else 18) fun i =>
      g.finish m (sqrtVal (g.decode (x i)))) ∧
    (∀ mx, s.goesVec (.vminmax o mx) o all = true → three true → gives (.vminmax o mx) 2 fun i =>
      if isFloat e then minmaxCode g mx (x i) (y i)
      else
        let a := BitVec.ofNat t.w (x i)
        let b := BitVec.ofNat t.w (y i)
        let le := if isSigned e then a.sle b else a.ule b
        ((if le then (if mx then b else a) else if mx then a else b).toNat, 0)) ∧
    (∀ f, s.goesVec (.vlogic o f) o all = true → three (!logicShifts f || isInt e) → gives (.vlogic o f) 2 fun i =>
      let a := BitVec.ofNat t.w (x i)
      let b := BitVec.ofNat t.w (y i)
      let k := y i % t.w
      ((match f with
        | .and => a &&& b | .or => a ||| b | .xor => a ^^^ b | .andn => a &&& ~~~ b
        | .shl => a <<< k | .shr => a >>> k | .sra => a.sshiftRight k | .rot => a.rotateLeft k : BitVec t.w).toNat, 0)) ∧
    (s.goesVec (.vsel o) o all = true → three true → gives (.vsel o) 2 fun i =>
      (if (u.me.pred (fld (xfOf o) 2 0)).getLsbD i != (xfOf o).getLsbD 3 then x i else y i, 0)) ∧
    (s.goesVec (.vperm o .idx) o all = true → u.vecFault t.a (t.fits t.a) = none → u.vecFault t.d true = none →
      u.vecFault t.b (isInt t.b.etype && widthOf t.b.etype ≤ t.w) = none → gives (.vperm o .idx) 2 fun i =>
        (x (laneOf (widthOf t.b.etype) (u.rowAt t.b) i % n), 0)) ∧
    (s.goesVec (.vperm o .rotl) o all = true → two true → u.locFault (scLoc o o.b) = none → gives (.vperm o .rotl) 2 fun i =>
      (x ((i + (n - (u.scOp o o.b).toNat % n)) % n), 0)) ∧
    (s.goesVec (.vperm o .ilo) o all = true → three true → gives (.vperm o .ilo) 2 fun i =>
      (if i % 2 = 0 then x (i / 2) else y (i / 2), 0)) ∧
    (s.goesVec (.vperm o .ihi) o all = true → three true → gives (.vperm o .ihi) 2 fun i =>
      (if i % 2 = 0 then x (n / 2 + i / 2) else y (n / 2 + i / 2), 0)) ∧
    (s.goesVec (.vbcast o false) o all = true → u.vecFault t.d true = none →
      (o.lit = none → u.locFault (scLoc o o.b) = none) → gives (.vbcast o false) 2 fun _ => ((u.bLit o).toNat, 0)) ∧
    (s.goesVec (.vbcast o true) o all = true → two true → gives (.vbcast o true) 2 fun _ =>
      (x ((immOf o).toNat % n), 0)) ∧
    (s.goesVec (.vpackm o) o all = true → two true → gives (.vpackm o) 3 fun i =>
      ((((List.range n).filter fun j => (u.me.pred o.b.toNat).getLsbD j).map x).getD i 0, 0)) ∧
    (s.goesVec (.vexpm o) o all = true → two true →
      ∃ v c, exec (.vexpm o) s = .next v ∧ Retires u v o [fixedResult 3 [c]] ∧
        LaneCell t.d t.w n (u.lanes o &&& u.me.pred o.b.toNat) id
          (fun i => (x (((List.range i).filter fun j => (u.me.pred o.b.toNat).getLsbD j).length), 0)) c 0) ∧
    (s.goesVec (.vdot o) o rmD = true → u.vecFault t.a true = none → u.vecFault t.b true = none →
      u.vecFault t.d (dotOk e t.a.etype t.b.etype) = none → gives (.vdot o) 6 fun i =>
        let p := fun (w j k : Nat) => laneInt w (isSigned t.a.etype) (u.rowAt t.a) (j * i + k) *
          laneInt w (isSigned t.b.etype) (u.rowAt t.b) (j * i + k)
        if e = 11 then u.dotLane o t i
        else
          let sum := laneInt 32 true (u.rowAt t.d) i + (p 8 4 0 + p 8 4 1 + p 8 4 2 + p 8 4 3)
          let q := min (2 ^ 31 - 1) (max (-(2 ^ 31)) sum)
          ((q % 2 ^ 32).toNat, raise fSat (q ≠ sum))) ∧
    (∀ f, s.goesVec (.vmath o f) o all = true → two (e = 9 || e = 10 || e = 11) → gives (.vmath o f) 14 fun i =>
      g.finish m (mathVal f (g.decode (x i)))) ∧
    (s.goesVec (.vscan o) o rmD = true → two true →
      let scan := ((List.range n.log2).map fun k => 2 ^ k).foldl (scanStep e m (u.lanes o)) ((List.range n).map x, 0)
      (∃ v c, exec (.vscan o) s = .next v ∧ Retires u v o [fixedResult 12 [c] scan.2] ∧
        LaneCell t.d t.w n (u.lanes o) id (fun i => (scan.1.getD i 0, 0)) c 0) ∧
      (isFloat e = false → scan.2 = 0 ∧ (u.lanes o = BitVec.allOnes 64 → ∀ i, i < n →
        scan.1.getD i 0 = ((List.range (i + 1)).map x).sum % 2 ^ t.w))) ∧
    (∀ r, s.goesVec (.vcmp o r) o all = true →
      let a := t.a
      let b := t.b
      let w := widthOf a.etype
      u.vecFault a (r ≠ .un || isFloat a.etype) = none → u.vecFault b (b.etype = a.etype) = none →
      ∃ v mask data fl, exec (.vcmp o r) s = .next v ∧ Retires u v o [fixedResult 2 (cellPred o.d.toNat mask data) fl] ∧
        ∀ i, i < 64 →
          mask.getLsbD i = (decide (512 / w ≤ i) || (u.lanes o).getLsbD i) ∧
          data.getLsbD i = (decide (i < 512 / w) && (u.lanes o).getLsbD i &&
            (relLane a.etype r (laneOf w (u.rowAt a) i) (laneOf w (u.rowAt b) i)).1)) ∧
    (∀ f, s.goesVec (.vred o f) o (fun q => rmFits o (q.vec o o.a).etype) = true →
      let a := t.a
      let w := widthOf a.etype
      u.vecFault a true = none → u.locFault (scLoc o o.d) = none →
      let sel := fun i => (u.lanes o).getLsbD i
      let r := (tree (redNode a.etype f m) (512 / w).log2 ((List.range (512 / w)).map fun i =>
        if sel i then some (laneOf w (u.rowAt a) i, (0 : Flags)) else none)).getD (0, 0)
      let val := if isFloat a.etype then r.1 else extendTo64 (isSigned a.etype) (w / 8) r.1
      (∃ v, exec (.vred o f) s = .next v ∧ Retires u v o [fixedResult 10 [cellAt (scAddr o o.d) 8 val] r.2]) ∧
      (isFloat a.etype = false → r.2 = 0 ∧ (f = .sum → val % 2 ^ w =
          (((List.range (512 / w)).filter sel).map fun i => laneOf w (u.rowAt a) i).sum % 2 ^ w)))

/-- VLD, VST, VGATHER and VSCATTER on the own commons, wherever every active lane's address is aligned: lane i goes from or to base
plus i elements, base plus i times the stride, or base plus its index times the element's bytes; a load writes the active
lanes of vd as a result of variable latency, a store writes the active lanes in ascending order and nothing else of
memory, one of a whole line unlists it (17 R416), and an ordered access takes the effects of its order, where no message of the
context is on its way. A misaligned ordered access raises Misaligned Access (09 R240 to R243, 06 R147). -/
def Obligations.VectorMemoryCompletes : Prop :=
  ∀ (s : State) (i : Instr) (o : Ops) (strided : Bool),
    let u := s.entered o
    let d := u.vec o o.d
    let b := u.vec o o.b
    let w := widthOf d.etype
    let wb := w / 8
    let act := u.lanes o
    let ord := (ordOf o).1
    let sc := (ordOf o).2
    let base := u.scOp o o.a
    let plain := i = .vld o strided ∨ i = .vst o strided
    let indexed := i = .vgather o ∨ i = .vscatter o
    let loads := i = .vld o strided ∨ i = .vgather o
    let ea : Nat → Word := fun k =>
      if i = .vgather o ∨ i = .vscatter o then
        base + BitVec.ofInt 64 (laneInt (widthOf b.etype) (isSigned b.etype) (u.rowAt b) k) * BitVec.ofNat 64 wb
      else if strided then base + BitVec.ofNat 64 k * (match o.lit with | some l => l | none => u.scOp o o.b)
      else u.ea o 64 + BitVec.ofNat 64 (k * wb)
    plain ∨ indexed → s.goesVec i o (fun _ => true) = true → u.locFault (scLoc o o.a) = none → u.vecFault d true = none →
    (plain → strided = true → o.lit = none → u.locFault (scLoc o o.b) = none) →
    (indexed → u.vecFault b (isInt b.etype && decide (widthOf b.etype ≤ w)) = none) →
    (plain → ord ≠ 0 → (u.ea o 64).toNat % 64 ≠ 0 → exec i s = .next (u.trap 0x03 (u.ea o 64) u.me.faultPc)) ∧
    ((indexed → ord = 0) → (plain → strided = true → ord = 0) →
      (plain → strided = false → (u.ea o 64).toNat % 64 = 0 ∧ commonsAt (u.ea o 64) 64 = true) →
      u.curCore < 2048 → u.queueGone = true →
      (∀ q ∈ u.flight, q.core = u.curCore → q.ctx = u.curCtx → q.applied = true) →
      (∀ k, k < 512 / w → act.getLsbD k = true → commonsAt (ea k) wb = true ∧ (ea k).toNat % wb = 0) →
      (loads → ord ≤ 1 → (ord = 0 ∨ ∃ k, k < 512 / w ∧ act.getLsbD k = true) →
        (∀ k, k < 512 / w → act.getLsbD k = true → u.listedLine (u.commonsPa (ea k) / 64 * 64) = false) →
        ∃ v c, exec i s = .next v ∧ Retires (if ord = 1 then u.acquire sc else u) v o [varResult [c]] ∧ v.mem = u.mem ∧
          LaneCell d w (512 / w) act id (fun k => (ofBytes (memRead u.mem (u.commonsPa (ea k)) wb), 0)) c 0) ∧
      (¬ loads → ord = 0 ∨ ord = 2 → (ord = 2 → u.releaseReady sc false = true) →
        let r := u.orderedBy ord sc
        ∃ v y, exec i s = .next v ∧ Retires y v o [] ∧ y = { r with mem := y.mem, bad := y.bad } ∧
          y.mem = ((List.range (512 / w)).filter fun k => act.getLsbD k).foldl
            (fun m k => memPut m (u.commonsPa (ea k)) (offsets (bytesOf wb (laneOf w (u.rowAt d) k)))) r.mem ∧
          ∀ l, l ∈ y.bad ↔ l ∈ r.bad ∧ ¬ (i = .vst o false ∧ strided = false ∧ (∀ k, k < 512 / w → act.getLsbD k = true) ∧
            l = u.commonsPa (u.ea o 64))))

/-- CVT, CVTN and CVTW, wherever their views and descriptors are in order (09 R256 to R259): each active element of the source
part is converted and takes its place in vd; CVTN also writes its block's scale, above the descriptor, to S[b]. SRSTATE steps
once for each active element under stochastic rounding (04 R108). A bad descriptor raises Illegal Instruction, and CVTW with a
scale that 04 R101 forbids raises Scale Value, where an active element consumes it (log entry 91). What a conversion to an
integer type gives (09 R257): an integer within the target's range stays, with no flag; one beyond it gives the nearest end of
the range, with `sat`; a NaN gives 0, with `nv`. -/
def Obligations.ConversionsComplete : Prop :=
  (∀ (s : State) (o : Ops) (ty : ETy),
     let u := s.entered o
     let a := u.vec o o.a
     let d := u.vec o o.d
     let desc := u.descOf o
     let tg := targetOf ty desc
     let m := u.modeOf o
     let act := u.lanes o
     let part := fld (xfOf o) 5 0
     let ws := widthOf a.etype
     let wt := tg.width
     let after := fun (n : Nat) => (u.draws m act n).2
     let draw := fun (n i : Nat) => (u.draws m act n).1.getD i 0
     (s.goesVec (.cvt o ty) o (cvtPre o ty) = true → ty ≠ .i4 →
       u.vecFault a true = none → u.vecFault d true = none → (ty = .q → u.locFault (scLoc o o.b) = none) →
       let n := 512 / max ws wt
       (ty = .q → descValid desc = false →
         exec (.cvt o ty) s = .next (u.trap 0x01 (baseInfo (.cvt o ty)) u.me.faultPc)) ∧
       ((ty = .q → descValid desc = true) → ∃ v c fl, exec (.cvt o ty) s = .next v ∧
         Retires (after n) v o [fixedResult 4 [c] fl] ∧
         LaneCell d wt n act (fun i => if wt < ws then part * n + i else i)
           (fun i => convert tg fNv m (draw n i) (isInt a.etype)
             (sourceVal a.etype (laneOf ws (u.rowAt a) (if ws < wt then part * n + i else i)))) c fl)) ∧
     (s.goesVec (.cvtw o ty) o (cvtwPre o ty) = true → ownOk (.cvtw o ty) = true →
       u.vecFault a true = none → u.locFault (scLoc o o.b) = none → u.vecFault d true = none →
       let n := 512 / wt
       let f := fmtOfDesc desc
       let scaled := fld desc 12 11 ≠ 0
       let sc : BitVec 32 := (u.scOp o o.b).extractLsb' 32 32
       let quiet := fun (x : Val) => match x with | .nan _ => Val.nan false | x => x
       (descValid desc = false ∨ ((ty = .i32 ∨ ty = .i64) ∧ (f.ew ≠ 0 ∨ scaled)) →
         exec (.cvtw o ty) s = .next (u.trap 0x01 (baseInfo (.cvtw o ty)) u.me.faultPc)) ∧
       (descValid desc = true → (ty = .f32 ∨ ty = .f64 ∨ (f.ew = 0 ∧ ¬ scaled)) →
         (scaled → badScale sc = true → (∃ i, i < n ∧ act.getLsbD i = true) →
           exec (.cvtw o ty) s = .next (u.trap 0x06 (sc.setWidth 64) u.me.faultPc)) ∧
         ((scaled → badScale sc = true → ∀ i, i < n → act.getLsbD i = false) → ∃ v c fl, exec (.cvtw o ty) s = .next v ∧ Retires u v o [fixedResult 4 [c] fl] ∧
           LaneCell d wt n act id (fun i =>
             let x := quiet (f.decode (laneOf f.width (u.rowAt a) (part * n + i)))
             convert tg fSat m 0 false (if scaled then (mulVal x (scaleVal sc)).1 else x)) c fl))) ∧
     (s.goesVec (.cvtn o ty) o (cvtnPre o ty) = true → ownOk (.cvtn o ty) = true → cvtnDesc ty desc = true →
       u.vecFault a (isFloat a.etype && decide (wt ≤ ws)) = none → u.locFault (scLoc o o.b) = none → u.vecFault d true = none →
       let n := blockOf desc
       let first := fld (xfOf o) 2 0 * n
       let row := fun j => a.base / 64 + (first + j) * ws / 512
       (∀ j, j < n → act.getLsbD j = true → u.locFault { addr := 64 * row j, bytes := 64, storeOnly := true } = none) →
       let x := fun j => sourceVal a.etype (laneOf ws (u.row (row j)) ((first + j) % (512 / ws)))
       let scale := blockScale (fld desc 12 11) (topOf tg) desc (((List.range n).filter fun j => act.getLsbD j).map x)
       ∃ v c fl, exec (.cvtn o ty) s = .next v ∧
         Retires (after n) v o [fixedResult 6 [c, cellAt (scAddr o o.b) 8 (scale.toNat * 2 ^ 32 + desc.toNat)] fl] ∧
         LaneCell d wt n act (fun j => fld (xfOf o) 7 3 * n + j)
           (fun j =>
             let q := divVal (x j) (scaleVal scale)
             let r := convert tg fSat m (draw n j) false q.1
             (r.1, r.2 ||| q.2)) c fl)) ∧
  (∀ (sg : Bool) (w : Nat) (m : Mode) (x : Nat) (beyond : Flags) (k : Int), 1 ≤ w →
     let lo : Int := if sg then -(2 ^ (w - 1) : Nat) else 0
     let hi : Int := if sg then (2 ^ (w - 1) : Nat) - 1 else (2 ^ w : Nat) - 1
     (∀ q, convert (.int sg w) beyond m x true (.nan q) = (0, fNv)) ∧
     (lo ≤ k → k ≤ hi → convert (.int sg w) beyond m x true (.ofInt k) = ((k % (2 ^ w : Nat)).toNat, 0)) ∧
     (k < lo → convert (.int sg w) beyond m x true (.ofInt k) = ((lo % (2 ^ w : Nat)).toNat, fSat)) ∧
     (hi < k → convert (.int sg w) beyond m x true (.ofInt k) = ((hi % (2 ^ w : Nat)).toNat, fSat)))

/-! ### Events of the memory system -/

/-- The events of the memory system. A line that leaves a hamlet is held by it no more, and its dirty bytes are at its home (05
R125, R131). A scale-window line is filled with the words decoded from its codes, if these are not listed, and on eviction its
words are encoded into them (05 R133). A completed walk leaves the leaf in the core's TLB where it allows the access (05 R139).
A back-invalidation leaves no copy of a shared line (05 R134). A row of words from an MCAST is written and its words become full
(12 R341, 05 R129), counted and seen in the sender's copies as other messages are (log entries 23 and 87). The fault queue, the
replay of stores and pages that move: a held fault record is written where the tail points, if the queue has room, and FQHEAD
takes a value that is not past the tail (13 R364); a queued store whose page has become present is performed and leaves the
queue (06 R166); a page's bytes are found at its new home, where its old addresses are served, and a message that was on its way
is sent again to there (06 R167; how the part moves a page is log entry 107). Where a line would take a way that another must
leave, that one is no scale-window line here. -/
def Obligations.MemoryEvents : Prop :=
  (∀ (s : State),
     (∀ (h : HamletId) (line : Nat), let a := line / 64 * 64
       Memory.wf s.mem = true → (s.region a).global = true →
       (∀ i, i < 64 → s.region (a + i) = s.region a ∧ s.areaOf (a + i) = none) → s.plainLine a → s.cxlStuck a = false →
       (s.scales = [] ∨ (s.sameSet a s.ways).length < setWays) →
       ∃ t, exec (.lineEviction h line) s = .next t ∧ find (t.ham h.val).lines a = none ∧
         (∀ b, b ≠ a → find (t.ham h.val).lines b = find (s.ham h.val).lines b) ∧
         ∀ i, i < 64 → t.homeRead (a + i) 1 = match find (s.ham h.val).lines a with
           | some l => if l.dirty.getLsbD i then [l.data.extractLsb' (8 * i) 8] else s.homeRead (a + i) 1
           | none => s.homeRead (a + i) 1) ∧
     (∀ line g q, let a := line / 64 * 64
       scaleRange s.ranges a = some (g, q) →
       (s.listedLine a = true → exec (.scaleWindowFill line) s = .next s) ∧
       (s.listedLine a = false → (a ∈ s.ways ∨ (s.sameSet a s.ways).length < setWays) →
         ∃ t, exec (.scaleWindowFill line) s = .next t ∧ find t.scales a = some (s.homeLine a) ∧ t.mem = s.mem ∧
           ∀ b, b ≠ a → find t.scales b = find s.scales b) ∧
       ∀ r, Memory.wf s.mem = true → find s.scales a = some r → (∀ i, i < 16 → e8m0Encode (r.extractLsb' (32 * i) 32) ≠ 0xFF) →
         fld g 173 128 % 16 = 0 →
         ∃ t, exec (.scaleWindowEvict line) s = .next t ∧ find t.scales a = none ∧
           ∀ i, i < 16 → t.heldByte (fld g 173 128 + 16 * q + i) =
             if 16 * q + i < fld g 223 192 then e8m0Encode (r.extractLsb' (32 * i) 32)
             else s.heldByte (fld g 173 128 + 16 * q + i)) ∧
     (∀ (c : CoreId) (k : CtxId) va write e u, canonical va = true → localWindow va = false →
       s.translateLeaf c.val (s.ctx c.val k.val).tblroot (va.toNat % 2 ^ 57) write = .ok (e, u) →
       let may := fun (a : Access) => leafGrant e.leaf a (s.ctx c.val k.val).priv = .ok
       let allowed := if write then may .write else may .read ∨ may .exec
       (allowed → ∃ t, exec (.tableWalk c k va write) s = .next t ∧ e ∈ (t.core c.val).tlb ∧ ∀ j, t.ctx c.val j = s.ctx c.val j) ∧
       (¬ allowed → exec (.tableWalk c k va write) s = .next s)) ∧
     (∀ (c : CoreId) (k : CtxId) va write e, canonical va = true → localWindow va = false →
       s.translateLeaf c.val (s.ctx c.val k.val).tblroot (va.toNat % 2 ^ 57) write = .error e →
       exec (.tableWalk c k va write) s = .next (s.noteWalk c.val (s.ctx c.val k.val).tblroot va)) ∧
     (∀ line n, s.region (line / 64 * 64) = .cxl n → s.hub.shared.contains (line / 64 * 64 / 2 ^ 30) = true →
       ∃ t, exec (.backInvalidation line) s = .next t ∧ ∀ h, find (t.ham h).lines (line / 64 * 64) = none) ∧
     (∀ id m pa bs, s.waiting id = some m → m.id = id → m.body = .store pa bs true → s.mute m = false →
       s.overtakes m = false → s.forwarded pa = pa → s.region pa ≠ .unbacked → s.cxlMeets m (.mcastDelivery id) = none →
       let t := (s.homePut pa bs).fillWords pa m.body.span
       exec (.mcastDelivery id) s = .next (((t.refreshCopy (hamOf m.core) m.body).finishMsg id 0 0).countIn m) ∧
       (s.feWord pa = true → ∀ q, pa ≤ q → q < pa + m.body.span → t.isFull q = true))) ∧
  (∀ (s : State),
     (∀ r rest, Memory.wf s.mem = true → s.hub.heldFaults = r :: rest → (s.hub.fqTail - s.hub.fqHead).toNat ≠ 16384 →
       ∃ t, exec .faultRecordWrite s = .next t ∧ t.hub.heldFaults = rest ∧ t.hub.fqTail = s.hub.fqTail + 1 ∧
         t.hub.fqHead = s.hub.fqHead ∧ memRead t.mem (faultAddr s.hub.fqTail.toNat) 32 = bytesOf 32 r.toNat) ∧
     (∀ v, ∃ t, exec (.fqheadWrite v) s = .next t ∧ t.mem = s.mem ∧
       t.hub = { s.hub with fqHead := if 16384 < (s.hub.fqTail - v).toNat then s.hub.fqHead else v }) ∧
     (∀ (c : CoreId) (r : Replay) rest bs pa w, (s.core c.val).replay = r :: rest → r.handle = 0 → r.refused = none →
       r.body = .store 0 bs false → r.va.toNat % 64 + r.body.span ≤ 64 →
       let k := if r.ctx < 5 then r.ctx else 7
       (s.as c.val k).resolveFor c.val k r.root r.priv r.va .write = .ok (.near pa, w) →
       ∃ t, exec (.storeReplay c) s = .next t ∧ (t.core c.val).replay = (w.core c.val).replay.erase r ∧
         t.mem = (w.homePut pa (partBytes bs 0 r.body.span)).mem) ∧
     (∀ (old new : BitVec 34), old ≠ new →
       ∃ t, exec (.pageMove old new) s = .next t ∧
         (∀ i, i < 4096 → t.forwarded (old.toNat * 4096 + i) = new.toNat * 4096 + i) ∧
         (Memory.wf s.mem = true → s.bad = [] → s.tainted = [] → s.scales = [] → (∀ h, (s.ham h).winLines = []) →
           (∀ i, i < 4096 → ∀ f, f = old.toNat ∨ f = new.toNat →
             s.region (f * 4096 + i) = .hbm ∧ s.plainLine (f * 4096 + i) ∧ s.areaOf (f * 4096 + i) = none ∧
             ∀ h, find (s.ham h).lines ((f * 4096 + i) / 64 * 64) = none) →
           ∀ i, i < 4096 → t.homeRead (new.toNat * 4096 + i) 1 = s.homeRead (old.toNat * 4096 + i) 1)) ∧
     (∀ id m pa n sx, s.waiting id = some m → m.id = id → m.body = .load pa n sx → s.forwarded pa ≠ pa →
       ∃ t, exec (.pageMoveBounce id) s = .next t ∧ t.mem = s.mem ∧ t.flight.map Msg.id = s.flight.map Msg.id ∧
         ∃ q ∈ t.flight, q = { m with body := .load (s.forwarded pa) n sx, home := s.homeOf (s.forwarded pa) }))


/-! ### The mill and gangs -/

/-- MMUL, MSPB, MSCL, JOIN, JDRAIN (both forms), ASWAP and AZERO (both forms), where their operands are in order and the context
owns the mill: the command enters the mill's queue with the operands, the format register, the table and the privilege captured
as they stand (log entries 11 and 84), and the instruction retires with no result (10 R267, 11 R288 to R304). With both slots
held the context holds; without the mill, ASWAP and AZERO raise Mill Ownership with MILLST. -/
def Obligations.MillCommandsQueue : Prop :=
  ∀ (s : State) (o : Ops) (i : Instr),
    let u := s.entered o
    let size := u.me.gangRank.2
    let queues := fun (p : MillCmd → Prop) => ∃ v cmd, exec i s = .next v ∧ Retires (u.enqueued cmd) v o [] ∧ p cmd ∧
      cmd.instr = i ∧ cmd.ctx = u.curCtx ∧ cmd.rank = u.me.gangRank.1 ∧ cmd.store = u.me.store ∧
      cmd.fmt = u.myCore.mill.millfmt ∧ cmd.root = u.me.tblroot ∧ cmd.priv = u.me.priv ∧ cmd.started = false
    let desc := fun (x : BitVec 16) (n : Nat) => u.rs (scAddr o x) n
    let goes := fun (ok : Prop) (p : MillCmd → Prop) => ok → (u.millFree = true → queues p) ∧
      (u.ownsMill = true → 2 ≤ u.myCore.mill.queue.length → exec i s = .next u.stall)
    let clean := ∀ r ∈ u.me.results, ∀ c ∈ r.cells, ∀ n, c.tgt = .row n → n < 256
    s.goes i o = true →
    (∀ m (sparse : Bool), i = (if sparse then .mspb o m else .mmul o m) →
      let a := u.mulOp o o.a 0
      let b := u.mulOp o o.b 1
      let d := u.view o 2 o.d
      let fmt := u.myCore.mill.millfmt
      let n := if sparse then 32 else 16
      let scaled := fun (x : BitVec 32) => fld x 12 11 = 0 ∨ a.cols ≤ 64 * blockOf x
      let plane := fun (bit : Nat) (f : BitVec 16) (lo rows : Nat) (ps : List Nat) =>
        if (xfOf o).getLsbD bit then
          let e := memDesc (BitVec.ofNat 128 (u.rs (scAddr o f + 16) 16))
          e.etype = 0 ∧ e.cols = a.cols ∧ e.rows = rows ∧ u.descFaults i e 1 ps = []
        else
          let v := u.tileView (fld (xfOf o) (lo + 2) lo)
          v.rows = rows ∧ tileFaults v ((a.cols + 7) / 8) u.storeEnd = []
      ∀ cl, mulClass a.etype b.etype fmt = some cl →
      goes (((xfOf o).getLsbD 0 = true → u.locFault (descLoc o o.a n) = none) ∧
          ((xfOf o).getLsbD 1 = true → u.locFault (descLoc o o.b n) = none) ∧
          (a.etype = 0xE → descValid (fmt.setWidth 32) = true ∧ descValid (fmt.extractLsb' 32 32) = true ∧
            scaled (fmt.setWidth 32) ∧ scaled (fmt.extractLsb' 32 32)) ∧
          b.rows = a.cols ∧ a.rows ≤ 96 ∧ b.cols ≤ (if cl.f64 then 48 else 96) ∧
          accFaults d cl a.rows b.cols = [] ∧
          u.opFaults i a cl.fa.width (piecesA size) = [] ∧ u.opFaults i b cl.fb.width (piecesB size) = [] ∧
          (sparse = true → plane 0 o.a 2 a.rows (piecesA size) ∧ plane 1 o.b 5 b.cols (piecesB size)))
        fun cmd => cmd.viewD = d.asWord ∧ cmd.descA = BitVec.ofNat 256 (desc o.a 32) ∧
          cmd.descB = BitVec.ofNat 256 (desc o.b 32) ∧ cmd.rm = BitVec.ofNat 3 (u.modeOf o)) ∧
    (∀ b, i = .mscl o b →
      let d := memDesc (BitVec.ofNat 128 (desc o.a 16))
      goes (u.locFault (descLoc o o.a 16) = none ∧ d.etype = 0xB ∧ d.rows ≤ 96 ∧ d.cols ≤ 64 ∧
          u.descFaults i d 32 (if b then piecesB size else piecesA size) = [])
        fun cmd => cmd.descA = BitVec.ofNat 256 (desc o.a 16)) ∧
    (i = .join o →
      goes (∀ x, x = o.a ∨ x = o.b ∨ x = o.d →
          u.locFault (descLoc o x 16) = none ∧ u.fiberFaults i (BitVec.ofNat 128 (desc x 16)) = [])
        fun cmd => cmd.descA.toNat = desc o.a 16 ∧ cmd.descB.toNat = desc o.b 16 ∧ cmd.descD.toNat = desc o.d 16) ∧
    (i = .jdrain o ∨ i = .jdrainResume o →
      let d : BitVec 256 := BitVec.ofNat 256 (desc o.d 32)
      goes (u.locFault (descLoc o o.d 32) = none ∧ d.extractLsb' 240 16 = 0 ∧ d.extractLsb' 216 24 ≠ 0 ∧
          (d.extractLsb' 192 24).toNat + (d.extractLsb' 216 24).toNat ≤ 0xFFFFFF ∧
          (d.extractLsb' 0 2 = 0 ∧ d.extractLsb' 64 2 = 0 ∧ d.extractLsb' 128 2 = 0))
        fun cmd => cmd.descD = d ∧ cmd.viewD = BitVec.ofNat 64 (scAddr o o.d)) ∧
    (i = .azero o → goes True fun _ => True) ∧
    (i = .aswap o ∨ i = .azeroVis o → clean → goes True fun _ => True) ∧
    (i = .azero o ∨ ((i = .aswap o ∨ i = .azeroVis o) ∧ clean) → u.ownsMill = false →
      exec i s = .next (u.trap 0x09 u.myCore.mill.millst u.me.faultPc))

/-- MFMT sets the format register, and takes the mill of its core where it has no owner, with both scale buffers at 1.0; it
holds while another context owns it. MFMT `.rel` gives it up. MWAIT retires once the context has no command queued; a mill trap
that waits is raised then (11 R290 to R293, R305). On the handler context MFMT raises Mill Ownership. GANG `.lead` claims the
named cores in one step: an IDLE context of each becomes a follower of its rank and owns its mill, with the leader's format
register, privilege and TBLROOT (these two: log entry 85), and the leader takes rank 0; it holds while a core does not qualify,
or another claim or MFMT is served first. `.follow` acts as MWAIT. `.leave` of the leader, once its followers have issued what
it has, makes them IDLE and frees their mills (02 R40 to R42, 11 R306 to R309). The claim may come due while the leader holds:
it then retires the leader's GANG `.lead`, and otherwise changes nothing. -/
def Obligations.MillControlAndGangsComplete : Prop :=
  (∀ (s : State) (o : Ops),
     let u := s.entered o
     let m := u.myCore.mill
     (s.goes (.mfmt o) o = true → u.onHandler = false → u.locsFault [scLoc o o.a] = none →
       (m.owned = true → m.owner = u.curCtx → ∃ v, exec (.mfmt o) s = .next v ∧
         Retires (u.setMill u.curCore { m with millfmt := u.scOp o o.a }) v o []) ∧
       (m.owned = true → m.owner ≠ u.curCtx → exec (.mfmt o) s = .next u.stall) ∧
       (m.owned = false → ∃ v, exec (.mfmt o) s = .next v ∧ v.mem = u.mem ∧
         (v.core u.curCore).mill = { m with
           owned := true, owner := u.curCtx, gang := false, scaleA := scaleOnes, scaleB := scaleOnes, recA := 0, recB := 0,
           millfmt := u.scOp o o.a } ∧
         v.me.store = u.me.store ∧ v.me.preds = u.me.preds ∧ v.me.results = u.me.results ∧
         (u.me.repOn = false → v.me.pc = u.me.pc + BitVec.ofNat 64 o.bytes))) ∧
     (s.goes (.mfmt o) o = true → u.onHandler = true → u.locsFault [scLoc o o.a] = none →
       exec (.mfmt o) s = .next (u.trap 0x09 m.millst u.me.faultPc)) ∧
     (s.goes (.mfmtRel o) o = true → u.onHandler = false → u.millQuiet = true →
       ∃ v, exec (.mfmtRel o) s = .next v ∧ Retires
         (if u.ownsMill && !m.gang then (u.setMill u.curCore { m with owned := false }).callIdle u.curCore else u) v o []) ∧
     (s.goes (.mwait o) o = true →
       (u.millQuiet = true → ∃ v, exec (.mwait o) s = .next v ∧ Retires u v o []) ∧
       ((∃ q ∈ m.queue, q.ctx = u.curCtx) → exec (.mwait o) s = .next u.stall) ∧
       (∀ d, u.me.strand = some d → d.pend = 0 → m.pend ≠ 0 → u.ownsMill = true → (∀ q ∈ m.queue, q.ctx ≠ u.curCtx) →
         u.me.returned = true → exec (.mwait o) s = .next
           ((u.setMill u.curCore { m with pend := 0, pendinfo := 0, discarded := 0 }).trap m.pend m.pendWord u.me.faultPc)))) ∧
  (∀ (s : State) (o : Ops),
     let u := s.entered o
     let cs := gangCores u.curCore ((u.scOp o o.a).setWidth 8)
     (s.goes (.gangLead o) o = true → u.locsFault [scLoc o o.a] = none → u.me.inGang = false →
       (u.scOp o o.a).getLsbD (u.curCore % 8) = true → cs ≠ [] → u.ownsMill = true →
       (u.mayClaim cs = false → exec (.gangLead o) s = .next u.stall) ∧
       (u.mayClaim cs = true → ∃ v, exec (.gangLead o) s = .next v ∧ Retires (u.claim cs) v o [] ∧ v.mem = u.mem ∧
         v.me.grank = grankOf (cs.length + 1) 0 ∧ v.me.store = u.me.store ∧ (v.core u.curCore).mill.gang = true ∧
         ∀ i c, cs[i]? = some c → ∃ k, u.idleCtx c = some k ∧ (v.ctx c k).status = .following ∧
           (v.ctx c k).grank = grankOf (cs.length + 1) (i + 1) ∧ (v.ctx c k).lead = u.curCore ∧
           (v.ctx c k).pc = u.me.pc ∧ (v.ctx c k).priv = u.me.priv ∧ (v.ctx c k).tblroot = u.me.tblroot ∧
           (v.core c).mill.owned = true ∧ (v.core c).mill.owner = k ∧ (v.core c).mill.gang = true ∧
           (v.core c).mill.millfmt = u.myCore.mill.millfmt)) ∧
     (∀ i, i = .gangFollow o ∨ i = .gangLeave o → s.goes i o = true → u.onHandler = false →
       (u.me.leads = false → u.millQuiet = true → ∃ v, exec i s = .next v ∧ Retires u v o []) ∧
       (u.me.leads = true → u.me.hold ≠ .gang → u.millQuiet = true →
         exec i s = .next (u.setMe { u.me with hold := .gang })) ∧
       (i = .gangFollow o → u.me.leads = true → u.me.hold = .gang → ∃ v, exec i s = .next v ∧ Retires u v o []) ∧
       (i = .gangLeave o → u.me.leads = true → u.me.hold = .gang → ∃ v, exec i s = .next v ∧ Retires u.endGang v o [] ∧
         v.me.grank = 0 ∧ v.mem = u.mem ∧ ∀ f ∈ u.followers u.curCore,
           (v.ctx f.1 f.2.1).status = .idle ∧ (v.core f.1).mill.owned = false)) ∧
     (∀ (c : CoreId) (k : CtxId), (s.ctx c.val k.val).hold ≠ .wait → exec (.gangClaim c k) s = .next s) ∧
     (∀ (c : CoreId) (k : CtxId) (w : State), (s.ctx c.val k.val).hold = .wait →
       s.nextOf c.val k.val = some (.gangLead o, w) → w.goes (.gangLead o) o = true →
       let e := w.entered o
       let ds := gangCores e.curCore ((e.scOp o o.a).setWidth 8)
       e.locsFault [scLoc o o.a] = none → (e.scOp o o.a).getLsbD (e.curCore % 8) = true → ds ≠ [] → e.ownsMill = true →
       (e.mayClaim ds = true → ∃ t, exec (.gangClaim c k) s = .next t ∧ Retires (e.claim ds) t o [] ∧
         (t.ctx c.val k.val).grank = grankOf (ds.length + 1) 0) ∧
       (e.mayClaim ds = false → exec (.gangClaim c k) s = .next s)))

/-- A mill's commands run in order. The head of the queue starts once the context's earlier accesses are performed and no mill
trap is pending; while one is, commands are discarded and counted. A started command completes with its effect and leaves the
queue: ASWAP exchanges the banks, AZERO clears the working one, JSTAT and DRAINPOS, AZERO `.vis` the visible one, MSCL fills its
buffer, a product its accumulators. A drain that is current has DRAINPOS running; it stays current while its writes are on their
way, and one whose write fails stops with cause 0x0F pending. The ramp limit's level rises while a product is current, at most
to 16, and returns to 1 (10 R267, R270, R285, R286, 11 R291, R304, 19 R445). What an accumulation of the integer class does: the
exact sum of the old accumulator and a group's products, brought into the range of 32 bits, with `sat` where that changes it (04
R109, R110). -/
def Obligations.MillCommandsRun : Prop :=
  (∀ (s : State) (c : CoreId),
     let m := (s.core c.val).mill
     let milled := fun (i : Instr) (m' : Mill) => ∃ t, exec i s = .next t ∧ (t.core c.val).mill = m'
     (∀ q r, m.queue = q :: r → q.started = false → s.performed c.val q.ctx = true →
       (m.pend ≠ 0 → milled (.millCommandCurrent c)
         { m with queue := r, discarded := if m.discarded = 7 then 7 else m.discarded + 1 }) ∧
       (m.pend = 0 → (∀ p, q.mul = some p → p.scaleFault m (s.bitRows c.val q p.bma p.pa) (s.bitRows c.val q p.bmb p.pb) = none) → milled (.millCommandCurrent c)
         { m with queue := { q with started := true } :: r, drainpos := q.beginPos m.drainpos })) ∧
     (∀ q r, m.queue = q :: r → q.started = true → s.millBad c.val q = none →
       (∀ o, q.instr = .aswap o → milled (.millCommandComplete c) { m with queue := r, vis1 := !m.vis1 }) ∧
       (∀ o, q.instr = .azero o → milled (.millCommandComplete c)
         { m with queue := r, jstat := 0, drainpos := 0, bank0 := if m.vis1 then [] else m.bank0,
                  bank1 := if m.vis1 then m.bank1 else [] }) ∧
       (∀ o, q.instr = .azeroVis o → milled (.millCommandComplete c)
         { m with queue := r, bank0 := if m.vis1 then m.bank0 else [], bank1 := if m.vis1 then [] else m.bank1 }) ∧
       (∀ o, q.instr = .mscl o false →
         let d : BitVec 128 := q.descA.setWidth 128
         milled (.millCommandComplete c) { m with
           queue := r, recA := d, scaleA := s.loadScales c.val q.ctx m.scaleA (memDesc d) (pieceA q.rank) }) ∧
       (∀ o f p, q.instr = .mmul o f → q.mul = some p → ∃ t, exec (.millCommandComplete c) s = .next t ∧
         (t.core c.val).mill = { (s.mulEffect c.val q p).1 with queue := r } ∧ t.mem = s.mem ∧
         (t.ctx c.val q.ctx).fpstatus = (s.ctx c.val q.ctx).fpstatus ||| (s.mulEffect c.val q p).2.setWidth 64) ∧
       (∀ o, q.instr = .mscl o true →
         let d : BitVec 128 := q.descA.setWidth 128
         milled (.millCommandComplete c) { m with
           queue := r, recB := d, scaleB := s.loadScales c.val q.ctx m.scaleB (memDesc d) (pieceB q.rank) }) ∧
       (∀ o t, q.instr = .jdrain o →
         (s.drainRun c.val q = .done t → ∃ v, exec (.millCommandComplete c) s = .next v ∧ v.mem = t.mem ∧
           (v.core c.val).mill.drainpos = (t.core c.val).mill.drainpos) ∧
         (∀ q', s.drainRun c.val q = .waits t q' → ∃ v, exec (.millCommandComplete c) s = .next v ∧ v.mem = t.mem ∧
           (v.core c.val).mill = { (t.core c.val).mill with queue := q' :: (t.core c.val).mill.queue.drop 1 }) ∧
         (∀ info, s.drainRun c.val q = .fails t info →
           exec (.millCommandComplete c) s = .next (s.owe (.drainInterrupted c)) ∧
           ((t.core c.val).mill.pend = 0 →
             ∃ v, exec (.drainInterrupted c) s = .next v ∧ v.mem = t.mem ∧ (v.core c.val).mill.pend = 0x0F ∧
               (v.core c.val).mill.pendinfo = info ∧ (v.core c.val).mill.discarded = 0 ∧
               (v.core c.val).mill.drainpos = (t.core c.val).mill.drainpos)))) ∧
     (m.multiplying = true → milled (.rampRise c) { m with level := min 16 (m.level + 1) }) ∧
     (m.multiplying = false → milled (.rampFall c) { m with level := 1 })) ∧
  (∀ (cl : MulClass) (mode : Mode) (acc : Nat) (ps : List Int), cl.int = true → cl.f64 = false → ps ≠ [] →
     let sum := (BitVec.ofNat 32 acc).toInt + ps.sum
     let q := min (2 ^ 31 - 1) (max (-(2 ^ 31)) sum)
     cl.accumulate mode acc (ps.map Val.ofInt) = ((BitVec.ofInt 32 q).toNat, raise fSat (q ≠ sum)))


/-! ### Tasks, futures, barriers and channels -/

/-- SPAWN, SPAWNR, SPLIT, POPF, SYNC, PUBLISH on a task context outside a gang, once what their releases wait for has come (02 R32 to
R37, 12 R313 to R318). SPAWN pushes the continuation and goes on at its target; SPAWNR pushes a range frame under the
strand's S, which counts one more; POPF and SPLIT take the tail range, or its lower half where it exceeds its grain, and
write 0 where there is none; SYNC retires at a count of 0 and parks above it; PUBLISH publishes every frame of the deque. -/
def Obligations.TasksComplete : Prop :=
  ∀ (s : State) (o : Ops) (d : Strand),
    let u := s.entered o
    let c := u.curCore
    let k := u.curCtx
    let piece := fun (a second : Nat) => fixedResult 1 [cellAt (scAddr o o.d) 16 (a + second * 2 ^ 64)]
    let l := u.myCore.slotsOf d
    u.onHandler = false → u.me.follows = false → u.me.strand = some d →
    (s.goes (.spawn o) o = true → u.locsFault [scLoc o o.a] = none →
      ((u.scOp o o.a).extractLsb' 0 4 ≠ 0 → exec (.spawn o) s = .next (u.trap 0x03 (u.scOp o o.a) u.me.faultPc)) ∧
      ((u.scOp o o.a).extractLsb' 0 4 = 0 → u.pushFault d = none → u.me.returned = true →
        let f := u.continuation o d
        let w := u.pushFrame c k f
        ∃ v, exec (.spawn o) s = .next v ∧
          Retires (w.setMe { w.me with strand := w.me.strand.map fun e => { e with synch := 0 } }) v o []
            (some (u.spawnTarget o)) ∧
          v.mem = u.mem ∧
          ∀ q, d.deque = some q → ((look [] (v.core c).deques q).getLast?.bind Slot.frame?) = some f)) ∧
    (s.goes (.spawnr o) o = true → u.locsFault [scLoc o o.d, scLoc o o.a, scLoc o o.b] = none →
      (u.scOp o o.d).extractLsb' 0 4 = 0 → (u.scOp o o.b).extractLsb' 0 2 = 0 →
      (d.synch ≠ 0 → u.stale (hamOf c) d.synch = false) → u.pushFault d = none → u.releaseReady u.objScope false = true →
      let t := u.release u.objScope
      (d.synch ≠ 0 → t.objBusy (hdHam d.synch) = false) →
      ∀ hd w, t.oneMore d = some (hd, w) →
        let f : Frame := { pc := (u.scOp o o.b).setWidth 57, kind := 1, fp := (u.scOp o o.d).setWidth 57, arg := u.scOp o o.a,
                           parentj := hd, prio := d.prio, features := d.features, tile := d.tile }
        let x := w.setMe { w.me with strand := w.me.strand.map fun e => { e with synch := hd } }
        ∃ v, exec (.spawnr o) s = .next v ∧ Retires (x.pushFrame c k f) v o []) ∧
    (∀ i (split : Bool), i = (if split then .split o else .popf o) → s.goes i o = true → u.locsFault [rsLoc o o.d 16] = none →
      (l = [] → ∃ v, exec i s = .next v ∧ Retires u v o [piece 0 0]) ∧
      (∀ q f n, d.deque = some q → l.getLast? = some { item := .frame f, spilled := false, stamp := n } →
        u.donating = false → f.kind = 1 →
        ((split = false ∨ rangeSplits f.arg = false) → ∃ v, exec i s = .next v ∧
          Retires ((u.ownerTakes c q).setSlots c q l.dropLast) v o [piece f.arg.toNat (2 ^ 63 + f.parentj.toNat)]) ∧
        (split = true → rangeSplits f.arg = true → f.parentj ≠ 0 → u.stale (hamOf c) f.parentj = false →
          u.releaseReady u.objScope false = true → (u.release u.objScope).objBusy (hdHam f.parentj) = false →
          let mid := rangeMid f.arg
          let t := (u.release u.objScope).addCount f.parentj 1
          ∃ v, exec i s = .next v ∧
            Retires ((t.ownerTakes c q).setSlots c q (l.dropLast ++
              [{ item := .frame { f with arg := rangeArg f.arg (rangeHi f.arg) mid }, spilled := false, stamp := n }])) v o
              [piece (rangeArg f.arg mid (rangeLo f.arg)).toNat (2 ^ 63 + f.parentj.toNat)]))) ∧
    (s.goes (.sync o) o = true →
      (d.synch = 0 → ∃ v, exec (.sync o) s = .next v ∧ Retires u v o []) ∧
      (d.synch ≠ 0 → u.stale (hamOf c) d.synch = false → u.objBusy (hdHam d.synch) = false →
        ((u.future d.synch).value.toInt ≤ 0 → ∃ v, exec (.sync o) s = .next v ∧
          Retires (u.acquire (if (u.future d.synch).donated then .sys else u.objScope)) v o []) ∧
        (0 < (u.future d.synch).value.toInt → exec (.sync o) s = .next (u.park 0x02 (d.synch.setWidth 64)))) ∧
      (d.synch ≠ 0 → u.stale (hamOf c) d.synch = true →
        exec (.sync o) s = .next (u.trap 0x0A (u.staleInfo d.synch) u.me.faultPc))) ∧
    (s.goes (.publish o) o = true → u.releaseReady .pkg false = true →
      let t := u.release .pkg
      (d.deque = none → ∃ v, exec (.publish o) s = .next v ∧ Retires t v o []) ∧
      (∀ q, d.deque = some q → ∃ v, exec (.publish o) s = .next v ∧
        Retires (t.setSlots c q ((look [] t.myCore.deques q).map Slot.published)) v o []))

/-- TEND ends a strand: the tail continuation of its deque runs next, in the same context, at its pc; with an empty deque the
count of the strand's join falls by one, or nothing more is done for a strand without one, and the context becomes IDLE.
DONATE answers 2 where no frame may leave, 1 where the queue is full and 0 where it takes the frame. A gang's follower acts on
TEND as on MWAIT (02 R34, R51, 11 R308, 12 R319, R320). Reserved bits of the target word are Illegal Instruction before anything
else of DONATE is looked at (17 R409); a package whose effective port mask is zero gets status 3 with a record of class 0 (20 R459).
The model's choices: the answer 2 comes before the target's package is looked at, and the frame stays for status 3 (log entry 62,
DEDUCED); the popped pc is sign-extended (log entry 19, DEDUCED). -/
def Obligations.StrandEndsAndDonations : Prop :=
  (∀ (s : State) (o : Ops) (d : Strand),
    let u := s.entered o
    let c := u.curCore
    let l := u.myCore.slotsOf d
    let out := fun (n : Nat) => [varResult [cellAt (scAddr o o.d) 8 n]]
    u.onHandler = false → u.me.follows = false → u.me.strand = some d →
    (s.goes (.tend o) o = true → u.me.leads = false → u.millQuiet = true → u.ownsMill = false → u.me.tokens = 0xFF →
      u.me.marks = [] → d.synch = 0 →
      (∀ q f n, d.deque = some q → l.getLast? = some { item := .frame f, spilled := false, stamp := n } → f.kind = 0 →
        u.donating = false → ∃ v, exec (.tend o) s = .next v ∧ v.mem = u.mem ∧ v.me.pc = sext57 f.pc ∧
          v.me.store = u.me.store ∧ v.me.status = u.me.status ∧
          (l.length ≠ 1 → look [] (v.core c).deques q = l.dropLast) ∧
          v.me.strand.map Strand.base = some f.parentj ∧ v.me.strand.map Strand.synch = some f.synch ∧
          v.me.strand.map Strand.fp = some f.fp ∧ v.me.strand.map Strand.root = some f.root) ∧
      (l = [] → d.donated = false → d.root = false →
        (d.base = 0 → u.releaseReady .hamlet false = true → ∃ v, exec (.tend o) s = .next v ∧ v.mem = u.mem ∧
          v.me.status = .idle ∧ v.me.strand = none) ∧
        (d.base ≠ 0 → u.stale (hamOf c) d.base = false → u.releaseReady u.objScope false = true →
          (u.release u.objScope).objBusy (hdHam d.base) = false → 1 < (u.future d.base).value.toInt →
          ∃ v, exec (.tend o) s = .next v ∧ v.me.status = .idle ∧ v.me.strand = none ∧
            (v.future d.base).value = (u.future d.base).value - 1 ∧ (v.future d.base).gen = (u.future d.base).gen))) ∧
    (s.goes (.donate o) o = true → u.locsFault [scLoc o o.a] = none → (u.scOp o o.a).extractLsb' 24 40 ≠ 0 →
      exec (.donate o) s = .next (u.trap 0x01 (baseInfo (.donate o)) u.me.faultPc)) ∧
    (s.goes (.donate o) o = true → u.locsFault [scLoc o o.a, scLoc o o.d] = none → (u.scOp o o.a).extractLsb' 24 40 = 0 →
      (d.deque = none → ∃ v, exec (.donate o) s = .next v ∧ Retires u v o (out 2)) ∧
      (∀ q, d.deque = some q → u.releaseReady .sys false = true →
        let t := u.release .sys
        let m := look [] t.myCore.deques q
        let qu := look ({} : DonQueue) t.hub.donqs ((u.scOp o o.a).extractLsb' 20 4).toNat
        (openSlot m = none → ∃ v, exec (.donate o) s = .next v ∧ Retires t v o (out 2)) ∧
        (∀ i f, openSlot m = some i → (m[i]?.bind Slot.frame?) = some f → (u.scOp o o.a).extractLsb' 0 20 ≠ t.pkgid →
          t.portMask ((u.scOp o o.a).extractLsb' 0 20) = 0 → ∃ v, exec (.donate o) s = .next v ∧
            Retires (t.donationRecord t.curCore 0) v o (out 3) ∧ v.myCore.deques = t.myCore.deques) ∧
        (∀ i f, openSlot m = some i → (m[i]?.bind Slot.frame?) = some f → (u.scOp o o.a).extractLsb' 0 20 = t.pkgid →
          (qu.cap ≤ qu.frames.length → ∃ v, exec (.donate o) s = .next v ∧ Retires t v o (out 1)) ∧
          (qu.frames.length < qu.cap → ∀ g w, t.donateCounts f = some (g, w) →
            let r := w.dequeTiles c q f
            let e := r.2.donateLeave c q i g
            let x := e.2.setMyHam { e.2.myHam with sent := e.2.myHam.sent + 1, received := e.2.myHam.received + 1 }
            ∃ v, exec (.donate o) s = .next v ∧
              Retires (x.donation x.pkgid ((u.scOp o o.a).extractLsb' 20 4) (x.stamped e.1) r.1).2 v o (out 0)))))) ∧
  ∀ (s : State) (o : Ops),
    let u := s.entered o
    s.goes (.tend o) o = true → u.onHandler = false → u.me.follows = true → u.millQuiet = true →
      ∃ v, exec (.tend o) s = .next v ∧ Retires u v o []

/-- Futures (02 R44 to R46, 12 R321 to R324). FNEW takes a free entry of the own hamlet and gives its handle, null where there is
none. FPUT fills a value future once, answering 0 and then 1, and adds to a count, answering the sum; FGET brings a full
value or a count of 0 or less, and parks otherwise; `.poll` says whether there is one; FREL returns the entry with the next
generation. A stale handle raises Future Stale; kernel code on an entry of the pager raises Privileged Instruction. What FGET.poll
brings of an entry of the pager is the model's reading: not ready, and a free value (log entry 81, DEDUCED). -/
def Obligations.FuturesComplete : Prop :=
  ∀ (s : State) (o : Ops),
    let u := s.entered o
    let hd := handleIn (u.scOp o o.a)
    let f := u.future hd
    let h := hamOf u.curCore
    let out := fun (n : Nat) => [varResult [cellAt (scAddr o o.d) 8 n]]
    let fresh := u.stale h hd = false ∧ u.objBusy (hdHam hd) = false
    u.onHandler = false → u.me.follows = false →
    (∀ i (count : Bool), i = (if count then .fnewCount o else .fnew o) → s.goes i o = true →
      u.locsFault ((if count then [scLoc o o.a] else []) ++ [scLoc o o.d]) = none →
      let kind : FKind := if count then .count else .value
      (u.freeEntry h = none → ∃ v, exec i s = .next v ∧ Retires u v o (out 0)) ∧
      (∀ e, u.freeEntry h = some e → h < 256 →
        let old := look {} (u.ham h).futures e
        let hd' := handleOf old.gen h e
        let new := { old with kind := kind, full := false, value := if count then u.scOp o o.a else 0 }
        ∃ v, exec i s = .next v ∧ Retires (State.setFuture { u with free := u.free + 1 } hd' new) v o (out hd'.toNat) ∧
          v.mem = u.mem ∧ v.future hd' = new ∧
          ∀ g e', g ≠ h ∨ e' ≠ e → look {} (v.ham g).futures e' = look {} (u.ham g).futures e')) ∧
    (s.goes (.fput o) o = true → u.locsFault [scLoc o o.a] = none →
      (pagerEntry hd = true → u.me.priv = .kernel → exec (.fput o) s = .next (u.trap 0x02 (baseInfo (.fput o)) u.me.faultPc)) ∧
      ((pagerEntry hd = true → u.me.priv ≠ .kernel) →
        u.locsFault ((if o.lit.isSome then [] else [scLoc o o.b]) ++ [scLoc o o.d]) = none →
        (u.stale h hd = true → exec (.fput o) s = .next (u.trap 0x0A (u.staleInfo hd) u.me.faultPc)) ∧
        (u.stale h hd = false → u.releaseReady u.objScope false = true →
          let t := u.release u.objScope
          t.objBusy (hdHam hd) = false →
          let g := t.future hd
          (g.kind = .value → g.full = true → ∃ v, exec (.fput o) s = .next v ∧ Retires t v o (out 1)) ∧
          (g.kind = .value → g.full = false → 
            let new := { g with full := true, value := u.bLit o }
            ∃ v, exec (.fput o) s = .next v ∧ v.future hd = new ∧
              Retires ((t.setFuture hd new).wake (hdHam hd) (hd.setWidth 64) evValue) v o (out 0)) ∧
          (g.kind = .count → ∃ v, exec (.fput o) s = .next v ∧
            Retires (t.addCount hd (u.bLit o)) v o (out (g.value + u.bLit o).toNat) ∧
            v.future hd = { g with value := g.value + u.bLit o }) ∧
          (g.kind = .pager → ∃ v, exec (.fput o) s = .next v ∧ Retires (t.pagerDone hd (u.bLit o).toNat) v o (out 0))))) ∧
    (s.goes (.fget o) o = true → u.locsFault [scLoc o o.a, scLoc o o.d] = none → u.me.answer = none → fresh →
      let ready := (f.kind = .value ∧ f.full = true) ∨ (f.kind = .count ∧ f.value.toInt ≤ 0)
      (ready → ∃ v, exec (.fget o) s = .next v ∧ Retires (u.acquire u.objScope) v o (out f.value.toNat)) ∧
      (¬ ready → f.kind ≠ .free → exec (.fget o) s = .next (u.park
        (match f.kind with | .value => 0x01 | .count => 0x02 | _ => 0x08) (hd.setWidth 64)))) ∧
    (s.goes (.fgetPoll o) o = true → u.locsFault [scLoc o o.a, rsLoc o o.d 16] = none → fresh →
      let pair := fun (n : Nat) => [varResult [cellAt (scAddr o o.d) 16 n]]
      ((f.kind = .value ∧ f.full = true) ∨ (f.kind = .count ∧ f.value.toInt ≤ 0) →
        ∃ v, exec (.fgetPoll o) s = .next v ∧ Retires (u.acquire u.objScope) v o (pair (f.value.toNat + 2 ^ 64))) ∧
      (f.kind = .value → f.full = false → ∃ v, exec (.fgetPoll o) s = .next v ∧ Retires u v o (pair 0)) ∧
      (f.kind = .count → 0 < f.value.toInt → ∃ v, exec (.fgetPoll o) s = .next v ∧ Retires u v o (pair f.value.toNat)) ∧
      (f.kind = .pager → ∃ v, exec (.fgetPoll o) s = .next v ∧
        Retires { u with free := u.free + 1 } v o (pair (Config.freeWord u.free).toNat))) ∧
    (s.goes (.frel o) o = true → u.locsFault [scLoc o o.a] = none → (pagerEntry hd = true → u.me.priv ≠ .kernel) →
      (u.stale h hd = true → exec (.frel o) s = .next (u.trap 0x0A (u.staleInfo hd) u.me.faultPc)) ∧
      (fresh → ∃ v, exec (.frel o) s = .next v ∧ Retires (u.freeFuture hd) v o [] ∧
        (v.future hd).kind = .free ∧ (v.future hd).gen = nextGen f.gen))

/-- BAR, QUIESCE, CHSEND and CHRECV (03 R84, R85, R90, 12 R325 to R329). BAR arrives once and retires, with its acquire, when its
release has reached the strand; until then the context parks. QUIESCE retires once a detection that it joined has ended.
CHSEND writes the slot after the last filled one of a channel with room, in the receiver's commons buffer (05 R130), and CHRECV
takes the oldest, each waking a strand that waits for it; a full or an empty channel parks them. An unknown channel raises
Channel Undeclared. QUIESCE outside a launch (log entry 77) and the keys by which answers are told apart (log entries 78, 119) are
the model's. -/
def Obligations.BarriersAndChannelsComplete : Prop :=
  ∀ (s : State) (o : Ops),
    let u := s.entered o
    let h := hamOf u.curCore
    u.onHandler = false → u.me.follows = false →
    (∀ n sc, s.goes (.bar o n sc) o = true →
      ((u.answered (barKey h sc n)).isSome = true →
        ∃ v, exec (.bar o n sc) s = .next v ∧ Retires (u.acquire (BarScope.scope sc)) v o []) ∧
      (u.me.answer = none → u.me.parking = none → u.releaseReady (BarScope.scope sc) false = true →
        let r := (u.release (BarScope.scope sc)).arrive h sc n
        exec (.bar o n sc) s = .next (if r.2.1 then r.2.2.waitHere 0x05 (barKey h sc n) r.1
          else r.2.2.park 0x05 (barKey h sc n) r.1))) ∧
    (∀ (sc : BarScope) (n : BitVec 2), let b := u.barrier h sc n
      let r := u.arrive h sc n
      (b.state = .counting → b.count + 1 < expectOf (u.pattern h) n.toNat →
        r.1 = b.episode ∧ r.2.2.barrier h sc n = { b with count := b.count + 1 }) ∧
      (b.state = .counting → expectOf (u.pattern h) n.toNat ≤ b.count + 1 →
        r.1 = b.episode ∧ (r.2.2.barrier h sc n).count = 0 ∧
        (r.2.2.barrier h sc n).state = if sc = .hamlet then .releasing else .sent) ∧
      (b.state ≠ .counting → r.1 = b.episode + 1 ∧ (r.2.2.barrier h sc n).count = b.count + 1)) ∧
    (s.goes (.quiesce o) o = true →
      (u.launchOf h = none → (u.sums [h]).1 = (u.sums [h]).2 →
        ∃ v, exec (.quiesce o) s = .next v ∧ Retires ((u.writeBackAll h).acquire .pkg) v o []) ∧
      (∀ l, u.launchOf h = some l →
        (l.finished.contains (u.curCore, u.curCtx) = true → ∃ v, exec (.quiesce o) s = .next v ∧ Retires
          ((u.setLaunch { l with finished := l.finished.filter (· ≠ (u.curCore, u.curCtx)) }).acquire .pkg) v o []) ∧
        (l.finished.contains (u.curCore, u.curCtx) = false → l.detection = none →
          exec (.quiesce o) s = .next ((u.setLaunch { l with
            detection := some { waiting := [(u.curCore, u.curCtx)], last := none, sweeps := 0, down := l.treeRoots, sum := (0, 0) } }).owe
              (.detectionSweep l.seq.toNat)).stall))) ∧
    (∀ i ch (send : Bool), i = (if send then .chsend o ch else .chrecv o ch) → s.goes i o = true → u.locsFault [scLoc o o.a] = none →
      let to_ := (u.scOp o o.a).toNat % 256
      let x := scAddr o o.d
      (u.scOp o o.a).toNat < 256 →
      ((u.inSet h to_ = false ∨ find (u.ham to_).channels ch.toNat = none) →
        exec i s = .next (u.trap 0x0C (BitVec.ofNat 64 (to_ + ch.toNat * 256)) u.me.faultPc)) ∧
      (∀ c, u.inSet h to_ = true → find (u.ham to_).channels ch.toNat = some c →
        x % c.size = 0 → u.locsFault [{ addr := x, bytes := c.size, storeOnly := true }] = none → u.objBusy to_ = false →
        (send = true → c.count < c.slots → u.releaseReady u.objScope false = true →
          ∃ v, exec i s = .next v ∧ Retires (((((u.release u.objScope).homePut (c.slotAt to_ ch.toNat c.count)
            (offsets (bytesOf c.size (u.rs x c.size)))).setChan to_ ch.toNat { c with count := c.count + 1 }).wake to_
              (chanKey to_ ch.toNat) evFilled)) v o []) ∧
        (send = true → c.slots ≤ c.count → exec i s = .next (u.park 0x06 (chanKey to_ ch.toNat))) ∧
        (send = false → c.count = 0 → exec i s = .next (u.park 0x07 (chanKey to_ ch.toNat))) ∧
        (send = false → c.count ≠ 0 →
          let pa := c.slotAt to_ ch.toNat 0
          (u.listedLine (pa / 64 * 64) = true → exec i s = .next (u.trap 0x11 (u.badInfo (pa / 64 * 64)) u.me.faultPc)) ∧
          (u.listedLine (pa / 64 * 64) = false → ∃ v, exec i s = .next v ∧ Retires
            (((u.setChan to_ ch.toNat { c with head := (c.head + 1) % c.slots, count := c.count - 1 }).wake to_
              (chanKey to_ ch.toNat) evFreed).acquire u.objScope) v o
            [varResult [cellAt x c.size (ofBytes (u.homeRead pa c.size))]]))))


/-! ### Copies, tokens and reductions -/

/-- COPY, WAITK and TOKQ, and the copy engine. COPY, with its descriptor in order and its token set, waits until every earlier
access of the context is performed, then writes the hamlet's dirty bytes of its source back, clears its token and enters
the engine; of no bytes, it leaves the token set; a descriptor out of its limits raises Illegal Instruction. WAITK retires
once its tokens are set, with their acquires, and holds until then. TOKQ brings the tokens with latency 2. The engine moves
a piece of the source to the destination, sets the token when all is moved, tells the reeve of a fault, and goes on at
disposition 0 (12 R330 to R336, 06 R162, R163, 19 R434, R435). That a piece is an event of its own (log entry 72, DEDUCED) and what
a `.cvt` of wire code 0 is (log entry 73) are the model's. -/
def Obligations.CopiesAndTokensComplete : Prop :=
  ∀ (s : State) (o : Ops),
    let u := s.entered o
    let d : BitVec 256 := BitVec.ofNat 256 (u.rs (scAddr o o.a) 32)
    let tok : BitVec 3 := o.d.setWidth 3
    (∀ f, s.goes (.copy o f) o = true → u.locsFault [{ rsLoc o o.a 32 with storeOnly := true }] = none →
      (copyIllegal f d = true → exec (.copy o f) s = .next (u.trap 0x01 (baseInfo (.copy o f)) u.me.faultPc)) ∧
      (copyIllegal f d = false → (copyLen d ≠ 0 → copyMisaligned f d = none ∧ u.copyFaultOf f d = none) →
        (u.me.tokens.getLsbD tok.toNat = false ∨ u.allPerformed = false → exec (.copy o f) s = .next u.stall) ∧
        (u.me.tokens.getLsbD tok.toNat = true → u.allPerformed = true →
          ∃ v, exec (.copy o f) s = .next v ∧ Retires ((u.flushSource f d).issueCopy o f d) v o [] ∧
            (copyLen d = 0 → v.me.tokens = u.me.tokens ∧ v.myCore.copies = u.myCore.copies) ∧
            (copyLen d ≠ 0 → v.me.tokens = u.me.tokens &&& ~~~ tokBit tok ∧
              ∃ y, v.myCore.copies = u.myCore.copies ++ [y] ∧ y.ctx = u.curCtx ∧ y.tok = tok ∧ y.desc = d ∧ y.form = f ∧
                y.off = 0 ∧ y.state = .going ∧ y.root = u.me.tblroot ∧ y.priv = u.me.priv)))) ∧
    (∀ any, s.goes (.waitk o any) o = true →
      let m := waitMask o
      let got := m &&& u.me.tokens
      let met := if any then m = 0 ∨ got ≠ 0 else got = m
      (¬ met → exec (.waitk o any) s = .next u.stall) ∧
      (met → u.me.marks = [] → ∃ v, exec (.waitk o any) s = .next v ∧ Retires (u.acquireTokens got) v o [])) ∧
    (s.goes (.tokq o) o = true → u.locsFault [scLoc o o.d] = none →
      ∃ v, exec (.tokq o) s = .next v ∧ Retires u v o [fixedResult 2 (intoD o (u.me.tokens.setWidth 64))]) ∧
    (∀ (c : CoreId) (k : CtxId) (t : BitVec 3) y, s.copyOf c.val k.val t = some y →
      (y.state = .going → copyLen y.desc * copyCount y.form y.desc ≤ y.off → y.out = [] → y.ended = false →
        ∃ v, exec (.copyComplete c k t) s = .next v ∧ v.copyOf c.val k.val t = none ∧ v.mem = s.mem ∧
          (v.ctx c.val k.val).tokens = (s.ctx c.val k.val).tokens ||| tokBit t ∧
          (v.ctx c.val k.val).marks = (s.ctx c.val k.val).marks) ∧
      (∀ pa pb w x, let n := copyLen y.desc
        let a := copySrc y.desc
        let b := copyDst y.desc
        y.state = .going → y.form = .plain → y.off = 0 → y.ended = false → y.fetch = [] → y.spoilt = false → y.was = [] →
        y.ahead = [] → n ≠ 0 → x.fencedAt pa = false → x.fencedAt pb = false →
        a.toNat % 64 + n ≤ 64 → b.toNat % 64 + n ≤ 64 →
        s.resolveFor c.val k.val y.root y.priv a .read = .ok (.near pa, w) →
        w.resolveFor c.val k.val y.root y.priv b .write = .ok (.near pb, x) → x.bad = [] → x.tainted = [] →
        ∃ v, exec (.copyComplete c k t) s = .next v ∧
          v.mem = ((x.homePut pb (offsets (x.homeRead pa n))).fillWords pb n).mem) ∧
      (y.state = .reeve → (∀ e, (s.core e).inbox = [] ∧ (s.ctx e 4).run = none) →
        ∃ v run, exec (.copyFault c k t) s = .next v ∧ v.mem = s.mem ∧
          (v.core (s.reeve (c.val / 512))).inbox = [run] ∧ run.kind = .copyFault t ∧ run.core = c.val ∧ run.ctx = k.val ∧
          run.entry = (s.core (s.reeve (c.val / 512))).reevevec) ∧
      (∀ word, y.state = .reeve →
        (word = 0 → ∃ v, exec (.copyResumePacket c k t word) s = .next v ∧
          v.copyOf c.val k.val t = some { y with state := .going }) ∧
        (word ≠ 0 → word ≠ 2 → ∃ v, exec (.copyResumePacket c k t word) s = .next v ∧
          v.copyOf c.val k.val t = some { y with state := .going, ended := true, outcome := 5 })))

/-- REDGRP, REDPKT and MCAST (12 R337 to R341). `.open` begins an episode and brings its number; REDPKT gives its row once an
episode; `.close` waits for the episode's done notice and brings its status word. A group that the core is no node of, or
an operation out of turn, raises Group Busy. MCAST writes its row in the own commons and sends it to every other hamlet of the
group; that the group's members are those of the launch's set is log entry 96 (DEDUCED). -/
def Obligations.ReductionsComplete : Prop :=
  ∀ (s : State) (o : Ops),
    let u := s.entered o
    let g := (u.scOp o o.a).toNat
    let c := u.curCore
    let row := scAddr o o.d
    let whole : List Loc := [{ addr := row, bytes := 64, storeOnly := true }]
    (∀ i locs, (i = .redgrpOpen o ∧ locs = [scLoc o o.d]) ∨ (i = .redgrpClose o ∧ locs = [scLoc o o.d]) ∨
        (i = .redpkt o ∧ locs = whole) → (i = .redgrpClose o → u.onHandler = false) →
      s.goes i o = true → u.locsFault [scLoc o o.a] = none →
      (64 ≤ g → exec i s = .next (u.trap 0x01 (baseInfo i) u.me.faultPc)) ∧
      (g < 64 → u.locsFault locs = none →
        (u.node c g = none → exec i s = .next (u.trap 0x0B (BitVec.ofNat 64 (g + 256)) u.me.faultPc)) ∧
        ∀ n, u.node c g = some n →
          (i = .redgrpOpen o → n.isOpen = false → ∃ v, exec i s = .next v ∧
            Retires (u.setNode c g { n with isOpen := true, contributed := false }) v o [varResult (intoD o (n.episode.setWidth 64))]) ∧
          (i = .redgrpClose o → n.isOpen = true →
            (∀ w, n.done.find? (fun w => w.extractLsb' 48 16 = n.episode) = some w → ∃ v, exec i s = .next v ∧
              Retires ((u.setNode c g { n with isOpen := false, episode := n.episode + 1, done := n.done.filter (· ≠ w) }).acquire .pkg)
                v o [varResult (intoD o w)]) ∧
            (n.done.find? (fun w => w.extractLsb' 48 16 = n.episode) = none → exec i s = .next u.stall)) ∧
          (i = .redpkt o → n.isOpen = true → n.isLocal = true → n.contributed = false → ∃ v, exec i s = .next v ∧
            Retires (u.contribute g n (BitVec.ofNat 512 (u.rs row 64))) v o []) ∧
          ((i = .redgrpOpen o ∧ n.isOpen = true) ∨ (i ≠ .redgrpOpen o ∧ n.isOpen = false) ∨
              (i = .redpkt o ∧ (n.isLocal = false ∨ n.contributed = true)) →
            exec i s = .next (u.trap 0x0B (BitVec.ofNat 64 g) u.me.faultPc)))) ∧
    (s.goes (.mcast o) o = true → u.locsFault [scLoc o o.a, scLoc o o.b] = none → u.locsFault whole = none →
      let off := u.scOp o o.a
      let gb := (u.scOp o o.b).toNat
      let hs := ((u.members (hamOf c) gb).map hamOf).eraseDups
      gb < 64 → off.toNat % 64 = 0 →
      ((u.node c gb).isSome = true → 0x100000 ≤ off.toNat → exec (.mcast o) s = .next (u.trap 0x05 off u.me.faultPc)) ∧
      ((u.node c gb).isSome = true → off.toNat < 0x100000 → (u.me.count 1).toNat + hs.length ≤ 0xFFFF →
        ∃ v, exec (.mcast o) s = .next v ∧
          Retires (hs.foldl (fun t h =>
            let pa := commonsBase h + off.toNat
            let bs := offsets (bytesOf 64 (u.rs row 64))
            if h = hamOf t.curCore then (t.homePut pa bs).fillWords pa 64
            else (t.send t.pkgid 1 false (.store pa bs true)).1) u) v o []))

/-- The events of a reduction tree (12 R340, 20 R456, R457): a child's packet, widened, enters its parent's episode in its place;
packets add left to right, their leaf counts add, and a missing input marks the sum; a done notice reaches its node; a
root's timer flushes its episode after its time and not before; a flush marks the episode that a node still works on. -/
def Obligations.ReductionEvents : Prop :=
  ∀ (s : State) (c : CoreId) (g : BitVec 6) (n : Node), s.node c.val g.toNat = some n →
    (∀ d i k p rest, n.kids.zipIdx.find? (fun d => s.deliverable g.toNat n d.1) = some (d, i) → d ≠ c.val →
      s.node d g.toNat = some k → k.out = (n.fwd, p) :: rest → n.isRoot = false → n.isLocal = true → n.cur.own = none →
      n.cur.flushed = false →
      ∃ t, exec (.reductionPacketArrival c g) s = .next t ∧ t.mem = s.mem ∧
        t.node d g.toNat = some { k with out := rest } ∧
        t.node c.val g.toNat = some { n with cur := { n.cur with child := put n.cur.child i (n.unwired p) } }) ∧
    (∀ e p q, n.inputs e = [p, q] → p.empty = false → q.empty = false →
      (n.combine e).data = n.addRows p.data q.data ∧ (n.combine e).leaves = p.leaves + q.leaves ∧
      (n.combine e).missing = (e.flushed || p.missing || q.missing) ∧ (n.combine e).empty = false) ∧
    (∀ w r, n.notice = w :: r → exec (.doneNoticeArrival c g) s =
      .next (s.setNode c.val g.toNat { n with notice := r, done := n.done ++ [w] })) ∧
    (∀ t0, n.isRoot = true → n.cur.since = some t0 → n.cur.flushed = false →
      (s.cycle.toNat < t0 + redTimeout → ∃ t, exec (.reductionTimeout c g) s = .next t ∧ t.node c.val g.toNat = some n) ∧
      (t0 + redTimeout ≤ s.cycle.toNat → n.ready { n.cur with flushed := true } = false → c.val ∉ n.kids →
        ∃ t, exec (.reductionTimeout c g) s = .next t ∧
          t.node c.val g.toNat = some { n with cur := { n.cur with flushed := true } })) ∧
    (∀ e r, n.flush = e :: r →
      (e ≠ n.fwd → exec (.reductionFlushArrival c g) s = .next (s.setNode c.val g.toNat { n with flush := r })) ∧
      (e = n.fwd → n.ready { n.cur with flushed := true } = false → c.val ∉ n.kids →
        ∃ t, exec (.reductionFlushArrival c g) s = .next t ∧
          t.node c.val g.toNat = some { n with flush := r, cur := { n.cur with flushed := true } }))


/-! ### Work, thefts and wakes -/

/-- An IDLE context takes the first work in the order of R69: a released strand saved from its number, the ready queue, a waiting
root frame, the core's own deques; the ready queue gives the highest priority, the oldest within it (03 R69, R70); a frame
that has not run before begins as R186 says. A root frame goes hop by hop along row 0, then along its hint's column, is
taken by the first idle context of the hamlets that it is offered to, and waits at its hint (02 R54). The tokens of a strand that
begins are set (log entry 3, DESIGN CHOICE) and its pc is sign-extended (log entry 19, DEDUCED). -/
def Obligations.WorkIsFound : Prop :=
  ∀ (s : State),
    (∀ (c : CoreId) (k : CtxId), LoneIdle s (s.findWork c.val k.val) c.val k.val →
      exec (.frameTake c k) s = .next (s.findWork c.val k.val)) ∧
    (∀ c k, let co := s.core c
      let t := s.findWork c k
      (∀ v, s.savedFor c k = some v → t = (s.setCore c { co with saved := co.saved.erase v }).resume c k v.back) ∧
      (s.savedFor c k = none →
        (∀ i f q ts, s.nextReady c = some i → co.ready[i]? = some (.fresh f q ts) →
          Begun t c k f q (s.viewsOf (hamOf c)) ∧ (t.core c).ready = co.ready.eraseIdx i) ∧
        (∀ l i r, s.nextReady c = none → s.nextRoot (hamOf c) = some (l, i, r) →
          Begun t c k r.frame l.seq (s.viewsOf (hamOf c)) ∧
          ∀ q, s.launchBySeq q = some l → (t.launchBySeq q).map Launch.frames = some (l.frames.eraseIdx i)) ∧
        (∀ f ts u, s.nextReady c = none → s.nextRoot (hamOf c) = none → co.glean.backedOff = false →
          (s.launchOf (hamOf c)).isSome = true →
          s.grant c c (featuresWord.setWidth 32) = .granted f ts u → t = u.begin' c k f (u.seqOf c) ts))) ∧
    (∀ c i, s.nextReady c = some i → ∃ r, (s.core c).ready[i]? = some r ∧ s.takeable c r = true ∧
      ∀ j q, (s.core c).ready[j]? = some q → s.takeable c q = true → q.prio ≤ r.prio ∧ (q.prio = r.prio → i ≤ j)) ∧
    (∀ (q : Nat) (l : Launch) (pre post : List Rooted) (r : Rooted), s.launchBySeq q = some l → l.frames = pre ++ r :: post →
      (∀ v ∈ pre, v.waiting = true) → r.waiting = false →
      let offered := (routerHams r.die r.atx r.aty).filter fun h => l.hamlets.getLsbD h && r.admits h
      (∀ c k, s.firstIdle offered = some (c, k) →
        ∃ t, exec (.rootFrameWalk q) s = .next t ∧ Begun t c k r.frame l.seq (s.viewsOf (hamOf c)) ∧
          (t.launchBySeq q).map Launch.frames = some (pre ++ post)) ∧
      (s.firstIdle offered = none →
        ∃ t, exec (.rootFrameWalk q) s = .next t ∧ t.cores = s.cores ∧ t.mem = s.mem ∧
          (t.launchBySeq q).map Launch.frames = some (pre ++
            (if r.atx ≠ r.x then { r with atx := r.atx + 1 } else if r.aty ≠ r.y then { r with aty := r.aty + 1 }
              else { r with waiting := true }) :: post)))

/-- Thefts, spills and wakes. A gleaner's probe enters its victim's steal queue, or goes on to the next victim where that is
full or refused (03 R71, R75); the deque unit refuses, waits for the release, or grants, and a refusal leaves it as it was
(R76: a frame that the owner has taken in the step before is refused, which is how the model reads "the same cycle", log entry
44); the frame granted is the one pushed earliest of those that are the oldest of their deques and published; it begins
in an idle context of the thief, or enters its ready queue (R77). A backoff ends after its time and not before (R78). The
youngest spilled slots are read back (R72); how many at once is the model's (log entry 43, DESIGN CHOICE), and so are the tokens and the
sign-extended pc of a strand that begins (log entries 3, 19). A wake message wakes a hamlet's own record, with its answer (R81, R82). -/
def Obligations.StealAndWakeEvents : Prop :=
  ∀ (s : State) (c : CoreId), let co := s.core c.val
    (∀ k, co.glean = .probing → s.idleCtx c.val = some k → co.sweep < 262 →
      ((s.probeAt c.val co.sweep = none ∨ ∃ v, s.probeAt c.val co.sweep = some v ∧ 8 ≤ (s.core v).stealQ.length) →
        exec (.stealRequest c) s = .next ((s.setCore c.val { co with sweep := co.sweep + 1 }).owe (.stealRequest c))) ∧
      (∀ v, s.probeAt c.val co.sweep = some v → v ≠ c.val → (s.core v).stealQ.length < 8 →
        ∃ t, exec (.stealRequest c) s = .next t ∧ t.mem = s.mem ∧ (t.core c.val).glean = .asked v ∧
          (t.core v).stealQ = (s.core v).stealQ ++ [{ core := c.val, ctx := k, features := 0x1F }] ∧
          t.agenda = s.agenda ++ [.stealGrant (Fin.ofNat 2048 v)])) ∧
    (∀ r rest, co.stealQ = r :: rest → (s.core r.core).glean = .asked c.val → r.core ≠ c.val →
      ((co.took = some (s.cycle - 1) ∨ s.grant c.val r.core r.features = .refused) →
        ∃ t, exec (.stealGrant c) s = .next t ∧ t.mem = s.mem ∧ t.hamlets = s.hamlets ∧
          t.core c.val = { co with stealQ := rest } ∧
          t.core r.core = { s.core r.core with glean := .probing, sweep := (s.core r.core).sweep + 1 }) ∧
      (co.took ≠ some (s.cycle - 1) → s.grant c.val r.core r.features = .wait →
        exec (.stealGrant c) s = .next (s.owe (.stealGrant c))) ∧
      (∀ f ts u, co.took ≠ some (s.cycle - 1) → s.grant c.val r.core r.features = .granted f ts u →
        ∃ t, exec (.stealGrant c) s = .next t ∧ t.mem = u.mem ∧ (t.core c.val).stealQ = rest ∧
          (t.core c.val).deques = (u.core c.val).deques ∧
          (t.core r.core).glean = .granted f (u.seqOf c.val) ts (hamOf c.val ≠ hamOf r.core))) ∧
    (∀ q i x, co.victim = some (q, i, x) → ∃ l, (q, l) ∈ co.deques ∧ l[i]? = some x ∧ x.open' = true ∧
      (∀ j, j < i → (l[j]?.bind Slot.frame?) = none) ∧
      ∀ (q' : Nat) (l' : List Slot) (i' : Nat) (x' : Slot), (q', l') ∈ co.deques → l'[i']? = some x' → x'.open' = true →
        (∀ j, j < i' → (l'[j]?.bind Slot.frame?) = none) → x.stamp ≤ x'.stamp) ∧
    (∀ f seq ts far, co.glean = .granted f seq ts far →
      (∀ k, s.idleCtx c.val = some k → ∃ t, exec (.stolenFrameArrival c) s = .next t ∧
        Begun t c.val k f seq (s.viewsOf (hamOf c.val)) ∧ (t.core c.val).glean = .rest ∧ (t.core c.val).backoff = 64) ∧
      (s.idleCtx c.val = none → ∃ t, exec (.stolenFrameArrival c) s = .next t ∧
        (t.core c.val).ready = co.ready ++ [.fresh f seq ts] ∧ (t.core c.val).glean = .rest)) ∧
    (∀ due, co.glean = .backoff due →
      (s.cycle.toNat < due → exec (.gleanerBackoff c) s = .next (s.owe (.gleanerBackoff c))) ∧
      (due ≤ s.cycle.toNat → ∃ t, exec (.gleanerBackoff c) s = .next t ∧ t.core c.val = { co with glean := .rest } ∧
        t.mem = s.mem)) ∧
    (∀ q l, find co.deques q = some l → residentIn l = 0 →
      let n := min 8 (max 1 (64 - co.resident))
      ∃ t, exec (.spillReadback c q) s = .next t ∧ look [] (t.core c.val).deques q =
        l.take (l.length - n) ++ (l.drop (l.length - n)).map fun x => { x with spilled := false }) ∧
    (∀ (h : HamletId) w rest v, (s.ham h.val).wakes = w :: rest → (s.ham h.val).waiters = [v] → v.watch = none → v.key = w.key →
      v.cond ∈ w.all → (w.episode = none ∨ w.episode = some v.episode) →
      ∃ t, exec (.wakeMessage h) s = .next t ∧ t.mem = s.mem ∧ (t.ham h.val).wakes = rest ∧ (t.ham h.val).waiters = [] ∧
        (t.core (8 * h.val + v.core)).ready = (s.core (8 * h.val + v.core)).ready ++ [.woken { v with answer := w.answer }])


/-! ### Parks, saves, barriers and ends -/

/-- Parks and saves. Once nothing that a park waits for is left, its save is written below its strand's `fp` and its record is
linked (02 R48, R49); a fault of the save stops the context; a record waits while no cell is free for it, or for its watch in
another hamlet (19 R441). A pre-emption request is kept with its area; its deadline counts, at the leader of a gang, while that
context runs and handles no trap, and past it the context, or its whole gang, is saved whole and its status is marked (02 R63, 19
R449); a save waits for the context's results and leaves the strand to device runtime, which releases it (03 R69). No field of a
frame overlaps another (02 R29). The model's readings: a stopped context keeps the request and a repeated one begins the count anew
(log entry 57, DEDUCED); what a gang's members save of their followers' state (log entries 42, 53). -/
def Obligations.ParkAndSaveEvents : Prop :=
  (∀ f : Frame, frameOf f.row = f) ∧
  ∀ (s : State) (c : CoreId) (k : CtxId), let x := s.ctx c.val k.val
    (∀ p d, x.parking = some p → x.strand = some d → x.status = .parking →
      (p.waiting = false →
        (s.settled c.val k.val = false → exec (.parkSaveDone c k) s = .next (s.owe (.parkSaveDone c k))) ∧
        (s.settled c.val k.val = true →
          (∀ u, s.saveWaits c.val k.val false d = some u →
            exec (.parkSaveDone c k) s = .next (u.owe (.parkSaveDone c k))) ∧
          (s.saveWaits c.val k.val false d = none →
          (∀ t p' d', s.savedAt c.val k.val false d = (t, none) → (t.ctx c.val k.val).parking = some p' →
            (t.ctx c.val k.val).strand = some d' →
            (t.noCell (hamOf c.val) p' = false → ∃ v, exec (.parkSaveDone c k) s = .next v ∧ Linked t v c.val k.val p' d') ∧
            (t.noCell (hamOf c.val) p' = true → ∃ v, exec (.parkSaveDone c k) s = .next v ∧ v.mem = t.mem ∧
              v.ctx c.val k.val = { t.ctx c.val k.val with
                parking := some { p' with waiting := true, owned := p'.owned || t.owns c.val k.val } })) ∧
          (∀ t cause va, s.savedAt c.val k.val false d = (t, some (cause, va)) →
            exec (.parkSaveDone c k) s =
              .next (((t.as c.val k.val).enterTrap false true cause va x.pc).as s.curCore s.curCtx))))) ∧
      (p.waiting = true → s.noCell (hamOf c.val) p = false →
        ∃ v, exec (.overflowLinkWait c k) s = .next v ∧ Linked s v c.val k.val p d)) ∧
    (∀ h p, 10240 ≤ s.records h → s.noCell h p = true) ∧
    (let l := s.leaderOf c.val k.val
     let y := s.ctx l.1 l.2
     let limit := if (s.core l.1).pdeadline = 0 then 65536 else (s.core l.1).pdeadline.toNat
     let on : Bool := (y.status = .running || y.status = .following) && !y.handling
     let n := if y.counts then y.deadline + (if on then s.cycle.toNat - y.since else 0) else 0
     let ms := if y.inGang then l :: (s.followers l.1).map fun f => (f.1, f.2.1) else [(c.val, k.val)]
     let due : Bool := ms.any fun m => (s.ctx m.1 m.2).wordDue
     (∀ area, k.val ≠ 4 → x.status = .running ∨ x.status = .following ∨ x.status = .stopped →
       ∃ v, exec (.preemptRequest c k area) s = .next v ∧ v.mem = s.mem ∧ (v.ctx c.val k.val).preempt = true ∧
         (v.ctx c.val k.val).savearea = area ∧ (v.ctx c.val k.val).store = x.store ∧ (v.ctx c.val k.val).status = x.status ∧
         .saveDeadlineExpiry c k ∈ v.agenda ∧
         (x.preempt = true ∨ (∀ m ∈ ms, (s.ctx m.1 m.2).preempt = false) →
           (v.ctx l.1 l.2).counts = true ∧ (v.ctx l.1 l.2).since = s.cycle.toNat ∧ (v.ctx l.1 l.2).deadline = 0)) ∧
     (x.preempt = true →
     (on = false ∨ n < limit ∨ due = true →
       exec (.saveDeadlineExpiry c k) s = .next
         ((s.setCtx l.1 l.2 { y with counts := true, deadline := n, since := s.cycle.toNat }).owe (.saveDeadlineExpiry c k))) ∧
     (on = true → limit ≤ n → due = false →
       ∃ v, exec (.saveDeadlineExpiry c k) s = .next v ∧ v.mem = s.mem ∧
         ∀ m ∈ ms,
           (v.ctx m.1 m.2).status = .saving ∧ ((v.ctx m.1 m.2).parking.map Parking.whole) = some true ∧
           (v.ham (hamOf m.1)).marks.deadline = true))) ∧
    (∀ p d, x.parking = some p → x.strand = some d → x.status = .saving →
      (x.returned = false ∨ s.settled c.val k.val = false →
        exec (.saveComplete c k) s = .next (s.owe (.saveComplete c k))) ∧
      (x.returned = true → s.settled c.val k.val = true →
        let u := ((s.as c.val k.val).commitAll).as s.curCore s.curCtx
        ∀ d', (u.ctx c.val k.val).strand = some d' →
        (∀ w, u.saveWaits c.val k.val p.whole d' = some w →
          exec (.saveComplete c k) s = .next (w.owe (.saveComplete c k))) ∧
        (u.saveWaits c.val k.val p.whole d' = none →
        (∀ t p' d'', u.savedAt c.val k.val p.whole d' = (t, none) → (t.ctx c.val k.val).parking = some p' →
          (t.ctx c.val k.val).strand = some d'' →
          ∃ v w, exec (.saveComplete c k) s = .next v ∧ (v.ctx c.val k.val).status = .idle ∧
            (v.core c.val).saved = (t.core c.val).saved ++ [w] ∧ w.ctx = k.val ∧ w.released = false ∧ w.whole = p'.whole ∧
            w.strand.notice = (p'.whole || d''.notice) ∧ w.owned = t.owns c.val k.val ∧
            w.frame = d''.frame ((t.ctx c.val k.val).pc.setWidth 57) (t.ctx c.val k.val).repstate ∧
            w.save = if p'.whole then sext57 (t.ctx c.val k.val).savearea
              else saveBase (t.ctx c.val k.val) d'' (planOf d''.map false (t.owns c.val k.val) (t.slices (hamOf c.val)))) ∧
        (∀ t cause va, u.savedAt c.val k.val p.whole d' = (t, some (cause, va)) →
          exec (.saveComplete c k) s =
            .next (((t.as c.val k.val).enterTrap false true cause va (u.ctx c.val k.val).pc).as u.curCore u.curCtx))))) ∧
    (∀ w ∈ (s.core c.val).saved, w.ctx = k.val → w.released = false →
      ∃ v, exec (.resumptionRelease c k) s = .next v ∧ v.mem = s.mem ∧ v.agenda = s.agenda ++ [.frameTake c k] ∧
        (v.core c.val).saved =
          (s.core c.val).saved.map fun w => if w.ctx = k.val then { w with released := true } else w)

/-- Barriers and QUIESCE. A hamlet's arrival reaches its root, which peals at the last one (03 R85); a HAMLET-scope release comes
at T0 + 8 and not before, a phase's at its T_p (R87); a release counts the episode on and returns the barrier to COUNTING,
or goes on with the episode that is complete but held; after the last hamlet of an episode the root waits again, for the
arrivals that it counted toward the next one. The request of a sweep adds a hamlet's counter pair and passes on to its children
in the completion tree; with the sums of all at the root, the detection ends at the first sweep, after one other, whose sums
are those of the last and equal, or the next sweep starts (R91). -/
def Obligations.BarrierAndDetectionEvents : Prop :=
  ∀ (s : State),
    (∀ (h : HamletId) (n : BitVec 2) (sc : BarScope), let b := s.barrier h.val sc n
      let key := s.rootKey h.val sc n
      let r := look {} s.roots key
      let e := pealDelay (s.pattern h.val) sc r.gap (phaseOf (s.pattern h.val) h.val)
      let freed := fun (t : State) =>
        (t.barrier h.val sc n).episode = b.episode + 1 ∧
          (b.held = false → (t.barrier h.val sc n).state = .counting ∧ (t.barrier h.val sc n).count = b.count) ∧
          (b.held = true → (t.barrier h.val sc n).count = 0 ∧
            (t.barrier h.val sc n).state = if sc = .hamlet then .releasing else .sent)
      (sc = .hamlet → b.state = .releasing →
        (s.cycle.toNat < b.t0 + 8 → exec (.hamletBarrierRelease h n) s = .next (s.owe (.hamletBarrierRelease h n))) ∧
        (b.t0 + 8 ≤ s.cycle.toNat → ∃ t, exec (.hamletBarrierRelease h n) s = .next t ∧ freed t)) ∧
      (sc ≠ .hamlet → b.state = .sent →
        (r.pealing = false → h.val ∉ r.arrived →
          ∃ t, exec (.barrierRootArrival h sc n) s = .next t ∧ t.mem = s.mem ∧
            let r' := look {} t.roots key
            r'.arrived = r.arrived ++ [h.val] ∧ r'.extra = max r.extra b.arrivedExtra.toNat ∧
              (r'.pealing = true ↔ ∀ g ∈ s.rootSet h.val sc, g ∈ r.arrived ++ [h.val]) ∧
              (r'.pealing = true → r'.t0 = s.cycle.toNat ∧ r'.gap = r'.extra ∧ r'.released = [] ∧
                ∀ g ∈ s.rootSet h.val sc, .pealPhaseRelease (Fin.ofNat 256 g) sc n ∈ t.agenda)) ∧
        (r.pealing = true → h.val ∈ r.released → h.val ∉ r.nextArrived →
          ∃ t, exec (.barrierRootArrival h sc n) s = .next t ∧ t.mem = s.mem ∧ look {} t.roots key =
            { r with nextArrived := r.nextArrived ++ [h.val], nextExtra := max r.nextExtra b.arrivedExtra.toNat }) ∧
        (r.pealing = true → h.val ∈ r.arrived → h.val ∉ r.released →
          (s.cycle.toNat < r.t0 + e →
            exec (.pealPhaseRelease h sc n) s = .next (s.owe (.pealPhaseRelease h sc n))) ∧
          (r.t0 + e ≤ s.cycle.toNat → ∃ t, exec (.pealPhaseRelease h sc n) s = .next t ∧ freed t ∧
            ((∃ g ∈ r.arrived, g ∉ r.released ++ [h.val]) →
              look {} t.roots key = { r with released := r.released ++ [h.val] }) ∧
            ((∀ g ∈ r.arrived, g ∈ r.released ++ [h.val]) →
              let r' := look {} t.roots key
              r'.arrived = r.nextArrived ∧ r'.extra = r.nextExtra ∧ r'.nextArrived = [] ∧ r'.released = []))))) ∧
    (∀ (q : Nat) l d, s.launchBySeq q = some l → l.detection = some d →
      (∀ h rest, d.down = h :: rest → let x := s.ham h
        exec (.detectionSweep q) s = .next ((s.setLaunch { l with detection := some { d with
          down := rest ++ l.children h, sum := (d.sum.1 + x.sent, d.sum.2 + x.received) } }).owe (.detectionSweep q))) ∧
      (d.down = [] → let v := d.sum
        (1 ≤ d.sweeps → d.last = some v → v.1 = v.2 → ∃ t, exec (.detectionSweep q) s = .next t ∧
          t.mem = (((s.hamlets.map Prod.fst).filter fun h => l.hamlets.getLsbD h).foldl State.writeBackAll s).mem ∧
          (t.launchBySeq q).map (fun m => (m.detection, m.finished)) = some (none, l.finished ++ d.waiting)) ∧
        (d.sweeps = 0 ∨ d.last ≠ some v ∨ v.1 ≠ v.2 → ∃ t, exec (.detectionSweep q) s = .next t ∧ t.mem = s.mem ∧
          t.cores = s.cores ∧ t.hamlets = s.hamlets ∧ .detectionSweep q ∈ t.agenda ∧
          (t.launchBySeq q).map Launch.detection = some (some
            { d with last := some v, sweeps := d.sweeps + 1, down := l.treeRoots, sum := (0, 0) }))))

/-- Donations and the end of a launch. The end of donated work counts its future down and reports a root end (02 R34, R52); an
arriving donation is queued as its receiver keeps it, is not taken by a full queue, and goes back for want of a feature
(02 R51, 19 R444); a returned frame joins its origin's hamlet's work, and is recorded. A status word leaves its hamlet once the
reads issued there have completed, travels to the root of its launch's tree and is combined there; the launch ends with its
last root end, once no read of it is outstanding (02 R55 to R57), and root firmware writes its completion record once the place
is free (13 R355). The model's: where an entry of a donation queue lies and what it holds (log entry 47, DESIGN CHOICE), that a future
counted down by donated work is acquired at SYSTEM scope (`donated`, log entry 65, DEDUCED), and which words are held back (log entry
110, DEDUCED). -/
def Obligations.DonationAndCompletionEvents : Prop :=
  ∀ (s : State),
    (∀ (hd : BitVec 32), s.stale (hdHam hd) hd = false → 1 < (s.future hd).value.toInt →
      ∃ t, exec (.donatedDecrement hd false) s = .next t ∧ t.mem = s.mem ∧ t.cores = s.cores ∧
        t.future hd = { s.future hd with value := (s.future hd).value - 1, donated := true }) ∧
    (∀ (hd : BitVec 32) l, s.stale (hdHam hd) hd = true → s.launchOf (hdHam hd) = some l →
      ∃ t m, exec (.donatedDecrement hd true) s = .next t ∧ t.launchOf (hdHam hd) = some m ∧
        m.held = l.held ++ [(hdHam hd, statusWord (s.ham (hdHam hd)).marks 1)] ∧ (t.ham (hdHam hd)).marks = {}) ∧
    (∀ (src : BitVec 20) (q : BitVec 4) (row : Row) tiles, let f := frameOf row
      let d := look ({} : DonQueue) s.hub.donqs q.toNat
      (f.features &&& ~~~ 0x1F = 0 → d.frames.length < d.cap →
        let g : Frame := { f with parentj := 0, synch := 0, donated := true, published := true }
        let u := s.writeEntry (d.base.toNat + donEntry * (d.next % d.cap)) g tiles
        ∃ t, exec (.donationArrival src q row tiles) s = .next t ∧ t.mem = u.mem ∧ t.full = u.full ∧
          look ({} : DonQueue) t.hub.donqs q.toNat = { d with frames := d.frames ++ [(g, tiles)], next := d.next + 1 }) ∧
      (f.features &&& ~~~ 0x1F = 0 → d.cap ≤ d.frames.length → exec (.donationArrival src q row tiles) s = .next s) ∧
      (f.features &&& ~~~ 0x1F ≠ 0 → src = s.pkgid → exec (.donationArrival src q row tiles) s =
        .next (s.owe (.donatedFrameReturn f.row (f.features &&& ~~~ 0x1F))))) ∧
    (∀ (row : Row) (missing : BitVec 32), let f := frameOf row
      let h := hdHam f.originh
      ∃ t g, exec (.donatedFrameReturn row missing) s = .next t ∧
        (t.core (8 * h)).ready = (s.core (8 * h)).ready ++ [.fresh g (s.seqOf (8 * h)) []] ∧
        g = { f with originpkg := 0, originh := 0, donated := false, parentj := f.originh, synch := 0, published := true }) ∧
    (∀ (q : Nat) l, s.launchBySeq q = some l →
      (∀ e, l.held.find? (fun e => !s.readsOut e.1) = some e → ∃ t, exec (.statusWordArrival q) s = .next t ∧ t.mem = s.mem ∧
        (t.launchBySeq q).map (fun m => (m.held, m.words)) = some (l.held.erase e, l.words ++ [e]) ∧
        .statusWordArrival q ∈ t.agenda) ∧
      ((∀ e ∈ l.held, s.readsOut e.1 = true) →
        (∀ h w rest, l.words = (h, w) :: rest → let e := look (0 : BitVec 16) l.tree h
          ∃ t, exec (.statusWordArrival q) s = .next t ∧ t.mem = s.mem ∧ .statusWordArrival q ∈ t.agenda ∧
            (t.launchBySeq q).map (fun m => (m.words, m.total)) =
              some (if e.getLsbD 15 then (rest, combineWords l.total w) else (rest ++ [(fld e 7 0, w)], l.total))) ∧
        (l.words = [] → l.nframes ≤ fld l.total 47 16 →
          ((∃ h ∈ l.set, s.readsOut h = true) → exec (.statusWordArrival q) s = .next (s.owe (.statusWordArrival q))) ∧
          ((∀ h ∈ l.set, s.readsOut h = false) → ∃ t, exec (.statusWordArrival q) s = .next t ∧
            t.launches.map Launch.seq = (s.launches.map Launch.seq).filter (· ≠ l.seq) ∧
            t.hub.owed = s.hub.owed ++ [{ word := l.total, seq := l.seq, info := 0, status := 0, code := 0x02 }])))) ∧
    (∀ k rest, s.hub.owed = k :: rest → let a := 0x3F0000000000 + 0x1000 + 32 * (s.hub.compPos % 64)
      ((memGet s.mem a).getLsbD 0 = true → ∃ t, exec .completionRecordWrite s = .next t ∧ t.mem = s.mem ∧ t.hub = s.hub ∧
        .completionRecordWrite ∈ t.agenda) ∧
      (Memory.wf s.mem = true → (memGet s.mem a).getLsbD 0 = false → ∃ t, exec .completionRecordWrite s = .next t ∧ t.hub.owed = rest ∧
        t.hub.compPos = s.hub.compPos + 1 ∧ t.hub.irqs = s.hub.irqs ++ [1] ∧
        t.hub.msis = s.hub.msis ++ [look 0 s.hub.irqTable 1] ∧
        memRead t.mem a 32 = bytesOf 32
          (k.word.toNat * 2 ^ 128 + k.seq.toNat * 2 ^ 64 + k.info.toNat * 2 ^ 32 + k.status.toNat * 2 ^ 16
            + k.code.toNat * 2 ^ 8 + 1)))


/-! ### Faults of storage, power and links, and the boot -/

/-- Containment (17 R412 to R416, 00 R24 to R26, 20 R461 to R463). A record takes the next place of the ring with its fields, or is
counted as lost while that place is not free. Scrubbing of a correctable error changes nothing; an uncorrectable one has the
effect of its storage code. A fenced or shut-down hamlet, and a stopped package, issue nothing; their launches end ABORTED,
with class 5 or 6. No operating point passes its ceiling; a sensor above its threshold lowers the point step by step, and the point
that it left caps the hamlet's until it has climbed again, a step each millisecond once the sensor is 5 degrees below; between the two
nothing changes (how the cap is kept is the model's choice, log entry 49). Service firmware runs only where its image verifies. -/
def Obligations.ContainmentEvents : Prop :=
  ∀ (s : State),
    (∀ e : ErrRec, e.addr < 2 ^ 64 → let a := 0x3F0000000000 + 0x200000 + 64 * (s.hub.errPos % 1024)
      let t := s.record e
      let r : Row := BitVec.ofNat 512 (ofBytes (memRead t.mem a 64))
      ((memGet s.mem a).getLsbD 0 = true → t.mem = s.mem ∧ t.hub.errPos = s.hub.errPos ∧
        t.hub.errLost = if s.hub.errLost = BitVec.allOnes 32 then s.hub.errLost else s.hub.errLost + 1) ∧
      (Memory.wf s.mem = true → (memGet s.mem a).getLsbD 0 = false → r.getLsbD 0 = true ∧ fld r 47 40 = e.event % 256 ∧ fld r 39 36 = e.cls % 16 ∧
        fld r 511 448 = s.cycle.toNat ∧ fld r 447 384 = e.addr ∧ fld r 383 320 = e.seq.toNat ∧ fld r 319 256 = e.info.toNat ∧
        fld r 255 192 = e.tpc.toNat ∧ fld r 127 96 = s.hub.errLost.toNat ∧ fld r 95 80 = min e.count 65535 ∧
        fld r 79 69 = e.core % 2048 ∧ fld r 63 48 = e.unit % 65536 ∧ fld r 35 30 = e.cause % 64 ∧
        t.hub.errPos = s.hub.errPos + 1 ∧ t.hub.errLost = 0 ∧ t.hub.irqs = s.hub.irqs ++ [3] ∧
        t.hub.msis = s.hub.msis ++ [look 0 s.hub.irqTable 3])) ∧
    (s.stopped = true → s.tryIssue = (s, none)) ∧
    (∀ c cs, (s.ham (hamOf c)).fenced = true ∨ (s.ham (hamOf c)).shut = true → s.issueFrom (c :: cs) = s.issueFrom cs) ∧
    (∀ (code : BitVec 4) (unit : BitVec 16) (addr : BitVec 46),
      let line := addr.toNat / 64 * 64
      let x := s.ctx (unit.toNat / 8) (unit.toNat % 8)
      let ev := exec (.scrubPass code unit addr true) s
      exec (.scrubPass code unit addr false) s = .next s ∧
      (code = 0 → x.status ≠ .idle → x.status ≠ .stopped →
        (x.returned = true → ev = .next (((s.as (unit.toNat / 8) (unit.toNat % 8)).enterTrap false
          true 0x11 (BitVec.ofNat 64 addr.toNat) x.faultPc).as s.curCore s.curCtx)) ∧
        (x.returned = false → x.late = none → ev = .next (s.setCtx (unit.toNat / 8) (unit.toNat % 8)
          { x with late := some (BitVec.ofNat 64 addr.toNat, x.faultPc, true) }))) ∧
      (code = 1 → ∀ l, find (s.ham (hamOf unit.toNat)).lines line = some l → l.dirty = 0 →
        ev = .next (s.dropLine (hamOf unit.toNat) line)) ∧
      (code = 1 → ∀ l, find (s.ham (hamOf unit.toNat)).lines line = some l → l.dirty ≠ 0 →
        ev = .next ((s.dropLine (hamOf unit.toNat) line).listLine line (s.seqOf unit.toNat) true (some (1, unit.toNat)))) ∧
      (2 ≤ code.toNat → code.toNat ≤ 7 →
        ev = .next (s.listLine line 0 false (if code = 4 then some (4, s.homeOf line) else none))) ∧
      (code = 8 → ∀ y, y = s.ctx unit.toNat (s.core unit.toNat).mill.owner → (s.core unit.toNat).mill.owned = true →
        y.status = .running → y.returned = true → ev = .next (((s.as unit.toNat (s.core unit.toNat).mill.owner).enterTrap false true 0x11
          (BitVec.ofNat 64 (8 * 2 ^ 60 + addr.toNat)) y.faultPc).as s.curCore s.curCtx)) ∧
      (code = 0xB → ev = .next (s.fence (unit.toNat % 256) 0x04)) ∧ (code = 0xC → ev = .next s.stopPackage)) ∧
    (∀ line q lost, line % 64 = 0 → line ∉ s.bad → (s.bad.filter fun l => (s.badList l).1 = (s.badList line).1).length <
        (s.badList line).2.1 → line ∈ (s.listLine line q lost).bad ∧ ∀ l ∈ s.bad, l ∈ (s.listLine line q lost).bad) ∧
    (∀ h e, (s.ham h).fenced = false →
      let t := s.record { event := e, cls := 5, seq := s.seqOf (8 * h), unit := h }
      let u := t.setHam h { t.ham h with fenced := true }
      (s.launchOf h = none → s.fence h e = u) ∧
      ∀ l, u.launchOf h = some l → s.fence h e = u.abortLaunch { l with cls := max l.cls 5 }) ∧
    (∀ l, (∀ m ∈ (s.abortLaunch l).launches, m.seq ≠ l.seq) ∧
      (s.abortLaunch l).hub.owed = (s.dropLaunch l true).hub.owed ++
        [{ word := s.endWord l, seq := l.seq, info := 0, status := 0x08, code := 0x02 }] ∧
      fld (s.endWord l) 51 48 ≥ l.cls % 16) ∧
    (∀ ev, ev = .railTrip ∨ (∃ d, ev = .bridgeFailure d) → s.stopped = false →
      (s.launches = [] → exec ev s = .next { s.record { event := 0x06, cls := 6 } with stopped := true }) ∧
      ∀ l, s.launches = [l] → exec ev s = .next
        (State.abortLaunch { s.record { event := 0x06, cls := 6, seq := l.seq } with stopped := true } { l with cls := 6 })) ∧
    (∀ (code : BitVec 4) (unit count : BitVec 16), count ≠ 0 → exec (.correctedRecordCoalesce code unit count) s =
      .next (s.record { event := 0x02, cls := 2, unit := unit.toNat, count := count.toNat, info := code.setWidth 64 })) ∧
    (∀ (h : HamletId) (p : BitVec 2), let x := s.ham h.val
      let low : BitVec 2 := if x.point = 0 then 0 else x.point - 1
      (∃ t, exec (.operatingPointChange h p) s = .next t ∧ t.mem = s.mem ∧
        t.ham h.val = { x with point := minPoint p (minPoint x.cap x.ceiling) } ∧ (t.ham h.val).point ≤ x.ceiling ∧
        (t.ham h.val).point ≤ x.cap) ∧
      (∀ now, ∃ t, exec (.throttleThreshold h now) s = .next t ∧
        t.ham h.val = if now = .hot ∧ x.heat ≠ .hot then { x with heat := now, point := low, cap := low } else { x with heat := now }) ∧
      (∃ t, exec (.throttleStep h) s = .next t ∧ t.ham h.val =
        if x.heat = .hot then { x with point := low, cap := low } else if x.heat = .warm ∨ x.cap = 3 then x
        else { x with cap := x.cap + 1, point := if x.point = x.cap then minPoint (x.cap + 1) x.ceiling else x.point }) ∧
      exec (.thermalShutdown h) s = .next ((s.setHam h.val { x with shut := true }).fence h.val 0x12) ∧
      ∃ t, exec (.reducedSupply p) s = .next t ∧ ∀ g, g < 256 → (t.ham g).ceiling = minPoint (s.ham g).ceiling p ∧
        (t.ham g).point ≤ (t.ham g).ceiling ∧ (t.ham g).point ≤ (s.ham g).point) ∧
    (s.hub.service = true →
      (∃ t, exec .serviceMailboxTimeout s = .next t ∧
        (verifies Config.flashServiceDigest Config.flashSignature = true → t.hub.service = true ∧
          t.hub.serviceDigest = Config.flashServiceDigest ∧ t.hub.reportNo = 0) ∧
        (verifies Config.flashServiceDigest Config.flashSignature = false → t.hub.service = false ∧
          t.hub.serviceDigest = 0) ∧ t.ports = s.ports) ∧
      exec .managementPortMessage s = .next { s with hub := { s.hub with
        irqs := s.hub.irqs ++ [4], msis := s.hub.msis ++ [look 0 s.hub.irqTable 4] } }) ∧
    (∀ r : BootReport, ∃ t, exec (.powerGood r) s = .next t ∧ t.launches = [] ∧ t.free = s.free ∧
      (r.failStep ≠ 0 → t.hub.bootStop = r.failStep ∧ t.hub.booted = false) ∧
      (r.failStep = 0 → t.hub.booted = true ∧ t.hub.gmin = r.gmin ∧ t.hub.hmax = r.hmax ∧ t.hub.rampstep = r.rampstep ∧
        t.hub.lpddr = r.lpddr ∧
        t.hub.service = (r.service && verifies Config.flashServiceDigest Config.flashSignature) ∧ (∀ h, (t.ham h).ceiling = 3 ∧ (t.ham h).fenced = false) ∧
        ∀ c k, c < 2048 → k < 5 → (t.ctx c k).status = .idle ∧ (t.ctx c k).trapvec = writeAddr 0 r.trapvec ∧
          (t.core c).reevevec = writeAddr 0 r.reevevec))

/-- Links (20 R452 to R455, R460). A flit replay or a lane repair changes only time, and is recorded; a port trains at 8 or 4
lanes, or goes down, and the packages that have no other path are unreachable. Packets that are not acknowledged are sent again
each 2^16 cycles, and past 2^24 their package is unreachable. Packets of a package are applied in their sequence, each once: a
message at its home with its answer, an answer to the result that waits for it; one that is out of sequence is discarded, and
one for another package leaves by the port of the tables. A load of an unreachable package raises Memory Uncorrectable at its
own address; a posted store there is discarded as though acknowledged. A flit out of sequence or with a wrong CRC is discarded
and asked for again; the eighth failed replay makes the port retrain. A request to a CXL port that has no completion for 16 ms,
15,040,000 reference cycles, or whose port is down, fails: the line is listed, the posted store discarded; a port that does not
train again is out of service. The model's: a stopped package takes no packet (log entry 114, DESIGN CHOICE), what is sent again
and when (98, DEDUCED), the port that a packet takes on its way (99, DEDUCED), the pc of the trap (27, DEDUCED), requests
without a completion (124) and one flit for a packet (125). -/
def Obligations.LinkEvents : Prop :=
  ∀ (s : State),
    (∀ (port : Fin 12), (s.port port.val).up = true →
      exec (.linkReplay port) s = .next
        (State.record { s with ports := put s.ports port.val { s.port port.val with fails := 0 } }
          { event := 0x0A, cls := 2, unit := port.val })) ∧
    (∀ (p : Nat) (q : BitVec 12), let x := s.port p
      (x.up = true → ((s.flitIn p x.expect true).port p = { x with expect := x.expect + 1, asked := false }) ∧
        (∀ good, q ≠ x.expect ∨ good = false → (s.flitIn p q good).port p = { x with asked := true }) ∧
        (x.buffer ≠ [] → (s.replayFailed p).port p =
          if 7 ≤ x.fails then { x with training := true, fails := 0 } else { x with fails := x.fails + 1 })) ∧
      ∀ pre post, x.buffer = pre ++ q :: post → q ∉ pre →
        (s.flitAck p q).port p = { x with buffer := post, fails := 0 }) ∧
    (∀ (port : Fin 12) (lanes : Nat), (s.port port.val).up = true ∨ (s.port port.val).training = true →
      (lanes = 8 ∨ lanes = 4 → ∃ t, exec (.linkRetrain port lanes) s = .next t ∧
        t.port port.val = { s.port port.val with up := true, lanes := lanes, training := false, fails := 0 } ∧
        ∀ q, q ≠ port.val → t.port q = s.port q) ∧
      (∀ ev, ev = .portDown port ∨ (lanes ≠ 8 ∧ lanes ≠ 4 ∧ ev = .linkRetrain port lanes) →
        ∃ t, exec ev s = .next t ∧ (t.port port.val).up = false ∧ (∀ q, q ≠ port.val → t.port q = s.port q) ∧
          ∀ d : BitVec 20, d ≠ s.pkgid → (∃ m ∈ s.flight, m.pkg = d) → t.portMask d = 0 →
            .destinationUnreachable d ∈ t.agenda)) ∧
    (∀ die : Fin 4, exec (.laneRepair die) s = .next (s.record { event := 0x11, cls := 2, unit := die.val })) ∧
    (∀ d : BitVec 20, let p := look ({} : Peer) s.peers d.toNat
      let waited := s.cycle.toNat - p.since
      (p.unacked = [] ∨ p.dead = true → exec (.endToEndResend d) s = .next s) ∧
      (p.unacked ≠ [] → p.dead = false →
        (2 ^ 24 ≤ waited → exec (.endToEndResend d) s = .next (s.oweOnce (.destinationUnreachable d))) ∧
        (waited < 2 ^ 24 → ∃ t, exec (.endToEndResend d) s = .next t ∧ t.mem = s.mem ∧ t.flight = s.flight ∧
          .endToEndResend d ∈ t.agenda ∧ look ({} : Peer) t.peers d.toNat =
            { p with resends := if (p.resends + 1) * 2 ^ 16 ≤ waited then p.resends + 1 else p.resends }))) ∧
    (∀ (src dst : BitVec 20) (seq : BitVec 32) (core : CoreId) (k : CtxId) (tag : Nat) (body : Body),
      let p := look ({} : Peer) s.peers src.toNat
      let ev := exec (.packagePacketArrival ⟨src, dst⟩ seq core k tag body) s
      (src = s.pkgid ∨ (dst = s.pkgid ∧ (seq ≠ p.expect ∨ s.stopped = true)) → ev = .next s) ∧
      (src ≠ s.pkgid → dst ≠ s.pkgid → let u := s.sendFlit (s.portFor src dst)
        ev = .next { u with hub := { u.hub with transit := (s.portFor src dst).map fun port =>
          { port := port, src := src, dst := dst, seq := seq, core := core.val, ctx := k.val, tag := tag, body := body } } }) ∧
      (seq = p.expect → src ≠ s.pkgid → dst = s.pkgid → s.stopped = false →
        (∀ pa, s.incoming = [] → s.forwarded pa = pa → s.region pa ≠ .unbacked → tag ≠ 0 → s.bad = [] → s.tainted = [] → s.scales = [] →
            s.cxlStuck (pa / 64 * 64) = false → (∀ h, (s.ham h).fenced = false) →
          (∀ bs, body = .store pa bs false → ∃ t, ev = .next t ∧ t.mem = (s.homePut pa bs).mem ∧ t.incoming = [] ∧
            (look ({} : Peer) t.peers src.toNat).expect = p.expect + 1 ∧ (src, seq) ∈ t.hub.acks ∧
            ∃ m, t.flight = s.flight ++ [m] ∧ m.pkg = src ∧ m.core = core.val ∧ m.ctx = k.val ∧ m.tag = some tag ∧
              m.body = .reply 0 0) ∧
          (∀ n, body = .load pa n false → ∃ t, ev = .next t ∧ t.mem = s.mem ∧ t.incoming = [] ∧
            (look ({} : Peer) t.peers src.toNat).expect = p.expect + 1 ∧
            (src, seq) ∈ t.hub.acks ∧
            ∃ m, t.flight = s.flight ++ [m] ∧ m.pkg = src ∧ m.core = core.val ∧ m.ctx = k.val ∧ m.tag = some tag ∧
              m.body = .reply (BitVec.ofNat 512 (ofBytes (s.homeSpan pa n))) 0)) ∧
        (∀ data fl m g pa n sx, body = .reply data fl → s.flight.find? (fun q => q.id = tag && q.pkg = src && !q.applied) = some m →
          m.tag = some g → g ≠ 0 → m.body = .load pa n sx → m.cnt = 0 → s.hub.chans = [] → (s.core m.core).copies = [] →
          (s.ctx m.core m.ctx).late = none → (s.ctx m.core m.ctx).devq = [] →
          ∃ t, ev = .next t ∧ t.mem = s.mem ∧ t.flight = s.flight.filter (fun q => q.id ≠ m.id) ∧
            t.ctx m.core m.ctx = { s.ctx m.core m.ctx with
              results := (s.ctx m.core m.ctx).results.map fun r => r.fill g data fl }))) ∧
    (∀ (d : BitVec 20) (m : Msg) pa, let x := s.ctx m.core m.ctx
      d ≠ s.pkgid → s.cutOff d = true → s.flight.filter (fun q => q.pkg = d) = [m] → s.hub.chans = [] → m.home ≠ orphan →
      (s.core m.core).copies = [] → m.body.pa = pa → m.ctx < 4 →
      (∀ n sx r, m.body = .load pa n sx → m.tag = some m.id → m.id ≠ 0 → m.cnt = 0 → x.results = [r] →
        (∃ i, r.due = .var [(m.id, i)]) → x.handling = false → x.inGang = false →
        ∃ t, exec (.destinationUnreachable d) s = .next t ∧ (t.ctx m.core m.ctx).trapcause.setWidth 6 = (0x11 : BitVec 6) ∧
          (t.ctx m.core m.ctx).trapinfo = BitVec.ofNat 64 (0xA * 2 ^ 60 + pa % 2 ^ 46) ∧
          (t.ctx m.core m.ctx).trappc = m.pc ∧ (t.ctx m.core m.ctx).pc = sext57 (x.trapvec.setWidth 57) ∧
          (t.ctx m.core m.ctx).results = [] ∧ (t.ctx m.core m.ctx).store = x.store) ∧
      (m.tag = none → m.cnt = 1 → ∃ t, exec (.destinationUnreachable d) s = .next t ∧
        (t.ctx m.core m.ctx).c1 = x.c1 - 1 ∧ (t.ham (hamOf m.core)).marks.trap = true ∧
        t.flight = s.flight.filter fun q => q.id ≠ m.id)) ∧
    (∀ (port : Fin 8), let p := port.val
      (∀ id m, id < 2 ^ 64 → s.waiting id = some m → m.cnt = 3 → s.region m.body.pa = .cxl p →
        let out := p ∈ s.hub.cxlDown ∨ 15040000 ≤ s.cycle.toNat - m.since
        (out → ∃ t, exec (.cxlTimeout port id) s = .next t ∧ (t.ctx m.core m.ctx).c3 = (s.ctx m.core m.ctx).c3 - 1 ∧
          (t.ham (hamOf m.core)).marks.trap = true ∧ t.flight = s.flight.filter fun q => q.id ≠ m.id) ∧
        (¬ out → (find s.hub.cxlPend (2 ^ 46 + id)).isSome = true →
          exec (.cxlTimeout port id) s = .next (s.oweOnce (.cxlTimeout port id)))) ∧
      (∀ n r, let line := 0x100000000000 + p * 2 ^ 40 + 64 * n
        let ev := exec (.cxlTimeout port (2 ^ 64 + n)) s
        let out := p ∈ s.hub.cxlDown ∨ 15040000 ≤ s.cycle.toNat - r.since
        find s.hub.cxlPend line = some r →
        (¬ out → ev = .next (s.oweOnce (.cxlTimeout port (2 ^ 64 + n)))) ∧
        (out → (∀ i, (s.chan i).state ≠ 1) →
          let u := State.listLine { s with hub := { s.hub with cxlPend := del s.hub.cxlPend line } } line r.seq r.write
          ev = .next (if r.write then u.record { event := 0x10, cls := 4, addr := line, seq := r.seq, unit := p } else u))) ∧
      ∀ ok, let ev := exec (.cxlRetrain port ok) s
        (s.hub.service = false ∨ p ∉ s.hub.cxlDown ∨ p ∈ s.hub.cxlOut → ev = .next s) ∧
        (s.hub.service = true → p ∈ s.hub.cxlDown → p ∉ s.hub.cxlOut → ∃ t, ev = .next t ∧
          (ok = true → t.hub.cxlDown = s.hub.cxlDown.filter (· ≠ p) ∧ t.hub.cxlOut = s.hub.cxlOut) ∧
          (ok = false → t.hub.cxlDown = s.hub.cxlDown ∧ p ∈ t.hub.cxlOut ∧ t.cxlGib p = 0)))


/-! ### Root firmware's commands -/

/-- The command set (13 R353 to R372). Root firmware takes the slot at its position once `own` is 1, clears `own`, goes on to the
next slot, and owes a completion with the slot's sequence number and code (R354, R355). A stopped package answers BUSY but
for QUERY and RESET (17 R415), a reserved bit RESERVED, an unassigned code UNKNOWN; and each command, with its operands in
order, has its effect (R357). RESET with a system channel that runs abandons its record first (19 R438). The model's: the precedence of the
statuses (log entry 100), what RANGE checks (101, DEDUCED), TLBINV's wait (82), ABORT (83), RESET (103) and which memory is of the
second tier (106, all DEDUCED), and LINKCFG's packets that wait (98). -/
def Obligations.CommandsComplete : Prop :=
  ∀ (s : State),
    (s.hub.booted = true → (∀ k ∈ s.hub.owed, k.code = 0x02 ∧ (k.status = 0 ∨ k.status = 0x08)) → let w := s.slot s.hub.cmdPos
      (w.getLsbD 0 = false → s.nextCommand = none) ∧
      (w.getLsbD 0 = true →
        (∀ (n : Nat) (c : Nat × Instr), [(1, Instr.query w), (2, .launch w), (3, .abort w), (4, .pagerdone w), (5, .range w), (6, .cxlshare w),
          (7, .linkcfg w), (8, .syscopy w), (9, .tlbinvCommand w), (10, .donq w), (11, .attest w), (12, .svcload w),
          (13, .reset w), (14, .pealfloor w)][n]? = some c → fld w 15 8 = c.1 → s.nextCommand = some c.2) ∧
        (fld w 15 8 = 0 ∨ 14 < fld w 15 8 → s.nextCommand = some (.unknownCommand w)))) ∧
    ((∃ k ∈ s.hub.owed, k.code ≠ 0x02 ∨ (k.status ≠ 0 ∧ k.status ≠ 0x08)) → s.nextCommand = none) ∧
    ∀ (w : Row), let o0 := w.extractLsb' 192 64
    let o1 := w.extractLsb' 256 64
    let o2 := w.extractLsb' 320 64
    let a := w.extractLsb' 128 64
    let others := [Instr.launch w, .abort w, .pagerdone w, .range w, .cxlshare w, .linkcfg w, .syscopy w, .tlbinvCommand w,
      .donq w, .attest w, .svcload w, .pealfloor w]
    (∀ st info word, let t := s.answer w st info word
      let at' := 0x3F0000000000 + 64 * (s.hub.cmdPos % 64)
      t.hub.cmdPos = s.hub.cmdPos + 1 ∧ (Memory.wf s.mem = true → memGet t.mem at' = memGet s.mem at' &&& 0xFE) ∧
      t.hub.owed = s.hub.owed ++ [{ word := word, seq := w.extractLsb' 64 64, info := BitVec.ofNat 32 info, status := st,
                                    code := w.extractLsb' 8 8 }]) ∧
    (∀ ev ∈ others, (s.stopped = true → exec ev s = .next (s.answer w 0x04 0 0)) ∧
      (s.stopped = false → s.takes w false = false → exec ev s = .next (s.answer w 0x01 0 0))) ∧
    (∀ ev, ev = .query w ∨ ev = .reset w → s.takes w true = false → exec ev s = .next (s.answer w 0x01 0 0)) ∧
    exec (.unknownCommand w) s = .next (s.answer w (if s.stopped then 0x04 else 0x02) 0 0) ∧
    (s.takes w true = true →
      (s.argGood w 64 = true → ∃ r : Row, fld r 511 448 = 0x1F ∧ fld r 447 384 = s.hub.lpddr % 2 ^ 64 ∧
        fld r 103 96 = s.hub.rampstep.toNat ∧ fld r 95 84 = s.hub.gmin.toNat ∧ fld r 83 79 = s.hub.hmax.toNat ∧
        fld r 51 32 = s.pkgid.toNat ∧ (∀ n, n < 8 → fld r (159 + 32 * n) (128 + 32 * n) = s.cxlGib n) ∧
        exec (.query w) s = .next ((s.homePut a.toNat (offsets (bytesOf 64 r.toNat))).answer w 0 0 0)) ∧
      (o0 ≠ 0 → exec (.reset w) s = .next (s.answer w 0x03 0 0)) ∧
      (o0 = 0 → (∃ e ∈ s.hub.chans, e.2.state = 1) → exec (.reset w) s = .next s.resetChans) ∧
      (∀ n, n < 16 → (s.chan n).state = 1 → (s.resetChans.chan n).failing.isSome = true) ∧
      (o0 = 0 → s.launches = [] → s.hub.donqs = [] → (∀ e ∈ s.hub.chans, e.2.state ≠ 1) → ∃ t, exec (.reset w) s = .next t ∧
        t.hub.cmdPos = s.hub.cmdPos + 1 ∧ t.stopped = false ∧ t.bad = [] ∧ t.full = [] ∧
        (∀ h, (t.ham h).fenced = false ∧ (t.ham h).shut = false ∧ (t.ham h).lines = []) ∧
        ∀ c k, (t.ctx c k).status = .idle ∧ (t.ctx c k).strand = none ∧
          ((s.ctx c k).trapvec ≠ 0 → (t.ctx c k).trapvec = (s.ctx c k).trapvec))) ∧
    (s.takes w false = true →
      (∀ l, s.launches.find? (fun l => l.seq = o0) = some l →
        exec (.abort w) s = .next ((s.abortLaunch l).answer w 0 0 (s.endWord l))) ∧
      ((∀ l ∈ s.launches, l.seq ≠ o0) → exec (.abort w) s = .next (s.answer w 0x03 0 0)) ∧
      (let hd : BitVec 32 := o0.setWidth 32
       (fld o0 63 32 = 0 → 4032 ≤ hdIdx hd → fld hd 31 20 ≠ 0 → (s.future hd).gen = hd.extractLsb' 20 12 →
         (s.future hd).kind = .pager → o1.toNat ≤ 2 →
         exec (.pagerdone w) s = .next ((s.pagerDone hd o1.toNat).answer w 0 0 0)) ∧
       (hdIdx hd < 4032 ∨ (s.future hd).gen ≠ hd.extractLsb' 20 12 →
         exec (.pagerdone w) s = .next (s.answer w 0x03 0 0))) ∧
      (let gone := fun (e : Tlb) => if o0 = 0 then e.covers (o2.setWidth 12) (o1.toNat % 2 ^ 57)
         else if o0 = 1 then e.space = o2.setWidth 12 else true
       (2 < o0.toNat → exec (.tlbinvCommand w) s = .next (s.answer w 0x03 0 0)) ∧
       (o0.toNat ≤ 2 → s.travelling gone = true → exec (.tlbinvCommand w) s = .next s) ∧
       (o0.toNat ≤ 2 → s.travelling gone = false → ∃ t, exec (.tlbinvCommand w) s = .next t ∧
         t.hub.cmdPos = s.hub.cmdPos + 1 ∧ ∀ c, (t.core c).tlb = (s.core c).tlb.filter fun e => !gone e)) ∧
      ((s.hub.gmin.toNat ≤ o0.toNat → o0.toNat < 4096 → o1.toNat ≤ s.hub.hmax.toNat →
         exec (.pealfloor w) s = .next (State.answer { s with hub := { s.hub with
           gmin := BitVec.ofNat 12 o0.toNat, hmax := BitVec.ofNat 5 o1.toNat } } w 0 0 0)) ∧
       (o0.toNat < s.hub.gmin.toNat ∨ s.hub.hmax.toNat < o1.toNat →
         exec (.pealfloor w) s = .next (s.answer w 0x03 0 0))) ∧
      (s.argGood w 32 = true → let r := BitVec.ofNat 256 (ofBytes (s.bytesAt a.toNat 32))
        rangeReserved r = false →
        (24 ≤ o0.toNat ∨ 16 ≤ o1.toNat → exec (.range w) s = .next (s.answer w 0x03 0 0)) ∧
        (o0.toNat < 24 → o1.toNat < 16 →
          (s.launches ≠ [] → exec (.range w) s = .next (s.answer w 0x04 0 0)) ∧
          (s.launches = [] → (∀ p ∈ imageParts r, p.2 ≠ 0 → s.backed (BitVec.ofNat 64 p.1) p.2 = true) →
            s.rangeInvalid o0.toNat o1.toNat r = false →
            ∃ t, exec (.range w) s = .next t ∧ look 0 t.ranges (16 * o0.toNat + o1.toNat) = r ∧
              ∀ i, i ≠ 16 * o0.toNat + o1.toNat → look 0 t.ranges i = look 0 s.ranges i))) ∧
      (∀ n, o0.toNat % 2 ^ 30 = 0 → o1.toNat % 2 ^ 30 = 0 → o1.toNat ≠ 0 → o2.toNat ≤ 1 → s.region o0.toNat = .cxl n →
        s.region (o0.toNat + o1.toNat - 1) = .cxl n →
        (s.launches ≠ [] → exec (.cxlshare w) s = .next (s.answer w 0x04 0 0)) ∧
        (s.launches = [] → ∃ t, exec (.cxlshare w) s = .next t ∧ t.mem = s.takeSlot.mem ∧ ∀ g, g ∈ t.hub.shared ↔
          if o0.toNat / 2 ^ 30 ≤ g ∧ g < o0.toNat / 2 ^ 30 + o1.toNat / 2 ^ 30 then o2 = 1 else g ∈ s.hub.shared)) ∧
      (s.argGood w 4096 = true → fld o0 63 20 = 0 →
        let gt := s.readTable a.toNat
        let mt := s.readTable (a.toNat + 2048)
        (s.hub.configured = true → o0.setWidth 20 ≠ s.pkgid → exec (.linkcfg w) s = .next (s.answer w 0x03 0 0)) ∧
        ((s.hub.configured = true → o0.setWidth 20 = s.pkgid) →
          (s.hub.service = false → exec (.linkcfg w) s = .next (s.answer w 0x04 0 0)) ∧
          (s.hub.service = true → (∀ e ∈ gt ++ mt, fld e.2 15 12 = 0) →
            (s.hub.configured = false → ∃ t, exec (.linkcfg w) s = .next t ∧ t.pkgid = o0.setWidth 20 ∧ t.groupTable = gt ∧
              t.memberTable = mt ∧ t.hub.configured = true ∧
              ∀ p, p < 12 → look {} t.ports p = { up := false, lanes := 0, training := true }) ∧
            (s.hub.configured = true → (∀ e ∈ s.peers, e.2.unacked = []) → ∃ t, exec (.linkcfg w) s = .next t ∧
              t.pkgid = s.pkgid ∧ t.groupTable = gt ∧ t.memberTable = mt ∧ t.hub.linkHold = false ∧
              (∀ d, (look ({} : Peer) t.peers d).dead = false) ∧
              ∀ p, (t.port p).up = (s.port p).up ∧ (t.port p).lanes = (s.port p).lanes) ∧
            (∀ e ∈ s.peers, s.hub.configured = true → e.2.unacked ≠ [] →
              exec (.linkcfg w) s = .next { s with hub := { s.hub with linkHold := true } })))) ∧
      (let d := look ({} : DonQueue) s.hub.donqs o0.toNat
       (16 ≤ o0.toNat ∨ 256 < o1.toNat → exec (.donq w) s = .next (s.answer w 0x03 0 0)) ∧
       (o0.toNat < 16 → o1.toNat ≤ 256 →
         (d.frames ≠ [] → exec (.donq w) s = .next (s.answer w 0x04 0 0)) ∧
         (d.frames = [] → (o1 ≠ 0 → s.backed o2 (o1.toNat * 98304) = true ∧ s.secondTier o2.toNat = true) →
           ∃ t, exec (.donq w) s = .next t ∧ look ({} : DonQueue) t.hub.donqs o0.toNat =
             { cap := o1.toNat, base := o2, frames := [] }))) ∧
      (∀ digest : BitVec 384, (o0 = 0 ∧ digest = 0) ∨
          (o0 ≠ 0 ∧ ∃ l, s.launches.find? (fun l => l.seq = o0) = some l ∧ digest = l.digest) →
        (s.argGood w 304 = true → o1 = 0 →
          let body := bytesOf 208 (ofBytes (s.bytesAt a.toNat 48) % 2 ^ 384 + s.pkgid.toNat * 2 ^ 384 + 0x1F * 2 ^ 448
            + Config.romDigest.toNat * 2 ^ 512 + (if s.hub.service then s.hub.serviceDigest.toNat else 0) * 2 ^ 896
            + digest.toNat * 2 ^ 1280)
          exec (.attest w) s = .next ((State.homePut { s with free := s.free + 1 } a.toNat
            (offsets (body ++ bytesOf 96 (deviceSign s.free (sha384 body)).toNat))).answer w 0 304 0)) ∧
        (s.argGood w (Config.certificate.take 2048).length = true → o1 = 1 → exec (.attest w) s = .next
          ((s.homePut a.toNat (offsets (Config.certificate.take 2048))).answer w 0 (Config.certificate.take 2048).length 0))) ∧
      (s.argGood w (if o1 = 1 then (Config.certificate.take 2048).length else 304) = true →
        1 < o1.toNat ∨ (o0 ≠ 0 ∧ ∀ l ∈ s.launches, l.seq ≠ o0) → exec (.attest w) s = .next (s.answer w 0x03 0 0)) ∧
      (s.argGood w 24 = true →
        let word := fun (i : Nat) => BitVec.ofNat 64 (ofBytes (s.bytesAt (a.toNat + 8 * i) 8))
        let digest := sha384 (s.bytesAt (word 0).toNat (word 1).toNat)
        let ok := verifies digest (BitVec.ofNat 768 (ofBytes (s.bytesAt (word 2).toNat 96)))
        s.backed (word 0) (word 1).toNat = true → s.backed (word 2) 96 = true →
        ∃ t, exec (.svcload w) s = .next t ∧ t.hub.cmdPos = s.hub.cmdPos + 1 ∧
          (ok = true → t.hub.service = true ∧ t.hub.serviceDigest = digest ∧ t.hub.reportNo = 0) ∧
          (ok = false → t.hub.service = s.hub.service ∧ t.hub.serviceDigest = s.hub.serviceDigest ∧
            ∃ k ∈ t.hub.owed, k.status = 0x07)))

/-- LAUNCH and the system copy channels (13 R354, R359 to R365, 19 R438, R439). A launch in order starts: it runs, its hamlets
are set up with empty channels, its windows and nodes, and its contexts take its table root; its root frames begin their walk,
the accumulator banks hold zeros, and its completion is owed only at its end; one that is not ends with its status. SYSCOPY
starts a channel at its head. A channel stops at a record that it does not own, completes a record with reserved bits or of no
more bytes, and moves a stage; when the stage is acknowledged the channel goes on, and one that has failed stops, with event
0x07. The model's: the checks of a launch beyond R363's table (log entry 102, DEDUCED), where its overflow areas lie (123,
DESIGN CHOICE), and a channel record's INVALID and its abandonment (108, DEDUCED). -/
def Obligations.LaunchAndSystemCopies : Prop :=
  ∀ (s : State) (w : Row), let o0 := w.extractLsb' 192 64
    let o1 := w.extractLsb' 256 64
    let a := (w.extractLsb' 128 64).toNat
    (s.takes w false = true →
      (∀ st, s.launchBad w = some st → exec (.launch w) s = .next (s.answer w st 0 0)) ∧
      (s.launchBad w = none → let l := s.loadRec a
        ∃ t m, exec (.launch w) s = .next t ∧ t.hub.cmdPos = s.hub.cmdPos + 1 ∧ t.hub.owed = s.hub.owed ∧
          t.launches = s.launches ++ [m] ∧ m.seq = w.extractLsb' 64 64 ∧ m.hamlets = lrHamlets l.rec' ∧
          m.nframes = lrNframes l.rec' ∧ m.total = 0 ∧ (m.frames.map fun r => (r.frame, r.waiting)) =
            l.frames.map (fun e => ({ frameOf (e.extractLsb' 0 512) with root := true }, false)) ∧
          t.agenda.head? = some (.rootFrameWalk m.seq.toNat) ∧
          ∀ h, h < 256 → m.hamlets.getLsbD h = true → let x := t.ham h
            x.seq = some m.seq ∧ x.marks = {} ∧ x.sent = 0 ∧ x.received = 0 ∧ x.barriers = [] ∧ x.stealMask = s.stealBits h ∧
            x.area = some ((Config.overflowBase % (2 ^ 19 - 256) + h) * 2 ^ 20) ∧
            (∀ n c, find x.channels n = some c → c.head = 0 ∧ c.count = 0) ∧
            (x.windows.map Window.desc) = (l.wins.filter fun d => fld d 7 0 = h) ∧
            (∀ i, i < 8 → (t.core (8 * h + i)).mill.bank0 = [] ∧ (t.core (8 * h + i)).mill.bank1 = []) ∧
            (∀ i, i < 8 → ∀ k, k < 5 → (t.ctx (8 * h + i) k).tblroot = l.rec'.extractLsb' 192 64 ∧
              (t.ctx (8 * h + i) k).status = (s.ctx (8 * h + i) k).status))) ∧
    (s.takes w false = true → o0.toNat < 16 → let c := s.chan o0.toNat
      (o1.toNat % 64 = 0 → c.state = 1 → exec (.syscopy w) s = .next (s.answer w 0x04 0 0)) ∧
      (o1.toNat % 64 = 0 → c.state ≠ 1 → o1 ≠ 0 → s.backed o1 64 = true → ∃ t, exec (.syscopy w) s = .next t ∧
        t.chan o0.toNat = { cur := o1, done := 0, event := 0, state := 1 } ∧
        .syscopyRecord (Fin.ofNat 16 o0.toNat) ∈ t.agenda) ∧
      (o1 = 0 → c.state = 2 → ∃ t, exec (.syscopy w) s = .next t ∧
        t.chan o0.toNat = { cur := c.cur, done := c.done, event := 0, state := 1 } ∧
        .syscopyRecord (Fin.ofNat 16 o0.toNat) ∈ t.agenda) ∧
      (o1 = 0 → c.state = 0 → exec (.syscopy w) s = .next (s.answer w 0x03 0 0))) ∧
    (∀ (ch : Fin 16), let c := s.chan ch.val
      let r : Row := rowOf (s.homeRead c.cur.toNat 64)
      c.state = 1 → c.failing = none → c.staged = none →
      (s.region c.cur.toNat = .unbacked → exec (.syscopyRecord ch) s = .next (s.abandon ch.val)) ∧
      (s.region c.cur.toNat ≠ .unbacked → (∀ l ∈ s.stageParts ch.val, s.cxlStuck l = false ∧ s.fencedAt l = false) →
      let ended := fun (st : Byte) => ∀ t, t = s.homePut c.cur.toNat [(0, r.extractLsb' 0 8 &&& 0xFE), (1, st)] →
        ∃ v, exec (.syscopyRecord ch) s = .next v ∧ v.mem = t.mem ∧
          v.hub.irqs = t.hub.irqs ++ (if r.getLsbD 1 then [16 + ch.val] else []) ∧
          v.chan ch.val = if r.extractLsb' 64 64 = 0 then {} else { cur := r.extractLsb' 64 64, state := 1 }
      (r.getLsbD 0 = false → exec (.syscopyRecord ch) s = .next (s.setSysChan ch.val { c with state := 2 })) ∧
      (r.getLsbD 0 = true → recReserved r = true → ended 0x01) ∧
      (r.getLsbD 0 = true → recReserved r = false → recInvalid r = true → ended 0x03) ∧
      (r.getLsbD 0 = true → recReserved r = false → recInvalid r = false → fld r 415 384 ≤ c.done.toNat → ended 0x00) ∧
      (r.getLsbD 0 = true → recReserved r = false → recInvalid r = false → recFmt r = 0 →
        let n := fld r 415 384 - c.done.toNat
        let src := fld r 173 128 + c.done.toNat
        let dst := fld r 301 256 + c.done.toNat
        n ≠ 0 → src % 64 + n ≤ 64 → dst % 64 + n ≤ 64 → src + n ≤ 2 ^ 46 → dst + n ≤ 2 ^ 46 →
        sysPkg (recSrc r) = s.pkgid → sysPkg (recDst r) = s.pkgid → s.forwards = [] →
        s.region src ≠ .unbacked → s.region dst ≠ .unbacked → s.bad = [] → s.tainted = [] →
        ∃ v, exec (.syscopyRecord ch) s = .next v ∧
          v.mem = ((s.homePut dst (offsets (s.homeRead src n))).fillWords dst n).mem ∧
          (v.chan ch.val).staged = some n ∧ .syscopyStageAck ch ∈ v.agenda))) ∧
    (∀ (ch : Fin 16), let c := s.chan ch.val
      ((∃ m ∈ s.flight, m.id ∈ c.out) → ∃ v, exec (.syscopyStageAck ch) s = .next v ∧ v.mem = s.mem ∧
        v.chan ch.val = c ∧ .syscopyStageAck ch ∈ v.agenda) ∧
      ((∀ m ∈ s.flight, m.id ∉ c.out) →
        (∀ len, c.failing = none → c.staged = some len → c.fetch = [] → ∃ v, exec (.syscopyStageAck ch) s = .next v ∧
          v.mem = s.mem ∧ v.chan ch.val = { c with done := c.done + BitVec.ofNat 32 len, staged := none, out := [] } ∧
          .syscopyRecord ch ∈ v.agenda) ∧
        (∀ e, c.failing = some e → exec (.syscopyStageAck ch) s = .next
          ((s.setSysChan ch.val { cur := c.cur, done := c.done, event := e, state := 2 }).record
            { event := 0x07, cls := 0, addr := c.cur.toNat, info := c.done.setWidth 64 }))))


/-! ### The memory of every state -/

/-- Whatever a step does, memory stays in its one canonical form: addresses rising, and nothing listed that an unlisted address
reads as. Every instruction, event and command is covered, and a command of the operating system that stores bytes. -/
def Obligations.StepKeepsMemoryCanonical : Prop :=
  ∀ (s t : State), Memory.wf s.mem = true → step s = .next t → Memory.wf t.mem = true
end

