-- ==== Sys2Proof/Laws/Tables.lean ====
section
/-! SUPPORT. The laws of the sparse tables: reading after writing, for any order of the keys. -/

namespace Sys2Proof.Machine

theorem look_put_same {α : Type} (d v : α) (m : Map α) (k : Nat) : look d (put m k v) k = v := by
  induction m with
  | nil => simp [put, look]
  | cons e r ih =>
    obtain ⟨j, w⟩ := e
    unfold put
    by_cases h : k = j
    · simp [h, look]
    · by_cases h' : k < j
      · simp [h, h', look]
      · simp [h, h', look, Ne.symm h, ih]

theorem look_put_other {α : Type} (d v : α) (m : Map α) {k l : Nat} (h : l ≠ k) :
    look d (put m k v) l = look d m l := by
  induction m with
  | nil => simp [put, look, Ne.symm h]
  | cons e r ih =>
    obtain ⟨j, w⟩ := e
    unfold put
    by_cases hk : k = j
    · subst hk; simp [look, Ne.symm h]
    · by_cases h' : k < j
      · simp [hk, h', look, Ne.symm h]
      · simp [hk, h', look, ih]

theorem look_put {α : Type} (d v : α) (m : Map α) (k l : Nat) :
    look d (put m k v) l = if l = k then v else look d m l := by
  by_cases h : l = k
  · subst h; simp [look_put_same]
  · simp [h, look_put_other d v m h]

/-- A later entry at the same key replaces an earlier one. -/
theorem put_put {α : Type} (m : Map α) (k : Nat) (v w : α) : put (put m k v) k w = put m k w := by
  induction m with
  | nil => simp [put]
  | cons e r ih =>
    obtain ⟨j, u⟩ := e
    by_cases h : k = j
    · simp [put, h]
    · by_cases h' : k < j
      · simp [put, h, h']
      · simp [put, h, h', ih]

theorem find_put_same {α : Type} (v : α) (m : Map α) (k : Nat) : find (put m k v) k = some v := by
  induction m with
  | nil => simp [put, find]
  | cons e r ih =>
    obtain ⟨j, w⟩ := e
    unfold put
    by_cases h : k = j
    · simp [h, find]
    · by_cases h' : k < j
      · simp [h, h', find]
      · simp [h, h', find, Ne.symm h, ih]

theorem find_put_other {α : Type} (v : α) (m : Map α) {k l : Nat} (h : l ≠ k) : find (put m k v) l = find m l := by
  induction m with
  | nil => simp [put, find, Ne.symm h]
  | cons e r ih =>
    obtain ⟨j, w⟩ := e
    unfold put
    by_cases hk : k = j
    · subst hk; simp [find, Ne.symm h]
    · by_cases h' : k < j
      · simp [hk, h', find, Ne.symm h]
      · simp [hk, h', find, ih]

/-- A table entry read with a default is the entry found, if any. -/
theorem look_eq_find {α : Type} (d : α) (m : Map α) (k : Nat) : look d m k = (find m k).getD d := by
  induction m with
  | nil => simp [look, find]
  | cons e r ih =>
    obtain ⟨j, w⟩ := e
    by_cases h : j = k <;> simp [look, find, h, ih]

/-- Merging under a full mask takes the new bits, under an empty one the old. -/
theorem merge_full {w : Nat} (a b : BitVec w) : merge a b (BitVec.allOnes w) = b := by simp [merge]

theorem merge_none {w : Nat} (a b : BitVec w) : merge a b 0#w = a := by
  ext i
  simp [merge]

/-- Each bit of a merge comes from the new value where the mask is set, else from the old one. -/
theorem getLsbD_merge {w : Nat} (a b m : BitVec w) (i : Nat) :
    (merge a b m).getLsbD i = if m.getLsbD i then b.getLsbD i else a.getLsbD i := by
  by_cases hi : i < w
  · simp only [merge, BitVec.getLsbD_or, BitVec.getLsbD_and, BitVec.getLsbD_not, hi, decide_true, Bool.true_and]
    cases m.getLsbD i <;> simp
  · simp [BitVec.getLsbD_of_ge _ _ (Nat.le_of_not_lt hi)]

end Sys2Proof.Machine
end

