-- ==== Sys2Proof/Laws/State.lean ====
section
/-! SUPPORT. The small lemmas of the state's updates: what each leaves, field by field, and what it reads back. -/

namespace Sys2Proof.Machine

variable (s : State) (c k h : Nat) (co : Core) (x : Ctx) (y : Hamlet) (i : Instr)

@[simp] theorem setCore_hamlets : (s.setCore c co).hamlets = s.hamlets := rfl
@[simp] theorem setCore_mem : (s.setCore c co).mem = s.mem := rfl
@[simp] theorem setCore_full : (s.setCore c co).full = s.full := rfl
@[simp] theorem setCore_zeros : (s.setCore c co).zeros = s.zeros := rfl
@[simp] theorem setCore_ways : (s.setCore c co).ways = s.ways := rfl
@[simp] theorem setCore_tainted : (s.setCore c co).tainted = s.tainted := rfl
@[simp] theorem setCore_scales : (s.setCore c co).scales = s.scales := rfl
@[simp] theorem setCore_ranges : (s.setCore c co).ranges = s.ranges := rfl
@[simp] theorem setCore_bad : (s.setCore c co).bad = s.bad := rfl
@[simp] theorem setCore_badCode : (s.setCore c co).badCode = s.badCode := rfl
@[simp] theorem setCore_flight : (s.setCore c co).flight = s.flight := rfl
@[simp] theorem setCore_incoming : (s.setCore c co).incoming = s.incoming := rfl
@[simp] theorem setCore_watches : (s.setCore c co).watches = s.watches := rfl
@[simp] theorem setCore_forwards : (s.setCore c co).forwards = s.forwards := rfl
@[simp] theorem setCore_pkgid : (s.setCore c co).pkgid = s.pkgid := rfl
@[simp] theorem setCore_groupTable : (s.setCore c co).groupTable = s.groupTable := rfl
@[simp] theorem setCore_memberTable : (s.setCore c co).memberTable = s.memberTable := rfl
@[simp] theorem setCore_ports : (s.setCore c co).ports = s.ports := rfl
@[simp] theorem setCore_peers : (s.setCore c co).peers = s.peers := rfl
@[simp] theorem setCore_launches : (s.setCore c co).launches = s.launches := rfl
@[simp] theorem setCore_hub : (s.setCore c co).hub = s.hub := rfl
@[simp] theorem setCore_roots : (s.setCore c co).roots = s.roots := rfl
@[simp] theorem setCore_stopped : (s.setCore c co).stopped = s.stopped := rfl
@[simp] theorem setCore_cycle : (s.setCore c co).cycle = s.cycle := rfl
@[simp] theorem setCore_seqno : (s.setCore c co).seqno = s.seqno := rfl
@[simp] theorem setCore_curCore : (s.setCore c co).curCore = s.curCore := rfl
@[simp] theorem setCore_curCtx : (s.setCore c co).curCtx = s.curCtx := rfl
@[simp] theorem setCore_turn : (s.setCore c co).turn = s.turn := rfl
@[simp] theorem setCore_phase : (s.setCore c co).phase = s.phase := rfl
@[simp] theorem setCore_inputs : (s.setCore c co).inputs = s.inputs := rfl
@[simp] theorem setCore_agenda : (s.setCore c co).agenda = s.agenda := rfl
@[simp] theorem setCore_free : (s.setCore c co).free = s.free := rfl

@[simp] theorem setCtx_hamlets : (s.setCtx c k x).hamlets = s.hamlets := rfl
@[simp] theorem setCtx_mem : (s.setCtx c k x).mem = s.mem := rfl
@[simp] theorem setCtx_full : (s.setCtx c k x).full = s.full := rfl
@[simp] theorem setCtx_zeros : (s.setCtx c k x).zeros = s.zeros := rfl
@[simp] theorem setCtx_ways : (s.setCtx c k x).ways = s.ways := rfl
@[simp] theorem setCtx_tainted : (s.setCtx c k x).tainted = s.tainted := rfl
@[simp] theorem setCtx_scales : (s.setCtx c k x).scales = s.scales := rfl
@[simp] theorem setCtx_ranges : (s.setCtx c k x).ranges = s.ranges := rfl
@[simp] theorem setCtx_bad : (s.setCtx c k x).bad = s.bad := rfl
@[simp] theorem setCtx_badCode : (s.setCtx c k x).badCode = s.badCode := rfl
@[simp] theorem setCtx_flight : (s.setCtx c k x).flight = s.flight := rfl
@[simp] theorem setCtx_incoming : (s.setCtx c k x).incoming = s.incoming := rfl
@[simp] theorem setCtx_watches : (s.setCtx c k x).watches = s.watches := rfl
@[simp] theorem setCtx_forwards : (s.setCtx c k x).forwards = s.forwards := rfl
@[simp] theorem setCtx_pkgid : (s.setCtx c k x).pkgid = s.pkgid := rfl
@[simp] theorem setCtx_groupTable : (s.setCtx c k x).groupTable = s.groupTable := rfl
@[simp] theorem setCtx_memberTable : (s.setCtx c k x).memberTable = s.memberTable := rfl
@[simp] theorem setCtx_ports : (s.setCtx c k x).ports = s.ports := rfl
@[simp] theorem setCtx_peers : (s.setCtx c k x).peers = s.peers := rfl
@[simp] theorem setCtx_launches : (s.setCtx c k x).launches = s.launches := rfl
@[simp] theorem setCtx_hub : (s.setCtx c k x).hub = s.hub := rfl
@[simp] theorem setCtx_roots : (s.setCtx c k x).roots = s.roots := rfl
@[simp] theorem setCtx_stopped : (s.setCtx c k x).stopped = s.stopped := rfl
@[simp] theorem setCtx_cycle : (s.setCtx c k x).cycle = s.cycle := rfl
@[simp] theorem setCtx_seqno : (s.setCtx c k x).seqno = s.seqno := rfl
@[simp] theorem setCtx_curCore : (s.setCtx c k x).curCore = s.curCore := rfl
@[simp] theorem setCtx_curCtx : (s.setCtx c k x).curCtx = s.curCtx := rfl
@[simp] theorem setCtx_turn : (s.setCtx c k x).turn = s.turn := rfl
@[simp] theorem setCtx_phase : (s.setCtx c k x).phase = s.phase := rfl
@[simp] theorem setCtx_inputs : (s.setCtx c k x).inputs = s.inputs := rfl
@[simp] theorem setCtx_agenda : (s.setCtx c k x).agenda = s.agenda := rfl
@[simp] theorem setCtx_free : (s.setCtx c k x).free = s.free := rfl

@[simp] theorem setMe_hamlets : (s.setMe x).hamlets = s.hamlets := rfl
@[simp] theorem setMe_mem : (s.setMe x).mem = s.mem := rfl
@[simp] theorem setMe_full : (s.setMe x).full = s.full := rfl
@[simp] theorem setMe_zeros : (s.setMe x).zeros = s.zeros := rfl
@[simp] theorem setMe_ways : (s.setMe x).ways = s.ways := rfl
@[simp] theorem setMe_tainted : (s.setMe x).tainted = s.tainted := rfl
@[simp] theorem setMe_scales : (s.setMe x).scales = s.scales := rfl
@[simp] theorem setMe_ranges : (s.setMe x).ranges = s.ranges := rfl
@[simp] theorem setMe_bad : (s.setMe x).bad = s.bad := rfl
@[simp] theorem setMe_badCode : (s.setMe x).badCode = s.badCode := rfl
@[simp] theorem setMe_flight : (s.setMe x).flight = s.flight := rfl
@[simp] theorem setMe_incoming : (s.setMe x).incoming = s.incoming := rfl
@[simp] theorem setMe_watches : (s.setMe x).watches = s.watches := rfl
@[simp] theorem setMe_forwards : (s.setMe x).forwards = s.forwards := rfl
@[simp] theorem setMe_pkgid : (s.setMe x).pkgid = s.pkgid := rfl
@[simp] theorem setMe_groupTable : (s.setMe x).groupTable = s.groupTable := rfl
@[simp] theorem setMe_memberTable : (s.setMe x).memberTable = s.memberTable := rfl
@[simp] theorem setMe_ports : (s.setMe x).ports = s.ports := rfl
@[simp] theorem setMe_peers : (s.setMe x).peers = s.peers := rfl
@[simp] theorem setMe_launches : (s.setMe x).launches = s.launches := rfl
@[simp] theorem setMe_hub : (s.setMe x).hub = s.hub := rfl
@[simp] theorem setMe_roots : (s.setMe x).roots = s.roots := rfl
@[simp] theorem setMe_stopped : (s.setMe x).stopped = s.stopped := rfl
@[simp] theorem setMe_cycle : (s.setMe x).cycle = s.cycle := rfl
@[simp] theorem setMe_seqno : (s.setMe x).seqno = s.seqno := rfl
@[simp] theorem setMe_curCore : (s.setMe x).curCore = s.curCore := rfl
@[simp] theorem setMe_curCtx : (s.setMe x).curCtx = s.curCtx := rfl
@[simp] theorem setMe_turn : (s.setMe x).turn = s.turn := rfl
@[simp] theorem setMe_phase : (s.setMe x).phase = s.phase := rfl
@[simp] theorem setMe_inputs : (s.setMe x).inputs = s.inputs := rfl
@[simp] theorem setMe_agenda : (s.setMe x).agenda = s.agenda := rfl
@[simp] theorem setMe_free : (s.setMe x).free = s.free := rfl

@[simp] theorem setMyCore_hamlets : (s.setMyCore co).hamlets = s.hamlets := rfl
@[simp] theorem setMyCore_mem : (s.setMyCore co).mem = s.mem := rfl
@[simp] theorem setMyCore_full : (s.setMyCore co).full = s.full := rfl
@[simp] theorem setMyCore_zeros : (s.setMyCore co).zeros = s.zeros := rfl
@[simp] theorem setMyCore_ways : (s.setMyCore co).ways = s.ways := rfl
@[simp] theorem setMyCore_tainted : (s.setMyCore co).tainted = s.tainted := rfl
@[simp] theorem setMyCore_scales : (s.setMyCore co).scales = s.scales := rfl
@[simp] theorem setMyCore_ranges : (s.setMyCore co).ranges = s.ranges := rfl
@[simp] theorem setMyCore_bad : (s.setMyCore co).bad = s.bad := rfl
@[simp] theorem setMyCore_badCode : (s.setMyCore co).badCode = s.badCode := rfl
@[simp] theorem setMyCore_flight : (s.setMyCore co).flight = s.flight := rfl
@[simp] theorem setMyCore_incoming : (s.setMyCore co).incoming = s.incoming := rfl
@[simp] theorem setMyCore_watches : (s.setMyCore co).watches = s.watches := rfl
@[simp] theorem setMyCore_forwards : (s.setMyCore co).forwards = s.forwards := rfl
@[simp] theorem setMyCore_pkgid : (s.setMyCore co).pkgid = s.pkgid := rfl
@[simp] theorem setMyCore_groupTable : (s.setMyCore co).groupTable = s.groupTable := rfl
@[simp] theorem setMyCore_memberTable : (s.setMyCore co).memberTable = s.memberTable := rfl
@[simp] theorem setMyCore_ports : (s.setMyCore co).ports = s.ports := rfl
@[simp] theorem setMyCore_peers : (s.setMyCore co).peers = s.peers := rfl
@[simp] theorem setMyCore_launches : (s.setMyCore co).launches = s.launches := rfl
@[simp] theorem setMyCore_hub : (s.setMyCore co).hub = s.hub := rfl
@[simp] theorem setMyCore_roots : (s.setMyCore co).roots = s.roots := rfl
@[simp] theorem setMyCore_stopped : (s.setMyCore co).stopped = s.stopped := rfl
@[simp] theorem setMyCore_cycle : (s.setMyCore co).cycle = s.cycle := rfl
@[simp] theorem setMyCore_seqno : (s.setMyCore co).seqno = s.seqno := rfl
@[simp] theorem setMyCore_curCore : (s.setMyCore co).curCore = s.curCore := rfl
@[simp] theorem setMyCore_curCtx : (s.setMyCore co).curCtx = s.curCtx := rfl
@[simp] theorem setMyCore_turn : (s.setMyCore co).turn = s.turn := rfl
@[simp] theorem setMyCore_phase : (s.setMyCore co).phase = s.phase := rfl
@[simp] theorem setMyCore_inputs : (s.setMyCore co).inputs = s.inputs := rfl
@[simp] theorem setMyCore_agenda : (s.setMyCore co).agenda = s.agenda := rfl
@[simp] theorem setMyCore_free : (s.setMyCore co).free = s.free := rfl

@[simp] theorem setHam_cores : (s.setHam h y).cores = s.cores := rfl
@[simp] theorem setHam_mem : (s.setHam h y).mem = s.mem := rfl
@[simp] theorem setHam_full : (s.setHam h y).full = s.full := rfl
@[simp] theorem setHam_zeros : (s.setHam h y).zeros = s.zeros := rfl
@[simp] theorem setHam_ways : (s.setHam h y).ways = s.ways := rfl
@[simp] theorem setHam_tainted : (s.setHam h y).tainted = s.tainted := rfl
@[simp] theorem setHam_scales : (s.setHam h y).scales = s.scales := rfl
@[simp] theorem setHam_ranges : (s.setHam h y).ranges = s.ranges := rfl
@[simp] theorem setHam_bad : (s.setHam h y).bad = s.bad := rfl
@[simp] theorem setHam_badCode : (s.setHam h y).badCode = s.badCode := rfl
@[simp] theorem setHam_flight : (s.setHam h y).flight = s.flight := rfl
@[simp] theorem setHam_incoming : (s.setHam h y).incoming = s.incoming := rfl
@[simp] theorem setHam_watches : (s.setHam h y).watches = s.watches := rfl
@[simp] theorem setHam_forwards : (s.setHam h y).forwards = s.forwards := rfl
@[simp] theorem setHam_pkgid : (s.setHam h y).pkgid = s.pkgid := rfl
@[simp] theorem setHam_groupTable : (s.setHam h y).groupTable = s.groupTable := rfl
@[simp] theorem setHam_memberTable : (s.setHam h y).memberTable = s.memberTable := rfl
@[simp] theorem setHam_ports : (s.setHam h y).ports = s.ports := rfl
@[simp] theorem setHam_peers : (s.setHam h y).peers = s.peers := rfl
@[simp] theorem setHam_launches : (s.setHam h y).launches = s.launches := rfl
@[simp] theorem setHam_hub : (s.setHam h y).hub = s.hub := rfl
@[simp] theorem setHam_roots : (s.setHam h y).roots = s.roots := rfl
@[simp] theorem setHam_stopped : (s.setHam h y).stopped = s.stopped := rfl
@[simp] theorem setHam_cycle : (s.setHam h y).cycle = s.cycle := rfl
@[simp] theorem setHam_seqno : (s.setHam h y).seqno = s.seqno := rfl
@[simp] theorem setHam_curCore : (s.setHam h y).curCore = s.curCore := rfl
@[simp] theorem setHam_curCtx : (s.setHam h y).curCtx = s.curCtx := rfl
@[simp] theorem setHam_turn : (s.setHam h y).turn = s.turn := rfl
@[simp] theorem setHam_phase : (s.setHam h y).phase = s.phase := rfl
@[simp] theorem setHam_inputs : (s.setHam h y).inputs = s.inputs := rfl
@[simp] theorem setHam_agenda : (s.setHam h y).agenda = s.agenda := rfl
@[simp] theorem setHam_free : (s.setHam h y).free = s.free := rfl

@[simp] theorem setMyHam_cores : (s.setMyHam y).cores = s.cores := rfl
@[simp] theorem setMyHam_mem : (s.setMyHam y).mem = s.mem := rfl
@[simp] theorem setMyHam_full : (s.setMyHam y).full = s.full := rfl
@[simp] theorem setMyHam_zeros : (s.setMyHam y).zeros = s.zeros := rfl
@[simp] theorem setMyHam_ways : (s.setMyHam y).ways = s.ways := rfl
@[simp] theorem setMyHam_tainted : (s.setMyHam y).tainted = s.tainted := rfl
@[simp] theorem setMyHam_scales : (s.setMyHam y).scales = s.scales := rfl
@[simp] theorem setMyHam_ranges : (s.setMyHam y).ranges = s.ranges := rfl
@[simp] theorem setMyHam_bad : (s.setMyHam y).bad = s.bad := rfl
@[simp] theorem setMyHam_badCode : (s.setMyHam y).badCode = s.badCode := rfl
@[simp] theorem setMyHam_flight : (s.setMyHam y).flight = s.flight := rfl
@[simp] theorem setMyHam_incoming : (s.setMyHam y).incoming = s.incoming := rfl
@[simp] theorem setMyHam_watches : (s.setMyHam y).watches = s.watches := rfl
@[simp] theorem setMyHam_forwards : (s.setMyHam y).forwards = s.forwards := rfl
@[simp] theorem setMyHam_pkgid : (s.setMyHam y).pkgid = s.pkgid := rfl
@[simp] theorem setMyHam_groupTable : (s.setMyHam y).groupTable = s.groupTable := rfl
@[simp] theorem setMyHam_memberTable : (s.setMyHam y).memberTable = s.memberTable := rfl
@[simp] theorem setMyHam_ports : (s.setMyHam y).ports = s.ports := rfl
@[simp] theorem setMyHam_peers : (s.setMyHam y).peers = s.peers := rfl
@[simp] theorem setMyHam_launches : (s.setMyHam y).launches = s.launches := rfl
@[simp] theorem setMyHam_hub : (s.setMyHam y).hub = s.hub := rfl
@[simp] theorem setMyHam_roots : (s.setMyHam y).roots = s.roots := rfl
@[simp] theorem setMyHam_stopped : (s.setMyHam y).stopped = s.stopped := rfl
@[simp] theorem setMyHam_cycle : (s.setMyHam y).cycle = s.cycle := rfl
@[simp] theorem setMyHam_seqno : (s.setMyHam y).seqno = s.seqno := rfl
@[simp] theorem setMyHam_curCore : (s.setMyHam y).curCore = s.curCore := rfl
@[simp] theorem setMyHam_curCtx : (s.setMyHam y).curCtx = s.curCtx := rfl
@[simp] theorem setMyHam_turn : (s.setMyHam y).turn = s.turn := rfl
@[simp] theorem setMyHam_phase : (s.setMyHam y).phase = s.phase := rfl
@[simp] theorem setMyHam_inputs : (s.setMyHam y).inputs = s.inputs := rfl
@[simp] theorem setMyHam_agenda : (s.setMyHam y).agenda = s.agenda := rfl
@[simp] theorem setMyHam_free : (s.setMyHam y).free = s.free := rfl

@[simp] theorem as_cores : (s.as c k).cores = s.cores := rfl
@[simp] theorem as_hamlets : (s.as c k).hamlets = s.hamlets := rfl
@[simp] theorem as_mem : (s.as c k).mem = s.mem := rfl
@[simp] theorem as_full : (s.as c k).full = s.full := rfl
@[simp] theorem as_zeros : (s.as c k).zeros = s.zeros := rfl
@[simp] theorem as_ways : (s.as c k).ways = s.ways := rfl
@[simp] theorem as_tainted : (s.as c k).tainted = s.tainted := rfl
@[simp] theorem as_scales : (s.as c k).scales = s.scales := rfl
@[simp] theorem as_ranges : (s.as c k).ranges = s.ranges := rfl
@[simp] theorem as_bad : (s.as c k).bad = s.bad := rfl
@[simp] theorem as_badCode : (s.as c k).badCode = s.badCode := rfl
@[simp] theorem as_flight : (s.as c k).flight = s.flight := rfl
@[simp] theorem as_incoming : (s.as c k).incoming = s.incoming := rfl
@[simp] theorem as_watches : (s.as c k).watches = s.watches := rfl
@[simp] theorem as_forwards : (s.as c k).forwards = s.forwards := rfl
@[simp] theorem as_pkgid : (s.as c k).pkgid = s.pkgid := rfl
@[simp] theorem as_groupTable : (s.as c k).groupTable = s.groupTable := rfl
@[simp] theorem as_memberTable : (s.as c k).memberTable = s.memberTable := rfl
@[simp] theorem as_ports : (s.as c k).ports = s.ports := rfl
@[simp] theorem as_peers : (s.as c k).peers = s.peers := rfl
@[simp] theorem as_launches : (s.as c k).launches = s.launches := rfl
@[simp] theorem as_hub : (s.as c k).hub = s.hub := rfl
@[simp] theorem as_roots : (s.as c k).roots = s.roots := rfl
@[simp] theorem as_stopped : (s.as c k).stopped = s.stopped := rfl
@[simp] theorem as_cycle : (s.as c k).cycle = s.cycle := rfl
@[simp] theorem as_seqno : (s.as c k).seqno = s.seqno := rfl
@[simp] theorem as_turn : (s.as c k).turn = s.turn := rfl
@[simp] theorem as_phase : (s.as c k).phase = s.phase := rfl
@[simp] theorem as_inputs : (s.as c k).inputs = s.inputs := rfl
@[simp] theorem as_agenda : (s.as c k).agenda = s.agenda := rfl
@[simp] theorem as_free : (s.as c k).free = s.free := rfl

@[simp] theorem owe_cores : (s.owe i).cores = s.cores := rfl
@[simp] theorem owe_hamlets : (s.owe i).hamlets = s.hamlets := rfl
@[simp] theorem owe_mem : (s.owe i).mem = s.mem := rfl
@[simp] theorem owe_full : (s.owe i).full = s.full := rfl
@[simp] theorem owe_zeros : (s.owe i).zeros = s.zeros := rfl
@[simp] theorem owe_ways : (s.owe i).ways = s.ways := rfl
@[simp] theorem owe_tainted : (s.owe i).tainted = s.tainted := rfl
@[simp] theorem owe_scales : (s.owe i).scales = s.scales := rfl
@[simp] theorem owe_ranges : (s.owe i).ranges = s.ranges := rfl
@[simp] theorem owe_bad : (s.owe i).bad = s.bad := rfl
@[simp] theorem owe_badCode : (s.owe i).badCode = s.badCode := rfl
@[simp] theorem owe_flight : (s.owe i).flight = s.flight := rfl
@[simp] theorem owe_incoming : (s.owe i).incoming = s.incoming := rfl
@[simp] theorem owe_watches : (s.owe i).watches = s.watches := rfl
@[simp] theorem owe_forwards : (s.owe i).forwards = s.forwards := rfl
@[simp] theorem owe_pkgid : (s.owe i).pkgid = s.pkgid := rfl
@[simp] theorem owe_groupTable : (s.owe i).groupTable = s.groupTable := rfl
@[simp] theorem owe_memberTable : (s.owe i).memberTable = s.memberTable := rfl
@[simp] theorem owe_ports : (s.owe i).ports = s.ports := rfl
@[simp] theorem owe_peers : (s.owe i).peers = s.peers := rfl
@[simp] theorem owe_launches : (s.owe i).launches = s.launches := rfl
@[simp] theorem owe_hub : (s.owe i).hub = s.hub := rfl
@[simp] theorem owe_roots : (s.owe i).roots = s.roots := rfl
@[simp] theorem owe_stopped : (s.owe i).stopped = s.stopped := rfl
@[simp] theorem owe_cycle : (s.owe i).cycle = s.cycle := rfl
@[simp] theorem owe_seqno : (s.owe i).seqno = s.seqno := rfl
@[simp] theorem owe_curCore : (s.owe i).curCore = s.curCore := rfl
@[simp] theorem owe_curCtx : (s.owe i).curCtx = s.curCtx := rfl
@[simp] theorem owe_turn : (s.owe i).turn = s.turn := rfl
@[simp] theorem owe_phase : (s.owe i).phase = s.phase := rfl
@[simp] theorem owe_inputs : (s.owe i).inputs = s.inputs := rfl
@[simp] theorem owe_free : (s.owe i).free = s.free := rfl

/-! ### What is read back -/

@[simp] theorem setCore_core_same : (s.setCore c co).core c = co := look_put_same _ _ _ _

theorem setCore_core_other {d : Nat} (hd : d ≠ c) : (s.setCore c co).core d = s.core d := look_put_other _ _ _ hd

@[simp] theorem setHam_ham_same : (s.setHam h y).ham h = y := look_put_same _ _ _ _

theorem setHam_ham_other {g : Nat} (hg : g ≠ h) : (s.setHam h y).ham g = s.ham g := look_put_other _ _ _ hg

@[simp] theorem setCore_ham (g : Nat) : (s.setCore c co).ham g = s.ham g := rfl
@[simp] theorem setCtx_ham (g : Nat) : (s.setCtx c k x).ham g = s.ham g := rfl
@[simp] theorem setMe_ham (g : Nat) : (s.setMe x).ham g = s.ham g := rfl
@[simp] theorem setHam_core (d : Nat) : (s.setHam h y).core d = s.core d := rfl
@[simp] theorem setHam_ctx (d l : Nat) : (s.setHam h y).ctx d l = s.ctx d l := rfl
@[simp] theorem setHam_me : (s.setHam h y).me = s.me := rfl
@[simp] theorem owe_core (d : Nat) : (s.owe i).core d = s.core d := rfl
@[simp] theorem owe_ham (g : Nat) : (s.owe i).ham g = s.ham g := rfl
@[simp] theorem owe_me : (s.owe i).me = s.me := rfl

@[simp] theorem setCtx_ctx_same : (s.setCtx c k x).ctx c k = x := by simp [State.setCtx, State.ctx, look_put_same]

theorem setCtx_ctx_other_ctx {l : Nat} (hl : l ≠ k) : (s.setCtx c k x).ctx c l = s.ctx c l := by
  simp [State.setCtx, State.ctx, look_put_other _ _ _ hl]

theorem setCtx_ctx_other_core {d : Nat} (l : Nat) (hd : d ≠ c) : (s.setCtx c k x).ctx d l = s.ctx d l := by
  simp [State.setCtx, State.ctx, setCore_core_other _ _ _ hd]

@[simp] theorem setMe_me : (s.setMe x).me = x := setCtx_ctx_same _ _ _ _

@[simp] theorem setCore_setCore (co' : Core) : (s.setCore c co).setCore c co' = s.setCore c co' := by
  simp [State.setCore, put_put]

@[simp] theorem setHam_setHam (y' : Hamlet) : (s.setHam h y).setHam h y' = s.setHam h y' := by
  simp [State.setHam, put_put]

@[simp] theorem setCtx_setCtx (x' : Ctx) : (s.setCtx c k x).setCtx c k x' = s.setCtx c k x' := by
  simp [State.setCtx, put_put]

/-- Updates of the acting context compose: the last one stands. -/
@[simp] theorem setMe_setMe (x' : Ctx) : (s.setMe x).setMe x' = s.setMe x' := setCtx_setCtx _ _ _ _ _

/-- The other contexts stay when the acting one changes. -/
theorem setMe_ctx_other {d l : Nat} (hd : d ≠ s.curCore ∨ l ≠ s.curCtx) : (s.setMe x).ctx d l = s.ctx d l := by
  by_cases h : d = s.curCore
  · subst h
    exact setCtx_ctx_other_ctx _ _ _ _ (hd.resolve_left (fun h => h rfl))
  · exact setCtx_ctx_other_core _ _ _ _ _ h

/-- The mill, the deques and every other unit of a core stay when one of its contexts changes. -/
@[simp] theorem setCtx_mill : ((s.setCtx c k x).core c).mill = (s.core c).mill := by simp [State.setCtx]
@[simp] theorem setCtx_replay : ((s.setCtx c k x).core c).replay = (s.core c).replay := by simp [State.setCtx]
@[simp] theorem setCtx_tlb : ((s.setCtx c k x).core c).tlb = (s.core c).tlb := by simp [State.setCtx]
@[simp] theorem setCtx_copies : ((s.setCtx c k x).core c).copies = (s.core c).copies := by simp [State.setCtx]
@[simp] theorem setCtx_deques : ((s.setCtx c k x).core c).deques = (s.core c).deques := by simp [State.setCtx]
@[simp] theorem setCtx_inbox : ((s.setCtx c k x).core c).inbox = (s.core c).inbox := by simp [State.setCtx]

/-! ### The acting context after a result is pushed, and after an instruction retires -/

@[simp] theorem push_me_status (r : Result) : (s.push r).me.status = s.me.status := by simp [State.push]
@[simp] theorem push_me_pc (r : Result) : (s.push r).me.pc = s.me.pc := by simp [State.push]
@[simp] theorem push_me_store (r : Result) : (s.push r).me.store = s.me.store := by simp [State.push]
@[simp] theorem push_me_preds (r : Result) : (s.push r).me.preds = s.me.preds := by simp [State.push]
@[simp] theorem push_me_fpstatus (r : Result) : (s.push r).me.fpstatus = s.me.fpstatus := by simp [State.push]
@[simp] theorem push_me_srstate (r : Result) : (s.push r).me.srstate = s.me.srstate := by simp [State.push]
@[simp] theorem push_me_repstate (r : Result) : (s.push r).me.repstate = s.me.repstate := by simp [State.push]
@[simp] theorem push_me_rep (r : Result) : (s.push r).me.rep = s.me.rep := by simp [State.push]
@[simp] theorem push_me_grank (r : Result) : (s.push r).me.grank = s.me.grank := by simp [State.push]
@[simp] theorem push_me_trapcause (r : Result) : (s.push r).me.trapcause = s.me.trapcause := by simp [State.push]
@[simp] theorem push_me_trappc (r : Result) : (s.push r).me.trappc = s.me.trappc := by simp [State.push]
@[simp] theorem push_me_trapinfo (r : Result) : (s.push r).me.trapinfo = s.me.trapinfo := by simp [State.push]
@[simp] theorem push_me_trapvec (r : Result) : (s.push r).me.trapvec = s.me.trapvec := by simp [State.push]
@[simp] theorem push_me_tblroot (r : Result) : (s.push r).me.tblroot = s.me.tblroot := by simp [State.push]
@[simp] theorem push_me_priv (r : Result) : (s.push r).me.priv = s.me.priv := by simp [State.push]
@[simp] theorem push_me_tokens (r : Result) : (s.push r).me.tokens = s.me.tokens := by simp [State.push]
@[simp] theorem push_me_tokScope (r : Result) : (s.push r).me.tokScope = s.me.tokScope := by simp [State.push]
@[simp] theorem push_me_marks (r : Result) : (s.push r).me.marks = s.me.marks := by simp [State.push]
@[simp] theorem push_me_c1 (r : Result) : (s.push r).me.c1 = s.me.c1 := by simp [State.push]
@[simp] theorem push_me_c2 (r : Result) : (s.push r).me.c2 = s.me.c2 := by simp [State.push]
@[simp] theorem push_me_c3 (r : Result) : (s.push r).me.c3 = s.me.c3 := by simp [State.push]
@[simp] theorem push_me_hold (r : Result) : (s.push r).me.hold = s.me.hold := by simp [State.push]
@[simp] theorem push_me_latchA (r : Result) : (s.push r).me.latchA = s.me.latchA := by simp [State.push]
@[simp] theorem push_me_latchB (r : Result) : (s.push r).me.latchB = s.me.latchB := by simp [State.push]
@[simp] theorem push_me_latchD (r : Result) : (s.push r).me.latchD = s.me.latchD := by simp [State.push]
@[simp] theorem push_me_strand (r : Result) : (s.push r).me.strand = s.me.strand := by simp [State.push]
@[simp] theorem push_me_preempt (r : Result) : (s.push r).me.preempt = s.me.preempt := by simp [State.push]
@[simp] theorem push_me_deadline (r : Result) : (s.push r).me.deadline = s.me.deadline := by simp [State.push]
@[simp] theorem push_me_since (r : Result) : (s.push r).me.since = s.me.since := by simp [State.push]
@[simp] theorem push_me_savearea (r : Result) : (s.push r).me.savearea = s.me.savearea := by simp [State.push]
@[simp] theorem push_me_run (r : Result) : (s.push r).me.run = s.me.run := by simp [State.push]
@[simp] theorem push_me_runCycles (r : Result) : (s.push r).me.runCycles = s.me.runCycles := by simp [State.push]
@[simp] theorem push_me_parking (r : Result) : (s.push r).me.parking = s.me.parking := by simp [State.push]
@[simp] theorem push_me_gangq (r : Result) : (s.push r).me.gangq = s.me.gangq := by simp [State.push]
@[simp] theorem push_me_lead (r : Result) : (s.push r).me.lead = s.me.lead := by simp [State.push]
@[simp] theorem push_me_acqAfter (r : Result) : (s.push r).me.acqAfter = s.me.acqAfter := by simp [State.push]
@[simp] theorem push_me_answer (r : Result) : (s.push r).me.answer = s.me.answer := by simp [State.push]
@[simp] theorem push_me_ibuf (r : Result) : (s.push r).me.ibuf = s.me.ibuf := by simp [State.push]
@[simp] theorem push_me_counts (r : Result) : (s.push r).me.counts = s.me.counts := by simp [State.push]
@[simp] theorem push_me_late (r : Result) : (s.push r).me.late = s.me.late := by simp [State.push]
@[simp] theorem push_me_devq (r : Result) : (s.push r).me.devq = s.me.devq := by simp [State.push]
@[simp] theorem push_me_dbuf (r : Result) : (s.push r).me.dbuf = s.me.dbuf := by simp [State.push]
@[simp] theorem push_me_results (r : Result) : (s.push r).me.results = s.me.results ++ [r] := by simp [State.push]

variable (sw : Bool) (n : Nat) (target : Option Word)

theorem Ctx.repNext_hold (r : RepBuf) : (x.repNext r n).hold = x.hold := by
  unfold Ctx.repNext
  dsimp only
  split
  · rfl
  · split <;> rfl

/-- The end of a body instruction moves the pc and the REP, and nothing else (07 R187). -/
theorem Ctx.repNext_shape (r : RepBuf) :
    ∃ p w b, x.repNext r n = { x with pc := p, repstate := w, rep := b } := by
  by_cases h : fld x.repstate 3 0 + 1 < r.body.length
  · exact ⟨x.pc + BitVec.ofNat 64 n, repWord (fld x.repstate 15 4) (fld x.repstate 3 0 + 1), x.rep, by simp [Ctx.repNext, h]⟩
  · by_cases h' : fld x.repstate 15 4 + 1 < r.passes
    · exact ⟨r.pc + 12, repWord (fld x.repstate 15 4 + 1) 0, x.rep, by simp [Ctx.repNext, h, h']⟩
    · exact ⟨r.after, 0, none, by simp [Ctx.repNext, h, h']⟩

/-- Retiring moves the pc and the REP, sets or clears the hold, and forgets what was waited for; nothing else. -/
theorem Ctx.retire_shape :
    ∃ p w b d a q, x.retire sw n target = { x with pc := p, repstate := w, rep := b, hold := d, answer := a, parking := q } := by
  unfold Ctx.retire
  generalize hd : (if sw then Hold.switch else Hold.none) = d
  generalize ha : (if x.trapcause.getLsbD 12 then x.answer else none) = a
  generalize hp : (if x.trapcause.getLsbD 12 then x.parking else none) = q
  cases target with
  | some t => exact ⟨_, _, _, _, _, _, rfl⟩
  | none =>
    dsimp only
    split
    · split
      · obtain ⟨p, w, b, e⟩ := Ctx.repNext_shape { x with hold := d, answer := a, parking := q } n ‹RepBuf›
        exact ⟨p, w, b, d, a, q, e⟩
      · exact ⟨_, _, _, _, _, _, rfl⟩
    · exact ⟨_, _, _, _, _, _, rfl⟩

@[simp] theorem Ctx.retire_status : (x.retire sw n target).status = x.status := by
  obtain ⟨_, _, _, _, _, _, e⟩ := Ctx.retire_shape x sw n target; rw [e]
@[simp] theorem Ctx.retire_store : (x.retire sw n target).store = x.store := by
  obtain ⟨_, _, _, _, _, _, e⟩ := Ctx.retire_shape x sw n target; rw [e]
@[simp] theorem Ctx.retire_preds : (x.retire sw n target).preds = x.preds := by
  obtain ⟨_, _, _, _, _, _, e⟩ := Ctx.retire_shape x sw n target; rw [e]
@[simp] theorem Ctx.retire_fpstatus : (x.retire sw n target).fpstatus = x.fpstatus := by
  obtain ⟨_, _, _, _, _, _, e⟩ := Ctx.retire_shape x sw n target; rw [e]
@[simp] theorem Ctx.retire_srstate : (x.retire sw n target).srstate = x.srstate := by
  obtain ⟨_, _, _, _, _, _, e⟩ := Ctx.retire_shape x sw n target; rw [e]
@[simp] theorem Ctx.retire_grank : (x.retire sw n target).grank = x.grank := by
  obtain ⟨_, _, _, _, _, _, e⟩ := Ctx.retire_shape x sw n target; rw [e]
@[simp] theorem Ctx.retire_trapcause : (x.retire sw n target).trapcause = x.trapcause := by
  obtain ⟨_, _, _, _, _, _, e⟩ := Ctx.retire_shape x sw n target; rw [e]
@[simp] theorem Ctx.retire_trappc : (x.retire sw n target).trappc = x.trappc := by
  obtain ⟨_, _, _, _, _, _, e⟩ := Ctx.retire_shape x sw n target; rw [e]
@[simp] theorem Ctx.retire_trapinfo : (x.retire sw n target).trapinfo = x.trapinfo := by
  obtain ⟨_, _, _, _, _, _, e⟩ := Ctx.retire_shape x sw n target; rw [e]
@[simp] theorem Ctx.retire_trapvec : (x.retire sw n target).trapvec = x.trapvec := by
  obtain ⟨_, _, _, _, _, _, e⟩ := Ctx.retire_shape x sw n target; rw [e]
@[simp] theorem Ctx.retire_tblroot : (x.retire sw n target).tblroot = x.tblroot := by
  obtain ⟨_, _, _, _, _, _, e⟩ := Ctx.retire_shape x sw n target; rw [e]
@[simp] theorem Ctx.retire_priv : (x.retire sw n target).priv = x.priv := by
  obtain ⟨_, _, _, _, _, _, e⟩ := Ctx.retire_shape x sw n target; rw [e]
@[simp] theorem Ctx.retire_tokens : (x.retire sw n target).tokens = x.tokens := by
  obtain ⟨_, _, _, _, _, _, e⟩ := Ctx.retire_shape x sw n target; rw [e]
@[simp] theorem Ctx.retire_tokScope : (x.retire sw n target).tokScope = x.tokScope := by
  obtain ⟨_, _, _, _, _, _, e⟩ := Ctx.retire_shape x sw n target; rw [e]
@[simp] theorem Ctx.retire_marks : (x.retire sw n target).marks = x.marks := by
  obtain ⟨_, _, _, _, _, _, e⟩ := Ctx.retire_shape x sw n target; rw [e]
@[simp] theorem Ctx.retire_c1 : (x.retire sw n target).c1 = x.c1 := by
  obtain ⟨_, _, _, _, _, _, e⟩ := Ctx.retire_shape x sw n target; rw [e]
@[simp] theorem Ctx.retire_c2 : (x.retire sw n target).c2 = x.c2 := by
  obtain ⟨_, _, _, _, _, _, e⟩ := Ctx.retire_shape x sw n target; rw [e]
@[simp] theorem Ctx.retire_c3 : (x.retire sw n target).c3 = x.c3 := by
  obtain ⟨_, _, _, _, _, _, e⟩ := Ctx.retire_shape x sw n target; rw [e]
@[simp] theorem Ctx.retire_latchA : (x.retire sw n target).latchA = x.latchA := by
  obtain ⟨_, _, _, _, _, _, e⟩ := Ctx.retire_shape x sw n target; rw [e]
@[simp] theorem Ctx.retire_latchB : (x.retire sw n target).latchB = x.latchB := by
  obtain ⟨_, _, _, _, _, _, e⟩ := Ctx.retire_shape x sw n target; rw [e]
@[simp] theorem Ctx.retire_latchD : (x.retire sw n target).latchD = x.latchD := by
  obtain ⟨_, _, _, _, _, _, e⟩ := Ctx.retire_shape x sw n target; rw [e]
@[simp] theorem Ctx.retire_strand : (x.retire sw n target).strand = x.strand := by
  obtain ⟨_, _, _, _, _, _, e⟩ := Ctx.retire_shape x sw n target; rw [e]
@[simp] theorem Ctx.retire_preempt : (x.retire sw n target).preempt = x.preempt := by
  obtain ⟨_, _, _, _, _, _, e⟩ := Ctx.retire_shape x sw n target; rw [e]
@[simp] theorem Ctx.retire_deadline : (x.retire sw n target).deadline = x.deadline := by
  obtain ⟨_, _, _, _, _, _, e⟩ := Ctx.retire_shape x sw n target; rw [e]
@[simp] theorem Ctx.retire_since : (x.retire sw n target).since = x.since := by
  obtain ⟨_, _, _, _, _, _, e⟩ := Ctx.retire_shape x sw n target; rw [e]
@[simp] theorem Ctx.retire_savearea : (x.retire sw n target).savearea = x.savearea := by
  obtain ⟨_, _, _, _, _, _, e⟩ := Ctx.retire_shape x sw n target; rw [e]
@[simp] theorem Ctx.retire_run : (x.retire sw n target).run = x.run := by
  obtain ⟨_, _, _, _, _, _, e⟩ := Ctx.retire_shape x sw n target; rw [e]
@[simp] theorem Ctx.retire_runCycles : (x.retire sw n target).runCycles = x.runCycles := by
  obtain ⟨_, _, _, _, _, _, e⟩ := Ctx.retire_shape x sw n target; rw [e]
@[simp] theorem Ctx.retire_gangq : (x.retire sw n target).gangq = x.gangq := by
  obtain ⟨_, _, _, _, _, _, e⟩ := Ctx.retire_shape x sw n target; rw [e]
@[simp] theorem Ctx.retire_lead : (x.retire sw n target).lead = x.lead := by
  obtain ⟨_, _, _, _, _, _, e⟩ := Ctx.retire_shape x sw n target; rw [e]
@[simp] theorem Ctx.retire_acqAfter : (x.retire sw n target).acqAfter = x.acqAfter := by
  obtain ⟨_, _, _, _, _, _, e⟩ := Ctx.retire_shape x sw n target; rw [e]
@[simp] theorem Ctx.retire_ibuf : (x.retire sw n target).ibuf = x.ibuf := by
  obtain ⟨_, _, _, _, _, _, e⟩ := Ctx.retire_shape x sw n target; rw [e]
@[simp] theorem Ctx.retire_results : (x.retire sw n target).results = x.results := by
  obtain ⟨_, _, _, _, _, _, e⟩ := Ctx.retire_shape x sw n target; rw [e]

/-- The switch marker sets the hold (03 R66). -/
theorem Ctx.retire_hold : (x.retire sw n target).hold = if sw then .switch else .none := by
  unfold Ctx.retire
  generalize (if sw then Hold.switch else Hold.none) = d
  generalize (if x.trapcause.getLsbD 12 then x.answer else none) = a
  generalize (if x.trapcause.getLsbD 12 then x.parking else none) = q
  cases target with
  | some t => rfl
  | none =>
    dsimp only
    split
    · split
      · exact Ctx.repNext_hold _ _ _
      · rfl
    · rfl

/-- An instruction that does not jump goes on after itself, outside a REP body. -/
theorem Ctx.retire_pc (h : x.repOn = false) : (x.retire sw n none).pc = x.pc + BitVec.ofNat 64 n := by
  simp only [Ctx.repOn] at h
  unfold Ctx.retire
  cases sw <;> cases hr : x.rep <;> simp_all [Ctx.repOn]

@[simp] theorem Ctx.retire_jump (t : Word) : (x.retire sw n (some t)).pc = t := by
  simp [Ctx.retire]

end Sys2Proof.Machine
end

