-- ==== Sys2Proof/Laws/Frame.lean ====
section
/-! SUPPORT. What the frame of an instruction can do, said once: an instruction that nothing keeps from acting runs its
body in `entered`, and one whose body is done retires. -/

namespace Sys2Proof.Machine

variable {s u v w : State} {i : Instr} {o : Ops} {body : State → Act} {pre : State → Bool} {r : Result} {pc : Word}

theorem waited_entered (h : s.waitsDone o = true) : s.waited o = .ok (s.entered o) := by
  unfold State.waitsDone at h
  unfold State.waited State.entered
  cases ho : o.ext with
  | none => rfl
  | some c =>
    simp only [ho, Bool.and_eq_true] at h
    simp only [h.1, Option.isNone_iff_eq_none.mp h.2]
    rfl

theorem roomFor_clear (h : s.clear i o = true) : s.roomFor i = some s := by
  unfold State.clear at h
  unfold State.roomFor
  cases hm : makesVar i <;> simp_all

/-- An instruction that nothing keeps from acting runs its body in `entered`. -/
theorem run_goes (h : s.goes i o = true) :
    s.run i o body = .next ((s.entered o).finish i o (body (s.entered o))) := by
  unfold State.goes at h
  simp only [Bool.and_eq_true] at h
  have hb : (s.entered o).bankHeld i o = false := by
    have := h.2; unfold State.clear at this; simp only [Bool.and_eq_true] at this; simpa using this.1
  unfold State.run State.perform
  rw [waited_entered h.1.1]
  simp only [h.1.2, hb, roomFor_clear h.2]
  rfl

/-- A vector instruction that nothing keeps from acting runs its body in `entered`. -/
theorem performVec_goes (h : s.goesVec i o pre = true) :
    s.performVec i o pre body = (s.entered o).finish i o (body (s.entered o)) := by
  unfold State.goesVec at h
  simp only [Bool.and_eq_true] at h
  have hb : (s.entered o).bankHeld i o = false := by
    have := h.2; unfold State.clear at this; simp only [Bool.and_eq_true] at this; simpa using this.1
  unfold State.performVec
  rw [waited_entered h.1.2]
  simp only [h.1.1, hb, roomFor_clear h.2]
  rfl

theorem within_ok {ls : List Loc} {k : Act} (h : s.locsFault ls = none) : s.within ls k = k := by
  simp only [State.within, h]

theorem within_fault {ls : List Loc} {k : Act} {c : BitVec 6} {info : Word} (h : s.locsFault ls = some (c, info)) :
    s.within ls k = .trap c info := by
  simp only [State.within, h]

/-- The latches change nothing but the latches. -/
theorem latched_setMe (x : Ctx) : (s.latched i o).setMe x = s.setMe x := by
  unfold State.latched
  cases shape i with
  | none => rfl
  | some sh => simp

theorem latched_me : ∃ a b d, (s.latched i o).me = { s.me with latchA := a, latchB := b, latchD := d } := by
  unfold State.latched
  cases shape i with
  | none => exact ⟨_, _, _, rfl⟩
  | some sh => exact ⟨_, _, _, by rw [setMe_me]; rfl⟩

/-- An instruction whose body is done with the state `v` retires after the effects that lead to `u`, if `v` differs from `u`
in nothing but the results that it leaves. -/
theorem retires_of {rs : List Result} {target : Option Word} (h1 : ∀ x, v.setMe x = u.setMe x)
    (h2 : v.me = { u.me with results := u.me.results ++ rs }) :
    Retires u ((v.latched i o).retire o target) o rs target := by
  obtain ⟨a, b, d, hl⟩ := latched_me (s := v) (i := i) (o := o)
  obtain ⟨p, rp, rst, ho, an, pk, e⟩ := Ctx.retire_shape (v.latched i o).me o.sw o.bytes target
  have ht : (v.latched i o).retire o target = u.setMe ((v.latched i o).me.retire o.sw o.bytes target) := by
    rw [State.retire, latched_setMe, h1]
  refine ⟨⟨_, ht, ?_⟩, ?_, ?_, ?_⟩
  · rw [e, hl, h2]
  · rw [ht, setMe_me, Ctx.retire_results, hl, h2]
  · rw [ht, setMe_me, Ctx.retire_hold]
  · rw [ht, setMe_me]
    intro h
    have hp : (v.latched i o).me.pc = u.me.pc := by rw [hl, h2]
    have hr : (v.latched i o).me.repOn = u.me.repOn := by rw [hl, h2]; rfl
    cases target with
    | some t => rw [Ctx.retire_jump]; rfl
    | none => rw [Ctx.retire_pc _ _ _ (by rw [hr]; exact h.resolve_right (by simp)), hp]; rfl

/-- A result pushed. -/
theorem retires_push {r : Result} {target : Option Word} :
    Retires u (((u.push r).latched i o).retire o target) o [r] target :=
  retires_of (fun x => by simp [State.push]) (by simp [State.push])

/-- No result left. -/
theorem retires_none {target : Option Word} : Retires u ((u.latched i o).retire o target) o [] target :=
  retires_of (fun _ => rfl) (by simp)

/-- A body that is done, in an instruction that nothing keeps from acting. -/
theorem run_done {rs : List Result} (h : s.goes i o = true) (hb : body (s.entered o) = .done v)
    (h1 : ∀ x, v.setMe x = u.setMe x) (h2 : v.me = { u.me with results := u.me.results ++ rs }) :
    ∃ t, s.run i o body = .next t ∧ Retires u t o rs :=
  ⟨_, by rw [run_goes h, hb]; rfl, retires_of h1 h2⟩

/-- A body that jumps. -/
theorem run_jump {rs : List Result} (h : s.goes i o = true) (hb : body (s.entered o) = .jump v pc)
    (h1 : ∀ x, v.setMe x = u.setMe x) (h2 : v.me = { u.me with results := u.me.results ++ rs }) :
    ∃ t, s.run i o body = .next t ∧ Retires u t o rs (some pc) :=
  ⟨_, by rw [run_goes h, hb]; rfl, retires_of h1 h2⟩

/-- A body that leaves one result and changes nothing else. -/
theorem run_push (h : s.goes i o = true) (hb : body (s.entered o) = .done ((s.entered o).push r)) :
    ∃ t, s.run i o body = .next t ∧ Retires (s.entered o) t o [r] :=
  ⟨_, by rw [run_goes h, hb]; rfl, retires_push⟩

/-- A body that leaves no result. -/
theorem run_plain (h : s.goes i o = true) (hb : body (s.entered o) = .done u) :
    ∃ t, s.run i o body = .next t ∧ Retires u t o [] :=
  ⟨_, by rw [run_goes h, hb]; rfl, retires_none⟩

/-- The same four, for a vector instruction. -/
theorem vec_push (h : s.goesVec i o pre = true) (hb : body (s.entered o) = .done ((s.entered o).push r)) :
    Retires (s.entered o) (s.performVec i o pre body) o [r] := by
  rw [performVec_goes h, hb]; exact retires_push

theorem vec_plain (h : s.goesVec i o pre = true) (hb : body (s.entered o) = .done u) :
    Retires u (s.performVec i o pre body) o [] := by
  rw [performVec_goes h, hb]; exact retires_none

theorem vec_done {rs : List Result} (h : s.goesVec i o pre = true) (hb : body (s.entered o) = .done v)
    (h1 : ∀ x, v.setMe x = u.setMe x) (h2 : v.me = { u.me with results := u.me.results ++ rs }) :
    Retires u (s.performVec i o pre body) o rs := by
  rw [performVec_goes h, hb]; exact retires_of h1 h2

/-- A body that traps while every result has returned. -/
theorem run_trap {c : BitVec 6} {info : Word} (h : s.goes i o = true) (hb : body (s.entered o) = .trap c info) :
    s.run i o body = .next ((s.entered o).trap c info (s.entered o).me.faultPc) := by
  rw [run_goes h, hb]; rfl

/-! ### Releases -/

theorem withQueueGone_gone {k : State → Act} (h : s.queueGone = true) : s.withQueueGone k = k s := by
  have hn : ∀ p : Replay → Bool, s.myCore.replay.find? (fun r => r.ctx = s.curCtx && p r) = none := by
    intro p
    rw [List.find?_eq_none]
    intro r hr
    have := (List.all_eq_true.mp h) r hr
    simp only [decide_eq_true_eq] at this
    simp [this]
  have h1 : s.ownRefused = none := hn _
  have h2 : (s.myCore.replay.find? fun r => r.ctx = s.curCtx) = none := by
    simpa using hn (fun _ => true)
  unfold State.withQueueGone
  rw [h1, h2]

/-- A release that waits for nothing goes on with its effects. -/
theorem withRelease_ready {sc : Scope} {sync : Bool} {k : State → Act} (h : s.releaseReady sc sync = true) :
    s.withRelease sc sync k = k (s.release sc) := by
  unfold State.releaseReady at h
  simp only [Bool.and_eq_true] at h
  obtain ⟨hr, h⟩ := h
  unfold State.withRelease
  rw [if_neg (by simp [hr])]
  by_cases hc : sc = .core
  · subst hc
    have e : s.release .core = s := rfl
    rw [if_pos rfl] at h ⊢
    simp only [Bool.and_eq_true, Bool.not_eq_true'] at h
    rw [e, if_neg (by simp [h.1])]
    cases sync with
    | false => rfl
    | true => exact withQueueGone_gone (by simpa using h.2)
  · rw [if_neg hc] at h ⊢
    simp only [Bool.and_eq_true, decide_eq_true_eq] at h
    obtain ⟨⟨⟨hq, h1⟩, h2⟩, h3⟩ := h
    rw [withQueueGone_gone hq, if_pos (by simp [h1, h2, h3])]

/-- An access within a line is one piece. -/
theorem pieces_one {ea info : Word} {n off : Nat} (h : ea.toNat % 64 + n ≤ 64) :
    pieces ea n off info = [{ va := ea, n := n, off := off, info := info }] := by
  unfold pieces parts
  dsimp only
  rw [if_pos (by omega)]
  simp

end Sys2Proof.Machine
end

