-- ==== Sys2Proof/Laws/Memory.lean ====
section
/-! SUPPORT. Memory: reading after writing, and every operation on the list of cells keeps its canonical form. -/

namespace Sys2Proof.Machine

theorem Memory.above_mono {m : List Host.Cell} {a b : Nat} (h : a ≤ b) (hm : Memory.above b m = true) :
    Memory.above a m = true := by
  cases m with
  | nil => rfl
  | cons e r =>
    obtain ⟨j, v⟩ := e
    simp only [Memory.above, Bool.and_eq_true, decide_eq_true_eq] at hm ⊢
    exact ⟨⟨Nat.le_trans h hm.1.1, hm.1.2⟩, hm.2⟩

/-- Below its first address a list of cells in canonical form holds nothing. -/
theorem memGet_below {m : List Host.Cell} {a b : Nat} (hm : Memory.above b m = true) (h : a < b) : memGet m a = blank := by
  cases m with
  | nil => rfl
  | cons e r =>
    obtain ⟨j, v⟩ := e
    simp only [Memory.above, Bool.and_eq_true, decide_eq_true_eq] at hm
    have hj : a < j := Nat.lt_of_lt_of_le h hm.1.1
    simp [memGet, Nat.ne_of_gt hj, hj]

/-- A byte written within the bounds of a canonical list leaves it canonical. -/
theorem memSet_above {m : List Host.Cell} {a b : Nat} (v : Byte) (hb : b ≤ a) (hm : Memory.above b m = true) :
    Memory.above b (memSet m a v) = true := by
  induction m generalizing b with
  | nil =>
    by_cases hv : v = blank <;> simp [memSet, hv, Memory.above, hb]
  | cons e r ih =>
    obtain ⟨j, w⟩ := e
    have hm' := hm
    simp only [Memory.above, Bool.and_eq_true, decide_eq_true_eq] at hm'
    obtain ⟨⟨hbj, hw⟩, hr⟩ := hm'
    unfold memSet
    by_cases haj : a = j
    · subst haj
      by_cases hv : v = blank
      · simp only [hv, if_true]
        exact Memory.above_mono (Nat.le_succ_of_le hb) hr
      · simp [hv, Memory.above, hb, hr]
    · by_cases hlt : a < j
      · by_cases hv : v = blank
        · simpa [haj, hlt, hv] using hm
        · simp [haj, hlt, hv, Memory.above, hb, hw, hr, Nat.succ_le_of_lt hlt]
      · have hja : j + 1 ≤ a := Nat.succ_le_of_lt (Nat.lt_of_le_of_ne (Nat.le_of_not_lt hlt) (Ne.symm haj))
        simp [haj, hlt, Memory.above, hbj, hw, ih hja hr]

theorem memSet_wf {m : List Host.Cell} (a : Nat) (v : Byte) (hm : Memory.wf m = true) : Memory.wf (memSet m a v) = true :=
  memSet_above v (Nat.zero_le a) hm

theorem memGet_memSet_same_above {m : List Host.Cell} {b : Nat} (a : Nat) (v : Byte) (hm : Memory.above b m = true) :
    memGet (memSet m a v) a = v := by
  induction m generalizing b with
  | nil =>
    by_cases hv : v = blank
    · simp [memSet, hv, memGet]
    · simp [memSet, hv, memGet]
  | cons e r ih =>
    obtain ⟨j, w⟩ := e
    have hm' := hm
    simp only [Memory.above, Bool.and_eq_true, decide_eq_true_eq] at hm'
    unfold memSet
    by_cases haj : a = j
    · subst haj
      by_cases hv : v = blank
      · simp only [hv, if_true]
        exact memGet_below hm'.2 (Nat.lt_succ_self a)
      · simp [hv, memGet]
    · by_cases hlt : a < j
      · by_cases hv : v = blank
        · simp [haj, hlt, hv, memGet, Ne.symm haj]
        · simp [haj, hlt, hv, memGet]
      · simp [haj, hlt, memGet, Ne.symm haj, ih hm'.2]

/-- A byte written reads back. -/
theorem memGet_memSet_same {m : List Host.Cell} (a : Nat) (v : Byte) (hm : Memory.wf m = true) :
    memGet (memSet m a v) a = v := memGet_memSet_same_above a v hm

theorem memGet_memSet_other_above {m : List Host.Cell} {b : Nat} {a c : Nat} (v : Byte) (h : c ≠ a)
    (hm : Memory.above b m = true) : memGet (memSet m a v) c = memGet m c := by
  induction m generalizing b with
  | nil =>
    by_cases hv : v = blank
    · simp [memSet, hv]
    · by_cases hc : c < a <;> simp [memSet, hv, memGet, Ne.symm h, hc]
  | cons e r ih =>
    obtain ⟨j, w⟩ := e
    have hm' := hm
    simp only [Memory.above, Bool.and_eq_true, decide_eq_true_eq] at hm'
    unfold memSet
    by_cases haj : a = j
    · subst haj
      by_cases hv : v = blank
      · simp only [hv, if_true]
        by_cases hlt : c < a
        · simp [memGet, Ne.symm h, hlt, memGet_below hm'.2 (Nat.lt_succ_of_lt hlt)]
        · simp [memGet, Ne.symm h, hlt]
      · simp [hv, memGet, Ne.symm h]
    · by_cases hlt : a < j
      · by_cases hv : v = blank
        · simp [haj, hlt, hv]
        · by_cases hca : c < a
          · have hcj : c < j := Nat.lt_trans hca hlt
            simp [haj, hlt, hv, memGet, Ne.symm h, hca, Nat.ne_of_gt hcj, hcj]
          · simp [haj, hlt, hv, memGet, Ne.symm h, hca]
      · by_cases hjc : j = c
        · subst hjc
          simp [haj, hlt, memGet]
        · by_cases hcj : c < j
          · simp [haj, hlt, memGet, hjc, hcj]
          · simp [haj, hlt, memGet, hjc, hcj, ih hm'.2]

/-- A byte written leaves every other byte as it was. -/
theorem memGet_memSet_other {m : List Host.Cell} {a c : Nat} (v : Byte) (h : c ≠ a) (hm : Memory.wf m = true) :
    memGet (memSet m a v) c = memGet m c := memGet_memSet_other_above v h hm

theorem memWrite_wf {m : List Host.Cell} (a : Nat) (bs : List Byte) (hm : Memory.wf m = true) :
    Memory.wf (memWrite m a bs) = true := by
  induction bs generalizing m a with
  | nil => exact hm
  | cons b r ih => exact ih (a + 1) (memSet_wf a b hm)

theorem memPut_wf {m : List Host.Cell} (pa : Nat) (bs : List (Nat × Byte)) (hm : Memory.wf m = true) :
    Memory.wf (memPut m pa bs) = true := by
  unfold memPut
  induction bs generalizing m with
  | nil => exact hm
  | cons b r ih => exact ih (memSet_wf (pa + b.1) b.2 hm)

/-- Removing cells keeps the canonical form. -/
theorem filter_above {m : List Host.Cell} {b : Nat} (p : Host.Cell → Bool) (hm : Memory.above b m = true) :
    Memory.above b (m.filter p) = true := by
  induction m generalizing b with
  | nil => rfl
  | cons e r ih =>
    obtain ⟨j, v⟩ := e
    simp only [Memory.above, Bool.and_eq_true, decide_eq_true_eq] at hm
    by_cases hp : p (j, v)
    · simp [hp, Memory.above, hm.1.1, hm.1.2, ih hm.2]
    · simp only [List.filter_cons, hp]
      exact ih (Memory.above_mono (Nat.le_succ_of_le hm.1.1) hm.2)

theorem filter_wf {m : List Host.Cell} (p : Host.Cell → Bool) (hm : Memory.wf m = true) : Memory.wf (m.filter p) = true :=
  filter_above p hm

theorem memClear_wf {m : List Host.Cell} (a n : Nat) (hm : Memory.wf m = true) : Memory.wf (memClear m a n) = true :=
  filter_wf _ hm

/-- Bytes outside a range written are as they were. -/
theorem memGet_memWrite_other {m : List Host.Cell} {a c : Nat} (bs : List Byte) (h : c < a ∨ a + bs.length ≤ c)
    (hm : Memory.wf m = true) : memGet (memWrite m a bs) c = memGet m c := by
  induction bs generalizing m a with
  | nil => rfl
  | cons b r ih =>
    simp only [List.length_cons] at h
    have hca : c ≠ a := by omega
    rw [show memWrite m a (b :: r) = memWrite (memSet m a b) (a + 1) r from rfl,
      ih (by omega) (memSet_wf a b hm), memGet_memSet_other b hca hm]

/-- A byte of a range written reads back. -/
theorem memGet_memWrite_same {m : List Host.Cell} (a : Nat) (bs : List Byte) (i : Nat) (hi : i < bs.length)
    (hm : Memory.wf m = true) : memGet (memWrite m a bs) (a + i) = bs[i] := by
  induction bs generalizing m a i with
  | nil => simp at hi
  | cons b r ih =>
    rw [show memWrite m a (b :: r) = memWrite (memSet m a b) (a + 1) r from rfl]
    cases i with
    | zero =>
      rw [memGet_memWrite_other r (by omega) (memSet_wf a b hm)]
      simpa using memGet_memSet_same a b hm
    | succ i =>
      have := ih (m := memSet m a b) (a + 1) i (by simpa using hi) (memSet_wf a b hm)
      simpa [Nat.add_assoc, Nat.add_comm 1 i] using this

end Sys2Proof.Machine
end

