-- ==== Sys2Proof/Laws/Home.lean ====
section
/-! SUPPORT. Every operation of the machine that writes at a home, into a window or in a copy keeps the canonical form of memory. -/

namespace Sys2Proof.Machine

variable {s : State} {h pa line key st : Nat} {bs : List (Nat × Byte)}

/-- An operation that keeps the form step by step keeps it over a list of steps. -/
theorem foldl_wf {α : Type} (f : State → α → State)
    (hf : ∀ t a, Memory.wf t.mem = true → Memory.wf (f t a).mem = true) :
    ∀ (l : List α) (s : State), Memory.wf s.mem = true → Memory.wf (l.foldl f s).mem = true
  | [], _, hs => hs
  | a :: l, s, hs => foldl_wf f hf l (f s a) (hf s a hs)

/-- An operation that leaves memory as it is leaves it so over a list of steps. -/
theorem foldl_mem {α : Type} (f : State → α → State) (hf : ∀ t a, (f t a).mem = t.mem) :
    ∀ (l : List α) (s : State), (l.foldl f s).mem = s.mem
  | [], _ => rfl
  | a :: l, s => by rw [List.foldl_cons, foldl_mem f hf l, hf]

@[simp] theorem irq_mem (n : Nat) : (s.irq n).mem = s.mem := rfl
@[simp] theorem setFull_mem (b : Bool) : (s.setFull pa b).mem = s.mem := rfl
theorem ite_wf {c : Prop} [Decidable c] {a b : State} (ha : Memory.wf a.mem = true) (hb : Memory.wf b.mem = true) :
    Memory.wf (if c then a else b).mem = true := by split <;> assumption

@[simp] theorem setLine_mem {l : Line} : (s.setLine h line l).mem = s.mem := rfl
@[simp] theorem dropLine_mem : (s.dropLine h line).mem = s.mem := rfl

theorem putRecord_wf {e : ErrRec} {r : Row} {bs : List Byte} (hs : Memory.wf s.mem = true) :
    Memory.wf (s.putRecord e r bs).mem = true := memWrite_wf _ bs hs

/-- An error record keeps memory in its canonical form. -/
theorem record_wf {e : ErrRec} (hs : Memory.wf s.mem = true) : Memory.wf (s.record e).mem = true := by
  unfold State.record
  exact ite_wf hs (putRecord_wf hs)

theorem recordUnbacked_wf {c : Nat} (hs : Memory.wf s.mem = true) : Memory.wf (s.recordUnbacked c pa).mem = true := record_wf hs

theorem noteUnbacked_wf {c : Nat} (hs : Memory.wf s.mem = true) : Memory.wf (s.noteUnbacked c pa).mem = true := by
  unfold State.noteUnbacked
  split
  · exact recordUnbacked_wf hs
  · exact hs

/-- A scale-window line that is encoded keeps memory in its canonical form. -/
theorem evictScales_wf (hs : Memory.wf s.mem = true) : Memory.wf (s.evictScales line).mem = true := by
  unfold State.evictScales
  generalize List.replicate 64 (0 : Byte) = bs
  split
  · refine foldl_wf _ (fun _ _ => record_wf) _ _ (memPut_wf _ _ ?_)
    split
    · exact memWrite_wf _ _ hs
    · exact hs
  · exact hs

theorem leaveWay_wf (hs : Memory.wf s.mem = true) : Memory.wf (s.leaveWay line).mem = true := evictScales_wf hs

theorem wayRoom_wf {held : List Nat} (hs : Memory.wf s.mem = true) : Memory.wf (s.wayRoom held).mem = true := by
  unfold State.wayRoom
  split
  · exact leaveWay_wf hs
  · exact hs

/-- A line that takes a data way keeps memory in its canonical form. -/
theorem takeWay_wf (hs : Memory.wf s.mem = true) : Memory.wf (s.takeWay line).mem = true :=
  ite_wf hs (ite_wf hs (wayRoom_wf hs))

theorem lineIn_wf (hs : Memory.wf s.mem = true) : Memory.wf (s.lineIn line).mem = true := ite_wf hs (takeWay_wf hs)

theorem zeroRoom_wf {held : List Nat} (hs : Memory.wf s.mem = true) : Memory.wf (s.zeroRoom held).mem = true := by
  unfold State.zeroRoom
  generalize List.replicate 64 (0 : Byte) = bs
  split
  · exact memWrite_wf _ _ hs
  · exact hs

theorem zeroLine_wf (hs : Memory.wf s.mem = true) : Memory.wf (s.zeroLine line).mem = true :=
  ite_wf hs (zeroRoom_wf hs)

@[simp] theorem unlist_mem (whole : Bool) : (s.unlist line whole).mem = s.mem := by cases whole <;> rfl

@[simp] theorem putBits_mem : (s.putBits h pa bs).mem = s.mem := rfl

/-- A write at a home keeps memory in its canonical form. -/
theorem homeWrite_wf (hs : Memory.wf s.mem = true) : Memory.wf (s.homeWrite pa bs).mem = true := by
  have hb : ∀ c, Memory.wf (s.unlist (pa / 64 * 64) c).mem = true := fun c => by rw [unlist_mem]; exact hs
  unfold State.homeWrite
  generalize List.replicate 64 (0 : Byte) = z
  dsimp only
  split
  · exact hs
  · refine ite_wf ?_ (memPut_wf _ _ (hb _))
    rw [putBits_mem]; exact hs
  all_goals first
    | exact memPut_wf _ _ (hb _)
    | (split
       · exact takeWay_wf (hb _)
       · exact ite_wf (zeroLine_wf (hb _))
           (ite_wf (memPut_wf _ _ (memWrite_wf _ _ (takeWay_wf (hb _)))) (memPut_wf _ _ (takeWay_wf (hb _)))))

theorem homePut_wf (hs : Memory.wf s.mem = true) : Memory.wf (s.homePut pa bs).mem = true :=
  foldl_wf _ (fun _ _ => homeWrite_wf) _ _ hs

@[simp] theorem cxlAsk_mem {w : Bool} {q : Word} : (s.cxlAsk line w q).mem = s.mem := by
  unfold State.cxlAsk
  split
  · rfl
  · dsimp only [State.oweOnce]
    split <;> rfl

theorem writeBack_wf (hs : Memory.wf s.mem = true) : Memory.wf (s.writeBack h line).mem = true := by
  unfold State.writeBack
  split
  · exact hs
  · split
    · exact hs
    · split
      · rw [cxlAsk_mem]; exact hs
      · exact homeWrite_wf hs

/-- A line that leaves an L1 keeps memory in its canonical form. -/
theorem leaveL1_wf {c : Nat} (hs : Memory.wf s.mem = true) : Memory.wf (s.leaveL1 c line).mem = true := by
  unfold State.leaveL1
  dsimp only
  split
  · exact writeBack_wf hs
  · exact ite_wf (writeBack_wf hs) (writeBack_wf hs)

/-- A line that takes a place in an L1, with the line that leaves for it, keeps memory in its canonical form. -/
theorem putLine_wf {c : Nat} {l : Line} {alone : Bool} (hs : Memory.wf s.mem = true) :
    Memory.wf (s.putLine c line l alone).mem = true := by
  have hr : Memory.wf (s.makeRoom c line).mem = true := by
    unfold State.makeRoom
    dsimp only
    split
    · exact hs
    · split
      · exact leaveL1_wf hs
      · exact hs
  exact hr

@[simp] theorem shareL1_mem : (s.shareL1 h pa bs).mem = s.mem := by
  unfold State.shareL1
  split <;> rfl

/-- Bytes shown in other window lines keep memory in its canonical form. -/
theorem shareWin_wf {skip : Option Nat} (hs : Memory.wf s.mem = true) : Memory.wf (s.shareWin h pa bs skip).mem = true :=
  ite_wf hs (foldl_wf _ (fun _ _ ht => memPut_wf _ _ ht) _ _ hs)

/-- A window line filled keeps memory in its canonical form. -/
theorem fillWindow_wf {d : BitVec 128} (hs : Memory.wf s.mem = true) : Memory.wf (s.fillWindow h st pa d).mem = true := by
  have hn : Memory.wf ((s.noteUnbacked (8 * h) (pa / 64 * 64)).lineIn (pa / 64 * 64)).mem = true := lineIn_wf (noteUnbacked_wf hs)
  unfold State.fillWindow
  generalize List.replicate 64 (0 : Byte) = z
  generalize bytesOf 64 = f
  dsimp only
  split
  · split
    · exact hs
    · rw [setHam_mem]; exact memWrite_wf _ _ hn
  · rw [setHam_mem, foldl_mem _ (fun t i => setFull_mem _)]
    refine memWrite_wf _ _ ?_
    split
    · exact hs
    · exact hn

/-- A read of a place keeps memory in its canonical form. -/
theorem readPlace_wf {c n : Nat} {p : Place} {l1 strm : Bool} (hs : Memory.wf s.mem = true) :
    Memory.wf (s.readPlace c p n l1 strm).2.mem = true := by
  cases p with
  | window a b d => exact fillWindow_wf hs
  | global a dev =>
    simp only [State.readPlace]
    split
    · split
      · exact ite_wf (putLine_wf hs) hs
      · exact ite_wf (putLine_wf (lineIn_wf hs)) (lineIn_wf hs)
    · have hr : Memory.wf (if s.region a = .unbacked then s.recordUnbacked c a else s).mem = true :=
        ite_wf (recordUnbacked_wf hs) hs
      generalize (if s.region a = .unbacked then s.recordUnbacked c a else s) = t at hr ⊢
      by_cases hc : (l1 && !dev && (t.region a).global) = true
      · rw [if_pos hc]; exact putLine_wf (lineIn_wf hr)
      · rw [if_neg hc]; exact hr
  | near a => exact hs
  | far a dev => exact hs
  | foreign q a dev => exact hs

/-- A write to a place keeps memory in its canonical form. -/
theorem writePlace_wf {c : Nat} {p : Place} {strm : Bool} (hs : Memory.wf s.mem = true) :
    Memory.wf (s.writePlace c p bs strm).mem = true := by
  cases p with
  | near a => exact homeWrite_wf hs
  | window a b d =>
    refine shareWin_wf ?_
    rw [shareL1_mem]
    exact memPut_wf _ _ (fillWindow_wf hs)
  | global a dev =>
    simp only [State.writePlace]
    split
    · exact recordUnbacked_wf hs
    · exact shareWin_wf (putLine_wf (ite_wf hs (lineIn_wf hs)))
  | far a dev => exact hs
  | foreign q a dev => exact hs

theorem writeBackWin_wf (hs : Memory.wf s.mem = true) : Memory.wf (s.writeBackWin h key).mem = true := by
  unfold State.writeBackWin
  dsimp only
  split
  · split
    · exact hs
    · split
      · exact hs
      · rw [setHam_mem]
        refine ite_wf ?_ (homeWrite_wf (noteUnbacked_wf hs))
        rw [cxlAsk_mem]; exact hs
  · exact hs

/-- The release effects keep memory in its canonical form. -/
theorem writeBackAll_wf (hs : Memory.wf s.mem = true) : Memory.wf (s.writeBackAll h).mem = true :=
  foldl_wf _ (fun _ _ => writeBackWin_wf) _ _ (foldl_wf _ (fun _ _ => writeBack_wf) _ _ hs)

theorem release_wf {sc : Scope} (hs : Memory.wf s.mem = true) : Memory.wf (s.release sc).mem = true := by
  unfold State.release
  split
  · exact writeBackAll_wf hs
  · exact hs

@[simp] theorem dropClean_mem : (s.dropClean h).mem = s.mem := rfl

theorem acquire_mem {sc : Scope} : (s.acquire sc).mem = s.mem := by
  unfold State.acquire
  split <;> rfl

/-- An atomic applied at its home keeps memory in its canonical form. -/
theorem applyAtomic_wf {f : AtomicFn} (hs : Memory.wf s.mem = true) : Memory.wf (s.applyAtomic pa f).2.2.mem = true := by
  unfold State.applyAtomic
  dsimp only
  split
  · exact homePut_wf hs
  · exact hs

theorem refresh_wf {n : Nat} (hs : Memory.wf s.mem = true) : Memory.wf (s.refresh h pa n).mem = true := by
  unfold State.refresh
  dsimp only
  refine foldl_wf _ (fun t k ht => memPut_wf _ _ ht) _ _ ?_
  split
  · exact hs
  · rw [setHam_mem]; exact hs

/-- A window line dropped keeps memory in its canonical form. -/
theorem dropWindow_wf {d : BitVec 128} (hs : Memory.wf s.mem = true) : Memory.wf (s.dropWindow h st d).mem = true := by
  unfold State.dropWindow
  generalize List.replicate 64 (0 : Byte) = bs
  dsimp only
  refine ite_wf ?_ hs
  rw [setHam_mem, foldl_mem _ (fun t i => setFull_mem _)]
  exact memWrite_wf _ _ hs

theorem dirtyWindow_mem {on : Bool} : (s.dirtyWindow h st bs on).mem = s.mem := by
  unfold State.dirtyWindow
  dsimp only
  split <;> rfl

/-- The home-performed write of a release to a window keeps memory in its canonical form. -/
theorem windowHomePut_wf {d : BitVec 128} (hs : Memory.wf s.mem = true) : Memory.wf (s.windowHomePut h st pa d bs).mem = true := by
  unfold State.windowHomePut
  dsimp only
  have ht : Memory.wf ((((s.noteUnbacked (8 * h) pa).homePut pa bs).shareL1 h pa bs).shareWin h pa bs
      (some (winKey (st / 64 * 64)))).mem = true := by
    refine shareWin_wf ?_
    rw [shareL1_mem]
    exact homePut_wf (noteUnbacked_wf hs)
  refine ite_wf ht ?_
  rw [dirtyWindow_mem]
  exact memPut_wf _ _ (fillWindow_wf ht)

/-- A hamlet's dirty bytes of a line that reach their home keep memory in its canonical form. -/
theorem flushLine_wf {inv : Bool} (hs : Memory.wf s.mem = true) : Memory.wf (s.flushLine h line inv).mem = true := by
  have hb : Memory.wf (s.backLine h line).mem = true := foldl_wf _ (fun _ _ => writeBackWin_wf) _ _ (writeBack_wf hs)
  cases inv
  · exact hb
  · exact hb

/-- What an atomic does to its hamlet's copies keeps memory in its canonical form. -/
theorem evictFor_wf {p : Place} (hs : Memory.wf s.mem = true) : Memory.wf (s.evictFor p).mem = true := by
  cases p with
  | global a dev => exact flushLine_wf hs
  | window a b d =>
    simp only [State.evictFor]
    exact flushLine_wf (ite_wf (homePut_wf hs) (dropWindow_wf (homePut_wf hs)))
  | near a => exact hs
  | far a dev => exact hs
  | foreign q a dev => exact hs

end Sys2Proof.Machine
end

