-- ==== Sys2Proof/Laws/Lanes.lean ====
section
/-! SUPPORT. What a lane instruction writes, said once: each active element takes its place, and nothing else is masked. -/

namespace Sys2Proof.Machine

theorem ones_getLsbD {m w lo p : Nat} (hp : p < m) :
    (ones m w lo).getLsbD p = (decide (lo ≤ p) && decide (p < lo + w)) := by
  unfold ones
  rw [BitVec.getLsbD_shiftLeft, BitVec.getLsbD_ofNat, Nat.testBit_two_pow_sub_one]
  by_cases h : lo ≤ p
  · have h1 : ¬ p < lo := by omega
    have h2 : p - lo < m := by omega
    simp only [hp, h1, h2, h, decide_true, decide_false, Bool.not_false, Bool.true_and, decide_eq_decide]
    omega
  · simp [h, Nat.lt_of_not_le h]

/-- The bits of a lane. -/
theorem laneOf_testBit {w : Nat} {r : Row} {i j : Nat} (hj : j < w) : (laneOf w r i).testBit j = r.getLsbD (w * i + j) := by
  unfold laneOf
  rw [Nat.testBit_mod_two_pow, Nat.testBit_shiftRight]
  simp [hj, BitVec.getLsbD]

/-- Bit p of what the fold of `elemCell` gathers. -/
theorem elem_fold {w : Nat} {act : Word} {place : Nat → Nat} {f : Nat → Nat × Flags} (hw : 0 < w) (l : List Nat)
    (acc : Row × Row × Flags) :
    let r := l.foldl (fun (acc : Row × Row × Flags) i =>
      if act.getLsbD i then
        (acc.1 ||| ones 512 w (w * place i), acc.2.1 ||| (BitVec.ofNat 512 ((f i).1 % 2 ^ w) <<< (w * place i)), acc.2.2 ||| (f i).2)
      else acc) acc
    (∀ p, p < 512 → r.1.getLsbD p = (acc.1.getLsbD p || l.any fun i => act.getLsbD i && decide (place i = p / w))) ∧
    (∀ p, p < 512 → r.2.1.getLsbD p = (acc.2.1.getLsbD p ||
      l.any fun i => act.getLsbD i && decide (place i = p / w) && (f i).1.testBit (p % w))) ∧
    (∀ b, r.2.2.getLsbD b = (acc.2.2.getLsbD b || l.any fun i => act.getLsbD i && (f i).2.getLsbD b)) := by
  have hd : ∀ p k, (w * k ≤ p ∧ p < w * k + w) ↔ k = p / w := by
    intro p k
    rw [eq_comm, Nat.div_eq_iff hw]
    rw [Nat.mul_comm w k]
    omega
  induction l generalizing acc with
  | nil => simp
  | cons i l ih =>
    simp only [List.foldl_cons]
    cases ha : act.getLsbD i with
    | false => simpa [ha] using ih acc
    | true =>
      simp only [if_true]
      obtain ⟨h1, h2, h3⟩ := ih _
      refine ⟨fun p hp => ?_, fun p hp => ?_, fun b => ?_⟩
      · rw [h1 p hp]
        have := hd p (place i)
        simp only [BitVec.getLsbD_or, ones_getLsbD hp, List.any_cons, ha, Bool.true_and, Bool.or_assoc]
        refine congrArg (Bool.or _) (congrArg (Bool.or · _) ?_)
        rw [← Bool.decide_and, decide_eq_decide, this]
      · rw [h2 p hp]
        have := hd p (place i)
        simp only [BitVec.getLsbD_or, List.any_cons, ha, Bool.true_and, Bool.or_assoc]
        refine congrArg (Bool.or _) (congrArg (Bool.or · _) ?_)
        rw [BitVec.getLsbD_shiftLeft, BitVec.getLsbD_ofNat, Nat.testBit_mod_two_pow]
        by_cases h : place i = p / w
        · have h' := this.mpr h
          have e : p - w * place i = p % w := by
            rw [h]; have := Nat.div_add_mod p w; omega
          have m : p % w < w := Nat.mod_lt _ hw
          have m' : p % w < 512 := lt_of_le_of_lt (Nat.mod_le _ _) hp
          have q : ¬ p < w * place i := by omega
          have n : p - w * place i < 512 := by omega
          rw [e, decide_eq_true h]
          simp only [decide_true, Bool.true_and, hp, q, decide_false, Bool.not_false, m, m']
        · have h' : ¬ (w * place i ≤ p ∧ p < w * place i + w) := fun q => h (this.mp q)
          simp only [h, decide_false, Bool.false_and]
          by_cases q : p < w * place i
          · simp [q]
          · have : ¬ p - w * place i < w := by omega
            simp [this]
      · rw [h3 b]; simp [ha, Bool.or_assoc]

/-- What `elemCell` is: its row, its mask, its elements and its flags. -/
theorem elemCell_spec {row w n : Nat} {act : Word} {place : Nat → Nat} {f : Nat → Nat × Flags} (hw : 0 < w)
    (hn : ∀ i, i < n → w * place i + w ≤ 512) (inj : ∀ i j, i < n → j < n → place i = place j → i = j) :
    let c := elemCell row w n act place f
    c.1.tgt = .row row ∧
    (∀ p, p < 512 → c.1.mask.getLsbD p = (List.range n).any fun i => act.getLsbD i && decide (place i = p / w)) ∧
    (∀ i, i < n → act.getLsbD i = true → laneOf w c.1.data (place i) = (f i).1 % 2 ^ w) ∧
    ∀ b, c.2.getLsbD b = (List.range n).any fun i => act.getLsbD i && (f i).2.getLsbD b := by
  obtain ⟨h1, h2, h3⟩ := elem_fold (act := act) (place := place) (f := f) hw (List.range n) (0, 0, 0)
  refine ⟨rfl, fun p hp => ?_, fun i hi ha => ?_, fun b => ?_⟩
  · have := h1 p hp; simpa [elemCell] using this
  · apply Nat.eq_of_testBit_eq
    intro j
    rw [Nat.testBit_mod_two_pow]
    by_cases hj : j < w
    · rw [laneOf_testBit hj]
      have hp : w * place i + j < 512 := by have := hn i hi; omega
      have d : (w * place i + j) / w = place i := by
        rw [Nat.mul_add_div hw, Nat.div_eq_of_lt hj, Nat.add_zero]
      have m : (w * place i + j) % w = j := by rw [Nat.mul_add_mod, Nat.mod_eq_of_lt hj]
      have := h2 _ hp
      rw [d, m] at this
      show (elemCell row w n act place f).1.data.getLsbD _ = _
      refine Eq.trans this ?_
      simp only [hj, decide_true, Bool.true_and]
      rw [show BitVec.getLsbD (0 : Row) (w * place i + j) = false from BitVec.getLsbD_zero, Bool.false_or]
      rw [Bool.eq_iff_iff, List.any_eq_true]
      constructor
      · rintro ⟨k, hk, hq⟩
        simp only [Bool.and_eq_true, decide_eq_true_eq] at hq
        rw [← inj k i (by simpa using hk) hi hq.1.2]; exact hq.2
      · intro hq
        exact ⟨i, by simpa using hi, by simp [ha, hq]⟩
    · have : (laneOf w (elemCell row w n act place f).1.data (place i)).testBit j = false := by
        unfold laneOf
        rw [Nat.testBit_mod_two_pow]; simp [hj]
      simp [this, hj]
  · have := h3 b; simpa [elemCell] using this

/-- Types of vector views have elements that fill a row. -/
theorem width_of_vecFault {s : State} {v : View} {ok : Bool} (h : s.vecFault v ok = none) :
    widthOf v.etype = 8 ∨ widthOf v.etype = 16 ∨ widthOf v.etype = 32 ∨ widthOf v.etype = 64 := by
  unfold State.vecFault at h
  by_cases hc : (isInt v.etype || isFloat v.etype) = true
  · revert hc
    generalize v.etype = e
    revert e
    decide
  · simp [hc] at h

/-- A body whose operands raise no fault. -/
theorem orFault_ok {fs : List (Option (BitVec 6 × Word))} {k : Act} (h : ∀ f ∈ fs, f = none) : orFault fs k = k := by
  have : fs.filterMap id = [] := by
    rw [List.filterMap_eq_nil_iff]; exact h
  unfold orFault
  rw [this]
  rfl

/-- A lane instruction retires with its lanes. -/
theorem putLanes_lanes {s : State} {i : Instr} {o : Ops} {body : State → Act} {pre : State → Bool} {t : Three} {lat : Nat}
    {f g : Nat → Nat × Flags} (h : s.goesVec i o pre = true)
    (hb : body (s.entered o) = (s.entered o).putLanes t.d t.w lat ((s.entered o).lanes o) f)
    (hw : t.w = 8 ∨ t.w = 16 ∨ t.w = 32 ∨ t.w = 64)
    (hf : ∀ i, i < 512 / t.w → (f i).1 % 2 ^ t.w = (g i).1 % 2 ^ t.w ∧ (f i).2 = (g i).2) :
    Lanes (s.entered o) (s.performVec i o pre body) o t lat g := by
  have hw' : 0 < t.w := by omega
  obtain ⟨h1, h2, h3, h4⟩ := elemCell_spec (row := t.d.base / 64) (n := 512 / t.w) (act := (s.entered o).lanes o)
    (place := id) (f := f) hw' (fun i hi => by
      simp only [id]; rcases hw with e | e | e | e <;> rw [e] at hi ⊢ <;> omega) (fun i j _ _ e => e)
  refine ⟨_, _, vec_push h (r := fixedResult lat [(elemCell (t.d.base / 64) t.w (512 / t.w) ((s.entered o).lanes o) id f).1]
    (elemCell (t.d.base / 64) t.w (512 / t.w) ((s.entered o).lanes o) id f).2) (by rw [hb]; rfl), h1, h2, ?_, ?_⟩
  · intro i hi ha; rw [h3 i hi ha, (hf i hi).1]
  · intro b; rw [h4 b]
    rw [Bool.eq_iff_iff, List.any_eq_true, List.any_eq_true]
    constructor <;> rintro ⟨k, hk, hq⟩ <;> exact ⟨k, hk, by rw [(hf k (by simpa using hk)).2] at *; exact hq⟩

end Sys2Proof.Machine
end

