-- ==== Sys2Proof/Laws/PerInstr.lean ====
section
/-! SUPPORT. Facts made per instruction: opcode and function field name the instruction that has them (07 R177). -/

namespace Sys2Proof.Laws.Raw

open Machine

/-- The opcode and function field of an encoded instruction, with its operands, name that instruction. -/
def Statement (i : Instr) : Prop :=
  ∀ op fn o, toRaw i = some (op, fn) → opsOf i = some o → ofRaw op fn o = some i

/-- It is enough that the fields that `toRaw` and `opsOf` answer name it. -/
theorem of_eq {i : Instr} {op : BitVec 7} {fn : BitVec 4} {o : Ops} (h : ofRaw op fn o = some i)
    (h1 : toRaw i = some (op, fn)) (h2 : opsOf i = some o) : Statement i := by
  intro op' fn' o' e1 e2
  rw [h1] at e1; rw [h2] at e2
  cases e1; cases e2; exact h

/-- A row without an encoding has no opcode. -/
theorem of_none {i : Instr} (h : toRaw i = none) : Statement i := by
  intro op fn o e; rw [h] at e; cases e

theorem immBit : ∀ (i : Bool) (p : BitVec 3), (bit i <<< 3 ||| p.setWidth 4).getLsbD 3 = i := by decide
theorem lowBits : ∀ (i : Bool) (p : BitVec 3), (bit i <<< 3 ||| p.setWidth 4).extractLsb' 0 3 = p := by decide
theorem waitcBits : ∀ n : BitVec 2, (n.setWidth 4 : BitVec 4).extractLsb' 0 2 = n := by decide
theorem ofRaw_sel (fn : BitVec 4) (o : Ops) :
    ofRaw 0x10 fn o = some (.sel o (fn.getLsbD 3) (fn.extractLsb' 0 3)) := rfl
theorem ofRaw_lea (fn : BitVec 4) (o : Ops) :
    ofRaw 0x13 fn o = some (.lea o (fn.getLsbD 3) (fn.extractLsb' 0 3)) := rfl
theorem ofRaw_waitc (n : BitVec 2) (o : Ops) :
    ofRaw 0x2A (n.setWidth 4) o = some (.waitc o ((n.setWidth 4 : BitVec 4).extractLsb' 0 2)) := by
  have h : ∀ n : BitVec 2, (n.setWidth 4 : BitVec 4).toNat < 4 := by decide
  exact if_pos (h n)
theorem barBits : ∀ (n : BitVec 2) (s : BarScope),
    let fn : BitVec 4 := n.setWidth 4 <<< 2 ||| (code barList s + 1)
    ¬ (fn &&& 3 = 0) ∧ nth barList ((fn &&& 3) - 1) = some s ∧ fn.extractLsb' 2 2 = n := by
  intro n s; cases s <;> revert n <;> decide
theorem ofRaw_bar (o : Ops) (n : BitVec 2) (s : BarScope) :
    ofRaw 0x5F (n.setWidth 4 <<< 2 ||| (code barList s + 1)) o = some (.bar o n s) := by
  obtain ⟨h1, h2, h3⟩ := barBits n s
  refine (if_neg h1).trans ?_
  rw [h2, h3]; rfl

theorem add (o : Ops) (imm : Bool) (t : ITy) : Statement (.add o imm t) := by
  cases imm <;> cases t <;> exact of_eq rfl rfl rfl
theorem sub (o : Ops) (imm : Bool) (t : ITy) : Statement (.sub o imm t) := by
  cases imm <;> cases t <;> exact of_eq rfl rfl rfl
theorem mul (o : Ops) (imm : Bool) (t : ITy) : Statement (.mul o imm t) := by
  cases imm <;> cases t <;> exact of_eq rfl rfl rfl
theorem mulh (o : Ops) (imm : Bool) (t : ITy) : Statement (.mulh o imm t) := by
  cases imm <;> cases t <;> exact of_eq rfl rfl rfl
theorem div (o : Ops) (imm : Bool) (t : ITy) : Statement (.div o imm t) := by
  cases imm <;> cases t <;> exact of_eq rfl rfl rfl
theorem rem (o : Ops) (imm : Bool) (t : ITy) : Statement (.rem o imm t) := by
  cases imm <;> cases t <;> exact of_eq rfl rfl rfl
theorem and (o : Ops) (imm : Bool) (t : ITy) : Statement (.and o imm t) := by
  cases imm <;> cases t <;> exact of_eq rfl rfl rfl
theorem or (o : Ops) (imm : Bool) (t : ITy) : Statement (.or o imm t) := by
  cases imm <;> cases t <;> exact of_eq rfl rfl rfl
theorem xor (o : Ops) (imm : Bool) (t : ITy) : Statement (.xor o imm t) := by
  cases imm <;> cases t <;> exact of_eq rfl rfl rfl
theorem andn (o : Ops) (imm : Bool) (t : ITy) : Statement (.andn o imm t) := by
  cases imm <;> cases t <;> exact of_eq rfl rfl rfl
theorem shl (o : Ops) (imm : Bool) (t : ITy) : Statement (.shl o imm t) := by
  cases imm <;> cases t <;> exact of_eq rfl rfl rfl
theorem shr (o : Ops) (imm : Bool) (t : ITy) : Statement (.shr o imm t) := by
  cases imm <;> cases t <;> exact of_eq rfl rfl rfl
theorem rot (o : Ops) (imm : Bool) (t : ITy) : Statement (.rot o imm t) := by
  cases imm <;> cases t <;> exact of_eq rfl rfl rfl
theorem min (o : Ops) (imm : Bool) (t : ITy) : Statement (.min o imm t) := by
  cases imm <;> cases t <;> exact of_eq rfl rfl rfl
theorem max (o : Ops) (imm : Bool) (t : ITy) : Statement (.max o imm t) := by
  cases imm <;> cases t <;> exact of_eq rfl rfl rfl
theorem cmp (o : Ops) (imm : Bool) (cc : Cc) : Statement (.cmp o imm cc) := by
  cases imm <;> cases cc <;> exact of_eq rfl rfl rfl
theorem sel (o : Ops) (imm : Bool) (p : BitVec 3) : Statement (.sel o imm p) := of_eq (by rw [ofRaw_sel, immBit, lowBits]) rfl rfl
theorem bits (o : Ops) (f : BitsFn) : Statement (.bits o f) := by
  cases f <;> exact of_eq rfl rfl rfl
theorem movi (o : Ops) : Statement (.movi o) := of_eq rfl rfl rfl
theorem lea (o : Ops) (imm : Bool) (k : BitVec 3) : Statement (.lea o imm k) := of_eq (by rw [ofRaw_lea, immBit, lowBits]) rfl rfl
theorem fadd (o : Ops) (t : FTy) (sub : Bool) : Statement (.fadd o t sub) := by
  cases t <;> cases sub <;> exact of_eq rfl rfl rfl
theorem fmul (o : Ops) (t : FTy) : Statement (.fmul o t) := by
  cases t <;> exact of_eq rfl rfl rfl
theorem ffma (o : Ops) (t : FTy) (f : FmaFn) : Statement (.ffma o t f) := by
  cases t <;> cases f <;> exact of_eq rfl rfl rfl
theorem fdiv (o : Ops) (t : FTy) (sqrt : Bool) : Statement (.fdiv o t sqrt) := by
  cases t <;> cases sqrt <;> exact of_eq rfl rfl rfl
theorem fminmax (o : Ops) (t : FTy) (max : Bool) : Statement (.fminmax o t max) := by
  cases t <;> cases max <;> exact of_eq rfl rfl rfl
theorem fcmp (o : Ops) (t : FTy) (r : FRel) : Statement (.fcmp o t r) := by
  cases t <;> cases r <;> exact of_eq rfl rfl rfl
theorem br (o : Ops) (onFalse : Bool) : Statement (.br o onFalse) := by
  cases onFalse <;> exact of_eq rfl rfl rfl
theorem jmp (o : Ops) : Statement (.jmp o) := of_eq rfl rfl rfl
theorem jmpReg (o : Ops) : Statement (.jmpReg o) := of_eq rfl rfl rfl
theorem call (o : Ops) : Statement (.call o) := of_eq rfl rfl rfl
theorem callReg (o : Ops) : Statement (.callReg o) := of_eq rfl rfl rfl
theorem ret (o : Ops) : Statement (.ret o) := of_eq rfl rfl rfl
theorem rep (o : Ops) : Statement (.rep o) := of_eq rfl rfl rfl
theorem safept (o : Ops) : Statement (.safept o) := of_eq rfl rfl rfl
theorem pset (o : Ops) (f : PFn) : Statement (.pset o f) := by
  cases f <;> exact of_eq rfl rfl rfl
theorem ld (o : Ops) (t : LdTy) : Statement (.ld o t) := by
  cases t <;> exact of_eq rfl rfl rfl
theorem st (o : Ops) (t : StTy) : Statement (.st o t) := by
  cases t <;> exact of_eq rfl rfl rfl
theorem ldsync (o : Ops) (cons : Bool) : Statement (.ldsync o cons) := by
  cases cons <;> exact of_eq rfl rfl rfl
theorem stsync (o : Ops) : Statement (.stsync o) := of_eq rfl rfl rfl
theorem feset (o : Ops) (full : Bool) : Statement (.feset o full) := by
  cases full <;> exact of_eq rfl rfl rfl
theorem pref (o : Ops) (dst : PrefTo) : Statement (.pref o dst) := by
  cases dst <;> exact of_eq rfl rfl rfl
theorem stash (o : Ops) (drop : Bool) : Statement (.stash o drop) := by
  cases drop <;> exact of_eq rfl rfl rfl
theorem flush (o : Ops) (inv : Bool) : Statement (.flush o inv) := by
  cases inv <;> exact of_eq rfl rfl rfl
theorem fence (o : Ops) (scope : Scope) (kind : FenceKind) : Statement (.fence o scope kind) := by
  cases scope <;> cases kind <;> exact of_eq rfl rfl rfl
theorem waitc (o : Ops) (n : BitVec 2) : Statement (.waitc o n) := of_eq (by rw [ofRaw_waitc, waitcBits]) rfl rfl
theorem waita (o : Ops) (eq : Bool) : Statement (.waita o eq) := by
  cases eq <;> exact of_eq rfl rfl rfl
theorem zline (o : Ops) : Statement (.zline o) := of_eq rfl rfl rfl
theorem amo (o : Ops) (f : AmoFn) : Statement (.amo o f) := by
  cases f <;> exact of_eq rfl rfl rfl
theorem cas (o : Ops) (f : CasFn) : Statement (.cas o f) := by
  cases f <;> exact of_eq rfl rfl rfl
theorem red (o : Ops) (f : AmoFn) : Statement (.red o f) := by
  cases f <;> exact of_eq rfl rfl rfl
theorem amsend (o : Ops) (rep : Bool) : Statement (.amsend o rep) := by
  cases rep <;> exact of_eq rfl rfl rfl
theorem amret (o : Ops) : Statement (.amret o) := of_eq rfl rfl rfl
theorem vld (o : Ops) (strided : Bool) : Statement (.vld o strided) := by
  cases strided <;> exact of_eq rfl rfl rfl
theorem vst (o : Ops) (strided : Bool) : Statement (.vst o strided) := by
  cases strided <;> exact of_eq rfl rfl rfl
theorem vgather (o : Ops) : Statement (.vgather o) := of_eq rfl rfl rfl
theorem vscatter (o : Ops) : Statement (.vscatter o) := of_eq rfl rfl rfl
theorem vadd (o : Ops) (sub : Bool) : Statement (.vadd o sub) := by
  cases sub <;> exact of_eq rfl rfl rfl
theorem vmul (o : Ops) : Statement (.vmul o) := of_eq rfl rfl rfl
theorem vfma (o : Ops) (f : FmaFn) : Statement (.vfma o f) := by
  cases f <;> exact of_eq rfl rfl rfl
theorem vdiv (o : Ops) (sqrt : Bool) : Statement (.vdiv o sqrt) := by
  cases sqrt <;> exact of_eq rfl rfl rfl
theorem vminmax (o : Ops) (max : Bool) : Statement (.vminmax o max) := by
  cases max <;> exact of_eq rfl rfl rfl
theorem vlogic (o : Ops) (f : VlogicFn) : Statement (.vlogic o f) := by
  cases f <;> exact of_eq rfl rfl rfl
theorem vcmp (o : Ops) (r : VRel) : Statement (.vcmp o r) := by
  cases r <;> exact of_eq rfl rfl rfl
theorem vsel (o : Ops) : Statement (.vsel o) := of_eq rfl rfl rfl
theorem vperm (o : Ops) (f : PermFn) : Statement (.vperm o f) := by
  cases f <;> exact of_eq rfl rfl rfl
theorem vbcast (o : Ops) (lane : Bool) : Statement (.vbcast o lane) := by
  cases lane <;> exact of_eq rfl rfl rfl
theorem vred (o : Ops) (f : RedFn) : Statement (.vred o f) := by
  cases f <;> exact of_eq rfl rfl rfl
theorem vscan (o : Ops) : Statement (.vscan o) := of_eq rfl rfl rfl
theorem vdot (o : Ops) : Statement (.vdot o) := of_eq rfl rfl rfl
theorem vpackm (o : Ops) : Statement (.vpackm o) := of_eq rfl rfl rfl
theorem vexpm (o : Ops) : Statement (.vexpm o) := of_eq rfl rfl rfl
theorem vmath (o : Ops) (f : MathFn) : Statement (.vmath o f) := by
  cases f <;> exact of_eq rfl rfl rfl
theorem cvt (o : Ops) (t : ETy) : Statement (.cvt o t) := by
  cases t <;> exact of_eq rfl rfl rfl
theorem cvtn (o : Ops) (t : ETy) : Statement (.cvtn o t) := by
  cases t <;> exact of_eq rfl rfl rfl
theorem cvtw (o : Ops) (t : ETy) : Statement (.cvtw o t) := by
  cases t <;> exact of_eq rfl rfl rfl
theorem mfmt (o : Ops) : Statement (.mfmt o) := of_eq rfl rfl rfl
theorem mfmtRel (o : Ops) : Statement (.mfmtRel o) := of_eq rfl rfl rfl
theorem mmul (o : Ops) (m : MulMode) : Statement (.mmul o m) := by
  cases m <;> exact of_eq rfl rfl rfl
theorem mspb (o : Ops) (m : MulMode) : Statement (.mspb o m) := by
  cases m <;> exact of_eq rfl rfl rfl
theorem join (o : Ops) : Statement (.join o) := of_eq rfl rfl rfl
theorem jdrain (o : Ops) : Statement (.jdrain o) := of_eq rfl rfl rfl
theorem jdrainResume (o : Ops) : Statement (.jdrainResume o) := of_eq rfl rfl rfl
theorem aswap (o : Ops) : Statement (.aswap o) := of_eq rfl rfl rfl
theorem azero (o : Ops) : Statement (.azero o) := of_eq rfl rfl rfl
theorem azeroVis (o : Ops) : Statement (.azeroVis o) := of_eq rfl rfl rfl
theorem mwait (o : Ops) : Statement (.mwait o) := of_eq rfl rfl rfl
theorem gangLead (o : Ops) : Statement (.gangLead o) := of_eq rfl rfl rfl
theorem gangFollow (o : Ops) : Statement (.gangFollow o) := of_eq rfl rfl rfl
theorem gangLeave (o : Ops) : Statement (.gangLeave o) := of_eq rfl rfl rfl
theorem mscl (o : Ops) (b : Bool) : Statement (.mscl o b) := by
  cases b <;> exact of_eq rfl rfl rfl
theorem spawn (o : Ops) : Statement (.spawn o) := of_eq rfl rfl rfl
theorem spawnr (o : Ops) : Statement (.spawnr o) := of_eq rfl rfl rfl
theorem split (o : Ops) : Statement (.split o) := of_eq rfl rfl rfl
theorem popf (o : Ops) : Statement (.popf o) := of_eq rfl rfl rfl
theorem sync (o : Ops) : Statement (.sync o) := of_eq rfl rfl rfl
theorem publish (o : Ops) : Statement (.publish o) := of_eq rfl rfl rfl
theorem tend (o : Ops) : Statement (.tend o) := of_eq rfl rfl rfl
theorem donate (o : Ops) : Statement (.donate o) := of_eq rfl rfl rfl
theorem fnew (o : Ops) : Statement (.fnew o) := of_eq rfl rfl rfl
theorem fnewCount (o : Ops) : Statement (.fnewCount o) := of_eq rfl rfl rfl
theorem fput (o : Ops) : Statement (.fput o) := of_eq rfl rfl rfl
theorem fget (o : Ops) : Statement (.fget o) := of_eq rfl rfl rfl
theorem fgetPoll (o : Ops) : Statement (.fgetPoll o) := of_eq rfl rfl rfl
theorem frel (o : Ops) : Statement (.frel o) := of_eq rfl rfl rfl
theorem bar (o : Ops) (n : BitVec 2) (scope : BarScope) : Statement (.bar o n scope) := by
  cases scope <;> exact of_eq (ofRaw_bar o n _) rfl rfl
theorem quiesce (o : Ops) : Statement (.quiesce o) := of_eq rfl rfl rfl
theorem chsend (o : Ops) (ch : BitVec 4) : Statement (.chsend o ch) := of_eq rfl rfl rfl
theorem chrecv (o : Ops) (ch : BitVec 4) : Statement (.chrecv o ch) := of_eq rfl rfl rfl
theorem copy (o : Ops) (f : CopyForm) : Statement (.copy o f) := by
  cases f <;> exact of_eq rfl rfl rfl
theorem waitk (o : Ops) (any : Bool) : Statement (.waitk o any) := by
  cases any <;> exact of_eq rfl rfl rfl
theorem tokq (o : Ops) : Statement (.tokq o) := of_eq rfl rfl rfl
theorem redgrpOpen (o : Ops) : Statement (.redgrpOpen o) := of_eq rfl rfl rfl
theorem redgrpClose (o : Ops) : Statement (.redgrpClose o) := of_eq rfl rfl rfl
theorem redpkt (o : Ops) : Statement (.redpkt o) := of_eq rfl rfl rfl
theorem mcast (o : Ops) : Statement (.mcast o) := of_eq rfl rfl rfl
theorem nop (o : Ops) : Statement (.nop o) := of_eq rfl rfl rfl
theorem trap (o : Ops) : Statement (.trap o) := of_eq rfl rfl rfl
theorem rte (o : Ops) : Statement (.rte o) := of_eq rfl rfl rfl
theorem sysrd (o : Ops) : Statement (.sysrd o) := of_eq rfl rfl rfl
theorem syswr (o : Ops) : Statement (.syswr o) := of_eq rfl rfl rfl
theorem tlbinv (o : Ops) : Statement (.tlbinv o) := of_eq rfl rfl rfl
theorem tlbinvSpace (o : Ops) : Statement (.tlbinvSpace o) := of_eq rfl rfl rfl
theorem tlbinvAll (o : Ops) : Statement (.tlbinvAll o) := of_eq rfl rfl rfl
theorem yield (o : Ops) : Statement (.yield o) := of_eq rfl rfl rfl
theorem escalationRun (c : CoreId) : Statement (.escalationRun c) := of_none rfl
theorem disposition (c : CoreId) (k : CtxId) (word : Word) : Statement (.disposition c k word) := of_none rfl
theorem variableResultCommit (c : CoreId) (k : CtxId) : Statement (.variableResultCommit c k) := of_none rfl
theorem frameTake (c : CoreId) (k : CtxId) : Statement (.frameTake c k) := of_none rfl
theorem rootFrameWalk (l : Nat) : Statement (.rootFrameWalk l) := of_none rfl
theorem stealRequest (c : CoreId) : Statement (.stealRequest c) := of_none rfl
theorem stealGrant (c : CoreId) : Statement (.stealGrant c) := of_none rfl
theorem stolenFrameArrival (c : CoreId) : Statement (.stolenFrameArrival c) := of_none rfl
theorem gleanerBackoff (c : CoreId) : Statement (.gleanerBackoff c) := of_none rfl
theorem spillReadback (c : CoreId) (dq : Nat) : Statement (.spillReadback c dq) := of_none rfl
theorem parkSaveDone (c : CoreId) (k : CtxId) : Statement (.parkSaveDone c k) := of_none rfl
theorem wakeMessage (h : HamletId) : Statement (.wakeMessage h) := of_none rfl
theorem overflowLinkWait (c : CoreId) (k : CtxId) : Statement (.overflowLinkWait c k) := of_none rfl
theorem preemptRequest (c : CoreId) (k : CtxId) (area : BitVec 57) : Statement (.preemptRequest c k area) := of_none rfl
theorem saveDeadlineExpiry (c : CoreId) (k : CtxId) : Statement (.saveDeadlineExpiry c k) := of_none rfl
theorem saveComplete (c : CoreId) (k : CtxId) : Statement (.saveComplete c k) := of_none rfl
theorem gangClaim (c : CoreId) (k : CtxId) : Statement (.gangClaim c k) := of_none rfl
theorem barrierRootArrival (h : HamletId) (scope : BarScope) (n : BitVec 2) : Statement (.barrierRootArrival h scope n) := of_none rfl
theorem hamletBarrierRelease (h : HamletId) (n : BitVec 2) : Statement (.hamletBarrierRelease h n) := of_none rfl
theorem pealPhaseRelease (h : HamletId) (scope : BarScope) (n : BitVec 2) : Statement (.pealPhaseRelease h scope n) := of_none rfl
theorem detectionSweep (l : Nat) : Statement (.detectionSweep l) := of_none rfl
theorem donatedDecrement (handle : BitVec 32) (root : Bool) : Statement (.donatedDecrement handle root) := of_none rfl
theorem statusWordArrival (l : Nat) : Statement (.statusWordArrival l) := of_none rfl
theorem completionRecordWrite : Statement .completionRecordWrite := of_none rfl
theorem activeMessageRun (c : CoreId) : Statement (.activeMessageRun c) := of_none rfl
theorem handlerOverrun (c : CoreId) : Statement (.handlerOverrun c) := of_none rfl
theorem remoteAccessService (c : CoreId) : Statement (.remoteAccessService c) := of_none rfl
theorem replyArrival (id : Nat) : Statement (.replyArrival id) := of_none rfl
theorem postedStoreApply (id : Nat) : Statement (.postedStoreApply id) := of_none rfl
theorem atomicApply (id : Nat) : Statement (.atomicApply id) := of_none rfl
theorem postedAck (id : Nat) : Statement (.postedAck id) := of_none rfl
theorem waitaRetry (c : CoreId) (k : CtxId) : Statement (.waitaRetry c k) := of_none rfl
theorem lineEviction (h : HamletId) (line : Nat) : Statement (.lineEviction h line) := of_none rfl
theorem scaleWindowFill (line : Nat) : Statement (.scaleWindowFill line) := of_none rfl
theorem scaleWindowEvict (line : Nat) : Statement (.scaleWindowEvict line) := of_none rfl
theorem tableWalk (c : CoreId) (k : CtxId) (va : Word) (write : Bool) : Statement (.tableWalk c k va write) := of_none rfl
theorem faultRecordWrite : Statement .faultRecordWrite := of_none rfl
theorem fqheadWrite (v : BitVec 32) : Statement (.fqheadWrite v) := of_none rfl
theorem storeReplay (c : CoreId) : Statement (.storeReplay c) := of_none rfl
theorem pageMoveBounce (id : Nat) : Statement (.pageMoveBounce id) := of_none rfl
theorem backInvalidation (line : Nat) : Statement (.backInvalidation line) := of_none rfl
theorem copyComplete (c : CoreId) (k : CtxId) (tok : BitVec 3) : Statement (.copyComplete c k tok) := of_none rfl
theorem copyFault (c : CoreId) (k : CtxId) (tok : BitVec 3) : Statement (.copyFault c k tok) := of_none rfl
theorem copyResumePacket (c : CoreId) (k : CtxId) (tok : BitVec 3) (word : Word) : Statement (.copyResumePacket c k tok word) := of_none rfl
theorem millCommandCurrent (c : CoreId) : Statement (.millCommandCurrent c) := of_none rfl
theorem millCommandComplete (c : CoreId) : Statement (.millCommandComplete c) := of_none rfl
theorem drainInterrupted (c : CoreId) : Statement (.drainInterrupted c) := of_none rfl
theorem rampRise (c : CoreId) : Statement (.rampRise c) := of_none rfl
theorem rampFall (c : CoreId) : Statement (.rampFall c) := of_none rfl
theorem reductionPacketArrival (c : CoreId) (g : BitVec 6) : Statement (.reductionPacketArrival c g) := of_none rfl
theorem doneNoticeArrival (c : CoreId) (g : BitVec 6) : Statement (.doneNoticeArrival c g) := of_none rfl
theorem reductionTimeout (c : CoreId) (g : BitVec 6) : Statement (.reductionTimeout c g) := of_none rfl
theorem reductionFlushArrival (c : CoreId) (g : BitVec 6) : Statement (.reductionFlushArrival c g) := of_none rfl
theorem mcastDelivery (id : Nat) : Statement (.mcastDelivery id) := of_none rfl
theorem donationArrival (src : BitVec 20) (q : BitVec 4) (frame : Row) (tiles : List (Nat × Byte)) : Statement (.donationArrival src q frame tiles) := of_none rfl
theorem donatedFrameReturn (frame : Row) (missing : BitVec 32) : Statement (.donatedFrameReturn frame missing) := of_none rfl
theorem scrubPass (code : BitVec 4) (unit : BitVec 16) (addr : BitVec 46) (uncorrectable : Bool) : Statement (.scrubPass code unit addr uncorrectable) := of_none rfl
theorem correctedRecordCoalesce (code : BitVec 4) (unit : BitVec 16) (count : BitVec 16) : Statement (.correctedRecordCoalesce code unit count) := of_none rfl
theorem operatingPointChange (h : HamletId) (p : BitVec 2) : Statement (.operatingPointChange h p) := of_none rfl
theorem throttleThreshold (h : HamletId) (now : Heat) : Statement (.throttleThreshold h now) := of_none rfl
theorem throttleStep (h : HamletId) : Statement (.throttleStep h) := of_none rfl
theorem thermalShutdown (h : HamletId) : Statement (.thermalShutdown h) := of_none rfl
theorem reducedSupply (ceiling : BitVec 2) : Statement (.reducedSupply ceiling) := of_none rfl
theorem railTrip : Statement .railTrip := of_none rfl
theorem linkReplay (port : Fin 12) : Statement (.linkReplay port) := of_none rfl
theorem linkRetrain (port : Fin 12) (lanes : Nat) : Statement (.linkRetrain port lanes) := of_none rfl
theorem portDown (port : Fin 12) : Statement (.portDown port) := of_none rfl
theorem packagePacketArrival (route : Route) (seq : BitVec 32) (core : CoreId) (k : CtxId) (tag : Nat) (body : Body) : Statement (.packagePacketArrival route seq core k tag body) := of_none rfl
theorem endToEndResend (dst : BitVec 20) : Statement (.endToEndResend dst) := of_none rfl
theorem destinationUnreachable (dst : BitVec 20) : Statement (.destinationUnreachable dst) := of_none rfl
theorem laneRepair (die : Fin 4) : Statement (.laneRepair die) := of_none rfl
theorem bridgeFailure (die : Fin 4) : Statement (.bridgeFailure die) := of_none rfl
theorem cxlTimeout (port : Fin 8) (id : Nat) : Statement (.cxlTimeout port id) := of_none rfl
theorem cxlRetrain (port : Fin 8) (ok : Bool) : Statement (.cxlRetrain port ok) := of_none rfl
theorem syscopyRecord (ch : Fin 16) : Statement (.syscopyRecord ch) := of_none rfl
theorem syscopyStageAck (ch : Fin 16) : Statement (.syscopyStageAck ch) := of_none rfl
theorem powerGood (r : BootReport) : Statement (.powerGood r) := of_none rfl
theorem serviceMailboxTimeout : Statement .serviceMailboxTimeout := of_none rfl
theorem query (slot : Row) : Statement (.query slot) := of_none rfl
theorem launch (slot : Row) : Statement (.launch slot) := of_none rfl
theorem abort (slot : Row) : Statement (.abort slot) := of_none rfl
theorem pagerdone (slot : Row) : Statement (.pagerdone slot) := of_none rfl
theorem range (slot : Row) : Statement (.range slot) := of_none rfl
theorem cxlshare (slot : Row) : Statement (.cxlshare slot) := of_none rfl
theorem linkcfg (slot : Row) : Statement (.linkcfg slot) := of_none rfl
theorem syscopy (slot : Row) : Statement (.syscopy slot) := of_none rfl
theorem tlbinvCommand (slot : Row) : Statement (.tlbinvCommand slot) := of_none rfl
theorem donq (slot : Row) : Statement (.donq slot) := of_none rfl
theorem attest (slot : Row) : Statement (.attest slot) := of_none rfl
theorem svcload (slot : Row) : Statement (.svcload slot) := of_none rfl
theorem reset (slot : Row) : Statement (.reset slot) := of_none rfl
theorem pealfloor (slot : Row) : Statement (.pealfloor slot) := of_none rfl
theorem unknownCommand (slot : Row) : Statement (.unknownCommand slot) := of_none rfl
theorem unassignedEncoding (base : BitVec 32) : Statement (.unassignedEncoding base) := of_none rfl
theorem pageMove (old : BitVec 34) (new : BitVec 34) : Statement (.pageMove old new) := of_none rfl
theorem resumptionRelease (c : CoreId) (k : CtxId) : Statement (.resumptionRelease c k) := of_none rfl
theorem managementPortMessage : Statement .managementPortMessage := of_none rfl

end Sys2Proof.Laws.Raw
end

