-- ==== Sys2Proof/Laws/Results.lean ====
section
/-! SUPPORT. What a commit can do, said once: it changes rows, predicates, FPSTATUS and the list of results of the acting
context, and accumulator rows of its core, and nothing else. -/

namespace Sys2Proof.Machine

/-- `t` differs from `s` in nothing but the acting context's register file and its core's accumulator banks. -/
def RegsOnly (s t : State) : Prop :=
  t = s ∨ ∃ cs b0 b1, t = s.setMyCore { s.myCore with ctxs := cs, mill := { s.myCore.mill with bank0 := b0, bank1 := b1 } } ∧
    (∀ k, k ≠ s.curCtx → look {} cs k = s.ctx s.curCore k) ∧
    ∃ st pr fp rs, look {} cs s.curCtx = { s.me with store := st, preds := pr, fpstatus := fp, results := rs }

variable {s t u : State}

theorem RegsOnly.refl (s : State) : RegsOnly s s := .inl rfl

@[simp] theorem setMyCore_myCore (co : Core) : (s.setMyCore co).myCore = co := setCore_core_same _ _ _

theorem RegsOnly.trans (h : RegsOnly s t) (h' : RegsOnly t u) : RegsOnly s u := by
  rcases h with rfl | ⟨cs, b0, b1, rfl, ho, st, pr, fp, rs, hm⟩
  · exact h'
  · rcases h' with rfl | ⟨cs', b0', b1', rfl, ho', st', pr', fp', rs', hm'⟩
    · exact .inr ⟨cs, b0, b1, rfl, ho, st, pr, fp, rs, hm⟩
    · refine .inr ⟨cs', b0', b1', ?_, ?_, st', pr', fp', rs', ?_⟩
      · rw [setMyCore_myCore]
        exact setCore_setCore _ _ _ _
      · intro k hk
        rw [ho' k hk]
        show look {} (State.core (s.setMyCore _) s.curCore).ctxs k = _
        rw [State.setMyCore, setCore_core_same]
        exact ho k hk
      · rw [show s.curCtx = (s.setMyCore { s.myCore with
            ctxs := cs, mill := { s.myCore.mill with bank0 := b0, bank1 := b1 } }).curCtx from rfl, hm']
        have : (s.setMyCore { s.myCore with
            ctxs := cs, mill := { s.myCore.mill with bank0 := b0, bank1 := b1 } }).me =
            { s.me with store := st, preds := pr, fpstatus := fp, results := rs } := by
          rw [← hm]
          show look {} (State.core (s.setMyCore _) s.curCore).ctxs s.curCtx = _
          rw [State.setMyCore, setCore_core_same]
        rw [this]

theorem setMe_regsOnly (st : Map Row) (pr : Map Word) (fp : Word) (rs : List Result) :
    RegsOnly s (s.setMe { s.me with store := st, preds := pr, fpstatus := fp, results := rs }) :=
  .inr ⟨_, s.myCore.mill.bank0, s.myCore.mill.bank1, rfl, fun _ hk => look_put_other _ _ _ hk, st, pr, fp, rs,
    look_put_same _ _ _ _⟩

theorem setRow_regsOnly (n : Nat) (v : Row) : RegsOnly s (s.setRow n v) := by
  unfold State.setRow
  split
  · exact setMe_regsOnly _ _ _ _
  · dsimp only
    split
    · exact .inr ⟨_, _, _, rfl, fun _ _ => rfl, _, _, _, _, rfl⟩
    · exact .inr ⟨_, _, _, rfl, fun _ _ => rfl, _, _, _, _, rfl⟩

theorem writeCell_regsOnly (c : Cell) : RegsOnly s (s.writeCell c) := by
  unfold State.writeCell
  cases c.tgt with
  | row n => exact setRow_regsOnly _ _
  | pred n => exact setMe_regsOnly _ _ _ _

theorem foldl_regsOnly {α : Type} (f : State → α → State) (hf : ∀ s a, RegsOnly s (f s a)) (l : List α) :
    ∀ s, RegsOnly s (l.foldl f s) := by
  induction l with
  | nil => exact fun s => .refl s
  | cons a l ih => exact fun s => (hf s a).trans (ih _)

theorem commitOne_regsOnly (r : Result) : RegsOnly s (s.commitOne r) :=
  (foldl_regsOnly State.writeCell (fun _ c => writeCell_regsOnly c) r.cells s).trans (setMe_regsOnly _ _ _ _)

theorem commitWhere_regsOnly (due : Result → Bool) (l : List Result) :
    ∀ older s, RegsOnly s (commitWhere due older l s).2 := by
  induction l with
  | nil => exact fun _ s => .refl s
  | cons r l ih =>
    intro older s
    unfold commitWhere
    split
    · exact (commitOne_regsOnly r).trans (ih _ _)
    · exact ih _ _

/-- A commit changes nothing but the acting context's register file and its core's banks. -/
theorem commit_regsOnly (due : Result → Bool) : RegsOnly s (s.commit due) := by
  unfold State.commit
  exact (commitWhere_regsOnly due _ _ _).trans (setMe_regsOnly _ _ _ _)

theorem commitAll_regsOnly : RegsOnly s s.commitAll := commit_regsOnly _
theorem commitVar_regsOnly : RegsOnly s s.commitVar := commit_regsOnly _
theorem tick_regsOnly : RegsOnly s s.tick := (setMe_regsOnly _ _ _ _).trans (commit_regsOnly _)

theorem RegsOnly.mem (h : RegsOnly s t) : t.mem = s.mem := by
  rcases h with rfl | ⟨_, _, _, rfl, _⟩ <;> rfl
theorem RegsOnly.hamlets (h : RegsOnly s t) : t.hamlets = s.hamlets := by
  rcases h with rfl | ⟨_, _, _, rfl, _⟩ <;> rfl
theorem RegsOnly.curCore (h : RegsOnly s t) : t.curCore = s.curCore := by
  rcases h with rfl | ⟨_, _, _, rfl, _⟩ <;> rfl
theorem RegsOnly.curCtx (h : RegsOnly s t) : t.curCtx = s.curCtx := by
  rcases h with rfl | ⟨_, _, _, rfl, _⟩ <;> rfl
theorem RegsOnly.pkgid (h : RegsOnly s t) : t.pkgid = s.pkgid := by
  rcases h with rfl | ⟨_, _, _, rfl, _⟩ <;> rfl

/-- Of the acting context a commit changes the register file only. -/
theorem RegsOnly.me (h : RegsOnly s t) :
    ∃ st pr fp rs, t.me = { s.me with store := st, preds := pr, fpstatus := fp, results := rs } := by
  rcases h with rfl | ⟨cs, b0, b1, rfl, _, st, pr, fp, rs, hm⟩
  · exact ⟨_, _, _, _, rfl⟩
  · refine ⟨st, pr, fp, rs, ?_⟩
    rw [← hm]
    show look {} (State.core (s.setMyCore _) s.curCore).ctxs s.curCtx = _
    rw [State.setMyCore, setCore_core_same]

/-- Of the acting core a commit changes the contexts and the banks only, of another core nothing. -/
theorem RegsOnly.core (h : RegsOnly s t) (c : Nat) :
    ∃ cs b0 b1, t.core c = { s.core c with ctxs := cs, mill := { (s.core c).mill with bank0 := b0, bank1 := b1 } } := by
  rcases h with rfl | ⟨cs, b0, b1, rfl, _⟩
  · exact ⟨_, _, _, rfl⟩
  · by_cases hc : c = s.curCore
    · subst hc; exact ⟨cs, b0, b1, by rw [State.setMyCore, setCore_core_same]; rfl⟩
    · exact ⟨_, _, _, by rw [State.setMyCore, setCore_core_other _ _ _ hc]⟩

/-! ### What is left outstanding -/

theorem commitWhere_all (l : List Result) : ∀ s, (commitWhere (fun _ => true) [] l s).1 = [] := by
  induction l with
  | nil => exact fun _ => rfl
  | cons r l ih => exact fun s => by unfold commitWhere; simpa using ih _

/-- Nothing is outstanding once every result has committed. -/
@[simp] theorem commitAll_results : s.commitAll.me.results = [] := by
  unfold State.commitAll State.commit
  rw [setMe_me]
  exact commitWhere_all _ _

/-! ### Rows -/

/-- Only the row of the MIRRORS holds less than what is written: its reserved bits stay zero (00 R10). -/
@[simp] theorem heldRow_other {n : Nat} (h : n ≠ 11) (v : Row) : heldRow n v = v := if_neg h

/-- A row written is read back, and every other row is as it was. -/
theorem setRow_row (n m : Nat) (v : Row) : (s.setRow n v).row m = if m = n then heldRow n v else s.row m := by
  by_cases hn : n < 256
  · have h1 : s.setRow n v = s.setMe { s.me with store := put s.me.store n (heldRow n v) } := by
      unfold State.setRow; rw [if_pos hn]
    rw [h1]
    by_cases hm : m < 256
    · unfold State.row
      rw [if_pos hm, setMe_me, look_put, if_pos hm]
    · have hne : m ≠ n := by omega
      rw [if_neg hne]
      unfold State.row
      rw [if_neg hm, if_neg hm]
      have hmill : ∀ x, (s.setMe x).myCore.mill = s.myCore.mill := fun x => setCtx_mill _ _ _ _
      rw [hmill]
  · have h1 : s.setRow n v = s.setMyCore { s.myCore with
        mill := if s.myCore.mill.vis1 then { s.myCore.mill with bank1 := put s.myCore.mill.bank1 (n - 256) v }
          else { s.myCore.mill with bank0 := put s.myCore.mill.bank0 (n - 256) v } } := by
      unfold State.setRow; rw [if_neg hn]
    have hv : heldRow n v = v := heldRow_other (by omega) v
    rw [h1, hv]
    by_cases hm : m < 256
    · have hne : m ≠ n := by omega
      rw [if_neg hne]
      unfold State.row
      rw [if_pos hm, if_pos hm]
      simp [State.me, State.ctx, State.setMyCore, State.myCore]
    · unfold State.row
      rw [if_neg hm, if_neg hm, setMyCore_myCore]
      by_cases hv : s.myCore.mill.vis1
      · simp only [hv, if_true, look_put]
        by_cases he : m = n
        · simp [he]
        · rw [if_neg (by omega), if_neg he]
      · simp only [hv, look_put, Bool.false_eq_true, if_false]
        by_cases he : m = n
        · simp [he]
        · rw [if_neg (by omega), if_neg he]

end Sys2Proof.Machine
end

