-- ==== Sys2Proof/Tests/Slice0.lean ====
section
/-! SUPPORT. Tests of the model, whose expected results are the spec's worked examples and tables, or worked out by hand from
its rules; the smoke test of WellFormed; and a witness for the hypotheses of the obligations. -/

namespace Sys2Proof.Tests

open Sys2Proof.Machine

set_option maxRecDepth 200000
set_option Elab.async false

/-! ### Helpers -/

/-- Operands of a one-word form. -/
def op (d a b : BitVec 16) : Ops := { sw := false, ext := none, lit := none, d := d, a := a, b := b }

/-- Controls of an extended form that asks for nothing. -/
def ctl : Ctl :=
  { hold := 0, cw := 0, pol := 0, ord := 0, scope := 0, rm := 0, pneg := false, pred := 0, kmask := 0, xf := 0 }

/-- Operands of an extended form. -/
def ext (d a b : BitVec 16) (c : Ctl := ctl) : Ops := { op d a b with ext := some c }

/-- Operands of a literal form. -/
def lit (d a : BitVec 16) (l : Word) : Ops := { op d a 0 with lit := some l }

/-! ### The smoke test of WellFormed: a well-formed instruction, and an ill-formed term for each check (18 R421, R422) -/

theorem test_wf_add : legal (.add (op 5 6 7) false .i64) = true := by decide
theorem test_wf_no_encoding : legal (.railTrip) = false := by decide
theorem test_wf_ext_only : legal (.rep (op 3 0 0)) = false ∧ legal (.mspb (op 0 0 0) .split) = false := by decide
theorem test_wf_ext_and_literal : legal (.rep { ext 3 0 0 with lit := some 0 }) = false := by decide
theorem test_wf_literal_refused : legal (.ret (lit 0 3 0)) = false := by decide
theorem test_wf_one_word_field : legal (.add (op 64 6 7) false .i64) = false := by decide
theorem test_wf_unused_field : legal (.nop (op 0 1 0)) = false := by decide
theorem test_wf_scalar_address : legal (.add (ext 0x28 0x30 0x3C) false .i64) = false := by decide
theorem test_wf_vector_field : legal (.vsel (op 16 1 2)) = false ∧ legal (.vsel (ext 0x500 0x690 0x7C2)) = false := by decide
theorem test_wf_tile_field : legal (.mmul (op 0 8 2) .split) = false := by decide
theorem test_wf_accum_field : legal (.mmul (op 4 1 2) .split) = false := by decide
theorem test_wf_pred_field : legal (.cmp (op 8 1 2) false .eq) = false := by decide
theorem test_wf_token_field : legal (.copy (op 8 20 0) .plain) = false := by decide
theorem test_wf_pair_field : legal (.ld (op 5 2 4) .pair) = false ∧ legal (.ld (ext 0x28 0x10 4) .pair) = false := by decide
theorem test_wf_cas_field : legal (.cas (op 63 2 0) .d8) = false ∧ legal (.cas (op 62 2 0) .d8) = true := by decide
theorem test_wf_cas_pair_field : legal (.cas (op 62 2 0) .pair) = false ∧ legal (.cas (op 60 2 0) .pair) = true := by decide
theorem test_wf_row_field : legal (.redpkt (op 4 2 0)) = false ∧ legal (.redpkt (op 8 2 0)) = true := by decide
theorem test_wf_quad_field : legal (.jdrain (op 2 0 0)) = false ∧ legal (.jdrain (ext 0x50 0 0)) = false := by decide
theorem test_wf_pred_negated : legal (.nop (ext 0 0 0 { ctl with pneg := true })) = false := by decide
theorem test_wf_rounding : legal (.fadd (ext 8 8 8 { ctl with rm := 5 }) .f32 false) = false := by decide
theorem test_wf_policy : legal (.add (ext 8 8 8 { ctl with pol := 1 }) false .i64) = false ∧
    legal (.ld (ext 8 8 8 { ctl with pol := 3 }) .n64) = false := by decide
theorem test_wf_order : legal (.ld (ext 8 8 8 { ctl with ord := 2 }) .n64) = false := by decide
theorem test_wf_scope : legal (.ld (ext 8 8 8 { ctl with scope := 1 }) .n64) = false := by decide
theorem test_wf_hold_unused : legal (.nop (ext 0 0 0 { ctl with hold := 1 })) = false := by decide
theorem test_wf_hold_literal : legal (.fadd { ext 8 8 0 { ctl with hold := 2 } with lit := some 0 } .f32 false) = false := by decide
theorem test_wf_hold_target : legal (.vadd (ext 0x500 0x681 0x7C2 { ctl with hold := 4 }) false) = false := by decide
theorem test_wf_xf : legal (.vadd (ext 0x500 0x681 0x7C2 { ctl with xf := 1 }) false) = false := by decide
theorem test_wf_red_swap : legal (.red (op 5 2 0) .swap) = false := by decide
theorem test_wf_cvt_types : legal (.cvt (op 2 1 0) .i4) = false ∧ legal (.cvtn (op 2 1 0) .i16) = false ∧
    legal (.cvtw (op 2 1 0) .f16) = false := by decide
theorem test_wf_rep_fields : legal (.rep (ext 0x1000 0 0)) = false ∧ legal (.rep (ext 0 0x800 0)) = false := by decide
theorem test_wf_register_number : legal (.sysrd (op 5 0x08 0)) = false ∧ legal (.syswr (ext 0 0x28 0x1000)) = false := by decide
theorem test_wf_trap_number : legal (.trap (ext 0 0 0x1000)) = false := by decide
theorem test_wf_waitk_mask : legal (.waitk (op 4 0 0) false) = false ∧ legal (.waitk (ext 0 256 0) false) = false := by decide

/-! ### Words of the spec's encodings (07 R168 to R177; each from the example named) -/

/-- 07, after R178: add s5, s6, s7; the switch marker; add.i32 s5, s6, -3. -/
theorem test_word_add : decodeWords [0x01C61400] = .ok (.add (op 5 6 7) false .i64) ∧
    decodeWords [0x01C61404] = .ok (.add { op 5 6 7 with sw := true } false .i64) ∧
    decodeWords [0x9F461400] = .ok (.add (op 5 6 61) true .i32) := by decide

/-- 07, under R180: vfma.rne v0, v1:h, v2, and its bytes. -/
theorem test_word_vfma : decode [0xC1, 0x41, 0x00, 0x02, 0x00, 0x05, 0x81, 0x06, 0xC2, 0x07, 0x00, 0x00] =
    .ok (.vfma (ext 0x500 0x681 0x7C2 { ctl with rm := 1, hold := 1 }) .fma, 12) := by decide

/-- 08: rep 4, 1, 1, 0b001; ld.n32 s5, (s2+16); amo.fadd32.rel.pkg s7, (s3+8). -/
theorem test_word_rep : decodeWords [0x000000F1, 0x01100003, 0] = .ok (.rep (ext 3 0x110 0)) := by decide
theorem test_word_ld : decodeWords [0x21021508] = .ok (.ld (op 5 2 4) .n32) := by decide
theorem test_word_amo : decodeWords [0xB0140169, 0x00180038, 8] =
    .ok (.amo (ext 0x38 0x18 8 { ctl with ord := 2, scope := 2 }) .fadd32) := by decide

/-- 09: vld v3, (s2+128); cvtn.i8 v2, v1, s9. -/
theorem test_word_vld : decodeWords [0x00820D90] = .ok (.vld (op 3 2 2) false) := by decide
theorem test_word_cvtn : decodeWords [0x12410A38] = .ok (.cvtn (op 2 1 9) .i8) := by decide

/-- 11: mfmt s4; mmul.fuse22 a0, t1, t2; join m:s20, m:s22, m:s24; aswap; mwait; gang.lead s6. -/
theorem test_word_mill : decodeWords [0x00040248] = .ok (.mfmt (op 0 4 0)) ∧
    decodeWords [0x10810250] = .ok (.mmul (op 0 1 2) .fuse22) ∧
    decodeWords [0x06165260] = .ok (.join (op 20 22 24)) ∧ decodeWords [0x270] = .ok (.aswap (op 0 0 0)) ∧
    decodeWords [0x280] = .ok (.mwait (op 0 0 0)) ∧ decodeWords [0x00060288] = .ok (.gangLead (op 0 6 0)) := by decide
theorem test_word_drain : decodeWords [0x00007268] = .ok (.jdrain (op 28 0 0)) ∧
    decodeWords [0x10007268] = .ok (.jdrainResume (op 28 0 0)) := by decide

/-- 12: spawnr s4, s5, s6; sync; publish; tend; bar.pkg 0; quiesce; copy.cvt k2, m:s20; nop; sysrd s10, DRAINPOS. -/
theorem test_word_tasks : decodeWords [0x018512A0] = .ok (.spawnr (op 4 5 6)) ∧
    decodeWords [0x2B8] = .ok (.sync (op 0 0 0)) ∧ decodeWords [0x2C0] = .ok (.publish (op 0 0 0)) ∧
    decodeWords [0x2C8] = .ok (.tend (op 0 0 0)) ∧ decodeWords [0x300002F8] = .ok (.bar (op 0 0 0) 0 .pkg) ∧
    decodeWords [0x300] = .ok (.quiesce (op 0 0 0)) := by decide
theorem test_word_system : decodeWords [0x10140B18] = .ok (.copy (op 2 20 0) .cvt) ∧
    decodeWords [0x348] = .ok (.nop (op 0 0 0)) ∧ decodeWords [0x00112B60] = .ok (.sysrd (op 10 0x11 0)) := by decide

/-- 18, the worked example under R430: the reserved cache policy 0b11 is refused; with policy 0 the word is a load. -/
theorem test_word_refused : decodeWords [0x306C0109, 0x00100020, 0] = .error .field ∧
    decodeWords [0x300C0109, 0x00100020, 0] = .ok (.ld (ext 0x20 0x10 0 { ctl with ord := 1, scope := 2 }) .n64) := by decide

/-- A literal form, by R168 and R177 (opcode 0x12): movi s1, 0x1122334455667788, low half first. -/
theorem test_word_literal : decodeWords [0x00000492, 0x55667788, 0x11223344] =
    .ok (.movi (lit 1 0 0x1122334455667788)) := by decide

/-! ### One step on a small state -/

/-- Scalars of a register store, by their numbers. -/
def regs (l : List (Nat × Word)) : Map Row :=
  l.foldl (fun m e =>
    let moved : Row := BitVec.shiftLeft (e.2.setWidth 512) (64 * (e.1 % 8))
    put m (e.1 / 8) (look 0 m (e.1 / 8) ||| moved)) []

/-- An entry of a TLB: a readable, writable and executable page. -/
def page (va pa : Nat) (pkg : BitVec 20) : Tlb :=
  { space := 0, vbase := va, bits := 12, pbase := pa, pkg := pkg, leaf := BitVec.ofNat 128 (pa + 0x33D), entry := 0, dirty := true }

/-- The package after reset with a context that runs a strand. Its core knows pages of global memory, of the commons of
hamlet 1 and of package 7. -/
def base (x : Ctx) : State :=
  { State.reset with cores := [(0, { ctxs := [(0, { x with status := .running, pc := 0x10000, strand := some {} })],
                                     tlb := [page 0x10000 0x10000 0, page 0x11000 0x3E0000201000 0, page 0x12000 0x20000 7] })] }

/-- The same with scalars. -/
def with' (l : List (Nat × Word)) : State := base { store := regs l }

/-- What an instruction leaves, once its results have committed. -/
def ran (i : Instr) (s : State) : State := match exec i s with | .next t => t.commitAll | _ => s

/-- Scalar n. -/
def sreg (s : State) (n : Nat) : Word := s.sc (8 * n)

/-- An address of the own commons. -/
def cm (off : Nat) : Word := 0x00FFFF0000000000 + BitVec.ofNat 64 off

/-- A row of 32-bit lanes. -/
def lanes32 (l : List (BitVec 32)) : Row :=
  BitVec.ofNat 512 (l.zipIdx.foldl (fun acc e => acc + e.1.toNat * 2 ^ (32 * e.2)) 0)

/-- A vector view (07 R182): base and element type. -/
def view (b e : Nat) : Word := BitVec.ofNat 64 (b + e * 2 ^ 16)

/-! ### Scalar instructions: the worked example under R203, and R204 to R209 -/

theorem test_add_i8 : sreg (ran (.add (op 5 6 7) false .i8) (with' [(6, 0x7F), (7, 1)])) 5 = 0xFFFFFFFFFFFFFF80 := by decide +kernel
theorem test_add_n8 : sreg (ran (.add (op 5 6 7) false .n8) (with' [(6, 0x7F), (7, 1)])) 5 = 0x80 := by decide +kernel
theorem test_div_by_zero : sreg (ran (.div (op 5 6 0) true .n32) (with' [(6, 0x0000000900000007)])) 5 = 0xFFFFFFFF := by decide +kernel
theorem test_rem_by_zero : sreg (ran (.rem (op 5 6 0) true .n32) (with' [(6, 0x0000000900000007)])) 5 = 7 := by decide +kernel
theorem test_div_overflow : sreg (ran (.div (op 5 6 7) false .i64) (with' [(6, 0x8000000000000000), (7, -1)])) 5 =
    0x8000000000000000 := by decide +kernel
theorem test_rem_sign : sreg (ran (.rem (op 5 6 57) true .i64) (with' [(6, -20)])) 5 = -6 := by decide +kernel
theorem test_shr_long : sreg (ran (.shr (ext 0x28 0x30 36) true .i32) (with' [(6, 0x80000010)])) 5 = 0xFFFFFFFFF8000001 := by decide +kernel
theorem test_sub_source_is_target : sreg (ran (.sub (op 5 5 5) false .i64) (with' [(5, 9)])) 5 = 0 := by decide +kernel
/-- The upper half of -1 times -1, signed and unsigned, by R203. -/
theorem test_mulh : sreg (ran (.mulh (op 5 6 6) false .i64) (with' [(6, -1)])) 5 = 0 ∧
    sreg (ran (.mulh (op 5 6 6) false .n64) (with' [(6, -1)])) 5 = 0xFFFFFFFFFFFFFFFE := by decide +kernel
theorem test_rot : sreg (ran (.rot (op 5 6 4) true .n16) (with' [(6, 0xA001)])) 5 = 0x001A := by decide +kernel
theorem test_cmp_signed : (ran (.cmp (op 1 6 7) false .lt) (with' [(6, -1), (7, 0)])).me.pred 1 = BitVec.allOnes 64 ∧
    (ran (.cmp (op 1 6 7) false .ltu) (with' [(6, -1), (7, 0)])).me.pred 1 = 0 := by decide +kernel
theorem test_clz : sreg (ran (.bits (op 5 6 0) .clz) (with' [(6, 0x00F0)])) 5 = 56 ∧
    sreg (ran (.bits (op 5 6 0) .ctz) (with' [(6, 0x00F0)])) 5 = 4 := by decide +kernel
theorem test_lea : sreg (ran (.lea (op 5 6 7) false 3) (with' [(6, 0x1000), (7, 5)])) 5 = 0x1028 := by decide +kernel
/-- The worked example under R209. -/
theorem test_fminmax_zero : sreg (ran (.fminmax (op 5 6 7) .f32 false) (with' [(6, 0), (7, 0x80000000)])) 5 = 0x80000000 := by decide +kernel
theorem test_fminmax_quiet : sreg (ran (.fminmax (op 5 6 7) .f32 false) (with' [(6, 0x7FC00001), (7, 0x40000000)])) 5 =
    0x40000000 := by decide +kernel
theorem test_fminmax_signalling :
    let t := ran (.fminmax (op 5 6 7) .f32 false) (with' [(6, 0x7F800001), (7, 0x7FC00000)])
    sreg t 5 = 0x7FC00000 ∧ t.me.fpstatus.getLsbD 0 = true := by decide +kernel
/-- 1.0 + 2.0, and the fourth issue after it (the worked example under R193): the third reads the old value. -/
theorem test_latency_four :
    let s := match exec (.fadd (op 3 1 2) .f32 false) (with' [(1, 0x3F800000), (2, 0x40000000)]) with | .next t => t | _ => State.reset
    sreg (State.tick^[3] s) 3 = 0 ∧ sreg (State.tick^[4] s) 3 = 0x40400000 := by decide +kernel
theorem test_fdiv_by_zero :
    let t := ran (.fdiv (op 5 6 7) .f32 false) (with' [(6, 0x3F800000), (7, 0x80000000)])
    sreg t 5 = 0xFF800000 := by decide +kernel

/-! ### Control (08 R210 to R215) -/

theorem test_br_taken : ((ran (.br (op 2 1 0) false) (base { preds := [(1, 1)] })).me.pc) = 0x10008 ∧
    ((ran (.br (op 2 1 0) true) (base { preds := [(1, 1)] })).me.pc) = 0x10004 := by decide +kernel
theorem test_br_back : (ran (.br (op 0x3F 0 0x3F) false) (with' [])).me.pc = 0xFFFC := by decide +kernel
theorem test_call : let t := ran (.callReg (op 5 6 0)) (with' [(6, 0x20000)])
    t.me.pc = 0x20000 ∧ sreg t 5 = 0x10004 := by decide +kernel
theorem test_ret_misaligned : let t := ran (.ret (op 0 6 0)) (with' [(6, 0x20002)])
    t.me.trapcause.setWidth 6 = (0x03 : BitVec 6) ∧ t.me.trapinfo = 0x20002 ∧ t.me.trappc = 0x10000 := by decide +kernel
theorem test_pset : (ran (.pset (op 3 1 2) .andn) (base { preds := [(1, 0xF0), (2, 0x30)] })).me.pred 3 = 0xC0 := by decide +kernel

/-! ### Memory instructions on the own commons (08 R216 to R231) -/

def word1 : State := { with' [(2, cm 0x100), (3, 0xFFEEDDCCBBAA9988), (7, 5)] with mem := memWrite [] 0x3E0000000100 [0x11, 0x22, 0x33, 0x80] }

theorem test_ld_n32 : sreg (ran (.ld (op 5 2 0) .n32) word1) 5 = 0x80332211 := by decide +kernel
theorem test_ld_i32 : sreg (ran (.ld (op 5 2 0) .i32) word1) 5 = 0xFFFFFFFF80332211 := by decide +kernel
theorem test_st_n16 : memRead (ran (.st (op 3 2 1) .n16) word1).mem 0x3E0000000100 4 = [0x11, 0x22, 0x88, 0x99] := by decide +kernel
theorem test_amo_add : let t := ran (.amo (op 7 2 0) .add) word1
    sreg t 7 = 0x80332211 ∧ memRead t.mem 0x3E0000000100 4 = [0x16, 0x22, 0x33, 0x80] := by decide +kernel
theorem test_amo_misaligned : (ran (.amo (op 7 2 4) .add) (with' [(2, cm 0x100 + 4)])).me.trapcause.setWidth 6 = (0x03 : BitVec 6) := by decide +kernel
theorem test_cas_fails : let t := ran (.cas (op 4 2 0) .n32) { word1 with cores := (with' [(2, cm 0x100), (4, 7), (5, 9)]).cores }
    sreg t 4 = 0x80332211 ∧ t.mem = word1.mem := by decide +kernel
theorem test_stsync_fills : let t := ran (.stsync (op 3 2 0)) word1
    t.isFull 0x3E0000000100 = true ∧ sreg (ran (.ldsync (op 6 2 0) true) t) 6 = 0xFFEEDDCCBBAA9988 ∧
    (ran (.ldsync (op 6 2 0) true) t).isFull 0x3E0000000100 = false := by decide +kernel
theorem test_ldsync_parks : let t := ran (.ldsync (op 6 2 0) false) word1
    t.me.status = .parking ∧ t.me.parking.map Parking.cond = some 0x03 := by decide +kernel
theorem test_zline : memRead (ran (.zline (op 0 2 0)) word1).mem 0x3E0000000100 4 = [0, 0, 0, 0] := by decide +kernel

/-! ### Vectors (09) -/

/-- Views v1 to v4 on rows 20, 21, 22 and 23, of one element type. -/
def vstate (e : Nat) (rows : List (Nat × Row)) : State :=
  base { store := (8, rowOfWords [0, view 0x500 e, view 0x540 e, view 0x580 e, view 0x5C0 e]) :: rows }

theorem test_vadd_f32 : ((ran (.vadd (op 3 1 2) false) (vstate 11 [(20, lanes32 [0x3F800000, 0x40000000]), (21, lanes32 [0x3F800000])])).row 22)
    = lanes32 [0x40000000, 0x40000000] := by decide +kernel
theorem test_vadd_n8_wraps : ((ran (.vadd (op 3 1 2) false) (vstate 5 [(20, 0xFF), (21, 0x02)])).row 22) = 0x01 := by decide +kernel
/-- The worked example under R254: exp2 of 0.5 is the root of 2 rounded; of 1.0, exact. -/
theorem test_vmath_exp2 : ((ran (.vmath (op 3 1 0) .exp2) (vstate 11 [(20, lanes32 [0x3F000000, 0x3F800000])])).row 22).setWidth 64 =
    (0x400000003FB504F3 : Word) := by decide +kernel
/-- The worked example under R258: cvtn.i8 v2, v1, s9. -/
theorem test_cvtn :
    let s := base { store := [(1, 0x800 <<< 64), (8, rowOfWords [0, view 0x500 11, view 0x540 1]),
                              (20, lanes32 [0x437E0000, 0x40400000, 0xBF800000, 0x40A00000])] }
    let t := ran (.cvtn (op 2 1 9) .i8) s
    t.row 21 = 0x0200027F ∧ sreg t 9 = 0x4000000000000800 ∧ t.me.fpstatus.getLsbD 4 = true ∧ t.me.fpstatus.getLsbD 5 = false := by decide +kernel
theorem test_vcmp : (ran (.vcmp (op 1 1 2) .lt) (vstate 3 [(20, lanes32 [1, 5, 0xFFFFFFFF]), (21, lanes32 [2, 5, 0])])).me.pred 1 = 5 := by decide +kernel
theorem test_vred_sum : sreg (ran (.vred (op 5 1 0) .sum) (vstate 7 [(20, lanes32 [1, 2, 0xFFFFFFFF])])) 5 = 2 := by decide +kernel
theorem test_vst_vld : let s := base { store := [(0, rowOfWords [0, 0, cm 0x200]), (8, rowOfWords [0, view 0x500 11, view 0x540 11]), (20, lanes32 [7, 8])] }
    let t := ran (.vst (op 1 2 0) false) s
    memRead t.mem 0x3E0000000200 8 = [7, 0, 0, 0, 8, 0, 0, 0] ∧ (ran (.vld (op 2 2 0) false) t).row 21 = lanes32 [7, 8] := by decide +kernel

/-! ### Numbers (04): the worked examples under R98, R103, R108, R109 and R116 -/

theorem test_e4m3 : (fmtOfDesc 0xC60EB000).decode 0x7E = .fin false 14 5 ∧ (fmtOfDesc 0xC60EB000).decode 0x7F = .nan false := by decide +kernel
theorem test_stochastic : srStep 1 = 0x00042021 := by decide +kernel
/-- 5.0 to E2M1: stochastically with SRSTATE 1, to nearest, up and down (the worked example under R108). -/
theorem test_round_e2m1 :
    let f := fmtOfDesc 0xA2022000
    let v := Fmt.f32.decode 0x40A00000
    f.round 5 (srStep 1).toNat v = (7, fNx) ∧ f.round 1 0 v = (6, fNx) ∧ f.round 3 0 v = (7, fNx) ∧ f.round 4 0 v = (6, fNx) := by decide +kernel
/-- Block scales of 13.0 in MXFP4, and 13.0 by the FP32 scale (the worked example under R103). -/
theorem test_block_scale :
    let f := fmtOfDesc 0xA2023000
    let top := f.magnitude f.maxCode
    let v := Fmt.f32.decode 0x41500000
    blockScale 2 top 0xA2023000 [v] = 0x40000000 ∧ blockScale 1 top 0xA2023000 [v] = 0x400AAAAB ∧
    f.round 1 0 (divVal v (scaleVal 0x40000000)).1 = (7, fSat ||| fOf ||| fNx) ∧ f.round 1 0 (divVal v (scaleVal 0x400AAAAB)).1 = (7, fNx) ∧
    f.round 1 0 (divVal (Fmt.f32.decode 0x40400000) (scaleVal 0x40000000)).1 = (3, 0) := by decide +kernel
/-- The BF16 group of the worked example under R111: a larger product that cancels fixes the window. -/
theorem test_group_sum :
    let p := fun (a b : Nat) => (mulVal (Fmt.bf16.decode a) (Fmt.bf16.decode b)).1
    Fmt.f32.finish 1 (groupSum 64 [p 0x3F80 0x3F80, p 0xBF80 0x3F80, p 0x2F00 0x2F80]) = (0, fNx) := by decide +kernel
/-- The two trees of the worked example under R116. -/
theorem test_reduction_trees :
    let add := fun (x y : Nat) => (Fmt.f32.finish 1 (addVal 1 (Fmt.f32.decode x) (Fmt.f32.decode y))).1
    add (add (add 0x3F800000 0x33800000) 0x33800000) 0x33800000 = 0x3F800000 ∧
    add (add (add 0x33800000 0x33800000) 0x33800000) 0x3F800000 = 0x3F800002 := by decide +kernel
/-- 1.1 through an E5M2 wire (the worked example that ends 04). -/
theorem test_wire_e5m2 : let f := fmtOfDesc 0xD41F3000; let v := (f.round 1 0 (Fmt.f32.decode 0x3F8CCCCD)).1
    v = 0x3C ∧ (Fmt.f32.round 1 0 (f.decode v)).1 = 0x3F800000 := by decide +kernel
/-- The scale words of the worked example under R133. -/
theorem test_scale_words : [0x7F, 0x80, 0x00, 0xFF].map e8m0Decode = [0x3F800000, 0x40000000, 0x00400000, 0x7FC00000] ∧
    e8m0Encode 0x40800000 = 0x81 := by decide +kernel

/-! ### Homes, walks and probes (05, 03) -/

/-- The tables of the worked example under R142: the sixteen entries 80 to 95 of a run. -/
def runTables : List Host.Cell :=
  let entry := fun (m : List Host.Cell) (e : Nat × Nat) => memWrite m e.1 (bytesOf 16 e.2)
  ([(0x100000, 0x102001), (0x102000, 0x104001), (0x105000, 0x106001)] ++
    (List.range 16).map fun i => (0x106000 + 16 * (80 + i), 0x16000000 + i * 0x200000 + 0x73D)).foldl entry []
theorem test_walk_run :
    (match ({ State.reset with mem := runTables } : State).walk 0x400A345678 1 0x100000 5 with
     | .leaf _ entry _ pbase bits => (entry, pbase + 0x400A345678 % 2 ^ bits, bits)
     | _ => (0, 0, 0)) = (0x106000 + 16 * 81, 0x16345678, 25) ∧ State.reset.homeOf 0x16345678 = 44 := by decide +kernel
/-- Hamlet 37 of die 2 is at router (2, 2), and the hamlets its gleaners probe (the worked examples of 01 and under R75). -/
theorem test_probe_order : dieOf 165 = 2 ∧ colOfHam 165 = 2 ∧ rowOfHam 165 = 2 ∧
    (probeHams 165).take 27 = [38, 39, 36, 40, 41, 42, 43, 44, 45, 46, 47, 32, 33, 34, 35, 52, 53, 54, 55, 4, 5, 6, 7, 20, 21, 22, 23].map (128 + ·) ∧
    (probeHams 165)[27]? = some 128 ∧ (probeHams 165)[63]? = some 192 ∧ (probeHams 165)[127]? = some 64 ∧ (probeHams 165)[191]? = some 0 := by
  decide +kernel

/-! ### A join and its drain (10): the worked example under R281 -/

def joined : JoinAcc :=
  joinRun {} false 0 [⟨0, 1, 0x40000000⟩, ⟨0, 3, 0x3F800000⟩, ⟨2, 1, 0x3F000000⟩] [⟨0, 5, 0x40400000⟩, ⟨1, 5, 0x40E00000⟩, ⟨2, 5, 0x40800000⟩]
theorem test_join : bytesOf 12 (mapRead joined.bank 0x6960 12) = [0, 0, 0, 0x41, 1, 0, 5, 0, 0, 1, 0, 0] ∧ joined.jstat = 0 ∧ joined.fl = 0 := by
  decide +kernel
theorem test_drain :
    let ws := drainWrites (drainList joined.bank 0 4) (BitVec.ofNat 256 (4 * 2 ^ 216)) 0 0 0
    ((ws.filter fun w => w.arr = 0).map DrainWrite.val = [0x41000000, 0x40400000]) ∧
    ((ws.filter fun w => w.arr = 1).map DrainWrite.val = [5, 5]) ∧ ((ws.filter fun w => w.arr = 2).map DrainWrite.val = [0, 0, 1, 1, 2, 2]) := by
  decide +kernel

/-! ### Witnesses: for each obligation with hypotheses, states and operands that meet them -/

/-- What holds of the next state of an outcome. -/
def got (r : Host.Outcome State Fault Refusal) (p : State → Bool) : Bool := match r with | .next t => p t | _ => false

/-- What holds of what a fetch gives. -/
def fetched (r : Fetched) (p : Instr → State → Bool) : Bool := match r with | .instr i t => p i t | _ => false

def isOk {ε α : Type} (r : Except ε α) (p : α → Bool) : Bool := match r with | .ok a => p a | .error _ => false

theorem witness_decodeOfEncode : legal (.trap (ext 0 0 0xFFF)) = true ∧ legal (.movi (lit 63 0 0xFFFFFFFFFFFFFFFF)) = true := by decide
theorem witness_encodeOfDecode : decodeWords [0x00000348, 0xFFFFFFFF] = .ok (.nop (op 0 0 0)) := by decide
/-- One word for each kind that is refused: the first opcode past the table, and each reserved function and form, pred 0 with pneg 1
with a literal and without. -/
theorem witness_illegalWordsRefused :
    0x70 ≤ ((0x380 : BitVec 32).extractLsb' 3 7).toNat ∧
    ((0x70000078 : BitVec 32).extractLsb' 3 7 = 0x0F ∧ (0x70000078 : BitVec 32).extractLsb' 28 3 = 7) ∧
    ((0xA0000178 : BitVec 32).extractLsb' 3 7 = 0x2F ∧ (0xA0000178 : BitVec 32).extractLsb' 28 4 = 10) ∧
    ((0xF0000178 : BitVec 32).extractLsb' 3 7 = 0x2F ∧ 13 ≤ ((0xF0000178 : BitVec 32).extractLsb' 28 4).toNat) ∧
    ((0x2003 : BitVec 32).getLsbD 0 = true ∧ (0x2003 : BitVec 32).extractLsb' 10 3 = 0 ∧ (0x2003 : BitVec 32).getLsbD 13 = true) ∧
    ((0x2F8 : BitVec 32).extractLsb' 3 7 = 0x5F ∧ (0x2F8 : BitVec 32).extractLsb' 28 2 = 0) ∧
    ((0xEA : BitVec 32).extractLsb' 3 7 = 0x1D ∧ (0xEA : BitVec 32).getLsbD 1 = true) ∧
    ((0x2001 : BitVec 32).extractLsb' 0 2 = 1 ∧ (0x2001 : BitVec 32).extractLsb' 10 3 = 0 ∧ (0x2001 : BitVec 32).getLsbD 13 = true) := by decide

/-- An instruction placed where the next step fetches. -/
def placed : State := State.reset.withFetchWord 32 0x01C61400

theorem witness_stepRunsInstruction :
    let r : State := { placed.later with phase := 1 }
    placed.inputs = [] ∧ placed.phase = 0 ∧ placed.stopped = false ∧ r.coreOrder = [0] ∧ (r.ham 0).fenced = false ∧
    (r.ham 0).shut = false ∧ order (r.core 0).ptr = [] ++ 0 :: [1, 2, 3, 4] ∧ r.mayIssue 0 0 = true ∧ (r.ctx 0 0).leads = false ∧
    (r.ctx 0 0).hold = .none ∧ (r.ctx 0 0).acqAfter = none ∧
    fetched (r.as 0 0).ready.nextInstr (fun i u => got (exec i u) fun t => decide ((t.ctx 0 0).hold ≠ .wait)) = true := by decide +kernel

/-- A context at the start of words in its hamlet's commons. -/
def prog (ws : List (BitVec 32)) : State :=
  let s := base {}
  { s.setCtx 0 0 { s.ctx 0 0 with pc := cm 0x1000 } with mem := memWrite [] 0x3E0000001000 (bytesOfWords ws) }

/-- A NOP in global memory, at its home and in the hamlet's copy of its line. -/
def homed (dev : Bool) : State :=
  let leaf : Tlb := { page 0x10000 0x10000 0 with leaf := BitVec.ofNat 128 (0x10000 + 0x33D + if dev then 2 ^ 60 else 0) }
  { State.reset with cores := [(0, { ctxs := [(0, { status := .running, pc := 0x10000, strand := some {} })], tlb := [leaf] })]
                     mem := memWrite [] 0x1003C [0x48, 0x03, 0, 0] }
def copied : State := { homed false with hamlets := [(0, { lines := [(0x10000, { data := 0x348 <<< 480, dirty := 0, cores := 1 })] })] }
theorem witness_fetchReadsProgram :
    isOk ((prog [0x00000348]).resolve (cm 0x1000) .exec) (fun p => decide (p.1 = .near 0x3E0000001000 ∧
      p.2.listedLine 0x3E0000001000 = false ∧ p.2.homeRead 0x3E0000001000 4 = [0x48, 0x03, 0, 0])) = true ∧
    ([false, true].all fun dev => isOk ((homed dev).resolve 0x1003C .exec) fun p => decide (p.1 = .global 0x1003C dev ∧
      p.2.listedLine 0x10000 = false ∧ p.2.homeRead 0x1003C 4 = [0x48, 0x03, 0, 0] ∧ (p.2.region 0x1003C).global = true ∧
      p.2.cxlStuck 0x10000 = false ∧ find (p.2.ham 0).lines 0x10000 = none ∧ (p.2.ham 0).winLines = [])) = true ∧
    isOk (copied.resolve 0x1003C .exec) (fun p => decide (p.1 = .global 0x1003C false ∧
      (find (p.2.ham 0).lines 0x10000).map (fun l => (ones 64 4 0x3C &&& ~~~ l.valid, l.bad)) = some (0, false))) = true ∧
    (let s := prog [0xB0140169, 0x00180038, 8];
      isOk (s.fetchWord (cm 0x1000)) (fun p => decide (p.1 = 0xB0140169 ∧ wordsOfLen (p.1.extractLsb' 0 2) = 3) &&
        isOk (p.2.fetchMore (cm 0x1004) 2) (fun q => decide (q = ([0x00180038, 8], p.2)))) = true) ∧
    (prog []).me.repOn = false := by decide +kernel

theorem witness_variableLatencyCommits :
    (with' []).me.results = [] ∧ (base { hold := .switch }).me.hold = .switch ∧ (base { hold := .switch }).me.results = [] ∧
    (base { hold := .switch }).me.acqAfter = none ∧ [(7, 0)] ≠ ([] : List (Nat × Nat)) := by decide +kernel

/-- Bits of a row. -/
def cellOf (n : Nat) (m d : Row) : Cell := { tgt := .row n, mask := m, data := d }

theorem witness_youngerResultStands : (with' []).me.results = [] ∧ (cellOf 3 0xFF 1).tgt = .row 3 ∧ (cellOf 3 0xF 2).tgt = .row 3 := by
  decide +kernel

/-- A predicate that is false. -/
def offc : Ctl := { ctl with pred := 1 }
theorem witness_predicatedOff :
    let i := Instr.add (ext 0x28 0x30 0x38 offc) false .i64
    opsOf i = some (ext 0x28 0x30 0x38 offc) ∧ bitGoverned i = true ∧ (with' []).me.repOn = false ∧
    (with' []).waitsDone (ext 0x28 0x30 0x38 offc) = true ∧
    ((with' []).entered (ext 0x28 0x30 0x38 offc)).active (ext 0x28 0x30 0x38 offc) = false := by decide +kernel

/-- A result that waits for a message. -/
def waiting : Result := { due := .var [(7, 0)], cells := [], flags := 0 }
theorem witness_waitsHold :
    let c := { ctl with kmask := 1 }
    let i := Instr.add (ext 0x28 0x30 0x38 c) false .i64
    opsOf i = some (ext 0x28 0x30 0x38 c) ∧ (ext 0x28 0x30 0x38 c).ext = some c ∧ bitGoverned i = true ∧
    (base { tokens := 0 }).me.repOn = false ∧ (base { tokens := 0 }).me.waitsOver c = false ∧
    makesVar (.ld (op 5 2 0) .n32) = true ∧
    16 ≤ (base { results := List.replicate 16 waiting }).me.outstanding ∧ (base { results := List.replicate 16 waiting }).me.returned = false ∧
    16 ≤ (base { results := List.replicate 16 (varResult []) }).me.outstanding ∧
    (base { results := List.replicate 16 (varResult []) }).me.returned = true := by decide +kernel

/-- The first and the last issue before a result of latency 4 commits, and its commit. -/
theorem witness_fixedLatencyCommits : (with' []).me.results = [] ∧ 1 ≤ 4 ∧ 0 < 4 ∧ 3 < 4 ∧ (4 : Nat) = 4 ∧
    (cellOf 0 0xFF 1).tgt = .row 0 := by decide +kernel

/-- A context that handles a trap; one of a gang; one that runs a strand of the launch with number 9. -/
def handling : State := base { trapcause := 0x1000 }
def ganged : State := base { strand := some {}, grank := 0x40 }

/-- The four cases: a context that handles a trap, a direct trap of one that does not, the handler context, a member of a gang; one
whose reeve is another core, and the reeve core's own handler context. -/
def handlerOf (c : Nat) : State := { base {} with cores := [(c, { ctxs := [(4, { status := .running, pc := 0x10000 })] })], curCtx := 4, curCore := c }
theorem witness_trapEscalates : (0x12 : BitVec 6) ≠ 0x13 ∧ handling.me.returned = true ∧ handling.me.handling = true ∧
    (with' []).me.returned = true ∧ (with' []).me.handling = false ∧ (handlerOf 0).me.returned = true ∧ (handlerOf 0).onHandler = true ∧
    ganged.me.returned = true ∧ ganged.me.inGang = true ∧ ¬(handling.reeve (handling.curCore / 512) = handling.curCore ∧ handling.curCtx = 4) ∧
    (let s := handlerOf (State.reset.reeve 0); s.me.returned = true ∧ s.onHandler = true ∧ s.reeve (s.curCore / 512) = s.curCore ∧ s.curCtx = 4) := by
  decide +kernel

theorem witness_trapEntry : (with' []).me.returned = true ∧ (0x12 : BitVec 6) ≠ 0x13 ∧ (with' []).curCtx < 4 ∧ (with' []).me.handling = false ∧
    (with' []).me.inGang = false ∧ (base { results := [waiting] }).me.returned = false := by decide +kernel

/-- A context at a privilege, with a trap cause. -/
def rteAt (p : Priv) (c : Word) : State := base { priv := p, trapcause := c, trappc := 0x20000 }

/-- RTE to a privilege no higher, without a valid cause, from kernel code, and to a higher privilege. -/
theorem witness_returnFromTrap :
    (rteAt .runtime 0x1400).goes (.rte (op 0 0 0)) (op 0 0 0) = true ∧ ((rteAt .runtime 0x1400).entered (op 0 0 0)).me.returned = true ∧
    (rteAt .runtime 0x1400).me.priv ≠ .kernel ∧ (rteAt .runtime 0x1400).me.handling = true ∧
    (Priv.ofCode (fld (rteAt .runtime 0x1400).me.trapcause 11 10)).code ≤ (rteAt .runtime 0x1400).me.priv.code ∧
    (rteAt .runtime 0).goes (.rte (op 0 0 0)) (op 0 0 0) = true ∧ (rteAt .runtime 0).me.handling = false ∧
    (rteAt .kernel 0).goes (.rte (op 0 0 0)) (op 0 0 0) = true ∧ (rteAt .kernel 0).me.priv = .kernel ∧
    (rteAt .runtime 0x1800).goes (.rte (op 0 0 0)) (op 0 0 0) = true ∧ (rteAt .runtime 0x1800).me.handling = true ∧
    (rteAt .runtime 0x1800).me.priv.code < (Priv.ofCode (fld (rteAt .runtime 0x1800).me.trapcause 11 10)).code := by decide +kernel

theorem witness_trapInstruction : (with' []).goes (.trap (op 0 63 63)) (op 0 63 63) = true ∧
    ((with' []).entered (op 0 63 63)).me.returned = true := by decide +kernel

/-- Device runtime and root firmware. -/
def rt : State := base { priv := .runtime, store := regs [(6, 0x10000)] }
def fw : State := base { priv := .firmware }

/-- An instruction of one-word or extended form may act on its scalars. -/
def acts (s : State) (i : Instr) (ls : List Loc) : Bool :=
  match opsOf i with | some o => s.goes i o && ((s.entered o).locsFault ls).isNone | none => false

/-- The last register that kernel code reads and the first that it does not; the next page; and each form of TLBINV. -/
theorem witness_controlRegisters :
    let o1 := ext 0x28 0 0x20
    let o2 := ext 0x28 0 0x13
    let o3 := ext 0 0x30 4
    let o4 := ext 0 0x30 0x20
    let o5 := ext 0 0x30 0x34
    ((with' []).goes (.sysrd o1) o1 = true ∧ 0x20 ≤ (number12 o1 o1.a).toNat ∧ ((with' []).entered o1).me.priv = .kernel ∧
      rt.me.priv ≠ .kernel ∧ acts rt (.sysrd o1) [scLoc o1 o1.d] = true) ∧
    (acts (with' []) (.sysrd o2) [scLoc o2 o2.d] = true ∧ (number12 o2 o2.a).toNat < 0x20) ∧
    ((with' []).goes (.syswr o3) o3 = true ∧ sysReadOnly (number12 o3 o3.d).toNat = true) ∧
    ((with' []).goes (.syswr o4) o4 = true ∧ 0x20 ≤ (number12 o4 o4.d).toNat ∧ acts rt (.syswr o4) [scLoc o4 o4.a] = true ∧
      sysReadOnly (number12 o4 o4.d).toNat = false) ∧
    (rt.goes (.syswr o5) o5 = true ∧ (number12 o5 o5.d).toNat = 0x34 ∧ rt.me.priv ≠ .firmware ∧
      fw.goes (.syswr o5) o5 = true ∧ sysReadOnly (number12 o5 o5.d).toNat = false ∧ (fw.entered o5).me.priv = .firmware) ∧
    ((with' []).goes (.tlbinv (op 0 6 0)) (op 0 6 0) = true ∧ (with' []).goes (.tlbinvAll (op 0 0 0)) (op 0 0 0) = true ∧
      acts rt (.tlbinv (op 0 6 0)) [scLoc (op 0 6 0) 6] = true ∧ acts rt (.tlbinvSpace (op 0 6 0)) [scLoc (op 0 6 0) 6] = true ∧
      rt.goes (.tlbinvAll (op 0 0 0)) (op 0 0 0) = true ∧ rt.travelling (fun _ => true) = false) := by decide +kernel

theorem witness_aluCompletes :
    acts (with' []) (aluInstr .mulh (ext 0x28 0x1FF8 0x38) false .n64) [scLoc (ext 0x28 0x1FF8 0x38) 0x1FF8] = true ∧
    ((with' []).entered (ext 0x28 0x1FF8 0x38)).locsFault (aluLocs (ext 0x28 0x1FF8 0x38) false) = none ∧
    acts (with' []) (aluInstr .add (op 63 63 0x20) true .i8) (aluLocs (op 63 63 0x20) true) = true ∧
    (with' []).goes (aluInstr .add (ext 0x28 0x1FF9 0x38) false .i8) (ext 0x28 0x1FF9 0x38) = true ∧
    ((with' []).entered (ext 0x28 0x1FF9 0x38)).locsFault (aluLocs (ext 0x28 0x1FF9 0x38) false) = some (0x08, viewInfo 0x2000 0 3) := by decide +kernel

theorem witness_floatCompletes :
    let o := op 5 6 7
    let l := lit 5 6 0x3FF0000000000000
    acts (with' []) (.fadd o .f32 true) (litLocs o) = true ∧ acts (with' []) (.fmul l .f64) (litLocs l) = true ∧
    acts (with' []) (.ffma o .bf16 .nm) (litLocs o) = true ∧ acts (with' []) (.fdiv l .f64 false) (litLocs l) = true ∧
    acts (with' []) (.fdiv o .f16 true) [scLoc o o.a, scLoc o o.d] = true ∧ acts (with' []) (.fminmax o .f32 true) (litLocs o) = true ∧
    acts (with' []) (.fcmp o .f64 .un) ([scLoc o o.a] ++ [scLoc o o.b]) = true ∧
    acts (with' []) (.fcmp (lit 1 6 0) .f64 .eq) ([scLoc o o.a] ++ []) = true ∧
    0xFFFF < 2 ^ (ftyFmt .bf16).width ∧ (ftyFmt .bf16).decode 0x0001 = .fin false 1 (-133) ∧
    (ftyFmt .bf16).decode 0xFF80 = .inf true ∧ (ftyFmt .bf16).decode 0xFFFF = .nan false := by decide +kernel

theorem witness_scalarMovesComplete :
    let o := op 5 6 7
    let p := op 3 1 2
    acts (with' []) (.cmp p false .tst) ([scLoc p p.a] ++ [scLoc p p.b]) = true ∧ acts (with' []) (.cmp p true .ltu) ([scLoc p p.a] ++ []) = true ∧
    acts (with' []) (.sel o true 7) (aluLocs o true) = true ∧ acts (with' []) (.bits (op 5 6 0) .bswap) [scLoc o o.a, scLoc o o.d] = true ∧
    acts (with' []) (.movi (lit 5 0 0xFFFFFFFFFFFFFFFF)) [scLoc o o.d] = true ∧ acts (with' []) (.lea o false 3) (aluLocs o false) = true ∧
    PFn.andn ≠ .mov ∧ PFn.andn ≠ .get ∧ (with' []).goes (.pset p .andn) p = true ∧
    acts (with' []) (.pset (op 3 63 0) .mov) [scLoc (op 3 63 0) 63] = true ∧ acts (with' []) (.pset (op 63 7 0) .get) [scLoc (op 63 7 0) 63] = true ∧
    (0x8000000000000000 : Word).getLsbD 63 = true ∧ (1 : Word).getLsbD 0 = true := by decide +kernel

/-- Targets in s6 that are and are not words. -/
def jump : State := with' [(6, 0x20000), (7, 0x20003)]
theorem witness_jumpsComplete :
    jump.goes (.br (op 0x3F 7 0x20) true) (op 0x3F 7 0x20) = true ∧ jump.goes (.jmp (op 0x3F 0 0x1F)) (op 0x3F 0 0x1F) = true ∧
    jump.goes (.jmp (lit 0 0 0x20000)) (lit 0 0 0x20000) = true ∧ (lit 0 0 0x20000).lit = some 0x20000 ∧
    (0x20000 : Word) &&& 3 = 0 ∧ (0x20001 : Word) &&& 3 ≠ 0 ∧
    acts jump (.jmpReg (op 0 6 0)) [scLoc (op 0 6 0) 6] = true ∧ acts jump (.ret (op 0 7 0)) [scLoc (op 0 7 0) 7] = true ∧
    (jump.entered (op 0 6 0)).scOp (op 0 6 0) 6 &&& 3 = 0 ∧ (jump.entered (op 0 7 0)).scOp (op 0 7 0) 7 &&& 3 ≠ 0 ∧
    acts jump (.call (op 5 0x3F 0x3F)) [scLoc (op 5 0 0) 5] = true ∧ acts jump (.call (lit 5 0 0x20000)) [scLoc (op 5 0 0) 5] = true ∧
    acts jump (.callReg (op 5 7 0)) [scLoc (op 5 7 0) 7, scLoc (op 5 7 0) 5] = true := by decide +kernel

/-- SAFEPT on the handler context, on a follower, with an address that is not aligned, and with a map. -/
def onHandler : State := { base {} with cores := [(0, { ctxs := [(4, { status := .running, pc := 0x10000 })] })], curCtx := 4 }
def following : State :=
  { base {} with cores := [(0, { ctxs := [(0, { status := .following, pc := 0x10000, strand := some {}, grank := 0x41 })] })] }
def safe : State := with' [(2, cm 0x1C0), (3, cm 0x1C8)]
theorem witness_nopYieldSafept :
    safe.goes (.nop (op 0 0 0)) (op 0 0 0) = true ∧ safe.goes (.yield (op 0 0 0)) (op 0 0 0) = true ∧
    onHandler.goes (.safept (op 0 2 0)) (op 0 2 0) = true ∧ (onHandler.entered (op 0 2 0)).onHandler = true ∧
    following.goes (.safept (op 0 2 0)) (op 0 2 0) = true ∧ (following.entered (op 0 2 0)).me.follows = true ∧
    acts safe (.safept (op 0 2 0)) [scLoc (op 0 2 0) 2] = true ∧ (safe.entered (op 0 2 0)).onHandler = false ∧
    (safe.entered (op 0 2 0)).me.follows = false ∧ (safe.entered (op 0 2 0)).me.hold ≠ .gang ∧
    (safe.ea (op 0 3 0) 64) &&& 63 ≠ 0 ∧ (safe.ea (op 0 2 0) 64) &&& 63 = 0 ∧
    isOk (safe.resolve (safe.ea (op 0 2 0) 64) .read) (fun p => decide (p.1 = .near 0x3E00000001C0) &&
      !p.2.mustWait (.near 0x3E00000001C0) 64 && !(p.2.useMap (rowOf (memRead p.2.mem 0x3E00000001C0 64))).preemptDue) = true := by decide +kernel

/-- REP over an ADD and a NOP, in its first pass, and at the last instruction of its last pass. -/
def rep2 : State := prog [0x000000F1, 0x01100003, 0, 0x01C61400, 0x00000348]
def repBuf : RepBuf :=
  { pc := cm 0x1000, after := cm 0x1014, passes := 4096, stride := 1, mask := 7,
    body := [.add (op 5 6 7) false .i64, .add (ext 0x28 0x30 0x38) false .i64] }
theorem witness_repRuns :
    let o := ext 3 0x111 0
    rep2.goes (.rep o) o = true ∧ rep2.me.repOn = false ∧ (rep2.entered o).me.follows = false ∧ (rep2.entered o).me.repOn = false ∧
    isOk ((rep2.entered o).fetchBody ((rep2.entered o).me.pc + 12) 2) (fun p => decide (p.1 = [.add (op 5 6 7) false .i64, .nop (op 0 0 0)] ∧
      p.2.me.repOn = false ∧ bytesOfBody p.1 ≤ 256)) = true ∧ (o.a &&& 15).toNat + 1 = 2 ∧
    (base { rep := some repBuf, repstate := 0x80000011 }).me.rep = some repBuf ∧ (base { rep := some repBuf, repstate := 0x80000011 }).me.repOn = true ∧
    repBuf.body[fld (0x80000011 : BitVec 32) 3 0]? = some (.add (ext 0x28 0x30 0x38) false .i64) ∧
    legal (withOps (.add (ext 0x28 0x30 0x38) false .i64) (ext 0x68 0x70 0x78)) = true ∧
    0 + 1 < repBuf.body.length ∧ fld (0x80000011 : BitVec 32) 3 0 + 1 = repBuf.body.length ∧ fld (0x80000011 : BitVec 32) 15 4 + 1 < repBuf.passes ∧
    repBuf.passes ≤ 4096 ∧ fld (0x8000FFF1 : BitVec 32) 15 4 + 1 = repBuf.passes := by decide +kernel

/-- Addresses in s2 to s5: of the own commons, one off a word, of global memory, of another hamlet. -/
def addrs : State :=
  { with' [(2, cm 0x140), (3, cm 0x141), (4, 0x10040), (5, 0x11040), (6, 7)] with mem := memWrite [] 0x3E0000000140 [7, 0, 0, 0, 0, 0, 0, 0] }

theorem witness_homeReadsBack :
    Memory.wf addrs.mem = true ∧ addrs.region 0x10000 ≠ .unbacked ∧ addrs.region 0x1003F ≠ .unbacked ∧
    scaleRange addrs.ranges 0x10000 = none ∧ find addrs.scales 0x10000 = none ∧ addrs.areaOf 0x10000 = none ∧ addrs.areaOf 0x1003F = none ∧
    addrs.scales = [] ∧ (addrs.sameSet 0x10000 addrs.ways).length < setWays ∧
    (([(0x3E, 1), (0x3F, 2)] : List (Nat × Byte)).map Prod.fst).Nodup ∧ 0x10000 % 64 + 0x3F < 64 := by decide +kernel

/-- An access of s in that it resolves to a place that answers at once. -/
def served (s : State) (va : Word) (kind : Access) (n : Nat) (p : Place) : Bool :=
  isOk (s.resolve va kind) fun r => decide (r.1 = p) && (r.2.placeBad r.2.curCore p n).isNone && (r.2.fillBad r.2.curCore p).isNone
    && (r.2.placeStuck r.2.curCore p n).isNone && !r.2.mustWait p n

/-- The package with a port by which package 7 is reached. -/
def routed (s : State) : State := { s with memberTable := [(7, 1)], ports := [(0, { up := true, lanes := 8 })] }

/-- A plain store, one to another hamlet, a release at HAMLET scope, two of them at the end of their line, and an ordered store off its
size. -/
theorem witness_storeCompletes :
    let rel := { ctl with ord := 2, scope := 1 }
    let o := op 6 2 0
    let r := ext 0x30 0x10 0x38 rel
    let m := ext 0x30 0x18 0 rel
    acts addrs (.st o .n64) [scLoc o o.a, rsLoc o o.d 8] = true ∧ (ordOf o).1 = 0 ∧ (addrs.entered o).queueGone = true ∧
    (addrs.entered o).myCore.replay.length ≤ 32 ∧ served addrs (addrs.ea o 8) .write 8 (.near 0x3E0000000140) = true ∧
    (let w : Write := { place := .near 0x3E0000000140, bytes := offsets (bytesOf 8 7) }
     (addrs.entered o).writeStuck w (noL1 o) false = none ∧ (addrs.entered o).storeHeld w.place 8 (noL1 o) false = false ∧
      (addrs.entered o).countsFull [w.place] (noL1 o) false = false) ∧
    (let f := op 6 5 0
     let w : Write := { place := .far 0x3E0000201040 false, bytes := offsets (bytesOf 8 7) }
     acts addrs (.st f .n64) [scLoc f f.a, rsLoc f f.d 8] = true ∧ served addrs (addrs.ea f 8) .write 8 w.place = true ∧
      (addrs.entered f).writeStuck w (noL1 f) false = none ∧ (addrs.entered f).storeHeld w.place 8 (noL1 f) false = false ∧
      (addrs.entered f).countsFull [w.place] (noL1 f) false = false) ∧ (routed addrs).deadPeer 7 = false ∧ (7 : BitVec 20) ≠ addrs.pkgid ∧
    acts addrs (.st r .n64) [scLoc r r.a, rsLoc r r.d 8] = true ∧ (ordOf r).1 = 2 ∧ Scope.wide (ordOf r).2 = false ∧
    served addrs (addrs.ea r 8) .write 8 (.near 0x3E0000000178) = true ∧ (addrs.entered r).releaseReady (ordOf r).2 false = true ∧
    (addrs.ea r 8).toNat % 8 = 0 ∧ (addrs.ea r 8).toNat % 64 + 8 = 64 ∧
    served (addrs.orderedBy 2 .hamlet) (addrs.ea r 8) .write 8 (.near 0x3E0000000178) = true ∧
    acts addrs (.st m .n64) [scLoc m m.a, rsLoc m m.d 8] = true ∧ (ordOf m).1 ≠ 0 ∧ (addrs.ea m 8).toNat % 8 ≠ 0 := by decide +kernel

/-- A stash window of core 0: the page 0x13000 in the stash's first page. -/
def winDesc : BitVec 128 := 0x13 <<< 83
def windowed : State :=
  { with' [(2, cm 0x140), (3, cm 0x141), (4, 0x10040), (5, 0x13040)] with
    cores := [(0, { ((with' [(2, cm 0x140), (3, cm 0x141), (4, 0x10040), (5, 0x13040)]).core 0) with tlb := [page 0x10000 0x10000 0, page 0x13000 0x13000 0] })]
    hamlets := [(0, { windows := [{ desc := winDesc }] })] }
theorem witness_lineControlCompletes :
    let s := windowed
    (s.entered (op 0 2 0)).locsFault [scLoc (op 0 2 0) 2] = none ∧
    s.goes (.zline (op 0 2 0)) (op 0 2 0) = true ∧ (s.ea (op 0 2 0) 64).toNat % 64 = 0 ∧ s.queueGone = true ∧
    served s (s.ea (op 0 2 0) 64) .write 64 (.near 0x3E0000000140) = true ∧ (s.ea (op 0 3 0) 64).toNat % 64 ≠ 0 ∧
    s.goes (.pref (op 0 4 0) .l1) (op 0 4 0) = true ∧ served s (lineVa (s.ea (op 0 4 0) 64)) .read 64 (.global 0x10040 false) = true ∧
    (s.region 0x10040).global = true ∧ isOk (s.resolve (lineVa (s.ea (op 0 1 0) 64)) .read) (fun _ => true) = false ∧
    s.goes (.stash (op 0 4 0) true) (op 0 4 0) = true ∧ canonical (lineVa (s.ea (op 0 4 0) 64)) = true ∧
    winOf s.myHam.windows (lineVa (s.ea (op 0 4 0) 64)) = none ∧
    s.goes (.stash (op 0 5 0) false) (op 0 5 0) = true ∧ winOf s.myHam.windows (lineVa (s.ea (op 0 5 0) 64)) = some winDesc ∧
    served s (lineVa (s.ea (op 0 5 0) 64)) .read 64 (.window 0x3D0000000040 0x13040 winDesc) = true ∧
    s.goes (.flush (op 0 4 0) true) (op 0 4 0) = true ∧ served s (lineVa (s.ea (op 0 4 0) 64)) .data 64 (.global 0x10040 false) = true := by
  decide +kernel

theorem witness_orderingCompletes :
    let s := addrs
    s.goes (.fence (op 0 0 0) .pkg .sc) (op 0 0 0) = true ∧ s.me.returned = true ∧ s.releaseReady .pkg true = true ∧
    s.goes (.waitc (op 0 0 0) 3) (op 0 0 0) = true ∧ (s.me.c1 = 0 ∧ s.me.c2 = 0 ∧ s.me.c3 = 0) ∧ s.me.count 3 = 0 ∧
    (base { c3 := 1 }).goes (.waitc (op 0 0 0) 0) (op 0 0 0) = true ∧ (base { c3 := 1 }).me.c3 ≠ 0 ∧ (base { c3 := 1 }).me.count 3 ≠ 0 ∧
    acts s (.waita (op 6 2 0) true) [scLoc (op 6 2 0) 2, scLoc (op 6 2 0) 6] = true ∧ (s.ea (op 6 3 0) 8).toNat % 8 ≠ 0 ∧
    (s.ea (op 6 2 0) 8).toNat % 8 = 0 ∧ s.queued (s.ea (op 6 2 0) 8) 8 = none ∧
    served s (s.ea (op 6 2 0) 8) .read 8 (.near 0x3E0000000140) = true ∧ (s.readPlace 0 (.near 0x3E0000000140) 8 false).1 = [7, 0, 0, 0, 0, 0, 0, 0] ∧
    s.scOp (op 6 2 0) 6 = 7 ∧ s.scOp (op 5 2 0) 5 ≠ 7 := by decide +kernel

theorem witness_releaseAndAcquire : Scope.wide .hamlet = false ∧ Scope.wide .pkg = true := by decide

/-- A line that the hamlet holds, one that it does not. -/
def holding : State := { with' [] with hamlets := [(0, { lines := [(0x10040, { data := 5, dirty := 1 })] })] }
theorem witness_placesReadAsTheyStand :
    holding.region 0x10000 ≠ .unbacked ∧ holding.flight = [] ∧ (([(63, 1)] : List (Nat × Byte)).map Prod.fst).Nodup ∧ 0x10000 % 64 + 63 < 64 ∧
    (find (holding.ham 0).lines (0x1007F / 64 * 64)).isSome = true ∧ find (holding.ham 0).lines (0x10080 / 64 * 64) = none ∧
    (holding.region 0x10080).global = true := by decide +kernel

theorem witness_loadCompletes :
    let o := op 6 2 0
    let a := ext 0x30 0x10 0x38 { ctl with ord := 1, scope := 2 }
    let m := ext 0x30 0x18 0 { ctl with ord := 1 }
    let f := op 6 5 0
    acts addrs (.ld o .i8) [scLoc o o.a, rsLoc o o.d 8] = true ∧ (ordOf o).1 = 0 ∧ addrs.queued (addrs.ea o 1) 1 = none ∧
    served addrs (addrs.ea o 1) .read 1 (.near 0x3E0000000140) = true ∧
    acts addrs (.ld a .n64) [scLoc a a.a, rsLoc a a.d 8] = true ∧ (ordOf a).1 = 1 ∧ (addrs.ea a 8).toNat % 64 + 8 = 64 ∧
    served addrs (addrs.ea a 8) .read 8 (.near 0x3E0000000178) = true ∧
    acts addrs (.ld m .n64) [scLoc m m.a, rsLoc m m.d 8] = true ∧ (ordOf m).1 ≠ 0 ∧ (addrs.ea m 8).toNat % 8 ≠ 0 ∧
    acts addrs (.ld f .n64) [scLoc f f.a, rsLoc f f.d 8] = true ∧ (addrs.ea f 8).toNat % 64 + 8 ≤ 64 ∧
    served addrs (addrs.ea f 8) .read 8 (.far 0x3E0000201040) = true := by decide +kernel

/-- The word at s2 is full. -/
def fullWord : State := addrs.setFull 0x3E0000000140 true
theorem witness_fullEmptyWordsComplete :
    let o := op 6 2 0
    let m := op 6 3 0
    acts fullWord (.ldsync o true) [scLoc o o.a, scLoc o o.d] = true ∧ (fullWord.entered o).onHandler = false ∧
    (fullWord.ea m 8).toNat % 8 ≠ 0 ∧ (fullWord.ea o 8).toNat % 8 = 0 ∧ fullWord.queued (fullWord.ea o 8) 8 = none ∧
    served fullWord (fullWord.ea o 8) .read 8 (.near 0x3E0000000140) = true ∧ fullWord.feWord 0x3E0000000140 = true ∧
    fullWord.bad = [] ∧ fullWord.isFull 0x3E0000000140 = true ∧ addrs.isFull 0x3E0000000140 = false ∧
    acts addrs (.stsync o) [scLoc o o.a, scLoc o o.d] = true ∧ addrs.releaseReady (addrs.syncScope o) true = true ∧
    served (addrs.release (addrs.syncScope o)) (addrs.ea o 8) .write 8 (.near 0x3E0000000140) = true ∧
    acts addrs (.feset (op 0 2 0) true) [scLoc o o.a] = true ∧ 0x3E0000000148 / 8 ≠ 0x3E0000000140 / 8 := by decide +kernel

theorem witness_atomicsComplete :
    let o := op 6 2 0
    let g := op 6 4 0
    let m := op 6 3 0
    let q := ext 0x30 0x10 0 { ctl with ord := 3, scope := 1 }
    (ordOf o).1 = 0 ∧ ((ordOf q).1 = 3 ∧ (addrs.entered q).releaseReady (ordOf q).2 false = true) ∧
    acts addrs (.amo o .add) [scLoc o o.a, scLoc o o.d] = true ∧ acts addrs (.amo q .fadd64) [scLoc q q.a, scLoc q q.d] = true ∧
    acts addrs (.cas o .d8) [scLoc o o.a, rsLoc o o.d 16] = true ∧ acts addrs (.cas (op 60 2 0) .pair) [scLoc o o.a, rsLoc (op 60 2 0) 60 32] = true ∧
    (addrs.ea m 8).toNat % 8 ≠ 0 ∧ (addrs.ea o 8).toNat % 8 = 0 ∧ addrs.queued (addrs.ea o 8) 8 = none ∧
    served addrs (addrs.ea o 8) .atomic 8 (.near 0x3E0000000140) = true ∧ acts addrs (.amo g .add) [scLoc g g.a, scLoc g g.d] = true ∧
    served addrs (addrs.ea g 8) .atomic 8 (.global 0x10040 false) = true ∧
    acts addrs (.red o .add32) [scLoc o o.a, scLoc o o.d] = true ∧ addrs.queueGone = true ∧ acts addrs (.red g .min) [scLoc g g.a, scLoc g g.d] = true ∧
    addrs.countFull (addrs.postCount 0x10040) = false := by decide +kernel

/-- A vector instruction may act: its checks of views hold, and its views are in order. -/
def lanesReady (s : State) (i : Instr) (fs : State → Ops → List (Option (BitVec 6 × Word))) : Bool :=
  match opsOf i with
  | some o => s.goesVec i o (fun q => rmFits o (q.vec o o.d).etype) && (fs (s.entered o) o).all Option.isNone
  | none => false

def threes (ok : Bool) (u : State) (o : Ops) : List (Option (BitVec 6 × Word)) := u.threeFaults (u.three o) ok
def twos (ok : Bool) (u : State) (o : Ops) : List (Option (BitVec 6 × Word)) := u.twoFaults (u.three o) ok

/-- Views v1 and v2 of bytes and v3 of 32-bit integers. -/
def dots : State := base { store := [(8, rowOfWords [0, view 0x500 1, view 0x540 5, view 0x580 3])] }

/-- Each vector instruction on lanes of FP32, of FP64 or of integers. -/
theorem witness_vectorArithmeticCompletes :
    let o := op 3 1 2
    let f := vstate 11 []
    let n := vstate 7 []
    lanesReady f (.vadd o true) (threes true) = true ∧ lanesReady n (.vadd o true) (threes true) = true ∧ lanesReady (vstate 12 []) (.vmul o) (threes true) = true ∧
    lanesReady f (.vfma o .nm) (threes true) = true ∧ lanesReady f (.vdiv o false) (threes true) = true ∧
    lanesReady f (.vdiv (op 3 1 0) true) (twos true) = true ∧ lanesReady n (.vminmax o true) (threes true) = true ∧
    lanesReady n (.vlogic o .rot) (threes true) = true ∧ (!logicShifts .rot || isInt 7) = true ∧ lanesReady f (.vsel o) (threes true) = true ∧
    lanesReady n (.vperm o .idx) (threes true) = true ∧ (isInt 7 && decide (widthOf 7 ≤ 32)) = true ∧
    lanesReady f (.vperm o .rotl) (fun u o => twos true u o ++ [u.locFault (scLoc o o.b)]) = true ∧ lanesReady f (.vperm o .ilo) (threes true) = true ∧
    lanesReady f (.vperm o .ihi) (threes true) = true ∧
    lanesReady f (.vbcast (op 3 0 63) false) (fun u o => [u.vecFault (u.three o).d true, u.locFault (scLoc o o.b)]) = true ∧
    lanesReady f (.vbcast (op 3 1 0) true) (twos true) = true ∧ lanesReady f (.vpackm (op 3 1 7)) (twos true) = true ∧
    lanesReady f (.vexpm (op 3 1 7)) (twos true) = true ∧
    lanesReady dots (.vdot o) (fun u o => [u.vecFault (u.three o).a true, u.vecFault (u.three o).b true, u.vecFault (u.three o).d (dotOk 3 1 5)]) = true ∧
    lanesReady f (.vmath (op 3 1 0) .log2) (twos true) = true ∧ lanesReady f (.vscan (op 3 1 0)) (twos true) = true ∧
    lanesReady n (.vscan (op 3 1 0)) (twos true) = true ∧ isFloat 7 = false ∧
    lanesReady f (.vcmp (op 7 1 2) .un) (fun u o => [u.vecFault (u.three o).a true, u.vecFault (u.three o).b true]) = true ∧
    lanesReady n (.vred (op 63 1 0) .sum) (fun u o => [u.vecFault (u.three o).a true, u.locFault (scLoc o o.d)]) = true := by decide +kernel

/-- Rows in the own commons: s2 a line, s3 off a line, s4 a stride, and an index row. -/
def rows : State := base { store := [(0, rowOfWords [0, 0, cm 0x200, cm 0x208, 16]), (8, rowOfWords [0, view 0x500 11, view 0x540 7, view 0x580 11])] }
theorem witness_vectorMemoryCompletes :
    let l := op 1 2 0
    let r := ext 0x501 0x10 0 { ctl with ord := 2, scope := 1 }
    let m := ext 0x501 0x18 0 { ctl with ord := 1, scope := 1 }
    let st := op 1 2 4
    let g := op 1 2 2
    lanesReady rows (.vld l false) (fun u o => [u.locFault (scLoc o o.a), u.vecFault (u.vec o o.d) true]) = true ∧
    lanesReady rows (.vst r false) (fun u o => [u.locFault (scLoc o o.a), u.vecFault (u.vec o o.d) true]) = true ∧
    (ordOf r).1 = 2 ∧ (rows.entered r).releaseReady (ordOf r).2 false = true ∧
    (rows.ea l 64).toNat % 64 = 0 ∧ commonsAt (rows.ea l 64) 64 = true ∧ (rows.ea m 64).toNat % 64 ≠ 0 ∧ (ordOf m).1 ≠ 0 ∧
    rows.goesVec (.vld m false) m (fun _ => true) = true ∧
    lanesReady rows (.vst st true) (fun u o => [u.locFault (scLoc o o.a), u.vecFault (u.vec o o.d) true, u.locFault (scLoc o o.b)]) = true ∧
    lanesReady rows (.vgather g) (fun u o => [u.locFault (scLoc o o.a), u.vecFault (u.vec o o.d) true,
      u.vecFault (u.vec o o.b) (isInt (u.vec o o.b).etype && decide (widthOf (u.vec o o.b).etype ≤ 32))]) = true ∧
    lanesReady rows (.vscatter g) (fun u o => [u.locFault (scLoc o o.a), u.vecFault (u.vec o o.d) true]) = true ∧
    rows.curCore < 2048 ∧ rows.queueGone = true ∧ rows.bad = [] ∧ commonsAt (cm 0x200) 4 = true ∧ commonsAt (cm 0xEFFFC) 4 = true := by decide +kernel

/-- Descriptors of the worked examples under R258 and R259 in s8 to s10, with a scale that R101 forbids in s10. -/
def convs (e f : Nat) (desc : Word) : State :=
  base { store := [(1, rowOfWords [desc, 0xA2023000 ||| (0x3F800000 <<< 32), 0xA2023000 ||| (0x7F800000 <<< 32)]), (8, rowOfWords [0, view 0x500 e, view 0x540 f])] }
def bothViews (u : State) (o : Ops) : List (Option (BitVec 6 × Word)) := [u.vecFault (u.vec o o.a) true, u.vecFault (u.vec o o.d) true, u.locFault (scLoc o o.b)]
theorem witness_conversionsComplete :
    let o := op 2 1 8
    let q := op 2 1 9
    let r := op 2 1 10
    lanesReady (convs 11 3 0) (.cvt (op 2 1 0) .i32) bothViews = true ∧ cvtPre (op 2 1 0) .i32 (convs 11 3 0) = true ∧
    lanesReady (convs 11 5 0xC60EB000) (.cvt o .q) bothViews = true ∧ cvtPre o .q (convs 11 5 0xC60EB000) = true ∧
    descValid ((convs 11 5 0xC60EB000).descOf o) = true ∧ descValid ((convs 11 5 0).descOf o) = false ∧ cvtPre o .q (convs 11 5 0) = true ∧
    (convs 5 11 0).goesVec (.cvtw q .f32) q (cvtwPre q .f32) = true ∧ ownOk (.cvtw q .f32) = true ∧
    (bothViews (convs 5 11 0) q).all Option.isNone = true ∧ descValid ((convs 5 11 0).descOf q) = true ∧ fld ((convs 5 11 0).descOf q) 12 11 ≠ 0 ∧
    badScale (((convs 5 11 0).scOp r r.b).extractLsb' 32 32) = true ∧ (convs 5 11 0).goesVec (.cvtw r .f32) r (cvtwPre r .f32) = true ∧
    ((convs 5 11 0).lanes r).getLsbD 15 = true ∧
    badScale (((convs 5 11 0).scOp q q.b).extractLsb' 32 32) = false ∧
    (convs 11 5 0).goesVec (.cvtn q .q) q (cvtnPre q .q) = true ∧ ownOk (.cvtn q .q) = true ∧ cvtnDesc .q ((convs 11 5 0).descOf q) = true ∧
    (bothViews (convs 11 5 0) q).all Option.isNone = true ∧ (convs 11 5 0).vecFault ((convs 11 5 0).vec q 1) (isFloat 11 && decide ((targetOf .q 0xA2023000).width ≤ 32)) = none ∧
    ((List.range (blockOf 0xA2023000)).all fun j =>
      ((convs 11 5 0).locFault { addr := 64 * (0x500 / 64 + j * 32 / 512), bytes := 64, storeOnly := true }).isNone) = true := by decide +kernel

/-- A message of context 0 of core 0 to an address, and the state in which it is on its way. -/
def msg (s : State) (pa : Nat) (b : Body) : Msg :=
  { id := 5, core := 0, ctx := 0, pkg := 0, home := s.homeOf pa, cnt := 0, tag := none, body := b, pc := 0x10000, applied := false }
def flying (m : Msg) : State := { with' [] with flight := [m] }

/-- A handler run that expects a reply, and its message. -/
def amRun : Run := { kind := .message, pkg := 0, core := 0, ctx := 0, reply := true, msg := 5, entry := 0x10000, dst := cm 0x40, root := 0, payload := 7 }
def amState : State :=
  { base {} with cores := [(0, { ctxs := [(4, { status := .running, pc := 0x10000, run := some amRun })] })], curCtx := 4,
                 flight := [{ msg State.reset 0x3E0000000040 (.am 0x3E0000000040 0 0 7) with tag := some 1 }] }
theorem witness_activeMessagesComplete :
    let o := ext 0x200 0x10 0x18
    let l := ext 0x200 0x10 0x18 { ctl with ord := 2, scope := 2 }
    let amLocs := [{ addr := 0x200, bytes := 64, storeOnly := true }, scLoc o o.a, scLoc o o.b]
    acts addrs (.amsend o true) amLocs = true ∧ (addrs.entered o).onHandler = false ∧ (ordOf o).1 = 0 ∧
    served addrs (addrs.scOp o o.a) .data 8 (.near 0x3E0000000140) = true ∧ acts addrs (.amsend l false) amLocs = true ∧
    (ordOf l).1 = 2 ∧ (addrs.entered l).releaseReady (ordOf l).2 false = true ∧
    served (addrs.release .pkg) (addrs.scOp o o.a) .data 8 (.near 0x3E0000000140) = true ∧
    acts amState (.amret (op 8 0 0)) [{ addr := 64, bytes := 64, storeOnly := true }] = true ∧ (amState.entered (op 8 0 0)).onHandler = true ∧
    amState.me.run = some amRun ∧ amRun.kind = .message ∧ amRun.pkg = amState.pkgid ∧ (xfOf (op 8 0 0)).getLsbD 0 = false ∧
    amState.me.returned = true ∧ (amState.flight.find? fun q => q.id = amRun.msg).isSome = true ∧
    addrs.goes (.amret (op 8 0 0)) (op 8 0 0) = true := by decide +kernel

/-- An inbox with a message and one with an escalation; a run one cycle past its budget; a context that stopped. -/
def inboxed (k : RunKind) : State := { State.reset with cores := [(0, { inbox := [{ amRun with kind := k }] })] }
def lateRun : State :=
  { State.reset with cycle := 65536, cores := [(0, { ctxs := [(4, { status := .running, pc := 0x10000, run := some { amRun with begun := true } })] })] }
def stoppedCtx : State := { State.reset with cores := [(0, { ctxs := [(3, { status := .stopped, trapcause := 0x1000 })] })] }
def fencedHam : State := { inboxed .message with hamlets := [(0, { fenced := true })] }
theorem witness_handlerRunEvents :
    ((inboxed .message).ctx 0 4).status = .idle ∧ ((inboxed .message).core 0).inbox = amRun :: [] ∧ ((inboxed .message).ham (hamOf 0)).fenced = false ∧
    amRun.kind = .message ∧ ((inboxed .escalation).core 0).inbox = [{ amRun with kind := .escalation }] ∧
    RunKind.escalation ≠ .message ∧ (fencedHam.ctx 0 4).status = .idle ∧ (fencedHam.ham (hamOf 0)).fenced = true ∧
    (lateRun.ctx 0 4).returned = true ∧
    (lateRun.ctx 0 4).status = .running ∧ (lateRun.ctx 0 4).run = some { amRun with begun := true } ∧
    max (lateRun.core 0).hbudget.toNat 256 < lateRun.cycle.toNat - (lateRun.ctx 0 4).runCycles ∧
    (stoppedCtx.ctx 0 3).status = .stopped ∧ (stoppedCtx.ctx 0 3).parking = none := by decide +kernel

/-- A posted store, an atomic, a load of another hamlet's storage, an answer and an acknowledgement. -/
def storeMsg : Msg := { msg State.reset 0x10000 (.store 0x10000 [(63, 1)] false) with cnt := 1 }
def atomMsg : Msg := { msg State.reset 0x10000 (.atomic 0x10000 (.amo .add 1)) with tag := some 3 }
def loadMsg : Msg := { msg State.reset 0x3E00001FFFF8 (.load 0x3E00001FFFF8 8 false) with tag := some 3 }
def replyMsg : Msg := { msg State.reset 0x10000 (.reply 9 0) with tag := some 3, applied := true }
def ackMsg : Msg := { storeMsg with applied := true }
def switching : State := base { hold := .switch, results := [varResult []] }
theorem witness_messageEvents :
    (flying storeMsg).waiting 5 = some storeMsg ∧ storeMsg.home < 64 ∧ (flying storeMsg).overtakes storeMsg = false ∧
    (flying storeMsg).forwarded 0x10000 = 0x10000 ∧ (flying storeMsg).region 0x10000 ≠ .unbacked ∧
    storeMsg.body = .store 0x10000 [(63, 1)] false ∧ (flying atomMsg).waiting 5 = some atomMsg ∧ atomMsg.home < 64 ∧
    (flying atomMsg).overtakes atomMsg = false ∧ atomMsg.body = .atomic 0x10000 (.amo .add 1) ∧
    loadMsg.body = .load 0x3E00001FFFF8 8 false ∧ (flying loadMsg).forwarded 0x3E00001FFFF8 = 0x3E00001FFFF8 ∧
    (flying loadMsg).region 0x3E00001FFFF8 ≠ .unbacked ∧ (flying loadMsg).overtakes loadMsg = false ∧ (flying loadMsg).flight = [loadMsg] ∧
    loadMsg.applied = false ∧ loadMsg.pkg = (flying loadMsg).pkgid ∧ 64 ≤ loadMsg.home ∧ loadMsg.home < 320 ∧ (flying loadMsg).homeCore 0x3E00001FFFF8 = 7 ∧
    (flying replyMsg).flight.find? (fun q => q.id = 5 && q.applied) = some replyMsg ∧ replyMsg.body = .reply 9 0 ∧ replyMsg.tag = some 3 ∧
    replyMsg.cnt = 0 ∧ ((flying replyMsg).core 0).copies = [] ∧
    (flying ackMsg).flight.find? (fun q => q.id = 5) = some ackMsg ∧ ackMsg.applied = true ∧ ackMsg.tag = none ∧ ackMsg.cnt = 1 ∧
    (switching.ctx 0 0).hold = .switch ∧ (switching.ctx 0 0).returned = true ∧ (switching.ctx 0 0).acqAfter = none ∧
    ((base { hold := .wait }).ctx 0 0).hold = .wait := by decide +kernel

/-- A range with a scale window of 33 words at 0x20000 whose codes lie at 0x30000, and the words of 1.0 in its last line. -/
def windowRange : BitVec 256 := BitVec.ofNat 256 (2 ^ 46 + 0x20000 * 2 ^ 64 + 0x30000 * 2 ^ 128 + 33 * 2 ^ 192 + 2 * 2 ^ 235)
def ones : Row := rowOfWords (List.replicate 8 0x3F8000003F800000)
def scaled : State := { State.reset with ranges := [(3, windowRange)], scales := [(0x20080, ones)] }

/-- A shared GiB of CXL port 7, a row for the commons, a held fault record, a store in the replay queue, a page that has moved. -/
def sharedCxl : State := { State.reset with hub := { State.reset.hub with cxl := [(7, 768)], shared := [0x5C00] } }
def mcastMsg : Msg := msg State.reset 0x3E0000000100 (.store 0x3E0000000100 [(0, 1)] true)
def heldRecord : State := { State.reset with hub := { State.reset.hub with heldFaults := [7], fqTail := 16383 } }
def held1 : Replay :=
  { ctx := 0, va := cm 0x178, root := 0, priv := .kernel, body := .store 0 [(0, 1), (7, 2)] false, handle := 0, refused := none }
def replaying : State := { base {} with cores := [(0, { (base {}).core 0 with replay := [held1] })] }
def moved : State := { flying { msg State.reset 0x10000 (.load 0x10000 8 false) with tag := some 1 } with forwards := [(0x10, 0x20)] }
theorem witness_memoryEvents :
    (0x1003F / 64 * 64 = 0x10000 ∧ Memory.wf holding.mem = true ∧ (holding.region 0x10000).global = true ∧
      (List.range 64).all (fun i => decide (holding.region (0x10000 + i) = holding.region 0x10000)) = true ∧
      scaleRange holding.ranges 0x10000 = none ∧ find holding.scales 0x10000 = none) ∧
    (scaleRange scaled.ranges 0x20000 = some (windowRange, 0) ∧ scaleRange scaled.ranges 0x20080 = some (windowRange, 2) ∧
      find scaled.scales 0x20080 = some ones ∧ (List.range 16).all (fun i => decide (e8m0Encode (ones.extractLsb' (32 * i) 32) ≠ 0xFF)) = true) ∧
    (canonical 0x10000 = true ∧ localWindow 0x10000 = false ∧
      isOk ((with' []).translateLeaf 0 ((with' []).ctx 0 0).tblroot 0x10000 true) (fun _ => true) = true) ∧
    (sharedCxl.region 0x170000000000 = .cxl 7 ∧ sharedCxl.hub.shared.contains (0x170000000000 / 2 ^ 30) = true) ∧
    ((flying mcastMsg).waiting 5 = some mcastMsg ∧ (flying mcastMsg).overtakes mcastMsg = false ∧
      (flying mcastMsg).forwarded 0x3E0000000100 = 0x3E0000000100 ∧ (flying mcastMsg).region 0x3E0000000100 ≠ .unbacked ∧
      (flying mcastMsg).feWord 0x3E0000000100 = true) ∧
    (Memory.wf heldRecord.mem = true ∧ heldRecord.hub.heldFaults = 7 :: [] ∧ (heldRecord.hub.fqTail - heldRecord.hub.fqHead).toNat ≠ 16384) ∧
    ((replaying.core 0).replay = held1 :: [] ∧ held1.handle = 0 ∧ held1.refused = none ∧
      held1.body = .store 0 [(0, 1), (7, 2)] false ∧ held1.va.toNat % 64 + held1.body.span ≤ 64 ∧
      isOk ((replaying.as 0 0).resolveFor 0 0 held1.root held1.priv held1.va .write) (fun r => decide (r.1 = .near 0x3E0000000178)) = true) ∧
    (0x10 : BitVec 34) ≠ 0x20 ∧
    ((moved.waiting 5).map Msg.body = some (.load 0x10000 8 false) ∧ moved.forwarded 0x10000 ≠ 0x10000) := by decide +kernel

/-- A view of a tile or of accumulators (07 R184). -/
def tview (b e rows cols pitch : Nat) : Word :=
  BitVec.ofNat 64 (b + e * 2 ^ 16 + (rows - 1) * 2 ^ 32 + (cols - 1) * 2 ^ 40 + pitch * 2 ^ 48)

/-- A memory descriptor of FP32 rows in the own commons (10 R264). -/
def mdesc (rows cols : Nat) : Nat :=
  (cm 0x1000).toNat + 2 ^ 64 + 4 * 2 ^ 80 + (cols - 1) * 2 ^ 96 + (rows - 1) * 2 ^ 108 + 0xB * 2 ^ 124

/-- The store of a context that uses the mill: descriptors in s20 to s31, tile views t1 to t4, accumulator view a0. -/
def millStore : Map Row :=
  [(2, rowOfWords [0, 0, 0, 0, BitVec.ofNat 64 (mdesc 96 64), BitVec.ofNat 64 (mdesc 96 64 / 2 ^ 64), cm 0x2000, 1 <<< 32]),
   (3, rowOfWords [cm 0x3000, 1 <<< 32, 0, 0, cm 0x4000, cm 0x5000, cm 0x6000, 1 <<< 24]),
   (10, rowOfWords [0, tview 0x500 0xB 2 8 4, tview 0x600 0xB 8 8 4, tview 0x700 0 2 8 1, tview 0x740 0 8 8 1]),
   (11, rowOfWords [tview 0x4000 0xB 2 8 48])]

/-- A mill that the context owns, with a queue. -/
def milled (q : List MillCmd) : State :=
  { base {} with cores := [(0, { ctxs := [(0, { status := .running, pc := 0x10000, store := millStore, strand := some {} })],
                                 mill := { owned := true, queue := q } })] }
def cmdOf (i : Instr) : MillCmd := (milled []).capture i

theorem witness_millCommandsQueue :
    let s := milled []
    let full := milled [cmdOf (.aswap (op 0 0 0)), cmdOf (.aswap (op 0 0 0))]
    let o := op 0 1 2
    let p := ext 0x4000 0x501 0x602 { ctl with xf := 0x8C }
    (s.goes (.mmul o .split) o = true ∧ s.millFree = true ∧ full.goes (.mmul o .split) o = true ∧ full.ownsMill = true ∧
      2 ≤ full.myCore.mill.queue.length) ∧
    (let a := s.mulOp o o.a 0; let b := s.mulOp o o.b 1; let d := s.view o 2 o.d;
      (mulClass a.etype b.etype 0).any (fun cl => decide (accFaults d cl a.rows b.cols = []) && decide (s.opFaults (.mmul o .split) a cl.fa.width (piecesA 1) = []) &&
        decide (s.opFaults (.mmul o .split) b cl.fb.width (piecesB 1) = [])) = true ∧
      (xfOf o).getLsbD 0 = false ∧ a.etype ≠ 0xE ∧ b.rows = a.cols ∧ a.rows ≤ 96 ∧ b.cols ≤ 96) ∧
    (s.goes (.mspb p .split) p = true ∧ (xfOf p).getLsbD 0 = false ∧ (s.tileView 3).rows = 2 ∧ tileFaults (s.tileView 3) 1 s.storeEnd = [] ∧
      fld (xfOf p) 4 2 = 3 ∧ fld (xfOf p) 7 5 = 4 ∧ (s.tileView 4).rows = 8 ∧ tileFaults (s.tileView 4) 1 s.storeEnd = [] ∧
      accFaults (s.view p 2 p.d) { win := 80, int := false, f64 := false, acc := 0xB, group := 8, fa := .f32, fb := .f32 } 2 8 = []) ∧
    (let q := op 0 20 0; let d := memDesc (BitVec.ofNat 128 (s.rs (scAddr q 20) 16));
      s.goes (.mscl q true) q = true ∧ s.locFault (descLoc q 20 16) = none ∧ d.etype = 0xB ∧ d.rows = 96 ∧ d.cols = 64 ∧
      s.descFaults (.mscl q true) d 32 (piecesB 1) = []) ∧
    (let j := op 22 24 22; s.goes (.join j) j = true ∧ s.locFault (descLoc j 22 16) = none ∧ s.locFault (descLoc j 24 16) = none ∧
      s.fiberFaults (.join j) (BitVec.ofNat 128 (s.rs (scAddr j 22) 16)) = [] ∧ s.fiberFaults (.join j) (BitVec.ofNat 128 (s.rs (scAddr j 24) 16)) = []) ∧
    (let r := op 28 0 0; let d : BitVec 256 := BitVec.ofNat 256 (s.rs (scAddr r 28) 32);
      s.goes (.jdrainResume r) r = true ∧ s.locFault (descLoc r 28 32) = none ∧ d.extractLsb' 240 16 = 0 ∧ d.extractLsb' 216 24 ≠ 0 ∧
      d.extractLsb' 0 2 = 0 ∧ d.extractLsb' 64 2 = 0 ∧ d.extractLsb' 128 2 = 0) ∧
    (s.goes (.azero (op 0 0 0)) (op 0 0 0) = true ∧ s.goes (.aswap (op 0 0 0)) (op 0 0 0) = true ∧ s.me.results = [] ∧
      (with' []).goes (.azeroVis (op 0 0 0)) (op 0 0 0) = true ∧ (with' []).ownsMill = false) := by decide +kernel

/-- Mills: with no owner, of another context, with a pending trap; a gang's leader that waits for its follower. -/
def freeMill : State := with' [(6, 0x03)]
def taken (k : Nat) (pend : BitVec 6) : State :=
  { freeMill with cores := [(0, { freeMill.core 0 with mill := { owned := true, owner := k, pend := pend } })] }
def leading (h : Hold) : State :=
  { freeMill with cores := [(0, { ctxs := [(0, { status := .running, pc := 0x10000, strand := some {}, grank := grankOf 2 0, hold := h })],
                                  mill := { owned := true, gang := true } }),
                            (1, { ctxs := [(0, { status := .following, strand := some {}, grank := grankOf 2 1, lead := 0 })],
                                  mill := { owned := true, gang := true } })] }
/-- GANG .lead at the pc of a context that holds. -/
def claiming (free : Bool) : State :=
  let s := prog [0x00060288]
  { s with cores := [(0, { ctxs := [(0, { s.ctx 0 0 with hold := .wait, store := regs [(6, 3)] })], mill := { owned := true } }),
                     (1, { mill := { owned := !free, owner := 2 } })] }
/-- What a state must meet for the claim of core 0 to be made, or not to be made. -/
def leadsTo (s : State) (free : Bool) : Bool :=
  match s.nextOf 0 0 with
  | some (.gangLead o, w) =>
    let e := w.entered o
    let ds := gangCores e.curCore ((e.scOp o o.a).setWidth 8)
    w.goes (.gangLead o) o && decide (e.locsFault [scLoc o o.a] = none) && (e.scOp o o.a).getLsbD (e.curCore % 8) && decide (ds ≠ [])
      && e.ownsMill && (e.mayClaim ds == free) && got (exec (.gangClaim 0 0) s) fun v => (v.ctx 0 0).inGang == free
  | _ => false
theorem witness_millControlAndGangsComplete :
    let o := op 0 6 0
    let z := op 0 0 0
    (acts freeMill (.mfmt o) [scLoc o 6] = true ∧ freeMill.onHandler = false ∧ freeMill.myCore.mill.owned = false) ∧
    (acts (taken 0 0) (.mfmt o) [scLoc o 6] = true ∧ (taken 0 0).myCore.mill.owner = (taken 0 0).curCtx ∧
      (taken 3 0).goes (.mfmt o) o = true ∧ (taken 3 0).myCore.mill.owner ≠ (taken 3 0).curCtx) ∧
    (onHandler.goes (.mfmt o) o = true ∧ (onHandler.entered o).onHandler = true) ∧
    ((taken 0 0).goes (.mfmtRel z) z = true ∧ (taken 0 0).millQuiet = true ∧ (taken 0 0).goes (.mwait z) z = true ∧
      (milled [cmdOf (.aswap z)]).goes (.mwait z) z = true ∧ (cmdOf (.aswap z)).ctx = 0 ∧
      (taken 0 0x0F).goes (.mwait z) z = true ∧ ((taken 0 0x0F).me.strand.map Strand.pend) = some 0 ∧ (taken 0 0x0F).myCore.mill.pend ≠ 0 ∧
      (taken 0 0x0F).ownsMill = true ∧ (taken 0 0x0F).myCore.mill.queue = [] ∧ (taken 0 0x0F).me.returned = true) ∧
    (let cs := gangCores 0 3;
      acts (taken 0 0) (.gangLead o) [scLoc o 6] = true ∧ (taken 0 0).me.inGang = false ∧ ((taken 0 0).scOp o 6).getLsbD 0 = true ∧
      cs = [1] ∧ (taken 0 0).ownsMill = true ∧ (taken 0 0).mayClaim cs = true ∧ ((taken 0 0).idleCtx 1) = some 0 ∧
      (let t := (taken 0 0).setMill 1 { owned := true, owner := 2 }; t.goes (.gangLead o) o = true ∧ t.mayClaim cs = false)) ∧
    ((taken 0 0).goes (.gangFollow z) z = true ∧ (taken 0 0).me.leads = false ∧ (leading .none).goes (.gangFollow z) z = true ∧
      (leading .none).me.leads = true ∧ (leading .none).me.hold ≠ .gang ∧ (leading .none).millQuiet = true ∧
      (leading .gang).goes (.gangLeave z) z = true ∧ (leading .gang).me.leads = true ∧ (leading .gang).me.hold = .gang ∧
      (leading .gang).goes (.gangFollow z) z = true) ∧
    ((claiming true).ctx 0 0).hold = .wait ∧ leadsTo (claiming true) true = true ∧ leadsTo (claiming false) false = true ∧
    ((taken 0 0).ctx 0 0).hold ≠ .wait := by decide +kernel

/-- 18 R431: a gang of two whose leader's next instruction is a NOP, while its follower is to issue a word that is no instruction:
the follower traps alone, and the leader stays where it is. -/
def trappingGang (w : BitVec 32) : State :=
  let s := prog [w]
  let x := s.ctx 0 0
  { s with cores := [(0, { s.core 0 with ctxs := [(0, { x with grank := grankOf 2 0 })] }),
                     (1, { ctxs := [(0, { status := .following, strand := some {}, grank := grankOf 2 1, lead := 0,
                                          gangq := [{ steps := 1, instr := .unassignedEncoding 0, pc := 0x12340, repstate := 0, map := none }] })] })] }
theorem test_gang_fault_holds_others :
    got (step (trappingGang 0x00000348)) (fun t =>
      (t.ctx 1 0).status = .stopped && (t.ctx 1 0).trappc = 0x12340 && (t.ctx 1 0).gangq.length = 1 && (t.ctx 0 0).pc = cm 0x1000
        && (t.ctx 0 0).status = .running) = true := by decide +kernel

/-- A command of a mill: at the head of the queue and not started, started, and a drain of which the marker's place is not there. -/
def startedCmd (i : Instr) : MillCmd := { cmdOf i with started := true }
def pendMill : State := { milled [cmdOf (.aswap (op 0 0 0))] with cores := [(0, { (milled [cmdOf (.aswap (op 0 0 0))]).core 0 with
  mill := { owned := true, queue := [cmdOf (.aswap (op 0 0 0))], pend := 0x0F, discarded := 7 } })] }
def product : MillCmd := { startedCmd (.mmul (op 0 1 2) .split) with viewD := tview 0x4000 0xB 2 8 48, viewA := tview 0x500 0xB 2 8 4, viewB := tview 0x600 0xB 8 8 4 }
def drainDesc (va : Word) : BitVec 256 := (cm 0x4000).setWidth 256 ||| ((cm 0x5000).setWidth 256 <<< 64) ||| (va.setWidth 256 <<< 128) ||| (1 <<< 216)
def drain (va : Word) : MillCmd := { startedCmd (.jdrain (op 28 0 0)) with descD := drainDesc va }
/-- A mill whose drain is current (DRAINPOS state 1). -/
def draining (va : Word) : State :=
  let s := (milled [drain va]).setDrain 0 (1 <<< 62)
  { s with cores := [(0, { s.core 0 with tlb := ((base {}).core 0).tlb })] }
/-- What a drain comes to: its end, a wait for its writes, or its failure with no trap pending. -/
def drained (r : Drained) : Nat :=
  match r with
  | .nothing => 0
  | .done _ => 1
  | .waits _ _ => 2
  | .fails t _ => if (t.core 0).mill.pend = 0 then 3 else 0
theorem witness_millCommandsRun :
    let z := op 0 0 0
    (let q := cmdOf (.aswap z); let s := milled [q]; let m := (s.core 0).mill;
      m.queue = q :: [] ∧ q.started = false ∧ s.performed 0 q.ctx = true ∧ m.pend = 0 ∧ q.mul = none) ∧
    ((pendMill.core 0).mill.queue = cmdOf (.aswap z) :: [] ∧ pendMill.performed 0 0 = true ∧ (pendMill.core 0).mill.pend ≠ 0) ∧
    ((milled [startedCmd (.aswap z)]).millBad 0 (startedCmd (.aswap z)) = none ∧ (startedCmd (.aswap z)).started = true ∧
      (milled [startedCmd (.azeroVis z)]).millBad 0 (startedCmd (.azeroVis z)) = none ∧ (milled [startedCmd (.azero z)]).millBad 0 (startedCmd (.azero z)) = none) ∧
    (let q := { startedCmd (.mscl (op 0 20 0) true) with descA := BitVec.ofNat 256 (mdesc 96 64) }; (milled [q]).millBad 0 q = none) ∧
    ((milled [product]).millBad 0 product = none ∧ product.mul.isSome = true ∧ ((milled [product]).core 0).mill.multiplying = true ∧
      ((milled []).core 0).mill.multiplying = false) ∧
    ((milled [drain (cm 0x6000)]).millBad 0 (drain (cm 0x6000)) = none ∧
      drained ((draining (cm 0x6000)).drainRun 0 (drain (cm 0x6000))) = 1) ∧
    ((milled [drain 0x12000]).millBad 0 (drain 0x12000) = none ∧
      drained ((routed (draining 0x12000)).drainRun 0 (drain 0x12000)) = 2) ∧
    ((milled [drain 0]).millBad 0 (drain 0) = none ∧ drained ((draining 0).drainRun 0 (drain 0)) = 3) ∧
    (let cl : MulClass := { win := 0, int := true, f64 := false, acc := 0x3, group := 32, fa := intFmt 8, fb := intFmt 8 };
      cl.int = true ∧ cl.f64 = false ∧ ([2147483647, 1] : List Int) ≠ []) := by decide +kernel

/-- A strand with a deque of one core, and a count of its hamlet: entry 7, generation 1. -/
def countHd : BitVec 32 := 0x00100007
def strandOf (synch : BitVec 32) : Strand := { deque := some 0, synch := synch }
def tasks (d : Strand) (l : List Slot) (value : Word) : State :=
  { with' [] with
    cores := [(0, { ctxs := [(0, { status := .running, pc := 0x10000, strand := some d, store := regs [(4, 0x100000), (5, 0x0010000A00000000), (6, 0x20000), (7, 0x20008)] })],
                    deques := [(0, l)] })]
    hamlets := [(0, { futures := [(7, { kind := .count, value := value })] })] }
def rangeSlot : Slot := { item := .frame { kind := 1, arg := 0x000300000A000000, parentj := countHd }, spilled := false, stamp := 4 }
def contSlot (p : Bool) : Slot := { item := .frame { pc := 0x30000, published := p }, spilled := false, stamp := 5 }

theorem witness_tasksComplete :
    let s := tasks (strandOf countHd) [rangeSlot] 1
    let e := tasks (strandOf 0) [] 1
    let o := op 0 6 0
    let r := op 4 5 6
    (s.onHandler = false ∧ s.me.follows = false ∧ s.me.strand = some (strandOf countHd)) ∧
    (acts s (.spawn o) [scLoc o 6] = true ∧ (s.scOp o 6).extractLsb' 0 4 = 0 ∧ (s.scOp (op 0 7 0) 7).extractLsb' 0 4 ≠ 0 ∧
      s.pushFault (strandOf countHd) = none ∧ s.me.returned = true) ∧
    (acts s (.spawnr r) [scLoc r 4, scLoc r 5, scLoc r 6] = true ∧ (s.scOp r 4).extractLsb' 0 4 = 0 ∧ (s.scOp r 6).extractLsb' 0 2 = 0 ∧
      countHd ≠ 0 ∧ s.stale 0 countHd = false ∧ s.releaseReady s.objScope false = true ∧ (s.release s.objScope).objBusy (hdHam countHd) = false ∧
      ((s.release s.objScope).oneMore (strandOf countHd)).isSome = true) ∧
    (acts s (.split (op 8 0 0)) [rsLoc (op 8 0 0) 8 16] = true ∧ acts e (.popf (op 8 0 0)) [rsLoc (op 8 0 0) 8 16] = true ∧
      e.myCore.slotsOf (strandOf 0) = [] ∧ s.myCore.slotsOf (strandOf countHd) = [rangeSlot] ∧ s.donating = false ∧
      rangeSplits 0x000300000A000000 = true ∧ rangeSplits 0x0003000003000000 = false) ∧
    (s.goes (.sync (op 0 0 0)) (op 0 0 0) = true ∧ (strandOf 0).synch = 0 ∧ s.objBusy (hdHam countHd) = false ∧
      0 < (s.future countHd).value.toInt ∧ ((tasks (strandOf countHd) [] 0).future countHd).value.toInt ≤ 0 ∧
      (tasks (strandOf 0x00200007) [] 0).stale 0 0x00200007 = true) ∧
    (s.goes (.publish (op 0 0 0)) (op 0 0 0) = true ∧ s.releaseReady .pkg false = true ∧ ({} : Strand).deque = none) := by decide +kernel

/-- A package whose donation queue 0 has a place for a frame, or none. -/
def donor (cap : Nat) : State := { tasks (strandOf 0) [contSlot true] 2 with hub := { State.reset.hub with donqs := [(0, { cap := cap })] } }
theorem witness_strandEndsAndDonations :
    let s := tasks (strandOf 0) [contSlot false] 2
    let z := op 0 0 0
    let based : Strand := { base := countHd }
    (s.goes (.tend z) z = true ∧ s.me.leads = false ∧ s.millQuiet = true ∧ s.ownsMill = false ∧ s.me.tokens = 0xFF ∧ s.me.marks = [] ∧
      (strandOf 0).synch = 0 ∧ s.myCore.slotsOf (strandOf 0) = [contSlot false] ∧ s.donating = false) ∧
    (s.myCore.slotsOf {} = [] ∧ ({} : Strand).donated = false ∧ ({} : Strand).root = false ∧ ({} : Strand).base = 0 ∧
      (tasks {} [] 2).goes (.tend z) z = true ∧ (tasks {} [] 2).releaseReady .hamlet false = true) ∧
    (based.base ≠ 0 ∧ (tasks based [] 2).stale 0 countHd = false ∧ (tasks based [] 2).releaseReady (tasks based [] 2).objScope false = true ∧
      ((tasks based [] 2).release (tasks based [] 2).objScope).objBusy (hdHam countHd) = false ∧ 1 < ((tasks based [] 2).future countHd).value.toInt) ∧
    (let b := with' [(2, 1 <<< 24)]; acts b (.donate (op 8 2 0)) [scLoc z 2] = true ∧ (b.scOp (op 8 2 0) 2).extractLsb' 24 40 ≠ 0) ∧
    ((with' [(2, 7)]).scOp (op 8 2 0) 2).extractLsb' 0 20 ≠ s.pkgid ∧ (s.release .sys).portMask 7 = 0 ∧
    (acts s (.donate (op 8 0 0)) [scLoc z 0, scLoc z 8] = true ∧ (s.scOp (op 8 0 0) 0).extractLsb' 24 40 = 0 ∧ s.releaseReady .sys false = true ∧
      openSlot [contSlot false] = none ∧ openSlot [contSlot true] = some 0 ∧ (s.scOp z 0).extractLsb' 0 20 = s.pkgid ∧
      (donor 0).goes (.donate (op 8 0 0)) (op 8 0 0) = true ∧ (donor 1).goes (.donate (op 8 0 0)) (op 8 0 0) = true ∧
      ((donor 1).release .sys).donateCounts { pc := 0x30000, published := true, kind := 1 } ≠ none) := by decide +kernel

/-- A hamlet with entry 7 a future, entry 4032 one of the pager; s2 and s3 their handles, s4 a stale one. -/
def futures (f : Future) : State :=
  { with' [(2, 0x00100007), (3, 0x00100FC0), (4, 0x00200007)] with
    hamlets := [(0, { futures := [(7, f), (4032, { kind := .pager, va := 0x5000 })] })] }
theorem free_entry : ∃ e, (with' []).freeEntry 0 = some e := by
  have h : Config.freeEntry (with' []).free % 4032 < 4032 := Nat.mod_lt _ (by decide)
  refine ⟨Config.freeEntry (with' []).free % 4032, ?_⟩
  have hf : ((with' []).ham 0).futures = [] := by decide +kernel
  simp [State.freeEntry, hf, List.filter_eq_self.2, List.getElem?_range h]
theorem witness_futuresComplete :
    let s := futures { kind := .value, full := true, value := 9 }
    let o := op 8 2 5
    let p := op 8 3 5
    let g := op 8 2 0
    let full : State := { with' [] with hamlets := [(0, { futures := (List.range 4032).map fun i => (i, { kind := .value }) })] }
    (s.onHandler = false ∧ s.me.follows = false ∧ acts (with' []) (.fnewCount g) [scLoc g 2, scLoc g 8] = true ∧
      acts (with' []) (.fnew (op 8 0 0)) [scLoc g 8] = true ∧ full.freeEntry 0 = none ∧ full.goes (.fnew (op 8 0 0)) (op 8 0 0) = true) ∧
    (acts s (.fput o) [scLoc o 2, scLoc o 5, scLoc o 8] = true ∧ pagerEntry (handleIn (s.scOp o 2)) = false ∧ s.stale 0 (handleIn (s.scOp o 2)) = false ∧
      s.releaseReady s.objScope false = true ∧ (s.release s.objScope).objBusy 0 = false ∧
      (acts s (.fput p) [scLoc p 3] = true ∧ pagerEntry (handleIn (s.scOp p 3)) = true ∧ s.me.priv = .kernel) ∧
      s.stale 0 (handleIn (s.scOp (op 8 4 5) 4)) = true) ∧
    (((s.release s.objScope).future countHd).kind = .value ∧ ((s.release s.objScope).future countHd).full = true ∧
      ((futures { kind := .value }).future countHd).full = false ∧ ((futures { kind := .count }).future countHd).kind = .count ∧
      (s.future 0x00100FC0).kind = .pager) ∧
    (acts s (.fget g) [scLoc g 2, scLoc g 8] = true ∧ s.me.answer = none ∧ s.objBusy 0 = false ∧
      ((futures { kind := .count, value := -1 }).future countHd).value.toInt ≤ 0 ∧ acts s (.fgetPoll g) [scLoc g 2, rsLoc g 8 16] = true ∧
      0 < ((futures { kind := .count, value := 1 }).future countHd).value.toInt) ∧
    (acts s (.frel (op 0 2 0)) [scLoc g 2] = true) := by decide +kernel

/-- A hamlet with channel 15 of two slots, and one whose context has been released from its barrier. -/
def chans (n : Nat) : State :=
  { with' [(2, 0), (3, 1)] with hamlets := [(0, { channels := [(15, { size := 64, slots := 2, head := 1, count := n })] })] }
def launch0 : Launch :=
  { seq := 9, hamlets := 1, tblroot := 0, digest := 0, views := 0, peal := BitVec.ofNat 2048 (2 * 2 ^ 768), stashkib := 0, commonskib := 0,
    nframes := 1, tree := [], frames := [], held := [], words := [], total := 0, detection := none, finished := [], cls := 0 }
def launched (l : Launch) (b : Barrier) : State :=
  { with' [] with launches := [l], hamlets := [(0, { seq := some 9, barriers := [(0, b), (8, b)] })] }
theorem witness_barriersAndChannelsComplete :
    let z := op 0 0 0
    let b := base { answer := some { val := 0, page := 0, key := barKey 0 .pkg 3 } }
    let c := op 8 2 0
    (b.goes (.bar z 3 .pkg) z = true ∧ (b.answered (barKey 0 .pkg 3)).isSome = true ∧ (with' []).goes (.bar z 0 .die) z = true ∧
      (with' []).me.answer = none ∧ (with' []).me.parking = none ∧ (with' []).releaseReady .pkg false = true) ∧
    (let s := launched launch0 {}; (s.barrier 0 .hamlet 0).state = .counting ∧ (s.barrier 0 .hamlet 0).count + 1 < expectOf (s.pattern 0) 0 ∧
      (let t := launched launch0 { count := 1 }; (t.barrier 0 .pkg 0).state = .counting ∧ expectOf (t.pattern 0) 0 ≤ (t.barrier 0 .pkg 0).count + 1) ∧
      ((launched launch0 { state := .sent }).barrier 0 .pkg 0).state ≠ .counting) ∧
    ((with' []).goes (.quiesce z) z = true ∧ (with' []).launchOf 0 = none ∧ ((with' []).sums [0]).1 = ((with' []).sums [0]).2 ∧
      (launched launch0 {}).launchOf 0 = some launch0 ∧ launch0.finished.contains (0, 0) = false ∧ launch0.detection = none ∧
      ({ launch0 with finished := [(0, 0)] } : Launch).finished.contains (0, 0) = true) ∧
    (acts (chans 0) (.chrecv c 15) [scLoc c 2] = true ∧ ((chans 0).scOp c 2).toNat < 256 ∧ find ((chans 0).ham 0).channels 14 = none ∧
      (chans 0).inSet 0 1 = false ∧ (chans 0).inSet 0 0 = true ∧ (find ((chans 2).ham 0).channels 15).map Chan.count = some 2 ∧ scAddr c 8 % 64 = 0 ∧
      (chans 0).locsFault [{ addr := 64, bytes := 64, storeOnly := true }] = none ∧ (chans 0).objBusy 0 = false ∧
      (chans 0).releaseReady (chans 0).objScope false = true ∧
      (let k : Chan := { size := 64, slots := 2, head := 1, count := 1 }
       k.slotAt 0 15 0 = 0x3E00000FF040 ∧ k.slotAt 0 15 k.count = 0x3E00000FF000 ∧ (chans 1).listedLine 0x3E00000FF040 = false ∧
        ({ chans 1 with bad := [0x3E00000FF040] } : State).listedLine 0x3E00000FF040 = true)) := by decide +kernel
/-- A channel's slots in its buffer in the commons (05 R130): a value of 8 bytes sent comes out, and the slot of the second goes to the
buffer's start again. -/
theorem test_channel :
    let s := { with' [(2, 0), (8, 0xABCD)] with hamlets := [(0, { channels := [(15, { size := 8, slots := 2, head := 1, count := 0 })] })] }
    let t := ran (.chsend (op 8 2 0) 15) s
    memRead t.mem 0x3E00000FF008 2 = [0xCD, 0xAB] ∧ sreg (ran (.chrecv (op 10 2 0) 15) t) 10 = 0xABCD ∧
      memRead (ran (.chsend (op 8 2 0) 15) t).mem 0x3E00000FF000 2 = [0xCD, 0xAB] := by decide +kernel

/-- SPAWNR and SPLIT on [0, 100) with grain 25 (the worked example under R317), the count held by entry 7. -/
def spawned : State :=
  let s := tasks (strandOf countHd) [] 0
  let s := { s with cores := [(0, { s.myCore with ctxs := [(0, { s.me with store := regs [(4, 0x100000), (5, 0x0019000064000000), (6, 0x20000)] })] })] }
  ran (.spawnr (op 4 5 6)) s
theorem test_spawnr_split :
    let t1 := ran (.split (op 10 0 0)) spawned
    let t2 := ran (.split (op 10 0 0)) (ran (.split (op 10 0 0)) t1)
    ((spawned.future countHd).value = 1) ∧ (sreg t1 10 = 0x0019000032000000 ∧ sreg t1 11 = 0x8000000000100007 ∧ (t1.future countHd).value = 2) ∧
    (sreg t2 10 = 0x001900006400004B ∧ sreg t2 11 = 0x8000000000100007 ∧ (t2.future countHd).value = 3) ∧
    (let t := ran (.split (op 10 0 0)) t2; sreg t 10 = 0 ∧ sreg t 11 = 0) := by decide +kernel

/-- Copies of 64 bytes: a descriptor at s20, one out of its limits at s24, one of no bytes at s28; k3 in the engine. -/
def copyDesc (n : Nat) : Nat := (cm 0x1000).toNat + (cm 0x2000).toNat * 2 ^ 64 + n * 2 ^ 128
def copyStore : Map Row :=
  [(2, BitVec.ofNat 512 (copyDesc 64 * 2 ^ 256)), (3, BitVec.ofNat 512 (copyDesc 64 + 2 ^ 224 + copyDesc 0 * 2 ^ 256))]
def copyIn (st : CopyState) (off : Nat) : Copy :=
  { ctx := 0, tok := 3, desc := BitVec.ofNat 256 (copyDesc 64), form := .plain, scope := .pkg, rm := 1, root := 0, priv := .kernel, off := off, state := st }
def copying (tokens : BitVec 8) (l : List Copy) : State :=
  { with' [] with cores := [(0, { ctxs := [(0, { status := .running, pc := 0x10000, tokens := tokens, store := copyStore, strand := some {} })], copies := l })] }
theorem no_inbox (st : CopyState) : ∀ e, ((copying 0 [copyIn st 0]).core e).inbox = [] ∧ ((copying 0 [copyIn st 0]).ctx e 4).run = none := by
  intro e
  rcases e with _ | e
  · constructor <;> rfl
  · constructor <;> simp [copying, State.core, State.ctx, look]
theorem witness_copiesAndTokensComplete :
    let s := copying 0xFF []
    let o := op 3 20 0
    let i := op 3 24 0
    let n := op 3 28 0
    let loc := fun (o : Ops) => [{ rsLoc o o.a 32 with storeOnly := true }]
    let desc := fun (o : Ops) => (BitVec.ofNat 256 (s.rs (scAddr o o.a) 32) : BitVec 256)
    (acts s (.copy o .plain) (loc o) = true ∧ copyIllegal .plain (desc o) = false ∧ copyMisaligned .plain (desc o) = none ∧
      s.copyFaultOf .plain (desc o) = none ∧ s.me.tokens.getLsbD 3 = true ∧ s.allPerformed = true) ∧
    (acts s (.copy i .plain) (loc i) = true ∧ copyIllegal .plain (desc i) = true) ∧
    (acts s (.copy n .plain) (loc n) = true ∧ copyIllegal .plain (desc n) = false ∧ copyLen (desc n) = 0) ∧
    ((copying 0xF7 []).goes (.copy o .plain) o = true ∧ (copying 0xF7 []).me.tokens.getLsbD 3 = false) ∧
    ((copying 0xF7 []).goes (.waitk (op 0 8 0) false) (op 0 8 0) = true ∧ waitMask (op 0 8 0) &&& (copying 0xF7 []).me.tokens ≠ waitMask (op 0 8 0) ∧
      waitMask (op 0 8 0) &&& s.me.tokens = waitMask (op 0 8 0) ∧ s.me.marks = []) ∧
    acts s (.tokq (op 63 0 0)) [scLoc (op 63 0 0) 63] = true ∧
    ((copying 0 [copyIn .going 64]).copyOf 0 0 3 = some (copyIn .going 64) ∧ copyLen (copyIn .going 64).desc * copyCount .plain (copyIn .going 64).desc ≤ 64) ∧
    ((copying 0 [copyIn .going 0]).copyOf 0 0 3 = some (copyIn .going 0) ∧
      isOk ((copying 0 [copyIn .going 0]).resolveFor 0 0 0 .kernel (copySrc (copyIn .going 0).desc) .read) (fun r => decide (r.1 = .near 0x3E0000001000) &&
        isOk (r.2.resolveFor 0 0 0 .kernel (copyDst (copyIn .going 0).desc) .write) fun q => decide (q.1 = .near 0x3E0000002000 ∧
          q.2.bad = [] ∧ q.2.tainted = [] ∧ q.2.fencedAt 0x3E0000001000 = false ∧ q.2.fencedAt 0x3E0000002000 = false)) = true) ∧
    ((copying 0 [copyIn .reeve 0]).copyOf 0 0 3 = some (copyIn .reeve 0)) := by decide +kernel

/-- A reduction group of core 0, a root with a local contribution, and core 1, its child; a packet and two that combine. -/
def rootNode : Node := { record := BitVec.ofNat 256 (2 ^ 88 + 2 ^ 89 + 0x7FF * 2 ^ 93 + 2 ^ 104) }
def midNode : Node := { record := BitVec.ofNat 256 (2 ^ 88 + 2 ^ 89 + 5 * 2 ^ 93 + 2 ^ 104) }
def packet (x : Row) : Packet := { data := x, leaves := 1, missing := false, narrowed := false, empty := false }
def tree (n : Node) (out : List (BitVec 16 × Packet)) : State :=
  { with' [(2, 63), (3, 64), (4, 0x140), (5, 0x100000)] with cycle := 1048576, hamlets := [(0, { nodes := [(8 * 63, n), (8 * 63 + 1, { record := 1, out := out })] })] }
theorem witness_reductionsComplete :
    let o := op 8 2 0
    let x := op 8 3 0
    let m := op 8 4 2
    let whole : List Loc := [{ addr := 64, bytes := 64, storeOnly := true }]
    let t := fun (n : Node) => tree n []
    (acts (t rootNode) (.redgrpOpen o) [scLoc o 2, scLoc o 8] = true ∧ ((t rootNode).scOp o 2).toNat = 63 ∧ ((t rootNode).scOp x 3).toNat = 64 ∧
      acts (t rootNode) (.redgrpClose x) [scLoc x 3] = true ∧ (t rootNode).onHandler = false ∧ (t rootNode).node 0 62 = none ∧
      (t rootNode).node 0 63 = some rootNode ∧ rootNode.isOpen = false) ∧
    (let n := { rootNode with isOpen := true, done := [7] }; (t n).node 0 63 = some n ∧ n.isOpen = true ∧
      n.done.find? (fun w => w.extractLsb' 48 16 = n.episode) = some 7 ∧ n.isLocal = true ∧ n.contributed = false ∧
      acts (t n) (.redpkt o) (scLoc o 2 :: whole) = true ∧ ({ n with done := [] } : Node).done.find? (fun w => w.extractLsb' 48 16 = n.episode) = none) ∧
    (acts (t rootNode) (.mcast m) ([scLoc m 4, scLoc m 2] ++ whole) = true ∧ ((t rootNode).scOp m 4).toNat % 64 = 0 ∧ ((t rootNode).node 0 63).isSome = true ∧
      ((t rootNode).scOp m 4).toNat < 0x100000 ∧ 0x100000 ≤ ((t rootNode).scOp m 5).toNat ∧
      ((t rootNode).me.count 1).toNat + (((t rootNode).members 0 63).map hamOf).eraseDups.length ≤ 0xFFFF) := by decide +kernel

theorem witness_reductionEvents :
    (let s := tree midNode [(0, packet 5)]; s.node 0 63 = some midNode ∧ midNode.kids.zipIdx.find? (fun d => s.deliverable 63 midNode d.1) = some (1, 0) ∧
      (s.node 1 63).map Node.out = some [(0, packet 5)] ∧ midNode.fwd = 0 ∧ midNode.isRoot = false ∧ midNode.isLocal = true ∧ midNode.cur.own = none ∧
      midNode.cur.flushed = false) ∧
    (let e : Episode := { own := some 3, child := [(0, packet 5)] }; midNode.inputs e = [packet 3, packet 5] ∧ (packet 3).empty = false) ∧
    (let n := { rootNode with notice := [7], flush := [0, 1], cur := { since := some 0 } }; let s := tree n [];
      s.node 0 63 = some n ∧ n.notice = 7 :: [] ∧ n.isRoot = true ∧ n.cur.since = some 0 ∧ n.cur.flushed = false ∧ 0 + redTimeout ≤ s.cycle.toNat ∧
      n.ready { n.cur with flushed := true } = false ∧ 0 ∉ n.kids ∧ n.flush = 0 :: [1] ∧ n.fwd = 0) ∧
    (let n := { rootNode with flush := [1], cur := { since := some 1 } }; n.flush = 1 :: [] ∧ (1 : BitVec 16) ≠ n.fwd ∧
      (tree n []).cycle.toNat < 1 + redTimeout) := by decide +kernel

/-- An idle context 1 of core 0 between busy ones, with its hamlet's launch, and what its core holds. -/
def busy : Ctx := { status := .running, pc := 0x10000, strand := some {} }
def seeker (co : Core) (l : Launch) : State :=
  { State.reset with cores := [(0, { co with ctxs := [(0, busy), (2, busy), (3, busy)] })], launches := [l], hamlets := [(0, { seq := some 9 })] }
def freshWork (p : BitVec 2) : Ready := .fresh { pc := 0x40000, prio := p } 9 []
def rootFrame (waiting : Bool) (x y : Nat) : Rooted :=
  { frame := { pc := 0x40000 }, die := 0, x := x, y := y, radius := 3, atx := 1, aty := 0, waiting := waiting }
def pubSlot : Slot := { item := .frame { pc := 0x30000, published := true, kind := 1 }, spilled := false, stamp := 5 }
def savedStrand : Saved :=
  { ctx := 1, save := cm 0x8000, strand := {}, frame := {}, owned := false, marks := [], gang := false, grank := 0, lead := 0, whole := false, note := none,
    gangq := [], released := true }
def launchWith (l : List Rooted) : Launch := { launch0 with frames := l }
def granted (r : Answered) : Bool := match r with | .granted _ _ _ => true | _ => false
theorem witness_workIsFound :
    (let s := seeker { ready := [freshWork 1, freshWork 3] } launch0; let t := s.findWork 0 1;
      (s.ham 0).fenced = false ∧ (s.ham 0).shut = false ∧ s.stopped = false ∧ (s.ctx 0 1).status = .idle ∧ (s.ctx 0 0).status ≠ .idle ∧
      (t.ctx 0 2).status ≠ .idle ∧ (t.ctx 0 3).status ≠ .idle ∧ s.savedFor 0 1 = none ∧ s.nextReady 0 = some 1 ∧
      (s.core 0).ready[1]? = some (freshWork 3) ∧ s.takeable 0 (freshWork 3) = true ∧ (freshWork 1).prio ≤ (freshWork 3).prio) ∧
    ((seeker { saved := [savedStrand] } launch0).savedFor 0 1 = some savedStrand) ∧
    (let l := launchWith [rootFrame false 4 0, rootFrame true 1 0]; let s := seeker {} l;
      s.savedFor 0 1 = none ∧ s.nextReady 0 = none ∧ s.nextRoot 0 = some (l, 1, rootFrame true 1 0) ∧ s.launchBySeq 9 = some l) ∧
    (let s := seeker { deques := [(0, [pubSlot])] } launch0; s.nextReady 0 = none ∧ s.nextRoot 0 = none ∧ (s.core 0).glean.backedOff = false ∧
      (s.launchOf 0).isSome = true ∧ granted (s.grant 0 0 (featuresWord.setWidth 32)) = true) ∧
    (let r := rootFrame false 2 1; let l := launchWith ([rootFrame true 1 0] ++ r :: []); let s := seeker {} l;
      s.launchBySeq 9 = some l ∧ r.waiting = false ∧
      s.firstIdle ((routerHams r.die r.atx r.aty).filter fun h => l.hamlets.getLsbD h && r.admits h) = some (0, 1) ∧
      s.firstIdle ((routerHams r.die 5 0).filter fun h => l.hamlets.getLsbD h && r.admits h) = none ∧ r.atx ≠ r.x ∧ r.aty ≠ r.y) := by decide +kernel

/-- Core 0 with a gleaner, core 1 with a deque and a steal queue. -/
def gleaning (g : Glean) (sweep : Nat) (q : List StealReq) (l : List Slot) (mask : BitVec 8) : State :=
  { State.reset with cycle := 64, cores := [(0, { ctxs := [(0, busy), (2, busy), (3, busy)], glean := g, sweep := sweep }), (1, { stealQ := q, deques := [(0, l)] })],
                     launches := [launch0], hamlets := [(0, { seq := some 9, stealMask := mask })] }
def request : StealReq := { core := 0, ctx := 1, features := 0x1F }
def refuses (r : Answered) : Bool := match r with | .refused => true | _ => false
def waits (r : Answered) : Bool := match r with | .wait => true | _ => false
def aWaiter : Waiter :=
  { key := 5, cond := 0x01, episode := 0, save := 0, core := 7, strand := {}, frame := {}, owned := false, marks := [], watch := none, overflow := false,
    listed := false, answer := none }
theorem witness_stealAndWakeEvents :
    (let s := gleaning .probing 0 [] [] 2; (s.core 0).glean = .probing ∧ s.idleCtx 0 = some 1 ∧ (s.core 0).sweep < 262 ∧
      s.probeAt 0 0 = some 1 ∧ (s.core 1).stealQ.length < 8 ∧ s.probeAt 0 261 = none ∧
      ((gleaning .probing 0 (List.replicate 8 request) [] 2).core 1).stealQ.length = 8) ∧
    (let s := gleaning (.asked 1) 0 [request] [] 2; (s.core 1).stealQ = request :: [] ∧ (s.core request.core).glean = .asked 1 ∧
      refuses (s.grant 1 0 request.features) = true ∧
      granted ((gleaning (.asked 1) 0 [request] [pubSlot] 2).grant 1 0 request.features) = true) ∧
    (let s := gleaning (.asked 1) 0 [request] [pubSlot] 2;
      let x : Ctx := { busy with strand := some { deque := some 0 }, c1 := 1 };
      let t := s.setCtx 1 0 x; waits (t.grant 1 0 request.features) = true) ∧
    ((gleaning .rest 0 [] [contSlot true] 2).core 1).victim = some (0, 0, contSlot true) ∧
    (let s := gleaning (.granted {} 9 [] true) 0 [] [] 2; (s.core 0).glean = .granted {} 9 [] true ∧ s.idleCtx 0 = some 1 ∧
      (s.setCtx 0 1 busy).idleCtx 0 = none) ∧
    (((gleaning (.backoff 65) 0 [] [] 2).core 0).glean = .backoff 65 ∧ (gleaning (.backoff 65) 0 [] [] 2).cycle.toNat < 65 ∧
      64 ≤ (gleaning (.backoff 64) 0 [] [] 2).cycle.toNat) ∧
    (find ((gleaning .rest 0 [] [{ contSlot true with spilled := true }] 2).core 1).deques 0 = some [{ contSlot true with spilled := true }] ∧
      residentIn [{ contSlot true with spilled := true }] = 0) ∧
    (let w : Wake := { key := 5, all := [0x01], first := [], episode := none, answer := none };
      let s := { State.reset with hamlets := [(255, { wakes := [w], waiters := [aWaiter] })] }; (s.ham 255).wakes = w :: [] ∧ (s.ham 255).waiters = [aWaiter] ∧
      aWaiter.watch = none ∧ aWaiter.key = w.key ∧ aWaiter.cond ∈ w.all ∧ w.episode = none) := by decide +kernel

/-- Contexts that park, that are saved and that are asked for. -/
def parkNote : Parking := { cond := 0x03, key := wordKey 0x3E0000000140 }
/-- A strand whose map holds row 0 only. -/
def mapped (fp : BitVec 57) : Strand := { fp := fp, map := some (1 ||| (256 <<< 136)) }
def parkingCtx (st : Status) (p : Parking) (fp : BitVec 57) : State :=
  base { status := st } |> fun s => s.setCtx 0 0 { s.ctx 0 0 with status := st, parking := some p, strand := some (mapped fp) }
def fpHere : BitVec 57 := (cm 0x8000).setWidth 57
/-- The state with a hamlet fenced. -/
def shut (h : Nat) (s : State) : State := { s with hamlets := [(h, { fenced := true })] }
theorem witness_parkAndSaveEvents :
    (let s := parkingCtx .parking parkNote fpHere; (s.ctx 0 0).parking = some parkNote ∧ (s.ctx 0 0).strand = some (mapped fpHere) ∧
      (s.ctx 0 0).status = .parking ∧ parkNote.waiting = false ∧ s.settled 0 0 = true ∧
      (s.setCtx 0 0 { s.ctx 0 0 with c1 := 1 }).settled 0 0 = false ∧ (s.savedAt 0 0 false (mapped fpHere)).2 = none ∧
      ((s.savedAt 0 0 false (mapped fpHere)).1.ctx 0 0).parking = some parkNote ∧ ((s.savedAt 0 0 false (mapped fpHere)).1.ctx 0 0).strand.isSome = true ∧
      (s.savedAt 0 0 false (mapped fpHere)).1.noCell 0 parkNote = false ∧ s.saveWaits 0 0 false (mapped fpHere) = none ∧
      ((shut 0 s).saveWaits 0 0 false (mapped fpHere)).isSome = true ∧
      10240 ≤ ({ s with hamlets := [(0, { waiters := List.replicate 10240 aWaiter })] } : State).records 0 ∧
      ((parkingCtx .parking parkNote 0).savedAt 0 0 false (mapped 0)).2.isSome = true) ∧
    (parkingCtx .parking { parkNote with waiting := true } fpHere).noCell 0 { parkNote with waiting := true } = false ∧
    ((base {}).ctx 0 0).status = .running ∧ (base {}).leaderOf 0 0 = (0, 0) ∧ ((base {}).ctx 0 0).inGang = false ∧ ((base {}).ctx 0 0).preempt = false ∧
    ((base { preempt := true }).ctx 0 0).preempt = true ∧
    (let s := (base { preempt := true, counts := true }); let t := { s with cycle := 65536 }; (s.ctx 0 0).preempt = true ∧ s.leaderOf 0 0 = (0, 0) ∧
      (s.core 0).pdeadline = 65536 ∧ s.cycle.toNat < 65536 ∧ (t.ctx 0 0).deadline + (t.cycle.toNat - (t.ctx 0 0).since) = 65536 ∧
      (t.ctx 0 0).wordDue = false ∧ ((base { preempt := true, trapcause := 0x1000 }).ctx 0 0).handling = true) ∧
    (let s := leading .none; (s.ctx 1 0).follows = true ∧ s.leaderOf 1 0 = (0, 0) ∧ (s.ctx 0 0).inGang = true) ∧
    (let p := { parkNote with save := true }; let s := parkingCtx .saving p fpHere; (s.ctx 0 0).status = .saving ∧ (s.ctx 0 0).returned = true ∧
      s.settled 0 0 = true ∧ (s.setCtx 0 0 { s.ctx 0 0 with results := [waiting] }).me.returned = false ∧
      s.saveWaits 0 0 p.whole (mapped fpHere) = none ∧ ((shut 0 s).saveWaits 0 0 p.whole (mapped fpHere)).isSome = true ∧ (s.savedAt 0 0 p.whole (mapped fpHere)).2 = none ∧
      ((parkingCtx .saving p 0).savedAt 0 0 p.whole (mapped 0)).2.isSome = true) ∧
    (let s := seeker { saved := [{ savedStrand with released := false }] } launch0; (s.core 0).saved = [{ savedStrand with released := false }] ∧ savedStrand.ctx = 1) := by
  decide +kernel

/-- Hamlet 3 with a barrier of DIE scope, and its die's root. -/
def barred (b : Barrier) (r : BarRoot) (cycle : Word) : State :=
  let s : State := { State.reset with cycle := cycle, hamlets := [(3, { barriers := [(1, b), (5, b)] })] }
  { s with roots := [(s.rootKey 3 .die 1, r)] }
theorem witness_barrierAndDetectionEvents :
    (let s := barred { state := .releasing, t0 := 2 } {} 10; (s.barrier 3 .hamlet 1).state = .releasing ∧ (s.barrier 3 .hamlet 1).t0 + 8 ≤ s.cycle.toNat ∧
      (barred { state := .releasing, t0 := 2 } {} 9).cycle.toNat < 2 + 8) ∧
    (let s := barred { state := .sent, arrivedExtra := 5 } {} 10; (s.barrier 3 .die 1).state = .sent ∧ (look {} s.roots (s.rootKey 3 .die 1)).pealing = false ∧
      3 ∉ (look {} s.roots (s.rootKey 3 .die 1)).arrived) ∧
    (let r : BarRoot := { arrived := [3, 4], released := [3], pealing := true }; let s := barred { state := .sent } r 10;
      look {} s.roots (s.rootKey 3 .die 1) = r ∧ 3 ∈ r.released ∧ 3 ∉ r.nextArrived) ∧
    (let r : BarRoot := { arrived := [3, 4], pealing := true, t0 := 5 }; let s := barred { state := .sent } r 37;
      look {} s.roots (s.rootKey 3 .die 1) = r ∧ 3 ∈ r.arrived ∧ 3 ∉ r.released ∧ r.t0 + pealDelay (s.pattern 3) .die r.gap (phaseOf (s.pattern 3) 3) = 37 ∧
      (barred { state := .sent } r 36).cycle.toNat < 37) ∧
    (let l := { launch0 with detection := some { waiting := [(0, 0)], last := some (0, 0), sweeps := 1, down := [], sum := (0, 0) } }; let s := seeker {} l;
      s.launchBySeq 9 = some l ∧ (l.detection.map Detection.down) = some [] ∧ (l.detection.map Detection.last) = some (some (0, 0)) ∧
      (l.detection.map Detection.sweeps) = some 1 ∧ (l.detection.map Detection.sum) = some (0, 0)) ∧
    (let l := { launch0 with detection := some { waiting := [(0, 0)], last := none, sweeps := 0, down := [255], sum := (0, 0) } };
      (seeker {} l).launchBySeq 9 = some l ∧ (l.detection.map Detection.down) = some [255]) := by decide +kernel

/-- A load of hamlet 0 that has not been answered. -/
def reading : Msg := { msg State.reset 0x20000 (.load 0x20000 8 false) with tag := some 5 }
theorem witness_donationAndCompletionEvents :
    (let s := tasks (strandOf 0) [] 2; s.stale (hdHam countHd) countHd = false ∧ 1 < (s.future countHd).value.toInt) ∧
    (let s := seeker {} launch0; s.stale (hdHam 7) 7 = true ∧ s.launchOf (hdHam 7) = some launch0) ∧
    ((frameOf 0).features &&& ~~~ 0x1F = 0 ∧ (look ({} : DonQueue) (donor 1).hub.donqs 0).frames.length < 1 ∧ (look ({} : DonQueue) (donor 0).hub.donqs 0).cap ≤ 0 ∧
      (frameOf (BitVec.ofNat 512 (2 ^ 197))).features &&& ~~~ 0x1F ≠ 0 ∧ (0 : BitVec 20) = State.reset.pkgid) ∧
    (let l := { launch0 with words := [(4, 0x10000)], tree := [(4, 0x8001)] }; let s := seeker {} l;
      s.launchBySeq 9 = some l ∧ l.held = [] ∧ (look (0 : BitVec 16) l.tree 4).getLsbD 15 = true ∧
      (look (0 : BitVec 16) l.tree 5).getLsbD 15 = false) ∧
    (let l := { launch0 with held := [(0, 0x10000)] }; let s := seeker {} l; let t := { s with flight := [reading] };
      s.launchBySeq 9 = some l ∧ l.held.find? (fun e => !s.readsOut e.1) = some (0, 0x10000) ∧ t.launchBySeq 9 = some l ∧
      l.held.all (fun e => t.readsOut e.1) = true) ∧
    (let l := { launch0 with total := 0x10000 }; let s := seeker {} l; let t := { s with flight := [reading] };
      s.launchBySeq 9 = some l ∧ l.words = [] ∧ l.nframes ≤ fld l.total 47 16 ∧ 0 ∈ l.set ∧ t.readsOut 0 = true ∧
      (l.set.all fun h => !s.readsOut h) = true) ∧
    (let k : Completion := { word := 1, seq := 9, info := 0, status := 0, code := 2 };
      let s := { State.reset with hub := { State.reset.hub with owed := [k], compPos := 63 } };
      s.hub.owed = k :: [] ∧ Memory.wf s.mem = true ∧ (memGet s.mem (0x3F0000001000 + 32 * 63)).getLsbD 0 = false ∧
      (memGet (memWrite [] (0x3F0000001000 + 32 * 63) [1]) (0x3F0000001000 + 32 * 63)).getLsbD 0 = true) := by decide +kernel

/-- A package with one launch, one whose hamlet is hot, one that is fenced, one that is stopped. -/
def hotState (t : Heat) : State := { State.reset with hamlets := [(0, { heat := t, point := 2, cap := 2, ceiling := 3 })] }
def fencedState : State := { with' [] with hamlets := [(0, { fenced := true })] }
def stoppedPkg : State := { with' [] with stopped := true }
def serviced : State := { State.reset with hub := { State.reset.hub with service := true } }
theorem witness_containmentEvents :
    let e : ErrRec := { event := 0x17, cls := 6, addr := 2 ^ 64 - 1 }
    (e.addr < 2 ^ 64 ∧ Memory.wf State.reset.mem = true ∧ (memGet State.reset.mem 0x3F0000200000).getLsbD 0 = false ∧
      (memGet (memWrite [] 0x3F0000200000 [1]) 0x3F0000200000).getLsbD 0 = true) ∧
    stoppedPkg.stopped = true ∧ (fencedState.ham (hamOf 7)).fenced = true ∧
    (((with' []).ctx (8 / 8) (8 % 8)).status = .idle ∧ ((with' []).ctx (0 / 8) (0 % 8)).status = .running ∧
      (find (holding.ham (hamOf 0)).lines 0x10040).map Line.dirty = some 1 ∧
      (let s := { holding with hamlets := [(0, { lines := [(0x10040, { data := 5, dirty := 0 })] })] }; (find (s.ham 0).lines 0x10040).map Line.dirty = some 0) ∧
      (2 ≤ (7 : BitVec 4).toNat ∧ (7 : BitVec 4).toNat ≤ 7) ∧ ((milled []).core 0).mill.owned = true ∧ ((milled []).ctx 0 ((milled []).core 0).mill.owner).status = .running ∧
      ((milled []).ctx 0 0).returned = true ∧ ((milled []).ctx 0 0).late = none ∧ ((base { results := [waiting] }).ctx 0 0).returned = false) ∧
    (0x10040 % 64 = 0 ∧ 0x10040 ∉ State.reset.bad ∧ (State.reset.bad.filter fun l => (State.reset.badList l).1 = (State.reset.badList 0x10040).1).length <
      (State.reset.badList 0x10040).2.1) ∧
    ((State.reset.ham 0).fenced = false ∧ State.reset.launchOf 0 = none ∧ (seeker {} launch0).launchOf 0 = some launch0 ∧ State.reset.stopped = false ∧
      State.reset.launches = [] ∧ (seeker {} launch0).launches = [launch0] ∧ (65535 : BitVec 16) ≠ 0) ∧
    (((hotState .hot).ham 0).heat = .hot ∧ ((hotState .warm).ham 0).heat = .warm ∧ (State.reset.ham 0).heat = .cool ∧ ((hotState .cool).ham 0).cap ≠ 3 ∧ (3 : BitVec 2) ≤ (State.reset.ham 0).ceiling ∧ serviced.hub.service = true) := by
  decide +kernel

/-- Ports that are up and down; a message to package 7, which no port reaches; an answer for it; a request of a CXL port. -/
def linked (up : Bool) : State := { with' [] with ports := [(11, { up := up, lanes := 8, training := !up })] }
def farLoad : Msg := { msg State.reset 0x20000 (.load 0x20000 8 false) with pkg := 7, tag := some 5 }
def farStore : Msg := { msg State.reset 0x20000 (.store 0x20000 [(0, 1)] false) with pkg := 7, cnt := 1 }
def far (m : Msg) : State :=
  { base { results := [{ due := .var [(5, 0)], cells := [], flags := 0 }] } with flight := [m], peers := [(7, { unacked := [(0, 5)] })] }
def cxlMsg : Msg := { msg State.reset 0x100000000000 (.store 0x100000000000 [(0, 1)] false) with cnt := 3 }
def cxlState (down : List Nat) : State :=
  { flying cxlMsg with hub := { State.reset.hub with cxl := [(0, 1)], cxlDown := down, service := true, cxlPend := [(2 ^ 46 + 5, { since := 0 }), (0x100000000180, { since := 0, write := true })] } }
theorem witness_linkEvents :
    ((linked true).port 11).up = true ∧
    (let p : Port := { up := true, buffer := [0xFFF, 0], fails := 7, expect := 0xFFF }
     let s : State := { State.reset with ports := [(11, p)] }
     s.port 11 = p ∧ p.up = true ∧ (0 : BitVec 12) ≠ p.expect ∧ p.buffer ≠ [] ∧ 7 ≤ p.fails ∧ p.buffer = [0xFFF] ++ 0 :: [] ∧ [(0xFFF : BitVec 12)].contains 0 = false) ∧
    ((7 : BitVec 20) ≠ (far farLoad).pkgid ∧ ((far farLoad).flight.any fun m => m.pkg = 7) = true) ∧ ((linked false).port 11).training = true ∧ ((far farLoad).peers.map fun e => e.2.unacked) ≠ [[]] ∧
    (far farLoad).portMask 7 = 0 ∧
    (let p := look ({} : Peer) (far farLoad).peers 7; let s := far farLoad;
      p.unacked ≠ [] ∧ p.dead = false ∧ s.cycle.toNat - p.since < 2 ^ 24 ∧ 2 ^ 24 ≤ ({ s with cycle := 0x1000000 } : State).cycle.toNat - p.since ∧
      (look ({} : Peer) s.peers 8).unacked = []) ∧
    ((linked true).bad = [] ∧ (linked true).tainted = [] ∧ (linked true).scales = [] ∧ (linked true).cxlStuck (0x20000 / 64 * 64) = false ∧
      ((far farLoad).ctx 0 0).devq = [] ∧ ((linked true).ham 255).fenced = false ∧ (8 : BitVec 20) ≠ (linked true).pkgid ∧ (far farLoad).cutOff 7 = true ∧
      (far farStore).cutOff 7 = true ∧ ((far farLoad).ctx 0 0).late = none) := by decide +kernel
theorem witness_linkPackets :
    (let p := look ({} : Peer) (linked true).peers 7; (0 : BitVec 32) = p.expect ∧ (7 : BitVec 20) ≠ (linked true).pkgid ∧ (linked true).stopped = false ∧
      (linked true).incoming = [] ∧ (linked true).forwarded 0x20000 = 0x20000 ∧ (linked true).region 0x20000 ≠ .unbacked ∧ (1 : BitVec 32) ≠ p.expect) ∧
    ((far farLoad).flight.find? (fun q => q.id = 5 && q.pkg = 7 && !q.applied) = some farLoad ∧ farLoad.tag = some 5 ∧ farLoad.cnt = 0 ∧
      (far farLoad).hub.chans = [] ∧ ((far farLoad).core 0).copies = [] ∧ (far farLoad).flight.filter (fun q => q.pkg = 7) = [farLoad] ∧
      farLoad.home ≠ orphan ∧ farLoad.body.pa = 0x20000 ∧ farLoad.ctx < 4 ∧ farLoad.id = 5 ∧
      ((far farLoad).ctx 0 0).results.map Result.due = [.var [(farLoad.id, 0)]] ∧ ((far farLoad).ctx 0 0).handling = false ∧
      ((far farLoad).ctx 0 0).inGang = false) ∧
    ((far farStore).flight.filter (fun q => q.pkg = 7) = [farStore] ∧ farStore.tag = none ∧ farStore.cnt = 1 ∧ farStore.home ≠ orphan) ∧
    ([[], [0]].all fun down => decide ((cxlState down).waiting 5 = some cxlMsg ∧ cxlMsg.cnt = 3 ∧ (cxlState down).region cxlMsg.body.pa = .cxl 0 ∧
      (find (cxlState down).hub.cxlPend (2 ^ 46 + 5)).isSome = true ∧
      (find (cxlState down).hub.cxlPend (0x100000000000 + 0 * 2 ^ 40 + 64 * 6)).map CxlReq.write = some true ∧ (cxlState down).hub.chans = [] ∧
      (cxlState down).hub.service = true ∧ (cxlState down).hub.cxlOut = [])) = true ∧
    (cxlState []).cycle.toNat < 15040000 ∧ 15040000 ≤ ({ cxlState [] with cycle := 15040000 } : State).cycle.toNat ∧ 0 ∈ (cxlState [0]).hub.cxlDown := by
  decide +kernel

/-- A command slot with `own` 1: code, argument and operands (13 R353). -/
def slotOf (code : Nat) (arg : Word) (ops : List Word) : Row := rowOfWords ([BitVec.ofNat 64 (code * 256 + 1), 9, arg] ++ ops)
/-- A booted package with a slot at the first place, and bytes in memory. -/
def cmdState (w : Row) (m : List (Nat × List Byte)) : State :=
  { State.reset with mem := m.foldl (fun acc e => memWrite acc e.1 e.2) (memWrite [] 0x3F0000000000 (bytesOf 64 w.toNat))
                     hub := { State.reset.hub with booted := true, service := true, lpddr := 2 ^ 40, cxl := [(0, 4)] } }
/-- A slot that takes effect, with an argument of `n` bytes. -/
def good (w : Row) (n : Nat) : Bool := (cmdState w []).takes w false && (n = 0 || (cmdState w []).argGood w n)
def rangeBytes : List Byte := bytesOf 32 (2 ^ 46 + 0xA2022000 * 2 ^ 224 + 64 * 2 ^ 192)
theorem witness_attest : (cmdState (slotOf 11 0x10000 [0, 1]) []).argGood (slotOf 11 0x10000 [0, 1]) (Config.certificate.take 2048).length = true := by
  have h : (Config.certificate.take 2048).length ≤ 2048 := List.length_take_le ..
  have ha : cmdArg (slotOf 11 0x10000 [0, 1]) = 0x10000 := by decide +kernel
  have r : ∀ x, x < 0x20000 → (cmdState (slotOf 11 0x10000 [0, 1]) []).region x = .hbm := by
    intro x hx
    unfold State.region
    rw [if_pos (by omega)]
  simp only [State.argGood, ha, State.backed]
  rw [r _ (by decide), r _ (by rw [show (0x10000 : Word).toNat = 0x10000 from rfl]; omega)]
  decide
theorem witness_commandsComplete :
    (let s := cmdState (slotOf 14 0 [4095, 16]) []; s.hub.booted = true ∧ (s.slot s.hub.cmdPos).getLsbD 0 = true ∧ fld (s.slot s.hub.cmdPos) 15 8 = 14 ∧
      (({ State.reset with hub := s.hub } : State).slot s.hub.cmdPos).getLsbD 0 = false ∧ 14 < fld (slotOf 15 0 []) 15 8 ∧
      s.hub.owed = [] ∧ ({ word := 0, seq := 0, info := 0, status := 0, code := 1 } : Completion).code ≠ 0x02 ∧
      ({ word := 0, seq := 0, info := 0, status := 8, code := 2 } : Completion).status = 0x08 ∧
      ({ word := 0, seq := 0, info := 0, status := 3, code := 2 } : Completion).status ≠ 0x08) ∧
    (stoppedPkg.stopped = true ∧ (cmdState 1 []).stopped = false ∧ (cmdState 1 []).takes (slotOf 3 0 [] ||| 2) false = false ∧
      (cmdState 1 []).takes (slotOf 1 0 [] ||| 2) true = false ∧ stoppedPkg.takes (slotOf 13 0 []) true = true ∧
      (cmdState 1 []).argGood (slotOf 1 0x10000 []) 64 = true ∧ State.reset.launches = [] ∧ State.reset.hub.donqs = []) ∧
    (good (slotOf 3 0 [9]) 0 = true ∧ (seeker {} launch0).launches.find? (fun l => l.seq = 9) = some launch0 ∧ (cmdState 1 []).launches = []) ∧
    (let s := futures {}; let hd : BitVec 32 := 0x00100FC0; 4032 ≤ hdIdx hd ∧ fld hd 31 20 ≠ 0 ∧ (s.future hd).gen = hd.extractLsb' 20 12 ∧
      (s.future hd).kind = .pager ∧ s.takes (slotOf 4 0 [0x00100FC0, 2]) false = true ∧ hdIdx 0x00100FBF < 4032) ∧
    (good (slotOf 9 0 [2]) 0 = true ∧ (cmdState 1 []).travelling (fun _ => true) = false ∧
      (let s := flying { msg State.reset 0x20000 (.load 0x20000 8 false) with pkg := 7 }; s.takes (slotOf 9 0 [2]) false = true)) ∧
    (good (slotOf 14 0 [4095, 16]) 0 = true ∧ (cmdState 1 []).hub.gmin.toNat ≤ 4095 ∧ 16 ≤ (cmdState 1 []).hub.hmax.toNat ∧ 59 < (cmdState 1 []).hub.gmin.toNat ∧
      (cmdState 1 []).hub.hmax.toNat < 17) ∧
    (let w := slotOf 5 0x10000 [0, 15]; let s := cmdState w [(0x10000, rangeBytes)]; let r : BitVec 256 := BitVec.ofNat 256 (ofBytes (s.bytesAt 0x10000 32));
      s.takes w false = true ∧ s.argGood w 32 = true ∧ rangeReserved r = false ∧ s.launches = [] ∧ (imageParts r).length = 1 ∧
      ((imageParts r).all fun p => s.backed (BitVec.ofNat 64 p.1) p.2) = true ∧ s.rangeInvalid 0 15 r = false) ∧
    (good (slotOf 6 0 [0x100000000000, 0x100000000, 1]) 0 = true ∧ (cmdState 1 []).region 0x100000000000 = .cxl 0 ∧
      (cmdState 1 []).region (0x100000000000 + 0x100000000 - 1) = .cxl 0 ∧ 0x100000000000 % 2 ^ 30 = 0) ∧
    (good (slotOf 7 0x10000 [0xFFFFF]) 4096 = true ∧ fld (0xFFFFF : Word) 63 20 = 0 ∧ (cmdState 1 []).hub.configured = false ∧
      (cmdState 1 []).hub.service = true ∧ State.reset.hub.service = false) ∧
    good (slotOf 10 0 [15, 256, 0x20000000001]) 0 = true ∧ (cmdState 1 []).backed 0x20000000001 (256 * 98304) = true ∧
    (good (slotOf 10 0 [15, 256, 0x20000000000]) 0 = true ∧ (look ({} : DonQueue) (cmdState 1 []).hub.donqs 15).frames = [] ∧
      (cmdState 1 []).backed 0x20000000000 (256 * 98304) = true ∧ (cmdState 1 []).secondTier 0x20000000000 = true) ∧
    good (slotOf 11 0x10000 [0, 0]) 304 = true ∧
    (let w := slotOf 12 0x10000 []; let s := cmdState w [(0x10000, bytesOf 24 (0x20000 + 64 * 2 ^ 64 + 0x30000 * 2 ^ 128))];
      let word := fun (i : Nat) => BitVec.ofNat 64 (ofBytes (s.bytesAt (0x10000 + 8 * i) 8));
      s.takes w false = true ∧ s.argGood w 24 = true ∧ s.backed (word 0) (word 1).toNat = true ∧ s.backed (word 2) 96 = true) := by decide +kernel
/-- LINKCFG's routing tables in a memory that holds one entry; a package that is configured, with and without a peer that owes. -/
def linkSlot : Row := slotOf 7 0x10000 [0xFFFFF]
def tableEntry : List (Nat × List Byte) := [(0x10002, [5])]
theorem witness_linkcfg : ((cmdState linkSlot tableEntry).readTable 0x10000).all (fun e => fld e.2 15 12 = 0) = true := by decide +kernel
theorem witness_linkcfg_empty : (cmdState linkSlot tableEntry).readTable 0x10800 = [] := by decide +kernel
/-- FIPS 180-4: the digest of the empty message begins 38b060a7 and ends 98b95b. -/
theorem test_sha384_empty : (shaBytes []).take 4 = [0x38, 0xb0, 0x60, 0xa7] ∧ (shaBytes []).drop 45 = [0x98, 0xb9, 0x5b] := by
  decide +kernel
/-- A launch record at 0x10000 of one hamlet, with one root frame of radius 3, its tree and the digest of no code. -/
def launchMem : List Host.Cell :=
  (memWrite (memWrite (memWrite [] 0x10000 (bytesOf 128 (1 <<< 256 + 0x20000 <<< 512 + 0x30000 <<< 128 + 0x21000 <<< 960)))
    0x20000 (bytesOf 66 (3 <<< 519))) 0x21000 [0, 0x80] : List Host.Cell)
  ++ ((bytesOf 48 (sha384 []).toNat).zipIdx.map fun e => (0x30000 + e.2, e.1) : List Host.Cell)
def launchSlot : Row := slotOf 2 0x10000 []
def launching : State := { cmdState launchSlot [] with mem := launchMem }
theorem digest_reads : launching.bytesAt 0x30000 48 = bytesOf 48 (sha384 []).toNat := rfl
theorem digest_number : ∀ (n x : Nat), ofBytes (bytesOf n x) = x % 256 ^ n
  | 0, x => by simp [ofBytes, bytesOf, Nat.mod_one]
  | n + 1, x => by
    rw [bytesOf, ofBytes, digest_number n, Nat.pow_succ', Nat.mod_mul]
    simp
theorem witness_launch : launching.launchBad launchSlot = none := by
  have h : launching.argBad launchSlot 128 = none := by decide +kernel
  have hd : (launching.loadRec (cmdArg launchSlot).toNat).digest = sha384 [] := by
    have e : (launching.loadRec (cmdArg launchSlot).toNat).digest = BitVec.ofNat 384 (ofBytes (launching.bytesAt 0x30000 48)) := by
      show BitVec.ofNat 384 (ofBytes (launching.bytesAt (lrAddr _ 128).toNat 48)) = _
      rw [show (lrAddr (BitVec.ofNat 1024 (ofBytes (launching.bytesAt (cmdArg launchSlot).toNat 128))) 128).toNat = 0x30000 by decide +kernel]
    rw [e, digest_reads, digest_number]
    apply BitVec.eq_of_toNat_eq
    have := (sha384 []).isLt
    simp only [BitVec.toNat_ofNat]
    rw [Nat.mod_eq_of_lt (a := _ % _), Nat.mod_eq_of_lt] <;> omega
  have hc : launching.bytesAt (lrAddr (launching.loadRec (cmdArg launchSlot).toNat).rec' 0).toNat
      (lrAddr (launching.loadRec (cmdArg launchSlot).toNat).rec' 64).toNat = [] := by
    rw [show (lrAddr (launching.loadRec (cmdArg launchSlot).toNat).rec' 64).toNat = 0 by decide +kernel]; rfl
  unfold State.launchBad
  rw [h]
  dsimp only
  rw [hd, hc, if_neg (by decide +kernel), if_neg (by decide +kernel), if_neg (by decide +kernel), if_neg (by simp), if_neg (by decide +kernel),
    if_neg (by decide +kernel)]

/-- A system copy channel at a record, and the record in memory. -/
def chanState (c : SysChan) (r : Row) : State :=
  let s := cmdState 1 [(0x20000, bytesOf 64 r.toNat)]
  { s with hub := { s.hub with chans := [(3, c)] } }
def atRecord : SysChan := { cur := 0x20000, done := 16, event := 0, state := 1 }
/-- A record of 48 bytes from 0x30000 to 0x40000 with the first word given, and a length. -/
def copyRec (w0 : Word) (n : Word) : Row := rowOfWords [w0, 0, 0x30000, 0, 0x40000, 0, n, 0]
/-- The record that channel 3 reads. -/
def recordRead (s : State) : Row := rowOf (s.homeRead (s.chan 3).cur.toNat 64)
theorem witness_syscopy :
    good (slotOf 8 0 [3, 0x20000]) 0 = true ∧ (chanState atRecord 0).takes (slotOf 8 0 [3, 0x20000]) false = true ∧
    ((chanState atRecord 0).chan 3).state = 1 ∧ ((cmdState 1 []).chan 3).state = 0 ∧
    ((chanState { atRecord with state := 2 } 0).chan 3).state = 2 ∧ (cmdState 1 []).backed 0x20000 64 = true := by decide +kernel
theorem witness_syscopyRecord :
    (atRecord.state = 1 ∧ atRecord.failing = none ∧ atRecord.staged = none ∧ (chanState atRecord 0).region 0x20000 ≠ .unbacked) ∧
    (chanState { atRecord with cur := 0x3C0000000000 } 0).region 0x3C0000000000 = .unbacked ∧
    ([0, 1, 3, 5].all fun w0 => let s := chanState atRecord (copyRec w0 (if w0 = 3 then 16 else 48))
      (s.stageParts 3).all fun l => !s.cxlStuck l && !s.fencedAt l) = true ∧
    (recordRead (chanState atRecord (copyRec 0 48))).getLsbD 0 = false ∧
    (let r := recordRead (chanState atRecord (copyRec 5 48)); r.getLsbD 0 = true ∧ recReserved r = true) ∧
    (let r := recordRead (chanState atRecord (rowOfWords [1, 0, 0x30000, 0, 0x40000, 0, 48, 0xF000])); r.getLsbD 0 = true ∧ recReserved r = false ∧ recInvalid r = true) ∧
    (let r := recordRead (chanState atRecord (copyRec 3 16)); r.getLsbD 0 = true ∧ recReserved r = false ∧ recInvalid r = false ∧ fld r 415 384 ≤ 16) ∧
    (let s := chanState atRecord (copyRec 1 48)
     let r := recordRead s
     r.getLsbD 0 = true ∧ recReserved r = false ∧ recInvalid r = false ∧ recFmt r = 0 ∧ fld r 415 384 - 16 = 32 ∧
      (fld r 173 128 + 16) % 64 + 32 ≤ 64 ∧ (fld r 301 256 + 16) % 64 + 32 ≤ 64 ∧ sysPkg (recSrc r) = s.pkgid ∧ sysPkg (recDst r) = s.pkgid ∧
      s.forwards = [] ∧ s.region 0x30010 ≠ .unbacked ∧ s.region 0x40010 ≠ .unbacked ∧ s.bad = [] ∧ s.tainted = []) := by decide +kernel
/-- A channel with a stage on its way, done, and failed. -/
def staging (f : Option (BitVec 8)) (l : List Msg) : State :=
  let s := chanState { atRecord with staged := some 32, out := [5], failing := f } 0
  { s with flight := l }
theorem witness_syscopyStageAck :
    (∃ m ∈ (staging none [msg State.reset 0x40000 (.store 0x40000 [(0, 1)] false)]).flight, m.id ∈ ((staging none []).chan 3).out) ∧
    (∀ m ∈ (staging none []).flight, m.id ∉ ((staging none []).chan 3).out) ∧ ((staging none []).chan 3).failing = none ∧
    ((staging none []).chan 3).staged = some 32 ∧ ((staging none []).chan 3).fetch = [] ∧ ((staging (some 6) []).chan 3).failing = some 6 := by decide +kernel
theorem witness_launchAndSystemCopies :
    launching.takes launchSlot false = true ∧ launching.launchBad launchSlot = none ∧
    (cmdState (slotOf 2 0 []) []).takes (slotOf 2 0 []) false = true ∧ (cmdState (slotOf 2 0 []) []).launchBad (slotOf 2 0 []) = some 0x03 :=
  ⟨by decide +kernel, witness_launch, by decide +kernel, by decide +kernel⟩

/-! ### Clauses that the witnesses above do not reach -/

/-- A handler run whose message awaits a reply (17 R410). -/
theorem witness_trapEndsRun :
    amState.me.returned = true ∧ amState.onHandler = true ∧ amState.me.run = some amRun ∧ amRun.kind = .message ∧ amRun.pkg = amState.pkgid ∧
    (amState.flight.find? fun n => n.id = amRun.msg).map (fun m => m.tag.isSome) = some true := by decide +kernel

/-- Places of every kind: the own commons, global memory, another hamlet, package 7, a stash window, package 7's commons; an absent page. -/
def wider : State :=
  let s := with' [(2, cm 0x140), (3, cm 0x141), (4, 0x10040), (5, 0x11040), (6, 7), (7, 0x12040), (8, 0x13040), (9, 0x14040), (10, 0x900000), (11, 0x12041)]
  routed { s with
    cores := [(0, { s.core 0 with tlb := [page 0x10000 0x10000 0, page 0x11000 0x3E0000201000 0, page 0x12000 0x20000 7, page 0x13000 0x13000 0,
                                          page 0x14000 0x3E0000201000 7] })]
    hamlets := [(0, { windows := [{ desc := winDesc }] })] }
def wplace : Place := .window 0x3D0000000040 0x13040 winDesc
def gplace : Place := .global 0x10040 false
def fplace : Place := .far 0x3E0000201040 false
def pplace : Place := .foreign 7 0x20040 false
def absentPage (r : Except Trouble (Place × State)) : Bool := match r with | .error (.page ..) => true | _ => false
theorem witness_lineControlElsewhere :
    let s := wider
    let is (k : BitVec 16) (kind : Access) (p : Place) : Bool := served s (lineVa (s.ea (op 0 k 0) 64)) kind 64 p && !s.zeroHeld p
    (7 : BitVec 20) ≠ s.pkgid ∧ s.deadPeer 7 = false ∧ is 4 .write gplace = true ∧ is 5 .write fplace = true ∧ is 7 .write pplace = true ∧
    is 8 .write wplace = true ∧ s.zeroHeld (.near 0x3E0000000140) = false ∧
    s.goes (.pref (op 0 4 0) .home) (op 0 4 0) = true ∧ s.goes (.pref (op 0 8 0) .win) (op 0 8 0) = true ∧ is 8 .read wplace = true ∧
    (({ s with bad := [0x10040] } : State).placeBad 0 gplace 64).isSome = true ∧
    isOk (s.resolve (s.ea (op 0 10 0) 64) .read) (fun _ => true) = false ∧
    s.goes (.stash (op 0 8 0) true) (op 0 8 0) = true ∧ s.goes (.flush (op 0 8 0) false) (op 0 8 0) = true ∧ is 8 .data wplace = true ∧
    absentPage (s.resolveFor 0 0 s.me.tblroot s.me.priv (s.ea (op 0 10 0) 64) .data) = true := by decide +kernel

/-- Dirty lines of the L1s and of a window of a launch. -/
def releasing (l : Map Line) (w : Map WinLine) (fill : BitVec 128) : State :=
  { wider with launches := [launch0], mem := memWrite [] 0x3D0000000040 [7],
               hamlets := [(0, { seq := some 9, windows := [{ desc := winDesc ||| fill }], lines := l, winLines := w })] }
theorem witness_releaseWindows :
    let s := releasing [] [(1, { dirty := 1 })] 0
    let x := s.ham (hamOf s.curCore)
    let l := releasing [(0x10040, { data := 5, dirty := 1 })] [] 0
    (find x.winLines 1).map WinLine.dirty = some 1 ∧ (winAt x.windows 0x3D0000000040).map (fun d => (d.getLsbD 11, d.getLsbD 12)) = some (false, false) ∧
    s.windowHome 0 winDesc 0x3D0000000040 = some 0x13040 ∧ (s.region 0x13040).global = true ∧ s.cxlStuck 0x13040 = false ∧ s.scales = [] ∧ s.ranges = [] ∧
    s.areaOf 0x13040 = none ∧
    ((winAt ((releasing [] [(1, { dirty := 1 })] (1 <<< 11)).ham 0).windows 0x3D0000000040).map fun d => d.getLsbD 11) = some true ∧
    l.scales = [] ∧ l.ranges = [] ∧ (l.ham 0).winLines = [] ∧ ((l.ham 0).lines.map Prod.fst).Nodup ∧
    ((l.ham 0).lines.all fun e => decide (e.1 % 64 = 0 ∧ e.2.dirty.getLsbD 0 = true ∧ (l.region e.1).global = true ∧ l.cxlStuck e.1 = false ∧
      l.areaOf e.1 = none)) = true := by decide +kernel

/-- A line of which an acquire has left one byte, read within it and beyond it; a line that the core's L1 holds. -/
theorem witness_placesReadPartly :
    (holding.inL1 0).length < l1Lines ∧ holding.scales = [] ∧ (holding.ham (hamOf 0)).winLines = [] ∧
    (let l : Line := { data := 5, dirty := 1, valid := 1, cores := 1 };
      Machine.ones 64 1 (0x10040 % 64) &&& ~~~ l.valid = 0 ∧ Machine.ones 64 2 (0x10040 % 64) &&& ~~~ l.valid ≠ 0 ∧ l.heldBy 0 = true) := by decide +kernel

theorem witness_loadsElsewhere :
    let s := wider
    let f := op 6 5 0
    let p := op 6 7 0
    acts s (.ld f .n64) [scLoc f f.a, rsLoc f f.d 8] = true ∧ served s (s.ea f 8) .read 8 fplace = true ∧ s.queued (s.ea f 8) 8 = none ∧
    acts s (.ld p .n64) [scLoc p p.a, rsLoc p p.d 8] = true ∧ served s (s.ea p 8) .read 8 pplace = true ∧ s.queued (s.ea p 8) 8 = none ∧
    s.deadPeer 7 = false ∧ s.linkFull 7 = false ∧ s.posting = false := by decide +kernel

/-- The full/empty instructions in a stash window, another hamlet and package 7, without and with the answer; on the handler context. -/
def answered (r : Row) : State := wider.setMe { wider.me with dbuf := some (farWord 7 0x3E0000201040, r) }
def syncs (o : Ops) (q : Place) : Bool :=
  let s := wider
  acts s (.ldsync o true) [scLoc o o.a, scLoc o o.d] && acts s (.stsync o) [scLoc o o.a, scLoc o o.d] && acts s (.feset o true) [scLoc o o.a]
    && served s (s.ea o 8) .read 8 q && served s (s.ea o 8) .write 8 q && (s.queued (s.ea o 8) 8).isNone
    && (s.refusedMeet (s.ea o 8) 8 .write).isNone && !s.storeHeld q 8 false && s.releaseReady (s.syncScope o) true
theorem witness_fullEmptyElsewhere :
    let s := wider
    let w := op 6 8 0
    let f := op 6 5 0
    let p := op 6 9 0
    syncs w wplace = true ∧ syncs f fplace = true ∧ syncs p (.foreign 7 0x3E0000201040 false) = true ∧
    s.feWord 0x3D0000000040 = true ∧ s.feWord 0x3E0000201040 = true ∧ s.pathBusy (s.homeOf 0x3E0000201040) = false ∧
    s.me.dbuf = none ∧ (answered 5).me.dbuf = some (farWord 7 0x3E0000201040, 5) ∧ (5 : Row).getLsbD 64 = false ∧
    (rowOfWords [0, 1]).getLsbD 64 = true ∧ (s.ea (op 6 3 0) 8).toNat % 8 ≠ 0 ∧ acts s (.feset (op 0 3 0) true) [scLoc (op 0 3 0) 3] = true ∧
    onHandler.goes (.ldsync w true) w = true ∧ (onHandler.entered w).onHandler = true := by decide +kernel

/-- Atomics of global memory, of another hamlet and of package 7, and AMSEND to the last two. -/
def atoms (o : Ops) (q : Place) : Bool :=
  let s := wider
  acts s (.amo o .add) [scLoc o o.a, scLoc o o.d] && acts s (.red o .add) [scLoc o o.a, scLoc o o.d] && served s (s.ea o 8) .atomic 8 q
    && (s.queued (s.ea o 8) 8).isNone
theorem witness_atomicsElsewhere :
    let s := wider
    atoms (op 6 4 0) gplace = true ∧ atoms (op 6 5 0) fplace = true ∧ atoms (op 6 7 0) pplace = true ∧ s.queueGone = true ∧
    s.atomicHome gplace = some (s.pkgid, 0x10040, s.postCount 0x10040) ∧ s.atomicHome fplace = some (s.pkgid, 0x3E0000201040, 1) ∧
    s.atomicHome pplace = some (7, 0x20040, 2) ∧ s.posting = false ∧ s.deadPeer 7 = false ∧ s.linkFull 7 = false ∧
    s.countFull 1 = false ∧ s.countFull 2 = false ∧ s.countFull (s.postCount 0x10040) = false := by decide +kernel
theorem witness_amsendElsewhere :
    let s := wider
    let locs (o : Ops) : List Loc := [{ addr := 0x200, bytes := 64, storeOnly := true }, scLoc o o.a, scLoc o o.b]
    let f := ext 0x200 0x28 0x18
    let p := ext 0x200 0x48 0x18
    acts s (.amsend f false) (locs f) = true ∧ served s (s.scOp f f.a) .data 8 fplace = true ∧
    acts s (.amsend p true) (locs p) = true ∧ served s (s.scOp p p.a) .data 8 (.foreign 7 0x3E0000201040 false) = true ∧
    s.region 0x3E0000201040 = .commons 1 ∧ (s.entered p).onHandler = false := by decide +kernel

/-- A store that has no home, and the further conditions of the events of messages. -/
def lostMsg : Msg := { msg State.reset 0x3C0000000000 (.store 0x3C0000000000 [(0, 1)] false) with cnt := 1 }
theorem witness_messageEventsMore :
    (flying lostMsg).waiting 5 = some lostMsg ∧ lostMsg.home = 320 ∧ (flying lostMsg).overtakes lostMsg = false ∧
    (flying lostMsg).forwarded 0x3C0000000000 = 0x3C0000000000 ∧ (flying lostMsg).cxlMeets lostMsg (.postedStoreApply 5) = none ∧
    (flying storeMsg).cxlMeets storeMsg (.postedStoreApply 5) = none ∧ (flying atomMsg).cxlMeets atomMsg (.atomicApply 5) = none ∧
    (flying atomMsg).listedLine 0x10000 = false ∧ ((flying loadMsg).region 0x3E00001FFFF8).global = false ∧ (flying loadMsg).listedLine 0x3E00001FFFC0 = false ∧
    loadMsg.delivered = false ∧ (((flying loadMsg).ham (loadMsg.home - 64)).fenced = false) ∧ (flying loadMsg).incoming = [] ∧
    (({ flying loadMsg with hamlets := [(0, { fenced := true })] } : State).ham (loadMsg.home - 64)).fenced = true ∧
    ((flying replyMsg).ctx 0 0).late = none ∧ ((flying replyMsg).ctx 0 0).devq = [] := by decide +kernel

/-- Vector memory: no message of the context is on its way, and no line is listed. -/
theorem witness_vectorMemoryMore : rows.flight = [] ∧ rows.listedLine (rows.commonsPa (cm 0x200) / 64 * 64) = false := by decide +kernel

/-- The further conditions of the events of the memory system: an absent page is walked, a line that is listed, a set that holds the line. -/
theorem witness_memoryEventsMore :
    (holding.areaOf 0x10000 = none ∧ holding.cxlStuck 0x10000 = false ∧ scaleRange holding.ranges 0x10000 = none ∧ find holding.scales 0x10000 = none ∧ holding.scales = []) ∧
    (({ scaled with bad := [0x20000] } : State).listedLine 0x20000 = true ∧ scaled.listedLine 0x20000 = false ∧
      (scaled.sameSet 0x20000 scaled.ways).length < setWays ∧ Memory.wf scaled.mem = true ∧ fld windowRange 173 128 % 16 = 0) ∧
    (canonical 0x900000 = true ∧ localWindow 0x900000 = false ∧
      isOk (wider.translateLeaf 0 (wider.ctx 0 0).tblroot 0x900000 false) (fun _ => true) = false) ∧
    ((flying mcastMsg).mute mcastMsg = false ∧ (flying mcastMsg).cxlMeets mcastMsg (.mcastDelivery 5) = none ∧ mcastMsg.id = 5) ∧
    (let s := with' [];
      Memory.wf s.mem = true ∧ s.bad = [] ∧ s.tainted = [] ∧ s.scales = [] ∧ s.hamlets = [] ∧ s.region 0x10FFF = .hbm ∧ s.region 0x20FFF = .hbm ∧
      s.areaOf 0x10FFF = none ∧ s.areaOf 0x20FFF = none) := by decide +kernel

/-- MFMT on the handler context, its operand in bounds. -/
theorem witness_mfmtOnHandler :
    let o := op 0 0 0
    acts onHandler (.mfmt o) [scLoc o o.a] = true ∧ (onHandler.entered o).onHandler = true := by decide +kernel

end Sys2Proof.Tests
end

section
/-! Bytes of a number and the number that bytes hold (00 R5): one byte of each. -/

namespace Sys2Proof.Machine

@[simp] theorem bytesOf_length (n x : Nat) : (bytesOf n x).length = n := by
  induction n generalizing x with
  | zero => rfl
  | succ n ih => simp [bytesOf, ih]

/-- Byte `i` of a number's bytes is that of weight 256 ^ `i`. -/
theorem bytesOf_getElem {n x i : Nat} (h : i < (bytesOf n x).length) : (bytesOf n x)[i] = BitVec.ofNat 8 (x / 256 ^ i) := by
  induction n generalizing x i with
  | zero => simp at h
  | succ n ih =>
    cases i with
    | zero => simp [bytesOf]
    | succ i => simp only [bytesOf, List.getElem_cons_succ, ih, Nat.div_div_eq_div_mul, Nat.pow_succ']

theorem ofBytes_lt (l : List Byte) : ofBytes l < 256 ^ l.length := by
  induction l with
  | nil => simp [ofBytes]
  | cons b r ih =>
    rw [ofBytes, List.length_cons, Nat.pow_succ']
    omega

/-- The byte of weight 256 ^ `i` of the number that bytes hold is byte `i` of them. -/
theorem ofBytes_byte {l : List Byte} {i : Nat} (h : i < l.length) : ofBytes l / 256 ^ i % 256 = l[i].toNat := by
  induction l generalizing i with
  | nil => simp at h
  | cons b r ih =>
    cases i with
    | zero => simp only [ofBytes, List.getElem_cons_zero]; omega
    | succ i =>
      have hd : (b.toNat + 256 * ofBytes r) / 256 = ofBytes r := by omega
      rw [ofBytes, Nat.pow_succ', ← Nat.div_div_eq_div_mul, hd, ih (by simpa using h), List.getElem_cons_succ]

/-- Byte `i` of a bit vector. -/
theorem extractLsb'_byte {w : Nat} (x : BitVec w) (i : Nat) : (x.extractLsb' (8 * i) 8).toNat = x.toNat / 256 ^ i % 256 := by
  rw [BitVec.extractLsb'_toNat, Nat.shiftRight_eq_div_pow, Nat.pow_mul]

end Sys2Proof.Machine
end

section
/-! What CMP, LEA and BITS compute, in the terms of bit vectors (08 R204, R206, R207). -/

namespace Sys2Proof.Machine

variable (x y : Word)

/-! ### The relations of CMP (R204) -/

theorem cmpRel_eq : cmpRel .eq x y = (x == y) := rfl
theorem cmpRel_ne : cmpRel .ne x y = (x != y) := decide_not
theorem cmpRel_lt : cmpRel .lt x y = x.slt y := BitVec.slt_eq_decide.symm
theorem cmpRel_ge : cmpRel .ge x y = !x.slt y := by simp [cmpRel, BitVec.slt_eq_decide, ← decide_not]
theorem cmpRel_ltu : cmpRel .ltu x y = x.ult y := BitVec.ult_eq_decide.symm
theorem cmpRel_geu : cmpRel .geu x y = !x.ult y := by simp [cmpRel, BitVec.ult_eq_decide, ← decide_not]
theorem cmpRel_tst : cmpRel .tst x y = (x &&& y != 0) := decide_not

/-- LEA's scaled index is a product (R207). -/
theorem shiftLeft_eq_mul_ofNat (k : Nat) : x <<< k = x * BitVec.ofNat 64 (2 ^ k) := by
  have hk : BitVec.twoPow 64 k = BitVec.ofNat 64 (2 ^ k) := BitVec.eq_of_toNat_eq (by simp)
  rw [BitVec.shiftLeft_eq_mul_twoPow, hk]

/-! ### The counts of BITS (R206) -/

/-- The count of POP is that of the positions that hold a set bit. -/
theorem popBelow_eq_length (n : Nat) : popBelow x n = ((List.range n).filter fun i => x.getLsbD i).length := by
  induction n with
  | zero => rfl
  | succ n ih => cases h : x.getLsbD n <;> simp [popBelow, List.range_succ, ih, h]

theorem bitsOp_pop : (bitsOp .pop x).toNat = ((List.range 64).filter fun i => x.getLsbD i).length := by
  have hle := List.length_filter_le (fun i => x.getLsbD i) (List.range 64)
  rw [List.length_range] at hle
  rw [bitsOp, popBelow_eq_length, BitVec.toNat_ofNat, Nat.mod_eq_of_lt (by omega)]

theorem clzFrom_zero (n : Nat) : clzFrom 0 n = n := by
  induction n with
  | zero => rfl
  | succ n ih => rw [clzFrom, ih]; simp [Nat.add_comm]

theorem ctzFrom_zero (n : Nat) : ctzFrom 0 n = n := by
  induction n with
  | zero => rfl
  | succ n ih => rw [ctzFrom, ih]; simp [Nat.add_comm]

variable {x} {n : Nat}

/-- Every position above the highest set bit is counted. -/
theorem clzFrom_highest (hn : x.getLsbD n = true) (ha : ∀ i, n < i → x.getLsbD i = false) (k : Nat) :
    clzFrom x (n + 1 + k) = k := by
  induction k with
  | zero => simp [clzFrom, hn]
  | succ k ih =>
    rw [← Nat.add_assoc, clzFrom, ha _ (by omega), ih]
    simp [Nat.add_comm]

/-- Every position below the lowest set bit is counted. -/
theorem ctzFrom_lowest (hn : x.getLsbD n = true) (hb : ∀ i, i < n → x.getLsbD i = false) (hw : n < 64) (k : Nat) (hk : k ≤ n) :
    ctzFrom x (63 - n + 1 + k) = k := by
  induction k with
  | zero =>
    have hp : 63 - (63 - n) = n := by omega
    simp [ctzFrom, hp, hn]
  | succ k ih =>
    rw [← Nat.add_assoc, ctzFrom, hb _ (by omega), ih (by omega)]
    simp [Nat.add_comm]

theorem bitsOp_clz (hn : x.getLsbD n = true) (ha : ∀ i, n < i → x.getLsbD i = false) :
    bitsOp .clz x = BitVec.ofNat 64 (63 - n) := by
  have hw := BitVec.lt_of_getLsbD hn
  have h := clzFrom_highest hn ha (63 - n)
  rw [show n + 1 + (63 - n) = 64 by omega] at h
  rw [bitsOp, h]

theorem bitsOp_ctz (hn : x.getLsbD n = true) (hb : ∀ i, i < n → x.getLsbD i = false) :
    bitsOp .ctz x = BitVec.ofNat 64 n := by
  have hw := BitVec.lt_of_getLsbD hn
  have h := ctzFrom_lowest hn hb hw n (Nat.le_refl n)
  rw [show 63 - n + 1 + n = 64 by omega] at h
  rw [bitsOp, h]

/-! ### The reversals of BITS (R206) -/

variable (x) {i : Nat}

theorem bitsOp_brev (hi : i < 64) : (bitsOp .brev x).getLsbD i = x.getLsbD (63 - i) := by
  rw [bitsOp, BitVec.getLsbD_reverse, BitVec.getMsbD_eq_getLsbD]
  simp [hi]

theorem bitsOp_bswap (hi : i < 8) : (bitsOp .bswap x).extractLsb' (8 * i) 8 = x.extractLsb' (8 * (7 - i)) 8 := by
  have hlt : ofBytes (bytesOf 8 x.toNat).reverse < 2 ^ 64 := by simpa using ofBytes_lt (bytesOf 8 x.toNat).reverse
  have hi' : i < (bytesOf 8 x.toNat).reverse.length := by simpa using hi
  apply BitVec.eq_of_toNat_eq
  calc ((bitsOp .bswap x).extractLsb' (8 * i) 8).toNat
    _ = ofBytes (bytesOf 8 x.toNat).reverse / 256 ^ i % 256 := by
      rw [extractLsb'_byte, bitsOp, BitVec.toNat_ofNat, Nat.mod_eq_of_lt hlt]
    _ = x.toNat / 256 ^ (7 - i) % 256 := by
      rw [ofBytes_byte hi', List.getElem_reverse, bytesOf_getElem, BitVec.toNat_ofNat, bytesOf_length]
    _ = (x.extractLsb' (8 * (7 - i)) 8).toNat := (extractLsb'_byte x (7 - i)).symm

end Sys2Proof.Machine
end

section
/-! CMP, SEL, BITS, MOVI, LEA and PSET retire with what they write (08 R204 to R207, R215). -/

namespace Sys2Proof.Machine

variable {s : State} {o : Ops} {imm : Bool}

/-- CMP writes all ones or zero, as its relation holds or not, to the whole of its predicate. -/
theorem cmp_retires {cc : Cc} {b : Bool} (hb : cmpRel cc ((s.entered o).scOp o o.a) ((s.entered o).bOp o imm) = b)
    (h : s.goes (.cmp o imm cc) o = true)
    (hl : (s.entered o).locsFault ([scLoc o o.a] ++ (if imm then [] else [scLoc o o.b])) = none) :
    ∃ v, exec (.cmp o imm cc) s = .next v ∧ Retires (s.entered o) v o [fixedResult 1 (intoP o (allOr b))] :=
  hb ▸ run_push h (within_ok hl)

/-- A body that checks its operands and puts a value into sd with latency 1. -/
theorem run_put1 {i : Instr} {body : State → Act} {ls : List Loc} {x : Word} (h : s.goes i o = true)
    (hb : body (s.entered o) = (s.entered o).within ls ((s.entered o).put1 o x)) (hl : (s.entered o).locsFault ls = none) :
    ∃ v, s.run i o body = .next v ∧ Retires (s.entered o) v o [fixedResult 1 (intoD o x)] :=
  run_push h (hb.trans (within_ok hl))

/-- PSET's forms between predicates write the whole predicate. -/
theorem pset_retires {f : PFn} (hm : f ≠ .mov) (hg : f ≠ .get) (h : s.goes (.pset o f) o = true) :
    ∃ v, exec (.pset o f) s = .next v ∧ Retires (s.entered o) v o [fixedResult 1 (intoP o
      (psetOp f ((s.entered o).me.pred o.a.toNat) ((s.entered o).me.pred o.b.toNat)))] := by
  refine run_push h ?_
  cases f with
  | mov => exact absurd rfl hm
  | get => exact absurd rfl hg
  | and | or | xor | andn => rfl

/-- Settles O21: each instruction's body leaves one result, and what it puts there is the value of its rule. -/
theorem scalarMovesComplete : Obligations.ScalarMovesComplete := by
  refine ⟨fun s o => ⟨fun imm cc h hl => ?cmp, fun imm p h hl => run_put1 h rfl hl, fun f h hl => run_put1 h rfl hl,
    fun h hl => run_put1 h rfl hl, fun imm k h hl => ?lea, fun f hm hg h => pset_retires hm hg h,
    fun h hl => run_push h (within_ok hl), fun h hl => run_put1 h rfl hl⟩,
    fun x => ⟨bitsOp_pop x, ?zero, fun n => bitsOp_clz, fun n => bitsOp_ctz, fun i => bitsOp_brev x, fun i => bitsOp_bswap x⟩⟩
  case cmp =>
    cases cc with
    | eq => exact cmp_retires (cmpRel_eq _ _) h hl
    | ne => exact cmp_retires (cmpRel_ne _ _) h hl
    | lt => exact cmp_retires (cmpRel_lt _ _) h hl
    | ge => exact cmp_retires (cmpRel_ge _ _) h hl
    | ltu => exact cmp_retires (cmpRel_ltu _ _) h hl
    | geu => exact cmp_retires (cmpRel_geu _ _) h hl
    | tst => exact cmp_retires (cmpRel_tst _ _) h hl
  case lea =>
    rw [← shiftLeft_eq_mul_ofNat]
    exact run_put1 h rfl hl
  case zero =>
    rintro rfl
    exact ⟨by rw [bitsOp, clzFrom_zero]; rfl, by rw [bitsOp, ctzFrom_zero]; rfl⟩

end Sys2Proof.Machine
end

section
/-! What the frame makes of a body that holds, and of one that leaves its result in a state that it has changed; an
access within a line that is served at once (06 R166, 08 R217). -/

namespace Sys2Proof.Machine

variable {s u w : State} {i : Instr} {o : Ops} {body : State → Act}

/-- A body whose wait is not met: the instruction is issued again later (03 R66). -/
theorem run_hold (h : s.goes i o = true) (hb : body (s.entered o) = .hold u) : s.run i o body = .next u.stall := by
  rw [run_goes h, hb]; rfl

/-- A body that leaves one result in a state that it has itself changed. -/
theorem run_push_on {x : Result} (h : s.goes i o = true) (hb : body (s.entered o) = .done (u.push x)) :
    ∃ t, s.run i o body = .next t ∧ Retires u t o [x] :=
  ⟨_, by rw [run_goes h, hb]; rfl, retires_push⟩

/-! ### An access within a line -/

variable {ea : Word} {n : Nat} {kind : Access} {p : Place} {r : Place × State} {l1 st : Bool}

/-- An address that resolves has not been refused by the pager. -/
theorem refused_of_resolve (h : s.resolve ea kind = .ok r) : s.refused ea (kind = .exec) = false := by
  by_contra hf
  rw [State.resolve, if_pos (by simpa using hf)] at h
  cases h

/-- An access that resolves and overlaps no entry of the replay queue meets no refused entry (06 R166). -/
theorem refusedMeet_none (hq : s.queued ea n = none) (hr : s.resolve ea kind = .ok r) : s.refusedMeet ea n kind = none := by
  have ho : (s.myCore.replay.any fun r => r.ctx = s.curCtx && r.refused.isSome
      && ea.toNat < r.va.toNat + r.body.span && r.va.toNat < ea.toNat + n) = false := by
    rw [List.any_eq_false]
    intro e he hm
    have hn := (List.find?_eq_none.mp hq) e he
    simp only [Bool.and_eq_true] at hm hn
    obtain ⟨⟨⟨hc, -⟩, hlo⟩, hhi⟩ := hm
    exact hn ⟨⟨hc, hlo⟩, hhi⟩
  simp [State.refusedMeet, refused_of_resolve hr, ho]

theorem resolvePieces_one {off : Nat} {info : Word} (hr : s.resolve ea kind = .ok (p, w)) :
    s.resolvePieces kind [{ va := ea, n := n, off := off, info := info }] =
      ([({ va := ea, n := n, off := off, info := info }, p)], [], w) := by
  simp [State.resolvePieces, hr]

/-- A read within a line, of a place that is read with no message and that nothing keeps waiting, has its bytes at once. -/
theorem readPieces_here (hl : ea.toNat % 64 + n ≤ 64) (hq : s.queued ea n = none) (hr : s.resolve ea kind = .ok (p, w))
    (hp : p.here = true) (hb : w.placeBad w.curCore p n = none) (hs : w.placeStuck w.curCore p n = none)
    (hm : w.mustWait p n = false) :
    s.readPieces (pieces ea n 0 ea) kind l1 st =
      .ok (ofBytes (w.readPlace w.curCore p n l1 st).1) [] (w.readPlace w.curCore p n l1 st).2 := by
  have hw : worst [] = none := rfl
  rw [pieces_one hl]
  unfold State.readPieces
  rw [resolvePieces_one hr]
  cases p with
  | far _ _ | foreign _ _ _ => cases hp
  | near _ | window _ _ _ | global _ _ => simp [refusedMeet_none hq hr, hq, hb, hs, hm, hw]

theorem readNow_here (hl : ea.toNat % 64 + n ≤ 64) (hq : s.queued ea n = none) (hr : s.resolve ea .read = .ok (p, w))
    (hp : p.here = true) (hb : w.placeBad w.curCore p n = none) (hs : w.placeStuck w.curCore p n = none)
    (hm : w.mustWait p n = false) :
    s.readNow ea n l1 st = .ok (ofBytes (w.readPlace w.curCore p n l1 st).1, (w.readPlace w.curCore p n l1 st).2) := by
  rw [State.readNow, readPieces_here hl hq hr hp hb hs hm]

end Sys2Proof.Machine
end

section
/-! FENCE, WAITC and WAITA complete or hold (08 R225 to R228, 06 R148, R149). -/

namespace Sys2Proof.Machine

variable {s : State} {o : Ops}

/-! ### WAITC (R226) -/

/-- What WAITC waits for: its count, or for function 0 every count, is zero. -/
def Ctx.countsZero (x : Ctx) (n : BitVec 2) : Prop := if n = 0 then x.c1 = 0 ∧ x.c2 = 0 ∧ x.c3 = 0 else x.count n.toNat = 0

theorem Ctx.countsZero_iff (x : Ctx) (n : BitVec 2) :
    x.countsZero n ↔ (if n = 0 then x.c1 = 0 && x.c2 = 0 && x.c3 = 0 else decide (x.count n.toNat = 0)) = true := by
  unfold Ctx.countsZero
  split <;> simp [and_assoc]

theorem waitcBody_zero {n : BitVec 2} (h : s.me.countsZero n) : waitcBody n s = .done s :=
  if_pos ((s.me.countsZero_iff n).mp h)

theorem waitcBody_nonzero {n : BitVec 2} (h : ¬ s.me.countsZero n) : waitcBody n s = .hold s :=
  if_neg (mt (s.me.countsZero_iff n).mpr h)

/-! ### WAITA (R227, R228) -/

/-- A cell takes the low 64 bits of its value. -/
theorem cellAt_ofNat (a v : Nat) : cellAt a 8 (BitVec.ofNat 64 v).toNat = cellAt a 8 v := by simp [cellAt]

variable {eq : Bool}

theorem waitaBody_misaligned (hl : s.locsFault [scLoc o o.a, scLoc o o.d] = none) (ha : (s.ea o 8).toNat % 8 ≠ 0) :
    waitaBody o eq s = .trap 0x03 (s.ea o 8) := by
  simp [waitaBody, within_ok hl, aligned, ha]

/-- WAITA that reads its value at once retires with it, or holds, as its comparison asks. -/
theorem waitaBody_read {v : Nat} {t : State} (hl : s.locsFault [scLoc o o.a, scLoc o o.d] = none)
    (ha : (s.ea o 8).toNat % 8 = 0) (hr : s.readNow (s.ea o 8) 8 false = .ok (v, t)) :
    waitaBody o eq s = if eq = true ↔ BitVec.ofNat 64 v = s.scOp o o.d
      then .done (t.push (varResult (intoD o (BitVec.ofNat 64 v)))) else .hold t := by
  simp only [waitaBody, within_ok hl, aligned, ha, hr, intoD, cellAt_ofNat, eq_iff_iff, iff_comm (a := eq = true)]
  rfl

/-- Settles O28: FENCE goes on at once when its release and acquire wait for nothing, WAITC's test is that of its counts, and
WAITA's read is of one place that is at hand. -/
theorem orderingCompletes : Obligations.OrderingCompletes := by
  refine fun s w o p => ⟨fun sc k h ha hr hs => ?fence, fun n h => ⟨fun hz => run_plain h (waitcBody_zero hz),
    fun hz => run_hold h (waitcBody_nonzero hz)⟩, fun eq h hl => ⟨fun ha => run_trap h (waitaBody_misaligned hl ha), ?read⟩⟩
  case fence =>
    cases k with
    | acq => exact run_plain h (if_pos (ha rfl))
    | rel => exact run_plain h (withRelease_ready (hr (.inl rfl)))
    | ar => exact run_plain h (withRelease_ready (hr (.inr rfl)))
    | sc => exact run_plain h (withRelease_ready (hs rfl))
  case read =>
    intro ha hq hr hp hb hs hm
    have hbody := waitaBody_read (eq := eq) hl ha (readNow_here (by omega) hq hr hp hb hs hm)
    exact ⟨fun he => run_push_on h (hbody.trans (if_pos he)), fun he => run_hold h (hbody.trans (if_neg he))⟩

end Sys2Proof.Machine
end

section
/-! The words of an instruction and its fields (07 R168 to R171): each is had from the other. -/

namespace Sys2Proof

open Machine
open BitVec (extractLsb'_append_extractLsb'_eq_extractLsb')

/-- Two concatenations at the same place are equal only part by part. -/
theorem append_inj {n m : Nat} {x x' : BitVec n} {y y' : BitVec m} (h : x ++ y = x' ++ y') : x = x' ∧ y = y' := by
  have hx := congrArg (BitVec.extractLsb' m n) h
  have hy := congrArg (BitVec.extractLsb' 0 m) h
  rw [BitVec.extractLsb'_append_eq_left, BitVec.extractLsb'_append_eq_left] at hx
  rw [BitVec.extractLsb'_append_eq_right, BitVec.extractLsb'_append_eq_right] at hy
  exact ⟨hx, hy⟩

theorem ofBool_inj {a b : Bool} (h : BitVec.ofBool a = BitVec.ofBool b) : a = b := by
  simpa using congrArg (BitVec.getLsbD · 0) h

theorem extractLsb'_one {n : Nat} (w : BitVec n) (k : Nat) : w.extractLsb' k 1 = BitVec.ofBool (w.getLsbD k) := by
  apply BitVec.eq_of_getLsbD_eq
  intro i hi
  obtain rfl : i = 0 := by omega
  simp

/-! ### The base word -/

/-- The length code of an instruction's operands (R168). -/
def Ops.len (o : Ops) : BitVec 2 := (if o.ext.isSome then 1 else 0) ||| (if o.lit.isSome then 2 else 0)

/-- Bits [27:10] of the base word: the operand fields of a one-word form (R169). -/
def shortMid (o : Ops) : BitVec 18 := (o.b.setWidth 6 : BitVec 6) ++ (o.a.setWidth 6 : BitVec 6) ++ (o.d.setWidth 6 : BitVec 6)

/-- Bits [27:10] of the base word: the controls of an extended form (R170). -/
def ctlMid (c : Ctl) : BitVec 18 :=
  c.hold ++ c.cw ++ c.pol ++ c.ord ++ c.scope ++ c.rm ++ BitVec.ofBool c.pneg ++ c.pred

def Ops.mid (o : Ops) : BitVec 18 :=
  match o.ext with
  | none => shortMid o
  | some c => ctlMid c

theorem baseWord_eq (op : BitVec 7) (fn : BitVec 4) (o : Ops) :
    baseWord op fn o = fn ++ o.mid ++ op ++ BitVec.ofBool o.sw ++ o.len := rfl

/-- A word is the concatenation of the fields of R169 and R170. -/
theorem word_fields (w : BitVec 32) :
    w.extractLsb' 28 4 ++ w.extractLsb' 10 18 ++ w.extractLsb' 3 7 ++ BitVec.ofBool (w.getLsbD 2) ++ w.extractLsb' 0 2 = w := by
  rw [← extractLsb'_one w 2, extractLsb'_append_extractLsb'_eq_extractLsb' (start₁ := 10) (len₁ := 18) rfl,
    extractLsb'_append_extractLsb'_eq_extractLsb' (start₁ := 3) (len₁ := 7) rfl,
    extractLsb'_append_extractLsb'_eq_extractLsb' (start₁ := 2) (len₁ := 1) rfl,
    extractLsb'_append_extractLsb'_eq_extractLsb' (start₁ := 0) (len₁ := 2) rfl]
  exact BitVec.extractLsb'_eq_self

/-- The fields of a base word. -/
theorem baseWord_fields {op : BitVec 7} {fn : BitVec 4} {o : Ops} {w : BitVec 32} (h : w = baseWord op fn o) :
    w.extractLsb' 28 4 = fn ∧ w.extractLsb' 10 18 = o.mid ∧ w.extractLsb' 3 7 = op ∧ w.getLsbD 2 = o.sw ∧
      w.extractLsb' 0 2 = o.len := by
  have hw := (word_fields w).trans (h.trans (baseWord_eq op fn o))
  obtain ⟨hw, hl⟩ := append_inj (n := 30) hw
  obtain ⟨hw, hs⟩ := append_inj (n := 29) hw
  obtain ⟨hw, ho⟩ := append_inj (n := 22) hw
  obtain ⟨hf, hm⟩ := append_inj hw
  exact ⟨hf, hm, ho, ofBool_inj hs, hl⟩

/-- A word is the base word of its own fields. -/
theorem eq_baseWord {w : BitVec 32} {o : Ops} (hm : w.extractLsb' 10 18 = o.mid) (hs : w.getLsbD 2 = o.sw)
    (hl : w.extractLsb' 0 2 = o.len) : w = baseWord (w.extractLsb' 3 7) (w.extractLsb' 28 4) o := by
  rw [baseWord_eq, ← hl, ← hs, ← hm, word_fields]

/-! ### The operands -/

/-- The operand fields of a one-word form have six bits (07 R169). -/
def Ops.Fits (o : Ops) : Prop := o.ext = none → o.d.toNat < 64 ∧ o.a.toNat < 64 ∧ o.b.toNat < 64

theorem setWidth_six {x : BitVec 16} (h : x.toNat < 64) : (x.setWidth 6).setWidth 16 = x := by
  apply BitVec.eq_of_toNat_eq
  simp only [BitVec.toNat_setWidth]
  omega

/-- The operands of a one-word form, as the decoder reads them. -/
def shortOps (w : BitVec 32) (lit : Option Word) : Ops :=
  { sw := w.getLsbD 2, ext := none, lit := lit, d := (w.extractLsb' 10 6).setWidth 16,
    a := (w.extractLsb' 16 6).setWidth 16, b := (w.extractLsb' 22 6).setWidth 16 }

/-- The operands of an extended form, as the decoder reads them. -/
def longOps (w e1 e2 : BitVec 32) (lit : Option Word) : Ops :=
  { sw := w.getLsbD 2, ext := some (ctlOf w e2), lit := lit, d := e1.extractLsb' 0 16, a := e1.extractLsb' 16 16,
    b := e2.extractLsb' 0 16 }

theorem short_fields (w : BitVec 32) : w.extractLsb' 22 6 ++ w.extractLsb' 16 6 ++ w.extractLsb' 10 6 = w.extractLsb' 10 18 := by
  rw [extractLsb'_append_extractLsb'_eq_extractLsb' (start₁ := 16) (len₁ := 6) rfl,
    extractLsb'_append_extractLsb'_eq_extractLsb' (start₁ := 10) (len₁ := 6) rfl]

theorem ctlMid_ctlOf (w e2 : BitVec 32) : ctlMid (ctlOf w e2) = w.extractLsb' 10 18 := by
  simp only [ctlMid, ctlOf, ← extractLsb'_one]
  rw [extractLsb'_append_extractLsb'_eq_extractLsb' (start₁ := 23) (len₁ := 2) rfl,
    extractLsb'_append_extractLsb'_eq_extractLsb' (start₁ := 21) (len₁ := 2) rfl,
    extractLsb'_append_extractLsb'_eq_extractLsb' (start₁ := 19) (len₁ := 2) rfl,
    extractLsb'_append_extractLsb'_eq_extractLsb' (start₁ := 17) (len₁ := 2) rfl,
    extractLsb'_append_extractLsb'_eq_extractLsb' (start₁ := 14) (len₁ := 3) rfl,
    extractLsb'_append_extractLsb'_eq_extractLsb' (start₁ := 13) (len₁ := 1) rfl,
    extractLsb'_append_extractLsb'_eq_extractLsb' (start₁ := 10) (len₁ := 3) rfl]

/-- Two 16-bit halves, or a byte, a byte and a half, make an extension word (R171). -/
theorem ext_fields (e : BitVec 32) :
    e.extractLsb' 16 16 ++ e.extractLsb' 0 16 = e ∧ e.extractLsb' 24 8 ++ e.extractLsb' 16 8 ++ e.extractLsb' 0 16 = e := by
  refine ⟨BitVec.extractLsb'_append_extractLsb', ?_⟩
  rw [extractLsb'_append_extractLsb'_eq_extractLsb' (start₁ := 16) (len₁ := 8) rfl]
  exact BitVec.extractLsb'_append_extractLsb'

theorem shortOps_fits (w : BitVec 32) (lit : Option Word) : (shortOps w lit).Fits := by
  refine fun _ => ⟨?_, ?_, ?_⟩ <;> simp only [shortOps, BitVec.toNat_setWidth, BitVec.extractLsb'_toNat] <;> omega

theorem shortOps_mid (w : BitVec 32) (lit : Option Word) : (shortOps w lit).mid = w.extractLsb' 10 18 := by
  simp [Ops.mid, shortOps, shortMid, short_fields]

theorem longOps_mid (w e1 e2 : BitVec 32) (lit : Option Word) : (longOps w e1 e2 lit).mid = w.extractLsb' 10 18 :=
  ctlMid_ctlOf w e2

theorem shortOps_of {w : BitVec 32} {o : Ops} (he : o.ext = none) (hf : o.Fits) (hm : w.extractLsb' 10 18 = o.mid)
    (hs : w.getLsbD 2 = o.sw) : shortOps w o.lit = o := by
  obtain ⟨hd, ha, hb⟩ := hf he
  obtain ⟨sw, ext, lit, d, a, b⟩ := o
  obtain rfl : ext = none := he
  have h := (short_fields w).trans hm
  obtain ⟨h, h0⟩ := append_inj (n := 12) h
  obtain ⟨h2, h1⟩ := append_inj h
  simp only [shortOps, hs, h0, h1, h2, setWidth_six hd, setWidth_six ha, setWidth_six hb]

theorem ctlOf_of {w e2 : BitVec 32} {c : Ctl} {b : BitVec 16} (hm : w.extractLsb' 10 18 = ctlMid c)
    (he : e2 = c.xf ++ c.kmask ++ b) : ctlOf w e2 = c ∧ e2.extractLsb' 0 16 = b := by
  have h := (ctlMid_ctlOf w e2).trans hm
  obtain ⟨h, h0⟩ := append_inj (n := 15) h
  obtain ⟨h, h1⟩ := append_inj (n := 14) h
  obtain ⟨h, h2⟩ := append_inj (n := 11) h
  obtain ⟨h, h3⟩ := append_inj (n := 9) h
  obtain ⟨h, h4⟩ := append_inj (n := 7) h
  obtain ⟨h, h5⟩ := append_inj (n := 5) h
  obtain ⟨h7, h6⟩ := append_inj h
  have g := (ext_fields e2).2.trans he
  obtain ⟨g, g0⟩ := append_inj (n := 16) g
  obtain ⟨g2, g1⟩ := append_inj g
  refine ⟨?_, g0⟩
  cases c
  simp only [ctlOf, Ctl.mk.injEq]
  exact ⟨h7, h6, h5, h4, h3, h2, ofBool_inj h1, h0, g1, g2⟩


/-! ### The list of words -/

theorem longOps_of {w : BitVec 32} {o : Ops} {c : Ctl} (he : o.ext = some c) (hm : w.extractLsb' 10 18 = o.mid)
    (hs : w.getLsbD 2 = o.sw) : longOps w (o.a ++ o.d) (c.xf ++ c.kmask ++ o.b) o.lit = o := by
  obtain ⟨sw, ext, lit, d, a, b⟩ := o
  obtain rfl : ext = some c := he
  obtain ⟨hc, hb⟩ := ctlOf_of (b := b) hm rfl
  have ha : (a ++ d : BitVec 32).extractLsb' 16 16 = a := BitVec.extractLsb'_append_eq_left
  have hd : (a ++ d : BitVec 32).extractLsb' 0 16 = d := BitVec.extractLsb'_append_eq_right
  simp only [longOps, hs, hc, hb, ha, hd]

/-- What the decoder reads, by the length code of R168. -/
theorem opsOfWords_eq (w : BitVec 32) (rest : List (BitVec 32)) :
    opsOfWords (w :: rest) =
      if w.extractLsb' 0 2 = 0 then some (shortOps w none)
      else if w.extractLsb' 0 2 = 1 then
        match rest with
        | e1 :: e2 :: _ => some (longOps w e1 e2 none)
        | _ => none
      else if w.extractLsb' 0 2 = 2 then
        match rest with
        | l :: h :: _ => some (shortOps w (some (h ++ l)))
        | _ => none
      else
        match rest with
        | e1 :: e2 :: l :: h :: _ => some (longOps w e1 e2 (some (h ++ l)))
        | _ => none := rfl

/-- The words of a literal (R175). -/
theorem literal_words (l : Word) : ((l >>> 32).setWidth 32 ++ l.setWidth 32 : Word) = l := by
  apply BitVec.eq_of_getLsbD_eq
  intro i hi
  rw [BitVec.getLsbD_append]
  by_cases h : i < 32
  · simp [h]
  · simp [h, show i - 32 < 32 by omega, show 32 + (i - 32) = i by omega]

theorem words_literal (h l : BitVec 32) : (h ++ l : Word).setWidth 32 = l ∧ ((h ++ l : Word) >>> 32).setWidth 32 = h := by
  constructor
  · apply BitVec.eq_of_getLsbD_eq
    intro i hi
    rw [BitVec.getLsbD_setWidth, BitVec.getLsbD_append]
    simp [hi]
  · apply BitVec.eq_of_getLsbD_eq
    intro i hi
    rw [BitVec.getLsbD_setWidth, BitVec.getLsbD_ushiftRight, BitVec.getLsbD_append]
    simp [hi]

/-- The operands that the decoder reads from an instruction's words are the instruction's. -/
theorem opsOfWords_baseWord (op : BitVec 7) (fn : BitVec 4) {o : Ops} (hf : o.Fits) (rest : List (BitVec 32)) :
    opsOfWords (baseWord op fn o :: (tailWords o ++ rest)) = some o := by
  obtain ⟨-, hm, -, hs, hl⟩ := baseWord_fields (op := op) (fn := fn) (o := o) rfl
  rw [opsOfWords_eq, hl]
  cases he : o.ext with
  | none =>
    have hso := shortOps_of he hf hm hs
    cases hlit : o.lit with
    | none =>
      rw [hlit] at hso
      simp [Ops.len, he, hlit, hso]
    | some l =>
      rw [hlit] at hso
      simp [Ops.len, he, hlit, tailWords, literal_words, hso]
  | some c =>
    have hlo := longOps_of he hm hs
    cases hlit : o.lit with
    | none =>
      rw [hlit] at hlo
      simp [Ops.len, he, hlit, tailWords, hlo]
    | some l =>
      rw [hlit] at hlo
      simp [Ops.len, he, hlit, tailWords, literal_words, hlo]

/-- The words that the decoder reads are those of the operands that it has read. -/
theorem words_of_opsOfWords {w : BitVec 32} {ws : List (BitVec 32)} {o : Ops} (h : opsOfWords (w :: ws) = some o) :
    w = baseWord (w.extractLsb' 3 7) (w.extractLsb' 28 4) o ∧ ∃ rest, ws = tailWords o ++ rest := by
  rw [opsOfWords_eq] at h
  split at h
  case isTrue h0 =>
    cases h
    exact ⟨eq_baseWord (shortOps_mid w none).symm rfl (by simp [h0, Ops.len, shortOps]), ws, rfl⟩
  case isFalse h0 =>
    split at h
    case isTrue h1 =>
      split at h
      case h_1 e1 e2 r =>
        cases h
        refine ⟨eq_baseWord (longOps_mid w e1 e2 none).symm rfl (by simp [h1, Ops.len, longOps]), r, ?_⟩
        simp [tailWords, longOps, ctlOf, ext_fields]
      case h_2 => cases h
    case isFalse h1 =>
      split at h
      case isTrue h2 =>
        split at h
        case h_1 l hi r =>
          cases h
          refine ⟨eq_baseWord (shortOps_mid w _).symm rfl (by simp [h2, Ops.len, shortOps]), r, ?_⟩
          simp [tailWords, shortOps, words_literal]
        case h_2 => cases h
      case isFalse h2 =>
        have h3 : ∀ x : BitVec 2, x ≠ 0 → x ≠ 1 → x ≠ 2 → x = 3 := by decide
        split at h
        case h_1 e1 e2 l hi r =>
          cases h
          refine ⟨eq_baseWord (longOps_mid w e1 e2 _).symm rfl (by simp [h3 _ h0 h1 h2, Ops.len, longOps]), r, ?_⟩
          simp [tailWords, longOps, ctlOf, ext_fields, words_literal]
        case h_2 => cases h

/-- Little-endian bytes of words give the words back (00 R5). -/
theorem wordsOfBytes_bytesOfWords (ws : List (BitVec 32)) : wordsOfBytes (bytesOfWords ws) = ws := by
  induction ws with
  | nil => rfl
  | cons w ws ih =>
    rw [bytesOfWords, wordsOfBytes, ih, extractLsb'_append_extractLsb'_eq_extractLsb' (start₁ := 16) (len₁ := 8) rfl,
      extractLsb'_append_extractLsb'_eq_extractLsb' (start₁ := 8) (len₁ := 8) rfl,
      extractLsb'_append_extractLsb'_eq_extractLsb' (start₁ := 0) (len₁ := 8) rfl]
    exact congrArg (· :: ws) BitVec.extractLsb'_eq_self

end Sys2Proof
end

section
/-! What an opcode and a function field name (07 R177): the instruction that has them. -/

namespace Sys2Proof

open Machine

/-- If there is an instruction, it has the opcode `n`, the function field `fn` and the operands `o`. -/
def Named (n : Nat) (fn : BitVec 4) (o : Ops) (x : Option Instr) : Prop :=
  ∀ i, x = some i → ∃ op, toRaw i = some (op, fn) ∧ op.toNat = n ∧ opsOf i = some o

section
variable {n : Nat} {op : BitVec 7} {fn : BitVec 4} {o : Ops} {x : Option Instr} {i : Instr}

theorem named_none : Named n fn o none := fun _ h => by cases h

theorem named_some (hn : op.toNat = n) (hr : toRaw i = some (op, fn)) (ho : opsOf i = some o) : Named n fn o (some i) := by
  rintro _ ⟨⟩
  exact ⟨op, hr, hn, ho⟩

theorem named_if {v : BitVec 4} (hn : op.toNat = n) (hr : toRaw i = some (op, v)) (ho : opsOf i = some o) (hx : Named n fn o x) :
    Named n fn o (if fn = v then some i else x) := by
  split
  case isTrue h => exact named_some hn (h ▸ hr) ho
  case isFalse => exact hx

theorem named_z (hn : op.toNat = n) (hr : toRaw i = some (op, 0)) (ho : opsOf i = some o) : Named n fn o (if fn = 0 then some i else none) :=
  named_if hn hr ho named_none

theorem named_flag {f : Bool → Instr} (hn : op.toNat = n) (hr : ∀ b, toRaw (f b) = some (op, bit b)) (ho : ∀ b, opsOf (f b) = some o) :
    Named n fn o (if fn = 0 then some (f false) else if fn = 1 then some (f true) else none) :=
  named_if hn (hr false) (ho false) (named_if hn (hr true) (ho true) named_none)

/-! Fields of the function field, put together again. -/

theorem fnAlu_fields : ∀ fn : BitVec 4, fnAlu (fn.getLsbD 3) (ityOf (fn.extractLsb' 0 3)) = fn := by decide
theorem fnF_fields : ∀ fn : BitVec 4, fnF (ftyOf (fn.extractLsb' 2 2)) (fn &&& 3) = fn := by decide
theorem bit_fields : ∀ fn : BitVec 4, bit (fn.getLsbD 3) <<< 3 ||| (fn.extractLsb' 0 3).setWidth 4 = fn := by decide
theorem bit_low : ∀ fn : BitVec 4, bit (fn.getLsbD 3) <<< 3 ||| (fn &&& 7) = fn := by decide
theorem halves_low : ∀ fn : BitVec 4, (fn >>> 2) <<< 2 ||| (fn &&& 3) = fn := by decide
theorem two_fields : ∀ fn : BitVec 4, (fn.extractLsb' 2 2).setWidth 4 <<< 2 ||| (fn &&& 3) = fn := by decide
theorem waitc_low : ∀ fn : BitVec 4, fn.toNat < 4 → (fn.extractLsb' 0 2).setWidth 4 = fn := by decide
theorem ety_code : ∀ (fn : BitVec 4) (t : ETy), etyOf fn = some t → etyCode t = fn := by
  intro fn t
  cases t <;> revert fn <;> decide

/-- The code of the entry that a code numbers. -/
theorem code_nth {α : Type} [DecidableEq α] {l : List α} (hl : l.Nodup) {c : BitVec 4} {a : α} (h : nth l c = some a) :
    code l a = c := by
  obtain ⟨hc, rfl⟩ := List.getElem?_eq_some_iff.mp h
  rw [code, hl.idxOf_getElem, BitVec.ofNat_toNat, BitVec.setWidth_eq]

theorem named_nth {α : Type} [DecidableEq α] {l : List α} {f : α → Instr} (hn : op.toNat = n) (hl : l.Nodup)
    (hr : ∀ a, toRaw (f a) = some (op, code l a)) (ho : ∀ a, opsOf (f a) = some o) : Named n fn o ((nth l fn).map f) := by
  intro i h
  obtain ⟨a, ha, rfl⟩ := Option.map_eq_some_iff.mp h
  exact ⟨op, by rw [hr, code_nth hl ha], hn, ho a⟩

theorem named_ety {f : ETy → Instr} (hn : op.toNat = n) (hr : ∀ t, toRaw (f t) = some (op, etyCode t)) (ho : ∀ t, opsOf (f t) = some o) :
    Named n fn o ((etyOf fn).map f) := by
  intro i h
  obtain ⟨t, ht, rfl⟩ := Option.map_eq_some_iff.mp h
  exact ⟨op, by rw [hr, ety_code fn t ht], hn, ho t⟩

theorem named_alu {f : Bool → ITy → Instr} (hn : op.toNat = n) (hr : ∀ b t, toRaw (f b t) = some (op, fnAlu b t))
    (ho : ∀ b t, opsOf (f b t) = some o) : Named n fn o (some (f (fn.getLsbD 3) (ityOf (fn.extractLsb' 0 3)))) :=
  named_some hn (by rw [hr, fnAlu_fields]) (ho _ _)

theorem named_bit {f : Bool → BitVec 3 → Instr} (hn : op.toNat = n) (hr : ∀ b k, toRaw (f b k) = some (op, bit b <<< 3 ||| k.setWidth 4))
    (ho : ∀ b k, opsOf (f b k) = some o) : Named n fn o (some (f (fn.getLsbD 3) (fn.extractLsb' 0 3))) :=
  named_some hn (by rw [hr, bit_fields]) (ho _ _)

theorem named_flag2 {f : FTy → Bool → Instr} (hn : op.toNat = n) (hr : ∀ t b, toRaw (f t b) = some (op, fnF t (bit b)))
    (ho : ∀ t b, opsOf (f t b) = some o) :
    Named n fn o (if fn &&& 3 = 0 then some (f (ftyOf (fn.extractLsb' 2 2)) false)
      else if fn &&& 3 = 1 then some (f (ftyOf (fn.extractLsb' 2 2)) true) else none) := by
  intro i hi
  have hf := fnF_fields fn
  split at hi
  case isTrue h =>
    rw [h] at hf
    exact named_some hn (by rw [hr, show bit false = 0 from rfl, hf]) (ho _ _) i hi
  case isFalse =>
    split at hi
    case isTrue h =>
      rw [h] at hf
      exact named_some hn (by rw [hr, show bit true = 1 from rfl, hf]) (ho _ _) i hi
    case isFalse => cases hi

theorem named_nthF {α : Type} [DecidableEq α] {l : List α} {f : FTy → α → Instr} (hn : op.toNat = n) (hl : l.Nodup)
    (hr : ∀ t a, toRaw (f t a) = some (op, fnF t (code l a))) (ho : ∀ t a, opsOf (f t a) = some o) :
    Named n fn o ((nth l (fn &&& 3)).map (f (ftyOf (fn.extractLsb' 2 2)))) := by
  intro i h
  obtain ⟨a, ha, rfl⟩ := Option.map_eq_some_iff.mp h
  exact ⟨op, by rw [hr, code_nth hl ha, fnF_fields], hn, ho _ _⟩
end

/-- An opcode and a function field name no instruction but one that has them. -/
theorem ofRaw_named (op : BitVec 7) (fn : BitVec 4) (o : Ops) : Named op.toNat fn o (ofRaw op fn o) := by
  unfold ofRaw
  dsimp only
  generalize op.toNat = n
  split
  case h_1 | h_2 | h_3 | h_4 | h_5 | h_6 | h_7 | h_8 | h_9 | h_10 | h_11 | h_12 | h_13 | h_14 | h_15 =>
    exact named_alu rfl (fun _ _ => rfl) fun _ _ => rfl
  case h_18 | h_33 | h_34 | h_35 | h_39 | h_46 | h_47 | h_48 | h_57 | h_60 | h_61 | h_63 | h_65 | h_70 | h_75 | h_76
      | h_100 =>
    exact named_nth rfl (by decide) (fun _ => rfl) fun _ => rfl
  case h_19 | h_30 | h_31 | h_32 | h_37 | h_45 | h_50 | h_53 | h_54 | h_56 | h_62 | h_66 | h_67 | h_68 | h_69 | h_77
      | h_79 | h_81 | h_84 | h_85 | h_86 | h_87 | h_88 | h_89 | h_90 | h_91 | h_93 | h_95 | h_97 | h_102 | h_104 |
      h_105 | h_106 | h_107 | h_108 | h_109 | h_110 | h_112 =>
    exact named_z rfl rfl rfl
  case h_21 | h_24 | h_25 =>
    exact named_flag2 rfl (fun _ _ => rfl) fun _ _ => rfl
  case h_23 | h_26 =>
    exact named_nthF rfl (by decide) (fun _ _ => rfl) fun _ _ => rfl
  case h_27 | h_36 | h_38 | h_40 | h_41 | h_44 | h_49 | h_51 | h_52 | h_55 | h_58 | h_59 | h_64 | h_83 | h_101 =>
    exact named_flag rfl (fun _ => rfl) fun _ => rfl
  case h_28 | h_29 | h_74 | h_78 | h_80 | h_92 | h_94 | h_103 =>
    exact named_if rfl rfl rfl (named_if rfl rfl rfl named_none)
  case h_71 | h_72 | h_73 =>
    exact named_ety rfl (fun _ => rfl) fun _ => rfl
  case h_82 | h_111 =>
    exact named_if rfl rfl rfl (named_if rfl rfl rfl (named_if rfl rfl rfl named_none))
  case h_17 | h_20 =>
    exact named_bit rfl (fun _ _ => rfl) fun _ _ => rfl
  case h_98 | h_99 =>
    exact named_some rfl rfl rfl
  case h_16 =>
    intro i h
    obtain ⟨cc, hcc, rfl⟩ := Option.map_eq_some_iff.mp h
    exact ⟨0x0F, by rw [toRaw, code_nth (by decide) hcc, bit_low], rfl, rfl⟩
  case h_22 =>
    have hf := fnF_fields fn
    intro i h
    split at h
    case isTrue h0 =>
      rw [h0] at hf
      cases h
      exact ⟨0x15, by rw [toRaw, hf], rfl, rfl⟩
    case isFalse => cases h
  case h_42 =>
    intro i h
    split at h
    case h_1 s k hs hk =>
      cases h
      exact ⟨0x29, by rw [toRaw, code_nth (by decide) hs, code_nth (by decide) hk, halves_low], rfl, rfl⟩
    case h_2 => cases h
  case h_43 =>
    intro i h
    split at h
    case isTrue h0 =>
      cases h
      exact ⟨0x2A, by rw [toRaw, waitc_low fn h0], rfl, rfl⟩
    case isFalse => cases h
  case h_96 =>
    intro i h
    split at h
    case isTrue => cases h
    case isFalse =>
      obtain ⟨sc, hsc, rfl⟩ := Option.map_eq_some_iff.mp h
      have hc := code_nth (by decide) hsc
      exact ⟨0x5F, by rw [toRaw, hc, BitVec.sub_add_cancel, two_fields], rfl, rfl⟩
  case h_113 =>
    exact named_none

end Sys2Proof
end

section
/-! Decoding and encoding (07 R168 to R178, 18 R421, R422). -/

namespace Sys2Proof

open Machine

/-- Opcode and function field of every encoded instruction, with its operands, name that instruction (07 R177). -/
theorem ofRaw_toRaw (i : Instr) : Laws.Raw.Statement i := by
  cases i with
  | add => apply Laws.Raw.add
  | sub => apply Laws.Raw.sub
  | mul => apply Laws.Raw.mul
  | mulh => apply Laws.Raw.mulh
  | div => apply Laws.Raw.div
  | rem => apply Laws.Raw.rem
  | and => apply Laws.Raw.and
  | or => apply Laws.Raw.or
  | xor => apply Laws.Raw.xor
  | andn => apply Laws.Raw.andn
  | shl => apply Laws.Raw.shl
  | shr => apply Laws.Raw.shr
  | rot => apply Laws.Raw.rot
  | min => apply Laws.Raw.min
  | max => apply Laws.Raw.max
  | cmp => apply Laws.Raw.cmp
  | sel => apply Laws.Raw.sel
  | bits => apply Laws.Raw.bits
  | movi => apply Laws.Raw.movi
  | lea => apply Laws.Raw.lea
  | fadd => apply Laws.Raw.fadd
  | fmul => apply Laws.Raw.fmul
  | ffma => apply Laws.Raw.ffma
  | fdiv => apply Laws.Raw.fdiv
  | fminmax => apply Laws.Raw.fminmax
  | fcmp => apply Laws.Raw.fcmp
  | br => apply Laws.Raw.br
  | jmp => apply Laws.Raw.jmp
  | jmpReg => apply Laws.Raw.jmpReg
  | call => apply Laws.Raw.call
  | callReg => apply Laws.Raw.callReg
  | ret => apply Laws.Raw.ret
  | rep => apply Laws.Raw.rep
  | safept => apply Laws.Raw.safept
  | pset => apply Laws.Raw.pset
  | ld => apply Laws.Raw.ld
  | st => apply Laws.Raw.st
  | ldsync => apply Laws.Raw.ldsync
  | stsync => apply Laws.Raw.stsync
  | feset => apply Laws.Raw.feset
  | pref => apply Laws.Raw.pref
  | stash => apply Laws.Raw.stash
  | flush => apply Laws.Raw.flush
  | fence => apply Laws.Raw.fence
  | waitc => apply Laws.Raw.waitc
  | waita => apply Laws.Raw.waita
  | zline => apply Laws.Raw.zline
  | amo => apply Laws.Raw.amo
  | cas => apply Laws.Raw.cas
  | red => apply Laws.Raw.red
  | amsend => apply Laws.Raw.amsend
  | amret => apply Laws.Raw.amret
  | vld => apply Laws.Raw.vld
  | vst => apply Laws.Raw.vst
  | vgather => apply Laws.Raw.vgather
  | vscatter => apply Laws.Raw.vscatter
  | vadd => apply Laws.Raw.vadd
  | vmul => apply Laws.Raw.vmul
  | vfma => apply Laws.Raw.vfma
  | vdiv => apply Laws.Raw.vdiv
  | vminmax => apply Laws.Raw.vminmax
  | vlogic => apply Laws.Raw.vlogic
  | vcmp => apply Laws.Raw.vcmp
  | vsel => apply Laws.Raw.vsel
  | vperm => apply Laws.Raw.vperm
  | vbcast => apply Laws.Raw.vbcast
  | vred => apply Laws.Raw.vred
  | vscan => apply Laws.Raw.vscan
  | vdot => apply Laws.Raw.vdot
  | vpackm => apply Laws.Raw.vpackm
  | vexpm => apply Laws.Raw.vexpm
  | vmath => apply Laws.Raw.vmath
  | cvt => apply Laws.Raw.cvt
  | cvtn => apply Laws.Raw.cvtn
  | cvtw => apply Laws.Raw.cvtw
  | mfmt => apply Laws.Raw.mfmt
  | mfmtRel => apply Laws.Raw.mfmtRel
  | mmul => apply Laws.Raw.mmul
  | mspb => apply Laws.Raw.mspb
  | join => apply Laws.Raw.join
  | jdrain => apply Laws.Raw.jdrain
  | jdrainResume => apply Laws.Raw.jdrainResume
  | aswap => apply Laws.Raw.aswap
  | azero => apply Laws.Raw.azero
  | azeroVis => apply Laws.Raw.azeroVis
  | mwait => apply Laws.Raw.mwait
  | gangLead => apply Laws.Raw.gangLead
  | gangFollow => apply Laws.Raw.gangFollow
  | gangLeave => apply Laws.Raw.gangLeave
  | mscl => apply Laws.Raw.mscl
  | spawn => apply Laws.Raw.spawn
  | spawnr => apply Laws.Raw.spawnr
  | split => apply Laws.Raw.split
  | popf => apply Laws.Raw.popf
  | sync => apply Laws.Raw.sync
  | publish => apply Laws.Raw.publish
  | tend => apply Laws.Raw.tend
  | donate => apply Laws.Raw.donate
  | fnew => apply Laws.Raw.fnew
  | fnewCount => apply Laws.Raw.fnewCount
  | fput => apply Laws.Raw.fput
  | fget => apply Laws.Raw.fget
  | fgetPoll => apply Laws.Raw.fgetPoll
  | frel => apply Laws.Raw.frel
  | bar => apply Laws.Raw.bar
  | quiesce => apply Laws.Raw.quiesce
  | chsend => apply Laws.Raw.chsend
  | chrecv => apply Laws.Raw.chrecv
  | copy => apply Laws.Raw.copy
  | waitk => apply Laws.Raw.waitk
  | tokq => apply Laws.Raw.tokq
  | redgrpOpen => apply Laws.Raw.redgrpOpen
  | redgrpClose => apply Laws.Raw.redgrpClose
  | redpkt => apply Laws.Raw.redpkt
  | mcast => apply Laws.Raw.mcast
  | nop => apply Laws.Raw.nop
  | trap => apply Laws.Raw.trap
  | rte => apply Laws.Raw.rte
  | sysrd => apply Laws.Raw.sysrd
  | syswr => apply Laws.Raw.syswr
  | tlbinv => apply Laws.Raw.tlbinv
  | tlbinvSpace => apply Laws.Raw.tlbinvSpace
  | tlbinvAll => apply Laws.Raw.tlbinvAll
  | yield => apply Laws.Raw.yield
  | _ => exact Laws.Raw.of_none rfl

/-- The instructions with operands are those with an opcode. -/
theorem toRaw_isSome (i : Instr) : (toRaw i).isSome = (opsOf i).isSome := by cases i <;> rfl

theorem fieldOk_fits {k : Kind} {x : BitVec 16} (h : fieldOk false k x = true) : x.toNat < 64 := by
  unfold fieldOk at h
  simp only [Bool.false_or, Bool.and_eq_true, decide_eq_true_eq] at h
  exact h.1

theorem opsOk_fits {sh : Shape} {o : Ops} (h : opsOk sh o = true) : o.Fits := by
  intro he
  simp only [opsOk, he, Option.isSome_none, Bool.and_eq_true] at h
  obtain ⟨⟨⟨⟨-, hd⟩, ha⟩, hb⟩, -⟩ := h
  exact ⟨fieldOk_fits hd, fieldOk_fits ha, fieldOk_fits hb⟩

/-- What a legal instruction is: one with a shape, operands that fit it, an opcode and a function field. -/
theorem legal_parts {i : Instr} (h : legal i = true) :
    ∃ sh o op fn, shape i = some sh ∧ opsOf i = some o ∧ toRaw i = some (op, fn) ∧ opsOk sh o = true ∧ ownOk i = true := by
  unfold legal at h
  split at h
  case h_1 sh o hs ho =>
    have hr : (toRaw i).isSome = true := by rw [toRaw_isSome, ho]; rfl
    obtain ⟨⟨op, fn⟩, hr⟩ := Option.isSome_iff_exists.mp hr
    rw [Bool.and_eq_true] at h
    exact ⟨sh, o, op, fn, hs, ho, hr, h⟩
  case h_2 => cases h

theorem encode_eq {i : Instr} {op : BitVec 7} {fn : BitVec 4} {o : Ops} (hr : toRaw i = some (op, fn)) (ho : opsOf i = some o) :
    encode i = baseWord op fn o :: tailWords o := by
  simp only [encode, hr, ho]

theorem decodeWords_of {w : BitVec 32} {ws : List (BitVec 32)} {o : Ops} {i : Instr} (ho : opsOfWords (w :: ws) = some o)
    (hi : ofRaw (w.extractLsb' 3 7) (w.extractLsb' 28 4) o = some i) (hl : legal i = true) : decodeWords (w :: ws) = .ok i := by
  simp only [decodeWords, ho, hi, hl, if_true]

/-- An accepted word: its operands, and the legal instruction that its opcode and function field name. -/
theorem decodeWords_ok {w : BitVec 32} {ws : List (BitVec 32)} {i : Instr} (h : decodeWords (w :: ws) = .ok i) :
    ∃ o, opsOfWords (w :: ws) = some o ∧ ofRaw (w.extractLsb' 3 7) (w.extractLsb' 28 4) o = some i ∧ legal i = true := by
  unfold decodeWords at h
  dsimp only at h
  split at h
  case h_1 => cases h
  case h_2 o ho =>
    split at h
    case h_1 => cases h
    case h_2 j hj =>
      split at h
      case isTrue hl =>
        cases h
        exact ⟨o, ho, hj, hl⟩
      case isFalse => cases h

theorem decodeWords_encode {i : Instr} (h : legal i = true) (rest : List (BitVec 32)) : decodeWords (encode i ++ rest) = .ok i := by
  obtain ⟨sh, o, op, fn, hs, ho, hr, hok, hown⟩ := legal_parts h
  obtain ⟨hfn, -, hop, -, -⟩ := baseWord_fields (op := op) (fn := fn) (o := o) rfl
  rw [encode_eq hr ho, List.cons_append]
  refine decodeWords_of (opsOfWords_baseWord op fn (opsOk_fits hok) rest) ?_ h
  rw [hfn, hop, ofRaw_toRaw i op fn o hr ho]

theorem tailWords_length (o : Ops) : (tailWords o).length + 1 = o.words := by
  unfold tailWords Ops.words
  cases o.ext <;> cases o.lit <;> rfl

/-- Settles O1: the words of an instruction give back its operands, and its opcode and function field name it. -/
theorem decodeOfEncode : Obligations.DecodeOfEncode := by
  intro i h rest
  have hd := decodeWords_encode h rest
  obtain ⟨sh, o, op, fn, hs, ho, hr, hok, hown⟩ := legal_parts h
  refine ⟨hd, ?_⟩
  rw [decode, wordsOfBytes_bytesOfWords, hd]
  show Except.ok (i, (opsOf i).elim 4 Ops.bytes) = _
  rw [ho, encode_eq hr ho, List.length_cons, tailWords_length]
  rfl

/-- Settles O2: the operands hold every bit of the words but the opcode and the function field, which the instruction has. -/
theorem encodeOfDecode : Obligations.EncodeOfDecode := by
  intro ws i h
  cases ws with
  | nil => cases h
  | cons w ws =>
    obtain ⟨o, ho, hi, hl⟩ := decodeWords_ok h
    obtain ⟨op, hr, hop, hio⟩ := ofRaw_named _ _ _ i hi
    obtain ⟨hw, rest, rfl⟩ := words_of_opsOfWords ho
    refine ⟨hl, rest, ?_⟩
    rw [encode_eq hr hio, BitVec.eq_of_toNat_eq hop, ← hw]
    rfl

/-! ### Words that are no instruction (18 R421) -/

section
variable {w : BitVec 32} {ws : List (BitVec 32)} {o : Ops} {i : Instr} {fn : BitVec 4}

theorem toRaw_lt {op : BitVec 7} (h : toRaw i = some (op, fn)) : op.toNat < 0x70 := by
  cases i <;> cases h <;> decide

theorem nth_ccList_low : ∀ fn : BitVec 4, fn.extractLsb' 0 3 = 7 → nth ccList (fn &&& 7) = none := by decide
theorem low_zero : ∀ fn : BitVec 4, fn.extractLsb' 0 2 = 0 → fn &&& 3 = 0 := by decide
theorem amo_swap {f : AmoFn} (hf : nth amoList fn = some f) (h : fn = 0 ∨ fn = 10 ∨ 13 ≤ fn.toNat) : f = .swap ∨ f = .swap32 := by
  revert hf h fn
  cases f <;> decide

/-- A function field that R177 does not list for CMP names nothing. -/
theorem ofRaw_cmp_unlisted (h : fn.extractLsb' 0 3 = 7) : ofRaw 0x0F fn o = none := by
  show (nth ccList (fn &&& 7)).map (Instr.cmp o (fn.getLsbD 3)) = none
  rw [nth_ccList_low fn h]
  rfl

theorem ofRaw_bar_unlisted (h : fn.extractLsb' 0 2 = 0) : ofRaw 0x5F fn o = none := if_pos (low_zero fn h)

/-- RED has no swap (08 R231). -/
theorem red_illegal (h : fn = 0 ∨ fn = 10 ∨ 13 ≤ fn.toNat) (hi : ofRaw 0x2F fn o = some i) : legal i = false := by
  obtain ⟨f, hf, rfl⟩ := Option.map_eq_some_iff.mp (show (nth amoList fn).map (Instr.red o) = some i from hi)
  rcases amo_swap hf h with rfl | rfl <;> simp [legal, ownOk, shape, opsOf]

theorem len_literal : o.len.getLsbD 1 = o.lit.isSome := by
  unfold Ops.len
  generalize o.ext.isSome = e, o.lit.isSome = l
  revert e l
  decide

theorem len_extended : o.len.getLsbD 0 = o.ext.isSome := by
  unfold Ops.len
  generalize o.ext.isSome = e, o.lit.isSome = l
  revert e l
  decide

/-- Bits of a field of a word. -/
theorem getLsbD_field {k l j : Nat} (hj : j < l) : (w.extractLsb' k l).getLsbD j = w.getLsbD (k + j) := by simp [hj]

/-- RET takes no literal (R421). -/
theorem ret_literal_illegal (hl : o.lit.isSome = true) (hi : ofRaw 0x1D fn o = some i) : legal i = false := by
  have hz : (if fn = 0 then some (Instr.ret o) else none) = some i := hi
  split at hz
  case isTrue =>
    cases hz
    obtain ⟨l, hl⟩ := Option.isSome_iff_exists.mp hl
    simp [legal, shape, opsOf, opsOk, hl]
  case isFalse => cases hz

/-- The controls of an extended form are those of its base word (R170). -/
theorem ext_of_opsOfWords (h : opsOfWords (w :: ws) = some o) {c : Ctl} (hc : o.ext = some c) : ∃ e2, c = ctlOf w e2 := by
  rw [opsOfWords_eq] at h
  split at h
  · cases h; cases hc
  · split at h
    · split at h
      · cases h; cases hc; exact ⟨_, rfl⟩
      · cases h
    · split at h
      · split at h
        · cases h; cases hc
        · cases h
      · split at h
        · cases h; cases hc; exact ⟨_, rfl⟩
        · cases h

/-- A legal extended form with the predicate p0 does not negate it (R171). -/
theorem legal_pneg {c : Ctl} (hl : legal i = true) (ho : opsOf i = some o) (hc : o.ext = some c) (hp : c.pred = 0) : c.pneg = false := by
  obtain ⟨sh, o', -, -, -, ho', -, hok, -⟩ := legal_parts hl
  obtain rfl : o = o' := Option.some.inj (ho.symm.trans ho')
  simp only [opsOk, hc, ctlOk, Bool.and_eq_true] at hok
  obtain ⟨-, ⟨⟨⟨⟨⟨⟨⟨⟨hn, -⟩, -⟩, -⟩, -⟩, -⟩, -⟩, -⟩, -⟩⟩ := hok
  simpa [hp] using hn
end

/-- Settles O4: each of these words has an opcode or function field that names nothing, or a field that a check refuses. -/
theorem illegalWordsRefused : Obligations.IllegalWordsRefused := by
  intro w ws hw i hd
  obtain ⟨o, ho, hi, hl⟩ := decodeWords_ok hd
  obtain ⟨op, hr, hop, hio⟩ := ofRaw_named _ _ _ i hi
  obtain ⟨-, -, -, -, hlen⟩ := baseWord_fields (words_of_opsOfWords ho).1
  have hfield : ∀ n, n ≤ 4 → (w.extractLsb' 28 4).extractLsb' 0 n = w.extractLsb' 28 n := fun n hn => by
    apply BitVec.eq_of_getLsbD_eq
    intro j hj
    simp [hj, show j < 4 by omega]
  rcases hw with h | ⟨hc, hf⟩ | ⟨hc, hf⟩ | ⟨hc, hf⟩ | ⟨hc, hb⟩ | ⟨hb, hp, hn⟩
  · exact absurd (toRaw_lt hr) (by omega)
  · rw [hc, ofRaw_cmp_unlisted ((hfield 3 (by omega)).trans hf)] at hi
    cases hi
  · rw [hc] at hi
    rw [red_illegal hf hi] at hl
    cases hl
  · rw [hc, ofRaw_bar_unlisted ((hfield 2 (by omega)).trans hf)] at hi
    cases hi
  · rw [hc] at hi
    have hlit : o.lit.isSome = true := by rw [← len_literal, ← hlen, getLsbD_field (by omega)]; exact hb
    rw [ret_literal_illegal hlit hi] at hl
    cases hl
  · have hext : o.ext.isSome = true := by rw [← len_extended, ← hlen, getLsbD_field (by omega)]; exact hb
    obtain ⟨c, hc⟩ := Option.isSome_iff_exists.mp hext
    obtain ⟨e2, rfl⟩ := ext_of_opsOfWords ho hc
    have hf := legal_pneg hl hio hc hp
    exact Bool.noConfusion (hn.symm.trans hf)

end Sys2Proof
end

section
/-! Results and their commits (07 R189 to R193): what issues and commits do to the registers that a context reads. -/

namespace Sys2Proof.Machine

/-! ### Registers -/

/-- Two states in which the acting context reads the same rows and predicates. -/
def SameRegs (s t : State) : Prop := (∀ n, t.row n = s.row n) ∧ ∀ n, t.me.pred n = s.me.pred n

section
variable {s t u : State} {c : Cell} {n : Nat}

theorem SameRegs.refl (s : State) : SameRegs s s := ⟨fun _ => rfl, fun _ => rfl⟩
theorem SameRegs.trans (h : SameRegs s t) (h' : SameRegs t u) : SameRegs s u :=
  ⟨fun n => (h'.1 n).trans (h.1 n), fun n => (h'.2 n).trans (h.2 n)⟩

/-- Rows and predicates are those of the register file and of the mill. -/
theorem sameRegs_of (h1 : t.me.store = s.me.store) (h2 : t.me.preds = s.me.preds) (h3 : t.myCore.mill = s.myCore.mill) :
    SameRegs s t :=
  ⟨fun n => by simp only [State.row, h1, h3], fun n => by simp only [Ctx.pred, h2]⟩

@[simp] theorem setMe_mill (x : Ctx) : (s.setMe x).myCore.mill = s.myCore.mill := setCtx_mill _ _ _ _

theorem setMe_row {x : Ctx} (h : x.store = s.me.store) : (s.setMe x).row n = s.row n := by
  simp only [State.row, setMe_me, setMe_mill, h]

theorem setMe_sameRegs {x : Ctx} (h1 : x.store = s.me.store) (h2 : x.preds = s.me.preds) : SameRegs s (s.setMe x) :=
  sameRegs_of (by rw [setMe_me, h1]) (by rw [setMe_me, h2]) (setMe_mill x)

theorem results_sameRegs (rs : List Result) : SameRegs s (s.setMe { s.me with results := rs }) := setMe_sameRegs rfl rfl
theorem push_sameRegs (r : Result) : SameRegs s (s.push r) := results_sameRegs _

theorem setRow_pred (n m : Nat) (v : Row) : (s.setRow n v).me.pred m = s.me.pred m := by
  unfold State.setRow
  split
  · rw [setMe_me]; rfl
  · simp [State.me, State.ctx, State.setMyCore, State.myCore]

/-- A cell of a row writes the bits of its mask there, and no predicate. -/
theorem writeCell_row (h : c.tgt = .row n) (m : Nat) :
    (s.writeCell c).row m = if m = n then heldRow n (merge (s.row n) c.data c.mask) else s.row m := by
  simp only [State.writeCell, h, setRow_row]

theorem writeCell_row_pred (h : c.tgt = .row n) (m : Nat) : (s.writeCell c).me.pred m = s.me.pred m := by
  simp only [State.writeCell, h, setRow_pred]

/-- A cell of a predicate writes the bits of its mask there, and no row; p0 stays all ones (R173). -/
theorem writeCell_pred (h : c.tgt = .pred n) (m : Nat) :
    (s.writeCell c).me.pred m = if m = n ∧ m ≠ 0 then merge (s.me.pred n) (c.data.setWidth 64) (c.mask.setWidth 64)
      else s.me.pred m := by
  simp only [State.writeCell, h, setMe_me, Ctx.pred, look_put]
  split <;> simp_all

theorem writeCell_pred_row (h : c.tgt = .pred n) (m : Nat) : (s.writeCell c).row m = s.row m := by
  simp only [State.writeCell, h]
  exact setMe_row rfl

/-- Written into equal registers, a cell leaves equal registers. -/
theorem SameRegs.writeCell (h : SameRegs s t) (c : Cell) : SameRegs (s.writeCell c) (t.writeCell c) := by
  obtain ⟨hr, hp⟩ := h
  cases hc : c.tgt with
  | row n =>
    exact ⟨fun m => by rw [writeCell_row hc, writeCell_row hc, hr, hr],
      fun m => by rw [writeCell_row_pred hc, writeCell_row_pred hc, hp]⟩
  | pred n =>
    exact ⟨fun m => by rw [writeCell_pred_row hc, writeCell_pred_row hc, hr],
      fun m => by rw [writeCell_pred hc, writeCell_pred hc, hp, hp]⟩

/-- A bit of a row after a cell is written (07 R179, R182). -/
theorem writeCell_bit (h : c.tgt = .row n) (m i : Nat) :
    ((s.writeCell c).row m).getLsbD i =
      if m = n ∧ n = 11 ∧ mirrorRsv.getLsbD i then false
      else if m = n ∧ c.mask.getLsbD i then c.data.getLsbD i else (s.row m).getLsbD i := by
  rw [writeCell_row h]
  by_cases hm : m = n
  · subst hm
    rw [if_pos rfl, heldRow]
    by_cases h11 : m = 11
    · subst h11
      cases hr : mirrorRsv.getLsbD i with
      | true => simp [hr]
      | false =>
        by_cases hi : i < 512
        · rw [if_pos rfl, BitVec.getLsbD_and, BitVec.getLsbD_not, hr, getLsbD_merge]
          simp [hi]
        · simp [BitVec.getLsbD_of_ge _ _ (Nat.le_of_not_lt hi)]
    · simp [h11, getLsbD_merge]
  · simp [hm]
end

/-! ### Commits -/

section
variable {s : State} {r : Result} {c : Cell} {due : Result → Bool}

/-- Nothing commits where nothing is due. -/
theorem commitWhere_none (l : List Result) (hl : ∀ r ∈ l, due r = false) :
    ∀ older (s : State), commitWhere due older l s = (older ++ l, s) := by
  induction l with
  | nil => exact fun older s => by simp [commitWhere]
  | cons r l ih =>
    intro older s
    rw [commitWhere, if_neg (by simp [hl r]), ih fun q hq => hl q (List.mem_cons_of_mem r hq)]
    simp

theorem commit_none (hl : ∀ r ∈ s.me.results, due r = false) : s.commit due = s.setMe s.me := by
  unfold State.commit
  rw [commitWhere_none _ hl]
  rfl

/-- What is due commits, where it alone is outstanding. -/
theorem commit_one (hr : s.me.results = [r]) (hd : due r = true) :
    s.commit due = (s.commitOne r).setMe { (s.commitOne r).me with results := [] } := by
  unfold State.commit
  rw [hr, commitWhere, if_pos hd]
  rfl

theorem commitOne_cell (d : Due) (f : BitVec 6) : SameRegs (s.writeCell c) (s.commitOne { due := d, cells := [c], flags := f }) :=
  setMe_sameRegs rfl rfl

theorem commit_one_regs {d : Due} {f : BitVec 6} (hr : s.me.results = [{ due := d, cells := [c], flags := f }])
    (hd : due { due := d, cells := [c], flags := f } = true) :
    (s.commit due).me.results = [] ∧ SameRegs (s.writeCell c) (s.commit due) := by
  rw [commit_one hr hd]
  exact ⟨by rw [setMe_me], (commitOne_cell d f).trans (setMe_sameRegs rfl rfl)⟩

/-- An issue at which nothing is due only brings the fixed results nearer. -/
theorem tick_none (h : ∀ r ∈ s.me.results, r.tick.due ≠ .fixed 0) :
    s.tick = s.setMe { s.me with results := s.me.results.map Result.tick } := by
  have hl : ∀ r ∈ (s.setMe { s.me with results := s.me.results.map Result.tick }).me.results,
      decide (r.due = .fixed 0) = false := by
    intro r hr
    rw [setMe_me] at hr
    obtain ⟨q, hq, rfl⟩ := List.mem_map.mp hr
    exact decide_eq_false (h q hq)
  unfold State.tick
  dsimp only
  rw [commit_none hl, setMe_setMe, setMe_me]

/-- A younger result commits: the older one keeps the bits that it did not write (R191). -/
theorem commit_young {q : Result} (hr : s.me.results = [q, r]) (hq : due q = false) (hd : due r = true) :
    s.commit due = (s.commitOne r).setMe { (s.commitOne r).me with results := [q.without r] } := by
  unfold State.commit
  rw [hr, commitWhere, if_neg (by simp [hq]), commitWhere, if_pos hd]
  rfl

/-- A result of variable latency is left as it is by every issue. -/
theorem tick_push_var (hs : s.me.results = []) (ws : List (Nat × Nat)) :
    (s.push { due := .var ws, cells := [c], flags := 0 }).tick = s.push { due := .var ws, cells := [c], flags := 0 } := by
  rw [tick_none (by simp [hs, Result.tick]), push_me_results, hs]
  simp [State.push, hs, Result.tick]

/-- The end of a switch-marker hold with no acquire waiting. -/
theorem unhold_switch (hh : s.me.hold = .switch) (ha : s.me.acqAfter = none) :
    s.unhold = s.commitVar.setMe { s.commitVar.me with hold := .none } := by
  obtain ⟨st, pr, fp, rs, hm⟩ := (commitVar_regsOnly (s := s)).me
  have hc : (s.commitVar.setMe { s.commitVar.me with hold := .none }).me.acqAfter = none := by rw [setMe_me, hm]; exact ha
  unfold State.unhold
  rw [if_pos hh]
  dsimp only
  rw [hc]

/-- Behind a switch marker a context waits for its data (R190). -/
theorem mayIssue_held (hh : s.me.hold = .switch) (hr : s.me.returned = false) : s.mayIssue s.curCore s.curCtx = false := by
  have hf : s.me.free = false := by simp [Ctx.free, hh, hr]
  show (decide (s.me.status = .running) && s.me.free && _) = false
  simp [hf]

/-- At the end of the hold a result whose data have returned commits (R190). -/
theorem unhold_commits (hh : s.me.hold = .switch) (ha : s.me.acqAfter = none)
    (hr : s.me.results = [{ due := .var [], cells := [c], flags := 0 }]) :
    s.unhold.me.results = [] ∧ s.unhold.me.hold = .none ∧ SameRegs (s.writeCell c) s.unhold := by
  obtain ⟨hn, hregs⟩ := commit_one_regs (due := fun r => match r.due with | .var [] => true | _ => false) hr rfl
  rw [unhold_switch hh ha]
  exact ⟨by rw [setMe_me]; exact hn, by rw [setMe_me], hregs.trans (setMe_sameRegs rfl rfl)⟩

/-- Settles O8: a result that awaits its data is left alone by every issue, and commits at the end of the hold. -/
theorem variableLatencyCommits : Obligations.VariableLatencyCommits := by
  intro s c ws k hs
  refine ⟨fun n => ?reads, fun hh hw => ?holds, fun hh ha hw => ?commits⟩
  case reads =>
    rw [Function.iterate_fixed (tick_push_var hs ws)]
    exact setMe_row rfl
  case holds =>
    obtain ⟨w, ws, rfl⟩ := List.exists_cons_of_ne_nil hw
    exact mayIssue_held ((push_me_hold _ _).trans hh) (by simp [Ctx.returned, hs])
  case commits =>
    subst hw
    obtain ⟨hn, hhold, hregs⟩ := unhold_commits ((push_me_hold _ _).trans hh) ((push_me_acqAfter _ _).trans ha)
      (by rw [push_me_results, hs]; rfl)
    exact ⟨hn, hhold, (((push_sameRegs _).writeCell c).trans hregs).1⟩

/-- A younger fixed result that is due commits before an older one that awaits its hold; then both have (R191). -/
theorem tick_commitVar {ca cb : Cell} (hr : s.me.results = [varResult [ca], fixedResult 0 [cb]]) :
    s.tick.commitVar.me.results = [] ∧ SameRegs ((s.writeCell cb).writeCell (ca.without cb)) s.tick.commitVar := by
  let t := s.setMe { s.me with results := s.me.results.map Result.tick }
  have ht : SameRegs s t := setMe_sameRegs rfl rfl
  have htr : t.me.results = [varResult [ca], fixedResult 0 [cb]] := by
    rw [setMe_me, hr]; rfl
  have hy := commit_young (due := fun r => decide (r.due = .fixed 0)) htr rfl rfl
  have hu : s.tick = (t.commitOne (fixedResult 0 [cb])).setMe
      { (t.commitOne (fixedResult 0 [cb])).me with results := [(varResult [ca]).without (fixedResult 0 [cb])] } := hy
  have hregs : SameRegs (s.writeCell cb) s.tick := by
    rw [hu]
    exact (ht.writeCell cb).trans ((commitOne_cell _ _).trans (setMe_sameRegs rfl rfl))
  have hres : s.tick.me.results = [varResult [ca.without cb]] := by rw [hu, setMe_me]; rfl
  obtain ⟨hn, hc⟩ := commit_one_regs (due := fun r => match r.due with | .var [] => true | _ => false) hres rfl
  exact ⟨hn, (hregs.writeCell _).trans hc⟩

/-- Settles O9: the younger result commits first and takes its bits from the older one, which commits at the end of the hold. -/
theorem youngerResultStands : Obligations.YoungerResultStands := by
  intro s n ca cb hs ha hb
  have hr : ((s.push (varResult [ca])).push (fixedResult 0 [cb])).me.results = [varResult [ca], fixedResult 0 [cb]] := by
    rw [push_me_results, push_me_results, hs]; rfl
  obtain ⟨hn, hregs⟩ := tick_commitVar hr
  have hpush : SameRegs s ((s.push (varResult [ca])).push (fixedResult 0 [cb])) :=
    (push_sameRegs _).trans (push_sameRegs _)
  refine ⟨hn, fun i => ?_⟩
  have hw : ca.without cb = { ca with mask := ca.mask &&& ~~~ cb.mask } := if_pos (ha.trans hb.symm)
  rw [(((hpush.writeCell cb).writeCell (ca.without cb)).trans hregs).1 n, hw,
    writeCell_bit (c := { ca with mask := ca.mask &&& ~~~ cb.mask }) ha, writeCell_bit hb]
  by_cases hm : n = 11 ∧ mirrorRsv.getLsbD i
  · simp [hm]
  · by_cases hi : i < 512
    · simp only [hm, true_and, if_false, BitVec.getLsbD_and, BitVec.getLsbD_not, hi, decide_true]
      cases cb.mask.getLsbD i <;> simp
    · simp [BitVec.getLsbD_of_ge _ _ (Nat.le_of_not_lt hi)]

theorem tick_fixed (hs : s.me.results = []) {l k : Nat} (hk : k < l) :
    State.tick^[k] (s.fixed l [c]) = s.fixed (l - k) [c] := by
  induction k with
  | zero => rfl
  | succ k ih =>
    rw [Function.iterate_succ_apply', ih (by omega), State.fixed, tick_none]
    · simp only [push_me_results, hs]
      simp only [State.push, hs, setMe_setMe, setMe_me]
      simp [Result.tick, State.fixed, State.push, hs, Nat.sub_sub]
    · simp [hs, Result.tick]
      omega

/-- Settles O12: a fixed result only counts down before its distance is reached, and then its cell is written. -/
theorem fixedLatencyCommits : Obligations.FixedLatencyCommits := by
  refine ⟨fun s c lat k hs hlat hk => ⟨fun hlt n => ?before, fun heq => ?reached⟩, fun s c n h m i => writeCell_bit h m i⟩
  case before =>
    rw [tick_fixed hs hlt]
    exact ⟨setMe_row rfl, by rw [State.fixed, State.push, setMe_me]; rfl⟩
  case reached =>
    subst heq
    obtain ⟨l, rfl⟩ : ∃ l, k = l + 1 := ⟨k - 1, by omega⟩
    rw [Function.iterate_succ_apply', tick_fixed hs (Nat.lt_succ_self l), show l.succ - l = 1 by omega]
    have hr : ((s.fixed 1 [c]).setMe { (s.fixed 1 [c]).me with results := (s.fixed 1 [c]).me.results.map Result.tick }).me.results =
        [{ due := .fixed 0, cells := [c], flags := 0 }] := by
      rw [setMe_me, State.fixed, push_me_results, hs]; rfl
    have hfix : SameRegs s ((s.fixed 1 [c]).setMe
        { (s.fixed 1 [c]).me with results := (s.fixed 1 [c]).me.results.map Result.tick }) :=
      (push_sameRegs _).trans (results_sameRegs _)
    obtain ⟨hn, hregs⟩ := commit_one_regs (due := fun r => decide (r.due = .fixed 0)) hr rfl
    have h := (hfix.writeCell c).trans hregs
    exact ⟨hn, fun n => ⟨h.1 n, h.2 n⟩⟩
end

end Sys2Proof.Machine
end

section
/-! What the frame makes of an instruction that its waits or its predicate keep from acting (07 R171, R173, R192). -/

namespace Sys2Proof.Machine

variable {s u : State} {i : Instr} {o : Ops} {c : Ctl} {body : State → Act}

/-- Every encoded instruction but the lane-wise ones runs in the frame of its predicate's bit 0; a REP that is taken up again has
passed it. -/
theorem exec_governed (ho : opsOf i = some o) (hg : bitGoverned i = true) (hr : s.me.repOn = false) :
    ∃ body, exec i s = s.run i o body := by
  cases i with
  | rep p =>
    cases ho
    exact ⟨_, if_neg (by simp [hr])⟩
  | _ => cases ho <;> cases hg <;> exact ⟨_, rfl⟩

/-- An instruction that retires with no effect. -/
theorem retire_retires : Retires u (u.retire o) o [] := by
  obtain ⟨p, rp, rst, ho, an, pk, e⟩ := Ctx.retire_shape u.me o.sw o.bytes none
  refine ⟨⟨_, rfl, by rw [e]⟩, ?_, ?_, fun h => ?_⟩
  · rw [State.retire, setMe_me, Ctx.retire_results, List.append_nil]
  · rw [State.retire, setMe_me, Ctx.retire_hold]
  · rw [State.retire, setMe_me, Ctx.retire_pc _ _ _ (h.resolve_right (by simp))]
    rfl

theorem run_inactive (hw : s.waitsDone o = true) (ha : (s.entered o).active o = false) :
    s.run i o body = .next ((s.entered o).retire o) := by
  simp only [State.run, State.perform, waited_entered hw, ha]
  rfl

theorem run_waiting (ho : o.ext = some c) (hw : s.me.waitsOver c = false) : s.run i o body = .next s.stall := by
  simp only [State.run, State.perform, State.waited, ho, hw]
  rfl

/-- Settles O10: the frame retires an instruction whose predicate's bit 0 is false before it looks at anything else. -/
theorem predicatedOff : Obligations.PredicatedOff := by
  refine ⟨fun x mask v => ⟨rfl, rfl⟩, fun s i o ho hg hr hw ha => ?_⟩
  obtain ⟨body, hb⟩ := exec_governed ho hg hr
  exact ⟨_, hb.trans (run_inactive hw ha), retire_retires⟩

/-- Settles O11: the frame tests the waits first, and room for a result before the body. -/
theorem waitsHold : Obligations.WaitsHold := by
  refine ⟨fun s i o c ho hc hg hr hw => ?waits, fun s i hv h16 => ⟨fun h => ?full, fun h => ?returned⟩⟩
  case waits =>
    obtain ⟨body, hb⟩ := exec_governed ho hg hr
    exact hb.trans (run_waiting hc hw)
  case full => simp [State.roomFor, hv, h16, h]
  case returned => simp [State.roomFor, hv, h16, h]

end Sys2Proof.Machine
end

section
/-! Fields of a word and words made of fields (00 R5), and those of TRAPCAUSE (12 R344). -/

namespace Sys2Proof.Machine

section
variable {w : Nat} (x : BitVec w) (hi lo v i : Nat)

/-- A field as a quotient and remainder. -/
theorem fld_eq : fld x hi lo = x.toNat / 2 ^ lo % 2 ^ (hi + 1 - lo) := by rw [fld, Nat.shiftRight_eq_div_pow]

theorem fld_testBit : (fld x hi lo).testBit i = (decide (i < hi + 1 - lo) && x.getLsbD (lo + i)) := by
  rw [fld, Nat.testBit_mod_two_pow, Nat.testBit_shiftRight]
  rfl

/-- Each bit of a number with a field replaced. -/
theorem setFld_getLsbD (hw : i < w) :
    (setFld x hi lo v).getLsbD i = if lo ≤ i ∧ i ≤ hi then v.testBit (i - lo) else x.getLsbD i := by
  have hm : (BitVec.ofNat w (2 ^ (hi + 1 - lo) - 1) <<< lo).getLsbD i = decide (lo ≤ i ∧ i ≤ hi) := by
    rw [BitVec.getLsbD_shiftLeft, BitVec.getLsbD_ofNat, Nat.testBit_two_pow_sub_one]
    by_cases h : lo ≤ i
    · simp only [hw, h, show ¬ i < lo by omega, show i - lo < w by omega, decide_true, decide_false, Bool.not_false,
        Bool.true_and, true_and, decide_eq_decide]
      omega
    · simp [h, Nat.lt_of_not_le h]
  have hv : (BitVec.ofNat w v <<< lo).getLsbD i = (decide (lo ≤ i) && v.testBit (i - lo)) := by
    rw [BitVec.getLsbD_shiftLeft, BitVec.getLsbD_ofNat]
    by_cases h : lo ≤ i
    · simp [hw, h, show ¬ i < lo by omega, show i - lo < w by omega]
    · simp [h, Nat.lt_of_not_le h]
  simp only [setFld, BitVec.getLsbD_or, BitVec.getLsbD_and, BitVec.getLsbD_not, hm, hv, hw, decide_true, Bool.true_and]
  by_cases h : lo ≤ i ∧ i ≤ hi
  · simp [h]
  · rw [if_neg h, decide_eq_false h]
    simp
end

/-! ### TRAPCAUSE -/

theorem Priv.code_lt (p : Priv) : p.code < 3 := by cases p <;> decide

theorem Priv.ofCode_code (p : Priv) : Priv.ofCode p.code = p := by cases p <;> rfl

theorem causeWord_toNat (p : Priv) (k : Nat) (notice : Bool) (cause : BitVec 6) :
    (causeWord p k notice cause).toNat = 4096 + p.code * 1024 + k % 8 * 128 + (if notice then 64 else 0) + cause.toNat := by
  have := p.code_lt
  have := cause.isLt
  rw [causeWord, BitVec.toNat_ofNat]
  split <;> omega

/-- The fields of TRAPCAUSE as a trap leaves them (R344). -/
theorem causeWord_fields (p : Priv) {k : Nat} (hk : k < 8) (cause : BitVec 6) :
    (causeWord p k false cause).getLsbD 12 = true ∧ fld (causeWord p k false cause) 11 10 = p.code ∧
      fld (causeWord p k false cause) 9 7 = k ∧ (causeWord p k false cause).getLsbD 6 = false ∧
      fld (causeWord p k false cause) 63 13 = 0 := by
  have hp := p.code_lt
  have hc := cause.isLt
  have h := causeWord_toNat p k false cause
  refine ⟨?_, ?_, ?_, ?_, ?_⟩
  · rw [BitVec.getLsbD, Nat.testBit_eq_decide_div_mod_eq, h]
    simp
    omega
  · rw [fld_eq, h]
    simp
    omega
  · rw [fld_eq, h]
    simp
    omega
  · rw [BitVec.getLsbD, Nat.testBit_eq_decide_div_mod_eq, h]
    simp
    omega
  · rw [fld_eq, h]
    simp
    omega

theorem causeWord_cause (p : Priv) (k : Nat) (cause : BitVec 6) : (causeWord p k false cause).setWidth 6 = cause := by
  apply BitVec.eq_of_toNat_eq
  rw [BitVec.toNat_setWidth, causeWord_toNat]
  simp
  omega

end Sys2Proof.Machine
end

section
/-! Taking a trap and returning from one (17 R407, R410; 12 R342, R343). -/

namespace Sys2Proof.Machine

variable {s u : State} {cause : BitVec 6} {info pc : Word} {direct : Bool} {x : Ctx}

theorem Ctx.stopCount_shape (x : Ctx) (now : Nat) : ∃ d q, x.stopCount now = { x with deadline := d, since := q } := by
  unfold Ctx.stopCount
  split
  · exact ⟨_, _, rfl⟩
  · exact ⟨_, _, rfl⟩

/-- The trap registers as a trap fills them, and the rest of the context that stays (R407). -/
theorem Ctx.fillTrap_shape (x : Ctx) (k now : Nat) (cause : BitVec 6) (info pc : Word) :
    ∃ d q b, (x.stopCount now).fillTrap k false cause info pc =
      { x with deadline := d, since := q, dbuf := b, trapcause := causeWord x.priv k false cause, trappc := pc,
               trapinfo := info, rep := none } := by
  obtain ⟨d, q, e⟩ := x.stopCount_shape now
  exact ⟨d, q, _, by rw [e]; rfl⟩

/-- The hamlet's trap flag is set, unless it is a notice (R407 step 5). -/
def State.trapMarked (s : State) (cause : BitVec 6) : State := if cause = 0x13 then s else s.mark (hamOf s.curCore) Marks.trapped

theorem trapMarked_eq (h : cause ≠ 0x13) : s.trapMarked cause = s.mark (hamOf s.curCore) Marks.trapped := if_neg h

@[simp] theorem trapMarked_me : (s.trapMarked cause).me = s.me := by unfold State.trapMarked; split <;> rfl
@[simp] theorem trapMarked_curCore : (s.trapMarked cause).curCore = s.curCore := by unfold State.trapMarked; split <;> rfl
@[simp] theorem trapMarked_curCtx : (s.trapMarked cause).curCtx = s.curCtx := by unfold State.trapMarked; split <;> rfl
@[simp] theorem trapMarked_mem : (s.trapMarked cause).mem = s.mem := by unfold State.trapMarked; split <;> rfl

/-- Handling, gang and handler context: what makes a trap escalate (R410). -/
def State.escalates (s : State) (direct : Bool) : Bool := direct || s.me.handling || s.me.inGang || s.onHandler

theorem commitAll_escalates : s.commitAll.escalates direct = s.escalates direct := by
  obtain ⟨st, pr, fp, rs, hm⟩ := (commitAll_regsOnly (s := s)).me
  simp only [State.escalates, State.onHandler, commitAll_regsOnly.curCtx, hm]
  rfl

/-- The trap registers of the acting context, once its results have committed. -/
def State.trapRegs (s : State) (cause : BitVec 6) (info pc : Word) : Ctx :=
  (s.commitAll.me.stopCount s.commitAll.cycle.toNat).fillTrap s.commitAll.curCtx false cause info pc

/-- What a trap does (R407, R410). -/
theorem enterTrap_eq : s.enterTrap false direct cause info pc =
    if s.escalates direct then ((s.commitAll.trapMarked cause).setMe (s.trapRegs cause info pc)).escalate s.curCore s.curCtx
    else (s.commitAll.trapMarked cause).setMe
      { s.trapRegs cause info pc with priv := .runtime, pc := sext57 (s.me.trapvec.setWidth 57), hold := .none } := by
  obtain ⟨st, pr, fp, rs, hm⟩ := (commitAll_regsOnly (s := s)).me
  obtain ⟨d, q, e⟩ := s.commitAll.me.stopCount_shape s.commitAll.cycle.toNat
  have hesc : (direct || (s.commitAll.me.stopCount s.commitAll.cycle.toNat).handling ||
      (s.commitAll.me.stopCount s.commitAll.cycle.toNat).inGang || s.commitAll.onHandler) = s.escalates direct := by
    rw [← commitAll_escalates, e]
    rfl
  have hv : (s.commitAll.me.stopCount s.commitAll.cycle.toNat).trapvec = s.me.trapvec := by rw [e, hm]
  show (if (direct || _ || _ || s.commitAll.onHandler) = true then
      ((s.commitAll.trapMarked cause).setMe (s.trapRegs cause info pc)).escalate (s.commitAll.trapMarked cause).curCore
        (s.commitAll.trapMarked cause).curCtx
    else (s.commitAll.trapMarked cause).setMe { s.trapRegs cause info pc with
      priv := .runtime, pc := sext57 ((s.commitAll.me.stopCount s.commitAll.cycle.toNat).trapvec.setWidth 57), hold := .none }) = _
  rw [trapMarked_curCore, trapMarked_curCtx, commitAll_regsOnly.curCore, commitAll_regsOnly.curCtx, hesc, hv]

/-- The trap registers that a trap fills; of the rest of the context the results have committed, and the count of a save
deadline stops. -/
theorem trapRegs_shape : ∃ st pr fp d q b, s.trapRegs cause info pc =
    { s.me with store := st, preds := pr, fpstatus := fp, results := [], deadline := d, since := q, dbuf := b,
                trapcause := causeWord s.me.priv s.curCtx false cause, trappc := pc, trapinfo := info, rep := none } ∧
    s.commitAll.me.store = st ∧ s.commitAll.me.preds = pr := by
  obtain ⟨st, pr, fp, rs, hm⟩ := (commitAll_regsOnly (s := s)).me
  obtain rfl : rs = [] := by
    have h := commitAll_results (s := s)
    rwa [hm] at h
  obtain ⟨d, q, b, e⟩ := s.commitAll.me.fillTrap_shape s.commitAll.curCtx s.commitAll.cycle.toNat cause info pc
  refine ⟨st, pr, fp, d, q, b, ?_, by rw [hm], by rw [hm]⟩
  rw [State.trapRegs, e, hm, commitAll_regsOnly.curCtx]

theorem trap_returned (h : s.me.returned = true) : s.trap cause info pc = s.enterTrap false false cause info pc := if_pos h

/-- Settles O15: the results have committed, the registers are filled, and the context goes on at TRAPVEC. -/
theorem trapEntry : Obligations.TrapEntry := by
  refine ⟨fun s cause info pc hret hc hk hh hg => ?_, fun s cause info pc hret => if_neg (by simp [hret])⟩
  have hon : s.onHandler = false := by simp [State.onHandler, Nat.ne_of_lt hk]
  have hesc : s.escalates false = false := by simp [State.escalates, hh, hg, hon]
  have ht : s.trap cause info pc = (s.commitAll.trapMarked cause).setMe
      { s.trapRegs cause info pc with priv := .runtime, pc := sext57 (s.me.trapvec.setWidth 57), hold := .none } := by
    rw [trap_returned hret, enterTrap_eq, hesc]
    rfl
  obtain ⟨st, pr, fp, d, q, b, e, hst, hpr⟩ := trapRegs_shape (s := s) (cause := cause) (info := info) (pc := pc)
  obtain ⟨c12, c11, c9, c6, c63⟩ := causeWord_fields s.me.priv (Nat.lt_trans hk (by omega : 4 < 8)) cause
  have hm : (s.trap cause info pc).me =
      { s.trapRegs cause info pc with priv := .runtime, pc := sext57 (s.me.trapvec.setWidth 57), hold := .none } := by
    rw [ht, setMe_me]
  have hmark : ((s.trap cause info pc).ham (hamOf s.curCore)).marks.trap = true := by
    rw [ht, setMe_ham, trapMarked_eq hc, State.mark, commitAll_regsOnly.curCore, setHam_ham_same]
    rfl
  have hmem : (s.trap cause info pc).mem = s.mem := by rw [ht, setMe_mem, trapMarked_mem, commitAll_regsOnly.mem]
  rw [e] at hm
  simp only [hm, c12, c11, c9, c6, c63, causeWord_cause, hmark, hmem, hst, hpr, Ctx.count]
  simp

/-- Settles O16: TRAP's body asks for its trap at the next instruction, and a word that is none is trapped at its own. -/
theorem trapInstruction : Obligations.TrapInstruction :=
  ⟨fun s o h hr => by
    show s.run (.trap o) o (trapBody o) = _
    rw [run_goes h]
    rfl, fun s base => rfl⟩

/-! ### The return (R343) -/

/-- The context that a return leaves: its own hold, and a save that was held may begin (log entry 57). -/
def Ctx.returnedTo (x : Ctx) (now : Nat) (sw : Bool) : Ctx := { x.rte now with hold := if sw then .switch else .none }

theorem Ctx.returnedTo_handling (x : Ctx) (now : Nat) (sw : Bool) : (x.returnedTo now sw).handling = false := by
  show (setFld x.trapcause 12 12 0).getLsbD 12 = false
  rw [setFld_getLsbD _ _ _ _ _ (by omega)]
  rfl

theorem Ctx.returnedTo_bit (x : Ctx) (now : Nat) (sw : Bool) {i : Nat} (hi : i ≠ 12) :
    (x.returnedTo now sw).trapcause.getLsbD i = x.trapcause.getLsbD i := by
  show (setFld x.trapcause 12 12 0).getLsbD i = _
  by_cases h : i < 64
  · rw [setFld_getLsbD _ _ _ _ _ h, if_neg (by omega)]
  · simp [BitVec.getLsbD_of_ge _ _ (Nat.le_of_not_lt h)]

/-- A pre-emption request that waits is taken: the context is being saved (02 R63). -/
def Ctx.saving (x : Ctx) : Ctx :=
  { x with status := .saving, hold := .none, pc := x.faultPc, rep := none, preempt := false, counts := false,
           latchA := none, latchB := none, latchD := none,
           parking := some { x.parking.getD { cond := 0, key := 0 } with save := true, whole := false } }

/-- Whether a pre-emption request that waited is taken at a return. -/
def Ctx.saveWaiting (x : Ctx) : Bool := x.preempt && x.strand.isSome && !x.inGang && !x.wordDue

theorem takeHeld_me : s.takeHeld.me = if s.me.saveWaiting then s.me.saving else s.me := by
  show State.me (if s.me.saveWaiting then _ else _) = _
  split
  · exact setCtx_ctx_same _ _ _ _
  · rfl

@[simp] theorem takeHeld_mem : s.takeHeld.mem = s.mem := by
  unfold State.takeHeld
  dsimp only
  split <;> rfl

/-- A return that is in order leaves the context at TRAPPC, and memory as it is. -/
theorem rteBody_returns {o : Ops} (hh : s.me.handling = true) (hk : s.me.priv ≠ .kernel)
    (hp : (Priv.ofCode (fld s.me.trapcause 11 10)).code ≤ s.me.priv.code) :
    ∃ t now, rteBody o s = .left t ∧ t.mem = s.mem ∧
      t.me = if (s.me.returnedTo now o.sw).saveWaiting then (s.me.returnedTo now o.sw).saving else s.me.returnedTo now o.sw := by
  let m := if fld s.me.trapcause 5 0 = 0x13 then s else s.mark (hamOf s.curCore) (Marks.class · 3)
  have hm : m.me = s.me := by
    show State.me (if _ then _ else _) = _
    split <;> rfl
  have hmem : m.mem = s.mem := by
    show State.mem (if _ then _ else _) = _
    split <;> rfl
  refine ⟨(m.setMe (m.me.returnedTo m.cycle.toNat o.sw)).takeHeld, m.cycle.toNat, ?_, ?_, ?_⟩
  · unfold rteBody
    dsimp only
    rw [if_neg (by simp [hh]), if_neg (by simp [hk]; omega)]
    rfl
  · rw [takeHeld_mem, setMe_mem, hmem]
  · rw [takeHeld_me, setMe_me, hm]

/-- Settles O14: the body of RTE checks `valid`, then the privilege, and returns. -/
theorem returnFromTrap : Obligations.ReturnFromTrap := by
  intro s o hg hret
  refine ⟨fun hk hh hp => ?returns, fun hh => ?invalid, fun hh hp => ?privileged⟩
  case returns =>
    obtain ⟨t, now, hb, hmem, hme⟩ := rteBody_returns (o := o) hh hk hp
    have ht : exec (.rte o) s = .next t := by
      show s.run (.rte o) o (rteBody o) = _
      rw [run_goes hg, hb]
      rfl
    have hp0 : (t.me.priv = ((s.entered o).me.returnedTo now o.sw).priv) ∧
        t.me.trapcause = ((s.entered o).me.returnedTo now o.sw).trapcause := by
      rw [hme]
      split <;> exact ⟨rfl, rfl⟩
    refine ⟨t, ht, hp0.1, ?_, fun i hi => ?_, hmem, fun hn => ?_, fun hpre hst hga hw hrep => ?_⟩
    · rw [Ctx.handling, hp0.2]
      exact Ctx.returnedTo_handling _ _ _
    · rw [hp0.2]
      exact Ctx.returnedTo_bit _ _ _ hi
    · have hs : ((s.entered o).me.returnedTo now o.sw).saveWaiting = false := by
        show ((s.entered o).me.preempt && _ && _ && _) = false
        simp [hn]
      rw [hs] at hme
      rw [hme]
      exact ⟨rfl, rfl⟩
    · have hs : ((s.entered o).me.returnedTo now o.sw).saveWaiting = true := by
        show ((s.entered o).me.preempt && (s.entered o).me.strand.isSome && !(s.entered o).me.inGang && !(s.entered o).me.wordDue) = true
        simp [hpre, hst, hga, hw]
      rw [hs] at hme
      rw [hme]
      refine ⟨rfl, ?_, rfl, rfl⟩
      have hf : ((s.entered o).me.returnedTo now o.sw).faultPc = (s.entered o).me.trappc := by
        show (match (s.entered o).me.rep with
          | some r => if _ then r.pc else (s.entered o).me.trappc
          | none => (s.entered o).me.trappc) = _
        rw [hrep]
      exact hf
  case invalid =>
    exact run_trap hg (if_pos (by simp [hh]))
  case privileged =>
    refine run_trap hg ?_
    unfold rteBody
    dsimp only
    rw [if_neg (by simp [hh]), if_pos (by simpa using hp)]

end Sys2Proof.Machine
end

section
/-! A trap that escalates to the reeve core (17 R410, R411; 19 R443), and the packets of the part's own (20 R453). -/

namespace Sys2Proof.Machine

variable {s t u : State}

/-! ### Packets on their way out -/

/-- `t` is `s` but for the links, the messages in flight, the events owed and the running number. -/
def LinksOnly (s t : State) : Prop :=
  ∃ hub ports peers flight agenda seqno,
    t = { s with hub := hub, ports := ports, peers := peers, flight := flight, agenda := agenda, seqno := seqno }

theorem LinksOnly.refl (s : State) : LinksOnly s s := ⟨_, _, _, _, _, _, rfl⟩

theorem LinksOnly.trans (h : LinksOnly s t) (h' : LinksOnly t u) : LinksOnly s u := by
  obtain ⟨_, _, _, _, _, _, rfl⟩ := h
  obtain ⟨_, _, _, _, _, _, rfl⟩ := h'
  exact ⟨_, _, _, _, _, _, rfl⟩

section
variable (h : LinksOnly s t)
include h
theorem LinksOnly.cores : t.cores = s.cores := by obtain ⟨_, _, _, _, _, _, rfl⟩ := h; rfl
theorem LinksOnly.hamlets : t.hamlets = s.hamlets := by obtain ⟨_, _, _, _, _, _, rfl⟩ := h; rfl
theorem LinksOnly.mem : t.mem = s.mem := by obtain ⟨_, _, _, _, _, _, rfl⟩ := h; rfl
theorem LinksOnly.pkgid : t.pkgid = s.pkgid := by obtain ⟨_, _, _, _, _, _, rfl⟩ := h; rfl
theorem LinksOnly.curCore : t.curCore = s.curCore := by obtain ⟨_, _, _, _, _, _, rfl⟩ := h; rfl
theorem LinksOnly.curCtx : t.curCtx = s.curCtx := by obtain ⟨_, _, _, _, _, _, rfl⟩ := h; rfl
end

theorem owe_links (i : Instr) : LinksOnly s (s.owe i) := ⟨_, _, _, _, _, _, rfl⟩

theorem oweOnce_links (i : Instr) : LinksOnly s (s.oweOnce i) := by
  unfold State.oweOnce
  split
  · exact .refl s
  · exact owe_links i

theorem sendFlit_links (n : Option Nat) : LinksOnly s (s.sendFlit n) := by
  cases n with
  | none => exact .refl s
  | some n => exact ⟨_, _, _, _, _, _, rfl⟩

theorem leaves_links (p : BitVec 20) (id : Nat) : LinksOnly s (s.leaves p id) :=
  (sendFlit_links _).trans (.trans ⟨_, _, _, _, _, _, rfl⟩ (oweOnce_links _))

theorem numbered_links (p : BitVec 20) (id : Nat) : LinksOnly s (s.numbered p id) := by
  unfold State.numbered
  split
  · exact .trans ⟨_, _, _, _, _, _, rfl⟩ (oweOnce_links _)
  · split
    · exact ⟨_, _, _, _, _, _, rfl⟩
    · exact leaves_links p id

theorem packetOut_links (pkg : BitVec 20) (core ctx tag : Nat) (b : Body) : LinksOnly s (s.packetOut pkg core ctx tag b) :=
  .trans ⟨_, _, _, _, _, _, rfl⟩ (numbered_links _ _)

theorem finishMsg_links (id : Nat) (data : Row) (flags : BitVec 6) : LinksOnly s (s.finishMsg id data flags) := by
  unfold State.finishMsg
  split
  · exact .refl s
  · exact ⟨_, _, _, _, _, _, rfl⟩

/-- What a message that awaits an answer is once it is answered (06 R160). -/
theorem finishMsg_find {id : Nat} {m : Msg} (data : Row) (flags : BitVec 6) (hf : s.flight.find? (fun (n : Msg) => n.id = id) = some m)
    (ht : m.tag.isSome = true) : (s.finishMsg id data flags).flight.find? (fun (n : Msg) => n.id = id) =
      some { m with applied := true, body := .reply data flags } := by
  have hid : m.id = id := by simpa using List.find?_some hf
  simp only [State.finishMsg, hf, ht, if_true]
  show List.find? _ (s.flight.map _) = _
  rw [List.find?_map]
  have hp : ((fun (n : Msg) => decide (n.id = id)) ∘ fun (q : Msg) =>
      if q.id = id then { m with applied := true, body := .reply data flags } else q) = fun (n : Msg) => decide (n.id = id) := by
    funext q
    by_cases hq : q.id = id <;> simp [hq, hid]
  rw [hp, hf]
  simp [hid]

/-! ### The end of a run -/

/-- The answer of a run changes no core, and of hamlets what they have received (08 R235, 03 R90). -/
theorem answerRun_frame (c : Nat) (r : Run) (reply : Row) :
    LinksOnly s (s.answerRun c r reply) ∨ ∃ t, LinksOnly s t ∧ s.answerRun c r reply = t.received (hamOf c) := by
  unfold State.answerRun
  dsimp only
  split
  · split
    · split
      · exact .inl (packetOut_links _ _ _ _ _)
      · exact .inl (.refl s)
    · split
      · exact .inr ⟨_, finishMsg_links _ _ _, rfl⟩
      · exact .inl (finishMsg_links _ _ _)
  · exact .inl (owe_links _)
  · exact .inl (owe_links _)

section
variable (c : Nat) (r : Run) (reply : Row)

theorem answerRun_cores : (s.answerRun c r reply).cores = s.cores := by
  rcases answerRun_frame (s := s) c r reply with h | ⟨t, h, e⟩
  · exact h.cores
  · rw [e]; exact h.cores

theorem answerRun_pkgid : (s.answerRun c r reply).pkgid = s.pkgid := by
  rcases answerRun_frame (s := s) c r reply with h | ⟨t, h, e⟩
  · exact h.pkgid
  · rw [e]; exact h.pkgid

theorem answerRun_ham (g : Nat) : ∃ n, (s.answerRun c r reply).ham g = { s.ham g with received := n } := by
  rcases answerRun_frame (s := s) c r reply with h | ⟨t, h, e⟩
  · exact ⟨_, by rw [State.ham, h.hamlets]; rfl⟩
  · rw [e]
    have ht : t.ham = s.ham := by funext k; rw [State.ham, h.hamlets]; rfl
    by_cases hg : g = hamOf c
    · subst hg
      exact ⟨_, by rw [State.received, setHam_ham_same, ht]⟩
    · exact ⟨_, by rw [State.received, setHam_ham_other _ _ _ hg, ht]⟩
end

/-- A message of the own package that awaits a reply gets the run's (08 R235). -/
theorem answerRun_find {c : Nat} {r : Run} {m : Msg} (reply : Row) (hk : r.kind = .message) (hp : r.pkg = s.pkgid)
    (hf : s.flight.find? (fun (n : Msg) => n.id = r.msg) = some m) (ht : m.tag.isSome = true) :
    (s.answerRun c r reply).flight.find? (fun (n : Msg) => n.id = r.msg) = some { m with applied := true, body := .reply reply 0 } := by
  have h := finishMsg_find reply 0 hf ht
  simp only [State.answerRun, hk, hp]
  rw [if_neg (by simp)]
  split
  · exact h
  · exact h

/-! ### Escalation -/

/-- The context that an escalation stops (R410). -/
def Ctx.escalated (x : Ctx) : Ctx := { x with status := .stopped, hold := .none, run := none }

/-- The state in which the escalation's message is made: the context is stopped and its run answered. -/
def State.endedRun (s : State) (c k : Nat) : State :=
  match (s.ctx c k).run with
  | some r => (s.setCtx c k (s.ctx c k).escalated).answerRun c r r.failed
  | none => s.setCtx c k (s.ctx c k).escalated

/-- The run that carries an escalation to the reeve core (R411). -/
def State.escalationRun (s : State) (c k r : Nat) (x : Ctx) : Run :=
  { kind := .escalation, pkg := s.pkgid, core := c, ctx := k, reply := true, msg := 0,
    entry := (s.core r).reevevec, dst := 0, root := x.tblroot,
    payload := rowOfWords [s.corenum c, BitVec.ofNat 64 k, x.trapcause, x.trappc, x.trapinfo, s.seqOf c] }

theorem escalate_eq (c k : Nat) : s.escalate c k =
    if (s.endedRun c k).reeve (c / 512) = c ∧ k = 4 then (s.endedRun c k).owe (.disposition (Fin.ofNat 2048 c) 4 1)
    else
      let e := s.endedRun c k
      let r := e.reeve (c / 512)
      (e.setCore r { e.core r with inbox := (e.core r).inbox ++ [e.escalationRun c k r (s.ctx c k)] }).owe
        (.escalationRun (Fin.ofNat 2048 r)) := by
  unfold State.escalate State.endedRun
  dsimp only
  cases (s.ctx c k).run with
  | none =>
    refine ite_congr ?_ (fun _ => rfl) fun _ => rfl
    rw [Bool.and_eq_true, decide_eq_true_eq, decide_eq_true_eq]
    rfl
  | some r =>
    refine ite_congr ?_ (fun _ => rfl) fun _ => rfl
    rw [Bool.and_eq_true, decide_eq_true_eq, decide_eq_true_eq]
    rfl

theorem endedRun_cores (c k : Nat) : (s.endedRun c k).cores = (s.setCtx c k (s.ctx c k).escalated).cores := by
  unfold State.endedRun
  split
  · exact answerRun_cores _ _ _
  · rfl

theorem endedRun_pkgid (c k : Nat) : (s.endedRun c k).pkgid = s.pkgid := by
  unfold State.endedRun
  split
  · exact answerRun_pkgid _ _ _
  · rfl

theorem endedRun_ham (c k g : Nat) : ∃ n, (s.endedRun c k).ham g = { s.ham g with received := n } := by
  unfold State.endedRun
  split
  · exact answerRun_ham _ _ _ g
  · exact ⟨_, rfl⟩

/-- The reeve core is a matter of which hamlets are fenced (R410). -/
theorem reeve_congr (h : ∀ g, (t.ham g).fenced = (s.ham g).fenced) (die : Nat) : t.reeve die = s.reeve die := by
  unfold State.reeve
  simp only [h]

theorem endedRun_reeve (c k die : Nat) : (s.endedRun c k).reeve die = s.reeve die :=
  reeve_congr (fun g => by obtain ⟨n, e⟩ := endedRun_ham (s := s) c k g; rw [e]) die

/-- Of a core an update of a context changes the contexts only. -/
theorem setCtx_core (c k d : Nat) (x : Ctx) : ∃ cs, (s.setCtx c k x).core d = { s.core d with ctxs := cs } := by
  by_cases hd : d = c
  · subst hd
    exact ⟨_, setCore_core_same _ _ _⟩
  · exact ⟨_, setCore_core_other _ _ _ hd⟩

theorem endedRun_core (c k d : Nat) : ∃ cs, (s.endedRun c k).core d = { s.core d with ctxs := cs } := by
  obtain ⟨cs, e⟩ := setCtx_core (s := s) c k d (s.ctx c k).escalated
  exact ⟨cs, by rw [← e, State.core, State.core, endedRun_cores]⟩

theorem endedRun_ctx (c k : Nat) : (s.endedRun c k).ctx c k = (s.ctx c k).escalated := by
  rw [State.ctx, State.core, endedRun_cores]
  exact setCtx_ctx_same _ _ _ _

/-- An escalation stops the context with its registers. -/
theorem escalate_ctx (c k : Nat) : (s.escalate c k).ctx c k = (s.ctx c k).escalated := by
  rw [← endedRun_ctx, escalate_eq]
  split
  · rfl
  · dsimp only
    by_cases h : (s.endedRun c k).reeve (c / 512) = c
    · rw [h]
      show look {} (State.core (State.setCore _ _ _) c).ctxs k = _
      rw [setCore_core_same]
      rfl
    · show look {} (State.core (State.setCore _ _ _) c).ctxs k = _
      rw [setCore_core_other _ _ _ (Ne.symm h)]
      rfl

/-- The escalation's message enters the inbox of the reeve core (R411). -/
theorem escalate_inbox (c k : Nat) (h : ¬ (s.reeve (c / 512) = c ∧ k = 4)) :
    ∃ run, ((s.escalate c k).core (s.reeve (c / 512))).inbox = (s.core (s.reeve (c / 512))).inbox ++ [run] ∧
      run.kind = .escalation ∧ run.core = c ∧ run.ctx = k ∧ run.entry = (s.core (s.reeve (c / 512))).reevevec ∧
      run.payload = rowOfWords [s.corenum c, BitVec.ofNat 64 k, (s.ctx c k).trapcause, (s.ctx c k).trappc,
        (s.ctx c k).trapinfo, s.seqOf c] := by
  rw [escalate_eq, endedRun_reeve, if_neg h]
  dsimp only
  rw [endedRun_reeve]
  obtain ⟨cs, e⟩ := endedRun_core (s := s) c k (s.reeve (c / 512))
  obtain ⟨n, hn⟩ := endedRun_ham (s := s) c k (hamOf c)
  refine ⟨(s.endedRun c k).escalationRun c k (s.reeve (c / 512)) (s.ctx c k), ?_, rfl, rfl, rfl, ?_, ?_⟩
  · rw [owe_core, setCore_core_same, e]
  · rw [State.escalationRun, e]
  · rw [State.escalationRun, State.corenum, State.corenum, endedRun_pkgid, State.seqOf, State.seqOf, hn]

/-- On the reeve core's own handler context there is no run: its disposition comes due (19 R443). -/
theorem escalate_disposition (c : Nat) (h : s.reeve (c / 512) = c) :
    .disposition (Fin.ofNat 2048 c) 4 1 ∈ (s.escalate c 4).agenda := by
  rw [escalate_eq, endedRun_reeve, if_pos ⟨h, rfl⟩]
  exact List.mem_append_right _ (List.mem_singleton_self _)

theorem endedRun_cur (c k : Nat) : (s.endedRun c k).curCore = s.curCore ∧ (s.endedRun c k).curCtx = s.curCtx := by
  unfold State.endedRun
  split
  case h_1 r hr =>
    rcases answerRun_frame (s := s.setCtx c k (s.ctx c k).escalated) c r r.failed with h | ⟨t, h, e⟩
    · exact ⟨h.curCore, h.curCtx⟩
    · rw [e]
      exact ⟨h.curCore, h.curCtx⟩
  case h_2 => exact ⟨rfl, rfl⟩

theorem escalate_me : (s.escalate s.curCore s.curCtx).me = s.me.escalated := by
  have h : (s.escalate s.curCore s.curCtx).curCore = s.curCore ∧ (s.escalate s.curCore s.curCtx).curCtx = s.curCtx := by
    rw [escalate_eq]
    split <;> exact endedRun_cur _ _
  rw [State.me, h.1, h.2]
  exact escalate_ctx _ _

theorem escalate_flight (c k : Nat) : (s.escalate c k).flight = (s.endedRun c k).flight := by
  rw [escalate_eq]
  split <;> rfl

/-- A handler run that a trap ends answers its message with 64 bytes of 0xFF (19 R443). -/
theorem escalate_reply {c k : Nat} {q : Run} {m : Msg} (hr : (s.ctx c k).run = some q) (hk : q.kind = .message)
    (hp : q.pkg = s.pkgid) (hf : s.flight.find? (fun (n : Msg) => n.id = q.msg) = some m) (ht : m.tag.isSome = true) :
    (s.escalate c k).flight.find? (fun (n : Msg) => n.id = q.msg) =
      some { m with applied := true, body := .reply (BitVec.allOnes 512) 0 } := by
  have hfail : q.failed = BitVec.allOnes 512 := by rw [Run.failed, hk]
  rw [escalate_flight, State.endedRun, hr]
  dsimp only
  rw [hfail]
  exact answerRun_find (s := s.setCtx c k _) _ hk hp hf ht

/-! ### A trap that escalates -/

/-- The state in which a trap escalates: its results have committed, its registers are filled, its hamlet's flag is set. -/
def State.trapFilled (s : State) (cause : BitVec 6) (info pc : Word) : State :=
  (s.commitAll.trapMarked cause).setMe (s.trapRegs cause info pc)

section
variable (cause : BitVec 6) (info pc : Word)

theorem trapFilled_curCore : (s.trapFilled cause info pc).curCore = s.curCore := trapMarked_curCore.trans commitAll_regsOnly.curCore
theorem trapFilled_curCtx : (s.trapFilled cause info pc).curCtx = s.curCtx := trapMarked_curCtx.trans commitAll_regsOnly.curCtx
theorem trapFilled_me : (s.trapFilled cause info pc).me = s.trapRegs cause info pc := setMe_me _ _

/-- Neither the commit of results nor the flag touches the messages or the package's number. -/
theorem trapFilled_flight : (s.trapFilled cause info pc).flight = s.flight ∧ (s.trapFilled cause info pc).pkgid = s.pkgid := by
  have h : s.commitAll.flight = s.flight ∧ s.commitAll.pkgid = s.pkgid := by
    rcases commitAll_regsOnly (s := s) with e | ⟨_, _, _, e, _⟩ <;> rw [e] <;> exact ⟨rfl, rfl⟩
  unfold State.trapFilled State.trapMarked
  split <;> exact h

theorem trapFilled_ham (g : Nat) : ∃ m, (s.trapFilled cause info pc).ham g = { s.ham g with marks := m } := by
  have hb : s.commitAll.ham g = s.ham g := by rw [State.ham, commitAll_regsOnly.hamlets]; rfl
  unfold State.trapFilled
  rw [setMe_ham]
  unfold State.trapMarked
  split
  · exact ⟨_, hb⟩
  · by_cases hg : g = hamOf s.commitAll.curCore
    · subst hg
      exact ⟨_, by rw [State.mark, setHam_ham_same, hb]⟩
    · exact ⟨_, by rw [State.mark, setHam_ham_other _ _ _ hg, hb]⟩

theorem trapFilled_core (g : Nat) : ∃ cs m, (s.trapFilled cause info pc).core g = { s.core g with ctxs := cs, mill := m } := by
  obtain ⟨cs, b0, b1, e⟩ := (commitAll_regsOnly (s := s)).core g
  have hm : (s.commitAll.trapMarked cause).core g = s.commitAll.core g := by unfold State.trapMarked; split <;> rfl
  obtain ⟨cs', e'⟩ := setCtx_core (s := s.commitAll.trapMarked cause) (s.commitAll.trapMarked cause).curCore
    (s.commitAll.trapMarked cause).curCtx g (s.trapRegs cause info pc)
  exact ⟨cs', _, e'.trans (by rw [hm, e])⟩

theorem trapFilled_reeve (die : Nat) : (s.trapFilled cause info pc).reeve die = s.reeve die :=
  reeve_congr (fun g => by obtain ⟨m, e⟩ := trapFilled_ham (s := s) cause info pc g; rw [e]) die
end

/-- Settles O13: the registers are filled, the context stops, its run is answered, and the message enters the reeve's inbox. -/
theorem trapEscalates : Obligations.TrapEscalates := by
  intro s direct cause info pc hret hc hesc t r
  have he : s.escalates direct = true := by
    simp only [State.escalates, Bool.or_eq_true]
    tauto
  obtain ⟨st, pr, fp, d, q, b, hregs, -, -⟩ := trapRegs_shape (s := s) (cause := cause) (info := info) (pc := pc)
  have hco := trapFilled_curCore (s := s) cause info pc
  have hcx := trapFilled_curCtx (s := s) cause info pc
  have hme := trapFilled_me (s := s) cause info pc
  have hctx : (s.trapFilled cause info pc).ctx s.curCore s.curCtx = s.trapRegs cause info pc := by
    rw [← hme, State.me, hco, hcx]
  have hreeve := trapFilled_reeve (s := s) cause info pc (s.curCore / 512)
  obtain ⟨hfl, hpkg⟩ := trapFilled_flight (s := s) cause info pc
  have ht : t = (s.trapFilled cause info pc).escalate s.curCore s.curCtx := by
    show s.enterTrap false direct cause info pc = _
    rw [enterTrap_eq, if_pos he]
    rfl
  have htm : t.me = (s.trapRegs cause info pc).escalated := by
    rw [ht, ← hco, ← hcx, escalate_me, hme]
  rw [htm, hregs]
  refine ⟨?_, rfl, rfl, rfl, causeWord_cause _ _ _, rfl, rfl, rfl, fun hr => ?_, fun hr hk => ?_, fun q m hrun hk hp hf htag => ?_⟩
  · rintro rfl
    exact trap_returned hret
  · obtain ⟨run, h1, h2, h3, h4, h5, h6⟩ := escalate_inbox (s := s.trapFilled cause info pc) s.curCore s.curCtx (by rwa [hreeve])
    obtain ⟨cs, m, hg⟩ := trapFilled_core (s := s) cause info pc r
    obtain ⟨m', hh⟩ := trapFilled_ham (s := s) cause info pc (hamOf s.curCore)
    rw [hreeve, hg] at h1 h5
    rw [← ht] at h1
    refine ⟨run, h1, h2, h3, h4, h5, ?_⟩
    rw [h6, hctx, hregs, State.corenum, State.corenum, hpkg, State.seqOf, State.seqOf, hh]
    rfl
  · rw [ht, hk]
    exact escalate_disposition _ (hreeve.trans hr)
  · rw [ht]
    rw [← hpkg] at hp
    rw [← hfl] at hf
    exact escalate_reply (by rw [hctx, hregs]; exact hrun) hk hp hf htag

end Sys2Proof.Machine
end

section
/-! The control registers and the TLBs (12 R344 to R347). -/

namespace Sys2Proof.Machine

variable {s u t : State} {o : Ops} {i : Instr}

/-! ### SYSRD and SYSWR -/

theorem sysrdBody_privileged (hr : 0x020 ≤ (number12 o o.a).toNat) (hp : s.me.priv = .kernel) :
    sysrdBody o s = .trap 0x02 (sysInfo (.sysrd o) (number12 o o.a).toNat) :=
  if_pos (by simp [sysPrivileged, hr, hp])

theorem sysrdBody_reads (hr : (number12 o o.a).toNat < 0x020 ∨ s.me.priv ≠ .kernel) (hl : s.locsFault [scLoc o o.d] = none) :
    sysrdBody o s = .done (s.push (fixedResult 2 (intoD o (s.sysreg (number12 o o.a).toNat)))) :=
  (if_neg (by
    simp only [sysPrivileged, Bool.and_eq_true, decide_eq_true_eq]
    rintro ⟨h, h'⟩
    exact hr.elim (by omega) fun k => k h')).trans (within_ok hl)

theorem syswrBody_privileged (h : sysReadOnly (number12 o o.d).toNat = true ∨ (0x020 ≤ (number12 o o.d).toNat ∧ s.me.priv = .kernel) ∨
    ((number12 o o.d).toNat = 0x034 ∧ s.me.priv ≠ .firmware)) :
    syswrBody o s = .trap 0x02 (sysInfo (.syswr o) (number12 o o.d).toNat) :=
  if_pos (by simpa [sysPrivileged, or_assoc] using h)

theorem syswrBody_writes (h0 : sysReadOnly (number12 o o.d).toNat = false)
    (h1 : (number12 o o.d).toNat < 0x020 ∨ s.me.priv ≠ .kernel) (h2 : (number12 o o.d).toNat ≠ 0x034 ∨ s.me.priv = .firmware)
    (hl : s.locsFault [scLoc o o.a] = none) :
    syswrBody o s = .done (s.setSysreg (number12 o o.d).toNat (s.scOp o o.a)) := by
  refine (if_neg ?_).trans (within_ok hl)
  simp only [h0, sysPrivileged, Bool.or_eq_true, Bool.and_eq_true, decide_eq_true_eq]
  rintro ((h | ⟨h, h'⟩) | ⟨h, h'⟩)
  · cases h
  · exact h1.elim (by omega) (fun k => k h')
  · exact h2.elim (fun k => k h) (fun k => h' k)

/-! ### What a write takes -/

theorem setWidth_setFld {w n lo hi v : Nat} (x : BitVec w) (hn : n ≤ w) (h : n ≤ lo) : (setFld x hi lo v).setWidth n = x.setWidth n := by
  apply BitVec.eq_of_getLsbD_eq
  intro i hi'
  rw [BitVec.getLsbD_setWidth, BitVec.getLsbD_setWidth, setFld_getLsbD _ _ _ _ _ (by omega), if_neg (by omega)]

/-- A low field written is read back. -/
theorem setWidth_setFld_low {w n : Nat} (x v : BitVec w) (hn : n < w) : (setFld x n 0 (fld v n 0)).setWidth (n + 1) = v.setWidth (n + 1) := by
  apply BitVec.eq_of_getLsbD_eq
  intro i hi
  rw [BitVec.getLsbD_setWidth, BitVec.getLsbD_setWidth, setFld_getLsbD _ _ _ _ _ (by omega), if_pos (by omega), fld_testBit]
  simp [hi]

/-- A field written is read back, and one beside it is as it was. -/
theorem fld_setFld_same {w hi lo v : Nat} (x : BitVec w) (hw : hi < w) (hlo : lo ≤ hi) (hv : v < 2 ^ (hi + 1 - lo)) :
    fld (setFld x hi lo v) hi lo = v := by
  apply Nat.eq_of_testBit_eq
  intro j
  rw [fld_testBit]
  by_cases hj : j < hi + 1 - lo
  · rw [setFld_getLsbD _ _ _ _ _ (by omega), if_pos (by omega)]
    simp [hj]
  · rw [Nat.testBit_lt_two_pow (lt_of_lt_of_le hv (Nat.pow_le_pow_right (by omega) (by omega)))]
    simp [hj]

theorem fld_setFld_other {w hi lo hi' lo' v : Nat} (x : BitVec w) (hw : hi' < w) (h : hi < lo' ∨ hi' < lo) :
    fld (setFld x hi lo v) hi' lo' = fld x hi' lo' := by
  apply Nat.eq_of_testBit_eq
  intro j
  rw [fld_testBit, fld_testBit]
  by_cases hj : j < hi' + 1 - lo'
  · rw [setFld_getLsbD _ _ _ _ _ (by omega), if_neg (by omega)]
  · simp [hj]

theorem fld_lt {w : Nat} (x : BitVec w) (hi lo : Nat) : fld x hi lo < 2 ^ (hi + 1 - lo) := Nat.mod_lt _ (Nat.two_pow_pos _)

/-- TRAPCAUSE takes `valid`, and a `prev` that is not 0b11 (R344). -/
theorem writeCause_fields (old v : Word) :
    (writeCause old v).getLsbD 12 = v.getLsbD 12 ∧
      fld (writeCause old v) 11 10 = (if fld v 11 10 = 3 then fld old 11 10 else fld v 11 10) ∧
      (writeCause old v).setWidth 10 = old.setWidth 10 := by
  have hvalid : ∀ x : Word, (setFld x 12 12 (fld v 12 12)).getLsbD 12 = v.getLsbD 12 := fun x => by
    rw [setFld_getLsbD _ _ _ _ _ (by omega), if_pos (by omega), fld_testBit]
    rfl
  unfold writeCause
  dsimp only
  split
  · exact ⟨hvalid old, fld_setFld_other _ (by omega) (by omega), setWidth_setFld _ (by omega) (by omega)⟩
  · refine ⟨?_, fld_setFld_same _ (by omega) (by omega) (fld_lt v 11 10), ?_⟩
    · rw [setFld_getLsbD _ _ _ _ _ (by omega), if_neg (by omega), hvalid]
    · rw [setWidth_setFld _ (by omega) (by omega), setWidth_setFld _ (by omega) (by omega)]

theorem Ctx.withCause_trapcause (x : Ctx) (v : Word) (now : Nat) : (x.withCause v now).trapcause = v := rfl

theorem writeFp_flags (old v : Word) : (writeFp old v).setWidth 6 = v.setWidth 6 := by
  unfold writeFp
  dsimp only
  split
  · rw [setWidth_setFld _ (by omega) (by omega), setWidth_setFld_low _ _ (by omega)]
  · exact setWidth_setFld_low _ _ (by omega)

/-! ### TLBINV -/

/-- The TLB entries of a table of cores or hamlets. -/
theorem look_mem {α β : Type} {d : α} {f : α → List β} (hd : f d = []) {m : Map α} {k : Nat} {e : β} (h : e ∈ f (look d m k)) :
    e ∈ m.flatMap fun c => f c.2 := by
  induction m with
  | nil =>
    rw [look, hd] at h
    cases h
  | cons c m ih =>
    obtain ⟨j, v⟩ := c
    rw [List.flatMap_cons, List.mem_append]
    by_cases hj : j = k
    · rw [look, if_pos hj] at h
      exact .inl h
    · rw [look, if_neg hj] at h
      exact .inr (ih h)

/-- An entry replaced by one with the same TLB leaves the entries of a table as they are. -/
theorem mem_put_flatMap {α β : Type} {d v : α} {f : α → List β} (hd : f d = []) (m : Map α) (k : Nat)
    (hv : f v = f (look d m k)) (e : β) : (e ∈ (put m k v).flatMap fun c => f c.2) ↔ e ∈ m.flatMap fun c => f c.2 := by
  induction m with
  | nil =>
    rw [look, hd] at hv
    simp [put, hv]
  | cons c m ih =>
    obtain ⟨j, w⟩ := c
    unfold put
    by_cases hk : k = j
    · subst hk
      rw [look, if_pos rfl] at hv
      simp [hv]
    · by_cases hlt : k < j
      · rw [if_neg hk, if_pos hlt, List.flatMap_cons, List.mem_append, hv]
        exact or_iff_right_of_imp (look_mem hd)
      · rw [look, if_neg (Ne.symm hk)] at hv
        rw [if_neg hk, if_neg hlt, List.flatMap_cons, List.flatMap_cons, List.mem_append, List.mem_append, ih hv]

theorem setMe_allTlb (x : Ctx) (e : Tlb) : e ∈ (s.setMe x).allTlb ↔ e ∈ s.allTlb := by
  simp only [State.allTlb, List.mem_append]
  exact or_congr (mem_put_flatMap (d := ({} : Core)) (f := Core.tlb) (v := { s.core s.curCore with ctxs := put _ s.curCtx x })
    rfl s.cores s.curCore rfl e) Iff.rfl

theorem dropTlb_allTlb (gone : Tlb → Bool) (e : Tlb) : e ∈ (s.dropTlb gone).allTlb ↔ e ∈ s.allTlb ∧ gone e = false := by
  simp only [State.allTlb, State.dropTlb, List.mem_append, List.flatMap_map, List.mem_flatMap, List.mem_filter,
    Bool.not_eq_true']
  constructor
  · rintro (⟨c, hc, he, hg⟩ | ⟨c, hc, he, hg⟩)
    · exact ⟨.inl ⟨c, hc, he⟩, hg⟩
    · exact ⟨.inr ⟨c, hc, he⟩, hg⟩
  · rintro ⟨⟨c, hc, he⟩ | ⟨c, hc, he⟩, hg⟩
    · exact .inl ⟨c, hc, he, hg⟩
    · exact .inr ⟨c, hc, he, hg⟩

theorem dropTlb_mem (gone : Tlb → Bool) : (s.dropTlb gone).mem = s.mem := rfl

/-- An instruction that retires leaves memory and every TLB as its effects do. -/
theorem Retires.mem {rs : List Result} {target : Option Word} (h : Retires u t o rs target) : t.mem = u.mem := by
  obtain ⟨⟨x, rfl, -⟩, -⟩ := h
  rfl

theorem Retires.allTlb {rs : List Result} {target : Option Word} (h : Retires u t o rs target) (e : Tlb) :
    e ∈ t.allTlb ↔ e ∈ u.allTlb := by
  obtain ⟨⟨x, rfl, -⟩, -⟩ := h
  exact setMe_allTlb x e

/-- TLBINV in any of its forms: what its body does, and what the TLBs then hold (R347). -/
theorem tlbinv_runs {reads : List Loc} {body : State → Act} {gone : Tlb → Bool}
    (hb : body (s.entered o) = tlbinvBody i reads (s.entered o) gone) (hg : s.goes i o = true) :
    ((s.entered o).me.priv = .kernel →
      s.run i o body = .next ((s.entered o).trap 0x02 (baseInfo i) (s.entered o).me.faultPc)) ∧
    ((s.entered o).me.priv ≠ .kernel → (s.entered o).locsFault reads = none → (s.entered o).travelling gone = false →
      ∃ t, s.run i o body = .next t ∧ Retires ((s.entered o).dropTlb gone) t o [] ∧ t.mem = (s.entered o).mem ∧
        (∀ e ∈ t.allTlb, gone e = false) ∧ ∀ e ∈ (s.entered o).allTlb, gone e = false → e ∈ t.allTlb) := by
  refine ⟨fun hp => run_trap hg (hb.trans (if_pos hp)), fun hp hl ht => ?_⟩
  obtain ⟨t, hr, hret⟩ := run_plain hg (hb.trans ((if_neg hp).trans ((within_ok hl).trans (if_neg (by simp [ht])))))
  refine ⟨t, hr, hret, hret.mem.trans (dropTlb_mem _), fun e he => ?_, fun e he hge => ?_⟩
  · exact ((dropTlb_allTlb _ e).mp ((hret.allTlb e).mp he)).2
  · exact (hret.allTlb e).mpr ((dropTlb_allTlb _ e).mpr ⟨he, hge⟩)

theorem setSysreg_reads (s : State) (v : Word) :
    (s.setSysreg 0x020 v).me.trapcause = writeCause s.me.trapcause v ∧ (s.setSysreg 0x021 v).me.trappc = v ∧
      (s.setSysreg 0x022 v).me.trapinfo = v ∧ (s.setSysreg 0x033 v).me.trapvec = writeAddr s.me.trapvec v ∧
      (s.setSysreg 0x000 v).me.fpstatus = writeFp s.me.fpstatus v := by
  refine ⟨?_, ?_, ?_, ?_, ?_⟩ <;> simp only [State.setSysreg] <;> simp [Ctx.withCause]

/-- Settles O17: the bodies check the privilege and their operand, read or write one register, and drop what TLBINV names. -/
theorem controlRegisters : Obligations.ControlRegisters := by
  refine ⟨⟨fun s o hg => ⟨fun hr hp => run_trap hg (sysrdBody_privileged hr hp), fun hr hl => run_push hg (sysrdBody_reads hr hl)⟩,
    fun s => ⟨rfl, rfl, rfl, rfl, rfl, rfl, rfl, rfl, rfl⟩,
    fun s o hg => ⟨fun h => run_trap hg (syswrBody_privileged h),
      fun h0 h1 h2 hl => run_plain hg (syswrBody_writes h0 h1 h2 hl)⟩, fun s v => ?writes⟩, ?invalidates⟩
  case writes =>
    obtain ⟨hc, hp, hi, hv, hf⟩ := setSysreg_reads s v
    rw [hc, hv, hf]
    exact ⟨writeCause_fields _ _, hp, hi, setWidth_setFld_low _ _ (by omega), writeFp_flags _ _⟩
  case invalidates =>
    rintro s o i gone u (⟨rfl, rfl⟩ | ⟨rfl, rfl⟩ | ⟨rfl, rfl⟩) hg
    · obtain ⟨hk, hr⟩ := tlbinv_runs (reads := [scLoc o o.a]) (body := fun t => tlbinvBody (.tlbinv o) [scLoc o o.a] t fun e =>
        e.covers (t.me.tblroot.extractLsb' 52 12) ((t.scOp o o.a).toNat % 2 ^ 57)) rfl hg
      exact ⟨hk, fun hp hl => hr hp (hl (by simp))⟩
    · obtain ⟨hk, hr⟩ := tlbinv_runs (reads := [scLoc o o.a]) (body := fun t => tlbinvBody (.tlbinvSpace o) [scLoc o o.a] t
        fun e => e.space = (t.scOp o o.a).setWidth 12) rfl hg
      exact ⟨hk, fun hp hl => hr hp (hl (by simp))⟩
    · obtain ⟨hk, hr⟩ := tlbinv_runs (reads := []) (body := fun t => tlbinvBody (.tlbinvAll o) [] t fun _ => true) rfl hg
      exact ⟨hk, fun hp _ => hr hp rfl⟩

end Sys2Proof.Machine
end


section
/-! Scalar integer arithmetic (08 R198, R203): the exact results of `aluInt`, reduced modulo 2^w, are the bit-vector
operations of `aluSpec`. -/

namespace Sys2Proof.Machine

theorem readInt_signed (w : Nat) (x : Word) : readInt w true x = (x.setWidth w).toInt := rfl

theorem readInt_unsigned (w : Nat) (x : Word) : readInt w false x = ((x.setWidth w).toNat : Int) := rfl

/-- An operand is an integer that its own low bits represent. -/
theorem ofInt_readInt (w : Nat) (sg : Bool) (x : Word) : BitVec.ofInt w (readInt w sg x) = x.setWidth w := by
  cases sg
  · rw [readInt_unsigned, BitVec.ofInt_natCast, BitVec.ofNat_toNat, BitVec.setWidth_eq]
  · rw [readInt_signed, BitVec.ofInt_toInt]

theorem readInt_eq_zero (w : Nat) (sg : Bool) (x : Word) : readInt w sg x = 0 ↔ x.setWidth w = 0 := by
  cases sg
  · rw [readInt_unsigned, Int.natCast_eq_zero, ← BitVec.toNat_inj]; rfl
  · rw [readInt_signed, ← BitVec.toInt_inj]; simp

theorem ofInt_sub_ofInt (w : Nat) (x y : Int) : BitVec.ofInt w (x - y) = BitVec.ofInt w x - BitVec.ofInt w y := by
  rw [Int.sub_eq_add_neg, BitVec.ofInt_add, BitVec.ofInt_neg, BitVec.sub_eq_add_neg]

/-- The product of two operands, in twice their width. -/
theorem ofInt_double_mul (w : Nat) (sg : Bool) (x y : Word) :
    BitVec.ofInt (2 * w) (readInt w sg x * readInt w sg y) =
      if sg then (x.setWidth w).signExtend (2 * w) * (y.setWidth w).signExtend (2 * w)
      else (x.setWidth w).setWidth (2 * w) * (y.setWidth w).setWidth (2 * w) := by
  rw [BitVec.ofInt_mul]
  cases sg
  · simp only [readInt_unsigned, BitVec.ofInt_natCast, BitVec.ofNat_toNat, Bool.false_eq_true, if_false]
  · simp only [readInt_signed, BitVec.signExtend, if_true]

/-- The upper half of a double-width word is the quotient of its integer by 2^w. -/
theorem ofInt_fdiv_eq_upper (w : Nat) (z : Int) :
    BitVec.ofInt w (z.fdiv (2 ^ w)) = (BitVec.ofInt (2 * w) z >>> w).setWidth w := by
  have hpow : (0 : Int) < 2 ^ w := by positivity
  apply BitVec.eq_of_toNat_eq
  have hdouble : ((2 ^ (2 * w) : Nat) : Int) = 2 ^ w * 2 ^ w := by push_cast; rw [Nat.two_mul, pow_add]
  have hnn : 0 ≤ z % (2 ^ w * 2 ^ w : Int) := Int.emod_nonneg _ (by positivity)
  have hlt : z % (2 ^ w * 2 ^ w : Int) < 2 ^ w * 2 ^ w := Int.emod_lt_of_pos _ (by positivity)
  have hq : z % (2 ^ w * 2 ^ w : Int) / 2 ^ w = z / 2 ^ w % 2 ^ w := by
    rw [Int.emod_def z, Int.sub_ediv_of_dvd _ ⟨2 ^ w * (z / (2 ^ w * 2 ^ w)), by ring⟩,
      Int.emod_def, ← Int.ediv_ediv_of_nonneg hpow.le]
    congr 1
    rw [mul_assoc, Int.mul_ediv_cancel_left _ hpow.ne']
  rw [BitVec.toNat_setWidth, BitVec.toNat_ushiftRight, BitVec.toNat_ofInt, BitVec.toNat_ofInt,
    Int.fdiv_eq_ediv_of_nonneg _ hpow.le, hdouble, Nat.shiftRight_eq_div_pow]
  have hcast : ((2 ^ w : Nat) : Int) = 2 ^ w := by push_cast; rfl
  apply Int.natCast_inj.mp
  have hnw : 0 ≤ z / 2 ^ w % (2 ^ w : Int) := Int.emod_nonneg _ hpow.ne'
  push_cast
  rw [Int.toNat_of_nonneg hnw, Int.toNat_of_nonneg hnn, hq, Int.emod_emod_of_dvd _ (dvd_refl _)]

theorem ofInt_tdiv (w : Nat) (sg : Bool) (x y : Word) :
    BitVec.ofInt w ((readInt w sg x).tdiv (readInt w sg y)) =
      if sg then (x.setWidth w).sdiv (y.setWidth w) else x.setWidth w / y.setWidth w := by
  cases sg
  · simp only [readInt_unsigned, Bool.false_eq_true, if_false]
    rw [Int.tdiv_eq_ediv_of_nonneg (Int.natCast_nonneg _), ← Int.natCast_ediv, BitVec.ofInt_natCast,
      ← BitVec.toNat_udiv, BitVec.ofNat_toNat, BitVec.setWidth_eq]
  · simp only [readInt_signed, if_true]
    apply BitVec.eq_of_toInt_eq
    rw [BitVec.toInt_ofInt, BitVec.toInt_sdiv]

theorem ofInt_tmod (w : Nat) (sg : Bool) (x y : Word) :
    BitVec.ofInt w ((readInt w sg x).tmod (readInt w sg y)) =
      if sg then (x.setWidth w).srem (y.setWidth w) else x.setWidth w % y.setWidth w := by
  cases sg
  · simp only [readInt_unsigned, Bool.false_eq_true, if_false]
    rw [Int.tmod_eq_emod_of_nonneg (Int.natCast_nonneg _), ← Int.natCast_emod, BitVec.ofInt_natCast,
      ← BitVec.toNat_umod, BitVec.ofNat_toNat, BitVec.setWidth_eq]
  · simp only [readInt_signed, if_true]
    rw [← BitVec.toInt_srem, BitVec.ofInt_toInt]

theorem ofInt_shiftRight (w : Nat) (sg : Bool) (x : Word) (k : Nat) :
    BitVec.ofInt w ((readInt w sg x).fdiv (2 ^ k)) =
      if sg then (x.setWidth w).sshiftRight k else x.setWidth w >>> k := by
  rw [Int.fdiv_eq_ediv_of_nonneg _ (by positivity)]
  cases sg
  · simp only [readInt_unsigned, Bool.false_eq_true, if_false]
    apply BitVec.eq_of_toNat_eq
    have hcast : (2 ^ k : Int) = ((2 ^ k : Nat) : Int) := by push_cast; rfl
    rw [hcast, ← Int.natCast_ediv, BitVec.ofInt_natCast, BitVec.toNat_ofNat, BitVec.toNat_ushiftRight,
      Nat.shiftRight_eq_div_pow, Nat.mod_eq_of_lt (lt_of_le_of_lt (Nat.div_le_self _ _) (BitVec.isLt _))]
  · simp only [readInt_signed, if_true]
    rw [BitVec.sshiftRight, Int.shiftRight_eq_div_pow]
    push_cast; rfl

theorem ofInt_shiftLeft (w : Nat) (x : BitVec w) (k : Nat) :
    BitVec.ofInt w ((x.toNat : Int) * 2 ^ k) = x <<< k := by
  have hcast : (x.toNat : Int) * 2 ^ k = ((x.toNat * 2 ^ k : Nat) : Int) := by push_cast; rfl
  apply BitVec.eq_of_toNat_eq
  rw [hcast, BitVec.ofInt_natCast, BitVec.toNat_ofNat, BitVec.toNat_shiftLeft, Nat.shiftLeft_eq]

theorem ofInt_toNat (w : Nat) (x : BitVec w) : BitVec.ofInt w (x.toNat : Int) = x := by
  rw [BitVec.ofInt_natCast, BitVec.ofNat_toNat, BitVec.setWidth_eq]

theorem readInt_le (w : Nat) (sg : Bool) (x y : Word) :
    readInt w sg x ≤ readInt w sg y ↔
      (if sg then (x.setWidth w).sle (y.setWidth w) else (x.setWidth w).ule (y.setWidth w)) = true := by
  cases sg
  · simp only [readInt_unsigned, Bool.false_eq_true, if_false, Int.ofNat_le, BitVec.ule_iff_toNat_le]
  · simp only [readInt_signed, if_true, BitVec.sle_iff_toInt_le]

/-- Settles O18, one operation at a time, from the lemma that says what `BitVec.ofInt` makes of its exact result. -/
theorem aluValues : Obligations.AluValues := by
  intro f t x y
  generalize hw : ityWidth t = w
  generalize hsg : itySigned t = sg
  unfold alu aluSpec writeInt
  rw [hw, hsg]
  cases f <;> simp only [aluInt]
  case add => rw [BitVec.ofInt_add, ofInt_readInt, ofInt_readInt]
  case sub => rw [ofInt_sub_ofInt, ofInt_readInt, ofInt_readInt]
  case mul => rw [BitVec.ofInt_mul, ofInt_readInt, ofInt_readInt]
  case mulh =>
    rw [ofInt_fdiv_eq_upper, ofInt_double_mul]
    cases sg <;> rfl
  case div =>
    rw [apply_ite (BitVec.ofInt w), ofInt_tdiv, show BitVec.ofInt w (-1) = BitVec.allOnes w by rw [BitVec.ofInt_neg, ← BitVec.neg_one_eq_allOnes]; rfl]
    simp only [readInt_eq_zero]
  case rem =>
    rw [apply_ite (BitVec.ofInt w), ofInt_tmod, ofInt_readInt]
    simp only [readInt_eq_zero]
  case and | or | xor | andn | rot => rw [ofInt_toNat]
  case shl => rw [ofInt_shiftLeft]
  case shr => rw [ofInt_shiftRight]
  case min | max =>
    rw [apply_ite (BitVec.ofInt w), ofInt_readInt, ofInt_readInt]
    simp only [readInt_le]

end Sys2Proof.Machine
end


section
/-! ADD to MAX complete, and fault outside the register store (08 R203, 18 R424). -/

namespace Sys2Proof.Machine

/-- ADD to MAX differ in nothing but the operation of their body. -/
theorem exec_aluInstr (f : AluFn) (o : Ops) (imm : Bool) (t : ITy) (s : State) :
    exec (aluInstr f o imm t) s = s.run (aluInstr f o imm t) o (aluBody f o imm t) := by
  cases f <;> rfl

/-- Settles O19: the one result of the body is that of `aluSpec`, by `aluValues`. -/
theorem aluCompletes : Obligations.AluCompletes := by
  constructor
  · intro s f o imm t h u hl
    rw [exec_aluInstr, ← aluValues f t]
    exact run_push h (within_ok hl)
  · intro s f o imm t c info h hl
    rw [exec_aluInstr]
    exact run_trap h (within_fault hl)

end Sys2Proof.Machine
end

section
/-! Rounding a value of a fixed floating-point format to that format (04 R92, R93, R107): a code decodes to its sign, and
its magnitude to the units that rounding finds again. -/

namespace Sys2Proof.Machine

/-- A format with a sign, an exponent field, a fraction and the infinities and NaNs of IEEE 754, as the fixed ones of R92. -/
structure Fmt.Fixed (f : Fmt) : Prop where
  sgn : f.sgn = true
  ew : 2 ≤ f.ew
  mw : 1 ≤ f.mw
  special : f.special = 2

theorem ftyFmt_fixed (t : FTy) : (ftyFmt t).Fixed := by
  cases t <;> exact ⟨rfl, by decide, by decide, rfl⟩

variable {f : Fmt} (hf : f.Fixed) {code : Nat} (mode : Mode) (x : Nat)
include hf

theorem Fmt.Fixed.ew_ne_zero : f.ew ≠ 0 := by have := hf.ew; omega

theorem Fmt.Fixed.four_le : 4 ≤ 2 ^ f.ew := Nat.pow_le_pow_right (n := 2) (by decide) hf.ew

theorem Fmt.Fixed.maxCode_eq : f.maxCode = (2 ^ f.ew - 1) * 2 ^ f.mw - 1 := by
  rw [Fmt.maxCode, if_neg hf.ew_ne_zero, if_pos hf.special]

theorem Fmt.Fixed.maxCode_succ : f.maxCode + 1 = (2 ^ f.ew - 1) * 2 ^ f.mw := by
  have h := Nat.mul_pos (Nat.sub_pos_of_lt (show 1 < 2 ^ f.ew from lt_of_lt_of_le (by decide) hf.four_le))
    (Nat.two_pow_pos f.mw)
  rw [hf.maxCode_eq, Nat.sub_add_cancel h]

theorem Fmt.Fixed.withSign_eq (neg : Bool) (c : Nat) : f.withSign neg c = f.signCode neg + c := by
  rw [Fmt.withSign, if_neg hf.ew_ne_zero]

/-- A code is its sign bit and its body. -/
theorem Fmt.Fixed.code_eq (hc : code < 2 ^ f.width) :
    f.signCode (f.sgn && code.testBit (f.ew + f.mw)) + code % 2 ^ (f.ew + f.mw) = code := by
  have hw : f.width = f.ew + f.mw + 1 := by rw [Fmt.width, hf.sgn, if_pos rfl]; omega
  rw [hw, pow_succ] at hc
  have hdiv : code / 2 ^ (f.ew + f.mw) < 2 := Nat.div_lt_of_lt_mul hc
  have hq := Nat.div_add_mod code (2 ^ (f.ew + f.mw))
  rw [Fmt.signCode, hf.sgn, Bool.true_and, Bool.true_and, Nat.testBit_eq_decide_div_mod_eq]
  rcases Nat.lt_or_ge 0 (code / 2 ^ (f.ew + f.mw)) with h | h
  · have h1 : code / 2 ^ (f.ew + f.mw) = 1 := Nat.le_antisymm (Nat.lt_succ_iff.mp hdiv) h
    rw [h1, Nat.mul_one] at hq
    simpa [h1] using hq
  · have h0 : code / 2 ^ (f.ew + f.mw) = 0 := Nat.eq_zero_of_le_zero h
    rw [h0, Nat.mul_zero, Nat.zero_add] at hq
    simpa [h0] using hq

/-- What a code stands for, by its exponent and fraction fields. -/
theorem Fmt.Fixed.decode_eq (code : Nat) :
    f.decode code =
      if code % 2 ^ (f.ew + f.mw) / 2 ^ f.mw = 2 ^ f.ew - 1 then
        if code % 2 ^ (f.ew + f.mw) % 2 ^ f.mw = 0 then .inf (f.sgn && code.testBit (f.ew + f.mw))
        else .nan (!(code % 2 ^ (f.ew + f.mw) % 2 ^ f.mw).testBit (f.mw - 1))
      else .fin (f.sgn && code.testBit (f.ew + f.mw)) (f.magnitude (code % 2 ^ (f.ew + f.mw))).1
        (f.magnitude (code % 2 ^ (f.ew + f.mw))).2 := by
  simp [Fmt.decode, hf.ew_ne_zero, hf.special]

/-! ### Finite values -/

theorem Fmt.Fixed.magnitude_normal {e m : Nat} (he : 1 ≤ e) (hm : m < 2 ^ f.mw) :
    f.magnitude (e * 2 ^ f.mw + m) = (2 ^ f.mw + m, f.unit + (e - 1 : Nat)) := by
  have hd : (e * 2 ^ f.mw + m) / 2 ^ f.mw = e := by
    rw [Nat.add_comm, Nat.add_mul_div_right _ _ (Nat.two_pow_pos _), Nat.div_eq_of_lt hm, Nat.zero_add]
  have hr : (e * 2 ^ f.mw + m) % 2 ^ f.mw = m := by
    rw [Nat.add_comm, Nat.add_mul_mod_self_right, Nat.mod_eq_of_lt hm]
  have hne : e ≠ 0 := by omega
  simp [Fmt.magnitude, hf.ew_ne_zero, hd, hr, hne]

theorem Fmt.Fixed.magnitude_subnormal {m : Nat} (hm : m < 2 ^ f.mw) : f.magnitude m = (m, f.unit) := by
  simp [Fmt.magnitude, hf.ew_ne_zero, Nat.div_eq_of_lt hm, Nat.mod_eq_of_lt hm]

omit hf in
theorem roundUnits_exact (neg : Bool) (m : Nat) (e : Int) (base : Nat) : roundUnits mode x neg m e e base = (m, false) := by
  simp [roundUnits, toUnits]

/-- The largest finite value is not below one whose exponent is no higher. -/
theorem Fmt.Fixed.not_top_lt {m : Nat} {k : Nat} (hk : k + 3 ≤ 2 ^ f.ew) (hm : m < 2 * 2 ^ f.mw) :
    ltMag (f.magnitude f.maxCode).1 (f.magnitude f.maxCode).2 m (f.unit + k) = false := by
  have h4 := hf.four_le
  have hpos := Nat.two_pow_pos f.mw
  have htop : f.maxCode = (2 ^ f.ew - 2) * 2 ^ f.mw + (2 ^ f.mw - 1) := by
    have h := hf.maxCode_succ
    rw [show 2 ^ f.ew - 1 = (2 ^ f.ew - 2) + 1 by omega, Nat.add_mul, Nat.one_mul] at h
    omega
  rw [htop, hf.magnitude_normal (by omega) (by omega)]
  have hmin : min (f.unit + ((2 ^ f.ew - 2 - 1 : Nat) : Int)) (f.unit + k) = f.unit + k := by omega
  have hle : m ≤ (2 ^ f.mw + (2 ^ f.mw - 1)) * 2 ^ (f.unit + ((2 ^ f.ew - 2 - 1 : Nat) : Int) - (f.unit + k)).toNat :=
    le_trans (by omega) (Nat.le_mul_of_pos_right _ (Nat.two_pow_pos _))
  simp only [ltMag, hmin, toUnits, Int.sub_self, Int.toNat_zero, Nat.shiftLeft_eq, pow_zero, Nat.mul_one,
    decide_eq_false_iff_not, Nat.not_lt]
  exact hle

/-- Rounding finds again the units of a magnitude that the format has: `k` is the exponent above the smallest. -/
theorem Fmt.Fixed.roundFloat_exact (neg : Bool) {m k : Nat} (hk : k + 3 ≤ 2 ^ f.ew) (hm : m < 2 * 2 ^ f.mw)
    (hu : max (expOf m (f.unit + k) - f.mw) f.unit = f.unit + k) :
    f.roundFloat mode x neg m (f.unit + k) = (f.signCode neg + (k * 2 ^ f.mw + m), 0) := by
  have hnat : (f.unit + (k : Int) - f.unit).toNat = k := by omega
  have hfit : ¬ f.maxCode < k * 2 ^ f.mw + m := by
    have h := hf.maxCode_succ
    have hmul := Nat.mul_le_mul_right (2 ^ f.mw) (show k + 2 ≤ 2 ^ f.ew - 1 by omega)
    rw [Nat.add_mul] at hmul
    omega
  simp only [Fmt.roundFloat, hf.not_top_lt hk hm, Bool.and_false, Bool.false_eq_true, if_false, hu, roundUnits_exact,
    hnat, hfit, hf.withSign_eq, raise, Bool.false_and]
  rfl

theorem Fmt.Fixed.roundFloat_normal (neg : Bool) {e m : Nat} (he : 1 ≤ e) (he' : e + 2 ≤ 2 ^ f.ew) (hm : m < 2 ^ f.mw) :
    f.roundFloat mode x neg (2 ^ f.mw + m) (f.unit + (e - 1 : Nat)) = (f.signCode neg + (e * 2 ^ f.mw + m), 0) := by
  have hlog : (2 ^ f.mw + m).log2 = f.mw :=
    (Nat.log2_eq_iff (by have := Nat.two_pow_pos f.mw; omega)).mpr ⟨by omega, by rw [pow_succ]; omega⟩
  have hu : max (expOf (2 ^ f.mw + m) (f.unit + (e - 1 : Nat)) - f.mw) f.unit = f.unit + (e - 1 : Nat) := by
    rw [expOf, hlog]; omega
  rw [hf.roundFloat_exact mode x neg (by omega) (by omega) hu, ← Nat.add_assoc (_ * _), ← Nat.succ_mul,
    Nat.succ_eq_add_one, Nat.sub_add_cancel he]

theorem Fmt.Fixed.roundFloat_subnormal (neg : Bool) {m : Nat} (h0 : m ≠ 0) (hm : m < 2 ^ f.mw) :
    f.roundFloat mode x neg m f.unit = (f.signCode neg + m, 0) := by
  have hlog : m.log2 < f.mw := (Nat.log2_lt h0).mpr hm
  have hu : max (expOf m (f.unit + (0 : Nat)) - f.mw) f.unit = f.unit + (0 : Nat) := by
    rw [expOf]; omega
  have h := hf.roundFloat_exact mode x neg (k := 0) (by have := hf.four_le; omega) (by omega) hu
  simpa using h

/-- The value of a finite code is rounded to that code, exactly. -/
theorem Fmt.Fixed.round_magnitude (neg : Bool) {body : Nat} (hb : body / 2 ^ f.mw + 2 ≤ 2 ^ f.ew) :
    f.round mode x (.fin neg (f.magnitude body).1 (f.magnitude body).2) = (f.signCode neg + body, 0) := by
  have hm := Nat.mod_lt body (Nat.two_pow_pos f.mw)
  have hbody : body / 2 ^ f.mw * 2 ^ f.mw + body % 2 ^ f.mw = body := by rw [Nat.mul_comm]; exact Nat.div_add_mod _ _
  rcases Nat.eq_zero_or_pos (body / 2 ^ f.mw) with h | h
  · have hlt : body < 2 ^ f.mw := by rw [h, Nat.zero_mul, Nat.zero_add] at hbody; omega
    rw [hf.magnitude_subnormal hlt]
    by_cases h0 : body = 0
    · simp [Fmt.round, h0, hf.sgn, hf.ew_ne_zero]
    · simp [Fmt.round, h0, hf.sgn, hf.ew_ne_zero, hf.roundFloat_subnormal mode x neg h0 hlt]
  · have hpos := Nat.two_pow_pos f.mw
    rw [← hbody, hf.magnitude_normal h hm]
    have h0 : 2 ^ f.mw + body % 2 ^ f.mw ≠ 0 := by omega
    simp only [Fmt.round, h0, hf.sgn, hf.ew_ne_zero, Bool.not_true, Bool.and_false, Bool.false_eq_true, if_false]
    exact hf.roundFloat_normal mode x neg h hb hm

omit hf in
theorem Fmt.exponent_lt (f : Fmt) (code : Nat) : code % 2 ^ (f.ew + f.mw) / 2 ^ f.mw < 2 ^ f.ew := by
  refine Nat.div_lt_of_lt_mul ?_
  rw [← pow_add, Nat.add_comm]
  exact Nat.mod_lt _ (Nat.two_pow_pos _)

theorem Fmt.Fixed.round_decode_fin {n : Bool} {k : Nat} {e : Int} (hc : code < 2 ^ f.width) (h : f.decode code = .fin n k e) :
    f.round mode x (f.decode code) = (code, 0) := by
  have hlt := f.exponent_lt code
  rw [hf.decode_eq] at h ⊢
  split at h
  · split at h <;> cases h
  next he =>
    have hb : code % 2 ^ (f.ew + f.mw) / 2 ^ f.mw + 2 ≤ 2 ^ f.ew := by
      generalize code % 2 ^ (f.ew + f.mw) / 2 ^ f.mw = e at he hlt
      omega
    rw [if_neg he, hf.round_magnitude mode x _ hb, hf.code_eq hc]

/-! ### Infinities and NaNs -/

theorem Fmt.Fixed.round_decode_inf {n : Bool} (hc : code < 2 ^ f.width) (h : f.decode code = .inf n) :
    f.round mode x (f.decode code) = (code, 0) := by
  rw [hf.decode_eq] at h ⊢
  split at h
  next he =>
    split at h
    next hm =>
      have hbody : code % 2 ^ (f.ew + f.mw) = f.maxCode + 1 := by
        rw [hf.maxCode_succ, ← he, Nat.mul_comm]
        exact (Nat.mul_div_cancel' (Nat.dvd_of_mod_eq_zero hm)).symm
      rw [if_pos he, if_pos hm]
      conv_rhs => rw [← hf.code_eq hc, hbody]
      simp [Fmt.round, hf.sgn, hf.ew_ne_zero, hf.special, hf.withSign_eq]
    · cases h
  · cases h

theorem Fmt.Fixed.round_nan (q : Bool) : some (f.round mode x (.nan q)) = f.defaultNaN.map fun c => (c, 0) := by
  have hm : f.mw ≠ 0 := by have := hf.mw; omega
  have hd : f.defaultNaN = some ((2 ^ f.ew - 1) * 2 ^ f.mw + 2 ^ (f.mw - 1)) := by
    simp [Fmt.defaultNaN, hf.ew_ne_zero, hf.special, hm]
  simp [Fmt.round, hd]

end Sys2Proof.Machine
end

section
/-! The scalar floating-point instructions complete (08 R202, R208, R209). -/

namespace Sys2Proof.Machine

/-- Settles O20: each body leaves one result, and a value of a fixed format is its own rounding. -/
theorem floatCompletes : Obligations.FloatCompletes := by
  constructor
  · intro s o t u m x y z into
    exact ⟨fun sub h hl => run_push h (within_ok hl), fun h hl => run_push h (within_ok hl),
      fun f h hl => run_push h (within_ok hl), fun h hl => run_push h (within_ok hl),
      fun h hl => run_push h (within_ok hl), fun mx h hl => run_push h (within_ok hl),
      fun r h hl => run_push h (within_ok hl)⟩
  · intro t m x code hc f
    have hf := ftyFmt_fixed t
    exact ⟨fun n k e h => hf.round_decode_fin m x hc h, fun n h => hf.round_decode_inf m x hc h,
      fun q h => h ▸ hf.round_nan m x q⟩

end Sys2Proof.Machine
end


section
/-! BR, JMP, CALL and RET (08 R210, R211, 18 R425). -/

namespace Sys2Proof.Machine

variable {s v : State} {i : Instr} {o : Ops} {body : State → Act} {pc : Word} {rs : List Result}

/-- The low bits of a word by a mask and by a field. -/
theorem and_mask_eq_zero {n : Nat} {m : Word} (hm : m.toNat = 2 ^ n - 1) (x : Word) : x &&& m = 0 ↔ x.extractLsb' 0 n = 0 := by
  rw [← BitVec.toNat_inj, ← BitVec.toNat_inj, BitVec.toNat_and, hm, Nat.and_two_pow_sub_one_eq_mod,
    BitVec.extractLsb'_toNat, Nat.shiftRight_zero]
  rfl

theorem jumpTarget_aligned (x : Word) : x &&& 3 = 0 ↔ x.extractLsb' 0 2 = 0 := and_mask_eq_zero rfl x

/-- A body that checks its target and goes there, leaving results: as R211 says, or as the leader of a gang has it. -/
theorem run_goto (h : s.goes i o = true) (hb : body (s.entered o) = (s.entered o).goto v pc)
    (h1 : ∀ x, v.setMe x = (s.entered o).setMe x)
    (h2 : v.me = { (s.entered o).me with results := (s.entered o).me.results ++ rs }) :
    (pc &&& 3 = 0 ∨ (s.entered o).me.follows = true →
      ∃ t, s.run i o body = .next t ∧ Retires (s.entered o) t o rs (if (s.entered o).me.follows then none else some pc)) ∧
    (pc &&& 3 ≠ 0 → (s.entered o).me.follows = false →
      s.run i o body = .next ((s.entered o).trap 0x03 pc (s.entered o).me.faultPc)) := by
  rw [State.goto] at hb
  constructor
  · intro ha
    split at hb
    next hf => rw [if_pos hf]; exact run_done h hb h1 h2
    next hf =>
      rw [if_neg (not_not.mpr ((jumpTarget_aligned pc).mp (ha.resolve_right hf)))] at hb
      rw [if_neg hf]
      exact run_jump h hb h1 h2
  · intro ha hf
    rw [hf, if_neg (by decide), if_pos (mt (jumpTarget_aligned pc).mpr ha)] at hb
    exact run_trap h hb

/-- A body that goes to a relative target, leaving results. -/
theorem run_relative (h : s.goes i o = true)
    (hb : body (s.entered o) = if (s.entered o).me.follows then .done v else .jump v pc)
    (h1 : ∀ x, v.setMe x = (s.entered o).setMe x)
    (h2 : v.me = { (s.entered o).me with results := (s.entered o).me.results ++ rs }) :
    ∃ t, s.run i o body = .next t ∧ Retires (s.entered o) t o rs (if (s.entered o).me.follows then none else some pc) := by
  split at hb
  next hf => rw [if_pos hf]; exact run_done h hb h1 h2
  next hf => rw [if_neg hf]; exact run_jump h hb h1 h2

/-- A state is left as it is: what a jump without a link leaves behind. -/
theorem me_no_results (u : State) : u.me = { u.me with results := u.me.results ++ [] } := by simp

theorem link_setMe (u : State) (o : Ops) (x : Ctx) : (u.link o).setMe x = u.setMe x := by
  simp [State.link, State.fixed, State.push]

theorem link_me (u : State) (o : Ops) : (u.link o).me =
    { u.me with results := u.me.results ++ [fixedResult 1 (intoD o (u.me.pc + BitVec.ofNat 64 o.bytes))] } := by
  simp [State.link, State.fixed, State.push, fixedResult, intoD]

theorem br_retires {n : Bool} (h : s.goes (.br o n) o = true) :
    ∃ v, exec (.br o n) s = .next v ∧ Retires (s.entered o) v o [] (if (s.entered o).me.follows then none else
      if ((s.entered o).me.pred o.a.toNat).getLsbD 0 != n then some ((s.entered o).relTarget o o.b o.d) else none) := by
  by_cases hf : (s.entered o).me.follows = true
  · rw [if_pos hf]
    exact run_done h (by rw [brBody, if_pos hf]) (fun _ => rfl) (me_no_results _)
  · rw [if_neg hf]
    by_cases ht : (((s.entered o).me.pred o.a.toNat).getLsbD 0 != n) = true
    · rw [if_pos ht]
      exact run_jump h (by rw [brBody, if_neg hf, if_pos ht]) (fun _ => rfl) (me_no_results _)
    · rw [if_neg ht]
      exact run_done h (by rw [brBody, if_neg hf, if_neg ht]) (fun _ => rfl) (me_no_results _)

/-- Settles O22: each body is a relative jump or a checked one, with or without a link. -/
theorem jumpsComplete : Obligations.JumpsComplete := by
  intro s o u rel link goesTo jumps
  refine ⟨fun n h => br_retires h, fun h => ⟨fun hl => ?_, fun l hl => ?_⟩, ?_, fun h hv => ⟨fun hl => ?_, fun l hl => ?_⟩,
    fun h hv => run_goto h (within_ok hv) (link_setMe _ _) (link_me _ _)⟩
  · exact run_relative h (by simp only [jmpBody, hl]; rfl) (fun _ => rfl) (me_no_results _)
  · exact run_goto h (by simp only [jmpBody, hl]) (fun _ => rfl) (me_no_results _)
  · rintro i (rfl | rfl) h hv <;> exact run_goto h (within_ok hv) (fun _ => rfl) (me_no_results _)
  · exact run_relative h (by rw [callBody, within_ok hv]; simp only [hl]; rfl) (link_setMe _ _) (link_me _ _)
  · exact run_goto h (by rw [callBody, within_ok hv]; simp only [hl]) (link_setMe _ _) (link_me _ _)

end Sys2Proof.Machine
end

section
/-! NOP, YIELD and SAFEPT (08 R214, 12 R342, R348). -/

namespace Sys2Proof.Machine

variable {s t : State} {o : Ops} {pa : Nat}

theorem lineOffset_zero (x : Word) : x &&& 63 = 0 ↔ x.extractLsb' 0 6 = 0 := and_mask_eq_zero rfl x

theorem lineOffset_toNat {x : Word} (h : x.extractLsb' 0 6 = 0) : x.toNat % 64 = 0 := by
  simpa [BitVec.extractLsb'_toNat] using congrArg BitVec.toNat h

/-- The address that SAFEPT names (08 R214). -/
def State.safeptEa (u : State) (o : Ops) : Word := match o.lit with | some l => l | none => u.ea o 64

/-- SAFEPT outside the handler context and a follower, before it waits for its gang. -/
theorem safeptBody_eq {u : State} (ho : u.onHandler = false) (hf : u.me.follows = false) (hg : u.me.hold ≠ .gang)
    (hl : u.locsFault (if o.lit.isSome then [] else [scLoc o o.a]) = none) :
    safeptBody o u = if (u.safeptEa o).extractLsb' 0 6 ≠ 0 then .trap 0x03 (u.safeptEa o) else
      match u.readNow (u.safeptEa o) 64 (!noL1 o) (streams o) with
      | .error a => a
      | .ok (v, t) => (t.useMap (BitVec.ofNat 512 v)).atSafept o := by
  rw [safeptBody, ho, hf, if_neg (by simp), if_neg hg]
  exact within_ok hl

/-- The bytes of the map, of the own hamlet's storage, come into force where no pre-emption request waits. -/
theorem safeptBody_near {u : State} (ho : u.onHandler = false) (hf : u.me.follows = false) (hg : u.me.hold ≠ .gang)
    (hl : u.locsFault (if o.lit.isSome then [] else [scLoc o o.a]) = none) (ha : (u.safeptEa o).extractLsb' 0 6 = 0)
    (hq : u.queued (u.safeptEa o) 64 = none) (hr : u.resolve (u.safeptEa o) .read = .ok (.near pa, t))
    (hb : t.placeBad t.curCore (.near pa) 64 = none) (hm : t.mustWait (.near pa) 64 = false)
    (hd : (t.useMap (BitVec.ofNat 512 (ofBytes (t.homeRead pa 64)))).preemptDue = false) :
    safeptBody o u = .done (t.useMap (BitVec.ofNat 512 (ofBytes (t.homeRead pa 64)))) := by
  have hr' := readNow_here (l1 := !noL1 o) (st := streams o) (by rw [lineOffset_toNat ha]) hq hr rfl hb rfl hm
  rw [safeptBody_eq ho hf hg hl, if_neg (not_not.mpr ha), hr']
  simp only [State.readPlace, State.atSafept, hd, Bool.false_eq_true, if_false]

/-- Settles O23: NOP and YIELD have no body; SAFEPT's reads its map where its address is aligned. -/
theorem nopYieldSafept : Obligations.NopYieldSafept := by
  intro s t o pa u ea
  refine ⟨fun h => run_plain h rfl, fun h => run_plain h rfl, fun h hs => ?_,
    fun h ho hf hg hl => ⟨fun ha => ?_, fun ha hq hr hb hm hd => ?_⟩⟩
  · exact run_plain h (by rw [safeptBody, if_pos (by simpa using hs)])
  · exact run_trap h ((safeptBody_eq ho hf hg hl).trans (if_pos (mt (lineOffset_zero _).mpr ha)))
  · exact run_plain h (safeptBody_near ho hf hg hl ((lineOffset_zero _).mp ha) hq hr hb hm hd)

end Sys2Proof.Machine
end


section
/-! REP: it begins, its body's fields are strided, and its passes follow each other (07 R187, R188, 08 R212). -/

namespace Sys2Proof.Machine

/-! ### Fields -/

theorem fld_and_mask {w hi : Nat} {x m : BitVec w} (hm : m.toNat = 2 ^ (hi + 1) - 1) : fld x hi 0 = (x &&& m).toNat := by
  rw [fld, Nat.shiftRight_zero, BitVec.toNat_and, hm, Nat.and_two_pow_sub_one_eq_mod, Nat.sub_zero]

theorem setWidth_ushiftRight {w : Nat} (x : BitVec w) (lo n : Nat) : (x >>> lo).setWidth n = x.extractLsb' lo n := by
  apply BitVec.eq_of_toNat_eq
  rw [BitVec.toNat_setWidth, BitVec.toNat_ushiftRight, BitVec.extractLsb'_toNat]

/-! ### REPSTATE (R188) -/

theorem repWord_toNat (pass index : Nat) : (repWord pass index).toNat = 2 ^ 31 + pass % 4096 * 16 + index % 16 := by
  rw [repWord, BitVec.toNat_ofNat]
  exact Nat.mod_eq_of_lt (by omega)

theorem repWord_index (pass index : Nat) : fld (repWord pass index) 3 0 = index % 16 := by
  rw [fld_eq, repWord_toNat]
  omega

theorem repWord_pass (pass index : Nat) : fld (repWord pass index) 15 4 = pass % 4096 := by
  rw [fld_eq, repWord_toNat]
  omega

theorem repWord_on (pass index : Nat) : (repWord pass index).getLsbD 31 = true := by
  rw [← BitVec.testBit_toNat, repWord_toNat, Nat.testBit_eq_decide_div_mod_eq, decide_eq_true_eq]
  omega

theorem fld_lt_16 (w : BitVec 32) : fld w 3 0 < 16 := fld_lt w 3 0

theorem fld_lt_4096 (w : BitVec 32) : fld w 15 4 < 4096 := fld_lt w 15 4

/-! ### The first pass -/

variable {s t : State} {o : Ops} {is : List Instr}

/-- What a REP that begins leaves of its context. -/
def Ctx.repBegun (x : Ctx) (o : Ops) (is : List Instr) : Ctx :=
  { x with
    rep := some {
      pc := x.pc, after := x.pc + BitVec.ofNat 64 (12 + bytesOfBody is), passes := (o.d &&& 0xFFF).toNat + 1,
      stride := ((o.a >>> 4).setWidth 4 : BitVec 4).signExtend 16, mask := (o.a >>> 8).setWidth 3, body := is }
    repstate := 0x80000000, pc := x.pc + 12, hold := if o.sw then .switch else .none }

theorem repBody_begins {u : State} (hf : u.me.follows = false)
    (hb : u.fetchBody (u.me.pc + 12) ((o.a &&& 15).toNat + 1) = .ok (is, t)) (hr : t.me.repOn = false)
    (hl : bytesOfBody is ≤ 256) : repBody o u = .left (t.setMe (t.me.repBegun o is)) := by
  have hn : fld o.a 3 0 = (o.a &&& 15).toNat := fld_and_mask rfl
  have hp : fld o.d 11 0 = (o.d &&& 0xFFF).toNat := fld_and_mask rfl
  simp only [repBody, hf, Bool.false_eq_true, if_false, hn, hp, hb, if_neg (Nat.not_lt.mpr hl), hr, Bool.false_and,
    Ctx.repBegun, setWidth_ushiftRight]
  rfl

/-! ### A pass (R187) -/

theorem stepOps_eq (o : Ops) (r : RepBuf) (pass : Nat) :
    stepOps o r pass =
      { o with
        d := if o.ext.isSome && r.mask.getLsbD 0 then o.d + BitVec.ofNat 16 pass * r.stride * 64 else o.d
        a := if o.ext.isSome && r.mask.getLsbD 1 then o.a + BitVec.ofNat 16 pass * r.stride * 64 else o.a
        b := if o.ext.isSome && r.mask.getLsbD 2 then o.b + BitVec.ofNat 16 pass * r.stride * 64 else o.b } := by
  have hd : r.stride * 64 * BitVec.ofNat 16 pass = BitVec.ofNat 16 pass * r.stride * 64 := by
    rw [BitVec.mul_comm, BitVec.mul_assoc]
  cases he : o.ext.isSome
  · simp [stepOps, he]
  · simp only [stepOps, stepField, he, hd, Bool.true_and, if_true]

/-- An instruction of a body issues with its fields strided, if it is one of the decoder's. -/
theorem nextInstr_rep {r : RepBuf} {i : Instr} (hr : s.me.rep = some r) (hon : s.me.repOn = true)
    (hi : r.body[fld s.me.repstate 3 0]? = some i) (ho : opsOf i = some o)
    (hl : legal (withOps i (stepOps o r (fld s.me.repstate 15 4))) = true) :
    s.nextInstr = .instr (withOps i (stepOps o r (fld s.me.repstate 15 4))) s := by
  unfold State.nextInstr
  simp only [hr, hon, hi, if_true]
  split
  next w he => cases he; cases ho
  next j _ he =>
    cases he
    simp only [ho, hl, if_true]
  next he => cases he

/-! ### The order of the passes (R187, R188) -/

variable {x : Ctx} {r : RepBuf} {sw : Bool} {n : Nat}

/-- Inside a body, retiring moves the REP on. -/
theorem Ctx.retire_rep (hr : x.rep = some r) (hon : x.repOn = true) :
    ∃ y : Ctx, x.retire sw n none = y.repNext r n ∧ y.rep = some r ∧ y.repstate = x.repstate ∧ y.pc = x.pc := by
  have hon' : x.repstate.getLsbD 31 = true := hon
  exact ⟨{ x with hold := if sw then .switch else .none, answer := if x.trapcause.getLsbD 12 then x.answer else none,
                  parking := if x.trapcause.getLsbD 12 then x.parking else none },
    by simp [Ctx.retire, hr, Ctx.repOn, hon'], hr, rfl, rfl⟩

/-- The next instruction of a pass. -/
theorem Ctx.retire_index (hr : x.rep = some r) (hon : x.repOn = true) (h : fld x.repstate 3 0 + 1 < r.body.length) :
    let y := x.retire sw n none
    y.pc = x.pc + BitVec.ofNat 64 n ∧ y.rep = some r ∧ y.repstate = repWord (fld x.repstate 15 4) (fld x.repstate 3 0 + 1) := by
  obtain ⟨y, hy, hrep, hst, hpc⟩ := Ctx.retire_rep (sw := sw) (n := n) hr hon
  rw [hy, Ctx.repNext, hst, if_pos h]
  exact ⟨by rw [← hpc], hrep, rfl⟩

/-- The next pass. -/
theorem Ctx.retire_pass (hr : x.rep = some r) (hon : x.repOn = true) (h : fld x.repstate 3 0 + 1 = r.body.length)
    (h' : fld x.repstate 15 4 + 1 < r.passes) :
    let y := x.retire sw n none
    y.pc = r.pc + 12 ∧ y.rep = some r ∧ y.repstate = repWord (fld x.repstate 15 4 + 1) 0 := by
  obtain ⟨y, hy, hrep, hst, hpc⟩ := Ctx.retire_rep (sw := sw) (n := n) hr hon
  rw [hy, Ctx.repNext, hst, if_neg (by omega), if_pos h']
  exact ⟨rfl, hrep, rfl⟩

/-- The end of the last pass. -/
theorem Ctx.retire_last (hr : x.rep = some r) (hon : x.repOn = true) (h : fld x.repstate 3 0 + 1 = r.body.length)
    (h' : fld x.repstate 15 4 + 1 = r.passes) :
    let y := x.retire sw n none
    y.pc = r.after ∧ y.rep = none ∧ y.repstate = 0 := by
  obtain ⟨y, hy, hrep, hst, hpc⟩ := Ctx.retire_rep (sw := sw) (n := n) hr hon
  rw [hy, Ctx.repNext, hst, if_neg (by omega), if_neg (by omega)]
  exact ⟨rfl, rfl, rfl⟩

/-- Settles O24: the body that begins, the strided instruction and the three ways on, from the lemmas above. -/
theorem repRuns : Obligations.RepRuns := by
  refine ⟨?begin, ?instr, ?next⟩
  case begin =>
    intro s t o is h hon u hf _ hb hr _ hl
    have hx : exec (.rep o) s = s.run (.rep o) o (repBody o) := by
      show execRep o s = _
      rw [execRep, hon, Bool.false_and, Bool.false_and, if_neg (by decide)]
    refine ⟨t.setMe (t.me.repBegun o is), by rw [hx, run_goes h, repBody_begins hf hb hr hl]; rfl, ?_⟩
    rw [setMe_me]
    exact ⟨rfl, rfl, rfl, rfl, rfl⟩
  case instr =>
    intro s r i j o hr hon hi ho p step hj hl
    subst hj
    rw [← stepOps_eq o r] at hl ⊢
    exact nextInstr_rep hr hon hi ho hl
  case next =>
    intro x r sw n hr hon index pass y
    refine ⟨fun h h15 => ?_, fun h h' hp => ?_, fun h h' => Ctx.retire_last hr hon h h'⟩
    · obtain ⟨hpc, hrep, hst⟩ := Ctx.retire_index (sw := sw) (n := n) hr hon h
      refine ⟨hpc, hrep, ?_, ?_, ?_⟩
      · rw [hst, repWord_index, Nat.mod_eq_of_lt (by omega)]
      · rw [hst, repWord_pass, Nat.mod_eq_of_lt (fld_lt_4096 _)]
      · rw [Ctx.repOn, hst, repWord_on]
    · obtain ⟨hpc, hrep, hst⟩ := Ctx.retire_pass (sw := sw) (n := n) hr hon h h'
      refine ⟨hpc, hrep, ?_, ?_, ?_⟩
      · rw [hst, repWord_index]
      · rw [hst, repWord_pass, Nat.mod_eq_of_lt (by omega)]
      · rw [Ctx.repOn, hst, repWord_on]

end Sys2Proof.Machine
end


section
/-! The words of the spec's examples, and the package after reset (07 R168 to R177, 12 R344, 13 R373). -/

namespace Sys2Proof.Machine

/-- Settles O3: the decoder runs on each word. -/
theorem specWordsDecode : Obligations.SpecWordsDecode := by
  refine ⟨?_, ?_, ?_, ?_, ?_, ?_, ?_, ?_, ?_, ?_⟩ <;> rfl

/-- A package after reset lists no core, so that every context is an empty one. -/
theorem reset_ctx (c k : Nat) : State.reset.ctx c k = {} := rfl

/-- Settles O6: nothing is listed after reset, and what is not listed is idle and zero. -/
theorem resetState : Obligations.ResetState := by
  refine ⟨fun c k => ⟨rfl, rfl, rfl, rfl, fun _ => rfl, fun n hn => ?_, rfl, fun n => ?_⟩, fun c => ⟨rfl, rfl⟩,
    fun h => ⟨rfl, rfl⟩, rfl, rfl, rfl, rfl, fun _ => rfl⟩
  · rw [Ctx.pred, if_neg hn]
    rfl
  · rw [reset_ctx, Ctx.count]
    split
    · rfl
    · split <;> rfl

end Sys2Proof.Machine
end

section
/-! A step of the machine in which a context issues (03 R66, R67, 17 R409, 19 R449). -/

namespace Sys2Proof.Machine

variable {s t u : State} {c k : Nat} {i : Instr}

/-- A context that nothing holds is left as it is before it issues. -/
theorem unhold_free (hh : s.me.hold = .none) (ha : s.me.acqAfter = none) : s.unhold = s := by
  simp [State.unhold, hh, ha]

theorem noticed_off {run : State → Host.Outcome State Fault Refusal} (h : (u.me.strand.map Strand.notice).getD false = false) :
    u.noticed run = run u := by
  cases hs : u.me.strand with
  | none => simp only [State.noticed, hs]
  | some d =>
    have hd : d.notice = false := by simpa [hs] using h
    simp only [State.noticed, hs, hd, Bool.not_false, if_true]

/-- A notice that is due is taken before an instruction that raises no trap. -/
theorem noticed_on {run : State → Host.Outcome State Fault Refusal} {d : Strand} (hs : u.me.strand = some d)
    (hn : d.notice = true)
    (hr : run (u.setMe { u.me with strand := some { d with notice := false } }) = .next t)
    (ht : (t.ctx u.curCore u.curCtx).handling = false) (hst : (t.ctx u.curCore u.curCtx).status ≠ .stopped) :
    u.noticed run = .next ((u.setMe { u.me with strand := some { d with notice := false } }).enterTrap true false 0x13 0
      u.me.faultPc) := by
  simp only [State.noticed, hs, hn, Bool.not_true, Bool.false_eq_true, if_false, hr, ht, Bool.false_and, Bool.false_or,
    decide_eq_true_eq, if_neg hst]

/-- What a context issues is its next instruction. -/
theorem issueMe_instr (h : s.ready.nextInstr = .instr i u) : s.issueMe = (u.noticed (exec i), some i) := by
  simp only [State.issueMe, h]

/-- Contexts that may not issue are passed over. -/
theorem issueCore_skip {before : List Nat} (h : ∀ j ∈ before, s.mayIssue c j = false) (rest : List Nat) :
    s.issueCore c (before ++ rest) = s.issueCore c rest := by
  induction before with
  | nil => rfl
  | cons j js ih =>
    rw [List.cons_append, State.issueCore, h j (by simp), if_neg (by decide)]
    exact ih fun x hx => h x (by simp [hx])

/-- The first context that may issue, no gang leader, issues unless it waits. -/
theorem issueCore_issues {rest : List Nat} (hm : s.mayIssue c k = true) (hl : (s.ctx c k).leads = false)
    (hi : ((s.as c k).unhold).issueMe.1 = .next t) (hw : (t.ctx c k).hold ≠ .wait) :
    (s.issueCore c (k :: rest)).2 = some (.next (t.setCore c { t.core c with ptr := k })) := by
  rw [State.issueCore, if_pos hm, hl, if_neg (by decide)]
  simp only [hi, hw, decide_false, Bool.false_and, Bool.false_eq_true, if_false]

theorem issueFrom_first {cs : List Nat} (hf : (s.ham (hamOf c)).fenced = false) (hs : (s.ham (hamOf c)).shut = false)
    (hi : (s.issueCore c (order (s.core c).ptr)).2 = some (.next t)) :
    (s.issueFrom (c :: cs)).2 = some (.next { t with turn := c + 1 }) := by
  rw [State.issueFrom, hf, hs, Bool.false_or, if_neg (by decide)]
  generalize s.issueCore c (order (s.core c).ptr) = r at hi
  obtain ⟨w, o⟩ := r
  cases hi
  rfl

theorem tryIssue_on (h : s.stopped = false) : s.tryIssue = s.issueFrom s.coreOrder := by
  rw [State.tryIssue, h, if_neg (by decide)]

theorem takeTurn_issues {fuel : Nat} (h : ({ s with phase := 1 } : State).tryIssue.2 = some (.next t)) :
    s.takeTurn 0 (fuel + 1) = .next t := by
  rw [State.takeTurn, if_pos rfl]
  generalize State.tryIssue _ = r at h
  obtain ⟨w, o⟩ := r
  cases h
  rfl

/-- A step with nothing from outside, in the contexts' turn, is the issue of one that can. -/
theorem step_issues (h0 : s.inputs = []) (hp : s.phase = 0) (hs : s.stopped = false)
    (hi : (({ s.later with phase := 1 } : State).issueFrom ({ s.later with phase := 1 } : State).coreOrder).2 = some (.next t)) :
    step s = .next t := by
  have hl : s.later.inputs = [] := h0
  have hq : s.later.phase = 0 := hp
  have hr : ({ s.later with phase := 1 } : State).tryIssue.2 = some (.next t) :=
    (congrArg Prod.snd (tryIssue_on (s := { s.later with phase := 1 }) hs)).trans hi
  unfold step
  simp only [hl, hq]
  exact takeTurn_issues hr

/-- Settles O5: the step's turn, the core's turn and the selector come down to the context that issues; what its instruction
comes to, with a notice and without, is `noticed`. -/
theorem stepRunsInstruction : Obligations.StepRunsInstruction := by
  intro s u t c k cs before rest i r h0 hp hs hco hf hsh hord hbefore hm hl hh ha hn after
  have hissue : ∀ v, u.noticed (exec i) = .next v → (v.ctx c k).hold ≠ .wait → after v := by
    intro v hv hw
    have hx : ((r.as c k).unhold).issueMe.1 = .next v := by
      rw [unhold_free (s := r.as c k) hh ha, issueMe_instr hn, hv]
    have hc := issueCore_issues (rest := rest) hm hl hx hw
    rw [← issueCore_skip hbefore, ← hord] at hc
    have hfirst := issueFrom_first (cs := cs) hf hsh hc
    rw [← hco] at hfirst
    exact step_issues h0 hp hs hfirst
  exact ⟨fun hoff he => hissue t (by rw [noticed_off hoff, he]),
    fun d hd hnote _ he ht hst => hissue _ (noticed_on hd hnote he ht hst)⟩

end Sys2Proof.Machine
end


section
/-! A base word passes the decoder on its own where some instruction begins with it (18 R417 stage 2): the operands and
controls of the later words may be taken as zero, but for the bit of xf that AMRET's scope asks for. -/

namespace Sys2Proof

open Machine

/-- An encoded instruction with other operands. -/
def Instr.reOps (p : Ops) : Instr → Instr
  | .add _ x y => .add p x y | .sub _ x y => .sub p x y | .mul _ x y => .mul p x y | .mulh _ x y => .mulh p x y
  | .div _ x y => .div p x y | .rem _ x y => .rem p x y | .and _ x y => .and p x y | .or _ x y => .or p x y
  | .xor _ x y => .xor p x y | .andn _ x y => .andn p x y | .shl _ x y => .shl p x y | .shr _ x y => .shr p x y
  | .rot _ x y => .rot p x y | .min _ x y => .min p x y | .max _ x y => .max p x y | .cmp _ x y => .cmp p x y
  | .sel _ x y => .sel p x y | .bits _ x => .bits p x | .movi _ => .movi p | .lea _ x y => .lea p x y
  | .fadd _ x y => .fadd p x y | .fmul _ x => .fmul p x | .ffma _ x y => .ffma p x y | .fdiv _ x y => .fdiv p x y
  | .fminmax _ x y => .fminmax p x y | .fcmp _ x y => .fcmp p x y | .br _ x => .br p x | .jmp _ => .jmp p
  | .jmpReg _ => .jmpReg p | .call _ => .call p | .callReg _ => .callReg p | .ret _ => .ret p | .rep _ => .rep p
  | .safept _ => .safept p | .pset _ x => .pset p x | .ld _ x => .ld p x | .st _ x => .st p x
  | .ldsync _ x => .ldsync p x | .stsync _ => .stsync p | .feset _ x => .feset p x | .pref _ x => .pref p x
  | .stash _ x => .stash p x | .flush _ x => .flush p x | .fence _ x y => .fence p x y | .waitc _ x => .waitc p x
  | .waita _ x => .waita p x | .zline _ => .zline p | .amo _ x => .amo p x | .cas _ x => .cas p x | .red _ x => .red p x
  | .amsend _ x => .amsend p x | .amret _ => .amret p | .vld _ x => .vld p x | .vst _ x => .vst p x
  | .vgather _ => .vgather p | .vscatter _ => .vscatter p | .vadd _ x => .vadd p x | .vmul _ => .vmul p
  | .vfma _ x => .vfma p x | .vdiv _ x => .vdiv p x | .vminmax _ x => .vminmax p x | .vlogic _ x => .vlogic p x
  | .vcmp _ x => .vcmp p x | .vsel _ => .vsel p | .vperm _ x => .vperm p x | .vbcast _ x => .vbcast p x
  | .vred _ x => .vred p x | .vscan _ => .vscan p | .vdot _ => .vdot p | .vpackm _ => .vpackm p | .vexpm _ => .vexpm p
  | .vmath _ x => .vmath p x | .cvt _ x => .cvt p x | .cvtn _ x => .cvtn p x | .cvtw _ x => .cvtw p x
  | .mfmt _ => .mfmt p | .mfmtRel _ => .mfmtRel p | .mmul _ x => .mmul p x | .mspb _ x => .mspb p x | .join _ => .join p
  | .jdrain _ => .jdrain p | .jdrainResume _ => .jdrainResume p | .aswap _ => .aswap p | .azero _ => .azero p
  | .azeroVis _ => .azeroVis p | .mwait _ => .mwait p | .gangLead _ => .gangLead p | .gangFollow _ => .gangFollow p
  | .gangLeave _ => .gangLeave p | .mscl _ x => .mscl p x | .spawn _ => .spawn p | .spawnr _ => .spawnr p
  | .split _ => .split p | .popf _ => .popf p | .sync _ => .sync p | .publish _ => .publish p | .tend _ => .tend p
  | .donate _ => .donate p | .fnew _ => .fnew p | .fnewCount _ => .fnewCount p | .fput _ => .fput p | .fget _ => .fget p
  | .fgetPoll _ => .fgetPoll p | .frel _ => .frel p | .bar _ x y => .bar p x y | .quiesce _ => .quiesce p
  | .chsend _ x => .chsend p x | .chrecv _ x => .chrecv p x | .copy _ x => .copy p x | .waitk _ x => .waitk p x
  | .tokq _ => .tokq p | .redgrpOpen _ => .redgrpOpen p | .redgrpClose _ => .redgrpClose p | .redpkt _ => .redpkt p
  | .mcast _ => .mcast p | .nop _ => .nop p | .trap _ => .trap p | .rte _ => .rte p | .sysrd _ => .sysrd p
  | .syswr _ => .syswr p | .tlbinv _ => .tlbinv p | .tlbinvSpace _ => .tlbinvSpace p | .tlbinvAll _ => .tlbinvAll p
  | .yield _ => .yield p
  | i => i

variable {i : Instr} {o p : Ops} {sh : Shape}

theorem toRaw_reOps (i : Instr) (p : Ops) : toRaw (i.reOps p) = toRaw i := by cases i <;> rfl

theorem opsOf_reOps (i : Instr) (p : Ops) : opsOf (i.reOps p) = (opsOf i).map fun _ => p := by cases i <;> rfl

/-- The same opcode and function field with other operands name the instruction with those operands. -/
theorem ofRaw_reOps {op : BitVec 7} {fn : BitVec 4} (h : ofRaw op fn o = some i) (p : Ops) : ofRaw op fn p = some (i.reOps p) := by
  obtain ⟨hr, ho⟩ : toRaw i = some (op, fn) ∧ opsOf i = some o := by
    obtain ⟨op', hr, hn, ho⟩ := ofRaw_named op fn o i h
    exact ⟨by rw [hr, BitVec.eq_of_toNat_eq hn], ho⟩
  exact ofRaw_toRaw _ op fn p ((toRaw_reOps i p).trans hr) (by rw [opsOf_reOps, ho]; rfl)

/-- Operands of the same form: of one length, with the same literal and controls or none. -/
structure Ops.Alike (o p : Ops) : Prop where
  ext : p.ext.isSome = o.ext.isSome
  lit : p.lit.isSome = o.lit.isSome

/-- What the later words may change of an instruction's shape: the kinds of operands that are not held, and bits of xf. -/
structure Machine.Shape.Alike (s t : Shape) : Prop where
  eq : t = { s with a := t.a, b := t.b, xf := t.xf }
  held : s.holds = true → t.a = s.a ∧ t.b = s.b
  xf : t.xf = 1 ↔ s.xf = 1

theorem Machine.Shape.Alike.refl (s : Shape) : s.Alike s := ⟨rfl, fun _ => ⟨rfl, rfl⟩, Iff.rfl⟩

/-- The bits of xf that have a meaning for MSPB are never bit 0 alone. -/
theorem mspb_xf (m n : Bool) :
    ((3 ||| (if m then 0 else 0x1C) ||| (if n then 0 else 0xE0) : BitVec 8) = 1) = False := by
  cases m <;> cases n <;> simp

theorem shape_reOps (ho : opsOf i = some o) (hp : o.Alike p) (hs : shape i = some sh) :
    ∃ t, shape (i.reOps p) = some t ∧ sh.Alike t ∧ (p.ext = o.ext → t = sh) := by
  cases i
  case jmp | call | safept | spawn =>
    cases ho
    refine ⟨sh, ?_, .refl sh, fun _ => rfl⟩
    rw [← hs]
    simp only [Instr.reOps, shape, hp.lit]
  case trap | sysrd | syswr =>
    cases ho
    refine ⟨sh, ?_, .refl sh, fun _ => rfl⟩
    rw [← hs]
    simp only [Instr.reOps, shape, hp.ext]
  case mmul =>
    cases ho
    cases hs
    exact ⟨_, rfl, ⟨rfl, fun h => (by cases h), Iff.rfl⟩, fun he => by rw [he]⟩
  case mspb =>
    cases ho
    cases hs
    refine ⟨_, rfl, ⟨rfl, fun h => (by cases h), ?_⟩, fun he => by rw [he]⟩
    simp only [mspb_xf]
  case pset _ f | ld _ f | st _ f | cas _ f | vperm _ f | vbcast _ f | vred _ f | cvt _ f =>
    refine ⟨sh, ?_, .refl sh, fun _ => rfl⟩
    rw [← hs]
    cases f <;> rfl
  all_goals exact ⟨sh, hs, .refl sh, fun _ => rfl⟩

/-! ### The checks with the operands zero -/

theorem fieldOk_zero (e : Bool) (k : Kind) : fieldOk e k 0 = true := by cases e <;> cases k <;> rfl

/-- Controls as the base word has them: only those of the later words may differ. -/
def Ctl.later (c : Ctl) (kmask xf : BitVec 8) : Ctl := { c with kmask := kmask, xf := xf }

/-- The controls stay in order where xf asks for nothing, or for the bit that makes scope free. -/
theorem ctlOk_later {t : Shape} {lit : Bool} {c : Ctl} {xf : BitVec 8} (ht : sh.Alike t) (h : ctlOk sh lit c = true)
    (hx : xf = if sh.xf = 1 ∧ c.xf = 1 then 1 else 0) (k : BitVec 8) : ctlOk t lit (c.later k xf) = true := by
  obtain ⟨heq, hheld, hxf⟩ := ht
  have hx0 : xf &&& ~~~t.xf = 0 := by
    rw [hx]
    split
    next h1 => rw [hxf.mpr h1.1]; rfl
    next => exact BitVec.zero_and
  have hfree : (decide (sh.xf ≠ 1) || decide (c.xf = 1)) = true → (decide (t.xf ≠ 1) || decide (xf = 1)) = true := by
    intro hs
    by_cases h1 : sh.xf = 1
    · have h2 : c.xf = 1 := by simpa [h1] using hs
      simp [hx, h1, h2]
    · rw [decide_eq_true (mt hxf.mp h1)]; rfl
  rw [heq]
  simp only [ctlOk, Ctl.later, Bool.and_eq_true] at h ⊢
  obtain ⟨⟨⟨⟨⟨⟨⟨⟨hp, hrm⟩, hpol⟩, hord⟩, hsc⟩, ha⟩, hb⟩, hd⟩, -⟩ := h
  refine ⟨⟨⟨⟨⟨⟨⟨⟨hp, hrm⟩, hpol⟩, hord⟩, ?scope⟩, ?a⟩, ?b⟩, hd⟩, decide_eq_true hx0⟩
  case scope =>
    rw [Bool.or_eq_true, Bool.and_eq_true] at hsc ⊢
    exact hsc.imp_right (And.imp_right hfree)
  case a =>
    cases hh : sh.holds
    · simpa [hh] using ha
    · rw [(hheld hh).1]; rwa [hh] at ha
  case b =>
    cases hh : sh.holds
    · simpa [hh] using hb
    · rw [(hheld hh).2]; rwa [hh] at hb

/-- The operands of a base word, where the words after it are zero but for xf. -/
def Ops.base (o : Ops) (xf : BitVec 8) (lit : Option Word) : Ops :=
  match o.ext with
  | none => { o with lit := lit }
  | some c => { o with ext := some (c.later 0 xf), lit := lit, d := 0, a := 0, b := 0 }

theorem Ops.base_short (he : o.ext = none) (xf : BitVec 8) (lit : Option Word) : o.base xf lit = { o with lit := lit } := by
  rw [Ops.base, he]

theorem Ops.base_long {c : Ctl} (he : o.ext = some c) (xf : BitVec 8) (lit : Option Word) :
    o.base xf lit = { sw := o.sw, ext := some (c.later 0 xf), lit := lit, d := 0, a := 0, b := 0 } := by
  rw [Ops.base, he]

theorem Ops.base_alike (xf : BitVec 8) {lit : Option Word} (hl : lit.isSome = o.lit.isSome) : o.Alike (o.base xf lit) := by
  cases he : o.ext with
  | none => rw [Ops.base_short he]; exact ⟨rfl, hl⟩
  | some c => rw [Ops.base_long he]; exact ⟨by rw [he]; rfl, hl⟩

/-- An instruction's own checks hold with its operands zero. -/
theorem ownOk_base (ho : opsOf i = some o) (h : ownOk i = true) (xf : BitVec 8) (lit : Option Word) :
    ownOk (i.reOps (o.base xf lit)) = true := by
  cases he : o.ext with
  | none =>
    rw [Ops.base_short he]
    cases i
    case rep | trap | sysrd | syswr | waitk => cases ho; exact h
    all_goals exact h
  | some c =>
    rw [Ops.base_long he]
    cases i
    case rep => simp [Instr.reOps, ownOk]
    case trap | sysrd | syswr | waitk => rfl
    all_goals exact h

/-- The operands are in order where the later words are zero. -/
theorem opsOk_base {t : Shape} (ht : sh.Alike t) (hs : o.ext = none → t = sh) (h : opsOk sh o = true) {lit : Option Word}
    (hl : lit.isSome = o.lit.isSome) {xf : BitVec 8} (hx : xf = if sh.xf = 1 ∧ o.ext.elim 0 Ctl.xf = 1 then 1 else 0) :
    opsOk t (o.base xf lit) = true := by
  have hn : lit.isNone = o.lit.isNone := by rw [← Option.not_isSome, hl, Option.not_isSome]
  cases he : o.ext with
  | none =>
    rw [hs he, Ops.base_short he]
    simp only [opsOk, he, hl, hn] at h ⊢
    exact h
  | some c =>
    have hc : ctlOk t lit.isSome (c.later 0 xf) = true := by
      simp only [opsOk, he, Bool.and_eq_true] at h
      rw [hl]
      exact ctlOk_later ht h.2 (by rw [hx, he]; rfl) 0
    rw [Ops.base_long he]
    simp only [opsOk, he, Bool.and_eq_true, Option.isSome_some, Bool.true_and] at h
    obtain ⟨⟨⟨⟨⟨hext, hlit⟩, -⟩, -⟩, -⟩, -⟩ := h
    rw [ht.eq]
    simp only [opsOk, fieldOk_zero, Bool.and_true, Option.isSome_some, Bool.true_and, hn, hext, hlit]
    rw [ht.eq] at hc
    exact hc

/-- An instruction that the decoder accepts is accepted with the later words zero, but for a bit of xf. -/
theorem legal_base (ho : opsOf i = some o) (h : legal i = true) :
    ∃ xf : BitVec 8, (xf = 0 ∨ xf = 1) ∧
      ∀ lit : Option Word, lit.isSome = o.lit.isSome → legal (i.reOps (o.base xf lit)) = true := by
  obtain ⟨sh, o', op, fn, hs, ho', -, hok, hown⟩ := legal_parts h
  obtain rfl : o = o' := Option.some.inj (ho.symm.trans ho')
  generalize hx : (if sh.xf = 1 ∧ o.ext.elim 0 Ctl.xf = 1 then 1 else 0 : BitVec 8) = xf
  refine ⟨xf, by rw [← hx]; split <;> simp, fun lit hl => ?_⟩
  obtain ⟨t, ht, halike, heq⟩ := shape_reOps ho (Ops.base_alike xf hl) hs
  have hop : opsOf (i.reOps (o.base xf lit)) = some (o.base xf lit) := by rw [opsOf_reOps, ho]; rfl
  have hsame : o.ext = none → t = sh := fun he => heq (by rw [Ops.base_short he])
  simp only [legal, ht, hop, opsOk_base halike hsame hok hl hx.symm, ownOk_base ho hown xf lit, Bool.and_self]

/-- The operands that a base word and four words after it give. -/
theorem opsOfWords_five (w e1 e2 l h : BitVec 32) :
    opsOfWords [w, e1, e2, l, h] = some (
      if w.extractLsb' 0 2 = 0 then shortOps w none
      else if w.extractLsb' 0 2 = 1 then longOps w e1 e2 none
      else if w.extractLsb' 0 2 = 2 then shortOps w (some (e2 ++ e1))
      else longOps w e1 e2 (some (h ++ l))) := by
  rw [opsOfWords_eq]
  split
  · rfl
  · split
    · rfl
    · split <;> rfl

/-- The operands that a base word and the words after it give, if none is missing. -/
theorem opsOfWords_form {w : BitVec 32} {ws : List (BitVec 32)} (h : opsOfWords (w :: ws) = some o) :
    if w.extractLsb' 0 2 = 0 then o = shortOps w none
    else if w.extractLsb' 0 2 = 1 then ∃ e1 e2, o = longOps w e1 e2 none
    else if w.extractLsb' 0 2 = 2 then ∃ l, o = shortOps w (some l)
    else ∃ e1 e2 l, o = longOps w e1 e2 (some l) := by
  rw [opsOfWords_eq] at h
  split
  next h0 => rw [if_pos h0] at h; cases h; rfl
  next h0 =>
    rw [if_neg h0] at h
    split
    next h1 =>
      rw [if_pos h1] at h
      split at h
      · cases h; exact ⟨_, _, rfl⟩
      · cases h
    next h1 =>
      rw [if_neg h1] at h
      split
      next h2 =>
        rw [if_pos h2] at h
        split at h
        · cases h; exact ⟨_, rfl⟩
        · cases h
      next h2 =>
        rw [if_neg h2] at h
        split at h
        · cases h; exact ⟨_, _, _, rfl⟩
        · cases h

theorem longOps_base {w e : BitVec 32} (hk : e.extractLsb' 16 8 = 0) (hb : e.extractLsb' 0 16 = 0) (e1 e2 : BitVec 32)
    (l l' : Option Word) : longOps w 0 e l' = (longOps w e1 e2 l).base (e.extractLsb' 24 8) l' := by
  rw [Ops.base_long rfl]
  simp only [longOps, hb, ctlOf, Ctl.later, hk]
  rfl

/-- The operands that the decoder reads where it takes the later words as zero, but for xf. -/
theorem opsOfWords_base {w e : BitVec 32} {ws : List (BitVec 32)} (h : opsOfWords (w :: ws) = some o)
    (hk : e.extractLsb' 16 8 = 0) (hb : e.extractLsb' 0 16 = 0) :
    ∃ lit : Option Word, lit.isSome = o.lit.isSome ∧ opsOfWords [w, 0, e, 0, 0] = some (o.base (e.extractLsb' 24 8) lit) := by
  replace h := opsOfWords_form h
  rw [opsOfWords_five]
  split at h
  next h0 =>
    exact ⟨none, by rw [h]; rfl, by rw [if_pos h0, h]; rfl⟩
  next h0 =>
    rw [if_neg h0]
    split at h
    next h1 =>
      obtain ⟨e1, e2, rfl⟩ := h
      exact ⟨none, rfl, by rw [if_pos h1, longOps_base hk hb]⟩
    next h1 =>
      rw [if_neg h1]
      split at h
      next h2 =>
        obtain ⟨l, rfl⟩ := h
        exact ⟨some (e ++ 0#32), rfl, by rw [if_pos h2]; rfl⟩
      next h2 =>
        obtain ⟨e1, e2, l, rfl⟩ := h
        exact ⟨some ((0 : BitVec 32) ++ (0 : BitVec 32)), rfl, by rw [if_neg h2, longOps_base hk hb e1 e2 (some l)]⟩

/-- A word that begins an instruction passes the decoder by itself. -/
theorem basePasses_of {w : BitVec 32} {ws : List (BitVec 32)} (h : decodeWords (w :: ws) = .ok i) : basePasses w = true := by
  obtain ⟨o, ho, hi, hl⟩ := decodeWords_ok h
  have hop : opsOf i = some o := by
    obtain ⟨op, -, -, hop⟩ := ofRaw_named _ _ o i hi
    exact hop
  obtain ⟨xf, hxf, hlegal⟩ := legal_base hop hl
  have hdec : ∀ e : BitVec 32, e.extractLsb' 16 8 = 0 → e.extractLsb' 0 16 = 0 → e.extractLsb' 24 8 = xf →
      ∃ j, decodeWords [w, 0, e, 0, 0] = .ok j := by
    intro e hk hb he
    obtain ⟨lit, hlit, hbase⟩ := opsOfWords_base ho hk hb
    rw [he] at hbase
    exact ⟨_, decodeWords_of hbase (ofRaw_reOps hi _) (hlegal lit hlit)⟩
  unfold basePasses
  rcases hxf with rfl | rfl
  · obtain ⟨j, hj⟩ := hdec 0 rfl rfl rfl
    rw [hj]
  · obtain ⟨j, hj⟩ := hdec 0x01000000 rfl rfl rfl
    rw [hj]
    split
    next h => cases h
    next => rfl

end Sys2Proof
end

section
/-! Fetching (18 R417, 07 R168): a word from where its address resolves to, and an instruction from its words. -/

namespace Sys2Proof.Machine

variable {s t : State} {va : Word} {pa : Nat} {dev : Bool} {l : Line}

theorem toNat_append_byte {n : Nat} (x : BitVec n) (b : Byte) : (x ++ b).toNat = b.toNat + 256 * x.toNat := by
  rw [BitVec.toNat_append, ← Nat.shiftLeft_add_eq_or_of_lt b.isLt, Nat.shiftLeft_eq, Nat.add_comm, Nat.mul_comm]

/-- A word is four bytes, little-endian. -/
theorem ofBytes_word (b0 b1 b2 b3 : Byte) : BitVec.ofNat 32 (ofBytes [b0, b1, b2, b3]) = b3 ++ b2 ++ b1 ++ b0 := by
  apply BitVec.eq_of_toNat_eq
  have hlt : ofBytes [b0, b1, b2, b3] < 2 ^ 32 := by simpa using ofBytes_lt [b0, b1, b2, b3]
  rw [BitVec.toNat_ofNat, Nat.mod_eq_of_lt hlt]
  simp only [toNat_append_byte, ofBytes, Nat.mul_zero, Nat.add_zero]

/-- A word at a place of the own package that is not stuck, bad or shut. -/
theorem fetchWord_of {p : Place} {bs : List Byte} (hr : s.resolve va .exec = .ok (p, t)) (hp : p.here = true)
    (hb : t.placeBad t.curCore p 4 = none) (hs : t.placeStuck t.curCore p 4 = none)
    (hbs : t.readPlace t.curCore p 4 false = (bs, t)) : s.fetchWord va = .ok (BitVec.ofNat 32 (ofBytes bs), t) := by
  unfold State.fetchWord
  rw [hr]
  cases p with
  | far _ _ | foreign _ _ _ => cases hp
  | near _ | window _ _ _ | global _ _ => simp only [hb, hs, hbs, Bool.false_eq_true, if_false]

/-- A line that lies within one line and is listed neither as bad nor as tainted is not bad where it is held by none. -/
theorem placeBad_near (h : pa % 64 ≤ 60) (hl : t.listedLine (pa / 64 * 64) = false) (c : Nat) :
    t.placeBad c (.near pa) 4 = none := by
  simp [State.placeBad, hl, show ¬ 64 < pa % 64 + 4 by omega]

/-- No copy serves an access of device type, or one whose line the hamlet does not hold. -/
theorem held_none {c : Nat} (h : dev = true ∨ find (t.ham (hamOf c)).lines (pa / 64 * 64) = none) (n : Nat) :
    t.held c (.global pa dev) n = none := by
  cases dev with
  | true => rfl
  | false => simp only [State.held, h.resolve_left (by decide)]

theorem placeBad_home {c : Nat} (h : pa % 64 ≤ 60) (hl : t.listedLine (pa / 64 * 64) = false)
    (hh : t.held c (.global pa dev) 4 = none) : t.placeBad c (.global pa dev) 4 = none := by
  simp [State.placeBad, hh, hl, show ¬ 64 < pa % 64 + 4 by omega]

theorem placeStuck_home {c : Nat} (hh : t.held c (.global pa dev) 4 = none) (hs : t.cxlStuck (pa / 64 * 64) = false) :
    t.placeStuck c (.global pa dev) 4 = none := by
  simp [State.placeStuck, hh, hs]

/-- What a read past the L1 takes from the home of a line that the hamlet does not hold. -/
theorem readPlace_home {c : Nat} (h : pa % 64 ≤ 60) (hg : (t.region pa).global = true)
    (hd : dev = true ∨ find (t.ham (hamOf c)).lines (pa / 64 * 64) = none ∧ (t.ham (hamOf c)).winLines = []) :
    t.readPlace c (.global pa dev) 4 false = (t.homeRead pa 4, t) := by
  have hu : t.region pa ≠ .unbacked := fun he => by rw [he] at hg; cases hg
  have hspan : t.homeSpan pa 4 = t.homeRead pa 4 := if_pos (by omega)
  rcases hd with rfl | ⟨hf, hw⟩
  · simp [State.readPlace, hu, hspan]
  · cases dev with
    | true => simp [State.readPlace, hu, hspan]
    | false => simp [State.readPlace, hf, hu, State.hamletRead, hw]

/-- What a read past the L1 takes from a copy that has its bytes. -/
theorem readPlace_held {c : Nat} (hf : find (t.ham (hamOf c)).lines (pa / 64 * 64) = some l)
    (hv : ones 64 4 (pa % 64) &&& ~~~l.valid = 0) :
    t.readPlace c (.global pa false) 4 false = (bytesOf 4 (l.data.toNat >>> (8 * (pa % 64))), t) := by
  simp [State.readPlace, hf, hv]

/-- The number of the bytes of a number. -/
theorem ofBytes_bytesOf (n x : Nat) : ofBytes (bytesOf n x) = x % 256 ^ n := by
  induction n generalizing x with
  | zero => rw [bytesOf, ofBytes, pow_zero, Nat.mod_one]
  | succ n ih => rw [bytesOf, ofBytes, ih, Nat.pow_succ', Nat.mod_mul, BitVec.toNat_ofNat]

theorem held_some {c : Nat} (hf : find (t.ham (hamOf c)).lines (pa / 64 * 64) = some l)
    (hv : ones 64 4 (pa % 64) &&& ~~~l.valid = 0) : t.held c (.global pa false) 4 = some (some l) := by
  simp only [State.held, hf, hv, if_true]

theorem fetchWord_held (hr : s.resolve va .exec = .ok (.global pa false, t))
    (hf : find (t.ham (hamOf t.curCore)).lines (pa / 64 * 64) = some l) (hv : ones 64 4 (pa % 64) &&& ~~~l.valid = 0)
    (hb : l.bad = false ∨ ones 64 4 (pa % 64) &&& ~~~l.dirty = 0) :
    s.fetchWord va = .ok (l.data.extractLsb' (8 * (pa % 64)) 32, t) := by
  have hheld := held_some hf hv
  have hbad : (l.bad && decide (ones 64 4 (pa % 64) &&& ~~~l.dirty ≠ 0)) = false := by
    rcases hb with h | h <;> simp [h]
  rw [fetchWord_of hr rfl (by simp only [State.placeBad, hheld, hbad, Bool.false_eq_true, if_false])
    (by simp [State.placeStuck, hheld]) (readPlace_held hf hv), ofBytes_bytesOf]
  congr 2
  apply BitVec.eq_of_toNat_eq
  rw [BitVec.toNat_ofNat, BitVec.extractLsb'_toNat]
  exact Nat.mod_mod _ _

theorem fetchAt_of {w : BitVec 32} {ws : List (BitVec 32)} {i : Instr} (hw : s.fetchWord va = .ok (w, t))
    (hn : ws.length + 1 = wordsOfLen (w.extractLsb' 0 2)) (hm : t.fetchMore (va + 4) ws.length = .ok (ws, t))
    (hd : decodeWords (w :: ws) = .ok i) : s.fetchAt va = .instr i t := by
  have hn' : wordsOfLen (w.extractLsb' 0 2) - 1 = ws.length := by omega
  simp only [State.fetchAt, hw, basePasses_of hd, Bool.not_true, Bool.false_eq_true, if_false, hn', hm, hd]

/-- Outside a REP body an instruction is fetched at the pc. -/
theorem nextInstr_fetch (h : s.me.repOn = false) : s.nextInstr = s.fetchAt s.me.pc := by
  cases hr : s.me.rep with
  | none => simp only [State.nextInstr, hr]
  | some r => simp only [State.nextInstr, hr, h, Bool.false_eq_true, if_false]

/-- Settles O7: a word is what its place reads as, and the words of an instruction are decoded as it. -/
theorem fetchReadsProgram : Obligations.FetchReadsProgram := by
  refine ⟨fun s t va pa b0 b1 b2 b3 h hl hb => ⟨fun hr => ?_, fun dev hr hg hs hd => ?_⟩,
    fun s t va pa l hr _ hf hv hb => fetchWord_held hr hf hv hb, fun s t va w ws i hw hn hm hd => fetchAt_of hw hn hm hd,
    fun s => nextInstr_fetch⟩
  · rw [← ofBytes_word, ← hb]
    exact fetchWord_of hr rfl (placeBad_near h hl _) rfl rfl
  · have hheld := held_none (hd.imp_right And.left) 4
    rw [← ofBytes_word, ← hb]
    exact fetchWord_of hr rfl (placeBad_home h hl hheld) (placeStuck_home hheld hs) (readPlace_home h hg hd)

end Sys2Proof.Machine
end


section
/-! The bytes of memory at their homes (05 R122, R131): what a home reads, byte by byte, and what a write leaves. -/

namespace Sys2Proof.Machine

variable {s t : State} {pa a : Nat} {bs : List (Nat × Byte)}

/-! ### Lines and regions (R122) -/

/-- Two addresses of a line are of one region where the second tier's size does not part them. -/
theorem region_congr (h : pa / 64 = a / 64) (hl : 0x20000000000 ≤ a → a < 0x40000000000 →
    (pa - 0x20000000000 < s.hub.lpddr ↔ a - 0x20000000000 < s.hub.lpddr)) : s.region pa = s.region a := by
  have hhbm : (pa < 0x8000000000) = (a < 0x8000000000) := propext (by omega)
  have hlpddr : (0x20000000000 ≤ pa && pa < 0x40000000000) = (0x20000000000 ≤ a && a < 0x40000000000) := by
    rw [Bool.eq_iff_iff]; simp only [Bool.and_eq_true, decide_eq_true_eq]; omega
  have hcxl : (0x100000000000 ≤ pa && pa < 0x180000000000) = (0x100000000000 ≤ a && a < 0x180000000000) := by
    rw [Bool.eq_iff_iff]; simp only [Bool.and_eq_true, decide_eq_true_eq]; omega
  have hstash : (0x3D0000000000 ≤ pa && pa < 0x3D0020000000) = (0x3D0000000000 ≤ a && a < 0x3D0020000000) := by
    rw [Bool.eq_iff_iff]; simp only [Bool.and_eq_true, decide_eq_true_eq]; omega
  have hcommons : (0x3E0000000000 ≤ pa && pa < 0x3E0020000000) = (0x3E0000000000 ≤ a && a < 0x3E0020000000) := by
    rw [Bool.eq_iff_iff]; simp only [Bool.and_eq_true, decide_eq_true_eq]; omega
  have hcontrol : (0x3F0000000000 ≤ pa && pa < 0x400000000000) = (0x3F0000000000 ≤ a && a < 0x400000000000) := by
    rw [Bool.eq_iff_iff]; simp only [Bool.and_eq_true, decide_eq_true_eq]; omega
  have hport : (pa - 0x100000000000) / 2 ^ 40 = (a - 0x100000000000) / 2 ^ 40 := by omega
  have hroom : ∀ m, ((pa - 0x100000000000) % 2 ^ 40 < m * 2 ^ 30) = ((a - 0x100000000000) % 2 ^ 40 < m * 2 ^ 30) :=
    fun m => propext (by omega)
  have hpart : ∀ b n, b % 64 = 0 → (pa - b) / (64 * n) = (a - b) / (64 * n) := fun b n hb => by
    rw [← Nat.div_div_eq_div_mul, ← Nat.div_div_eq_div_mul, show (pa - b) / 64 = (a - b) / 64 by omega]
  have hcore := hpart 0x3D0000000000 0x1000 rfl
  have hham := hpart 0x3E0000000000 0x8000 rfl
  norm_num only at hcore hham
  unfold State.region
  simp only [hhbm, hlpddr, hcxl, hstash, hcommons, hcontrol, hport, hroom, hcore, hham]
  split
  · rfl
  · split
    next h2 =>
      simp only [Bool.and_eq_true, decide_eq_true_eq] at h2
      simp only [hl h2.1 h2.2]
    · rfl

/-- A backed address of the second tier lies within its size. -/
theorem lpddr_backed (ha : s.region a ≠ .unbacked) (h1 : 0x20000000000 ≤ a) (h2 : a < 0x40000000000) :
    a - 0x20000000000 < s.hub.lpddr := by
  by_contra hn
  apply ha
  unfold State.region
  rw [if_neg (Nat.not_lt.mpr (le_trans (by decide) h1)), if_pos (by rw [decide_eq_true h1, decide_eq_true h2]; rfl), if_neg hn]

/-- The backed addresses of a line are of one region. -/
theorem region_of_line (h : pa / 64 = a / 64) (hp : s.region pa ≠ .unbacked) (ha : s.region a ≠ .unbacked) :
    s.region pa = s.region a :=
  region_congr h fun h1 h2 => iff_of_true (lpddr_backed hp (by omega) (by omega)) (lpddr_backed ha h1 h2)

/-- The first address of a line with a backed one is of its region. -/
theorem region_line (ha : s.region a ≠ .unbacked) : s.region (a / 64 * 64) = s.region a :=
  region_congr (by omega) fun h1 h2 => iff_of_true 
    (lt_of_le_of_lt (Nat.sub_le_sub_right (Nat.div_mul_le_self a 64) _) (lpddr_backed ha h1 h2)) (lpddr_backed ha h1 h2)

/-- The set of a line of global memory is a set of a slice, and of no other place. -/
theorem homeOf_global (ha : (s.region a).global = true) : s.homeOf a < 64 := by
  unfold State.homeOf
  cases hr : s.region a <;> rw [hr] at ha
  case hbm =>
    have ht := fld_lt (BitVec.ofNat 46 a) 14 12
    have hx := Nat.xor_lt_two_pow (fld_lt (BitVec.ofNat 46 a) 8 6) (fld_lt (BitVec.ofNat 46 a) 20 18)
    dsimp only
    generalize fld (BitVec.ofNat 46 a) 14 12 = t at ht
    generalize fld (BitVec.ofNat 46 a) 8 6 ^^^ fld (BitVec.ofNat 46 a) 20 18 = x at hx
    omega
  case lpddr | cxl =>
    exact Nat.xor_lt_two_pow (n := 6) (fld_lt (BitVec.ofNat 46 a) 11 6) (fld_lt (BitVec.ofNat 46 a) 21 16)
  all_goals cases ha

theorem global_of_homeOf (h : s.homeOf a < 64) : (s.region a).global = true := by
  unfold State.homeOf at h
  cases hr : s.region a <;> rw [hr] at h
  case hbm | lpddr | cxl => rfl
  all_goals (dsimp only at h; omega)

/-! ### Bytes -/

/-- The byte that an address of no table, area or window holds at its home: of a zero line it is 0 (R131). -/
def State.byteAt (s : State) (a : Nat) : Byte :=
  if (s.region a).global && s.zeros.contains (a / 64) then 0 else memGet s.mem a

/-- An address whose home holds its bytes: backed, in no table that the part keeps (R130), in no overflow area with records in it
(19 R441), and in no line of a scale window (R133). -/
structure State.Plain (s : State) (a : Nat) : Prop where
  backed : s.region a ≠ .unbacked
  table : ∀ h, s.region a = .commons h → isTable h a = false
  area : s.areaOf a = none
  line : s.plainLine a

theorem memRead_eq (m : List Host.Cell) (a n : Nat) : memRead m a n = (List.range n).map fun i => memGet m (a + i) := by
  induction n generalizing a with
  | zero => rfl
  | succ n ih =>
    rw [memRead, ih, List.range_succ_eq_map, List.map_cons, List.map_map]
    congr 2
    funext i
    simp only [Function.comp_apply, Nat.succ_eq_add_one, Nat.add_assoc, Nat.add_comm 1]

theorem memRead_length (m : List Host.Cell) (a n : Nat) : (memRead m a n).length = n := by
  rw [memRead_eq, List.length_map, List.length_range]

/-- A number of `k` bytes, in a word of as many. -/
theorem toNat_ofNat_bytes {w k x : Nat} (hw : w = 8 * k) (h : x < 256 ^ k) : (BitVec.ofNat w x).toNat = x := by
  subst hw
  rw [BitVec.toNat_ofNat, Nat.pow_mul]
  exact Nat.mod_eq_of_lt h

theorem rowOf_toNat {l : List Byte} (hl : l.length = 64) : (rowOf l).toNat = ofBytes l :=
  toNat_ofNat_bytes rfl (hl ▸ ofBytes_lt l)

/-- Bytes of a row, from an offset on. -/
theorem bytesOf_rowOf {l : List Byte} {n off : Nat} (hl : l.length = 64) (h : off + n ≤ 64) :
    bytesOf n ((rowOf l).toNat >>> (8 * off)) = (List.range n).map fun i => l.getD (off + i) 0 := by
  apply List.ext_getElem
  · simp
  · intro i hi _
    have hi' : i < n := by simpa using hi
    have hoff : off + i < l.length := by omega
    rw [bytesOf_getElem, List.getElem_map, List.getElem_range, rowOf_toNat hl,
      Nat.shiftRight_eq_div_pow, Nat.pow_mul, Nat.div_div_eq_div_mul, ← pow_add]
    apply BitVec.eq_of_toNat_eq
    rw [BitVec.toNat_ofNat, List.getD_eq_getElem _ _ hoff]
    exact ofBytes_byte hoff

/-- The bytes of a row of zeros. -/
theorem bytesOf_zero_row (n off : Nat) : bytesOf n ((0 : Row).toNat >>> (8 * off)) = (List.range n).map fun _ => 0 := by
  apply List.ext_getElem
  · simp only [bytesOf_length, List.length_map, List.length_range]
  · intro i hi _
    have hz : (0 : Row).toNat = 0 := BitVec.toNat_zero
    rw [bytesOf_getElem, List.getElem_map, hz, Nat.zero_shiftRight, Nat.zero_div]
    rfl

/-- The bytes that a line's home serves, where no scale window does. -/
theorem homeLine_bytes {n : Nat} (hb : s.region pa ≠ .unbacked) (hl : s.plainLine pa) (hn : pa % 64 + n ≤ 64) :
    bytesOf n ((s.homeLine (pa / 64 * 64)).toNat >>> (8 * (pa % 64))) =
      (List.range n).map fun i => if s.zeros.contains (pa / 64) then 0 else memGet s.mem (pa + i) := by
  have hline : pa / 64 * 64 / 64 = pa / 64 := Nat.mul_div_cancel _ (by decide)
  rw [State.homeLine, if_neg (region_line hb ▸ hb), hl.2, hl.1]
  dsimp only
  rw [hline]
  split
  · exact bytesOf_zero_row _ _
  · rw [bytesOf_rowOf (memRead_length _ _ _) hn]
    refine List.map_congr_left fun i hi => ?_
    have hi' : pa % 64 + i < 64 := by have := List.mem_range.mp hi; omega
    have hpa : pa / 64 * 64 + (pa % 64 + i) = pa + i := by rw [← Nat.add_assoc, Nat.mul_comm, Nat.div_add_mod]
    rw [memRead_eq, List.getD_eq_getElem _ _ (by simpa using hi'), List.getElem_map, List.getElem_range, hpa]

/-- What a home reads, byte by byte, within a line whose home holds its bytes. -/
theorem homeRead_bytes {n : Nat} (hp : s.Plain pa) (hn : pa % 64 + n ≤ 64) (hsame : ∀ i < n, s.region (pa + i) = s.region pa) :
    s.homeRead pa n = (List.range n).map fun i => s.byteAt (pa + i) := by
  have hline : ∀ i < n, (pa + i) / 64 = pa / 64 := fun i hi => by omega
  have hmem : (s.region pa).global = false → memRead s.mem pa n = (List.range n).map fun i => s.byteAt (pa + i) := by
    intro hg
    rw [memRead_eq]
    refine List.map_congr_left fun i hi => ?_
    rw [State.byteAt, hsame i (List.mem_range.mp hi), hg, Bool.false_and, if_neg (by decide)]
  have hglobal : (s.region pa).global = true →
      (if s.scales.isEmpty && s.ranges.isEmpty && s.zeros.isEmpty then memRead s.mem pa n
        else bytesOf n ((s.homeLine (pa / 64 * 64)).toNat >>> (8 * (pa % 64)))) =
      (List.range n).map fun i => s.byteAt (pa + i) := by
    intro hg
    have hbytes : (List.range n).map (fun i => if s.zeros.contains (pa / 64) then 0 else memGet s.mem (pa + i)) =
        (List.range n).map fun i => s.byteAt (pa + i) := by
      refine List.map_congr_left fun i hi => ?_
      rw [State.byteAt, hsame i (List.mem_range.mp hi), hg, Bool.true_and, hline i (List.mem_range.mp hi)]
    split
    next he =>
      simp only [Bool.and_eq_true, List.isEmpty_iff] at he
      rw [← hbytes, memRead_eq, he.2]
      rfl
    next => rw [homeLine_bytes hp.backed hp.line hn, hbytes]
  unfold State.homeRead
  cases hr : s.region pa with
  | unbacked => exact absurd hr hp.backed
  | commons h =>
    dsimp only
    rw [hp.table h hr, if_neg (by decide)]
    exact hmem (by rw [hr]; rfl)
  | stash c => exact hmem (by rw [hr]; rfl)
  | control => exact hmem (by rw [hr]; rfl)
  | hbm | lpddr | cxl n =>
    dsimp only
    rw [hp.area]
    exact hglobal (by rw [hr]; rfl)

theorem homeRead_byte (hp : s.Plain a) : s.homeRead a 1 = [s.byteAt a] := by
  rw [homeRead_bytes hp (by have := Nat.mod_lt a (show 0 < 64 by decide); omega)]
  · rfl
  · intro i hi
    rw [Nat.lt_one_iff.mp hi, Nat.add_zero]

end Sys2Proof.Machine
end


section
/-! Bytes written at a home are read back there (05 R122, R131). -/

namespace Sys2Proof.Machine

variable {s t : State} {pa a : Nat} {bs : List (Nat × Byte)}

/-- The byte that listed bytes put at an address, if they do. -/
def written (pa : Nat) (bs : List (Nat × Byte)) (a : Nat) (old : Byte) : Byte :=
  match bs.find? fun b => pa + b.1 = a with
  | some b => b.2
  | none => old

theorem written_cons (b : Nat × Byte) (hb : b.1 ∉ bs.map Prod.fst) (old : Byte) :
    written pa (b :: bs) a old = written pa bs a (if pa + b.1 = a then b.2 else old) := by
  by_cases h : pa + b.1 = a
  · have hn : bs.find? (fun b => pa + b.1 = a) = none := by
      rw [List.find?_eq_none]
      intro c hc hca
      have hca' : pa + c.1 = a := by simpa using hca
      exact hb (List.mem_map.mpr ⟨c, hc, by omega⟩)
    simp [written, h, hn]
  · simp [written, h]

/-- Listed bytes with distinct offsets, written to memory. -/
theorem memGet_memPut {m : List Host.Cell} (hm : Memory.wf m = true) (hb : (bs.map Prod.fst).Nodup) :
    memGet (memPut m pa bs) a = written pa bs a (memGet m a) := by
  induction bs generalizing m with
  | nil => rfl
  | cons b bs ih =>
    rw [List.map_cons, List.nodup_cons] at hb
    rw [written_cons b hb.1, ← show memGet (memSet m (pa + b.1) b.2) a = if pa + b.1 = a then b.2 else memGet m a from ?_]
    · exact ih (memSet_wf _ _ hm) hb.2
    · split
      next h => rw [← h, memGet_memSet_same _ _ hm]
      next h => exact memGet_memSet_other _ (Ne.symm h) hm

/-- An address outside the line keeps its byte. -/
theorem written_other_line (hi : inLine pa bs) (h : pa / 64 ≠ a / 64) (old : Byte) : written pa bs a old = old := by
  have hn : bs.find? (fun b => pa + b.1 = a) = none := by
    rw [List.find?_eq_none]
    intro b hb hba
    have hlt := hi.2 b hb
    have hba' : pa + b.1 = a := by simpa using hba
    omega
  rw [written, hn]

/-- As many bytes as a line has, at distinct offsets, cover the line. -/
theorem whole_line_covered (hi : inLine pa bs) (hp : pa % 64 = 0) (hl : bs.length = 64) {i : Nat} (h : i < 64) :
    i ∈ bs.map Prod.fst := by
  have hsub : (bs.map Prod.fst).toFinset ⊆ Finset.range 64 := by
    intro k hk
    obtain ⟨b, hb, rfl⟩ := List.mem_map.mp (List.mem_toFinset.mp hk)
    have := hi.2 b hb
    exact Finset.mem_range.mpr (by omega)
  have hcard : (bs.map Prod.fst).toFinset.card = 64 := by
    rw [List.toFinset_card_of_nodup hi.1, List.length_map, hl]
  have heq := Finset.eq_of_subset_of_card_le hsub (by rw [hcard, Finset.card_range])
  exact List.mem_toFinset.mp (heq ▸ Finset.mem_range.mpr h)

/-- A whole line of zero bytes. -/
theorem written_whole_zero (hi : inLine pa bs) (hp : pa % 64 = 0) (hl : bs.length = 64) (hz : bs.all (fun b => b.2 = 0) = true)
    (h : pa / 64 = a / 64) (old : Byte) : written pa bs a old = 0 := by
  obtain ⟨b, hb, hba⟩ := List.mem_map.mp (whole_line_covered hi hp hl (Nat.mod_lt a (by decide)))
  have hsome : (bs.find? fun b => pa + b.1 = a).isSome = true := by
    rw [List.find?_isSome]
    exact ⟨b, hb, by simp only [decide_eq_true_eq]; omega⟩
  obtain ⟨c, hc⟩ := Option.isSome_iff_exists.mp hsome
  rw [written, hc]
  simpa using (List.all_eq_true.mp hz) c (List.mem_of_find?_eq_some hc)

/-! ### Ways (R131) -/

/-- Without a scale-window line that could leave, a line that takes a way changes nothing but the ways. -/
theorem takeWay_ways {line : Nat} (h : s.scales = [] ∨ (s.sameSet line s.ways).length < setWays) :
    ∃ w f, s.takeWay line = { s with ways := w, free := f } := by
  unfold State.takeWay
  dsimp only
  split
  · exact ⟨s.ways, s.free, rfl⟩
  · split
    · exact ⟨_, s.free, rfl⟩
    next hfull =>
      have hs : ∀ v, s.evictScales v = s := fun v => by rw [State.evictScales, h.resolve_right hfull]; rfl
      unfold State.wayRoom
      split
      · simp only [State.leaveWay, hs]
        exact ⟨_, _, rfl⟩
      · exact ⟨_, s.free, rfl⟩

/-- What a write to a home leaves alone: what says where addresses lie and which home serves them. -/
structure State.SameMap (s t : State) : Prop where
  hub : t.hub = s.hub
  hamlets : t.hamlets = s.hamlets
  scales : t.scales = s.scales
  ranges : t.ranges = s.ranges

theorem State.SameMap.region (h : s.SameMap t) (a : Nat) : t.region a = s.region a := by
  have he : t.region a = ({ s with hub := t.hub } : State).region a := rfl
  rw [he, h.hub]

theorem State.SameMap.plain (h : s.SameMap t) (hp : s.Plain a) : t.Plain a where
  backed := by rw [h.region]; exact hp.backed
  table := by rw [h.region]; exact hp.table
  area := by rw [State.areaOf, h.hamlets]; exact hp.area
  line := by rw [State.plainLine, h.ranges, h.scales]; exact hp.line

/-! ### Zero lines (R131) -/

theorem mem_setIns {l : List Nat} {k x : Nat} : x ∈ setIns l k ↔ x = k ∨ x ∈ l := by
  induction l with
  | nil => simp [setIns]
  | cons j r ih =>
    rw [setIns]
    split
    next h => subst h; simp
    next h =>
      split
      · simp
      · simp only [List.mem_cons, ih]; tauto

theorem global_backed (h : (s.region a).global = true) : s.region a ≠ .unbacked := fun he => by rw [he] at h; cases h

theorem memGet_zero_line {m : List Host.Cell} (hm : Memory.wf m = true) (l a : Nat) :
    memGet (memWrite m (64 * l) (List.replicate 64 0)) a = if a / 64 = l then 0 else memGet m a := by
  have hlen : (List.replicate 64 (0 : Byte)).length = 64 := List.length_replicate
  have hget : ∀ i (h : i < (List.replicate 64 (0 : Byte)).length), (List.replicate 64 (0 : Byte))[i] = 0 :=
    fun _ _ => List.getElem_replicate _
  generalize List.replicate 64 (0 : Byte) = z at hlen hget ⊢
  by_cases h : a / 64 = l
  · have hlt : a % 64 < z.length := by omega
    have he : 64 * l + a % 64 = a := by omega
    have hread := memGet_memWrite_same (64 * l) z (a % 64) hlt hm
    rw [he, hget] at hread
    rw [if_pos h, hread]
  · rw [if_neg h, memGet_memWrite_other z (by omega) hm]

/-- A zero line that becomes an ordinary one, with its zeros in memory, reads as before. -/
theorem unzero_byteAt {l : Nat} {m : List Host.Cell} (hm : ∀ c, memGet m c = if c / 64 = l then 0 else memGet s.mem c)
    (hz : s.zeros.contains l = true) (hg : (s.region (64 * l)).global = true) (ha : s.region a ≠ .unbacked) :
    ({ s with zeros := s.zeros.filter (· ≠ l), mem := m } : State).byteAt a = s.byteAt a := by
  have hnew : ({ s with zeros := s.zeros.filter (· ≠ l), mem := m } : State).byteAt a =
      if (s.region a).global && (s.zeros.filter (· ≠ l)).contains (a / 64) then 0 else memGet m a := rfl
  rw [hnew, State.byteAt, hm]
  by_cases h : a / 64 = l
  · have hga : (s.region a).global = true := by
      rw [region_of_line (by omega) ha (global_backed hg)]; exact hg
    subst h
    simp [hga, show a / 64 ∈ s.zeros by simpa using hz]
  · simp [h]

/-- Room made for a zero line: the line that leaves holds its zeros in memory, and every byte reads as before. -/
theorem zeroRoom_byteAt {line : Nat} (hm : Memory.wf s.mem = true) (hline : (s.region line).global = true)
    (ha : s.region a ≠ .unbacked) :
    (s.zeroRoom (s.sameSet line (s.zeros.map fun z => 64 * z))).byteAt a = s.byteAt a := by
  unfold State.zeroRoom
  split
  case h_2 => rfl
  case h_1 z hz =>
    have hmem : z ∈ s.sameSet line (s.zeros.map fun z => 64 * z) := List.mem_of_getElem? hz
    unfold State.sameSet at hmem
    split at hmem
    · cases hmem
    · obtain ⟨hz1, hz2⟩ := List.mem_filter.mp hmem
      obtain ⟨l, hl, rfl⟩ := List.mem_map.mp hz1
      have hh : s.homeOf (64 * l) = s.homeOf line := by
        simp only [Bool.and_eq_true, decide_eq_true_eq] at hz2; exact hz2.1
      have hg : (s.region (64 * l)).global = true := global_of_homeOf (hh ▸ homeOf_global hline)
      have hdiv : 64 * l / 64 = l := Nat.mul_div_cancel_left l (by decide)
      rw [hdiv]
      exact unzero_byteAt (memGet_zero_line hm l) (by simpa using hl) hg ha

/-- What a write to a home leaves alone, said of one more state. -/
theorem zeroRoom_sameMap (held : List Nat) : s.SameMap (s.zeroRoom held) := by
  unfold State.zeroRoom
  split <;> exact ⟨rfl, rfl, rfl, rfl⟩

/-- A line of global memory that becomes a zero line reads as zeros, and every other byte as before. -/
theorem zeroLine_byteAt {line : Nat} (hm : Memory.wf s.mem = true) (hline : (s.region line).global = true)
    (ha : s.region a ≠ .unbacked) :
    (s.zeroLine line).byteAt a = if line / 64 = a / 64 then 0 else s.byteAt a := by
  have hset : ∀ t : State, t.region a = s.region a → t.byteAt a = s.byteAt a →
      ({ t with zeros := setIns t.zeros (line / 64), ways := t.ways.filter (· ≠ line) } : State).byteAt a =
        if line / 64 = a / 64 then 0 else s.byteAt a := by
    intro t hr hb
    have hnew : ({ t with zeros := setIns t.zeros (line / 64), ways := t.ways.filter (· ≠ line) } : State).byteAt a =
        if (t.region a).global && (setIns t.zeros (line / 64)).contains (a / 64) then 0 else memGet t.mem a := rfl
    rw [← hb, hnew, State.byteAt]
    by_cases h : line / 64 = a / 64
    · have hga : (t.region a).global = true := by
        rw [hr, ← region_of_line h (global_backed hline) ha]; exact hline
      simp [hga, h, mem_setIns]
    · simp [h, mem_setIns, Ne.symm h]
  unfold State.zeroLine
  dsimp only
  split
  · exact hset s rfl rfl
  · exact hset _ ((zeroRoom_sameMap _).region a) (zeroRoom_byteAt hm hline ha)

theorem zeroLine_sameMap (line : Nat) : s.SameMap (s.zeroLine line) := by
  unfold State.zeroLine
  dsimp only
  split
  · exact ⟨rfl, rfl, rfl, rfl⟩
  · obtain ⟨h1, h2, h3, h4⟩ := zeroRoom_sameMap (s := s) (s.sameSet line (s.zeros.map fun z => 64 * z))
    exact ⟨h1, h2, h3, h4⟩

/-! ### A write (R131) -/

/-- Bytes written to a line of global memory that has its way: a zero line's zeros come to memory first. -/
def State.partWrite (t : State) (pa : Nat) (bs : List (Nat × Byte)) : State :=
  if t.zeros.contains (pa / 64 * 64 / 64) then
    { t with zeros := t.zeros.filter (· ≠ pa / 64 * 64 / 64),
             mem := memPut (memWrite t.mem (pa / 64 * 64) (List.replicate 64 0)) pa bs }
  else { t with mem := memPut t.mem pa bs }

/-- Bytes written to a line of global memory that no scale window serves. -/
def State.globalWrite (s : State) (pa : Nat) (bs : List (Nat × Byte)) : State :=
  if (pa = pa / 64 * 64 && bs.length = 64) && bs.all fun b => b.2 = 0 then s.zeroLine (pa / 64 * 64)
  else (s.takeWay (pa / 64 * 64)).partWrite pa bs

/-- A write to a home, by its region. -/
theorem homeWrite_eq (hp : s.Plain pa) : ∃ t : State, t = s.unlist (pa / 64 * 64) (pa = pa / 64 * 64 && bs.length = 64) ∧
    s.homeWrite pa bs = if (s.region pa).global then t.globalWrite pa bs else { t with mem := memPut t.mem pa bs } := by
  refine ⟨_, rfl, ?_⟩
  unfold State.homeWrite
  dsimp only
  have hr : (s.unlist (pa / 64 * 64) (pa = pa / 64 * 64 && bs.length = 64)).ranges = s.ranges := by
    unfold State.unlist; split <;> rfl
  cases hreg : s.region pa with
  | unbacked => exact absurd hreg hp.backed
  | commons h =>
    dsimp only
    rw [hp.table h hreg, if_neg (by decide)]
    rfl
  | stash | control => rfl
  | hbm | lpddr | cxl =>
    dsimp only
    rw [hr, hp.line.1]
    rfl

/-- Listed bytes written where no zero line is. -/
theorem memPut_byteAt (hm : Memory.wf s.mem = true) (hi : inLine pa bs)
    (hz : (s.region pa).global = true → s.zeros.contains (pa / 64) = false) (hpa : s.region pa ≠ .unbacked)
    (ha : s.region a ≠ .unbacked) :
    ({ s with mem := memPut s.mem pa bs } : State).byteAt a = written pa bs a (s.byteAt a) := by
  have hnew : ({ s with mem := memPut s.mem pa bs } : State).byteAt a =
      if (s.region a).global && s.zeros.contains (a / 64) then 0 else memGet (memPut s.mem pa bs) a := rfl
  rw [hnew, State.byteAt]
  split
  next h =>
    rw [Bool.and_eq_true] at h
    have hother : pa / 64 ≠ a / 64 := fun he => by
      have hf := hz (by rw [region_of_line he hpa ha]; exact h.1)
      rw [he, h.2] at hf
      cases hf
    exact (written_other_line hi hother 0).symm
  next => exact memGet_memPut hm hi.1

theorem partWrite_byteAt (hm : Memory.wf s.mem = true) (hi : inLine pa bs) (hg : (s.region pa).global = true)
    (ha : s.region a ≠ .unbacked) : (s.partWrite pa bs).byteAt a = written pa bs a (s.byteAt a) := by
  have hb := global_backed hg
  have hline : pa / 64 * 64 / 64 = pa / 64 := Nat.mul_div_cancel _ (by decide)
  unfold State.partWrite
  rw [hline]
  split
  next hz =>
    have hmw := memWrite_wf (pa / 64 * 64) (List.replicate 64 0) hm
    have hget := memGet_zero_line hm (pa / 64)
    rw [Nat.mul_comm 64] at hget
    generalize memWrite s.mem (pa / 64 * 64) (List.replicate 64 0) = m at hmw hget
    rw [← unzero_byteAt hget hz (by rw [Nat.mul_comm, region_line hb]; exact hg) ha]
    exact memPut_byteAt (s := { s with zeros := s.zeros.filter (· ≠ pa / 64), mem := m }) hmw hi (fun _ => by simp) hb ha
  next hz => exact memPut_byteAt hm hi (fun _ => by simpa using hz) hb ha

theorem globalWrite_byteAt (hm : Memory.wf s.mem = true) (hi : inLine pa bs) (hg : (s.region pa).global = true)
    (hw : s.scales = [] ∨ (s.sameSet (pa / 64 * 64) s.ways).length < setWays) (ha : s.region a ≠ .unbacked) :
    (s.globalWrite pa bs).byteAt a = written pa bs a (s.byteAt a) := by
  unfold State.globalWrite
  split
  next h =>
    simp only [Bool.and_eq_true, decide_eq_true_eq] at h
    obtain ⟨⟨hstart, hlen⟩, hzero⟩ := h
    rw [zeroLine_byteAt hm (by rw [region_line (global_backed hg)]; exact hg) ha, Nat.mul_div_cancel _ (by decide)]
    split
    next he => exact (written_whole_zero hi (by omega) hlen hzero he _).symm
    next he => exact (written_other_line hi he _).symm
  next =>
    obtain ⟨w, f, ht⟩ := takeWay_ways hw
    rw [ht]
    exact partWrite_byteAt (s := { s with ways := w, free := f }) hm hi hg ha

theorem globalWrite_sameMap (hw : s.scales = [] ∨ (s.sameSet (pa / 64 * 64) s.ways).length < setWays) :
    s.SameMap (s.globalWrite pa bs) := by
  unfold State.globalWrite
  split
  · exact zeroLine_sameMap _
  · obtain ⟨w, f, ht⟩ := takeWay_ways hw
    rw [ht, State.partWrite]
    split <;> exact ⟨rfl, rfl, rfl, rfl⟩

/-- The lines that are listed as bad are nothing to the bytes. -/
theorem unlist_eq (line : Nat) (c : Bool) : ∃ b, s.unlist line c = { s with bad := b } := by
  cases c
  · exact ⟨s.bad, rfl⟩
  · exact ⟨_, rfl⟩

/-- A write to a home changes the bytes that it lists and no other, and nothing of the map. -/
theorem homeWrite_byteAt (hm : Memory.wf s.mem = true) (hp : s.Plain pa) (hi : inLine pa bs)
    (hw : s.scales = [] ∨ (s.sameSet (pa / 64 * 64) s.ways).length < setWays) (ha : s.region a ≠ .unbacked) :
    s.SameMap (s.homeWrite pa bs) ∧ (s.homeWrite pa bs).byteAt a = written pa bs a (s.byteAt a) := by
  obtain ⟨t, ht, he⟩ := homeWrite_eq (bs := bs) hp
  obtain ⟨b, hb⟩ := unlist_eq (s := s) (pa / 64 * 64) (pa = pa / 64 * 64 && bs.length = 64)
  rw [hb] at ht
  subst ht
  rw [he]
  split
  next hg =>
    obtain ⟨h1, h2, h3, h4⟩ := globalWrite_sameMap (s := { s with bad := b }) (pa := pa) (bs := bs) hw
    exact ⟨⟨h1, h2, h3, h4⟩, globalWrite_byteAt (s := { s with bad := b }) hm hi hg hw ha⟩
  next hg =>
    exact ⟨⟨rfl, rfl, rfl, rfl⟩, memPut_byteAt (s := { s with bad := b }) hm hi (fun h => absurd h hg) hp.backed ha⟩

/-- Settles O25: the home's bytes before and after, byte by byte. -/
theorem homeReadsBack : Obligations.HomeReadsBack := by
  intro s pa a bs hm hrp hra htp hta hap haa hw hlp hla hi
  have hpa : s.Plain pa := ⟨hrp, htp, hap, hlp⟩
  have ha : s.Plain a := ⟨hra, hta, haa, hla⟩
  obtain ⟨hsame, hbyte⟩ := homeWrite_byteAt hm hpa hi hw hra
  rw [homeRead_byte (hsame.plain ha), homeRead_byte ha, hbyte, written]
  cases bs.find? fun b => pa + b.1 = a <;> rfl

end Sys2Proof.Machine
end


section
/-! What the homes and a hamlet's copies may change of a state: memory and its lists, the copies, and the records that an access
causes; never a core, a message, or where an address lies (05 R122 to R134). -/

namespace Sys2Proof.Machine

variable {s t u : State} {h line pa : Nat} {bs : List (Nat × Byte)}

/-- The hub as records and requests of CXL lines leave it. -/
def Hub.Recorded (x y : Hub) : Prop :=
  ∃ ep el ir ms rp rn cp, y = { x with errPos := ep, errLost := el, irqs := ir, msis := ms, reports := rp, reportNo := rn, cxlPend := cp }

/-- A hamlet with other copies. -/
def Hamlet.Copies (x y : Hamlet) : Prop := ∃ l w, y = { x with lines := l, winLines := w }

/-- `t` is `s` but for the bytes of memory, the copies of one hamlet or another, and records. -/
structure State.HomeOnly (s t : State) : Prop where
  eq : ∃ hamlets mem full zeros ways tainted scales bad launches hub agenda free, t = { s with
    hamlets := hamlets, mem := mem, full := full, zeros := zeros, ways := ways, tainted := tainted, scales := scales, bad := bad,
    launches := launches, hub := hub, agenda := agenda, free := free }
  hub : s.hub.Recorded t.hub
  ham : ∀ h, (s.ham h).Copies (t.ham h)

theorem Hub.Recorded.refl (x : Hub) : x.Recorded x := ⟨_, _, _, _, _, _, _, rfl⟩

theorem Hub.Recorded.trans {x y z : Hub} (h : x.Recorded y) (h' : y.Recorded z) : x.Recorded z := by
  obtain ⟨_, _, _, _, _, _, _, rfl⟩ := h
  obtain ⟨_, _, _, _, _, _, _, rfl⟩ := h'
  exact ⟨_, _, _, _, _, _, _, rfl⟩

theorem Hamlet.Copies.refl (x : Hamlet) : x.Copies x := ⟨_, _, rfl⟩

theorem Hamlet.Copies.trans {x y z : Hamlet} (h : x.Copies y) (h' : y.Copies z) : x.Copies z := by
  obtain ⟨_, _, rfl⟩ := h
  obtain ⟨_, _, rfl⟩ := h'
  exact ⟨_, _, rfl⟩

namespace State.HomeOnly

theorem refl (s : State) : s.HomeOnly s := ⟨⟨_, _, _, _, _, _, _, _, _, _, _, _, rfl⟩, .refl _, fun _ => .refl _⟩

theorem trans (h : s.HomeOnly t) (h' : t.HomeOnly u) : s.HomeOnly u := by
  refine ⟨?_, h.hub.trans h'.hub, fun k => (h.ham k).trans (h'.ham k)⟩
  obtain ⟨_, _, _, _, _, _, _, _, _, _, _, _, rfl⟩ := h.eq
  obtain ⟨_, _, _, _, _, _, _, _, _, _, _, _, rfl⟩ := h'.eq
  exact ⟨_, _, _, _, _, _, _, _, _, _, _, _, rfl⟩

theorem cores (h : s.HomeOnly t) : t.cores = s.cores := by obtain ⟨_, _, _, _, _, _, _, _, _, _, _, _, rfl⟩ := h.eq; rfl
theorem flight (h : s.HomeOnly t) : t.flight = s.flight := by obtain ⟨_, _, _, _, _, _, _, _, _, _, _, _, rfl⟩ := h.eq; rfl
theorem pkgid (h : s.HomeOnly t) : t.pkgid = s.pkgid := by obtain ⟨_, _, _, _, _, _, _, _, _, _, _, _, rfl⟩ := h.eq; rfl
theorem peers (h : s.HomeOnly t) : t.peers = s.peers := by obtain ⟨_, _, _, _, _, _, _, _, _, _, _, _, rfl⟩ := h.eq; rfl
theorem ranges (h : s.HomeOnly t) : t.ranges = s.ranges := by obtain ⟨_, _, _, _, _, _, _, _, _, _, _, _, rfl⟩ := h.eq; rfl
theorem forwards (h : s.HomeOnly t) : t.forwards = s.forwards := by obtain ⟨_, _, _, _, _, _, _, _, _, _, _, _, rfl⟩ := h.eq; rfl
theorem curCore (h : s.HomeOnly t) : t.curCore = s.curCore := by obtain ⟨_, _, _, _, _, _, _, _, _, _, _, _, rfl⟩ := h.eq; rfl
theorem curCtx (h : s.HomeOnly t) : t.curCtx = s.curCtx := by obtain ⟨_, _, _, _, _, _, _, _, _, _, _, _, rfl⟩ := h.eq; rfl
theorem seqno (h : s.HomeOnly t) : t.seqno = s.seqno := by obtain ⟨_, _, _, _, _, _, _, _, _, _, _, _, rfl⟩ := h.eq; rfl
theorem cycle (h : s.HomeOnly t) : t.cycle = s.cycle := by obtain ⟨_, _, _, _, _, _, _, _, _, _, _, _, rfl⟩ := h.eq; rfl
theorem stopped (h : s.HomeOnly t) : t.stopped = s.stopped := by obtain ⟨_, _, _, _, _, _, _, _, _, _, _, _, rfl⟩ := h.eq; rfl

theorem core (h : s.HomeOnly t) (c : Nat) : t.core c = s.core c := by rw [State.core, h.cores]; rfl
theorem ctx (h : s.HomeOnly t) (c k : Nat) : t.ctx c k = s.ctx c k := by rw [State.ctx, h.core]; rfl
theorem me (h : s.HomeOnly t) : t.me = s.me := by rw [State.me, h.curCore, h.curCtx, h.ctx]; rfl
theorem sent (h : s.HomeOnly t) (k : Nat) : (t.ham k).sent = (s.ham k).sent := by obtain ⟨_, _, e⟩ := h.ham k; rw [e]
theorem seq (h : s.HomeOnly t) (k : Nat) : (t.ham k).seq = (s.ham k).seq := by obtain ⟨_, _, e⟩ := h.ham k; rw [e]
theorem windows (h : s.HomeOnly t) (k : Nat) : (t.ham k).windows = (s.ham k).windows := by obtain ⟨_, _, e⟩ := h.ham k; rw [e]

/-- Addresses lie where they lay. -/
theorem region (h : s.HomeOnly t) (a : Nat) : t.region a = s.region a := by
  obtain ⟨_, _, _, _, _, _, _, e⟩ := h.hub
  have hr : t.region a = ({ s with hub := t.hub } : State).region a := rfl
  rw [hr, e]
  rfl

/-- A fold of such changes. -/
theorem foldl {α : Type} {f : State → α → State} (hf : ∀ (s : State) a, s.HomeOnly (f s a)) (l : List α) (s : State) :
    s.HomeOnly (l.foldl f s) := by
  induction l generalizing s with
  | nil => exact .refl s
  | cons a l ih => exact (hf s a).trans (ih _)

end State.HomeOnly

/-! ### What each step does -/

/-- A change of memory and its lists alone. -/
theorem homeOnly_lists (mem : List Host.Cell) (full zeros ways tainted bad : List Nat) (scales : Map Row) (free : Nat) :
    s.HomeOnly { s with mem := mem, full := full, zeros := zeros, ways := ways, tainted := tainted, bad := bad,
                        scales := scales, free := free } :=
  ⟨⟨_, _, _, _, _, _, _, _, _, _, _, _, rfl⟩, .refl _, fun _ => .refl _⟩

/-- The copies of a hamlet replaced. -/
theorem setHam_homeOnly (h : Nat) (l : Map Line) (w : Map WinLine) :
    s.HomeOnly (s.setHam h { s.ham h with lines := l, winLines := w }) := by
  refine ⟨⟨_, _, _, _, _, _, _, _, _, _, _, _, rfl⟩, .refl _, fun k => ?_⟩
  by_cases hk : k = h
  · subst hk; rw [setHam_ham_same]; exact ⟨_, _, rfl⟩
  · rw [setHam_ham_other (hg := hk)]; exact .refl _

theorem owe_homeOnly (i : Instr) : s.HomeOnly (s.owe i) :=
  ⟨⟨_, _, _, _, _, _, _, _, _, _, _, _, rfl⟩, .refl _, fun _ => .refl _⟩

theorem oweOnce_homeOnly (i : Instr) : s.HomeOnly (s.oweOnce i) := by
  unfold State.oweOnce
  split
  · exact .refl s
  · exact owe_homeOnly i

/-- A change of the records and of memory. -/
theorem recorded_homeOnly {hub : Hub} (mem : List Host.Cell) (launches : List Launch) (hh : s.hub.Recorded hub) :
    s.HomeOnly { s with mem := mem, launches := launches, hub := hub } :=
  ⟨⟨_, _, _, _, _, _, _, _, _, _, _, _, rfl⟩, hh, fun _ => .refl _⟩

theorem putRecord_homeOnly (e : ErrRec) (r : Row) (l : List Byte) : s.HomeOnly (s.putRecord e r l) :=
  recorded_homeOnly _ _ ⟨_, _, _, _, _, _, _, rfl⟩

theorem record_homeOnly (e : ErrRec) : s.HomeOnly (s.record e) := by
  unfold State.record
  dsimp only
  split
  · exact recorded_homeOnly _ _ ⟨_, _, _, _, _, _, _, rfl⟩
  · exact putRecord_homeOnly _ _ _

theorem noteUnbacked_homeOnly (c : Nat) : s.HomeOnly (s.noteUnbacked c pa) := by
  unfold State.noteUnbacked
  split
  · exact record_homeOnly _
  · exact .refl s

theorem cxlAsk_homeOnly (w : Bool) (q : Word) : s.HomeOnly (s.cxlAsk line w q) := by
  unfold State.cxlAsk
  split
  · exact .refl s
  · exact (recorded_homeOnly s.mem s.launches ⟨_, _, _, _, _, _, _, rfl⟩).trans (oweOnce_homeOnly _)

theorem evictScales_homeOnly : s.HomeOnly (s.evictScales line) := by
  unfold State.evictScales
  split
  · exact (homeOnly_lists _ _ _ _ _ _ _ _).trans (.foldl (fun _ _ => record_homeOnly _) _ _)
  · exact .refl s

theorem leaveWay_homeOnly : s.HomeOnly (s.leaveWay line) := evictScales_homeOnly.trans (homeOnly_lists _ _ _ _ _ _ _ _)

theorem wayRoom_homeOnly (held : List Nat) : s.HomeOnly (s.wayRoom held) := by
  unfold State.wayRoom
  split
  · exact leaveWay_homeOnly.trans (homeOnly_lists _ _ _ _ _ _ _ _)
  · exact .refl s

theorem takeWay_homeOnly : s.HomeOnly (s.takeWay line) := by
  unfold State.takeWay
  dsimp only
  split
  · exact .refl s
  · split
    · exact homeOnly_lists _ _ _ _ _ _ _ _
    · exact (wayRoom_homeOnly _).trans (homeOnly_lists _ _ _ _ _ _ _ _)

theorem lineIn_homeOnly : s.HomeOnly (s.lineIn line) := by
  unfold State.lineIn
  split
  · exact .refl s
  · exact takeWay_homeOnly

theorem zeroLine_homeOnly : s.HomeOnly (s.zeroLine line) := by
  unfold State.zeroLine
  dsimp only
  split
  · exact homeOnly_lists _ _ _ _ _ _ _ _
  · refine .trans ?_ (homeOnly_lists _ _ _ _ _ _ _ _)
    unfold State.zeroRoom
    split
    · exact homeOnly_lists _ _ _ _ _ _ _ _
    · exact .refl s

theorem unlist_homeOnly (c : Bool) : s.HomeOnly (s.unlist line c) := by
  obtain ⟨b, e⟩ := unlist_eq (s := s) line c
  rw [e]
  exact homeOnly_lists _ _ _ _ _ _ _ _

theorem homeWrite_homeOnly : s.HomeOnly (s.homeWrite pa bs) := by
  have hput : ∀ t : State, t.HomeOnly { t with mem := memPut t.mem pa bs } := fun t => homeOnly_lists _ _ _ _ _ _ _ _
  unfold State.homeWrite
  dsimp only
  split
  · exact .refl s
  · split
    · exact homeOnly_lists _ _ _ _ _ _ _ _
    · exact (unlist_homeOnly _).trans (hput _)
  all_goals first
    | exact (unlist_homeOnly _).trans (hput _)
    | (refine (unlist_homeOnly (line := pa / 64 * 64) (pa = pa / 64 * 64 && bs.length = 64)).trans ?_
       split
       · exact takeWay_homeOnly.trans (homeOnly_lists _ _ _ _ _ _ _ _)
       · split
         · exact zeroLine_homeOnly
         · split
           · exact takeWay_homeOnly.trans (homeOnly_lists _ _ _ _ _ _ _ _)
           · exact takeWay_homeOnly.trans (hput _))

theorem homePut_homeOnly : s.HomeOnly (s.homePut pa bs) := .foldl (fun _ _ => homeWrite_homeOnly) _ _

theorem setLine_homeOnly (l : Line) : s.HomeOnly (s.setLine h line l) := setHam_homeOnly _ _ _

theorem dropLine_homeOnly : s.HomeOnly (s.dropLine h line) := setHam_homeOnly _ _ _

theorem writeBack_homeOnly : s.HomeOnly (s.writeBack h line) := by
  unfold State.writeBack
  split
  · exact .refl s
  · split
    · exact .refl s
    · split
      · exact (setHam_homeOnly _ _ _).trans (cxlAsk_homeOnly _ _)
      · exact homeWrite_homeOnly.trans (setHam_homeOnly _ _ _)

theorem writeBackWin_homeOnly (key : Nat) : s.HomeOnly (s.writeBackWin h key) := by
  unfold State.writeBackWin
  dsimp only
  split
  · split
    · exact .refl s
    · split
      · exact .refl s
      · refine .trans ?_ (setHam_homeOnly _ _ _)
        split
        · exact cxlAsk_homeOnly _ _
        · exact (noteUnbacked_homeOnly _).trans homeWrite_homeOnly
  · exact .refl s

theorem backLine_homeOnly : s.HomeOnly (s.backLine h line) :=
  writeBack_homeOnly.trans (.foldl (fun _ _ => writeBackWin_homeOnly _) _ _)

theorem giveLine_homeOnly : s.HomeOnly (s.giveLine h line) := backLine_homeOnly.trans dropLine_homeOnly

theorem writeBackAll_homeOnly : s.HomeOnly (s.writeBackAll h) :=
  (State.HomeOnly.foldl (fun _ _ => writeBack_homeOnly) _ _).trans (.foldl (fun _ _ => writeBackWin_homeOnly _) _ _)

theorem release_homeOnly (sc : Scope) : s.HomeOnly (s.release sc) := by
  unfold State.release
  split
  · exact writeBackAll_homeOnly
  · exact .refl s

theorem acquire_homeOnly (sc : Scope) : s.HomeOnly (s.acquire sc) := by
  unfold State.acquire
  split
  · exact setHam_homeOnly _ _ _
  · exact .refl s

theorem leaveL1_homeOnly (c : Nat) : s.HomeOnly (s.leaveL1 c line) := by
  unfold State.leaveL1
  dsimp only
  refine writeBack_homeOnly.trans (t := s.writeBack (hamOf c) line) ?_
  split
  · exact .refl _
  · split
    · exact dropLine_homeOnly
    · exact setLine_homeOnly _

theorem makeRoom_homeOnly (c : Nat) : s.HomeOnly (s.makeRoom c line) := by
  unfold State.makeRoom
  dsimp only
  split
  · exact .refl s
  · split
    · exact (leaveL1_homeOnly c).trans (homeOnly_lists _ _ _ _ _ _ _ _)
    · exact .refl s

theorem putLine_homeOnly (c : Nat) (l : Line) (alone : Bool) : s.HomeOnly (s.putLine c line l alone) :=
  (makeRoom_homeOnly c).trans (setLine_homeOnly _)

theorem shareL1_homeOnly : s.HomeOnly (s.shareL1 h pa bs) := by
  unfold State.shareL1
  split
  · exact .refl s
  · exact setLine_homeOnly _

theorem shareWin_homeOnly (skip : Option Nat) : s.HomeOnly (s.shareWin h pa bs skip) := by
  unfold State.shareWin
  split
  · exact .refl s
  · exact .foldl (fun t key => (homeOnly_lists (s := t) _ _ _ _ _ _ _ _).trans (setHam_homeOnly _ _ _)) _ _

theorem setFull_homeOnly (b : Bool) : s.HomeOnly (s.setFull pa b) := homeOnly_lists _ _ _ _ _ _ _ _

theorem fillWindow_homeOnly (st : Nat) (d : BitVec 128) : s.HomeOnly (s.fillWindow h st pa d) := by
  have hin : s.HomeOnly ((s.noteUnbacked (8 * h) (pa / 64 * 64)).lineIn (pa / 64 * 64)) :=
    (noteUnbacked_homeOnly _).trans lineIn_homeOnly
  unfold State.fillWindow
  dsimp only
  split
  · split
    · exact .refl s
    · exact hin.trans ((homeOnly_lists _ _ _ _ _ _ _ _).trans (setHam_homeOnly _ _ _))
  · refine State.HomeOnly.trans (t := if d.getLsbD 11 = true then s
      else (s.noteUnbacked (8 * h) (pa / 64 * 64)).lineIn (pa / 64 * 64)) ?_ ?_
    · split
      · exact .refl s
      · exact hin
    · exact ((homeOnly_lists _ _ _ _ _ _ _ _).trans (.foldl (fun _ _ => setFull_homeOnly _) _ _)).trans (setHam_homeOnly _ _ _)

theorem readPlace_homeOnly (c : Nat) (p : Place) (n : Nat) (l1 st : Bool) : s.HomeOnly (s.readPlace c p n l1 st).2 := by
  unfold State.readPlace
  cases p with
  | near | far | foreign => exact .refl s
  | window stash pa d => exact fillWindow_homeOnly _ _
  | global pa device =>
    have hput : ∀ (t : State) (l : Line),
        t.HomeOnly (if l1 && !l.heldBy c then t.putLine c (pa / 64 * 64) l false else t) := fun t l => by
      split
      · exact putLine_homeOnly _ _ _
      · exact .refl t
    have hfill : ∀ (t : State) (l : Line) (x : List Byte),
        t.HomeOnly (if l1 && !device && (t.region pa).global then (x, (t.lineIn (pa / 64 * 64)).putLine c (pa / 64 * 64) l false)
          else (x, t)).2 := fun t l x => by
      split
      · exact lineIn_homeOnly.trans (putLine_homeOnly _ _ _)
      · exact .refl t
    dsimp only
    split
    · split
      · exact hput s _
      · exact (lineIn_homeOnly.trans (setLine_homeOnly _)).trans (hput _ _)
    · split
      · exact (record_homeOnly _).trans (hfill _ _ _)
      · exact hfill s _ _

theorem writePlace_homeOnly (c : Nat) (p : Place) (st : Bool) : s.HomeOnly (s.writePlace c p bs st) := by
  unfold State.writePlace
  cases p with
  | near => exact homeWrite_homeOnly
  | far | foreign => exact .refl s
  | window stash pa d =>
    dsimp only
    refine (fillWindow_homeOnly (h := hamOf c) (pa := pa) stash d).trans ?_
    refine .trans ?_ (shareL1_homeOnly.trans (shareWin_homeOnly _))
    exact (homeOnly_lists _ _ _ _ _ _ _ _).trans (setHam_homeOnly _ _ _)
  | global pa d =>
    dsimp only
    split
    · exact record_homeOnly _
    · refine State.HomeOnly.trans ?_ ((putLine_homeOnly _ _ _).trans (shareWin_homeOnly _))
      split
      · exact .refl s
      · exact lineIn_homeOnly

end Sys2Proof.Machine
end


section
/-! Resolving an address changes the TLBs, and of memory the accessed and dirty bits of a leaf (05 R139, R140). -/

namespace Sys2Proof.Machine

variable {s t u : State} {c k pa : Nat} {bs : List (Nat × Byte)}

/-- What a write to a home leaves of the hamlets: all of them. -/
theorem putRecord_hamlets (e : ErrRec) (r : Row) (l : List Byte) : (s.putRecord e r l).hamlets = s.hamlets := rfl

theorem record_hamlets (e : ErrRec) : (s.record e).hamlets = s.hamlets := by
  unfold State.record
  dsimp only
  split
  · rfl
  · exact putRecord_hamlets _ _ _

theorem foldl_hamlets {α : Type} (f : State → α → State) (hf : ∀ t a, (f t a).hamlets = t.hamlets) (l : List α) (s : State) :
    (l.foldl f s).hamlets = s.hamlets := by
  induction l generalizing s with
  | nil => rfl
  | cons a l ih => rw [List.foldl_cons, ih, hf]

theorem evictScales_hamlets (line : Nat) : (s.evictScales line).hamlets = s.hamlets := by
  unfold State.evictScales
  split
  · exact foldl_hamlets _ (fun _ _ => record_hamlets _) _ _
  · rfl

theorem wayRoom_hamlets (held : List Nat) : (s.wayRoom held).hamlets = s.hamlets := by
  unfold State.wayRoom
  split
  · exact evictScales_hamlets _
  · rfl

theorem takeWay_hamlets (line : Nat) : (s.takeWay line).hamlets = s.hamlets := by
  unfold State.takeWay
  dsimp only
  split
  · rfl
  · split
    · rfl
    · exact wayRoom_hamlets _

theorem zeroLine_hamlets (line : Nat) : (s.zeroLine line).hamlets = s.hamlets := by
  unfold State.zeroLine
  dsimp only
  split
  · rfl
  · exact (zeroRoom_sameMap _).hamlets

theorem unlist_hamlets (line : Nat) (x : Bool) : (s.unlist line x).hamlets = s.hamlets := by cases x <;> rfl

theorem homeWrite_hamlets : (s.homeWrite pa bs).hamlets = s.hamlets := by
  unfold State.homeWrite
  dsimp only
  split
  · rfl
  · split
    · rfl
    · exact unlist_hamlets _ _
  all_goals first
    | exact unlist_hamlets _ _
    | (refine Eq.trans ?_ (unlist_hamlets (s := s) (pa / 64 * 64) (pa = pa / 64 * 64 && bs.length = 64))
       split
       · exact takeWay_hamlets _
       · split
         · exact zeroLine_hamlets _
         · split <;> exact takeWay_hamlets _)

/-- `t` is `s` but for TLBs, memory and its lists, records, and forwarders that no longer stand. -/
structure State.TlbOnly (s t : State) : Prop where
  eq : ∃ cores hamlets mem full zeros ways tainted scales bad launches hub agenda free forwards, t = { s with
    cores := cores, hamlets := hamlets, mem := mem, full := full, zeros := zeros, ways := ways, tainted := tainted,
    scales := scales, bad := bad, launches := launches, hub := hub, agenda := agenda, free := free, forwards := forwards }
  hub : s.hub.Recorded t.hub
  core : ∀ c, ∃ l, t.core c = { s.core c with tlb := l }
  ham : ∀ h, ∃ l, t.ham h = { s.ham h with tlb := l }

namespace State.TlbOnly

theorem refl (s : State) : s.TlbOnly s :=
  ⟨⟨_, _, _, _, _, _, _, _, _, _, _, _, _, _, rfl⟩, .refl _, fun _ => ⟨_, rfl⟩, fun _ => ⟨_, rfl⟩⟩

theorem trans (h : s.TlbOnly t) (h' : t.TlbOnly u) : s.TlbOnly u := by
  refine ⟨?_, h.hub.trans h'.hub, fun c => ?_, fun k => ?_⟩
  · obtain ⟨_, _, _, _, _, _, _, _, _, _, _, _, _, _, rfl⟩ := h.eq
    obtain ⟨_, _, _, _, _, _, _, _, _, _, _, _, _, _, rfl⟩ := h'.eq
    exact ⟨_, _, _, _, _, _, _, _, _, _, _, _, _, _, rfl⟩
  · obtain ⟨l, e⟩ := h.core c
    obtain ⟨l', e'⟩ := h'.core c
    exact ⟨l', by rw [e', e]⟩
  · obtain ⟨l, e⟩ := h.ham k
    obtain ⟨l', e'⟩ := h'.ham k
    exact ⟨l', by rw [e', e]⟩

theorem flight (h : s.TlbOnly t) : t.flight = s.flight := by
  obtain ⟨_, _, _, _, _, _, _, _, _, _, _, _, _, _, e⟩ := h.eq; rw [e]
theorem pkgid (h : s.TlbOnly t) : t.pkgid = s.pkgid := by
  obtain ⟨_, _, _, _, _, _, _, _, _, _, _, _, _, _, e⟩ := h.eq; rw [e]
theorem curCore (h : s.TlbOnly t) : t.curCore = s.curCore := by
  obtain ⟨_, _, _, _, _, _, _, _, _, _, _, _, _, _, e⟩ := h.eq; rw [e]
theorem curCtx (h : s.TlbOnly t) : t.curCtx = s.curCtx := by
  obtain ⟨_, _, _, _, _, _, _, _, _, _, _, _, _, _, e⟩ := h.eq; rw [e]

theorem ctx (h : s.TlbOnly t) (c k : Nat) : t.ctx c k = s.ctx c k := by
  obtain ⟨l, e⟩ := h.core c
  rw [State.ctx, e]
  rfl

theorem me (h : s.TlbOnly t) : t.me = s.me := by rw [State.me, h.curCore, h.curCtx, h.ctx]; rfl

theorem replay (h : s.TlbOnly t) : t.myCore.replay = s.myCore.replay := by
  obtain ⟨l, e⟩ := h.core s.curCore
  rw [State.myCore, h.curCore, e]
  rfl

theorem queueGone (h : s.TlbOnly t) : t.queueGone = s.queueGone := by
  rw [State.queueGone, State.queueGone, h.replay, h.curCtx]

end State.TlbOnly

theorem homeWrite_tlbOnly : s.TlbOnly (s.homeWrite pa bs) := by
  have h := homeWrite_homeOnly (s := s) (pa := pa) (bs := bs)
  refine ⟨?_, h.hub, fun c => ⟨_, h.core c⟩, fun k => ⟨(s.ham k).tlb, ?_⟩⟩
  · obtain ⟨_, _, _, _, _, _, _, _, _, _, _, _, e⟩ := h.eq
    rw [e]
    exact ⟨_, _, _, _, _, _, _, _, _, _, _, _, _, _, rfl⟩
  · rw [State.ham, homeWrite_hamlets]
    rfl

theorem setCore_tlbOnly (l : List Tlb) : s.TlbOnly (s.setCore c { s.core c with tlb := l }) := by
  refine ⟨⟨_, _, _, _, _, _, _, _, _, _, _, _, _, _, rfl⟩, .refl _, fun d => ?_, fun _ => ⟨_, rfl⟩⟩
  by_cases hd : d = c
  · subst hd; exact ⟨l, setCore_core_same _ _ _⟩
  · exact ⟨(s.core d).tlb, setCore_core_other _ _ _ hd⟩

theorem setHam_tlbOnly (h : Nat) (l : List Tlb) : s.TlbOnly (s.setHam h { s.ham h with tlb := l }) := by
  refine ⟨⟨_, _, _, _, _, _, _, _, _, _, _, _, _, _, rfl⟩, .refl _, fun _ => ⟨_, rfl⟩, fun k => ?_⟩
  by_cases hk : k = h
  · subst hk; exact ⟨l, setHam_ham_same _ _ _⟩
  · exact ⟨(s.ham k).tlb, setHam_ham_other _ _ _ hk⟩

theorem reuse_tlbOnly (e : Tlb) : s.TlbOnly (s.reuse e) := by
  unfold State.reuse
  split
  · exact .refl s
  · exact ⟨⟨_, _, _, _, _, _, _, _, _, _, _, _, _, _, rfl⟩, .refl _, fun _ => ⟨_, rfl⟩, fun _ => ⟨_, rfl⟩⟩

theorem setAD_tlbOnly (e : Tlb) (w : Bool) : s.TlbOnly (s.setAD e w) := by
  unfold State.setAD
  dsimp only
  generalize (memGet s.mem (e.entry + 1) ||| if w = true then (3 : Byte) else 1) = v
  split
  · exact .refl s
  · exact homeWrite_tlbOnly

theorem useLeaf_tlbOnly (e : Tlb) (w : Bool) : s.TlbOnly (s.useLeaf c e w) := by
  unfold State.useLeaf
  dsimp only
  split
  · exact .refl s
  · exact (((reuse_tlbOnly e).trans (setAD_tlbOnly e w)).trans (setCore_tlbOnly _)).trans (setHam_tlbOnly _ _)

theorem translateLeaf_tlbOnly {root : Word} {va : Nat} {write : Bool} {e : Tlb}
    (h : s.translateLeaf c root va write = .ok (e, t)) : s.TlbOnly t := by
  unfold State.translateLeaf at h
  dsimp only at h
  split at h
  · cases h; exact .refl s
  · split at h
    · cases h; exact setCore_tlbOnly _
    · split at h
      · cases h; exact .refl s
      · cases h

theorem resolveFor_tlbOnly {root va : Word} {q : Priv} {kind : Access} {p : Place}
    (h : s.resolveFor c k root q va kind = .ok (p, t)) : s.TlbOnly t := by
  unfold State.resolveFor at h
  dsimp only at h
  split at h
  · cases h
  · split at h
    · split at h
      · cases h
      · split at h
        · cases h; exact .refl s
        · cases h
    · split at h
      · cases h
      · cases h
      · cases h
      next e v hv =>
        split at h
        · cases h
        · cases h
        · have hu := (translateLeaf_tlbOnly hv).trans (useLeaf_tlbOnly (c := c) e (kind = .write || kind = .atomic))
          generalize v.useLeaf c e (kind = .write || kind = .atomic) = w at h hu
          generalize (if e.pkg = w.pkgid then w.forwarded (e.pbase + va.toNat % 2 ^ e.bits)
            else e.pbase + va.toNat % 2 ^ e.bits) = pa at h
          split at h
          · cases h
          · split at h
            · cases h; exact hu
            · split at h <;> (cases h; exact hu)

theorem resolveFor_of_resolve {va : Word} {kind : Access} {r : Place × State} (h : s.resolve va kind = .ok r) :
    s.resolveFor s.curCore s.curCtx s.me.tblroot s.me.priv va kind = .ok r := by
  unfold State.resolve at h
  split at h
  · cases h
  · split at h
    next q hq => cases h; exact hq
    next => cases h

theorem resolve_tlbOnly {va : Word} {kind : Access} {p : Place} (h : s.resolve va kind = .ok (p, t)) : s.TlbOnly t :=
  resolveFor_tlbOnly (resolveFor_of_resolve h)

end Sys2Proof.Machine
end


section
/-! A store of bytes that lie one after the other within a line (08 R216). -/

namespace Sys2Proof.Machine

variable {s t u w : State} {ea : Word} {p : Place} {l : List Byte} {how : How}

/-! ### The offsets of listed bytes -/

theorem offsets_length : (offsets l).length = l.length := by simp [offsets]

theorem offset_lt {b : Nat × Byte} (h : b ∈ offsets l) : b.1 < l.length := by
  simp only [offsets, List.mem_map] at h
  obtain ⟨⟨x, i⟩, hx, rfl⟩ := h
  have := List.snd_lt_of_mem_zipIdx hx
  simpa using this

theorem partBytes_offsets : partBytes (offsets l) 0 l.length = offsets l := by
  have hf : (offsets l).filter (fun b => 0 ≤ b.1 && b.1 < 0 + l.length) = offsets l := by
    refine List.filter_eq_self.mpr fun b hb => ?_
    have := offset_lt hb
    simp [this]
  rw [partBytes, hf]
  simp

theorem span_offsets (hl : l ≠ []) : ({ place := p, bytes := offsets l } : Write).span = l.length := by
  have hp := List.length_pos_iff.mpr hl
  have h : (offsets l).getLast? = some (l.length - 1, l[l.length - 1]'(by omega)) := by
    rw [List.getLast?_eq_getElem?, offsets_length]
    simp [offsets]
  rw [Write.span, h]
  dsimp only
  omega

/-! ### One store, in one part -/

/-- A store of bytes one after the other, from an address on. -/
def oneStore (ea : Word) (l : List Byte) : StoreOne := { va := ea, n := l.length, bytes := offsets l, info := ea }

theorem oneStore_cut (hl : l ≠ []) (hn : ea.toNat % 64 + l.length ≤ 64) : (oneStore ea l).cut = [(0, l.length)] := by
  have ho : (offsets l).isEmpty = false := by
    rw [List.isEmpty_eq_false_iff, ← List.length_pos_iff, offsets_length]
    exact List.length_pos_iff.mpr hl
  unfold StoreOne.cut oneStore parts
  dsimp only
  rw [if_pos (by omega), List.filter_cons, partBytes_offsets, ho]
  rfl

theorem writable_all (h : s.queueGone = true) (x : StoreOne) (got : List Part) : s.writable x got = got := by
  refine List.filter_eq_self.mpr fun q _ => ?_
  simp only [Bool.not_eq_true', List.any_eq_false]
  intro r hr
  have := List.all_eq_true.mp h r hr
  simp only [decide_eq_true_eq] at this
  simp [this]

theorem unqueued_gone (h : s.queueGone = true) : s.unqueued = s := by rw [State.unqueued, if_pos h]

theorem resolveParts_one {n : Nat} {r : Place × State} (hr : s.resolve ea .write = .ok r) :
    s.resolveParts s.me.tblroot s.me.priv ea .write [(0, n)] = ([{ off := 0, n := n, place := r.1 }], [], r.2) := by
  have h0 : ea + BitVec.ofNat 64 0 = ea := by bv_omega
  simp only [State.resolveParts, List.foldl_cons, List.foldl_nil, h0, resolveFor_of_resolve hr, List.nil_append]

section
variable (hl : l ≠ []) (hn : ea.toNat % 64 + l.length ≤ 64) (hq : s.queueGone = true) (hr : s.resolve ea .write = .ok (p, w))
include hl hn hq hr

theorem writesOf_one : s.writesOf s.me.tblroot s.me.priv [oneStore ea l] false = ([{ place := p, bytes := offsets l }], w) := by
  have hw : w.queueGone = true := by rw [(resolve_tlbOnly hr).queueGone, hq]
  have hc := oneStore_cut hl hn
  have hv : (oneStore ea l).va = ea := rfl
  have hb : (oneStore ea l).bytes = offsets l := rfl
  simp [State.writesOf, hc, hv, hb, resolveParts_one hr, writable_all hw, partBytes_offsets]

theorem queueEach_one (k : State → Act) :
    State.queueEach s.me.tblroot s.me.priv how k [oneStore ea l] s = k s := by
  have hc := oneStore_cut hl hn
  have hv : (oneStore ea l).va = ea := rfl
  simp [State.queueEach, State.queueItem, hc, hv, resolveParts_one hr, writable_all hq]

/-- A store within a line, at an address that resolves: it waits, or its bytes are put where they go. -/
theorem storeItems_one (hf : s.fillBad s.curCore p = none) (h32 : s.myCore.replay.length ≤ 32) (k : State → Act) :
    s.storeItems s.me.tblroot s.me.priv [oneStore ea l] how false k =
      match s.writeStuck { place := p, bytes := offsets l } how.post how.wide with
      | some line => .hold (s.cxlAsk line false 0)
      | none =>
        if s.storeHeld p l.length how.post how.wide || s.countsFull [p] how.post how.wide then .hold s
        else k (w.putPart p (offsets l) how.post how.wide how.stream) := by
  have hc := oneStore_cut hl hn
  have hv : (oneStore ea l).va = ea := rfl
  have hs := span_offsets (p := p) hl
  unfold State.storeItems
  simp only [List.map_cons, List.map_nil, hc, hv, resolveParts_one hr, writesOf_one hl hn hq hr, List.flatMap_cons,
    List.flatMap_nil, List.append_nil, List.filterMap_cons, List.filterMap_nil, hf, Option.map_none]
  rw [show worst [] = none from rfl]
  have h0 : ¬ 32 < s.myCore.replay.length := by omega
  simp only [List.findSome?_cons, List.findSome?_nil, List.any_cons, List.any_nil, Bool.or_false, hs, writable_all hq,
    List.filter_cons, List.filter_nil, List.length_singleton, hc, queueEach_one hl hn hq hr, writesOf_one hl hn hq hr,
    List.foldl_cons, List.foldl_nil]
  cases s.writeStuck { place := p, bytes := offsets l } how.post how.wide <;> simp [h0]

end

/-! ### The instruction -/

/-- What ST does once its address is in order. -/
def storeGo (ea : Word) (l : List Byte) (o : Ops) (u : State) : Act :=
  u.storeItems u.me.tblroot u.me.priv [oneStore ea l] (howOf o) false .done

theorem stBytes_pos (t : StTy) : 0 < stBytes t := by cases t <;> decide

theorem storeGo_not_trap {o : Ops} (hl : l ≠ []) (hn : ea.toNat % 64 + l.length ≤ 64) (hq : s.queueGone = true)
    (hr : s.resolve ea .write = .ok (p, w)) (hf : s.fillBad s.curCore p = none) (h32 : s.myCore.replay.length ≤ 32)
    (c : BitVec 6) (info : Word) : storeGo ea l o s ≠ .trap c info := by
  unfold storeGo
  rw [storeItems_one hl hn hq hr hf h32]
  split
  · simp
  · split <;> simp

/-- An instruction with release effects whose own part raises no trap acts once the release has come. -/
theorem released_ready {sc : Scope} {sync : Bool} {k : State → Act} (hk : ∀ c info, k s.unqueued ≠ .trap c info)
    (h : s.releaseReady sc sync = true) : s.released sc sync k = k (s.release sc) := by
  unfold State.released
  split
  next c info hc => exact absurd hc (hk c info)
  next => exact withRelease_ready h

/-! ### What a message leaves -/

/-- `t` is `s` but for a packet that has left for another package, or waits to: ports and peers stand as they stood. -/
structure State.PacketOnly (s t : State) : Prop where
  eq : ∃ held ports peers agenda,
    t = { s with hub := { s.hub with heldOut := held }, ports := ports, peers := peers, agenda := agenda }
  up : ∀ n, (look ({} : Port) t.ports n).up = (look ({} : Port) s.ports n).up
  dead : ∀ n, (look ({} : Peer) t.peers n).dead = (look ({} : Peer) s.peers n).dead

namespace State.PacketOnly

theorem refl (s : State) : s.PacketOnly s := ⟨⟨_, _, _, _, rfl⟩, fun _ => rfl, fun _ => rfl⟩

theorem trans (h : s.PacketOnly t) (h' : t.PacketOnly u) : s.PacketOnly u := by
  refine ⟨?_, fun n => (h'.up n).trans (h.up n), fun n => (h'.dead n).trans (h.dead n)⟩
  obtain ⟨_, _, _, _, rfl⟩ := h.eq
  obtain ⟨_, _, _, _, rfl⟩ := h'.eq
  exact ⟨_, _, _, _, rfl⟩

theorem deadPeer (h : s.PacketOnly t) (pk : BitVec 20) : t.deadPeer pk = s.deadPeer pk := by
  have hm : ∀ o, t.maskFrom o pk = s.maskFrom o pk := by
    intro o
    unfold State.maskFrom
    simp only [h.up]
    obtain ⟨_, _, _, _, e⟩ := h.eq
    rw [e]
  have hp : t.pkgid = s.pkgid := by obtain ⟨_, _, _, _, e⟩ := h.eq; rw [e]
  rw [State.deadPeer, State.deadPeer, State.portMask, State.portMask, hm, hp, h.dead]

end State.PacketOnly

theorem oweOnce_packetOnly (i : Instr) : s.PacketOnly (s.oweOnce i) := by
  unfold State.oweOnce
  split
  · exact .refl s
  · exact ⟨⟨_, _, _, _, rfl⟩, fun _ => rfl, fun _ => rfl⟩

theorem sendFlit_packetOnly (n : Option Nat) : s.PacketOnly (s.sendFlit n) := by
  cases n with
  | none => exact .refl s
  | some n =>
    refine ⟨⟨_, _, _, _, rfl⟩, fun k => ?_, fun _ => rfl⟩
    by_cases hk : k = n
    · subst hk; simp [State.sendFlit, look_put_same]
    · simp [State.sendFlit, look_put_other _ _ _ hk]

/-- A peer that stays as dead or alive as it was. -/
theorem putPeer_packetOnly (n : Nat) (q : Peer) (hq : q.dead = (look ({} : Peer) s.peers n).dead) :
    s.PacketOnly { s with peers := put s.peers n q } := by
  refine ⟨⟨_, _, _, _, rfl⟩, fun _ => rfl, fun k => ?_⟩
  by_cases hk : k = n
  · subst hk; simp [look_put_same, hq]
  · simp [look_put_other _ _ _ hk]

theorem leaves_packetOnly (pk : BitVec 20) (id : Nat) : s.PacketOnly (s.leaves pk id) := by
  unfold State.leaves
  dsimp only
  refine .trans (sendFlit_packetOnly _) (.trans (putPeer_packetOnly _ _ ?_) (oweOnce_packetOnly _))
  rfl

theorem held_packetOnly (l : List (BitVec 20 × Nat)) : s.PacketOnly { s with hub := { s.hub with heldOut := l } } :=
  ⟨⟨_, _, _, _, rfl⟩, fun _ => rfl, fun _ => rfl⟩

theorem numbered_packetOnly (pk : BitVec 20) (id : Nat) : s.PacketOnly (s.numbered pk id) := by
  unfold State.numbered
  split
  · exact (held_packetOnly _).trans (oweOnce_packetOnly _)
  · split
    · exact held_packetOnly _
    · exact leaves_packetOnly pk id

/-- A context that has sent a message, counted as its count says. -/
def Ctx.sentOne (x : Ctx) (cnt : Nat) : Ctx := if cnt = 0 then x else x.setCount cnt (x.count cnt + 1)

theorem Ctx.sentOne_count {x : Ctx} {cnt : Nat} (h : cnt = 1 ∨ cnt = 2 ∨ cnt = 3) :
    (x.sentOne cnt).count cnt = x.count cnt + 1 := by
  obtain rfl | rfl | rfl := h <;> rfl

/-- The message that `send` makes. -/
def State.message (s : State) (pk : BitVec 20) (cnt : Nat) (tagged : Bool) (b : Body) (dev : Bool) : Msg :=
  { id := s.seqno + 1, core := s.curCore, ctx := s.curCtx, pkg := pk, home := if pk = s.pkgid then s.homeOf b.pa else 320,
    cnt := cnt, tag := if tagged then some (s.seqno + 1) else none, body := b, pc := s.me.faultPc, applied := false, dev := dev,
    since := s.cycle.toNat }

/-- `t` is `s` after the acting context has sent a message: the message is in flight and counted (06 R160, 03 R90). -/
structure State.Posted (s t : State) (m : Msg) : Prop where
  eq : ∃ cores hamlets seqno held ports peers agenda, t = { s with
    cores := cores, hamlets := hamlets, seqno := seqno,
    hub := { s.hub with heldOut := held }, ports := ports, peers := peers, agenda := agenda, flight := s.flight ++ [m] }
  me : ∃ q, t.me = { s.me.sentOne m.cnt with devq := q }
  ham : ∀ h, t.ham h = if h = hamOf s.curCore then { s.ham h with sent := (s.ham h).sent + 1 } else s.ham h
  dead : ∀ pk, t.deadPeer pk = s.deadPeer pk

namespace State.Posted
variable {m : Msg} (h : s.Posted t m)
include h

theorem flight : t.flight = s.flight ++ [m] := by obtain ⟨_, _, _, _, _, _, _, e⟩ := h.eq; rw [e]
theorem mem : t.mem = s.mem := by obtain ⟨_, _, _, _, _, _, _, e⟩ := h.eq; rw [e]
theorem pkgid : t.pkgid = s.pkgid := by obtain ⟨_, _, _, _, _, _, _, e⟩ := h.eq; rw [e]
theorem curCore : t.curCore = s.curCore := by obtain ⟨_, _, _, _, _, _, _, e⟩ := h.eq; rw [e]
theorem curCtx : t.curCtx = s.curCtx := by obtain ⟨_, _, _, _, _, _, _, e⟩ := h.eq; rw [e]

theorem sent : (t.ham (hamOf s.curCore)).sent = (s.ham (hamOf s.curCore)).sent + 1 := by rw [h.ham, if_pos rfl]

theorem count (hc : m.cnt = 1 ∨ m.cnt = 2 ∨ m.cnt = 3) : t.me.count m.cnt = s.me.count m.cnt + 1 := by
  obtain ⟨q, e⟩ := h.me
  rw [e, ← Ctx.sentOne_count hc]
  rfl

end State.Posted

/-- The state of a message on its way, before it is handed to its event or its port. -/
def State.sentOff (s : State) (m : Msg) : State :=
  let t : State := if m.cnt = 0 then { s with seqno := s.seqno + 1 }
    else ({ s with seqno := s.seqno + 1 } : State).setMe (s.me.setCount m.cnt (s.me.count m.cnt + 1))
  { t.setMyHam { t.myHam with sent := t.myHam.sent + 1 } with flight := t.flight ++ [m] }

theorem Ctx.sentOne_devq (x : Ctx) (cnt : Nat) : ({ x.sentOne cnt with devq := x.devq } : Ctx) = x.sentOne cnt := by
  unfold Ctx.sentOne Ctx.setCount
  split
  · rfl
  · split
    · rfl
    · split
      · rfl
      · split <;> rfl

theorem sentOff_posted (m : Msg) : s.Posted (s.sentOff m) m := by
  unfold State.sentOff
  have hm : ∀ t : State, t.me = s.me.sentOne m.cnt → t.hamlets = s.hamlets → t.curCore = s.curCore →
      ∀ h, (t.setMyHam { t.myHam with sent := t.myHam.sent + 1 }).ham h =
        if h = hamOf s.curCore then { s.ham h with sent := (s.ham h).sent + 1 } else s.ham h := by
    intro t _ hh hc h
    have hk : ∀ k, t.ham k = s.ham k := fun k => by rw [State.ham, hh]; rfl
    by_cases e : h = hamOf s.curCore
    · subst e
      rw [if_pos rfl, State.setMyHam, State.myHam, hc, setHam_ham_same, hk]
    · rw [if_neg e, State.setMyHam, hc, setHam_ham_other _ _ _ e, hk]
  by_cases hc : m.cnt = 0
  · simp only [hc, if_true]
    refine ⟨⟨_, _, _, _, _, _, _, rfl⟩, ⟨s.me.devq, ?_⟩, hm { s with seqno := s.seqno + 1 } ?_ rfl rfl, fun _ => rfl⟩
    · rw [Ctx.sentOne_devq, hc]; rfl
    · rw [hc]; rfl
  · simp only [hc, if_false]
    have he : (({ s with seqno := s.seqno + 1 } : State).setMe (s.me.setCount m.cnt (s.me.count m.cnt + 1))).me = s.me.sentOne m.cnt := by
      rw [setMe_me, Ctx.sentOne, if_neg hc]
    refine ⟨⟨_, _, _, _, _, _, _, rfl⟩, ⟨s.me.devq, ?_⟩, hm _ he rfl rfl, fun _ => rfl⟩
    rw [Ctx.sentOne_devq]
    exact he

/-- A message that goes on to its event or its port. -/
theorem State.Posted.packet {m : Msg} (h : s.Posted t m) (h' : t.PacketOnly u) : s.Posted u m := by
  have hu : u.cores = t.cores ∧ u.hamlets = t.hamlets ∧ u.curCore = t.curCore ∧ u.curCtx = t.curCtx := by
    obtain ⟨_, _, _, _, rfl⟩ := h'.eq
    exact ⟨rfl, rfl, rfl, rfl⟩
  obtain ⟨hc, hh, h1, h2⟩ := hu
  refine ⟨?_, ?_, fun k => ?_, fun pk => (h'.deadPeer pk).trans (h.dead pk)⟩
  · obtain ⟨_, _, _, _, rfl⟩ := h'.eq
    obtain ⟨_, _, _, _, _, _, _, rfl⟩ := h.eq
    exact ⟨_, _, _, _, _, _, _, rfl⟩
  · obtain ⟨q, e⟩ := h.me
    exact ⟨q, by rw [← e, State.me, State.me, h1, h2, State.ctx, State.ctx, State.core, State.core, hc]⟩
  · rw [← h.ham, State.ham, State.ham, hh]

/-- A message that waits behind the context's accesses to pages of device type (05 R137). -/
theorem State.Posted.behind {m : Msg} (h : s.Posted t m) (q : List (BitVec 20 × Nat)) :
    s.Posted (t.setMe { t.me with devq := q }) m := by
  refine ⟨?_, ?_, h.ham, h.dead⟩
  · obtain ⟨_, _, _, _, _, _, _, rfl⟩ := h.eq
    exact ⟨_, _, _, _, _, _, _, rfl⟩
  · obtain ⟨q', e⟩ := h.me
    exact ⟨q, by rw [setMe_me, e]⟩

theorem owe_packetOnly (i : Instr) : s.PacketOnly (s.owe i) := ⟨⟨_, _, _, _, rfl⟩, fun _ => rfl, fun _ => rfl⟩

/-- A message to a package that is not unreachable. -/
theorem send_eq (pk : BitVec 20) (cnt : Nat) (tagged : Bool) (b : Body) (dev : Bool)
    (hd : pk ≠ s.pkgid → s.deadPeer pk = false) :
    s.send pk cnt tagged b dev =
      let m := s.message pk cnt tagged b dev
      let t := s.sentOff m
      if pk = t.pkgid then (t.owe (t.arrival m.id m.home b), m.id)
      else if (dev && ({ s with seqno := s.seqno + 1 } : State).posting) = true then
        (t.setMe { t.me with devq := t.me.devq ++ [(pk, m.id)] }, m.id)
      else (t.numbered pk m.id, m.id) := by
  have hq : (pk ≠ s.pkgid && s.deadPeer pk) = false := by
    by_cases hp : pk = s.pkgid
    · simp [hp]
    · simp [hd hp]
  unfold State.send
  rw [hq, if_neg (by decide)]
  rfl

/-- What the acting context's message leaves, where its package is not unreachable (06 R160). -/
theorem send_posted (pk : BitVec 20) (cnt : Nat) (tagged : Bool) (b : Body) (dev : Bool)
    (hd : pk ≠ s.pkgid → s.deadPeer pk = false) :
    s.Posted (s.send pk cnt tagged b dev).1 (s.message pk cnt tagged b dev) := by
  have h := sentOff_posted (s := s) (s.message pk cnt tagged b dev)
  rw [send_eq pk cnt tagged b dev hd]
  dsimp only
  generalize s.sentOff (s.message pk cnt tagged b dev) = t at h
  split
  · exact h.packet (owe_packetOnly _)
  · split
    · exact h.behind _
    · exact h.packet (numbered_packetOnly _ _)

end Sys2Proof.Machine
end


section
/-! ST completes (08 R216, 06 R160). -/

namespace Sys2Proof.Machine

variable {s t u w : State} {ea : Word} {p : Place} {l : List Byte} {o : Ops}

/-! ### A posted store -/

/-- A message with a store's bytes, sent after the hamlet's copies have been changed. -/
theorem posted_store (h : s.HomeOnly t) {pa cnt : Nat} {pk : BitVec 20} {bs : List (Nat × Byte)} {dev : Bool}
    (hd : pk ≠ t.pkgid → t.deadPeer pk = false) (hc : cnt = 1 ∨ cnt = 2 ∨ cnt = 3) :
    let v := (t.send pk cnt false (.store pa bs false) dev).1
    v.me.count cnt = s.me.count cnt + 1 ∧ (v.ham (hamOf s.curCore)).sent = (s.ham (hamOf s.curCore)).sent + 1 ∧
      (∃ m, v.flight = s.flight ++ [m] ∧ m.body = .store pa bs false ∧ m.pkg = pk ∧ m.cnt = cnt ∧ m.core = s.curCore ∧
        m.ctx = s.curCtx ∧ m.tag = none ∧ m.applied = false) ∧ v.mem = t.mem := by
  have hp := send_posted (s := t) pk cnt false (.store pa bs false) dev hd
  have hcount := hp.count hc
  have hsent := hp.sent
  rw [h.me] at hcount
  rw [h.curCore, h.sent] at hsent
  exact ⟨hcount, hsent, ⟨_, by rw [hp.flight, h.flight], rfl, rfl, rfl, h.curCore, h.curCtx, rfl, rfl⟩, hp.mem⟩

theorem postCount_cases (pa : Nat) : s.postCount pa = 1 ∨ s.postCount pa = 2 ∨ s.postCount pa = 3 := by
  unfold State.postCount
  split
  · exact .inr (.inr rfl)
  · exact .inl rfl

/-! ### The instruction -/

theorem storeGo_done (hl : l ≠ []) (hn : ea.toNat % 64 + l.length ≤ 64) (hq : s.queueGone = true)
    (hr : s.resolve ea .write = .ok (p, w)) (hf : s.fillBad s.curCore p = none) (h32 : s.myCore.replay.length ≤ 32)
    (hs : s.writeStuck { place := p, bytes := offsets l } (noL1 o) ((ordOf o).1 = 2 && Scope.wide (ordOf o).2) = none)
    (hh : s.storeHeld p l.length (noL1 o) ((ordOf o).1 = 2 && Scope.wide (ordOf o).2) = false)
    (hc : s.countsFull [p] (noL1 o) ((ordOf o).1 = 2 && Scope.wide (ordOf o).2) = false) :
    storeGo ea l o s = .done (w.putPart p (offsets l) (noL1 o) ((ordOf o).1 = 2 && Scope.wide (ordOf o).2) (streams o)) := by
  unfold storeGo
  rw [storeItems_one hl hn hq hr hf h32]
  unfold howOf
  dsimp only
  rw [hs, hh, hc]
  rfl

theorem State.HomeOnly.replay (h : s.HomeOnly t) : t.myCore.replay = s.myCore.replay := by
  rw [State.myCore, h.curCore, h.core]; rfl

theorem State.HomeOnly.queueGone (h : s.HomeOnly t) : t.queueGone = s.queueGone := by
  rw [State.queueGone, State.queueGone, h.replay, h.curCtx]

theorem orderedBy_homeOnly (ord : Nat) (sc : Scope) : s.HomeOnly (s.orderedBy ord sc) := by
  unfold State.orderedBy
  split
  · exact release_homeOnly sc
  · exact .refl s

/-- The body of ST, as far as its address is in order. -/
theorem stBody_eq (t : StTy) (hl : s.locsFault [scLoc o o.a, rsLoc o o.d (if stBytes t = 16 then 16 else 8)] = none) :
    stBody o t s =
      if ((ordOf o).1 ≠ 0 && !aligned (s.ea o (stBytes t)) (stBytes t)) = true then .trap 0x03 (s.ea o (stBytes t))
      else
        let l := bytesOf (stBytes t) (s.rs (scAddr o o.d) (if stBytes t = 16 then 16 else 8))
        if (ordOf o).1 = 2 then s.released (ordOf o).2 false (storeGo (s.ea o (stBytes t)) l o)
        else storeGo (s.ea o (stBytes t)) l o s := by
  have hgo : ∀ ea x, storeGo ea (bytesOf (stBytes t) x) o = fun u => u.storeItems u.me.tblroot u.me.priv
      [{ va := ea, n := stBytes t, bytes := offsets (bytesOf (stBytes t) x), info := ea }] (howOf o) false .done := by
    intro ea x
    funext u
    unfold storeGo oneStore
    rw [bytesOf_length]
  unfold stBody
  dsimp only
  rw [within_ok hl]
  simp only [hgo]

end Sys2Proof.Machine

open Sys2Proof Sys2Proof.Machine

/-- Settles O26, following the one part of a store within a line to where its bytes are put. -/
theorem storeCompletes : Obligations.StoreCompletes := by
  refine ⟨fun s w o t p => ?_, fun s p bs post wide st dev pk pa cnt hp => ?_⟩
  · intro n k u ea ord sc wide bs hg hl
    have hb := stBody_eq (s := u) t hl
    constructor
    · intro ho ha
      refine run_trap hg ?_
      rw [hb, if_pos]
      simp only [Bool.and_eq_true, decide_eq_true_eq, Bool.not_eq_true', aligned, decide_eq_false_iff_not]
      exact ⟨ho, ha⟩
    · intro ha ho3 hn hrel u' hq h32 hr hf hs hh hc
      have hne : bytesOf n (u.rs (scAddr o o.d) k) ≠ [] := by
        rw [← List.length_pos_iff, bytesOf_length]
        exact stBytes_pos t
      have hlen : (bytesOf n (u.rs (scAddr o o.d) k)).length = n := bytesOf_length _ _
      have hdone : storeGo ea (bytesOf n (u.rs (scAddr o o.d) k)) o u' = .done (w.putPart p bs (noL1 o) wide (streams o)) :=
        storeGo_done hne (by rw [hlen]; exact hn) hq hr hf h32 hs (by rw [hlen]; exact hh) hc
      have hbody : stBody o t u = .done (w.putPart p bs (noL1 o) wide (streams o)) := by
        rw [hb, if_neg]
        · dsimp only
          by_cases h2 : ord = 2
          · obtain ⟨hrr, w', hw', hf'⟩ := hrel h2
            have ho : u.HomeOnly u' := orderedBy_homeOnly ord sc
            have hq' : u.queueGone = true := by rw [← ho.queueGone]; exact hq
            have hu : u' = u.release sc := by simp only [u', State.orderedBy, h2, true_or, if_true]
            rw [if_pos h2, released_ready ?_ hrr, ← hu]
            · exact hdone
            · intro c info
              rw [unqueued_gone hq']
              refine storeGo_not_trap hne (by rw [hlen]; exact hn) hq' hw' hf' ?_ c info
              rw [← ho.replay]
              exact h32
          · have hu : u' = u := by simp only [u', State.orderedBy, h2, ho3, or_self, if_false]
            rw [if_neg h2, ← hdone, hu]
        · simp only [Bool.and_eq_true, decide_eq_true_eq, Bool.not_eq_true', aligned, decide_eq_false_iff_not, not_and, not_not]
          exact fun h0 => ha.resolve_left h0
      obtain ⟨v, he, hv⟩ := run_plain hg hbody
      refine ⟨v, he, hv, ?_⟩
      rintro pa rfl
      exact hv.mem
  · intro v h
    obtain ⟨rfl, rfl, rfl⟩ | ⟨rfl, hd, rfl⟩ | ⟨rfl, hw, rfl, rfl⟩ := hp
    · exact posted_store (.refl s) (fun hp => absurd rfl hp) (.inl rfl)
    · exact posted_store (.refl s) hd (.inr (.inl rfl))
    · cases dev with
      | true =>
        refine posted_store giveLine_homeOnly ?_ (postCount_cases pa)
        rw [giveLine_homeOnly.pkgid]
        exact fun hp => absurd rfl hp
      | false =>
        obtain ⟨rfl, rfl⟩ := hw.resolve_left (by decide)
        refine posted_store backLine_homeOnly ?_ (postCount_cases pa)
        rw [backLine_homeOnly.pkgid]
        exact fun hp => absurd rfl hp
end


section
/-! LD completes (08 R216, R217). -/

namespace Sys2Proof.Machine

variable {s t u w : State} {ea : Word} {p : Place} {o : Ops} {n pa : Nat}

/-! ### The bytes read -/

theorem homeRead_length (s : State) (pa n : Nat) : (s.homeRead pa n).length = n := by
  unfold State.homeRead
  split
  · exact List.length_replicate
  · split
    · rw [List.length_map, List.length_range]
    · exact memRead_length _ _ _
  all_goals first
    | exact memRead_length _ _ _
    | (split
       · exact bytesOf_length _ _
       · split
         · exact memRead_length _ _ _
         · exact bytesOf_length _ _)

theorem acquire_setMe (x : Ctx) (sc : Scope) : (s.setMe x).acquire sc = (s.acquire sc).setMe x := by
  unfold State.acquire
  split <;> rfl

theorem homeSpan_length (s : State) (pa n : Nat) : (s.homeSpan pa n).length = n := by
  unfold State.homeSpan
  dsimp only
  split
  · exact homeRead_length _ _ _
  · rw [List.length_append, homeRead_length, homeRead_length]
    omega

theorem hamletRead_length (s : State) (h pa n : Nat) : (s.hamletRead h pa n).length = n := by
  unfold State.hamletRead
  split
  · exact homeRead_length _ _ _
  · exact bytesOf_length _ _

theorem readPlace_length (s : State) (c : Nat) (p : Place) (n : Nat) (l1 st : Bool) :
    (s.readPlace c p n l1 st).1.length = n := by
  unfold State.readPlace
  cases p with
  | near pa | far pa _ => exact homeRead_length _ _ _
  | foreign _ _ _ => exact List.length_replicate
  | window _ _ _ => exact memRead_length _ _ _
  | global pa device =>
    dsimp only
    split
    · exact bytesOf_length _ _
    · have hb : (if device = true then s.homeSpan pa n else s.hamletRead (hamOf c) pa n).length = n := by
        split
        · exact homeSpan_length _ _ _
        · exact hamletRead_length _ _ _ _
      rw [apply_ite Prod.fst, ite_self]
      exact hb

/-- The extension of a sign, in the terms of bit vectors. -/
theorem extendTo64_signed {n v : Nat} (hn : 0 < n) (hn8 : n ≤ 8) (hv : v < 2 ^ (8 * n)) :
    extendTo64 true n v = ((BitVec.ofNat (8 * n) v).signExtend 64).toNat := by
  have hp : 2 ^ (8 * n) ≤ 2 ^ 64 := Nat.pow_le_pow_right (by decide) (by omega)
  have hm : (BitVec.ofNat (8 * n) v).msb = v.testBit (8 * n - 1) := by
    rw [BitVec.msb_eq_getLsbD_last, BitVec.getLsbD_ofNat]
    simp [show 8 * n - 1 < 8 * n by omega]
  have ht : (BitVec.ofNat (8 * n) v).toNat = v := by rw [BitVec.toNat_ofNat, Nat.mod_eq_of_lt hv]
  unfold extendTo64
  rw [BitVec.toNat_signExtend, hm, BitVec.toNat_setWidth, ht, Nat.mod_eq_of_lt (lt_of_lt_of_le hv hp), Bool.true_and]
  split
  · rw [Nat.mod_eq_of_lt hv]
  · rfl

theorem ldBytes_pos (t : LdTy) : 0 < ldBytes t := by cases t <;> decide

/-- The value that LD extends, from bytes as many as it reads. -/
theorem extendTo64_bytes {t : LdTy} {l : List Byte} (hl : l.length = ldBytes t) :
    extendTo64 (ldSigned t) (ldBytes t) (ofBytes l) =
      if ldSigned t then ((BitVec.ofNat (8 * ldBytes t) (ofBytes l)).signExtend 64).toNat else ofBytes l := by
  cases hs : ldSigned t with
  | false => rfl
  | true =>
    have h8 : ldBytes t ≤ 8 := by cases t <;> first | decide | cases hs
    refine extendTo64_signed (ldBytes_pos t) h8 ?_
    rw [Nat.pow_mul, ← hl]
    exact ofBytes_lt l

/-! ### The bytes that a message brings -/

/-- A place that is read by a message to a package (05 R123). -/
def Place.asks (p : Place) (own pk : BitVec 20) (pa : Nat) (dev : Bool) : Prop :=
  p = .far pa dev ∧ pk = own ∨ p = .foreign pk pa dev

/-- A read within a line, of a place that a message asks for its bytes. -/
theorem readPieces_asks {pk : BitVec 20} {dev l1 st : Bool} {kind : Access} (hl : ea.toNat % 64 + n ≤ 64)
    (hq : s.queued ea n = none) (hr : s.resolve ea kind = .ok (p, w)) (hp : p.asks w.pkgid pk pa dev)
    (hd : pk ≠ w.pkgid → w.deadPeer pk = false) (hd' : ∀ q, p = .foreign q pa dev → w.deadPeer q = false)
    (hb : w.placeBad w.curCore p n = none) (hm : w.mustWait p n = false) :
    s.readPieces (pieces ea n 0 ea) kind l1 st = .ok 0 [{ off := 0, n := n, pkg := pk, pa := pa, dev := dev }] w := by
  have hw : worst [] = none := rfl
  have hs : w.placeStuck w.curCore p n = none := by
    obtain ⟨rfl, -⟩ | rfl := hp <;> rfl
  rw [pieces_one hl]
  unfold State.readPieces
  rw [resolvePieces_one hr]
  obtain ⟨rfl, rfl⟩ | rfl := hp
  · simp [refusedMeet_none hq hr, hq, hb, hs, hm, hw]
  · simp [refusedMeet_none hq hr, hq, hb, hs, hm, hw, hd' _ rfl]

/-! ### The instruction -/

/-- The body of LD, as far as its address is in order. -/
theorem ldBody_eq (t : LdTy) (hl : s.locsFault [scLoc o o.a, rsLoc o o.d (if ldBytes t = 16 then 16 else 8)] = none)
    (ha : (ordOf o).1 = 0 ∨ (s.ea o (ldBytes t)).toNat % ldBytes t = 0) {v : Nat} {remote : List Remote}
    (hr : s.readPieces (pieces (s.ea o (ldBytes t)) (ldBytes t) 0 (s.ea o (ldBytes t))) .read (!noL1 o) (streams o) =
      .ok v remote u) :
    ldBody o t s =
      let d := scAddr o o.d
      let r := u.sendLoads remote (8 * (d % 64)) (ldBytes t) (ldSigned t)
      let x := r.1.varAwait [cellAt d (if ldBytes t = 16 then 16 else 8) (extendTo64 (ldSigned t) (ldBytes t) v)] r.2
      .done (if (ordOf o).1 = 1 then x.acquireAfter (ordOf o).2 (!r.2.isEmpty) else x) := by
  unfold ldBody
  dsimp only
  rw [within_ok hl, if_neg, hr]
  simp only [Bool.and_eq_true, decide_eq_true_eq, Bool.not_eq_true', aligned, decide_eq_false_iff_not, not_and, not_not]
  exact fun h0 => ha.resolve_left h0

theorem ldBody_misaligned (t : LdTy) (hl : s.locsFault [scLoc o o.a, rsLoc o o.d (if ldBytes t = 16 then 16 else 8)] = none)
    (ho : (ordOf o).1 ≠ 0) (ha : (s.ea o (ldBytes t)).toNat % ldBytes t ≠ 0) :
    ldBody o t s = .trap 0x03 (s.ea o (ldBytes t)) := by
  unfold ldBody
  dsimp only
  rw [within_ok hl, if_pos]
  simp only [Bool.and_eq_true, decide_eq_true_eq, Bool.not_eq_true', aligned, decide_eq_false_iff_not]
  exact ⟨ho, ha⟩

theorem Retires.flight {rs : List Result} {target : Option Word} (h : Retires u t o rs target) : t.flight = u.flight := by
  obtain ⟨⟨x, rfl, -⟩, -⟩ := h
  rfl

/-- The number that a message is known by. -/
theorem send_snd (pk : BitVec 20) (cnt : Nat) (tagged : Bool) (b : Body) (dev : Bool)
    (hd : pk ≠ s.pkgid → s.deadPeer pk = false) :
    (s.send pk cnt tagged b dev).2 = (s.message pk cnt tagged b dev).id := by
  rw [send_eq pk cnt tagged b dev hd]
  dsimp only
  split
  · rfl
  · split <;> rfl

theorem acquire_me (sc : Scope) : (s.acquire sc).me = s.me := (acquire_homeOnly sc).me

end Sys2Proof.Machine

open Sys2Proof Sys2Proof.Machine

/-- Settles O31, following the one piece of a load within a line. -/
theorem loadCompletes : Obligations.LoadCompletes := by
  refine ⟨fun s w o t p => ?_, fun s w o t p pk pa dev => ?_⟩
  · intro n k u ea ord hg hl
    constructor
    · intro ho ha
      exact run_trap hg (ldBody_misaligned t hl ho ha)
    · intro ha hn hq hr hp hb hs hm r b
      have hb := ldBody_eq t hl ha (readPieces_here hn hq hr hp hb hs hm)
      rw [extendTo64_bytes (readPlace_length _ _ _ _ _ _)] at hb
      by_cases h1 : ord = 1
      · have hv : ldBody o t u = .done ((r.2.acquire (ordOf o).2).push (varResult [cellAt (scAddr o o.d) k
            (if ldSigned t then ((BitVec.ofNat (8 * n) b).signExtend 64).toNat else b)])) := by
          rw [hb, State.push, acquire_me, ← acquire_setMe]
          exact congrArg Act.done (if_pos h1)
        rw [if_pos h1]
        exact run_push_on hg hv
      · rw [if_neg h1]
        exact run_push_on hg (hb.trans (congrArg Act.done (if_neg h1)))
  · intro n k u ea hg hl ho hn hq hr hp hb hm m
    have hd : pk ≠ w.pkgid → w.deadPeer pk = false := by
      obtain ⟨-, rfl⟩ | ⟨-, hd, -⟩ := hp
      · exact fun h => absurd rfl h
      · exact fun _ => hd
    have hmw : w.mustWait p n = false := by
      obtain ⟨rfl, -⟩ | ⟨rfl, -, hf⟩ := hp
      · cases dev with
        | false => rfl
        | true => exact hm rfl
      · cases dev with
        | false => exact (Bool.or_false _).trans hf
        | true =>
          show (w.linkFull pk || (true && w.posting)) = false
          rw [hf, hm rfl]
          rfl
    have ha : p.asks w.pkgid pk pa dev := hp.imp_right And.left
    have hd' : ∀ q, p = .foreign q pa dev → w.deadPeer q = false := by
      rintro q rfl
      obtain ⟨h, -⟩ | ⟨h, hd, -⟩ := hp
      · cases h
      · cases h; exact hd
    have hb := ldBody_eq t hl (.inl ho) (readPieces_asks hn hq hr ha hd hd' hb hmw)
    have hdone : ldBody o t u = .done (m.1.varAwait [cellAt (scAddr o o.d) k 0] [(m.2, 8 * (scAddr o o.d % 64))]) := by
      rw [hb]
      dsimp only
      rw [if_neg (by rw [ho]; decide)]
      have hx : extendTo64 (ldSigned t) (ldBytes t) 0 = 0 := by simp [extendTo64]
      rw [hx]
      simp [State.sendLoads, m, n, k]
    obtain ⟨v, he, hv⟩ := run_push_on hg hdone
    have hs := send_posted (s := w) pk 0 true (.load pa n (ldSigned t)) dev hd
    refine ⟨v, he, hv, hv.mem.trans hs.mem, ?_⟩
    rw [hv.flight, hs.flight, List.map_append, send_snd _ _ _ _ _ hd]
    rfl
end


section
/-! ZLINE, PREF, STASH and FLUSH complete (08 R221 to R224). -/

namespace Sys2Proof.Machine

variable {s t u w : State} {ea : Word} {p : Place} {o : Ops} {pa cnt h line : Nat} {pk : BitVec 20}

/-! ### Messages one after the other -/

/-- `t` is `s` after the acting context has sent messages to a package, counted in one of its counts. -/
structure State.Posts (s t : State) (pk : BitVec 20) (cnt : Nat) (bodies : List Body) : Prop where
  count : t.me.count cnt = s.me.count cnt + BitVec.ofNat 16 bodies.length
  flight : ∃ ms, t.flight = s.flight ++ ms ∧ ms.map Msg.body = bodies ∧
    ∀ m ∈ ms, m.pkg = pk ∧ m.cnt = cnt ∧ m.core = s.curCore ∧ m.ctx = s.curCtx ∧ m.applied = false
  here : t.pkgid = s.pkgid ∧ t.curCore = s.curCore ∧ t.curCtx = s.curCtx
  dead : t.deadPeer pk = s.deadPeer pk

theorem State.Posts.nil (s : State) (pk : BitVec 20) (cnt : Nat) : s.Posts s pk cnt [] :=
  ⟨by simp, ⟨[], by simp, rfl, by simp⟩, ⟨rfl, rfl, rfl⟩, rfl⟩

theorem State.Posts.append {b b' : List Body} (h : s.Posts t pk cnt b) (h' : t.Posts u pk cnt b') :
    s.Posts u pk cnt (b ++ b') := by
  obtain ⟨hc, ⟨ms, hf, hb, hm⟩, ⟨hp, h1, h2⟩, hd⟩ := h
  obtain ⟨hc', ⟨ms', hf', hb', hm'⟩, ⟨hp', h1', h2'⟩, hd'⟩ := h'
  refine ⟨?_, ⟨ms ++ ms', ?_, ?_, fun m hmm => ?_⟩, ⟨hp'.trans hp, h1'.trans h1, h2'.trans h2⟩, hd'.trans hd⟩
  · rw [hc', hc, List.length_append, BitVec.ofNat_add, BitVec.add_assoc]
  · rw [hf', hf, List.append_assoc]
  · rw [List.map_append, hb, hb']
  · obtain hmm | hmm := List.mem_append.mp hmm
    · exact hm m hmm
    · rw [← h1, ← h2]
      exact hm' m hmm

/-- One message. -/
theorem send_posts {b : Body} {dev : Bool} (hc : cnt = 1 ∨ cnt = 2 ∨ cnt = 3) (hd : pk ≠ s.pkgid → s.deadPeer pk = false) :
    s.Posts (s.send pk cnt false b dev).1 pk cnt [b] := by
  have h := send_posted pk cnt false b dev hd
  refine ⟨h.count hc, ⟨[s.message pk cnt false b dev], h.flight, rfl, ?_⟩, ⟨h.pkgid, h.curCore, h.curCtx⟩, h.dead pk⟩
  rintro m hm
  obtain rfl := List.mem_singleton.mp hm
  exact ⟨rfl, rfl, rfl, rfl, rfl⟩

theorem foldl_send_posts {α : Type} {f : α → Body} {dev : Bool} (hc : cnt = 1 ∨ cnt = 2 ∨ cnt = 3) (l : List α)
    (hd : pk ≠ s.pkgid → s.deadPeer pk = false) :
    s.Posts (l.foldl (fun t i => (t.send pk cnt false (f i) dev).1) s) pk cnt (l.map f) := by
  induction l generalizing s with
  | nil => exact .nil s pk cnt
  | cons i l ih =>
    have h := send_posts (b := f i) (dev := dev) hc hd
    refine h.append (ih ?_)
    rw [h.here.1, h.dead]
    exact hd

/-- Messages sent once the hamlet's copies have been changed. -/
theorem State.Posts.after {b : List Body} (h : s.HomeOnly t) (h' : t.Posts u pk cnt b) :
    u.me.count cnt = s.me.count cnt + BitVec.ofNat 16 b.length ∧ ∃ ms, u.flight = s.flight ++ ms ∧ ms.map Msg.body = b ∧
      ∀ m ∈ ms, m.pkg = pk ∧ m.cnt = cnt ∧ m.core = s.curCore ∧ m.ctx = s.curCtx ∧ m.applied = false := by
  rw [← h.me, ← h.flight, ← h.curCore, ← h.curCtx]
  exact ⟨h'.count, h'.flight⟩

/-! ### Copies dropped and written back -/

theorem find_del_same {α : Type} (m : Map α) (k : Nat) : find (del m k) k = none := by
  induction m with
  | nil => rfl
  | cons e m ih =>
    obtain ⟨j, v⟩ := e
    by_cases hj : j = k
    · rw [del, if_pos hj, ih]
    · rw [del, if_neg hj, find, if_neg hj, ih]

/-- `t` is `s` but for what the homes and the hamlets' copies in windows are: the L1s' lines stand. -/
structure State.KeepsLines (s t : State) : Prop where
  home : s.HomeOnly t
  lines : ∀ k, (t.ham k).lines = (s.ham k).lines

theorem State.KeepsLines.refl (s : State) : s.KeepsLines s := ⟨.refl s, fun _ => rfl⟩

theorem State.KeepsLines.trans (h : s.KeepsLines t) (h' : t.KeepsLines u) : s.KeepsLines u :=
  ⟨h.home.trans h'.home, fun k => (h'.lines k).trans (h.lines k)⟩

theorem State.KeepsLines.foldl {α : Type} {f : State → α → State} (hf : ∀ (s : State) a, s.KeepsLines (f s a)) (l : List α)
    (s : State) : s.KeepsLines (l.foldl f s) := by
  induction l generalizing s with
  | nil => exact .refl s
  | cons a l ih => exact (hf s a).trans (ih _)

theorem State.KeepsLines.of_hamlets (h : s.HomeOnly t) (hh : t.hamlets = s.hamlets) : s.KeepsLines t :=
  ⟨h, fun k => by rw [State.ham, hh]; rfl⟩

theorem setWin_keepsLines (h : Nat) (m : Map WinLine) : s.KeepsLines (s.setHam h { s.ham h with winLines := m }) := by
  refine ⟨setHam_homeOnly h _ m, fun k => ?_⟩
  by_cases hk : k = h
  · subst hk; rw [setHam_ham_same]
  · rw [setHam_ham_other _ _ _ hk]

theorem dropCopies_keepsLines (h line : Nat) : s.KeepsLines (s.dropCopies h line) := by
  unfold State.dropCopies
  split
  · exact .refl s
  · exact .foldl (fun t _ => setWin_keepsLines h _) _ _

theorem cxlAsk_hamlets (line : Nat) (write : Bool) (q : Word) : (s.cxlAsk line write q).hamlets = s.hamlets := by
  unfold State.cxlAsk
  split
  · rfl
  · exact (oweOnce_links _).hamlets

theorem noteUnbacked_hamlets (c pa : Nat) : (s.noteUnbacked c pa).hamlets = s.hamlets := by
  unfold State.noteUnbacked
  split
  · exact record_hamlets _
  · rfl

theorem writeBackWin_keepsLines (key : Nat) : s.KeepsLines (s.writeBackWin h key) := by
  unfold State.writeBackWin
  dsimp only
  split
  · split
    · exact .refl s
    · split
      · exact .refl s
      · refine .trans ?_ (setWin_keepsLines h _)
        split
        · exact .of_hamlets (cxlAsk_homeOnly _ _) (cxlAsk_hamlets _ _ _)
        · exact .trans (.of_hamlets (noteUnbacked_homeOnly _) (noteUnbacked_hamlets _ _))
            (.of_hamlets homeWrite_homeOnly homeWrite_hamlets)
  · exact .refl s

/-- A line that has been written back is clean, and no other one changes (06 R148). -/
theorem writeBack_clean (l : Line) (hl : find ((s.writeBack h line).ham h).lines line = some l) : l.dirty = 0 := by
  unfold State.writeBack at hl
  split at hl
  next hn => rw [hn] at hl; cases hl
  next y hy =>
    split at hl
    next hd => rw [hy] at hl; cases hl; exact hd
    · split at hl
      · rw [State.ham, cxlAsk_hamlets] at hl
        have hs := setHam_ham_same s h { s.ham h with lines := del (s.ham h).lines line }
        rw [State.ham] at hs
        rw [hs] at hl
        simp [find_del_same] at hl
      · rw [setHam_ham_same] at hl
        simp only [find_put_same, Option.some.injEq] at hl
        rw [← hl]

theorem backLine_clean (l : Line) (hl : find ((s.backLine h line).ham h).lines line = some l) : l.dirty = 0 := by
  rw [State.backLine, (State.KeepsLines.foldl (fun _ key => writeBackWin_keepsLines key) _ _).lines] at hl
  exact writeBack_clean l hl

theorem dropLine_lines : find ((s.dropLine h line).ham h).lines line = none := by
  rw [State.dropLine, setHam_ham_same]
  exact find_del_same _ _

theorem flushLine_clean (inv : Bool) (l : Line) (hl : find ((s.flushLine h line inv).ham h).lines line = some l) :
    l.dirty = 0 := by
  unfold State.flushLine at hl
  dsimp only at hl
  split at hl
  · exact backLine_clean l hl
  · rw [(setWin_keepsLines h _).lines, dropLine_lines] at hl
    cases hl

theorem flushLine_gone : find ((s.flushLine h line true).ham h).lines line = none := by
  unfold State.flushLine
  dsimp only
  rw [if_neg (by decide), (setWin_keepsLines h _).lines, dropLine_lines]

/-! ### ZLINE on a place -/

theorem zeroPlace_four (hc : cnt = 1 ∨ cnt = 2 ∨ cnt = 3) (hd : pk ≠ s.pkgid → s.deadPeer pk = false) :
    s.Posts ((List.range 4).foldl (fun t i => (t.send pk cnt false (.store (pa + 16 * i) (zeros64.take 16) false) true).1) s)
      pk cnt ([0, 16, 32, 48].map fun i => Body.store (pa + i) (offsets (List.replicate 16 0)) false) :=
  foldl_send_posts hc (List.range 4) hd

theorem storeFault_none {root : Word} {q : Priv} {va : Word} {kind : Access} {b : Body} {how : How} {k : State → Act}
    (h : s.queueGone = true) : s.storeFault root q va kind none b how k = none := by
  have hn : s.myCore.replay.find? (fun r => r.ctx = s.curCtx && samePage r.va va) = none := by
    rw [List.find?_eq_none]
    intro r hr
    have := (List.all_eq_true.mp h) r hr
    simp only [decide_eq_true_eq] at this
    simp [this]
  unfold State.storeFault
  rw [hn]

theorem zlineBody_misaligned (hl : s.locsFault [scLoc o o.a] = none) (ha : (s.ea o 64).toNat % 64 ≠ 0) :
    zlineBody o s = .trap 0x03 (s.ea o 64) := by
  unfold zlineBody
  dsimp only
  rw [within_ok hl, if_pos]
  simpa [aligned] using ha

theorem zlineBody_place (hl : s.locsFault [scLoc o o.a] = none) (ha : (s.ea o 64).toNat % 64 = 0) (hq : s.queueGone = true)
    (hr : s.resolve (s.ea o 64) .write = .ok (p, w)) (hf : w.fillBad w.curCore p = none)
    (hs : ∀ st q d, p = .window st q d → w.placeStuck w.curCore p 64 = none) (hz : w.zeroHeld p = false) :
    zlineBody o s = .done (w.zeroPlace p) := by
  unfold zlineBody
  dsimp only
  rw [within_ok hl, if_neg (by simpa [aligned] using ha), resolveFor_of_resolve hr]
  simp only [storeFault_none hq]
  cases p with
  | window st q d => simp [hf, hs st q d rfl, hz]
  | near _ | far _ _ | global _ _ | foreign _ _ _ => simp [hz]

/-! ### PREF, STASH and FLUSH -/

/-- What PREF leaves of a line that nothing keeps it from. -/
def State.prefetched (t : State) (o : Ops) (dst : PrefTo) (p : Place) : State :=
  match p, dst with
  | .global pa false, .l1 =>
    if (t.region pa).global then (t.readPlace t.curCore p 64 (!noL1 o) (streams o)).2 else t.noteUnbacked t.curCore pa
  | .global pa false, .home => if (t.region pa).global then t.lineIn (pa / 64 * 64) else t.noteUnbacked t.curCore pa
  | .window _ _ _, .win => t.filled p
  | _, _ => t

theorem prefBody_error {dst : PrefTo} {e : Trouble} (hl : s.locsFault [scLoc o o.a] = none)
    (hr : s.resolve (lineVa (s.ea o 64)) .read = .error e) :
    prefBody o dst s = .done (s.noteWalk s.curCore s.me.tblroot (lineVa (s.ea o 64))) := by
  unfold prefBody
  dsimp only
  rw [within_ok hl, hr]

theorem prefBody_drops {dst : PrefTo} (hl : s.locsFault [scLoc o o.a] = none)
    (hr : s.resolve (lineVa (s.ea o 64)) .read = .ok (p, w))
    (hb : (w.placeBad w.curCore p 64).isSome ∨ (w.placeStuck w.curCore p 64).isSome) : prefBody o dst s = .done w := by
  unfold prefBody
  dsimp only
  rw [within_ok hl, hr]
  dsimp only
  rw [if_pos]
  simpa using hb

theorem prefBody_brings {dst : PrefTo} (hl : s.locsFault [scLoc o o.a] = none)
    (hr : s.resolve (lineVa (s.ea o 64)) .read = .ok (p, w)) (hb : w.placeBad w.curCore p 64 = none)
    (hs : w.placeStuck w.curCore p 64 = none) : prefBody o dst s = .done (w.prefetched o dst p) := by
  unfold prefBody
  dsimp only
  rw [within_ok hl, hr]
  dsimp only
  rw [hb, hs, if_neg (by decide)]
  unfold State.prefetched
  cases p with
  | global pa device => cases device <;> cases dst <;> rfl
  | near _ | far _ _ | window _ _ _ | foreign _ _ _ => cases dst <;> rfl

section
variable {drop : Bool} (hl : s.locsFault [scLoc o o.a] = none) (hc : canonical (lineVa (s.ea o 64)) = true)
include hl hc

theorem stashBody_outside (hw : winOf s.myHam.windows (lineVa (s.ea o 64)) = none) : stashBody o drop s = .done s := by
  unfold stashBody
  dsimp only
  rw [within_ok hl, hc, hw]
  rfl

theorem stashBody_drop {d : BitVec 128} (hw : winOf s.myHam.windows (lineVa (s.ea o 64)) = some d) :
    stashBody o true s = .done (s.dropWindow (hamOf s.curCore) (winStash d (lineVa (s.ea o 64))) d) := by
  unfold stashBody
  dsimp only
  rw [within_ok hl, hc, hw]
  rfl

theorem stashBody_fill {d : BitVec 128} (hw : winOf s.myHam.windows (lineVa (s.ea o 64)) = some d)
    (hr : s.resolve (lineVa (s.ea o 64)) .read = .ok (p, w)) (hf : w.fillBad w.curCore p = none)
    (hs : w.placeStuck w.curCore p 64 = none) : stashBody o false s = .done (w.filled p) := by
  unfold stashBody
  dsimp only
  rw [within_ok hl, hc, hw, hr]
  simp [hf, hs]

end

section
variable {inv : Bool} (hl : s.locsFault [scLoc o o.a] = none)
include hl

theorem flushBody_line (hp : p = .global pa false ∨ ∃ st d, p = .window st pa d)
    (hr : s.resolveFor s.curCore s.curCtx s.me.tblroot s.me.priv (lineVa (s.ea o 64)) .data = .ok (p, w)) :
    flushBody o inv s = .done (w.flushLine (hamOf w.curCore) (pa / 64 * 64) inv) := by
  unfold flushBody
  dsimp only
  rw [within_ok hl, hr]
  obtain rfl | ⟨st, d, rfl⟩ := hp <;> rfl

theorem flushBody_absent {c l : Nat} {va : Word}
    (hr : s.resolveFor s.curCore s.curCtx s.me.tblroot s.me.priv (lineVa (s.ea o 64)) .data = .error (.page c l va)) :
    flushBody o inv s = .done (s.noteWalk s.curCore s.me.tblroot (lineVa (s.ea o 64))) := by
  unfold flushBody
  dsimp only
  rw [within_ok hl, hr]

end

end Sys2Proof.Machine

open Sys2Proof Sys2Proof.Machine

/-- Settles O27: what each of the four does to the place that its address names. -/
theorem lineControlCompletes : Obligations.LineControlCompletes := by
  refine ⟨fun s bs pa hbs => ?_, fun s line inv => ⟨flushLine_clean inv, ?_⟩, fun s w o pa p => ?_⟩
  · subst hbs
    intro h posts four
    have own : s.pkgid ≠ s.pkgid → s.deadPeer s.pkgid = false := fun h => absurd rfl h
    have of : ∀ {t : State} {pk : BitVec 20} {cnt : Nat} {b : List Body}, s.Posts t pk cnt b → posts t pk cnt b :=
      fun h => ⟨h.count, h.flight⟩
    have hg : s.HomeOnly ((s.dropLine h pa).dropCopies h pa) := dropLine_homeOnly.trans (dropCopies_keepsLines h pa).home
    have hz := send_posts (b := .zline pa) (dev := false) (pk := s.pkgid) (postCount_cases (s := s) pa)
      (s := (s.dropLine h pa).dropCopies h pa) (fun hp => absurd hg.pkgid.symm hp)
    refine ⟨rfl, fun _ _ => rfl, hz.after hg, ?_, of (zeroPlace_four (postCount_cases pa) own), of (send_posts (.inl rfl) own),
      of (zeroPlace_four (.inl rfl) own), fun pk hp hd => ⟨of (send_posts (.inr (.inl rfl)) fun _ => hd),
        of (zeroPlace_four (.inr (.inl rfl)) fun _ => hd)⟩⟩
    have hs := send_posted (s := (s.dropLine h pa).dropCopies h pa) s.pkgid (s.postCount pa) false (.zline pa) false
      (fun hp => absurd hg.pkgid.symm hp)
    have hl : ((s.zeroPlace (.global pa false)).ham h).lines = (((s.dropLine h pa).dropCopies h pa).ham h).lines := by
      refine (congrArg Hamlet.lines (hs.ham h)).trans ?_
      split <;> rfl
    rw [hl, (dropCopies_keepsLines h pa).lines, dropLine_lines]
  · rintro rfl
    exact flushLine_gone
  · intro u ea line hl
    refine ⟨fun hg => ⟨fun ha => run_trap hg (zlineBody_misaligned hl ha), fun ha hq hr hf hs hz =>
        run_plain hg (zlineBody_place hl ha hq hr hf hs hz)⟩, fun dst hg => ⟨fun e hr => run_plain hg (prefBody_error hl hr), fun hr => ?_⟩,
      fun drop hg hc => ⟨fun hw => run_plain hg (stashBody_outside hl hc hw), fun d hw => ⟨?_, ?_⟩⟩,
      fun inv hg => ⟨fun hp hr => run_plain hg (flushBody_line hl hp hr), fun c l va hr => run_plain hg (flushBody_absent hl hr)⟩⟩
    · by_cases hb : (w.placeBad w.curCore p 64).isSome ∨ (w.placeStuck w.curCore p 64).isSome
      · obtain ⟨v, he, hv⟩ := run_plain hg (prefBody_drops hl hr hb)
        refine ⟨v, he, fun _ => hv, fun h1 h2 => ?_⟩
        rw [h1, h2] at hb
        simp at hb
      · simp only [not_or, Bool.not_eq_true, Option.isSome_eq_false_iff, Option.isNone_iff_eq_none] at hb
        obtain ⟨v, he, hv⟩ := run_plain hg (prefBody_brings hl hr hb.1 hb.2)
        refine ⟨v, he, fun h => ?_, fun _ _ => ⟨?_, ?_⟩⟩
        · rw [hb.1, hb.2] at h
          simp at h
        · rintro rfl hglob
          refine ⟨?_, ?_⟩
          · rintro rfl
            have hp : w.prefetched o .l1 (.global pa false) = (w.readPlace w.curCore (.global pa false) 64 (!noL1 o) (streams o)).2 :=
              if_pos hglob
            rwa [hp] at hv
          · rintro rfl
            have hp : w.prefetched o .home (.global pa false) = w.lineIn line := if_pos hglob
            rwa [hp] at hv
        · rintro st d rfl rfl
          exact hv
    · rintro rfl
      exact run_plain hg (stashBody_drop hl hc hw)
    · rintro st rfl hr hf hs
      exact run_plain hg (stashBody_fill hl hc hw hr hf hs)
end


section
/-! What a wake changes: waiting records, ready queues, and contexts that are parking (03 R70, R80 to R82). -/

namespace Sys2Proof.Machine

variable {s t u : State} {h c : Nat} {key : Word} {e : WakeEv}

/-- `t` is `s` but for records that wait or are ready, and what a context that is parking has been told. -/
structure State.WakeOnly (s t : State) : Prop where
  eq : ∃ cores hamlets agenda, t = { s with cores := cores, hamlets := hamlets, agenda := agenda }
  ham : ∀ h, ∃ ws wk, t.ham h = { s.ham h with waiters := ws, wakes := wk }
  core : ∀ c, ∃ rd xs sv, t.core c = { s.core c with ready := rd, ctxs := xs, saved := sv }
  ctx : ∀ c k, ∃ p a, t.ctx c k = { s.ctx c k with parking := p, answer := a }

namespace State.WakeOnly

theorem refl (s : State) : s.WakeOnly s :=
  ⟨⟨_, _, _, rfl⟩, fun _ => ⟨_, _, rfl⟩, fun _ => ⟨_, _, _, rfl⟩, fun _ _ => ⟨_, _, rfl⟩⟩

theorem trans (h : s.WakeOnly t) (h' : t.WakeOnly u) : s.WakeOnly u := by
  refine ⟨?_, fun g => ?_, fun c => ?_, fun c k => ?_⟩
  · obtain ⟨_, _, _, rfl⟩ := h.eq
    obtain ⟨_, _, _, rfl⟩ := h'.eq
    exact ⟨_, _, _, rfl⟩
  · obtain ⟨_, _, e⟩ := h.ham g
    obtain ⟨_, _, e'⟩ := h'.ham g
    exact ⟨_, _, by rw [e', e]⟩
  · obtain ⟨_, _, _, e⟩ := h.core c
    obtain ⟨_, _, _, e'⟩ := h'.core c
    exact ⟨_, _, _, by rw [e', e]⟩
  · obtain ⟨_, _, e⟩ := h.ctx c k
    obtain ⟨_, _, e'⟩ := h'.ctx c k
    exact ⟨_, _, by rw [e', e]⟩

theorem mem (h : s.WakeOnly t) : t.mem = s.mem := by obtain ⟨_, _, _, rfl⟩ := h.eq; rfl
theorem full (h : s.WakeOnly t) : t.full = s.full := by obtain ⟨_, _, _, rfl⟩ := h.eq; rfl
theorem flight (h : s.WakeOnly t) : t.flight = s.flight := by obtain ⟨_, _, _, rfl⟩ := h.eq; rfl
theorem pkgid (h : s.WakeOnly t) : t.pkgid = s.pkgid := by obtain ⟨_, _, _, rfl⟩ := h.eq; rfl
theorem curCore (h : s.WakeOnly t) : t.curCore = s.curCore := by obtain ⟨_, _, _, rfl⟩ := h.eq; rfl
theorem curCtx (h : s.WakeOnly t) : t.curCtx = s.curCtx := by obtain ⟨_, _, _, rfl⟩ := h.eq; rfl

theorem foldl {α : Type} {f : State → α → State} (hf : ∀ (s : State) a, s.WakeOnly (f s a)) (l : List α) (s : State) :
    s.WakeOnly (l.foldl f s) := by
  induction l generalizing s with
  | nil => exact .refl s
  | cons a l ih => exact (hf s a).trans (ih _)

theorem foldl_fst {α β : Type} {f : State × β → α → State × β} (hf : ∀ (x : State × β) a, x.1.WakeOnly (f x a).1) (l : List α)
    (x : State × β) : x.1.WakeOnly (l.foldl f x).1 := by
  induction l generalizing x with
  | nil => exact .refl x.1
  | cons a l ih => exact (hf x a).trans (ih _)

end State.WakeOnly

theorem owe_wakeOnly (i : Instr) : s.WakeOnly (s.owe i) :=
  ⟨⟨_, _, _, rfl⟩, fun _ => ⟨_, _, rfl⟩, fun _ => ⟨_, _, _, rfl⟩, fun _ _ => ⟨_, _, rfl⟩⟩

theorem setHam_wakeOnly (h : Nat) (ws : List Waiter) (wk : List Wake) :
    s.WakeOnly (s.setHam h { s.ham h with waiters := ws, wakes := wk }) := by
  refine ⟨⟨_, _, _, rfl⟩, fun g => ?_, fun _ => ⟨_, _, _, rfl⟩, fun _ _ => ⟨_, _, rfl⟩⟩
  by_cases hg : g = h
  · subst hg; rw [setHam_ham_same]; exact ⟨_, _, rfl⟩
  · rw [setHam_ham_other _ _ _ hg]; exact ⟨_, _, rfl⟩

/-- A core whose contexts stay. -/
theorem setCore_wakeOnly (c : Nat) (rd : List Ready) (sv : List Saved) :
    s.WakeOnly (s.setCore c { s.core c with ready := rd, saved := sv }) := by
  refine ⟨⟨_, _, _, rfl⟩, fun _ => ⟨_, _, rfl⟩, fun d => ?_, fun d k => ?_⟩
  · by_cases hd : d = c
    · subst hd; rw [setCore_core_same]; exact ⟨_, _, _, rfl⟩
    · rw [setCore_core_other _ _ _ hd]; exact ⟨_, _, _, rfl⟩
  · have hx : (s.setCore c { s.core c with ready := rd, saved := sv }).ctx d k = s.ctx d k := by
      by_cases hd : d = c
      · subst hd; rw [State.ctx, setCore_core_same]; rfl
      · rw [State.ctx, setCore_core_other _ _ _ hd]; rfl
    rw [hx]
    exact ⟨_, _, rfl⟩

/-- A context that notes an event. -/
theorem setCtx_wakeOnly (c k : Nat) (p : Option Parking) (a : Option Answer) :
    s.WakeOnly (s.setCtx c k { s.ctx c k with parking := p, answer := a }) := by
  refine ⟨⟨_, _, _, rfl⟩, fun _ => ⟨_, _, rfl⟩, fun d => ?_, fun d l => ?_⟩
  · by_cases hd : d = c
    · subst hd; rw [State.setCtx, setCore_core_same]; exact ⟨_, _, _, rfl⟩
    · rw [State.setCtx, setCore_core_other _ _ _ hd]; exact ⟨_, _, _, rfl⟩
  · by_cases hd : d = c
    · subst hd
      by_cases hl : l = k
      · subst hl; rw [setCtx_ctx_same]; exact ⟨_, _, rfl⟩
      · rw [setCtx_ctx_other_ctx _ _ _ _ hl]; exact ⟨_, _, rfl⟩
    · rw [setCtx_ctx_other_core _ _ _ _ _ hd]; exact ⟨_, _, rfl⟩

theorem callIdle_wakeOnly : s.WakeOnly (s.callIdle c) := by
  unfold State.callIdle
  split
  · exact owe_wakeOnly _
  · exact .refl s

theorem makeReady_wakeOnly (r : Ready) : s.WakeOnly (s.makeReady c r) :=
  (setCore_wakeOnly c _ (s.core c).saved).trans callIdle_wakeOnly

theorem wakeOne_wakeOnly (w : Waiter) : s.WakeOnly (s.wakeOne h e w) := by
  unfold State.wakeOne
  split
  · exact (setHam_wakeOnly _ _ _).trans (owe_wakeOnly _)
  · exact makeReady_wakeOnly _

theorem wakePending_wakeOnly (taken : Bool) : s.WakeOnly (s.wakePending key e taken) := by
  unfold State.wakePending
  dsimp only
  refine .trans ?_ (.foldl (fun t c => ?_) _ _)
  · refine .foldl_fst (fun x ck => ?_) _ (s, taken)
    split
    · exact .refl _
    · split
      · split
        · exact setCtx_wakeOnly _ _ _ _
        · exact setCtx_wakeOnly _ _ _ _
      · split
        · exact setCtx_wakeOnly _ _ _ _
        · exact .refl _
  · split
    · exact setCore_wakeOnly _ _ _
    · exact .refl t

theorem withdraw_wakeOnly : s.WakeOnly (s.withdraw h key) := by
  unfold State.withdraw
  split
  · exact .refl s
  · refine .foldl (fun t g => ?_) _ _
    dsimp only
    split
    · exact setHam_wakeOnly _ _ _
    · exact .refl t

theorem wake_wakeOnly : s.WakeOnly (s.wake h key e) := by
  unfold State.wake
  dsimp only
  exact ((setHam_wakeOnly _ _ _).trans (.foldl (fun _ _ => wakeOne_wakeOnly _) _ _)).trans
    ((wakePending_wakeOnly _).trans withdraw_wakeOnly)

end Sys2Proof.Machine
end


section
/-! LDSYNC, STSYNC and FESET (08 R218 to R220). -/

namespace Sys2Proof.Machine

variable {s t u w : State} {ea : Word} {p : Place} {o : Ops} {pa : Nat} {kind : Access}

/-! ### Full/empty bits (05 R129) -/

theorem setFull_isFull (b : Bool) : (s.setFull pa b).isFull pa = b := by
  unfold State.setFull State.isFull
  cases b with
  | true => simp [mem_setIns]
  | false => simp

theorem setFull_isFull_other (b : Bool) {a : Nat} (h : a / 8 ≠ pa / 8) : (s.setFull pa b).isFull a = s.isFull a := by
  unfold State.setFull State.isFull
  cases b with
  | true =>
    rw [if_pos rfl, Bool.eq_iff_iff]
    simp [mem_setIns, h]
  | false =>
    rw [if_neg (by decide), Bool.eq_iff_iff]
    simp [h]

theorem LinksOnly.full (h : LinksOnly s t) : t.full = s.full := by obtain ⟨_, _, _, _, _, _, rfl⟩ := h; rfl

theorem LinksOnly.foldl {α : Type} {f : State → α → State} (hf : ∀ (s : State) a, LinksOnly s (f s a)) (l : List α) (s : State) :
    LinksOnly s (l.foldl f s) := by
  induction l generalizing s with
  | nil => exact .refl s
  | cons a l ih => exact (hf s a).trans (ih _)

theorem wakeFar_links : LinksOnly s (s.wakeFar pa) := .foldl (fun _ _ => packetOut_links _ _ _ _ _) _ _

theorem wakeWord_isFull (a : Nat) : (s.wakeWord pa).isFull a = s.isFull a := by
  unfold State.wakeWord State.isFull
  rw [wakeFar_links.full, wake_wakeOnly.full]

theorem syncStore_isFull (v : Word) : (s.syncStore pa v).isFull pa = true := by
  unfold State.syncStore
  rw [wakeWord_isFull, setFull_isFull]

theorem setWord_isFull (b : Bool) : (s.setWord pa b).isFull pa = b := by
  unfold State.setWord
  cases b with
  | true => rw [if_pos rfl, wakeWord_isFull, setFull_isFull]
  | false => rw [if_neg (by decide), setFull_isFull]

/-! ### The word of an access -/

/-- The storage address of the word at a place. -/
def Place.word (p : Place) : Nat :=
  match p with
  | .near pa | .far pa _ | .global pa _ | .foreign _ pa _ => pa
  | .window st _ _ => st

theorem withWord_misaligned {k : State → Place → Nat → Act} (ha : ea.toNat % 8 ≠ 0) : s.withWord ea kind k = .trap 0x03 ea := by
  unfold State.withWord
  rw [if_pos (by simpa [aligned] using ha)]

/-- An aligned access to a full/empty word that nothing keeps waiting. -/
theorem withWord_ok {k : State → Place → Nat → Act} (ha : ea.toNat % 8 = 0) (hq : kind = .read → s.queued ea 8 = none)
    (hm : s.refusedMeet ea 8 kind = none) (hr : s.resolve ea kind = .ok (p, w)) (hw : w.feWord p.word = true)
    (hb : (if kind = .read then w.placeBad w.curCore p 8 else w.fillBad w.curCore p) = none) :
    s.withWord ea kind k = match w.placeStuck w.curCore p 8 with
      | some l => .hold (w.cxlAsk l false 0)
      | none => k w p p.word := by
  have hbehind : (if kind = .read then s.queued ea 8 else none) = none := by
    by_cases hk : kind = .read
    · rw [if_pos hk, hq hk]
    · rw [if_neg hk]
  unfold State.withWord
  rw [if_neg (by simpa [aligned] using ha), hm]
  dsimp only
  rw [hbehind, hr]
  dsimp only
  rw [if_neg (by simp), hb]
  cases p <;> simp only [Place.word] at hw ⊢ <;> rw [hw] <;> rfl

/-! ### LDSYNC -/

theorem ite_bnot (b : Bool) (x y : Act) : (if (!b) = true then x else y) = if b = true then y else x := by cases b <;> rfl

/-- The state in which a word is looked at: its window line filled, or counted where it is another hamlet's. -/
def State.atWord (t : State) (p : Place) : State :=
  match p with
  | .far q _ => (t.filled p).direct q
  | _ => t.filled p

/-- Whether a look at a word of another hamlet must wait. -/
def State.wordWaits (t : State) (p : Place) : Bool :=
  match p with
  | .far q dev => t.pathBusy (t.homeOf q) || (dev && t.posting)
  | _ => false

theorem ldsyncBody_handler {cons : Bool} (h : s.onHandler = true) : ldsyncBody o cons s = illegal (.ldsync o cons) := by
  unfold ldsyncBody
  rw [if_pos h]

section
variable {cons : Bool} (hh : s.onHandler = false) (hl : s.locsFault [scLoc o o.a, scLoc o o.d] = none)
include hh hl

theorem ldsyncBody_misaligned (ha : (s.ea o 8).toNat % 8 ≠ 0) : ldsyncBody o cons s = .trap 0x03 (s.ea o 8) := by
  unfold ldsyncBody
  dsimp only
  rw [hh, if_neg (by decide), within_ok hl, withWord_misaligned ha]

variable (ha : (s.ea o 8).toNat % 8 = 0) (hq : s.queued (s.ea o 8) 8 = none) (hr : s.resolve (s.ea o 8) .read = .ok (p, w))
  (hw : w.feWord p.word = true) (hb : w.placeBad w.curCore p 8 = none) (hs : w.placeStuck w.curCore p 8 = none)
include ha hq hr hw hb hs

/-- LDSYNC of a word of the own package. -/
theorem ldsyncBody_here (hp : ∀ pk q dev, p ≠ .foreign pk q dev) (hwait : w.wordWaits p = false) :
    ldsyncBody o cons s =
      if (w.atWord p).isFull p.word then
        .done (((if cons then (w.atWord p).setFull p.word false else w.atWord p).var
          [cellAt (scAddr o o.d) 8 (ofBytes ((w.atWord p).homeRead p.word 8))]).acquire (s.syncScope o))
      else .park (w.atWord p) (if cons then 0x04 else 0x03) (wordKey p.word) := by
  unfold ldsyncBody
  dsimp only
  rw [hh, if_neg (by decide), within_ok hl,
    withWord_ok ha (fun _ => hq) (refusedMeet_none hq hr) hr hw ((if_pos rfl).trans hb), hs]
  dsimp only
  cases p with
  | foreign pk q dev => exact absurd rfl (hp pk q dev)
  | far q dev =>
    have hx : ¬ (w.pathBusy (w.homeOf q) || (dev && w.posting)) = true := by
      rw [Bool.not_eq_true]
      exact hwait
    refine (if_neg hx).trans ?_
    simp only [State.atWord, Place.word]
    exact ite_bnot _ _ _
  | near q | window q _ _ | global q _ =>
    refine (if_neg Bool.false_ne_true).trans ?_
    exact ite_bnot _ _ _

/-- LDSYNC of a word of another package that has not been asked for. -/
theorem ldsyncBody_asks {pk : BitVec 20} {q : Nat} {dev : Bool} (hp : p = .foreign pk q dev)
    (hd : dev = true → w.posting = false) (hn : w.me.dbuf = none) :
    ldsyncBody o cons s = .left (w.remoteRead pk (.ldsync q cons) false) := by
  subst hp
  have hx : ¬ (dev && w.posting) = true := by cases dev <;> simp_all
  unfold ldsyncBody
  dsimp only
  rw [hh, if_neg (by decide), within_ok hl,
    withWord_ok ha (fun _ => hq) (refusedMeet_none hq hr) hr hw ((if_pos rfl).trans hb), hs]
  dsimp only
  rw [hn]
  exact if_neg hx

/-- LDSYNC of a word of another package whose answer has come. -/
theorem ldsyncBody_answered {pk : BitVec 20} {q : Nat} {dev : Bool} {r : BitVec 512} (hp : p = .foreign pk q dev)
    (hn : w.me.dbuf = some (farWord pk q, r)) :
    ldsyncBody o cons s =
      if r.getLsbD 64 then .park (w.setMe { w.me with dbuf := none }) (if cons then 0x04 else 0x03) (farWord pk q)
      else .done (((w.setMe { w.me with dbuf := none }).var [cellAt (scAddr o o.d) 8 (fld r 63 0)]).acquire (s.syncScope o)) := by
  subst hp
  unfold ldsyncBody
  dsimp only
  rw [hh, if_neg (by decide), within_ok hl,
    withWord_ok ha (fun _ => hq) (refusedMeet_none hq hr) hr hw ((if_pos rfl).trans hb), hs]
  dsimp only
  rw [hn]
  exact if_pos rfl

end

/-! ### STSYNC and FESET -/

/-- STSYNC at a place. -/
def State.stsyncAt (t : State) (v : Word) (wide : Bool) (p : Place) (pa : Nat) : State :=
  match p with
  | .foreign pk q dev => (t.send pk 2 false (.stsync q v) dev).1
  | .far q dev => (t.send t.pkgid 1 false (.stsync q v) dev).1
  | .window st home d =>
    let bs := offsets (bytesOf 8 v.toNat)
    let h := hamOf t.curCore
    (if wide then t.windowHomePut h st home d bs
      else (((t.filled p).dirtyWindow h st bs true).shareL1 h home bs).shareWin h home bs (some (winKey (st / 64 * 64)))).syncStore st v
  | _ => t.syncStore pa v

section
variable {v : Word} {wide : Bool} {q b : Nat} {dev : Bool} {pk : BitVec 20} {d : BitVec 128}

theorem stsyncAt_near (hp : p = .near q) : w.stsyncAt v wide p b = w.syncStore b v := by subst hp; rfl
theorem stsyncAt_window (hp : p = .window q pa d) (hw : wide = true) : w.stsyncAt v wide p b =
    (w.windowHomePut (hamOf w.curCore) q pa d (offsets (bytesOf 8 v.toNat))).syncStore q v := by subst hp hw; rfl
theorem stsyncAt_far (hp : p = .far q dev) : w.stsyncAt v wide p b = (w.send w.pkgid 1 false (.stsync q v) dev).1 := by
  subst hp; rfl
theorem stsyncAt_foreign (hp : p = .foreign pk q dev) : w.stsyncAt v wide p b = (w.send pk 2 false (.stsync q v) dev).1 := by
  subst hp; rfl

end

/-- What STSYNC does once its release has come. -/
def stsyncGo (o : Ops) (s r : State) : Act :=
  r.withWord (s.ea o 8) .write fun t p pa =>
    if t.storeHeld p 8 false (Scope.wide (s.syncScope o)) then .hold s
    else .done (t.stsyncAt (s.scOp o o.d) (Scope.wide (s.syncScope o)) p pa)

theorem stsyncBody_eq (hl : s.locsFault [scLoc o o.a, scLoc o o.d] = none) :
    stsyncBody o s = if (s.ea o 8).toNat % 8 ≠ 0 then .trap 0x03 (s.ea o 8)
      else s.released (s.syncScope o) true (stsyncGo o s) := by
  unfold stsyncBody
  dsimp only
  rw [within_ok hl]
  by_cases ha : (s.ea o 8).toNat % 8 = 0
  · rw [if_neg (by simpa [aligned] using ha), if_neg (not_not.mpr ha)]
    congr 1
    funext r
    unfold stsyncGo
    congr 1
    funext t p pa
    split
    · rfl
    · cases p <;> rfl
  · rw [if_pos (by simpa [aligned] using ha), if_pos ha]

/-- FESET at a place. -/
def State.fesetAt (t : State) (full : Bool) (p : Place) (pa : Nat) : State :=
  match p with
  | .foreign pk q dev => (t.send pk 2 false (.feset q full) dev).1
  | .far q dev => (t.send t.pkgid 1 false (.feset q full) dev).1
  | _ => (t.filled p).setWord pa full

section
variable {full : Bool} {q b : Nat} {dev : Bool} {pk : BitVec 20} {d : BitVec 128}

theorem fesetAt_near (hp : p = .near q) : w.fesetAt full p b = w.setWord b full := by subst hp; rfl
theorem fesetAt_window (hp : p = .window q pa d) : w.fesetAt full p b =
    (w.fillWindow (hamOf w.curCore) q pa d).setWord b full := by subst hp; rfl
theorem fesetAt_far (hp : p = .far q dev) : w.fesetAt full p b = (w.send w.pkgid 1 false (.feset q full) dev).1 := by
  subst hp; rfl
theorem fesetAt_foreign (hp : p = .foreign pk q dev) : w.fesetAt full p b = (w.send pk 2 false (.feset q full) dev).1 := by
  subst hp; rfl

end

theorem fesetBody_eq {full : Bool} (hl : s.locsFault [scLoc o o.a] = none) :
    fesetBody o full s = s.withWord (s.ea o 8) .write fun t p pa =>
      if t.storeHeld p 8 false then .hold s else .done (t.fesetAt full p pa) := by
  unfold fesetBody
  dsimp only
  rw [within_ok hl]
  congr 1
  funext t p pa
  split
  · rfl
  · cases p <;> rfl

theorem refusedMeet_gone {n : Nat} (h : s.queueGone = true) : s.refusedMeet ea n kind = none := by
  have ho : s.ownRefused = none := by
    unfold State.ownRefused
    rw [List.find?_eq_none]
    intro r hr
    have := (List.all_eq_true.mp h) r hr
    simp only [decide_eq_true_eq] at this
    simp [this]
  unfold State.refusedMeet
  rw [ho]
  rfl

theorem releaseReady_queueGone {sc : Scope} (h : s.releaseReady sc true = true) : s.queueGone = true := by
  unfold State.releaseReady at h
  rw [Bool.and_eq_true] at h
  obtain ⟨-, h⟩ := h
  split at h <;> simp only [Bool.and_eq_true, Bool.not_true, Bool.false_or] at h
  · exact h.2
  · exact h.1.1.1

/-- The three places at which a word of the own package is looked at. -/
theorem atWord_of {y : State} {q : Nat}
    (h : (p = .near q ∧ y = w) ∨ (∃ a d, p = .window q a d ∧ y = w.fillWindow (hamOf w.curCore) q a d) ∨
      (∃ dev, p = .far q dev ∧ w.pathBusy (w.homeOf q) = false ∧ (dev = true → w.posting = false) ∧ y = w.direct q)) :
    y = w.atWord p ∧ w.wordWaits p = false ∧ ∀ pk q dev, p ≠ .foreign pk q dev := by
  obtain ⟨rfl, rfl⟩ | ⟨a, d, rfl, rfl⟩ | ⟨dev, rfl, hb, hd, rfl⟩ := h
  · exact ⟨rfl, rfl, by simp⟩
  · exact ⟨rfl, rfl, by simp⟩
  · refine ⟨rfl, ?_, by simp⟩
    show (w.pathBusy (w.homeOf q) || (dev && w.posting)) = false
    rw [hb, Bool.false_or]
    cases dev with
    | false => rfl
    | true => exact hd rfl

/-- A body that leaves one result and then takes an acquire's effects. -/
theorem run_push_acquire {i : Instr} {body : State → Act} {cells : List Cell} {sc : Scope} (h : s.goes i o = true)
    (hb : body (s.entered o) = .done ((u.var cells).acquire sc)) :
    ∃ t, s.run i o body = .next t ∧ Retires (u.acquire sc) t o [varResult cells] := by
  refine run_push_on h (hb.trans ?_)
  rw [State.var, State.push, State.push, acquire_me, acquire_setMe]
  rfl

theorem run_park {i : Instr} {body : State → Act} {cond : BitVec 5} {key : Word} (h : s.goes i o = true)
    (hb : body (s.entered o) = .park u cond key) : s.run i o body = .next (u.park cond key) := by
  rw [run_goes h, hb]; rfl

theorem run_left {i : Instr} {body : State → Act} (h : s.goes i o = true) (hb : body (s.entered o) = .left u) :
    s.run i o body = .next u := by
  rw [run_goes h, hb]; rfl

end Sys2Proof.Machine

open Sys2Proof Sys2Proof.Machine

/-- Settles O32: what each of the three does to the word that its address names, and what a full/empty bit is afterwards. -/
theorem fullEmptyWordsComplete : Obligations.FullEmptyWordsComplete := by
  refine ⟨fun s w o p => ?_, fun s pa a v b => ⟨setFull_isFull b, fun h => setFull_isFull_other b h, rfl, syncStore_isFull v, setWord_isFull b⟩⟩
  intro u ea sc pa
  refine ⟨fun cons hg => ⟨fun hh => ?_, fun hh hl => ⟨fun ha => ?_, fun ha hq hr hw hb hs => ⟨?_, ?_⟩⟩⟩, fun hg hl => ⟨?_, ?_⟩, fun full hg hl => ⟨?_, ?_⟩⟩
  · exact run_trap hg (ldsyncBody_handler hh)
  · exact run_trap hg (ldsyncBody_misaligned hh hl ha)
  · intro y hy
    obtain ⟨rfl, hwait, hp⟩ := atWord_of hy
    have hbody := ldsyncBody_here (cons := cons) hh hl ha hq hr hw hb hs hp hwait
    refine ⟨fun hf => ?_, fun hf => run_park hg (hbody.trans (if_neg (by rw [Bool.not_eq_true]; exact hf)))⟩
    obtain ⟨v, he, hv⟩ := run_push_acquire hg (hbody.trans (if_pos hf))
    refine ⟨v, he, hv, hv.mem.trans (acquire_mem.trans ?_)⟩
    cases cons <;> rfl
  · intro pk dev hp hd
    refine ⟨fun hn => run_left hg (ldsyncBody_asks hh hl ha hq hr hw hb hs hp hd hn), fun r hn => ?_⟩
    have hbody := ldsyncBody_answered (cons := cons) hh hl ha hq hr hw hb hs hp hn
    exact ⟨fun h0 => run_push_acquire hg (hbody.trans (if_neg (by rw [Bool.not_eq_true]; exact h0))),
      fun h1 => run_park hg (hbody.trans (if_pos h1))⟩
  · exact fun ha => run_trap hg ((stsyncBody_eq hl).trans (if_pos ha))
  · rintro ha hrel ⟨w', hr', hw', hf'⟩ hr hw hf hs hh
    have hq := releaseReady_queueGone hrel
    have hq' : (u.release sc).queueGone = true := by rw [(release_homeOnly sc).queueGone]; exact hq
    have hnt : ∀ c info, stsyncGo o u u.unqueued ≠ .trap c info := by
      intro c info
      rw [unqueued_gone hq]
      unfold stsyncGo
      rw [withWord_ok ha (by simp) (refusedMeet_gone hq) hr' hw' hf']
      split
      · simp
      · split <;> simp
    have hbody : stsyncBody o u = .done (w.stsyncAt (u.scOp o o.d) (Scope.wide sc) p pa) := by
      rw [stsyncBody_eq hl, if_neg (not_not.mpr ha), released_ready hnt hrel]
      unfold stsyncGo
      rw [withWord_ok ha (by simp) (refusedMeet_gone hq') hr hw hf, hs]
      exact if_neg (by rw [Bool.not_eq_true]; exact hh)
    obtain ⟨v, he, hv⟩ := run_plain hg hbody
    refine ⟨v, he, fun hp => ?_, fun q d hp hwide => ?_, fun dev hp => ?_, fun pk dev hp => ?_⟩
    · exact stsyncAt_near hp ▸ hv
    · exact stsyncAt_window hp hwide ▸ hv
    · exact stsyncAt_far hp ▸ hv
    · exact stsyncAt_foreign hp ▸ hv
  · exact fun ha => run_trap hg ((fesetBody_eq hl).trans (withWord_misaligned ha))
  · intro ha hm hr hw hf hs hh
    have hbody : fesetBody o full u = .done (w.fesetAt full p pa) := by
      rw [fesetBody_eq hl, withWord_ok ha (by simp) hm hr hw hf, hs]
      exact if_neg (by rw [Bool.not_eq_true]; exact hh)
    obtain ⟨v, he, hv⟩ := run_plain hg hbody
    refine ⟨v, he, fun hp => ?_, fun q d hp => ?_, fun dev hp => ?_, fun pk dev hp => ?_⟩
    · exact fesetAt_near hp ▸ hv
    · exact fesetAt_window hp ▸ hv
    · exact fesetAt_far hp ▸ hv
    · exact fesetAt_foreign hp ▸ hv
end


section
/-! AMO, CAS and RED (08 R229 to R232, 06 R164). -/

namespace Sys2Proof.Machine

variable {s t u w : State} {ea : Word} {p : Place} {o : Ops} {pa cnt : Nat} {fn : AtomicFn} {pk : BitVec 20}

/-! ### The state without the context's replay entries (06 R166) -/

theorem unqueued_queueGone : s.unqueued.queueGone = true := by
  unfold State.unqueued
  split
  next h => exact h
  next =>
    have hc : (s.setMyCore { s.myCore with replay := s.myCore.replay.filter fun r => r.ctx ≠ s.curCtx }).myCore =
        { s.myCore with replay := s.myCore.replay.filter fun r => r.ctx ≠ s.curCtx } := setCore_core_same _ _ _
    unfold State.queueGone
    rw [hc]
    simp only [List.all_filter]
    rw [List.all_eq_true]
    intro r hr
    show (!decide (r.ctx ≠ s.curCtx) || decide (r.ctx ≠ s.curCtx)) = true
    exact Bool.not_or_self _

theorem queued_gone {n : Nat} (h : s.queueGone = true) : s.queued ea n = none := by
  unfold State.queued
  rw [List.find?_eq_none]
  intro r hr
  have := (List.all_eq_true.mp h) r hr
  simp only [decide_eq_true_eq] at this
  simp [this]

/-! ### AMO and CAS -/

/-- What AMO and CAS leave of storage of the own hamlet. -/
def atomicHere (o : Ops) (fn : AtomicFn) (k : Nat) (t : State) (pa : Nat) : State :=
  let r := t.applyAtomic pa fn
  let u := r.2.2.var [cellAt (scAddr o o.d) k r.1] r.2.1
  if (ordOf o).1 = 1 || (ordOf o).1 = 3 then u.acquire (ordOf o).2 else u

/-- What AMO and CAS leave where a message takes them to their home. -/
def atomicAway (o : Ops) (fn : AtomicFn) (k : Nat) (t : State) (p : Place) (pk : BitVec 20) (pa : Nat) : State :=
  let r := (t.evictFor p).send pk 0 true (.atomic pa fn) p.device
  let u := r.1.varAwait [cellAt (scAddr o o.d) k 0] [(r.2, 8 * (scAddr o o.d % 64))]
  if (ordOf o).1 = 1 || (ordOf o).1 = 3 then u.acquireAfter (ordOf o).2 true else u

/-- What holds of every other package than the own one. -/
theorem unlessOwn {b : Bool} {own : BitVec 20} (h : pk ≠ own → b = false) : (decide (pk ≠ own) && b) = false := by
  by_cases hp : pk = own
  · simp [hp]
  · simp [h hp]

/-- AMO and CAS of an aligned address do the same before and after a release: where the address resolves and its line is in order,
they raise no trap, and act on its place. -/
theorem atomicBody_acts (o : Ops) (fn : AtomicFn) (k : Nat) (s : State) :
    ∃ go : State → Act,
      (atomicBody o fn k s = if !aligned (s.ea o (fnBytes fn)) (fnBytes fn) then .trap 0x03 (s.ea o (fnBytes fn))
        else if (ordOf o).1 = 2 || (ordOf o).1 = 3 then s.released (ordOf o).2 false go else go s) ∧
      ∀ r p t, r.queued (s.ea o (fnBytes fn)) (fnBytes fn) = none → r.resolve (s.ea o (fnBytes fn)) .atomic = .ok (p, t) →
        t.placeBad t.curCore p (fnBytes fn) = none →
        ((∀ pk q c, t.atomicHome p = some (pk, q, c) → pk ≠ t.pkgid → t.deadPeer pk = false) →
          ∀ c info, go r ≠ .trap c info) ∧
        (t.placeStuck t.curCore p (fnBytes fn) = none →
          (∀ pa, p = .near pa → go r = .done (atomicHere o fn k t pa)) ∧
          ∀ pk pa c, t.atomicHome p = some (pk, pa, c) → (p.device = true → t.posting = false) →
            (pk ≠ t.pkgid → t.deadPeer pk = false ∧ t.linkFull pk = false) → go r = .done (atomicAway o fn k t p pk pa)) := by
  unfold atomicBody
  dsimp only
  refine ⟨_, rfl, fun r p t hq hr hb => ?_⟩
  rw [refusedMeet_none hq hr, hr]
  simp only [hb, hq]
  refine ⟨fun hd c info => ?_, fun hs => ?_⟩
  · cases t.placeStuck t.curCore p (fnBytes fn) with
    | some l => simp
    | none =>
      cases hp : t.atomicHome p with
      | none => cases p <;> simp
      | some e =>
        obtain ⟨pk, q, n⟩ := e
        have hde := unlessOwn (hd pk q n hp)
        cases p with
        | near _ => simp
        | far _ _ | window _ _ _ | global _ _ | foreign _ _ _ =>
          simp only [hde, Bool.false_eq_true, if_false]
          split
          · simp
          · split <;> simp
  · rw [hs]
    refine ⟨?_, fun pk pa c hp hd hk => ?_⟩
    · rintro pa rfl
      rfl
    · have hde := unlessOwn fun h => (hk h).1
      have hlf := unlessOwn fun h => (hk h).2
      have hdv : (p.device && t.posting) = false := by
        cases h : p.device with
        | false => rfl
        | true => exact hd h
      cases p with
      | near _ => cases hp
      | far _ _ | window _ _ _ | global _ _ | foreign _ _ _ =>
        rw [hp]
        simp only [hde, hlf, hdv, Bool.false_eq_true, if_false]
        rfl

theorem atomicHere_retires {i : Instr} {body : State → Act} {k : Nat} (h : s.goes i o = true)
    (hb : body (s.entered o) = .done (atomicHere o fn k w pa)) :
    ∃ v, s.run i o body = .next v ∧
      Retires ((fun x : State => if (ordOf o).1 = 1 ∨ (ordOf o).1 = 3 then x.acquire (ordOf o).2 else x)
        (match (fnApply fn (ofBytes (w.homeRead pa (fnBytes fn)))).1 with
          | some x => w.homePut pa (offsets (bytesOf (fnBytes fn) x)) | none => w)) v o
        [varResult [cellAt (scAddr o o.d) k (ofBytes (w.homeRead pa (fnBytes fn)))]
          (fnApply fn (ofBytes (w.homeRead pa (fnBytes fn)))).2] := by
  refine run_push_on h (hb.trans (congrArg Act.done ?_))
  unfold atomicHere
  simp only [Bool.or_eq_true, decide_eq_true_eq]
  split
  · rw [State.var, State.push, State.push, acquire_me, acquire_setMe]
    rfl
  · rfl

theorem acquireAfter_push (r : Result) (sc : Scope) :
    (s.push r).acquireAfter sc true = (s.acquireAfter sc true).push r := by
  simp [State.acquireAfter, State.push]

theorem atomicAway_retires {i : Instr} {body : State → Act} {k : Nat} (h : s.goes i o = true)
    (hb : body (s.entered o) = .done (atomicAway o fn k w p pk pa)) :
    let m := (w.evictFor p).send pk 0 true (.atomic pa fn) p.device
    ∃ v, s.run i o body = .next v ∧
      Retires (if (ordOf o).1 = 1 ∨ (ordOf o).1 = 3 then m.1.acquireAfter (ordOf o).2 true else m.1) v o
        [{ due := .var [(m.2, 8 * (scAddr o o.d % 64))], cells := [cellAt (scAddr o o.d) k 0], flags := 0 }] := by
  intro m
  unfold atomicAway at hb
  simp only [Bool.or_eq_true, decide_eq_true_eq] at hb
  split at hb
  next ho =>
    rw [if_pos ho]
    rw [State.varAwait, acquireAfter_push] at hb
    exact run_push_on h hb
  next ho =>
    rw [if_neg ho]
    exact run_push_on h hb

/-! ### RED -/

/-- RED of an aligned address, before and after a release. -/
theorem redBody_acts (o : Ops) (f : AmoFn) (s : State) (hl : s.locsFault [scLoc o o.a, scLoc o o.d] = none) :
    ∃ go : State → Act,
      (redBody o f s = if !aligned (s.ea o (amoBytes f)) (amoBytes f) then .trap 0x03 (s.ea o (amoBytes f))
        else if (ordOf o).1 = 2 then s.released (ordOf o).2 false go else go s) ∧
      ∀ r p t, r.me.tblroot = s.me.tblroot → r.queueGone = true → r.resolve (s.ea o (amoBytes f)) .atomic = .ok (p, t) →
        (∀ c info, go r ≠ .trap c info) ∧
        (∀ pa, p = .near pa → go r = .done (t.applyAtomic pa (.amo f (s.scOp o o.d))).2.2) ∧
        ∀ pk pa c, t.atomicHome p = some (pk, pa, c) → t.countFull c = false → (pk ≠ t.pkgid → t.linkFull pk = false) →
          (p.device = true → t.posting = false) →
          go r = .done ((t.evictFor p).send pk c false (.atomic pa (.amo f (s.scOp o o.d))) p.device).1 := by
  unfold redBody
  dsimp only
  rw [within_ok hl]
  refine ⟨_, rfl, fun r p t hroot hq hr => ?_⟩
  rw [← hroot, resolveFor_of_resolve hr]
  simp only [storeFault_none hq, Option.map_none]
  refine ⟨fun c info => ?_, ?_, fun pk pa c hp hc hlf hd => ?_⟩
  · cases hp : t.atomicHome p with
    | none => cases p <;> simp
    | some e => cases p <;> simp only [ne_eq, reduceCtorEq, not_false_eq_true] <;> split <;> simp
  · rintro pa rfl
    rfl
  · have hlf := unlessOwn hlf
    have hdv : (p.device && t.posting) = false := by
      cases h : p.device with
      | false => rfl
      | true => exact hd h
    cases p with
    | near _ => cases hp
    | far _ _ | window _ _ _ | global _ _ | foreign _ _ _ =>
      rw [hp]
      simp only [hc, hlf, hdv, Bool.or_self, Bool.false_eq_true, if_false]

/-! ### The operations (08 R229, R230) -/

theorem amoFn_min (old x : Word) : (amoFn .min old x).1 = if x.slt old then x else old := by
  simp only [amoFn, BitVec.slt, decide_eq_true_eq]
  split <;> split <;> first | rfl | omega

theorem amoFn_max (old x : Word) : (amoFn .max old x).1 = if old.slt x then x else old := by
  simp only [amoFn, BitVec.slt, decide_eq_true_eq]
  rcases lt_trichotomy old.toInt x.toInt with h | h | h
  · rw [if_pos h.le, if_pos h]
  · rw [BitVec.eq_of_toInt_eq h, ite_self, ite_self]
  · rw [if_neg h.not_ge, if_neg h.not_gt]

theorem amoFn_minu (old x : Word) : (amoFn .minu old x).1 = if x.ult old then x else old := by
  simp only [amoFn, BitVec.ult, decide_eq_true_eq]
  split <;> split <;> first | rfl | omega

theorem amoFn_maxu (old x : Word) : (amoFn .maxu old x).1 = if old.ult x then x else old := by
  simp only [amoFn, BitVec.ult, decide_eq_true_eq]
  rcases lt_trichotomy old.toNat x.toNat with h | h | h
  · rw [if_pos h.le, if_pos h]
  · rw [BitVec.eq_of_toNat_eq h, ite_self, ite_self]
  · rw [if_neg h.not_ge, if_neg h.not_gt]

theorem amoFn_add32 (old x : Word) :
    (amoFn .add32 old x).1.setWidth 32 = (old.setWidth 32 + x.setWidth 32 : BitVec 32) := by
  simp only [amoFn]
  bv_omega

/-- AMO and CAS, in whatever form, as far as their operands are in order. -/
theorem atomicBody_completes {i : Instr} {body : State → Act} {k : Nat} (hg : s.goes i o = true)
    (hbody : body (s.entered o) = atomicBody o fn k (s.entered o)) :
    let u := s.entered o
    let ord := (ordOf o).1
    let sc := (ordOf o).2
    let acq := fun (x : State) => if ord = 1 ∨ ord = 3 then x.acquire sc else x
    let n := fnBytes fn
    let ea := u.ea o n
    let u' := u.orderedBy ord sc
    ((ord = 2 ∨ ord = 3) → u.releaseReady sc false = true) →
    (ea.toNat % n ≠ 0 → s.run i o body = .next (u.trap 0x03 ea u.me.faultPc)) ∧
    (ea.toNat % n = 0 → u'.queued ea n = none → u'.resolve ea .atomic = .ok (p, w) → w.placeBad w.curCore p n = none →
      w.placeStuck w.curCore p n = none →
      ((ord = 2 ∨ ord = 3) → ∃ w', u.unqueued.resolve ea .atomic = .ok (p, w') ∧ w'.placeBad w'.curCore p n = none ∧
        ∀ pk q c, w'.atomicHome p = some (pk, q, c) → pk ≠ w'.pkgid → w'.deadPeer pk = false) →
      (p = .near pa →
        let old := ofBytes (w.homeRead pa n)
        ∃ v, s.run i o body = .next v ∧
          Retires (acq (match (fnApply fn old).1 with | some x => w.homePut pa (offsets (bytesOf n x)) | none => w)) v o
            [varResult [cellAt (scAddr o o.d) k old] (fnApply fn old).2]) ∧
      (∀ pk cnt, w.atomicHome p = some (pk, pa, cnt) → (p.device = true → w.posting = false) →
        (pk ≠ w.pkgid → w.deadPeer pk = false ∧ w.linkFull pk = false) →
        let m := (w.evictFor p).send pk 0 true (.atomic pa fn) p.device
        ∃ v, s.run i o body = .next v ∧ Retires (if ord = 1 ∨ ord = 3 then m.1.acquireAfter sc true else m.1) v o
          [{ due := .var [(m.2, 8 * (scAddr o o.d % 64))], cells := [cellAt (scAddr o o.d) k 0], flags := 0 }])) := by
  intro u ord sc acq n ea u' hrel
  obtain ⟨go, hgo, hact⟩ := atomicBody_acts o fn k u
  refine ⟨fun ha => run_trap hg ?_, fun ha hq hr hb hs hpre => ?_⟩
  · rw [hbody, hgo, if_pos (by simpa [aligned] using ha)]
  · have hgo' : body u = go u' := by
      rw [hbody, hgo, if_neg (by simpa [aligned] using ha)]
      by_cases ho : ord = 2 ∨ ord = 3
      · obtain ⟨w', hr', hb', hd'⟩ := hpre ho
        have hu : u' = u.release sc := by simp only [u', State.orderedBy, if_pos ho]
        rw [if_pos (by simpa using ho), hu]
        exact released_ready (((hact _ p w' (queued_gone unqueued_queueGone) hr' hb').1 hd')) (hrel ho)
      · have hu : u' = u := by simp only [u', State.orderedBy, if_neg ho]
        rw [if_neg (by simpa using ho), hu]
    obtain ⟨-, hdo⟩ := hact u' p w hq hr hb
    obtain ⟨hnear, haway⟩ := hdo hs
    exact ⟨fun hp => atomicHere_retires hg (hgo'.trans (hnear pa hp)),
      fun pk cnt hp hd hk => atomicAway_retires hg (hgo'.trans (haway pk pa cnt hp hd hk))⟩

end Sys2Proof.Machine

open Sys2Proof Sys2Proof.Machine

/-- Settles O33: AMO, CAS and RED at the place that their address names, and what their operations leave. -/
theorem atomicsComplete : Obligations.AtomicsComplete := by
  refine ⟨fun s w o p pa => ?_, fun old x => ⟨rfl, rfl, rfl, rfl, rfl, amoFn_min old x, amoFn_max old x, amoFn_minu old x,
    amoFn_maxu old x, amoFn_add32 old x, ?_, fun f cmp new n => rfl⟩⟩
  · intro u ord sc acq operand hrel u'
    refine ⟨fun i fn k ls hi hg hl => ?_, fun f hg hl ho => ?_⟩
    · obtain ⟨f, rfl, rfl, rfl, rfl⟩ | ⟨f, rfl, rfl, rfl, rfl⟩ := hi
      · exact atomicBody_completes hg (within_ok hl) hrel
      · exact atomicBody_completes hg (within_ok hl) hrel
    · obtain ⟨go, hgo, hact⟩ := redBody_acts o f u hl
      refine ⟨fun ha => run_trap hg (hgo.trans (if_pos (by simpa [aligned] using ha))), fun ha hq hr hpre => ?_⟩
      have ho' : u.HomeOnly u' := orderedBy_homeOnly ord sc
      have hbody : redBody o f u = go u' := by
        rw [hgo, if_neg (by simpa [aligned] using ha)]
        by_cases h2 : ord = 2
        · obtain ⟨w', hr'⟩ := hpre h2
          have hq' : u.queueGone = true := by rw [← ho'.queueGone]; exact hq
          have hu : u' = u.release sc := by simp only [u', State.orderedBy, h2, true_or, if_true]
          rw [if_pos h2, hu]
          refine released_ready ?_ (hrel (.inl h2))
          rw [unqueued_gone hq']
          exact (hact u p w' rfl hq' hr').1
        · have hu : u' = u := if_neg (by rintro (h | h) <;> omega)
          rw [if_neg h2, hu]
      obtain ⟨-, hnear, haway⟩ := hact u' p w (by rw [ho'.me]) hq hr
      exact ⟨fun hp => run_plain hg (hbody.trans (hnear pa hp)),
        fun pk cnt hp hc hlf hd => run_plain hg (hbody.trans (haway pk pa cnt hp hc hlf hd))⟩
  · rintro f (rfl | rfl | rfl | rfl | rfl | rfl | rfl | rfl | rfl) <;> rfl
end


section
/-! AMSEND and AMRET (08 R233 to R236). -/

namespace Sys2Proof.Machine

variable {s t u w : State} {p : Place} {o : Ops} {pa cnt : Nat} {pk : BitVec 20}

/-! ### AMSEND -/

/-- Package, address and named count of the home that an active message to a place goes to: stash or commons storage (R233). -/
def Place.runsAt (p : Place) (t : State) (pk : BitVec 20) (pa cnt : Nat) : Prop :=
  (p = .near pa ∧ pk = t.pkgid ∧ cnt = 0) ∨ (∃ dev, p = .far pa dev ∧ pk = t.pkgid ∧ cnt = 1) ∨
    (∃ dev, p = .foreign pk pa dev ∧ cnt = 2 ∧ ((∃ c, t.region pa = .stash c) ∨ ∃ h, t.region pa = .commons h) ∧
      t.deadPeer pk = false)

theorem Place.runsAt.alive (h : p.runsAt t pk pa cnt) : pk ≠ t.pkgid → t.deadPeer pk = false := by
  rintro hp
  obtain ⟨-, h, -⟩ | ⟨-, -, h, -⟩ | ⟨-, -, -, -, h⟩ := h
  · exact absurd h hp
  · exact absurd h hp
  · exact h

/-- A message to a package that is not unreachable waits or is sent. -/
theorem holdsOrSends {rep : Bool} {info : Word} (hp : pk ≠ t.pkgid → t.deadPeer pk = false) (x : State) :
    let a : Act := if rep && pk ≠ t.pkgid && t.deadPeer pk then .trap 0x11 info
      else if t.countFull cnt || (pk ≠ t.pkgid && t.linkFull pk) then .hold s else .done x
    (∀ c info, a ≠ .trap c info) ∧ (t.countFull cnt = false → (pk ≠ t.pkgid → t.linkFull pk = false) → a = .done x) := by
  intro a
  have ha : a = if t.countFull cnt || (pk ≠ t.pkgid && t.linkFull pk) then .hold s else .done x :=
    if_neg (by rw [Bool.and_assoc, unlessOwn hp, Bool.and_false]; decide)
  rw [ha]
  refine ⟨fun c info => ?_, fun hc hlf => if_neg ?_⟩
  · split <;> simp
  · rw [hc, unlessOwn hlf]
    decide

/-- AMSEND does the same before and after a release. -/
theorem amsendBody_acts (o : Ops) (rep : Bool) (s : State) (hh : rep = true → s.onHandler = false)
    (hl : s.locsFault [{ addr := scAddr o o.d, bytes := 64, storeOnly := true }, scLoc o o.a, scLoc o o.b] = none) :
    ∃ go : State → Act,
      amsendBody o rep s = (if (ordOf o).1 = 2 then s.released (ordOf o).2 false go else go s) ∧
      ∀ r p t pk pa cnt, r.resolve (s.scOp o o.a) .data = .ok (p, t) → p.runsAt t pk pa cnt →
        (∀ c info, go r ≠ .trap c info) ∧
        (t.countFull cnt = false → (pk ≠ t.pkgid → t.linkFull pk = false) →
          go r = .done (
            let m := t.send pk cnt rep (.am pa (s.scOp o o.a) (s.scOp o o.b) (BitVec.ofNat 512 (s.rs (scAddr o o.d) 64)))
            if rep then m.1.varAwait [cellAt (scAddr o o.d) 64 0] [(m.2, 0)] else m.1)) := by
  have hh' : (rep && s.onHandler) = false := by
    cases rep with
    | false => rfl
    | true => exact hh rfl
  unfold amsendBody
  dsimp only
  rw [hh', if_neg (by decide), within_ok hl]
  refine ⟨_, rfl, fun r p t pk pa cnt hr hp => ?_⟩
  rw [hr]
  dsimp only
  have hx := holdsOrSends (s := s) (cnt := cnt) (rep := rep) (info := deadInfo pa) hp.alive
  obtain ⟨rfl, rfl, rfl⟩ | ⟨dev, rfl, rfl, rfl⟩ | ⟨dev, rfl, rfl, ⟨c, hc⟩ | ⟨h, hc⟩, -⟩ := hp
  · exact hx _
  · exact hx _
  · simp only [hc]; exact hx _
  · simp only [hc]; exact hx _

/-! ### AMRET -/

theorem oweRun_frame (c : Nat) : ∃ l, s.oweRun c = { s with agenda := l } := by
  unfold State.oweRun
  split
  · exact ⟨_, rfl⟩
  · split <;> exact ⟨_, rfl⟩

/-- The end of a run leaves its context idle, and memory and the messages in flight as they were. -/
theorem endRun_idle (c : Nat) : ((s.endRun c).ctx c 4).status = .idle ∧ ((s.endRun c).ctx c 4).run = none ∧
    (s.endRun c).mem = s.mem ∧ (s.endRun c).flight = s.flight := by
  unfold State.endRun
  dsimp only
  obtain ⟨l, e⟩ := oweRun_frame (s := s.setCtx c 4 { s.ctx c 4 with
    status := .idle, run := none, hold := .none, results := [], rep := none }) c
  rw [e]
  have h := setCtx_ctx_same s c 4 { s.ctx c 4 with status := .idle, run := none, hold := .none, results := [], rep := none }
  refine ⟨?_, ?_, rfl, rfl⟩
  · exact congrArg Ctx.status h
  · exact congrArg Ctx.run h

theorem finishMsg_flight {id : Nat} {m : Msg} (data : Row) (flags : BitVec 6)
    (hf : s.flight.find? (fun (n : Msg) => n.id = id) = some m) :
    (s.finishMsg id data flags).flight = s.flight.map fun q => if q.id = id then
      { m with applied := true, body := if m.tag.isSome then .reply data flags else m.body } else q := by
  unfold State.finishMsg
  rw [hf]
  rfl

/-- The answer to a message of the own package. -/
theorem answerRun_message {c : Nat} {r : Run} {m : Msg} (reply : Row) (hk : r.kind = .message) (hp : r.pkg = s.pkgid)
    (hf : s.flight.find? (fun (n : Msg) => n.id = r.msg) = some m) :
    (s.answerRun c r reply).mem = s.mem ∧ (s.answerRun c r reply).flight = s.flight.map fun q => if q.id = r.msg then
      { m with applied := true, body := if m.tag.isSome then .reply reply 0 else m.body } else q := by
  unfold State.answerRun
  rw [hk]
  dsimp only
  rw [if_neg (not_not.mpr hp)]
  split
  · exact ⟨(finishMsg_links r.msg reply 0).mem, finishMsg_flight reply 0 hf⟩
  · exact ⟨(finishMsg_links r.msg reply 0).mem, finishMsg_flight reply 0 hf⟩

theorem RegsOnly.flight (h : RegsOnly s t) : t.flight = s.flight := by
  rcases h with rfl | ⟨_, _, _, rfl, _⟩ <;> rfl

theorem latched_frame (i : Instr) (o : Ops) : s.latched i o = s ∨ ∃ x, s.latched i o = s.setMe x := by
  unfold State.latched
  split
  · exact .inl rfl
  · exact .inr ⟨_, rfl⟩

/-- The body of AMRET on a run whose results have all returned. -/
theorem amretBody_ends {r : Run} (hh : s.onHandler = true) (hr : s.me.run = some r)
    (hl : r.reply = true → s.locsFault [{ addr := scAddr o o.d, bytes := 64, storeOnly := true }] = none)
    (hx : (xfOf o).getLsbD 0 = false) (hret : s.me.returned = true) :
    amretBody o s = .left (((s.commitAll.latched (.amret o) o).answerRun s.commitAll.curCore r
      (BitVec.ofNat 512 (s.rs (scAddr o o.d) 64))).endRun s.commitAll.curCore) := by
  have hl' : s.locsFault (if r.reply then [{ addr := scAddr o o.d, bytes := 64, storeOnly := true }] else []) = none := by
    cases hr : r.reply with
    | true => exact hl hr
    | false => rfl
  unfold amretBody
  rw [hh, hr]
  dsimp only
  rw [within_ok hl']
  cases he : o.ext with
  | none => exact if_pos hret
  | some c =>
    simp only [xfOf, he] at hx
    dsimp only
    rw [hx, if_neg (by decide), if_pos hret]

theorem amretBody_elsewhere (hh : s.onHandler = false) : amretBody o s = illegal (.amret o) := by
  unfold amretBody
  rw [hh]

end Sys2Proof.Machine

open Sys2Proof Sys2Proof.Machine

/-- Settles O34: what AMSEND sends, and how AMRET ends its run. -/
theorem activeMessagesComplete : Obligations.ActiveMessagesComplete := by
  intro s w o p pk pa cnt u d ord payload goesTo
  refine ⟨fun rep hg hh hl hrel hr hp hc hlf => ?_, fun r m hg hh hr hk hpk hl hx hret hf => ?_, fun hg hh => ?_⟩
  · obtain ⟨go, hgo, hact⟩ := amsendBody_acts o rep u hh hl
    intro m
    have hbody : amsendBody o rep u = .done (if rep then m.1.varAwait [cellAt d 64 0] [(m.2, 0)] else m.1) := by
      by_cases h2 : ord = 2
      · obtain ⟨hready, w', hr', hp'⟩ := hrel h2
        rw [if_pos h2] at hr
        rw [hgo, if_pos h2, released_ready (hact _ p w' pk pa cnt hr' hp').1 hready]
        exact (hact _ p w pk pa cnt hr hp).2 hc hlf
      · rw [if_neg h2] at hr
        rw [hgo, if_neg h2]
        exact (hact _ p w pk pa cnt hr hp).2 hc hlf
    have hs := send_posted (s := w) pk cnt rep (.am pa (u.scOp o o.a) (u.scOp o o.b) payload) false (Place.runsAt.alive hp)
    cases rep with
    | true =>
      obtain ⟨v, he, hv⟩ := run_push_on hg hbody
      exact ⟨v, he, hv, hv.mem.trans hs.mem⟩
    | false =>
      obtain ⟨v, he, hv⟩ := run_plain hg hbody
      exact ⟨v, he, hv, hv.mem.trans hs.mem⟩
  · have hbody := amretBody_ends hh hr hl hx hret
    have hc := commitAll_regsOnly (s := u)
    obtain ⟨hmem, hflight, hpkg, hcore⟩ : (u.commitAll.latched (.amret o) o).mem = u.mem ∧
        (u.commitAll.latched (.amret o) o).flight = u.flight ∧ (u.commitAll.latched (.amret o) o).pkgid = u.pkgid ∧
        u.commitAll.curCore = u.curCore := by
      refine ⟨?_, ?_, ?_, hc.curCore⟩ <;> rcases latched_frame (s := u.commitAll) (.amret o) o with e | ⟨x, e⟩ <;> rw [e]
      · exact hc.mem
      · exact hc.mem
      · exact hc.flight
      · exact hc.flight
      · exact hc.pkgid
      · exact hc.pkgid
    rw [hcore] at hbody
    obtain ⟨ham, haf⟩ := answerRun_message (s := u.commitAll.latched (.amret o) o) (c := u.curCore) payload hk
      (hpk.trans hpkg.symm) (by rw [hflight]; exact hf)
    obtain ⟨hidle, hrun, hm, hfl⟩ := endRun_idle
      (s := (u.commitAll.latched (.amret o) o).answerRun u.curCore r payload) u.curCore
    exact ⟨_, run_left hg hbody, hidle, hrun, by rw [hm, ham, hmem], by rw [hfl, haf, hflight]⟩
  · exact run_trap hg (amretBody_elsewhere hh)
end


section
/-! Handler runs begin, overrun and are disposed of (02 R64, 08 R234, 17 R411). -/

namespace Sys2Proof.Machine

variable {s t u : State} {c : Nat} {r : Run}

/-! ### A run starts (08 R234) -/

/-- The handler context as a run starts on it. -/
def Ctx.runs (x : Ctx) (r : Run) (now : Nat) : Ctx :=
  { x with
    status := .running, pc := r.entry, store := runStore r, tblroot := r.root, run := some r, runCycles := now,
    priv := if r.kind = RunKind.message then .kernel else .runtime, trapcause := setFld x.trapcause 12 12 0, late := none, dbuf := none,
    hold := .none, results := [], rep := none, repstate := 0, latchA := none, latchB := none, latchD := none }

/-- The cores once a run has started: its context runs, and it has left the inbox. -/
def State.running (s : State) (c : Nat) (r : Run) : State :=
  (s.setCore c { s.core c with inbox := (s.core c).inbox.drop 1 }).setCtx c 4 ((s.ctx c 4).runs r s.cycle.toNat)

theorem startRun_cores : (s.startRun c r).cores = (s.running c r).cores := by
  unfold State.startRun
  dsimp only
  rw [(oweOnce_links _).cores]
  split <;> rfl

theorem startRun_core (d : Nat) : (s.startRun c r).core d = (s.running c r).core d := by
  rw [State.core, startRun_cores]
  rfl

theorem startRun_inbox {rest : List Run} (h : (s.core c).inbox = r :: rest) : ((s.startRun c r).core c).inbox = rest := by
  rw [startRun_core, State.running, setCtx_inbox, setCore_core_same, h]
  rfl

theorem startRun_mem : (s.startRun c r).mem = s.mem := by
  unfold State.startRun
  dsimp only
  rw [(oweOnce_links _).mem]
  split <;> rfl

theorem startRun_ctx : (s.startRun c r).ctx c 4 = (s.ctx c 4).runs r s.cycle.toNat := by
  rw [State.ctx, startRun_core]
  exact setCtx_ctx_same _ _ _ _

theorem startRun_ctx_other {k : Nat} (hk : k ≠ 4) : (s.startRun c r).ctx c k = s.ctx c k := by
  have h : (s.startRun c r).ctx c k = (s.running c r).ctx c k := by rw [State.ctx, startRun_core]; rfl
  rw [h, State.running, setCtx_ctx_other_ctx _ _ _ _ hk, State.ctx, setCore_core_same]
  rfl

theorem runStore_look (r : Run) : look 0 (runStore r) 0 = rowOfWords [r.dst, senderWord r.pkg r.core r.ctx r.reply] ∧
    look 0 (runStore r) 1 = r.payload ∧ ∀ n, 1 < n → look 0 (runStore r) n = 0 := by
  refine ⟨rfl, rfl, fun n hn => ?_⟩
  simp only [runStore, look]
  rw [if_neg (by omega), if_neg (by omega)]

theorem tryRun_starts {rest : List Run} {mine : RunKind → Bool} (hi : (s.ctx c 4).status = .idle)
    (hb : (s.core c).inbox = r :: rest) (hf : (s.ham (hamOf c)).fenced = false) (hm : mine r.kind = true) :
    s.tryRun c mine = s.startRun c r := by
  unfold State.tryRun
  rw [hi, hf, if_neg (by decide), hb]
  dsimp only
  rw [hm]
  rfl

theorem tryRun_fenced {mine : RunKind → Bool} (hf : (s.ham (hamOf c)).fenced = true) : s.tryRun c mine = s := by
  unfold State.tryRun
  rw [hf, Bool.or_true, if_pos rfl]

/-! ### A run past its budget (02 R64, 17 R408) -/

/-- A direct trap stops the context, with its cause and information (17 R410). -/
theorem enterTrap_direct {cause : BitVec 6} {info pc : Word} :
    let x := (s.enterTrap false true cause info pc).ctx s.curCore s.curCtx
    x.status = .stopped ∧ x.trapcause.setWidth 6 = cause ∧ x.trapinfo = info := by
  obtain ⟨st, pr, fp, d, q, b, e, -, -⟩ := trapRegs_shape (s := s) (cause := cause) (info := info) (pc := pc)
  have hx : (s.enterTrap false true cause info pc).ctx s.curCore s.curCtx = (s.trapRegs cause info pc).escalated := by
    have hes : s.escalates true = true := by simp [State.escalates]
    have h1 : (s.commitAll.trapMarked cause).curCore = s.curCore := trapMarked_curCore.trans commitAll_regsOnly.curCore
    have h2 : (s.commitAll.trapMarked cause).curCtx = s.curCtx := trapMarked_curCtx.trans commitAll_regsOnly.curCtx
    rw [enterTrap_eq, if_pos hes, escalate_ctx, State.setMe, h1, h2, setCtx_ctx_same]
  intro x
  show x.status = _ ∧ _
  simp only [x, hx]
  rw [e]
  exact ⟨rfl, causeWord_cause _ _ _, rfl⟩

theorem overrun_ends {c : CoreId} (hs : (s.ctx c.val 4).status = .running) (hr : (s.ctx c.val 4).run = some r)
    (hb : r.begun = true) (hret : (s.ctx c.val 4).returned = true)
    (hp : max (s.core c.val).hbudget.toNat 256 < s.cycle.toNat - (s.ctx c.val 4).runCycles) :
    s.overrun c = (s.as c.val 4).enterTrap false true 0x0D (senderWord r.pkg r.core r.ctx r.reply) (s.ctx c.val 4).faultPc := by
  unfold State.overrun
  dsimp only
  rw [hs, hr]
  dsimp only
  rw [hb, hret, if_pos]
  simpa [Core.budget] using hp

/-! ### Dispositions (17 R411) -/

theorem recordStop_ctx (c k d l : Nat) : (s.recordStop c k).ctx d l = s.ctx d l := (record_homeOnly _).ctx d l

theorem recordStop_class (c k : Nat) : 4 ≤ ((s.recordStop c k).ham (hamOf c)).marks.cls := by
  unfold State.recordStop
  dsimp only
  rw [State.mark, setHam_ham_same]
  exact Nat.le_max_right _ _

/-- Disposition 0 of a context that waits for nothing. -/
theorem dispose_resumes {k : Nat} (hk : k ≠ 4) (hs : (s.ctx c k).status = .stopped) (hp : (s.ctx c k).parking = none) :
    (s.dispose c k 0).ctx c k = { (s.ctx c k).rte s.cycle.toNat with
      status := if (s.ctx c k).follows then .following else .running, hold := .none } := by
  unfold State.dispose
  dsimp only
  rw [if_neg (not_not.mpr hs), if_neg hk, if_pos rfl, hp]
  exact setCtx_ctx_same _ _ _ _

theorem dispose_stays {k : Nat} {word : Word} (hk : k ≠ 4) (hs : (s.ctx c k).status = .stopped) (hw : word ≠ 0) :
    s.dispose c k word = s.recordStop c k := by
  unfold State.dispose
  dsimp only
  rw [if_neg (not_not.mpr hs), if_neg hk, if_neg hw, if_neg hw]

end Sys2Proof.Machine

open Sys2Proof Sys2Proof.Machine

/-- Settles O35, each event by what it does to the handler context, or to the one that is disposed of. -/
theorem handlerRunEvents : Obligations.HandlerRunEvents := by
  intro s c r rest x starts
  have hstarts : ∀ (i : Instr) (p : Priv), (x.runs r s.cycle.toNat).priv = p → (s.core c.val).inbox = r :: rest →
      exec i s = .next (s.startRun c.val r) → starts i p := by
    intro i p hp hb he
    obtain ⟨h0, h1, h2⟩ := runStore_look r
    refine ⟨_, he, startRun_inbox hb, startRun_mem, ?_, fun k hk => startRun_ctx_other (by omega)⟩
    rw [startRun_ctx]
    exact ⟨rfl, rfl, hp, rfl, rfl, h0, h1, h2, rfl, rfl⟩
  refine ⟨fun hi hb hf => ⟨fun hk => ?_, fun hk => ?_⟩, fun _ hf => congrArg _ (tryRun_fenced hf), fun hs hr hb hret hp => ?_,
    fun k word hk hs hp => ?_⟩
  · exact hstarts _ _ (if_pos hk) hb (congrArg _ (tryRun_starts hi hb hf (by simpa using hk)))
  · exact hstarts _ _ (if_neg hk) hb (congrArg _ (tryRun_starts hi hb hf (by simpa using hk)))
  · refine ⟨s.overrun c, rfl, ?_⟩
    rw [overrun_ends hs hr hb hret hp]
    exact enterTrap_direct (s := s.as c.val 4)
  · refine ⟨_, rfl, ?_, fun hw => ?_⟩
    · rintro rfl
      rw [dispose_resumes hk hs hp]
      refine ⟨rfl, ?_, rfl, rfl⟩
      exact (setFld_getLsbD _ _ _ _ _ (by decide)).trans rfl
    · rw [dispose_stays hk hs hw]
      exact ⟨recordStop_ctx _ _ _ _, recordStop_class _ _⟩
end


section
/-! Messages are applied and answered (06 R160, R164, 05 R123, 07 R190, 08 R227). -/

namespace Sys2Proof.Machine

variable {s t u : State} {id pa c k : Nat} {m : Msg} {again : Instr}

/-! ### A message at its home -/

/-- A message that nothing keeps waiting and that meets no listed line is applied, refreshes its sender's copies and is answered. -/
theorem applyMsg_served {data : Row} {fl : BitVec 6} (hmute : s.mute m = false) (ho : s.overtakes m = false)
    (hf : s.forwarded m.body.pa = m.body.pa) (ham : ∀ pa dst entry payload, m.body ≠ .am pa dst entry payload)
    (hc : s.cxlMeets m again = none) (hb : (if m.tag.isSome then s.bodyBad m.body else none) = none)
    (ha : (s.noteUnbacked m.core m.body.pa).applyBody m.body = some (data, fl, t)) :
    s.applyMsg m again = ((t.refreshCopy (hamOf m.core) m.body).finishMsg m.id data fl).countIn m := by
  unfold State.applyMsg
  rw [hmute, if_neg (by decide), ho, if_neg (by decide), if_neg (not_not.mpr hf)]
  split
  next hbody => exact absurd hbody (ham _ _ _ _)
  next =>
    rw [hc, hb]
    dsimp only
    rw [ha]

theorem mute_slice (h : m.home < 64 ∨ m.home = 320) : s.mute m = false := by
  unfold State.mute
  obtain h | h := h
  · simp [show ¬ 64 ≤ m.home by omega]
  · simp [h]

theorem atSlice_of (h : m.home < 64 ∨ m.home = 320) : m.atSlice = true := by
  unfold Msg.atSlice
  obtain h | h := h <;> simp [h]

theorem cxlMeets_local (hr : s.region m.body.pa ≠ .unbacked) (hg : (s.region m.body.pa).global = false) :
    s.cxlMeets m again = none := by
  have hp : s.cxlPort (m.body.pa / 64 * 64) = none := by
    unfold State.cxlPort
    rw [region_line hr]
    cases h : s.region m.body.pa <;> first | rfl | (rw [h] at hg; cases hg)
  unfold State.cxlMeets
  dsimp only
  rw [hp]

theorem noteUnbacked_backed (hr : s.region pa ≠ .unbacked) : s.noteUnbacked c pa = s := if_neg hr

/-- A load of storage that is not shared beyond its hamlet's core changes nothing at its home. -/
theorem applyBody_load {n : Nat} (hg : (s.region pa).global = false) :
    s.applyBody (.load pa n false) = some (BitVec.ofNat 512 (ofBytes (s.homeSpan pa n)), 0, s) := by
  unfold State.applyBody
  dsimp only
  rw [hg]
  rfl

theorem bodyBad_atomic {f : AtomicFn} (hb : m.body = .atomic pa f) (hl : m.tag.isSome → s.listedLine (pa / 64 * 64) = false) :
    (if m.tag.isSome then s.bodyBad m.body else none) = none := by
  split
  next ht =>
    rw [hb]
    cases f <;> simp [State.bodyBad, hl ht]
  next => rfl

/-! ### A hamlet serves a message (08 R236) -/

theorem serveHome_one (hfl : s.flight = [m]) (h : (!m.applied && !m.delivered && !s.mute m && m.pkg = s.pkgid && 64 ≤ m.home &&
      m.home < 320 && !Body.isRow m.body && s.homeCore m.body.pa = c && !s.overtakes m) = true) :
    s.serveHome c = s.applyMsg m (.remoteAccessService (Fin.ofNat 2048 c)) := by
  unfold State.serveHome
  dsimp only
  simp only [hfl, List.find?_cons, h]

theorem serveHome_muted (hfl : s.flight = [m]) (hm : s.mute m = true) (hi : s.incoming = []) : s.serveHome c = s := by
  have hs : s.serveOldest c = s := by
    unfold State.serveOldest
    dsimp only
    rw [hi]
    rfl
  unfold State.serveHome
  dsimp only
  rw [hs, hfl]
  simp [hm]

/-! ### Answers -/

theorem nextDev_none (h : (s.ctx c k).devq = []) : s.nextDev c k = s := by
  unfold State.nextDev
  dsimp only
  rw [h]

/-- A context without accesses that wait, once a message is off its count. -/
theorem Ctx.setCount_devq (x : Ctx) (n : Nat) (v : BitVec 16) (l : List (BitVec 20 × Nat)) (h : x.devq = l) :
    ({ x.setCount n v with devq := l } : Ctx) = x.setCount n v := by
  subst h
  unfold Ctx.setCount
  split
  · rfl
  · split
    · rfl
    · split <;> rfl

/-- The context of a message once that is off its named count. -/
def Ctx.uncounted (x : Ctx) (n : Nat) : Ctx := if n = 0 then x else x.setCount n (x.count n - 1)

theorem Ctx.uncounted_devq (x : Ctx) (n : Nat) (h : x.devq = []) : ({ x.uncounted n with devq := [] } : Ctx) = x.uncounted n := by
  unfold Ctx.uncounted
  split
  · rw [← h]
  · exact Ctx.setCount_devq _ _ _ _ h

/-- A message that is acknowledged is gone, off its named count; memory stays (06 R160). -/
theorem acknowledge_frame (hd : (s.ctx m.core m.ctx).devq = []) :
    (s.acknowledge m).mem = s.mem ∧ (s.acknowledge m).flight = s.flight.filter (fun q => q.id ≠ m.id) ∧
      (s.acknowledge m).ctx m.core m.ctx = (s.ctx m.core m.ctx).uncounted m.cnt := by
  have hx : ((s.ctx m.core m.ctx).uncounted m.cnt).devq = [] := by
    rw [← Ctx.uncounted_devq _ _ hd]
  have h : ∀ (b : Prop) [Decidable b] (t : State) (g : Nat), t.ctx m.core m.ctx = (s.ctx m.core m.ctx).uncounted m.cnt →
      t.mem = s.mem → t.flight = s.flight.filter (fun q => q.id ≠ m.id) →
      let u := (if b then t.received g else t).nextDev m.core m.ctx
      u.mem = s.mem ∧ u.flight = s.flight.filter (fun q => q.id ≠ m.id) ∧
        u.ctx m.core m.ctx = (s.ctx m.core m.ctx).uncounted m.cnt := by
    intro b _ t g hc hm hf u
    have hu : u = if b then t.received g else t := by
      refine nextDev_none ?_
      split
      · exact (congrArg Ctx.devq hc).trans hx
      · exact (congrArg Ctx.devq hc).trans hx
    rw [hu]
    split
    · exact ⟨hm, hf, hc⟩
    · exact ⟨hm, hf, hc⟩
  have hc : (({ s with flight := s.flight.filter fun (q : Msg) => q.id ≠ m.id } : State).setCtx m.core m.ctx
      { (s.ctx m.core m.ctx).uncounted m.cnt with devq := ((s.ctx m.core m.ctx).uncounted m.cnt).devq.filter fun e => e.2 ≠ m.id }).ctx
        m.core m.ctx = (s.ctx m.core m.ctx).uncounted m.cnt := by
    rw [setCtx_ctx_same, hx]
    exact Ctx.uncounted_devq _ _ hd
  exact h _ _ _ hc rfl rfl

theorem takeLate_none (h : (s.ctx c k).late = none) : s.takeLate c k = s := by
  unfold State.takeLate
  dsimp only
  rw [h]

/-- A context that has been told its answer, its message acknowledged. -/
theorem answered_frame {y : Ctx} (hcnt : m.cnt = 0) (hl : y.late = none) (hd : y.devq = []) :
    let t := ((s.setCtx m.core m.ctx y).acknowledge m).takeLate m.core m.ctx
    t.mem = s.mem ∧ t.flight = s.flight.filter (fun q => q.id ≠ m.id) ∧ t.ctx m.core m.ctx = y := by
  have hc := setCtx_ctx_same s m.core m.ctx y
  obtain ⟨hm, hf, hx⟩ := acknowledge_frame (s := s.setCtx m.core m.ctx y) (m := m) (by rw [hc]; exact hd)
  rw [hc, Ctx.uncounted, if_pos hcnt] at hx
  rw [takeLate_none (by rw [hx]; exact hl)]
  exact ⟨hm, hf, hx⟩

/-- An answer to a context that awaits nothing else of its accesses. -/
theorem takeReply_frame {tag : Nat} {data : Row} {fl : BitVec 6} (ht : m.tag = some tag) (h0 : tag ≠ 0) (hcnt : m.cnt = 0)
    (hcp : (s.core m.core).copies = []) (hl : (s.ctx m.core m.ctx).late = none) (hd : (s.ctx m.core m.ctx).devq = []) :
    (s.takeReply m data fl).mem = s.mem ∧ (s.takeReply m data fl).flight = s.flight.filter (fun q => q.id ≠ m.id) ∧
      (s.takeReply m data fl).ctx m.core m.ctx = { s.ctx m.core m.ctx with
        results := (s.ctx m.core m.ctx).results.map fun r => r.fill tag data fl } := by
  unfold State.takeReply
  dsimp only
  rw [hcp, if_pos (show ([] : List Copy).isEmpty = true from rfl), ht]
  cases tag with
  | zero => exact absurd rfl h0
  | succ n => exact answered_frame hcnt hl hd

/-! ### Holds that end -/

theorem commitWhere_left (due : Result → Bool) (l : List Result) : ∀ (older : List Result) (s : State),
    ∀ r ∈ (commitWhere due older l s).1, ∃ q, (q ∈ older ∨ q ∈ l ∧ due q = false) ∧ r.due = q.due := by
  induction l with
  | nil => exact fun older s r hr => ⟨r, .inl hr, rfl⟩
  | cons d l ih =>
    intro older s r hr
    rw [commitWhere] at hr
    split at hr
    next hd =>
      obtain ⟨q, hq, e⟩ := ih _ _ r hr
      obtain hq | ⟨hq, hn⟩ := hq
      · obtain ⟨y, hy, rfl⟩ := List.mem_map.mp hq
        exact ⟨y, .inl hy, e⟩
      · exact ⟨q, .inr ⟨List.mem_cons_of_mem _ hq, hn⟩, e⟩
    next hd =>
      obtain ⟨q, hq, e⟩ := ih _ _ r hr
      obtain hq | ⟨hq, hn⟩ := hq
      · obtain hq | hq := List.mem_append.mp hq
        · exact ⟨q, .inl hq, e⟩
        · obtain rfl := List.mem_singleton.mp hq
          exact ⟨q, .inr ⟨List.mem_cons_self, by simpa using hd⟩, e⟩
      · exact ⟨q, .inr ⟨List.mem_cons_of_mem _ hq, hn⟩, e⟩

/-- Where every result has returned, those of fixed latency alone are left once the others have committed. -/
theorem commitVar_fixed (h : s.me.returned = true) : ∀ r ∈ s.commitVar.me.results, ∃ n, r.due = .fixed n := by
  intro r hr
  unfold State.commitVar State.commit at hr
  dsimp only at hr
  rw [setMe_me] at hr
  obtain ⟨q, hq, e⟩ := commitWhere_left _ _ _ _ r hr
  obtain hq | ⟨hq, hn⟩ := hq
  · cases hq
  · have hret := List.all_eq_true.mp h q hq
    rw [e]
    cases hdue : q.due with
    | fixed n => exact ⟨n, rfl⟩
    | var l =>
      cases l with
      | nil => simp [hdue] at hn
      | cons a l => simp [hdue] at hret

end Sys2Proof.Machine

open Sys2Proof Sys2Proof.Machine

/-- Settles O36, each event by what becomes of the message, or of the results that wait for it. -/
theorem messageEvents : Obligations.MessageEvents := by
  intro s id pa m
  refine ⟨fun hw hid hs ho hf => ⟨fun bs hb hc => ?_, fun f hb hc hl => ?_⟩, fun c n hb hf hr hg hl ho hfl ha hd hp h1 h2 hcore => ⟨fun hfen => ?_, fun hfen hi => ?_⟩,
    fun data fl t hfi hb ht h0 hc hcp hl hd => ?_, fun hfi hp ha ht hc hd => ?_, fun c k hh hr ha => ?_, fun c k hh => ?_⟩
  · have hap := applyMsg_served (s := s) (m := m) (again := .postedStoreApply id) (data := 0) (fl := 0)
      (t := (s.noteUnbacked m.core pa).homePut pa bs) (mute_slice hs) ho (by rw [hb]; exact hf) (by simp [hb]) hc
      (by rw [hb]; exact ite_self _) (by rw [hb]; rfl)
    show Host.Outcome.next _ = _
    rw [hw]
    dsimp only
    rw [atSlice_of hs, if_pos rfl, hap, hid]
  · have hap := applyMsg_served (s := s) (m := m) (again := .atomicApply id)
      (data := BitVec.ofNat 512 ((s.noteUnbacked m.core pa).applyAtomic pa f).1) (fl := ((s.noteUnbacked m.core pa).applyAtomic pa f).2.1)
      (t := ((s.noteUnbacked m.core pa).applyAtomic pa f).2.2) (mute_slice hs) ho (by rw [hb]; exact hf) (by simp [hb]) hc
      (bodyBad_atomic hb hl) (by rw [hb]; rfl)
    show Host.Outcome.next _ = _
    rw [hw]
    dsimp only
    rw [atSlice_of hs, if_pos rfl, hap, hid]
  · have hmute : s.mute m = false := by simp [State.mute, hfen]
    have hpa : m.body.pa = pa := by rw [hb]; rfl
    have hap := applyMsg_served (s := s) (m := m) (again := .remoteAccessService (Fin.ofNat 2048 c.val))
      (data := BitVec.ofNat 512 (ofBytes (s.homeSpan pa n))) (fl := 0) (t := s) hmute ho (by rw [hpa]; exact hf) (by simp [hb])
      (cxlMeets_local (by rw [hpa]; exact hr) (by rw [hpa]; exact hg)) (by simp [hb, State.bodyBad, hl])
      (by rw [hpa, noteUnbacked_backed hr, hb]; exact applyBody_load hg)
    have hrow : Body.isRow m.body = false := by rw [hb]; rfl
    show Host.Outcome.next _ = _
    rw [serveHome_one hfl (by simp [ha, hd, hmute, hp, h1, h2, hrow, hpa, hcore, ho]), hap, hb]
    rfl
  · exact congrArg _ (serveHome_muted hfl (by simp [State.mute, h1, h2, hfen]) hi)
  · obtain ⟨hm, hfl, hx⟩ := takeReply_frame (s := s) (data := data) (fl := fl) ht h0 hc hcp hl hd
    refine ⟨s.takeReply m data fl, ?_, hm, hfl, hx⟩
    show Host.Outcome.next _ = _
    rw [hfi]
    dsimp only
    rw [hb]
  · obtain ⟨hm, hfl, hx⟩ := acknowledge_frame (s := s) (m := m) hd
    refine ⟨s.acknowledge m, ?_, hm, hfl, ?_⟩
    · show Host.Outcome.next _ = _
      rw [hfi]
      dsimp only
      rw [if_pos hp, ha, ht]
      rfl
    · rw [hx, hc]
      rfl
  · have hv : exec (.variableResultCommit c k) s = .next (s.as c.val k.val).unhold := by
      show Host.Outcome.next _ = _
      rw [if_pos (by rw [hh, hr]; rfl)]
    have hc := commitVar_regsOnly (s := s.as c.val k.val)
    have hun := unhold_switch (s := s.as c.val k.val) hh ha
    have hctx : (s.as c.val k.val).unhold.ctx c.val k.val = { (s.as c.val k.val).commitVar.me with hold := .none } := by
      rw [hun, State.setMe, hc.curCore, hc.curCtx]
      exact setCtx_ctx_same _ _ _ _
    refine ⟨_, hv, ?_, ?_, ?_⟩
    · rw [hctx]
    · rw [hun]
      exact hc.mem
    · rw [hctx]
      exact commitVar_fixed hr
  · show Host.Outcome.next _ = _
    rw [if_pos hh]
end


section
/-! The release of `Obligations.ReleaseAndAcquire` on a memory that is not in canonical form: address 0 is listed twice there, and a
write replaces the first listing only. -/
namespace Sys2Proof.Machine

/-- A state after reset but for address 0, listed twice with the value 1, and a dirty copy of its line whose byte 0 is 0. -/
def State.doubled : State :=
  { State.reset with
    mem := [(0, 1), (0, 1)]
    hamlets := [(0, { lines := [(0, { data := 0, dirty := 1 })] })] }

/-- The release writes the dirty byte 0 to its home, but the second listing of address 0 is the one read afterwards. -/
theorem doubled_release_reads : (State.doubled.release .pkg).homeRead 0 1 = [1] := by decide +kernel

/-- The dirty byte that the release writes home is 0. -/
theorem doubled_dirty_byte : (({ data := 0, dirty := 1 } : Line).data.extractLsb' (8 * 0) 8) = 0 := by decide +kernel

end Sys2Proof.Machine

open Sys2Proof Sys2Proof.Machine

/-- Refutes O29: its last clause has no premise that memory is in canonical form (`Memory.wf`). Where an address is listed twice, the
write of a release replaces the first listing and the second one is read back. -/
theorem not_releaseAndAcquire : ¬ Obligations.ReleaseAndAcquire := by
  unfold Obligations.ReleaseAndAcquire
  intro h
  obtain ⟨-, -, -, -, -, -, -, hback⟩ := (h State.doubled .pkg).2 rfl
  have hread := hback rfl rfl rfl (by decide) (by decide) (0, { data := 0, dirty := 1 }) (List.mem_singleton.mpr rfl) 0
    (by decide) (by decide) (by decide) (by decide)
  rw [doubled_release_reads, doubled_dirty_byte] at hread
  exact absurd hread (by decide)

end


section
/-! Reads of a place and the hamlet's copies (05 R125, R126). -/
namespace Sys2Proof.Machine

variable {s : State} {c line pa : Nat}

/-- One byte of a row, put in its place. -/
theorem merge_byte_getLsbD {acc : Row} {b : Byte} {j p : Nat} (hp : p < 512) :
    (merge acc ((b.setWidth 512) <<< (8 * j)) (ones 512 8 (8 * j))).getLsbD p =
      if 8 * j ≤ p ∧ p < 8 * j + 8 then b.getLsbD (p - 8 * j) else acc.getLsbD p := by
  unfold merge
  simp only [BitVec.getLsbD_or, BitVec.getLsbD_and, BitVec.getLsbD_not, ones_getLsbD hp, BitVec.getLsbD_shiftLeft,
    BitVec.getLsbD_setWidth, hp, decide_true, Bool.true_and]
  split
  next h =>
    have h1 : ¬ p < 8 * j := by omega
    have h2 : p - 8 * j < 512 := by omega
    simp [h.1, h.2, h1, h2]
  next h =>
    by_cases h1 : 8 * j ≤ p
    · have h2 : ¬ p < 8 * j + 8 := by omega
      simp [h1, h2]
    · simp [h1]

/-- A byte that none of the bytes put in is at keeps its bits. -/
theorem rowPut_getLsbD_other {off i q : Nat} (bs : List (Nat × Byte)) (r : Row) (hq : q < 8) (hi : off + i < 64)
    (hout : i ∉ bs.map Prod.fst) : (rowPut r off bs).getLsbD (8 * (off + i) + q) = r.getLsbD (8 * (off + i) + q) := by
  induction bs generalizing r with
  | nil => rfl
  | cons e bs ih =>
    obtain ⟨j, b⟩ := e
    rw [List.map_cons, List.mem_cons, not_or] at hout
    have hne : i ≠ j := hout.1
    rw [rowPut, List.foldl_cons]
    refine (ih _ hout.2).trans ?_
    rw [merge_byte_getLsbD (by omega)]
    exact if_neg (by omega)

/-- A byte put into a row stands there. -/
theorem rowPut_getLsbD {off i q : Nat} {b : Byte} (bs : List (Nat × Byte)) (r : Row) (hq : q < 8) (hi : off + i < 64)
    (hnd : (bs.map Prod.fst).Nodup) (hb : (i, b) ∈ bs) : (rowPut r off bs).getLsbD (8 * (off + i) + q) = b.getLsbD q := by
  induction bs generalizing r with
  | nil => exact absurd hb List.not_mem_nil
  | cons e bs ih =>
    rw [List.map_cons, List.nodup_cons] at hnd
    rw [rowPut, List.foldl_cons]
    rcases List.mem_cons.mp hb with rfl | hb
    · refine (rowPut_getLsbD_other bs _ hq hi hnd.1).trans ?_
      rw [merge_byte_getLsbD (by omega), if_pos (by omega), Nat.add_sub_cancel_left]
    · exact ih _ hnd.2 hb

/-- A byte put into a row is read there. -/
theorem bytesOf_rowPut {off i : Nat} {b : Byte} {bs : List (Nat × Byte)} (r : Row) (hi : off + i < 64)
    (hnd : (bs.map Prod.fst).Nodup) (hb : (i, b) ∈ bs) :
    bytesOf 1 ((rowPut r off bs).toNat >>> (8 * (off + i))) = [b] := by
  show [BitVec.ofNat 8 _] = [b]
  congr 1
  refine BitVec.eq_of_getLsbD_eq fun q hq => ?_
  rw [BitVec.getLsbD_ofNat, Nat.testBit_shiftRight, decide_eq_true hq, Bool.true_and]
  exact rowPut_getLsbD bs r hq hi hnd hb

theorem natCast_shift_getLsbD {w n p : Nat} (hp : p < w) : ((1 <<< n : Nat) : BitVec w).getLsbD p = decide (n = p) := by
  rw [BitVec.natCast_eq_ofNat, BitVec.getLsbD_ofNat, Nat.one_shiftLeft, Nat.testBit_two_pow]
  simp [hp]

theorem maskOf_getLsbD {off p : Nat} (bs : List (Nat × Byte)) (hp : p < 64) :
    (maskOf off bs).getLsbD p = bs.any fun e => decide (off + e.1 = p) := by
  have hgo : ∀ acc : BitVec 64, (bs.foldl (fun acc e => acc ||| (1 <<< (off + e.1) : BitVec 64)) acc).getLsbD p =
      (acc.getLsbD p || bs.any fun e => decide (off + e.1 = p)) := by
    induction bs with
    | nil => intro acc; simp
    | cons e bs ih =>
      intro acc
      have hbit : ((1 <<< (off + e.1) : Nat) : BitVec 64).getLsbD p = decide (off + e.1 = p) := by
        rw [natCast_shift_getLsbD hp]
      rw [List.foldl_cons, ih, BitVec.getLsbD_or, hbit, List.any_cons, Bool.or_assoc]
  refine (hgo 0).trans ?_
  simp

/-- A single byte that is valid is not missing. -/
theorem one_byte_valid {v : BitVec 64} {p : Nat} (hp : p < 64) (h : v.getLsbD p = true) :
    ones 64 1 p &&& ~~~ v = 0 := by
  refine BitVec.eq_of_getLsbD_eq fun q hq => ?_
  rw [BitVec.getLsbD_and, BitVec.getLsbD_not, ones_getLsbD hq]
  by_cases hqp : q = p
  · subst hqp; simp [h]
  · have hout : ¬ (p ≤ q ∧ q < p + 1) := by omega
    rw [← Bool.decide_and, decide_eq_false hout, Bool.false_and]
    exact BitVec.getLsbD_zero.symm

theorem coreBit_held : (coreBit c).getLsbD (c % 8) = true := by
  rw [coreBit]
  exact (natCast_shift_getLsbD (Nat.mod_lt _ (by decide))).trans (decide_eq_true rfl)

theorem lineIn_hamlets : (s.lineIn line).hamlets = s.hamlets := by
  unfold State.lineIn
  split
  · rfl
  · exact takeWay_hamlets line

theorem lineIn_ham (h : Nat) : (s.lineIn line).ham h = s.ham h := by simp only [State.ham, lineIn_hamlets]

/-- With room in its set, a line that is brought in moves no other. -/
theorem lineIn_mem (h : s.scales = [] ∨ (s.sameSet line s.ways).length < setWays) : (s.lineIn line).mem = s.mem := by
  unfold State.lineIn
  split
  · rfl
  · obtain ⟨w, f, hw⟩ := takeWay_ways h
    rw [hw]

theorem inL1_of_hamlets {t : State} (h : t.hamlets = s.hamlets) : t.inL1 c = s.inL1 c := by
  simp only [State.inL1, State.ham, h]

/-- With room in the core's L1, a line enters it and nothing leaves. -/
theorem putLine_room (h : (s.inL1 c).length < l1Lines) (l : Line) (alone : Bool) :
    s.putLine c line l alone =
      s.setLine (hamOf c) line { l with cores := if alone then coreBit c else l.cores ||| coreBit c } := by
  have hroom : s.makeRoom c line = s := by
    unfold State.makeRoom
    exact if_pos (by simp [h])
  rw [State.putLine, hroom]

theorem putLine_finds (l : Line) (alone : Bool) :
    find ((s.putLine c line l alone).ham (hamOf c)).lines line =
      some { l with cores := if alone then coreBit c else l.cores ||| coreBit c } := by
  rw [State.putLine, State.setLine, setHam_ham_same]
  exact find_put_same _ _ _

theorem shareWin_keepsLines {h : Nat} {bs : List (Nat × Byte)} (skip : Option Nat) : s.KeepsLines (s.shareWin h pa bs skip) := by
  unfold State.shareWin
  split
  · exact .refl s
  · refine State.KeepsLines.foldl (fun t key => ?_) _ _
    exact (State.KeepsLines.of_hamlets (s := t)
      (t := { t with mem := memPut t.mem (0x3D0000000000 + 64 * key + pa % 64) bs })
      (homeOnly_lists _ _ _ _ _ _ _ _) rfl).trans (setWin_keepsLines h _)

theorem shareWin_none {h : Nat} {bs : List (Nat × Byte)} {skip : Option Nat} (hw : (s.ham h).winLines = []) :
    s.shareWin h pa bs skip = s := by
  unfold State.shareWin
  exact if_pos (by rw [hw]; rfl)

/-- The line that a store to backed global memory leaves in the hamlet. -/
theorem writePlace_finds {bs : List (Nat × Byte)} {st : Bool} (hb : s.region pa ≠ .unbacked) :
    ∃ l : Line, find ((s.writePlace c (.global pa false) bs st).ham (hamOf c)).lines (pa / 64 * 64) =
      some { l with data := rowPut l.data (pa % 64) bs, valid := l.valid ||| maskOf (pa % 64) bs, cores := coreBit c } := by
  unfold State.writePlace
  dsimp only
  rw [if_neg hb, (shareWin_keepsLines none).lines, putLine_finds]
  generalize (find (s.ham (hamOf c)).lines (pa / 64 * 64)).getD _ = held
  exact ⟨{ held with dirty := held.dirty ||| maskOf (pa % 64) bs }, rfl⟩

/-- A store to backed global memory with room for its line: memory stays. -/
theorem writePlace_mem {bs : List (Nat × Byte)} {st : Bool} (hb : s.region pa ≠ .unbacked) (hl : (s.inL1 c).length < l1Lines)
    (hs : s.scales = [] ∨ (s.sameSet (pa / 64 * 64) s.ways).length < setWays) (hw : (s.ham (hamOf c)).winLines = []) :
    (s.writePlace c (.global pa false) bs st).mem = s.mem := by
  have hgo : ∀ (t : State) (l : Line), t.hamlets = s.hamlets → t.mem = s.mem →
      ((t.putLine c (pa / 64 * 64) l true).shareWin (hamOf c) pa bs none).mem = s.mem := by
    intro t l hh hm
    have hwin : ((t.putLine c (pa / 64 * 64) l true).ham (hamOf c)).winLines = [] := by
      rw [putLine_room (by rw [inL1_of_hamlets hh]; exact hl), State.setLine, setHam_ham_same]
      show (t.ham (hamOf c)).winLines = []
      rw [State.ham, hh]
      exact hw
    rw [shareWin_none hwin, putLine_room (by rw [inL1_of_hamlets hh]; exact hl), setLine_mem, hm]
  unfold State.writePlace
  dsimp only
  rw [if_neg hb]
  by_cases hheld : (find (s.ham (hamOf c)).lines (pa / 64 * 64)).isSome = true
  · rw [if_pos hheld]
    exact hgo s _ rfl rfl
  · rw [if_neg hheld]
    exact hgo _ _ lineIn_hamlets (lineIn_mem hs)

/-- A read of a byte that a copy of its line holds. -/
theorem readPlace_copy {n : Nat} {l1 st : Bool} {l : Line} (hf : find (s.ham (hamOf c)).lines (pa / 64 * 64) = some l)
    (hv : ones 64 n (pa % 64) &&& ~~~ l.valid = 0) :
    s.readPlace c (.global pa false) n l1 st = (bytesOf n (l.data.toNat >>> (8 * (pa % 64))),
      if l1 && !l.heldBy c then s.putLine c (pa / 64 * 64) l false else s) := by
  unfold State.readPlace
  simp only [Bool.false_eq_true, if_false, hf, hv, decide_true, if_true]

/-- A read of bytes that a copy of their line does not hold yet. -/
theorem readPlace_incomplete {n : Nat} {l1 st : Bool} {l : Line} (hf : find (s.ham (hamOf c)).lines (pa / 64 * 64) = some l)
    (hv : ones 64 n (pa % 64) &&& ~~~ l.valid ≠ 0) :
    (s.readPlace c (.global pa false) n l1 st).1 =
      bytesOf n ((merge (s.hamletLine (hamOf c) (pa / 64 * 64)) l.data (byteMask l.valid)).toNat >>> (8 * (pa % 64))) := by
  unfold State.readPlace
  simp only [Bool.false_eq_true, if_false, hf, hv, decide_false]
  rfl

/-- A read past the hamlet's copies. -/
theorem readPlace_served {n : Nat} {l1 st device : Bool}
    (hd : device = true ∨ find (s.ham (hamOf c)).lines (pa / 64 * 64) = none ∧ (s.ham (hamOf c)).winLines = [])
    (hg : (s.region pa).global = true) (hn : pa % 64 + n ≤ 64) :
    s.readPlace c (.global pa device) n l1 st = (s.homeRead pa n,
      if l1 && !device then (s.lineIn (pa / 64 * 64)).putLine c (pa / 64 * 64)
        { data := rowOf (s.homeRead (pa / 64 * 64) 64), dirty := 0, stream := st } false else s) := by
  have hb : s.region pa ≠ .unbacked := by rintro h; rw [h] at hg; exact absurd hg (by decide)
  have hspan : s.homeSpan pa n = s.homeRead pa n := if_pos (by omega)
  cases device with
  | true =>
    unfold State.readPlace
    simp only [if_true, hspan, if_neg hb, Bool.not_true, Bool.and_false, Bool.false_and, Bool.false_eq_true, if_false]
  | false =>
    obtain ⟨hf, hw⟩ := hd.resolve_left (by decide)
    have hread : ∀ a k, s.hamletRead (hamOf c) a k = s.homeRead a k := fun a k => if_pos (by rw [hw]; rfl)
    unfold State.readPlace
    simp only [Bool.false_eq_true, if_false, hf, hread, if_neg hb, hg, Bool.and_true]
    cases l1 <;> rfl

end Sys2Proof.Machine

open Sys2Proof Sys2Proof.Machine

/-- Settles O30, from what a store leaves in the hamlet's copy and from the three ways a read of a place can go. -/
theorem placesReadAsTheyStand : Obligations.PlacesReadAsTheyStand := by
  unfold Obligations.PlacesReadAsTheyStand
  constructor
  · intro s c pa bs l1 st hb hin
    obtain ⟨l, hl⟩ := writePlace_finds (c := c) (bs := bs) (st := st) hb
    refine ⟨fun hroom hset hw => writePlace_mem hb hroom hset hw, ?_, ?_⟩
    · intro l' hl'
      cases hl.symm.trans hl'
      exact coreBit_held
    · intro i b hib
      have hi : pa % 64 + i < 64 := hin.2 _ hib
      have hline : (pa + i) / 64 * 64 = pa / 64 * 64 := by omega
      have hoff : (pa + i) % 64 = pa % 64 + i := by omega
      have hbit : (l.valid ||| maskOf (pa % 64) bs).getLsbD (pa % 64 + i) = true := by
        rw [BitVec.getLsbD_or, maskOf_getLsbD bs hi, List.any_eq_true.mpr ⟨_, hib, decide_eq_true rfl⟩, Bool.or_true]
      rw [← hline] at hl
      rw [readPlace_copy hl (by rw [hoff]; exact one_byte_valid hi hbit), hoff]
      exact bytesOf_rowPut _ hi hin.1 hib
  · intro s c pa n l1 device st
    refine ⟨rfl, ?_, ?_⟩
    · intro l hl
      refine ⟨fun hv => ?_, fun hv => readPlace_incomplete hl hv⟩
      rw [readPlace_copy hl hv]
      refine ⟨rfl, fun h => if_neg ?_⟩
      rcases h with h | h <;> simp [h]
    · intro hd hg hn
      rw [readPlace_served hd hg hn]
      refine ⟨rfl, fun hroom hset => ?_⟩
      cases hl : (l1 && !device) with
      | false => exact ⟨rfl, rfl⟩
      | true =>
        refine ⟨?_, ?_⟩
        · rw [if_pos rfl, putLine_room (by rw [inL1_of_hamlets lineIn_hamlets]; exact hroom), setLine_mem, lineIn_mem hset]
        · rw [if_pos rfl, if_pos rfl, putLine_finds]
          simp

end


section
/-! Vector arithmetic, lane by lane (09 R244 to R254). -/
namespace Sys2Proof.Machine

variable {s : State} {o : Ops}

/-- The widths of the elements that fill a row (09 R237). -/
def FillsRow (w : Nat) : Prop := w = 8 ∨ w = 16 ∨ w = 32 ∨ w = 64

/-- A vector instruction whose operands raise no fault retires with its lanes. -/
theorem vec_gives {i : Instr} {body : State → Act} {pre : State → Bool} {t : Three} {lat : Nat} {f g : Nat → Nat × Flags}
    {fs : List (Option (BitVec 6 × Word))} (hexec : exec i s = .next (s.performVec i o pre body)) (h : s.goesVec i o pre = true)
    (hb : body (s.entered o) = orFault fs ((s.entered o).putLanes t.d t.w lat ((s.entered o).lanes o) f))
    (hfs : ∀ f ∈ fs, f = none) (hw : FillsRow t.w)
    (hf : ∀ i, i < 512 / t.w → (f i).1 % 2 ^ t.w = (g i).1 % 2 ^ t.w ∧ (f i).2 = (g i).2) :
    ∃ v, exec i s = .next v ∧ Lanes (s.entered o) v o t lat g :=
  ⟨_, hexec, putLanes_lanes h (hb.trans (orFault_ok hfs)) hw hf⟩

theorem same_lane {w : Nat} {x y : Nat × Flags} (h : x = y) : x.1 % 2 ^ w = y.1 % 2 ^ w ∧ x.2 = y.2 := by rw [h]; exact ⟨rfl, rfl⟩

theorem faults_two {α : Type} {x y : Option α} (hx : x = none) (hy : y = none) : ∀ f ∈ [x, y], f = none := by
  simp [hx, hy]

theorem faults_three {α : Type} {x y z : Option α} (hx : x = none) (hy : y = none) (hz : z = none) :
    ∀ f ∈ [x, y, z], f = none := by
  simp [hx, hy, hz]

theorem threeFaults_d {t : Three} {ok : Bool} (h : ∀ f ∈ s.threeFaults t ok, f = none) : s.vecFault t.d ok = none :=
  h _ (by simp [State.threeFaults])

theorem twoFaults_d {t : Three} {ok : Bool} (h : ∀ f ∈ s.twoFaults t ok, f = none) : s.vecFault t.d ok = none :=
  h _ (by simp [State.twoFaults])

theorem vecFault_ok {v : View} {ok : Bool} (h : s.vecFault v ok = none) : ok = true := by
  unfold State.vecFault at h
  cases ok with
  | true => rfl
  | false => simp at h

theorem laneOf_lt (w : Nat) (r : Row) (i : Nat) : laneOf w r i < 2 ^ w := Nat.mod_lt _ (Nat.two_pow_pos w)

/-- A lane's low bits in a word of 64 are the lane. -/
theorem setWidth_ofNat_lane {w x : Nat} (hw : w ≤ 64) : (BitVec.ofNat 64 x).setWidth w = BitVec.ofNat w x := by
  apply BitVec.eq_of_toNat_eq
  rw [BitVec.toNat_setWidth, BitVec.toNat_ofNat, BitVec.toNat_ofNat, Nat.mod_mod_of_dvd _ (pow_dvd_pow 2 hw)]

theorem ofInt_laneInt {w : Nat} (hw : w ≤ 64) (sg : Bool) (r : Row) (i : Nat) :
    BitVec.ofInt w (laneInt w sg r i) = BitVec.ofNat w (laneOf w r i) := by
  rw [laneInt, ofInt_readInt, setWidth_ofNat_lane hw]

theorem FillsRow.le {w : Nat} (h : FillsRow w) : w ≤ 64 := by unfold FillsRow at h; omega

theorem lane2_float {t : Three} {fl : Mode → Val → Val → Val × Flags} {int : Int → Int → Int} {i : Nat}
    (h : isFloat t.d.etype = true) : s.lane2 o t fl int i =
      (fmtOf t.d.etype).finish (s.modeOf o) (fl (s.modeOf o) ((fmtOf t.d.etype).decode (laneOf t.w (s.rowAt t.a) i))
        ((fmtOf t.d.etype).decode (laneOf t.w (s.rowAt t.b) i))) := if_pos h

theorem lane2_int {t : Three} {fl : Mode → Val → Val → Val × Flags} {int : Int → Int → Int} {i : Nat}
    (h : ¬ isFloat t.d.etype = true) : s.lane2 o t fl int i =
      ((BitVec.ofInt t.w (int (laneInt t.w (isSigned t.d.etype) (s.rowAt t.a) i)
        (laneInt t.w (isSigned t.d.etype) (s.rowAt t.b) i))).toNat, 0) := by
  rw [BitVec.toNat_ofInt]
  exact if_neg h

/-- The lesser or the greater of two integers, in bit-vector terms. -/
theorem minmaxLane_int {e : BitVec 4} (mx : Bool) {x y : Nat} (h : ¬ isFloat e = true) (hw : widthOf e ≤ 64)
    (hx : x < 2 ^ widthOf e) (hy : y < 2 ^ widthOf e) :
    minmaxLane e mx x y =
      let a := BitVec.ofNat (widthOf e) x
      let b := BitVec.ofNat (widthOf e) y
      let le := if isSigned e then a.sle b else a.ule b
      ((if le then (if mx then b else a) else if mx then a else b).toNat, 0) := by
  have hle := readInt_le (widthOf e) (isSigned e) (BitVec.ofNat 64 x) (BitVec.ofNat 64 y)
  rw [setWidth_ofNat_lane hw, setWidth_ofNat_lane hw] at hle
  have hxn : (BitVec.ofNat (widthOf e) x).toNat = x := by rw [BitVec.toNat_ofNat, Nat.mod_eq_of_lt hx]
  have hyn : (BitVec.ofNat (widthOf e) y).toNat = y := by rw [BitVec.toNat_ofNat, Nat.mod_eq_of_lt hy]
  unfold minmaxLane
  rw [if_neg h]
  dsimp only
  simp only [hle]
  cases hc : (if isSigned e = true then (BitVec.ofNat (widthOf e) x).sle (BitVec.ofNat (widthOf e) y)
    else (BitVec.ofNat (widthOf e) x).ule (BitVec.ofNat (widthOf e) y)) <;> cases mx <;> simp_all

/-- Counting the bits below a place. -/
theorem popBelow_eq (p : Word) (i : Nat) : popBelow p i = ((List.range i).filter fun j => p.getLsbD j).length := by
  induction i with
  | zero => rfl
  | succ i ih =>
    rw [popBelow, ih, List.range_succ, List.filter_append, List.length_append]
    cases hp : p.getLsbD i <;> simp [hp]

/-- The immediate's low bits choose a lane, as a signed or as an unsigned number. -/
theorem immOf_lane {w : Nat} (hw : FillsRow w) (x : Word) : (x.toInt % ((512 / w : Nat) : Int)).toNat = x.toNat % (512 / w) := by
  have hcast : ∀ n : Nat, n ∣ 2 ^ 64 → (x.toInt % (n : Int)).toNat = x.toNat % n := by
    intro n hn
    have hx : x.toInt % (n : Int) = (x.toNat : Int) % (n : Int) := by
      rw [BitVec.toInt_eq_toNat_cond]
      split
      · rfl
      · obtain ⟨k, hk⟩ := hn
        rw [hk, Int.natCast_mul, Int.sub_mul_emod_self_left]
    rw [hx]
    rfl
  rcases hw with rfl | rfl | rfl | rfl <;> exact hcast _ (by decide)

/-! ### VCMP -/

/-- What VCMP's fold over the lanes gathers: its mask, its bits and its flags. -/
def cmpFold (act : Word) (rel : Nat → Bool × Flags) (l : List Nat) (acc : Word × Word × Flags) : Word × Word × Flags :=
  l.foldl (fun (acc : Word × Word × Flags) i =>
    if act.getLsbD i then (acc.1 ||| ones 64 1 i, acc.2.1 ||| (if (rel i).1 then ones 64 1 i else 0), acc.2.2 ||| (rel i).2)
    else acc) acc

theorem one_getLsbD {i p : Nat} (hp : p < 64) : (ones 64 1 i).getLsbD p = decide (i = p) := by
  rw [ones_getLsbD hp, ← Bool.decide_and]
  exact decide_eq_decide.mpr (by omega)

theorem cmpFold_bits {act : Word} {rel : Nat → Bool × Flags} (l : List Nat) (acc : Word × Word × Flags) {p : Nat} (hp : p < 64) :
    (cmpFold act rel l acc).1.getLsbD p = (acc.1.getLsbD p || decide (p ∈ l) && act.getLsbD p) ∧
    (cmpFold act rel l acc).2.1.getLsbD p = (acc.2.1.getLsbD p || decide (p ∈ l) && act.getLsbD p && (rel p).1) := by
  induction l generalizing acc with
  | nil => simp [cmpFold]
  | cons i l ih =>
    obtain ⟨hm, hd⟩ := ih (if act.getLsbD i then
      (acc.1 ||| ones 64 1 i, acc.2.1 ||| (if (rel i).1 then ones 64 1 i else 0), acc.2.2 ||| (rel i).2) else acc)
    have hstep : cmpFold act rel (i :: l) acc = cmpFold act rel l (if act.getLsbD i then
      (acc.1 ||| ones 64 1 i, acc.2.1 ||| (if (rel i).1 then ones 64 1 i else 0), acc.2.2 ||| (rel i).2) else acc) := rfl
    rw [hstep, hm, hd]
    by_cases hip : i = p
    · subst hip
      cases hact : act.getLsbD i with
      | false => simp
      | true => cases hrel : (rel i).1 <;> simp [BitVec.getLsbD_or, one_getLsbD hp]
    · have hpi : ¬ p = i := fun h => hip h.symm
      cases hact : act.getLsbD i with
      | false => simp [hpi]
      | true => cases hrel : (rel i).1 <;> simp [BitVec.getLsbD_or, one_getLsbD hp, hip, hpi]

/-- VCMP's mask covers the active lanes and everything from the lane count on, and its bits are the relation's. -/
theorem cmpFold_spec {act : Word} {rel : Nat → Bool × Flags} {n p : Nat} (hp : p < 64) :
    (cmpFold act rel (List.range n) (BitVec.allOnes 64 <<< n, 0, 0)).1.getLsbD p = (decide (n ≤ p) || act.getLsbD p) ∧
    (cmpFold act rel (List.range n) (BitVec.allOnes 64 <<< n, 0, 0)).2.1.getLsbD p =
      (decide (p < n) && act.getLsbD p && (rel p).1) := by
  obtain ⟨hm, hd⟩ := cmpFold_bits (act := act) (rel := rel) (List.range n) (BitVec.allOnes 64 <<< n, 0, 0) hp
  rw [hm, hd]
  by_cases hn : n ≤ p
  · have hlt : ¬ p < n := by omega
    have hsub : p - n < 64 := by omega
    have hones : (BitVec.allOnes 64 <<< n).getLsbD p = true := by
      rw [BitVec.getLsbD_shiftLeft, BitVec.getLsbD_allOnes, decide_eq_true hp, decide_eq_false hlt, decide_eq_true hsub]
      rfl
    dsimp only
    rw [hones]
    simp [hn, hlt]
  · have hlt : p < n := by omega
    simp [hp, hn, hlt]

/-! ### VRED -/

/-- A leaf's number, 0 where its lane is not active. -/
def leafVal (x : Option (Nat × Flags)) : Nat := (x.getD (0, 0)).1

/-- A leaf raises no flag. -/
def Quiet (l : List (Option (Nat × Flags))) : Prop := ∀ x ∈ l, ∀ y, x = some y → y.2 = 0

theorem redNode_int {e : BitVec 4} {f : RedFn} {m : Mode} {x y : Nat × Flags} (h : ¬ isFloat e = true) (hx : x.2 = 0) (hy : y.2 = 0) :
    (redNode e f m x y).2 = 0 := by
  cases f <;> simp [redNode, minmaxLane, h, hx, hy]

theorem redNode_sum {e : BitVec 4} {m : Mode} {x y : Nat × Flags} (h : ¬ isFloat e = true) :
    (redNode e .sum m x y).1 = (x.1 + y.1) % 2 ^ widthOf e := by
  simp [redNode, h]

/-- Two leaves of a tree, joined. -/
def joined {α : Type} (f : α → α → α) (a b : Option α) : Option α :=
  match a, b with
  | some x, some y => some (f x y)
  | some x, none => some x
  | none, y => y

theorem treeLevel_cons {α : Type} (f : α → α → α) (a b : Option α) (r : List (Option α)) :
    treeLevel f (a :: b :: r) = joined f a b :: treeLevel f r := rfl

theorem joined_quiet {e : BitVec 4} {f : RedFn} {m : Mode} (h : ¬ isFloat e = true) {a b : Option (Nat × Flags)}
    (ha : ∀ y, a = some y → y.2 = 0) (hb : ∀ y, b = some y → y.2 = 0) :
    ∀ y, joined (redNode e f m) a b = some y → y.2 = 0 := by
  intro y hy
  cases a with
  | none => exact hb y hy
  | some a =>
    cases b with
    | none => exact ha y hy
    | some b =>
      rw [← Option.some.inj hy]
      exact redNode_int h (ha _ rfl) (hb _ rfl)

theorem joined_sum {e : BitVec 4} {m : Mode} (h : ¬ isFloat e = true) (a b : Option (Nat × Flags)) :
    leafVal (joined (redNode e .sum m) a b) % 2 ^ widthOf e = (leafVal a + leafVal b) % 2 ^ widthOf e := by
  cases a with
  | none => exact congrArg (· % _) (Nat.zero_add _).symm
  | some a =>
    cases b with
    | none => rfl
    | some b =>
      show (redNode e .sum m a b).1 % _ = _
      rw [redNode_sum h, Nat.mod_mod]
      rfl

theorem treeLevel_quiet {e : BitVec 4} {f : RedFn} {m : Mode} (h : ¬ isFloat e = true) (l : List (Option (Nat × Flags)))
    (hl : Quiet l) : Quiet (treeLevel (redNode e f m) l) := by
  induction l using treeLevel.induct with
  | case1 a b r ih =>
    have hr : Quiet r := fun x hx => hl x (List.mem_cons_of_mem _ (List.mem_cons_of_mem _ hx))
    have ha := hl a (List.mem_cons_self ..)
    have hb := hl b (List.mem_cons_of_mem _ (List.mem_cons_self ..))
    intro x hx
    rw [treeLevel_cons, List.mem_cons] at hx
    rcases hx with rfl | hx
    · exact joined_quiet h ha hb
    · exact ih hr x hx
  | case2 l hl' =>
    rw [treeLevel.eq_def]
    split
    next => exact absurd rfl (hl' _ _ _)
    next => exact hl

theorem treeLevel_length {α : Type} (f : α → α → α) (n : Nat) (l : List (Option α)) (h : l.length = 2 * n) :
    (treeLevel f l).length = n := by
  induction n generalizing l with
  | zero => rw [List.length_eq_zero_iff.mp h]; rfl
  | succ n ih =>
    match l, h with
    | a :: b :: r, h =>
      rw [treeLevel_cons, List.length_cons, ih r (by simp only [List.length_cons] at h; omega)]

theorem treeLevel_sum {e : BitVec 4} {m : Mode} (h : ¬ isFloat e = true) (l : List (Option (Nat × Flags))) :
    ((treeLevel (redNode e .sum m) l).map leafVal).sum % 2 ^ widthOf e = (l.map leafVal).sum % 2 ^ widthOf e := by
  induction l using treeLevel.induct with
  | case1 a b r ih =>
    rw [treeLevel_cons, List.map_cons, List.sum_cons, Nat.add_mod, ih, joined_sum h, ← Nat.add_mod, List.map_cons, List.map_cons,
      List.sum_cons, List.sum_cons, Nat.add_assoc]
  | case2 l hl' =>
    rw [treeLevel.eq_def]
    split
    next => exact absurd rfl (hl' _ _ _)
    next => rfl

/-- A reduction of integers raises no flag. -/
theorem tree_quiet {e : BitVec 4} {f : RedFn} {m : Mode} (h : ¬ isFloat e = true) (k : Nat) (l : List (Option (Nat × Flags)))
    (hl : Quiet l) : ((tree (redNode e f m) k l).getD (0, 0)).2 = 0 := by
  induction k generalizing l with
  | zero =>
    cases l with
    | nil => rfl
    | cons a r =>
      cases a with
      | none => rfl
      | some a => exact hl _ (List.mem_cons_self ..) a rfl
  | succ k ih => exact ih _ (treeLevel_quiet h l hl)

/-- A sum of integers over a whole tree. -/
theorem tree_sum {e : BitVec 4} {m : Mode} (h : ¬ isFloat e = true) (k : Nat) (l : List (Option (Nat × Flags)))
    (hl : l.length = 2 ^ k) :
    ((tree (redNode e .sum m) k l).getD (0, 0)).1 % 2 ^ widthOf e = (l.map leafVal).sum % 2 ^ widthOf e := by
  induction k generalizing l with
  | zero =>
    obtain ⟨a, rfl⟩ := List.length_eq_one_iff.mp hl
    show leafVal a % _ = _
    simp
  | succ k ih =>
    have hlen : (treeLevel (redNode e .sum m) l).length = 2 ^ k := treeLevel_length _ _ _ (by rw [hl, Nat.pow_succ']) 
    rw [tree, ih _ hlen, treeLevel_sum h]

theorem sum_leaves (l : List Nat) (sel : Nat → Bool) (f : Nat → Nat) :
    ((l.map fun i => if sel i then some (f i, (0 : Flags)) else none).map leafVal).sum = ((l.filter sel).map f).sum := by
  induction l with
  | nil => rfl
  | cons i l ih =>
    rw [List.map_cons, List.map_cons, List.sum_cons, ih, List.filter_cons]
    cases sel i <;> simp [leafVal]

theorem extendTo64_mod {w : Nat} (hw : FillsRow w) (sg : Bool) (v : Nat) : extendTo64 sg (w / 8) v % 2 ^ w = v % 2 ^ w := by
  unfold extendTo64
  split
  · rcases hw with rfl | rfl | rfl | rfl <;> omega
  · rfl

/-! ### VSCAN -/

/-- The sum of the first `q` numbers. -/
def prefixSum (x : Nat → Nat) (q : Nat) : Nat := ((List.range q).map x).sum

theorem prefixSum_mono {x : Nat → Nat} {p q : Nat} (h : p ≤ q) : prefixSum x p ≤ prefixSum x q := by
  induction q with
  | zero => rw [Nat.le_zero.mp h]
  | succ q ih =>
    rcases Nat.lt_or_eq_of_le h with h | rfl
    · refine (ih (by omega)).trans ?_
      simp [prefixSum, List.range_succ]
    · exact Nat.le_refl _

/-- One step of a scan, number by number. -/
theorem scanStep_getD {e : BitVec 4} {m : Mode} {act : Word} {xs : List Nat × Flags} {d q : Nat} (hq : q < xs.1.length) :
    (scanStep e m act xs d).1.getD q 0 =
      if d ≤ q && act.getLsbD q && act.getLsbD (q - d) then (redNode e .sum m (xs.1.getD (q - d) 0, 0) (xs.1.getD q 0, 0)).1
      else xs.1.getD q 0 := by
  unfold scanStep
  simp only [List.map_map, List.getD_eq_getElem?_getD, List.getElem?_map, List.getElem?_zipIdx, List.getElem?_eq_getElem hq,
    Option.map_some, Option.getD_some, Function.comp, Nat.zero_add]
  split <;> rfl

theorem scanStep_length {e : BitVec 4} {m : Mode} {act : Word} {xs : List Nat × Flags} {d : Nat} :
    (scanStep e m act xs d).1.length = xs.1.length := by simp [scanStep]

/-- A scan of integers raises no flag. -/
theorem scanStep_quiet {e : BitVec 4} {m : Mode} {act : Word} {xs : List Nat × Flags} {d : Nat} (h : ¬ isFloat e = true)
    (hx : xs.2 = 0) : (scanStep e m act xs d).2 = 0 := by
  have hgo : ∀ (l : List (Nat × Flags)), (∀ x ∈ l, x.2 = 0) → ∀ f : Flags, l.foldl (fun f x => f ||| x.2) f = f := by
    intro l
    induction l with
    | nil => intro _ f; rfl
    | cons a l ih =>
      intro hl f
      rw [List.foldl_cons, hl a (List.mem_cons_self ..), show f ||| (0 : Flags) = f from BitVec.or_zero]
      exact ih (fun x hx => hl x (List.mem_cons_of_mem _ hx)) f
  unfold scanStep
  refine (hgo _ ?_ _).trans hx
  intro y hy
  obtain ⟨⟨x, q⟩, -, rfl⟩ := List.mem_map.mp hy
  dsimp only
  split
  · exact redNode_int h rfl rfl
  · rfl

/-- The scan after its first `k` steps. -/
def scanned (e : BitVec 4) (m : Mode) (act : Word) (xs : List Nat) (k : Nat) : List Nat × Flags :=
  ((List.range k).map fun k => 2 ^ k).foldl (scanStep e m act) (xs, 0)

theorem scanned_succ {e : BitVec 4} {m : Mode} {act : Word} {xs : List Nat} {k : Nat} :
    scanned e m act xs (k + 1) = scanStep e m act (scanned e m act xs k) (2 ^ k) := by
  simp [scanned, List.range_succ]

theorem scanned_length {e : BitVec 4} {m : Mode} {act : Word} {xs : List Nat} (k : Nat) :
    (scanned e m act xs k).1.length = xs.length := by
  induction k with
  | zero => rfl
  | succ k ih => rw [scanned_succ, scanStep_length, ih]

theorem scanned_quiet {e : BitVec 4} {m : Mode} {act : Word} {xs : List Nat} (h : ¬ isFloat e = true) (k : Nat) :
    (scanned e m act xs k).2 = 0 := by
  induction k with
  | zero => rfl
  | succ k ih => rw [scanned_succ]; exact scanStep_quiet h ih

/-- After `k` steps each lane holds the sum of the last 2^k lanes up to it. -/
theorem scanned_window {e : BitVec 4} {m : Mode} {x : Nat → Nat} {n : Nat} (h : ¬ isFloat e = true) (hn : n ≤ 64)
    (hx : ∀ i, x i < 2 ^ widthOf e) (k : Nat) {q : Nat} (hq : q < n) :
    (scanned e m (BitVec.allOnes 64) ((List.range n).map x) k).1.getD q 0 =
      (prefixSum x (q + 1) - prefixSum x (q + 1 - 2 ^ k)) % 2 ^ widthOf e := by
  induction k generalizing q with
  | zero =>
    show ((List.range n).map x).getD q 0 = _
    have hone : prefixSum x (q + 1) - prefixSum x (q + 1 - 2 ^ 0) = x q := by
      simp [prefixSum, List.range_succ]
    rw [hone, Nat.mod_eq_of_lt (hx q)]
    simp [List.getD_eq_getElem?_getD, hq]
  | succ k ih =>
    have hlen : q < (scanned e m (BitVec.allOnes 64) ((List.range n).map x) k).1.length := by
      rw [scanned_length, List.length_map, List.length_range]; exact hq
    rw [scanned_succ, scanStep_getD hlen, BitVec.getLsbD_allOnes, BitVec.getLsbD_allOnes]
    have hpos : 0 < 2 ^ k := Nat.two_pow_pos k
    have hpow : 2 ^ (k + 1) = 2 ^ k + 2 ^ k := by rw [Nat.pow_succ]; omega
    by_cases hd : 2 ^ k ≤ q
    · rw [if_pos (by simp only [hd, decide_true, Bool.true_and, Bool.and_eq_true, decide_eq_true_eq]; omega), redNode_sum h,
        ih (by omega), ih hq, ← Nat.add_mod]
      have hmid : q - 2 ^ k + 1 = q + 1 - 2 ^ k := by omega
      have hlow : q + 1 - 2 ^ k - 2 ^ k = q + 1 - 2 ^ (k + 1) := by omega
      have h1 := prefixSum_mono (x := x) (show q + 1 - 2 ^ (k + 1) ≤ q + 1 - 2 ^ k by omega)
      have h2 := prefixSum_mono (x := x) (show q + 1 - 2 ^ k ≤ q + 1 by omega)
      rw [hmid, hlow]
      congr 1
      omega
    · rw [if_neg (by simp [hd]), ih hq]
      congr 2
      have hz : q + 1 - 2 ^ k = 0 := by omega
      have hz' : q + 1 - 2 ^ (k + 1) = 0 := by omega
      rw [hz, hz']

/-- A whole scan of integers leaves the prefix sums. -/
theorem scanned_prefix {e : BitVec 4} {m : Mode} {x : Nat → Nat} (h : ¬ isFloat e = true) (hw : FillsRow (widthOf e))
    (hx : ∀ i, x i < 2 ^ widthOf e) {q : Nat} (hq : q < 512 / widthOf e) :
    (scanned e m (BitVec.allOnes 64) ((List.range (512 / widthOf e)).map x) (512 / widthOf e).log2).1.getD q 0 =
      prefixSum x (q + 1) % 2 ^ widthOf e := by
  have hn : 512 / widthOf e ≤ 64 := by rcases hw with h | h | h | h <;> rw [h] <;> decide
  have hlog : 2 ^ (512 / widthOf e).log2 = 512 / widthOf e := by rcases hw with h | h | h | h <;> rw [h] <;> decide
  have hz : q + 1 - 512 / widthOf e = 0 := by omega
  rw [scanned_window h hn hx _ hq, hlog, hz]
  rfl

/-! ### The instructions -/

/-- A vector instruction that writes elements of the row of a view, without a flag of theirs. -/
theorem vec_cell {i : Instr} {body : State → Act} {pre : State → Bool} {v : View} {w lat : Nat} {act : Word}
    {f g : Nat → Nat × Flags} {fl : Flags} {fs : List (Option (BitVec 6 × Word))}
    (hexec : exec i s = .next (s.performVec i o pre body)) (h : s.goesVec i o pre = true)
    (hb : body (s.entered o) =
      orFault fs (.done ((s.entered o).fixed lat [(elemCell (v.base / 64) w (512 / w) act id f).1] fl)))
    (hfs : ∀ f ∈ fs, f = none) (hw : FillsRow w) (hfg : ∀ i, f i = g i) (hquiet : ∀ i, (g i).2 = 0) :
    ∃ x c, exec i s = .next x ∧ Retires (s.entered o) x o [fixedResult lat [c] fl] ∧ LaneCell v w (512 / w) act id g c 0 := by
  obtain rfl : f = g := funext hfg
  obtain ⟨htgt, hmask, hdata, -⟩ := elemCell_spec (row := v.base / 64) (n := 512 / w) (act := act) (place := id) (f := f)
    (w := w) (by unfold FillsRow at hw; omega)
    (fun i hi => by simp only [id]; rcases hw with e | e | e | e <;> rw [e] at hi ⊢ <;> omega) (fun i j _ _ e => e)
  refine ⟨_, _, hexec, vec_push h (hb.trans (orFault_ok hfs)), htgt, hmask, hdata, fun b => ?_⟩
  rw [show (0 : Flags).getLsbD b = false from BitVec.getLsbD_zero]
  refine (List.any_eq_false.mpr fun i _ => ?_).symm
  rw [hquiet i, show (0 : Flags).getLsbD b = false from BitVec.getLsbD_zero, Bool.and_false]
  exact Bool.false_ne_true

/-- Elements that raise no flag. -/
theorem elemCell_quiet {row w n : Nat} {act : Word} {place : Nat → Nat} {f : Nat → Nat × Flags} (hw : FillsRow w)
    (hf : ∀ i, (f i).2 = 0) : (elemCell row w n act place f).2 = 0 := by
  obtain ⟨-, -, hfl⟩ := elem_fold (act := act) (place := place) (f := f) (w := w) (by unfold FillsRow at hw; omega)
    (List.range n) (0, 0, 0)
  refine BitVec.eq_of_getLsbD_eq fun b _ => (hfl b).trans ?_
  simp [hf]

/-- A lane of VADD on integers. -/
theorem addLane_int {w : Nat} (hw : w ≤ 64) (sub sg : Bool) (ra rb : Row) (i : Nat) :
    (BitVec.ofInt w ((fun x y : Int => if sub then x - y else x + y) (laneInt w sg ra i) (laneInt w sg rb i))).toNat % 2 ^ w =
      (if sub then laneOf w ra i + (2 ^ w - laneOf w rb i) else laneOf w ra i + laneOf w rb i) % 2 ^ w := by
  rw [BitVec.toNat_mod_cancel]
  cases sub with
  | false =>
    simp only [Bool.false_eq_true, if_false]
    rw [BitVec.ofInt_add, ofInt_laneInt hw, ofInt_laneInt hw, ← BitVec.ofNat_add, BitVec.toNat_ofNat]
  | true =>
    simp only [if_true]
    rw [ofInt_sub_ofInt, ofInt_laneInt hw, ofInt_laneInt hw, BitVec.toNat_sub, BitVec.toNat_ofNat, BitVec.toNat_ofNat,
      Nat.mod_eq_of_lt (laneOf_lt ..), Nat.mod_eq_of_lt (laneOf_lt ..), Nat.add_comm]

theorem mulLane_int {w : Nat} (hw : w ≤ 64) (sg : Bool) (ra rb : Row) (i : Nat) :
    (BitVec.ofInt w (laneInt w sg ra i * laneInt w sg rb i)).toNat % 2 ^ w = laneOf w ra i * laneOf w rb i % 2 ^ w := by
  rw [BitVec.toNat_mod_cancel, BitVec.ofInt_mul, ofInt_laneInt hw, ofInt_laneInt hw, ← BitVec.ofNat_mul, BitVec.toNat_ofNat]

/-- The lane that VSEL's predicate, or its complement, selects. -/
theorem selLane {α : Type} {p : Word} {inv : Bool} {i : Nat} (hi : i < 64) (a b : α) :
    (if (if inv then ~~~ p else p).getLsbD i then a else b) = if p.getLsbD i != inv then a else b := by
  cases inv with
  | false => rw [if_neg Bool.false_ne_true, Bool.bne_false]
  | true => rw [if_pos rfl, BitVec.getLsbD_not, decide_eq_true hi, Bool.true_and, Bool.bne_true]

/-- A sum brought into the range of 32 signed bits. -/
theorem saturate_32 (x : Int) :
    saturate true 32 x = (min (2 ^ 31 - 1) (max (-(2 ^ 31)) x), decide (min (2 ^ 31 - 1) (max (-(2 ^ 31)) x) ≠ x)) := by
  have hr : intRange true 32 = (-(2 ^ 31), 2 ^ 31 - 1) := by decide
  unfold saturate
  rw [hr]
  dsimp only
  split
  · rw [Prod.mk.injEq, eq_comm (a := true), decide_eq_true_eq]
    omega
  · split
    · rw [Prod.mk.injEq, eq_comm (a := true), decide_eq_true_eq]
      omega
    · rw [Prod.mk.injEq, eq_comm (a := false), decide_eq_false_iff_not]
      omega

/-- A lane of VDOT on integers: the four products added to the old lane, saturated (09 R252). -/
theorem dotLane_int {t : Three} {i : Nat} (h : t.d.etype ≠ 11) :
    s.dotLane o t i =
      let p := fun (w j k : Nat) => laneInt w (isSigned t.a.etype) (s.rowAt t.a) (j * i + k) *
        laneInt w (isSigned t.b.etype) (s.rowAt t.b) (j * i + k)
      let sum := laneInt 32 true (s.rowAt t.d) i + (p 8 4 0 + p 8 4 1 + p 8 4 2 + p 8 4 3)
      let q := min (2 ^ 31 - 1) (max (-(2 ^ 31)) sum)
      ((q % 2 ^ 32).toNat, raise fSat (q ≠ sum)) := by
  unfold State.dotLane
  rw [if_neg h]
  dsimp only
  rw [saturate_32]
  simp only [List.range, List.range.loop, List.foldl_cons, List.foldl_nil, Int.zero_add]
  rfl

theorem dotOk_width {d a b : BitVec 4} (h : dotOk d a b = true) : widthOf d = 32 := by
  unfold dotOk at h
  simp only [Bool.or_eq_true, Bool.and_eq_true, decide_eq_true_eq] at h
  rcases h with ⟨rfl, -⟩ | ⟨⟨rfl, -⟩, -⟩ <;> rfl

/-- VCMP's body, its fold named. -/
theorem vcmpBody_eq (r : VRel) (u : State) :
    vcmpBody o r u =
      (let a := u.vec o o.a
       let b := u.vec o o.b
       let w := widthOf a.etype
       let res := cmpFold (u.lanes o) (fun i => relLane a.etype r (laneOf w (u.rowAt a) i) (laneOf w (u.rowAt b) i))
         (List.range (512 / w)) (BitVec.allOnes 64 <<< (512 / w), 0, 0)
       orFault [u.vecFault a (r ≠ .un || isFloat a.etype), u.vecFault b (b.etype = a.etype)]
         (.done (u.fixed 2 (cellPred o.d.toNat res.1 res.2.1) res.2.2))) := rfl

end Sys2Proof.Machine

open Sys2Proof Sys2Proof.Machine

/-- Settles O37, an instruction at a time: each body is its lanes, and the lanes are those of the rule. -/
theorem vectorArithmeticCompletes : Obligations.VectorArithmeticCompletes := by
  unfold Obligations.VectorArithmeticCompletes
  intro s o u t e g m n x y z rmD all three two gives
  have hwid : ∀ {ok : Bool}, u.vecFault t.d ok = none → FillsRow t.w := fun h => width_of_vecFault h
  have hthree : ∀ {ok : Bool}, three ok → FillsRow t.w := fun h => hwid (threeFaults_d h)
  have htwo : ∀ {ok : Bool}, two ok → FillsRow t.w := fun h => hwid (twoFaults_d h)
  have hx : ∀ i, x i < 2 ^ t.w := fun i => laneOf_lt ..
  have hy : ∀ i, y i < 2 ^ t.w := fun i => laneOf_lt ..
  refine ⟨?_, ?_, ?_, ?_, ?_, ?_, ?_, ?_, ?_, ?_, ?_, ?_, ?_, ?_, ?_, ?_, ?_, ?_, ?_, ?_, ?_⟩
  · intro sub h hf
    refine vec_gives rfl h rfl hf (hthree hf) fun i _ => ?_
    by_cases hfl : isFloat e = true
    · exact same_lane ((lane2_float hfl).trans (if_pos hfl).symm)
    · rw [lane2_int hfl]
      refine ⟨(addLane_int (hthree hf).le sub _ _ _ i).trans ?_, ?_⟩
      · rw [if_neg hfl]
      · rw [if_neg hfl]
  · intro h hf
    refine vec_gives rfl h rfl hf (hthree hf) fun i _ => ?_
    by_cases hfl : isFloat e = true
    · exact same_lane ((lane2_float hfl).trans (if_pos hfl).symm)
    · rw [lane2_int hfl, if_neg hfl]
      exact ⟨mulLane_int (hthree hf).le _ _ _ i, rfl⟩
  · intro f h hf
    exact vec_gives rfl h rfl hf (hthree hf) fun i _ => same_lane rfl
  · intro h hf
    exact vec_gives rfl h rfl hf (hthree hf) fun i _ => same_lane rfl
  · intro h hf
    exact vec_gives rfl h rfl hf (htwo hf) fun i _ => same_lane rfl
  · intro mx h hf
    refine vec_gives rfl h rfl hf (hthree hf) fun i _ => same_lane ?_
    by_cases hfl : isFloat e = true
    · exact (if_pos hfl).trans (if_pos hfl).symm
    · rw [if_neg hfl]
      exact minmaxLane_int mx hfl (hthree hf).le (hx i) (hy i)
  · intro f h hf
    refine vec_gives rfl h rfl hf (hthree hf) fun i _ => same_lane ?_
    cases f <;> rfl
  · intro h hf
    refine vec_gives rfl h rfl hf (hthree hf) fun i hi => same_lane ?_
    have hi64 : i < 64 := by rcases hthree hf with hw | hw | hw | hw <;> rw [hw] at hi <;> omega
    refine Prod.ext ((congrArg (fun v => laneOf t.w (u.rowAt v) i) (selLane hi64 t.a t.b)).trans ?_) rfl
    exact apply_ite (fun v => laneOf t.w (u.rowAt v) i) _ _ _
  · intro h ha hd hb
    exact vec_gives (fs := [_, _, _]) rfl h rfl (faults_three ha hb hd) (hwid hd) fun i _ => same_lane rfl
  · intro h hf hb
    refine vec_gives (fs := [_, _, _]) rfl h rfl ?_ (htwo hf) fun i hi => same_lane ?_
    · have ha := hf _ (List.mem_cons_self ..)
      have hd := twoFaults_d hf
      exact faults_three ha hb hd
    · refine Prod.ext (congrArg x ?_) rfl
      show (i + n - (u.scOp o o.b).toNat % n % n) % n = (i + (n - (u.scOp o o.b).toNat % n)) % n
      have hlt : (u.scOp o o.b).toNat % n < n := Nat.mod_lt _ (Nat.lt_of_le_of_lt (Nat.zero_le i) hi)
      rw [Nat.mod_mod, Nat.add_sub_assoc hlt.le]
  · intro h hf
    refine vec_gives (fs := [_, _, _]) rfl h rfl ?_ (hthree hf) fun i _ => same_lane ?_
    · have ha := hf _ (List.mem_cons_self ..)
      have hb := hf _ (List.mem_cons_of_mem _ (List.mem_cons_self ..))
      have hd := threeFaults_d hf
      exact faults_three ha hb hd
    · by_cases hi : i % 2 = 0
      · rw [if_pos hi]
        exact Prod.ext (congrArg (fun v => laneOf t.w (u.rowAt v) (i / 2)) (if_pos (decide_eq_true hi))) rfl
      · rw [if_neg hi]
        exact Prod.ext (congrArg (fun v => laneOf t.w (u.rowAt v) (i / 2)) (if_neg (show ¬ decide (i % 2 = 0) = true by simpa using hi))) rfl
  · intro h hf
    refine vec_gives (fs := [_, _, _]) rfl h rfl ?_ (hthree hf) fun i _ => same_lane ?_
    · have ha := hf _ (List.mem_cons_self ..)
      have hb := hf _ (List.mem_cons_of_mem _ (List.mem_cons_self ..))
      have hd := threeFaults_d hf
      exact faults_three ha hb hd
    · by_cases hi : i % 2 = 0
      · rw [if_pos hi]
        exact Prod.ext (congrArg (fun v => laneOf t.w (u.rowAt v) (n / 2 + i / 2)) (if_pos (decide_eq_true hi))) rfl
      · rw [if_neg hi]
        exact Prod.ext (congrArg (fun v => laneOf t.w (u.rowAt v) (n / 2 + i / 2)) (if_neg (show ¬ decide (i % 2 = 0) = true by simpa using hi))) rfl
  · intro h hd hb
    refine vec_gives (fs := [_, _]) rfl h rfl ?_ (hwid hd) fun i _ => same_lane rfl
    have hb' : (if o.lit.isSome then none else u.locFault (scLoc o o.b)) = none := by
      cases hl : o.lit with
      | none => exact hb hl
      | some l => rfl
    exact faults_two hb' hd
  · intro h hf
    exact vec_gives rfl h rfl hf (htwo hf) fun i _ => same_lane (Prod.ext (congrArg x (immOf_lane (htwo hf) _)) rfl)
  · intro h hf
    exact vec_gives rfl h rfl hf (htwo hf) fun i _ => same_lane rfl
  · intro h hf
    have hq := elemCell_quiet (row := t.d.base / 64) (n := n) (act := u.lanes o &&& u.me.pred o.b.toNat) (place := id)
      (f := fun i => (x (popBelow (u.me.pred o.b.toNat) i), 0)) (htwo hf) fun _ => rfl
    refine vec_cell rfl h (congrArg (fun fl => orFault (u.twoFaults t true) (.done (u.fixed 3 [_] fl))) hq) hf (htwo hf)
      (fun i => ?_) fun _ => rfl
    rw [popBelow_eq]
  · intro h ha hb hd
    have hw : t.w = 32 := dotOk_width (vecFault_ok hd)
    refine vec_gives (fs := [_, _, _]) (f := u.dotLane o t) rfl h ?_ (faults_three ha hb hd) (hwid hd) fun i _ => same_lane ?_
    · rw [hw]
      rfl
    · by_cases he : e = 11
      · exact (if_pos he).symm
      · exact (dotLane_int he).trans (if_neg he).symm
  · intro f h hf
    exact vec_gives rfl h rfl hf (htwo hf) fun i _ => same_lane rfl
  · intro h hf scan
    refine ⟨vec_cell rfl h rfl hf (htwo hf) (fun _ => rfl) fun _ => rfl, fun hfl => ?_⟩
    have hint : ¬ isFloat e = true := by rw [hfl]; exact Bool.false_ne_true
    refine ⟨scanned_quiet hint _, fun hall i hi => ?_⟩
    show (scanned e m (u.lanes o) ((List.range n).map x) n.log2).1.getD i 0 = _
    rw [hall]
    exact scanned_prefix hint (htwo hf) hx hi
  · intro r h a b w ha hb
    refine ⟨_, _, _, _, rfl, vec_push h ((vcmpBody_eq r u).trans (orFault_ok (faults_two ha hb))), fun i hi => ?_⟩
    exact cmpFold_spec hi
  · intro f h a w ha hd sel r val
    have hw : FillsRow w := width_of_vecFault ha
    refine ⟨⟨_, rfl, vec_push h (orFault_ok (faults_two ha hd))⟩, fun hfl => ?_⟩
    have hint : ¬ isFloat a.etype = true := by rw [hfl]; exact Bool.false_ne_true
    constructor
    · refine tree_quiet hint _ _ ?_
      intro l hl q hq
      obtain ⟨i, -, rfl⟩ := List.mem_map.mp hl
      split at hq
      · exact congrArg Prod.snd (Option.some.inj hq).symm
      · exact absurd hq (by simp)
    · rintro rfl
      have hlog : 2 ^ (512 / w).log2 = 512 / w := by rcases hw with h | h | h | h <;> rw [h] <;> decide
      show (if isFloat a.etype then r.1 else extendTo64 (isSigned a.etype) (w / 8) r.1) % 2 ^ w = _
      rw [hfl, if_neg Bool.false_ne_true, extendTo64_mod hw]
      refine (tree_sum hint _ _ (by rw [List.length_map, List.length_range, hlog])).trans ?_
      rw [sum_leaves]

end


section
/-! A load of vectors after the pager has refused the page (02 R47): the case that `Obligations.VectorMemoryCompletes` leaves in. -/
namespace Sys2Proof.Machine

/-- A contiguous VLD of the view in s65 at the address in s2. -/
def plainVld : Ops := { sw := false, ext := none, lit := none, d := 1, a := 2, b := 0 }

/-- A context whose strand was told, when it woke, that the page of its next access is refused: an address of the own commons. -/
def State.pageRefused : State :=
  { State.reset with
    cores := [(0, { ctxs := [(0, {
      store := [(0, rowOfWords [0, 0, 0x00FFFF0000000200]), (8, rowOfWords [0, 0xB0500])]
      answer := some { val := 1, page := 0xFFFF0000000000, key := 0 } })] })] }

/-- TRAPCAUSE of the acting context after an instruction. -/
def trapcauseAfter (i : Instr) (s : State) : Option Word :=
  match exec i s with
  | .next v => some v.me.trapcause
  | _ => none

/-- The load traps. -/
theorem pageRefused_traps : trapcauseAfter (.vld plainVld false) State.pageRefused = some 4100 := by decide +kernel

theorem pageRefused_goes :
    State.pageRefused.goesVec (.vld plainVld false) plainVld (fun _ => true) = true ∧
    State.pageRefused.locFault (scLoc plainVld plainVld.a) = none ∧
    State.pageRefused.vecFault (State.pageRefused.vec plainVld plainVld.d) true = none := by decide +kernel

/-- Its address is that of a line of the own commons. -/
theorem pageRefused_address : State.pageRefused.ea plainVld 64 = 0x00FFFF0000000200 := by decide +kernel

/-- So is every lane's, and it is aligned to its element. -/
theorem pageRefused_lanes : ∀ k, k < 16 →
    commonsAt (0x00FFFF0000000200 + BitVec.ofNat 64 (k * 4)) 4 = true ∧
      ((0x00FFFF0000000200 + BitVec.ofNat 64 (k * 4) : Word)).toNat % 4 = 0 := by decide

/-- What an instruction that retires leaves of TRAPCAUSE. -/
theorem Retires.trapcause {u v : State} {o : Ops} {rs : List Result} {t : Option Word} (h : Retires u v o rs t) :
    v.me.trapcause = u.me.trapcause := by
  obtain ⟨⟨x, hv, hx⟩, -⟩ := h
  rw [hv, setMe_me, hx]

end Sys2Proof.Machine

open Sys2Proof Sys2Proof.Machine

/-- Refutes O38: its premises do not shut out a context whose strand was told, when it woke, that the page of the access is refused
(02 R47). A contiguous VLD of a line of the own commons then raises its exception instead of bringing the lanes. -/
theorem not_vectorMemoryCompletes : ¬ Obligations.VectorMemoryCompletes := by
  unfold Obligations.VectorMemoryCompletes
  intro h
  obtain ⟨hgoes, hbase, hview⟩ := pageRefused_goes
  have hw : widthOf ((State.pageRefused.entered plainVld).vec plainVld plainVld.d).etype = 32 := by decide +kernel
  have hplain : ¬ (Instr.vld plainVld false = .vgather plainVld ∨ Instr.vld plainVld false = .vscatter plainVld) := by simp
  have hcase := (h State.pageRefused (.vld plainVld false) plainVld false (.inl (.inl rfl)) hgoes hbase hview
    (fun _ h => absurd h (by decide)) (fun h => by simp at h)).2
  have hload := (hcase (fun h => by simp at h) (fun _ h => absurd h (by decide)) (fun _ _ => by decide +kernel) (by decide) (by decide)
    (fun _ h => absurd h List.not_mem_nil) ?_).1 (.inl rfl) (by decide) (.inl rfl) (fun _ _ _ => rfl)
  · obtain ⟨v, c, hexec, hret, -⟩ := hload
    have htraps := pageRefused_traps
    rw [trapcauseAfter, hexec] at htraps
    have hkeep := hret.trapcause
    rw [Option.some.inj htraps] at hkeep
    exact absurd hkeep (by decide)
  · intro k hk _
    rw [hw] at hk
    dsimp only
    rw [if_neg hplain, if_neg Bool.false_ne_true, hw, show (State.pageRefused.entered plainVld).ea plainVld 64 = _ from pageRefused_address]
    exact pageRefused_lanes k hk

end


section
/-! Conversions (09 R256 to R259): which elements they write, and what an integer target gives. -/
namespace Sys2Proof.Machine

variable {s : State} {o : Ops}

/-! ### The state in which an instruction acts -/

/-- An acquire touches the hamlet's lines alone. -/
theorem acquire_hamlets (sc : Scope) : ∃ hs, s.acquire sc = { s with hamlets := hs } := by
  unfold State.acquire
  split
  · exact ⟨_, rfl⟩
  · exact ⟨s.hamlets, rfl⟩

theorem acquireTokens_hamlets (m : BitVec 8) : ∃ hs, s.acquireTokens m = { s with hamlets := hs } := by
  have hgo : ∀ (l : List Nat) (f : Nat → Scope) (t : State), ∃ hs, l.foldl (fun t i => t.acquire (f i)) t = { t with hamlets := hs } := by
    intro l f
    induction l with
    | nil => exact fun t => ⟨t.hamlets, rfl⟩
    | cons i l ih =>
      intro t
      obtain ⟨hs, ht⟩ := acquire_hamlets (s := t) (f i)
      obtain ⟨hs', ht'⟩ := ih (t.acquire (f i))
      exact ⟨hs', by rw [List.foldl_cons, ht', ht]⟩
  exact hgo _ _ _

theorem entered_hamlets : ∃ hs, s.entered o = { s with hamlets := hs } := by
  unfold State.entered
  split
  · exact ⟨s.hamlets, rfl⟩
  · exact acquireTokens_hamlets _

/-- The token waits of an instruction change no register. -/
theorem entered_descOf : (s.entered o).descOf o = s.descOf o := by
  obtain ⟨hs, h⟩ := entered_hamlets (s := s) (o := o)
  rw [h]
  rfl

theorem entered_vec (x : BitVec 16) : (s.entered o).vec o x = s.vec o x := by
  obtain ⟨hs, h⟩ := entered_hamlets (s := s) (o := o)
  rw [h]
  rfl

theorem goesVec_pre {i : Instr} {pre : State → Bool} (h : s.goesVec i o pre = true) : pre s = true := by
  unfold State.goesVec at h
  simp only [Bool.and_eq_true] at h
  exact h.1.1

/-- A vector instruction whose body traps while nothing holds it. -/
theorem vec_trap {i : Instr} {pre : State → Bool} {body : State → Act} {c : BitVec 6} {info : Word}
    (h : s.goesVec i o pre = true) (hb : body (s.entered o) = .trap c info) :
    s.performVec i o pre body = (s.entered o).trap c info (s.entered o).me.faultPc := by
  rw [performVec_goes h, hb]
  rfl

/-! ### Elements -/

/-- An instruction that writes elements of a row at given places retires with them. -/
theorem elements_retire {i : Instr} {pre : State → Bool} {body : State → Act} {t : State} {d : View} {w n lat : Nat} {act : Word}
    {place : Nat → Nat} {f : Nat → Nat × Flags} {more : List Cell} (h : s.goesVec i o pre = true)
    (hexec : exec i s = .next (s.performVec i o pre body))
    (hb : body (s.entered o) = .done (t.fixed lat ((elemCell (d.base / 64) w n act place f).1 :: more)
      (elemCell (d.base / 64) w n act place f).2))
    (hw : 0 < w) (hn : ∀ i, i < n → w * place i + w ≤ 512) (inj : ∀ i j, i < n → j < n → place i = place j → i = j) :
    ∃ v c fl, exec i s = .next v ∧ Retires t v o [fixedResult lat (c :: more) fl] ∧ LaneCell d w n act place f c fl :=
  ⟨_, _, _, hexec, vec_done h hb (fun x => by simp [State.fixed, State.push]) (by simp [State.fixed, State.push, fixedResult]),
    elemCell_spec hw hn inj⟩

/-! ### Targets -/

theorem descValid_width {d : BitVec 32} (h : descValid d = true) : 0 < (fmtOfDesc d).width := by
  unfold descValid at h
  simp only [Bool.and_eq_true, decide_eq_true_eq] at h
  obtain ⟨⟨⟨⟨⟨⟨⟨⟨hw, -⟩, -⟩, -⟩, -⟩, -⟩, -⟩, -⟩, -⟩ := h
  exact hw

/-- The width of a target's elements: that of the format, for a descriptor. -/
theorem targetOf_width {ty : ETy} {d : BitVec 32} :
    (targetOf ty d).width = if ty = .q then (fmtOfDesc d).width else (targetOf ty 0).width := by
  cases ty <;> rfl

theorem targetOf_width_pos {ty : ETy} {d : BitVec 32} (hi : ty ≠ .i4) (hd : ty = .q → descValid d = true) :
    0 < (targetOf ty d).width := by
  rw [targetOf_width]
  split
  next hq => exact descValid_width (hd hq)
  next hq => revert hi hq; cases ty <;> decide

theorem sourceWidth_pos {v : View} {ok : Bool} (h : s.vecFault v ok = none) : 0 < widthOf v.etype := by
  have := width_of_vecFault h
  omega

theorem mul_div_le {w n i : Nat} (hi : i < n / w) : w * i + w ≤ n := by
  have h1 : w * (i + 1) ≤ w * (n / w) := Nat.mul_le_mul_left w hi
  have h2 : w * (n / w) ≤ n := Nat.mul_div_le n w
  rw [Nat.mul_add, Nat.mul_one] at h1
  omega

/-- The elements of a part that lies within a row end within it. -/
theorem part_fits {w p n i total : Nat} (hi : i < n) (h : (p + 1) * n * w ≤ total) : w * (p * n + i) + w ≤ total := by
  have h1 : w * (p * n + i + 1) ≤ w * ((p + 1) * n) := by
    apply Nat.mul_le_mul_left
    rw [Nat.add_mul, Nat.one_mul]
    omega
  rw [Nat.mul_comm w ((p + 1) * n)] at h1
  rw [← Nat.mul_succ]
  exact h1.trans h

/-- CVT's elements lie within the target row. -/
theorem cvt_fits {part ws wt i : Nat} (hs : 0 < ws) (ht : 0 < wt) (hp : partOk part ws wt = true) (hi : i < 512 / max ws wt) :
    wt * (if wt < ws then part * (512 / max ws wt) + i else i) + wt ≤ 512 := by
  split
  next hlt =>
    unfold partOk at hp
    simp only [Bool.or_eq_true, Bool.and_eq_true, decide_eq_true_eq] at hp
    have hmin : min ws wt = wt := Nat.min_eq_right hlt.le
    rw [hmin] at hp
    exact part_fits hi (by omega)
  next hge =>
    rw [Nat.max_eq_right (by omega)] at hi
    exact mul_div_le hi

/-! ### Integer targets -/

theorem ofInt_units (k : Int) : (if decide (k < 0) = true then -((k.natAbs : Nat) : Int) else (k.natAbs : Int)) = k := by
  by_cases h : k < 0
  · rw [if_pos (decide_eq_true h)]; omega
  · rw [if_neg (by simpa using h)]; omega

/-- An integer converted to an integer type is brought into its range. -/
theorem convert_ofInt {sg : Bool} {w : Nat} {m : Mode} {x : Nat} {beyond : Flags} (k : Int) :
    convert (.int sg w) beyond m x true (.ofInt k) =
      (((saturate sg w k).1 % (2 ^ w : Nat)).toNat, if (saturate sg w k).2 then fSat else 0) := by
  unfold convert toInteger Val.ofInt
  dsimp only
  rw [roundUnits_exact, ofInt_units]
  rfl

theorem saturate_within {sg : Bool} {w : Nat} {k : Int} (hl : (intRange sg w).1 ≤ k) (hh : k ≤ (intRange sg w).2) :
    saturate sg w k = (k, false) := by
  unfold saturate
  dsimp only
  rw [if_neg (by omega), if_neg (by omega)]

theorem saturate_below {sg : Bool} {w : Nat} {k : Int} (h : k < (intRange sg w).1) :
    saturate sg w k = ((intRange sg w).1, true) := if_pos h

theorem saturate_above {sg : Bool} {w : Nat} {k : Int} (hr : (intRange sg w).1 ≤ (intRange sg w).2) (h : (intRange sg w).2 < k) :
    saturate sg w k = ((intRange sg w).2, true) := by
  unfold saturate
  dsimp only
  rw [if_neg (by omega), if_pos h]

/-! ### The instructions -/

theorem execCvt_completes {ty : ETy} (h : s.goesVec (.cvt o ty) o (cvtPre o ty) = true) (hty : ty ≠ .i4)
    (ha : (s.entered o).vecFault ((s.entered o).vec o o.a) true = none)
    (hd : (s.entered o).vecFault ((s.entered o).vec o o.d) true = none)
    (hb : ty = .q → (s.entered o).locFault (scLoc o o.b) = none) (hv : ty = .q → descValid ((s.entered o).descOf o) = true) :
    let u := s.entered o
    let a := u.vec o o.a
    let tg := targetOf ty (u.descOf o)
    let m := u.modeOf o
    let act := u.lanes o
    let part := fld (xfOf o) 5 0
    let ws := widthOf a.etype
    let wt := tg.width
    let n := 512 / max ws wt
    ∃ v c fl, exec (.cvt o ty) s = .next v ∧ Retires (u.draws m act n).2 v o [fixedResult 4 [c] fl] ∧
      LaneCell (u.vec o o.d) wt n act (fun i => if wt < ws then part * n + i else i)
        (fun i => convert tg fNv m ((u.draws m act n).1.getD i 0) (isInt a.etype)
          (sourceVal a.etype (laneOf ws (u.rowAt a) (if ws < wt then part * n + i else i)))) c fl := by
  intro u a tg m act part ws wt n
  have hwt : 0 < wt := targetOf_width_pos hty hv
  have hpart : partOk part ws wt = true := by
    have hpre := goesVec_pre h
    unfold cvtPre at hpre
    rw [← entered_descOf, ← entered_vec, Bool.or_eq_true] at hpre
    rcases hpre with hpre | hpre
    · simp only [Bool.and_eq_true, decide_eq_true_eq, Bool.not_eq_true'] at hpre
      exact absurd (hv hpre.1) (by rw [hpre.2]; decide)
    · exact hpre
  have hvalid : ¬ (decide (ty = .q) && (u.locFault (scLoc o o.b)).isNone && !descValid (u.descOf o)) = true := by
    simp only [Bool.and_eq_true, decide_eq_true_eq, Bool.not_eq_true']
    rintro ⟨⟨hq, -⟩, hno⟩
    exact absurd (hv hq) (by rw [hno]; decide)
  refine elements_retire (more := []) h rfl ?_ hwt (fun i hi => cvt_fits (sourceWidth_pos ha) hwt hpart hi) (fun i j _ _ hij => ?_)
  · refine (if_neg hvalid).trans (orFault_ok (faults_three ha ?_ hd))
    split
    next hq => exact hb hq
    next => rfl
  · split at hij <;> omega

/-- CVTW's refusal: a bad descriptor, or an integer target of scaled or floating-point blocks. -/
def cvtwRefuses (ty : ETy) (desc : BitVec 32) : Bool :=
  !descValid desc ||
    ((match targetOf ty desc with | .int _ _ => true | .fmt _ => false) &&
      (decide ((fmtOfDesc desc).ew ≠ 0) || decide (fld desc 12 11 ≠ 0)))

theorem cvtwRefuses_true {ty : ETy} {desc : BitVec 32}
    (h : descValid desc = false ∨ ((ty = .i32 ∨ ty = .i64) ∧ ((fmtOfDesc desc).ew ≠ 0 ∨ fld desc 12 11 ≠ 0))) :
    cvtwRefuses ty desc = true := by
  unfold cvtwRefuses
  rcases h with h | ⟨hty, h⟩
  · rw [h]
    rfl
  · have hto : (match targetOf ty desc with | .int _ _ => true | .fmt _ => false) = true := by
      rcases hty with rfl | rfl <;> rfl
    rw [hto, Bool.true_and, ← Bool.decide_or, decide_eq_true h, Bool.or_true]

theorem cvtwRefuses_false {ty : ETy} {desc : BitVec 32} (hv : descValid desc = true)
    (h : ty = .f32 ∨ ty = .f64 ∨ ((fmtOfDesc desc).ew = 0 ∧ ¬ fld desc 12 11 ≠ 0)) : cvtwRefuses ty desc = false := by
  unfold cvtwRefuses
  rcases h with rfl | rfl | ⟨he, hs⟩
  · rw [hv]
    rfl
  · rw [hv]
    rfl
  · rw [hv, he, decide_eq_false hs]
    simp

/-- A NaN made quiet. -/
def quieted (v : Val) : Val := match v with | .nan _ => Val.nan false | v => v

/-- CVTW's element: a NaN of the block's format is quiet, and the scale multiplies. -/
def cvtwElem (u : State) (o : Ops) (ty : ETy) (i : Nat) : Nat × Flags :=
  let desc := u.descOf o
  let f := fmtOfDesc desc
  let v := f.decode (laneOf f.width (u.rowAt (u.vec o o.a)) (fld (xfOf o) 5 0 * (512 / (targetOf ty desc).width) + i))
  convert (targetOf ty desc) fSat (u.modeOf o) 0 false
    (if fld desc 12 11 ≠ 0 then (mulVal (quieted v) (scaleVal ((u.scOp o o.b >>> 32).setWidth 32))).1 else quieted v)

/-- CVTW's body, its parts named. -/
theorem cvtwBody_eq (ty : ETy) (u : State) :
    cvtwBody o ty u =
      (let desc := u.descOf o
       let d := u.vec o o.d
       let w := (targetOf ty desc).width
       let r := elemCell (d.base / 64) w (512 / w) (u.lanes o) id (cvtwElem u o ty)
       let sc : BitVec 32 := (u.scOp o o.b >>> 32).setWidth 32
       if (u.locFault (scLoc o o.b)).isNone && cvtwRefuses ty desc then illegal (.cvtw o ty)
       else orFault [u.vecFault (u.vec o o.a) true, u.locFault (scLoc o o.b), u.vecFault d true]
         (if decide (fld desc 12 11 ≠ 0) && badScale sc && (List.range (512 / w)).any (fun i => (u.lanes o).getLsbD i) then
            .trap 0x06 (sc.setWidth 64)
          else .done (u.fixed 4 [r.1] r.2))) := rfl

theorem scale_bits (x : Word) : ((x >>> 32).setWidth 32 : BitVec 32) = x.extractLsb' 32 32 := by
  refine BitVec.eq_of_getLsbD_eq fun i hi => ?_
  rw [BitVec.getLsbD_setWidth, BitVec.getLsbD_ushiftRight, BitVec.getLsbD_extractLsb']

theorem rowLocs_clear {l : List Nat} {row : Nat → Nat}
    (h : ∀ j ∈ l, s.locFault { addr := 64 * row j, bytes := 64, storeOnly := true } = none) :
    ∀ f ∈ (((l.map row).eraseDups.map fun r => ({ addr := 64 * r, bytes := 64, storeOnly := true } : Loc)).map s.locFault), f = none := by
  intro f hf
  obtain ⟨loc, hloc, rfl⟩ := List.mem_map.mp hf
  obtain ⟨r, hr, rfl⟩ := List.mem_map.mp hloc
  obtain ⟨j, hj, rfl⟩ := List.mem_map.mp (List.mem_eraseDups.mp hr)
  exact h j hj

theorem execCvtn_completes {ty : ETy} (h : s.goesVec (.cvtn o ty) o (cvtnPre o ty) = true) (hown : ownOk (.cvtn o ty) = true)
    (hdesc : cvtnDesc ty ((s.entered o).descOf o) = true) :
    let u := s.entered o
    let a := u.vec o o.a
    let desc := u.descOf o
    let tg := targetOf ty desc
    let m := u.modeOf o
    let act := u.lanes o
    let ws := widthOf a.etype
    let wt := tg.width
    let n := blockOf desc
    let first := fld (xfOf o) 2 0 * n
    let row := fun j => a.base / 64 + (first + j) * ws / 512
    u.vecFault a (isFloat a.etype && decide (wt ≤ ws)) = none → u.locFault (scLoc o o.b) = none →
      u.vecFault (u.vec o o.d) true = none →
      (∀ j, j < n → act.getLsbD j = true → u.locFault { addr := 64 * row j, bytes := 64, storeOnly := true } = none) →
      let x := fun j => sourceVal a.etype (laneOf ws (u.row (row j)) ((first + j) % (512 / ws)))
      let scale := blockScale (fld desc 12 11) (topOf tg) desc (((List.range n).filter fun j => act.getLsbD j).map x)
      ∃ v c fl, exec (.cvtn o ty) s = .next v ∧
        Retires (u.draws m act n).2 v o [fixedResult 6 [c, cellAt (scAddr o o.b) 8 (scale.toNat * 2 ^ 32 + desc.toNat)] fl] ∧
        LaneCell (u.vec o o.d) wt n act (fun j => fld (xfOf o) 7 3 * n + j)
          (fun j =>
            let q := divVal (x j) (scaleVal scale)
            let r := convert tg fSat m ((u.draws m act n).1.getD j 0) false q.1
            (r.1, r.2 ||| q.2)) c fl := by
  intro u a desc tg m act ws wt n first row ha hb hd hrows x scale
  have hwt : 0 < wt := by
    refine targetOf_width_pos (by rintro rfl; exact absurd hown (by simp [ownOk])) fun hq => ?_
    rwa [cvtnDesc, if_pos hq] at hdesc
  have hfit : (fld (xfOf o) 7 3 + 1) * n * wt ≤ 512 := by
    have hpre := goesVec_pre h
    unfold cvtnPre at hpre
    rw [← entered_descOf] at hpre
    dsimp only at hpre
    rw [hdesc, Bool.not_true, Bool.false_or, decide_eq_true_eq] at hpre
    exact hpre
  have hgood : ¬ ((u.locFault (scLoc o o.b)).isNone && !cvtnDesc ty desc) = true := by
    rw [show cvtnDesc ty desc = true from hdesc]
    simp
  refine elements_retire h rfl ((if_neg hgood).trans (orFault_ok ?_)) hwt (fun i hi => part_fits hi hfit) fun i j _ _ hij => by omega
  intro f hf
  rcases List.mem_append.mp hf with hf | hf
  · rcases List.mem_append.mp hf with hf | hf
    · exact (List.mem_singleton.mp hf).trans ha
    · refine rowLocs_clear (fun j hj => ?_) f hf
      obtain ⟨hn, hact⟩ := List.mem_filter.mp hj
      exact hrows j (List.mem_range.mp hn) hact
  · exact faults_two hb hd f hf

end Sys2Proof.Machine

open Sys2Proof Sys2Proof.Machine

/-- Settles O39: the elements of each conversion take their places, and an integer target brings a value into its range. -/
theorem conversionsComplete : Obligations.ConversionsComplete := by
  unfold Obligations.ConversionsComplete
  constructor
  · intro s o ty u a d desc tg m act part ws wt after draw
    refine ⟨?_, ?_, ?_⟩
    · intro h hty ha hd hb n
      refine ⟨fun hq hv => ?_, fun hv => execCvt_completes h hty ha hd hb hv⟩
      refine congrArg Host.Outcome.next (vec_trap h (if_pos ?_))
      rw [decide_eq_true hq, hb hq, show descValid (u.descOf o) = false from hv]
      rfl
    · intro h hown ha hb hd n f scaled sc quiet
      refine ⟨fun hno => ?_, fun hv hty => ?_⟩
      · refine congrArg Host.Outcome.next (vec_trap h ((cvtwBody_eq ty u).trans (if_pos ?_)))
        rw [hb, show cvtwRefuses ty (u.descOf o) = true from cvtwRefuses_true hno]
        rfl
      · have hgo := (cvtwBody_eq (o := o) ty u).trans ((if_neg (by
          rw [show cvtwRefuses ty (u.descOf o) = false from cvtwRefuses_false hv hty, Bool.and_false]
          exact Bool.false_ne_true)).trans (orFault_ok (faults_three ha hb hd)))
        rw [scale_bits] at hgo
        refine ⟨fun hs hbad hany => ?_, fun hquiet => ?_⟩
        · refine congrArg Host.Outcome.next (vec_trap h (hgo.trans (if_pos ?_)))
          obtain ⟨i, hi, hact⟩ := hany
          rw [decide_eq_true hs, hbad, List.any_eq_true.mpr ⟨i, List.mem_range.mpr hi, hact⟩]
          rfl
        · have helem : cvtwElem u o ty = fun i =>
              let x := quiet (f.decode (laneOf f.width (u.rowAt a) (part * n + i)))
              convert tg fSat m 0 false (if scaled then (mulVal x (scaleVal sc)).1 else x) := by
            funext i
            unfold cvtwElem
            rw [scale_bits]
            rfl
          rw [helem] at hgo
          have hty' : ty ≠ .i4 ∧ ty ≠ .q := by
            constructor <;> (rintro rfl; exact absurd hown (by simp [ownOk]))
          refine elements_retire (more := []) h rfl (hgo.trans (if_neg ?_)) (targetOf_width_pos hty'.1 fun hq => absurd hq hty'.2)
            (fun i hi => mul_div_le hi) fun i j _ _ hij => hij
          simp only [Bool.and_eq_true, decide_eq_true_eq, List.any_eq_true, List.mem_range, not_and, not_exists]
          intro hs i hi hact
          exact absurd hact (by rw [hquiet hs.1 hs.2 i hi]; exact Bool.false_ne_true)
    · intro h hown hdesc ha hb hd n first row hrows x scale
      exact execCvtn_completes h hown hdesc ha hb hd hrows
  · intro sg w m x beyond k hw lo hi
    have hpos : 0 < 2 ^ (w - 1) := Nat.two_pow_pos _
    have hpos' : 0 < 2 ^ w := Nat.two_pow_pos _
    have hr : intRange sg w = (lo, hi) := by cases sg <;> rfl
    have hle : lo ≤ hi := by
      cases sg
      · show (0 : Int) ≤ ((2 ^ w : Nat) : Int) - 1
        omega
      · show -((2 ^ (w - 1) : Nat) : Int) ≤ ((2 ^ (w - 1) : Nat) : Int) - 1
        omega
    refine ⟨fun q => ?_, fun hl hh => ?_, fun hl => ?_, fun hh => ?_⟩
    · simp [convert, toInteger]
    · rw [convert_ofInt, saturate_within (by rw [hr]; exact hl) (by rw [hr]; exact hh)]
      rfl
    · rw [convert_ofInt, saturate_below (by rw [hr]; exact hl), hr]
      rfl
    · rw [convert_ofInt, saturate_above (by rw [hr]; exact hle) (by rw [hr]; exact hh), hr]
      rfl

end


section
/-! Events of the memory system (05 R125, R131, R133, R134, R139; 06 R166, R167; 12 R341; 13 R364). -/
namespace Sys2Proof.Machine

variable {s t u : State} {h line pa a : Nat} {bs : List (Nat × Byte)}

/-! ### Lists by key -/

theorem mem_put {α : Type} {m : Map α} {k : Nat} {v : α} {e : Nat × α} (h : e ∈ put m k v) : e = (k, v) ∨ e ∈ m := by
  induction m with
  | nil => exact .inl (List.mem_singleton.mp h)
  | cons x m ih =>
    obtain ⟨j, w⟩ := x
    rw [put] at h
    split at h
    · rcases List.mem_cons.mp h with h | h
      · exact .inl h
      · exact .inr (List.mem_cons_of_mem _ h)
    · split at h
      · rcases List.mem_cons.mp h with h | h
        · exact .inl h
        · exact .inr h
      · rcases List.mem_cons.mp h with h | h
        · exact .inr (h ▸ List.mem_cons_self ..)
        · exact (ih h).imp id (List.mem_cons_of_mem _)

theorem look_default_or_mem {α : Type} (d : α) (m : Map α) (k : Nat) : look d m k = d ∨ ∃ j, (j, look d m k) ∈ m := by
  induction m with
  | nil => exact .inl rfl
  | cons x m ih =>
    obtain ⟨j, w⟩ := x
    by_cases hj : j = k
    · exact .inr ⟨j, by simp [look, hj]⟩
    · have hl : look d ((j, w) :: m) k = look d m k := by simp [look, hj]
      rw [hl]
      exact ih.imp id fun ⟨i, hi⟩ => ⟨i, List.mem_cons_of_mem _ hi⟩

theorem find_del_other {α : Type} (m : Map α) {k j : Nat} (hj : j ≠ k) : find (del m k) j = find m j := by
  induction m with
  | nil => rfl
  | cons e m ih =>
    obtain ⟨i, v⟩ := e
    by_cases hi : i = k
    · have hij : ¬ i = j := fun h => hj (h.symm.trans hi)
      rw [del, if_pos hi, ih, find, if_neg hij]
    · rw [del, if_neg hi, find, find, ih]

/-! ### Where an address lies -/

/-- No record of an overflow area is at an address (19 R441), whatever copies of lines a hamlet holds. -/
theorem areaOf_setHam {x : Hamlet} (hx : (s.ham h).Copies x) (ha : s.areaOf a = none) : (s.setHam h x).areaOf a = none := by
  obtain ⟨l, w, rfl⟩ := hx
  rw [State.areaOf, List.findSome?_eq_none_iff] at ha ⊢
  intro e he
  rcases mem_put he with rfl | he
  · rcases look_default_or_mem {} s.hamlets h with hd | ⟨j, hj⟩
    · rw [State.ham, hd]
      rfl
    · have hnone := ha _ hj
      revert hnone
      rw [State.ham]
      generalize look {} s.hamlets h = y
      cases y.area with
      | none => simp [Hamlet.spills]
      | some b => simp [Hamlet.spills]
  · exact ha e he

/-- An address keeps its home where what says where addresses lie stays. -/
theorem State.Plain.of (hp : s.Plain a) (hub : t.hub = s.hub) (hr : t.ranges = s.ranges) (hs : t.scales = s.scales)
    (ha : t.areaOf a = none) : t.Plain a := by
  have hreg : t.region a = s.region a := by
    have he : t.region a = ({ s with hub := t.hub } : State).region a := rfl
    rw [he, hub]
  exact ⟨by rw [hreg]; exact hp.backed, by rw [hreg]; exact hp.table, ha, by rw [State.plainLine, hr, hs]; exact hp.line⟩

/-! ### Lines that leave a hamlet -/

theorem dirtyBytes_inLine (l : Line) (hp : pa % 64 = 0) : inLine pa (dirtyBytes l) := by
  have hmap : (dirtyBytes l).map Prod.fst = (List.range 64).filter fun i => l.dirty.getLsbD i := by
    rw [dirtyBytes, List.map_map]
    exact List.map_id' _
  refine ⟨hmap ▸ List.nodup_range.filter _, fun b hb => ?_⟩
  have hmem : b.1 ∈ (dirtyBytes l).map Prod.fst := List.mem_map_of_mem hb
  rw [hmap, List.mem_filter, List.mem_range] at hmem
  omega

/-- A listed byte is written where it goes. -/
theorem written_mem {i : Nat} {v : Byte} (hn : (bs.map Prod.fst).Nodup) (hb : (i, v) ∈ bs) (old : Byte) :
    written pa bs (pa + i) old = v := by
  obtain ⟨c, hc⟩ := Option.isSome_iff_exists.mp
    ((List.find?_isSome (p := fun b : Nat × Byte => decide (pa + b.1 = pa + i))).mpr ⟨_, hb, decide_eq_true rfl⟩)
  have hci : pa + c.1 = pa + i := by simpa using List.find?_some hc
  have hcv : c = (i, v) := List.inj_on_of_nodup_map hn (List.mem_of_find?_eq_some hc) hb (by show c.1 = i; omega)
  rw [written, hc, hcv]

theorem written_not_mem {i : Nat} (hb : i ∉ bs.map Prod.fst) (old : Byte) : written pa bs (pa + i) old = old := by
  rw [written, List.find?_eq_none.mpr]
  intro b hbs hba
  have hbi : pa + b.1 = pa + i := by simpa using hba
  exact hb (List.mem_map.mpr ⟨b, hbs, by omega⟩)

theorem written_dirtyBytes (l : Line) {i : Nat} (hi : i < 64) (old : Byte) :
    written pa (dirtyBytes l) (pa + i) old = if l.dirty.getLsbD i then l.data.extractLsb' (8 * i) 8 else old := by
  have hmap : (dirtyBytes l).map Prod.fst = (List.range 64).filter fun i => l.dirty.getLsbD i := by
    rw [dirtyBytes, List.map_map]
    exact List.map_id' _
  have hnd : ((dirtyBytes l).map Prod.fst).Nodup := by
    rw [hmap]
    exact List.nodup_range.filter _
  split
  next hd => exact written_mem hnd (List.mem_map.mpr ⟨i, List.mem_filter.mpr ⟨List.mem_range.mpr hi, hd⟩, rfl⟩) old
  next hd =>
    refine written_not_mem (fun hm => ?_) old
    rw [hmap] at hm
    exact hd (List.mem_filter.mp hm).2

/-- `t` has the lists of `s` that say where addresses lie, but for the copies of hamlets, and canonical memory. -/
structure State.SameHomes (s t : State) : Prop where
  hub : t.hub = s.hub
  ranges : t.ranges = s.ranges
  scales : t.scales = s.scales
  area : ∀ a, s.areaOf a = none → t.areaOf a = none
  wf : Memory.wf s.mem = true → Memory.wf t.mem = true

theorem State.SameHomes.plain (h : s.SameHomes t) (hp : s.Plain a) : t.Plain a :=
  hp.of h.hub h.ranges h.scales (h.area a hp.area)

theorem State.SameHomes.region (h : s.SameHomes t) (a : Nat) : t.region a = s.region a := by
  have he : t.region a = ({ s with hub := t.hub } : State).region a := rfl
  rw [he, h.hub]

theorem State.SameHomes.refl (s : State) : s.SameHomes s := ⟨rfl, rfl, rfl, fun _ h => h, fun h => h⟩

theorem State.SameHomes.trans (h : s.SameHomes t) (h' : t.SameHomes u) : s.SameHomes u :=
  ⟨h'.hub.trans h.hub, h'.ranges.trans h.ranges, h'.scales.trans h.scales, fun a ha => h'.area a (h.area a ha),
    fun hw => h'.wf (h.wf hw)⟩

theorem State.SameMap.homes (h : s.SameMap t) (hw : Memory.wf s.mem = true → Memory.wf t.mem = true) : s.SameHomes t :=
  ⟨h.hub, h.ranges, h.scales, fun a ha => by rw [State.areaOf, h.hamlets]; exact ha, hw⟩

theorem setHam_sameHomes {x : Hamlet} (hx : (s.ham h).Copies x) : s.SameHomes (s.setHam h x) :=
  ⟨rfl, rfl, rfl, fun _ ha => areaOf_setHam hx ha, fun hw => hw⟩

/-- A line written back has its dirty bytes at its home (05 R125). -/
theorem writeBack_home (hm : Memory.wf s.mem = true) (hp : s.Plain line) (hl : line % 64 = 0) (hc : s.cxlStuck line = false)
    (hw : s.scales = [] ∨ (s.sameSet line s.ways).length < setWays) :
    s.SameHomes (s.writeBack h line) ∧
      (∀ b, b ≠ line → find ((s.writeBack h line).ham h).lines b = find (s.ham h).lines b) ∧
      ∀ i, i < 64 → s.region (line + i) = s.region line → (s.writeBack h line).byteAt (line + i) =
        match find (s.ham h).lines line with
        | some l => if l.dirty.getLsbD i then l.data.extractLsb' (8 * i) 8 else s.byteAt (line + i)
        | none => s.byteAt (line + i) := by
  unfold State.writeBack
  cases hf : find (s.ham h).lines line with
  | none => exact ⟨.refl s, fun _ _ => rfl, fun _ _ _ => rfl⟩
  | some l =>
    dsimp only
    by_cases hd : l.dirty = 0
    · rw [if_pos hd]
      refine ⟨.refl s, fun _ _ => rfl, fun i _ _ => ?_⟩
      rw [hd, show (0 : BitVec 64).getLsbD i = false from BitVec.getLsbD_zero, if_neg Bool.false_ne_true]
    · rw [if_neg hd, hc, if_neg Bool.false_ne_true]
      have hline : line / 64 * 64 = line := by omega
      have hwrite := fun (x : Nat) (hx : s.region x ≠ .unbacked) =>
        homeWrite_byteAt hm hp (dirtyBytes_inLine l hl) (by rw [hline]; exact hw) hx
      obtain ⟨hmap, -⟩ := hwrite line hp.backed
      refine ⟨(hmap.homes homeWrite_wf).trans (setHam_sameHomes ⟨_, _, rfl⟩), fun b hb => ?_, fun i hi hr => ?_⟩
      · rw [setHam_ham_same]
        exact (find_put_other _ _ hb).trans (by rw [State.ham, hmap.hamlets]; rfl)
      · rw [← written_dirtyBytes l hi]
        exact (hwrite (line + i) (by rw [hr]; exact hp.backed)).2

/-- A line leaves its home: a zero line as zeros in memory, another one its ways (05 R131). -/
def State.leaveHome (s : State) (line : Nat) : State :=
  if s.zeros.contains (line / 64) then
    { s with zeros := s.zeros.filter (· ≠ line / 64), mem := memWrite s.mem line (List.replicate 64 0) }
  else s.leaveWay line

theorem evict_eq : s.evict h line = ((s.writeBack h line).dropLine h line).leaveHome line := rfl

/-- A line that leaves its home reads as before. -/
theorem leaveHome_home (hm : Memory.wf s.mem = true) (hl : line % 64 = 0) (hg : (s.region line).global = true)
    (hs : find s.scales line = none) :
    s.SameHomes (s.leaveHome line) ∧ (s.leaveHome line).hamlets = s.hamlets ∧
      ∀ a, s.region a ≠ .unbacked → (s.leaveHome line).byteAt a = s.byteAt a := by
  have hline : 64 * (line / 64) = line := by omega
  unfold State.leaveHome
  split
  next hz =>
    have hget := memGet_zero_line hm (line / 64)
    have hwf := memWrite_wf line (List.replicate 64 0) hm
    rw [hline] at hget
    generalize memWrite s.mem line (List.replicate 64 0) = m at hget hwf ⊢
    exact ⟨⟨rfl, rfl, rfl, fun _ ha => ha, fun _ => hwf⟩, rfl,
      fun a ha => unzero_byteAt hget hz (by rw [hline]; exact hg) ha⟩
  next =>
    have he : s.evictScales line = s := by rw [State.evictScales, hs]
    rw [State.leaveWay, he]
    exact ⟨⟨rfl, rfl, rfl, fun _ ha => ha, fun hw => hw⟩, rfl, fun _ _ => rfl⟩

/-- A line that leaves a hamlet and its slice: the hamlet holds it no more, and its dirty bytes are at its home. -/
theorem evict_home (hm : Memory.wf s.mem = true) (hp : ∀ i, i < 64 → s.Plain (line + i)) (hl : line % 64 = 0)
    (hr : ∀ i, i < 64 → s.region (line + i) = s.region line) (hg : (s.region line).global = true) (hc : s.cxlStuck line = false)
    (hw : s.scales = [] ∨ (s.sameSet line s.ways).length < setWays) :
    find ((s.evict h line).ham h).lines line = none ∧
      (∀ b, b ≠ line → find ((s.evict h line).ham h).lines b = find (s.ham h).lines b) ∧
      ∀ i, i < 64 → (s.evict h line).homeRead (line + i) 1 = match find (s.ham h).lines line with
        | some l => if l.dirty.getLsbD i then [l.data.extractLsb' (8 * i) 8] else s.homeRead (line + i) 1
        | none => s.homeRead (line + i) 1 := by
  have hp0 : s.Plain line := hp 0 (by decide)
  obtain ⟨hback, hother, hbytes⟩ := writeBack_home (h := h) hm hp0 hl hc hw
  have hdrop : (s.writeBack h line).SameHomes ((s.writeBack h line).dropLine h line) := setHam_sameHomes ⟨_, _, rfl⟩
  have hboth := hback.trans hdrop
  obtain ⟨hleave, hham, hsame⟩ := leaveHome_home (s := (s.writeBack h line).dropLine h line) (hboth.wf hm) hl
    (by rw [hboth.region]; exact hg) (by
      have hnone := hp0.line.2
      rwa [show line / 64 * 64 = line by omega, ← hboth.scales] at hnone)
  have hlines : ∀ x, ((s.evict h line).ham x) = ((s.writeBack h line).dropLine h line).ham x := fun x => by
    rw [State.ham, evict_eq, hham]
    rfl
  refine ⟨?_, fun b hb => ?_, fun i hi => ?_⟩
  · rw [hlines]
    exact dropLine_lines
  · rw [hlines, State.dropLine, setHam_ham_same]
    exact (find_del_other _ hb).trans (hother b hb)
  · have hplain := hp i hi
    have hread : (s.evict h line).homeRead (line + i) 1 = [(s.writeBack h line).byteAt (line + i)] := by
      rw [evict_eq, homeRead_byte ((hboth.trans hleave).plain hplain)]
      exact congrArg (fun b => [b]) (hsame (line + i) (by rw [hboth.region]; exact hplain.backed))
    rw [hread, hbytes i hi (hr i hi), homeRead_byte hplain]
    cases find (s.ham h).lines line with
    | none => rfl
    | some l => exact apply_ite (fun b => [b]) _ _ _

/-! ### Scale windows (05 R133) -/

theorem scaleCodes_spec (g : BitVec 256) (q : Nat) (r : Row) :
    ((scaleCodes g q r).map Prod.fst).Nodup ∧
    (∀ i, i < 16 → 16 * q + i < fld g 223 192 → (i, e8m0Encode (r.extractLsb' (32 * i) 32)) ∈ scaleCodes g q r) ∧
    ∀ c ∈ scaleCodes g q r, c.1 < 16 ∧ 16 * q + c.1 < fld g 223 192 ∧ c.2 = e8m0Encode (r.extractLsb' (32 * c.1) 32) := by
  have hmem : ∀ c, c ∈ scaleCodes g q r ↔
      c.1 < 16 ∧ 16 * q + c.1 < fld g 223 192 ∧ c.2 = e8m0Encode (r.extractLsb' (32 * c.1) 32) := by
    intro c
    rw [scaleCodes, List.mem_filterMap]
    constructor
    · rintro ⟨i, hi, hc⟩
      split at hc
      next hlt => cases hc; exact ⟨List.mem_range.mp hi, hlt, rfl⟩
      next => cases hc
    · rintro ⟨hi, hlt, hc⟩
      exact ⟨c.1, List.mem_range.mpr hi, by rw [if_pos hlt, ← hc]⟩
  refine ⟨?_, fun i hi hlt => (hmem _).mpr ⟨hi, hlt, rfl⟩, fun c hc => (hmem c).mp hc⟩
  rw [scaleCodes, List.map_filterMap]
  refine List.Nodup.filterMap (fun a b c ha hb => ?_) List.nodup_range
  split at ha
  · split at hb
    · simp only [Option.map_some, Option.mem_def, Option.some.injEq] at ha hb
      omega
    · simp at hb
  · simp at ha

/-- A scale-window line filled by its controller holds what its codes decode to. -/
theorem fillScales_fills {g : BitVec 256} {q : Nat} (hr : scaleRange s.ranges line = some (g, q)) (hl : s.listedLine line = false)
    (hw : line ∈ s.ways ∨ (s.sameSet line s.ways).length < setWays) :
    find (s.fillScales line).scales line = some (s.homeLine line) ∧ (s.fillScales line).mem = s.mem ∧
      ∀ b, b ≠ line → find (s.fillScales line).scales b = find s.scales b := by
  have htake : ∃ w f, s.takeWay line = { s with ways := w, free := f } := by
    rcases hw with hw | hw
    · exact ⟨s.ways, s.free, by rw [State.takeWay, if_pos (by simpa using hw)]⟩
    · exact takeWay_ways (.inr hw)
  obtain ⟨w, f, ht⟩ := htake
  unfold State.fillScales
  rw [hr, hl]
  dsimp only
  rw [if_neg Bool.false_ne_true, ht]
  exact ⟨find_put_same _ _ _, rfl, fun b hb => find_put_other _ _ hb⟩

/-- A scale-window line that leaves has its words encoded into its codes. -/
theorem leaveWay_encodes {g : BitVec 256} {q : Nat} {r : Row} (hm : Memory.wf s.mem = true)
    (hr : scaleRange s.ranges line = some (g, q)) (hf : find s.scales line = some r)
    (hgood : ∀ i, i < 16 → e8m0Encode (r.extractLsb' (32 * i) 32) ≠ 0xFF) (ha : fld g 173 128 % 16 = 0) :
    find (s.leaveWay line).scales line = none ∧
      ∀ i, i < 16 → (s.leaveWay line).heldByte (fld g 173 128 + 16 * q + i) =
        if 16 * q + i < fld g 223 192 then e8m0Encode (r.extractLsb' (32 * i) 32)
        else s.heldByte (fld g 173 128 + 16 * q + i) := by
  obtain ⟨hnodup, hin, hout⟩ := scaleCodes_spec g q r
  have hnone : (scaleCodes g q r).filter (fun c => c.2 = 0xFF) = [] := by
    rw [List.filter_eq_nil_iff]
    intro c hc hff
    obtain ⟨hi, -, hv⟩ := hout c hc
    exact hgood c.1 hi (hv.symm.trans (by simpa using hff))
  generalize hat : fld g 173 128 + 16 * q = base
  unfold State.leaveWay State.evictScales
  rw [hf, hr]
  dsimp only
  rw [hat, hnone, List.foldl_nil]
  refine ⟨find_del_same _ _, fun i hi => ?_⟩
  have hzl : (base + i) / 64 = base / 64 := by omega
  have hmem : ∃ m, (if s.zeros.contains (base / 64) then memWrite s.mem (64 * (base / 64)) (List.replicate 64 0) else s.mem) = m ∧
      Memory.wf m = true ∧
      ∀ a, memGet m a = if a / 64 = base / 64 ∧ s.zeros.contains (base / 64) = true then 0 else memGet s.mem a := by
    refine ⟨_, rfl, ?_⟩
    by_cases hz : s.zeros.contains (base / 64) = true
    · have hget := memGet_zero_line hm (base / 64)
      have hwf := memWrite_wf (64 * (base / 64)) (List.replicate 64 0) hm
      rw [if_pos hz]
      exact ⟨hwf, fun a => by rw [hget]; simp only [hz, and_true]⟩
    · rw [if_neg hz]
      exact ⟨hm, fun a => by rw [if_neg fun h => hz h.2]⟩
  obtain ⟨m, hm', hwf, hget⟩ := hmem
  rw [hm']
  show (if (s.zeros.filter (· ≠ base / 64)).contains ((base + i) / 64) then 0
    else memGet (memPut m base (scaleCodes g q r)) (base + i)) = _
  have hnz : (s.zeros.filter (· ≠ base / 64)).contains ((base + i) / 64) = false := by rw [hzl]; simp
  rw [hnz, if_neg Bool.false_ne_true, memGet_memPut hwf hnodup]
  split
  next hlt => exact written_mem hnodup (hin i hi hlt) _
  next hge =>
    rw [written_not_mem (fun hc => ?_), hget, State.heldByte, hzl]
    · simp
    · obtain ⟨c, hmemc, rfl⟩ := List.mem_map.mp hc
      exact hge (hout c hmemc).2.1

/-! ### Table walks (05 R139) -/

theorem useLeaf_cached {c : Nat} {e : Tlb} {w : Bool} : e ∈ ((s.useLeaf c e w).core c).tlb := by
  unfold State.useLeaf
  dsimp only
  split
  next h => simpa using h
  next =>
    show e ∈ ((State.setCore _ c _).core c).tlb
    rw [setCore_core_same]
    exact List.mem_cons_self ..

theorem walk_leaf {c : CoreId} {k : CtxId} {va : Word} {write : Bool} {e : Tlb} (hc : canonical va = true)
    (hl : localWindow va = false)
    (hr : s.translateLeaf c.val (s.ctx c.val k.val).tblroot (va.toNat % 2 ^ 57) write = .ok (e, u)) :
    exec (.tableWalk c k va write) s = .next
      (if (if write then decide (leafGrant e.leaf .write (s.ctx c.val k.val).priv = .ok)
          else decide (leafGrant e.leaf .read (s.ctx c.val k.val).priv = .ok) ||
            decide (leafGrant e.leaf .exec (s.ctx c.val k.val).priv = .ok)) then u.useLeaf c.val e write else s) := by
  show execTableWalk c k va write s = _
  unfold execTableWalk
  rw [hc, hl]
  dsimp only
  rw [hr]
  rfl

theorem walk_error {c : CoreId} {k : CtxId} {va : Word} {write : Bool} {e : Walk} (hc : canonical va = true)
    (hl : localWindow va = false)
    (hr : s.translateLeaf c.val (s.ctx c.val k.val).tblroot (va.toNat % 2 ^ 57) write = .error e) :
    exec (.tableWalk c k va write) s = .next (s.noteWalk c.val (s.ctx c.val k.val).tblroot va) := by
  show execTableWalk c k va write s = _
  unfold execTableWalk
  rw [hc, hl]
  dsimp only
  rw [hr]
  rfl

/-! ### Back-invalidations (05 R134) -/

theorem writeBack_lines_other {k : Nat} (hk : k ≠ h) : ((s.writeBack h line).ham k).lines = (s.ham k).lines := by
  unfold State.writeBack
  split
  · rfl
  · split
    · rfl
    · split
      · rw [State.ham, cxlAsk_hamlets]
        exact congrArg Hamlet.lines (setHam_ham_other _ _ _ hk)
      · rw [setHam_ham_other _ _ _ hk, State.ham, homeWrite_hamlets]
        rfl

theorem flushLine_lines_other {k : Nat} (hk : k ≠ h) : ((s.flushLine h line true).ham k).lines = (s.ham k).lines := by
  unfold State.flushLine
  dsimp only
  rw [if_neg (by decide), (setWin_keepsLines h _).lines, State.dropLine, setHam_ham_other _ _ _ hk, State.backLine,
    (State.KeepsLines.foldl (fun _ key => writeBackWin_keepsLines key) _ _).lines, writeBack_lines_other hk]

/-- A line flushed out of every listed hamlet. -/
theorem flushAll_gone (l : List Nat) (k : Nat) (hk : k ∈ l ∨ find (s.ham k).lines line = none) :
    find (((l.foldl (fun t h => t.flushLine h line true) s).ham k).lines) line = none := by
  induction l generalizing s with
  | nil => exact hk.resolve_left List.not_mem_nil
  | cons h l ih =>
    refine ih ?_
    by_cases hkh : k = h
    · exact .inr (hkh ▸ flushLine_gone)
    · rw [flushLine_lines_other hkh]
      exact hk.imp (fun hm => (List.mem_cons.mp hm).resolve_left hkh) id

theorem look_of_not_mem {α : Type} (d : α) {m : Map α} {k : Nat} (hk : k ∉ m.map Prod.fst) : look d m k = d := by
  induction m with
  | nil => rfl
  | cons e m ih =>
    obtain ⟨j, v⟩ := e
    rw [List.map_cons, List.mem_cons, not_or] at hk
    have hjk : ¬ j = k := fun h => hk.1 h.symm
    have hrest := ih hk.2
    simpa [look, find, hjk] using hrest

theorem snoop_gone {n : Nat} (hr : s.region (line / 64 * 64) = .cxl n)
    (hs : s.hub.shared.contains (line / 64 * 64 / 2 ^ 30) = true) (k : Nat) :
    find ((s.snoop line).ham k).lines (line / 64 * 64) = none := by
  unfold State.snoop
  dsimp only
  rw [hr]
  dsimp only
  rw [hs, if_neg (by decide), State.ham, State.leaveWay]
  dsimp only
  rw [evictScales_hamlets]
  refine flushAll_gone _ k ?_
  by_cases hk : k ∈ s.hamlets.map Prod.fst
  · exact .inl hk
  · refine .inr ?_
    rw [State.ham, look_of_not_mem _ hk]
    rfl

/-! ### Rows of words (12 R341) -/

/-- A word is set full, and its waiters wake. -/
def State.fillWord (t : State) (w : Nat) : State := (t.setFull w true).wakeWord w

theorem fillWord_isFull (w q : Nat) : (s.fillWord w).isFull q = (decide (w / 8 = q / 8) || s.isFull q) := by
  rw [State.fillWord, wakeWord_isFull]
  by_cases hw : w / 8 = q / 8
  · have hsame : (s.setFull w true).isFull q = (s.setFull w true).isFull w := by rw [State.isFull, State.isFull, hw]
    rw [hsame, setFull_isFull, decide_eq_true hw, Bool.true_or]
  · rw [setFull_isFull_other true (Ne.symm hw), decide_eq_false hw, Bool.false_or]

theorem foldl_fillWord_isFull (f : Nat → Nat) (l : List Nat) (t : State) (q : Nat) :
    (l.foldl (fun t i => t.fillWord (f i)) t).isFull q = (l.any (fun i => f i / 8 = q / 8) || t.isFull q) := by
  induction l generalizing t with
  | nil => rfl
  | cons i l ih => rw [List.foldl_cons, ih, fillWord_isFull, List.any_cons, Bool.or_left_comm, Bool.or_assoc]

/-- Each word that the row touches is full. -/
theorem fillWords_full {n q : Nat} (hf : s.feWord pa = true) (hl : pa ≤ q) (hh : q < pa + n) : (s.fillWords pa n).isFull q = true := by
  have heq : s.fillWords pa n =
      (List.range ((pa + n + 7) / 8 - pa / 8)).foldl (fun t i => t.fillWord (pa / 8 * 8 + 8 * i)) s := if_pos hf
  rw [heq, foldl_fillWord_isFull, Bool.or_eq_true, List.any_eq_true]
  exact .inl ⟨q / 8 - pa / 8, List.mem_range.mpr (by omega), decide_eq_true (by omega)⟩

/-- A row of an MCAST is served at its home as other messages are. -/
theorem mcast_served {id : Nat} {m : Msg} (hw : s.waiting id = some m) (hid : m.id = id) (hb : m.body = .store pa bs true)
    (hmute : s.mute m = false) (ho : s.overtakes m = false) (hf : s.forwarded pa = pa) (hr : s.region pa ≠ .unbacked)
    (hc : s.cxlMeets m (.mcastDelivery id) = none) :
    exec (.mcastDelivery id) s = .next (((((s.homePut pa bs).fillWords pa m.body.span).refreshCopy (hamOf m.core) m.body).finishMsg
      id 0 0).countIn m) := by
  subst hid
  show execMcastDelivery m.id s = _
  unfold execMcastDelivery
  rw [hw]
  dsimp only
  rw [if_pos (by rw [hb]; rfl)]
  refine congrArg Host.Outcome.next (applyMsg_served hmute ho (by rw [hb]; exact hf) (by rw [hb]; simp) hc ?_ ?_)
  · rw [hb]
    exact ite_self _
  · have hpa : m.body.pa = pa := by rw [hb]; rfl
    rw [hpa, noteUnbacked_backed hr, hb]
    rfl

end Sys2Proof.Machine
end


section
/-! The fault queue, the replay of stores and pages that move (13 R364; 06 R166, R167). -/
namespace Sys2Proof.Machine

variable {s t u : State} {h line pa a : Nat} {bs : List (Nat × Byte)}

/-! ### The fault queue -/

theorem memRead_memWrite {m : List Host.Cell} (hm : Memory.wf m = true) (a : Nat) (l : List Byte) :
    memRead (memWrite m a l) a l.length = l := by
  rw [memRead_eq]
  apply List.ext_getElem
  · simp
  · intro i _ hi
    rw [List.getElem_map, List.getElem_range, memGet_memWrite_same a l i hi hm]

theorem oweOnce_hub (i : Instr) : (s.oweOnce i).hub = s.hub := by
  unfold State.oweOnce
  split <;> rfl

theorem oweOnce_mem (i : Instr) : (s.oweOnce i).mem = s.mem := by
  unfold State.oweOnce
  split <;> rfl

/-- `t` has the fault queue and the memory of `s`. -/
structure State.SameQueue (s t : State) : Prop where
  held : t.hub.heldFaults = s.hub.heldFaults
  tail : t.hub.fqTail = s.hub.fqTail
  head : t.hub.fqHead = s.hub.fqHead
  mem : t.mem = s.mem

theorem irq_sameQueue (n : Nat) : s.SameQueue (s.irq n) := ⟨rfl, rfl, rfl, rfl⟩

theorem oweOnce_sameQueue (i : Instr) : s.SameQueue (s.oweOnce i) :=
  ⟨by rw [oweOnce_hub], by rw [oweOnce_hub], by rw [oweOnce_hub], oweOnce_mem i⟩

theorem writeFault_sameQueue {r : BitVec 256} {rest : List (BitVec 256)}
    (hh : s.hub.heldFaults = r :: rest) (hr : (s.hub.fqTail - s.hub.fqHead).toNat ≠ 16384) :
    ({ s with mem := memWrite s.mem (faultAddr s.hub.fqTail.toNat) (bytesOf 32 r.toNat),
              hub := { s.hub with heldFaults := rest, fqTail := s.hub.fqTail + 1 } } : State).SameQueue s.writeFault := by
  have hgo : ∀ (t : State) (p : Prop) [Decidable p] (b : Bool), t.SameQueue
      (if b = true then (if p then t.irq 2 else t) else (if p then t.irq 2 else t).oweOnce .faultRecordWrite) := by
    intro t p _ b
    have hirq : t.SameQueue (if p then t.irq 2 else t) := by
      split
      · exact irq_sameQueue 2
      · exact ⟨rfl, rfl, rfl, rfl⟩
    split
    · exact hirq
    · have howe := oweOnce_sameQueue (s := if p then t.irq 2 else t) .faultRecordWrite
      exact ⟨howe.held.trans hirq.held, howe.tail.trans hirq.tail, howe.head.trans hirq.head, howe.mem.trans hirq.mem⟩
  unfold State.writeFault
  rw [hh]
  dsimp only
  rw [if_neg hr]
  exact hgo _ _ _

/-- The oldest held fault record goes where the tail points, if the queue has room. -/
theorem writeFault_writes {r : BitVec 256} {rest : List (BitVec 256)} (hm : Memory.wf s.mem = true)
    (hh : s.hub.heldFaults = r :: rest) (hr : (s.hub.fqTail - s.hub.fqHead).toNat ≠ 16384) :
    s.writeFault.hub.heldFaults = rest ∧ s.writeFault.hub.fqTail = s.hub.fqTail + 1 ∧
      s.writeFault.hub.fqHead = s.hub.fqHead ∧
      memRead s.writeFault.mem (faultAddr s.hub.fqTail.toNat) 32 = bytesOf 32 r.toNat := by
  have hq := writeFault_sameQueue hh hr
  have hread := memRead_memWrite hm (faultAddr s.hub.fqTail.toNat) (bytesOf 32 r.toNat)
  rw [bytesOf_length] at hread
  have hmem := hq.mem
  dsimp only at hmem
  rw [hmem]
  exact ⟨hq.held, hq.tail, hq.head, hread⟩

theorem setFqHead_hub (v : BitVec 32) : (s.setFqHead v).mem = s.mem ∧
    (s.setFqHead v).hub = { s.hub with fqHead := if 16384 < (s.hub.fqTail - v).toNat then s.hub.fqHead else v } := by
  unfold State.setFqHead
  split
  · exact ⟨rfl, rfl⟩
  · dsimp only
    split
    · exact ⟨rfl, rfl⟩
    · exact ⟨oweOnce_mem _, oweOnce_hub _⟩

/-! ### The replay of stores -/

/-- An entry that resolves to the own hamlet's storage, performed. -/
def State.replayed (w : State) (c : Nat) (r : Replay) (pa : Nat) (bs : List (Nat × Byte)) : State :=
  let u := w.homePut pa bs
  u.setCore c { u.core c with replay := (u.core c).replay.erase r }

theorem replayOne_near {c k va root priv handle refused post wide stream hole} {w : State}
    (hn : va.toNat % 64 + (Body.store 0 bs false).span ≤ 64)
    (hr : (s.as c (if k < 5 then k else 7)).resolveFor c (if k < 5 then k else 7) root priv va .write = .ok (.near pa, w)) :
    let r : Replay := ⟨k, va, root, priv, .store 0 bs false, handle, refused, post, wide, stream, hole⟩
    s.replayOne c r = some (w.replayed c r pa (partBytes bs 0 r.body.span)) := by
  intro r
  have hparts : parts va (Body.store 0 bs false).span = [(0, (Body.store 0 bs false).span)] := if_pos (by omega)
  have h0 : va + BitVec.ofNat 64 0 = va := by bv_omega
  have hres : (s.as c (if k < 5 then k else 7)).resolveParts root priv va .write (parts va (Body.store 0 bs false).span) =
      ([{ off := 0, n := (Body.store 0 bs false).span, place := .near pa }], [], w) := by
    rw [hparts]
    simp only [State.resolveParts, List.foldl_cons, List.foldl_nil, h0]
    rw [show (s.as c (if k < 5 then k else 7)).curCore = c from rfl,
      show (s.as c (if k < 5 then k else 7)).curCtx = (if k < 5 then k else 7) from rfl, hr]
    rfl
  have hput : w.replayAt r (.near pa) 0 r.body.span = w.homePut pa (partBytes bs 0 r.body.span) := ite_self _
  have hstuck : ∀ b : Bool, (if b = true then
      [({ off := 0, n := (Body.store 0 bs false).span, place := .near pa } : Part)].findSome? fun q =>
        if q.place.device then none else w.placeStuck c q.place q.n else none) = none := by
    intro b
    cases b <;> rfl
  unfold State.replayOne
  dsimp only
  rw [hres]
  dsimp only
  rw [show worst (List.map (fun b : Nat × Nat × Trouble => b.2.2) []) = none from rfl]
  dsimp only
  rw [hstuck]
  dsimp only
  rw [if_neg (by simp [State.replayHeld])]
  exact congrArg (fun u : State => some (u.setCore c { u.core c with replay := (u.core c).replay.erase r })) hput

/-- The first entry of a core that waits for nothing, performed in the own hamlet's storage. -/
theorem storeReplay_near {c : CoreId} {r : Replay} {rest : List Replay} {w : State} (hq : (s.core c.val).replay = r :: rest)
    (hh : r.handle = 0) (hf : r.refused = none) (hb : r.body = .store 0 bs false) (hn : r.va.toNat % 64 + r.body.span ≤ 64)
    (hr : (s.as c.val (if r.ctx < 5 then r.ctx else 7)).resolveFor c.val (if r.ctx < 5 then r.ctx else 7) r.root r.priv r.va .write =
      .ok (.near pa, w)) :
    ∃ t, exec (.storeReplay c) s = .next t ∧ (t.core c.val).replay = (w.core c.val).replay.erase r ∧
      t.mem = (w.homePut pa (partBytes bs 0 r.body.span)).mem := by
  have hone : s.replayOne c.val r = some (w.replayed c.val r pa (partBytes bs 0 r.body.span)) := by
    obtain ⟨k, va, root, priv, body, handle, refused, post, wide, stream, hole⟩ := r
    dsimp only at hb hn hr
    subst hb
    exact replayOne_near hn hr
  have hfirst : (s.core c.val).replay.find? (fun r => r.handle = 0 && r.refused.isNone) = some r := by
    rw [hq, List.find?_cons_of_pos]
    simp [hh, hf]
  have hcore : ((w.replayed c.val r pa (partBytes bs 0 r.body.span)).core c.val).replay = (w.core c.val).replay.erase r := by
    rw [State.replayed]
    dsimp only
    rw [setCore_core_same, homePut_homeOnly.core]
  have hexec : exec (.storeReplay c) s = .next
      (if ((w.replayed c.val r pa (partBytes bs 0 r.body.span)).core c.val).replay.any (fun q => q.handle = 0 && q.refused.isNone) then
        (w.replayed c.val r pa (partBytes bs 0 r.body.span)).oweOnce (.storeReplay c)
      else w.replayed c.val r pa (partBytes bs 0 r.body.span)) := by
    show execStoreReplay c s = _
    unfold execStoreReplay
    rw [hfirst]
    dsimp only
    rw [hone, Option.getD_some]
  refine ⟨_, hexec, ?_, ?_⟩
  · split
    · rw [State.core, (oweOnce_links _).cores]
      exact hcore
    · exact hcore
  · split
    · exact oweOnce_mem _
    · rfl

/-! ### Pages that move -/

/-- No hamlet holds a copy of the lines of a list, and none has lines in windows. -/
def State.Bare (s : State) (l : List Nat) : Prop := ∀ h, (s.ham h).winLines = [] ∧ ∀ x ∈ l, find (s.ham h).lines x = none

/-- What giving up a line that no hamlet holds leaves: all but the hamlets' maps. -/
structure State.GaveNothing (s t : State) (l : List Nat) : Prop where
  eq : ∃ hs, t = { s with hamlets := hs }
  homes : s.SameHomes t
  bare : t.Bare l

theorem State.GaveNothing.trans {l : List Nat} (h : s.GaveNothing t l) (h' : t.GaveNothing u l) : s.GaveNothing u l := by
  obtain ⟨hs, rfl⟩ := h.eq
  obtain ⟨hs', rfl⟩ := h'.eq
  exact ⟨⟨hs', rfl⟩, h.homes.trans h'.homes, h'.bare⟩

theorem giveLine_bare {l : List Nat} (hb : s.Bare l) (hl : line ∈ l) : s.GaveNothing (s.giveLine h line) l := by
  have hwin : s.windowsOf h line = [] := by
    unfold State.windowsOf
    dsimp only
    rw [(hb h).1]
    rfl
  have hback : s.writeBack h line = s := by
    unfold State.writeBack
    rw [(hb h).2 line hl]
  have heq : s.giveLine h line = s.dropLine h line := by
    rw [State.giveLine, State.backLine, hwin, hback]
    rfl
  rw [heq]
  refine ⟨⟨_, rfl⟩, setHam_sameHomes ⟨_, _, rfl⟩, fun k => ?_⟩
  by_cases hk : k = h
  · subst hk
    rw [State.dropLine, setHam_ham_same]
    refine ⟨(hb k).1, fun x hx => ?_⟩
    by_cases hxl : x = line
    · rw [hxl]
      exact find_del_same _ _
    · exact (find_del_other _ hxl).trans ((hb k).2 x hx)
  · rw [State.dropLine, setHam_ham_other _ _ _ hk]
    exact hb k

theorem foldl_gaveNothing {α : Type} {l : List Nat} {f : State → α → State} (xs : List α)
    (hf : ∀ (t : State) x, x ∈ xs → t.Bare l → t.GaveNothing (f t x) l) (hb : s.Bare l) : s.GaveNothing (xs.foldl f s) l := by
  induction xs generalizing s with
  | nil => exact ⟨⟨s.hamlets, rfl⟩, .refl s, hb⟩
  | cons x xs ih =>
    have hx := hf s x (List.mem_cons_self ..) hb
    exact hx.trans (ih (fun t y hy => hf t y (List.mem_cons_of_mem _ hy)) hx.bare)

/-- The lists of a home's listed lines after a write. -/
theorem homeWrite_unlisted (hp : s.Plain pa) (hw : s.scales = [] ∨ (s.sameSet (pa / 64 * 64) s.ways).length < setWays)
    (hb : s.bad = []) (ht : s.tainted = []) : (s.homeWrite pa bs).bad = [] ∧ (s.homeWrite pa bs).tainted = [] := by
  obtain ⟨t, htt, he⟩ := homeWrite_eq (bs := bs) hp
  have hun : s.unlist (pa / 64 * 64) (pa = pa / 64 * 64 && bs.length = 64) = s := by
    unfold State.unlist
    split
    · rw [show s.bad.filter (fun x => decide (x ≠ pa / 64 * 64)) = s.bad by rw [hb]; rfl]
    · rfl
  rw [hun] at htt
  subst htt
  rw [he]
  split
  · unfold State.globalWrite
    split
    · unfold State.zeroLine
      dsimp only
      split
      · exact ⟨hb, ht⟩
      · unfold State.zeroRoom
        split <;> exact ⟨hb, ht⟩
    · obtain ⟨w, f, hway⟩ := takeWay_ways hw
      rw [hway, State.partWrite]
      split <;> exact ⟨hb, ht⟩
  · exact ⟨hb, ht⟩

/-- Bytes within a line are written to its home in one piece. -/
theorem homePut_line (hp : pa % 64 = 0) (hb : bs ≠ []) (hi : ∀ b ∈ bs, b.1 < 64) : s.homePut pa bs = s.homeWrite pa bs := by
  have hdiv : ∀ b ∈ bs, (pa + b.1) / 64 = pa / 64 := fun b hm => by have := hi b hm; omega
  have hcut : cutLines pa bs = [(pa, bs)] := by
    have hlast : (match bs.getLast? with | some (i, _) => (pa + i) / 64 | none => pa / 64) = pa / 64 := by
      rw [List.getLast?_eq_some_getLast hb]
      exact hdiv _ (List.getLast_mem hb)
    have hfilter : bs.filter (fun x => decide ((pa + x.1) / 64 = pa / 64 + 0)) = bs :=
      List.filter_eq_self.mpr fun x hx => decide_eq_true (hdiv x hx)
    have hmap : bs.map (fun x => ((pa + x.1) % 64, x.2)) = bs := by
      refine (List.map_congr_left fun x hx => ?_).trans (List.map_id bs)
      have := hi x hx
      exact Prod.ext (by show (pa + x.1) % 64 = x.1; omega) rfl
    have hpa : pa / 64 * 64 + 64 * 0 = pa := by omega
    unfold cutLines
    dsimp only
    have hone : (match bs.getLast? with | some (i, _) => (pa + i) / 64 | none => pa / 64) + 1 - pa / 64 = 1 := by rw [hlast]; omega
    refine (congrArg (fun n => (List.range n).map _) hone).trans ?_
    show [(pa / 64 * 64 + 64 * 0, (bs.filter fun x => decide ((pa + x.1) / 64 = pa / 64 + 0)).map fun x => ((pa + x.1) % 64, x.2))] = _
    rw [hfilter, hmap, hpa]
  rw [State.homePut, hcut]
  rfl

theorem mem_offsets {l : List Byte} {i : Nat} (hi : i < l.length) : (i, l[i]) ∈ offsets l := by
  rw [offsets, List.mem_map]
  exact ⟨(l[i], i), List.mem_zipIdx_iff_getElem?.mpr (List.getElem?_eq_getElem hi), rfl⟩

theorem offsets_nodup (l : List Byte) : ((offsets l).map Prod.fst).Nodup := by
  have hmap : (offsets l).map Prod.fst = List.range l.length := by
    rw [offsets, List.map_map]
    exact (List.zipIdx_map_snd 0 l).trans (by simp [List.range_eq_range'])
  rw [hmap]
  exact List.nodup_range

/-- The state of a move after some of its lines: those have the bytes of the old page, and every other byte is as before. -/
structure State.Moved (s t : State) (src dst k : Nat) : Prop where
  homes : s.SameHomes t
  bad : t.bad = []
  tainted : t.tainted = []
  bytes : ∀ a, s.region a ≠ .unbacked → t.byteAt a = if dst ≤ a ∧ a < dst + 64 * k then s.byteAt (src + (a - dst)) else s.byteAt a

/-- One line of a page, copied to its new home. -/
def State.moveLine (t : State) (src dst i : Nat) : State := t.homePut (dst + 64 * i) (offsets (t.homeRead (src + 64 * i) 64))

theorem moveLine_moved {src dst k : Nat} (hm : Memory.wf s.mem = true) (hsc : s.scales = []) (hk : k < 64)
    (hsrc : src % 4096 = 0) (hdst : dst % 4096 = 0)
    (hp : ∀ i, i < 4096 → ∀ f, f = src ∨ f = dst → s.Plain (f + i) ∧ s.region (f + i) = .hbm)
    (h : s.Moved t src dst k) : s.Moved (t.moveLine src dst k) src dst (k + 1) := by
  have hplain : ∀ i, i < 4096 → ∀ f, f = src ∨ f = dst → t.Plain (f + i) := fun i hi f hf => h.homes.plain (hp i hi f hf).1
  have hregion : ∀ i, i < 4096 → ∀ f, f = src ∨ f = dst → t.region (f + i) = .hbm := fun i hi f hf => by
    rw [h.homes.region]
    exact (hp i hi f hf).2
  have hread : t.homeRead (src + 64 * k) 64 = (List.range 64).map fun i => t.byteAt (src + 64 * k + i) := by
    refine homeRead_bytes (hplain _ (by omega) src (.inl rfl)) (by omega) fun i hi => ?_
    rw [Nat.add_assoc, hregion (64 * k + i) (by omega) src (.inl rfl), hregion (64 * k) (by omega) src (.inl rfl)]
  generalize hl : t.homeRead (src + 64 * k) 64 = l at hread
  have hlen : l.length = 64 := by rw [hread]; simp
  have hne' : offsets l ≠ [] := by
    rw [← List.length_pos_iff, offsets_length, hlen]
    decide
  have hmove : t.moveLine src dst k = t.homeWrite (dst + 64 * k) (offsets l) := by
    rw [State.moveLine, hl]
    exact homePut_line (by omega) hne' fun b hb => hlen ▸ offset_lt hb
  have hin : inLine (dst + 64 * k) (offsets l) := ⟨offsets_nodup l, fun b hb => by have := offset_lt hb; omega⟩
  have hpd := hplain (64 * k) (by omega) dst (.inr rfl)
  have hways : t.scales = [] ∨ (t.sameSet ((dst + 64 * k) / 64 * 64) t.ways).length < setWays := .inl (by rw [h.homes.scales, hsc])
  have hwrite := fun a (ha : s.region a ≠ .unbacked) =>
    homeWrite_byteAt (a := a) (h.homes.wf hm) hpd hin hways (by rw [h.homes.region]; exact ha)
  obtain ⟨hbad, htaint⟩ := homeWrite_unlisted (bs := offsets l) hpd hways h.bad h.tainted
  rw [hmove]
  have hdreg : s.region (dst + 64 * k) ≠ .unbacked := (hp (64 * k) (by omega) dst (.inr rfl)).1.backed
  refine ⟨h.homes.trans ((hwrite _ hdreg).1.homes homeWrite_wf), hbad, htaint, fun a ha => ?_⟩
  rw [(hwrite a ha).2]
  by_cases hline : a / 64 = (dst + 64 * k) / 64
  · have hai : a = dst + 64 * k + (a - (dst + 64 * k)) := by omega
    have hj : a - (dst + 64 * k) < l.length := by omega
    rw [if_pos (by omega), hai, written_mem hin.1 (mem_offsets hj)]
    have hbyte : l[a - (dst + 64 * k)] = t.byteAt (src + 64 * k + (a - (dst + 64 * k))) := by
      have hj' : a - (dst + 64 * k) < 64 := by omega
      simp only [hread, List.getElem_map, List.getElem_range]
    have hsrcb : s.region (src + 64 * k + (a - (dst + 64 * k))) ≠ .unbacked := by
      rw [Nat.add_assoc]
      exact (hp (64 * k + (a - (dst + 64 * k))) (by omega) src (.inl rfl)).1.backed
    rw [hbyte, h.bytes _ hsrcb, if_neg (by omega)]
    congr 1
    omega
  · rw [written_other_line hin (Ne.symm hline), h.bytes a ha]
    by_cases hin' : dst ≤ a ∧ a < dst + 64 * k
    · rw [if_pos hin', if_pos (by omega)]
    · rw [if_neg hin', if_neg (by omega)]

/-- The hamlets give up what they hold of two frames. -/
def State.giveFrames (s : State) (old new : Nat) : State :=
  (frameLines old ++ frameLines new).foldl (fun t line => (t.hamlets.map Prod.fst).foldl (fun t h => t.giveLine h line) t) s

/-- A line of the old frame is copied to its new home, or listed there. -/
def State.moveStep (old new : Nat) (t : State) (line : Nat) : State :=
  let to' := line + (new - old) * 4096 - (old - new) * 4096
  if t.listedLine line then t.listLine to' 0 true else t.homePut to' (offsets (t.homeRead line 64))

/-- The forwarders after a move. -/
def moveForwards (l : List (Nat × Nat)) (old new : Nat) : List (Nat × Nat) :=
  ((l.map fun f => if f.2 = old then (f.1, new) else f).filter fun f => f.1 ≠ old && f.1 ≠ new) ++ [(old, new)]

theorem movePage_eq {old new : Nat} (hne : old ≠ new) :
    s.movePage old new =
      (let t := (frameLines old).foldl (State.moveStep old new) (s.giveFrames old new)
       { t with forwards := moveForwards t.forwards old new }) := if_neg hne

theorem movePage_forwarded {old new i : Nat} (hne : old ≠ new) (hi : i < 4096) :
    (s.movePage old new).forwarded (old * 4096 + i) = new * 4096 + i := by
  have hfind : ∀ l, (moveForwards l old new).find? (fun f => f.1 = (old * 4096 + i) / 4096) = some (old, new) := by
    intro l
    have hdiv : (old * 4096 + i) / 4096 = old := by omega
    rw [moveForwards, List.find?_append, List.find?_eq_none.mpr]
    · simp [hdiv]
    · intro f hf
      have hold := (List.mem_filter.mp hf).2
      simp only [Bool.and_eq_true, decide_eq_true_eq] at hold
      rw [hdiv]
      simpa using hold.1
  rw [movePage_eq hne, State.forwarded]
  dsimp only
  rw [hfind]
  dsimp only
  omega

theorem giveFrames_bare {old new : Nat} (hb : s.Bare (frameLines old ++ frameLines new)) :
    s.GaveNothing (s.giveFrames old new) (frameLines old ++ frameLines new) :=
  foldl_gaveNothing _ (fun _ _ hx ht => foldl_gaveNothing _ (fun _ _ _ hu => giveLine_bare hu hx) ht) hb

theorem moveStep_moves {old new k : Nat} (hb : t.bad = []) (ht : t.tainted = []) :
    t.moveStep old new (old * 4096 + 64 * k) = t.moveLine (old * 4096) (new * 4096) k := by
  have hlisted : t.listedLine (old * 4096 + 64 * k) = false := by
    rw [State.listedLine, hb, ht]
    rfl
  have hto : old * 4096 + 64 * k + (new - old) * 4096 - (old - new) * 4096 = new * 4096 + 64 * k := by omega
  unfold State.moveStep
  dsimp only
  rw [hlisted, hto]
  rfl

theorem moved_lines {old new : Nat} (hm : Memory.wf s.mem = true) (hsc : s.scales = []) (hb : s.bad = []) (ht : s.tainted = [])
    (hp : ∀ i, i < 4096 → ∀ f, f = old * 4096 ∨ f = new * 4096 → s.Plain (f + i) ∧ s.region (f + i) = .hbm) (n : Nat) (hn : n ≤ 64) :
    s.Moved (((List.range n).map fun i => old * 4096 + 64 * i).foldl (State.moveStep old new) s) (old * 4096) (new * 4096) n := by
  induction n with
  | zero =>
    refine ⟨.refl s, hb, ht, fun a _ => ?_⟩
    rw [if_neg (by omega)]
    rfl
  | succ n ih =>
    have h := ih (by omega)
    rw [List.range_succ, List.map_append, List.foldl_append]
    show s.Moved (State.moveStep old new _ (old * 4096 + 64 * n)) _ _ _
    rw [moveStep_moves h.bad h.tainted]
    exact moveLine_moved hm hsc (by omega) (Nat.mul_mod_left ..) (Nat.mul_mod_left ..) hp h

/-- The bytes of a page are read at its new home. -/
theorem movePage_reads {old new i : Nat} (hne : old ≠ new) (hi : i < 4096) (hm : Memory.wf s.mem = true) (hsc : s.scales = [])
    (hb : s.bad = []) (ht : s.tainted = []) (hbare : s.Bare (frameLines old ++ frameLines new))
    (hp : ∀ i, i < 4096 → ∀ f, f = old * 4096 ∨ f = new * 4096 → s.Plain (f + i) ∧ s.region (f + i) = .hbm) :
    (s.movePage old new).homeRead (new * 4096 + i) 1 = s.homeRead (old * 4096 + i) 1 := by
  have hgave := giveFrames_bare hbare
  obtain ⟨hs, heq⟩ := hgave.eq
  have hhomes := hgave.homes
  have hmoved := moved_lines (old := old) (new := new) (hhomes.wf hm) (by rw [heq]; exact hsc) (by rw [heq]; exact hb)
    (by rw [heq]; exact ht) (fun i hi f hf => ⟨hhomes.plain (hp i hi f hf).1, by rw [hhomes.region]; exact (hp i hi f hf).2⟩) 64 (by omega)
  have hnew := (hp i hi _ (.inr rfl)).1
  have hold := (hp i hi _ (.inl rfl)).1
  have hnewb : (s.giveFrames old new).region (new * 4096 + i) ≠ .unbacked := by rw [hhomes.region]; exact hnew.backed
  rw [homeRead_byte hold, movePage_eq hne]
  have hplain := (hhomes.trans hmoved.homes).plain hnew
  have hbyte := hmoved.bytes _ hnewb
  have hframes : (frameLines old).foldl (State.moveStep old new) (s.giveFrames old new) =
      ((List.range 64).map fun i => old * 4096 + 64 * i).foldl (State.moveStep old new) (s.giveFrames old new) := rfl
  rw [← hframes] at hplain hbyte
  generalize (frameLines old).foldl (State.moveStep old new) (s.giveFrames old new) = t at hplain hbyte ⊢
  refine (homeRead_byte (hplain.of rfl rfl rfl hplain.area)).trans (congrArg (fun b => [b]) ?_)
  refine hbyte.trans ?_
  have hsame : ∀ a, (s.giveFrames old new).byteAt a = s.byteAt a := fun a => by rw [heq]; rfl
  rw [if_pos (by omega), hsame, Nat.add_sub_cancel_left]

/-- A message on its way to a page that has moved is sent again to the new home. -/
theorem bounce_again {id n : Nat} {m : Msg} {sx : Bool} (hw : s.waiting id = some m)
    (hb : m.body = .load pa n sx) (hf : s.forwarded pa ≠ pa) :
    (s.bounce id).mem = s.mem ∧ (s.bounce id).flight.map Msg.id = s.flight.map Msg.id ∧
      { m with body := .load (s.forwarded pa) n sx, home := s.homeOf (s.forwarded pa) } ∈ (s.bounce id).flight := by
  have hpa : m.body.pa = pa := by rw [hb]; rfl
  have howe : ∀ (l : List Msg) (t : State),
      (l.foldl (fun t q => t.owe (t.arrival q.id q.home q.body)) t).mem = t.mem ∧
        (l.foldl (fun t q => t.owe (t.arrival q.id q.home q.body)) t).flight = t.flight := by
    intro l
    induction l with
    | nil => exact fun t => ⟨rfl, rfl⟩
    | cons q l ih => exact fun t => ih (t.owe _)
  have hmine : m ∈ s.flight := List.mem_of_find?_eq_some hw
  have hsent := List.find?_some hw
  simp only [Bool.and_eq_true, decide_eq_true_eq, Bool.not_eq_true'] at hsent
  obtain ⟨⟨-, happ⟩, hpkg⟩ := hsent
  unfold State.bounce
  rw [hw]
  dsimp only
  rw [if_neg (by rw [hpa]; exact hf)]
  refine ⟨(howe _ _).1, ?_, ?_⟩
  · rw [(howe _ _).2]
    dsimp only
    rw [List.map_map]
    refine List.map_congr_left fun q _ => ?_
    dsimp only [Function.comp]
    split <;> rfl
  · rw [(howe _ _).2]
    refine List.mem_map.mpr ⟨m, hmine, ?_⟩
    rw [if_pos (by simp [happ, hpkg]), hpa, hb]
    rfl

end Sys2Proof.Machine

open Sys2Proof Sys2Proof.Machine

/-- Settles O40, an event at a time. -/
theorem memoryEvents : Obligations.MemoryEvents := by
  unfold Obligations.MemoryEvents
  refine ⟨fun s => ⟨?_, ?_, ?_, ?_, ?_, ?_⟩, fun s => ⟨?_, ?_, ?_, ?_, ?_⟩⟩
  · intro h line a hm hg hra hp hc hw
    have hb : s.region a ≠ .unbacked := global_backed hg
    have hplain : ∀ i, i < 64 → s.Plain (a + i) := by
      intro i hi
      obtain ⟨hreg, harea⟩ := hra i hi
      have hline : (a + i) / 64 * 64 = a / 64 * 64 := by
        show (line / 64 * 64 + i) / 64 * 64 = line / 64 * 64 / 64 * 64
        omega
      refine ⟨by rw [hreg]; exact hb, fun k hk => ?_, harea, by rw [State.plainLine, hline]; exact hp⟩
      rw [← hreg, hk] at hg
      cases hg
    exact ⟨_, rfl, evict_home hm hplain (Nat.mul_mod_left ..) (fun i hi => (hra i hi).1) hg hc hw⟩
  · intro line g q a hr
    refine ⟨fun hl => ?_, fun hl hw => ⟨_, rfl, fillScales_fills hr hl hw⟩,
      fun r hm hf hgood ha => ⟨_, rfl, leaveWay_encodes hm hr hf hgood ha⟩⟩
    show Host.Outcome.next (s.fillScales a) = _
    rw [State.fillScales, hr]
    dsimp only
    rw [hl]
    rfl
  · intro c k va write e u hc hl hr may allowed
    rw [walk_leaf hc hl hr]
    have hallowed : (if write then decide (may .write) else decide (may .read) || decide (may .exec)) = true ↔ allowed := by
      show _ ↔ (if write = true then may .write else may .read ∨ may .exec)
      cases write <;> simp
    refine ⟨fun ha => ⟨_, congrArg _ (if_pos (hallowed.mpr ha)), useLeaf_cached, fun j => ?_⟩,
      fun ha => congrArg _ (if_neg fun h => ha (hallowed.mp h))⟩
    exact ((translateLeaf_tlbOnly hr).trans (useLeaf_tlbOnly e write)).ctx c.val j
  · intro c k va write e hc hl hr
    exact walk_error hc hl hr
  · intro line n hr hs
    exact ⟨_, rfl, snoop_gone hr hs⟩
  · intro id m pa bs hw hid hb hmute ho hf hr hc t
    exact ⟨mcast_served hw hid hb hmute ho hf hr hc, fun hfe q hl hh =>
      fillWords_full (by rw [State.feWord, homePut_homeOnly.region]; exact hfe) hl hh⟩
  · intro r rest hm hh hr
    exact ⟨_, rfl, writeFault_writes hm hh hr⟩
  · intro v
    exact ⟨_, rfl, setFqHead_hub v⟩
  · intro c r rest bs pa w hq hh hf hb hn k hr
    exact storeReplay_near hq hh hf hb hn hr
  · intro old new hne
    have hne' : old.toNat ≠ new.toNat := fun h => hne (BitVec.eq_of_toNat_eq h)
    refine ⟨_, rfl, fun i hi => movePage_forwarded hne' hi, fun hm hb ht hsc hwin hp i hi => ?_⟩
    refine movePage_reads hne' hi hm hsc hb ht (fun h => ⟨hwin h, fun x hx => ?_⟩) fun i hi f hf => ?_
    · have hmem : ∃ f i, (f = old.toNat ∨ f = new.toNat) ∧ i < 64 ∧ f * 4096 + 64 * i = x := by
        rcases List.mem_append.mp hx with hx | hx
        · obtain ⟨i, hi, rfl⟩ := List.mem_map.mp hx
          exact ⟨_, i, .inl rfl, List.mem_range.mp hi, rfl⟩
        · obtain ⟨i, hi, rfl⟩ := List.mem_map.mp hx
          exact ⟨_, i, .inr rfl, List.mem_range.mp hi, rfl⟩
      obtain ⟨f, i, hf, hi, rfl⟩ := hmem
      have hnone := (hp (64 * i) (by omega) f hf).2.2.2 h
      rwa [show (f * 4096 + 64 * i) / 64 * 64 = f * 4096 + 64 * i by omega] at hnone
    · have hfacts : ∀ g, g = old.toNat ∨ g = new.toNat → s.Plain (g * 4096 + i) ∧ s.region (g * 4096 + i) = .hbm := by
        intro g hg
        obtain ⟨hreg, hline, harea, -⟩ := hp i hi g hg
        refine ⟨⟨by rw [hreg]; decide, fun k hk => ?_, harea, hline⟩, hreg⟩
        rw [hreg] at hk
        cases hk
      rcases hf with rfl | rfl
      · exact hfacts _ (.inl rfl)
      · exact hfacts _ (.inr rfl)
  · intro id m pa n sx hw _ hb hf
    obtain ⟨hmem, hids, hq⟩ := bounce_again hw hb hf
    exact ⟨_, rfl, hmem, hids, _, hq, rfl⟩

end

section
/-! Mill commands at issue: a command without a fault enters the queue (10 R267, 11 R288 to R304). -/

namespace Sys2Proof.Machine

variable {s u : State} {i : Instr} {o : Ops} {body : State → Act} {fs : Faults} {cmd : MillCmd}

/-! ### The queue -/

@[simp] theorem enqueued_me : (s.enqueued cmd).me = s.me := by
  unfold State.enqueued
  dsimp only
  generalize s.myCore.mill.queue.isEmpty = b
  have h : ∀ t : State, (if b then t.owe (.millCommandCurrent (Fin.ofNat 2048 s.curCore)) else t).me = t.me := by
    intro t; cases b <;> rfl
  rw [h]
  simp [State.me, State.ctx, State.setMyHam, State.setMill]

theorem setMe_setMill (y : Ctx) (m : Mill) : (s.setMe y).setMill s.curCore m = (s.setMill s.curCore m).setMe y := by
  simp [State.setMill, State.setMe, State.setCtx]

/-- Writing the acting context back first changes nothing of what a command's entry leaves. -/
theorem enqueued_setMe (x y : Ctx) : ((s.setMe y).enqueued cmd).setMe x = (s.enqueued cmd).setMe x := by
  have hh : ∀ (t : State) h, (t.setMe y).setMyHam h = (t.setMyHam h).setMe y := fun _ _ => rfl
  have ho : ∀ (t : State) j, (t.setMe y).owe j = (t.owe j).setMe y := fun _ _ => rfl
  have hm : (s.setMe y).myCore.mill = s.myCore.mill := by simp [State.myCore, State.setMe, State.setCtx]
  have hg : ∀ t : State, (t.setMe y).myHam = t.myHam := fun _ => rfl
  unfold State.enqueued
  dsimp only
  rw [hm, setMe_curCore, setMe_setMill, hg, hh, ho]
  generalize s.myCore.mill.queue.isEmpty = b
  cases b with
  | false => exact setMe_setMe _ _ _
  | true => exact setMe_setMe _ _ _

theorem millFree_iff : s.millFree = true ↔ s.ownsMill = true ∧ s.myCore.mill.queue.length < 2 := by
  simp [State.millFree]

/-- A command without a fault enters the queue of the own mill. -/
theorem command_free (hf : fs = []) (h : s.millFree = true) : s.command fs cmd = .done (s.enqueued cmd) := by
  obtain ⟨ho, hq⟩ := millFree_iff.1 h
  subst hf
  unfold State.command State.ownFault
  rw [ho]
  exact if_neg (Nat.not_le.2 hq)

/-- With both slots held, the context holds. -/
theorem command_full (hf : fs = []) (ho : s.ownsMill = true) (hq : 2 ≤ s.myCore.mill.queue.length) :
    s.command fs cmd = .hold s := by
  subst hf
  unfold State.command State.ownFault
  rw [ho]
  exact if_pos hq

/-- A command without a fault of its own raises Mill Ownership at a mill of another. -/
theorem command_foreign (ho : s.ownsMill = false) : s.command [] cmd = .trap 0x09 s.myCore.mill.millst := by
  unfold State.command State.ownFault
  rw [ho]
  rfl

/-- The part of a command that does not depend on its operands: captured as the state stands (log entries 11 and 84). -/
def Captured (u : State) (i : Instr) (cmd : MillCmd) : Prop :=
  cmd.instr = i ∧ cmd.ctx = u.curCtx ∧ cmd.rank = u.me.gangRank.1 ∧ cmd.store = u.me.store ∧
    cmd.fmt = u.myCore.mill.millfmt ∧ cmd.root = u.me.tblroot ∧ cmd.priv = u.me.priv ∧ cmd.started = false

/-- A command enters the queue and its instruction retires, or its context holds, as the queue's slots are. -/
def Queues (s : State) (i : Instr) (o : Ops) (body : State → Act) (p : MillCmd → Prop) : Prop :=
  ((s.entered o).millFree = true →
      ∃ v cmd, s.run i o body = .next v ∧ Retires ((s.entered o).enqueued cmd) v o [] ∧ p cmd ∧ Captured (s.entered o) i cmd) ∧
    ((s.entered o).ownsMill = true → 2 ≤ (s.entered o).myCore.mill.queue.length →
      s.run i o body = .next (s.entered o).stall)

/-- A body that is a command without a fault. -/
theorem run_command {p : MillCmd → Prop} (h : s.goes i o = true) (hb : body (s.entered o) = (s.entered o).command fs cmd)
    (hf : fs = []) (hp : p cmd) (hc : Captured (s.entered o) i cmd) : Queues s i o body p := by
  refine ⟨fun hm => ?_, fun ho hq => run_hold h (hb.trans (command_full hf ho hq))⟩
  obtain ⟨v, hv, hr⟩ := run_plain h (hb.trans (command_free hf hm))
  exact ⟨v, cmd, hv, hr, hp, hc⟩

/-! ### MMUL and MSPB (R295, R296) -/

theorem bad01_false {b : Bool} (h : b = false) : bad01 i b = [] := by subst h; rfl

/-- Places that are all in order give no fault. -/
theorem locFaults_nil {ls : List Loc} (h : ∀ l ∈ ls, s.locFault l = none) : s.locFaults ls = [] :=
  List.filterMap_eq_nil_iff.2 h

theorem shiftRight_setWidth_32 (x : Word) : (x >>> 32).setWidth 32 = x.extractLsb' 32 32 := by
  ext k hk
  simp

theorem mulOp_mem {x : BitVec 16} {bit : Nat} (h : (xfOf o).getLsbD bit = true) :
    s.mulOp o x bit = .mem (memDesc (BitVec.ofNat 128 (s.rs (scAddr o x) 16))) := if_pos h

theorem mulOp_tile {x : BitVec 16} {bit : Nat} (h : (xfOf o).getLsbD bit = false) :
    s.mulOp o x bit = .tile (s.view o 1 x) := if_neg (by simp [h])

/-- Two operands that form a pair have one element type. -/
theorem mulClass_etype {ea eb : BitVec 4} {fmt : Word} {cl : MulClass} (h : mulClass ea eb fmt = some cl) : eb = ea := by
  by_contra hne
  unfold mulClass at h
  dsimp only at h
  rw [if_pos (fun e => hne e.symm)] at h
  exact nomatch h

/-- A descriptor that an operand names lies in order. -/
theorem locFaults_operand {x : BitVec 16} {bit n : Nat} (h : (xfOf o).getLsbD bit = true → s.locFault (descLoc o x n) = none)
    {b : Bool} (hb : b = true → (xfOf o).getLsbD bit = true) :
    s.locFaults (if b then [descLoc o x n] else []) = [] := by
  cases b with
  | false => rfl
  | true => exact locFaults_nil fun l hl => (List.mem_singleton.1 hl) ▸ h (hb rfl)

/-- The format of an element type 0xE is in order, with a block that the scale's layout holds. -/
theorem half_ok {x : BitVec 32} {e : BitVec 4} {k : Nat}
    (h : e = 0xE → descValid x = true ∧ (fld x 12 11 = 0 ∨ k ≤ 64 * blockOf x)) :
    bad01 i (e = 0xE && (!descValid x || (fld x 12 11 ≠ 0 && 64 * blockOf x < k))) = [] := by
  refine bad01_false ?_
  by_cases he : e = 0xE
  · obtain ⟨hv, hb⟩ := h he
    rcases hb with hb | hb
    · simp [hv, hb]
    · simp [hv, Nat.not_lt.2 hb]
  · rw [decide_eq_false he]; rfl

/-- What an MMUL or MSPB needs of the bitmaps of a sparse operand (11 R296). -/
def PlaneOk (s : State) (o : Ops) (k bit : Nat) (f : BitVec 16) (lo rows : Nat) (ps : List Nat) (i : Instr) : Prop :=
  if (xfOf o).getLsbD bit then
    let e := memDesc (BitVec.ofNat 128 (s.rs (scAddr o f + 16) 16))
    e.etype = 0 ∧ e.cols = k ∧ e.rows = rows ∧ s.descFaults i e 1 ps = []
  else
    let v := s.tileView (fld (xfOf o) (lo + 2) lo)
    v.rows = rows ∧ tileFaults v ((k + 7) / 8) s.storeEnd = []

/-- The command of an MMUL or MSPB in order: its body is a command without a fault. -/
theorem mulBody_ok {sparse : Bool} {cl : MulClass} {n : Nat} (hn : (if sparse then 32 else 16) = n)
    (hcl : mulClass (s.mulOp o o.a 0).etype (s.mulOp o o.b 1).etype s.myCore.mill.millfmt = some cl)
    (hla : (xfOf o).getLsbD 0 = true → s.locFault (descLoc o o.a n) = none)
    (hlb : (xfOf o).getLsbD 1 = true → s.locFault (descLoc o o.b n) = none)
    (hfmt : (s.mulOp o o.a 0).etype = 0xE → ∀ x : BitVec 32,
      x = s.myCore.mill.millfmt.setWidth 32 ∨ x = s.myCore.mill.millfmt.extractLsb' 32 32 →
      descValid x = true ∧ (fld x 12 11 = 0 ∨ (s.mulOp o o.a 0).cols ≤ 64 * blockOf x))
    (hk : (s.mulOp o o.b 1).rows = (s.mulOp o o.a 0).cols) (hm : (s.mulOp o o.a 0).rows ≤ 96)
    (hc : (s.mulOp o o.b 1).cols ≤ (if cl.f64 then 48 else 96))
    (hd : accFaults (s.view o 2 o.d) cl (s.mulOp o o.a 0).rows (s.mulOp o o.b 1).cols = [])
    (ha : s.opFaults i (s.mulOp o o.a 0) cl.fa.width (piecesA s.me.gangRank.2) = [])
    (hb : s.opFaults i (s.mulOp o o.b 1) cl.fb.width (piecesB s.me.gangRank.2) = [])
    (hp : sparse = true →
      PlaneOk s o (s.mulOp o o.a 0).cols 0 o.a 2 (s.mulOp o o.a 0).rows (piecesA s.me.gangRank.2) i ∧
      PlaneOk s o (s.mulOp o o.a 0).cols 1 o.b 5 (s.mulOp o o.b 1).cols (piecesB s.me.gangRank.2) i) :
    ∃ fs cmd, mulBody i o sparse s = s.command fs cmd ∧ fs = [] ∧
      (cmd.viewD = (s.view o 2 o.d).asWord ∧ cmd.descA = BitVec.ofNat 256 (s.rs (scAddr o o.a) 32) ∧
        cmd.descB = BitVec.ofNat 256 (s.rs (scAddr o o.b) 32) ∧ cmd.rm = BitVec.ofNat 3 (s.modeOf o)) ∧
      Captured s i cmd := by
  unfold mulBody
  generalize s.me.gangRank = g at *
  obtain ⟨rk, size⟩ := g
  refine ⟨_, _, rfl, ?_, ⟨rfl, rfl, rfl, rfl⟩, rfl, rfl, rfl, rfl, rfl, rfl, rfl, rfl⟩
  have hE : (s.mulOp o o.b 1).etype = (s.mulOp o o.a 0).etype := mulClass_etype hcl
  have h96 : (if 96 < (s.mulOp o o.a 0).rows then [(s.mulOp o o.a 0).fault i] else []) = [] := if_neg (Nat.not_lt.2 hm)
  have hN : (if (if cl.f64 then 48 else 96) < (s.mulOp o o.b 1).cols then [(s.mulOp o o.b 1).fault i] else []) = [] :=
    if_neg (Nat.not_lt.2 hc)
  have hK : (if (s.mulOp o o.b 1).rows ≠ (s.mulOp o o.a 0).cols then
      pairFaults i (s.mulOp o o.a 0) (s.mulOp o o.b 1) else []) = [] := if_neg (fun h => h hk)
  dsimp only at *
  rw [hn, locFaults_operand hla (fun h => ?_), locFaults_operand hlb (fun h => ?_), shiftRight_setWidth_32,
    half_ok (fun he => hfmt he _ (.inl rfl)), half_ok (fun he => hfmt (hE ▸ he) _ (.inr rfl)), h96, hK, hcl]
  · simp only [List.isEmpty_nil, Bool.not_true, Bool.or_self, Bool.false_eq_true, if_false, List.nil_append, hN, hd, ha, hb]
    refine List.append_eq_nil_iff.2 ⟨?_, ?_⟩
    · cases sparse with
      | false => rfl
      | true =>
        have hP := (hp rfl).1
        unfold PlaneOk at hP
        cases hx : (xfOf o).getLsbD 0 with
        | true =>
          rw [if_pos hx] at hP
          obtain ⟨he, hcol, hrow, hf⟩ := hP
          rw [← hcol, ← hrow, mulOp_mem hx]
          simp [he, hf]
        | false =>
          rw [if_neg (ne_true_of_eq_false hx)] at hP
          obtain ⟨hrow, hf⟩ := hP
          rw [← hrow, mulOp_tile hx] at *
          exact (if_pos rfl).trans hf
    · cases sparse with
      | false => rfl
      | true =>
        have hP := (hp rfl).2
        unfold PlaneOk at hP
        cases hx : (xfOf o).getLsbD 1 with
        | true =>
          rw [if_pos hx] at hP
          obtain ⟨he, hcol, hrow, hf⟩ := hP
          rw [← hcol, ← hrow, mulOp_mem hx]
          simp [he, hf]
        | false =>
          rw [if_neg (ne_true_of_eq_false hx)] at hP
          obtain ⟨hrow, hf⟩ := hP
          rw [← hrow, mulOp_tile hx] at *
          exact (if_pos rfl).trans hf
  · cases h1 : (xfOf o).getLsbD 1 with
    | true => rfl
    | false => rw [mulOp_tile h1] at h; exact absurd h Bool.false_ne_true
  · cases h0 : (xfOf o).getLsbD 0 with
    | true => rfl
    | false => rw [mulOp_tile h0] at h; exact absurd h Bool.false_ne_true

/-! ### MSCL, JOIN and JDRAIN (R298 to R303) -/

theorem locFaults_one {l : Loc} (h : s.locFault l = none) : s.locFaults [l] = [] :=
  locFaults_nil fun _ hl => (List.mem_singleton.1 hl) ▸ h

theorem mscl_ok {b : Bool} (hl : s.locFault (descLoc o o.a 16) = none)
    (he : (memDesc (BitVec.ofNat 128 (s.rs (scAddr o o.a) 16))).etype = 0xB)
    (hr : (memDesc (BitVec.ofNat 128 (s.rs (scAddr o o.a) 16))).rows ≤ 96)
    (hc : (memDesc (BitVec.ofNat 128 (s.rs (scAddr o o.a) 16))).cols ≤ 64)
    (hd : s.descFaults (.mscl o b) (memDesc (BitVec.ofNat 128 (s.rs (scAddr o o.a) 16))) 32
      (if b then piecesB s.me.gangRank.2 else piecesA s.me.gangRank.2) = []) :
    ∃ fs, msclBody o b s =
        s.command fs { s.capture (.mscl o b) with descA := BitVec.ofNat 256 (s.rs (scAddr o o.a) 16) } ∧ fs = [] := by
  refine ⟨_, rfl, ?_⟩
  rw [locFaults_one hl]
  refine (if_neg Bool.false_ne_true).trans (List.append_eq_nil_iff.2 ⟨bad01_false ?_, hd⟩)
  simp [he, Nat.not_lt.2 hr, Nat.not_lt.2 hc]

theorem join_ok (h : ∀ x, x = o.a ∨ x = o.b ∨ x = o.d →
      s.locFault (descLoc o x 16) = none ∧ s.fiberFaults (.join o) (BitVec.ofNat 128 (s.rs (scAddr o x) 16)) = []) :
    ∃ fs, joinBody o s = s.command fs { s.capture (.join o) with
        descD := (BitVec.ofNat 128 (s.rs (scAddr o o.d) 16)).setWidth 256
        descA := (BitVec.ofNat 128 (s.rs (scAddr o o.a) 16)).setWidth 256
        descB := (BitVec.ofNat 128 (s.rs (scAddr o o.b) 16)).setWidth 256 } ∧ fs = [] := by
  obtain ⟨la, fa⟩ := h o.a (.inl rfl)
  obtain ⟨lb, fb⟩ := h o.b (.inr (.inl rfl))
  obtain ⟨ld, fd⟩ := h o.d (.inr (.inr rfl))
  have hall : s.locFaults [descLoc o o.a 16, descLoc o o.b 16, descLoc o o.d 16] = [] :=
    locFaults_nil (by simp [la, lb, ld])
  refine ⟨_, rfl, ?_⟩
  simp only [hall, locFaults_one la, locFaults_one lb, locFaults_one ld, fa, fb, fd]
  rfl

/-- Bytes of the register store, as a number, are below their bound. -/
theorem rs_lt (a n : Nat) : s.rs a n < 2 ^ (8 * n) := by
  unfold State.rs
  dsimp only
  split <;> exact Nat.mod_lt _ (Nat.two_pow_pos _)

theorem rs_descriptor (a : Nat) : ((BitVec.ofNat 128 (s.rs a 16)).setWidth 256).toNat = s.rs a 16 := by
  have h : s.rs a 16 < 2 ^ 128 := rs_lt a 16
  rw [BitVec.toNat_setWidth, BitVec.toNat_ofNat, Nat.mod_eq_of_lt h, Nat.mod_eq_of_lt (h.trans (by decide))]

/-- An address of JDRAIN's descriptor that is a multiple of four raises nothing. -/
theorem fld_aligned {d : BitVec 256} {lo hi : Nat} (hh : lo + 1 ≤ hi) (h : d.extractLsb' lo 2 = 0) : fld d hi lo % 4 = 0 := by
  have h' := congrArg BitVec.toNat h
  simp only [BitVec.extractLsb'_toNat] at h'
  unfold fld
  rw [show (4 : Nat) = 2 ^ 2 from rfl, Nat.mod_mod_of_dvd _ (Nat.pow_dvd_pow 2 (by omega))]
  exact h'

theorem drainBody_ok (hl : s.locFault (descLoc o o.d 32) = none)
    {d : BitVec 256} (e : BitVec.ofNat 256 (s.rs (scAddr o o.d) 32) = d)
    (hz : d.extractLsb' 240 16 = 0) (hn : d.extractLsb' 216 24 ≠ 0)
    (hs : (d.extractLsb' 192 24).toNat + (d.extractLsb' 216 24).toNat ≤ 0xFFFFFF)
    (ha : d.extractLsb' 0 2 = 0 ∧ d.extractLsb' 64 2 = 0 ∧ d.extractLsb' 128 2 = 0) :
    ∃ fs, drainBody i o s =
        s.command fs { s.capture i with descD := d, viewD := BitVec.ofNat 64 (scAddr o o.d) } ∧ fs = [] := by
  subst e
  obtain ⟨h0, h64, h128⟩ := ha
  have hz' : fld (BitVec.ofNat 256 (s.rs (scAddr o o.d) 32)) 255 240 = 0 := congrArg BitVec.toNat hz
  have hn' : fld (BitVec.ofNat 256 (s.rs (scAddr o o.d) 32)) 239 216 ≠ 0 := fun h => hn (BitVec.eq_of_toNat_eq h)
  have hs' : ¬ 0xFFFFFF < fld (BitVec.ofNat 256 (s.rs (scAddr o o.d) 32)) 215 192 +
      fld (BitVec.ofNat 256 (s.rs (scAddr o o.d) 32)) 239 216 := Nat.not_lt.2 hs
  refine ⟨_, rfl, ?_⟩
  rw [locFaults_one hl]
  refine (if_neg Bool.false_ne_true).trans ?_
  dsimp only
  rw [fld_aligned (by decide) h0, fld_aligned (by decide) h64, fld_aligned (by decide) h128]
  simp [bad01, hz', hn', hs']

/-! ### ASWAP and AZERO (R304) -/

/-- Where no outstanding result goes to the visible bank, nothing is waited for. -/
theorem bankCommitted_clean {k : State → Act} (h : ∀ r ∈ s.me.results, ∀ c ∈ r.cells, ∀ n, c.tgt = .row n → n < 256) :
    s.bankCommitted k = k (s.setMe s.me) := by
  have hb : ∀ r ∈ s.me.results,
      (r.cells.any fun c => match c.tgt with | .row n => decide (256 ≤ n) | .pred _ => false) = false := by
    intro r hr
    refine List.any_eq_false.2 fun c hc => ?_
    have hn := h r hr c hc
    cases hx : c.tgt with
    | row n => simpa using hn n hx
    | pred n => exact Bool.false_ne_true
  unfold State.bankCommitted
  dsimp only
  have hw : ∀ w : Result → Bool, (s.me.results.any fun r =>
      (r.cells.any fun c => match c.tgt with | .row n => decide (256 ≤ n) | .pred _ => false) && w r) = false :=
    fun w => List.any_eq_false.2 fun r hr => by rw [hb r hr]; exact Bool.false_ne_true
  refine (if_neg ?_).trans (congrArg k (commit_none hb))
  exact ne_true_of_eq_false (hw _)

/-- The mill's owner, seen in a state that writes the acting context back. -/
theorem setMe_self_mill : (s.setMe s.me).myCore.mill = s.myCore.mill := by
  simp [State.myCore, State.setMe, State.setCtx]

theorem setMe_self_ownsMill : (s.setMe s.me).ownsMill = s.ownsMill := by
  unfold State.ownsMill
  rw [setMe_self_mill]
  rfl

theorem setMe_self_millFree : (s.setMe s.me).millFree = s.millFree := by
  rw [State.millFree, setMe_self_mill, setMe_self_ownsMill]
  rfl

theorem setMe_self_stall : (s.setMe s.me).stall = s.stall := by simp [State.stall]

theorem setMe_self_captured : Captured s i ((s.setMe s.me).capture i) :=
  ⟨rfl, rfl, congrArg (fun x : Ctx => x.gangRank.1) (setMe_me _ _), congrArg Ctx.store (setMe_me _ _),
    congrArg Mill.millfmt setMe_self_mill, congrArg Ctx.tblroot (setMe_me _ _), congrArg Ctx.priv (setMe_me _ _), rfl⟩

/-- ASWAP and AZERO `.vis`, once they wait for nothing, are commands without operands. -/
theorem bank_ok {p : MillCmd → Prop} (h : s.goes i o = true)
    (hb : body (s.entered o) = (s.entered o).bankCommitted fun u => u.command [] (u.capture i))
    (hc : ∀ r ∈ (s.entered o).me.results, ∀ c ∈ r.cells, ∀ n, c.tgt = .row n → n < 256)
    (hp : ∀ cmd, p cmd) :
    Queues s i o body p ∧ ((s.entered o).ownsMill = false →
      s.run i o body = .next ((s.entered o).trap 0x09 (s.entered o).myCore.mill.millst (s.entered o).me.faultPc)) := by
  rw [bankCommitted_clean hc] at hb
  refine ⟨⟨fun hm => ?_, fun ho hq => ?_⟩, fun ho => ?_⟩
  · obtain ⟨v, hv, hr⟩ := run_done (rs := []) h (hb.trans (command_free rfl (setMe_self_millFree.trans hm)))
      (fun x => enqueued_setMe x _) (by simp)
    exact ⟨v, _, hv, hr, hp _, setMe_self_captured⟩
  · have hf := command_full (cmd := ((s.entered o).setMe (s.entered o).me).capture i) rfl (setMe_self_ownsMill.trans ho)
      (setMe_self_mill (s := s.entered o) ▸ hq)
    rw [run_hold h (hb.trans hf), setMe_self_stall]
  · rw [run_trap h (hb.trans (command_foreign (setMe_self_ownsMill.trans ho))), setMe_self_mill]

end Sys2Proof.Machine

open Sys2Proof Sys2Proof.Machine

/-- Settles O41: a command whose fault list is empty enters the queue, command by command. -/
theorem millCommandsQueue : Obligations.MillCommandsQueue := by
  unfold Obligations.MillCommandsQueue
  intro s o i u size queues desc goes clean h
  refine ⟨?_, ?_, ?_, ?_, ?_, ?_, ?_⟩
  · intro m sparse hi a b d fmt n scaled plane cl hcl ⟨hla, hlb, hE, hk, hm, hc, hd, ha, hb, hp⟩
    have hf : a.etype = 0xE → ∀ x : BitVec 32, x = fmt.setWidth 32 ∨ x = fmt.extractLsb' 32 32 →
        descValid x = true ∧ (fld x 12 11 = 0 ∨ a.cols ≤ 64 * blockOf x) := by
      intro he x hx
      obtain ⟨v1, v2, s1, s2⟩ := hE he
      rcases hx with rfl | rfl
      · exact ⟨v1, s1⟩
      · exact ⟨v2, s2⟩
    obtain ⟨fs, cmd, e, hfs, hcmd, hcap⟩ := mulBody_ok (s := u) (i := i) rfl hcl hla hlb hf hk hm hc hd ha hb hp
    have hq : Queues s i o (mulBody i o sparse) fun cmd => cmd.viewD = d.asWord ∧ cmd.descA = BitVec.ofNat 256 (desc o.a 32) ∧
        cmd.descB = BitVec.ofNat 256 (desc o.b 32) ∧ cmd.rm = BitVec.ofNat 3 (u.modeOf o) :=
      run_command h e hfs hcmd hcap
    cases sparse with
    | false => subst hi; exact hq
    | true => subst hi; exact hq
  · rintro b rfl d ⟨hl, he, hr, hc, hd⟩
    obtain ⟨fs, e, hfs⟩ := mscl_ok hl he hr hc hd
    exact run_command (body := msclBody o b) h e hfs rfl ⟨rfl, rfl, rfl, rfl, rfl, rfl, rfl, rfl⟩
  · rintro rfl hx
    obtain ⟨fs, e, hfs⟩ := join_ok hx
    exact run_command (body := joinBody o) h e hfs ⟨rs_descriptor _, rs_descriptor _, rs_descriptor _⟩
      ⟨rfl, rfl, rfl, rfl, rfl, rfl, rfl, rfl⟩
  · intro hi d ⟨hl, hz, hn, hs, ha⟩
    obtain ⟨fs, e, hfs⟩ := drainBody_ok (i := i) hl rfl hz hn hs ha
    have hq := run_command (body := drainBody i o) (p := fun cmd => cmd.descD = d ∧ cmd.viewD = BitVec.ofNat 64 (scAddr o o.d))
      h e hfs ⟨rfl, rfl⟩ ⟨rfl, rfl, rfl, rfl, rfl, rfl, rfl, rfl⟩
    rcases hi with rfl | rfl
    · exact hq
    · exact hq
  · rintro rfl -
    exact run_command (body := fun t => t.command [] (t.capture (.azero o))) h rfl rfl trivial
      ⟨rfl, rfl, rfl, rfl, rfl, rfl, rfl, rfl⟩
  · intro hi hc _
    have hq := (bank_ok (body := fun t => t.bankCommitted fun u => u.command [] (u.capture i)) (p := fun _ => True)
      h rfl hc fun _ => trivial).1
    rcases hi with rfl | rfl
    · exact hq
    · exact hq
  · intro hi ho
    rcases hi with rfl | ⟨hi, hc⟩
    · exact run_trap h (command_foreign ho)
    · have hq := (bank_ok (body := fun t => t.bankCommitted fun u => u.command [] (u.capture i)) (p := fun _ => True)
        h rfl hc fun _ => trivial).2 ho
      rcases hi with rfl | rfl
      · exact hq
      · exact hq
end

section
/-! MFMT, MWAIT and GANG (11 R290 to R293, R305 to R309, 02 R40 to R42). -/

namespace Sys2Proof.Machine

variable {s t u : State} {i : Instr} {o : Ops} {k : State → Act}

/-! ### MWAIT's wait (R291, R305) -/

/-- Nothing of the mill is left to wait for. -/
theorem withMill_quiet (h : s.millQuiet = true) : s.withMill k = k s := by
  unfold State.millQuiet at h
  simp only [Bool.and_eq_true, List.all_eq_true, decide_eq_true_eq] at h
  obtain ⟨hq, hp⟩ := h
  have hq' : ¬ (s.myCore.mill.queue.any fun q => q.ctx = s.curCtx) = true := by
    simpa using hq
  refine (if_neg hq').trans ?_
  cases hs : s.me.strand with
  | none => rfl
  | some d =>
    simp only [hs, Bool.and_eq_true, decide_eq_true_eq, Bool.or_eq_true, Bool.not_eq_true'] at hp
    obtain ⟨hd, hm⟩ := hp
    dsimp only
    rw [if_neg (fun h => h hd)]
    refine if_neg ?_
    rcases hm with hm | hm
    · simp [hm]
    · simp [hm]

/-- A command of the context is queued still. -/
theorem withMill_queued (h : ∃ q ∈ s.myCore.mill.queue, q.ctx = s.curCtx) : s.withMill k = .hold s := by
  obtain ⟨q, hq, hc⟩ := h
  exact if_pos (List.any_eq_true.2 ⟨q, hq, decide_eq_true hc⟩)

/-- A trap of the mill waits for the context. -/
theorem withMill_pending {d : Strand} (hs : s.me.strand = some d) (hd : d.pend = 0) (hm : s.myCore.mill.pend ≠ 0)
    (ho : s.ownsMill = true) (hq : ∀ q ∈ s.myCore.mill.queue, q.ctx ≠ s.curCtx) :
    s.withMill k = .trapIn (s.setMill s.curCore { s.myCore.mill with pend := 0, pendinfo := 0, discarded := 0 })
      s.myCore.mill.pend s.myCore.mill.pendWord := by
  have hq' : ¬ (s.myCore.mill.queue.any fun q => q.ctx = s.curCtx) = true := by simpa using hq
  refine (if_neg hq').trans ?_
  simp only [hs]
  rw [if_neg (fun h => h hd)]
  exact if_pos (by simpa [ho] using hm)

@[simp] theorem setMill_me (m : Mill) : (s.setMill s.curCore m).me = s.me := by
  simp [State.setMill, State.me, State.ctx]

/-! ### MFMT (R290, R293) -/

theorem mfmt_set (hl : s.locsFault [scLoc o o.a] = none) (hh : s.onHandler = false) (ho : s.myCore.mill.owned = true)
    (hc : s.myCore.mill.owner = s.curCtx) :
    mfmtBody o s = .done (s.setMill s.curCore { s.myCore.mill with millfmt := s.scOp o o.a }) := by
  unfold mfmtBody
  rw [within_ok hl]
  simp [hh, ho, hc]

theorem mfmt_holds (hl : s.locsFault [scLoc o o.a] = none) (hh : s.onHandler = false) (ho : s.myCore.mill.owned = true)
    (hc : s.myCore.mill.owner ≠ s.curCtx) : mfmtBody o s = .hold s := by
  unfold mfmtBody
  rw [within_ok hl]
  simp [hh, ho, hc]

theorem mfmt_handler (hl : s.locsFault [scLoc o o.a] = none) (hh : s.onHandler = true) :
    mfmtBody o s = .trap 0x09 s.myCore.mill.millst := by
  unfold mfmtBody
  rw [within_ok hl]
  simp [hh]

/-- The state in which MFMT has taken a mill: the strand's scale buffers are at 1.0 (R293). -/
def State.mfmtTaken (s : State) (v : Word) : State :=
  let t := s.setMill s.curCore { s.myCore.mill.taken s.curCtx with millfmt := v }
  t.setMe { t.me with strand := t.me.strand.map fun d => { d with ascale := 0, bscale := 0 } }

theorem mfmt_takes (hl : s.locsFault [scLoc o o.a] = none) (hh : s.onHandler = false) (ho : s.myCore.mill.owned = false) :
    mfmtBody o s = .done (s.mfmtTaken (s.scOp o o.a)) := by
  unfold mfmtBody
  rw [within_ok hl]
  simp [hh, ho, State.mfmtTaken]

theorem mfmtTaken_me (v : Word) :
    (s.mfmtTaken v).me = { s.me with strand := s.me.strand.map fun d => { d with ascale := 0, bscale := 0 } } := by
  unfold State.mfmtTaken
  dsimp only
  rw [setMe_me, setMill_me]

theorem mfmtTaken_keeps (v : Word) : (s.mfmtTaken v).me.store = s.me.store ∧ (s.mfmtTaken v).me.preds = s.me.preds ∧
    (s.mfmtTaken v).me.results = s.me.results ∧ (s.mfmtTaken v).me.pc = s.me.pc ∧ (s.mfmtTaken v).me.repOn = s.me.repOn := by
  rw [mfmtTaken_me]
  exact ⟨rfl, rfl, rfl, rfl, rfl⟩

theorem setMe_core_mill (x : Ctx) (c : Nat) : ((s.setMe x).core c).mill = (s.core c).mill := by
  by_cases hc : c = s.curCore
  · subst hc; simp [State.setMe, State.setCtx]
  · simp [State.setMe, State.setCtx, setCore_core_other _ _ _ hc]

@[simp] theorem setMill_core_same (c : Nat) (m : Mill) : ((s.setMill c m).core c).mill = m := by simp [State.setMill]

theorem mfmtTaken_mill (v : Word) :
    ((s.mfmtTaken v).core s.curCore).mill = { s.myCore.mill.taken s.curCtx with millfmt := v } := by
  unfold State.mfmtTaken
  dsimp only
  rw [setMe_core_mill, setMill_core_same]

/-- What an instruction that retires without a result leaves of its context's state. -/
theorem Retires.none_me {v : State} (h : Retires u v o []) : v.me.store = u.me.store ∧ v.me.preds = u.me.preds ∧
    v.me.results = u.me.results ∧ v.me.grank = u.me.grank := by
  obtain ⟨⟨x, hv, hx⟩, hr, _⟩ := h
  refine ⟨?_, ?_, by simpa using hr, ?_⟩ <;> rw [hv, setMe_me, hx]

/-- An instruction that retires leaves the mills. -/
theorem Retires.mill {v : State} (h : Retires u v o []) (c : Nat) : (v.core c).mill = (u.core c).mill := by
  obtain ⟨⟨x, hv, _⟩, _⟩ := h
  rw [hv, setMe_core_mill]

/-- An instruction that retires leaves every other context. -/
theorem Retires.ctx_other {v : State} (h : Retires u v o []) {c l : Nat} (hc : c ≠ u.curCore) : v.ctx c l = u.ctx c l := by
  obtain ⟨⟨x, hv, _⟩, _⟩ := h
  rw [hv, setMe_ctx_other _ _ (.inl hc)]

/-- MFMT with its operand in order, as the mill stands. -/
theorem mfmt_runs (h : s.goes (.mfmt o) o = true) (hl : (s.entered o).locsFault [scLoc o o.a] = none) :
    let u := s.entered o
    let m := u.myCore.mill
    (u.onHandler = false →
      (m.owned = true → m.owner = u.curCtx → ∃ v, exec (.mfmt o) s = .next v ∧
        Retires (u.setMill u.curCore { m with millfmt := u.scOp o o.a }) v o []) ∧
      (m.owned = true → m.owner ≠ u.curCtx → exec (.mfmt o) s = .next u.stall) ∧
      (m.owned = false → ∃ v, exec (.mfmt o) s = .next v ∧ Retires (u.mfmtTaken (u.scOp o o.a)) v o [])) ∧
    (u.onHandler = true → exec (.mfmt o) s = .next (u.trap 0x09 m.millst u.me.faultPc)) := by
  intro u m
  refine ⟨fun hh => ⟨fun ho hc => ?_, fun ho hc => ?_, fun ho => ?_⟩, fun hh => ?_⟩
  · exact run_plain (body := mfmtBody o) h (mfmt_set hl hh ho hc)
  · exact run_hold (body := mfmtBody o) h (mfmt_holds hl hh ho hc)
  · exact run_plain (body := mfmtBody o) h (mfmt_takes hl hh ho)
  · exact run_trap (body := mfmtBody o) h (mfmt_handler hl hh)

/-! ### The cores of a gang (R40, R306) -/

/-- Each named core is another one of the leader's hamlet, and is named once. -/
theorem gangCores_spec (c : Nat) (m : BitVec 8) :
    (gangCores c m).Nodup ∧ (gangCores c m).length ≤ 7 ∧ ∀ d ∈ gangCores c m, d ≠ c := by
  unfold gangCores
  refine ⟨?_, (List.length_filterMap_le _ _).trans (by simp), fun d hd => ?_⟩
  · refine (List.pairwise_filterMap.2 ?_)
    refine List.pairwise_lt_range.imp_of_mem fun {i j} hi hj hij b hb b' hb' => ?_
    rw [List.mem_range] at hi hj
    dsimp only at hb hb'
    split at hb
    · split at hb'
      · simp only [Option.some.injEq] at hb hb'
        omega
      · exact nomatch hb'
    · exact nomatch hb
  · obtain ⟨i, hi, hd⟩ := List.mem_filterMap.1 hd
    rw [List.mem_range] at hi
    dsimp only at hd
    split at hd
    · simp only [Option.some.injEq] at hd
      omega
    · exact nomatch hd

/-- GRANK of a leader says that it is in a gang. -/
theorem grankOf_gang : ∀ n, n ≤ 7 → (grankOf (n + 1) 0).getLsbD 6 = true := by decide

/-! ### The claim (R306) -/

section Claim
variable {l : Ctx} {fmt : Word} {lead rank size c : Nat}

/-- A fold of steps, each of which changes one core by that core's own state: a core named once is as its own step leaves it. -/
theorem foldl_cores {α : Type} {f : State → α → State} {g : α → Nat} (hother : ∀ s a d, d ≠ g a → (f s a).core d = s.core d)
    (hsame : ∀ s t a, s.core (g a) = t.core (g a) → (f s a).core (g a) = (f t a).core (g a)) (l : List α) :
    ∀ s, (l.map g).Nodup → (∀ d, d ∉ l.map g → (l.foldl f s).core d = s.core d) ∧
      ∀ a ∈ l, (l.foldl f s).core (g a) = (f s a).core (g a) := by
  induction l with
  | nil => exact fun s _ => ⟨fun _ _ => rfl, fun _ h => nomatch h⟩
  | cons a l ih =>
    intro s hnd
    rw [List.map_cons, List.nodup_cons] at hnd
    obtain ⟨hna, hnd⟩ := hnd
    obtain ⟨ho, hs⟩ := ih (f s a) hnd
    refine ⟨fun d hd => ?_, fun b hb => ?_⟩
    · rw [List.map_cons, List.mem_cons, not_or] at hd
      rw [List.foldl_cons, ho d hd.2, hother s a d hd.1]
    · rw [List.foldl_cons]
      rcases List.mem_cons.1 hb with rfl | hb
      · exact ho _ hna
      · rw [hs b hb]
        refine hsame _ _ b (hother s a _ fun e => hna ?_)
        exact e ▸ List.mem_map_of_mem hb

/-- What a claimed context is as a follower (R306). -/
def enlisted (lead rank size : Nat) (l x : Ctx) : Ctx :=
  { x with
    status := .following, pc := l.pc, store := [8, 9, 10, 11].foldl (fun m n => put m n (look 0 l.store n)) ([] : Map Row)
    preds := [], fpstatus := l.fpstatus &&& 0x1C0, srstate := 0
    repstate := 0, rep := none, grank := grankOf size rank, tblroot := l.tblroot, priv := l.priv, results := []
    hold := .none, lead := lead, gangq := [], marks := []
    strand := some { seq := (l.strand.map Strand.seq).getD 0, fp := (l.strand.map Strand.fp).getD 0 } }

theorem enlist_some {k : Nat} (h : s.idleCtx c = some k) : s.enlist lead rank size l fmt c =
    (s.setCtx c k (enlisted lead rank size l (s.ctx c k))).setMill c
      { (s.core c).mill.taken k with gang := true, pend := 0, pendinfo := 0, discarded := 0, millfmt := fmt } := by
  unfold State.enlist
  rw [h]
  dsimp only
  rw [show ((s.setCtx c k _).core c).mill = (s.core c).mill from setCtx_mill _ _ _ _]
  rfl

theorem enlist_none (h : s.idleCtx c = none) : s.enlist lead rank size l fmt c = s := by
  unfold State.enlist
  rw [h]

theorem enlist_core_other {d : Nat} (hd : d ≠ c) : (s.enlist lead rank size l fmt c).core d = s.core d := by
  cases h : s.idleCtx c with
  | none => rw [enlist_none h]
  | some k => rw [enlist_some h, State.setMill, setCore_core_other _ _ _ hd, State.setCtx, setCore_core_other _ _ _ hd]

/-- A core's own state says which of its contexts are IDLE. -/
theorem idleCtx_core (h : s.core c = t.core c) : s.idleCtx c = t.idleCtx c := by
  unfold State.idleCtx State.ctx
  rw [h]

theorem enlist_core_same (h : s.core c = t.core c) :
    (s.enlist lead rank size l fmt c).core c = (t.enlist lead rank size l fmt c).core c := by
  have hi := idleCtx_core h
  cases hk : s.idleCtx c with
  | none => rw [enlist_none hk, enlist_none (hi ▸ hk), h]
  | some k =>
    rw [enlist_some hk, enlist_some (hi ▸ hk)]
    simp [State.setMill, State.setCtx, State.ctx, h]

theorem enlist_mem : (s.enlist lead rank size l fmt c).mem = s.mem := by
  cases h : s.idleCtx c with
  | none => rw [enlist_none h]
  | some k => rw [enlist_some h]; rfl

theorem enlist_cur : (s.enlist lead rank size l fmt c).curCore = s.curCore ∧ (s.enlist lead rank size l fmt c).curCtx = s.curCtx := by
  cases h : s.idleCtx c with
  | none => rw [enlist_none h]; exact ⟨rfl, rfl⟩
  | some k => rw [enlist_some h]; exact ⟨rfl, rfl⟩

/-- One core of a claim: the core and the place of its rank. -/
def enlistAt (lead size : Nat) (l : Ctx) (fmt : Word) (t : State) (p : Nat × Nat) : State :=
  t.enlist lead (p.2 + 1) size l fmt p.1

theorem enlists_keeps (ps : List (Nat × Nat)) : ∀ t : State,
    (ps.foldl (enlistAt lead size l fmt) t).mem = t.mem ∧ (ps.foldl (enlistAt lead size l fmt) t).curCore = t.curCore ∧
      (ps.foldl (enlistAt lead size l fmt) t).curCtx = t.curCtx := by
  induction ps with
  | nil => exact fun t => ⟨rfl, rfl, rfl⟩
  | cons p ps ih =>
    intro t
    obtain ⟨h1, h2, h3⟩ := ih (enlistAt lead size l fmt t p)
    exact ⟨h1.trans enlist_mem, h2.trans enlist_cur.1, h3.trans enlist_cur.2⟩

/-- The leader's part of a claim, after its followers (R306). -/
def claimed (t : State) (size : Nat) : State :=
  (t.setMill t.curCore { t.myCore.mill with gang := true }).setMe
    { (t.setMill t.curCore { t.myCore.mill with gang := true }).me with grank := grankOf size 0 }

/-- What a claim leaves of the leader's own state, and of the claimed contexts (R306). -/
theorem claim_spec {cs : List Nat} (hnd : cs.Nodup) (hc : ∀ d ∈ cs, d ≠ s.curCore) :
    (s.claim cs).mem = s.mem ∧ (s.claim cs).curCore = s.curCore ∧ (s.claim cs).curCtx = s.curCtx ∧
    (s.claim cs).me = { s.me with grank := grankOf (cs.length + 1) 0 } ∧
    ((s.claim cs).core s.curCore).mill = { s.myCore.mill with gang := true } ∧
    ∀ i c, cs[i]? = some c → (s.claim cs).core c =
      (s.enlist s.curCore (i + 1) (cs.length + 1) s.me s.myCore.mill.millfmt c).core c := by
  have hfst : cs.zipIdx.map Prod.fst = cs := List.zipIdx_map_fst 0 cs
  obtain ⟨hother, hsame⟩ := foldl_cores (f := enlistAt s.curCore (cs.length + 1) s.me s.myCore.mill.millfmt) (g := Prod.fst) (fun t p d hd => enlist_core_other hd)
    (fun t t' p h => enlist_core_same h) cs.zipIdx s (hfst.symm ▸ hnd)
  rw [hfst] at hother
  obtain ⟨hm, hcc, hck⟩ := enlists_keeps (lead := s.curCore) (size := cs.length + 1) (l := s.me) (fmt := s.myCore.mill.millfmt) cs.zipIdx s
  have hown : (cs.zipIdx.foldl (enlistAt s.curCore (cs.length + 1) s.me s.myCore.mill.millfmt) s).core s.curCore = s.core s.curCore := hother _ fun h => hc _ h rfl
  have hme : (cs.zipIdx.foldl (enlistAt s.curCore (cs.length + 1) s.me s.myCore.mill.millfmt) s).me = s.me := by rw [State.me, hcc, hck, State.ctx, hown]; rfl
  have e : s.claim cs = claimed (cs.zipIdx.foldl (enlistAt s.curCore (cs.length + 1) s.me s.myCore.mill.millfmt) s) (cs.length + 1) := rfl
  generalize cs.zipIdx.foldl (enlistAt s.curCore (cs.length + 1) s.me s.myCore.mill.millfmt) s = t at *
  rw [e, claimed]
  refine ⟨hm, hcc, hck, by rw [setMe_me, setMill_me, hme], ?_, fun i c hi => ?_⟩
  · rw [setMe_core_mill, ← hcc, setMill_core_same, State.myCore, hcc, hown]
    rfl
  · have hne : c ≠ t.curCore := hcc ▸ hc c (List.mem_of_getElem? hi)
    have hsc := hsame (c, i) (List.mk_mem_zipIdx_iff_getElem?.2 hi)
    exact (setCore_core_other _ _ _ hne).trans ((setCore_core_other _ _ _ hne).trans hsc)

/-- Each core of a claim has an IDLE context, which becomes the follower of its rank and owns the core's mill. -/
theorem claim_follower {cs : List Nat} (hnd : cs.Nodup) (hc : ∀ d ∈ cs, d ≠ s.curCore) (hq : s.claimable cs = true)
    {i c : Nat} (hi : cs[i]? = some c) : ∃ k, s.idleCtx c = some k ∧
      (s.claim cs).ctx c k = enlisted s.curCore (i + 1) (cs.length + 1) s.me (s.ctx c k) ∧
      ((s.claim cs).core c).mill = { (s.core c).mill.taken k with
        gang := true, pend := 0, pendinfo := 0, discarded := 0, millfmt := s.myCore.mill.millfmt } := by
  obtain ⟨-, -, -, -, -, hall⟩ := claim_spec hnd hc
  have hcl := List.all_eq_true.1 hq c (List.mem_of_getElem? hi)
  rw [Bool.and_eq_true, Option.isSome_iff_exists] at hcl
  obtain ⟨-, k, hk⟩ := hcl
  have hcore := hall i c hi
  rw [enlist_some hk] at hcore
  refine ⟨k, hk, ?_, ?_⟩
  · rw [State.ctx, hcore]
    simp [State.setMill, State.setCtx, look_put_same]
  · rw [hcore, setMill_core_same]

end Claim

/-! ### The end of a gang (R308) -/

theorem setCtx_core_mill (c k : Nat) (x : Ctx) (d : Nat) : ((s.setCtx c k x).core d).mill = (s.core d).mill := by
  by_cases hd : d = c
  · rw [hd]; exact setCtx_mill _ _ _ _
  · rw [State.setCtx, setCore_core_other _ _ _ hd]

theorem setMill_ctx (c : Nat) (m : Mill) (d l : Nat) : (s.setMill c m).ctx d l = s.ctx d l := by
  by_cases hd : d = c
  · rw [hd]; simp [State.setMill, State.ctx]
  · rw [State.ctx, State.setMill, setCore_core_other _ _ _ hd]; rfl

theorem setMill_core_mill (c : Nat) (m : Mill) (d : Nat) :
    ((s.setMill c m).core d).mill = if d = c then m else (s.core d).mill := by
  by_cases hd : d = c
  · rw [hd, if_pos rfl, setMill_core_same]
  · rw [if_neg hd, State.setMill, setCore_core_other _ _ _ hd]

theorem setCtx_ctx (c k : Nat) (x : Ctx) (d l : Nat) :
    (s.setCtx c k x).ctx d l = if d = c ∧ l = k then x else s.ctx d l := by
  by_cases hd : d = c
  · subst hd
    by_cases hl : l = k
    · rw [if_pos ⟨rfl, hl⟩, hl, setCtx_ctx_same]
    · rw [if_neg (fun h => hl h.2), setCtx_ctx_other_ctx _ _ _ _ hl]
  · rw [if_neg (fun h => hd h.1), setCtx_ctx_other_core _ _ _ _ _ hd]

/-- One follower of a gang that ends. -/
def freed (t : State) (m : Nat × Nat × Nat) : State :=
  (t.toIdle m.1 m.2.1).setMill m.1 { (t.core m.1).mill with owned := false, gang := false }

/-- A context is IDLE and the mill of its core has no owner. -/
def Free (t : State) (c k : Nat) : Prop := (t.ctx c k).status = .idle ∧ (t.core c).mill.owned = false

theorem freed_ctx (m : Nat × Nat × Nat) (c k : Nat) :
    (freed t m).ctx c k = if c = m.1 ∧ k = m.2.1 then (t.ctx c k).idled else t.ctx c k := by
  rw [freed, setMill_ctx]
  refine (setCtx_ctx _ _ _ _ _).trans ?_
  split
  · rename_i h; rw [h.1, h.2]
  · rfl

theorem freed_mill (m : Nat × Nat × Nat) (c : Nat) :
    ((freed t m).core c).mill = if c = m.1 then { (t.core c).mill with owned := false, gang := false } else (t.core c).mill := by
  rw [freed, setMill_core_mill]
  split
  · rename_i h; rw [h]
  · exact setCtx_core_mill _ _ _ _

theorem freed_free (m : Nat × Nat × Nat) : Free (freed t m) m.1 m.2.1 := by
  refine ⟨?_, ?_⟩
  · rw [freed_ctx, if_pos ⟨rfl, rfl⟩]; rfl
  · rw [freed_mill, if_pos rfl]

theorem freed_keeps_free {c k : Nat} (h : Free t c k) (m : Nat × Nat × Nat) : Free (freed t m) c k := by
  obtain ⟨hs, ho⟩ := h
  refine ⟨?_, ?_⟩
  · rw [freed_ctx]
    split
    · rfl
    · exact hs
  · rw [freed_mill]
    split
    · rfl
    · exact ho

/-- Every follower of a gang that has ended is IDLE and has freed its mill. -/
theorem foldl_freed (l : List (Nat × Nat × Nat)) : ∀ t : State, (l.foldl freed t).mem = t.mem ∧
    (l.foldl freed t).curCore = t.curCore ∧ (∀ c k, Free t c k → Free (l.foldl freed t) c k) ∧ ∀ m ∈ l, Free (l.foldl freed t) m.1 m.2.1 := by
  induction l with
  | nil => exact fun t => ⟨rfl, rfl, fun _ _ h => h, fun _ h => nomatch h⟩
  | cons m l ih =>
    intro t
    obtain ⟨hm, hcc, hk, hl⟩ := ih (freed t m)
    refine ⟨hm, hcc, fun c k h => hk c k (freed_keeps_free h m), fun n hn => ?_⟩
    rcases List.mem_cons.1 hn with rfl | hn
    · exact hk _ _ (freed_free _)
    · exact hl n hn

theorem followers_other {c : Nat} {m : Nat × Nat × Nat} (h : m ∈ s.followers c) : m.1 ≠ c := by
  unfold State.followers at h
  simp only [List.mem_flatMap, List.mem_filter, List.mem_filterMap] at h
  obtain ⟨g, -, ⟨j, -, k, -, hk⟩, -⟩ := h
  split at hk
  · rename_i hc
    simp only [Bool.and_eq_true, decide_eq_true_eq] at hc
    simp only [Option.some.injEq] at hk
    rw [← hk]
    exact hc.1.1
  · exact nomatch hk

/-- The leader's part of the end of a gang (R308). -/
def ungang (t : State) : State :=
  (t.setMill t.curCore { t.myCore.mill with gang := false }).setMe
    { (t.setMill t.curCore { t.myCore.mill with gang := false }).me with grank := 0 }

theorem ungang_free {c k : Nat} (h : Free t c k) : Free (ungang t) c k := by
  obtain ⟨hs, ho⟩ := h
  refine ⟨?_, ?_⟩
  · rw [ungang, State.setMe, setCtx_ctx]
    split
    · rename_i hc
      rw [setMill_me]
      rw [hc.1, hc.2] at hs
      exact hs
    · rw [setMill_ctx]; exact hs
  · rw [ungang, setMe_core_mill, setMill_core_mill]
    split
    · rename_i hc
      rw [hc] at ho
      exact ho
    · exact ho

/-- What the end of a gang leaves (R308). -/
theorem endGang_spec : s.endGang.mem = s.mem ∧ s.endGang.me.grank = 0 ∧
    ∀ f ∈ s.followers s.curCore, Free s.endGang f.1 f.2.1 := by
  obtain ⟨hm, -, -, hf⟩ := foldl_freed (s.followers s.curCore) s
  have e : s.endGang = ungang ((s.followers s.curCore).foldl freed s) := rfl
  rw [e]
  exact ⟨hm, by rw [ungang, setMe_me], fun f hmem => ungang_free (hf f hmem)⟩

theorem endGang_curCore : s.endGang.curCore = s.curCore := by
  obtain ⟨-, hc, -⟩ := foldl_freed (s.followers s.curCore) s
  exact hc

/-! ### GANG at issue (R306 to R308) -/

theorem leadFaults_none (hl : s.locsFault [scLoc o o.a] = none) (hg : s.me.inGang = false)
    (hm : (s.scOp o o.a).getLsbD (s.curCore % 8) = true) (hc : s.leadCores o ≠ []) (ho : s.ownsMill = true) :
    s.leadFaults o = none := by
  have hc' : (gangCores s.curCore ((s.scOp o o.a).setWidth 8)).isEmpty = false := by
    rw [List.isEmpty_eq_false_iff]; exact hc
  have hm' : ((s.scOp o o.a).setWidth 8 : BitVec 8).getLsbD (s.curCore % 8) = true := by
    rw [BitVec.getLsbD_setWidth, hm, decide_eq_true (Nat.mod_lt _ (by decide))]
    rfl
  unfold State.leadFaults State.ownFault
  dsimp only
  rw [hl, hg, hm', hc', ho]
  rfl

theorem gangLead_body (hl : s.locsFault [scLoc o o.a] = none) (hf : s.leadFaults o = none) :
    gangLeadBody o s = if s.mayClaim (s.leadCores o) then .done (s.claim (s.leadCores o)) else .hold s := by
  unfold gangLeadBody
  rw [hf]
  exact within_ok hl

/-- What a follower or a leader does in GANG `.follow` and `.leave`. -/
theorem withGang_follower (hh : s.onHandler = false) (hl : s.me.leads = false) (hq : s.millQuiet = true) :
    s.withGang k = k s := by
  unfold State.withGang
  rw [hh, hl, withMill_quiet hq, hl]
  rfl

theorem withGang_waits (hh : s.onHandler = false) (hl : s.me.leads = true) (hg : s.me.hold ≠ .gang) (hq : s.millQuiet = true) :
    s.withGang k = .left s.awaitGang := by
  unfold State.withGang
  rw [hh, hl, withMill_quiet hq, hl]
  simp [hg]

theorem withGang_leader (hh : s.onHandler = false) (hl : s.me.leads = true) (hg : s.me.hold = .gang) :
    s.withGang k = k s := by
  unfold State.withGang
  rw [hh, hl]
  simp [hg]

/-! ### A claim that comes due (R309) -/

/-- `t` acts for the same context as `s`, which is in the same gang. -/
structure SameGang (s t : State) : Prop where
  core : t.curCore = s.curCore
  ctx : t.curCtx = s.curCtx
  grank : t.me.grank = s.me.grank

namespace SameGang

theorem refl (s : State) : SameGang s s := ⟨rfl, rfl, rfl⟩

theorem trans (h : SameGang s t) (h' : SameGang t u) : SameGang s u :=
  ⟨h'.core.trans h.core, h'.ctx.trans h.ctx, h'.grank.trans h.grank⟩

theorem of_me (hc : t.curCore = s.curCore) (hk : t.curCtx = s.curCtx) (hm : t.me = s.me) : SameGang s t :=
  ⟨hc, hk, congrArg Ctx.grank hm⟩

theorem of_tlb (h : s.TlbOnly t) : SameGang s t := of_me h.curCore h.curCtx h.me
theorem of_home (h : s.HomeOnly t) : SameGang s t := of_me h.curCore h.curCtx h.me

theorem of_regs (h : RegsOnly s t) : SameGang s t := by
  obtain ⟨_, _, _, _, hm⟩ := h.me
  exact ⟨h.curCore, h.curCtx, by rw [hm]⟩

theorem setMe {x : Ctx} (h : x.grank = s.me.grank) : SameGang s (s.setMe x) := ⟨rfl, rfl, by rw [setMe_me, h]⟩

end SameGang

theorem unhold_sameGang : SameGang s s.unhold := by
  unfold State.unhold
  have h1 : SameGang s (if s.me.hold = .switch then (let t := s.commitVar; t.setMe { t.me with hold := .none }) else s) := by
    split
    · exact (SameGang.of_regs commitVar_regsOnly).trans (.setMe rfl)
    · exact .refl s
  refine h1.trans ?_
  dsimp only
  generalize (if s.me.hold = .switch then _ else s) = t
  cases t.me.acqAfter with
  | none => exact .refl t
  | some sc => exact (SameGang.of_home (acquire_homeOnly sc)).trans (.setMe rfl)

theorem unlessShut_sameGang {b : Bool} {e : Trouble ⊕ BitVec 20 × Nat} {w w' : BitVec 32} (hg : SameGang s u)
    (h : (if b then .error e else .ok (w', u) : Except (Trouble ⊕ BitVec 20 × Nat) (BitVec 32 × State)) = .ok (w, t)) :
    SameGang s t := by
  cases b with
  | true => exact nomatch h
  | false =>
    simp only [Bool.false_eq_true, if_false, Except.ok.injEq, Prod.mk.injEq] at h
    exact h.2 ▸ hg

theorem fetchWord_sameGang {va : Word} {w : BitVec 32} (h : s.fetchWord va = .ok (w, t)) : SameGang s t := by
  unfold State.fetchWord at h
  cases hr : s.resolve va .exec with
  | error e => rw [hr] at h; exact nomatch h
  | ok q =>
    obtain ⟨p, v⟩ := q
    have hv : SameGang s v := .of_tlb (resolve_tlbOnly hr)
    rw [hr] at h
    dsimp only at h
    split at h
    · exact nomatch h
    · rename_i hq
      simp only [Except.ok.injEq, Prod.mk.injEq] at hq
      rw [← hq.2] at h
      split at h
      · split at h
        · simp only [Except.ok.injEq, Prod.mk.injEq] at h
          exact h.2 ▸ hv
        · exact nomatch h
      · exact nomatch h
    · rename_i hq
      simp only [Except.ok.injEq, Prod.mk.injEq] at hq
      rw [← hq.2] at h
      split at h
      · exact nomatch h
      · exact nomatch h
      · refine unlessShut_sameGang (hv.trans ?_) h
        exact .of_home (readPlace_homeOnly _ _ _ _ _)

theorem fetchMore_sameGang (n : Nat) : ∀ {s t : State} {va : Word} {ws : List (BitVec 32)},
    s.fetchMore va n = .ok (ws, t) → SameGang s t := by
  induction n with
  | zero =>
    intro s t va ws h
    cases h
    exact .refl s
  | succ n ih =>
    intro s t va ws h
    rw [State.fetchMore] at h
    cases hw : s.fetchWord va with
    | error e => rw [hw] at h; exact nomatch h
    | ok p =>
      obtain ⟨w, v⟩ := p
      rw [hw] at h
      cases hr : v.fetchMore (va + 4) n with
      | error e => simp only [hr] at h; exact nomatch h
      | ok q =>
        obtain ⟨l, v'⟩ := q
        simp only [hr, Except.ok.injEq, Prod.mk.injEq] at h
        rw [← h.2]
        exact (fetchWord_sameGang hw).trans (ih hr)

theorem fetchAt_sameGang {va : Word} (h : s.fetchAt va = .instr i t) : SameGang s t := by
  unfold State.fetchAt at h
  cases hw : s.fetchWord va with
  | error e => rw [hw] at h; exact nomatch h
  | ok p =>
    obtain ⟨w, v⟩ := p
    rw [hw] at h
    dsimp only at h
    split at h
    · exact nomatch h
    · cases hm : v.fetchMore (va + 4) (wordsOfLen (w.extractLsb' 0 2) - 1) with
      | error e => simp only [hm] at h; exact nomatch h
      | ok q =>
        obtain ⟨ws, v'⟩ := q
        simp only [hm] at h
        cases hd : decodeWords (w :: ws) with
        | error e => simp only [hd] at h; exact nomatch h
        | ok j =>
          simp only [hd, Fetched.instr.injEq] at h
          rw [← h.2]
          exact (fetchWord_sameGang hw).trans (fetchMore_sameGang _ hm)

/-- A context that would issue next is in no gang. -/
theorem nextOf_sameGang {c k : Nat} (h : s.nextOf c k = some (i, t)) : (s.ctx c k).inGang = false ∧ SameGang (s.as c k) t := by
  unfold State.nextOf at h
  dsimp only at h
  split at h
  · exact nomatch h
  · rename_i hc
    simp only [Bool.or_eq_true, not_or] at hc
    refine ⟨by simpa using hc.1.2, ?_⟩
    cases hf : (s.as c k).unhold.tick.fetchAt (s.ctx c k).pc with
    | instr j v =>
      rw [hf] at h
      simp only [Option.some.injEq, Prod.mk.injEq] at h
      obtain ⟨-, rfl⟩ := h
      exact unhold_sameGang.trans ((SameGang.of_regs tick_regsOnly).trans (fetchAt_sameGang hf))
    | none w v => rw [hf] at h; exact nomatch h
    | stopped e => rw [hf] at h; exact nomatch h

theorem entered_sameGang : SameGang s (s.entered o) := by
  obtain ⟨hs, e⟩ := entered_hamlets (s := s) (o := o)
  rw [e]
  exact ⟨rfl, rfl, rfl⟩

theorem perform_of_goes {body : State → Act} (h : s.goes i o = true) :
    s.perform i o body = (s.entered o).finish i o (body (s.entered o)) :=
  (Host.Outcome.next.injEq _ _).mp (run_goes h)

/-- What a claim that comes due does for a leader that holds (R306, R309). -/
theorem claimDue_spec {c k : Nat} (hw : (s.ctx c k).hold = .wait) (hn : s.nextOf c k = some (.gangLead o, u))
    (hg : u.goes (.gangLead o) o = true) (hl : (u.entered o).locsFault [scLoc o o.a] = none)
    (hm : ((u.entered o).scOp o o.a).getLsbD ((u.entered o).curCore % 8) = true)
    (hc : (u.entered o).leadCores o ≠ []) (ho : (u.entered o).ownsMill = true) :
    ((u.entered o).mayClaim ((u.entered o).leadCores o) = true →
      ∃ t, s.claimDue c k = t ∧ Retires ((u.entered o).claim ((u.entered o).leadCores o)) t o [] ∧
        (t.ctx c k).grank = grankOf (((u.entered o).leadCores o).length + 1) 0) ∧
    ((u.entered o).mayClaim ((u.entered o).leadCores o) = false → s.claimDue c k = s) := by
  obtain ⟨hin, hsame⟩ := nextOf_sameGang hn
  obtain ⟨hec, hek, heg⟩ := hsame.trans (entered_sameGang (o := o))
  have hing : (u.entered o).me.inGang = false := by
    rw [Ctx.inGang, heg]
    exact hin
  have hb := gangLead_body hl (leadFaults_none hl hing hm hc ho)
  have hp : s.claimDue c k = if ((u.perform (.gangLead o) o (gangLeadBody o)).ctx c k).inGang
      then u.perform (.gangLead o) o (gangLeadBody o) else s := by
    unfold State.claimDue
    rw [hw, hn]
    rfl
  rw [perform_of_goes hg, hb] at hp
  have hme : ∀ v : State, v.curCore = (u.entered o).curCore → v.curCtx = (u.entered o).curCtx → v.ctx c k = v.me := by
    intro v h1 h2
    rw [State.me, h1, h2, hec, hek]
    rfl
  obtain ⟨hnd, h7, hne⟩ := gangCores_spec (u.entered o).curCore (((u.entered o).scOp o o.a).setWidth 8)
  refine ⟨fun hmay => ?_, fun hmay => ?_⟩
  · rw [if_pos hmay] at hp
    obtain ⟨-, hcc, hck, hcm, -⟩ := claim_spec hnd hne
    have hr : Retires ((u.entered o).claim ((u.entered o).leadCores o))
        ((u.entered o).finish (.gangLead o) o (.done ((u.entered o).claim ((u.entered o).leadCores o)))) o [] := retires_none
    have hgr := hr.none_me.2.2.2
    have hcur : ∀ v, Retires ((u.entered o).claim ((u.entered o).leadCores o)) v o [] →
        v.curCore = (u.entered o).curCore ∧ v.curCtx = (u.entered o).curCtx := by
      rintro v ⟨⟨x, rfl, -⟩, -⟩
      exact ⟨hcc, hck⟩
    generalize (u.entered o).finish (.gangLead o) o _ = v at hp hr hgr
    obtain ⟨h1, h2⟩ := hcur v hr
    have hv : (v.ctx c k).grank = grankOf (((u.entered o).leadCores o).length + 1) 0 := by
      rw [hme v h1 h2, hgr]
      exact congrArg Ctx.grank hcm
    refine ⟨v, hp.trans (if_pos ?_), hr, hv⟩
    rw [Ctx.inGang, hv]
    exact grankOf_gang _ h7
  · rw [if_neg (ne_true_of_eq_false hmay)] at hp
    refine hp.trans (if_neg ?_)
    show ¬ (((u.entered o).stall).ctx c k).inGang = true
    rw [hme (u.entered o).stall rfl rfl, State.stall, setMe_me]
    exact ne_true_of_eq_false hing

end Sys2Proof.Machine

open Sys2Proof Sys2Proof.Machine

/-- Settles O42: MFMT, MWAIT and GANG at issue, the claim, the end of a gang and the claim that comes due. -/
theorem millControlAndGangsComplete : Obligations.MillControlAndGangsComplete := by
  refine ⟨fun s o => ?_, fun s o => ?_⟩
  · intro u m
    refine ⟨fun h hh hl => ?_, fun h hh hl => (mfmt_runs h hl).2 hh, fun h hh hq => ?_, fun h => ⟨fun hq => ?_, fun hq => ?_,
      fun d hd hp hm ho hq hr => ?_⟩⟩
    · obtain ⟨hset, hhold, htake⟩ := (mfmt_runs h hl).1 hh
      refine ⟨hset, hhold, fun ho => ?_⟩
      obtain ⟨v, hv, hr⟩ := htake ho
      obtain ⟨hst, hpr, hres, -⟩ := hr.none_me
      obtain ⟨kst, kpr, kres, kpc, krep⟩ := mfmtTaken_keeps (s := u) (u.scOp o o.a)
      refine ⟨v, hv, hr.mem, (hr.mill _).trans (mfmtTaken_mill _), hst.trans kst, hpr.trans kpr, hres.trans kres, fun hrep => ?_⟩
      obtain ⟨-, -, -, hpc⟩ := hr
      exact (hpc (.inl (krep.trans hrep))).trans (congrArg (· + _) kpc)
    · have hb : mfmtRelBody o u = .done (if u.ownsMill && !m.gang then
          (u.setMill u.curCore { m with owned := false }).callIdle u.curCore else u) := by
        unfold mfmtRelBody
        rw [hh, withMill_quiet hq]
        rfl
      exact run_plain (body := mfmtRelBody o) h hb
    · exact run_plain (body := fun t => t.withMill .done) h (withMill_quiet hq)
    · exact run_hold (body := fun t => t.withMill .done) h (withMill_queued hq)
    · have he : exec (.mwait o) s = .next (u.finish (.mwait o) o (u.withMill .done)) :=
        run_goes (body := fun t => t.withMill .done) h
      rw [he, withMill_pending hd hp hm ho hq]
      refine congrArg _ ((if_pos hr).trans ?_)
      rw [setMill_me]
  · intro u cs
    refine ⟨fun h hl hg hm hc ho => ?_, fun i hi h hh => ?_, fun c k hw => ?_, fun c k w hw hn h => ?_⟩
    · have hb := gangLead_body hl (leadFaults_none hl hg hm hc ho)
      obtain ⟨hnd, h7, hne⟩ := gangCores_spec u.curCore ((u.scOp o o.a).setWidth 8)
      refine ⟨fun hmay => ?_, fun hmay => ?_⟩
      · exact run_hold (body := gangLeadBody o) h (hb.trans (if_neg (ne_true_of_eq_false hmay)))
      · obtain ⟨v, hv, hr⟩ := run_plain (body := gangLeadBody o) h (hb.trans (if_pos hmay))
        obtain ⟨hcmem, hcc, hck, hcme, hcmill, -⟩  := claim_spec (cs := u.leadCores o) hnd hne
        obtain ⟨hst, hpr, hres, hgr⟩ := hr.none_me
        refine ⟨v, hv, hr, hr.mem.trans hcmem, by rw [hgr, hcme]; rfl, by rw [hst, hcme], ?_,
          fun i c hi => ?_⟩
        · rw [hr.mill, hcmill]
        · have hq : u.claimable cs = true := by
            have hmay' := hmay
            unfold State.mayClaim at hmay'
            simp only [Bool.and_eq_true] at hmay'
            exact hmay'.1.1
          obtain ⟨k, hk, hx, hmill⟩ := claim_follower (cs := u.leadCores o) hnd hne hq hi
          refine ⟨k, hk, ?_⟩
          rw [hr.ctx_other (hcc ▸ hne c (List.mem_of_getElem? hi)), hx, hr.mill, hmill]
          exact ⟨rfl, rfl, rfl, rfl, rfl, rfl, rfl, rfl, rfl, rfl⟩
    · obtain ⟨hfollow, hleave⟩ : (i = .gangFollow o → exec i s = s.run i o gangFollowBody) ∧
          (i = .gangLeave o → exec i s = s.run i o gangLeaveBody) := ⟨by rintro rfl; rfl, by rintro rfl; rfl⟩
      refine ⟨fun hl hq => ?_, fun hl hg hq => ?_, fun hi' hl hg => ?_, fun hi' hl hg => ?_⟩
      · rcases hi with hi | hi
        · rw [hfollow hi]
          exact run_plain h (withGang_follower hh hl hq)
        · rw [hleave hi]
          exact run_plain h ((withGang_follower hh hl hq).trans (congrArg Act.done (if_neg (ne_true_of_eq_false hl))))
      · rcases hi with hi | hi
        · rw [hfollow hi]
          exact run_left h (withGang_waits hh hl hg hq)
        · rw [hleave hi]
          exact run_left h (withGang_waits hh hl hg hq)
      · rw [hfollow hi']
        exact run_plain h (withGang_leader hh hl hg)
      · rw [hleave hi']
        have hb : gangLeaveBody u = .done u.endGang := (withGang_leader hh hl hg).trans (by rw [if_pos hl])
        obtain ⟨v, hv, hr⟩ := run_plain h hb
        obtain ⟨hmem, hgr, hfree⟩ := endGang_spec (s := u)
        obtain ⟨-, -, -, hvgr⟩ := hr.none_me
        refine ⟨v, hv, hr, by rw [hvgr, hgr], by rw [hr.mem, hmem], fun f hf => ?_⟩
        obtain ⟨hidle, hown⟩ := hfree f hf
        have hne : f.1 ≠ u.endGang.curCore := by rw [endGang_curCore]; exact followers_other hf
        exact ⟨by rw [hr.ctx_other hne, hidle], by rw [hr.mill, hown]⟩
    · exact congrArg _ (if_pos hw)
    · intro e ds hl hm hc ho
      obtain ⟨hyes, hno⟩ := claimDue_spec hw hn h hl hm hc ho
      refine ⟨fun hmay => ?_, fun hmay => congrArg _ (hno hmay)⟩
      obtain ⟨t, ht, hr, hgr⟩ := hyes hmay
      exact ⟨t, congrArg _ ht, hr, hgr⟩
end

section
/-! A mill's commands run: they become current, complete and leave the queue (10 R267, R270, R285, R286, 11 R291, R304). -/

namespace Sys2Proof.Machine

variable {s t : State} {c : Nat} {q : MillCmd} {r : List MillCmd}

/-! ### The head of the queue leaves it -/

theorem popMill_mill : ((s.popMill c).core c).mill = { (s.core c).mill with queue := (s.core c).mill.queue.drop 1 } := by
  unfold State.popMill
  dsimp only
  split
  · exact setMill_core_same _ _
  · exact setMill_core_same _ _

theorem popMill_mem : (s.popMill c).mem = s.mem := by
  unfold State.popMill
  dsimp only
  split
  · rfl
  · rfl

theorem popMill_ctx (d k : Nat) : (s.popMill c).ctx d k = s.ctx d k := by
  unfold State.popMill
  dsimp only
  split
  · exact setMill_ctx _ _ _ _
  · exact setMill_ctx _ _ _ _

/-- A mill set, whose head then leaves the queue. -/
theorem popMill_setMill (m : Mill) (hm : m.queue = q :: r) :
    (((s.setMill c m).popMill c).core c).mill = { m with queue := r } := by
  rw [popMill_mill, setMill_core_same, hm]
  rfl

/-! ### A command becomes current (R266, R291) -/

variable {cc : CoreId}

/-- A command is discarded while a trap of the mill is pending. -/
theorem millCurrent_discards (hq : (s.core cc.val).mill.queue = q :: r) (hs : q.started = false)
    (hp : s.performed cc.val q.ctx = true) (hm : (s.core cc.val).mill.pend ≠ 0) :
    s.millCurrent cc = (s.setMill cc.val { (s.core cc.val).mill with
      discarded := if (s.core cc.val).mill.discarded = 7 then 7 else (s.core cc.val).mill.discarded + 1 }).popMill cc.val := by
  unfold State.millCurrent
  dsimp only
  rw [hq]
  dsimp only
  rw [hs, hp, if_neg Bool.false_ne_true, Bool.not_true, if_neg Bool.false_ne_true, if_pos hm]

/-- A command without a scale at fault starts. -/
theorem millCurrent_starts (hq : (s.core cc.val).mill.queue = q :: r) (hs : q.started = false)
    (hp : s.performed cc.val q.ctx = true) (hm : (s.core cc.val).mill.pend = 0)
    (hf : ∀ p, q.mul = some p → p.scaleFault (s.core cc.val).mill (s.bitRows cc.val q p.bma p.pa)
      (s.bitRows cc.val q p.bmb p.pb) = none) :
    s.millCurrent cc = (s.setMill cc.val { (s.core cc.val).mill with
      queue := { q with started := true } :: r
      drainpos := q.beginPos (s.core cc.val).mill.drainpos }).owe (.millCommandComplete cc) := by
  have hb : (q.mul.bind fun u => u.scaleFault (s.core cc.val).mill (s.bitRows cc.val q u.bma u.pa)
      (s.bitRows cc.val q u.bmb u.pb)) = none := by
    cases hu : q.mul with
    | none => rfl
    | some u => exact hf u hu
  unfold State.millCurrent
  dsimp only
  rw [hq]
  dsimp only
  rw [hs, hp, if_neg Bool.false_ne_true, Bool.not_true, if_neg Bool.false_ne_true, if_neg (fun h => h hm), hb]
  cases q.instr <;> rfl

/-! ### A command completes (R267) -/

/-- A command other than a drain, which reads no listed line, has its effect. -/
theorem millComplete_effect (hq : (s.core cc.val).mill.queue = q :: r) (hs : q.started = true) (hb : s.millBad cc.val q = none)
    (hi : ∀ o, q.instr ≠ .jdrain o ∧ q.instr ≠ .jdrainResume o) :
    s.millComplete cc = (s.millEffect cc.val q).popMill cc.val := by
  unfold State.millComplete
  rw [hq]
  dsimp only
  rw [hs, hb, Bool.not_true, if_neg Bool.false_ne_true]
  dsimp only
  split
  · next o h => exact absurd h (hi o).1
  · next o h => exact absurd h (hi o).2
  · rfl

/-- A drain goes by what it comes to. -/
theorem millComplete_drain {o : Ops} (hq : (s.core cc.val).mill.queue = q :: r) (hs : q.started = true)
    (hb : s.millBad cc.val q = none) (hi : q.instr = .jdrain o) :
    (s.drainRun cc.val q = .done t → s.millComplete cc = t.popMill cc.val) ∧
    (∀ q', s.drainRun cc.val q = .waits t q' → s.millComplete cc = (t.setCmd cc.val q').owe (.millCommandComplete cc)) ∧
    (∀ info, s.drainRun cc.val q = .fails t info → s.millComplete cc = s.owe (.drainInterrupted cc) ∧
      s.drainStop cc = (t.setMill cc.val (if (t.core cc.val).mill.pend = 0 then
        { (t.core cc.val).mill with pend := 0x0F, pendinfo := info, discarded := 0 } else (t.core cc.val).mill)).popMill cc.val) := by
  have e : s.millComplete cc = (match s.drainRun cc.val q with
      | .nothing => s.popMill cc.val
      | .done t => t.popMill cc.val
      | .waits t q' => (t.setCmd cc.val q').owe (.millCommandComplete cc)
      | .fails _ _ => s.owe (.drainInterrupted cc)) := by
    unfold State.millComplete
    rw [hq]
    dsimp only
    rw [hs, hb, hi]
    rfl
  refine ⟨fun h => by rw [e, h], fun q' h => by rw [e, h], fun info h => ⟨by rw [e, h], ?_⟩⟩
  unfold State.drainStop
  rw [hq]
  dsimp only
  rw [hs, hi, h]
  rfl

/-! ### What an accumulation of the integer class does (04 R109, R110) -/

theorem isZero_ofInt (k : Int) : (Val.ofInt k).isZero = decide (k = 0) := by
  simp [Val.ofInt, Val.isZero]

theorem sum_filter_ne_zero (ps : List Int) : (ps.filter fun k => !decide (k = 0)).sum = ps.sum := by
  induction ps with
  | nil => rfl
  | cons k ps ih =>
    by_cases hk : k = 0
    · simp [hk, ih]
    · simp [hk, ih]

theorem foldl_add_units (ps : List Int) : ∀ a : Int,
    ((ps.map fun k => (k, false)).foldl (fun acc (x : Int × Bool) => acc + x.1) a) = a + ps.sum := by
  induction ps with
  | nil => intro a; simp
  | cons k ps ih =>
    intro a
    rw [List.map_cons, List.foldl_cons, ih, List.sum_cons]
    omega

theorem foldl_min_zero (l : List Int) : (l.map fun _ => (0 : Int)).foldl min 0 = 0 := by
  induction l with
  | nil => rfl
  | cons k l ih => exact ih

/-- The sum of integers that are not all zero, in units of one. -/
theorem toUnit_units (k : Int) : (Val.fin (decide (k < 0)) k.natAbs 0).toUnit = k := by
  have h : toUnits k.natAbs 0 0 = k.natAbs := by simp [toUnits]
  simp only [Val.toUnit, h]
  exact ofInt_units k

/-- A group of integer products sums exactly. -/
theorem groupSum_ofInt (ps : List Int) : (groupSum 0 (ps.map Val.ofInt)).1.toUnit = ps.sum := by
  have hnan : (ps.map Val.ofInt).any Val.isNaN = false := List.any_eq_false.2 (by simp [Val.ofInt, Val.isNaN])
  have hinf : ∀ n, (ps.map Val.ofInt).any (fun v => v = .inf n) = false := fun n => List.any_eq_false.2 (by simp [Val.ofInt])
  have hfind : (ps.map Val.ofInt).find? Val.isInf = none := List.find?_eq_none.2 (by simp [Val.ofInt, Val.isInf])
  have hnz : (ps.map Val.ofInt).filter (fun p => !p.isZero) = (ps.filter fun k => !decide (k = 0)).map Val.ofInt := by
    rw [List.filter_map]
    congr 1
    exact List.filter_congr fun k _ => by simp [isZero_ofInt]
  unfold groupSum
  dsimp only
  rw [hnan, hinf, hfind, hnz, ← sum_filter_ne_zero ps]
  generalize ps.filter (fun k => !decide (k = 0)) = l
  refine (congrArg (fun x : Val × Flags => x.1.toUnit) (if_neg Bool.false_ne_true)).trans ?_
  cases l with
  | nil => rfl
  | cons k l =>
    refine (congrArg (fun x : Val × Flags => x.1.toUnit) (if_neg Bool.false_ne_true)).trans ?_
    dsimp only
    have hmin : ((k :: l).map fun _ => (0 : Int)).foldl min (((k :: l).map fun _ => (0 : Int)).headD 0) = 0 := by
      rw [List.map_cons, List.headD_cons, List.foldl_cons, min_self]
      exact foldl_min_zero l
    simp only [if_true, List.map_map, Function.comp_def, Val.ofInt, hmin, roundUnits_exact, ofInt_units, foldl_add_units]
    rw [zero_add]
    exact toUnit_units _

/-- One accumulation of the integer class: an exact sum, brought into the range of 32 bits. -/
theorem accumulate_ofInt {cl : MulClass} {mode : Mode} {acc : Nat} {ps : List Int} (hi : cl.int = true) (hf : cl.f64 = false)
    (hp : ps ≠ []) : cl.accumulate mode acc (ps.map Val.ofInt) =
      ((BitVec.ofInt 32 (saturate true 32 ((BitVec.ofNat 32 acc).toInt + ps.sum)).1).toNat,
        raise fSat (saturate true 32 ((BitVec.ofNat 32 acc).toInt + ps.sum)).2) := by
  have he : (ps.map Val.ofInt).isEmpty = false := by simpa using hp
  unfold MulClass.accumulate
  rw [he, hf, hi, groupSum_ofInt]
  rfl

/-! ### Effects -/

/-- A command that leaves the queue as it is completes with its mill, less the head of the queue. -/
theorem complete_mill {m : Mill} (hq : (s.core cc.val).mill.queue = q :: r) (hs : q.started = true)
    (hb : s.millBad cc.val q = none) (hi : ∀ o, q.instr ≠ .jdrain o ∧ q.instr ≠ .jdrainResume o)
    (he : s.millEffect cc.val q = s.setMill cc.val m) (hm : m.queue = q :: r) :
    ∃ t, exec (.millCommandComplete cc) s = .next t ∧ (t.core cc.val).mill = { m with queue := r } :=
  ⟨_, rfl, by rw [millComplete_effect hq hs hb hi, he, popMill_setMill m hm]⟩

theorem setWork_queue (m : Mill) (b : Map Row) : (m.setWork b).queue = m.queue := by
  unfold Mill.setWork
  split
  · rfl
  · rfl

theorem setWork_clear (m : Mill) : { m.setWork [] with jstat := 0, drainpos := 0 } = { m with
    jstat := 0, drainpos := 0, bank0 := if m.vis1 then [] else m.bank0, bank1 := if m.vis1 then m.bank1 else [] } := by
  unfold Mill.setWork
  cases m.vis1 with
  | false => rfl
  | true => rfl

theorem clearVisible (m : Mill) : (if m.vis1 then { m with bank1 := [] } else { m with bank0 := [] }) = { m with
    bank0 := if m.vis1 then m.bank0 else [], bank1 := if m.vis1 then [] else m.bank1 } := by
  cases m.vis1 with
  | false => rfl
  | true => rfl

theorem mulEffect_queue (p : Mul) : (s.mulEffect c q p).1.queue = (s.core c).mill.queue := setWork_queue _ _

/-- A product has its effect on the mill, and its flags go to the context's FPSTATUS. -/
theorem complete_product {p : Mul} {o : Ops} {f : MulMode} (hq : (s.core cc.val).mill.queue = q :: r) (hs : q.started = true)
    (hb : s.millBad cc.val q = none) (hi : q.instr = .mmul o f) (hp : q.mul = some p) :
    ∃ t, exec (.millCommandComplete cc) s = .next t ∧
      (t.core cc.val).mill = { (s.mulEffect cc.val q p).1 with queue := r } ∧ t.mem = s.mem ∧
      (t.ctx cc.val q.ctx).fpstatus = (s.ctx cc.val q.ctx).fpstatus ||| (s.mulEffect cc.val q p).2.setWidth 64 := by
  have he : s.millEffect cc.val q =
      (s.setMill cc.val (s.mulEffect cc.val q p).1).orFlags cc.val q.ctx (s.mulEffect cc.val q p).2 := by
    unfold State.millEffect
    rw [hi, hp]
  refine ⟨_, rfl, ?_⟩
  rw [millComplete_effect hq hs hb (by simp [hi]), he]
  refine ⟨?_, popMill_mem, ?_⟩
  · rw [popMill_mill, State.orFlags, setCtx_core_mill, setMill_core_same, mulEffect_queue, hq]
    rfl
  · rw [popMill_ctx, State.orFlags, setCtx_ctx_same, setMill_ctx]

end Sys2Proof.Machine

open Sys2Proof Sys2Proof.Machine

/-- Settles O43: the events of a mill's queue by their cases, the ramp, and the integer accumulation. -/
theorem millCommandsRun : Obligations.MillCommandsRun := by
  refine ⟨fun s c => ?_, fun cl mode acc ps hi hf hp => ?_⟩
  · intro m milled
    refine ⟨fun q r hq hs hp => ⟨fun hm => ?_, fun hm hf => ?_⟩, fun q r hq hs hb => ?_, fun h => ?_, fun h => ?_⟩
    · exact ⟨_, rfl, by rw [millCurrent_discards hq hs hp hm]; exact popMill_setMill (q := q) _ hq⟩
    · exact ⟨_, rfl, by rw [millCurrent_starts hq hs hp hm hf]; exact setMill_core_same _ _⟩
    · refine ⟨fun o hi => ?_, fun o hi => ?_, fun o hi => ?_, fun o hi => ?_, fun o f p hi hp => complete_product hq hs hb hi hp,
        fun o hi => ?_, fun o t hi => ?_⟩
      · have he : s.millEffect c.val q = s.setMill c.val { m with vis1 := !m.vis1 } := by unfold State.millEffect; rw [hi]
        exact complete_mill hq hs hb (by simp [hi]) he hq
      · have he : s.millEffect c.val q = s.setMill c.val { m with
            jstat := 0, drainpos := 0, bank0 := if m.vis1 then [] else m.bank0, bank1 := if m.vis1 then m.bank1 else [] } := by
          unfold State.millEffect
          rw [hi, ← setWork_clear]
        exact complete_mill hq hs hb (by simp [hi]) he hq
      · have he : s.millEffect c.val q = s.setMill c.val { m with
            bank0 := if m.vis1 then m.bank0 else [], bank1 := if m.vis1 then [] else m.bank1 } := by
          unfold State.millEffect
          rw [hi, ← clearVisible]
        exact complete_mill hq hs hb (by simp [hi]) he hq
      · have he : s.millEffect c.val q = s.setMill c.val { m with
            recA := q.descA.setWidth 128
            scaleA := s.loadScales c.val q.ctx m.scaleA (memDesc (q.descA.setWidth 128)) (pieceA q.rank) } := by
          unfold State.millEffect
          rw [hi]
          rfl
        exact complete_mill hq hs hb (by simp [hi]) he hq
      · have he : s.millEffect c.val q = s.setMill c.val { m with
            recB := q.descA.setWidth 128
            scaleB := s.loadScales c.val q.ctx m.scaleB (memDesc (q.descA.setWidth 128)) (pieceB q.rank) } := by
          unfold State.millEffect
          rw [hi]
          rfl
        exact complete_mill hq hs hb (by simp [hi]) he hq
      · obtain ⟨hdone, hwaits, hfails⟩ := millComplete_drain (t := t) hq hs hb hi
        refine ⟨fun h => ?_, fun q' h => ?_, fun info h => ?_⟩
        · exact ⟨_, rfl, by rw [hdone h, popMill_mem], by rw [hdone h, popMill_mill]⟩
        · exact ⟨_, rfl, by rw [hwaits q' h]; rfl, by rw [hwaits q' h]; exact setMill_core_same _ _⟩
        · obtain ⟨hc, hst⟩ := hfails info h
          refine ⟨congrArg _ hc, fun hpend => ⟨_, rfl, ?_⟩⟩
          rw [hst, if_pos hpend, popMill_mem, popMill_mill, setMill_core_same]
          exact ⟨rfl, rfl, rfl, rfl, rfl⟩
    · exact ⟨_, rfl, by rw [if_pos h]; exact setMill_core_same _ _⟩
    · exact ⟨_, rfl, by rw [if_neg (ne_true_of_eq_false h)]; exact setMill_core_same _ _⟩
  · intro sum q
    rw [accumulate_ofInt hi hf hp, saturate_32]
end

section
/-! A SPAWN while a posted store of its context is on its way: the case that `Obligations.TasksComplete` leaves in. -/
namespace Sys2Proof.Machine

/-- SPAWN of the word after the next one, with the `fp` in s2. -/
def plainSpawn : Ops := { sw := false, ext := none, lit := none, d := 0, a := 2, b := 2 }

/-- A context that runs a strand and whose posted store to another hamlet has not been applied yet. -/
def State.storeOnItsWay : State :=
  { State.reset with
    cores := [(0, { ctxs := [(0, { status := .running, strand := some {} })] })]
    flight := [{ id := 1, core := 0, ctx := 0, pkg := 0, home := 0x100000, cnt := 1, tag := none
                 body := .store 0x100000 [(0, 1)] false, pc := 0, applied := false }] }

/-- The hold of the acting context after an instruction. -/
def holdAfter (i : Instr) (s : State) : Option Hold :=
  match exec i s with
  | .next v => some v.me.hold
  | _ => none

/-- SPAWN's release at CORE scope (06 R148) waits for the store: the context holds. -/
theorem storeOnItsWay_holds : holdAfter (.spawn plainSpawn) State.storeOnItsWay = some .wait := by decide +kernel

/-- Every premise that the statement makes for SPAWN holds. -/
theorem storeOnItsWay_goes :
    State.storeOnItsWay.goes (.spawn plainSpawn) plainSpawn = true ∧
    State.storeOnItsWay.onHandler = false ∧ State.storeOnItsWay.me.follows = false ∧
    State.storeOnItsWay.me.strand = some {} ∧ State.storeOnItsWay.locsFault [scLoc plainSpawn plainSpawn.a] = none ∧
    (State.storeOnItsWay.scOp plainSpawn plainSpawn.a).extractLsb' 0 4 = 0 ∧ State.storeOnItsWay.pushFault {} = none ∧
    State.storeOnItsWay.me.returned = true := by decide +kernel

end Sys2Proof.Machine

open Sys2Proof Sys2Proof.Machine

/-- Refutes O44: of what SPAWN's release at CORE scope waits for, its premises name the outstanding results only. With a posted store
on its way, the context holds instead of going on at the target. -/
theorem not_tasksComplete : ¬ Obligations.TasksComplete := by
  unfold Obligations.TasksComplete
  intro h
  obtain ⟨hgoes, hhandler, hfollows, hstrand, hloc, halign, hpush, hret⟩ := storeOnItsWay_goes
  obtain ⟨hspawn, -⟩ := h State.storeOnItsWay plainSpawn {} hhandler hfollows hstrand
  obtain ⟨-, hgoesOn⟩ := hspawn hgoes hloc
  obtain ⟨v, hexec, ⟨-, -, hhold, -⟩, -⟩ := hgoesOn halign hpush hret
  have hwaits := storeOnItsWay_holds
  rw [holdAfter, hexec] at hwaits
  rw [Option.some.inj hwaits] at hhold
  exact absurd hhold (by decide)

end

section
/-! The end of a strand, and donations (02 R34, R51, 11 R308, 12 R319, R320). -/

namespace Sys2Proof.Machine

variable {s t u v : State} {i : Instr} {o : Ops} {c q : Nat} {d : Strand}

/-! ### What an instruction that retires leaves -/

/-- The fields of the acting context that an instruction's retirement does not touch. -/
theorem Retires.me_fields {rs : List Result} {tgt : Option Word} (h : Retires u v o rs tgt) :
    v.me.store = u.me.store ∧ v.me.status = u.me.status ∧ v.me.strand = u.me.strand := by
  obtain ⟨⟨x, hv, hx⟩, _⟩ := h
  refine ⟨?_, ?_, ?_⟩ <;> rw [hv, setMe_me, hx]

theorem setMe_deques (x : Ctx) (c : Nat) : ((s.setMe x).core c).deques = (s.core c).deques := by
  by_cases hc : c = s.curCore
  · subst hc; simp [State.setMe, State.setCtx]
  · rw [State.setMe, State.setCtx, setCore_core_other _ _ _ hc]

theorem Retires.deques {rs : List Result} {tgt : Option Word} (h : Retires u v o rs tgt) (c : Nat) :
    (v.core c).deques = (u.core c).deques := by
  obtain ⟨⟨x, hv, _⟩, _⟩ := h
  rw [hv, setMe_deques]

/-! ### The slots of a deque replaced (03 R71, R74) -/

theorem look_mapEntries {α : Type} {d₀ : α} {F : α → α} (hF : F d₀ = d₀) (m : Map α) (k : Nat) :
    look d₀ (m.map fun e => (e.1, F e.2)) k = F (look d₀ m k) := by
  induction m with
  | nil => exact hF.symm
  | cons e m ih =>
    obtain ⟨j, x⟩ := e
    by_cases hj : j = k
    · simp [look, hj]
    · simp only [List.map_cons, look, if_neg hj]
      exact ih

/-- A state but for the headers of its strands: of what a context holds the rest is as it was. -/
structure HeadersOnly (s t : State) : Prop where
  mem : t.mem = s.mem
  core : t.curCore = s.curCore
  cur : t.curCtx = s.curCtx
  ctx : ∀ e k, ∃ g : Strand → Strand, t.ctx e k = { s.ctx e k with strand := (s.ctx e k).strand.map g }

namespace HeadersOnly

theorem refl (s : State) : HeadersOnly s s := by
  refine ⟨rfl, rfl, rfl, fun e k => ⟨id, ?_⟩⟩
  rw [Option.map_id]
  rfl

theorem trans (h : HeadersOnly s t) (h' : HeadersOnly t u) : HeadersOnly s u := by
  refine ⟨h'.mem.trans h.mem, h'.core.trans h.core, h'.cur.trans h.cur, fun e k => ?_⟩
  obtain ⟨g, e1⟩ := h.ctx e k
  obtain ⟨g', e2⟩ := h'.ctx e k
  exact ⟨g' ∘ g, by rw [e2, e1, ← Option.map_map]⟩

/-- The acting context. -/
theorem me (h : HeadersOnly s t) : ∃ g : Strand → Strand, t.me = { s.me with strand := s.me.strand.map g } := by
  obtain ⟨g, e⟩ := h.ctx s.curCore s.curCtx
  exact ⟨g, by rw [State.me, h.core, h.cur, e]; rfl⟩

/-- A core replaced by one with the same contexts. -/
theorem setCore (c : Nat) {co : Core} (h : co.ctxs = (s.core c).ctxs) : HeadersOnly s (s.setCore c co) := by
  refine ⟨rfl, rfl, rfl, fun e k => ⟨id, ?_⟩⟩
  rw [Option.map_id]
  by_cases he : e = c
  · subst he; rw [State.ctx, setCore_core_same, h]; rfl
  · rw [State.ctx, setCore_core_other _ _ _ he]; rfl

theorem setHam (h : Nat) (x : Hamlet) : HeadersOnly s (s.setHam h x) := by
  refine ⟨rfl, rfl, rfl, fun e k => ⟨id, ?_⟩⟩
  rw [Option.map_id]
  rfl

end HeadersOnly

/-- A strand's header replaced by its deque: each context keeps all but its strand's header. -/
theorem onDeque_headers (f : Strand → Strand) : HeadersOnly s (s.onDeque c q f) := by
  refine ⟨rfl, rfl, rfl, fun e k => ?_⟩
  by_cases he : e = c
  · subst he
    refine ⟨fun d => if d.deque = some q then f d else d, ?_⟩
    unfold State.onDeque
    rw [setHam_ctx, State.ctx, setCore_core_same]
    exact look_mapEntries (F := fun x : Ctx => { x with strand := x.strand.map fun d => if d.deque = some q then f d else d }) rfl _ _
  · refine ⟨id, ?_⟩
    unfold State.onDeque
    rw [setHam_ctx, State.ctx, setCore_core_other _ _ _ he, Option.map_id]
    rfl

theorem remask_headers : HeadersOnly s (s.remask c) := .setHam _ _

theorem setSlots_headers (l : List Slot) : HeadersOnly s (s.setSlots c q l) := by
  unfold State.setSlots
  dsimp only
  refine HeadersOnly.trans ?_ remask_headers
  split
  · exact (HeadersOnly.setCore c (by rfl)).trans (onDeque_headers _)
  · exact .setCore c rfl

theorem ownerTakes_headers : HeadersOnly s (s.ownerTakes c q) := by
  unfold State.ownerTakes
  dsimp only
  split
  · split
    · exact .setCore c rfl
    · exact .refl s
  · exact .refl s

/-- Slots that are not none are the deque's. -/
theorem setSlots_deques {l : List Slot} (h : l ≠ []) : look [] ((s.setSlots c q l).core c).deques q = l := by
  have he : l.isEmpty = false := List.isEmpty_eq_false_iff.2 h
  unfold State.setSlots
  dsimp only
  rw [he, if_neg Bool.false_ne_true]
  show look [] ((s.setCore c _).core c).deques q = l
  rw [setCore_core_same, look_put_same]

/-! ### TEND (02 R34, 12 R319) -/

/-- A strand that has nothing else to wait for comes to the first case of R34. -/
theorem tend_endCase (hh : s.onHandler = false) (hf : s.me.follows = false) (hs : s.me.strand = some d) (hl : s.me.leads = false)
    (hq : s.millQuiet = true) (ho : s.ownsMill = false) (ht : s.me.tokens = 0xFF) (hm : s.me.marks = []) (hd : d.synch = 0) :
    tendBody o s = s.endCase d := by
  have hg : s.freeMill = s := by rw [State.freeMill, ho]; rfl
  have hk : s.dropMarks = s := by rw [State.dropMarks, hm]; rfl
  unfold tendBody
  rw [hh, hf, withGang_follower hh hl hq]
  simp only [hl, Bool.false_eq_true, if_false, hg, ht, ne_eq, not_true_eq_false, hs, hk]
  exact if_pos hd

theorem tend_follower (hh : s.onHandler = false) (hf : s.me.follows = true) (hq : s.millQuiet = true) :
    tendBody o s = .done s := by
  unfold tendBody
  rw [hh, hf, withMill_quiet hq]
  rfl

/-- The header that a popped continuation gives its strand. -/
def headerOf (f : Frame) (d : Strand) : Strand :=
  { d with
    base := f.parentj, synch := f.synch, fp := f.fp, prio := f.prio, features := f.features, tile := f.tile
    root := f.root, donated := f.donated, originpkg := f.originpkg, originh := f.originh, kind := f.kind, arg := f.arg }

/-- The state in which the tail continuation of a deque runs next. -/
def State.poppedTo (s : State) (q : Nat) (l : List Slot) (f : Frame) : State :=
  let t := (s.ownerTakes s.curCore q).setSlots s.curCore q l.dropLast
  t.setMe { t.me with strand := t.me.strand.map (headerOf f) }

/-- The tail continuation is popped. -/
theorem endCase_frame {l : List Slot} {f : Frame} {n : Nat} (hl : s.myCore.slotsOf d = l) (hq : d.deque = some q)
    (hf : l.getLast? = some { item := .frame f, spilled := false, stamp := n }) (hk : f.kind = 0) (hd : s.donating = false) :
    s.endCase d = .jump (s.poppedTo q l f) (sext57 f.pc) := by
  subst hl
  unfold State.endCase
  simp only [hq, hf, hd, Bool.false_eq_true, if_false]
  unfold State.popFrame
  dsimp only
  rw [if_pos hk]
  rfl

theorem poppedTo_spec {l : List Slot} {f : Frame} (hs : s.me.strand = some d) :
    (s.poppedTo q l f).mem = s.mem ∧ (s.poppedTo q l f).me.store = s.me.store ∧ (s.poppedTo q l f).me.status = s.me.status ∧
      (∃ e, (s.poppedTo q l f).me.strand = some (headerOf f e)) ∧
      (l.length ≠ 1 → l ≠ [] → look [] ((s.poppedTo q l f).core s.curCore).deques q = l.dropLast) := by
  have hh : HeadersOnly s ((s.ownerTakes s.curCore q).setSlots s.curCore q l.dropLast) :=
    ownerTakes_headers.trans (setSlots_headers _)
  obtain ⟨g, hg⟩ := hh.me
  refine ⟨hh.mem, ?_, ?_, ⟨g d, ?_⟩, fun h1 h0 => ?_⟩
  · rw [State.poppedTo, setMe_me, hg]
  · rw [State.poppedTo, setMe_me, hg]
  · rw [State.poppedTo, setMe_me, hg, hs]
    rfl
  · rw [State.poppedTo, setMe_deques]
    refine setSlots_deques fun he => ?_
    have := congrArg List.length he
    rw [List.length_dropLast, List.length_nil] at this
    have := List.length_pos_iff.2 h0
    omega

/-! ### A strand with an empty deque -/

/-- With an empty deque, no origin and no root, the strand's join counts, or nothing is left to do. -/
theorem endCase_empty (hl : s.myCore.slotsOf d = []) (hd : d.donated = false) (hr : d.root = false) :
    s.endCase d = if d.base ≠ 0 then s.endOn d.base s.objScope fun t => t.dropSynch.gone
      else s.withRelease .hamlet false fun t => t.dropSynch.gone := by
  unfold State.endCase
  rw [hl]
  cases hq : d.deque <;> simp [hd, hr]

theorem dropSynch_none (hs : s.me.strand = some d) (hd : d.synch = 0) : s.dropSynch = s := by
  unfold State.dropSynch State.mySynch
  rw [hs]
  exact if_pos (by simp [hd])

/-- A count above one counts down and wakes nobody. -/
theorem addCount_above {hd : BitVec 32} (h : 1 < (s.future hd).value.toInt) :
    s.addCount hd (-1) = s.setFuture hd { s.future hd with value := (s.future hd).value - 1 } := by
  have hv : ¬ ((s.future hd).value + (-1)).toInt ≤ 0 := by
    have hx := BitVec.toInt_lt (x := (s.future hd).value)
    rw [BitVec.toInt_add, show (-1 : Word).toInt = -1 from by decide, Int.bmod_eq_of_le (by omega) (by omega)]
    omega
  unfold State.addCount
  dsimp only
  rw [decide_eq_false hv, Bool.and_false, if_neg Bool.false_ne_true, BitVec.sub_eq_add_neg]

@[simp] theorem setFuture_future_same (hd : BitVec 32) (f : Future) : (s.setFuture hd f).future hd = f := by
  rw [State.future, State.setFuture, setHam_ham_same, look_put_same]

/-- A strand that has gone leaves its context IDLE. -/
theorem gone_me : s.gone = .left (s.toIdle s.curCore s.curCtx) ∧ (s.toIdle s.curCore s.curCtx).me.status = .idle ∧
    (s.toIdle s.curCore s.curCtx).me.strand = none := by
  have h : (s.toIdle s.curCore s.curCtx).me = (s.ctx s.curCore s.curCtx).idled := setMe_me _ _
  exact ⟨rfl, by rw [h]; rfl, by rw [h]; rfl⟩

/-- A decrement by the end of a strand, once its release is done. -/
theorem endOn_ready {hd : BitVec 32} {sc : Scope} {k : State → Act} (hs : s.stale (hamOf s.curCore) hd = false)
    (hr : s.releaseReady sc false = true) (hb : (s.release sc).objBusy (hdHam hd) = false) :
    s.endOn hd sc k = k ((s.release sc).addCount hd (-1)) := by
  unfold State.endOn State.fresher
  rw [hs, withRelease_ready hr, hb]
  rfl

theorem release_future (sc : Scope) (hd : BitVec 32) : (s.release sc).future hd = s.future hd := by
  obtain ⟨_, _, e⟩ := (release_homeOnly (s := s) sc).ham (hdHam hd)
  rw [State.future, e]
  rfl

/-! ### The core that acts stays -/

theorem saveRead_curCore (c k : Nat) (d : Strand) (va : Word) (n : Nat) : (s.saveRead c k d va n).2.curCore = s.curCore := by
  unfold State.saveRead
  dsimp only
  split
  · rfl
  · next hr =>
    split
    · exact (resolveFor_tlbOnly hr).curCore
    · exact (resolveFor_tlbOnly hr).curCore
  · next hr =>
    split
    · exact (resolveFor_tlbOnly hr).curCore
    · exact (readPlace_homeOnly _ _ _ _ _).curCore.trans (resolveFor_tlbOnly hr).curCore

theorem saveGet_curCore (c k : Nat) (d : Strand) (va : Word) (n : Nat) : (s.saveGet c k d va n).2.curCore = s.curCore := by
  unfold State.saveGet
  generalize lineParts va n = l
  suffices h : ∀ acc : List Byte × State, (l.foldl (fun acc q =>
      (acc.1 ++ (acc.2.saveRead c k d (va + BitVec.ofNat 64 q.1) q.2).1, (acc.2.saveRead c k d (va + BitVec.ofNat 64 q.1) q.2).2))
      acc).2.curCore = acc.2.curCore from h ([], s)
  induction l with
  | nil => exact fun _ => rfl
  | cons q l ih => exact fun acc => (ih _).trans (saveRead_curCore _ _ _ _ _)

theorem dequeTiles_curCore (f : Frame) : (s.dequeTiles c q f).2.curCore = s.curCore := by
  unfold State.dequeTiles
  split
  · unfold State.tilesOf
    dsimp only
    split
    · rfl
    · split
      · rfl
      · exact saveGet_curCore _ _ _ _ _
  · rfl

theorem addCount_curCore (hd : BitVec 32) (v : Word) : (s.addCount hd v).curCore = s.curCore := by
  unfold State.addCount
  dsimp only
  split
  · exact wake_wakeOnly.curCore
  · rfl

theorem bump_curCore (h : Nat) (hd : BitVec 32) (v : Word) : (s.bump h hd v).curCore = s.curCore := by
  unfold State.bump
  split
  · rfl
  · exact addCount_curCore _ _

theorem allocFuture_curCore {h : Nat} {k : FKind} {v : Word} {r : BitVec 32 × State} (hr : s.allocFuture h k v = some r) :
    r.2.curCore = s.curCore := by
  unfold State.allocFuture at hr
  split at hr
  · exact nomatch hr
  · rw [← Option.some.inj hr]; rfl

theorem donateCounts_curCore {f g : Frame} {x : State} (h : s.donateCounts f = some (g, x)) : x.curCore = s.curCore := by
  unfold State.donateCounts at h
  dsimp only at h
  split at h
  · obtain ⟨r, hr, he⟩ := Option.map_eq_some_iff.1 h
    have hx : x = r.2.bump (hamOf s.curCore) r.1.synch 1 := (congrArg Prod.snd he).symm
    rw [hx, bump_curCore]
    unfold State.departSynch at hr
    split at hr
    · rw [← Option.some.inj hr, bump_curCore]
    · obtain ⟨a, ha, hb⟩ := Option.map_eq_some_iff.1 hr
      rw [← hb]
      exact allocFuture_curCore ha
  · have hx : x = s.bump (hamOf s.curCore) f.synch 1 := (congrArg Prod.snd (Option.some.inj h)).symm
    rw [hx, bump_curCore]

/-! ### DONATE (02 R51, 12 R320) -/

theorem donate_reserved (hh : s.onHandler = false) (hf : s.me.follows = false) (hl : s.locsFault [scLoc o o.a] = none)
    (hw : (s.scOp o o.a).extractLsb' 24 40 ≠ 0) : donateBody o s = .trap 0x01 (baseInfo (.donate o)) := by
  have hw' : fld (s.scOp o o.a) 63 24 ≠ 0 := fun h => hw (BitVec.eq_of_toNat_eq h)
  unfold donateBody
  dsimp only
  rw [hh, hf, hl]
  simp [hw', illegal]

/-- DONATE of a strand without a deque answers 2. -/
theorem donate_none (hh : s.onHandler = false) (hf : s.me.follows = false) (hl : s.locsFault [scLoc o o.a, scLoc o o.d] = none)
    (hw : (s.scOp o o.a).extractLsb' 24 40 = 0) (hs : s.me.strand = some d) (hd : d.deque = none) :
    donateBody o s = .done (s.var [cellAt (scAddr o o.d) 8 2]) := by
  have hw' : fld (s.scOp o o.a) 63 24 = 0 := congrArg BitVec.toNat hw
  unfold donateBody
  dsimp only
  rw [hh, hf, within_ok hl, hs]
  simp [hw', hd]

/-- DONATE with its operands in order, of a strand with a deque, goes by the oldest published frame once its release is done. -/
theorem donate_ready (hh : s.onHandler = false) (hf : s.me.follows = false) (hl : s.locsFault [scLoc o o.a, scLoc o o.d] = none)
    (hw : (s.scOp o o.a).extractLsb' 24 40 = 0) (hs : s.me.strand = some d) (hd : d.deque = some q)
    (hr : s.releaseReady .sys false = true) :
    let t := s.release .sys
    let m := look [] t.myCore.deques q
    let p : BitVec 20 := (s.scOp o o.a).extractLsb' 0 20
    (openSlot m = none → donateBody o s = .done (t.var [cellAt (scAddr o o.d) 8 2])) ∧
    ∀ i f, openSlot m = some i → (m[i]?.bind Slot.frame?) = some f →
      (p = t.pkgid → donateBody o s = t.donateHere o (s.scOp o o.a) q i f) ∧
      (p ≠ t.pkgid → t.portMask p = 0 →
        donateBody o s = .done ((t.donationRecord t.curCore 0).var [cellAt (scAddr o o.d) 8 3])) := by
  intro t m p
  have hw' : fld (s.scOp o o.a) 63 24 = 0 := congrArg BitVec.toNat hw
  have e : donateBody o s = s.withRelease .sys false fun t =>
      let l := look [] t.myCore.deques q
      match openSlot l with
      | none => .done (t.var [cellAt (scAddr o o.d) 8 2])
      | some i =>
        match (l[i]?.bind Slot.frame?) with
        | none => .done (t.var [cellAt (scAddr o o.d) 8 2])
        | some f =>
          if p = t.pkgid then t.donateHere o (s.scOp o o.a) q i f
          else if t.portMask p = 0 then .done ((t.donationRecord t.curCore 0).var [cellAt (scAddr o o.d) 8 3])
          else if t.deadPeer p then .done (t.var [cellAt (scAddr o o.d) 8 3])
          else t.donateAway o (s.scOp o o.a) q i f := by
    unfold donateBody
    dsimp only
    rw [hh, hf, within_ok hl, hs]
    simp only [Bool.false_eq_true, if_false, hw', ne_eq, not_true_eq_false, decide_false, Bool.and_false, Option.bind_some, hd]
    rfl
  rw [withRelease_ready hr] at e
  rw [e]
  dsimp only
  refine ⟨fun h => ?_, fun i f h hfr => ⟨fun hp => ?_, fun hp hm => ?_⟩⟩
  · rw [h]
  · rw [h]
    dsimp only
    rw [hfr]
    exact if_pos hp
  · rw [h]
    dsimp only
    rw [hfr]
    exact (if_neg hp).trans (if_pos hm)

/-- A donation to a full queue of the own package answers 1. -/
theorem donateHere_full {w : Word} {i : Nat} {f : Frame}
    (h : (look ({} : DonQueue) s.hub.donqs (w.extractLsb' 20 4).toNat).cap ≤
      (look ({} : DonQueue) s.hub.donqs (w.extractLsb' 20 4).toNat).frames.length) :
    s.donateHere o w q i f = .done (s.var [cellAt (scAddr o o.d) 8 1]) := by
  unfold State.donateHere
  dsimp only
  exact if_pos h

/-- A donation to a queue of the own package with room leaves its deque and is acknowledged at once. -/
theorem donateHere_room {w : Word} {i : Nat} {f g : Frame} {x : State}
    (h : (look ({} : DonQueue) s.hub.donqs (w.extractLsb' 20 4).toNat).frames.length <
      (look ({} : DonQueue) s.hub.donqs (w.extractLsb' 20 4).toNat).cap) (hg : s.donateCounts f = some (g, x)) (hc : x.curCore = c)
    (hc2 : (x.dequeTiles c q f).2.curCore = c) :
    let r := x.dequeTiles c q f
    let e := r.2.donateLeave c q i g
    let y := e.2.setMyHam { e.2.myHam with sent := e.2.myHam.sent + 1, received := e.2.myHam.received + 1 }
    s.donateHere o w q i f =
      .done ((y.donation y.pkgid (w.extractLsb' 20 4) (y.stamped e.1) r.1).2.var [cellAt (scAddr o o.d) 8 0]) := by
  intro r e y
  unfold State.donateHere
  dsimp only
  rw [hg]
  refine (if_neg (Nat.not_le.2 h)).trans ?_
  dsimp only
  rw [hc, hc2]

end Sys2Proof.Machine

open Sys2Proof Sys2Proof.Machine

/-- Settles O45: TEND by the first case of R34 that applies, DONATE by what its release leaves. -/
theorem strandEndsAndDonations : Obligations.StrandEndsAndDonations := by
  refine ⟨fun s o d => ?_, fun s o => ?_⟩
  · intro u c l out hh hf hs
    refine ⟨fun h hl hq ho ht hm hd => ?_, fun h hl hw => run_trap (body := donateBody o) h (donate_reserved hh hf hl hw),
      fun h hl hw => ⟨fun hd => ?_, fun q hd hr => ?_⟩⟩
    · have hb : tendBody o u = u.endCase d := tend_endCase hh hf hs hl hq ho ht hm hd
      refine ⟨fun q f n hdq hlast hk hdon => ?_, fun hl0 hdon hroot => ?_⟩
      · obtain ⟨v, hv, hr⟩ := run_jump (body := tendBody o) (rs := []) h (hb.trans (endCase_frame rfl hdq hlast hk hdon))
          (fun _ => rfl) (by rw [List.append_nil])
        obtain ⟨hmem, hst, hstat, ⟨e, hstr⟩, hdeq⟩ := poppedTo_spec (q := q) (l := l) (f := f) hs
        obtain ⟨rst, rstat, rstr⟩ := hr.me_fields
        obtain ⟨-, -, -, hpc⟩ := id hr
        have hne : l ≠ [] := fun h0 => by rw [h0] at hlast; exact nomatch hlast
        refine ⟨v, hv, hr.mem.trans hmem, hpc (.inr rfl), rst.trans hst, rstat.trans hstat, fun h1 => ?_, ?_⟩
        · rw [hr.deques]
          exact hdeq h1 hne
        · rw [rstr, hstr]
          exact ⟨rfl, rfl, rfl, rfl⟩
      · have he := hb.trans (endCase_empty hl0 hdon hroot)
        refine ⟨fun hbase hrel => ?_, fun hbase hstale hrel hbusy hval => ?_⟩
        · rw [if_neg (fun h => h hbase), withRelease_ready hrel] at he
          have hrs : (u.release .hamlet) = u := rfl
          rw [hrs, dropSynch_none hs hd] at he
          obtain ⟨hgone, hidle, hnone⟩ := gone_me (s := u)
          exact ⟨_, run_left (body := tendBody o) h (he.trans hgone), rfl, hidle, hnone⟩
        · rw [if_pos hbase, endOn_ready hstale hrel hbusy, addCount_above (by rw [release_future]; exact hval), release_future] at he
          have hme : ∀ f, ((u.release u.objScope).setFuture d.base f).me = u.me := fun _ => (release_homeOnly u.objScope).me
          rw [dropSynch_none ((congrArg Ctx.strand (hme _)).trans hs) hd] at he
          obtain ⟨hgone, hidle, hnone⟩ := gone_me (s := (u.release u.objScope).setFuture d.base
            { u.future d.base with value := (u.future d.base).value - 1 })
          have hf' : ∀ x : State, (x.toIdle x.curCore x.curCtx).future d.base = x.future d.base := fun _ => rfl
          refine ⟨_, run_left (body := tendBody o) h (he.trans hgone), hidle, hnone, ?_, ?_⟩
          · rw [hf', setFuture_future_same]
          · rw [hf', setFuture_future_same]
    · exact run_push (body := donateBody o) h (donate_none hh hf hl hw hs hd)
    · intro t m qu
      obtain ⟨hnone, hsome⟩ := donate_ready hh hf hl hw hs hd hr
      refine ⟨fun ho => run_push_on (body := donateBody o) h (hnone ho), fun i f ho hfr hp hmask => ?_, fun i f ho hfr hp => ?_⟩
      · obtain ⟨v, hv, hret⟩ := run_push_on (body := donateBody o) h ((hsome i f ho hfr).2 hp hmask)
        refine ⟨v, hv, hret, ?_⟩
        have hrec := record_homeOnly (s := t) { event := 0x0D, cls := 0, seq := t.seqOf t.curCore, core := t.curCore }
        have hcore : v.curCore = t.curCore := by
          obtain ⟨⟨x, hx, -⟩, -⟩ := hret
          rw [hx]
          exact hrec.curCore
        rw [State.myCore, hcore, hret.deques]
        exact congrArg Core.deques (hrec.core _)
      · have hb := (hsome i f ho hfr).1 hp
        refine ⟨fun hcap => run_push_on (body := donateBody o) h (hb.trans (donateHere_full hcap)), fun hcap g w hg => ?_⟩
        have hc : w.curCore = c := (donateCounts_curCore hg).trans (release_homeOnly _).curCore
        exact run_push_on (body := donateBody o) h
          (hb.trans (donateHere_room hcap hg hc ((dequeTiles_curCore _).trans hc)))
  · intro u h hh hf hq
    exact run_plain (body := tendBody o) h (tend_follower hh hf hq)
end

section
/-! Futures (02 R44 to R46, 12 R321 to R324). -/

namespace Sys2Proof.Machine

variable {s t u v : State} {i : Instr} {o : Ops} {hd : BitVec 32} {h e : Nat}

/-! ### Handles and entries -/

theorem handleOf_parts {g : BitVec 12} (hh : h < 256) (he : e < 4096) :
    hdHam (handleOf g h e) = h ∧ hdIdx (handleOf g h e) = e := by
  have hg := g.isLt
  have hv : (handleOf g h e).toNat = g.toNat * 2 ^ 20 + h * 2 ^ 12 + e := by
    rw [handleOf, BitVec.toNat_ofNat, Nat.mod_eq_of_lt hh, Nat.mod_eq_of_lt he, Nat.mod_eq_of_lt (by omega)]
  unfold hdHam hdIdx fld
  rw [hv, Nat.shiftRight_eq_div_pow, Nat.shiftRight_eq_div_pow]
  omega

theorem freeEntry_lt (h : s.freeEntry h = some e) : e < 4096 := by
  unfold State.freeEntry at h
  dsimp only at h
  split at h
  · exact nomatch h
  · have hm := List.mem_of_getElem? h
    have hr := List.mem_range.1 (List.mem_of_mem_filter hm)
    omega

/-- A future set changes that entry and no other. -/
theorem setFuture_other {f : Future} {g e : Nat} (hne : g ≠ hdHam hd ∨ e ≠ hdIdx hd) :
    look {} ((s.setFuture hd f).ham g).futures e = look {} (s.ham g).futures e := by
  by_cases hg : g = hdHam hd
  · subst hg
    rw [State.setFuture, setHam_ham_same, look_put_other _ _ _ (hne.resolve_left (fun h => h rfl))]
  · rw [State.setFuture, setHam_ham_other _ _ _ hg]

theorem WakeOnly.future (h : s.WakeOnly t) (hd : BitVec 32) : t.future hd = s.future hd := by
  obtain ⟨_, _, hw⟩ := h.ham (hdHam hd)
  rw [State.future, hw]
  rfl

theorem setMe_future (x : Ctx) (hd : BitVec 32) : (s.setMe x).future hd = s.future hd := rfl

/-- An instruction that retires leaves the futures. -/
theorem Retires.future {rs : List Result} {tgt : Option Word} (h : Retires u v o rs tgt) (hd : BitVec 32) :
    v.future hd = u.future hd := by
  obtain ⟨⟨x, hv, _⟩, _⟩ := h
  rw [hv, setMe_future]

theorem Retires.hams {rs : List Result} {tgt : Option Word} (h : Retires u v o rs tgt) (g : Nat) : v.ham g = u.ham g := by
  obtain ⟨⟨x, hv, _⟩, _⟩ := h
  rw [hv]
  rfl

theorem addCount_future (w : Word) : (s.addCount hd w).future hd = { s.future hd with value := (s.future hd).value + w } := by
  unfold State.addCount
  dsimp only
  split
  · rw [WakeOnly.future wake_wakeOnly, setFuture_future_same]
  · rw [setFuture_future_same]

theorem feed_future (g : Nat) : (s.feed g).future hd = s.future hd := by
  unfold State.feed
  dsimp only
  generalize (List.range 8).flatMap _ = l
  induction l generalizing s with
  | nil => rfl
  | cons ck l ih =>
    rw [List.foldl_cons]
    refine ih.trans ?_
    split
    · split
      · rfl
      · rfl
    · rfl

theorem freeFuture_future : ((s.freeFuture hd).future hd).kind = .free ∧
    ((s.freeFuture hd).future hd).gen = nextGen (s.future hd).gen := by
  have hf : (s.freeFuture hd).future hd = { kind := .free, gen := nextGen (s.future hd).gen } := by
    unfold State.freeFuture
    dsimp only
    rw [feed_future, WakeOnly.future wake_wakeOnly, setFuture_future_same]
  rw [hf]
  exact ⟨rfl, rfl⟩

/-! ### FNEW (R321) -/

theorem fnew_body {count : Bool} (hh : s.onHandler = false) (hf : s.me.follows = false)
    (hl : s.locsFault ((if count then [scLoc o o.a] else []) ++ [scLoc o o.d]) = none) :
    (s.freeEntry (hamOf s.curCore) = none → fnewBody i o count s = .done (s.var [cellAt (scAddr o o.d) 8 0])) ∧
    ∀ e, s.freeEntry (hamOf s.curCore) = some e →
      let old := look {} (s.ham (hamOf s.curCore)).futures e
      let hd' := handleOf old.gen (hamOf s.curCore) e
      fnewBody i o count s = .done ((State.setFuture { s with free := s.free + 1 } hd'
        { old with kind := if count then .count else .value, full := false, value := if count then s.scOp o o.a else 0 }).var
          [cellAt (scAddr o o.d) 8 hd'.toNat]) := by
  unfold fnewBody
  rw [hh, hf, within_ok hl]
  unfold State.allocFuture
  refine ⟨fun hn => by rw [hn]; rfl, fun e he => by rw [he]; rfl⟩

/-! ### FPUT (R322) -/

theorem fput_guarded {hd : BitVec 32} (he : handleIn (s.scOp o o.a) = hd) (hl : s.locsFault [scLoc o o.a] = none)
    (hp : pagerEntry hd = true) (hk : s.me.priv = .kernel) : fputBody o s = .trap 0x02 (baseInfo (.fput o)) := by
  unfold fputBody State.pagerGuard
  dsimp only
  rw [within_ok hl, he, hp, hk]
  rfl

theorem pagerGuard_passes {k : Act} (hg : pagerEntry hd = true → s.me.priv ≠ .kernel) : s.pagerGuard i hd k = k := by
  refine if_neg fun h => ?_
  rw [Bool.and_eq_true, decide_eq_true_eq] at h
  exact hg h.1 h.2

theorem fresher_stale {k : Act} (hs : s.stale (hamOf s.curCore) hd = true) : s.fresher hd k = .trap 0x0A (s.staleInfo hd) :=
  if_pos hs

theorem fresher_fresh {k : Act} (hs : s.stale (hamOf s.curCore) hd = false) : s.fresher hd k = k :=
  if_neg (ne_true_of_eq_false hs)

/-- FPUT of a handle of which the context may speak. -/
theorem fput_body {hd : BitVec 32} (he : handleIn (s.scOp o o.a) = hd) (hl : s.locsFault [scLoc o o.a] = none)
    (hg : pagerEntry hd = true → s.me.priv ≠ .kernel)
    (hl2 : s.locsFault ((if o.lit.isSome then [] else [scLoc o o.b]) ++ [scLoc o o.d]) = none) :
    (s.stale (hamOf s.curCore) hd = true → fputBody o s = .trap 0x0A (s.staleInfo hd)) ∧
    (s.stale (hamOf s.curCore) hd = false → s.releaseReady s.objScope false = true →
      (s.release s.objScope).objBusy (hdHam hd) = false →
      fputBody o s = .done (((s.release s.objScope).putFuture hd (s.bLit o)).2.var
        [cellAt (scAddr o o.d) 8 ((s.release s.objScope).putFuture hd (s.bLit o)).1.toNat])) := by
  unfold fputBody
  dsimp only
  rw [within_ok hl, he, pagerGuard_passes hg, within_ok hl2]
  refine ⟨fresher_stale, fun hs hr hb => ?_⟩
  rw [fresher_fresh hs, withRelease_ready hr, hb]
  rfl

/-! ### FGET and FREL (R323, R324) -/

/-- What FGET waits for is there: a full value, or a count of 0 or less. -/
def Future.ready (f : Future) : Prop := (f.kind = .value ∧ f.full = true) ∨ (f.kind = .count ∧ f.value.toInt ≤ 0)

theorem fget_body {hd : BitVec 32} (he : handleIn (s.scOp o o.a) = hd) (hh : s.onHandler = false)
    (hl : s.locsFault [scLoc o o.a, scLoc o o.d] = none) (ha : s.me.answer = none) (hs : s.stale (hamOf s.curCore) hd = false)
    (hb : s.objBusy (hdHam hd) = false) :
    ((s.future hd).ready → fgetBody o s =
      .done ((s.acquire s.objScope).var [cellAt (scAddr o o.d) 8 (s.future hd).value.toNat])) ∧
    (¬ (s.future hd).ready → (s.future hd).kind ≠ .free → fgetBody o s =
      .park s (match (s.future hd).kind with | .value => 0x01 | .count => 0x02 | _ => 0x08) (hd.setWidth 64)) := by
  have hans : ∀ key, s.answered key = none := fun key => by rw [State.answered, ha]; rfl
  unfold fgetBody
  dsimp only
  rw [hh, within_ok hl, hans, he]
  dsimp only
  rw [fresher_fresh hs, hb]
  simp only [Bool.false_eq_true, if_false]
  unfold Future.ready
  generalize s.future hd = f
  cases hk : f.kind with
  | value => cases hf : f.full <;> simp
  | count => by_cases hc : f.value.toInt ≤ 0 <;> simp [hc]
  | pager => simp
  | free => simp

theorem fgetPoll_body {hd : BitVec 32} (he : handleIn (s.scOp o o.a) = hd) (hl : s.locsFault [scLoc o o.a, rsLoc o o.d 16] = none)
    (hs : s.stale (hamOf s.curCore) hd = false) (hb : s.objBusy (hdHam hd) = false) :
    ((s.future hd).ready → fgetPollBody o s =
      .done ((s.acquire s.objScope).var [cellAt (scAddr o o.d) 16 ((s.future hd).value.toNat + 2 ^ 64)])) ∧
    ((s.future hd).kind = .value → (s.future hd).full = false → fgetPollBody o s = .done (s.var [cellAt (scAddr o o.d) 16 0])) ∧
    ((s.future hd).kind = .count → 0 < (s.future hd).value.toInt →
      fgetPollBody o s = .done (s.var [cellAt (scAddr o o.d) 16 (s.future hd).value.toNat])) ∧
    ((s.future hd).kind = .pager → fgetPollBody o s =
      .done (({ s with free := s.free + 1 } : State).var [cellAt (scAddr o o.d) 16 (Config.freeWord s.free).toNat])) := by
  unfold fgetPollBody
  dsimp only
  rw [within_ok hl, he, fresher_fresh hs, hb]
  simp only [Bool.false_eq_true, if_false]
  unfold Future.ready
  generalize s.future hd = f
  cases hk : f.kind with
  | value => cases hf : f.full <;> simp
  | count => by_cases hc : f.value.toInt ≤ 0 <;> simp [hc]
  | pager => simp
  | free => simp

theorem frel_body {hd : BitVec 32} (he : handleIn (s.scOp o o.a) = hd) (hh : s.onHandler = false) (hf : s.me.follows = false)
    (hl : s.locsFault [scLoc o o.a] = none) (hg : pagerEntry hd = true → s.me.priv ≠ .kernel) :
    (s.stale (hamOf s.curCore) hd = true → frelBody o s = .trap 0x0A (s.staleInfo hd)) ∧
    (s.stale (hamOf s.curCore) hd = false → s.objBusy (hdHam hd) = false → frelBody o s = .done (s.freeFuture hd)) := by
  unfold frelBody
  dsimp only
  rw [hh, hf, within_ok hl, he, pagerGuard_passes hg]
  exact ⟨fresher_stale, fun hs hb => (fresher_fresh hs).trans (if_neg (ne_true_of_eq_false hb))⟩

/-- FPUT at the entry's hamlet (R322), by the kind of the future. -/
theorem putFuture_value_full {w : Word} (hk : (s.future hd).kind = .value) (hf : (s.future hd).full = true) :
    s.putFuture hd w = (1, s) := by
  unfold State.putFuture
  dsimp only
  rw [hk]
  exact if_pos hf

theorem putFuture_value {w : Word} (hk : (s.future hd).kind = .value) (hf : (s.future hd).full = false) :
    s.putFuture hd w = (0, (s.setFuture hd { s.future hd with full := true, value := w }).wake (hdHam hd) (hd.setWidth 64) evValue) := by
  unfold State.putFuture
  dsimp only
  rw [hk]
  exact if_neg (ne_true_of_eq_false hf)

theorem putFuture_count {w : Word} (hk : (s.future hd).kind = .count) :
    s.putFuture hd w = ((s.future hd).value + w, s.addCount hd w) := by
  unfold State.putFuture
  dsimp only
  rw [hk]

theorem putFuture_pager {w : Word} (hk : (s.future hd).kind = .pager) : s.putFuture hd w = (0, s.pagerDone hd w.toNat) := by
  unfold State.putFuture
  dsimp only
  rw [hk]

end Sys2Proof.Machine

open Sys2Proof Sys2Proof.Machine

/-- Settles O46: each operation on a future by its body, and what the table holds afterwards. -/
theorem futuresComplete : Obligations.FuturesComplete := by
  unfold Obligations.FuturesComplete
  intro s o u hd f h out fresh hh hfol
  refine ⟨fun i count hi hg hl => ?_, fun hg hl => ⟨fun hp hk => ?_, fun hguard hl2 => ?_⟩, fun hg hl ha hfr => ?_, fun hg hl hfr => ?_,
    fun hg hl hguard => ?_⟩
  · intro kind
    have hexec : exec i s = s.run i o (fnewBody i o count) := by cases count <;> (subst hi; rfl)
    obtain ⟨hnone, hsome⟩ := fnew_body (i := i) (s := u) hh hfol hl
    rw [hexec]
    refine ⟨fun hn => run_push hg (hnone hn), fun e he h256 => ?_⟩
    intro old hd' new
    obtain ⟨v, hv, hr⟩ := run_push_on hg (hsome e he)
    obtain ⟨ph, pi⟩ := handleOf_parts (g := old.gen) h256 (freeEntry_lt he)
    refine ⟨v, hv, hr, hr.mem, ?_, fun g e' hne => ?_⟩
    · rw [hr.future]
      exact setFuture_future_same _ _
    · rw [hr.hams]
      refine setFuture_other ?_
      rw [ph, pi]
      exact hne
  · exact run_trap (body := fputBody o) hg (fput_guarded rfl hl hp hk)
  · obtain ⟨hstale, hfresh⟩ := fput_body (hd := hd) rfl hl hguard hl2
    refine ⟨fun hs => run_trap (body := fputBody o) hg (hstale hs), fun hs hr => ?_⟩
    dsimp only
    intro hb
    have hbody := hfresh hs hr hb
    refine ⟨fun hk hf => ?_, fun hk hf => ?_, fun hk => ?_, fun hk => ?_⟩
    · rw [putFuture_value_full hk hf] at hbody
      exact run_push_on (body := fputBody o) hg hbody
    · rw [putFuture_value hk hf] at hbody
      dsimp only at hbody
      rw [show (0 : Word).toNat = 0 from rfl] at hbody
      obtain ⟨v, hv, hret⟩ := run_push_on (body := fputBody o) hg hbody
      refine ⟨v, hv, ?_, hret⟩
      rw [hret.future, WakeOnly.future wake_wakeOnly, setFuture_future_same]
    · rw [putFuture_count hk] at hbody
      obtain ⟨v, hv, hret⟩ := run_push_on (body := fputBody o) hg hbody
      refine ⟨v, hv, hret, ?_⟩
      rw [hret.future, addCount_future]
    · rw [putFuture_pager hk] at hbody
      exact run_push_on (body := fputBody o) hg hbody
  · intro ready
    obtain ⟨hs, hb⟩ := hfr
    obtain ⟨hready, hnot⟩ := fget_body (hd := hd) rfl hh hl ha hs hb
    refine ⟨fun hr => run_push_on (body := fgetBody o) hg (hready hr), fun hr hk => ?_⟩
    rw [show exec (.fget o) s = s.run (.fget o) o (fgetBody o) from rfl, run_goes hg, hnot hr hk]
    rfl
  · intro pair
    obtain ⟨hs, hb⟩ := hfr
    obtain ⟨hready, hempty, hcount, hpager⟩ := fgetPoll_body (hd := hd) rfl hl hs hb
    exact ⟨fun hr => run_push_on (body := fgetPollBody o) hg (hready hr), fun hk hf => run_push (body := fgetPollBody o) hg (hempty hk hf),
      fun hk hv => run_push (body := fgetPollBody o) hg (hcount hk hv), fun hk => run_push_on (body := fgetPollBody o) hg (hpager hk)⟩
  · obtain ⟨hstale, hfresh⟩ := frel_body (hd := hd) rfl hh hfol hl hguard
    refine ⟨fun hs => run_trap (body := frelBody o) hg (hstale hs), fun hfr => ?_⟩
    obtain ⟨hs, hb⟩ := hfr
    obtain ⟨v, hv, hret⟩ := run_plain (body := frelBody o) hg (hfresh hs hb)
    obtain ⟨hkind, hgen⟩ := freeFuture_future (s := u) (hd := hd)
    exact ⟨v, hv, hret, by rw [hret.future]; exact hkind, by rw [hret.future]; exact hgen⟩
end

section
/-! Barriers, QUIESCE and channels at issue (03 R84, R85, R90, 12 R325 to R329). -/

namespace Sys2Proof.Machine

variable {s t u v : State} {i : Instr} {o : Ops} {h : Nat} {sc : BarScope} {n : BitVec 2}

/-! ### Arrivals (R85) -/

theorem setBarrier_same (b : Barrier) : (s.setBarrier h sc n b).barrier h sc n = b := by
  rw [State.barrier, State.setBarrier, setHam_ham_same, look_put_same]

theorem arrive_counts (hb : (s.barrier h sc n).state = .counting)
    (he : (s.barrier h sc n).count + 1 < expectOf (s.pattern h) n.toNat) :
    s.arrive h sc n = ((s.barrier h sc n).episode, false,
      s.setBarrier h sc n { s.barrier h sc n with count := (s.barrier h sc n).count + 1 }) := by
  unfold State.arrive
  dsimp only
  rw [hb]
  exact if_pos he

theorem arrive_completes (hb : (s.barrier h sc n).state = .counting)
    (he : expectOf (s.pattern h) n.toNat ≤ (s.barrier h sc n).count + 1) :
    s.arrive h sc n = ((s.barrier h sc n).episode, decide (sc = .hamlet), s.completeEpisode h sc n (s.barrier h sc n)) := by
  unfold State.arrive
  dsimp only
  rw [hb]
  exact if_neg (Nat.not_lt.2 he)

theorem arrive_early (hb : (s.barrier h sc n).state ≠ .counting) :
    s.arrive h sc n = ((s.barrier h sc n).episode + 1, false, s.setBarrier h sc n { s.barrier h sc n with
      count := (s.barrier h sc n).count + 1
      held := expectOf (s.pattern h) n.toNat ≤ (s.barrier h sc n).count + 1 }) := by
  unfold State.arrive
  dsimp only
  cases hs : (s.barrier h sc n).state with
  | counting => exact absurd hs hb
  | sent => rfl
  | releasing => rfl

/-- The barrier of an episode whose last arrival has come. -/
theorem completeEpisode_barrier (b : Barrier) : ((s.completeEpisode h sc n b).barrier h sc n).count = 0 ∧
    ((s.completeEpisode h sc n b).barrier h sc n).state = if sc = .hamlet then .releasing else .sent := by
  cases sc with
  | hamlet =>
    rw [show (s.completeEpisode h .hamlet n b).barrier h .hamlet n = _ from setBarrier_same _]
    exact ⟨rfl, rfl⟩
  | die =>
    rw [show (s.completeEpisode h .die n b).barrier h .die n = _ from setBarrier_same _]
    exact ⟨rfl, rfl⟩
  | pkg =>
    rw [show (s.completeEpisode h .pkg n b).barrier h .pkg n = _ from setBarrier_same _]
    exact ⟨rfl, rfl⟩

/-! ### BAR (R325) -/

theorem bar_answered (hh : s.onHandler = false) (hf : s.me.follows = false)
    (ha : (s.answered (barKey (hamOf s.curCore) sc n)).isSome = true) :
    barBody o n sc s = .done (s.acquire (BarScope.scope sc)) := by
  unfold barBody
  dsimp only
  rw [hh, hf, ha]
  rfl

theorem bar_arrives (hh : s.onHandler = false) (hf : s.me.follows = false) (ha : s.me.answer = none) (hp : s.me.parking = none)
    (hr : s.releaseReady (BarScope.scope sc) false = true) :
    barBody o n sc s = .left
      (let r := (s.release (BarScope.scope sc)).arrive (hamOf s.curCore) sc n
       if r.2.1 then r.2.2.waitHere 0x05 (barKey (hamOf s.curCore) sc n) r.1
       else r.2.2.park 0x05 (barKey (hamOf s.curCore) sc n) r.1) := by
  have hans : ∀ key, s.answered key = none := fun key => by rw [State.answered, ha]; rfl
  unfold barBody
  dsimp only
  rw [hh, hf, hans, hp, withRelease_ready hr]
  rfl

/-! ### QUIESCE (R327) -/

theorem quiesce_alone (hh : s.onHandler = false) (hl : s.launchOf (hamOf s.curCore) = none)
    (hs : (s.sums [hamOf s.curCore]).1 = (s.sums [hamOf s.curCore]).2) :
    quiesceBody o s = .done ((s.writeBackAll (hamOf s.curCore)).acquire .pkg) := by
  unfold quiesceBody
  rw [hh, hl]
  exact if_pos hs

theorem quiesce_ends {l : Launch} (hh : s.onHandler = false) (hl : s.launchOf (hamOf s.curCore) = some l)
    (hf : l.finished.contains (s.curCore, s.curCtx) = true) : quiesceBody o s =
      .done ((s.setLaunch { l with finished := l.finished.filter (· ≠ (s.curCore, s.curCtx)) }).acquire .pkg) := by
  unfold quiesceBody
  rw [hh, hl]
  exact if_pos hf

theorem quiesce_starts {l : Launch} (hh : s.onHandler = false) (hl : s.launchOf (hamOf s.curCore) = some l)
    (hf : l.finished.contains (s.curCore, s.curCtx) = false) (hd : l.detection = none) : quiesceBody o s =
      .hold ((s.setLaunch { l with
        detection := some { waiting := [(s.curCore, s.curCtx)], last := none, sweeps := 0, down := l.treeRoots, sum := (0, 0) } }).owe
          (.detectionSweep l.seq.toNat)) := by
  unfold quiesceBody
  rw [hh, hl]
  refine (if_neg (ne_true_of_eq_false hf)).trans ?_
  rw [hd]

/-! ### Channels (R328, R329) -/

variable {ch : BitVec 4} {k : Nat → Chan → Nat → Act}

theorem channel_unknown (hh : s.onHandler = false) (hl : s.locsFault [scLoc o o.a] = none) (hv : (s.scOp o o.a).toNat < 256)
    (hn : s.inSet (hamOf s.curCore) ((s.scOp o o.a).toNat % 256) = false ∨
      find (s.ham ((s.scOp o o.a).toNat % 256)).channels ch.toNat = none) :
    s.channel i o ch k = .trap 0x0C (BitVec.ofNat 64 ((s.scOp o o.a).toNat % 256 + ch.toNat * 256)) := by
  have hnone : (if s.inSet (hamOf s.curCore) ((s.scOp o o.a).toNat % 256) then
      find (s.ham ((s.scOp o o.a).toNat % 256)).channels ch.toNat else none) = none := by
    rcases hn with hn | hn
    · rw [hn]; rfl
    · rw [hn, ite_self]
  unfold State.channel
  dsimp only
  rw [hh, within_ok hl, hnone]
  exact if_neg (Nat.not_le.2 hv)

theorem channel_known {c : Chan} (hh : s.onHandler = false) (hl : s.locsFault [scLoc o o.a] = none)
    (hv : (s.scOp o o.a).toNat < 256) (hs : s.inSet (hamOf s.curCore) ((s.scOp o o.a).toNat % 256) = true)
    (hc : find (s.ham ((s.scOp o o.a).toNat % 256)).channels ch.toNat = some c) (hx : scAddr o o.d % c.size = 0)
    (hl2 : s.locsFault [{ addr := scAddr o o.d, bytes := c.size, storeOnly := true }] = none)
    (hb : s.objBusy ((s.scOp o o.a).toNat % 256) = false) :
    s.channel i o ch k = k ((s.scOp o o.a).toNat % 256) c (scAddr o o.d) := by
  unfold State.channel
  dsimp only
  rw [hh, within_ok hl, hs, if_pos rfl, hc]
  refine (if_neg (Nat.not_le.2 hv)).trans ?_
  rw [within_ok hl2, hb]
  exact if_neg (fun h => h hx)

/-- CHRECV of a channel that holds something (R329). -/
theorem chrecv_filled {c : Chan} (hh : s.onHandler = false) (hl : s.locsFault [scLoc o o.a] = none)
    (hv : (s.scOp o o.a).toNat < 256) (hs : s.inSet (hamOf s.curCore) ((s.scOp o o.a).toNat % 256) = true)
    (hc : find (s.ham ((s.scOp o o.a).toNat % 256)).channels ch.toNat = some c) (hx : scAddr o o.d % c.size = 0)
    (hl2 : s.locsFault [{ addr := scAddr o o.d, bytes := c.size, storeOnly := true }] = none)
    (hb : s.objBusy ((s.scOp o o.a).toNat % 256) = false) (hn : c.count ≠ 0) :
    chrecvBody o ch s =
      if s.listedLine (c.slotAt ((s.scOp o o.a).toNat % 256) ch.toNat 0 / 64 * 64)
      then .trap 0x11 (s.badInfo (c.slotAt ((s.scOp o o.a).toNat % 256) ch.toNat 0 / 64 * 64))
      else .done (((s.chanTakeSlot ((s.scOp o o.a).toNat % 256) ch.toNat c).acquire s.objScope).var
        [cellAt (scAddr o o.d) c.size (ofBytes (s.homeRead (c.slotAt ((s.scOp o o.a).toNat % 256) ch.toNat 0) c.size))]) :=
  (channel_known hh hl hv hs hc hx hl2 hb).trans (if_neg hn)

end Sys2Proof.Machine

open Sys2Proof Sys2Proof.Machine

/-- Settles O47: BAR, QUIESCE and the channel operations by their bodies, and what an arrival counts. -/
theorem barriersAndChannelsComplete : Obligations.BarriersAndChannelsComplete := by
  unfold Obligations.BarriersAndChannelsComplete
  intro s o u h hh hfol
  refine ⟨fun n sc hg => ⟨fun ha => ?_, fun ha hp hr => ?_⟩, fun sc n => ?_, fun hg => ⟨fun hl hs => ?_, fun l hl => ⟨fun hf => ?_, fun hf hd => ?_⟩⟩,
    fun i ch send hi hg hl => ?_⟩
  · exact run_plain (body := barBody o n sc) hg (bar_answered hh hfol ha)
  · exact run_left (body := barBody o n sc) hg (bar_arrives hh hfol ha hp hr)
  · intro b r
    refine ⟨fun hb he => ?_, fun hb he => ?_, fun hb => ?_⟩
    · have hr : r = _ := arrive_counts hb he
      rw [hr]
      exact ⟨rfl, setBarrier_same _⟩
    · have hr : r = _ := arrive_completes hb he
      rw [hr]
      exact ⟨rfl, completeEpisode_barrier _⟩
    · have hr : r = _ := arrive_early hb
      rw [hr]
      exact ⟨rfl, congrArg Barrier.count (setBarrier_same _)⟩
  · exact run_plain (body := quiesceBody o) hg (quiesce_alone hh hl hs)
  · exact run_plain (body := quiesceBody o) hg (quiesce_ends hh hl hf)
  · exact run_hold (body := quiesceBody o) hg (quiesce_starts hh hl hf hd)
  · intro to_ x hv
    obtain ⟨hsend, hrecv⟩ : (send = true → exec i s = s.run i o (chsendBody o ch)) ∧
        (send = false → exec i s = s.run i o (chrecvBody o ch)) :=
      ⟨by rintro rfl; subst hi; rfl, by rintro rfl; subst hi; rfl⟩
    refine ⟨fun hn => ?_, fun c hset hc hx hl2 hb => ⟨fun h1 hroom hrel => ?_, fun h1 hfull => ?_, fun h1 hempty => ?_, fun h1 hne => ?_⟩⟩
    · cases send with
      | true => rw [hsend rfl]; exact run_trap hg (channel_unknown hh hl hv hn)
      | false => rw [hrecv rfl]; exact run_trap hg (channel_unknown hh hl hv hn)
    · rw [hsend h1]
      refine run_plain hg ((channel_known hh hl hv hset hc hx hl2 hb).trans ?_)
      rw [if_neg (Nat.not_le.2 hroom), withRelease_ready hrel]
      rfl
    · rw [hsend h1]
      exact run_park hg ((channel_known hh hl hv hset hc hx hl2 hb).trans (if_pos hfull))
    · rw [hrecv h1]
      exact run_park hg ((channel_known hh hl hv hset hc hx hl2 hb).trans (if_pos hempty))
    · intro pa
      rw [hrecv h1]
      have hbody := chrecv_filled (o := o) hh hl hv hset hc hx hl2 hb hne
      refine ⟨fun hbad => run_trap hg (hbody.trans (if_pos hbad)), fun hbad => ?_⟩
      exact run_push_on hg (hbody.trans (if_neg (ne_true_of_eq_false hbad)))
end

section
/-! Copies and tokens at issue, and the copy engine's events (06 R162, R163, 12 R331 to R336, 19 R434, R435). -/

namespace Sys2Proof.Machine

variable {s t u v : State} {o : Ops} {f : CopyForm} {d : BitVec 256} {c k : Nat} {tok : BitVec 3} {y : Copy}

/-! ### Issue (R334) -/

theorem copy_illegal (hl : s.locsFault [{ rsLoc o o.a 32 with storeOnly := true }] = none)
    (hi : copyIllegal f (BitVec.ofNat 256 (s.rs (scAddr o o.a) 32)) = true) :
    copyBody o f s = .trap 0x01 (baseInfo (.copy o f)) := by
  unfold copyBody
  dsimp only
  rw [within_ok hl]
  exact if_pos hi

/-- COPY with its descriptor in order holds or issues. -/
theorem copy_ready (hl : s.locsFault [{ rsLoc o o.a 32 with storeOnly := true }] = none)
    (hd : BitVec.ofNat 256 (s.rs (scAddr o o.a) 32) = d) (hi : copyIllegal f d = false)
    (hf : copyLen d ≠ 0 → copyMisaligned f d = none ∧ s.copyFaultOf f d = none) :
    copyBody o f s = if !s.me.tokens.getLsbD (o.d.toNat % 8) || !s.allPerformed then .hold s
      else .done ((s.flushSource f d).issueCopy o f d) := by
  have hmis : (if decide (copyLen d ≠ 0) = true then copyMisaligned f d else none) = none := by
    split
    · next h => exact (hf (of_decide_eq_true h)).1
    · rfl
  have hflt : (if decide (copyLen d ≠ 0) = true then s.copyFaultOf f d else none) = none := by
    split
    · next h => exact (hf (of_decide_eq_true h)).2
    · rfl
  unfold copyBody
  dsimp only
  rw [within_ok hl, hd, hi, hmis, hflt]
  rfl

theorem flushSource_homeOnly : s.HomeOnly (s.flushSource f d) := by
  unfold State.flushSource
  split
  · exact .refl s
  · refine .foldl (fun t g => ?_) _ _
    have hr : ∀ pa n, t.HomeOnly (t.writeBackRange pa n) := fun pa n =>
      (State.HomeOnly.foldl (fun _ _ => writeBack_homeOnly) _ _).trans (.foldl (fun _ _ => writeBackWin_homeOnly _) _ _)
    split
    · exact hr _ _
    · exact hr _ _
    · exact .refl t

theorem flushSource_myCore : (s.flushSource f d).myCore = s.myCore := by
  have h : s.HomeOnly (s.flushSource f d) := flushSource_homeOnly
  rw [State.myCore, h.core, h.curCore]
  rfl

theorem setMe_copies (x : Ctx) : (s.setMe x).myCore.copies = s.myCore.copies := by
  simp [State.myCore, State.setMe, State.setCtx]

theorem setMyCopies_me (l : List Copy) : (s.setMyCore { s.myCore with copies := l }).me = s.me := by
  rw [State.me, State.setMyCore, State.ctx]
  simp [State.me, State.ctx, State.myCore]

theorem Retires.copies {rs : List Result} {tgt : Option Word} (h : Retires u v o rs tgt) :
    v.me.tokens = u.me.tokens ∧ v.myCore.copies = u.myCore.copies := by
  obtain ⟨⟨x, hv, hx⟩, _⟩ := h
  refine ⟨?_, ?_⟩
  · rw [hv, setMe_me, hx]
  · rw [hv, setMe_copies]

/-- A copy with its token cleared enters the engine's list; one of no bytes leaves its token set. -/
theorem issueCopy_spec :
    (copyLen d = 0 → (s.issueCopy o f d).me.tokens = s.me.tokens ∧ (s.issueCopy o f d).myCore.copies = s.myCore.copies) ∧
    (copyLen d ≠ 0 → (s.issueCopy o f d).me.tokens = s.me.tokens &&& ~~~ tokBit (o.d.setWidth 3) ∧
      ∃ y, (s.issueCopy o f d).myCore.copies = s.myCore.copies ++ [y] ∧ y.ctx = s.curCtx ∧ y.tok = o.d.setWidth 3 ∧ y.desc = d ∧
        y.form = f ∧ y.off = 0 ∧ y.state = .going ∧ y.root = s.me.tblroot ∧ y.priv = s.me.priv) := by
  have hmark : ∃ hs, (if (find s.me.marks (o.d.setWidth 3 : BitVec 3).toNat).isSome then s.mark (hamOf s.curCore) Marks.trapped else s) =
      { s with hamlets := hs } := by
    split
    · exact ⟨_, rfl⟩
    · exact ⟨_, rfl⟩
  obtain ⟨hs, hm⟩ := hmark
  have hcore : ∀ x : State, x.cores = s.cores → x.curCore = s.curCore → x.curCtx = s.curCtx → x.me = s.me ∧ x.myCore = s.myCore := by
    intro x h1 h2 h3
    refine ⟨?_, ?_⟩
    · rw [State.me, State.ctx, State.core, h1, h2, h3]; rfl
    · rw [State.myCore, State.core, h1, h2]; rfl
  obtain ⟨hme, hmy⟩ := hcore { s with hamlets := hs } rfl rfl rfl
  refine ⟨fun h0 => ?_, fun h0 => ?_⟩
  · unfold State.issueCopy
    dsimp only
    rw [hm, if_pos h0]
    refine ⟨?_, ?_⟩
    · show (State.setMe _ _).me.tokens = _
      rw [setMe_me, hme]
    · show (State.setMe _ _).myCore.copies = _
      rw [setMe_copies, hmy]
  · unfold State.issueCopy
    dsimp only
    rw [hm, if_neg h0]
    refine ⟨?_, ?_⟩
    · show (State.setMyCore _ _).me.tokens = _
      rw [setMyCopies_me, setMe_me]
      show (State.setMe _ _).me.tokens &&& _ = _
      rw [setMe_me, hme]
    · show ∃ y, (State.setMyCore _ _).myCore.copies = _ ∧ _
      rw [setMyCore_myCore]
      dsimp only
      rw [setMe_copies]
      show ∃ y, (State.setMe _ _).myCore.copies ++ _ = _ ∧ _
      rw [setMe_copies, hmy]
      refine ⟨_, rfl, rfl, rfl, rfl, rfl, rfl, rfl, ?_, ?_⟩
      · show (State.setMe _ _).me.tblroot = _
        rw [setMe_me, hme]
      · show (State.setMe _ _).me.priv = _
        rw [setMe_me, hme]

/-! ### WAITK and TOKQ (R335, R336) -/

theorem marked_none {x : Ctx} (h : x.marks = []) (m : BitVec 8) : x.marked m = none := by
  have hn : ((tokensOf m).filterMap fun i => (find x.marks i).map fun w => (i, w)) = [] := by
    refine List.filterMap_eq_nil_iff.2 fun i _ => ?_
    rw [h]
    rfl
  rw [Ctx.marked, hn]
  rfl

/-- The tokens that WAITK waits for are set. -/
def WaitkMet (s : State) (o : Ops) (any : Bool) : Prop :=
  if any then waitMask o = 0 ∨ waitMask o &&& s.me.tokens ≠ 0 else waitMask o &&& s.me.tokens = waitMask o

theorem waitk_met {any : Bool} : (WaitkMet s o any → s.me.marks = [] →
      waitkBody o any s = .done (s.acquireTokens (waitMask o &&& s.me.tokens))) ∧
    (¬ WaitkMet s o any → waitkBody o any s = .hold s) := by
  have hb : (if any then decide (waitMask o = 0) || decide (waitMask o &&& s.me.tokens ≠ 0)
      else decide (waitMask o &&& s.me.tokens = waitMask o)) = true ↔ WaitkMet s o any := by
    cases any <;> simp [WaitkMet]
  refine ⟨fun h hm => ?_, fun h => ?_⟩
  · unfold waitkBody
    dsimp only
    rw [hb.2 h, marked_none hm]
    rfl
  · unfold waitkBody
    dsimp only
    rw [eq_false_of_ne_true (mt hb.1 h)]
    rfl

theorem tokq_body (hl : s.locsFault [scLoc o o.d] = none) :
    tokqBody o s = .done (s.push (fixedResult 2 (intoD o (s.me.tokens.setWidth 64)))) := by
  have ht : ((s.me.tokens.setWidth 64 : Word)).toNat = s.me.tokens.toNat := by
    rw [BitVec.toNat_setWidth]
    exact Nat.mod_eq_of_lt (s.me.tokens.isLt.trans (by decide))
  unfold tokqBody
  rw [within_ok hl, intoD, ht]
  rfl

/-! ### The engine's events (R434, R435) -/

theorem copyOf_key (h : s.copyOf c k tok = some y) : y.ctx = k ∧ y.tok = tok := by
  have hp := List.find?_some h
  simpa using hp

theorem setCore_copyOf (co : Core) : (s.setCore c co).copyOf c k tok = co.copies.find? fun y => y.ctx = k && y.tok = tok := by
  rw [State.copyOf, setCore_core_same]

/-- A copy replaced is found as replaced. -/
theorem setCopy_copyOf {y' : Copy} (h : s.copyOf c k tok = some y) (hk : y'.ctx = k ∧ y'.tok = tok) :
    (s.setCopy c y').copyOf c k tok = some y' := by
  obtain ⟨rfl, rfl⟩ := hk
  unfold State.setCopy
  dsimp only
  rw [setCore_copyOf]
  have hf : (s.core c).copies.find? (fun z => z.ctx = y'.ctx && z.tok = y'.tok) = some y := h
  generalize (s.core c).copies = l at hf
  induction l with
  | nil => exact nomatch hf
  | cons z l ih =>
    rw [List.map_cons]
    by_cases hz : (decide (z.ctx = y'.ctx) && decide (z.tok = y'.tok)) = true
    · rw [if_pos hz, List.find?_cons_of_pos (by simp)]
    · rw [List.find?_cons_of_neg (by simpa using hz)] at hf
      rw [if_neg hz, List.find?_cons_of_neg (by simpa using hz)]
      exact ih hf

theorem setCtx_copyOf (x : Ctx) (j : Nat) : (s.setCtx c j x).copyOf c k tok = s.copyOf c k tok := by
  unfold State.copyOf
  rw [setCtx_copies]

/-- A copy that has ended has its token set, and is in the engine's list no more. -/
theorem endCopy_spec (h : s.copyOf c k tok = some y) (he : y.ended = false) :
    (s.endCopy c y).copyOf c k tok = none ∧ (s.endCopy c y).mem = s.mem ∧
      ((s.endCopy c y).ctx c k).tokens = (s.ctx c k).tokens ||| tokBit tok ∧ ((s.endCopy c y).ctx c k).marks = (s.ctx c k).marks := by
  obtain ⟨rfl, rfl⟩ := copyOf_key h
  have hx : ∀ l, (s.setCore c { s.core c with copies := l }).ctx c y.ctx = s.ctx c y.ctx := fun l => by
    rw [State.ctx, setCore_core_same]
    rfl
  refine ⟨?_, rfl, ?_, ?_⟩
  · show (State.setCtx _ c y.ctx _).copyOf c y.ctx y.tok = none
    rw [setCtx_copyOf, setCore_copyOf]
    refine List.find?_eq_none.2 fun z hz => ?_
    have hz' := (List.mem_filter.1 hz).2
    simpa [← not_and_or] using hz'
  · show ((State.setCtx _ c y.ctx _).ctx c y.ctx).tokens = _
    rw [setCtx_ctx_same, hx]
  · show ((State.setCtx _ c y.ctx _).ctx c y.ctx).marks = _
    rw [setCtx_ctx_same, hx, he]
    rfl

/-- A copy all of whose bytes are moved, with no write on its way, ends (R434). -/
theorem copyStep_ends {c : CoreId} {k : CtxId} (h : s.copyOf c.val k.val tok = some y) (hg : y.state = .going)
    (hl : copyLen y.desc * copyCount y.form y.desc ≤ y.off) (ho : y.out = []) : s.copyStep c k tok = s.endCopy c.val y := by
  have hf : (s.flight.any fun m : Msg => y.out.contains m.id) = false := by
    rw [ho]
    exact List.any_eq_false.2 fun _ _ => by simp
  unfold State.copyStep
  rw [h]
  dsimp only
  rw [if_neg (not_not.2 hg), decide_eq_true hl, Bool.or_true, if_pos rfl, hf]
  rfl

/-! ### A piece of a plain copy between places of the own storage -/

/-- A range within a line is one part. -/
theorem lineParts_one {a : Word} {n : Nat} (ha : a.toNat % 64 + n ≤ 64) (hn : n ≠ 0) : lineParts a n = [(0, n)] := by
  unfold lineParts
  dsimp only
  rw [show (a.toNat % 64 + n + 63) / 64 = 1 by omega]
  show [(0, min n (64 * (0 + 1) - a.toNat % 64) - 0)] = _
  rw [show min n (64 * (0 + 1) - a.toNat % 64) - 0 = n by omega]

/-- A plain copy of bytes within a line of its source and of its destination is one piece. -/
theorem copyGeo_plain (hb : (copyDst d).toNat % 64 + copyLen d ≤ 64) :
    copyGeo .plain d 0 = { src := copySrc d, n := copyLen d, dst := copyDst d, m := copyLen d, step := copyLen d, skip := 0 } := by
  have hr : copyRow .plain d (0 / copyLen d) = (copySrc d, copyDst d) := if_neg (by decide)
  unfold copyGeo
  dsimp only
  rw [hr, Nat.zero_mod]
  dsimp only
  rw [show copyDst d + BitVec.ofNat 64 0 = copyDst d by simp, show copySrc d + BitVec.ofNat 64 0 = copySrc d by simp,
    show min (copyLen d - 0) (64 - (copyDst d).toNat % 64) = copyLen d by omega]

theorem copyExtra_plain : copyExtra .plain d 0
    { src := copySrc d, n := copyLen d, dst := copyDst d, m := copyLen d, step := copyLen d, skip := 0 } = 0 := by
  unfold copyExtra
  dsimp only
  rw [BitVec.sub_self, BitVec.toNat_zero]
  omega

theorem near_unlisted {pa n : Nat} (h1 : s.bad = []) (h2 : s.tainted = []) : s.placeBad c (.near pa) n = none := by
  have hl : ∀ l, s.listedLine l = false := fun l => by
    unfold State.listedLine
    rw [h1, h2]
    rfl
  unfold State.placeBad
  simp [hl]

theorem before_nothing {pa : Nat} {bs : List Byte} (h : y.was = []) : y.before pa bs = bs := by
  unfold Copy.before
  rw [h]
  show (bs.zipIdx.map fun p => p.1) = bs
  exact List.zipIdx_map_fst 0 bs

/-- A plain copy's one piece between two places of the own storage moves its bytes (R434). -/
theorem movePiece_near {x w : State} {pa pb : Nat} (hf : y.form = .plain) (ho : y.off = 0) (hfe : y.fetch = []) (hs : y.spoilt = false)
    (hw : y.was = []) (hah : y.ahead = []) (hn : copyLen y.desc ≠ 0) (hfa : x.fencedAt pa = false) (hfb : x.fencedAt pb = false)
    (ha : (copySrc y.desc).toNat % 64 + copyLen y.desc ≤ 64) (hb : (copyDst y.desc).toNat % 64 + copyLen y.desc ≤ 64)
    (hra : s.resolveFor c y.ctx y.root y.priv (copySrc y.desc) .read = .ok (.near pa, w))
    (hrb : w.resolveFor c y.ctx y.root y.priv (copyDst y.desc) .write = .ok (.near pb, x))
    (h1 : x.bad = []) (h2 : x.tainted = []) :
    ∃ z, s.movePiece c y = .moved ((x.homePut pb (offsets (x.homeRead pa (copyLen y.desc)))).fillWords pb (copyLen y.desc)) z := by
  have hh : y.have' (copySrc y.desc) = [] := by
    unfold Copy.have'
    rw [hah]
    split
    · exact List.drop_nil
    · rfl
  have hcp : ∀ g : Geo, g.src = copySrc y.desc → s.copyParts c y g [(0, copyLen y.desc)] [] = .ok ([(0, copyLen y.desc, .near pa)], w) := by
    intro g hg
    unfold State.copyParts
    dsimp only
    rw [hg, show copySrc y.desc + BitVec.ofNat 64 0 = copySrc y.desc by simp, hra]
    rfl
  have hg := copyGeo_plain hb
  unfold State.movePiece
  dsimp only
  rw [hf, ho, hg]
  dsimp only
  rw [hh, copyExtra_plain]
  simp only [List.length_nil, Nat.add_zero, Nat.sub_zero]
  rw [show copySrc y.desc + BitVec.ofNat 64 0 = copySrc y.desc by simp, if_neg hn, lineParts_one ha hn,
    hcp _ rfl]
  dsimp only
  rw [if_neg (show ¬ CopyForm.plain = CopyForm.red by decide)]
  rw [hrb]
  dsimp only
  have hmute : (([(0, copyLen y.desc, Place.near pa)].any fun q => x.placeMute q.2.2) || x.placeMute (Place.near pb)) = false := by
    simp [State.placeMute, hfa, hfb]
  have hstuck : (List.findSome? (fun q => x.engineStuck c q.2.2 q.2.1) [(0, copyLen y.desc, Place.near pa)]).or
      (if CopyForm.plain = CopyForm.red then x.engineStuck c (Place.near pb) (copyLen y.desc) else none) = none := by
    rw [if_neg (show ¬ CopyForm.plain = CopyForm.red by decide)]
    rfl
  have hlisted : (y.spoilt || [(0, copyLen y.desc, Place.near pa)].any fun q => x.sourceBad c q.2.2 q.2.1) = false := by
    simp [hs, State.sourceBad, near_unlisted h1 h2]
  have hgather : x.gather c y [(0, copyLen y.desc, Place.near pa)] = (x.homeRead pa (copyLen y.desc), x) := by
    show ([] ++ y.before pa (x.homeRead pa (copyLen y.desc)), x) = _
    rw [before_nothing hw]
    rfl
  have hbytes : List.take (copyLen y.desc) ([] ++ x.homeRead pa (copyLen y.desc)) = x.homeRead pa (copyLen y.desc) := by
    rw [List.nil_append, List.take_of_length_le (homeRead_length x pa _).le]
  rw [hmute, hstuck, hlisted, hgather, hfe]
  dsimp only
  rw [hbytes]
  have hput : (x.copyPut c y.ctx (Place.near pb) (x.homeRead pa (copyLen y.desc))).1 =
      (x.homePut pb (offsets (x.homeRead pa (copyLen y.desc)))).fillWords pb (copyLen y.desc) := by
    show (x.homePut pb (offsets (x.homeRead pa (copyLen y.desc)))).fillWords pb (x.homeRead pa (copyLen y.desc)).length = _
    rw [homeRead_length]
  rw [← hput]
  exact ⟨_, rfl⟩

/-- A copy that goes on, with bytes still to move, moves its next piece. -/
theorem copyStep_moved {c : CoreId} {k : CtxId} {u : State} {z : Copy} (h : s.copyOf c.val k.val tok = some y) (hg : y.state = .going)
    (he : y.ended = false) (hl : ¬ copyLen y.desc * copyCount y.form y.desc ≤ y.off) (hm : s.movePiece c.val y = .moved u z) :
    (s.copyStep c k tok).mem = u.mem := by
  unfold State.copyStep
  rw [h]
  dsimp only
  rw [if_neg (not_not.2 hg), he, decide_eq_false hl, Bool.or_false, if_neg Bool.false_ne_true, hm]
  dsimp only
  rw [oweOnce_mem]
  rfl

/-- Resumed by the reeve: the copy goes on, or it ends unresolved (R435). -/
theorem resumeCopy_goes {c : CoreId} {k : CtxId} {word : Word} (h : s.copyOf c.val k.val tok = some y) (hr : y.state = .reeve) :
    (word = 0 → (s.resumeCopy c k tok word).copyOf c.val k.val tok = some { y with state := .going }) ∧
    (word ≠ 0 → word ≠ 2 → (s.resumeCopy c k tok word).copyOf c.val k.val tok =
      some { y with
             state := .going
             ended := true
             outcome := 5 }) := by
  have hk := copyOf_key h
  refine ⟨fun hw => ?_, fun h0 h2 => ?_⟩
  · unfold State.resumeCopy
    rw [h]
    dsimp only
    rw [if_neg (not_not.2 hr), if_pos hw]
    exact setCopy_copyOf h hk
  · unfold State.resumeCopy
    rw [h]
    dsimp only
    rw [if_neg (not_not.2 hr), if_neg h0, decide_eq_false h2]
    exact setCopy_copyOf h hk

theorem deliver_mem (r : Run) (e : Nat) : (s.deliver e r).mem = s.mem := by
  unfold State.deliver
  dsimp only
  split
  · obtain ⟨l, hl⟩ := oweRun_frame (s := s.setCore e { s.core e with inbox := (s.core e).inbox ++ [r] }) e
    rw [hl]
    rfl
  · rfl

/-- A run that is delivered to a core stands last in its inbox. -/
theorem deliver_inbox (r : Run) (e : Nat) : ((s.deliver e r).core e).inbox = (s.core e).inbox ++ [r] := by
  have hc : (s.deliver e r).core e = (s.setCore e { s.core e with inbox := (s.core e).inbox ++ [r] }).core e := by
    unfold State.deliver
    dsimp only
    split
    · obtain ⟨l, hl⟩ := oweRun_frame (s := s.setCore e { s.core e with inbox := (s.core e).inbox ++ [r] }) e
      rw [hl]
      rfl
    · rfl
  rw [hc, setCore_core_same]

/-- A copy-fault message enters the empty inbox of the die's reeve core (R434). -/
theorem sendCopyFault_spec {c : CoreId} {k : CtxId} (h : s.copyOf c.val k.val tok = some y) (hr : y.state = .reeve)
    (hq : ∀ e, (s.core e).inbox = [] ∧ (s.ctx e 4).run = none) :
    ∃ run, (s.sendCopyFault c k tok).mem = s.mem ∧ ((s.sendCopyFault c k tok).core (s.reeve (c.val / 512))).inbox = [run] ∧
      run.kind = .copyFault tok ∧ run.core = c.val ∧ run.ctx = k.val ∧ run.entry = (s.core (s.reeve (c.val / 512))).reevevec := by
  have hw : ((List.range 2048).any fun e => (find s.cores e).isSome &&
      ((s.core e).inbox ++ ((s.ctx e 4).run.map fun q => [q]).getD []).any fun q =>
        q.kind = .copyFault tok && q.core = c.val && q.ctx = k.val) = false :=
    List.any_eq_false.2 fun e _ => by
      obtain ⟨hi, hc⟩ := hq e
      rw [hi, hc]
      simp
  unfold State.sendCopyFault
  rw [h]
  dsimp only
  rw [hw, if_neg (by simp [hr])]
  refine ⟨_, deliver_mem _ _, (deliver_inbox _ _).trans (by rw [(hq _).1]; rfl), rfl, rfl, rfl, rfl⟩

end Sys2Proof.Machine

open Sys2Proof Sys2Proof.Machine

/-- Settles O48: COPY, WAITK and TOKQ through the rule of their bodies; the engine's events by what a step of a copy is in each state. -/
theorem copiesAndTokensComplete : Obligations.CopiesAndTokensComplete := by
  unfold Obligations.CopiesAndTokensComplete
  intro s o
  refine ⟨fun f hg hl => ⟨fun hi => run_trap hg (copy_illegal hl hi), fun hi hf => ?_⟩, fun any hg => ?_, fun hg hl => run_push hg (tokq_body hl),
    fun c k t y h => ⟨fun hst hle ho he => ?_, ?_, fun hst hq => ?_, fun word hst => ?_⟩⟩
  · have hb := copy_ready hl rfl hi hf
    have htok : ((o.d.setWidth 3 : BitVec 3)).toNat = o.d.toNat % 8 := BitVec.toNat_setWidth 3 o.d
    refine ⟨fun hw => run_hold hg (hb.trans (if_pos ?_)), fun h1 h2 => ?_⟩
    · rw [← htok]
      rcases hw with hw | hw
      · rw [hw]
        rfl
      · rw [hw, Bool.not_false, Bool.or_true]
    · obtain ⟨v, hv, hr⟩ := run_plain hg (hb.trans (if_neg (by rw [← htok, h1, h2]; decide)))
      have hh : (s.entered o).HomeOnly _ := flushSource_homeOnly (f := f) (d := BitVec.ofNat 256 ((s.entered o).rs (scAddr o o.a) 32))
      obtain ⟨htk, hcp⟩ := hr.copies
      have hmy := flushSource_myCore (s := s.entered o) (f := f) (d := BitVec.ofNat 256 ((s.entered o).rs (scAddr o o.a) 32))
      obtain ⟨hz, hn⟩ := issueCopy_spec (s := (s.entered o).flushSource f (BitVec.ofNat 256 ((s.entered o).rs (scAddr o o.a) 32))) (o := o)
        (f := f) (d := BitVec.ofNat 256 ((s.entered o).rs (scAddr o o.a) 32))
      rw [hmy, hh.me] at hz
      rw [hmy, hh.me, hh.curCtx] at hn
      refine ⟨v, hv, hr, fun h0 => ?_, fun h0 => ?_⟩
      · rw [htk, hcp]
        exact hz h0
      · rw [htk, hcp]
        exact hn h0
  · have hw := waitk_met (s := s.entered o) (o := o) (any := any)
    obtain ⟨hmet, hnot⟩ := hw
    exact ⟨fun h => run_hold hg (hnot h), fun h hm => run_plain hg (hmet h hm)⟩
  · refine ⟨_, rfl, ?_⟩
    rw [copyStep_ends h hst hle ho]
    exact endCopy_spec h he
  · intro pa pb w x n a b hst hf ho he hfe hs hw hah hn hfa hfb ha hb hra hrb h1 h2
    have hk := copyOf_key h
    obtain ⟨z, hz⟩ := movePiece_near (c := c.val) (s := s) hf ho hfe hs hw hah hn hfa hfb ha hb (by rw [hk.1]; exact hra) (by rw [hk.1]; exact hrb)
      h1 h2
    refine ⟨_, rfl, copyStep_moved h hst he ?_ hz⟩
    rw [ho, hf]
    show ¬ n * 1 ≤ 0
    omega
  · obtain ⟨run, hr⟩ := sendCopyFault_spec h hst hq
    exact ⟨_, run, rfl, hr⟩
  · obtain ⟨h0, h2⟩ := resumeCopy_goes (word := word) h hst
    exact ⟨fun hw => ⟨_, rfl, h0 hw⟩, fun hw hw2 => ⟨_, rfl, h2 hw hw2⟩⟩
end

section
/-! Reduction groups and multicast at issue (12 R337 to R341). -/

namespace Sys2Proof.Machine

variable {s u : State} {o : Ops} {i : Instr} {locs : List Loc} {k : Nat → Node → Act} {n : Node}

/-- Places none of which faults. -/
theorem locsFault_none {ls : List Loc} : s.locsFault ls = none ↔ ls.filterMap s.locFault = [] := by
  unfold State.locsFault
  dsimp only
  constructor
  · intro h
    split at h
    · exact nomatch h
    · exact List.head?_eq_none_iff.1 h
  · intro h
    rw [h]
    rfl

theorem locsFault_append {l1 l2 : List Loc} (h1 : s.locsFault l1 = none) (h2 : s.locsFault l2 = none) :
    s.locsFault (l1 ++ l2) = none := by
  rw [locsFault_none] at h1 h2 ⊢
  rw [List.filterMap_append, h1, h2]
  rfl

/-! ### The checks that REDGRP and REDPKT share (R430) -/

theorem withNode_illegal (ha : s.locsFault [scLoc o o.a] = none) (hg : 64 ≤ (s.scOp o o.a).toNat) :
    s.withNode i o locs k = illegal i := by
  unfold State.withNode
  dsimp only
  rw [within_ok ha, if_pos hg]

theorem withNode_none (ha : s.locsFault [scLoc o o.a] = none) (hg : (s.scOp o o.a).toNat < 64) (hl : s.locsFault locs = none)
    (hn : s.node s.curCore (s.scOp o o.a).toNat = none) :
    s.withNode i o locs k = .trap 0x0B (BitVec.ofNat 64 ((s.scOp o o.a).toNat + 256)) := by
  unfold State.withNode
  dsimp only
  rw [within_ok ha, if_neg (Nat.not_le.2 hg), within_ok hl, hn]

theorem withNode_some (ha : s.locsFault [scLoc o o.a] = none) (hg : (s.scOp o o.a).toNat < 64) (hl : s.locsFault locs = none)
    (hn : s.node s.curCore (s.scOp o o.a).toNat = some n) : s.withNode i o locs k = k (s.scOp o o.a).toNat n := by
  unfold State.withNode
  dsimp only
  rw [within_ok ha, if_neg (Nat.not_le.2 hg), within_ok hl, hn]

/-- What an instruction of a group does at its node, once the shared checks are passed. -/
def nodeWork (s : State) (o : Ops) : Instr → Nat → Node → Act
  | .redgrpOpen o', g, n =>
    if n.isOpen then .trap 0x0B (BitVec.ofNat 64 g)
    else .done ((s.setNode s.curCore g { n with
      isOpen := true
      contributed := false }).var [cellAt (scAddr o' o'.d) 8 n.episode.toNat])
  | .redgrpClose o', g, n =>
    if !n.isOpen then .trap 0x0B (BitVec.ofNat 64 g)
    else
      match n.done.find? fun w => w.extractLsb' 48 16 = n.episode with
      | none => .hold s
      | some w => .done (((s.setNode s.curCore g { n with
          isOpen := false
          episode := n.episode + 1
          done := n.done.filter (· ≠ w) }).var [cellAt (scAddr o' o'.d) 8 w.toNat]).acquire .pkg)
  | _, g, n =>
    if !n.isOpen || !n.isLocal || n.contributed then .trap 0x0B (BitVec.ofNat 64 g)
    else .done (s.contribute g n (BitVec.ofNat 512 (s.rs (scAddr o o.d) 64)))

/-- The three instructions of a group, with the places that each checks. -/
def GroupInstr (o : Ops) (i : Instr) (locs : List Loc) : Prop :=
  (i = .redgrpOpen o ∧ locs = [scLoc o o.d]) ∨ (i = .redgrpClose o ∧ locs = [scLoc o o.d]) ∨
    (i = .redpkt o ∧ locs = [{ addr := scAddr o o.d, bytes := 64, storeOnly := true }])

/-- Each of them runs a body that is the shared checks and its work. -/
theorem group_body (h : GroupInstr o i locs) (s : State) : ∃ body : State → Act, exec i s = s.run i o body ∧
    ∀ t : State, (i = .redgrpClose o → t.onHandler = false) → body t = t.withNode i o locs (nodeWork t o i) := by
  rcases h with ⟨rfl, rfl⟩ | ⟨rfl, rfl⟩ | ⟨rfl, rfl⟩
  · exact ⟨redgrpOpenBody o, rfl, fun t _ => rfl⟩
  · refine ⟨redgrpCloseBody o, rfl, fun t ht => ?_⟩
    unfold redgrpCloseBody
    rw [ht rfl]
    rfl
  · exact ⟨redpktBody o, rfl, fun t _ => rfl⟩

/-! ### MCAST (R341) -/

/-- MCAST past its operands' places and its group's and address's limits. -/
theorem mcast_body (h1 : s.locsFault [scLoc o o.a, scLoc o o.b] = none)
    (h2 : s.locsFault [{ addr := scAddr o o.d, bytes := 64, storeOnly := true }] = none) (hg : (s.scOp o o.b).toNat < 64)
    (ha : (s.scOp o o.a).toNat % 64 = 0) (hn : (s.node s.curCore (s.scOp o o.b).toNat).isSome = true) :
    mcastBody o s = if 0x100000 ≤ (s.scOp o o.a).toNat then .trap 0x05 (s.scOp o o.a)
      else if 0xFFFF < (s.me.count 1).toNat + ((s.members (hamOf s.curCore) (s.scOp o o.b).toNat).map hamOf).eraseDups.length then .hold s
      else .done (((s.members (hamOf s.curCore) (s.scOp o o.b).toNat).map hamOf).eraseDups.foldl
        (fun t h => t.mcastOne (s.scOp o o.a).toNat (offsets (bytesOf 64 (s.rs (scAddr o o.d) 64))) h) s) := by
  unfold mcastBody
  dsimp only
  rw [if_neg (by simp [hg])]
  refine (within_ok (locsFault_append h1 h2)).trans ?_
  rw [if_neg (by simp [aligned, ha]), if_neg (by simpa [Option.isSome_iff_ne_none] using hn)]

end Sys2Proof.Machine

open Sys2Proof Sys2Proof.Machine

/-- Settles O49: the checks that the three instructions of a group share, then what each does at its node. -/
theorem reductionsComplete : Obligations.ReductionsComplete := by
  unfold Obligations.ReductionsComplete
  intro s o
  refine ⟨fun i locs hi hh hg hl => ?_, fun hg h1 h2 => ?_⟩
  · obtain ⟨body, he, hb⟩ := group_body hi s
    have hb := hb (s.entered o) hh
    rw [he]
    refine ⟨fun h64 => run_trap hg (hb.trans (withNode_illegal hl h64)), fun h64 hp => ⟨fun hn => run_trap hg (hb.trans (withNode_none hl h64 hp hn)),
      fun n hn => ?_⟩⟩
    have hb := hb.trans (withNode_some hl h64 hp hn)
    refine ⟨?_, ?_, ?_, ?_⟩
    · rintro rfl hop
      refine run_push_on hg (hb.trans ((if_neg (ne_true_of_eq_false hop)).trans ?_))
      have he : ((n.episode.setWidth 64 : Word)).toNat = n.episode.toNat := by
        rw [BitVec.toNat_setWidth]
        exact Nat.mod_eq_of_lt (n.episode.isLt.trans (by decide))
      rw [intoD, he]
      rfl
    · rintro rfl hop
      have hb := hb.trans (if_neg (by rw [hop]; decide))
      refine ⟨fun w hw => run_push_acquire hg (hb.trans ?_), fun hw => run_hold hg (hb.trans ?_)⟩
      · rw [hw]
        rfl
      · rw [hw]
    · rintro rfl hop hlo hco
      exact run_plain hg (hb.trans (if_neg (by rw [hop, hlo, hco]; decide)))
    · rintro (⟨rfl, hop⟩ | ⟨hne, hop⟩ | ⟨rfl, hx⟩)
      · exact run_trap hg (hb.trans (if_pos hop))
      · refine run_trap hg (hb.trans ?_)
        rcases hi with ⟨rfl, _⟩ | ⟨rfl, _⟩ | ⟨rfl, _⟩
        · exact absurd rfl hne
        · exact if_pos (by rw [hop]; rfl)
        · exact if_pos (by rw [hop]; rfl)
      · refine run_trap hg (hb.trans (if_pos ?_))
        rcases hx with hx | hx
        · rw [hx, Bool.not_false, Bool.or_true, Bool.true_or]
        · rw [hx, Bool.or_true]
  · intro off gb hs hgb hoff
    refine ⟨fun hn ha => run_trap hg ((mcast_body h1 h2 hgb hoff hn).trans (if_pos ha)), fun hn ha hc => run_plain hg ?_⟩
    exact (mcast_body h1 h2 hgb hoff hn).trans ((if_neg (Nat.not_le.2 ha)).trans (if_neg (Nat.not_lt.2 hc)))
end

section
/-! Events of a reduction tree (12 R340, 20 R456, R457). -/

namespace Sys2Proof.Machine

variable {s t : State} {c d g i : Nat} {n m k : Node}

theorem setNode_same : (s.setNode c g n).node c g = some n := by
  unfold State.node State.setNode
  dsimp only
  rw [setHam_ham_same]
  exact find_put_same _ _ _

theorem setNode_other (h : d ≠ c) : (s.setNode c g n).node d g = s.node d g := by
  unfold State.node State.setNode
  dsimp only
  by_cases hh : hamOf d = hamOf c
  · rw [hh, setHam_ham_same]
    refine find_put_other _ _ ?_
    unfold hamOf at hh
    omega
  · rw [setHam_ham_other _ _ _ hh]

theorem oweOnce_node (j : Instr) : (s.oweOnce j).node c g = s.node c g := by
  unfold State.oweOnce
  split <;> rfl

theorem owePackets_node : (s.owePackets c g).node d g = s.node d g := by
  unfold State.owePackets
  split
  · rfl
  · split
    · exact oweOnce_node _
    · rfl

theorem owePackets_mem : (s.owePackets c g).mem = s.mem := by
  unfold State.owePackets
  split
  · rfl
  · split
    · exact oweOnce_mem _
    · rfl

/-- A node that is not ready does not act. -/
theorem nodeAct_unready (fuel : Nat) (h : s.node c g = some n) (hr : n.ready n.cur = false) : s.nodeAct c g fuel = s := by
  cases fuel with
  | zero => rfl
  | succ fuel =>
    unfold State.nodeAct
    rw [h]
    dsimp only
    rw [hr]
    rfl

/-- Without its local contribution an episode is not acted on, unless it is flushed. -/
theorem ready_local {e : Episode} (hl : n.isLocal = true) (ho : e.own = none) (hf : e.flushed = false) : n.ready e = false := by
  unfold Node.ready
  rw [hl, ho, hf]
  simp

/-- The timer of an inner node's episode does not start. -/
theorem timed_inner {e : Episode} (h : n.isRoot = false) : s.timed c g n e = (e, s) := by
  unfold State.timed
  rw [h]
  rfl

/-- A child's packet of the current episode enters it in its place. -/
theorem packetIn_current {p : Packet} {rest : List (BitVec 16 × Packet)} (hn : s.node c g = some n)
    (hf : n.kids.zipIdx.find? (fun x => s.deliverable g n x.1) = some (d, i)) (hdc : d ≠ c) (hk : s.node d g = some k)
    (ho : k.out = (n.fwd, p) :: rest) (hr : n.isRoot = false) (hl : n.isLocal = true) (hown : n.cur.own = none)
    (hfl : n.cur.flushed = false) :
    s.packetIn c g = ((s.setNode d g { k with out := rest }).setNode c g
      { n with cur := { n.cur with child := put n.cur.child i (n.unwired p) } }).owePackets c g := by
  have hc : (s.setNode d g { k with out := rest }).node c g = some n := (setNode_other hdc.symm).trans hn
  unfold State.packetIn
  rw [hn]
  dsimp only
  rw [hf]
  dsimp only
  rw [hk]
  dsimp only
  rw [ho]
  dsimp only
  rw [hc, Option.getD_some, if_pos rfl, timed_inner hr]
  exact nodeAct_unready 2 (owePackets_node.trans setNode_same) (ready_local hl hown hfl)

/-- Two packets that are there add. -/
theorem combine_two {e : Episode} {p q : Packet} (h : n.inputs e = [p, q]) (hp : p.empty = false) (hq : q.empty = false) :
    (n.combine e).data = n.addRows p.data q.data ∧ (n.combine e).leaves = p.leaves + q.leaves ∧
      (n.combine e).missing = (e.flushed || p.missing || q.missing) ∧ (n.combine e).empty = false := by
  have hf : [p, q].filter (fun p => !p.empty) = [p, q] := by simp [hp, hq]
  unfold Node.combine
  dsimp only
  rw [h, hf]
  refine ⟨rfl, rfl, ?_, rfl⟩
  simp [Bool.or_assoc]

theorem foldl_node {α : Type} {f : State → α → State} {l : List α} (h : ∀ t, ∀ x ∈ l, (f t x).node c g = t.node c g) (t : State) :
    (l.foldl f t).node c g = t.node c g := by
  induction l generalizing t with
  | nil => rfl
  | cons x l ih => exact (ih (fun t y hy => h t y (List.mem_cons_of_mem _ hy)) _).trans (h t x List.mem_cons_self)

/-- A flush marks the episode of a node that still waits for inputs. -/
theorem flushNode_node (hr : n.ready { n.cur with flushed := true } = false) (hc : c ∉ n.kids) :
    (s.flushNode c g n).node c g = some { n with cur := { n.cur with flushed := true } } := by
  unfold State.flushNode
  dsimp only
  have hact : ∀ {m : Node} (t : State), t.node c g = some m → m.ready m.cur = false → (t.nodeAct c g 2).node c g = some m :=
    fun t h hm => (congrArg (State.node · c g) (nodeAct_unready 2 h hm)).trans h
  refine hact _ ((foldl_node (fun t x hx => ?_) _).trans setNode_same) hr
  have hx1 : x.1 ≠ c := fun he => hc (he ▸ (List.mem_zipIdx' hx).2 ▸ List.getElem_mem _)
  split
  · rfl
  · split
    · rfl
    · exact setNode_other hx1.symm

/-- The timer of a root: before its time nothing, then a flush (R456). -/
theorem redTimer_spec {t0 : Nat} (hn : s.node c g = some n) (hr : n.isRoot = true) (hs : n.cur.since = some t0)
    (hf : n.cur.flushed = false) :
    (s.cycle.toNat < t0 + redTimeout → (s.redTimer c g).node c g = some n) ∧
    (t0 + redTimeout ≤ s.cycle.toNat → n.ready { n.cur with flushed := true } = false → c ∉ n.kids →
      (s.redTimer c g).node c g = some { n with cur := { n.cur with flushed := true } }) := by
  refine ⟨fun hlt => ?_, fun hge hrd hc => ?_⟩
  · unfold State.redTimer
    rw [hn]
    dsimp only
    rw [hr, hs, hf]
    dsimp only
    rw [Bool.not_true, if_neg Bool.false_ne_true, if_neg Bool.false_ne_true, if_pos hlt]
    exact (oweOnce_node _).trans hn
  · have hfl := flushNode_node (s := s) (g := g) hrd hc
    dsimp only at hfl
    unfold State.redTimer
    rw [hn]
    dsimp only
    rw [hr, hf]
    rw [hs] at hfl ⊢
    dsimp only
    rw [Bool.not_true, if_neg Bool.false_ne_true, if_neg Bool.false_ne_true, if_neg (Nat.not_lt.2 hge), hfl]
    exact (oweOnce_node _).trans hfl

/-- A flush that has come: of another episode it is dropped, of the current one it is noted (R456). -/
theorem flushIn_spec {e : BitVec 16} {r : List (BitVec 16)} (hn : s.node c g = some n) (hf : n.flush = e :: r) :
    (e ≠ n.fwd → s.flushIn c g = s.setNode c g { n with flush := r }) ∧
    (e = n.fwd → s.flushIn c g = s.flushNode c g { n with flush := r }) := by
  unfold State.flushIn
  rw [hn]
  dsimp only
  rw [hf]
  exact ⟨fun h => if_neg h, fun h => if_pos h⟩

theorem noticeIn_spec {w : Word} {r : List Word} (hn : s.node c g = some n) (h : n.notice = w :: r) :
    s.noticeIn c g = s.setNode c g { n with
      notice := r
      done := n.done ++ [w] } := by
  unfold State.noticeIn
  rw [hn]
  dsimp only
  rw [h]

end Sys2Proof.Machine

open Sys2Proof Sys2Proof.Machine

/-- Settles O50: what each event of a tree does at its node. -/
theorem reductionEvents : Obligations.ReductionEvents := by
  unfold Obligations.ReductionEvents
  intro s c g n hn
  refine ⟨fun d i k p rest hf hdc hk ho hr hl hown hfl => ⟨_, rfl, ?_⟩, fun e p q h hp hq => combine_two h hp hq,
    fun w r h => ?_, fun t0 hr hs hf => ?_, fun e r h => ?_⟩
  · rw [packetIn_current hn hf hdc hk ho hr hl hown hfl]
    exact ⟨owePackets_mem, owePackets_node.trans ((setNode_other hdc).trans setNode_same), owePackets_node.trans setNode_same⟩
  · exact congrArg Host.Outcome.next (noticeIn_spec hn h)
  · obtain ⟨hlt, hge⟩ := redTimer_spec hn hr hs hf
    exact ⟨fun h => ⟨_, rfl, hlt h⟩, fun h hrd hc => ⟨_, rfl, hge h hrd hc⟩⟩
  · obtain ⟨hne, heq⟩ := flushIn_spec hn h
    refine ⟨fun he => congrArg Host.Outcome.next (hne he), fun he hrd hc => ⟨_, rfl, ?_⟩⟩
    rw [heq he]
    exact flushNode_node (n := { n with flush := r }) hrd hc
end

section
/-! A frame that begins under a launch whose view presets set the reserved bits of MIRRORS: `Begun` expects the preset row as it
stands, and the row that holds MIRRORS keeps those bits zero (07 R182, 00 R10). -/

namespace Sys2Proof.Machine

/-- A launch of hamlet 0 whose presets set every bit. -/
def presetLaunch : Launch :=
  { seq := 0, hamlets := 1, tblroot := 0, digest := 0, views := BitVec.allOnes 2048, peal := 0, stashkib := 0, commonskib := 0,
    nframes := 0, tree := [], frames := [], held := [], words := [], total := 0, detection := none, finished := [], cls := 0 }

/-- A package that runs that launch, its core 0 as given. -/
def State.preset (co : Core) : State :=
  { State.reset with
    cores := [(0, co)]
    hamlets := [(0, { State.reset.ham 0 with seq := some 0 })]
    launches := [presetLaunch] }

/-- A frame that waits in the ready queue of an idle core. -/
def State.presetReady : State := State.preset { ready := [.fresh {} 0 []] }

/-- A stolen frame on its way to an idle core. -/
def State.presetStolen : State := State.preset { glean := .granted {} 0 [] false }

/-- The row of MIRRORS in the view block of context 0 of core 0. -/
def mirrorsRow (t : State) : Row := look 0 (t.ctx 0 0).store 11

/-- Where context 0 of core 0 has begun, `Begun` puts its row of MIRRORS at the launch's preset. -/
theorem Begun.mirrorsRow {t : State} {f : Frame} {seq : Word} {views : BitVec 2048} (h : Begun t 0 0 f seq views) :
    mirrorsRow t = views.extractLsb' 1536 512 := by
  obtain ⟨-, -, hstore, -⟩ := h
  exact hstore 11

/-- The frame is the next of its ready queue, and begins with the reserved bits zero. -/
theorem presetReady_begins :
    State.presetReady.savedFor 0 0 = none ∧ State.presetReady.nextReady 0 = some 0 ∧
    (State.presetReady.core 0).ready[0]? = some (.fresh {} 0 []) ∧
    mirrorsRow (State.presetReady.findWork 0 0) ≠ (State.presetReady.viewsOf (hamOf 0)).extractLsb' 1536 512 := by
  decide +kernel

/-- The stolen frame arrives at an idle context, and begins with the reserved bits zero. -/
theorem presetStolen_begins :
    (State.presetStolen.core 0).glean = .granted {} 0 [] false ∧ State.presetStolen.idleCtx 0 = some 0 ∧
    mirrorsRow (State.presetStolen.stolen 0) ≠ (State.presetStolen.viewsOf (hamOf 0)).extractLsb' 1536 512 := by
  decide +kernel

end Sys2Proof.Machine

open Sys2Proof Sys2Proof.Machine

/-- Refutes O51: a frame of the ready queue begins with the reserved bits of its MIRRORS zero, also where the launch's presets, which
the statement takes as they stand, have them set. -/
theorem not_workIsFound : ¬ Obligations.WorkIsFound := by
  unfold Obligations.WorkIsFound
  intro h
  obtain ⟨hsaved, hnext, hready, hrow⟩ := presetReady_begins
  obtain ⟨-, hwork, -⟩ := h State.presetReady
  obtain ⟨-, hsources⟩ := hwork 0 0
  obtain ⟨hfresh, -⟩ := hsources hsaved
  obtain ⟨hbegun, -⟩ := hfresh 0 {} 0 [] hnext hready
  exact hrow hbegun.mirrorsRow

/-- Refutes O52: a stolen frame that arrives begins with the reserved bits of its MIRRORS zero, also where the launch's presets,
which the statement takes as they stand, have them set. -/
theorem not_stealAndWakeEvents : ¬ Obligations.StealAndWakeEvents := by
  unfold Obligations.StealAndWakeEvents
  intro h
  obtain ⟨hglean, hidle, hrow⟩ := presetStolen_begins
  obtain ⟨-, -, -, hstolen, -⟩ := h State.presetStolen 0
  obtain ⟨harrive, -⟩ := hstolen {} 0 [] false hglean
  obtain ⟨t, hexec, hbegun, -⟩ := harrive 0 hidle
  obtain rfl : State.presetStolen.stolen 0 = t := Host.Outcome.next.inj hexec
  exact hrow hbegun.mirrorsRow
end

section
/-! Parks, saves and pre-emption (02 R29, R48, R49, R62, R63, 19 R441, R449). -/

namespace Sys2Proof.Machine

/-- A field of a record: its width and its value. -/
abbrev Field := (w : Nat) × BitVec w

/-- The number that fields make, the first the lowest, to a base. -/
def packedIn (b : Nat) : List Field → Nat
  | [] => 0
  | f :: r => f.2.toNat + b ^ f.1 * packedIn b r

/-- The number that fields make in bits. -/
def packed (fs : List Field) : Nat := packedIn 2 fs

/-- The bits that fields take. -/
def width (fs : List Field) : Nat := (fs.map Sigma.fst).sum

/-- A field is found above the bits of those before it. -/
theorem packed_field {fs : List Field} {i w : Nat} {v : BitVec w} (h : fs[i]? = some ⟨w, v⟩) :
    packed fs / 2 ^ width (fs.take i) % 2 ^ w = v.toNat := by
  induction fs generalizing i with
  | nil => exact nomatch h
  | cons f r ih =>
    cases i with
    | zero =>
      obtain rfl : f = ⟨w, v⟩ := Option.some.inj h
      show (v.toNat + 2 ^ w * packed r) / 2 ^ 0 % 2 ^ w = v.toNat
      rw [Nat.pow_zero, Nat.div_one, Nat.add_mul_mod_self_left, Nat.mod_eq_of_lt v.isLt]
    | succ i =>
      have hw : width ((f :: r).take (i + 1)) = f.1 + width (r.take i) := rfl
      rw [hw, Nat.pow_add, ← Nat.div_div_eq_div_mul]
      show (f.2.toNat + 2 ^ f.1 * packed r) / 2 ^ f.1 / _ % _ = _
      rw [Nat.add_mul_div_left _ _ (Nat.two_pow_pos _), Nat.div_eq_of_lt f.2.isLt, Nat.zero_add]
      exact ih h

/-- A field of a row of packed fields. -/
theorem extract_packed {fs : List Field} {i k w : Nat} {v : BitVec w} (h : fs[i]? = some ⟨w, v⟩) (hk : width (fs.take i) = k)
    (hb : k + w ≤ 512) : (BitVec.ofNat 512 (packed fs)).extractLsb' k w = v := by
  have hp := packed_field h
  rw [hk] at hp
  apply BitVec.eq_of_toNat_eq
  rw [BitVec.extractLsb'_toNat, BitVec.toNat_ofNat, Nat.shiftRight_eq_div_pow, ← hp, show 512 = k + (512 - k) by omega, Nat.pow_add,
    Nat.mod_mul_right_div_self]
  exact Nat.mod_mod_of_dvd _ (Nat.pow_dvd_pow 2 (by omega))

/-- A flag of a row of packed fields. -/
theorem bit_packed {fs : List Field} {i k : Nat} {x : Bool} (h : fs[i]? = some ⟨1, BitVec.ofBool x⟩) (hk : width (fs.take i) = k)
    (hb : k + 1 ≤ 512) : (BitVec.ofNat 512 (packed fs)).getLsbD k = x := by
  have he := congrArg (BitVec.getLsbD · 0) (extract_packed h hk hb)
  simpa using he

/-- The fields of a frame's 64 bytes (02 R29), with the unused bits between them. -/
def Frame.fields (f : Frame) : List Field :=
  [⟨57, f.pc⟩, ⟨2, f.kind⟩, ⟨2, f.prio⟩, ⟨1, BitVec.ofBool f.published⟩, ⟨2, 0#2⟩, ⟨57, f.fp⟩, ⟨7, 0#7⟩, ⟨32, f.synch⟩, ⟨32, f.parentj⟩,
    ⟨32, f.features⟩, ⟨32, f.repstate⟩, ⟨64, f.arg⟩, ⟨20, f.originpkg⟩, ⟨32, f.originh⟩, ⟨1, BitVec.ofBool f.root⟩,
    ⟨1, BitVec.ofBool f.donated⟩, ⟨10, 0#10⟩, ⟨32, f.tile[0]⟩, ⟨32, f.tile[1]⟩, ⟨32, f.tile[2]⟩, ⟨32, f.tile[3]⟩]

theorem flag_ofBool (x : Bool) (n : Nat) : (if x then 2 ^ n else 0) = (BitVec.ofBool x).toNat * 2 ^ n := by cases x <;> simp

/-- The places of a frame's fields, to any base. -/
theorem packedIn_fields (b : Nat) (f : Frame) : packedIn b f.fields =
    f.tile[3].toNat * b ^ 480 + f.tile[2].toNat * b ^ 448 + f.tile[1].toNat * b ^ 416 + f.tile[0].toNat * b ^ 384
      + (BitVec.ofBool f.donated).toNat * b ^ 373 + (BitVec.ofBool f.root).toNat * b ^ 372 + f.originh.toNat * b ^ 340
      + f.originpkg.toNat * b ^ 320 + f.arg.toNat * b ^ 256 + f.repstate.toNat * b ^ 224 + f.features.toNat * b ^ 192
      + f.parentj.toNat * b ^ 160 + f.synch.toNat * b ^ 128 + f.fp.toNat * b ^ 64 + (BitVec.ofBool f.published).toNat * b ^ 61
      + f.prio.toNat * b ^ 59 + f.kind.toNat * b ^ 57 + f.pc.toNat := by
  simp only [Frame.fields, packedIn, BitVec.toNat_ofNat, Nat.zero_mod]
  ring

theorem row_packed (f : Frame) : f.row = BitVec.ofNat 512 (packed f.fields) := by
  unfold Frame.row packed
  rw [packedIn_fields]
  simp only [flag_ofBool]

/-- The widths of a frame's fields. -/
def frameWidths : List Nat := [57, 2, 2, 1, 2, 57, 7, 32, 32, 32, 32, 64, 20, 32, 1, 1, 10, 32, 32, 32, 32]

theorem width_fields (f : Frame) (i : Nat) : width (f.fields.take i) = (frameWidths.take i).sum := by
  unfold width
  rw [List.map_take]
  rfl

/-- A field of a frame's row. -/
theorem row_field {f : Frame} {k w : Nat} {v : BitVec w} (i : Nat) (h : f.fields[i]? = some ⟨w, v⟩)
    (hk : (frameWidths.take i).sum = k) (hb : k + w ≤ 512) : f.row.extractLsb' k w = v := by
  rw [row_packed]
  exact extract_packed h ((width_fields f i).trans hk) hb

theorem row_bit {f : Frame} {k : Nat} {x : Bool} (i : Nat) (h : f.fields[i]? = some ⟨1, BitVec.ofBool x⟩)
    (hk : (frameWidths.take i).sum = k) (hb : k + 1 ≤ 512) : f.row.getLsbD k = x := by
  rw [row_packed]
  exact bit_packed h ((width_fields f i).trans hk) hb

theorem row_tile (f : Frame) : #v[f.row.extractLsb' 384 32, f.row.extractLsb' 416 32, f.row.extractLsb' 448 32, f.row.extractLsb' 480 32] =
    f.tile := by
  have h0 : f.row.extractLsb' 384 32 = f.tile[0] := row_field 17 rfl (by decide) (by decide)
  have h1 : f.row.extractLsb' 416 32 = f.tile[1] := row_field 18 rfl (by decide) (by decide)
  have h2 : f.row.extractLsb' 448 32 = f.tile[2] := row_field 19 rfl (by decide) (by decide)
  have h3 : f.row.extractLsb' 480 32 = f.tile[3] := row_field 20 rfl (by decide) (by decide)
  rw [h0, h1, h2, h3]
  ext i hi
  match i, hi with
  | 0, _ => rfl
  | 1, _ => rfl
  | 2, _ => rfl
  | 3, _ => rfl

/-- No field of a frame overlaps another (02 R29). -/
theorem frameOf_row (f : Frame) : frameOf f.row = f := by
  have hdonated : f.row.getLsbD 373 = f.donated := row_bit 15 rfl (by decide) (by decide)
  have hroot : f.row.getLsbD 372 = f.root := row_bit 14 rfl (by decide) (by decide)
  have hpublished : f.row.getLsbD 61 = f.published := row_bit 3 rfl (by decide) (by decide)
  have hfp : f.row.extractLsb' 64 57 = f.fp := row_field 5 rfl (by decide) (by decide)
  have harg : f.row.extractLsb' 256 64 = f.arg := row_field 11 rfl (by decide) (by decide)
  have horiginh : f.row.extractLsb' 340 32 = f.originh := row_field 13 rfl (by decide) (by decide)
  have horiginpkg : f.row.extractLsb' 320 20 = f.originpkg := row_field 12 rfl (by decide) (by decide)
  have hrepstate : f.row.extractLsb' 224 32 = f.repstate := row_field 10 rfl (by decide) (by decide)
  have hfeatures : f.row.extractLsb' 192 32 = f.features := row_field 9 rfl (by decide) (by decide)
  have hparentj : f.row.extractLsb' 160 32 = f.parentj := row_field 8 rfl (by decide) (by decide)
  have hsynch : f.row.extractLsb' 128 32 = f.synch := row_field 7 rfl (by decide) (by decide)
  have hprio : f.row.extractLsb' 59 2 = f.prio := row_field 2 rfl (by decide) (by decide)
  have hkind : f.row.extractLsb' 57 2 = f.kind := row_field 1 rfl (by decide) (by decide)
  have hpc : f.row.extractLsb' 0 57 = f.pc := row_field 0 rfl (by decide) (by decide)
  rw [frameOf, row_tile, hdonated, hroot, hpublished, hfp, harg, horiginh, horiginpkg, hrepstate, hfeatures, hparentj, hsynch, hprio, hkind, hpc]

variable {s t u v : State} {c k h : Nat} {p : Parking} {d : Strand}

/-! ### What a strand that leaves its context leaves as it is -/

/-- `t` is `s` but for a mill, a replay queue, and counters. -/
structure State.KeepsWork (s t : State) : Prop where
  mem : t.mem = s.mem
  hamlets : t.hamlets = s.hamlets
  hub : t.hub = s.hub
  launches : t.launches = s.launches
  ctx : ∀ e j, t.ctx e j = s.ctx e j
  ready : ∀ e, (t.core e).ready = (s.core e).ready
  saved : ∀ e, (t.core e).saved = (s.core e).saved

namespace State.KeepsWork

theorem refl (s : State) : s.KeepsWork s := ⟨rfl, rfl, rfl, rfl, fun _ _ => rfl, fun _ => rfl, fun _ => rfl⟩

theorem trans (a : s.KeepsWork t) (b : t.KeepsWork u) : s.KeepsWork u :=
  ⟨b.mem.trans a.mem, b.hamlets.trans a.hamlets, b.hub.trans a.hub, b.launches.trans a.launches, fun e j => (b.ctx e j).trans (a.ctx e j),
    fun e => (b.ready e).trans (a.ready e), fun e => (b.saved e).trans (a.saved e)⟩

theorem ham (a : s.KeepsWork t) (g : Nat) : t.ham g = s.ham g := by
  rw [State.ham, a.hamlets]
  rfl

theorem slices (a : s.KeepsWork t) (g : Nat) : t.slices g = s.slices g := by
  rw [State.slices, State.launchOf, a.ham, a.launches]
  rfl

theorem noCell (a : s.KeepsWork t) (g : Nat) : t.noCell g p = s.noCell g p := by
  have hr : ∀ g, t.records g = s.records g := fun g => by
    unfold State.records
    simp only [a.ham, a.ready]
  have hk : t.keyHam g p.cond p.key = s.keyHam g p.cond p.key := by
    unfold State.keyHam State.wordHamlet State.region
    rw [a.hub]
  unfold State.noCell
  simp only [hr, hk, a.ham]

end State.KeepsWork

/-- A core that is replaced but for its work. -/
theorem setCore_keepsWork {co : Core} (hc : co.ctxs = (s.core c).ctxs) (hr : co.ready = (s.core c).ready) (hs : co.saved = (s.core c).saved) :
    s.KeepsWork (s.setCore c co) := by
  refine ⟨rfl, rfl, rfl, rfl, fun e j => ?_, fun e => ?_, fun e => ?_⟩
  · by_cases he : e = c
    · subst he
      rw [State.ctx, setCore_core_same, hc]
      rfl
    · rw [State.ctx, setCore_core_other _ _ _ he]
      rfl
  · by_cases he : e = c
    · subst he
      rw [setCore_core_same, hr]
    · rw [setCore_core_other _ _ _ he]
  · by_cases he : e = c
    · subst he
      rw [setCore_core_same, hs]
    · rw [setCore_core_other _ _ _ he]

theorem leaveMill_keepsWork : s.KeepsWork (s.leaveMill c k) := by
  unfold State.leaveMill
  split
  · exact setCore_keepsWork rfl rfl rfl
  · exact .refl s

/-- A strand given up keeps its header; its context's replays take its tag. -/
theorem giveUp_spec : s.KeepsWork (s.giveUp c k d).2 ∧ ∃ pr ts tg, (s.giveUp c k d).1 = { d with
    priv := pr
    tokScope := ts
    tag := tg } := by
  unfold State.giveUp
  dsimp only
  split
  · exact ⟨(⟨rfl, rfl, rfl, rfl, fun _ _ => rfl, fun _ => rfl, fun _ => rfl⟩ : s.KeepsWork s.fresh.1).trans
      (setCore_keepsWork rfl rfl rfl), _, _, _, rfl⟩
  · exact ⟨.refl s, _, _, _, rfl⟩

/-! ### Records (R49, R441) -/

theorem callIdle_core (e : Nat) : (s.callIdle c).core e = s.core e := by
  unfold State.callIdle
  split <;> rfl

theorem callIdle_mem : (s.callIdle c).mem = s.mem := by
  unfold State.callIdle
  split <;> rfl

theorem makeReady_ready (r : Ready) : ((s.makeReady c r).core c).ready = (s.core c).ready ++ [r] := by
  unfold State.makeReady
  dsimp only
  rw [callIdle_core, setCore_core_same]

theorem makeReady_ctx (r : Ready) (e j : Nat) : (s.makeReady c r).ctx e j = s.ctx e j := by
  unfold State.makeReady
  dsimp only
  rw [State.ctx, callIdle_core]
  by_cases he : e = c
  · subst he
    rw [setCore_core_same]
    rfl
  · rw [setCore_core_other _ _ _ he]
    rfl

theorem addRecord_cores (w : Waiter) : (s.addRecord h w).cores = s.cores := by
  unfold State.addRecord
  dsimp only
  split <;> rfl

theorem mark_waiters (f : Marks → Marks) : ((s.mark h f).ham h).waiters = (s.ham h).waiters := by
  rw [State.mark, setHam_ham_same]

/-- A record is linked with its cell. -/
theorem addRecord_ham (w : Waiter) : ∃ ov sl li, (((s.addRecord h w).ham h).waiters = (s.ham h).waiters ++ [{ w with
    overflow := ov
    slot := sl
    listed := li }]) := by
  unfold State.addRecord
  dsimp only
  split
  · rw [mark_waiters, setHam_ham_same]
    exact ⟨_, _, _, rfl⟩
  · rw [setHam_ham_same]
    exact ⟨_, _, _, rfl⟩

theorem addRecord_ham_other {g : Nat} (w : Waiter) (hg : g ≠ h) : (s.addRecord h w).ham g = s.ham g := by
  unfold State.addRecord
  dsimp only
  split
  · rw [State.mark, setHam_ham_other _ _ _ hg, setHam_ham_other _ _ _ hg]
  · rw [setHam_ham_other _ _ _ hg]

theorem linkRecord_ctx (w : Waiter) (e j : Nat) : (s.linkRecord h p w).ctx e j = s.ctx e j := by
  have ha : ∀ (t : State) g w, (t.addRecord g w).ctx e j = t.ctx e j := fun t g w => by
    rw [State.ctx, State.core, addRecord_cores]
    rfl
  unfold State.linkRecord
  dsimp only
  split
  · exact makeReady_ctx _ _ _
  · split
    · exact ha _ _ _
    · exact (ha _ _ _).trans (ha _ _ _)

/-- A record is in its hamlet's lists, or, where its event has come, in its core's ready queue. -/
theorem linkRecord_linked (w : Waiter) (hc : 8 * h + w.core = c) : ∃ w' : Waiter, w'.key = w.key ∧ w'.cond = w.cond ∧
    w'.episode = w.episode ∧ w'.core = w.core ∧ w'.watch = w.watch ∧ w'.owned = w.owned ∧ w'.save = w.save ∧ w'.frame = w.frame ∧
    w'.marks = w.marks ∧ if p.woken then w'.answer = p.answer ∧ .woken w' ∈ ((s.linkRecord h p w).core c).ready
      else w' ∈ ((s.linkRecord h p w).ham h).waiters := by
  subst hc
  cases hw : p.woken with
  | true =>
    refine ⟨{ w with answer := p.answer }, rfl, rfl, rfl, rfl, rfl, rfl, rfl, rfl, rfl, rfl, ?_⟩
    unfold State.linkRecord
    rw [if_pos hw, makeReady_ready]
    exact List.mem_append_right _ List.mem_cons_self
  | false =>
    obtain ⟨ov, sl, li, ha⟩ := addRecord_ham (s := s) (h := h) w
    have hmem : { w with
        overflow := ov
        slot := sl
        listed := li } ∈ ((s.addRecord h w).ham h).waiters := ha ▸ List.mem_append_right _ List.mem_cons_self
    have hwait : ((s.linkRecord h p w).ham h).waiters = ((s.addRecord h w).ham h).waiters := by
      unfold State.linkRecord
      rw [if_neg (ne_true_of_eq_false hw)]
      dsimp only
      by_cases hg : s.keyHam h w.cond w.key = h
      · rw [decide_eq_true hg, Bool.true_or, if_pos rfl]
      · split
        · rfl
        · rw [addRecord_ham_other _ (Ne.symm hg)]
    simp only [Bool.false_eq_true, if_false, hwait]
    exact ⟨{ w with
      overflow := ov
      slot := sl
      listed := li }, rfl, rfl, rfl, rfl, rfl, rfl, rfl, rfl, rfl, hmem⟩

/-- The record of a park. -/
def State.parkRecord (s : State) (c k : Nat) (p : Parking) (d d' : Strand) : Waiter :=
  { key := p.key, cond := p.cond, episode := p.episode,
    save := saveBase (s.ctx c k) d (planOf d.map false (p.owned || s.owns c k) (s.slices (hamOf c))), core := c % 8, strand := d',
    frame := d'.frame ((s.ctx c k).pc.setWidth 57) (s.ctx c k).repstate, owned := p.owned || s.owns c k, marks := (s.ctx c k).marks,
    watch := none, overflow := false, listed := false, answer := none }

/-- A park whose record finds its cells is linked, and its context becomes IDLE (R48, R49). -/
theorem linkPark_linked (hp : (s.ctx c k).parking = some p) (hd : (s.ctx c k).strand = some d) (hn : s.noCell (hamOf c) p = false) :
    Linked s (s.linkPark c k) c k p d := by
  have hl : s.KeepsWork (s.leaveMill c k) := leaveMill_keepsWork
  obtain ⟨hg, pr, ts, tg, hgd⟩ := giveUp_spec (s := s.leaveMill c k) (c := c) (k := k) (d := d)
  have hcore : 8 * hamOf c + c % 8 = c := by
    unfold hamOf
    omega
  have hidle : ∀ t : State, ((t.toIdle c k).ctx c k) = (t.ctx c k).idled := fun t => by
    show (State.setCtx t c k _).ctx c k = _
    rw [setCtx_ctx_same]
  unfold State.linkPark
  dsimp only
  rw [hp, hd]
  dsimp only
  rw [hl.noCell, hn, hl.slices]
  rw [if_neg Bool.false_ne_true]
  have hframe : ((s.leaveMill c k).giveUp c k d).1.frame ((s.ctx c k).pc.setWidth 57) (s.ctx c k).repstate =
      d.frame ((s.ctx c k).pc.setWidth 57) (s.ctx c k).repstate := by
    rw [hgd]
    rfl
  have hctx : ((((s.leaveMill c k).giveUp c k d).2.toIdle c k).linkRecord (hamOf c) p
      (s.parkRecord c k p d ((s.leaveMill c k).giveUp c k d).1)).ctx c k = (((s.leaveMill c k).giveUp c k d).2.ctx c k).idled := by
    rw [linkRecord_ctx, hidle]
  obtain ⟨w, hkey, hcond, hep, hco, hwatch, howned, hsave, hfr, hmarks, hin⟩ :=
    linkRecord_linked (s := ((s.leaveMill c k).giveUp c k d).2.toIdle c k) (p := p)
      (s.parkRecord c k p d ((s.leaveMill c k).giveUp c k d).1) hcore
  exact ⟨congrArg Ctx.status hctx, congrArg Ctx.strand hctx, w, hkey, hcond, hep, hco, hwatch, howned, hsave, hfr.trans hframe, hmarks, hin⟩

/-- A park whose record finds no cell waits for one (R441). -/
theorem linkPark_waits (hp : (s.ctx c k).parking = some p) (hd : (s.ctx c k).strand = some d) (hn : s.noCell (hamOf c) p = true) :
    (s.linkPark c k).mem = s.mem ∧ (s.linkPark c k).ctx c k = { s.ctx c k with
      parking := some { p with
        waiting := true
        owned := p.owned || s.owns c k } } := by
  have hl : s.KeepsWork (s.leaveMill c k) := leaveMill_keepsWork
  unfold State.linkPark
  dsimp only
  rw [hp, hd]
  dsimp only
  rw [hl.noCell, hn, if_pos rfl]
  refine ⟨callIdle_mem.trans hl.mem, ?_⟩
  rw [State.ctx, callIdle_core]
  show (State.setCtx _ c k _).ctx c k = _
  rw [setCtx_ctx_same, ← hd]

/-! ### The save path (R48) -/

variable {whole : Bool} {again : Instr} {go : State → State}

theorem writeSave_waits (hd : (s.ctx c k).strand = some d) (h : s.saveWaits c k whole d = some u) :
    s.writeSave c k whole again go = u.owe again := by
  unfold State.writeSave
  dsimp only
  rw [hd]
  dsimp only
  unfold State.saveWaits at h
  dsimp only at h
  rw [h]

theorem writeSave_done (hd : (s.ctx c k).strand = some d) (h : s.saveWaits c k whole d = none) (ht : s.savedAt c k whole d = (t, none)) :
    s.writeSave c k whole again go = go t := by
  unfold State.writeSave
  dsimp only
  rw [hd]
  dsimp only
  unfold State.saveWaits at h
  dsimp only at h
  rw [h]
  dsimp only
  unfold State.savedAt at ht
  dsimp only at ht
  generalize State.savePut _ _ _ _ _ = r at ht ⊢
  obtain ⟨r, _ | e⟩ := r
  · exact congrArg go (congrArg Prod.fst ht)
  · exact nomatch (congrArg Prod.snd ht : some e = none)

theorem writeSave_fault {cause : BitVec 6} {va : Word} (hd : (s.ctx c k).strand = some d) (h : s.saveWaits c k whole d = none)
    (ht : s.savedAt c k whole d = (t, some (cause, va))) :
    s.writeSave c k whole again go = ((t.as c k).enterTrap false true cause va (s.ctx c k).pc).as s.curCore s.curCtx := by
  unfold State.writeSave
  dsimp only
  rw [hd]
  dsimp only
  unfold State.saveWaits at h
  dsimp only at h
  rw [h]
  dsimp only
  unfold State.savedAt at ht
  dsimp only at ht
  generalize State.savePut _ _ _ _ _ = r at ht ⊢
  obtain ⟨r, _ | e⟩ := r
  · exact nomatch (congrArg Prod.snd ht : none = some (cause, va))
  · obtain ⟨rfl, he⟩ := Prod.mk.inj ht
    rw [Option.some.inj he]

/-- A park goes on once nothing that it waits for is left (R48). -/
theorem parkStep_spec {c : CoreId} {k : CtxId} (hp : (s.ctx c.val k.val).parking = some p) (hs : (s.ctx c.val k.val).status = .parking)
    (hw : p.waiting = false) :
    (s.settled c.val k.val = false → s.parkStep c k = s.owe (.parkSaveDone c k)) ∧
    (s.settled c.val k.val = true → s.parkStep c k =
      s.writeSave c.val k.val false (.parkSaveDone c k) fun t => t.linkPark c.val k.val) := by
  unfold State.parkStep
  dsimp only
  rw [hp]
  dsimp only
  rw [hs, hw]
  refine ⟨fun h => ?_, fun h => ?_⟩
  · rw [h]
    rfl
  · rw [h]
    rfl

/-- A save goes on once the results have returned and nothing that it waits for is left (R63). -/
theorem saveStep_spec {c : CoreId} {k : CtxId} (hp : (s.ctx c.val k.val).parking = some p) (hs : (s.ctx c.val k.val).status = .saving) :
    ((s.ctx c.val k.val).returned = false ∨ s.settled c.val k.val = false → s.saveStep c k = s.owe (.saveComplete c k)) ∧
    ((s.ctx c.val k.val).returned = true → s.settled c.val k.val = true → s.saveStep c k =
      (((s.as c.val k.val).commitAll).as s.curCore s.curCtx).writeSave c.val k.val p.whole (.saveComplete c k) fun t =>
        t.endSave c.val k.val) := by
  unfold State.saveStep
  dsimp only
  rw [hp]
  dsimp only
  rw [hs, if_neg (not_not.2 rfl)]
  refine ⟨fun h => if_pos ?_, fun h1 h2 => if_neg ?_⟩
  · rcases h with h | h
    · rw [h]
      rfl
    · rw [h, Bool.not_false, Bool.or_true]
  · rw [h1, h2]
    decide

/-- The record of a strand that is saved from its context (R63). -/
theorem endSave_spec (hp : (s.ctx c k).parking = some p) (hd : (s.ctx c k).strand = some d) :
    ((s.endSave c k).ctx c k).status = .idle ∧ ∃ w : Saved, ((s.endSave c k).core c).saved = (s.core c).saved ++ [w] ∧ w.ctx = k ∧
      w.released = false ∧ w.whole = p.whole ∧ w.strand.notice = (p.whole || d.notice) ∧ w.owned = s.owns c k ∧
      w.frame = d.frame ((s.ctx c k).pc.setWidth 57) (s.ctx c k).repstate ∧
      w.save = if p.whole then sext57 (s.ctx c k).savearea
        else saveBase (s.ctx c k) d (planOf d.map false (s.owns c k) (s.slices (hamOf c))) := by
  obtain ⟨hg, pr, ts, tg, hgd⟩ := giveUp_spec (s := s.unquiesce c k) (c := c) (k := k) (d := { d with notice := p.whole || d.notice })
  have hl : ((s.unquiesce c k).giveUp c k { d with notice := p.whole || d.notice }).2.KeepsWork
    (((s.unquiesce c k).giveUp c k { d with notice := p.whole || d.notice }).2.leaveMill c k) := leaveMill_keepsWork
  have hsaved : ((((s.unquiesce c k).giveUp c k { d with notice := p.whole || d.notice }).2.leaveMill c k).core c).saved = (s.core c).saved :=
    (hl.saved c).trans (hg.saved c)
  have htoIdle : ∀ t : State, ((t.toIdle c k).ctx c k).status = .idle ∧ ((t.toIdle c k).core c).saved = (t.core c).saved := fun t => by
    refine ⟨?_, ?_⟩
    · show ((State.setCtx t c k _).ctx c k).status = _
      rw [setCtx_ctx_same]
      rfl
    · show ((State.setCtx t c k _).core c).saved = _
      rw [State.setCtx, setCore_core_same]
  unfold State.endSave
  dsimp only
  rw [hp, hd]
  dsimp only
  refine ⟨(htoIdle _).1, ?_⟩
  rw [(htoIdle _).2, setCore_core_same, hsaved]
  refine ⟨_, rfl, rfl, rfl, rfl, ?_, rfl, ?_, rfl⟩
  · rw [hgd]
  · rw [hgd]
    rfl

/-! ### Pre-emption (R63, R449) -/

/-- The start of a count changes nothing else of a context. -/
theorem startCount_ctx (e j : Nat) : ∃ a b n, (s.startCount c k).ctx e j = { s.ctx e j with
    counts := a
    since := b
    deadline := n } := by
  unfold State.startCount
  dsimp only
  split
  · exact ⟨_, _, _, rfl⟩
  · rw [setCtx_ctx]
    split
    · next h =>
      obtain ⟨rfl, rfl⟩ := h
      exact ⟨_, _, _, rfl⟩
    · exact ⟨_, _, _, rfl⟩

theorem startCount_mem : (s.startCount c k).mem = s.mem := by
  unfold State.startCount
  dsimp only
  split <;> rfl

/-- A count begins at the leader, unless an earlier request to another member counts already. -/
theorem startCount_starts (h : (s.ctx c k).preempt = true ∨ ∀ m ∈ s.gangOf c k, (s.ctx m.1 m.2).preempt = false) :
    (s.startCount c k).ctx (s.leaderOf c k).1 (s.leaderOf c k).2 = { s.ctx (s.leaderOf c k).1 (s.leaderOf c k).2 with
      counts := true
      since := s.cycle.toNat
      deadline := 0 } := by
  unfold State.startCount
  dsimp only
  rw [if_neg, setCtx_ctx_same]
  rcases h with h | h
  · rw [h]
    simp
  · have hno : ((s.gangOf c k).any fun m => (s.ctx m.1 m.2).preempt) = false := List.any_eq_false.2 fun m hm => ne_true_of_eq_false (h m hm)
    rw [hno, Bool.and_false]
    exact Bool.false_ne_true

theorem oweOnce_ctx (i : Instr) (e j : Nat) : (s.oweOnce i).ctx e j = s.ctx e j := by
  unfold State.oweOnce
  split <;> rfl

theorem oweOnce_owed (i : Instr) : i ∈ (s.oweOnce i).agenda := by
  unfold State.oweOnce
  split
  · next h => exact List.contains_iff_mem.1 h
  · exact List.mem_append_right _ List.mem_cons_self

/-- A context with a strand keeps a pre-emption request with its area (R63). -/
theorem askSave_spec {c : CoreId} {k : CtxId} {area : BitVec 57} (hk : k.val ≠ 4)
    (hs : (s.ctx c.val k.val).status = .running ∨ (s.ctx c.val k.val).status = .following ∨ (s.ctx c.val k.val).status = .stopped) :
    s.askSave c k area = ((s.startCount c.val k.val).setCtx c.val k.val { (s.startCount c.val k.val).ctx c.val k.val with
      preempt := true
      savearea := area }).oweOnce (.saveDeadlineExpiry c k) := by
  unfold State.askSave
  rw [if_neg hk]
  rcases hs with h | h | h <;> rw [h]

/-- A member of a gang past its deadline: it is saved whole, and the Deadline Save is marked. -/
def State.SavedLate (t : State) (m : Nat × Nat) : Prop :=
  (t.ctx m.1 m.2).status = .saving ∧ ((t.ctx m.1 m.2).parking.map Parking.whole) = some true ∧
    (t.ham (hamOf m.1)).marks.deadline = true

theorem beginSave_same {m : Nat × Nat} : ((s.beginSave m.1 m.2 true).ctx m.1 m.2).status = .saving ∧
    (((s.beginSave m.1 m.2 true).ctx m.1 m.2).parking.map Parking.whole) = some true := by
  have hx : ∀ x : Ctx, ((s.setCtx m.1 m.2 x).ctx m.1 m.2) = x := fun x => setCtx_ctx_same _ _ _ _
  refine ⟨?_, ?_⟩
  · show ((s.setCtx m.1 m.2 _).ctx m.1 m.2).status = _
    rw [hx]
  · show (((s.setCtx m.1 m.2 _).ctx m.1 m.2).parking.map Parking.whole) = _
    rw [hx]
    rfl

theorem beginSave_other {m n : Nat × Nat} (h : n ≠ m) : (s.beginSave m.1 m.2 true).ctx n.1 n.2 = s.ctx n.1 n.2 := by
  show (s.setCtx m.1 m.2 _).ctx n.1 n.2 = _
  rw [setCtx_ctx, if_neg fun he => h (Prod.ext he.1 he.2)]

theorem lateSave_marks (m n : Nat × Nat) (h : hamOf n.1 = hamOf m.1 ∨ (s.ham (hamOf n.1)).marks.deadline = true) :
    (((s.beginSave m.1 m.2 true).mark (hamOf m.1) Marks.late).ham (hamOf n.1)).marks.deadline = true := by
  by_cases hh : hamOf n.1 = hamOf m.1
  · rw [hh, State.mark, setHam_ham_same]
    rfl
  · rw [State.mark, setHam_ham_other _ _ _ hh]
    exact h.resolve_left hh

/-- Past the deadline every member is saved whole. -/
theorem lateSaves (l : List (Nat × Nat)) (s : State) (m : Nat × Nat) (h : m ∈ l ∨ s.SavedLate m) :
    (l.foldl (fun t m => (t.beginSave m.1 m.2 true).mark (hamOf m.1) Marks.late) s).SavedLate m := by
  induction l generalizing s with
  | nil => exact h.resolve_left List.not_mem_nil
  | cons n l ih =>
    refine ih _ ?_
    by_cases hm : m ∈ l
    · exact .inl hm
    · by_cases hn : m = n
      · subst hn
        exact .inr ⟨beginSave_same.1, beginSave_same.2, lateSave_marks m m (.inl rfl)⟩
      · have hs : s.SavedLate m := h.resolve_left fun h => (List.mem_cons.1 h).elim hn hm
        obtain ⟨hst, hpk, hmk⟩ := hs
        exact .inr ⟨(congrArg Ctx.status (beginSave_other hn)).trans hst,
          (congrArg (fun x => x.parking.map Parking.whole) (beginSave_other hn)).trans hpk, lateSave_marks n m (.inr hmk)⟩

theorem lateSaves_mem (l : List (Nat × Nat)) (s : State) :
    (l.foldl (fun t m => (t.beginSave m.1 m.2 true).mark (hamOf m.1) Marks.late) s).mem = s.mem := by
  induction l generalizing s with
  | nil => rfl
  | cons n l ih => exact (ih _).trans rfl

theorem counted_eq (x : Ctx) (now : Nat) : x.counted now = if x.counts then
    x.deadline + (if (x.status = .running || x.status = .following) && !x.handling then now - x.since else 0) else 0 := by
  unfold Ctx.counted
  cases x.counts <;> rfl

/-- A request's deadline: it counts on, or its context's whole gang is saved whole (R449). -/
theorem deadlineStep_spec {c : CoreId} {k : CtxId} (hp : (s.ctx c.val k.val).preempt = true) :
    let l := s.leaderOf c.val k.val
    let y := s.ctx l.1 l.2
    let limit := if (s.core l.1).pdeadline = 0 then 65536 else (s.core l.1).pdeadline.toNat
    let on : Bool := (y.status = .running || y.status = .following) && !y.handling
    let n := if y.counts then y.deadline + (if on then s.cycle.toNat - y.since else 0) else 0
    let due : Bool := (s.gangOf c.val k.val).any fun m => (s.ctx m.1 m.2).wordDue
    (on = false ∨ n < limit ∨ due = true → s.deadlineStep c k = (s.setCtx l.1 l.2 { y with
      counts := true
      deadline := n
      since := s.cycle.toNat }).owe (.saveDeadlineExpiry c k)) ∧
    (on = true → limit ≤ n → due = false → s.deadlineStep c k =
      (s.gangOf c.val k.val).foldl (fun t m => (t.beginSave m.1 m.2 true).mark (hamOf m.1) Marks.late) s) := by
  intro l y limit on n due
  have hn : y.counted s.cycle.toNat = n := counted_eq _ _
  have hstep : s.deadlineStep c k = if on && limit ≤ n && !due then
        (s.gangOf c.val k.val).foldl (fun t m => (t.beginSave m.1 m.2 true).mark (hamOf m.1) Marks.late) s
      else (s.setCtx l.1 l.2 { y with
        counts := true
        deadline := n
        since := s.cycle.toNat }).owe (.saveDeadlineExpiry c k) := by
    rw [← hn]
    unfold State.deadlineStep
    dsimp only
    rw [hp]
    rfl
  rw [hstep]
  refine ⟨fun h => if_neg ?_, fun h1 h2 h3 => if_pos ?_⟩
  · rcases h with h | h | h
    · rw [h]
      exact Bool.false_ne_true
    · rw [decide_eq_false (Nat.not_le.2 h), Bool.and_false]
      exact Bool.false_ne_true
    · rw [h, Bool.not_true, Bool.and_false]
      exact Bool.false_ne_true
  · rw [h1, decide_eq_true h2, h3]
    rfl

/-- Device runtime releases the strands saved from a context number (R63, 03 R69). -/
theorem release_spec {c : CoreId} {k : CtxId} {w : Saved} (hw : w ∈ (s.core c.val).saved) (hk : w.ctx = k.val) (hr : w.released = false) :
    ∃ v, exec (.resumptionRelease c k) s = .next v ∧ v.mem = s.mem ∧ v.agenda = s.agenda ++ [.frameTake c k] ∧
      (v.core c.val).saved = (s.core c.val).saved.map fun w => if w.ctx = k.val then { w with released := true } else w := by
  have hany : ((s.core c.val).saved.any fun v => v.ctx = k.val && !v.released) = true :=
    List.any_eq_true.2 ⟨w, hw, by rw [decide_eq_true hk, hr]; rfl⟩
  refine ⟨_, congrArg Host.Outcome.next (if_pos hany), rfl, rfl, ?_⟩
  show ((s.setCore c.val _).core c.val).saved = _
  rw [setCore_core_same]

end Sys2Proof.Machine

open Sys2Proof Sys2Proof.Machine

/-- Settles O53: the save path by what it waits for and what it leaves; a park's record by what links it; a deadline by what counts. -/
theorem parkAndSaveEvents : Obligations.ParkAndSaveEvents := by
  unfold Obligations.ParkAndSaveEvents
  refine ⟨frameOf_row, fun s c k => ⟨fun p d hp hd hs => ⟨fun hw => ?_, fun hw hn => ?_⟩, fun h p hr => ?_, ⟨?_, ?_⟩, fun p d hp hd hs => ?_,
    fun w hw hk hr => release_spec hw hk hr⟩⟩
  · obtain ⟨hwait, hgo⟩ := parkStep_spec hp hs hw
    refine ⟨fun h => congrArg Host.Outcome.next (hwait h), fun h => ⟨fun u hu => ?_, fun hu => ⟨fun t p' d' ht hp' hd' => ⟨fun hn => ?_, fun hn => ?_⟩,
      fun t cause va ht => ?_⟩⟩⟩
    · exact congrArg Host.Outcome.next ((hgo h).trans (writeSave_waits hd hu))
    · exact ⟨_, congrArg Host.Outcome.next ((hgo h).trans (writeSave_done hd hu ht)), linkPark_linked hp' hd' hn⟩
    · exact ⟨_, congrArg Host.Outcome.next ((hgo h).trans (writeSave_done hd hu ht)), linkPark_waits hp' hd' hn⟩
    · exact congrArg Host.Outcome.next ((hgo h).trans (writeSave_fault hd hu ht))
  · refine ⟨s.linkPark c.val k.val, congrArg Host.Outcome.next ?_, linkPark_linked hp hd hn⟩
    rw [hp]
    dsimp only
    rw [hs, hw]
    rfl
  · unfold State.noCell recordsMax
    rw [decide_eq_true hr, Bool.true_or]
  · intro area hk hs
    obtain ⟨a, b, n, hctx⟩ := startCount_ctx (s := s) (c := c.val) (k := k.val) c.val k.val
    refine ⟨_, congrArg Host.Outcome.next (askSave_spec hk hs), oweOnce_mem _ |>.trans startCount_mem, ?_, ?_, ?_, ?_, oweOnce_owed _, fun h => ?_⟩
    · rw [oweOnce_ctx, setCtx_ctx_same]
    · rw [oweOnce_ctx, setCtx_ctx_same]
    · rw [oweOnce_ctx, setCtx_ctx_same, hctx]
    · rw [oweOnce_ctx, setCtx_ctx_same, hctx]
    · have hst := startCount_starts h
      rw [oweOnce_ctx, setCtx_ctx]
      split
      · next he =>
        rw [he.1, he.2] at hst
        rw [hst]
        exact ⟨rfl, rfl, rfl⟩
      · rw [hst]
        exact ⟨rfl, rfl, rfl⟩
  · intro hp
    obtain ⟨hwaits, hsaves⟩ := deadlineStep_spec hp
    exact ⟨fun h => congrArg Host.Outcome.next (hwaits h), fun h1 h2 h3 => ⟨_, congrArg Host.Outcome.next (hsaves h1 h2 h3),
      lateSaves_mem _ _, fun m hm => lateSaves _ s m (.inl hm)⟩⟩
  · obtain ⟨hwait, hgo⟩ := saveStep_spec hp hs
    refine ⟨fun h => congrArg Host.Outcome.next (hwait h), fun h1 h2 => ?_⟩
    intro u d' hd'
    refine ⟨fun w hw => congrArg Host.Outcome.next ((hgo h1 h2).trans (writeSave_waits hd' hw)), fun hw => ⟨fun t p' d'' ht hp' hd'' => ?_,
      fun t cause va ht => congrArg Host.Outcome.next ((hgo h1 h2).trans (writeSave_fault hd' hw ht))⟩⟩
    obtain ⟨hidle, w, hw'⟩ := endSave_spec hp' hd''
    exact ⟨_, w, congrArg Host.Outcome.next ((hgo h1 h2).trans (writeSave_done hd' hw ht)), hidle, hw'⟩
end

section
/-! Barriers and detections (03 R85, R87, R91), and what a home's steps leave of the launches. -/

namespace Sys2Proof.Machine

variable {s t u : State} {h line pa : Nat} {bs : List (Nat × Byte)}

/-! ### The launches through the steps of a home -/

/-- The launches of `t` are those of `s`, but for their error classes. -/
def State.SameRuns (s t : State) : Prop := ∃ f : Launch → Nat, t.launches = s.launches.map fun l => { l with cls := f l }

namespace State.SameRuns

theorem of_eq (h : t.launches = s.launches) : s.SameRuns t := ⟨Launch.cls, by rw [h]; exact (List.map_id _).symm⟩

theorem refl (s : State) : s.SameRuns s := of_eq rfl

theorem trans (h : s.SameRuns t) (h' : t.SameRuns u) : s.SameRuns u := by
  obtain ⟨f, hf⟩ := h
  obtain ⟨g, hg⟩ := h'
  exact ⟨fun l => g { l with cls := f l }, by rw [hg, hf, List.map_map]; rfl⟩

theorem foldl {α : Type} {f : State → α → State} (hf : ∀ (s : State) a, s.SameRuns (f s a)) (l : List α) (s : State) :
    s.SameRuns (l.foldl f s) := by
  induction l generalizing s with
  | nil => exact .refl s
  | cons a l ih => exact (hf s a).trans (ih _)

end State.SameRuns

theorem oweOnce_launches (i : Instr) : (s.oweOnce i).launches = s.launches := by
  unfold State.oweOnce
  split <;> rfl

theorem record_sameRuns (e : ErrRec) : s.SameRuns (s.record e) := by
  unfold State.record
  dsimp only
  split
  · exact .of_eq rfl
  · refine ⟨fun l => if l.seq = e.seq then max l.cls e.cls else l.cls, List.map_congr_left fun l _ => ?_⟩
    by_cases he : l.seq = e.seq
    · simp only [he, if_true]
    · simp only [he, if_false]

theorem noteUnbacked_sameRuns (c : Nat) : s.SameRuns (s.noteUnbacked c pa) := by
  unfold State.noteUnbacked
  split
  · exact record_sameRuns _
  · exact .refl s

theorem cxlAsk_sameRuns (w : Bool) (q : Word) : s.SameRuns (s.cxlAsk line w q) := by
  unfold State.cxlAsk
  split
  · exact .refl s
  · exact .of_eq (oweOnce_launches _)

theorem evictScales_sameRuns : s.SameRuns (s.evictScales line) := by
  unfold State.evictScales
  split
  · refine State.SameRuns.trans ?_ (.foldl (fun _ _ => record_sameRuns _) _ _)
    exact .of_eq rfl
  · exact .refl s

theorem wayRoom_sameRuns (held : List Nat) : s.SameRuns (s.wayRoom held) := by
  have hleave : ∀ v, s.SameRuns (s.leaveWay v) := fun v => evictScales_sameRuns.trans (.of_eq rfl)
  unfold State.wayRoom
  split
  · exact (hleave _).trans (.of_eq rfl)
  · exact .refl s

theorem takeWay_sameRuns : s.SameRuns (s.takeWay line) := by
  unfold State.takeWay
  dsimp only
  split
  · exact .refl s
  · split
    · exact .of_eq rfl
    · exact (wayRoom_sameRuns _).trans (.of_eq rfl)

theorem zeroLine_launches : (s.zeroLine line).launches = s.launches := by
  unfold State.zeroLine
  dsimp only
  split
  · rfl
  · unfold State.zeroRoom
    split <;> rfl

theorem unlist_launches (whole : Bool) : (s.unlist line whole).launches = s.launches := by
  unfold State.unlist
  split <;> rfl

theorem homeWrite_sameRuns : s.SameRuns (s.homeWrite pa bs) := by
  have hu : ∀ w, s.SameRuns (s.unlist (pa / 64 * 64) w) := fun w => .of_eq (unlist_launches w)
  have hline : ∀ t : State, t.SameRuns (t.takeWay (pa / 64 * 64)) := fun _ => takeWay_sameRuns
  have hmapped : ∀ (t : State) (r : Region), r = .hbm ∨ r = .lpddr ∨ (∃ n, r = .cxl n) → s.region pa = r →
      s.SameRuns (s.homeWrite pa bs) := fun t r hr he => by
    unfold State.homeWrite
    dsimp only
    rw [he]
    rcases hr with rfl | rfl | ⟨n, rfl⟩
    all_goals
      dsimp only
      refine (hu (pa = pa / 64 * 64 && bs.length = 64)).trans ?_
      split
      · exact (hline _).trans (.of_eq rfl)
      · split
        · exact .of_eq zeroLine_launches
        · split
          · exact (hline _).trans (.of_eq rfl)
          · exact (hline _).trans (.of_eq rfl)
  cases hr : s.region pa with
  | hbm => exact hmapped s _ (.inl rfl) hr
  | lpddr => exact hmapped s _ (.inr (.inl rfl)) hr
  | cxl n => exact hmapped s _ (.inr (.inr ⟨n, rfl⟩)) hr
  | unbacked =>
    unfold State.homeWrite
    dsimp only
    rw [hr]
    exact .refl s
  | commons h =>
    unfold State.homeWrite
    dsimp only
    rw [hr]
    dsimp only
    split
    · exact .of_eq rfl
    · exact (hu _).trans (.of_eq rfl)
  | stash c =>
    unfold State.homeWrite
    dsimp only
    rw [hr]
    exact (hu _).trans (.of_eq rfl)
  | control =>
    unfold State.homeWrite
    dsimp only
    rw [hr]
    exact (hu _).trans (.of_eq rfl)

theorem writeBack_sameRuns : s.SameRuns (s.writeBack h line) := by
  unfold State.writeBack
  split
  · exact .refl s
  · split
    · exact .refl s
    · split
      · exact .trans (.of_eq rfl) (cxlAsk_sameRuns _ _)
      · exact homeWrite_sameRuns.trans (.of_eq rfl)

theorem writeBackWin_sameRuns (key : Nat) : s.SameRuns (s.writeBackWin h key) := by
  unfold State.writeBackWin
  dsimp only
  split
  · split
    · exact .refl s
    · split
      · exact .refl s
      · refine .trans ?_ (.of_eq rfl)
        split
        · exact cxlAsk_sameRuns _ _
        · exact (noteUnbacked_sameRuns _).trans homeWrite_sameRuns
  · exact .refl s

theorem writeBackAll_sameRuns : s.SameRuns (s.writeBackAll h) :=
  (State.SameRuns.foldl (fun _ _ => writeBack_sameRuns) _ _).trans (.foldl (fun _ _ => writeBackWin_sameRuns _) _ _)

/-- A launch replaced is found as replaced, also after such steps. -/
theorem setLaunch_found {q : Nat} {l l' : Launch} (hl : s.launchBySeq q = some l) (hr : s.SameRuns t) (hs : l'.seq = l.seq) :
    (t.setLaunch l').launchBySeq q = some l' := by
  obtain ⟨f, hf⟩ := hr
  have hl : s.launches.find? (fun l => l.seq.toNat = q) = some l := hl
  show (t.launches.map fun m => if m.seq = l'.seq then l' else m).find? (fun l => l.seq.toNat = q) = some l'
  rw [hf]
  have hq : l.seq.toNat = q := by simpa using List.find?_some hl
  generalize s.launches = ls at hl
  induction ls with
  | nil => exact nomatch hl
  | cons m ls ih =>
    rw [List.map_cons, List.map_cons]
    by_cases hm : m.seq.toNat = q
    · rw [List.find?_cons_of_pos (by simpa using hm)] at hl
      obtain rfl := Option.some.inj hl
      rw [if_pos hs.symm, List.find?_cons_of_pos (by rw [hs]; simpa using hm)]
    · rw [List.find?_cons_of_neg (by simpa using hm)] at hl
      have hne : ¬ m.seq = l'.seq := fun he => hm (by rw [he, hs, hq])
      rw [if_neg hne, List.find?_cons_of_neg (by simpa using hm)]
      exact ih hl

/-! ### Barriers (R85, R87) -/

variable {sc : BarScope} {n : BitVec 2} {r : BarRoot}

theorem State.WakeOnly.barrier (w : s.WakeOnly t) : t.barrier h sc n = s.barrier h sc n := by
  obtain ⟨_, _, e⟩ := w.ham h
  rw [State.barrier, e]
  rfl

theorem State.WakeOnly.roots (w : s.WakeOnly t) : t.roots = s.roots := by obtain ⟨_, _, _, rfl⟩ := w.eq; rfl

theorem State.WakeOnly.seqOf (w : s.WakeOnly t) (c : Nat) : t.seqOf c = s.seqOf c := by
  obtain ⟨_, _, e⟩ := w.ham (hamOf c)
  rw [State.seqOf, e]
  rfl

theorem setBarrier_seqOf (b : Barrier) (c : Nat) : (s.setBarrier h sc n b).seqOf c = s.seqOf c := by
  unfold State.seqOf State.setBarrier
  dsimp only
  by_cases hc : hamOf c = h
  · rw [hc, setHam_ham_same]
  · rw [setHam_ham_other _ _ _ hc]

theorem setBarrier_roots (b : Barrier) : (s.setBarrier h sc n b).roots = s.roots := rfl

theorem completeEpisode_seqOf (b : Barrier) (c : Nat) : (s.completeEpisode h sc n b).seqOf c = s.seqOf c := by
  cases sc <;> exact setBarrier_seqOf _ _

theorem completeEpisode_roots (b : Barrier) : (s.completeEpisode h sc n b).roots = s.roots := by
  cases sc <;> rfl

theorem completeEpisode_episode (b : Barrier) : ((s.completeEpisode h sc n b).barrier h sc n).episode = b.episode := by
  cases sc with
  | hamlet => rw [show (s.completeEpisode h .hamlet n b).barrier h .hamlet n = _ from setBarrier_same _]
  | die => rw [show (s.completeEpisode h .die n b).barrier h .die n = _ from setBarrier_same _]
  | pkg => rw [show (s.completeEpisode h .pkg n b).barrier h .pkg n = _ from setBarrier_same _]

/-- A barrier as the release of its episode leaves it. -/
def Freed (b : Barrier) (sc : BarScope) (x : Barrier) : Prop :=
  x.episode = b.episode + 1 ∧ (b.held = false → x.state = .counting ∧ x.count = b.count) ∧
    (b.held = true → x.count = 0 ∧ x.state = if sc = .hamlet then .releasing else .sent)

/-- A release counts the episode on; a complete next one goes on at once. -/
theorem releaseBar_freed : Freed (s.barrier h sc n) sc ((s.releaseBar h sc n).barrier h sc n) := by
  unfold State.releaseBar
  dsimp only
  cases hb : (s.barrier h sc n).held with
  | false =>
    rw [if_neg Bool.false_ne_true, setBarrier_same]
    exact ⟨rfl, fun _ => ⟨rfl, rfl⟩, fun he => absurd (hb.symm.trans he) Bool.false_ne_true⟩
  | true =>
    rw [if_pos rfl]
    exact ⟨completeEpisode_episode _, fun he => absurd (hb.symm.trans he) (by decide), fun _ => completeEpisode_barrier _⟩

theorem releaseBar_roots : (s.releaseBar h sc n).roots = s.roots := by
  unfold State.releaseBar
  dsimp only
  split
  · exact (completeEpisode_roots _).trans wake_wakeOnly.roots
  · exact (setBarrier_roots _).trans wake_wakeOnly.roots

theorem releaseBar_rootKey : (s.releaseBar h sc n).rootKey h sc n = s.rootKey h sc n := by
  have hs : (s.releaseBar h sc n).seqOf (8 * h) = s.seqOf (8 * h) := by
    unfold State.releaseBar
    dsimp only
    split
    · exact (completeEpisode_seqOf _ _).trans (wake_wakeOnly.seqOf _)
    · exact (setBarrier_seqOf _ _).trans (wake_wakeOnly.seqOf _)
  unfold State.rootKey
  rw [hs]

theorem hamletId_ofNat (h : HamletId) : Fin.ofNat 256 h.val = h := Fin.ext (Nat.mod_eq_of_lt h.isLt)

/-- The HAMLET-scope release (R85): at T0 + 8, and not before. -/
theorem hamletRelease_spec (hb : (s.barrier h .hamlet n).state = .releasing) :
    (s.cycle.toNat < (s.barrier h .hamlet n).t0 + 8 → s.hamletRelease h n = s.owe (.hamletBarrierRelease (Fin.ofNat 256 h) n)) ∧
    ((s.barrier h .hamlet n).t0 + 8 ≤ s.cycle.toNat → s.hamletRelease h n = s.releaseBar h .hamlet n) := by
  unfold State.hamletRelease
  dsimp only
  rw [if_neg (not_not.2 hb)]
  exact ⟨fun hlt => if_pos hlt, fun hle => if_neg (Nat.not_lt.2 hle)⟩

theorem foldl_owe {l : List Nat} {f : Nat → Instr} (s : State) :
    (l.foldl (fun t g => t.owe (f g)) s) = { s with agenda := s.agenda ++ l.map f } := by
  induction l generalizing s with
  | nil => rw [List.map_nil, List.append_nil]; rfl
  | cons g l ih =>
    rw [List.foldl_cons, ih]
    show ({ s with agenda := (s.agenda ++ [f g]) ++ l.map f } : State) = _
    rw [List.append_assoc]
    rfl

/-- A root that has every arrival peals; another waits on. -/
theorem startPeal_spec : (s.startPeal h sc n r).mem = s.mem ∧ (s.startPeal h sc n r).hamlets = s.hamlets ∧
    ((∀ g ∈ s.rootSet h sc, g ∈ r.arrived) →
      look {} (s.startPeal h sc n r).roots (s.rootKey h sc n) = { r with
        pealing := true
        t0 := s.cycle.toNat
        gap := r.extra
        released := [] } ∧
      ∀ g ∈ s.rootSet h sc, .pealPhaseRelease (Fin.ofNat 256 g) sc n ∈ (s.startPeal h sc n r).agenda) ∧
    (¬ (∀ g ∈ s.rootSet h sc, g ∈ r.arrived) → look {} (s.startPeal h sc n r).roots (s.rootKey h sc n) = r) := by
  have hall : ((s.rootSet h sc).all r.arrived.contains) = true ↔ ∀ g ∈ s.rootSet h sc, g ∈ r.arrived := by
    simp [List.all_eq_true]
  by_cases hp : ∀ g ∈ s.rootSet h sc, g ∈ r.arrived
  · unfold State.startPeal
    dsimp only
    rw [if_pos (hall.2 hp), foldl_owe]
    refine ⟨rfl, rfl, fun _ => ⟨look_put_same _ _ _ _, fun g hg => ?_⟩, fun hn => absurd hp hn⟩
    exact List.mem_append_right _ (List.mem_map_of_mem hg)
  · unfold State.startPeal
    dsimp only
    rw [if_neg (mt hall.1 hp)]
    exact ⟨rfl, rfl, fun h => absurd h hp, fun _ => look_put_same _ _ _ _⟩

theorem startPeal_barrier : (s.startPeal h sc n r).barrier h sc n = s.barrier h sc n := by
  obtain ⟨-, hh, -⟩ := startPeal_spec (s := s) (h := h) (sc := sc) (n := n) (r := r)
  rw [State.barrier, State.ham, hh]
  rfl

/-- A hamlet's arrival reaches a root that counts. -/
theorem rootArrival_counts (hsc : sc ≠ .hamlet) (hb : (s.barrier h sc n).state = .sent)
    (hp : (look {} s.roots (s.rootKey h sc n)).pealing = false) (ha : h ∉ (look {} s.roots (s.rootKey h sc n)).arrived) :
    s.rootArrival h sc n = s.startPeal h sc n { look {} s.roots (s.rootKey h sc n) with
      arrived := (look {} s.roots (s.rootKey h sc n)).arrived ++ [h]
      extra := max (look {} s.roots (s.rootKey h sc n)).extra (s.barrier h sc n).arrivedExtra.toNat } := by
  unfold State.rootArrival
  dsimp only
  rw [if_neg (by simp [hsc, hb]), hp, if_neg Bool.false_ne_true, if_neg (by simpa using ha)]

/-- An arrival at a root that peals counts toward the next episode, once its hamlet is released. -/
theorem rootArrival_next (hsc : sc ≠ .hamlet) (hb : (s.barrier h sc n).state = .sent)
    (hp : (look {} s.roots (s.rootKey h sc n)).pealing = true) (hr : h ∈ (look {} s.roots (s.rootKey h sc n)).released)
    (ha : h ∉ (look {} s.roots (s.rootKey h sc n)).nextArrived) :
    s.rootArrival h sc n = { s with roots := put s.roots (s.rootKey h sc n) { look {} s.roots (s.rootKey h sc n) with
      nextArrived := (look {} s.roots (s.rootKey h sc n)).nextArrived ++ [h]
      nextExtra := max (look {} s.roots (s.rootKey h sc n)).nextExtra (s.barrier h sc n).arrivedExtra.toNat } } := by
  unfold State.rootArrival
  dsimp only
  rw [if_neg (by simp [hsc, hb]), if_pos hp, if_pos (by simp [hr, ha])]

/-- A phase's release (R87). -/
theorem pealRelease_spec (hp : (look {} s.roots (s.rootKey h sc n)).pealing = true)
    (ha : h ∈ (look {} s.roots (s.rootKey h sc n)).arrived) (hr : h ∉ (look {} s.roots (s.rootKey h sc n)).released) :
    let r := look {} s.roots (s.rootKey h sc n)
    let e := pealDelay (s.pattern h) sc r.gap (phaseOf (s.pattern h) h)
    (s.cycle.toNat < r.t0 + e → s.pealRelease h sc n = s.owe (.pealPhaseRelease (Fin.ofNat 256 h) sc n)) ∧
    (r.t0 + e ≤ s.cycle.toNat → s.pealRelease h sc n =
      if r.arrived.all (r.released ++ [h]).contains then (s.releaseBar h sc n).startPeal h sc n { arrived := r.nextArrived, extra := r.nextExtra }
      else { s.releaseBar h sc n with roots := put (s.releaseBar h sc n).roots (s.rootKey h sc n) { r with released := r.released ++ [h] } }) := by
  intro r e
  unfold State.pealRelease
  dsimp only
  rw [if_neg (by simp [hp, ha, hr])]
  exact ⟨fun hlt => if_pos hlt, fun hle => if_neg (Nat.not_lt.2 hle)⟩

/-! ### Detections (R91) -/

/-- A sweep's request reaches a hamlet. -/
theorem sweep_down {q : Nat} {l : Launch} {d : Detection} {rest : List Nat} (hl : s.launchBySeq q = some l)
    (hd : l.detection = some d) (hdn : d.down = h :: rest) :
    s.sweep q = (s.setLaunch { l with detection := some { d with
      down := rest ++ l.children h
      sum := (d.sum.1 + (s.ham h).sent, d.sum.2 + (s.ham h).received) } }).owe (.detectionSweep q) := by
  have hs : s.sums [h] = ((s.ham h).sent, (s.ham h).received) := by
    show (0 + (s.ham h).sent, 0 + (s.ham h).received) = _
    rw [zero_add, zero_add]
  unfold State.sweep
  rw [hl]
  dsimp only
  rw [hd]
  dsimp only
  rw [hdn]
  dsimp only
  rw [hs]

/-- The sums of all are at the root: the detection ends, or the next sweep starts. -/
theorem sweep_root {q : Nat} {l : Launch} {d : Detection} (hl : s.launchBySeq q = some l) (hd : l.detection = some d) (hdn : d.down = []) :
    s.sweep q = if 1 ≤ d.sweeps && d.last = some d.sum && d.sum.1 = d.sum.2 then
        (((s.hamlets.map Prod.fst).filter fun h => l.hamlets.getLsbD h).foldl State.writeBackAll s).setLaunch { l with
          detection := none
          finished := l.finished ++ d.waiting }
      else
        (s.setLaunch { l with detection := some { d with
          last := some d.sum
          sweeps := d.sweeps + 1
          down := l.treeRoots
          sum := (0, 0) } }).owe (.detectionSweep q) := by
  unfold State.sweep
  rw [hl]
  dsimp only
  rw [hd]
  dsimp only
  rw [hdn]

end Sys2Proof.Machine

open Sys2Proof Sys2Proof.Machine

/-- Settles O54: each event of a barrier and its root, and of a detection, by what it leaves. -/
theorem barrierAndDetectionEvents : Obligations.BarrierAndDetectionEvents := by
  unfold Obligations.BarrierAndDetectionEvents
  refine fun s => ⟨fun h n sc => ⟨?_, fun hsc hb => ⟨?_, ?_, ?_⟩⟩, fun q l d hl hd => ⟨fun h rest hdn => congrArg Host.Outcome.next (sweep_down hl hd hdn), fun hdn => ⟨?_, ?_⟩⟩⟩
  · rintro rfl hb
    obtain ⟨hwait, hgo⟩ := hamletRelease_spec hb
    rw [hamletId_ofNat] at hwait
    exact ⟨fun hlt => congrArg Host.Outcome.next (hwait hlt), fun hle => ⟨_, congrArg Host.Outcome.next (hgo hle), releaseBar_freed⟩⟩
  · intro hp ha
    have hr := rootArrival_counts hsc hb hp ha
    obtain ⟨hmem, -, hall, hwaits⟩ := startPeal_spec (s := s) (h := h.val) (sc := sc) (n := n)
      (r := { look {} s.roots (s.rootKey h.val sc n) with
        arrived := (look {} s.roots (s.rootKey h.val sc n)).arrived ++ [h.val]
        extra := max (look {} s.roots (s.rootKey h.val sc n)).extra (s.barrier h.val sc n).arrivedExtra.toNat })
    refine ⟨_, congrArg Host.Outcome.next hr, hmem, ?_⟩
    by_cases hset : ∀ g ∈ s.rootSet h.val sc, g ∈ (look {} s.roots (s.rootKey h.val sc n)).arrived ++ [h.val]
    · obtain ⟨hlook, howed⟩ := hall hset
      rw [hlook]
      exact ⟨rfl, rfl, ⟨fun _ => hset, fun _ => rfl⟩, fun _ => ⟨rfl, rfl, rfl, howed⟩⟩
    · rw [hwaits hset]
      exact ⟨rfl, rfl, ⟨fun h => absurd (hp.symm.trans h) Bool.false_ne_true, fun h => absurd h hset⟩,
        fun h => absurd (hp.symm.trans h) Bool.false_ne_true⟩
  · intro hp hr ha
    refine ⟨_, congrArg Host.Outcome.next (rootArrival_next hsc hb hp hr ha), rfl, look_put_same _ _ _ _⟩
  · intro hp ha hr
    obtain ⟨hwait, hgo⟩ := pealRelease_spec hp ha hr
    rw [hamletId_ofNat] at hwait
    refine ⟨fun hlt => congrArg Host.Outcome.next (hwait hlt), fun hle => ⟨_, congrArg Host.Outcome.next (hgo hle), ?_⟩⟩
    have hall : ((look {} s.roots (s.rootKey h.val sc n)).arrived.all ((look {} s.roots (s.rootKey h.val sc n)).released ++ [h.val]).contains) = true ↔
        ∀ g ∈ (look {} s.roots (s.rootKey h.val sc n)).arrived, g ∈ (look {} s.roots (s.rootKey h.val sc n)).released ++ [h.val] := by
      simp [List.all_eq_true]
    by_cases hset : ∀ g ∈ (look {} s.roots (s.rootKey h.val sc n)).arrived, g ∈ (look {} s.roots (s.rootKey h.val sc n)).released ++ [h.val]
    · rw [if_pos (hall.2 hset)]
      obtain ⟨-, hhams, hpeal, hwaits⟩ := startPeal_spec (s := s.releaseBar h.val sc n) (h := h.val) (sc := sc) (n := n)
        (r := { arrived := (look {} s.roots (s.rootKey h.val sc n)).nextArrived, extra := (look {} s.roots (s.rootKey h.val sc n)).nextExtra })
      rw [releaseBar_rootKey] at hpeal hwaits
      refine ⟨?_, fun he => ?_, fun _ => ?_⟩
      · show Freed (s.barrier h.val sc n) sc _
        rw [startPeal_barrier]
        exact releaseBar_freed
      · obtain ⟨g, hg, hn⟩ := he
        exact absurd (hset g hg) hn
      · by_cases hnext : ∀ g ∈ (s.releaseBar h.val sc n).rootSet h.val sc, g ∈ (look {} s.roots (s.rootKey h.val sc n)).nextArrived
        · rw [(hpeal hnext).1]
          exact ⟨rfl, rfl, rfl, rfl⟩
        · rw [hwaits hnext]
          exact ⟨rfl, rfl, rfl, rfl⟩
    · rw [if_neg (mt hall.1 hset)]
      exact ⟨releaseBar_freed, fun _ => look_put_same _ _ _ _, fun he => absurd he hset⟩
  · intro h1 h2 h3
    refine ⟨_, congrArg Host.Outcome.next ((sweep_root hl hd hdn).trans (if_pos ?_)), rfl, ?_⟩
    · rw [decide_eq_true h1, decide_eq_true h2, decide_eq_true h3]
      rfl
    · refine (congrArg (Option.map fun m => (m.detection, m.finished)) (setLaunch_found hl ?_ ?_)).trans ?_
      · exact .foldl (fun _ _ => writeBackAll_sameRuns) _ _
      · rfl
      · rfl
  · intro h1
    refine ⟨_, congrArg Host.Outcome.next ((sweep_root hl hd hdn).trans (if_neg ?_)), rfl, rfl, rfl, List.mem_append_right _ List.mem_cons_self, ?_⟩
    · rcases h1 with h1 | h1 | h1 <;> simp [h1]
    · show Option.map Launch.detection ((s.setLaunch _).launchBySeq q) = _
      refine (congrArg (Option.map Launch.detection) (setLaunch_found hl (.refl s) ?_)).trans ?_
      · rfl
      · rfl
end

section
/-! Donations, status words and the end of a launch (02 R51 to R57, 13 R355, 19 R444). -/

namespace Sys2Proof.Machine

variable {s t u : State} {h q : Nat} {hd : BitVec 32} {l l' : Launch} {f : Frame} {tiles : List (Nat × Byte)}

/-! ### The end of donated work (R34, R52) -/

theorem setFuture_stale {g : Future} (hk : g.kind = (s.future hd).kind) (hg : g.gen = (s.future hd).gen) :
    (s.setFuture hd g).stale h hd = s.stale h hd := by
  have hin : (s.setFuture hd g).inSet h (hdHam hd) = s.inSet h (hdHam hd) := by
    unfold State.inSet State.launchOf State.setFuture
    dsimp only
    by_cases hh : h = hdHam hd
    · subst hh
      rw [setHam_ham_same]
      rfl
    · rw [setHam_ham_other _ _ _ hh]
      rfl
  unfold State.stale
  rw [setFuture_future_same, hin]
  dsimp only
  rw [hk, hg]

theorem setFuture_twice (g g' : Future) : ((s.setFuture hd g).setFuture hd g').future hd = g' := setFuture_future_same _ _

/-- A future above one counts the end of donated work down. -/
theorem donatedEnd_counts (hs : s.stale (hdHam hd) hd = false) (hv : 1 < (s.future hd).value.toInt) :
    s.donatedEnd hd false = (s.setFuture hd { s.future hd with donated := true }).setFuture hd { s.future hd with
      donated := true
      value := (s.future hd).value - 1 } := by
  have hst : (s.setFuture hd { s.future hd with donated := true }).stale (hdHam hd) hd = false :=
    (setFuture_stale (g := { s.future hd with donated := true }) rfl rfl).trans hs
  have hf := setFuture_future_same (s := s) hd { s.future hd with donated := true }
  dsimp only at hst hf
  unfold State.donatedEnd
  dsimp only
  simp only [hs, Bool.false_eq_true, if_false, State.bump, hst]
  rw [addCount_above (by rw [hf]; exact hv), hf]

/-- A launch replaced is found as replaced from its hamlets. -/
theorem setLaunch_launchOf (hl : s.launchOf h = some l) (hs : l'.seq = l.seq) (hh : l'.hamlets = l.hamlets) (hts : (t.ham h).seq = (s.ham h).seq)
    (htl : t.launches = s.launches) : (t.setLaunch l').launchOf h = some l' := by
  have hseq : ((t.setLaunch l').ham h).seq = (s.ham h).seq := hts
  unfold State.launchOf at hl ⊢
  rw [hseq]
  cases hq : (s.ham h).seq with
  | none =>
    rw [hq] at hl
    exact nomatch hl
  | some q =>
    rw [hq] at hl
    dsimp only at hl ⊢
    show (t.launches.map fun m => if m.seq = l'.seq then l' else m).find? _ = _
    rw [htl]
    obtain ⟨hlq, hlh⟩ : l.seq = q ∧ l.hamlets.getLsbD h = true := by simpa using List.find?_some hl
    generalize s.launches = ls at hl
    induction ls with
    | nil => exact nomatch hl
    | cons m ls ih =>
      rw [List.map_cons]
      by_cases hm : m.seq = l'.seq
      · rw [if_pos hm, List.find?_cons_of_pos]
        rw [hs, hh, decide_eq_true hlq, hlh]
        rfl
      · have hmq : ¬ m.seq = q := fun he => hm (by rw [he, hs, hlq])
        rw [if_neg hm, List.find?_cons_of_neg (by simp [hmq])]
        rw [List.find?_cons_of_neg (by simp [hmq])] at hl
        exact ih hl

/-- A root end is reported with what its hamlet has accumulated (R55). -/
theorem rootEnd_holds (hl : s.launchOf h = some l) :
    (s.rootEnd h).launchOf h = some { l with held := l.held ++ [(h, statusWord (s.ham h).marks 1)] } ∧ ((s.rootEnd h).ham h).marks = {} := by
  have hmark : ((s.mark h fun _ => {}).ham h) = { s.ham h with marks := {} } := by
    rw [State.mark, setHam_ham_same]
  unfold State.rootEnd
  rw [hl]
  refine ⟨?_, ?_⟩
  · show ((s.mark h fun _ => {}).setLaunch _).launchOf h = _
    exact setLaunch_launchOf hl rfl rfl (by rw [hmark]) rfl
  · show ((s.mark h fun _ => {}).ham h).marks = {}
    rw [hmark]

theorem donatedEnd_stale (hs : s.stale (hdHam hd) hd = true) : s.donatedEnd hd true = s.rootEnd (hdHam hd) := by
  unfold State.donatedEnd
  dsimp only
  simp only [hs, if_true, State.bump]

/-! ### Donations (R51, R444) -/

theorem takeDonation_spec (q : BitVec 4) :
    ((look ({} : DonQueue) s.hub.donqs q.toNat).cap ≤ (look ({} : DonQueue) s.hub.donqs q.toNat).frames.length →
      (s.takeDonation q f tiles).2 = s) ∧
    ((look ({} : DonQueue) s.hub.donqs q.toNat).frames.length < (look ({} : DonQueue) s.hub.donqs q.toNat).cap →
      let d := look ({} : DonQueue) s.hub.donqs q.toNat
      let u := s.writeEntry (d.base.toNat + donEntry * (d.next % d.cap)) f.donatedTo tiles
      (s.takeDonation q f tiles).2 = { u with hub := { u.hub with
        donqs := put u.hub.donqs q.toNat { d with
          frames := d.frames ++ [(f.donatedTo, tiles)]
          next := d.next + 1 } } }) := by
  unfold State.takeDonation
  dsimp only
  refine ⟨fun h => ?_, fun h => ?_⟩
  · rw [if_pos h]
  · rw [if_neg (Nat.not_le.2 h)]

theorem donation_lacks_nothing (src : BitVec 20) (q : BitVec 4) (h : f.features &&& ~~~ 0x1F = 0) :
    s.donation src q f tiles = s.takeDonation q f tiles := by
  have hl : lacking f = 0 := h
  unfold State.donation
  rw [if_neg (not_not.2 hl)]

/-- One of this package's own comes back at once. -/
theorem donation_returns (src : BitVec 20) (q : BitVec 4) (h : f.features &&& ~~~ 0x1F ≠ 0) (hs : src = s.pkgid) :
    (s.donation src q f tiles).2 = s.owe (.donatedFrameReturn f.row (f.features &&& ~~~ 0x1F)) := by
  have hl : lacking f ≠ 0 := h
  unfold State.donation
  rw [if_pos hl]
  exact if_pos hs

theorem record_cores (e : ErrRec) : (s.record e).cores = s.cores := (record_homeOnly e).cores

/-- A returned frame joins the work of its origin's hamlet (R444). -/
theorem returned_ready (f : Frame) (missing : BitVec 32) :
    ((s.returned f missing).core (8 * hdHam f.originh)).ready =
      (s.core (8 * hdHam f.originh)).ready ++ [.fresh f.home (s.seqOf (8 * hdHam f.originh)) []] := by
  unfold State.returned
  dsimp only
  rw [makeReady_ready, State.core, record_cores]
  rfl

/-! ### Status words (R55 to R57) -/

/-- A word leaves its hamlet, travels to the root of its launch's tree and is combined there, or the launch ends. -/
theorem wordArrival_leaves {e : Nat × Word} (hl : s.launchBySeq q = some l) (he : l.held.find? (fun e => !s.readsOut e.1) = some e) :
    s.wordArrival q = (s.setLaunch { l with
      held := l.held.erase e
      words := l.words ++ [e] }).owe (.statusWordArrival q) := by
  unfold State.wordArrival
  rw [hl]
  dsimp only
  rw [he]

theorem none_leaves (h : ∀ e ∈ l.held, s.readsOut e.1 = true) : l.held.find? (fun e => !s.readsOut e.1) = none :=
  List.find?_eq_none.2 fun e he => by rw [h e he]; decide

theorem wordArrival_travels {w : Word} {rest : List (Nat × Word)} (hl : s.launchBySeq q = some l) (hh : ∀ e ∈ l.held, s.readsOut e.1 = true)
    (hw : l.words = (h, w) :: rest) :
    s.wordArrival q = (s.setLaunch (if (look (0 : BitVec 16) l.tree h).getLsbD 15 then { l with
      words := rest
      total := combineWords l.total w } else { l with words := rest ++ [(fld (look (0 : BitVec 16) l.tree h) 7 0, w)] })).owe
        (.statusWordArrival q) := by
  unfold State.wordArrival
  rw [hl]
  dsimp only
  rw [none_leaves hh]
  dsimp only
  rw [hw]
  dsimp only
  split <;> rfl

theorem wordArrival_ends (hl : s.launchBySeq q = some l) (hh : ∀ e ∈ l.held, s.readsOut e.1 = true) (hw : l.words = [])
    (hn : l.nframes ≤ fld l.total 47 16) :
    s.wordArrival q = if l.set.any s.readsOut then s.owe (.statusWordArrival q) else s.finishLaunch l := by
  unfold State.wordArrival
  rw [hl]
  dsimp only
  rw [none_leaves hh]
  dsimp only
  rw [hw]
  dsimp only
  rw [if_pos hn]

/-- A hamlet that a launch leaves. -/
theorem clearHamlet_keeps (h : Nat) : s.SameRuns (s.clearHamlet h) ∧ (s.clearHamlet h).hub.owed = s.hub.owed := by
  refine ⟨.trans (.foldl (fun _ _ => writeBackWin_sameRuns _) ((s.ham h).winLines.map Prod.fst) s) (.of_eq rfl), ?_⟩
  have hh : s.HomeOnly (((s.ham h).winLines.map Prod.fst).foldl (fun t k => t.writeBackWin h k) s) :=
    .foldl (fun _ _ => writeBackWin_homeOnly _) _ _
  obtain ⟨_, _, _, _, _, _, _, e⟩ := hh.hub
  show (((s.ham h).winLines.map Prod.fst).foldl (fun t k => t.writeBackWin h k) s).hub.owed = s.hub.owed
  rw [e]

theorem clearHamlets_keep (l : List Nat) (s : State) :
    s.SameRuns (l.foldl (fun t h => if (find t.hamlets h).isSome then t.clearHamlet h else t) s) ∧
      (l.foldl (fun t h => if (find t.hamlets h).isSome then t.clearHamlet h else t) s).hub.owed = s.hub.owed := by
  have hone : ∀ (t : State) h, t.SameRuns (if (find t.hamlets h).isSome then t.clearHamlet h else t) ∧
      (if (find t.hamlets h).isSome then t.clearHamlet h else t).hub.owed = t.hub.owed := fun t h => by
    split
    · exact clearHamlet_keeps h
    · exact ⟨.refl t, rfl⟩
  induction l generalizing s with
  | nil => exact ⟨.refl s, rfl⟩
  | cons h l ih => exact ⟨(hone s h).1.trans (ih _).1, (ih _).2.trans (hone s h).2⟩

/-- A launch that ends by its root ends leaves the package, and its completion is owed (R56). -/
theorem finishLaunch_ends : (s.finishLaunch l).launches.map Launch.seq = (s.launches.map Launch.seq).filter (· ≠ l.seq) ∧
    (s.finishLaunch l).hub.owed = s.hub.owed ++ [{ word := l.total, seq := l.seq, info := 0, status := 0, code := 0x02 }] := by
  obtain ⟨⟨f, hf⟩, ho⟩ := clearHamlets_keep l.set s
  have hl : (s.dropLaunch l false).launches =
      (l.set.foldl (fun t h => if (find t.hamlets h).isSome then t.clearHamlet h else t) s).launches.filter (fun m => m.seq ≠ l.seq) := rfl
  have hh : (s.dropLaunch l false).hub.owed = s.hub.owed := ho
  unfold State.finishLaunch State.complete
  rw [oweOnce_hub, oweOnce_launches]
  refine ⟨?_, ?_⟩
  · show (s.dropLaunch l false).launches.map Launch.seq = _
    rw [hl, hf, List.filter_map, List.map_map, List.filter_map]
    rfl
  · show (s.dropLaunch l false).hub.owed ++ _ = _
    rw [hh]

/-! ### Completion records (13 R355) -/

theorem writeCompletion_waits {k : Completion} {rest : List Completion} (ho : s.hub.owed = k :: rest)
    (hv : (memGet s.mem (compAddr s.hub.compPos)).getLsbD 0 = true) : s.writeCompletion = s.oweOnce .completionRecordWrite := by
  unfold State.writeCompletion
  rw [ho]
  exact if_pos hv

theorem compBytes_length (k : Completion) : (compBytes k).length = 32 := bytesOf_length 32 _

/-- The package with its oldest completion written. -/
def State.completed (s : State) (k : Completion) (rest : List Completion) : State :=
  ({ s with
    mem := memWrite s.mem (compAddr s.hub.compPos) (compBytes k)
    hub := { s.hub with
      owed := rest
      compPos := s.hub.compPos + 1 } } : State).irq 1

theorem completed_mem {k : Completion} {rest : List Completion} :
    (s.completed k rest).mem = memWrite s.mem (compAddr s.hub.compPos) (compBytes k) := by
  dsimp only [State.completed, State.irq]

theorem compAddr_eq (n : Nat) : compAddr n = 0x3F0000000000 + 0x1000 + 32 * (n % 64) := rfl

/-- The place is free: the record is written, and its interrupt raised. -/
theorem writeCompletion_writes {k : Completion} {rest : List Completion} (ho : s.hub.owed = k :: rest)
    (hv : (memGet s.mem (compAddr s.hub.compPos)).getLsbD 0 = false) :
    s.writeCompletion = if rest.isEmpty then s.completed k rest else (s.completed k rest).oweOnce .completionRecordWrite := by
  unfold State.writeCompletion
  rw [ho]
  exact if_neg (ne_true_of_eq_false hv)

theorem writeCompletion_hub {k : Completion} {rest : List Completion} (ho : s.hub.owed = k :: rest)
    (hv : (memGet s.mem (compAddr s.hub.compPos)).getLsbD 0 = false) :
    s.writeCompletion.mem = (s.completed k rest).mem ∧ s.writeCompletion.hub = (s.completed k rest).hub := by
  rw [writeCompletion_writes ho hv]
  split
  · exact ⟨rfl, rfl⟩
  · exact ⟨oweOnce_mem _, oweOnce_hub _⟩

end Sys2Proof.Machine

open Sys2Proof Sys2Proof.Machine

/-- Settles O55: each event by what it leaves of futures, donation queues, status words and completions. -/
theorem donationAndCompletionEvents : Obligations.DonationAndCompletionEvents := by
  unfold Obligations.DonationAndCompletionEvents
  refine fun s => ⟨fun hd hs hv => ?_, fun hd l hs hl => ?_, fun src q row tiles => ⟨fun hf hc => ?_, fun hf hc => ?_, fun hf hsrc => ?_⟩,
    fun row missing => ⟨_, _, rfl, returned_ready _ _, rfl⟩, fun q l hl => ⟨fun e he => ?_, fun hh => ⟨fun h w rest hw => ?_, fun hw hn => ⟨fun hr => ?_, fun hr => ?_⟩⟩⟩,
    fun k rest ho => ⟨fun hv => ?_, fun hm hv => ?_⟩⟩
  · refine ⟨_, congrArg Host.Outcome.next (donatedEnd_counts hs hv), rfl, rfl, setFuture_twice _ _⟩
  · obtain ⟨hfound, hmarks⟩ := rootEnd_holds hl
    exact ⟨_, _, congrArg Host.Outcome.next (donatedEnd_stale hs), hfound, rfl, hmarks⟩
  · have ht := (takeDonation_spec (f := frameOf row) (tiles := tiles) q).2 hc
    refine ⟨_, congrArg Host.Outcome.next ((congrArg Prod.snd (donation_lacks_nothing src q hf)).trans ht), rfl, rfl, look_put_same _ _ _ _⟩
  · exact congrArg Host.Outcome.next ((congrArg Prod.snd (donation_lacks_nothing src q hf)).trans ((takeDonation_spec q).1 hc))
  · exact congrArg Host.Outcome.next (donation_returns src q hf hsrc)
  · refine ⟨_, congrArg Host.Outcome.next (wordArrival_leaves hl he), rfl, ?_, List.mem_append_right _ List.mem_cons_self⟩
    show Option.map _ ((s.setLaunch _).launchBySeq q) = _
    refine (congrArg (Option.map fun m => (m.held, m.words)) (setLaunch_found hl (.refl s) ?_)).trans ?_
    · rfl
    · rfl
  · refine ⟨_, congrArg Host.Outcome.next (wordArrival_travels hl hh hw), rfl, List.mem_append_right _ List.mem_cons_self, ?_⟩
    show Option.map _ ((s.setLaunch _).launchBySeq q) = _
    refine (congrArg (Option.map fun m => (m.words, m.total)) (setLaunch_found hl (.refl s) ?_)).trans ?_
    · split <;> rfl
    · split <;> rfl
  · obtain ⟨h, hs, hr⟩ := hr
    exact congrArg Host.Outcome.next ((wordArrival_ends hl hh hw hn).trans (if_pos (List.any_eq_true.2 ⟨h, hs, hr⟩)))
  · have hno : l.set.any s.readsOut = false := List.any_eq_false.2 fun h hs => ne_true_of_eq_false (hr h hs)
    exact ⟨_, congrArg Host.Outcome.next ((wordArrival_ends hl hh hw hn).trans (if_neg (ne_true_of_eq_false hno))), finishLaunch_ends⟩
  · exact ⟨_, congrArg Host.Outcome.next (writeCompletion_waits ho hv), oweOnce_mem _, oweOnce_hub _, oweOnce_owed _⟩
  · obtain ⟨hmem, hhub⟩ := writeCompletion_hub ho hv
    refine ⟨_, rfl, congrArg Hub.owed hhub, congrArg Hub.compPos hhub, congrArg Hub.irqs hhub, congrArg Hub.msis hhub, ?_⟩
    rw [hmem, completed_mem]
    have hread := memRead_memWrite hm (compAddr s.hub.compPos) (compBytes k)
    rw [compBytes_length, compAddr_eq] at hread
    rw [compAddr_eq]
    exact hread
end

section
/-! Containment of errors: records, storage, power and temperature, service firmware and the boot (17 R412 to R416, 20 R461 to R463). -/

namespace Sys2Proof.Machine

variable {s t u : State} {e : ErrRec} {h c k line : Nat} {l : Launch}

/-! ### Error records (R413) -/

/-- The fields of an error record's 64 bytes, with the unused bits between them. -/
def errFields (time : Word) (lost : BitVec 32) (e : ErrRec) : List Field :=
  [⟨1, 1#1⟩, ⟨29, 0#29⟩, ⟨6, BitVec.ofNat 6 e.cause⟩, ⟨4, BitVec.ofNat 4 e.cls⟩, ⟨8, BitVec.ofNat 8 e.event⟩, ⟨16, BitVec.ofNat 16 e.unit⟩,
    ⟨5, 0#5⟩, ⟨11, BitVec.ofNat 11 e.core⟩, ⟨16, BitVec.ofNat 16 (min e.count 65535)⟩, ⟨32, lost⟩, ⟨64, 0#64⟩, ⟨64, e.tpc⟩, ⟨64, e.info⟩,
    ⟨64, e.seq⟩, ⟨64, BitVec.ofNat 64 e.addr⟩, ⟨64, time⟩]

/-- The places of a record's fields, to any base. -/
theorem packedIn_errFields (b : Nat) (time : Word) (lost : BitVec 32) (e : ErrRec) : packedIn b (errFields time lost e) =
    time.toNat * b ^ 448 + (BitVec.ofNat 64 e.addr).toNat * b ^ 384 + e.seq.toNat * b ^ 320 + e.info.toNat * b ^ 256 + e.tpc.toNat * b ^ 192
      + lost.toNat * b ^ 96 + (BitVec.ofNat 16 (min e.count 65535)).toNat * b ^ 80 + (BitVec.ofNat 11 e.core).toNat * b ^ 69
      + (BitVec.ofNat 16 e.unit).toNat * b ^ 48 + (BitVec.ofNat 8 e.event).toNat * b ^ 40 + (BitVec.ofNat 4 e.cls).toNat * b ^ 36
      + (BitVec.ofNat 6 e.cause).toNat * b ^ 30 + 1 := by
  simp only [errFields, packedIn, show (1#1).toNat = 1 from rfl, show (0#29).toNat = 0 from rfl, show (0#5).toNat = 0 from rfl,
    show (0#64).toNat = 0 from rfl]
  ring

theorem errRow_packed (time : Word) (lost : BitVec 32) (ha : e.addr < 2 ^ 64) :
    errRow time lost e = BitVec.ofNat 512 (packed (errFields time lost e)) := by
  have hcount : min e.count 65535 % 2 ^ 16 = min e.count 65535 := Nat.mod_eq_of_lt (by omega)
  unfold errRow packed
  rw [packedIn_errFields]
  simp only [BitVec.toNat_ofNat, Nat.mod_eq_of_lt ha, hcount]

/-- The widths of a record's fields. -/
def errWidths : List Nat := [1, 29, 6, 4, 8, 16, 5, 11, 16, 32, 64, 64, 64, 64, 64, 64]

/-- A field of a record. -/
theorem errRow_field {time : Word} {lost : BitVec 32} {lo hi w : Nat} {v : BitVec w} (ha : e.addr < 2 ^ 64) (i : Nat)
    (h : (errFields time lost e)[i]? = some ⟨w, v⟩) (hk : (errWidths.take i).sum = lo) (hb : lo + w ≤ 512) (hw : hi + 1 - lo = w) :
    fld (errRow time lost e) hi lo = v.toNat := by
  have hwid : width ((errFields time lost e).take i) = lo := by
    rw [← hk]
    unfold width
    rw [List.map_take]
    rfl
  have he := congrArg BitVec.toNat (extract_packed h hwid hb)
  rw [BitVec.extractLsb'_toNat] at he
  rw [errRow_packed time lost ha, fld, hw]
  exact he

theorem errAddr_eq (n : Nat) : errAddr n = 0x3F0000000000 + 0x200000 + 64 * (n % 1024) := rfl

/-- A record whose place is not free is counted as lost. -/
theorem record_lost (hv : (memGet s.mem (errAddr s.hub.errPos)).getLsbD 0 = true) :
    s.record e = { s with hub := { s.hub with
      errLost := if s.hub.errLost = BitVec.allOnes 32 then s.hub.errLost else s.hub.errLost + 1 } } := by
  unfold State.record
  dsimp only
  rw [if_pos hv]

/-- A record takes the next place of the ring. -/
theorem record_put (hv : (memGet s.mem (errAddr s.hub.errPos)).getLsbD 0 = false) :
    s.record e = s.putRecord e (errRow s.cycle s.hub.errLost e) (bytesOf 64 (errRow s.cycle s.hub.errLost e).toNat) := by
  unfold State.record
  dsimp only
  rw [if_neg (ne_true_of_eq_false hv)]

theorem putRecord_mem (r : Row) (bs : List Byte) : (s.putRecord e r bs).mem = memWrite s.mem (errAddr s.hub.errPos) bs := by
  dsimp only [State.putRecord, State.irq]

/-- The record is read back from its place. -/
theorem record_reads (hm : Memory.wf s.mem = true) (hv : (memGet s.mem (errAddr s.hub.errPos)).getLsbD 0 = false) :
    (BitVec.ofNat 512 (ofBytes (memRead (s.record e).mem (errAddr s.hub.errPos) 64)) : Row) = errRow s.cycle s.hub.errLost e := by
  have hread := memRead_memWrite hm (errAddr s.hub.errPos) (bytesOf 64 (errRow s.cycle s.hub.errLost e).toNat)
  rw [bytesOf_length] at hread
  rw [record_put hv, putRecord_mem, hread, ofBytes_bytesOf]
  apply BitVec.eq_of_toNat_eq
  have hlt := (errRow s.cycle s.hub.errLost e).isLt
  rw [BitVec.toNat_ofNat, show 256 ^ 64 = 2 ^ 512 by rw [show 256 = 2 ^ 8 from rfl, ← Nat.pow_mul], Nat.mod_mod, Nat.mod_eq_of_lt hlt]

/-- The fields that are read back from a record. -/
theorem errRow_reads (time : Word) (lost : BitVec 32) (ha : e.addr < 2 ^ 64) : let r := errRow time lost e
    r.getLsbD 0 = true ∧ fld r 47 40 = e.event % 256 ∧ fld r 39 36 = e.cls % 16 ∧ fld r 511 448 = time.toNat ∧ fld r 447 384 = e.addr ∧
    fld r 383 320 = e.seq.toNat ∧ fld r 319 256 = e.info.toNat ∧ fld r 255 192 = e.tpc.toNat ∧ fld r 127 96 = lost.toNat ∧
    fld r 95 80 = min e.count 65535 ∧ fld r 79 69 = e.core % 2048 ∧ fld r 63 48 = e.unit % 65536 ∧ fld r 35 30 = e.cause % 64 := by
  intro r
  have hvalid : fld r 0 0 = (1#1).toNat := errRow_field (w := 1) (lo := 0) (hi := 0) ha 0 rfl rfl (by decide) rfl
  have hbit : r.getLsbD 0 = true := by
    have h := fld_testBit (x := r) (hi := 0) (lo := 0) (i := 0)
    rw [hvalid] at h
    simpa using h.symm
  refine ⟨hbit, ?_, ?_, ?_, ?_, ?_, ?_, ?_, ?_, ?_, ?_, ?_, ?_⟩
  · exact (errRow_field ha 4 rfl rfl (by decide) rfl).trans (BitVec.toNat_ofNat _ _)
  · exact (errRow_field ha 3 rfl rfl (by decide) rfl).trans (BitVec.toNat_ofNat _ _)
  · exact errRow_field ha 15 rfl rfl (by decide) rfl
  · rw [errRow_field (hi := 447) (lo := 384) ha 14 rfl rfl (by decide) rfl, BitVec.toNat_ofNat, Nat.mod_eq_of_lt ha]
  · exact errRow_field ha 13 rfl rfl (by decide) rfl
  · exact errRow_field ha 12 rfl rfl (by decide) rfl
  · exact errRow_field ha 11 rfl rfl (by decide) rfl
  · exact errRow_field ha 9 rfl rfl (by decide) rfl
  · exact (errRow_field ha 8 rfl rfl (by decide) rfl).trans ((BitVec.toNat_ofNat _ _).trans (Nat.mod_eq_of_lt (by omega)))
  · exact (errRow_field ha 7 rfl rfl (by decide) rfl).trans (BitVec.toNat_ofNat _ _)
  · exact (errRow_field ha 5 rfl rfl (by decide) rfl).trans (BitVec.toNat_ofNat _ _)
  · exact (errRow_field ha 2 rfl rfl (by decide) rfl).trans (BitVec.toNat_ofNat _ _)

/-- What a record that is put changes of the hub. -/
theorem record_put_hub (hv : (memGet s.mem (errAddr s.hub.errPos)).getLsbD 0 = false) :
    (s.record e).hub.errPos = s.hub.errPos + 1 ∧ (s.record e).hub.errLost = 0 ∧ (s.record e).hub.irqs = s.hub.irqs ++ [3] ∧
    (s.record e).hub.msis = s.hub.msis ++ [look 0 s.hub.irqTable 3] := by
  rw [record_put hv]
  dsimp only [State.putRecord, State.irq]
  exact ⟨rfl, rfl, rfl, rfl⟩

/-! ### Storage (R414, R416) -/

/-- An uncorrectable error of a context that runs is a direct trap, once its results have returned. -/
theorem storageTrap_spec {info : Word} (h1 : (s.ctx c k).status ≠ .idle) (h2 : (s.ctx c k).status ≠ .stopped) :
    ((s.ctx c k).returned = true → s.storageTrap c k info =
      ((s.as c k).enterTrap false true 0x11 info (s.ctx c k).faultPc).as s.curCore s.curCtx) ∧
    ((s.ctx c k).returned = false → (s.ctx c k).late = none → s.storageTrap c k info =
      s.setCtx c k { s.ctx c k with late := some (info, (s.ctx c k).faultPc, true) }) := by
  have hst : ¬ ((decide ((s.ctx c k).status = .idle) || decide ((s.ctx c k).status = .stopped)) = true) := by simp [h1, h2]
  unfold State.storageTrap
  dsimp only
  rw [if_neg hst]
  refine ⟨fun h => ?_, fun h hl => ?_⟩
  · rw [h]
    rfl
  · rw [h, hl]
    rfl

/-- The number of a line's list stays through a record. -/
theorem badList_homeOnly (h : s.HomeOnly t) (a : Nat) : t.badList a = s.badList a := by
  unfold State.badList State.homeOf
  rw [h.region]

/-- What a record changes: memory, the classes of the launches, and the hub's records. -/
theorem record_frame (e : ErrRec) : ∃ mem launches hub, s.record e = { s with mem := mem, launches := launches, hub := hub } ∧
    s.hub.Recorded hub := by
  cases hv : (memGet s.mem (errAddr s.hub.errPos)).getLsbD 0
  · rw [record_put hv]
    dsimp only [State.putRecord, State.irq]
    exact ⟨_, _, _, rfl, _, _, _, _, _, _, _, rfl⟩
  · rw [record_lost hv]
    exact ⟨_, _, _, rfl, _, _, _, _, _, _, _, rfl⟩

theorem record_bad (e : ErrRec) : (s.record e).bad = s.bad := by
  obtain ⟨_, _, _, h, -⟩ := record_frame (s := s) e
  rw [h]

theorem record_ports (e : ErrRec) : (s.record e).ports = s.ports := by
  obtain ⟨_, _, _, h, -⟩ := record_frame (s := s) e
  rw [h]

theorem record_free (e : ErrRec) : (s.record e).free = s.free := by
  obtain ⟨_, _, _, h, -⟩ := record_frame (s := s) e
  rw [h]

/-- A line that finds room is listed, and none leaves the list (R416). -/
theorem listLine_lists {q : Word} {lost : Bool} (ha : line % 64 = 0) 
    (hr : (s.bad.filter fun l => (s.badList l).1 = (s.badList line).1).length < (s.badList line).2.1) :
    (s.listLine line q lost).bad = setIns s.bad line := by
  have hline : line / 64 * 64 = line := by omega
  unfold State.listLine
  dsimp only
  rw [hline, record_bad]
  have hlist : ∀ e : ErrRec, ∀ a, (s.record e).badList a = s.badList a := fun e => badList_homeOnly (record_homeOnly e)
  simp only [hlist]
  rw [if_neg (by simp only [Bool.and_eq_true, decide_eq_true_eq, not_and, not_le]; exact fun _ => hr)]

/-! ### Fences and stops (R412, R415) -/

theorem record_launchOf : s.launchOf h = none → (s.record e).launchOf h = none := by
  intro hl
  obtain ⟨f, hf⟩ := record_sameRuns (s := s) e
  have hs := (record_homeOnly (s := s) e).seq h
  unfold State.launchOf at hl ⊢
  rw [hs]
  cases hq : (s.ham h).seq with
  | none => rfl
  | some q =>
    rw [hq] at hl
    dsimp only at hl ⊢
    rw [hf, List.find?_map, Option.map_eq_none_iff]
    exact hl

/-- A hamlet that is fenced: its event is recorded, and its launch ends. -/
theorem fence_spec (n : Nat) (hf : (s.ham h).fenced = false) :
    let t := s.record { event := n, cls := 5, seq := s.seqOf (8 * h), unit := h }
    let u := t.setHam h { t.ham h with fenced := true }
    (s.launchOf h = none → s.fence h n = u) ∧
    ∀ l, u.launchOf h = some l → s.fence h n = u.abortLaunch { l with cls := max l.cls 5 } := by
  intro t u
  have hfence : s.fence h n = match u.launchOf h with
      | some l => u.abortLaunch { l with cls := max l.cls 5 }
      | none => u := by
    unfold State.fence
    rw [hf]
    rfl
  refine ⟨fun hl => ?_, fun l hl => ?_⟩
  · have hu : u.launchOf h = none := by
      have ht := record_launchOf (e := { event := n, cls := 5, seq := s.seqOf (8 * h), unit := h }) hl
      have hseq : (u.ham h).seq = (t.ham h).seq := by
        show (State.ham (State.setHam _ _ _) h).seq = _
        rw [setHam_ham_same]
      unfold State.launchOf at ht ⊢
      rw [hseq]
      exact ht
    rw [hfence, hu]
  · rw [hfence, hl]

theorem fld_statusWord_class (m : Marks) : fld (statusWord m 0) 51 48 = m.cls % 16 := by
  have hb : ∀ (x : Bool) (n : Nat), (if x then 2 ^ n else 0) ≤ 2 ^ n := fun x n => by split <;> simp
  have h4 := hb m.joinspill 4
  have h3 := hb m.dequespill 3
  have h2 := hb m.overflow 2
  have h1 := hb m.deadline 1
  have h0 := hb m.trap 0
  unfold statusWord
  dsimp only
  rw [fld_eq, BitVec.toNat_ofNat]
  generalize (if m.joinspill = true then 2 ^ 4 else 0) = x4 at *
  generalize (if m.dequespill = true then 2 ^ 3 else 0) = x3 at *
  generalize (if m.overflow = true then 2 ^ 2 else 0) = x2 at *
  generalize (if m.deadline = true then 2 ^ 1 else 0) = x1 at *
  generalize (if m.trap = true then 2 ^ 0 else 0) = x0 at *
  omega

/-- The class of combined words is the higher of theirs. -/
theorem fld_combineWords_class (a b : Word) : fld (combineWords a b) 51 48 = max (fld a 51 48) (fld b 51 48) := by
  have hlow : ((a ||| b) &&& (0x1F : Word)).toNat < 2 ^ 48 := by
    rw [BitVec.toNat_and]
    exact lt_of_le_of_lt Nat.and_le_right (by decide)
  have ha : fld a 51 48 < 16 := fld_lt _ _ _
  have hb : fld b 51 48 < 16 := fld_lt _ _ _
  have hdiv : ∀ x y : Nat, y < 2 ^ 48 → (x ||| y) / 2 ^ 48 = x / 2 ^ 48 := fun x y hy => by
    rw [← Nat.shiftRight_eq_div_pow, Nat.shiftRight_or_distrib, Nat.shiftRight_eq_div_pow, Nat.shiftRight_eq_div_pow y,
      Nat.div_eq_of_lt hy, Nat.or_zero]
  unfold combineWords
  rw [fld_eq, BitVec.toNat_or, hdiv _ _ hlow, BitVec.toNat_ofNat]
  omega

theorem fld_endWord_class (l : Launch) : fld (s.endWord l) 51 48 ≥ l.cls % 16 := by
  unfold State.endWord
  rw [fld_combineWords_class, fld_statusWord_class]
  exact le_max_right _ _

theorem dropLaunch_launches (stop : Bool) : ∀ m ∈ (s.dropLaunch l stop).launches, m.seq ≠ l.seq := by
  intro m hm
  have hm : m ∈ List.filter _ _ := hm
  simpa using (List.mem_filter.1 hm).2

/-- A launch that ends early leaves the package and owes its completion. -/
theorem abortLaunch_spec (l : Launch) : (∀ m ∈ (s.abortLaunch l).launches, m.seq ≠ l.seq) ∧
    (s.abortLaunch l).hub.owed = (s.dropLaunch l true).hub.owed ++
      [{ word := s.endWord l, seq := l.seq, info := 0, status := 0x08, code := 0x02 }] ∧
    fld (s.endWord l) 51 48 ≥ l.cls % 16 := by
  refine ⟨?_, ?_, fld_endWord_class l⟩
  · unfold State.abortLaunch State.complete
    rw [oweOnce_launches]
    exact dropLaunch_launches true
  · unfold State.abortLaunch State.complete
    rw [oweOnce_hub]

theorem record_stopped (e : ErrRec) : (s.record e).stopped = s.stopped := by
  obtain ⟨_, _, _, h, -⟩ := record_frame (s := s) e
  rw [h]

/-- The launches after a record: those that it names take its class at least. -/
theorem record_launches (e : ErrRec) :
    (s.record e).launches = s.launches ∨ (s.record e).launches = classed s.launches e.seq e.cls := by
  cases hv : (memGet s.mem (errAddr s.hub.errPos)).getLsbD 0
  · rw [record_put hv]
    dsimp only [State.putRecord, State.irq]
    exact .inr rfl
  · rw [record_lost hv]
    exact .inl rfl

/-- A package without a launch stops with one record. -/
theorem stopPackage_none (hs : s.stopped = false) (hl : s.launches = []) :
    s.stopPackage = { s.record { event := 0x06, cls := 6 } with stopped := true } := by
  have ht : (s.record { event := 0x06, cls := 6 }).launches = [] := by
    rcases record_launches (s := s) { event := 0x06, cls := 6 } with h | h <;> rw [h, hl]
    rfl
  unfold State.stopPackage
  rw [if_neg (ne_true_of_eq_false hs), hl]
  show List.foldl _ _ (s.record { event := 0x06, cls := 6 }).launches = _
  rw [ht]
  rfl

/-- A package with one launch stops with a record of it, and the launch ends. -/
theorem stopPackage_one (hs : s.stopped = false) (hl : s.launches = [l]) :
    s.stopPackage =
      State.abortLaunch { s.record { event := 0x06, cls := 6, seq := l.seq } with stopped := true } { l with cls := 6 } := by
  have ht : ∃ n, (s.record { event := 0x06, cls := 6, seq := l.seq }).launches = [{ l with cls := n }] := by
    rcases record_launches (s := s) { event := 0x06, cls := 6, seq := l.seq } with h | h <;> rw [h, hl]
    · exact ⟨l.cls, rfl⟩
    · exact ⟨max l.cls 6, by simp only [classed, List.map_cons, List.map_nil, if_true]⟩
  obtain ⟨n, ht⟩ := ht
  unfold State.stopPackage
  rw [if_neg (ne_true_of_eq_false hs), hl]
  show List.foldl _ _ (s.record { event := 0x06, cls := 6, seq := l.seq }).launches = _
  rw [ht]
  rfl

/-! ### What scrubbing finds (R414) -/

theorem storageInfo_low {a : Nat} (ha : a < 2 ^ 46) (code : Nat) : storageInfo code a = BitVec.ofNat 64 (code * 2 ^ 60 + a) := by
  rw [storageInfo, Nat.mod_eq_of_lt ha]

/-- An uncorrectable line of the L1: refetched where it is clean, listed where it was dirty. -/
theorem l1Lost_found {y : Line} (hf : find (s.ham (hamOf c)).lines line = some y) :
    s.l1Lost c line = if y.dirty = 0 then s.dropLine (hamOf c) line
      else (s.dropLine (hamOf c) line).listLine line (s.seqOf c) true (some (1, c)) := by
  unfold State.l1Lost
  dsimp only
  rw [hf]

/-- The effect of each storage code. -/
theorem uncorrectable_code (unit addr : Nat) :
    s.uncorrectable 0 unit addr = s.storageTrap (unit / 8) (unit % 8) (storageInfo 0 addr) ∧
    s.uncorrectable 1 unit addr = s.l1Lost unit (addr / 64 * 64) ∧
    (∀ n, 2 ≤ n → n ≤ 7 → s.uncorrectable n unit addr =
      s.listLine (addr / 64 * 64) 0 false (if n = 4 then some (4, s.homeOf (addr / 64 * 64)) else none)) ∧
    ((s.core unit).mill.owned = true →
      s.uncorrectable 8 unit addr = s.storageTrap unit (s.core unit).mill.owner (storageInfo 8 addr)) ∧
    s.uncorrectable 0xB unit addr = s.fence (unit % 256) 0x04 ∧ s.uncorrectable 0xC unit addr = s.stopPackage := by
  refine ⟨rfl, rfl, fun n h2 h7 => ?_, fun h => if_pos h, rfl, rfl⟩
  interval_cases n <;> rfl

/-! ### Power and temperature (00 R24 to R26, 20 R462) -/

theorem minPoint_le : ∀ a b c : BitVec 2, minPoint a (minPoint b c) ≤ c ∧ minPoint a (minPoint b c) ≤ b ∧ minPoint a b ≤ b ∧
    minPoint a b ≤ a := by decide

/-- Where the fold of a supply's new ceiling over hamlets leaves each of them. -/
theorem foldl_ceiling (p : BitVec 2) {hs : List Nat} (hn : hs.Nodup) (g : Nat) :
    (hs.foldl (fun t h => t.setHam h { t.ham h with
      ceiling := minPoint (t.ham h).ceiling p
      point := minPoint (t.ham h).point (minPoint (t.ham h).ceiling p) }) s).ham g =
    if g ∈ hs then { s.ham g with
      ceiling := minPoint (s.ham g).ceiling p
      point := minPoint (s.ham g).point (minPoint (s.ham g).ceiling p) } else s.ham g := by
  induction hs generalizing s with
  | nil => rfl
  | cons h hs ih =>
    obtain ⟨hh, hn⟩ := List.nodup_cons.1 hn
    rw [List.foldl_cons, ih hn]
    by_cases hg : g = h
    · subst hg
      rw [if_neg hh, if_pos List.mem_cons_self, setHam_ham_same]
    · rw [setHam_ham_other _ _ _ hg]
      simp only [List.mem_cons, hg, false_or]

theorem ham_of_hamlets (ht : t.hamlets = s.hamlets) (h : Nat) : t.ham h = s.ham h := by
  rw [State.ham, State.ham, ht]

/-- A reduced supply lowers every hamlet's ceiling, and its point to it. -/
theorem lowerCeiling_ham (p : BitVec 2) {g : Nat} (hg : g < 256) : (s.lowerCeiling p).ham g = { s.ham g with
    ceiling := minPoint (s.ham g).ceiling p
    point := minPoint (s.ham g).point (minPoint (s.ham g).ceiling p) } := by
  unfold State.lowerCeiling
  dsimp only
  rw [ham_of_hamlets (record_hamlets _), foldl_ceiling p List.nodup_range, if_pos (List.mem_range.2 hg)]

/-- What a hamlet's sensor does to its operating point, between and at each millisecond. -/
theorem throttle_ham (h : Nat) : (s.throttle h).ham h =
    if (s.ham h).heat = .hot then (s.ham h).drop else if (s.ham h).heat = .warm ∨ (s.ham h).cap = 3 then s.ham h
    else { s.ham h with
      cap := (s.ham h).cap + 1
      point := if (s.ham h).point = (s.ham h).cap then minPoint ((s.ham h).cap + 1) (s.ham h).ceiling else (s.ham h).point } := by
  cases hx : (s.ham h).heat with
  | hot =>
    rw [if_pos rfl, State.throttle]
    simp only [hx, setHam_ham_same]
  | warm =>
    rw [if_neg (by decide), if_pos (.inl rfl), State.throttle]
    simp only [hx]
  | cool =>
    rw [if_neg (by decide), State.throttle]
    by_cases hc : (s.ham h).cap = 3
    · have hor : Heat.cool = .warm ∨ (s.ham h).cap = 3 := .inr hc
      rw [if_pos hor]
      simp only [hx, hc, if_true]
    · rw [if_neg (not_or.2 ⟨by decide, hc⟩ : ¬(Heat.cool = .warm ∨ (s.ham h).cap = 3))]
      simp only [hx, hc, if_false, setHam_ham_same]

/-- What a hamlet's sensor says. -/
theorem threshold_ham (h : Nat) (now : Heat) : (s.threshold h now).ham h =
    if now = .hot ∧ (s.ham h).heat ≠ .hot then { (s.ham h).drop with heat := now } else { s.ham h with heat := now } := by
  unfold State.threshold
  dsimp only
  rw [setHam_ham_same]
  by_cases hn : now = .hot ∧ (s.ham h).heat ≠ .hot
  · rw [if_pos hn, if_pos (by simpa using hn)]
  · rw [if_neg hn, if_neg (by simpa using hn)]

/-! ### Service firmware and the boot (20 R461, R463, 13 R373) -/

/-- A record of a class below 3 is no report. -/
theorem record_reportNo (he : e.cls < 3) : (s.record e).hub.reportNo = s.hub.reportNo := by
  have hsent : (decide (3 ≤ e.cls) && s.hub.service) = false := by
    rw [decide_eq_false (by omega), Bool.false_and]
  cases hv : (memGet s.mem (errAddr s.hub.errPos)).getLsbD 0
  · rw [record_put hv]
    dsimp only [State.putRecord, State.irq]
    rw [hsent]
    rfl
  · rw [record_lost hv]

/-- Service firmware that has been silent starts again where its image verifies, and nowhere else. -/
theorem restartService_spec (hv : s.hub.service = true) :
    (verifies Config.flashServiceDigest Config.flashSignature = true →
      s.restartService.hub.service = true ∧ s.restartService.hub.serviceDigest = Config.flashServiceDigest ∧
        s.restartService.hub.reportNo = 0) ∧
    (verifies Config.flashServiceDigest Config.flashSignature = false →
      s.restartService.hub.service = false ∧ s.restartService.hub.serviceDigest = 0) ∧ s.restartService.ports = s.ports := by
  have hrun : s.restartService = if verifies Config.flashServiceDigest Config.flashSignature then
      ({ s with hub := s.hub.startService Config.flashServiceDigest } : State).record { event := 0x14, cls := 0 }
      else ({ s with hub := { s.hub with
        service := false
        serviceDigest := 0 } } : State).record { event := 0x15, cls := 0 } := by
    unfold State.restartService
    exact if_neg (by simp [hv])
  rw [hrun]
  refine ⟨fun h => ?_, fun h => ?_, ?_⟩
  · rw [h, if_pos rfl, record_reportNo (by decide)]
    obtain ⟨_, _, _, hr, _, _, _, _, _, _, _, rfl⟩ :=
      record_frame (s := { s with hub := s.hub.startService Config.flashServiceDigest }) { event := 0x14, cls := 0 }
    rw [hr]
    exact ⟨rfl, rfl, rfl⟩
  · rw [h, if_neg (by decide)]
    obtain ⟨_, _, _, hr, _, _, _, _, _, _, _, rfl⟩ := record_frame (s := { s with hub := { s.hub with
        service := false
        serviceDigest := 0 } }) { event := 0x15, cls := 0 }
    rw [hr]
    exact ⟨rfl, rfl⟩
  · split <;> exact record_ports _

/-- What a number of records change. -/
theorem records_frame {α : Type} (f : α → ErrRec) (l : List α) (s : State) : ∃ mem launches hub,
    l.foldl (fun u n => u.record (f n)) s = { s with
      mem := mem
      launches := launches
      hub := hub } ∧ s.hub.Recorded hub ∧ (s.launches = [] → launches = []) := by
  induction l generalizing s with
  | nil => exact ⟨_, _, _, rfl, .refl _, id⟩
  | cons a l ih =>
    obtain ⟨m, ls, hub, h1, hr⟩ := record_frame (s := s) (f a)
    obtain ⟨m', ls', hub', h2, hr', hl⟩ := ih (s.record (f a))
    refine ⟨m', ls', hub', ?_, ?_, fun hs => hl ?_⟩
    · rw [List.foldl_cons, h2, h1]
    · rw [h1] at hr'
      exact hr.trans hr'
    · rcases record_launches (s := s) (f a) with h | h <;> rw [h, hs]
      rfl

/-- What is looked up among entries whose values are those of a function of their keys. -/
theorem look_map_keys {α : Type} (d : α) (F : Nat → α) (l : List Nat) (i : Nat) :
    look d (l.map fun k => (k, F k)) i = if i ∈ l then F i else d := by
  induction l with
  | nil => rfl
  | cons k l ih =>
    rw [List.map_cons, look, ih]
    by_cases hk : k = i
    · subst hk
      simp
    · simp [hk, Ne.symm hk]

/-- The package at the end of its boot, but for the records of the boot. -/
def booted (s : State) (r : BootReport) : State :=
  { State.reset with
    inputs := s.inputs
    free := s.free
    hub := bootHub r
    cores := bootCores r.trapvec r.reevevec }

theorem booted_ctx (r : BootReport) (hc : c < 2048) (hk : k < 5) : (booted s r).ctx c k = { trapvec := writeAddr 0 r.trapvec } ∧
    ((booted s r).core c).reevevec = writeAddr 0 r.reevevec := by
  have hcore : (booted s r).core c = { reevevec := writeAddr 0 r.reevevec, ctxs := (List.range 5).map fun k => (k, { trapvec := writeAddr 0 r.trapvec }) } := by
    simp only [State.core, booted, bootCores, look_map_keys, List.mem_range, if_pos hc]
  refine ⟨?_, by rw [hcore]⟩
  unfold State.ctx
  rw [hcore]
  exact (look_map_keys _ _ _ _).trans (if_pos (List.mem_range.2 hk))

/-- A boot that is through leaves that package, with its records. -/
theorem boot_through (r : BootReport) (hr : r.failStep = 0) : ∃ mem launches hub, s.boot r = { booted s r with
      mem := mem
      launches := launches
      hub := hub } ∧ (bootHub r).Recorded hub ∧ launches = [] := by
  obtain ⟨m, ls, hub, h1, hh, hl⟩ := records_frame (fun n : BitVec 16 => { event := 0x0F, cls := 0, unit := n.toNat }) r.lpddrOut
    (booted s r)
  have hrun : s.boot r = if bootStarts r then
      r.lpddrOut.foldl (fun (u : State) n => u.record { event := 0x0F, cls := 0, unit := n.toNat }) (booted s r)
      else (r.lpddrOut.foldl (fun (u : State) n => u.record { event := 0x0F, cls := 0, unit := n.toNat }) (booted s r)).record
        { event := 0x15, cls := 0 } := by
    unfold State.boot
    exact if_neg (by simp [hr])
  have hls : ls = [] := hl rfl
  rw [hrun, h1]
  generalize booted s r = b
  subst hls
  split
  · exact ⟨m, [], hub, rfl, hh, rfl⟩
  · obtain ⟨m', ls', hub', h2, hh', hl'⟩ := records_frame (fun _ : Unit => { event := 0x15, cls := 0 }) [()]
      { b with
        mem := m
        launches := []
        hub := hub }
    exact ⟨m', ls', hub', h2, hh.trans hh', hl' rfl⟩

theorem bootHub_fields (r : BootReport) : (bootHub r).booted = true ∧ (bootHub r).gmin = r.gmin ∧ (bootHub r).hmax = r.hmax ∧
    (bootHub r).rampstep = r.rampstep ∧ (bootHub r).lpddr = r.lpddr ∧ (bootHub r).service = bootStarts r := by
  cases h : bootStarts r <;> simp [bootHub, h, Hub.startService]

/-- The package after power-good. -/
theorem boot_spec (r : BootReport) : (s.boot r).launches = [] ∧ (s.boot r).free = s.free ∧
    (r.failStep ≠ 0 → (s.boot r).hub.bootStop = r.failStep ∧ (s.boot r).hub.booted = false) ∧
    (r.failStep = 0 → (s.boot r).hub.booted = true ∧ (s.boot r).hub.gmin = r.gmin ∧ (s.boot r).hub.hmax = r.hmax ∧
      (s.boot r).hub.rampstep = r.rampstep ∧ (s.boot r).hub.lpddr = r.lpddr ∧ (s.boot r).hub.service = bootStarts r ∧
      (∀ h, ((s.boot r).ham h).ceiling = 3 ∧ ((s.boot r).ham h).fenced = false) ∧
      ∀ c k, c < 2048 → k < 5 → ((s.boot r).ctx c k).status = .idle ∧ ((s.boot r).ctx c k).trapvec = writeAddr 0 r.trapvec ∧
        ((s.boot r).core c).reevevec = writeAddr 0 r.reevevec) := by
  by_cases hr : r.failStep = 0
  · obtain ⟨m, ls, hub, h1, ⟨_, _, _, _, _, _, _, rfl⟩, rfl⟩ := boot_through (s := s) r hr
    obtain ⟨hb, hg, hm, hp, hl, hsv⟩ := bootHub_fields r
    have hctx := fun c k => booted_ctx (s := s) (c := c) (k := k) r
    have hfree : (booted s r).free = s.free := by simp only [booted]
    have hhams : (booted s r).hamlets = [] := by simp only [booted, State.reset]
    rw [h1]
    generalize booted s r = b at *
    refine ⟨rfl, hfree, fun h => absurd hr h, fun _ => ⟨hb, hg, hm, hp, hl, hsv, fun h => ?_, fun c k hc hk => ?_⟩⟩
    · rw [State.ham, hhams]
      exact ⟨rfl, rfl⟩
    obtain ⟨hx, hv⟩ := hctx c k hc hk
    refine ⟨?_, ?_, hv⟩
    · exact (congrArg Ctx.status hx :)
    · exact (congrArg Ctx.trapvec hx :)
  · have hrun : ∃ hub : Hub, s.boot r = { State.reset with
        inputs := s.inputs
        free := s.free
        hub := hub } ∧ hub.bootStop = r.failStep ∧ hub.booted = false := by
      unfold State.boot
      exact ⟨_, if_pos hr, rfl, rfl⟩
    obtain ⟨hub, h1, hb, hn⟩ := hrun
    rw [h1]
    exact ⟨rfl, rfl, fun _ => ⟨hb, hn⟩, fun h => absurd h hr⟩

/-- Issue passes over a hamlet that is fenced or shut down. -/
theorem issueFrom_silent (cs : List Nat) (h : (s.ham (hamOf c)).fenced = true ∨ (s.ham (hamOf c)).shut = true) :
    s.issueFrom (c :: cs) = s.issueFrom cs := by
  rw [State.issueFrom, if_pos (by simpa using h)]

/-- What scrubbing does with an uncorrectable error. -/
theorem exec_scrubPass (code : BitVec 4) (unit : BitVec 16) (addr : BitVec 46) :
    exec (.scrubPass code unit addr true) s = .next (s.uncorrectable code.toNat unit.toNat addr.toNat) := rfl

/-- A trap of the storage whose context is known to run, by the code that its TRAPINFO carries. -/
theorem scrub_register (unit : BitVec 16) (addr : BitVec 46) : let x := s.ctx (unit.toNat / 8) (unit.toNat % 8)
    x.status ≠ .idle → x.status ≠ .stopped →
    (x.returned = true → exec (.scrubPass 0 unit addr true) s = .next (((s.as (unit.toNat / 8) (unit.toNat % 8)).enterTrap false
      true 0x11 (BitVec.ofNat 64 addr.toNat) x.faultPc).as s.curCore s.curCtx)) ∧
    (x.returned = false → x.late = none → exec (.scrubPass 0 unit addr true) s = .next (s.setCtx (unit.toNat / 8) (unit.toNat % 8)
      { x with late := some (BitVec.ofNat 64 addr.toNat, x.faultPc, true) })) := by
  intro x h1 h2
  have hinfo : storageInfo 0 addr.toNat = BitVec.ofNat 64 addr.toNat := by
    rw [storageInfo_low addr.isLt, Nat.zero_mul, Nat.zero_add]
  have hrun : exec (.scrubPass 0 unit addr true) s = .next (s.storageTrap (unit.toNat / 8) (unit.toNat % 8) (BitVec.ofNat 64 addr.toNat)) := by
    obtain ⟨hreg, -⟩ := uncorrectable_code (s := s) unit.toNat addr.toNat
    rw [← hinfo, ← hreg]
    rfl
  obtain ⟨hnow, hlater⟩ := storageTrap_spec (info := BitVec.ofNat 64 addr.toNat) h1 h2
  rw [hrun]
  exact ⟨fun h => congrArg _ (hnow h), fun h hl => congrArg _ (hlater h hl)⟩

theorem scrub_mill (unit : BitVec 16) (addr : BitVec 46) (ho : (s.core unit.toNat).mill.owned = true)
    (hs : (s.ctx unit.toNat (s.core unit.toNat).mill.owner).status = .running)
    (hr : (s.ctx unit.toNat (s.core unit.toNat).mill.owner).returned = true) :
    exec (.scrubPass 8 unit addr true) s = .next (((s.as unit.toNat (s.core unit.toNat).mill.owner).enterTrap false true 0x11
      (BitVec.ofNat 64 (8 * 2 ^ 60 + addr.toNat)) (s.ctx unit.toNat (s.core unit.toNat).mill.owner).faultPc).as s.curCore s.curCtx) := by
  obtain ⟨-, -, -, hmill, -⟩ := uncorrectable_code (s := s) unit.toNat addr.toNat
  obtain ⟨hnow, -⟩ := storageTrap_spec (s := s) (info := storageInfo 8 addr.toNat) (by rw [hs]; decide) (by rw [hs]; decide)
  rw [exec_scrubPass, show (8 : BitVec 4).toNat = 8 from rfl, hmill ho, hnow hr, storageInfo_low addr.isLt]

end Sys2Proof.Machine

open Sys2Proof Sys2Proof.Machine

/-- Settles O56: a record's row packs its fields, each read back from its place; the other effects are those of the functions' own
equations. -/
theorem containmentEvents : Obligations.ContainmentEvents := by
  unfold Obligations.ContainmentEvents
  intro s
  refine ⟨fun e ha => ⟨fun hv => ?_, fun hm hv => ?_⟩, fun h => if_pos h, fun c cs => issueFrom_silent cs,
    fun code unit addr => ⟨rfl, ?_, ?_, ?_, ?_, ?_, ?_, ?_⟩, fun line q lost ha _ hr => ?_, fun h e => fence_spec e, abortLaunch_spec,
    fun ev hev hs => ?_, fun code unit count hc => congrArg _ (if_neg hc), fun h p => ⟨?_, fun now => ?_, ?_, rfl, ?_⟩, fun hv => ⟨?_, ?_⟩,
    fun r => ⟨_, rfl, boot_spec r⟩⟩
  case refine_1 =>
    rw [record_lost hv]
    exact ⟨rfl, rfl, rfl⟩
  case refine_2 =>
    obtain ⟨hbit, hevent, hcls, htime, haddr, hseq, hinfo, htpc, hlost, hcount, hcore, hunit, hcause⟩ :=
      errRow_reads s.cycle s.hub.errLost ha
    rw [← errAddr_eq, record_reads hm hv]
    exact ⟨hbit, hevent, hcls, htime, haddr, hseq, hinfo, htpc, hlost, hcount, hcore, hunit, hcause, record_put_hub hv⟩
  case refine_3 =>
    rintro rfl h1 h2
    exact scrub_register unit addr h1 h2
  case refine_4 =>
    rintro rfl l hf hd
    exact congrArg _ ((l1Lost_found hf).trans (if_pos hd))
  case refine_5 =>
    rintro rfl l hf hd
    exact congrArg _ ((l1Lost_found hf).trans (if_neg hd))
  case refine_6 =>
    intro h2 h7
    obtain ⟨-, -, hlist, -⟩ := uncorrectable_code (s := s) unit.toNat addr.toNat
    have hcode : (code.toNat = 4) = (code = 4) := by
      rw [← BitVec.toNat_inj]
      rfl
    refine congrArg _ ((hlist code.toNat h2 h7).trans ?_)
    simp only [hcode]
  case refine_7 =>
    rintro rfl y rfl ho hs hr
    exact scrub_mill unit addr ho hs hr
  case refine_8 =>
    rintro rfl
    rfl
  case refine_9 =>
    rintro rfl
    rfl
  case refine_10 =>
    have hmem := listLine_lists (q := q) (lost := lost) ha hr
    rw [hmem]
    exact ⟨mem_setIns.2 (.inl rfl), fun l hl => mem_setIns.2 (.inr hl)⟩
  case refine_11 =>
    have hrun : exec ev s = .next s.stopPackage := by
      rcases hev with rfl | ⟨d, rfl⟩ <;> rfl
    rw [hrun]
    exact ⟨fun hl => congrArg _ (stopPackage_none hs hl), fun l hl => congrArg _ (stopPackage_one hs hl)⟩
  case refine_12 =>
    have hle := minPoint_le p (s.ham h.val).cap (s.ham h.val).ceiling
    refine ⟨s.choosePoint h.val p, rfl, rfl, setHam_ham_same _ _ _, ?_, ?_⟩
    · exact (congrArg (Hamlet.point · ≤ _) (setHam_ham_same _ _ _)).mpr hle.1
    · exact (congrArg (Hamlet.point · ≤ _) (setHam_ham_same _ _ _)).mpr hle.2.1
  case refine_13 => exact ⟨_, rfl, threshold_ham h.val now⟩
  case refine_14 => exact ⟨_, rfl, throttle_ham h.val⟩
  case refine_15 =>
    refine ⟨_, rfl, fun g hg => ?_⟩
    have hle := minPoint_le (s.ham g).point (minPoint (s.ham g).ceiling p) 0
    rw [lowerCeiling_ham p hg]
    exact ⟨rfl, hle.2.2.1, hle.2.2.2⟩
  case refine_16 => exact ⟨_, rfl, restartService_spec hv⟩
  case refine_17 => exact congrArg _ (if_pos hv)

end

section
/-! Links and packets between packages (20 R452 to R455, R460). -/

namespace Sys2Proof.Machine

variable {s t u : State} {line pa : Nat} {bs : List (Nat × Byte)}

/-! ### Homes do not depend on the packets that wait -/

/-- A state with other packets that have arrived, other peers and another number of messages. -/
def State.withNet (s : State) (inc : List Msg) (peers : Map Peer) (n : Nat) : State :=
  { s with
    incoming := inc
    peers := peers
    seqno := n }

section
variable (i : List Msg) (p : Map Peer) (n : Nat)

theorem putRecord_withNet (e : ErrRec) (r : Row) (l : List Byte) :
    (s.withNet i p n).putRecord e r l = (s.putRecord e r l).withNet i p n := by
  dsimp only [State.putRecord, State.irq, State.withNet, State.report]

theorem record_withNet (e : ErrRec) : (s.withNet i p n).record e = (s.record e).withNet i p n := by
  cases hv : (memGet s.mem (errAddr s.hub.errPos)).getLsbD 0
  · rw [record_put hv, record_put (s := s.withNet i p n) hv]
    exact putRecord_withNet _ _ _ _ _ _
  · rw [record_lost hv, record_lost (s := s.withNet i p n) hv]
    rfl

theorem homeRead_withNet (k : Nat) : (s.withNet i p n).homeRead pa k = s.homeRead pa k := rfl

theorem homeSpan_withNet (k : Nat) : (s.withNet i p n).homeSpan pa k = s.homeSpan pa k := rfl

theorem homeLine_withNet : (s.withNet i p n).homeLine line = s.homeLine line := rfl

/-- A fold of steps that commute with the change. -/
theorem foldl_withNet {α : Type} {f : State → α → State} (hf : ∀ (s : State) a, f (s.withNet i p n) a = (f s a).withNet i p n) (l : List α)
    (s : State) : l.foldl f (s.withNet i p n) = (l.foldl f s).withNet i p n := by
  induction l generalizing s with
  | nil => rfl
  | cons a l ih => rw [List.foldl_cons, List.foldl_cons, hf, ih]

/-- The record of a word of an evicted scale-window line that E8M0 cannot hold. -/
def State.codeRecord (s : State) (line : Nat) (r : Row) (word : Nat) : ErrRec where
  event := 0x09
  cls := 0
  addr := line
  unit := s.controllerOf line
  seq := (s.launches.head?.map Launch.seq).getD 0
  info := BitVec.ofNat 64 (word * 2 ^ 32 + fld r (32 * word + 31) (32 * word))

/-- The records of an evicted scale-window line. -/
def State.recordCodes (s : State) (line : Nat) (r : Row) (codes : List (Nat × Byte)) : State :=
  codes.foldl (fun t c => t.record (t.codeRecord line r c.1)) s

/-- A state in which a scale-window line has been encoded into its codes. -/
def State.encoded (s : State) (line : Nat) (r : Row) (g : BitVec 256) (q : Nat) : State :=
  { s with
    scales := del s.scales line
    tainted := s.tainted.filter (· ≠ line)
    zeros := s.zeros.filter (· ≠ (fld g 173 128 + 16 * q) / 64)
    mem := memPut (if s.zeros.contains ((fld g 173 128 + 16 * q) / 64) then
        memWrite s.mem (64 * ((fld g 173 128 + 16 * q) / 64)) (List.replicate 64 0) else s.mem)
      (fld g 173 128 + 16 * q) (scaleCodes g q r) }

theorem evictScales_held {r : Row} {g : BitVec 256} {q : Nat} (hf : find s.scales line = some r) (hr : scaleRange s.ranges line = some (g, q)) :
    s.evictScales line = (s.encoded line r g q).recordCodes line r ((scaleCodes g q r).filter fun c => c.2 = 0xFF) := by
  unfold State.evictScales
  rw [hf, hr]
  rfl

theorem evictScales_none (h : find s.scales line = none ∨ scaleRange s.ranges line = none) : s.evictScales line = s := by
  unfold State.evictScales
  rcases h with h | h
  · rw [h]
  · rw [h]
    split <;> simp_all

theorem codeRecord_withNet (r : Row) (word : Nat) : (s.withNet i p n).codeRecord line r word = s.codeRecord line r word := rfl

theorem recordCodes_withNet (r : Row) (codes : List (Nat × Byte)) :
    (s.withNet i p n).recordCodes line r codes = (s.recordCodes line r codes).withNet i p n := by
  refine foldl_withNet i p n (fun t c => ?_) codes s
  rw [codeRecord_withNet, record_withNet]

theorem evictScales_withNet : (s.withNet i p n).evictScales line = (s.evictScales line).withNet i p n := by
  cases hf : find s.scales line with
  | none => rw [evictScales_none (.inl hf), evictScales_none (s := s.withNet i p n) (.inl hf)]
  | some r =>
    cases hr : scaleRange s.ranges line with
    | none => rw [evictScales_none (.inr hr), evictScales_none (s := s.withNet i p n) (.inr hr)]
    | some x =>
      rw [evictScales_held hf hr, evictScales_held (s := s.withNet i p n) hf hr]
      exact recordCodes_withNet (s := s.encoded line r x.1 x.2) i p n r _

theorem leaveWay_withNet : (s.withNet i p n).leaveWay line = (s.leaveWay line).withNet i p n := by
  unfold State.leaveWay
  rw [evictScales_withNet]
  rfl

theorem wayRoom_withNet (held : List Nat) : (s.withNet i p n).wayRoom held = (s.wayRoom held).withNet i p n := by
  unfold State.wayRoom
  have hf : (s.withNet i p n).free = s.free := rfl
  rw [hf]
  cases victimOf s.free held with
  | none => rfl
  | some v =>
    dsimp only
    rw [leaveWay_withNet]
    rfl

theorem takeWay_withNet : (s.withNet i p n).takeWay line = (s.takeWay line).withNet i p n := by
  have hw : (s.withNet i p n).ways = s.ways := rfl
  have hs : (s.withNet i p n).sameSet line s.ways = s.sameSet line s.ways := rfl
  unfold State.takeWay
  rw [hw, hs]
  dsimp only
  by_cases h1 : s.ways.contains line = true
  · rw [if_pos h1, if_pos h1]
  rw [if_neg h1, if_neg h1]
  by_cases h2 : (s.sameSet line s.ways).length < setWays
  · rw [if_pos h2, if_pos h2]
    rfl
  · rw [if_neg h2, if_neg h2, wayRoom_withNet]
    rfl

theorem zeroRoom_withNet (held : List Nat) : (s.withNet i p n).zeroRoom held = (s.zeroRoom held).withNet i p n := by
  have hf : (s.withNet i p n).free = s.free := rfl
  unfold State.zeroRoom
  rw [hf]
  cases victimOf s.free held with
  | none => rfl
  | some v => dsimp only [State.withNet]

/-- A line entered among the zero lines. -/
def State.asZero (s : State) (line : Nat) : State :=
  { s with
    zeros := setIns s.zeros (line / 64)
    ways := s.ways.filter (· ≠ line) }

theorem zeroLine_eq (line : Nat) : s.zeroLine line =
    (if s.zeros.contains (line / 64) || decide ((s.sameSet line (s.zeros.map fun z => 64 * z)).length < setWays) then s
      else s.zeroRoom (s.sameSet line (s.zeros.map fun z => 64 * z))).asZero line := rfl

theorem zeroLine_withNet : (s.withNet i p n).zeroLine line = (s.zeroLine line).withNet i p n := by
  have hz : (s.withNet i p n).zeros = s.zeros := rfl
  have hs : ∀ l, (s.withNet i p n).sameSet line l = s.sameSet line l := fun _ => rfl
  rw [zeroLine_eq, zeroLine_eq, hz, hs]
  split
  · rfl
  · rw [zeroRoom_withNet]
    rfl

/-- A scale-window line written: its words are held by its slice. -/
def State.scaleWrite (s : State) (pa : Nat) (bs : List (Nat × Byte)) : State :=
  { s.takeWay (pa / 64 * 64) with
    scales := put (s.takeWay (pa / 64 * 64)).scales (pa / 64 * 64) (rowPut (s.homeLine (pa / 64 * 64)) (pa % 64) bs)
    tainted := if !(pa = pa / 64 * 64 && bs.length = 64) && s.listedLine (pa / 64 * 64) then
        setIns (s.takeWay (pa / 64 * 64)).tainted (pa / 64 * 64)
      else (s.takeWay (pa / 64 * 64)).tainted.filter (· ≠ pa / 64 * 64) }

/-- Bytes written to a line of global memory, which a scale window may serve. -/
def State.sliceWrite (s : State) (pa : Nat) (bs : List (Nat × Byte)) : State :=
  if (scaleRange s.ranges (pa / 64 * 64)).isSome then s.scaleWrite pa bs else s.globalWrite pa bs

/-- Bytes written to storage of a hamlet, or to an address of another kind. -/
def State.bytesPut (s : State) (pa : Nat) (bs : List (Nat × Byte)) : State := { s with mem := memPut s.mem pa bs }

/-- A write at a home, by the region of its address. -/
def State.regionWrite (s : State) (pa : Nat) (bs : List (Nat × Byte)) : Region → State
  | .unbacked => s
  | .commons h => if isTable h pa then s.putBits h pa bs else (s.unlist (pa / 64 * 64) (pa = pa / 64 * 64 && bs.length = 64)).bytesPut pa bs
  | .hbm | .lpddr | .cxl _ => (s.unlist (pa / 64 * 64) (pa = pa / 64 * 64 && bs.length = 64)).sliceWrite pa bs
  | _ => (s.unlist (pa / 64 * 64) (pa = pa / 64 * 64 && bs.length = 64)).bytesPut pa bs

theorem homeWrite_regionWrite (pa : Nat) (bs : List (Nat × Byte)) : s.homeWrite pa bs = s.regionWrite pa bs (s.region pa) := by
  unfold State.homeWrite State.regionWrite
  cases s.region pa with
  | hbm => 
    dsimp only
    unfold State.sliceWrite
    cases scaleRange (s.unlist (pa / 64 * 64) (pa = pa / 64 * 64 && bs.length = 64)).ranges (pa / 64 * 64) <;> rfl
  | lpddr => 
    dsimp only
    unfold State.sliceWrite
    cases scaleRange (s.unlist (pa / 64 * 64) (pa = pa / 64 * 64 && bs.length = 64)).ranges (pa / 64 * 64) <;> rfl
  | cxl c => 
    dsimp only
    unfold State.sliceWrite
    cases scaleRange (s.unlist (pa / 64 * 64) (pa = pa / 64 * 64 && bs.length = 64)).ranges (pa / 64 * 64) <;> rfl
  | _ => rfl

theorem unlist_withNet (whole : Bool) : (s.withNet i p n).unlist line whole = (s.unlist line whole).withNet i p n := by
  cases whole <;> rfl

theorem scaleWrite_withNet : (s.withNet i p n).scaleWrite pa bs = (s.scaleWrite pa bs).withNet i p n := by
  unfold State.scaleWrite
  rw [takeWay_withNet]
  rfl

theorem partWrite_withNet : (s.withNet i p n).partWrite pa bs = (s.partWrite pa bs).withNet i p n := by
  have hz : (s.withNet i p n).zeros = s.zeros := rfl
  unfold State.partWrite
  rw [hz]
  split <;> rfl

theorem globalWrite_withNet : (s.withNet i p n).globalWrite pa bs = (s.globalWrite pa bs).withNet i p n := by
  unfold State.globalWrite
  rw [zeroLine_withNet, takeWay_withNet, partWrite_withNet]
  exact (apply_ite (fun t : State => t.withNet i p n) _ _ _).symm

theorem sliceWrite_withNet : (s.withNet i p n).sliceWrite pa bs = (s.sliceWrite pa bs).withNet i p n := by
  unfold State.sliceWrite
  rw [scaleWrite_withNet, globalWrite_withNet]
  exact (apply_ite (fun t : State => t.withNet i p n) _ _ _).symm

theorem homeWrite_withNet : (s.withNet i p n).homeWrite pa bs = (s.homeWrite pa bs).withNet i p n := by
  rw [homeWrite_regionWrite, homeWrite_regionWrite, show (s.withNet i p n).region pa = s.region pa from rfl]
  unfold State.regionWrite
  cases s.region pa with
  | unbacked => rfl
  | commons h =>
    dsimp only
    rw [unlist_withNet]
    split <;> rfl
  | hbm => exact (congrArg (State.sliceWrite · pa bs) (unlist_withNet i p n _)).trans (sliceWrite_withNet i p n)
  | lpddr => exact (congrArg (State.sliceWrite · pa bs) (unlist_withNet i p n _)).trans (sliceWrite_withNet i p n)
  | cxl c => exact (congrArg (State.sliceWrite · pa bs) (unlist_withNet i p n _)).trans (sliceWrite_withNet i p n)
  | stash c => exact congrArg (State.bytesPut · pa bs) (unlist_withNet i p n _)
  | control => exact congrArg (State.bytesPut · pa bs) (unlist_withNet i p n _)

theorem homePut_withNet : (s.withNet i p n).homePut pa bs = (s.homePut pa bs).withNet i p n := by
  unfold State.homePut
  exact foldl_withNet i p n (fun _ _ => homeWrite_withNet _ _ _) _ _

end
/-! ### Ports (R452) -/

section
variable {c k n : Nat} {d : BitVec 20} {m : Msg} {q : BitVec 12} {x : Port}

theorem setPort_same (n : Nat) (x : Port) : (s.setPort n x).port n = x := look_put_same _ _ _ _

theorem setPort_other (n : Nat) (x : Port) {j : Nat} (h : j ≠ n) : (s.setPort n x).port j = s.port j := look_put_other _ _ _ h

theorem record_port (e : ErrRec) (j : Nat) : (s.record e).port j = s.port j := by
  rw [State.port, record_ports, State.port]

/-- A flit that is expected is taken; another, or one with a wrong CRC, is asked for again. -/
theorem flitIn_port (n : Nat) (q : BitVec 12) (good : Bool) (hu : (s.port n).up = true) : (s.flitIn n q good).port n =
    if good = true ∧ q = (s.port n).expect then { s.port n with
      expect := (s.port n).expect + 1
      asked := false }
    else { s.port n with asked := true } := by
  unfold State.flitIn
  dsimp only
  rw [if_neg (by simp [hu])]
  by_cases h : good = true ∧ q = (s.port n).expect
  · rw [if_pos h, if_pos (by simpa using h), setPort_same]
  · rw [if_neg h, if_neg (by simpa using h), setPort_same]

/-- The eighth failed replay makes a port retrain. -/
theorem replayFailed_port (n : Nat) (hu : (s.port n).up = true) (hb : (s.port n).buffer ≠ []) : (s.replayFailed n).port n =
    if 7 ≤ (s.port n).fails then { s.port n with
      training := true
      fails := 0 }
    else { s.port n with fails := (s.port n).fails + 1 } := by
  unfold State.replayFailed
  dsimp only
  rw [if_neg (by simp [hu, hb])]
  by_cases h : 7 ≤ (s.port n).fails
  · rw [if_pos h, if_pos (by simp only [replayLimit]; omega), setPort_same]
  · rw [if_neg h, if_neg (by simp only [replayLimit]; omega), setPort_same]

/-- The replay buffer keeps what was sent after the acknowledged flit. -/
theorem flitAck_port (n : Nat) {pre post : List (BitVec 12)} (hb : (s.port n).buffer = pre ++ q :: post) (hq : q ∉ pre) :
    (s.flitAck n q).port n = { s.port n with
      buffer := post
      fails := 0 } := by
  have hdrop : ((s.port n).buffer.dropWhile (· ≠ q)).drop 1 = post := by
    rw [hb, List.dropWhile_append_of_pos fun a ha => by
      have hne : a ≠ q := fun h => hq (h ▸ ha)
      simpa using hne]
    simp
  unfold State.flitAck
  dsimp only
  rw [if_pos (by rw [hb]; simp), setPort_same, hdrop]

/-- A port that has trained is up at its number of lanes, and no other port changes. -/
theorem trained_port (n : Nat) {lanes : Nat} (hu : (s.port n).up = true ∨ (s.port n).training = true) (hl : lanes = 8 ∨ lanes = 4) :
    (s.trained n lanes).port n = { s.port n with
      up := true
      lanes := lanes
      training := false
      fails := 0 } ∧ ∀ j, j ≠ n → (s.trained n lanes).port j = s.port j := by
  unfold State.trained
  dsimp only
  rw [if_neg (by rcases hu with h | h <;> simp [h]), if_pos (by simpa using hl)]
  split
  · simp only [record_port]
    exact ⟨setPort_same _ _, fun j hj => setPort_other _ _ hj⟩
  · exact ⟨setPort_same _ _, fun j hj => setPort_other _ _ hj⟩

theorem oweOnce_keeps {i j : Instr} (h : i ∈ s.agenda) : i ∈ (s.oweOnce j).agenda := by
  unfold State.oweOnce
  split
  · exact h
  · exact List.mem_append_left _ h

theorem oweOnce_port (i : Instr) (j : Nat) : (s.oweOnce i).port j = s.port j := by
  unfold State.oweOnce
  split <;> rfl

theorem oweOnce_portMask (i : Instr) (d : BitVec 20) : (s.oweOnce i).portMask d = s.portMask d := by
  unfold State.oweOnce
  split <;> rfl

theorem oweOnce_pkgid (i : Instr) : (s.oweOnce i).pkgid = s.pkgid := by
  unfold State.oweOnce
  split <;> rfl

/-- One package that may have become unreachable. -/
def State.oweCut (t : State) (d : BitVec 20) : State :=
  if d ≠ t.pkgid && t.portMask d = 0 then t.oweOnce (.destinationUnreachable d) else t

/-- What a look at packages that may be unreachable leaves, and what it owes. -/
theorem foldl_oweCut (l : List (BitVec 20)) (s : State) : (∀ j, (l.foldl State.oweCut s).port j = s.port j) ∧
    (∀ e, (l.foldl State.oweCut s).portMask e = s.portMask e) ∧
    (∀ i ∈ s.agenda, i ∈ (l.foldl State.oweCut s).agenda) ∧
    ∀ e ∈ l, e ≠ s.pkgid → s.portMask e = 0 → .destinationUnreachable e ∈ (l.foldl State.oweCut s).agenda := by
  induction l generalizing s with
  | nil => exact ⟨fun _ => rfl, fun _ => rfl, fun _ h => h, fun _ h => absurd h List.not_mem_nil⟩
  | cons a l ih =>
    obtain ⟨hp, hm, ha, hd⟩ := ih (s.oweCut a)
    have hstep : (∀ j, (s.oweCut a).port j = s.port j) ∧ (∀ e, (s.oweCut a).portMask e = s.portMask e) ∧
        (s.oweCut a).pkgid = s.pkgid ∧ (∀ i ∈ s.agenda, i ∈ (s.oweCut a).agenda) := by
      unfold State.oweCut
      split
      · exact ⟨fun _ => oweOnce_port _ _, fun _ => oweOnce_portMask _ _, oweOnce_pkgid _, fun _ => oweOnce_keeps⟩
      · exact ⟨fun _ => rfl, fun _ => rfl, rfl, fun _ h => h⟩
    obtain ⟨hp', hm', hi', ha'⟩ := hstep
    refine ⟨fun j => (hp j).trans (hp' j), fun e => (hm e).trans (hm' e), fun i hi => ha i (ha' i hi), fun e he hne h0 => ?_⟩
    rcases List.mem_cons.1 he with rfl | he
    · refine ha _ ?_
      unfold State.oweCut
      rw [if_pos (by simp [hne, h0])]
      exact oweOnce_owed _
    · exact hd e he (by rwa [hi']) (by rwa [hm'])

/-- A port that goes down leaves every mask, and the packages without another path that something is awaited of are unreachable. -/
theorem dropPort_spec (n : Nat) : ((s.dropPort n).port n).up = false ∧ (∀ j, j ≠ n → (s.dropPort n).port j = s.port j) ∧
    ∀ d : BitVec 20, d ≠ s.pkgid → (∃ m ∈ s.flight, m.pkg = d) → (s.dropPort n).portMask d = 0 →
      .destinationUnreachable d ∈ (s.dropPort n).agenda := by
  obtain ⟨hp, hm, -, hd⟩ := foldl_oweCut ((State.record { s with ports := put s.ports n {} } { event := 0x0B, cls := 0, unit := n }).flight.map
    fun (m : Msg) => m.pkg) (State.record { s with ports := put s.ports n {} } { event := 0x0B, cls := 0, unit := n })
  obtain ⟨mem, ls, hub, hr, -⟩ := record_frame (s := { s with ports := put s.ports n {} }) { event := 0x0B, cls := 0, unit := n }
  have hport : ∀ j, (s.dropPort n).port j = (s.setPort n {}).port j := fun j => (hp j).trans (record_port _ _)
  have hfl : (State.record { s with ports := put s.ports n {} } { event := 0x0B, cls := 0, unit := n }).flight = s.flight := by rw [hr]
  have hid : (State.record { s with ports := put s.ports n {} } { event := 0x0B, cls := 0, unit := n }).pkgid = s.pkgid := by rw [hr]
  refine ⟨?_, fun j hj => (hport j).trans (setPort_other _ _ hj), fun d hne ⟨m, hmem, hpk⟩ h0 => ?_⟩
  · rw [hport, setPort_same]
  · refine hd d ?_ (by rwa [hid]) ((hm d).symm.trans h0)
    rw [hfl]
    exact List.mem_map.2 ⟨m, hmem, hpk⟩

/-! ### Packets that are not acknowledged (R453, R454) -/

theorem oweOnce_peers (i : Instr) : (s.oweOnce i).peers = s.peers := by
  unfold State.oweOnce
  split <;> rfl

theorem oweOnce_flight (i : Instr) : (s.oweOnce i).flight = s.flight := by
  unfold State.oweOnce
  split <;> rfl

/-- The watch over packets that are not acknowledged. -/
theorem resend_spec (d : BitVec 20) : let p := look ({} : Peer) s.peers d.toNat
    let waited := s.cycle.toNat - p.since
    (p.unacked = [] ∨ p.dead = true → s.resend d = s) ∧
    (p.unacked ≠ [] → p.dead = false →
      (2 ^ 24 ≤ waited → s.resend d = s.oweOnce (.destinationUnreachable d)) ∧
      (waited < 2 ^ 24 → (s.resend d).mem = s.mem ∧ (s.resend d).flight = s.flight ∧ .endToEndResend d ∈ (s.resend d).agenda ∧
        look ({} : Peer) (s.resend d).peers d.toNat =
          { p with resends := if (p.resends + 1) * 2 ^ 16 ≤ waited then p.resends + 1 else p.resends })) := by
  intro p waited
  refine ⟨fun h => if_pos ?_, fun h1 h2 => ?_⟩
  · show (p.unacked.isEmpty || p.dead) = true
    rcases h with h | h <;> simp [h]
  have hgo : ¬ ((p.unacked.isEmpty || p.dead) = true) := by simp [h1, h2]
  refine ⟨fun hw => (if_neg hgo).trans (if_pos hw), fun hw => ?_⟩
  have hnot : ¬ deadAfter ≤ waited := Nat.not_le.2 hw
  by_cases hr : (p.resends + 1) * 2 ^ 16 ≤ waited
  · have hrun : s.resend d = State.oweOnce { s with peers := put s.peers d.toNat { p with resends := p.resends + 1 } } (.endToEndResend d) :=
      ((if_neg hgo).trans (if_neg hnot)).trans (if_pos hr)
    rw [hrun, if_pos hr, oweOnce_mem, oweOnce_flight, oweOnce_peers]
    exact ⟨rfl, rfl, oweOnce_owed _, look_put_same _ _ _ _⟩
  · have hrun : s.resend d = s.oweOnce (.endToEndResend d) := ((if_neg hgo).trans (if_neg hnot)).trans (if_neg hr)
    rw [hrun, if_neg hr, oweOnce_mem, oweOnce_flight, oweOnce_peers]
    exact ⟨rfl, rfl, oweOnce_owed _, rfl⟩

/-! ### Packets that arrive (R453) -/

/-- The number that a peer's next packet must have stays through what leaves for it. -/
theorem numbered_expect (d : BitVec 20) (id n : Nat) :
    (look ({} : Peer) (s.numbered d id).peers n).expect = (look ({} : Peer) s.peers n).expect := by
  unfold State.numbered
  split
  · rw [oweOnce_peers]
  · split
    · rfl
    · unfold State.leaves
      dsimp only
      have hp : (s.sendFlit (s.portFor s.pkgid d)).peers = s.peers := by
        unfold State.sendFlit
        split <;> rfl
      rw [oweOnce_peers]
      by_cases hn : n = d.toNat
      · subst hn
        rw [look_put_same, hp]
      · rw [look_put_other _ _ _ hn, hp]

/-- An answer to another package leaves, or waits to. -/
theorem packetOut_spec (d : BitVec 20) (c k tag : Nat) (b : Body) : ∃ m : Msg, (s.packetOut d c k tag b).flight = s.flight ++ [m] ∧
    m.pkg = d ∧ m.core = c ∧ m.ctx = k ∧ m.tag = some tag ∧ m.body = b := by
  let m : Msg := { id := s.seqno + 1, core := c, ctx := k, pkg := d, home := 320, cnt := 0, tag := some tag, body := b, pc := 0, applied := false }
  have hrun : s.packetOut d c k tag b = State.numbered { s with
      seqno := s.seqno + 1
      flight := s.flight ++ [m] } d (s.seqno + 1) := rfl
  obtain ⟨_, _, _, _, he⟩ := (numbered_packetOnly (s := { s with
      seqno := s.seqno + 1
      flight := s.flight ++ [m] }) d (s.seqno + 1)).eq
  refine ⟨m, ?_, rfl, rfl, rfl, rfl, rfl⟩
  rw [hrun, he]

theorem packetOut_incoming (d : BitVec 20) (c k tag : Nat) (b : Body) : (s.packetOut d c k tag b).incoming = s.incoming := by
  obtain ⟨_, _, _, _, _, _, he⟩ := packetOut_links (s := s) d c k tag b
  rw [he]

theorem packetOut_expect (d : BitVec 20) (c k tag : Nat) (b : Body) (n : Nat) :
    (look ({} : Peer) (s.packetOut d c k tag b).peers n).expect = (look ({} : Peer) s.peers n).expect := numbered_expect _ _ _

theorem oweOnce_acks (i : Instr) : (s.oweOnce i).hub.acks = s.hub.acks := by rw [oweOnce_hub]

theorem packetOut_acks (d : BitVec 20) (c k tag : Nat) (b : Body) : (s.packetOut d c k tag b).hub.acks = s.hub.acks := by
  obtain ⟨_, _, _, _, he⟩ := (numbered_packetOnly (s := { s with
      seqno := s.seqno + 1
      flight := s.flight ++ [{ id := s.seqno + 1, core := c, ctx := k, pkg := d, home := 320, cnt := 0, tag := some tag, body := b, pc := 0, applied := false }] }) d (s.seqno + 1)).eq
  have hrun : s.packetOut d c k tag b = State.numbered { s with
      seqno := s.seqno + 1
      flight := s.flight ++ [{ id := s.seqno + 1, core := c, ctx := k, pkg := d, home := 320, cnt := 0, tag := some tag, body := b, pc := 0, applied := false }] }
        d (s.seqno + 1) := rfl
  rw [hrun, he]

/-- What serving a message of another package leaves, where it has its effect and its answer. -/
def State.servedWith (t : State) (m : Msg) (g : Nat) (data : Row) (fl : BitVec 6) : State :=
  (State.ack { t with incoming := t.incoming.filter fun (q : Msg) => q.id ≠ m.id } m.pkg m.seq).packetOut m.pkg m.core m.ctx g (.reply data fl)

/-- A message of another package at the head of its queue, which nothing keeps waiting, is served and answered. -/
theorem serveIncoming_served {g : Nat} {data : Row} {fl : BitVec 6} (hmute : s.mute m = false) (hord : s.inOrder m = true)
    (hst : s.cxlStuck (m.body.pa / 64 * 64) = false) (hg : m.tag = some g) (hbad : s.bodyBad m.body = none)
    (ham : ∀ pa dst entry payload, m.body ≠ .am pa dst entry payload) (hreg : s.region m.body.pa ≠ .unbacked)
    (hb : s.applyBody m.body = some (data, fl, t)) : s.serveIncoming m = t.servedWith m g data fl := by
  have hfor : s.noteForeign m.body.pa = s := if_neg hreg
  unfold State.serveIncoming
  dsimp only
  rw [hmute, hord, hst, hg]
  simp only [Bool.false_eq_true, if_false, Bool.not_true, Option.isSome_none, Option.isSome_some, if_true, hbad]
  rw [hfor, hb]
  cases hbody : m.body with
  | am pa dst entry payload => exact absurd hbody (ham _ _ _ _)
  | _ => rfl

theorem servedWith_spec (g : Nat) (data : Row) (fl : BitVec 6) : (t.servedWith m g data fl).mem = t.mem ∧
    (t.servedWith m g data fl).incoming = t.incoming.filter (fun q => q.id ≠ m.id) ∧
    (∀ n, (look ({} : Peer) (t.servedWith m g data fl).peers n).expect = (look ({} : Peer) t.peers n).expect) ∧
    (m.pkg, m.seq) ∈ (t.servedWith m g data fl).hub.acks ∧
    ∃ r, (t.servedWith m g data fl).flight = t.flight ++ [r] ∧ r.pkg = m.pkg ∧ r.core = m.core ∧ r.ctx = m.ctx ∧ r.tag = some g ∧
      r.body = .reply data fl := by
  unfold State.servedWith
  refine ⟨(packetOut_links _ _ _ _ _).mem, packetOut_incoming _ _ _ _ _, fun n => packetOut_expect _ _ _ _ _ _, ?_, packetOut_spec _ _ _ _ _⟩
  rw [packetOut_acks]
  exact List.mem_append_right _ List.mem_cons_self

/-- A packet that is the next of its sequence is taken. -/
theorem packetArrival_taken {src dst : BitVec 20} {seq : BitVec 32} {core k tag : Nat} {b : Body}
    (he : seq = (look ({} : Peer) s.peers src.toNat).expect) (hs : src ≠ s.pkgid) (hd : dst = s.pkgid) (hst : s.stopped = false) :
    s.packetArrival src dst seq core k tag b = State.packet { s with
      peers := put s.peers src.toNat { look ({} : Peer) s.peers src.toNat with
        expect := (look ({} : Peer) s.peers src.toNat).expect + 1 } } src seq core k tag b := by
  unfold State.packetArrival
  dsimp only
  rw [if_neg hs, if_neg (by simp [hd]), if_neg (by simp [hst, he])]

/-- A message that has arrived as a packet. -/
def arrived (s : State) (src : BitVec 20) (seq : BitVec 32) (core k tag pa : Nat) (b : Body) : Msg :=
  { id := s.seqno + 1, core := core, ctx := k, pkg := src, home := s.homeOf pa, cnt := 0, tag := some tag, body := b, pc := 0,
    applied := false, seq := seq }

/-- A message of another package that finds no other waiting, and nothing in its way, has its effect and its answer. -/
theorem takeIn_served {src : BitVec 20} {seq : BitVec 32} {core k tag : Nat} {b : Body} {data : Row} {fl : BitVec 6} {v : State}
    (peers : Map Peer) (hin : s.incoming = []) (hfw : s.forwarded b.pa = b.pa) (hb : Body.at' b b.pa = b) (hreg : s.region b.pa ≠ .unbacked)
    (htag : tag ≠ 0) (hst : s.cxlStuck (b.pa / 64 * 64) = false) (hfen : ∀ h, (s.ham h).fenced = false) (hbad : s.bodyBad b = none)
    (ham : ∀ pa dst entry payload, b ≠ .am pa dst entry payload)
    (hap : (s.withNet [arrived s src seq core k tag b.pa b] peers (s.seqno + 1)).applyBody b = some (data, fl, v)) :
    State.takeIn { s with peers := peers } src seq core k tag b = v.servedWith (arrived s src seq core k tag b.pa b) tag data fl := by
  have hrun : State.takeIn { s with peers := peers } src seq core k tag b =
      (s.withNet [arrived s src seq core k tag b.pa b] peers (s.seqno + 1)).serveIncoming (arrived s src seq core k tag b.pa b) := by
    have hf : State.forwarded { s with peers := peers } b.pa = b.pa := hfw
    unfold State.takeIn
    dsimp only [State.fresh]
    rw [hf, hb, if_neg htag, hin]
    rfl
  rw [hrun]
  refine serveIncoming_served ?_ ?_ hst rfl hbad ham hreg hap
  · have h : (State.ham (s.withNet [arrived s src seq core k tag b.pa b] peers (s.seqno + 1))
        ((arrived s src seq core k tag b.pa b).home - 64)).fenced = false := hfen _
    unfold State.mute
    rw [h, Bool.and_false]
  · simp [State.inOrder, State.withNet]

theorem listedLine_none (hb : s.bad = []) (ht : s.tainted = []) (line : Nat) : s.listedLine line = false := by
  simp [State.listedLine, hb, ht]

/-- A store of another package: its bytes are at their home, and it is acknowledged and answered. -/
theorem arrival_store {src : BitVec 20} {seq : BitVec 32} {core k tag : Nat} (peers : Map Peer) (hin : s.incoming = [])
    (hfw : s.forwarded pa = pa) (hreg : s.region pa ≠ .unbacked) (htag : tag ≠ 0) (hst : s.cxlStuck (pa / 64 * 64) = false)
    (hfen : ∀ h, (s.ham h).fenced = false) : let t := State.takeIn { s with peers := peers } src seq core k tag (.store pa bs false)
    t.mem = (s.homePut pa bs).mem ∧ t.incoming = [] ∧
      (∀ n, (look ({} : Peer) t.peers n).expect = (look ({} : Peer) peers n).expect) ∧ (src, seq) ∈ t.hub.acks ∧
      ∃ m : Msg, t.flight = s.flight ++ [m] ∧ m.pkg = src ∧ m.core = core ∧ m.ctx = k ∧ m.tag = some tag ∧ m.body = .reply 0 0 := by
  have hap := homePut_withNet (s := s) (pa := pa) (bs := bs) [arrived s src seq core k tag pa (.store pa bs false)] peers (s.seqno + 1)
  have hrun := takeIn_served (src := src) (seq := seq) (core := core) (k := k) (b := .store pa bs false) (data := 0) (fl := 0)
    (v := (s.withNet [arrived s src seq core k tag pa (.store pa bs false)] peers (s.seqno + 1)).homePut pa bs)
    peers hin hfw rfl hreg htag hst hfen rfl (fun _ _ _ _ => nofun) rfl
  rw [hap] at hrun
  dsimp only
  rw [hrun]
  obtain ⟨hm, hi, he, ha, r, hf, hr⟩ := servedWith_spec (t := (s.homePut pa bs).withNet [arrived s src seq core k tag pa (.store pa bs false)]
    peers (s.seqno + 1)) (m := arrived s src seq core k tag pa (.store pa bs false)) tag 0 0
  refine ⟨hm, hi.trans ?_, he, ha, r, hf.trans ?_, hr⟩
  · simp [State.withNet]
  · exact congrArg (· ++ [r]) homePut_homeOnly.flight

/-- What a load of another package leaves of its line's slice. -/
def loadLeft (s : State) (pa : Nat) : State := if (s.region pa).global then s.lineIn (pa / 64 * 64) else s

theorem loadLeft_frame (hs : s.scales = []) : s.HomeOnly (loadLeft s pa) ∧ (loadLeft s pa).mem = s.mem := by
  unfold loadLeft
  split
  · exact ⟨lineIn_homeOnly, lineIn_mem (.inl hs)⟩
  · exact ⟨.refl s, rfl⟩

/-- A load of another package: the answer carries the bytes at their home. -/
theorem arrival_load {src : BitVec 20} {seq : BitVec 32} {core k tag n : Nat} (peers : Map Peer) (hin : s.incoming = [])
    (hfw : s.forwarded pa = pa) (hreg : s.region pa ≠ .unbacked) (htag : tag ≠ 0) (hst : s.cxlStuck (pa / 64 * 64) = false)
    (hfen : ∀ h, (s.ham h).fenced = false) (hbad : s.bad = []) (ht : s.tainted = []) (hs : s.scales = []) :
    let t := State.takeIn { s with peers := peers } src seq core k tag (.load pa n false)
    t.mem = s.mem ∧ t.incoming = [] ∧
      (∀ n, (look ({} : Peer) t.peers n).expect = (look ({} : Peer) peers n).expect) ∧ (src, seq) ∈ t.hub.acks ∧
      ∃ m : Msg, t.flight = s.flight ++ [m] ∧ m.pkg = src ∧ m.core = core ∧ m.ctx = k ∧ m.tag = some tag ∧
        m.body = .reply (BitVec.ofNat 512 (ofBytes (s.homeSpan pa n))) 0 := by
  have hrun := takeIn_served (src := src) (seq := seq) (core := core) (k := k) (b := .load pa n false)
    (data := BitVec.ofNat 512 (ofBytes (s.homeSpan pa n))) (fl := 0) (v := loadLeft
      (s.withNet [arrived s src seq core k tag pa (.load pa n false)] peers (s.seqno + 1)) pa)
    peers hin hfw rfl hreg htag hst hfen (if_neg (ne_true_of_eq_false (listedLine_none hbad ht _))) (fun _ _ _ _ => nofun) rfl
  obtain ⟨hom, hlm⟩ := loadLeft_frame (s := s.withNet [arrived s src seq core k tag pa (.load pa n false)] peers (s.seqno + 1)) (pa := pa) hs
  dsimp only
  rw [hrun]
  obtain ⟨hm, hi, he, ha, r, hf, hr⟩ := servedWith_spec (t := loadLeft
    (s.withNet [arrived s src seq core k tag pa (.load pa n false)] peers (s.seqno + 1)) pa)
    (m := arrived s src seq core k tag pa (.load pa n false)) tag (BitVec.ofNat 512 (ofBytes (s.homeSpan pa n))) 0
  have hinc : (loadLeft (s.withNet [arrived s src seq core k tag pa (.load pa n false)] peers (s.seqno + 1)) pa).incoming =
      [arrived s src seq core k tag pa (.load pa n false)] := by
    obtain ⟨_, _, _, _, _, _, _, _, _, _, _, _, heq⟩ := hom.eq
    rw [heq]
    rfl
  refine ⟨hm.trans hlm, hi.trans ?_, fun j => (he j).trans ?_, ha, r, hf.trans ?_, hr⟩
  · rw [hinc]
    simp
  · rw [hom.peers]
    rfl
  · rw [hom.flight]
    rfl

/-! ### Answers and failures (R453, R454, R459) -/

theorem nextOut_packetOnly (d : BitVec 20) : s.PacketOnly (s.nextOut d) := by
  unfold State.nextOut
  split
  · exact .refl s
  · split
    · exact (held_packetOnly _).trans (leaves_packetOnly _ _)
    · exact .refl s

theorem delivered_packetOnly (d : BitVec 20) (id : Nat) : s.PacketOnly (s.delivered d id) := by
  unfold State.delivered
  dsimp only
  refine .trans ?_ (nextOut_packetOnly _)
  refine ⟨⟨_, _, _, _, rfl⟩, fun _ => rfl, fun j => ?_⟩
  by_cases hj : j = d.toNat
  · subst hj
    rw [look_put_same]
  · rw [look_put_other _ _ _ hj]

section
variable (h : s.PacketOnly t)
include h
theorem State.PacketOnly.cores : t.cores = s.cores := by obtain ⟨_, _, _, _, rfl⟩ := h.eq; rfl
theorem State.PacketOnly.hamlets : t.hamlets = s.hamlets := by obtain ⟨_, _, _, _, rfl⟩ := h.eq; rfl
theorem State.PacketOnly.flight : t.flight = s.flight := by obtain ⟨_, _, _, _, rfl⟩ := h.eq; rfl
theorem State.PacketOnly.mem : t.mem = s.mem := by obtain ⟨_, _, _, _, rfl⟩ := h.eq; rfl
theorem State.PacketOnly.chans : t.hub.chans = s.hub.chans := by obtain ⟨_, _, _, _, rfl⟩ := h.eq; rfl
theorem State.PacketOnly.core (c : Nat) : t.core c = s.core c := by rw [State.core, h.cores, State.core]
theorem State.PacketOnly.ctx (c k : Nat) : t.ctx c k = s.ctx c k := by rw [State.ctx, h.core, State.ctx]
end

/-- An answer of another package fills the result that waits for it. -/
theorem answered_spec {src : BitVec 20} {id g : Nat} {data : Row} {fl : BitVec 6} {sx : Bool}
    (hf : s.flight.find? (fun (q : Msg) => q.id = id && q.pkg = src && !q.applied) = some m) (ht : m.tag = some g) (h0 : g ≠ 0)
    (hb : m.body = .load pa n sx) (hc : m.cnt = 0) (hch : s.hub.chans = []) (hcp : (s.core m.core).copies = [])
    (hl : (s.ctx m.core m.ctx).late = none) (hd : (s.ctx m.core m.ctx).devq = []) : let t := s.answered' src id data fl
    t.mem = s.mem ∧ t.flight = s.flight.filter (fun q => q.id ≠ m.id) ∧ t.ctx m.core m.ctx = { s.ctx m.core m.ctx with
      results := (s.ctx m.core m.ctx).results.map fun r => r.fill g data fl } := by
  have hp := delivered_packetOnly (s := s) src id
  have hrun : s.answered' src id data fl = (s.delivered src id).takeReply m data fl := by
    unfold State.answered'
    rw [hf]
    dsimp only
    rw [hp.chans, hch, ht, hb]
    exact if_neg (by simp)
  intro t
  obtain ⟨h1, h2, h3⟩ := takeReply_frame (s := s.delivered src id) (m := m) (data := data) (fl := fl) ht h0 hc (by rw [hp.core]; exact hcp)
    (by rw [hp.ctx]; exact hl) (by rw [hp.ctx]; exact hd)
  rw [hp.ctx] at h3
  exact ⟨(congrArg State.mem hrun).trans (h1.trans hp.mem), ((congrArg State.flight hrun).trans h2).trans (by rw [hp.flight]),
    (congrArg (State.ctx · m.core m.ctx) hrun).trans h3⟩

theorem nextDev_frame (c k : Nat) : (s.nextDev c k).flight = s.flight ∧ (s.nextDev c k).hamlets = s.hamlets ∧
    ∃ q, (s.nextDev c k).ctx c k = { s.ctx c k with devq := q } := by
  unfold State.nextDev
  dsimp only
  split
  · exact ⟨rfl, rfl, _, rfl⟩
  · next pkg id rest _ =>
    split
    · exact ⟨rfl, rfl, _, rfl⟩
    · have hp := numbered_packetOnly (s := s.setCtx c k { s.ctx c k with devq := rest }) pkg id
      exact ⟨hp.flight, hp.hamlets, rest, (hp.ctx c k).trans (setCtx_ctx_same _ _ _ _)⟩

theorem received_marks (g h : Nat) : ((s.received g).ham h).marks = (s.ham h).marks := by
  unfold State.received
  by_cases hh : h = g
  · subst hh
    rw [setHam_ham_same]
  · rw [setHam_ham_other _ _ _ hh]

/-- The state of an acknowledged message whose sender has not been told. -/
def State.unsent (s : State) (m : Msg) : State :=
  State.setCtx { s with flight := s.flight.filter fun (q : Msg) => q.id ≠ m.id } m.core m.ctx
    { (s.ctx m.core m.ctx).uncounted m.cnt with devq := ((s.ctx m.core m.ctx).uncounted m.cnt).devq.filter fun e => e.2 ≠ m.id }

theorem acknowledge_eq (m : Msg) : s.acknowledge m =
    (if m.home ≠ orphan && !m.fetch && (s.unsent m).leftSet m then (s.unsent m).received (hamOf m.core) else s.unsent m).nextDev
      m.core m.ctx := rfl

/-- An acknowledged message is gone, and off its named count; the accesses behind it may leave. -/
theorem acknowledge_spec (m : Msg) : (s.acknowledge m).flight = s.flight.filter (fun q => q.id ≠ m.id) ∧
    (∃ q, (s.acknowledge m).ctx m.core m.ctx = { (s.ctx m.core m.ctx).uncounted m.cnt with devq := q }) ∧
    ∀ h, ((s.acknowledge m).ham h).marks = (s.ham h).marks := by
  have hfirst : ∀ u, u = (if m.home ≠ orphan && !m.fetch && (s.unsent m).leftSet m then (s.unsent m).received (hamOf m.core)
      else s.unsent m) → u.flight = s.flight.filter (fun q => q.id ≠ m.id) ∧
      (∃ q, u.ctx m.core m.ctx = { (s.ctx m.core m.ctx).uncounted m.cnt with devq := q }) ∧ ∀ h, (u.ham h).marks = (s.ham h).marks := by
    rintro u rfl
    have hx : (s.unsent m).ctx m.core m.ctx = { (s.ctx m.core m.ctx).uncounted m.cnt with
        devq := ((s.ctx m.core m.ctx).uncounted m.cnt).devq.filter fun e => e.2 ≠ m.id } := setCtx_ctx_same _ _ _ _
    split
    · exact ⟨rfl, ⟨_, hx⟩, fun h => received_marks _ _⟩
    · exact ⟨rfl, ⟨_, hx⟩, fun h => rfl⟩
  obtain ⟨hf, ⟨q, hx⟩, hm⟩ := hfirst _ rfl
  rw [acknowledge_eq]
  obtain ⟨nf, nh, r, nx⟩ := nextDev_frame (s := if m.home ≠ orphan && !m.fetch && (s.unsent m).leftSet m then
    (s.unsent m).received (hamOf m.core) else s.unsent m) m.core m.ctx
  refine ⟨nf.trans hf, ⟨r, ?_⟩, fun h => ?_⟩
  · rw [nx, hx]
  · rw [ham_of_hamlets nh]
    exact hm h

/-- Where one posted store is all that is on its way to a package that fails, it is discarded as though acknowledged. -/
theorem discarded_spec (m : Msg) (hc : m.cnt = 1) (ht : (s.ham (hamOf m.core)).marks.trap = true) :
    ((s.acknowledge m).ctx m.core m.ctx).c1 = (s.ctx m.core m.ctx).c1 - 1 ∧ ((s.acknowledge m).ham (hamOf m.core)).marks.trap = true ∧
    (s.acknowledge m).flight = s.flight.filter fun q => q.id ≠ m.id := by
  obtain ⟨hf, ⟨q, hx⟩, hm⟩ := acknowledge_spec (s := s) m
  refine ⟨?_, by rw [hm, ht], hf⟩
  rw [hx, hc]
  rfl

/-- The trap mark of the core's hamlet, with a record. -/
theorem marked_spec (c : Nat) (e : ErrRec) : let t := (s.mark (hamOf c) Marks.trapped).record e
    (∀ i j, t.ctx i j = s.ctx i j) ∧ t.flight = s.flight ∧ (t.ham (hamOf c)).marks.trap = true := by
  intro t
  obtain ⟨_, _, _, hr, -⟩ := record_frame (s := s.mark (hamOf c) Marks.trapped) e
  have ht : t = _ := hr
  rw [ht]
  refine ⟨fun _ _ => rfl, rfl, ?_⟩
  have hh : (State.ham (s.mark (hamOf c) Marks.trapped) (hamOf c)).marks.trap = true := by
    rw [State.mark, setHam_ham_same]
    rfl
  exact hh

theorem discardDead_spec (c : Nat) : (∀ i j, (s.discardDead c).ctx i j = s.ctx i j) ∧ (s.discardDead c).flight = s.flight ∧
    ((s.discardDead c).ham (hamOf c)).marks.trap = true := by
  unfold State.discardDead
  exact marked_spec c _

variable {sx : Bool} {r : Result} {i : Nat}

/-- A load from a package that fails: its result is forgotten, and it raises Memory Uncorrectable at its own address. -/
theorem failMsg_load (hb : m.body = .load pa n sx) (ht : m.tag = some m.id) (hcp : (s.core m.core).copies = [])
    (hr : (s.ctx m.core m.ctx).results = [r]) (hdue : r.due = .var [(m.id, i)]) :
    s.failMsg m = ((State.as (((s.delivered m.pkg m.id).setCtx m.core m.ctx ((s.ctx m.core m.ctx).forget m.id)).acknowledge m)
      m.core m.ctx).trap 0x11 (deadInfo pa) m.pc).as (s.delivered m.pkg m.id).curCore (s.delivered m.pkg m.id).curCtx := by
  have hp := delivered_packetOnly (s := s) m.pkg m.id
  unfold State.failMsg
  rw [ht, hb]
  dsimp only
  rw [hp.core, hp.ctx, hcp, hr, if_neg (by simp)]
  simp [hdue, Body.pa]

theorem forget_results (x : Ctx) (hr : x.results = [r]) (hdue : r.due = .var [(i, n)]) : x.forget i = { x with results := [] } := by
  simp [Ctx.forget, hr, hdue]

/-- What a trap of Memory Uncorrectable leaves of a context whose results are gone. -/
theorem deadTrap_spec {c k : Nat} {info pc : Word} (hk : k < 4) (hr : (s.ctx c k).results = []) (hh : (s.ctx c k).handling = false)
    (hg : (s.ctx c k).inGang = false) (e j : Nat) : let t := ((s.as c k).trap 0x11 info pc).as e j
    (t.ctx c k).trapcause.setWidth 6 = (0x11 : BitVec 6) ∧ (t.ctx c k).trapinfo = info ∧ (t.ctx c k).trappc = pc ∧
    (t.ctx c k).pc = sext57 ((s.ctx c k).trapvec.setWidth 57) ∧ (t.ctx c k).results = [] ∧ (t.ctx c k).store = (s.ctx c k).store := by
  have hme : (s.as c k).me = s.ctx c k := rfl
  have hret : (s.as c k).me.returned = true := by
    rw [hme]
    simp [Ctx.returned, hr]
  have hesc : (s.as c k).escalates false = false := by
    have hon : (s.as c k).onHandler = false := by simp [State.onHandler, State.as, Nat.ne_of_lt hk]
    simp only [State.escalates, hme, hh, hg, hon, Bool.or_false]
  have hstore : (s.as c k).commitAll.me.store = (s.ctx c k).store := by
    unfold State.commitAll State.commit
    rw [setMe_me, hme, hr]
    rfl
  obtain ⟨st, pr, fp, d, q, b, he, hst, -⟩ := trapRegs_shape (s := s.as c k) (cause := 0x11) (info := info) (pc := pc)
  have ht : (s.as c k).trap 0x11 info pc = ((s.as c k).commitAll.trapMarked 0x11).setMe { (s.as c k).trapRegs 0x11 info pc with
      priv := .runtime
      pc := sext57 ((s.as c k).me.trapvec.setWidth 57)
      hold := .none } := by
    rw [trap_returned hret, enterTrap_eq, hesc]
    rfl
  have hx : (((s.as c k).trap 0x11 info pc).as e j).ctx c k = { (s.as c k).trapRegs 0x11 info pc with
      priv := .runtime
      pc := sext57 ((s.ctx c k).trapvec.setWidth 57)
      hold := .none } := by
    rw [ht]
    have hc : (((s.as c k).commitAll.trapMarked 0x11).curCore, ((s.as c k).commitAll.trapMarked 0x11).curCtx) = (c, k) := by
      rw [trapMarked_curCore, trapMarked_curCtx, commitAll_regsOnly.curCore, commitAll_regsOnly.curCtx]
      rfl
    obtain ⟨hc1, hc2⟩ := Prod.mk.inj hc
    have hs := setMe_me ((s.as c k).commitAll.trapMarked 0x11) { (s.as c k).trapRegs 0x11 info pc with
      priv := .runtime
      pc := sext57 ((s.ctx c k).trapvec.setWidth 57)
      hold := .none }
    unfold State.me at hs
    rw [setMe_curCore, setMe_curCtx, hc1, hc2] at hs
    exact hs
  intro t
  have hxt : t.ctx c k = _ := hx
  rw [hxt, he]
  exact ⟨causeWord_cause _ _ _, rfl, rfl, rfl, rfl, hst.symm.trans hstore⟩

/-- The messages of a message's own context to a package. -/
def State.failMine (s : State) (d : BitVec 20) (m : Msg) : List Nat :=
  (s.flight.filter fun (q : Msg) => q.pkg = d && q.core = m.core && q.ctx = m.ctx).map fun (q : Msg) => q.id

/-- Whether nothing but those is outstanding in its context. -/
def State.failReady (s : State) (d : BitVec 20) (m : Msg) : Bool :=
  (s.ctx m.core m.ctx).results.all fun q => match q.due with | .var aw => aw.all fun a => (s.failMine d m).contains a.1 | .fixed _ => true

/-- Whether the failure of a message raises a trap. -/
def Msg.raises (m : Msg) : Bool :=
  match m.tag, m.body with
  | some _, .reply _ _ | some _, .donReturn _ _ | some _, .donation _ _ _ | none, _ => false
  | some _, .empty | some _, .lost _ | some _, .wake _ => false
  | some _, _ => m.home ≠ orphan

theorem failAll_cons (d : BitVec 20) (l : List Msg) : s.failAll d (m :: l) =
    if m.raises && !s.failReady d m then (s, false)
    else if m.raises then
      ((s.setCtx m.core m.ctx ((s.failMine d m).foldl (fun (y : Ctx) i => if i = m.id then y else y.forget i) (s.ctx m.core m.ctx))).failMsg
        m).failAll d l
    else (s.failMsg m).failAll d l := rfl

theorem failAll_nil (d : BitVec 20) : s.failAll d [] = (s, true) := rfl

/-- The one message to a package that has become unreachable fails. -/
theorem failAll_load {d : BitVec 20} (hfl : s.flight.filter (fun (q : Msg) => q.pkg = d) = [m]) (hb : m.body = .load pa n sx)
    (ht : m.tag = some m.id) (ho : m.home ≠ orphan) (hr : (s.ctx m.core m.ctx).results = [r]) (hdue : r.due = .var [(m.id, i)]) :
    s.failAll d [m] = ((s.setCtx m.core m.ctx (s.ctx m.core m.ctx)).failMsg m, true) := by
  have hmine : s.failMine d m = [m.id] := by
    have h : (s.flight.filter fun (q : Msg) => q.pkg = d && q.core = m.core && q.ctx = m.ctx) =
        (s.flight.filter fun (q : Msg) => q.pkg = d).filter fun (q : Msg) => q.core = m.core && q.ctx = m.ctx := by
      rw [List.filter_filter]
      refine List.filter_congr fun q _ => ?_
      rw [Bool.and_assoc, Bool.and_comm]
    rw [State.failMine, h, hfl]
    simp
  have hready : s.failReady d m = true := by
    simp [State.failReady, hr, hdue, hmine]
  have hraise : m.raises = true := by
    rw [Msg.raises, ht, hb]
    exact decide_eq_true ho
  rw [failAll_cons, hready, hraise, hmine, failAll_nil]
  simp

theorem failAll_posted {d : BitVec 20} (ht : m.tag = none) : s.failAll d [m] = (s.failMsg m, true) := by
  have hraise : m.raises = false := by
    rw [Msg.raises, ht]
  rw [failAll_cons, hraise, failAll_nil]
  rfl

/-- What stands before the messages to a package fail: the package is dead where it has been silent. -/
theorem unreachable_run {d : BitVec 20} (hne : d ≠ s.pkgid) (hcut : s.cutOff d = true) (hch : s.hub.chans = []) :
    ∃ peers, s.unreachable d = if (State.failAll { s with peers := peers } d (s.flight.filter fun (m : Msg) => m.pkg = d)).2 then
        (State.failAll { s with peers := peers } d (s.flight.filter fun (m : Msg) => m.pkg = d)).1
      else (State.failAll { s with peers := peers } d (s.flight.filter fun (m : Msg) => m.pkg = d)).1.oweOnce (.destinationUnreachable d) := by
  have hgo : ¬ ((decide (d = s.pkgid) || !s.cutOff d) = true) := by simp [hne, hcut]
  have hchan : ∀ t : State, t.hub.chans = [] → t.failChans d = t := by
    intro t h
    unfold State.failChans
    rw [h]
    rfl
  by_cases hs : s.silent d = true
  · refine ⟨put s.peers d.toNat { look ({} : Peer) s.peers d.toNat with dead := true }, ?_⟩
    refine (if_neg hgo).trans ?_
    dsimp only
    rw [if_pos hs, hchan { s with peers := put s.peers d.toNat { look ({} : Peer) s.peers d.toNat with dead := true } } hch]
  · refine ⟨s.peers, ?_⟩
    refine (if_neg hgo).trans ?_
    rw [if_neg hs, hchan _ hch]

/-- A load that is all that is on its way to an unreachable package raises Memory Uncorrectable. -/
theorem unreachable_load {d : BitVec 20} (hne : d ≠ s.pkgid) (hcut : s.cutOff d = true) (hch : s.hub.chans = [])
    (hfl : s.flight.filter (fun (q : Msg) => q.pkg = d) = [m]) (ho : m.home ≠ orphan) (hcp : (s.core m.core).copies = []) (hk : m.ctx < 4)
    (hb : m.body = .load pa n sx) (ht : m.tag = some m.id) (hcnt : m.cnt = 0) (hr : (s.ctx m.core m.ctx).results = [r])
    (hdue : r.due = .var [(m.id, i)]) (hh : (s.ctx m.core m.ctx).handling = false) (hg : (s.ctx m.core m.ctx).inGang = false) :
    let t := s.unreachable d
    (t.ctx m.core m.ctx).trapcause.setWidth 6 = (0x11 : BitVec 6) ∧ (t.ctx m.core m.ctx).trapinfo = deadInfo pa ∧
    (t.ctx m.core m.ctx).trappc = m.pc ∧ (t.ctx m.core m.ctx).pc = sext57 ((s.ctx m.core m.ctx).trapvec.setWidth 57) ∧
    (t.ctx m.core m.ctx).results = [] ∧ (t.ctx m.core m.ctx).store = (s.ctx m.core m.ctx).store := by
  obtain ⟨peers, hrun⟩ := unreachable_run hne hcut hch
  rw [hfl, failAll_load (s := { s with peers := peers }) hfl hb ht ho hr hdue, if_pos rfl] at hrun
  generalize hw : State.setCtx { s with peers := peers } m.core m.ctx (State.ctx { s with peers := peers } m.core m.ctx) = w at hrun
  have hwx : w.ctx m.core m.ctx = s.ctx m.core m.ctx := by
    rw [← hw, setCtx_ctx_same]
    rfl
  have hwc : (w.core m.core).copies = [] := by
    rw [← hw, State.setCtx, setCore_core_same]
    exact hcp
  have hp := delivered_packetOnly (s := w) m.pkg m.id
  rw [failMsg_load hb ht hwc (by rw [hwx]; exact hr) hdue] at hrun
  obtain ⟨-, ⟨q, hx⟩, -⟩ := acknowledge_spec (s := (w.delivered m.pkg m.id).setCtx m.core m.ctx ((w.ctx m.core m.ctx).forget m.id)) m
  rw [setCtx_ctx_same, hcnt, Ctx.uncounted, if_pos rfl, hwx, forget_results _ hr hdue] at hx
  intro t
  rw [show t = _ from hrun]
  obtain ⟨h1, h2, h3, h4, h5, h6⟩ := deadTrap_spec (s := ((w.delivered m.pkg m.id).setCtx m.core m.ctx ((w.ctx m.core m.ctx).forget m.id)).acknowledge m)
    (info := deadInfo pa) (pc := m.pc) hk (by rw [hwx, forget_results _ hr hdue, hx]) (by rw [hwx, forget_results _ hr hdue, hx]; exact hh)
    (by rw [hwx, forget_results _ hr hdue, hx]; exact hg) (w.delivered m.pkg m.id).curCore (w.delivered m.pkg m.id).curCtx
  refine ⟨h1, h2, h3, h4.trans ?_, h5, h6.trans ?_⟩
  · rw [hwx, forget_results _ hr hdue, hx]
  · rw [hwx, forget_results _ hr hdue, hx]

/-- A posted store there is discarded as though acknowledged. -/
theorem unreachable_posted {d : BitVec 20} (hne : d ≠ s.pkgid) (hcut : s.cutOff d = true) (hch : s.hub.chans = [])
    (hfl : s.flight.filter (fun (q : Msg) => q.pkg = d) = [m]) (ho : m.home ≠ orphan) (ht : m.tag = none) (hcnt : m.cnt = 1) :
    ((s.unreachable d).ctx m.core m.ctx).c1 = (s.ctx m.core m.ctx).c1 - 1 ∧
    ((s.unreachable d).ham (hamOf m.core)).marks.trap = true ∧ (s.unreachable d).flight = s.flight.filter fun q => q.id ≠ m.id := by
  obtain ⟨peers, hrun⟩ := unreachable_run hne hcut hch
  rw [hfl, failAll_posted ht, if_pos rfl] at hrun
  have hp := delivered_packetOnly (s := { s with peers := peers }) m.pkg m.id
  have hfail : State.failMsg { s with peers := peers } m =
      ((State.delivered { s with peers := peers } m.pkg m.id).discardDead m.core).acknowledge m := by
    unfold State.failMsg
    rw [ht]
    exact if_neg ho
  obtain ⟨hc, hf, hm⟩ := discardDead_spec (s := State.delivered { s with peers := peers } m.pkg m.id) m.core
  obtain ⟨h1, h2, h3⟩ := discarded_spec (s := (State.delivered { s with peers := peers } m.pkg m.id).discardDead m.core) m hcnt hm
  rw [hrun, hfail]
  refine ⟨h1.trans ?_, h2, h3.trans ?_⟩
  · exact congrArg (fun x : Ctx => x.c1 - 1) ((hc _ _).trans (hp.ctx _ _))
  · exact congrArg (List.filter _) (hf.trans hp.flight)

/-! ### CXL ports (R460) -/

theorem cxlOver_iff (n since : Nat) : s.cxlOver n since = true ↔ n ∈ s.hub.cxlDown ∨ 15040000 ≤ s.cycle.toNat - since := by
  rw [State.cxlOver, Bool.or_eq_true, List.contains_iff_mem, decide_eq_true_eq]
  rfl

/-- A posted store that a CXL port has failed is discarded, with its mark. -/
theorem lostStore_spec (m : Msg) (hc : m.cnt = 3) : ((s.lostStore m).ctx m.core m.ctx).c3 = (s.ctx m.core m.ctx).c3 - 1 ∧
    ((s.lostStore m).ham (hamOf m.core)).marks.trap = true ∧ (s.lostStore m).flight = s.flight.filter fun q => q.id ≠ m.id := by
  obtain ⟨h1, h2, h3⟩ := marked_spec (s := s) m.core { event := 0x10, cls := 4, addr := m.body.pa, seq := s.seqOf m.core, core := m.core }
  unfold State.lostStore
  dsimp only
  generalize (s.mark (hamOf m.core) Marks.trapped).record
    { event := 0x10, cls := 4, addr := m.body.pa, seq := s.seqOf m.core, core := m.core } = t at h1 h2 h3
  obtain ⟨hf, ⟨q, hx⟩, hm⟩ := acknowledge_spec (s := { t with hub := { t.hub with cxlPend := del t.hub.cxlPend (postKey m.id) } }) m
  have hx3 : ∀ x : Ctx, (x.uncounted 3).c3 = x.c3 - 1 := fun _ => rfl
  refine ⟨?_, (hm _).symm ▸ h3, hf.trans (congrArg (List.filter _) h2)⟩
  rw [hx, hc]
  exact (hx3 _).trans (congrArg (fun x : Ctx => x.c3 - 1) (h1 _ _))

variable {port : Fin 8}

theorem port_ofNat : Fin.ofNat 8 port.val = port := Fin.ext (Nat.mod_eq_of_lt port.isLt)

/-- The time-out of a posted store. -/
theorem cxlTimeout_post {id : Nat} (hid : id < 2 ^ 64) (hw : s.waiting id = some m) (hc : m.cnt = 3) (hr : s.region m.body.pa = .cxl port.val) :
    let out := port.val ∈ s.hub.cxlDown ∨ 15040000 ≤ s.cycle.toNat - m.since
    (out → exec (.cxlTimeout port id) s = .next (s.lostStore m)) ∧
    (¬ out → (find s.hub.cxlPend (2 ^ 46 + id)).isSome = true →
      exec (.cxlTimeout port id) s = .next (s.oweOnce (.cxlTimeout port id))) := by
  intro out
  have hport : s.cxlPort m.body.pa = some port.val := by rw [State.cxlPort, hr]
  have hrun : exec (.cxlTimeout port id) s = .next (if s.cxlOver port.val m.since then s.lostStore m
      else if (find s.hub.cxlPend (postKey id)).isSome then s.oweOnce (.cxlTimeout (Fin.ofNat 8 port.val) id) else s) := by
    refine (congrArg Host.Outcome.next (if_neg (Nat.not_le.2 hid))).trans ?_
    unfold State.cxlPostFails
    rw [hw]
    exact congrArg _ (if_neg (by simp [hc, hport]))
  rw [hrun]
  refine ⟨fun h => ?_, fun h hp => ?_⟩
  · rw [if_pos (cxlOver_iff _ _ |>.2 h)]
  · rw [if_neg (fun e => h ((cxlOver_iff _ _).1 e)), port_ofNat]
    exact congrArg _ (if_pos hp)

theorem cxlChans_none (hch : ∀ j, (s.chan j).state ≠ 1) : s.cxlChans line = s := by
  have hfold : ∀ l : List Nat, l.foldl (fun (t : State) j =>
      if (t.chan j).state = 1 && (t.chan j).failing.isNone && (t.stageParts j).contains line then t.abandon j else t) s = s := by
    intro l
    induction l with
    | nil => rfl
    | cons j l ih =>
      rw [List.foldl_cons, if_neg (by rw [decide_eq_false (hch j)]; simp)]
      exact ih
  exact hfold _

theorem exec_cxlTimeout_line {id : Nat} (h : 2 ^ 64 ≤ id) : exec (.cxlTimeout port id) s = .next (s.cxlLineFails port.val id) :=
  congrArg Host.Outcome.next (if_pos h)

/-- The time-out of a line's request. -/
theorem cxlLineFails_spec {r : CxlReq} {id : Nat} (hline : cxlLine port.val (id - 2 ^ 64) = line) (hr : find s.hub.cxlPend line = some r) :
    let out := port.val ∈ s.hub.cxlDown ∨ 15040000 ≤ s.cycle.toNat - r.since
    (¬ out → s.cxlLineFails port.val id = s.oweOnce (.cxlTimeout port id)) ∧
    (out → (∀ j, (s.chan j).state ≠ 1) →
      let u := State.listLine { s with hub := { s.hub with cxlPend := del s.hub.cxlPend line } } line r.seq r.write
      s.cxlLineFails port.val id =
        if r.write then u.record { event := 0x10, cls := 4, addr := line, seq := r.seq, unit := port.val } else u) := by
  intro out
  unfold State.cxlLineFails
  dsimp only
  rw [hline, hr]
  refine ⟨fun h => ?_, fun h hch => ?_⟩
  · have hno : s.cxlOver port.val r.since = false := by
      rw [← Bool.not_eq_true, cxlOver_iff]
      exact h
    dsimp only
    rw [hno, port_ofNat]
    rfl
  · dsimp only
    rw [(cxlOver_iff _ _).2 h, cxlChans_none (s := { s with hub := { s.hub with cxlPend := del s.hub.cxlPend line } }) hch]
    rfl

theorem cxlLine_id (i j : Nat) : cxlLine i (2 ^ 64 + j - 2 ^ 64) = 0x100000000000 + i * 2 ^ 40 + 64 * j := by
  rw [Nat.add_sub_cancel_left, cxlLine]

/-- Service firmware has retrained a port: it is in service again, or out of it for good. -/
theorem cxlTrain_spec (ok : Bool) : let p := port.val
    (s.hub.service = false ∨ p ∉ s.hub.cxlDown ∨ p ∈ s.hub.cxlOut → s.cxlTrain p ok = s) ∧
    (s.hub.service = true → p ∈ s.hub.cxlDown → p ∉ s.hub.cxlOut → let t := s.cxlTrain p ok
      (ok = true → t.hub.cxlDown = s.hub.cxlDown.filter (· ≠ p) ∧ t.hub.cxlOut = s.hub.cxlOut) ∧
      (ok = false → t.hub.cxlDown = s.hub.cxlDown ∧ p ∈ t.hub.cxlOut ∧ t.cxlGib p = 0)) := by
  refine ⟨fun h => if_pos ?_, fun hs hd ho => ?_⟩
  · rcases h with h | h | h <;> simp [h]
  · have hrun : s.cxlTrain port.val ok = State.record { s with hub := { s.hub with
        cxlDown := if ok then s.hub.cxlDown.filter (· ≠ port.val) else s.hub.cxlDown
        cxlOut := if ok then s.hub.cxlOut else setIns s.hub.cxlOut port.val } } { event := 0x0F, cls := 0, unit := port.val } :=
      if_neg (by simp [hs, hd, ho])
    obtain ⟨_, _, _, hr, _, _, _, _, _, _, _, rfl⟩ := record_frame (s := { s with hub := { s.hub with
        cxlDown := if ok then s.hub.cxlDown.filter (· ≠ port.val) else s.hub.cxlDown
        cxlOut := if ok then s.hub.cxlOut else setIns s.hub.cxlOut port.val } }) { event := 0x0F, cls := 0, unit := port.val }
    rw [hrun, hr]
    refine ⟨?_, ?_⟩
    · rintro rfl
      exact ⟨rfl, rfl⟩
    · rintro rfl
      have hin : port.val ∈ setIns s.hub.cxlOut port.val := mem_setIns.2 (.inl rfl)
      exact ⟨rfl, hin, if_pos (List.contains_iff_mem.2 hin)⟩

end

end Sys2Proof.Machine

open Sys2Proof Sys2Proof.Machine

/-- Settles O57: ports, watches and CXL requests by their own equations; a packet taken at its home changes only what the home's steps
change, which do not depend on the packets that wait. -/
theorem linkEvents : Obligations.LinkEvents := by
  unfold Obligations.LinkEvents
  intro s
  refine ⟨fun port hu => congrArg _ (if_pos hu), fun p q => ⟨fun hu => ⟨?_, fun good h => ?_, replayFailed_port p hu⟩,
    fun pre post => flitAck_port p⟩, fun port lanes hu => ⟨fun hl => ⟨_, rfl, trained_port _ hu hl⟩, fun ev hev => ?_⟩, fun die => rfl,
    fun d => ?_, fun src dst seq core k tag body => ⟨fun h => ?_, fun hs hd => ?_, fun he hs hd hst => ⟨?_, ?_⟩⟩,
    fun d m pa hne hcut hfl hch ho hcp hpa hk => ⟨?_, fun ht hc => ⟨_, rfl, unreachable_posted hne hcut hch hfl ho ht hc⟩⟩,
    fun port => ⟨fun id m hid hw hc hr => ⟨fun h => ?_, (cxlTimeout_post hid hw hc hr).2⟩, fun n r hr => ⟨fun h => ?_, fun h hch => ?_⟩, fun ok => ⟨?_, ?_⟩⟩⟩
  case refine_1 => exact (flitIn_port p _ true hu).trans (if_pos ⟨rfl, rfl⟩)
  case refine_2 => exact (flitIn_port p q good hu).trans (if_neg fun ⟨hg, hq⟩ => h.elim (absurd hq) fun h => by simp [h] at hg)
  case refine_3 =>
    obtain ⟨hup, hother, howed⟩ := dropPort_spec (s := s) port.val
    refine ⟨_, ?_, hup, hother, howed⟩
    rcases hev with rfl | ⟨h8, h4, rfl⟩
    · exact congrArg _ (if_pos (by simpa using hu))
    · refine congrArg Host.Outcome.next ((if_neg ?_).trans (if_neg ?_))
      · rcases hu with h | h <;> simp [h]
      · simp [h8, h4]
  case refine_4 =>
    obtain ⟨hstay, hgo⟩ := resend_spec (s := s) d
    refine ⟨fun h => congrArg _ (hstay h), fun h1 h2 => ⟨fun hw => congrArg _ ((hgo h1 h2).1 hw), fun hw => ⟨_, rfl, (hgo h1 h2).2 hw⟩⟩⟩
  case refine_5 =>
    refine congrArg Host.Outcome.next ?_
    rcases h with h | ⟨hd, h⟩
    · exact if_pos h
    · by_cases hs : src = s.pkgid
      · exact if_pos hs
      · refine ((if_neg hs).trans (if_neg (by simp [hd]))).trans (if_pos ?_)
        rcases h with h | h
        · exact Bool.or_eq_true_iff.2 (.inr (decide_eq_true h))
        · exact Bool.or_eq_true_iff.2 (.inl h)
  case refine_6 => exact congrArg Host.Outcome.next ((if_neg hs).trans (if_pos hd))
  case refine_7 =>
    intro pa hin hfw hreg htag hbad htaint hsc hstuck hfen
    have hrun := packetArrival_taken (core := core.val) (k := k.val) (tag := tag) (b := body) he hs hd hst
    refine ⟨?_, ?_⟩
    · rintro bs rfl
      obtain ⟨h1, h2, h3, h4⟩ := arrival_store (bs := bs) (src := src) (seq := seq) (core := core.val) (k := k.val) (tag := tag)
        (put s.peers src.toNat { look ({} : Peer) s.peers src.toNat with expect := (look ({} : Peer) s.peers src.toNat).expect + 1 })
        hin hfw hreg htag hstuck hfen
      refine ⟨_, congrArg Host.Outcome.next hrun, h1, h2, (h3 _).trans ?_, h4⟩
      rw [look_put_same]
    · rintro n rfl
      obtain ⟨h1, h2, h3, h4⟩ := arrival_load (n := n) (src := src) (seq := seq) (core := core.val) (k := k.val) (tag := tag)
        (put s.peers src.toNat { look ({} : Peer) s.peers src.toNat with expect := (look ({} : Peer) s.peers src.toNat).expect + 1 })
        hin hfw hreg htag hstuck hfen hbad htaint hsc
      refine ⟨_, congrArg Host.Outcome.next hrun, h1, h2, (h3 _).trans ?_, h4⟩
      rw [look_put_same]
  case refine_8 =>
    rintro data fl m g pa n sx rfl hf ht h0 hb hc hch hcp hl hdq
    have hrun := packetArrival_taken (core := core.val) (k := k.val) (tag := tag) (b := .reply data fl) he hs hd hst
    exact ⟨_, congrArg Host.Outcome.next hrun, answered_spec (s := State.ack { s with
      peers := put s.peers src.toNat { look ({} : Peer) s.peers src.toNat with
        expect := (look ({} : Peer) s.peers src.toNat).expect + 1 } } src seq) hf ht h0 hb hc hch hcp hl hdq⟩
  case refine_9 =>
    intro n sx r hb ht h0 hcnt hr ⟨i, hdue⟩ hh hg
    exact ⟨_, rfl, unreachable_load hne hcut hch hfl ho hcp hk hb ht hcnt hr hdue hh hg⟩
  case refine_10 =>
    obtain ⟨hc3, hm, hf⟩ := lostStore_spec (s := s) m hc
    exact ⟨_, (cxlTimeout_post hid hw hc hr).1 h, hc3, hm, hf⟩
  case refine_11 =>
    rw [exec_cxlTimeout_line (Nat.le_add_right _ _)]
    exact congrArg _ ((cxlLineFails_spec (cxlLine_id _ _) hr).1 h)
  case refine_12 =>
    rw [exec_cxlTimeout_line (Nat.le_add_right _ _)]
    exact congrArg _ ((cxlLineFails_spec (cxlLine_id _ _) hr).2 h hch)
  case refine_13 =>
    intro h
    obtain ⟨hstay, -⟩ := cxlTrain_spec (s := s) (port := port) ok
    exact congrArg _ (hstay h)
  case refine_14 =>
    intro h1 h2 h3
    obtain ⟨-, hgo⟩ := cxlTrain_spec (s := s) (port := port) ok
    exact ⟨_, rfl, hgo h1 h2 h3⟩

end

section
/-! Root firmware's commands (13 R353 to R372). -/

namespace Sys2Proof.Machine

variable {s t : State} {w : Row} {always : Bool} {k : State → Verdict} {n : Nat}

/-! ### The frame of a command (R354, R356) -/

theorem takes_iff : s.takes w always = true ↔ (s.stopped = true → always = true) ∧ cmdReserved w = false := by
  unfold State.takes cmdReserved
  cases s.stopped <;> cases always <;> simp [and_assoc]

theorem hubCommand_taken (h : s.takes w always = true) : s.hubCommand w always k = .next (match k s with
    | .ok t info word => t.answer w 0 info word
    | .ended t st => t.answer w st 0 0
    | .started t => t.takeSlot
    | .later t => t) := by
  obtain ⟨hs, hr⟩ := takes_iff.1 h
  have hgo : ¬ ((s.stopped && !always) = true) := by
    cases h1 : s.stopped
    · simp
    · simp [hs h1]
  refine congrArg Host.Outcome.next ((if_neg hgo).trans ((if_neg (ne_true_of_eq_false hr)).trans ?_))
  rfl

theorem hubCommand_ok {info : Nat} {word : Word} (h : s.takes w always = true) (hk : k s = .ok t info word) :
    s.hubCommand w always k = .next (t.answer w 0 info word) := by
  rw [hubCommand_taken h, hk]

theorem hubCommand_ended {st : BitVec 8} (h : s.takes w always = true) (hk : k s = .ended t st) :
    s.hubCommand w always k = .next (t.answer w st 0 0) := by
  rw [hubCommand_taken h, hk]

theorem hubCommand_later (h : s.takes w always = true) (hk : k s = .later t) : s.hubCommand w always k = .next t := by
  rw [hubCommand_taken h, hk]

/-- A stopped package refuses a command. -/
theorem hubCommand_stopped (h : s.stopped = true) : s.hubCommand w false k = .next (s.answer w 0x04 0 0) :=
  congrArg Host.Outcome.next (if_pos (by simp [h]))

/-- A slot with reserved bits set is refused. -/
theorem hubCommand_reserved (hs : s.stopped = true → always = true) (h : s.takes w always = false) :
    s.hubCommand w always k = .next (s.answer w 0x01 0 0) := by
  have hgo : ¬ ((s.stopped && !always) = true) := by
    cases h1 : s.stopped
    · simp
    · simp [hs h1]
  have hr : cmdReserved w = true := by
    rw [← Bool.not_eq_false]
    exact fun hr => absurd (takes_iff.2 ⟨hs, hr⟩) (ne_true_of_eq_false h)
  exact congrArg Host.Outcome.next ((if_neg hgo).trans (if_pos hr))

/-- The commands that a stopped package refuses are commands in the same frame. -/
theorem exec_command (s : State) (w : Row) : ∀ ev ∈ [Instr.launch w, .abort w, .pagerdone w, .range w, .cxlshare w, .linkcfg w, .syscopy w,
    .tlbinvCommand w, .donq w, .attest w, .svcload w, .pealfloor w], ∃ k, exec ev s = s.hubCommand w false k := by
  have hl : ∃ k, execLaunch w s = s.hubCommand w false k := by unfold execLaunch; exact ⟨_, rfl⟩
  have ha : ∃ k, execAbort w s = s.hubCommand w false k := by unfold execAbort; exact ⟨_, rfl⟩
  have hp : ∃ k, execPagerdone w s = s.hubCommand w false k := by unfold execPagerdone; exact ⟨_, rfl⟩
  have hr : ∃ k, execRange w s = s.hubCommand w false k := by unfold execRange; exact ⟨_, rfl⟩
  have hc : ∃ k, execCxlshare w s = s.hubCommand w false k := by unfold execCxlshare; exact ⟨_, rfl⟩
  have hi : ∃ k, execLinkcfg w s = s.hubCommand w false k := by unfold execLinkcfg; exact ⟨_, rfl⟩
  have hs : ∃ k, execSyscopy w s = s.hubCommand w false k := by unfold execSyscopy; exact ⟨_, rfl⟩
  have ht : ∃ k, execTlbinvCommand w s = s.hubCommand w false k := by unfold execTlbinvCommand; exact ⟨_, rfl⟩
  have hd : ∃ k, execDonq w s = s.hubCommand w false k := by unfold execDonq; exact ⟨_, rfl⟩
  have ht' : ∃ k, execAttest w s = s.hubCommand w false k := by unfold execAttest; exact ⟨_, rfl⟩
  have hv : ∃ k, execSvcload w s = s.hubCommand w false k := by unfold execSvcload; exact ⟨_, rfl⟩
  have hf : ∃ k, execPealfloor w s = s.hubCommand w false k := by unfold execPealfloor; exact ⟨_, rfl⟩
  simp only [List.forall_mem_cons]
  exact ⟨hl, ha, hp, hr, hc, hi, hs, ht, hd, ht', hv, hf, fun _ h => absurd h List.not_mem_nil⟩

/-! ### The answer (R354, R355) -/

/-- A hold of new packets that ends: those that waited leave. -/
theorem foldl_numbered (l : List (BitVec 20 × Nat)) (s : State) : s.PacketOnly (l.foldl (fun t q => t.numbered q.1 q.2) s) := by
  induction l generalizing s with
  | nil => exact .refl s
  | cons q l ih => exact (numbered_packetOnly _ _).trans (ih _)

/-- What the packets that a LINKCFG lets go change. -/
def State.Released (s t : State) : Prop := (State.PacketOnly { s with hub := { s.hub with linkHold := false } } t)

/-- The state before a command's answer: a LINKCFG's hold has ended. -/
def State.unheld (s : State) : State := if s.hub.linkHold then s.endLinkHold else s

theorem unheld_released : s.Released s.unheld := by
  unfold State.unheld State.Released
  cases h : s.hub.linkHold
  · rw [if_neg (by decide)]
    have hs : ({ s with hub := { s.hub with linkHold := false } } : State) = s := by rw [← h]
    rw [hs]
    exact .refl s
  · rw [if_pos rfl]
    exact State.PacketOnly.trans (t := { s with hub := { s.hub with
      linkHold := false
      heldOut := [] } }) ⟨⟨_, _, _, _, rfl⟩, fun _ => rfl, fun _ => rfl⟩ (foldl_numbered _ _)

theorem answer_eq (st : BitVec 8) (info : Nat) (word : Word) : s.answer w st info word =
    s.unheld.takeSlot.complete { word := word, seq := cmdSeq w, info := BitVec.ofNat 32 info, status := st, code := w.extractLsb' 8 8 } := rfl

/-- The state of a command's answer, but for what it owes. -/
theorem answer_frame (st : BitVec 8) (info : Nat) (word : Word) : ∃ held ports peers agenda, s.answer w st info word = { s with
      mem := memSet s.mem (controlBase + 64 * (s.hub.cmdPos % 64)) (memGet s.mem (controlBase + 64 * (s.hub.cmdPos % 64)) &&& 0xFE)
      ports := ports
      peers := peers
      agenda := agenda
      hub := { s.hub with
        linkHold := false
        heldOut := held
        cmdPos := s.hub.cmdPos + 1
        owed := s.hub.owed ++ [{ word := word, seq := cmdSeq w, info := BitVec.ofNat 32 info, status := st, code := w.extractLsb' 8 8 }] } } ∧
    (∀ n, (look ({} : Port) ports n).up = (s.port n).up) ∧ ∀ n, (look ({} : Peer) peers n).dead = (look ({} : Peer) s.peers n).dead := by
  obtain ⟨⟨held, ports, peers, agenda, he⟩, hup, hdead⟩ := unheld_released (s := s)
  rw [he] at hup hdead
  rw [answer_eq, he]
  unfold State.complete State.oweOnce
  split
  · exact ⟨held, ports, peers, _, rfl, hup, hdead⟩
  · exact ⟨held, ports, peers, _, rfl, hup, hdead⟩

/-- What every answer leaves alike: the slot taken, its `own` cleared, and a completion owed. -/
theorem answer_spec (st : BitVec 8) (info : Nat) (word : Word) : let t := s.answer w st info word
    let at' := 0x3F0000000000 + 64 * (s.hub.cmdPos % 64)
    t.hub.cmdPos = s.hub.cmdPos + 1 ∧ (Memory.wf s.mem = true → memGet t.mem at' = memGet s.mem at' &&& 0xFE) ∧
    t.hub.owed = s.hub.owed ++ [{ word := word, seq := w.extractLsb' 64 64, info := BitVec.ofNat 32 info, status := st,
                                  code := w.extractLsb' 8 8 }] := by
  obtain ⟨_, _, _, _, he, -⟩ := answer_frame (s := s) (w := w) st info word
  intro t at'
  rw [show t = _ from he]
  exact ⟨rfl, fun hm => memGet_memSet_same _ _ hm, rfl⟩

/-! ### The slot at root firmware's position (R353, R354) -/

/-- The command of a slot, by its code (R357). -/
def commandOf (w : Row) (code : Nat) : Instr :=
  match code with
  | 0x01 => .query w
  | 0x02 => .launch w
  | 0x03 => .abort w
  | 0x04 => .pagerdone w
  | 0x05 => .range w
  | 0x06 => .cxlshare w
  | 0x07 => .linkcfg w
  | 0x08 => .syscopy w
  | 0x09 => .tlbinvCommand w
  | 0x0A => .donq w
  | 0x0B => .attest w
  | 0x0C => .svcload w
  | 0x0D => .reset w
  | 0x0E => .pealfloor w
  | _ => .unknownCommand w

theorem commandOf_listed (w : Row) : ∀ c ∈ [(1, Instr.query w), (2, .launch w), (3, .abort w), (4, .pagerdone w), (5, .range w),
    (6, .cxlshare w), (7, .linkcfg w), (8, .syscopy w), (9, .tlbinvCommand w), (10, .donq w), (11, .attest w), (12, .svcload w),
    (13, .reset w), (14, .pealfloor w)], commandOf w c.1 = c.2 := by
  simp only [List.forall_mem_cons, commandOf, true_and]
  exact fun _ h => absurd h List.not_mem_nil

theorem commandOf_unassigned (w : Row) {code : Nat} (h : code = 0 ∨ 14 < code) : commandOf w code = .unknownCommand w := by
  rcases h with rfl | h
  · rfl
  · obtain ⟨n, rfl⟩ : ∃ n, code = n + 15 := ⟨code - 15, by omega⟩
    rfl

/-- Which command root firmware takes. -/
theorem nextCommand_taken (hb : s.hub.booted = true) (ho : ∀ c ∈ s.hub.owed, c.code = 0x02 ∧ (c.status = 0 ∨ c.status = 0x08)) :
    let w := s.slot s.hub.cmdPos
    (w.getLsbD 0 = false → s.nextCommand = none) ∧
    (w.getLsbD 0 = true →
      (∀ (n : Nat) (c : Nat × Instr), [(1, Instr.query w), (2, .launch w), (3, .abort w), (4, .pagerdone w), (5, .range w), (6, .cxlshare w),
        (7, .linkcfg w), (8, .syscopy w), (9, .tlbinvCommand w), (10, .donq w), (11, .attest w), (12, .svcload w),
        (13, .reset w), (14, .pealfloor w)][n]? = some c → fld w 15 8 = c.1 → s.nextCommand = some c.2) ∧
      (fld w 15 8 = 0 ∨ 14 < fld w 15 8 → s.nextCommand = some (.unknownCommand w))) := by
  intro w
  have hany : (s.hub.owed.any fun c => !c.ofStarted) = false := by
    refine List.any_eq_false.2 fun c hc => ?_
    obtain ⟨h1, h2⟩ := ho c hc
    have hst : c.ofStarted = true := by
      unfold Completion.ofStarted
      rw [decide_eq_true h1, Bool.true_and, Bool.or_eq_true, decide_eq_true_eq, decide_eq_true_eq]
      exact h2
    rw [hst]
    decide
  refine ⟨fun h => if_pos ?_, fun h => ?_⟩
  · have hw : (s.slot s.hub.cmdPos).getLsbD 0 = false := h
    rw [hw, Bool.not_false, Bool.or_true, Bool.true_or]
  have hgo : s.nextCommand = some (commandOf w (fld w 15 8)) := by
    refine if_neg ?_
    rw [hb, h, hany]
    decide
  rw [hgo]
  exact ⟨fun n c hc hf => by rw [hf, commandOf_listed w c (List.mem_of_getElem? hc)], fun hf => by rw [commandOf_unassigned w hf]⟩

theorem nextCommand_owed (h : ∃ c ∈ s.hub.owed, c.code ≠ 0x02 ∨ (c.status ≠ 0 ∧ c.status ≠ 0x08)) : s.nextCommand = none := by
  obtain ⟨c, hc, h⟩ := h
  refine if_pos ?_
  have hany : (s.hub.owed.any fun c => !c.ofStarted) = true := by
    refine List.any_eq_true.2 ⟨c, hc, ?_⟩
    unfold Completion.ofStarted
    rcases h with h | ⟨h1, h2⟩
    · rw [decide_eq_false h]
      rfl
    · rw [decide_eq_false h1, decide_eq_false h2, Bool.or_false, Bool.and_false]
      rfl
  rw [hany, Bool.or_true]

/-! ### QUERY (R358) -/

theorem argBad_none (h : s.argGood w n = true) : s.argBad w n = none := by
  obtain ⟨⟨h0, h64⟩, hb⟩ : (cmdArg w ≠ 0 ∧ (cmdArg w).toNat % 64 = 0) ∧ s.backed (cmdArg w) n = true := by
    simpa [State.argGood] using h
  have hok : argOk (cmdArg w) = true := by
    rw [argOk, decide_eq_true h0, aligned, decide_eq_true h64]
    rfl
  unfold State.argBad
  rw [hok, hb]
  rfl

/-- The fields of QUERY's row, with the unused bits between them. -/
def queryFields (s : State) : List Field :=
  [⟨32, Config.romRevision⟩, ⟨20, s.pkgid⟩, ⟨27, 0#27⟩, ⟨5, s.hub.hmax⟩, ⟨12, s.hub.gmin⟩, ⟨8, s.hub.rampstep⟩, ⟨24, 0#24⟩,
    ⟨32, BitVec.ofNat 32 (s.cxlGib 0)⟩, ⟨32, BitVec.ofNat 32 (s.cxlGib 1)⟩, ⟨32, BitVec.ofNat 32 (s.cxlGib 2)⟩,
    ⟨32, BitVec.ofNat 32 (s.cxlGib 3)⟩, ⟨32, BitVec.ofNat 32 (s.cxlGib 4)⟩, ⟨32, BitVec.ofNat 32 (s.cxlGib 5)⟩,
    ⟨32, BitVec.ofNat 32 (s.cxlGib 6)⟩, ⟨32, BitVec.ofNat 32 (s.cxlGib 7)⟩, ⟨64, BitVec.ofNat 64 s.hub.lpddr⟩, ⟨64, featuresWord⟩]

/-- The widths of those fields. -/
def queryWidths : List Nat := [32, 20, 27, 5, 12, 8, 24, 32, 32, 32, 32, 32, 32, 32, 32, 64, 64]

/-- The places of the row's fields, to any base. -/
theorem packedIn_queryFields (b : Nat) (s : State) : packedIn b (queryFields s) =
    featuresWord.toNat * b ^ 448 + (BitVec.ofNat 64 s.hub.lpddr).toNat * b ^ 384
      + ((BitVec.ofNat 32 (s.cxlGib 0)).toNat * b ^ 128 + (BitVec.ofNat 32 (s.cxlGib 1)).toNat * b ^ 160
        + (BitVec.ofNat 32 (s.cxlGib 2)).toNat * b ^ 192 + (BitVec.ofNat 32 (s.cxlGib 3)).toNat * b ^ 224
        + (BitVec.ofNat 32 (s.cxlGib 4)).toNat * b ^ 256 + (BitVec.ofNat 32 (s.cxlGib 5)).toNat * b ^ 288
        + (BitVec.ofNat 32 (s.cxlGib 6)).toNat * b ^ 320 + (BitVec.ofNat 32 (s.cxlGib 7)).toNat * b ^ 352)
      + s.hub.rampstep.toNat * b ^ 96 + s.hub.gmin.toNat * b ^ 84 + s.hub.hmax.toNat * b ^ 79 + s.pkgid.toNat * b ^ 32
      + Config.romRevision.toNat := by
  simp only [queryFields, packedIn, show (0#27).toNat = 0 from rfl, show (0#24).toNat = 0 from rfl]
  ring

theorem cxlGib_le (n : Nat) : s.cxlGib n ≤ 768 := by
  unfold State.cxlGib
  split
  · exact Nat.zero_le _
  · exact Nat.min_le_right _ _

theorem cxlGib_toNat (n : Nat) : (BitVec.ofNat 32 (s.cxlGib n)).toNat = s.cxlGib n := by
  rw [BitVec.toNat_ofNat]
  exact Nat.mod_eq_of_lt (lt_of_le_of_lt (cxlGib_le n) (by decide))

theorem foldl_gibs (b : Nat) (f : Nat → Nat) : (List.range 8).foldl (fun acc n => acc + f n * b ^ (128 + 32 * n)) 0 =
    f 0 * b ^ 128 + f 1 * b ^ 160 + f 2 * b ^ 192 + f 3 * b ^ 224 + f 4 * b ^ 256 + f 5 * b ^ 288 + f 6 * b ^ 320 + f 7 * b ^ 352 := by
  rw [show List.range 8 = [0, 1, 2, 3, 4, 5, 6, 7] from rfl]
  simp only [List.foldl_cons, List.foldl_nil, Nat.zero_add, Nat.mul_zero, Nat.add_zero, Nat.reduceMul, Nat.reduceAdd]

theorem queryRow_packed (s : State) : s.queryRow = BitVec.ofNat 512 (packed (queryFields s)) := by
  unfold State.queryRow packed
  rw [packedIn_queryFields, foldl_gibs 2]
  simp only [cxlGib_toNat]
  rw [BitVec.toNat_ofNat]

theorem queryRow_field {lo hi w : Nat} {v : BitVec w} (i : Nat) (h : (queryFields s)[i]? = some ⟨w, v⟩)
    (hk : (queryWidths.take i).sum = lo) (hb : lo + w ≤ 512) (hw : hi + 1 - lo = w) : fld s.queryRow hi lo = v.toNat := by
  have hwid : width ((queryFields s).take i) = lo := by
    rw [← hk]
    unfold width
    rw [List.map_take]
    rfl
  have he := congrArg BitVec.toNat (extract_packed h hwid hb)
  rw [BitVec.extractLsb'_toNat] at he
  rw [queryRow_packed, fld, hw]
  exact he

theorem queryRow_cxl {n : Nat} (hn : n < 8) : fld s.queryRow (159 + 32 * n) (128 + 32 * n) = s.cxlGib n := by
  have hi : (queryFields s)[7 + n]? = some ⟨32, BitVec.ofNat 32 (s.cxlGib n)⟩ := by
    interval_cases n <;> rfl
  have hk : (queryWidths.take (7 + n)).sum = 128 + 32 * n := by
    interval_cases n <;> rfl
  exact (queryRow_field _ hi hk (by omega) (by omega)).trans (cxlGib_toNat n)

/-- What QUERY's row reads as. -/
theorem queryRow_reads (s : State) : fld s.queryRow 511 448 = 0x1F ∧ fld s.queryRow 447 384 = s.hub.lpddr % 2 ^ 64 ∧
    fld s.queryRow 103 96 = s.hub.rampstep.toNat ∧ fld s.queryRow 95 84 = s.hub.gmin.toNat ∧ fld s.queryRow 83 79 = s.hub.hmax.toNat ∧
    fld s.queryRow 51 32 = s.pkgid.toNat ∧ ∀ n, n < 8 → fld s.queryRow (159 + 32 * n) (128 + 32 * n) = s.cxlGib n := by
  refine ⟨?_, ?_, ?_, ?_, ?_, ?_, fun n => queryRow_cxl⟩
  · exact (queryRow_field (hi := 511) (lo := 448) (v := featuresWord) 16 rfl rfl (by decide) rfl).trans rfl
  · exact (queryRow_field (hi := 447) (lo := 384) (v := BitVec.ofNat 64 s.hub.lpddr) 15 rfl rfl (by decide) rfl).trans (BitVec.toNat_ofNat _ _)
  · exact queryRow_field (hi := 103) (lo := 96) 5 rfl rfl (by decide) rfl
  · exact queryRow_field (hi := 95) (lo := 84) 4 rfl rfl (by decide) rfl
  · exact queryRow_field (hi := 83) (lo := 79) 3 rfl rfl (by decide) rfl
  · exact queryRow_field (hi := 51) (lo := 32) 1 rfl rfl (by decide) rfl

theorem exec_query (ht : s.takes w true = true) (ha : s.argGood w 64 = true) : exec (.query w) s =
    .next ((s.homePut (cmdArg w).toNat (offsets (bytesOf 64 s.queryRow.toNat))).answer w 0 0 0) := by
  show execQuery w s = _
  unfold execQuery
  refine hubCommand_ok ht ?_
  rw [argBad_none ha]

/-! ### RESET (R357, R373; 19 R438) -/

theorem exec_reset_bad (ht : s.takes w true = true) (h : cmdOp w 0 ≠ 0) : exec (.reset w) s = .next (s.answer w 0x03 0 0) := by
  show execReset w s = _
  unfold execReset
  exact hubCommand_ended ht (if_pos h)

theorem exec_reset_waits (ht : s.takes w true = true) (h : cmdOp w 0 = 0) (hc : ∃ e ∈ s.hub.chans, e.2.state = 1) :
    exec (.reset w) s = .next s.resetChans := by
  obtain ⟨e, he, h1⟩ := hc
  show execReset w s = _
  unfold execReset
  exact hubCommand_later ht ((if_neg (not_not.2 h)).trans (if_pos (List.any_eq_true.2 ⟨e, he, decide_eq_true h1⟩)))

theorem exec_reset (ht : s.takes w true = true) (h : cmdOp w 0 = 0) (hc : ∀ e ∈ s.hub.chans, e.2.state ≠ 1) :
    exec (.reset w) s = .next (State.answer ((s.launches.foldl State.abortLaunch s).returnFrames.resetDies) w 0 0 0) := by
  show execReset w s = _
  unfold execReset
  refine hubCommand_ok ht ((if_neg (not_not.2 h)).trans (if_neg ?_))
  rw [List.any_eq_true]
  rintro ⟨e, he, h1⟩
  exact hc e he (of_decide_eq_true h1)

/-- A running channel that RESET has reached abandons its record. -/
def State.resetChan (t : State) (n : Nat) : State := if (t.chan n).state = 1 && (t.chan n).failing.isNone then t.abandon n else t

theorem abandon_chan (n m : Nat) : (s.abandon n).chan m = if m = n then { s.chan n with
    failing := some 0x07
    fetch := [] } else s.chan m := by
  have h : (s.abandon n).hub = (s.setSysChan n { s.chan n with
    failing := some 0x07
    fetch := [] }).hub := oweOnce_hub _
  rw [State.chan, h]
  by_cases hm : m = n
  · rw [if_pos hm, hm]
    exact look_put_same _ _ _ _
  · rw [if_neg hm]
    exact look_put_other _ _ _ hm

/-- Of a channel that has not been reached RESET changes nothing; one that has is failing for good. -/
theorem resetChan_chan (m n : Nat) : ((s.resetChan m).chan n).state = (s.chan n).state ∧
    ((s.chan n).failing.isSome = true → ((s.resetChan m).chan n).failing.isSome = true) ∧
    (m = n → (s.chan n).state = 1 → ((s.resetChan m).chan n).failing.isSome = true) := by
  unfold State.resetChan
  split
  · rw [abandon_chan]
    split
    · next h => exact ⟨by rw [h], fun _ => rfl, fun _ _ => rfl⟩
    · next h => exact ⟨rfl, id, fun e => absurd e.symm h⟩
  · next h =>
    refine ⟨rfl, id, ?_⟩
    rintro rfl h1
    rw [h1] at h
    simpa [← Option.isSome_iff_ne_none] using h

theorem resetChans_failing {n : Nat} (hn : n < 16) (h : (s.chan n).state = 1) : (s.resetChans.chan n).failing.isSome = true := by
  have hfold : ∀ (l : List Nat) (t : State), ((t.chan n).failing.isSome = true → ((l.foldl State.resetChan t).chan n).failing.isSome = true) ∧
      (n ∈ l → (t.chan n).state = 1 → ((l.foldl State.resetChan t).chan n).failing.isSome = true) := by
    intro l
    induction l with
    | nil => exact fun t => ⟨id, fun h => absurd h List.not_mem_nil⟩
    | cons m l ih =>
      intro t
      obtain ⟨hst, hkeep, hnow⟩ := resetChan_chan (s := t) m n
      obtain ⟨ih1, ih2⟩ := ih (t.resetChan m)
      refine ⟨fun h => ih1 (hkeep h), fun hm h => ?_⟩
      rcases List.mem_cons.1 hm with rfl | hm
      · exact ih1 (hnow rfl h)
      · exact ih2 hm (hst.trans h)
  exact (hfold (List.range 16) s).2 (List.mem_range.2 hn) h

theorem returnFrames_none (h : s.hub.donqs = []) : s.returnFrames = s := by
  unfold State.returnFrames
  simp only [h, List.flatMap_nil, List.foldl_nil, List.map_nil]
  rw [← h]

/-- The values of a map whose entries have been replaced. -/
theorem look_map_or {α : Type} (d : α) (F : α → α) (m : Map α) (i : Nat) :
    look d (m.map fun e => (e.1, F e.2)) i = d ∨ ∃ v, look d (m.map fun e => (e.1, F e.2)) i = F v := by
  induction m with
  | nil => exact .inl rfl
  | cons e m ih =>
    rw [List.map_cons, look]
    by_cases hk : e.1 = i
    · rw [if_pos hk]
      exact .inr ⟨e.2, rfl⟩
    · rw [if_neg hk]
      exact ih

/-- A context as reset leaves it: idle, with its entry alone. -/
def Ctx.asReset (x : Ctx) : Ctx := { trapvec := x.trapvec }

/-- The contexts of a core after its reset. -/
theorem asReset_ctxs (m : Map Ctx) (i : Nat) :
    (∃ v, look {} ((m.map fun (e : Nat × Ctx) => (e.1, e.2.asReset)).filter fun (e : Nat × Ctx) => e.2.trapvec ≠ 0) i = ({ trapvec := v } : Ctx)) ∧
    ((look {} m i).trapvec ≠ 0 →
      (look {} ((m.map fun (e : Nat × Ctx) => (e.1, e.2.asReset)).filter fun (e : Nat × Ctx) => e.2.trapvec ≠ 0) i).trapvec = (look {} m i).trapvec) := by
  induction m with
  | nil => exact ⟨⟨0, rfl⟩, fun h => absurd rfl h⟩
  | cons e m ih =>
    obtain ⟨⟨v, hv⟩, hkeep⟩ := ih
    have htv : e.2.asReset.trapvec = e.2.trapvec := rfl
    rw [List.map_cons, List.filter_cons]
    by_cases h0 : e.2.trapvec = 0
    · rw [if_neg (by rw [htv, h0]; decide)]
      refine ⟨⟨v, hv⟩, fun h => ?_⟩
      by_cases hk : e.1 = i
      · rw [look, if_pos hk] at h
        exact absurd h0 h
      · rw [look, if_neg hk] at h ⊢
        exact hkeep h
    · rw [if_pos (by rw [htv]; exact decide_eq_true h0)]
      by_cases hk : e.1 = i
      · rw [look, if_pos hk, look, if_pos hk]
        exact ⟨⟨_, rfl⟩, fun _ => rfl⟩
      · rw [look, if_neg hk, look, if_neg hk]
        exact ⟨⟨v, hv⟩, hkeep⟩

/-- The zero lines written out: memory alone changes. -/
theorem foldl_zeros (l : List Nat) (s : State) : ∃ mem,
    l.foldl (fun (t : State) z => { t with mem := memWrite t.mem (64 * z) (List.replicate 64 0) }) s = { s with mem := mem } := by
  induction l generalizing s with
  | nil => exact ⟨s.mem, rfl⟩
  | cons z l ih =>
    obtain ⟨m, h⟩ := ih { s with mem := memWrite s.mem (64 * z) (List.replicate 64 0) }
    exact ⟨m, by rw [List.foldl_cons, h]⟩

/-- The dies after their reset. -/
theorem resetDies_spec : s.resetDies.stopped = false ∧ s.resetDies.bad = [] ∧ s.resetDies.full = [] ∧ s.resetDies.hub.cmdPos = s.hub.cmdPos ∧
    (∀ h, (s.resetDies.ham h).fenced = false ∧ (s.resetDies.ham h).shut = false ∧ (s.resetDies.ham h).lines = []) ∧
    ∀ c k, (s.resetDies.ctx c k).status = .idle ∧ (s.resetDies.ctx c k).strand = none ∧
      ((s.ctx c k).trapvec ≠ 0 → (s.resetDies.ctx c k).trapvec = (s.ctx c k).trapvec) := by
  obtain ⟨m, hm⟩ := foldl_zeros s.zeros s
  unfold State.resetDies
  rw [hm]
  refine ⟨rfl, rfl, rfl, rfl, fun h => ?_, fun c k => ?_⟩
  · rcases look_map_or ({} : Hamlet) (fun x => ({ ceiling := x.ceiling, point := x.ceiling } : Hamlet)) s.hamlets h with h | ⟨v, h⟩
    · unfold State.ham
      rw [h]
      exact ⟨rfl, rfl, rfl⟩
    · unfold State.ham
      rw [h]
      exact ⟨rfl, rfl, rfl⟩
  · have hcore := look_mapEntries (d₀ := ({} : Core)) (F := Core.asReset) rfl s.cores c
    obtain ⟨⟨v, hv⟩, hkeep⟩ := asReset_ctxs (s.core c).ctxs k
    unfold State.ctx State.core
    rw [hcore]
    refine ⟨?_, ?_, hkeep⟩
    · exact congrArg Ctx.status hv
    · exact congrArg Ctx.strand hv

/-! ### ABORT, PAGERDONE, TLBINV, PEALFLOOR (R357) -/

theorem exec_abort {l : Launch} (ht : s.takes w false = true) (h : s.launches.find? (fun l => l.seq = cmdOp w 0) = some l) :
    exec (.abort w) s = .next ((s.abortLaunch l).answer w 0 0 (s.endWord l)) := by
  show execAbort w s = _
  unfold execAbort
  refine hubCommand_ok ht ?_
  rw [h]

theorem exec_abort_none (ht : s.takes w false = true) (h : ∀ l ∈ s.launches, l.seq ≠ cmdOp w 0) :
    exec (.abort w) s = .next (s.answer w 0x03 0 0) := by
  have hf : s.launches.find? (fun l => l.seq = cmdOp w 0) = none :=
    List.find?_eq_none.2 fun l hl => by simpa using h l hl
  show execAbort w s = _
  unfold execAbort
  refine hubCommand_ended ht ?_
  rw [hf]
  rfl

/-- PAGERDONE takes the handle of a pager's future, of its generation, and a value of at most 2. -/
theorem exec_pagerdone (ht : s.takes w false = true) : let hd : BitVec 32 := (cmdOp w 0).setWidth 32
    (fld (cmdOp w 0) 63 32 = 0 → 4032 ≤ hdIdx hd → fld hd 31 20 ≠ 0 → (s.future hd).gen = hd.extractLsb' 20 12 →
      (s.future hd).kind = .pager → (cmdOp w 1).toNat ≤ 2 →
      exec (.pagerdone w) s = .next ((s.pagerDone hd (cmdOp w 1).toNat).answer w 0 0 0)) ∧
    (hdIdx hd < 4032 ∨ (s.future hd).gen ≠ hd.extractLsb' 20 12 → exec (.pagerdone w) s = .next (s.answer w 0x03 0 0)) := by
  intro hd
  refine ⟨fun h1 h2 h3 h4 h5 h6 => ?_, fun h => ?_⟩
  · show execPagerdone w s = _
    unfold execPagerdone
    refine hubCommand_ok ht (if_neg ?_)
    simp only [Bool.or_eq_true, decide_eq_true_eq, not_or]
    exact ⟨⟨⟨⟨⟨not_not.2 h1, Nat.not_lt.2 h2⟩, h3⟩, not_not.2 h4⟩, not_not.2 h5⟩, Nat.not_lt.2 h6⟩
  · show execPagerdone w s = _
    unfold execPagerdone
    refine hubCommand_ended ht (if_pos ?_)
    simp only [Bool.or_eq_true, decide_eq_true_eq]
    rcases h with h | h
    · exact .inl (.inl (.inl (.inl (.inr h))))
    · exact .inl (.inl (.inr h))

/-- TLBINV of the operating system waits for the accesses on their way through an entry that goes. -/
theorem exec_tlbinvCommand {gone : Tlb → Bool} (ht : s.takes w false = true) (hg : gone = fun (e : Tlb) =>
      if (cmdOp w 0).toNat = 0 then e.covers ((cmdOp w 2).setWidth 12) ((cmdOp w 1).toNat % 2 ^ 57)
      else if (cmdOp w 0).toNat = 1 then e.space = (cmdOp w 2).setWidth 12 else true) :
    (2 < (cmdOp w 0).toNat → exec (.tlbinvCommand w) s = .next (s.answer w 0x03 0 0)) ∧
    ((cmdOp w 0).toNat ≤ 2 → s.travelling gone = true → exec (.tlbinvCommand w) s = .next s) ∧
    ((cmdOp w 0).toNat ≤ 2 → s.travelling gone = false → exec (.tlbinvCommand w) s = .next ((s.dropTlb gone).answer w 0 0 0)) := by
  subst hg
  refine ⟨fun h => ?_, fun h hv => ?_, fun h hv => ?_⟩
  all_goals
    show execTlbinvCommand w s = _
    unfold execTlbinvCommand
  · exact hubCommand_ended ht (if_pos h)
  · exact hubCommand_later ht ((if_neg (Nat.not_lt.2 h)).trans (if_pos hv))
  · exact hubCommand_ok ht ((if_neg (Nat.not_lt.2 h)).trans (if_neg (ne_true_of_eq_false hv)))

theorem dropTlb_core (gone : Tlb → Bool) (c : Nat) : ((s.dropTlb gone).core c).tlb = (s.core c).tlb.filter fun e => !gone e :=
  congrArg Core.tlb (look_mapEntries (d₀ := ({} : Core)) (F := fun x => { x with tlb := x.tlb.filter fun e => !gone e }) rfl s.cores c)

theorem exec_pealfloor (ht : s.takes w false = true) :
    (s.hub.gmin.toNat ≤ (cmdOp w 0).toNat → (cmdOp w 0).toNat < 4096 → (cmdOp w 1).toNat ≤ s.hub.hmax.toNat →
      exec (.pealfloor w) s = .next (State.answer { s with hub := { s.hub with
        gmin := BitVec.ofNat 12 (cmdOp w 0).toNat
        hmax := BitVec.ofNat 5 (cmdOp w 1).toNat } } w 0 0 0)) ∧
    ((cmdOp w 0).toNat < s.hub.gmin.toNat ∨ s.hub.hmax.toNat < (cmdOp w 1).toNat →
      exec (.pealfloor w) s = .next (s.answer w 0x03 0 0)) := by
  refine ⟨fun h1 h2 h3 => ?_, fun h => ?_⟩
  all_goals
    show execPealfloor w s = _
    unfold execPealfloor
  · refine hubCommand_ok ht (if_neg ?_)
    simp only [Bool.or_eq_true, decide_eq_true_eq, not_or, not_lt, not_le]
    exact ⟨⟨h1, h2⟩, h3⟩
  · refine hubCommand_ended ht (if_pos ?_)
    simp only [Bool.or_eq_true, decide_eq_true_eq]
    rcases h with h | h
    · exact .inl (.inl h)
    · exact .inr h

/-! ### RANGE and CXLSHARE (05 R132, R134) -/

theorem flushRange_ranges (r : BitVec 256) : (s.flushRange r).ranges = s.ranges := by
  have hscales : ∀ (p : Nat → Bool) (l : List Nat) (s : State),
      (l.foldl (fun (t : State) line => if p line then t.evictScales line else t) s).ranges = s.ranges := by
    intro p l
    induction l with
    | nil => exact fun _ => rfl
    | cons line l ih =>
      intro s
      rw [List.foldl_cons, ih]
      split
      · exact evictScales_homeOnly.ranges
      · rfl
  have hzeros : ∀ (p : Nat → Bool) (l : List Nat) (s : State), (l.foldl (fun (t : State) z => if p z then
      { t with
        zeros := t.zeros.filter (· ≠ z)
        mem := memWrite t.mem (64 * z) (List.replicate 64 0) } else t) s).ranges = s.ranges := by
    intro p l
    induction l with
    | nil => exact fun _ => rfl
    | cons z l ih =>
      intro s
      rw [List.foldl_cons, ih]
      split <;> rfl
  exact (hzeros _ _ _).trans (hscales _ _ _)

theorem exec_range (ht : s.takes w false = true) (ha : s.argGood w 32 = true) :
    let r := BitVec.ofNat 256 (ofBytes (s.bytesAt (cmdArg w).toNat 32))
    rangeReserved r = false →
    (24 ≤ (cmdOp w 0).toNat ∨ 16 ≤ (cmdOp w 1).toNat → exec (.range w) s = .next (s.answer w 0x03 0 0)) ∧
    ((cmdOp w 0).toNat < 24 → (cmdOp w 1).toNat < 16 →
      (s.launches ≠ [] → exec (.range w) s = .next (s.answer w 0x04 0 0)) ∧
      (s.launches = [] → (∀ p ∈ imageParts r, p.2 ≠ 0 → s.backed (BitVec.ofNat 64 p.1) p.2 = true) →
        s.rangeInvalid (cmdOp w 0).toNat (cmdOp w 1).toNat r = false →
        let u := (s.flushRange (look (0 : BitVec 256) s.ranges (16 * (cmdOp w 0).toNat + (cmdOp w 1).toNat))).flushRange r
        exec (.range w) s = .next (State.answer { u with
          ranges := put u.ranges (16 * (cmdOp w 0).toNat + (cmdOp w 1).toNat) r } w 0 0 0))) := by
  intro r hres
  have hr := ne_true_of_eq_false hres
  have hin : (cmdOp w 0).toNat < 24 → (cmdOp w 1).toNat < 16 →
      ¬ ((decide (24 ≤ (cmdOp w 0).toNat) || decide (16 ≤ (cmdOp w 1).toNat)) = true) := fun h1 h2 => by
    rw [decide_eq_false (Nat.not_le.2 h1), decide_eq_false (Nat.not_le.2 h2)]
    decide
  refine ⟨fun h => ?_, fun h1 h2 => ⟨fun hl => ?_, fun hl hb hi => ?_⟩⟩
  all_goals
    show execRange w s = _
    unfold execRange
  · refine hubCommand_ended ht ?_
    rw [argBad_none ha]
    refine (if_neg hr).trans (if_pos ?_)
    rw [Bool.or_eq_true, decide_eq_true_eq, decide_eq_true_eq]
    exact h
  · refine hubCommand_ended ht ?_
    rw [argBad_none ha]
    exact ((if_neg hr).trans (if_neg (hin h1 h2))).trans (if_pos (by simpa using hl))
  · refine hubCommand_ok ht ?_
    rw [argBad_none ha]
    refine ((if_neg hr).trans (if_neg (hin h1 h2))).trans ((if_neg (by simp [hl])).trans ((if_neg ?_).trans (if_neg (ne_true_of_eq_false hi))))
    rw [List.any_eq_true]
    rintro ⟨p, hp, h⟩
    rw [Bool.and_eq_true, decide_eq_true_eq] at h
    rw [hb p hp h.1] at h
    exact absurd h.2 (by decide)

theorem mem_gibs {base len g : Nat} : g ∈ gibs base len ↔ base / 2 ^ 30 ≤ g ∧ g < base / 2 ^ 30 + len / 2 ^ 30 := by
  unfold gibs
  rw [List.mem_map]
  constructor
  · rintro ⟨i, hi, rfl⟩
    have := List.mem_range.1 hi
    omega
  · rintro ⟨h1, h2⟩
    exact ⟨g - base / 2 ^ 30, List.mem_range.2 (by omega), by omega⟩

theorem mem_foldl_setIns (l m : List Nat) (g : Nat) : g ∈ l.foldl setIns m ↔ g ∈ l ∨ g ∈ m := by
  induction l generalizing m with
  | nil => simp
  | cons a l ih =>
    rw [List.foldl_cons, ih, mem_setIns, List.mem_cons]
    tauto

/-- The GiB that are shared after a CXLSHARE. -/
def sharedAfter (s : State) (w : Row) : List Nat :=
  if cmdOp w 2 = 1 then (gibs (cmdOp w 0).toNat (cmdOp w 1).toNat).foldl setIns s.hub.shared
  else s.hub.shared.filter fun g => !(gibs (cmdOp w 0).toNat (cmdOp w 1).toNat).contains g

theorem mem_sharedAfter {g : Nat} : g ∈ sharedAfter s w ↔
    if (cmdOp w 0).toNat / 2 ^ 30 ≤ g ∧ g < (cmdOp w 0).toNat / 2 ^ 30 + (cmdOp w 1).toNat / 2 ^ 30 then cmdOp w 2 = 1
    else g ∈ s.hub.shared := by
  unfold sharedAfter
  by_cases h2 : cmdOp w 2 = 1
  · rw [if_pos h2, mem_foldl_setIns, mem_gibs]
    split
    · next h => exact ⟨fun _ => h2, fun _ => .inl h⟩
    · next h => exact or_iff_right h
  · rw [if_neg h2, List.mem_filter, Bool.not_eq_true', ← Bool.not_eq_true, List.contains_iff_mem, mem_gibs]
    split
    · next h => exact ⟨fun ⟨_, h'⟩ => absurd h h', fun h' => absurd h' h2⟩
    · next h => exact and_iff_left h

theorem exec_cxlshare (ht : s.takes w false = true) (hb : (cmdOp w 0).toNat % 2 ^ 30 = 0) (hl : (cmdOp w 1).toNat % 2 ^ 30 = 0)
    (h0 : (cmdOp w 1).toNat ≠ 0) (h2 : (cmdOp w 2).toNat ≤ 1) (hr : s.region (cmdOp w 0).toNat = .cxl n)
    (hr' : s.region ((cmdOp w 0).toNat + (cmdOp w 1).toNat - 1) = .cxl n) :
    (s.launches ≠ [] → exec (.cxlshare w) s = .next (s.answer w 0x04 0 0)) ∧
    (s.launches = [] → exec (.cxlshare w) s = .next (State.answer { s with hub := { s.hub with shared := sharedAfter s w } } w 0 0 0)) := by
  have hport : ∀ c : Prop, ∀ d : Decidable c, ¬ c → (@ite Verdict c d (.ended s stInvalid)
      (if !s.launches.isEmpty then .ended s stBusy
        else .ok { s with hub := { s.hub with shared := sharedAfter s w } } 0 0)) =
      if !s.launches.isEmpty then .ended s stBusy else .ok { s with hub := { s.hub with shared := sharedAfter s w } } 0 0 :=
    fun c d h => if_neg h
  refine ⟨fun hl' => ?_, fun hl' => ?_⟩
  all_goals
    show execCxlshare w s = _
    unfold execCxlshare
  · refine hubCommand_ended ht ((hport _ _ ?_).trans (if_pos (by simpa using hl')))
    simp only [hr, hr', ne_eq, not_true_eq_false, decide_false, Option.isNone_some, Bool.or_false, Bool.or_eq_true, decide_eq_true_eq, not_or]
    exact ⟨⟨⟨not_not.2 hb, not_not.2 hl⟩, h0⟩, Nat.not_lt.2 h2⟩
  · refine hubCommand_ok ht ((hport _ _ ?_).trans (if_neg (by simp [hl'])))
    simp only [hr, hr', ne_eq, not_true_eq_false, decide_false, Option.isNone_some, Bool.or_false, Bool.or_eq_true, decide_eq_true_eq, not_or]
    exact ⟨⟨⟨not_not.2 hb, not_not.2 hl⟩, h0⟩, Nat.not_lt.2 h2⟩

/-! ### DONQ (R369) -/

theorem exec_donq (ht : s.takes w false = true) : let d := look ({} : DonQueue) s.hub.donqs (cmdOp w 0).toNat
    (16 ≤ (cmdOp w 0).toNat ∨ 256 < (cmdOp w 1).toNat → exec (.donq w) s = .next (s.answer w 0x03 0 0)) ∧
    ((cmdOp w 0).toNat < 16 → (cmdOp w 1).toNat ≤ 256 →
      (d.frames ≠ [] → exec (.donq w) s = .next (s.answer w 0x04 0 0)) ∧
      (d.frames = [] → (cmdOp w 1 ≠ 0 → s.backed (cmdOp w 2) ((cmdOp w 1).toNat * 98304) = true ∧ s.secondTier (cmdOp w 2).toNat = true) →
        exec (.donq w) s = .next (State.answer { s with hub := { s.hub with
          donqs := put s.hub.donqs (cmdOp w 0).toNat { cap := (cmdOp w 1).toNat, base := cmdOp w 2, frames := [] } } } w 0 0 0))) := by
  intro d
  have hin : (cmdOp w 0).toNat < 16 → (cmdOp w 1).toNat ≤ 256 →
      ¬ ((decide (16 ≤ (cmdOp w 0).toNat) || decide (256 < (cmdOp w 1).toNat)) = true) := fun h1 h2 => by
    rw [decide_eq_false (Nat.not_le.2 h1), decide_eq_false (Nat.not_lt.2 h2)]
    decide
  refine ⟨fun h => ?_, fun h1 h2 => ⟨fun hf => ?_, fun hf hb => ?_⟩⟩
  all_goals
    show execDonq w s = _
    unfold execDonq
  · refine hubCommand_ended ht (if_pos ?_)
    rw [Bool.or_eq_true, decide_eq_true_eq, decide_eq_true_eq]
    exact h
  · exact hubCommand_ended ht ((if_neg (hin h1 h2)).trans (if_pos (show (!d.frames.isEmpty) = true by simpa using hf)))
  · have hcap : (cmdOp w 1).toNat ≠ 0 → cmdOp w 1 ≠ 0 := fun h e => h (by rw [e]; rfl)
    refine hubCommand_ok ht ((if_neg (hin h1 h2)).trans ((if_neg (show ¬ (!d.frames.isEmpty) = true by simp [hf])).trans ((if_neg ?_).trans (if_neg ?_))))
    · rw [Bool.and_eq_true, decide_eq_true_eq]
      rintro ⟨h0, h⟩
      rw [donEntry, (hb (hcap h0)).1] at h
      exact absurd h (by decide)
    · rw [Bool.and_eq_true, decide_eq_true_eq]
      rintro ⟨h0, h⟩
      rw [(hb (hcap h0)).2] at h
      exact absurd h (by decide)

/-! ### LINKCFG (R367, R368) -/

/-- A first LINKCFG: the package's number and tables, and its ports train. -/
def State.linked (s : State) (w : Row) : State :=
  { s with
    pkgid := (cmdOp w 0).setWidth 20
    groupTable := s.readTable (cmdArg w).toNat
    memberTable := s.readTable ((cmdArg w).toNat + 2048)
    hub := { s.hub with configured := true }
    ports := (List.range 12).map fun p => (p, { training := true }) }

/-- A later LINKCFG: the tables, and no package is unreachable for having been silent. -/
def State.relinked (s : State) (w : Row) : State :=
  State.oweUnreachable { s with
    groupTable := s.readTable (cmdArg w).toNat
    memberTable := s.readTable ((cmdArg w).toNat + 2048)
    peers := s.peers.map fun (e : Nat × Peer) => (e.1, { e.2 with dead := false }) }

theorem exec_linkcfg (ht : s.takes w false = true) (ha : s.argGood w 4096 = true) (hz : fld (cmdOp w 0) 63 20 = 0) :
    let gt := s.readTable (cmdArg w).toNat
    let mt := s.readTable ((cmdArg w).toNat + 2048)
    (s.hub.configured = true → (cmdOp w 0).setWidth 20 ≠ s.pkgid → exec (.linkcfg w) s = .next (s.answer w 0x03 0 0)) ∧
    ((s.hub.configured = true → (cmdOp w 0).setWidth 20 = s.pkgid) →
      (s.hub.service = false → exec (.linkcfg w) s = .next (s.answer w 0x04 0 0)) ∧
      (s.hub.service = true → (∀ e ∈ gt ++ mt, fld e.2 15 12 = 0) →
        (s.hub.configured = false → exec (.linkcfg w) s = .next ((s.linked w).answer w 0 0 0)) ∧
        (s.hub.configured = true → (∀ e ∈ s.peers, e.2.unacked = []) → exec (.linkcfg w) s = .next ((s.relinked w).answer w 0 0 0)) ∧
        (∀ e ∈ s.peers, s.hub.configured = true → e.2.unacked ≠ [] →
          exec (.linkcfg w) s = .next { s with hub := { s.hub with linkHold := true } }))) := by
  intro gt mt
  have hid : (s.hub.configured = true → (cmdOp w 0).setWidth 20 = s.pkgid) →
      ¬ ((decide (fld (cmdOp w 0) 63 20 ≠ 0) || (s.hub.configured && decide ((cmdOp w 0).setWidth 20 ≠ s.pkgid))) = true) := by
    intro h
    rw [decide_eq_false (not_not.2 hz), Bool.false_or, Bool.and_eq_true, decide_eq_true_eq]
    exact fun ⟨hc, hne⟩ => hne (h hc)
  have hbits : (∀ e ∈ gt ++ mt, fld e.2 15 12 = 0) → ¬ (((gt ++ mt).any fun e => decide (fld e.2 15 12 ≠ 0)) = true) := by
    intro h
    rw [List.any_eq_true]
    rintro ⟨e, he, hne⟩
    exact of_decide_eq_true hne (h e he)
  refine ⟨fun hc hne => ?_, fun h => ⟨fun hs => ?_, fun hs hb => ⟨fun hc => ?_, fun hc hu => ?_, fun e he hc hu => ?_⟩⟩⟩
  all_goals
    show execLinkcfg w s = _
    unfold execLinkcfg
  · refine hubCommand_ended ht ?_
    rw [argBad_none ha]
    refine if_pos ?_
    rw [hc, decide_eq_true hne, Bool.and_self, Bool.or_true]
  · refine hubCommand_ended ht ?_
    rw [argBad_none ha]
    exact (if_neg (hid h)).trans (if_pos (by rw [hs]; rfl))
  · refine hubCommand_ok ht ?_
    rw [argBad_none ha]
    exact ((if_neg (hid h)).trans (if_neg (by rw [hs]; decide))).trans ((if_neg (hbits hb)).trans (if_pos (by rw [hc]; rfl)))
  · refine hubCommand_ok ht ?_
    rw [argBad_none ha]
    refine ((if_neg (hid h)).trans (if_neg (by rw [hs]; decide))).trans ((if_neg (hbits hb)).trans ((if_neg (by rw [hc]; decide)).trans (if_neg ?_)))
    rw [List.any_eq_true]
    rintro ⟨e, he, hne⟩
    rw [hu e he] at hne
    exact absurd hne (by decide)
  · refine hubCommand_later ht ?_
    rw [argBad_none ha]
    refine ((if_neg (hid h)).trans (if_neg (by rw [hs]; decide))).trans ((if_neg (hbits hb)).trans ((if_neg (by rw [hc]; decide)).trans (if_pos ?_)))
    exact List.any_eq_true.2 ⟨e, he, by simpa using hu⟩

/-- No package is reached over ports that are all down. -/
theorem portMask_down (h : ∀ j, j < 12 → (s.port j).up = false) (d : BitVec 20) : s.portMask d = 0 := by
  have hfold : ∀ (e : BitVec 16) (l : List Nat), (∀ j ∈ l, j < 12) → ∀ acc : BitVec 12,
      l.foldl (fun (acc : BitVec 12) i => if e.getLsbD i && (look {} s.ports i).up then acc ||| (1 <<< i) else acc) acc = acc := by
    intro e l
    induction l with
    | nil => exact fun _ _ => rfl
    | cons j l ih =>
      intro hl acc
      have hup : (look {} s.ports j).up = false := h j (hl j List.mem_cons_self)
      rw [List.foldl_cons, hup, Bool.and_false, if_neg (by decide)]
      exact ih (fun i hi => hl i (List.mem_cons_of_mem _ hi)) acc
  exact hfold _ _ (fun j hj => List.mem_range.1 hj) 0

theorem numbered_ports (d : BitVec 20) (id : Nat) (h : s.portMask d = 0) : (s.numbered d id).ports = s.ports := by
  have hdead : s.deadPeer d = true := by simp [State.deadPeer, h]
  unfold State.numbered
  rw [if_pos hdead]
  unfold State.oweOnce
  split <;> rfl

theorem sendFlit_lanes (o : Option Nat) (j : Nat) : ((s.sendFlit o).port j).lanes = (s.port j).lanes := by
  cases o with
  | none => rfl
  | some n =>
    obtain ⟨x, hx, hl⟩ : ∃ x : Port, (s.sendFlit (some n)).ports = put s.ports n x ∧ x.lanes = (s.port n).lanes := ⟨_, rfl, rfl⟩
    rw [State.port, hx]
    by_cases hj : j = n
    · rw [hj, look_put_same, hl]
    · rw [look_put_other _ _ _ hj, State.port]

theorem numbered_lanes (d : BitVec 20) (id j : Nat) : ((s.numbered d id).port j).lanes = (s.port j).lanes := by
  unfold State.numbered
  split
  · rw [oweOnce_port]
    rfl
  · split
    · rfl
    · unfold State.leaves
      dsimp only
      rw [oweOnce_port]
      exact sendFlit_lanes _ _

/-- What the packets that LINKCFG lets go leave of the ports. -/
theorem foldl_numbered_ports (l : List (BitVec 20 × Nat)) (s : State) :
    ((∀ j, j < 12 → (s.port j).up = false) → (l.foldl (fun t q => t.numbered q.1 q.2) s).ports = s.ports) ∧
    ∀ j, ((l.foldl (fun t q => t.numbered q.1 q.2) s).port j).lanes = (s.port j).lanes := by
  induction l generalizing s with
  | nil => exact ⟨fun _ => rfl, fun _ => rfl⟩
  | cons q l ih =>
    obtain ⟨ih1, ih2⟩ := ih (s.numbered q.1 q.2)
    refine ⟨fun h => ?_, fun j => (ih2 j).trans (numbered_lanes _ _ _)⟩
    have hp := numbered_ports q.1 q.2 (portMask_down h q.1)
    rw [List.foldl_cons, ih1 fun j hj => ?_, hp]
    rw [State.port, hp]
    exact h j hj

theorem complete_ports (c : Completion) : (s.complete c).ports = s.ports := by
  unfold State.complete State.oweOnce
  split <;> rfl

theorem answer_ports (st : BitVec 8) (info : Nat) (word : Word) :
    ((∀ j, j < 12 → (s.port j).up = false) → (s.answer w st info word).ports = s.ports) ∧
    ∀ j, ((s.answer w st info word).port j).lanes = (s.port j).lanes := by
  have hp : (s.answer w st info word).ports = s.unheld.ports := by
    rw [answer_eq, complete_ports]
    rfl
  obtain ⟨h1, h2⟩ := foldl_numbered_ports s.hub.heldOut { s with hub := { s.hub with
    linkHold := false
    heldOut := [] } }
  unfold State.port
  rw [hp]
  unfold State.unheld
  split
  · exact ⟨h1, h2⟩
  · exact ⟨fun _ => rfl, fun _ => rfl⟩

theorem linked_port (w : Row) {p : Nat} (hp : p < 12) : (s.linked w).port p = { training := true } :=
  (look_map_keys _ _ _ _).trans (if_pos (List.mem_range.2 hp))

/-- A package after its first LINKCFG. -/
theorem linked_answer (w : Row) : let t := (s.linked w).answer w 0 0 0
    t.pkgid = (cmdOp w 0).setWidth 20 ∧ t.groupTable = s.readTable (cmdArg w).toNat ∧
    t.memberTable = s.readTable ((cmdArg w).toNat + 2048) ∧ t.hub.configured = true ∧
    ∀ p, p < 12 → look {} t.ports p = { up := false, lanes := 0, training := true } := by
  intro t
  have hdown : ∀ j, j < 12 → ((s.linked w).port j).up = false := fun j hj => by rw [linked_port w hj]
  obtain ⟨held, ports, peers, agenda, he, -⟩ := answer_frame (s := s.linked w) (w := w) 0 0 0
  have hports : t.ports = (s.linked w).ports := (answer_ports (s := s.linked w) (w := w) 0 0 0).1 hdown
  refine ⟨?_, ?_, ?_, ?_, fun p hp => hports ▸ linked_port w hp⟩
  all_goals
    rw [show t = _ from he]
    simp only [State.linked]

theorem oweUnreachable_frame (s : State) : ∃ agenda, s.oweUnreachable = { s with agenda := agenda } := by
  have hfold : ∀ (l : List (BitVec 20)) (t : State), ∃ agenda, l.foldl State.oweCut t = { t with agenda := agenda } := by
    intro l
    induction l with
    | nil => exact fun t => ⟨t.agenda, rfl⟩
    | cons d l ih =>
      intro t
      obtain ⟨a, ha⟩ : ∃ a, t.oweCut d = { t with agenda := a } := by
        unfold State.oweCut State.oweOnce
        split
        · split
          · exact ⟨t.agenda, rfl⟩
          · exact ⟨_, rfl⟩
        · exact ⟨t.agenda, rfl⟩
      obtain ⟨b, hb⟩ := ih (t.oweCut d)
      exact ⟨b, by rw [List.foldl_cons, hb, ha]⟩
  exact hfold _ s

/-- A package after a later LINKCFG. -/
theorem relinked_answer (w : Row) : let t := (s.relinked w).answer w 0 0 0
    t.pkgid = s.pkgid ∧ t.groupTable = s.readTable (cmdArg w).toNat ∧ t.memberTable = s.readTable ((cmdArg w).toNat + 2048) ∧
    t.hub.linkHold = false ∧ (∀ d, (look ({} : Peer) t.peers d).dead = false) ∧
    ∀ p, (t.port p).up = (s.port p).up ∧ (t.port p).lanes = (s.port p).lanes := by
  intro t
  obtain ⟨a, ha⟩ := oweUnreachable_frame { s with
    groupTable := s.readTable (cmdArg w).toNat
    memberTable := s.readTable ((cmdArg w).toNat + 2048)
    peers := s.peers.map fun (e : Nat × Peer) => (e.1, { e.2 with dead := false }) }
  have hre : s.relinked w = _ := ha
  obtain ⟨held, ports, peers, agenda, he, hup, hdead⟩ := answer_frame (s := s.relinked w) (w := w) 0 0 0
  obtain ⟨-, hlanes⟩ := answer_ports (s := s.relinked w) (w := w) 0 0 0
  have hports : ∀ j, (s.relinked w).port j = s.port j := fun j => by rw [hre, State.port, State.port]
  refine ⟨?_, ?_, ?_, ?_, fun d => ?_, fun p => ⟨?_, (hlanes p).trans (by rw [hports])⟩⟩
  · exact (congrArg State.pkgid he).trans (by rw [hre])
  · exact (congrArg State.groupTable he).trans (by rw [hre])
  · exact (congrArg State.memberTable he).trans (by rw [hre])
  · rw [show t = _ from he]
  · have hpe : t.peers = peers := congrArg State.peers he
    rw [hpe, hdead, hre]
    rcases look_map_or ({} : Peer) (fun x => { x with dead := false }) s.peers d with h | ⟨v, h⟩
    · exact congrArg Peer.dead h
    · exact congrArg Peer.dead h
  · have hpo : t.ports = ports := congrArg State.ports he
    rw [State.port, hpo, hup, hports]

/-! ### ATTEST and SVCLOAD (R371, R372) -/

theorem exec_attest_bad (ht : s.takes w false = true)
    (ha : s.argGood w (if cmdOp w 1 = 1 then (Config.certificate.take 2048).length else 304) = true)
    (h : 1 < (cmdOp w 1).toNat ∨ (cmdOp w 0 ≠ 0 ∧ ∀ l ∈ s.launches, l.seq ≠ cmdOp w 0)) :
    exec (.attest w) s = .next (s.answer w 0x03 0 0) := by
  show execAttest w s = _
  unfold execAttest
  refine hubCommand_ended ht ?_
  dsimp only
  rw [argBad_none ha]
  refine if_pos ?_
  rw [Bool.or_eq_true, decide_eq_true_eq]
  refine h.imp id fun ⟨h0, hl⟩ => ?_
  have hf : s.launches.find? (fun l => l.seq = cmdOp w 0) = none := List.find?_eq_none.2 fun l hm => by simpa using hl l hm
  rw [hf, decide_eq_true h0]
  rfl

/-- The launch whose digest a report carries, if its operand names one. -/
def attested (s : State) (w : Row) (digest : BitVec 384) : Prop :=
  (cmdOp w 0 = 0 ∧ digest = 0) ∨ (cmdOp w 0 ≠ 0 ∧ ∃ l, s.launches.find? (fun l => l.seq = cmdOp w 0) = some l ∧ digest = l.digest)

theorem attested_known {digest : BitVec 384} (h : attested s w digest) :
    (cmdOp w 0 ≠ 0 && (s.launches.find? fun l => l.seq = cmdOp w 0).isNone) = false ∧
    (if cmdOp w 0 = 0 then 0 else ((s.launches.find? fun l => l.seq = cmdOp w 0).map Launch.digest).getD 0) = digest := by
  rcases h with ⟨h0, rfl⟩ | ⟨h0, l, hl, rfl⟩
  · rw [h0]
    exact ⟨rfl, rfl⟩
  · rw [hl, if_neg h0, decide_eq_true h0]
    exact ⟨rfl, rfl⟩

theorem exec_attest_report {digest : BitVec 384} (ht : s.takes w false = true) (hd : attested s w digest) (ha : s.argGood w 304 = true)
    (h1 : cmdOp w 1 = 0) : let body := s.attestBody (ofBytes (s.bytesAt (cmdArg w).toNat 48)) digest
    exec (.attest w) s = .next ((State.homePut { s with free := s.free + 1 } (cmdArg w).toNat
      (offsets (body ++ bytesOf 96 (deviceSign s.free (sha384 body)).toNat))).answer w 0 304 0) := by
  obtain ⟨hknown, hdig⟩ := attested_known hd
  have hne : ¬ cmdOp w 1 = 1 := by rw [h1]; decide
  intro body
  show execAttest w s = _
  unfold execAttest
  refine hubCommand_ok ht ?_
  dsimp only
  rw [if_neg hne, argBad_none ha]
  dsimp only
  rw [hknown, hdig, if_neg hne, if_neg]
  rw [h1]
  decide

theorem exec_attest_certificate {digest : BitVec 384} (ht : s.takes w false = true) (hd : attested s w digest)
    (ha : s.argGood w (Config.certificate.take 2048).length = true) (h1 : cmdOp w 1 = 1) : exec (.attest w) s =
    .next ((s.homePut (cmdArg w).toNat (offsets (Config.certificate.take 2048))).answer w 0 (Config.certificate.take 2048).length 0) := by
  obtain ⟨hknown, hdig⟩ := attested_known hd
  show execAttest w s = _
  unfold execAttest
  refine hubCommand_ok ht ?_
  dsimp only
  rw [if_pos h1, argBad_none ha]
  dsimp only
  rw [hknown, if_pos h1, if_neg]
  rw [h1]
  decide

theorem answer_ranges (st : BitVec 8) (info : Nat) (word : Word) : (s.answer w st info word).ranges = s.ranges := by
  obtain ⟨_, _, _, _, he, -⟩ := answer_frame (s := s) (w := w) st info word
  rw [he]

/-- What SVCLOAD leaves, whether or not the image verifies. -/
theorem svcload_answer {digest : BitVec 384} {ok : Bool}
    (hgood : ok = true → exec (.svcload w) s = .next (State.answer { s with hub := s.hub.startService digest } w 0 0 0))
    (hbad : ok = false → exec (.svcload w) s = .next ((s.record { event := 0x15, cls := 0 }).answer w 0x07 0 0)) :
    ∃ t, exec (.svcload w) s = .next t ∧ t.hub.cmdPos = s.hub.cmdPos + 1 ∧
      (ok = true → t.hub.service = true ∧ t.hub.serviceDigest = digest ∧ t.hub.reportNo = 0) ∧
      (ok = false → t.hub.service = s.hub.service ∧ t.hub.serviceDigest = s.hub.serviceDigest ∧ ∃ k ∈ t.hub.owed, k.status = 0x07) := by
  cases ok with
  | true =>
    obtain ⟨_, _, _, _, he, -⟩ := answer_frame (w := w) (s := { s with hub := s.hub.startService digest }) 0 0 0
    refine ⟨_, hgood rfl, ?_⟩
    rw [he]
    exact ⟨rfl, fun _ => ⟨rfl, rfl, rfl⟩, fun h => absurd h (by decide)⟩
  | false =>
    obtain ⟨_, _, _, _, he, -⟩ := answer_frame (w := w) (s := s.record { event := 0x15, cls := 0 }) 0x07 0 0
    obtain ⟨_, _, _, hr, _, _, _, _, _, _, _, rfl⟩ := record_frame (s := s) { event := 0x15, cls := 0 }
    refine ⟨_, hbad rfl, ?_⟩
    rw [he, hr]
    exact ⟨rfl, fun h => absurd h (by decide), fun _ => ⟨rfl, rfl, _, List.mem_append_right _ List.mem_cons_self, rfl⟩⟩

theorem exec_svcload (ht : s.takes w false = true) (ha : s.argGood w 24 = true) :
    let word := fun (i : Nat) => BitVec.ofNat 64 (ofBytes (s.bytesAt ((cmdArg w).toNat + 8 * i) 8))
    let digest := sha384 (s.bytesAt (word 0).toNat (word 1).toNat)
    let ok := verifies digest (BitVec.ofNat 768 (ofBytes (s.bytesAt (word 2).toNat 96)))
    s.backed (word 0) (word 1).toNat = true → s.backed (word 2) 96 = true →
    (ok = true → exec (.svcload w) s = .next (State.answer { s with hub := s.hub.startService digest } w 0 0 0)) ∧
    (ok = false → exec (.svcload w) s = .next ((s.record { event := 0x15, cls := 0 }).answer w 0x07 0 0)) := by
  intro word digest ok h0 h2
  have hback : ¬ ((!s.backed (word 0) (word 1).toNat || !s.backed (word 2) 96) = true) := by
    rw [h0, h2]
    decide
  refine ⟨fun h => ?_, fun h => ?_⟩
  all_goals
    show execSvcload w s = _
    unfold execSvcload
  · refine hubCommand_ok ht ?_
    rw [argBad_none ha]
    exact (if_neg hback).trans (if_pos h)
  · refine hubCommand_ended ht ?_
    rw [argBad_none ha]
    exact (if_neg hback).trans (if_neg (ne_true_of_eq_false h))

end Sys2Proof.Machine

open Sys2Proof Sys2Proof.Machine

/-- Settles O58: each command in its frame, by its own equation; what an answer changes besides is the slot, the completion owed and
the packets that LINKCFG held. -/
theorem commandsComplete : Obligations.CommandsComplete := by
  unfold Obligations.CommandsComplete
  intro s
  refine ⟨fun hb ho => nextCommand_taken hb ho, nextCommand_owed, fun w => ⟨fun st info word => answer_spec st info word, fun ev hev => ⟨fun h => ?_, fun h hr => ?_⟩,
    fun ev hev hr => ?_, rfl, fun ht => ⟨fun ha => ?_, exec_reset_bad ht, exec_reset_waits ht, fun n hn h => resetChans_failing hn h, fun h hl hd hc => ?_⟩,
    fun ht => ⟨fun l => exec_abort ht, exec_abort_none ht, exec_pagerdone ht, ?_, exec_pealfloor ht, fun ha hr => ?_, fun n hb hl h0 h2 hr hr' => ?_, fun ha hz => ?_, ?_,
      fun digest hd => ⟨exec_attest_report ht hd, exec_attest_certificate ht hd⟩, exec_attest_bad ht, fun ha h0 h2 => ?_⟩⟩⟩
  case refine_1 =>
    obtain ⟨k, hk⟩ := exec_command s w ev hev
    exact hk.trans (hubCommand_stopped h)
  case refine_2 =>
    obtain ⟨k, hk⟩ := exec_command s w ev hev
    exact hk.trans (hubCommand_reserved (fun h' => absurd (h.symm.trans h') (by decide)) hr)
  case refine_3 =>
    rcases hev with rfl | rfl
    · show execQuery w s = _
      unfold execQuery
      exact hubCommand_reserved (fun _ => rfl) hr
    · show execReset w s = _
      unfold execReset
      exact hubCommand_reserved (fun _ => rfl) hr
  case refine_4 =>
    obtain ⟨h1, h2, h3, h4, h5, h6, h7⟩ := queryRow_reads s
    exact ⟨s.queryRow, h1, h2, h3, h4, h5, h6, h7, exec_query ht ha⟩
  case refine_5 =>
    have hrun := exec_reset ht h hc
    rw [hl, List.foldl_nil, returnFrames_none hd] at hrun
    obtain ⟨d1, d2, d3, d4, d5, d6⟩ := resetDies_spec (s := s)
    obtain ⟨_, _, _, _, he, -⟩ := answer_frame (s := s.resetDies) (w := w) 0 0 0
    refine ⟨_, hrun, ?_⟩
    rw [he]
    exact ⟨congrArg (· + 1) d4, d1, d2, d3, d5, d6⟩
  case refine_6 =>
    have h0 : (cmdOp w 0 = 0) = ((cmdOp w 0).toNat = 0) := propext BitVec.toNat_inj.symm
    have h1 : (cmdOp w 0 = 1) = ((cmdOp w 0).toNat = 1) := propext BitVec.toNat_inj.symm
    obtain ⟨hbad, hwait, hgo⟩ := exec_tlbinvCommand (gone := fun (e : Tlb) => if cmdOp w 0 = 0 then
      e.covers ((cmdOp w 2).setWidth 12) ((cmdOp w 1).toNat % 2 ^ 57)
      else if cmdOp w 0 = 1 then e.space = (cmdOp w 2).setWidth 12 else true) ht (by simp only [h0, h1])
    refine ⟨hbad, hwait, fun h hv => ⟨_, hgo h hv, ?_⟩⟩
    obtain ⟨_, _, _, _, he, -⟩ := answer_frame (w := w) (s := s.dropTlb fun (e : Tlb) => if cmdOp w 0 = 0 then
      e.covers ((cmdOp w 2).setWidth 12) ((cmdOp w 1).toNat % 2 ^ 57)
      else if cmdOp w 0 = 1 then e.space = (cmdOp w 2).setWidth 12 else true) 0 0 0
    rw [he]
    exact ⟨rfl, fun c => dropTlb_core _ c⟩
  case refine_7 =>
    obtain ⟨hbad, hgo⟩ := exec_range ht ha hr
    refine ⟨hbad, fun h1 h2 => ⟨(hgo h1 h2).1, fun hl hb hi => ⟨_, (hgo h1 h2).2 hl hb hi, ?_⟩⟩⟩
    rw [answer_ranges]
    dsimp only
    rw [flushRange_ranges, flushRange_ranges]
    exact ⟨look_put_same _ _ _ _, fun i hi => look_put_other _ _ _ hi⟩
  case refine_8 =>
    obtain ⟨hbusy, hgo⟩ := exec_cxlshare ht hb hl h0 h2 hr hr'
    refine ⟨hbusy, fun hl => ⟨_, hgo hl, ?_⟩⟩
    obtain ⟨_, _, _, _, he, -⟩ := answer_frame (w := w) (s := { s with hub := { s.hub with shared := sharedAfter s w } }) 0 0 0
    rw [he]
    exact ⟨rfl, fun g => mem_sharedAfter⟩
  case refine_9 =>
    obtain ⟨hbad, hgo⟩ := exec_linkcfg ht ha hz
    refine ⟨hbad, fun h => ⟨(hgo h).1, fun hs hb => ?_⟩⟩
    obtain ⟨hfirst, hlater, hwait⟩ := (hgo h).2 hs hb
    exact ⟨fun hc => ⟨_, hfirst hc, linked_answer w⟩, fun hc hu => ⟨_, hlater hc hu, relinked_answer w⟩, hwait⟩
  case refine_10 =>
    obtain ⟨hbad, hgo⟩ := exec_donq ht
    refine ⟨hbad, fun h1 h2 => ⟨(hgo h1 h2).1, fun hf hb => ⟨_, (hgo h1 h2).2 hf hb, ?_⟩⟩⟩
    obtain ⟨_, _, _, _, he, -⟩ := answer_frame (w := w) (s := { s with hub := { s.hub with
      donqs := put s.hub.donqs (cmdOp w 0).toNat { cap := (cmdOp w 1).toNat, base := cmdOp w 2, frames := [] } } }) 0 0 0
    rw [he]
    exact look_put_same _ _ _ _
  case refine_11 =>
    obtain ⟨hgood, hbad⟩ := exec_svcload ht ha h0 h2
    exact svcload_answer hgood hbad

end

section
/-! LAUNCH and the system copy channels (13 R354, R359 to R365; 19 R438, R439). -/

namespace Sys2Proof.Machine

variable {s t u : State} {w : Row} {c h k n : Nat} {root : Word}

/-! ### The set-up of a hamlet's cores (R270, R359) -/

/-- A core's contexts take a launch's table root. -/
def State.rootCtxs (t : State) (c : Nat) (root : Word) (ks : List Nat) : State :=
  ks.foldl (fun t k => t.setCtx c k { t.ctx c k with tblroot := root }) t

/-- A core takes on a launch: its accumulator banks hold zeros, its contexts the launch's table root. -/
def State.startCore (t : State) (c : Nat) (root : Word) : State :=
  (t.setMill c { (t.core c).mill with
    bank0 := []
    bank1 := [] }).rootCtxs c root (List.range 5)

theorem rootCtxs_spec (ks : List Nat) (t : State) : let u := t.rootCtxs c root ks
    (∃ cores, u = { t with cores := cores }) ∧ (∀ e, e ≠ c → u.core e = t.core e) ∧ (u.core c).deques = (t.core c).deques ∧
    (u.core c).mill = (t.core c).mill ∧ (∀ k, (u.ctx c k).status = (t.ctx c k).status) ∧
    (∀ k, (u.ctx c k).tblroot = if k ∈ ks then root else (t.ctx c k).tblroot) := by
  induction ks generalizing t with
  | nil => exact ⟨⟨t.cores, rfl⟩, fun _ _ => rfl, rfl, rfl, fun _ => rfl, fun _ => rfl⟩
  | cons j ks ih =>
    obtain ⟨⟨cs, h1⟩, h2, h3, h4, h5, h6⟩ := ih (t.setCtx c j { t.ctx c j with tblroot := root })
    have hc : (t.setCtx c j { t.ctx c j with tblroot := root }).core c =
        { t.core c with ctxs := put (t.core c).ctxs j { t.ctx c j with tblroot := root } } := setCore_core_same _ _ _
    refine ⟨⟨cs, h1⟩, fun e he => (h2 e he).trans (setCore_core_other _ _ _ he), h3.trans (by rw [hc]), h4.trans (by rw [hc]), fun k => (h5 k).trans ?_,
      fun k => (h6 k).trans ?_⟩
    · by_cases hk : k = j
      · rw [hk, setCtx_ctx_same]
      · rw [State.ctx, hc]
        exact congrArg Ctx.status (look_put_other _ _ _ hk)
    · by_cases hk : k = j
      · rw [hk, setCtx_ctx_same, if_pos List.mem_cons_self, ite_self]
      · have hx : (t.setCtx c j { t.ctx c j with tblroot := root }).ctx c k = t.ctx c k := by
          rw [State.ctx, hc]
          exact look_put_other _ _ _ hk
        rw [hx]
        simp only [List.mem_cons, hk, false_or]

theorem startCore_spec (t : State) : let u := t.startCore c root
    (∃ cores, u = { t with cores := cores }) ∧ (∀ e, e ≠ c → u.core e = t.core e) ∧ (u.core c).deques = (t.core c).deques ∧
    (u.core c).mill.bank0 = [] ∧ (u.core c).mill.bank1 = [] ∧ (∀ k, (u.ctx c k).status = (t.ctx c k).status) ∧
    (∀ k, k < 5 → (u.ctx c k).tblroot = root) := by
  obtain ⟨⟨cs, h1⟩, h2, h3, h4, h5, h6⟩ := rootCtxs_spec (c := c) (root := root) (List.range 5) (t.setMill c { (t.core c).mill with
    bank0 := []
    bank1 := [] })
  have hc : (t.setMill c { (t.core c).mill with
      bank0 := []
      bank1 := [] }).core c = { t.core c with mill := { (t.core c).mill with
        bank0 := []
        bank1 := [] } } := setCore_core_same _ _ _
  refine ⟨⟨cs, h1⟩, fun e he => (h2 e he).trans (setCore_core_other _ _ _ he), h3.trans (by rw [hc]), by rw [State.startCore, h4, hc], by rw [State.startCore, h4, hc], fun k => (h5 k).trans ?_,
    fun k hk => (h6 k).trans (if_pos (List.mem_range.2 hk))⟩
  rw [State.ctx, hc]
  rfl

/-- What the set-up of some of a hamlet's cores has done. -/
structure State.CoresSet (s t : State) (h : Nat) (root : Word) (is : List Nat) : Prop where
  eq : ∃ cores, t = { s with cores := cores }
  deques : ∀ e, (t.core e).deques = (s.core e).deques
  status : ∀ e k, (t.ctx e k).status = (s.ctx e k).status
  other : ∀ e, (∀ i ∈ is, e ≠ 8 * h + i) → t.core e = s.core e
  banks : ∀ i ∈ is, (t.core (8 * h + i)).mill.bank0 = [] ∧ (t.core (8 * h + i)).mill.bank1 = []
  roots : ∀ i ∈ is, ∀ k, k < 5 → (t.ctx (8 * h + i) k).tblroot = root

theorem foldl_startCore (h : Nat) (root : Word) (is : List Nat) (s : State) :
    s.CoresSet (is.foldl (fun t i => t.startCore (8 * h + i) root) s) h root is := by
  induction is generalizing s with
  | nil => exact ⟨⟨s.cores, rfl⟩, fun _ => rfl, fun _ _ => rfl, fun _ _ => rfl, fun _ hi => absurd hi List.not_mem_nil,
      fun _ hi => absurd hi List.not_mem_nil⟩
  | cons j is ih =>
    obtain ⟨⟨cs, h1⟩, h2, h3, h4, h5, h6, h7⟩ := startCore_spec (c := 8 * h + j) (root := root) s
    obtain ⟨⟨cs', g1⟩, g2, g3, g4, g5, g6⟩ := ih (s.startCore (8 * h + j) root)
    have hctx : ∀ e k, ((s.startCore (8 * h + j) root).ctx e k).status = (s.ctx e k).status := by
      intro e k
      by_cases he : e = 8 * h + j
      · rw [he]
        exact h6 k
      · rw [State.ctx, h2 e he, State.ctx]
    refine ⟨⟨cs', by rw [List.foldl_cons, g1, h1]⟩, fun e => (g2 e).trans ?_, fun e k => (g3 e k).trans (hctx e k), fun e he => ?_,
      fun i hi => ?_, fun i hi => ?_⟩
    · by_cases he : e = 8 * h + j
      · rw [he]
        exact h3
      · rw [h2 e he]
    · exact (g4 e fun i hi => he i (List.mem_cons_of_mem _ hi)).trans (h2 e (he j List.mem_cons_self))
    · by_cases hin : i ∈ is
      · exact g5 i hin
      · obtain rfl : i = j := (List.mem_cons.1 hi).resolve_right hin
        rw [List.foldl_cons, g4 _ fun i' hi' he => hin (by rwa [show i = i' by omega])]
        exact ⟨h4, h5⟩
    · by_cases hin : i ∈ is
      · exact g6 i hin
      · obtain rfl : i = j := (List.mem_cons.1 hi).resolve_right hin
        intro k hk
        rw [List.foldl_cons, State.ctx, g4 _ fun i' hi' he => hin (by rwa [show i = i' by omega])]
        exact h7 k hk

/-! ### The set-up of a launch's hamlets (R359 to R362) -/

/-- A hamlet's record as its launch sets it up. -/
def State.launchHam (s : State) (l : LaunchRec) (seq : Word) (h : Nat) : Hamlet :=
  { s.ham h with
    seq := some seq
    marks := {}
    stealMask := s.stealBits h
    sent := 0
    received := 0
    extra := 0
    pealcfg := s.pealWord l.peal h
    barriers := []
    area := some (overflowPlace h)
    winLines := []
    windows := (l.wins.filter fun w => fld w 7 0 = h).map fun w => { desc := w }
    channels := (l.chans.filter fun c => fld c 7 0 = h).foldl (fun m c => put m (fld c 11 8) (chanOf c)) []
    nodes := (l.reds.filter fun e => hamOf (redCore e) = h).foldl
      (fun m e => put m (8 * redGroup e + redCore e % 8) (entryNode e)) [] }

theorem startHamlet_eq (l : LaunchRec) (seq : Word) : s.startHamlet l seq h =
    (List.range 8).foldl (fun t i => t.startCore (8 * h + i) (lrAddr l.rec' 192)) (s.setHam h (s.launchHam l seq h)) := rfl

theorem stealBits_deques (hd : ∀ e, (t.core e).deques = (s.core e).deques) : t.stealBits h = s.stealBits h := by
  unfold State.stealBits Core.published
  simp only [hd]

/-- What the set-up of some hamlets has done. -/
structure State.HamsSet (s t : State) (l : LaunchRec) (seq : Word) (hs : List Nat) : Prop where
  eq : ∃ cores hams, t = { s with
    cores := cores
    hamlets := hams }
  deques : ∀ e, (t.core e).deques = (s.core e).deques
  status : ∀ e k, (t.ctx e k).status = (s.ctx e k).status
  other : ∀ e, hamOf e ∉ hs → t.core e = s.core e
  kept : ∀ h, h ∉ hs → t.ham h = s.ham h
  ham : ∀ h ∈ hs, t.ham h = s.launchHam l seq h
  banks : ∀ h ∈ hs, ∀ i, i < 8 → (t.core (8 * h + i)).mill.bank0 = [] ∧ (t.core (8 * h + i)).mill.bank1 = []
  roots : ∀ h ∈ hs, ∀ i, i < 8 → ∀ k, k < 5 → (t.ctx (8 * h + i) k).tblroot = lrAddr l.rec' 192

theorem coresHams_trans {s t u : State} (h1 : ∃ cores hams, t = { s with
      cores := cores
      hamlets := hams }) (h2 : ∃ cores hams, u = { t with
      cores := cores
      hamlets := hams }) : ∃ cores hams, u = { s with
        cores := cores
        hamlets := hams } := by
  obtain ⟨_, _, rfl⟩ := h1
  obtain ⟨_, _, rfl⟩ := h2
  exact ⟨_, _, rfl⟩

theorem startHamlet_spec (s : State) (l : LaunchRec) (seq : Word) (h : Nat) : s.HamsSet (s.startHamlet l seq h) l seq [h] := by
  obtain ⟨⟨cs, h1⟩, h2, h3, h4, h5, h6⟩ := foldl_startCore h (lrAddr l.rec' 192) (List.range 8) (s.setHam h (s.launchHam l seq h))
  rw [← startHamlet_eq] at h1 h2 h3 h4 h5 h6
  have hham : ∀ g, (s.startHamlet l seq h).ham g = (s.setHam h (s.launchHam l seq h)).ham g := fun g => by
    rw [h1]
    rfl
  refine ⟨⟨cs, _, h1⟩, h2, h3, fun e he => h4 e fun i hi hei => he ?_, fun g hg => (hham g).trans (setHam_ham_other _ _ _ fun hgh => hg (by simp [hgh])),
    fun g hg => ?_, fun g hg i hi => ?_, fun g hg i hi => ?_⟩
  · have := List.mem_range.1 hi
    rw [List.mem_singleton, hei, hamOf]
    omega
  · rw [List.mem_singleton.1 hg]
    exact (hham h).trans (setHam_ham_same _ _ _)
  · rw [List.mem_singleton.1 hg]
    exact h5 i (List.mem_range.2 hi)
  · rw [List.mem_singleton.1 hg]
    exact h6 i (List.mem_range.2 hi)

theorem hamOf_core {i : Nat} (hi : i < 8) : hamOf (8 * h + i) = h := by
  unfold hamOf
  omega

theorem launchHam_congr (l : LaunchRec) (seq : Word) (hd : ∀ e, (t.core e).deques = (s.core e).deques) (hh : t.ham h = s.ham h)
    (hb : t.hub = s.hub) : t.launchHam l seq h = s.launchHam l seq h := by
  unfold State.launchHam State.pealWord
  rw [stealBits_deques hd, hh, hb]

theorem foldl_startHamlet (l : LaunchRec) (seq : Word) (hs : List Nat) (hn : hs.Nodup) (s : State) :
    s.HamsSet (hs.foldl (fun t h => t.startHamlet l seq h) s) l seq hs := by
  induction hs generalizing s with
  | nil => exact ⟨⟨_, _, rfl⟩, fun _ => rfl, fun _ _ => rfl, fun _ _ => rfl, fun _ _ => rfl, fun _ h => absurd h List.not_mem_nil,
      fun _ h => absurd h List.not_mem_nil, fun _ h => absurd h List.not_mem_nil⟩
  | cons j hs ih =>
    obtain ⟨hj, hn⟩ := List.nodup_cons.1 hn
    obtain ⟨h1, h2, h3, h4, h5, h6, h7, h8⟩ := startHamlet_spec s l seq j
    obtain ⟨g1, g2, g3, g4, g5, g6, g7, g8⟩ := ih hn (s.startHamlet l seq j)
    have hhub : (s.startHamlet l seq j).hub = s.hub := by
      obtain ⟨_, _, h1⟩ := h1
      rw [h1]
    have hne : ∀ h ∈ hs, h ∉ [j] := fun h hh hhj => hj (by rwa [← List.mem_singleton.1 hhj])
    rw [List.foldl_cons]
    refine ⟨coresHams_trans h1 g1, fun e => (g2 e).trans (h2 e), fun e k => (g3 e k).trans (h3 e k), fun e he => ?_, fun h hh => ?_,
      fun h hh => ?_, fun h hh i hi => ?_, fun h hh i hi k hk => ?_⟩
    · obtain ⟨hej, hes⟩ := not_or.1 (mt List.mem_cons.2 he)
      exact (g4 e hes).trans (h4 e fun hx => hej (List.mem_singleton.1 hx))
    · obtain ⟨hej, hes⟩ := not_or.1 (mt List.mem_cons.2 hh)
      exact (g5 h hes).trans (h5 h fun hx => hej (List.mem_singleton.1 hx))
    · rcases List.mem_cons.1 hh with rfl | hh
      · exact (g5 h hj).trans (h6 h (List.mem_singleton_self h))
      · exact (g6 h hh).trans (launchHam_congr l seq h2 (h5 h (hne h hh)) hhub)
    · rcases List.mem_cons.1 hh with rfl | hh
      · rw [g4 _ (by rwa [hamOf_core hi])]
        exact h7 h (List.mem_singleton_self h) i hi
      · exact g7 h hh i hi
    · rcases List.mem_cons.1 hh with rfl | hh
      · rw [State.ctx, g4 _ (by rwa [hamOf_core hi])]
        exact h8 h (List.mem_singleton_self h) i hi k hk
      · exact g8 h hh i hi k hk

/-! ### LAUNCH (R359 to R363) -/

/-- Acts that become due change nothing but the list of them. -/
theorem foldl_foldl_owe (f : Nat → Nat → Instr) (hs is : List Nat) (s : State) :
    ∃ l, hs.foldl (fun t h => is.foldl (fun t i => t.owe (f h i)) t) s = { s with agenda := s.agenda ++ l } := by
  have hin : ∀ (h : Nat) (is : List Nat) (s : State), ∃ l, is.foldl (fun t i => t.owe (f h i)) s = { s with agenda := s.agenda ++ l } := by
    intro h is
    induction is with
    | nil => exact fun s => ⟨[], by simp⟩
    | cons i is ih =>
      intro s
      obtain ⟨l, hl⟩ := ih (s.owe (f h i))
      exact ⟨f h i :: l, by rw [List.foldl_cons, hl, State.owe, List.append_assoc]; rfl⟩
  induction hs generalizing s with
  | nil => exact ⟨[], by simp⟩
  | cons h hs ih =>
    obtain ⟨l, hl⟩ := hin h is s
    obtain ⟨l', hl'⟩ := ih { s with agenda := s.agenda ++ l }
    exact ⟨l ++ l', by rw [List.foldl_cons, hl, hl', ← List.append_assoc]⟩

theorem set_nodup (l : LaunchRec) : l.set.Nodup := List.nodup_range.filter _

theorem mem_set (l : LaunchRec) (hh : h < 256) (hb : (lrHamlets l.rec').getLsbD h = true) : h ∈ l.set :=
  List.mem_filter.2 ⟨List.mem_range.2 hh, hb⟩

/-- A declared channel is empty. -/
theorem channels_empty (es : List Word) (m : Map Chan) (hm : ∀ n c, find m n = some c → c.head = 0 ∧ c.count = 0) (n : Nat) (c : Chan)
    (hf : find (es.foldl (fun m c => put m (fld c 11 8) (chanOf c)) m) n = some c) : c.head = 0 ∧ c.count = 0 := by
  induction es generalizing m with
  | nil => exact hm n c hf
  | cons e es ih =>
    refine ih (put m (fld e 11 8) (chanOf e)) (fun j x hx => ?_) hf
    by_cases hj : j = fld e 11 8
    · rw [hj, find_put_same, Option.some.injEq] at hx
      rw [← hx]
      exact ⟨rfl, rfl⟩
    · rw [find_put_other _ _ hj] at hx
      exact hm j x hx

/-- The state in which a launch's hamlets are set up. -/
def State.launchBase (s : State) (l : LaunchRec) (seq : Word) : State :=
  { s with
    launches := s.launches ++ [l.launch seq]
    roots := s.roots.filter fun (r : Nat × BarRoot) => r.1 / 20 ≠ seq.toNat
    full := s.full.filter fun w => !wordOfLaunch l.set (4 * lrStash l.rec' * 1024) w }

/-- A launch's state: its set of hamlets is set up, it is the last of those that run, and its first act is its frames' walk. -/
theorem startLaunch_spec (s : State) (l : LaunchRec) (seq : Word) : ∃ t, (s.launchBase l seq).HamsSet t l seq l.set ∧
    ∃ ag, s.startLaunch l seq = { t with agenda := .rootFrameWalk seq.toNat :: ag } := by
  obtain ⟨t, ht⟩ : ∃ t, t = l.set.foldl (fun t h => t.startHamlet l seq h) (s.launchBase l seq) := ⟨_, rfl⟩
  obtain ⟨ag, ha⟩ := foldl_foldl_owe (fun h i => .frameTake (Fin.ofNat 2048 (8 * h + i)) 0) l.set (List.range 8)
    { t with agenda := .rootFrameWalk seq.toNat :: t.agenda }
  refine ⟨t, ht ▸ foldl_startHamlet l seq l.set (set_nodup l) _, t.agenda ++ ag, Eq.trans ?_ ha⟩
  rw [ht]
  rfl

theorem exec_launch_refused {st : BitVec 8} (ht : s.takes w false = true) (h : s.launchBad w = some st) :
    exec (.launch w) s = .next (s.answer w st 0 0) := by
  show execLaunch w s = _
  unfold execLaunch
  rw [hubCommand_taken ht, h]

theorem exec_launch_started (ht : s.takes w false = true) (h : s.launchBad w = none) :
    exec (.launch w) s = .next (s.startLaunch (s.loadRec (cmdArg w).toNat) (cmdSeq w)).takeSlot := by
  show execLaunch w s = _
  unfold execLaunch
  rw [hubCommand_taken ht, h]

theorem launch_frames (l : LaunchRec) (seq : Word) : ((l.launch seq).frames.map fun r => (r.frame, r.waiting)) =
    l.frames.map (fun e => ({ frameOf (e.extractLsb' 0 512) with root := true }, false)) := by
  show ((l.frames.map entryRooted).map _) = _
  rw [List.map_map]
  rfl

/-- LAUNCH of a record in order (R359 to R363). -/
theorem launch_starts (ht : s.takes w false = true) (hb : s.launchBad w = none) : let l := s.loadRec (w.extractLsb' 128 64).toNat
    ∃ t m, exec (.launch w) s = .next t ∧ t.hub.cmdPos = s.hub.cmdPos + 1 ∧ t.hub.owed = s.hub.owed ∧
      t.launches = s.launches ++ [m] ∧ m.seq = w.extractLsb' 64 64 ∧ m.hamlets = lrHamlets l.rec' ∧
      m.nframes = lrNframes l.rec' ∧ m.total = 0 ∧ (m.frames.map fun r => (r.frame, r.waiting)) =
        l.frames.map (fun e => ({ frameOf (e.extractLsb' 0 512) with root := true }, false)) ∧
      t.agenda.head? = some (.rootFrameWalk m.seq.toNat) ∧
      ∀ h, h < 256 → m.hamlets.getLsbD h = true → let x := t.ham h
        x.seq = some m.seq ∧ x.marks = {} ∧ x.sent = 0 ∧ x.received = 0 ∧ x.barriers = [] ∧ x.stealMask = s.stealBits h ∧
        x.area = some ((Config.overflowBase % (2 ^ 19 - 256) + h) * 2 ^ 20) ∧
        (∀ n c, find x.channels n = some c → c.head = 0 ∧ c.count = 0) ∧
        (x.windows.map Window.desc) = (l.wins.filter fun d => fld d 7 0 = h) ∧
        (∀ i, i < 8 → (t.core (8 * h + i)).mill.bank0 = [] ∧ (t.core (8 * h + i)).mill.bank1 = []) ∧
        (∀ i, i < 8 → ∀ k, k < 5 → (t.ctx (8 * h + i) k).tblroot = l.rec'.extractLsb' 192 64 ∧
          (t.ctx (8 * h + i) k).status = (s.ctx (8 * h + i) k).status) := by
  intro l
  obtain ⟨t, ⟨⟨cs, ms, h1⟩, -, h3, -, -, h6, h7, h8⟩, ag, ha⟩ := startLaunch_spec s l (cmdSeq w)
  have hth : t.hub = s.hub := by rw [h1]; rfl
  have htl : t.launches = s.launches ++ [l.launch (cmdSeq w)] := by rw [h1]; rfl
  refine ⟨_, l.launch (cmdSeq w), exec_launch_started ht hb, ?_⟩
  rw [show s.startLaunch (s.loadRec (cmdArg w).toNat) (cmdSeq w) = _ from ha]
  refine ⟨by rw [← hth]; rfl, by rw [← hth]; rfl, htl, rfl, rfl, rfl, rfl, launch_frames l _, rfl, fun h hh hset => ?_⟩
  have hmem : h ∈ l.set := mem_set l hh hset
  have hx : t.ham h = (s.launchBase l (cmdSeq w)).launchHam l (cmdSeq w) h := h6 h hmem
  have hst : ∀ i k, (t.ctx (8 * h + i) k).status = (s.ctx (8 * h + i) k).status := fun i k => by
    rw [h3]
    rfl
  refine And.intro (?_ : (t.ham h).seq = _) (And.intro (?_ : (t.ham h).marks = _) (And.intro (?_ : (t.ham h).sent = _)
    (And.intro (?_ : (t.ham h).received = _) (And.intro (?_ : (t.ham h).barriers = _) (And.intro (?_ : (t.ham h).stealMask = _)
    (And.intro (?_ : (t.ham h).area = _) (And.intro (?_ : ∀ n c, find (t.ham h).channels n = some c → _)
    (And.intro (?_ : (t.ham h).windows.map _ = _) ⟨h7 h hmem, fun i hi k hk => ⟨h8 h hmem i hi k hk, hst i k⟩⟩))))))))
  · rw [hx]
    rfl
  · rw [hx]
    rfl
  · rw [hx]
    rfl
  · rw [hx]
    rfl
  · rw [hx]
    rfl
  · rw [hx]
    exact stealBits_deques (h := h) (s := s) (t := s.launchBase l (cmdSeq w)) fun _ => rfl
  · rw [hx]
    rfl
  · rw [hx]
    exact channels_empty _ [] (fun n c hf => absurd hf (by simp [find]))
  · rw [hx]
    show ((l.wins.filter fun w => fld w 7 0 = h).map fun w => ({ desc := w } : Window)).map Window.desc = _
    rw [List.map_map]
    exact List.map_id' _

end Sys2Proof.Machine
end

section
/-! The system copy channels (13 R365, 19 R438, R439). -/

namespace Sys2Proof.Machine

variable {s t u : State} {w : Row} {n k : Nat} {r : Row}

/-! ### What an answer leaves owed -/

theorem leaves_keeps {i : Instr} {p : BitVec 20} (h : i ∈ s.agenda) : i ∈ (s.leaves p n).agenda := by
  unfold State.leaves State.sendFlit
  refine oweOnce_keeps ?_
  dsimp only
  split <;> exact h

theorem numbered_keeps {i : Instr} {p : BitVec 20} (h : i ∈ s.agenda) : i ∈ (s.numbered p n).agenda := by
  unfold State.numbered
  split
  · exact oweOnce_keeps h
  · split
    · exact h
    · exact leaves_keeps h

theorem foldl_numbered_keeps {i : Instr} (l : List (BitVec 20 × Nat)) (s : State) (h : i ∈ s.agenda) :
    i ∈ (l.foldl (fun t q => t.numbered q.1 q.2) s).agenda := by
  induction l generalizing s with
  | nil => exact h
  | cons q l ih => exact ih _ (numbered_keeps h)

theorem answer_keeps {i : Instr} (st : BitVec 8) (info : Nat) (word : Word) (h : i ∈ s.agenda) : i ∈ (s.answer w st info word).agenda := by
  rw [answer_eq]
  refine oweOnce_keeps ?_
  show i ∈ s.unheld.agenda
  unfold State.unheld
  split
  · exact foldl_numbered_keeps _ _ h
  · exact h

theorem answer_chan (st : BitVec 8) (info : Nat) (word : Word) (n : Nat) : (s.answer w st info word).chan n = s.chan n := by
  obtain ⟨_, _, _, _, he, -⟩ := answer_frame (s := s) (w := w) st info word
  rw [he]
  rfl

/-! ### A channel's record and what is owed -/

@[simp] theorem setSysChan_chan (c : SysChan) : (s.setSysChan n c).chan n = c := look_put_same _ _ _ _

@[simp] theorem oweOnce_chan (i : Instr) : (s.oweOnce i).chan n = s.chan n := by
  unfold State.oweOnce
  split <;> rfl

@[simp] theorem oweChan_chan : (s.oweChan k).chan n = s.chan n := oweOnce_chan _

@[simp] theorem oweStage_chan : (s.oweStage k).chan n = s.chan n := oweOnce_chan _

theorem oweOnce_keepsMem (i : Instr) : (s.oweOnce i).mem = s.mem := by
  unfold State.oweOnce
  split <;> rfl

theorem fin16_ofNat (ch : Fin 16) : Fin.ofNat 16 ch.val = ch := Fin.ext (Nat.mod_eq_of_lt ch.isLt)

theorem oweStage_owed (ch : Fin 16) : .syscopyStageAck ch ∈ (s.oweStage ch.val).agenda := by
  rw [State.oweStage, fin16_ofNat]
  exact oweOnce_owed _

theorem oweChan_owed (ch : Fin 16) : .syscopyRecord ch ∈ (s.oweChan ch.val).agenda := by
  rw [State.oweChan, fin16_ofNat]
  exact oweOnce_owed _

/-! ### SYSCOPY (R365) -/

/-- What SYSCOPY does with its channel, its head and the channel's record in hand. -/
theorem exec_syscopy (ht : s.takes w false = true) (hn : (cmdOp w 0).toNat < 16) (ha : aligned (cmdOp w 1) 64 = true) :
    let c := s.chan (cmdOp w 0).toNat
    (c.state = 1 → exec (.syscopy w) s = .next (s.answer w 0x04 0 0)) ∧
    (c.state ≠ 1 → cmdOp w 1 = 0 → c.state = 2 → exec (.syscopy w) s =
      .next (((s.setSysChan (cmdOp w 0).toNat { cur := c.cur, done := c.done, state := 1 }).oweChan (cmdOp w 0).toNat).answer w 0 0 0)) ∧
    (c.state ≠ 1 → cmdOp w 1 = 0 → c.state ≠ 2 → exec (.syscopy w) s = .next (s.answer w 0x03 0 0)) ∧
    (c.state ≠ 1 → cmdOp w 1 ≠ 0 → s.backed (cmdOp w 1) 64 = true → exec (.syscopy w) s =
      .next (((s.setSysChan (cmdOp w 0).toNat { cur := cmdOp w 1, state := 1 }).oweChan (cmdOp w 0).toNat).answer w 0 0 0)) := by
  intro c
  have hgo : ¬ ((decide (16 ≤ (cmdOp w 0).toNat) || !aligned (cmdOp w 1) 64) = true) := by
    simp [ha, Nat.not_le.2 hn]
  refine ⟨fun h1 => ?_, fun h1 h0 h2 => ?_, fun h1 h0 h2 => ?_, fun h1 h0 hb => ?_⟩ <;> show execSyscopy w s = _ <;> unfold execSyscopy
  · exact hubCommand_ended ht ((if_neg hgo).trans (if_pos h1))
  · exact hubCommand_ok ht ((if_neg hgo).trans ((if_neg h1).trans ((if_pos h0).trans (if_pos h2))))
  · exact hubCommand_ended ht ((if_neg hgo).trans ((if_neg h1).trans ((if_pos h0).trans (if_neg h2))))
  · exact hubCommand_ok ht ((if_neg hgo).trans ((if_neg h1).trans ((if_neg h0).trans (if_neg (by simp [hb])))))

/-- A channel that SYSCOPY starts runs, and its first step is owed. -/
theorem syscopy_started (c : SysChan) : let t := ((s.setSysChan n c).oweChan n).answer w 0 0 0
    t.chan n = c ∧ .syscopyRecord (Fin.ofNat 16 n) ∈ t.agenda :=
  ⟨by rw [answer_chan, oweChan_chan, setSysChan_chan], answer_keeps _ _ _ (oweOnce_owed _)⟩

/-! ### The end of a record (R365) -/

theorem finishRecord_spec (n : Nat) (r : Row) (st : Byte) : let t := s.homePut (s.chan n).cur.toNat [(0, r.extractLsb' 0 8 &&& 0xFE), (1, st)]
    let v := s.finishRecord n r st
    v.mem = t.mem ∧ v.hub.irqs = t.hub.irqs ++ (if r.getLsbD 1 then [16 + n] else []) ∧
    v.chan n = if r.extractLsb' 64 64 = 0 then {} else { cur := r.extractLsb' 64 64, state := 1 } := by
  intro t
  have hirq : ∃ u : State, u.mem = t.mem ∧ u.hub.irqs = t.hub.irqs ++ (if r.getLsbD 1 then [16 + n] else []) ∧
      s.finishRecord n r st = if r.extractLsb' 64 64 = 0 then u.setSysChan n {}
        else (u.setSysChan n { cur := r.extractLsb' 64 64, state := 1 }).oweChan n := by
    refine ⟨if recIrq r then t.irq (16 + n) else t, ?_, ?_, rfl⟩
    · split <;> rfl
    · unfold recIrq
      split
      · rfl
      · exact (List.append_nil _).symm
  obtain ⟨u, h1, h2, h3⟩ := hirq
  rw [← h1, ← h2]
  intro v
  rw [show v = _ from h3]
  split
  · exact ⟨rfl, rfl, setSysChan_chan _⟩
  · refine ⟨oweOnce_keepsMem _, ?_, (oweChan_chan ..).trans (setSysChan_chan _)⟩
    rw [State.oweChan, oweOnce_hub]
    rfl

/-! ### The next stage (R365, R438) -/

/-- A stage between places of the own package is neither cut off nor unbacked. -/
theorem stage_goes {x1 x2 b1 b2 u1 u2 : Bool} (h1 : x1 = false) (h2 : x2 = false) (hu1 : u1 = false) (hu2 : u2 = false) :
    ¬ ((x1 && b1 || x2 && b2 || !x1 && u1 || !x2 && u2) = true) := by
  subst h1 h2 hu1 hu2
  simp

theorem stage_room {x1 x2 b1 b2 : Bool} (h1 : x1 = false) (h2 : x2 = false) : ¬ ((x1 && b1 || x2 && b2) = true) := by
  subst h1 h2
  simp

/-- The state in which a channel's next stage may begin: its record is backed, and no line that it uses waits. -/
theorem nextStage_ready (hr : s.region (s.chan n).cur.toNat ≠ .unbacked)
    (hp : ∀ l ∈ s.stageParts n, s.cxlStuck l = false ∧ s.fencedAt l = false) :
    let r : Row := rowOf (s.homeRead (s.chan n).cur.toNat 64)
    (r.getLsbD 0 = false → s.nextStage n = s.setSysChan n { s.chan n with state := 2 }) ∧
    (r.getLsbD 0 = true → recReserved r = true → s.nextStage n = s.finishRecord n r 0x01) ∧
    (r.getLsbD 0 = true → recReserved r = false → recInvalid r = true → s.nextStage n = s.finishRecord n r 0x03) ∧
    (r.getLsbD 0 = true → recReserved r = false → recInvalid r = false →
      (recLen r ≤ (s.chan n).done.toNat → s.nextStage n = s.finishRecord n r 0x00) ∧
      (let len := min stageBytes (recLen r - (s.chan n).done.toNat)
       let d := recDesc r (s.chan n).done.toNat len
       ¬ recLen r ≤ (s.chan n).done.toNat → sysPkg (recSrc r) = s.pkgid → sysPkg (recDst r) = s.pkgid →
        s.unbackedRange (copySrc d).toNat len = false → s.unbackedRange (copyDst d).toNat (copyDstLen (recForm r) d) = false →
        s.nextStage n = s.readStage n r len)) := by
  have hst : (s.stageParts n).find? s.cxlStuck = none := List.find?_eq_none.2 fun l hl => by simp [(hp l hl).1]
  have hfe : (s.stageParts n).any s.fencedAt = false := List.any_eq_false.2 fun l hl => by simp [(hp l hl).2]
  intro r
  have h1 : ¬ ((decide (s.region (s.chan n).cur.toNat = .unbacked)
      || decide ((((s.stageParts n).find? s.cxlStuck).bind fun l => (s.cxlPort l).map s.hub.cxlDown.contains) = some true)) = true) := by
    simp [hst, hr]
  have h2 : ¬ ((((s.stageParts n).find? s.cxlStuck).isSome || (s.stageParts n).any s.fencedAt) = true) := by
    simp [hst, hfe]
  have hown : r.getLsbD 0 = true → ¬ ((!recOwn r) = true) := fun h => by
    rw [show recOwn r = true from h]
    decide
  have hnoown : r.getLsbD 0 = false → (!recOwn r) = true := fun h => by
    rw [show recOwn r = false from h]
    decide
  refine ⟨fun ho => ?_, fun ho hres => ?_, fun ho hres hinv => ?_, fun ho hres hinv => ⟨fun hle => ?_, ?_⟩⟩
  · exact (if_neg h1).trans ((if_neg h2).trans (if_pos (hnoown ho)))
  · exact (if_neg h1).trans ((if_neg h2).trans ((if_neg (hown ho)).trans (if_pos hres)))
  · exact (if_neg h1).trans ((if_neg h2).trans ((if_neg (hown ho)).trans ((if_neg (ne_true_of_eq_false hres)).trans (if_pos hinv))))
  · exact (if_neg h1).trans ((if_neg h2).trans ((if_neg (hown ho)).trans ((if_neg (ne_true_of_eq_false hres)).trans
      ((if_neg (ne_true_of_eq_false hinv)).trans (if_pos hle)))))
  · intro len d hle hsp hdp hus hud
    have hs0 : decide (sysPkg (recSrc r) ≠ s.pkgid) = false := decide_eq_false (not_not.2 hsp)
    have hd0 : decide (sysPkg (recDst r) ≠ s.pkgid) = false := decide_eq_false (not_not.2 hdp)
    refine (if_neg h1).trans ((if_neg h2).trans ((if_neg (hown ho)).trans ((if_neg (ne_true_of_eq_false hres)).trans
      ((if_neg (ne_true_of_eq_false hinv)).trans ((if_neg hle).trans ((if_neg ?_).trans (if_neg ?_)))))))
    · exact stage_goes hs0 hd0 hus hud
    · exact stage_room hs0 hd0

/-- Bits of a number that a wider field holds. -/
theorem mod_div_mod {x k m w : Nat} (h : k + m ≤ w) : x % 2 ^ w / 2 ^ k % 2 ^ m = x / 2 ^ k % 2 ^ m := by
  rw [show w = k + (w - k) by omega, Nat.pow_add, Nat.mod_mul_right_div_self]
  exact Nat.mod_mod_of_dvd _ (Nat.pow_dvd_pow 2 (by omega))

/-- Three numbers side by side. -/
theorem three_fields {a b c p q : Nat} (ha : a < p) (hb : b < p) (hc : c < q) :
    (a + b * p + c * (p * p)) % p = a ∧ (a + b * p + c * (p * p)) / p % p = b ∧ (a + b * p + c * (p * p)) / (p * p) % q = c := by
  have hp : 0 < p := by omega
  have e : a + b * p + c * (p * p) = a + p * (b + p * c) := by ring
  have h1 : (a + p * (b + p * c)) / p = b + p * c := by
    rw [Nat.add_mul_div_left _ _ hp, Nat.div_eq_of_lt ha, Nat.zero_add]
  refine ⟨?_, ?_, ?_⟩
  · rw [e, Nat.add_mul_mod_self_left, Nat.mod_eq_of_lt ha]
  · rw [e, h1, Nat.add_mul_mod_self_left, Nat.mod_eq_of_lt hb]
  · rw [e, ← Nat.div_div_eq_div_mul, h1, Nat.add_mul_div_left _ _ hp, Nat.div_eq_of_lt hb, Nat.zero_add, Nat.mod_eq_of_lt hc]

theorem extract_ofNat {x k m w : Nat} (h : k + m ≤ w) : ((BitVec.ofNat w x).extractLsb' k m).toNat = x / 2 ^ k % 2 ^ m := by
  rw [BitVec.extractLsb'_toNat, BitVec.toNat_ofNat, Nat.shiftRight_eq_div_pow, mod_div_mod h]

theorem fld_ofNat {x k j w : Nat} (h : k + (j + 1 - k) ≤ w) : fld (BitVec.ofNat w x) j k = x / 2 ^ k % 2 ^ (j + 1 - k) := by
  rw [fld, BitVec.toNat_ofNat, Nat.shiftRight_eq_div_pow, mod_div_mod h]

theorem fld_extract {m w k j i : Nat} (x : BitVec w) (h : j < m) (hi : i = k + j) : fld (x.extractLsb' k m) j 0 = fld x i k := by
  rw [fld, fld, BitVec.extractLsb'_toNat, Nat.shiftRight_zero, show i + 1 - k = j + 1 - 0 by omega]
  exact Nat.mod_mod_of_dvd _ (Nat.pow_dvd_pow 2 (by omega))

/-- The descriptor of a plain stage. -/
theorem recDesc_plain {off len : Nat} (hf : recFmt r = 0) (hs : fld r 173 128 + off < 2 ^ 64) (hd : fld r 301 256 + off < 2 ^ 64) (hl : len < 2 ^ 28) :
    let d := recDesc r off len
    (copySrc d).toNat = fld r 173 128 + off ∧ (copyDst d).toNat = fld r 301 256 + off ∧ copyLen d = len := by
  have hform : recForm r = .plain := if_pos hf
  have h1 : fld (recSrc r) 45 0 = fld r 173 128 := fld_extract r (by omega) rfl
  have h2 : fld (recDst r) 45 0 = fld r 301 256 := fld_extract r (by omega) rfl
  have hd' : recDesc r off len =
      BitVec.ofNat 256 ((fld r 173 128 + off) + (fld r 301 256 + off) * 2 ^ 64 + len * (2 ^ 64 * 2 ^ 64)) := by
    unfold recDesc
    rw [hform]
    dsimp only
    rw [if_pos rfl, if_pos rfl, h1, h2, Nat.mod_eq_of_lt hl, Nat.add_zero, ← Nat.pow_add]
  obtain ⟨e1, e2, e3⟩ := three_fields hs hd hl
  rw [hd']
  refine ⟨(extract_ofNat (by omega)).trans ?_, (extract_ofNat (by omega)).trans e2, (fld_ofNat (by omega)).trans ?_⟩
  · rw [Nat.pow_zero, Nat.div_one]
    exact e1
  · rw [show 128 = 64 + 64 from rfl, Nat.pow_add]
    exact e3

/-! ### A plain stage within lines (R365, R439) -/

theorem forwarded_self (hf : s.forwards = []) (pa : Nat) : s.forwarded pa = pa := by
  unfold State.forwarded
  rw [hf]
  rfl

theorem span_store {pa : Nat} {bs : List Byte} (full : Bool) (h : bs ≠ []) : (Body.store pa (offsets bs) full).span = bs.length :=
  span_offsets (p := .near pa) h

/-- The pieces of a plain stage within a line. -/
theorem stagePieces_one {d : BitVec 256} {len : Nat} (hl : copyLen d = len) (h0 : len ≠ 0) (hb : (copyDst d).toNat % 64 + len ≤ 64) :
    stagePieces .plain d len 520 0 = [{ src := copySrc d, n := len, dst := copyDst d, m := len, step := len, skip := 0 }] := by
  have hg := copyGeo_plain (d := d) (by omega)
  rw [hl] at hg
  have h2 : stagePieces .plain d len 519 (0 + max len 1) = [] := if_pos (by omega)
  refine (if_neg (by omega)).trans ?_
  dsimp only
  rw [hg]
  dsimp only
  rw [h2]

/-- A store of a stage at its home. -/
theorem chanPut_store {pa : Nat} {bs : List Byte} (n : Nat) (hf : s.forwards = []) (hbs : bs ≠ []) :
    s.chanPut n s.pkgid (.store pa (offsets bs) true) = ((s.homePut pa (offsets bs)).fillWords pa bs.length, []) := by
  refine (if_neg (not_not.2 rfl)).trans ?_
  dsimp only
  rw [forwarded_self hf]
  show ((s.homePut pa (offsets bs)).fillWords pa (Body.store pa (offsets bs) true).span, []) = _
  rw [span_store true hbs]

/-- A plain stage within a line is moved (R365): its bytes are written at its destination, and its end is awaited. -/
theorem moveStage_plain {len src dst : Nat} {bs : List Byte} (hf : recForm r = .plain)
    (hd : let d := recDesc r (s.chan n).done.toNat len
      (copySrc d).toNat = src ∧ (copyDst d).toNat = dst ∧ copyLen d = len)
    (h0 : len ≠ 0) (hb : dst % 64 + len ≤ 64) (hbs : bs.length = len) (hsp : sysPkg (recSrc r) = s.pkgid)
    (hdp : sysPkg (recDst r) = s.pkgid) (hfw : s.forwards = []) (hbad : s.bad = []) (htaint : s.tainted = []) :
    ∃ c : SysChan, c.staged = some len ∧ s.moveStage n r len bs =
      (((s.homePut dst (offsets bs)).fillWords dst len).setSysChan n c).oweStage n := by
  obtain ⟨h1, h2, h3⟩ := hd
  have hp := stagePieces_one h3 h0 (by omega)
  have hne : bs ≠ [] := fun h => h0 (by rw [← hbs, h]; rfl)
  have hput := chanPut_store (s := s) (pa := dst) n hfw hne
  rw [hbs, ← hdp] at hput
  refine ⟨{ ((s.homePut dst (offsets bs)).fillWords dst len).chan n with
    staged := some len
    fetch := []
    lost := []
    out := [] }, rfl, ?_⟩
  unfold State.moveStage
  rw [hf]
  dsimp only
  rw [hp]
  have hany : ∀ l : List (Nat × Nat), (l.any fun _ => false) = false := fun l => List.any_eq_false.2 fun _ _ => by decide
  simp only [List.foldl_cons, List.foldl_nil, if_pos hsp, listedLine_none hbad htaint, hany, Bool.false_eq_true, if_false, Nat.sub_self,
    List.drop_zero, List.take_of_length_le (Nat.le_of_eq hbs), h2, hput, reduceCtorEq, List.isEmpty_nil, if_true, List.append_nil]

/-- A stage whose source lies in the own package is read at its home, and moved. -/
theorem readStage_local {len src : Nat} (hsp : sysPkg (recSrc r) = s.pkgid) (hfw : s.forwards = []) (h0 : len ≠ 0)
    (hs : sysPa (recSrc r) + (s.chan n).done.toNat = src) (hl : src % 64 + len ≤ 64) (hlt : src < 2 ^ 64) :
    s.readStage n r len = s.moveStage n r len (s.homeRead src len) := by
  have hv : (BitVec.ofNat 64 src).toNat = src := by rw [BitVec.toNat_ofNat, Nat.mod_eq_of_lt hlt]
  have hp : lineParts (BitVec.ofNat 64 src) len = [(0, len)] := lineParts_one (by rw [hv]; exact hl) h0
  refine (if_pos hsp).trans ?_
  rw [hs, hp]
  simp only [List.flatMap_cons, List.flatMap_nil, List.append_nil, Nat.add_zero, forwarded_self hfw]

theorem unbackedRange_one {a : Word} {pa len : Nat} (ha : a.toNat = pa) (hl : pa % 64 + len ≤ 64) (h0 : len ≠ 0) (hr : s.region pa ≠ .unbacked) :
    s.unbackedRange a.toNat len = false := by
  have hv : BitVec.ofNat 64 a.toNat = a := BitVec.eq_of_toNat_eq (by simp)
  unfold State.unbackedRange
  rw [hv, lineParts_one (by omega) h0, ha]
  simp [hr]

/-- A running channel without a stage begins its next one. -/
theorem exec_syscopyRecord (ch : Fin 16) (hst : (s.chan ch.val).state = 1) (hf : (s.chan ch.val).failing = none) (hg : (s.chan ch.val).staged = none) :
    exec (.syscopyRecord ch) s = .next (s.nextStage ch.val) := by
  refine congrArg Host.Outcome.next ((if_neg ?_).trans ?_)
  · simp [hst, hf]
  · rw [hg]

theorem nextStage_unbacked (hr : s.region (s.chan n).cur.toNat = .unbacked) : s.nextStage n = s.abandon n :=
  if_pos (by simp [hr])

/-- A plain stage within lines of the own package (R365, R439). -/
theorem nextStage_plain (ch : Fin 16) (hr : s.region (s.chan ch.val).cur.toNat ≠ .unbacked)
    (hp : ∀ l ∈ s.stageParts ch.val, s.cxlStuck l = false ∧ s.fencedAt l = false) :
    let c := s.chan ch.val
    let r : Row := rowOf (s.homeRead c.cur.toNat 64)
    r.getLsbD 0 = true → recReserved r = false → recInvalid r = false → recFmt r = 0 →
      let n := fld r 415 384 - c.done.toNat
      let src := fld r 173 128 + c.done.toNat
      let dst := fld r 301 256 + c.done.toNat
      n ≠ 0 → src % 64 + n ≤ 64 → dst % 64 + n ≤ 64 → src + n ≤ 2 ^ 46 → dst + n ≤ 2 ^ 46 →
      sysPkg (recSrc r) = s.pkgid → sysPkg (recDst r) = s.pkgid → s.forwards = [] →
      s.region src ≠ .unbacked → s.region dst ≠ .unbacked → s.bad = [] → s.tainted = [] →
      let v := s.nextStage ch.val
      v.mem = ((s.homePut dst (offsets (s.homeRead src n))).fillWords dst n).mem ∧
        (v.chan ch.val).staged = some n ∧ .syscopyStageAck ch ∈ v.agenda := by
  intro c r ho hres hinv hf n src dst h0 hls hld hs46 hd46 hsp hdp hfw hrs hrd hbad htaint
  have hlen : min stageBytes (recLen r - c.done.toNat) = n := by
    show min 4096 n = n
    omega
  have hform : recForm r = .plain := if_pos hf
  have hsrc : src < 2 ^ 64 := by omega
  have hdst : dst < 2 ^ 64 := by omega
  have hdesc := recDesc_plain (r := r) (off := c.done.toNat) (len := n) hf hsrc hdst (by omega)
  obtain ⟨h1, h2, h3⟩ := hdesc
  have hgo := ((nextStage_ready hr hp).2.2.2 ho hres hinv).2 (by
    show ¬ fld r 415 384 ≤ c.done.toNat
    omega) hsp hdp
  rw [show min stageBytes (recLen (rowOf (s.homeRead (s.chan ch.val).cur.toNat 64)) - (s.chan ch.val).done.toNat) = n from hlen] at hgo
  have hstep := hgo (unbackedRange_one h1 hls h0 hrs) (by
    rw [show copyDstLen (recForm (rowOf (s.homeRead (s.chan ch.val).cur.toNat 64))) _ = n from (congrArg (copyDstLen · _) hform).trans h3]
    exact unbackedRange_one h2 hld h0 hrd)
  have hpa : sysPa (recSrc r) + c.done.toNat = src := congrArg (· + c.done.toNat) (fld_extract r (by omega) rfl)
  rw [readStage_local hsp hfw h0 hpa hls hsrc] at hstep
  obtain ⟨c', hc', hmove⟩ := moveStage_plain (n := ch.val) hform ⟨h1, h2, h3⟩ h0 hld (homeRead_length s src n) hsp hdp hfw hbad htaint
  intro v
  rw [show v = _ from hstep.trans hmove]
  refine ⟨oweOnce_keepsMem _, ?_, ?_⟩
  · rw [oweStage_chan, setSysChan_chan]
    exact hc'
  · exact oweStage_owed ch

/-! ### The end of a stage (R438, R439) -/

theorem stageAck_waits (ch : Fin 16) (h : ∃ m ∈ s.flight, m.id ∈ (s.chan ch.val).out) :
    exec (.syscopyStageAck ch) s = .next (s.oweStage ch.val) := by
  obtain ⟨m, hm, hid⟩ := h
  exact congrArg Host.Outcome.next (if_pos
    ((List.any_eq_true (p := fun (m : Msg) => (s.chan ch.val).out.contains m.id)).2 ⟨m, hm, List.contains_iff_mem.2 hid⟩))

theorem stageAck_done (ch : Fin 16) (h : ∀ m ∈ s.flight, m.id ∉ (s.chan ch.val).out) :
    let c := s.chan ch.val
    (∀ len, c.failing = none → c.staged = some len → c.fetch = [] → exec (.syscopyStageAck ch) s =
      .next ((s.setSysChan ch.val { c with
        done := c.done + BitVec.ofNat 32 len
        staged := none
        out := [] }).oweChan ch.val)) ∧
    (∀ e, c.failing = some e → exec (.syscopyStageAck ch) s = .next
      ((s.setSysChan ch.val { cur := c.cur, done := c.done, event := e, state := 2 }).record
        { event := 0x07, cls := 0, addr := c.cur.toNat, info := c.done.setWidth 64 })) := by
  intro c
  have hno : ¬ (s.flight.any (fun (m : Msg) => c.out.contains m.id) = true) := by
    intro ha
    obtain ⟨m, hm, hid⟩ := List.any_eq_true.1 ha
    exact h m hm (List.contains_iff_mem.1 hid)
  refine ⟨fun len hf hg hfe => congrArg Host.Outcome.next ((if_neg hno).trans ?_), fun e hf => congrArg Host.Outcome.next ((if_neg hno).trans ?_)⟩
  · have hf' : (s.chan ch.val).failing = none := hf
    have hg' : (s.chan ch.val).staged = some len := hg
    have hfe' : (s.chan ch.val).fetch = [] := hfe
    rw [hf', hg']
    exact if_neg (by simp [hfe'])
  · have hf' : (s.chan ch.val).failing = some e := hf
    rw [hf']

end Sys2Proof.Machine

open Sys2Proof Sys2Proof.Machine

/-- Settles O59: a launch's set-up, SYSCOPY's cases, and the steps of a channel. -/
theorem launchAndSystemCopies : Obligations.LaunchAndSystemCopies := by
  unfold Obligations.LaunchAndSystemCopies
  intro s w o0 o1 a
  refine ⟨fun ht => ⟨fun st h => exec_launch_refused ht h, fun hb => launch_starts ht hb⟩, fun ht hn => ?_, fun ch => ?_, fun ch => ?_⟩
  · have hal : o1.toNat % 64 = 0 → aligned (cmdOp w 1) 64 = true := fun h => decide_eq_true h
    have h00 : o1 = 0 → o1.toNat % 64 = 0 := fun h => by rw [h]; rfl
    refine ⟨fun h64 h1 => (exec_syscopy ht hn (hal h64)).1 h1, fun h64 h1 h0 hb => ?_, fun h0 h2 => ?_, fun h0 h2 => ?_⟩
    · exact ⟨_, (exec_syscopy ht hn (hal h64)).2.2.2 h1 h0 hb, syscopy_started _⟩
    · have h1 : (s.chan o0.toNat).state ≠ 1 := by rw [h2]; decide
      exact ⟨_, (exec_syscopy ht hn (hal (h00 h0))).2.1 h1 h0 h2, syscopy_started _⟩
    · have h1 : (s.chan o0.toNat).state ≠ 1 := by rw [h2]; decide
      have h3 : (s.chan o0.toNat).state ≠ 2 := by rw [h2]; decide
      exact (exec_syscopy ht hn (hal (h00 h0))).2.2.1 h1 h0 h3
  · intro c r hst hf hg
    have hx := exec_syscopyRecord ch hst hf hg
    refine ⟨fun hr => hx.trans (congrArg _ (nextStage_unbacked hr)), fun hr hp => ?_⟩
    obtain ⟨g1, g2, g3, g4⟩ := nextStage_ready hr hp
    intro ended
    refine ⟨fun ho => hx.trans (congrArg _ (g1 ho)), fun ho hres => ?_, fun ho hres hinv => ?_, fun ho hres hinv hle => ?_,
      fun ho hres hinv hfmt => ?_⟩
    · rintro t rfl
      exact ⟨_, hx.trans (congrArg _ (g2 ho hres)), finishRecord_spec _ _ _⟩
    · rintro t rfl
      exact ⟨_, hx.trans (congrArg _ (g3 ho hres hinv)), finishRecord_spec _ _ _⟩
    · rintro t rfl
      exact ⟨_, hx.trans (congrArg _ ((g4 ho hres hinv).1 hle)), finishRecord_spec _ _ _⟩
    · intro n src dst h0 hls hld hs46 hd46 hsp hdp hfw hrs hrd hbad htaint
      exact ⟨_, hx, nextStage_plain ch hr hp ho hres hinv hfmt h0 hls hld hs46 hd46 hsp hdp hfw hrs hrd hbad htaint⟩
  · intro c
    refine ⟨fun h => ⟨_, stageAck_waits ch h, oweOnce_keepsMem _, oweStage_chan, oweStage_owed ch⟩, fun h => ?_⟩
    · obtain ⟨h1, h2⟩ := stageAck_done ch h
      exact ⟨fun len hf hg hfe => ⟨_, h1 len hf hg hfe, oweOnce_keepsMem _, oweChan_chan.trans (setSysChan_chan _), oweChan_owed ch⟩, h2⟩
end

section
/-! Memory in its canonical form: what it means of the things that a step's parts answer, and the rules by which a proof goes
through a definition. -/

namespace Sys2Proof.Machine

/-- A state whose memory is in its canonical form. -/
abbrev State.Canon (s : State) : Prop := Memory.wf s.mem = true

/-- Every state that an instruction's effect carries has its memory in canonical form. -/
def Act.Canon : Act → Prop
  | .done t | .jump t _ | .trapIn t _ _ | .park t _ _ | .starve t | .hold t | .left t => t.Canon
  | .trap _ _ | .trapNext _ _ | .direct _ _ => True

/-- The state that a step comes to, if any, has its memory in canonical form. -/
def OutCanon : Host.Outcome State Fault Refusal → Prop
  | .next t => t.Canon
  | .fault _ | .refused _ => True

/-- The state that a command comes to has its memory in canonical form. -/
def Verdict.Canon : Verdict → Prop
  | .ok t _ _ | .ended t _ | .started t | .later t => t.Canon

/-- A property of what an answer carries, if it carries anything. -/
def OptAll {α : Type} (p : α → Prop) : Option α → Prop
  | some a => p a
  | none => True

/-- A property of what either answer carries. -/
def ExAll {ε α : Type} (q : ε → Prop) (p : α → Prop) : Except ε α → Prop
  | .ok a => p a
  | .error e => q e

/-- The state of a fetch, if it brings a word, has its memory in canonical form. -/
def Fetched.Canon : Fetched → Prop
  | .instr _ t | .none _ t => t.Canon
  | .stopped _ => True

/-- What a load comes to carries memory in its canonical form. -/
def Loaded.Canon : Loaded → Prop
  | .act a => a.Canon
  | .ok _ _ t => t.Canon

/-- What a drain comes to carries memory in its canonical form. -/
def Drained.Canon : Drained → Prop
  | .nothing => True
  | .waits t _ | .fails t _ | .done t => t.Canon

/-- What a piece of a copy comes to carries memory in its canonical form. -/
def Piece'.Canon : Piece' → Prop
  | .fault _ _ _ => True
  | .wait t _ | .moved t _ => t.Canon

/-- What a deque unit answers carries memory in its canonical form. -/
def Answered.Canon : Answered → Prop
  | .refused | .wait => True
  | .granted _ _ t => t.Canon

variable {α β ε : Type}

theorem canon_of_mem {s t : State} (h : t.mem = s.mem) (hs : s.Canon) : t.Canon := by
  rw [State.Canon, h]
  exact hs

theorem OptAll.get {p : α → Prop} {o : Option α} {a : α} (h : OptAll p o) (he : o = some a) : p a := by
  subst he
  exact h

theorem ExAll.ok {q : ε → Prop} {p : α → Prop} {o : Except ε α} {a : α} (h : ExAll q p o) (he : o = .ok a) : p a := by
  subst he
  exact h

theorem ExAll.err {q : ε → Prop} {p : α → Prop} {o : Except ε α} {e : ε} (h : ExAll q p o) (he : o = .error e) : q e := by
  subst he
  exact h

theorem fst_canon {p : State × α} {t : State} {x : α} (he : p = (t, x)) (h : p.1.Canon) : t.Canon := by
  subst he
  exact h

theorem snd_canon {p : α × State} {t : State} {x : α} (he : p = (x, t)) (h : p.2.Canon) : t.Canon := by
  subst he
  exact h

theorem third_canon {p : α × β × State} {t : State} {x : α} {y : β} (he : p = (x, y, t)) (h : p.2.2.Canon) : t.Canon := by
  subst he
  exact h

theorem loaded_act {a : Act} (h : a.Canon) : (Loaded.act a).Canon := h

theorem opt_some {p : α → Prop} {a : α} (h : p a) : OptAll p (some a) := h

theorem opt_third {t : State} {x : α} {y : β} (h : t.Canon) : OptAll (fun r => r.2.2.Canon) (some (x, y, t)) := h

theorem pair_fst {t : State} {x : α} (h : t.Canon) : (t, x).1.Canon := h

theorem pair_snd {t : State} {x : α} (h : t.Canon) : (x, t).2.Canon := h

theorem out_next {t : State} (h : t.Canon) : OutCanon (.next t) := h

theorem ex_error {q : ε → Prop} {p : α → Prop} {e : ε} (h : q e) : ExAll q p (.error e) := h

theorem done_canon {t : State} (h : t.Canon) : (Act.done t).Canon := h

theorem map_opt {p : α → Prop} {q : β → Prop} {o : Option α} {f : α → β} (h : OptAll p o) (hf : ∀ a, p a → q (f a)) : OptAll q (o.map f) := by
  cases o with
  | none => trivial
  | some a => exact hf a h

theorem findSome_opt {p : β → Prop} {f : α → Option β} (hf : ∀ a, OptAll p (f a)) (l : List α) : OptAll p (l.findSome? f) := by
  induction l with
  | nil => trivial
  | cons a l ih =>
    rw [List.findSome?_cons]
    split
    · rename_i b h
      exact (hf a).get h
    · exact ih

theorem getD_state {o : Option State} {d : State} (h : OptAll State.Canon o) (hd : d.Canon) : (o.getD d).Canon := by
  cases o with
  | none => exact hd
  | some a => exact h

theorem getD_act {o : Option Act} {d : Act} (h : OptAll Act.Canon o) (hd : d.Canon) : (o.getD d).Canon := by
  cases o with
  | none => exact hd
  | some a => exact h

theorem elim_state {p : α → Prop} {o : Option α} {d : State} {f : α → State} (h : OptAll p o) (hd : d.Canon) (hf : ∀ a, p a → (f a).Canon) :
    (o.elim d f).Canon := by
  cases o with
  | none => exact hd
  | some a => exact hf a h

section
variable {c : Prop} [Decidable c]

theorem ite_act {a b : Act} (ha : a.Canon) (hb : b.Canon) : (if c then a else b).Canon := by split <;> assumption

theorem ite_out {a b : Host.Outcome State Fault Refusal} (ha : OutCanon a) (hb : OutCanon b) : OutCanon (if c then a else b) := by
  split <;> assumption

theorem ite_verdict {a b : Verdict} (ha : a.Canon) (hb : b.Canon) : (if c then a else b).Canon := by split <;> assumption

theorem ite_loaded {a b : Loaded} (ha : a.Canon) (hb : b.Canon) : (if c then a else b).Canon := by split <;> assumption

theorem ite_drained {a b : Drained} (ha : a.Canon) (hb : b.Canon) : (if c then a else b).Canon := by split <;> assumption

theorem ite_piece {a b : Piece'} (ha : a.Canon) (hb : b.Canon) : (if c then a else b).Canon := by split <;> assumption

theorem ite_answered {a b : Answered} (ha : a.Canon) (hb : b.Canon) : (if c then a else b).Canon := by split <;> assumption

theorem ite_opt {p : α → Prop} {a b : Option α} (ha : OptAll p a) (hb : OptAll p b) : OptAll p (if c then a else b) := by
  split <;> assumption

theorem ite_ex {q : ε → Prop} {p : α → Prop} {a b : Except ε α} (ha : ExAll q p a) (hb : ExAll q p b) :
    ExAll q p (if c then a else b) := by split <;> assumption

theorem ite_fst {a b : State × α} (ha : a.1.Canon) (hb : b.1.Canon) : (if c then a else b).1.Canon := by split <;> assumption

theorem ite_snd {a b : α × State} (ha : a.2.Canon) (hb : b.2.Canon) : (if c then a else b).2.Canon := by split <;> assumption
end

/-- A property of an accumulator that every step keeps. -/
theorem foldl_keeps {p : β → Prop} {f : β → α → β} (hf : ∀ b a, p b → p (f b a)) (l : List α) (b : β) (hb : p b) : p (l.foldl f b) := by
  induction l generalizing b with
  | nil => exact hb
  | cons a l ih => exact ih _ (hf b a hb)

theorem foldl_fst {f : State × α → β → State × α} (hf : ∀ r b, r.1.Canon → (f r b).1.Canon) (l : List β) (r : State × α) (hr : r.1.Canon) :
    (l.foldl f r).1.Canon := by
  induction l generalizing r with
  | nil => exact hr
  | cons b l ih => exact ih _ (hf r b hr)

theorem foldl_snd {f : α × State → β → α × State} (hf : ∀ r b, r.2.Canon → (f r b).2.Canon) (l : List β) (r : α × State) (hr : r.2.Canon) :
    (l.foldl f r).2.Canon := by
  induction l generalizing r with
  | nil => exact hr
  | cons b l ih => exact ih _ (hf r b hr)

theorem foldl_third {f : α × ε × State → β → α × ε × State} (hf : ∀ r b, r.2.2.Canon → (f r b).2.2.Canon) (l : List β) (r : α × ε × State)
    (hr : r.2.2.Canon) : (l.foldl f r).2.2.Canon := by
  induction l generalizing r with
  | nil => exact hr
  | cons b l ih => exact ih _ (hf r b hr)

/-- Every state that an outcome comes to has its memory in canonical form. -/
abbrev NextCanon (r : Host.Outcome State Fault Refusal) : Prop := ∀ t, r = .next t → t.Canon
abbrev SomeCanon (o : Option State) : Prop := ∀ t, o = some t → t.Canon
/-- The state and the outcome that a selector answers have their memory in canonical form. -/
abbrev TryCanon (r : State × Option (Host.Outcome State Fault Refusal)) : Prop :=
  r.1.Canon ∧ ∀ t, r.2 = some (.next t) → t.Canon

theorem out_of_next {r : Host.Outcome State Fault Refusal} {t : State} (h : OutCanon r) (he : r = .next t) : t.Canon := by
  subst he
  exact h

theorem try_of {r : Host.Outcome State Fault Refusal} {s : State} (hs : s.Canon) (hr : NextCanon r) : TryCanon (s, some r) :=
  ⟨hs, fun t h => hr t (Option.some.inj h)⟩

theorem try_none {s : State} (hs : s.Canon) : TryCanon (s, none) := ⟨hs, fun _ h => nomatch h⟩

theorem try_next {s t : State} (hs : s.Canon) (ht : t.Canon) : TryCanon (s, some (.next t)) :=
  try_of hs (fun _ h => Host.Outcome.next.inj h ▸ ht)

/-! ### Canonical memory: the state at reset -/

theorem reset_canon : State.reset.Canon := rfl

/-! ### Canonical memory: the operations over the state, results and traps -/

theorem setCore_canon {s : State} {c : ℕ} {x : Core} (hs : s.Canon) : (s.setCore c x).Canon := by
  unfold State.setCore
  exact hs

theorem setHam_canon {s : State} {h : ℕ} {x : Hamlet} (hs : s.Canon) : (s.setHam h x).Canon := by
  unfold State.setHam
  exact hs

theorem setCtx_canon {s : State} {c k : ℕ} {x : Ctx} (hs : s.Canon) : (s.setCtx c k x).Canon := by
  unfold State.setCtx
  exact setCore_canon hs

theorem setMe_canon {s : State} {x : Ctx} (hs : s.Canon) : (s.setMe x).Canon := by
  unfold State.setMe
  exact setCtx_canon hs

theorem setMyCore_canon {s : State} {x : Core} (hs : s.Canon) : (s.setMyCore x).Canon := by
  unfold State.setMyCore
  exact setCore_canon hs

theorem setMyHam_canon {s : State} {x : Hamlet} (hs : s.Canon) : (s.setMyHam x).Canon := by
  unfold State.setMyHam
  exact setHam_canon hs

theorem as_canon {s : State} {c k : ℕ} (hs : s.Canon) : (s.as c k).Canon := by
  unfold State.as
  exact hs

theorem owe_canon {s : State} {i : Instr} (hs : s.Canon) : (s.owe i).Canon := by
  unfold State.owe
  exact hs

theorem oweOnce_canon {s : State} {i : Instr} (hs : s.Canon) : (s.oweOnce i).Canon := by
  unfold State.oweOnce
  exact ite_wf hs (owe_canon hs)

theorem fresh_canon {s : State} (hs : s.Canon) : s.fresh.1.Canon := by
  unfold State.fresh
  exact hs

theorem mark_canon {s : State} {h : ℕ} {f : Marks → Marks} (hs : s.Canon) : (s.mark h f).Canon := by
  unfold State.mark
  exact setHam_canon hs

theorem setRow_canon {s : State} {n : ℕ} {v : Row} (hs : s.Canon) : (s.setRow n v).Canon := by
  unfold State.setRow
  exact ite_wf (setMe_canon hs) (setMyCore_canon hs)

theorem writeCell_canon {s : State} {c : Cell} (hs : s.Canon) : (s.writeCell c).Canon := by
  unfold State.writeCell
  split
  · exact setRow_canon hs
  · exact setMe_canon hs

theorem commitOne_canon {s : State} {r : Result} (hs : s.Canon) : (s.commitOne r).Canon := by
  unfold State.commitOne
  exact setMe_canon (foldl_wf _ (fun _ _ h1 => writeCell_canon h1) _ _ hs)

theorem commitWhere_canon {due : Result → Bool} (older rs : List Result) {s : State} (hs : s.Canon) :
    (commitWhere due older rs s).2.Canon := by
  induction rs generalizing older s with
  | nil => exact hs
  | cons r rs ih =>
    unfold commitWhere
    exact ite_snd (ih _ (commitOne_canon hs)) (ih _ hs)

theorem commit_canon {s : State} {due : Result → Bool} (hs : s.Canon) : (s.commit due).Canon := by
  unfold State.commit
  split
  rename_i t1 h1
  have ht1 : t1.Canon := snd_canon h1 (commitWhere_canon _ _ hs)
  exact setMe_canon ht1

theorem tick_canon {s : State} (hs : s.Canon) : s.tick.Canon := by
  unfold State.tick
  exact commit_canon (setMe_canon hs)

theorem commitVar_canon {s : State} (hs : s.Canon) : s.commitVar.Canon := by
  unfold State.commitVar
  exact commit_canon hs

theorem commitAll_canon {s : State} (hs : s.Canon) : s.commitAll.Canon := by
  unfold State.commitAll
  exact commit_canon hs

theorem push_canon {s : State} {r : Result} (hs : s.Canon) : (s.push r).Canon := by
  unfold State.push
  exact setMe_canon hs

theorem fixed_canon {s : State} {lat : ℕ} {cells : List Cell} {flags : BitVec 6} (hs : s.Canon) : (s.fixed lat cells flags).Canon := by
  unfold State.fixed
  exact push_canon hs

theorem var_canon {s : State} {cells : List Cell} {flags : BitVec 6} (hs : s.Canon) : (s.var cells flags).Canon := by
  unfold State.var
  exact push_canon hs

theorem varAwait_canon {s : State} {cells : List Cell} {awaited : List (ℕ × ℕ)} (hs : s.Canon) : (s.varAwait cells awaited).Canon := by
  unfold State.varAwait
  exact push_canon hs

theorem retire_canon {s : State} {o : Ops} {target : Option Word} (hs : s.Canon) : (s.retire o target).Canon := by
  unfold State.retire
  exact setMe_canon hs

theorem stall_canon {s : State} (hs : s.Canon) : s.stall.Canon := by
  unfold State.stall
  exact setMe_canon hs

theorem finishMsg_canon {s : State} {id : ℕ} {data : Row} {flags : BitVec 6} (hs : s.Canon) : (s.finishMsg id data flags).Canon := by
  unfold State.finishMsg
  split
  · exact hs
  · exact owe_canon hs

theorem received_canon {s : State} {h : ℕ} (hs : s.Canon) : (s.received h).Canon := by
  unfold State.received
  exact setHam_canon hs

theorem sendFlit_canon {s : State} {port : Option ℕ} (hs : s.Canon) : (s.sendFlit port).Canon := by
  unfold State.sendFlit
  split
  · exact hs
  · exact hs

theorem leaves_canon {s : State} {p : BitVec 20} {id : ℕ} (hs : s.Canon) : (s.leaves p id).Canon := by
  unfold State.leaves
  exact oweOnce_canon (sendFlit_canon hs)

theorem numbered_canon {s : State} {p : BitVec 20} {id : ℕ} (hs : s.Canon) : (s.numbered p id).Canon := by
  unfold State.numbered
  exact ite_wf (oweOnce_canon hs) (ite_wf hs (leaves_canon hs))

theorem nextOut_canon {s : State} {p : BitVec 20} (hs : s.Canon) : (s.nextOut p).Canon := by
  unfold State.nextOut
  refine ite_wf hs ?_
  split
  · exact leaves_canon hs
  · exact hs

theorem delivered_canon {s : State} {p : BitVec 20} {id : ℕ} (hs : s.Canon) : (s.delivered p id).Canon := by
  unfold State.delivered
  exact nextOut_canon hs

theorem endLinkHold_canon {s : State} (hs : s.Canon) : s.endLinkHold.Canon := by
  unfold State.endLinkHold
  exact foldl_wf _ (fun _ _ h1 => numbered_canon h1) _ _ hs

theorem ack_canon {s : State} {p : BitVec 20} {seq : BitVec 32} (hs : s.Canon) : (s.ack p seq).Canon := by
  unfold State.ack
  exact hs

theorem packetOut_canon {s : State} {pkg : BitVec 20} {core ctx tag : ℕ} {b : Body} (hs : s.Canon) :
    (s.packetOut pkg core ctx tag b).Canon := by
  unfold State.packetOut
  split
  rename_i t1 _ h1
  have ht1 : t1.Canon := fst_canon h1 (fresh_canon hs)
  exact numbered_canon ht1

theorem answerRun_canon {s : State} {c : ℕ} {r : Run} {reply : Row} (hs : s.Canon) : (s.answerRun c r reply).Canon := by
  unfold State.answerRun
  split
  · exact ite_wf (ite_wf (packetOut_canon hs) hs) (ite_wf (received_canon (finishMsg_canon hs)) (finishMsg_canon hs))
  · exact owe_canon hs
  · exact owe_canon hs

theorem escalate_canon {s : State} {c k : ℕ} (hs : s.Canon) : (s.escalate c k).Canon := by
  unfold State.escalate
  refine ite_wf (owe_canon ?_) (owe_canon (setCore_canon ?_))
  · split
    · exact answerRun_canon (setCtx_canon hs)
    · exact setCtx_canon hs
  · split
    · exact answerRun_canon (setCtx_canon hs)
    · exact setCtx_canon hs

theorem enterTrap_canon {s : State} {notice direct : Bool} {cause : BitVec 6} {info pc : Word} (hs : s.Canon) :
    (s.enterTrap notice direct cause info pc).Canon := by
  unfold State.enterTrap
  exact ite_wf (escalate_canon (setMe_canon (ite_wf (commitAll_canon hs) (mark_canon (commitAll_canon hs)))))
      (setMe_canon (ite_wf (commitAll_canon hs) (mark_canon (commitAll_canon hs))))

theorem trap_canon {s : State} {cause : BitVec 6} {info pc : Word} (hs : s.Canon) : (s.trap cause info pc).Canon := by
  unfold State.trap
  exact ite_wf (enterTrap_canon hs) (stall_canon hs)

theorem storageTrap_canon {s : State} {c k : ℕ} {info : Word} (hs : s.Canon) : (s.storageTrap c k info).Canon := by
  unfold State.storageTrap
  exact ite_wf hs (ite_wf (setCtx_canon hs) (as_canon (enterTrap_canon (as_canon hs))))

theorem takeLate_canon {s : State} {c k : ℕ} (hs : s.Canon) : (s.takeLate c k).Canon := by
  unfold State.takeLate
  dsimp only
  split
  · exact ite_wf (as_canon (enterTrap_canon (as_canon (setCtx_canon hs)))) hs
  · exact hs

/-! ### Canonical memory: the frame of an instruction -/

theorem latched_canon {s : State} {i : Instr} {o : Ops} (hs : s.Canon) : (s.latched i o).Canon := by
  unfold State.latched
  split
  · exact hs
  · exact setMe_canon hs

theorem waitHere_canon {s : State} {cond : BitVec 5} {key : Word} {episode : BitVec 16} (hs : s.Canon) :
    (s.waitHere cond key episode).Canon := by
  unfold State.waitHere
  exact stall_canon (setMe_canon hs)

theorem park_canon {s : State} {cond : BitVec 5} {key : Word} {episode : BitVec 16} (hs : s.Canon) : (s.park cond key episode).Canon := by
  unfold State.park
  exact ite_wf (waitHere_canon hs) (ite_wf (stall_canon hs) (owe_canon (setMe_canon (commitAll_canon hs))))

theorem starve_canon {s : State} (hs : s.Canon) : s.starve.Canon := by
  unfold State.starve
  exact ite_wf (stall_canon hs) (setMe_canon (commitAll_canon hs))

theorem finish_canon {s : State} {i : Instr} {o : Ops} {x : Act} (hs : s.Canon) (hx : x.Canon) : (s.finish i o x).Canon := by
  unfold State.finish
  split
  · exact retire_canon (latched_canon hx)
  · exact retire_canon (latched_canon hx)
  · exact trap_canon hs
  · exact ite_wf (trap_canon hx) (stall_canon hs)
  · exact trap_canon hs
  · exact ite_wf (enterTrap_canon hs) (stall_canon hs)
  · exact park_canon hx
  · exact starve_canon hx
  · exact stall_canon hx
  · exact hx

/-! ### Canonical memory: memory at its homes, the copies of hamlets, and translation -/

theorem irq_canon {s : State} {n : ℕ} (hs : s.Canon) : (s.irq n).Canon := by
  unfold State.irq
  exact hs

theorem setFull_canon {s : State} {pa : ℕ} {b : Bool} (hs : s.Canon) : (s.setFull pa b).Canon := by
  unfold State.setFull
  exact hs

theorem cxlAsk_canon {s : State} {line : ℕ} {write : Bool} {seq : Word} (hs : s.Canon) : (s.cxlAsk line write seq).Canon := by
  unfold State.cxlAsk
  split
  · exact hs
  · exact oweOnce_canon hs

theorem dropLine_canon {s : State} {h line : ℕ} (hs : s.Canon) : (s.dropLine h line).Canon := by
  unfold State.dropLine
  exact setHam_canon hs

theorem setLine_canon {s : State} {h line : ℕ} {l : Line} (hs : s.Canon) : (s.setLine h line l).Canon := by
  unfold State.setLine
  exact setHam_canon hs

theorem noteWalk_canon {s : State} {c : ℕ} {root va : Word} (hs : s.Canon) : (s.noteWalk c root va).Canon := by
  unfold State.noteWalk
  split
  · exact recordUnbacked_wf hs
  · exact hs

theorem translateLeaf_canon {s : State} {c : ℕ} {root : Word} {va : ℕ} {write : Bool} (hs : s.Canon) :
    ExAll (fun _ => True) (fun r => r.2.Canon) (s.translateLeaf c root va write) := by
  unfold State.translateLeaf
  split
  · dsimp only
    split
    · exact hs
    · split
      · exact pair_snd (setCore_canon hs)
      · exact hs
  · dsimp only
    split
    · exact hs
    · split
      · exact pair_snd (setCore_canon hs)
      · trivial

theorem setAD_canon {s : State} {t : Tlb} {write : Bool} (hs : s.Canon) : (s.setAD t write).Canon := by
  unfold State.setAD
  exact ite_wf hs (homeWrite_wf hs)

theorem reuse_canon {s : State} {t : Tlb} (hs : s.Canon) : (s.reuse t).Canon := by
  unfold State.reuse
  exact ite_wf hs hs

theorem useLeaf_canon {s : State} {c : ℕ} {t : Tlb} {write : Bool} (hs : s.Canon) : (s.useLeaf c t write).Canon := by
  unfold State.useLeaf
  exact ite_wf hs (setHam_canon (setCore_canon (setAD_canon (reuse_canon hs))))

theorem resolveFor_canon {s : State} {c k : ℕ} {root : Word} {p : Priv} {va : Word} {kind : Access} (hs : s.Canon) :
    ExAll (fun _ => True) (fun r => r.2.Canon) (s.resolveFor c k root p va kind) := by
  unfold State.resolveFor
  refine ite_ex trivial (ite_ex ?_ ?_)
  · split
    · trivial
    · exact ite_ex hs trivial
  · dsimp only
    split
    · trivial
    · trivial
    · trivial
    · rename_i t1 h1
      split
      · trivial
      · trivial
      · have ht1 : t1.Canon := (translateLeaf_canon hs).ok h1
        refine ite_ex trivial (ite_ex (pair_snd (useLeaf_canon ht1)) ?_)
        split
        · exact pair_snd (useLeaf_canon ht1)
        · exact pair_snd (useLeaf_canon ht1)

theorem resolve_canon {s : State} {va : Word} {kind : Access} (hs : s.Canon) :
    ExAll (fun _ => True) (fun r => r.2.Canon) (s.resolve va kind) := by
  unfold State.resolve
  refine ite_ex trivial ?_
  split
  · rename_i x2 h1
    have hx2 : x2.2.Canon := (resolveFor_canon hs).ok h1
    exact hx2
  · trivial

theorem shareL1_canon {s : State} {h pa : ℕ} {bs : List (ℕ × Byte)} (hs : s.Canon) : (s.shareL1 h pa bs).Canon := by
  unfold State.shareL1
  split
  · exact hs
  · exact setLine_canon hs

theorem backLine_canon {s : State} {h line : ℕ} (hs : s.Canon) : (s.backLine h line).Canon := by
  unfold State.backLine
  exact foldl_wf _ (fun _ _ h1 => writeBackWin_wf h1) _ _ (writeBack_wf hs)

theorem giveLine_canon {s : State} {h line : ℕ} (hs : s.Canon) : (s.giveLine h line).Canon := by
  unfold State.giveLine
  exact dropLine_canon (backLine_canon hs)

theorem dropClean_canon {s : State} {h : ℕ} (hs : s.Canon) : (s.dropClean h).Canon := by
  unfold State.dropClean
  exact setHam_canon hs

theorem acquire_canon {s : State} {sc : Scope} (hs : s.Canon) : (s.acquire sc).Canon := by
  unfold State.acquire
  exact ite_wf (dropClean_canon hs) hs

/-! ### Canonical memory: waits, predicates and troubles -/

theorem acquireTokens_canon {s : State} {m : BitVec 8} (hs : s.Canon) : (s.acquireTokens m).Canon := by
  unfold State.acquireTokens
  exact foldl_wf _ (fun _ _ h1 => acquire_canon h1) _ _ hs

theorem copyTrap_canon {s : State} {tok : ℕ} {info : Word} (hs : s.Canon) : (s.copyTrap tok info).Canon := by
  unfold State.copyTrap
  exact ite_wf (trap_canon (setMe_canon hs)) (stall_canon hs)

theorem unhold_canon {s : State} (hs : s.Canon) : s.unhold.Canon := by
  unfold State.unhold
  split
  · dsimp only
    split
    · exact setMe_canon (acquire_canon (setMe_canon (commitVar_canon hs)))
    · exact setMe_canon (commitVar_canon hs)
  · dsimp only
    split
    · exact setMe_canon (acquire_canon hs)
    · exact hs

theorem roomFor_canon {s : State} {i : Instr} (hs : s.Canon) : OptAll State.Canon (s.roomFor i) := by
  unfold State.roomFor
  exact ite_opt (ite_opt (commitVar_canon hs) trivial) hs

theorem waited_canon {s : State} {o : Ops} (hs : s.Canon) : ExAll State.Canon State.Canon (s.waited o) := by
  unfold State.waited
  split
  · exact hs
  · refine ite_ex (stall_canon hs) ?_
    split
    · exact copyTrap_canon hs
    · exact acquireTokens_canon hs

theorem perform_canon {s : State} {i : Instr} {o : Ops} {body : State → Act} (hs : s.Canon)
    (hbody : ∀ (a : State), a.Canon → (body a).Canon) : (s.perform i o body).Canon := by
  unfold State.perform
  split
  · rename_i t1 h1
    have ht1 : t1.Canon := (waited_canon hs).err h1
    exact ht1
  · rename_i t1 h1
    have ht1 : t1.Canon := (waited_canon hs).ok h1
    refine ite_wf (retire_canon ht1) (ite_wf (stall_canon ht1) ?_)
    split
    · exact stall_canon ht1
    · rename_i t2 h2
      have ht2 : t2.Canon := (roomFor_canon ht1).get h2
      exact finish_canon ht2 (hbody _ ht2)

theorem performVec_canon {s : State} {i : Instr} {o : Ops} {pre : State → Bool} {body : State → Act} (hs : s.Canon)
    (hbody : ∀ (a : State), a.Canon → (body a).Canon) : (s.performVec i o pre body).Canon := by
  unfold State.performVec
  refine ite_wf (trap_canon hs) ?_
  split
  · rename_i t1 h1
    have ht1 : t1.Canon := (waited_canon hs).err h1
    exact ht1
  · rename_i t1 h1
    have ht1 : t1.Canon := (waited_canon hs).ok h1
    refine ite_wf (stall_canon ht1) ?_
    split
    · exact stall_canon ht1
    · rename_i t2 h2
      have ht2 : t2.Canon := (roomFor_canon ht1).get h2
      exact finish_canon ht2 (hbody _ ht2)

theorem run_canon {s : State} {i : Instr} {o : Ops} {body : State → Act} (hs : s.Canon) (hbody : ∀ (a : State), a.Canon → (body a).Canon) :
    OutCanon (s.run i o body) := by
  unfold State.run
  exact perform_canon hs hbody

theorem illegal_canon {i : Instr} : (illegal i).Canon := by
  unfold illegal
  trivial

theorem within_canon {s : State} {ls : List Loc} {k : Act} (hk : k.Canon) : (s.within ls k).Canon := by
  unfold State.within
  split
  · trivial
  · exact hk

theorem pagerFuture_canon {s : State} {c : ℕ} {root va : Word} {kind : Access} {cause level : ℕ} (hs : s.Canon) :
    OptAll (fun r => r.2.Canon) (s.pagerFuture c root va kind cause level) := by
  unfold State.pagerFuture
  dsimp only
  split
  · exact pair_snd (noteWalk_canon hs)
  · split
    · trivial
    · exact pair_snd (owe_canon (noteWalk_canon hs))

theorem troubled_canon {s : State} {t : Trouble} {kind : Access} (hs : s.Canon) : (s.troubled t kind).Canon := by
  unfold State.troubled
  split
  · exact ite_act (setMe_canon hs) (ite_act (noteWalk_canon hs) trivial)
  · trivial
  · split
    · exact hs
    · rename_i t1 h1
      have ht1 : t1.Canon := (pagerFuture_canon hs).get h1
      exact setMe_canon ht1

/-! ### Canonical memory: scalar floating-point instructions -/

theorem putF_canon {s : State} {o : Ops} {lat : ℕ} {r : ℕ × Flags} (hs : s.Canon) : (s.putF o lat r).Canon := by
  unfold State.putF
  exact fixed_canon hs

theorem faddBody_canon {o : Ops} {t : FTy} {sub : Bool} {s : State} (hs : s.Canon) : (faddBody o t sub s).Canon := by
  unfold faddBody
  exact within_canon (putF_canon hs)

theorem fmulBody_canon {o : Ops} {t : FTy} {s : State} (hs : s.Canon) : (fmulBody o t s).Canon := by
  unfold fmulBody
  exact within_canon (putF_canon hs)

theorem ffmaBody_canon {o : Ops} {t : FTy} {f : FmaFn} {s : State} (hs : s.Canon) : (ffmaBody o t f s).Canon := by
  unfold ffmaBody
  exact within_canon (putF_canon hs)

theorem fdivBody_canon {o : Ops} {t : FTy} {sqrt : Bool} {s : State} (hs : s.Canon) : (fdivBody o t sqrt s).Canon := by
  unfold fdivBody
  exact within_canon (putF_canon hs)

theorem fminmaxBody_canon {o : Ops} {t : FTy} {isMax : Bool} {s : State} (hs : s.Canon) : (fminmaxBody o t isMax s).Canon := by
  unfold fminmaxBody
  exact within_canon (putF_canon hs)

theorem fcmpBody_canon {o : Ops} {t : FTy} {r : FRel} {s : State} (hs : s.Canon) : (fcmpBody o t r s).Canon := by
  unfold fcmpBody
  exact within_canon (fixed_canon hs)

/-! ### Canonical memory: fetch -/

theorem fetchWord_canon {s : State} {va : Word} (hs : s.Canon) : ExAll (fun _ => True) (fun r => r.2.Canon) (s.fetchWord va) := by
  unfold State.fetchWord
  split
  · trivial
  · rename_i t1 h1
    split
    · have ht1 : t1.Canon := (resolve_canon hs).ok h1
      exact ite_ex ht1 trivial
    · trivial
  · rename_i t1 _ h2
    split
    · split
      · trivial
      · trivial
      · refine ite_ex trivial ?_
        split
        rename_i t2 h5
        have ht1 : t1.Canon := (resolve_canon hs).ok h2
        have ht2 : t2.Canon := snd_canon h5 (readPlace_wf ht1)
        exact ht2
    · split
      · trivial
      · trivial
      · refine ite_ex trivial ?_
        split
        rename_i t2 h6
        have ht1 : t1.Canon := (resolve_canon hs).ok h2
        have ht2 : t2.Canon := snd_canon h6 (readPlace_wf ht1)
        exact ht2

theorem fetchMore_canon {s : State} {va : Word} (n : ℕ) (hs : s.Canon) : ExAll (fun _ => True) (fun r => r.2.Canon) (s.fetchMore va n) := by
  induction n generalizing s va with
  | zero => exact hs
  | succ n ih =>
    unfold State.fetchMore
    split
    · trivial
    · rename_i w t h
      have ht : t.Canon := (fetchWord_canon hs).ok h
      split
      · trivial
      · rename_i ws u h'
        have hu : u.Canon := (ih ht).ok h'
        exact hu

theorem fetchAt_canon {s : State} {va : Word} (hs : s.Canon) : (s.fetchAt va).Canon := by
  unfold State.fetchAt
  split
  · trivial
  · rename_i t1 h1
    split
    · have ht1 : t1.Canon := (fetchWord_canon hs).ok h1
      exact ht1
    · split
      · trivial
      · rename_i t2 h3
        split
        · have ht1 : t1.Canon := (fetchWord_canon hs).ok h1
          have ht2 : t2.Canon := (fetchMore_canon _ ht1).ok h3
          exact ht2
        · have ht1 : t1.Canon := (fetchWord_canon hs).ok h1
          have ht2 : t2.Canon := (fetchMore_canon _ ht1).ok h3
          exact ht2

theorem remoteRead_canon {s : State} {p : BitVec 20} {b : Body} {fetch : Bool} (hs : s.Canon) : (s.remoteRead p b fetch).Canon := by
  unfold State.remoteRead
  refine ite_wf (trap_canon hs) (ite_wf (stall_canon hs) ?_)
  split
  rename_i t1 _ h1
  have ht1 : t1.Canon := fst_canon h1 (fresh_canon hs)
  exact stall_canon (numbered_canon (ite_wf ht1 (setMyHam_canon ht1)))

theorem remoteFetch_canon {s : State} {p : BitVec 20} {pa : ℕ} (hs : s.Canon) : (s.remoteFetch p pa).Canon := by
  unfold State.remoteFetch
  exact ite_wf (stall_canon (cxlAsk_canon hs)) (remoteRead_canon hs)

theorem lineOf_canon {s : State} {p : BitVec 20} {pa : ℕ} (hs : s.Canon) : ExAll State.Canon (fun _ => True) (s.lineOf p pa) := by
  unfold State.lineOf
  split
  · exact ite_ex trivial (remoteRead_canon hs)
  · exact remoteRead_canon hs

/-! ### Canonical memory: scalar integer instructions -/

theorem aluBody_canon {f : AluFn} {o : Ops} {imm : Bool} {t : ITy} {s : State} (hs : s.Canon) : (aluBody f o imm t s).Canon := by
  unfold aluBody
  exact within_canon (fixed_canon hs)

theorem cmpBody_canon {o : Ops} {imm : Bool} {cc : Cc} {s : State} (hs : s.Canon) : (cmpBody o imm cc s).Canon := by
  unfold cmpBody
  exact within_canon (fixed_canon hs)

theorem put1_canon {s : State} {o : Ops} {v : Word} (hs : s.Canon) : (s.put1 o v).Canon := by
  unfold State.put1
  exact fixed_canon hs

theorem selBody_canon {o : Ops} {imm : Bool} {p : BitVec 3} {s : State} (hs : s.Canon) : (selBody o imm p s).Canon := by
  unfold selBody
  exact within_canon (put1_canon hs)

theorem bitsBody_canon {o : Ops} {f : BitsFn} {s : State} (hs : s.Canon) : (bitsBody o f s).Canon := by
  unfold bitsBody
  exact within_canon (put1_canon hs)

theorem moviBody_canon {o : Ops} {s : State} (hs : s.Canon) : (moviBody o s).Canon := by
  unfold moviBody
  exact within_canon (put1_canon hs)

theorem leaBody_canon {o : Ops} {imm : Bool} {k : BitVec 3} {s : State} (hs : s.Canon) : (leaBody o imm k s).Canon := by
  unfold leaBody
  exact within_canon (put1_canon hs)

theorem psetBody_canon {o : Ops} {f : PFn} {s : State} (hs : s.Canon) : (psetBody o f s).Canon := by
  unfold psetBody
  split
  · exact within_canon (fixed_canon hs)
  · exact within_canon (put1_canon hs)
  · exact fixed_canon hs

/-! ### Canonical memory: control instructions -/

theorem beginSave_canon {s : State} {c k : ℕ} {whole : Bool} (hs : s.Canon) : (s.beginSave c k whole).Canon := by
  unfold State.beginSave
  exact owe_canon (setCtx_canon hs)

theorem beginSaveAll_canon {s : State} (hs : s.Canon) : s.beginSaveAll.Canon := by
  unfold State.beginSaveAll
  exact foldl_wf _ (fun _ _ h1 => beginSave_canon h1) _ _ (beginSave_canon hs)

theorem toIdle_canon {s : State} {c k : ℕ} (hs : s.Canon) : (s.toIdle c k).Canon := by
  unfold State.toIdle
  exact owe_canon (setCtx_canon hs)

theorem awaitGang_canon {s : State} (hs : s.Canon) : s.awaitGang.Canon := by
  unfold State.awaitGang
  exact setMe_canon hs

theorem goto_canon {s t : State} {pc : Word} (ht : t.Canon) : (s.goto t pc).Canon := by
  unfold State.goto
  exact ite_act ht (ite_act trivial ht)

theorem brBody_canon {o : Ops} {onFalse : Bool} {s : State} (hs : s.Canon) : (brBody o onFalse s).Canon := by
  unfold brBody
  exact ite_act hs (ite_act hs hs)

theorem jmpBody_canon {o : Ops} {s : State} (hs : s.Canon) : (jmpBody o s).Canon := by
  unfold jmpBody
  split
  · exact goto_canon hs
  · exact ite_act hs hs

theorem jmpRegBody_canon {o : Ops} {s : State} (hs : s.Canon) : (jmpRegBody o s).Canon := by
  unfold jmpRegBody
  exact within_canon (goto_canon hs)

theorem link_canon {s : State} {o : Ops} (hs : s.Canon) : (s.link o).Canon := by
  unfold State.link
  exact fixed_canon hs

theorem callBody_canon {o : Ops} {s : State} (hs : s.Canon) : (callBody o s).Canon := by
  unfold callBody
  refine within_canon ?_
  split
  · exact goto_canon (link_canon hs)
  · exact ite_act (link_canon hs) (link_canon hs)

theorem callRegBody_canon {o : Ops} {s : State} (hs : s.Canon) : (callRegBody o s).Canon := by
  unfold callRegBody
  exact within_canon (goto_canon (link_canon hs))

theorem fetchBody_canon {s : State} {va : Word} (n : ℕ) (hs : s.Canon) : ExAll (fun _ => True) (fun r => r.2.Canon) (s.fetchBody va n) := by
  induction n generalizing s va with
  | zero => exact hs
  | succ n ih =>
    unfold State.fetchBody
    split
    · trivial
    · rename_i w t h
      have ht : t.Canon := (congrArg Fetched.Canon h).mp (fetchAt_canon hs)
      split
      · trivial
      · rename_i is u h'
        have hu : u.Canon := (ih ht).ok h'
        exact hu
    · rename_i i t h
      have ht : t.Canon := (congrArg Fetched.Canon h).mp (fetchAt_canon hs)
      split
      · trivial
      · split
        · trivial
        · rename_i is u h'
          have hu : u.Canon := (ih ht).ok h'
          exact hu

theorem repBody_canon {o : Ops} {s : State} (hs : s.Canon) : (repBody o s).Canon := by
  unfold repBody
  refine ite_act hs ?_
  split
  · dsimp only
    split
    · exact illegal_canon
    · exact troubled_canon hs
    · exact remoteFetch_canon hs
    · rename_i t1 h2
      have ht1 : t1.Canon := (fetchBody_canon _ hs).ok h2
      exact ite_act illegal_canon (setMe_canon ht1)
  · dsimp only
    split
    · exact illegal_canon
    · exact troubled_canon hs
    · exact remoteFetch_canon hs
    · rename_i t1 h2
      have ht1 : t1.Canon := (fetchBody_canon _ hs).ok h2
      exact ite_act illegal_canon (setMe_canon ht1)

theorem execRep_canon {o : Ops} {s : State} (hs : s.Canon) : OutCanon (execRep o s) := by
  unfold execRep
  exact ite_out (finish_canon hs (repBody_canon hs)) (run_canon hs (fun _ h => repBody_canon h))

theorem useMap_canon {s : State} {r : Row} (hs : s.Canon) : (s.useMap r).Canon := by
  unfold State.useMap
  exact setMe_canon hs

theorem atSafept_canon {s : State} {o : Ops} (hs : s.Canon) : (s.atSafept o).Canon := by
  unfold State.atSafept
  exact ite_act (ite_act (awaitGang_canon hs) (beginSaveAll_canon (retire_canon hs))) hs

/-! ### Canonical memory: wake events and future entries -/

theorem callIdle_canon {s : State} {c : ℕ} (hs : s.Canon) : (s.callIdle c).Canon := by
  unfold State.callIdle
  split
  · exact owe_canon hs
  · exact hs

theorem makeReady_canon {s : State} {c : ℕ} {r : Ready} (hs : s.Canon) : (s.makeReady c r).Canon := by
  unfold State.makeReady
  exact callIdle_canon (setCore_canon hs)

theorem wakeOne_canon {s : State} {h : ℕ} {e : WakeEv} {w : Waiter} (hs : s.Canon) : (s.wakeOne h e w).Canon := by
  unfold State.wakeOne
  split
  · exact owe_canon (setHam_canon hs)
  · exact makeReady_canon hs

theorem wakePending_canon {s : State} {key : Word} {e : WakeEv} {taken : Bool} (hs : s.Canon) : (s.wakePending key e taken).Canon := by
  unfold State.wakePending
  refine foldl_wf _ (fun _ _ h1 => ite_wf (setCore_canon h1) h1) _ _ (foldl_fst (fun a1 a2 h1 => ?_) _ _ hs)
  dsimp only
  split
  · exact h1
  · split
    · exact ite_fst (pair_fst (setCtx_canon h1)) (pair_fst (setCtx_canon h1))
    · exact ite_fst (pair_fst (setCtx_canon h1)) h1

theorem withdraw_canon {s : State} {h : ℕ} {key : Word} (hs : s.Canon) : (s.withdraw h key).Canon := by
  unfold State.withdraw
  exact ite_wf hs (foldl_wf _ (fun _ _ h1 => ite_wf (setHam_canon h1) h1) _ _ hs)

theorem wake_canon {s : State} {h : ℕ} {key : Word} {e : WakeEv} (hs : s.Canon) : (s.wake h key e).Canon := by
  unfold State.wake
  dsimp only
  exact withdraw_canon (wakePending_canon (foldl_wf _ (fun _ _ h1 => wakeOne_canon h1) _ _ (setHam_canon hs)))

theorem wakeFar_canon {s : State} {pa : ℕ} (hs : s.Canon) : (s.wakeFar pa).Canon := by
  unfold State.wakeFar
  exact foldl_wf _ (fun _ _ h1 => packetOut_canon h1) _ _ hs

theorem wakeWord_canon {s : State} {pa : ℕ} (hs : s.Canon) : (s.wakeWord pa).Canon := by
  unfold State.wakeWord
  exact wakeFar_canon (wake_canon hs)

theorem wakeFromFar_canon {s : State} {h : ℕ} {p : BitVec 20} {pa : ℕ} (hs : s.Canon) : (s.wakeFromFar h p pa).Canon := by
  unfold State.wakeFromFar
  refine wake_canon (foldl_wf _ (fun t1 a1 h1 => ?_) _ _ hs)
  dsimp only
  split
  · exact ite_wf (setCtx_canon h1) h1
  · exact h1

theorem fillWords_canon {s : State} {pa n : ℕ} (hs : s.Canon) : (s.fillWords pa n).Canon := by
  unfold State.fillWords
  exact ite_wf (foldl_wf _ (fun _ _ h1 => wakeWord_canon (setFull_canon h1)) _ _ hs) hs

theorem setFuture_canon {s : State} {hd : BitVec 32} {f : Future} (hs : s.Canon) : (s.setFuture hd f).Canon := by
  unfold State.setFuture
  exact setHam_canon hs

theorem feed_canon {s : State} {h : ℕ} (hs : s.Canon) : (s.feed h).Canon := by
  unfold State.feed
  refine foldl_wf _ (fun t1 a1 h1 => ?_) _ _ hs
  dsimp only
  split
  · exact ite_wf (setCtx_canon h1) h1
  · exact h1

theorem freeFuture_canon {s : State} {hd : BitVec 32} (hs : s.Canon) : (s.freeFuture hd).Canon := by
  unfold State.freeFuture
  exact feed_canon (wake_canon (setFuture_canon hs))

theorem addCount_canon {s : State} {hd : BitVec 32} {d : Word} (hs : s.Canon) : (s.addCount hd d).Canon := by
  unfold State.addCount
  exact ite_wf (wake_canon (setFuture_canon hs)) (setFuture_canon hs)

theorem allocFuture_canon {s : State} {h : ℕ} {kind : FKind} {v : Word} (hs : s.Canon) :
    OptAll (fun r => r.2.Canon) (s.allocFuture h kind v) := by
  unfold State.allocFuture
  split
  · trivial
  · exact pair_snd (setFuture_canon hs)

theorem pagerDone_canon {s : State} {hd : BitVec 32} {v : ℕ} (hs : s.Canon) : (s.pagerDone hd v).Canon := by
  unfold State.pagerDone
  exact dropClean_canon (feed_canon (wake_canon (foldl_wf _ (fun _ _ h1 => ite_wf h1
      (foldl_wf _ (fun _ _ h2 => ite_wf (owe_canon h2) h2) _ _ (ite_wf (owe_canon (setCore_canon h1)) (setCore_canon h1)))) _ _
      (setFuture_canon hs))))

/-! ### Canonical memory: loads, stores, full/empty words and line control -/

theorem discardDead_canon {s : State} {c : ℕ} (hs : s.Canon) : (s.discardDead c).Canon := by
  unfold State.discardDead
  exact record_wf (mark_canon hs)

theorem send_canon {s : State} {pkg : BitVec 20} {cnt : ℕ} {tagged : Bool} {b : Body} {dev : Bool} (hs : s.Canon) :
    (s.send pkg cnt tagged b dev).1.Canon := by
  unfold State.send
  refine ite_fst (pair_fst (discardDead_canon hs)) ?_
  split
  rename_i t n hn
  have ht : t.Canon := fst_canon hn (fresh_canon hs)
  extract_lets id home m x behind u h v
  have hu : u.Canon := ite_wf ht (setMe_canon ht)
  have hv : v.Canon := hu
  clear_value v
  exact ite_fst (pair_fst (owe_canon hv)) (ite_fst (pair_fst (setMe_canon hv)) (pair_fst (numbered_canon hv)))

theorem direct_canon {s : State} {pa : ℕ} (hs : s.Canon) : (s.direct pa).Canon := by
  unfold State.direct
  exact received_canon (setHam_canon hs)

theorem resolveParts_canon {s : State} {root : Word} {p : Priv} {ea : Word} {kind : Access} {ps : List (ℕ × ℕ)} (hs : s.Canon) :
    (s.resolveParts root p ea kind ps).2.2.Canon := by
  unfold State.resolveParts
  refine foldl_third (fun a1 a2 h1 => ?_) _ _ hs
  split
  · rename_i t1 h2
    have ht1 : t1.Canon := (resolveFor_canon h1).ok h2
    exact ht1
  · exact h1

theorem refusedAct_canon {s : State} {r : Replay} (hs : s.Canon) : (s.refusedAct r).Canon := by
  unfold State.refusedAct
  exact setMyCore_canon hs

theorem waitEntry_canon {s : State} {r : Replay} (hs : s.Canon) : (s.waitEntry r).Canon := by
  unfold State.waitEntry
  exact ite_act hs hs

theorem withQueueGone_canon {s : State} {k : State → Act} (hs : s.Canon) (hk : ∀ (a : State), a.Canon → (k a).Canon) :
    (s.withQueueGone k).Canon := by
  unfold State.withQueueGone
  split
  · exact refusedAct_canon hs
  · split
    · exact waitEntry_canon hs
    · exact hk _ hs

theorem withRelease_canon {s : State} {sc : Scope} {sync : Bool} {k : State → Act} (hs : s.Canon)
    (hk : ∀ (a : State), a.Canon → (k a).Canon) : (s.withRelease sc sync k).Canon := by
  unfold State.withRelease
  exact ite_act hs (ite_act (ite_act hs (ite_act (withQueueGone_canon hs hk) (hk _ hs)))
      (withQueueGone_canon hs (fun _ h => ite_act (hk _ (release_wf h)) h)))

theorem released_canon {s : State} {sc : Scope} {sync : Bool} {k : State → Act} (hs : s.Canon) (hk : ∀ (a : State), a.Canon → (k a).Canon) :
    (s.released sc sync k).Canon := by
  unfold State.released
  split
  · trivial
  · exact withRelease_canon hs hk

theorem enqueue_canon {s : State} {root : Word} {p : Priv} {va : Word} {b : Body} {hd : BitVec 32} {w : How} {k : State → Act}
    (hs : s.Canon) (hk : ∀ (a : State), a.Canon → (k a).Canon) : (s.enqueue root p va b hd w k).Canon := by
  unfold State.enqueue
  refine ite_act ?_ (hk _ (setMyCore_canon hs))
  split
  · exact refusedAct_canon hs
  · split
    · exact waitEntry_canon hs
    · exact waitEntry_canon hs
    · exact hs

theorem storeFault_canon {s : State} {root : Word} {p : Priv} {va : Word} {kind : Access} {t : Option Trouble} {b : Body} {w : How}
    {k : State → Act} (hs : s.Canon) (hk : ∀ (a : State), a.Canon → (k a).Canon) : OptAll Act.Canon (s.storeFault root p va kind t b w k) :=
    by
  unfold State.storeFault
  split
  · exact opt_some (enqueue_canon hs hk)
  · split
    · split
      · exact opt_some hs
      · rename_i t1 h2
        have ht1 : t1.Canon := (pagerFuture_canon hs).get h2
        exact opt_some (enqueue_canon ht1 hk)
    · trivial

theorem resolvePieces_canon {s : State} {kind : Access} {ps : List Piece} (hs : s.Canon) : (s.resolvePieces kind ps).2.2.Canon := by
  unfold State.resolvePieces
  refine foldl_third (fun a1 a2 h1 => ?_) _ _ hs
  split
  · rename_i t1 h2
    have ht1 : t1.Canon := (resolve_canon h1).ok h2
    exact ht1
  · exact h1

theorem readPieces_canon {s : State} {ps : List Piece} {kind : Access} {l1 st : Bool} (hs : s.Canon) :
    (s.readPieces ps kind l1 st).Canon := by
  unfold State.readPieces
  split
  rename_i t1 h1
  split
  · exact loaded_act (refusedAct_canon hs)
  · split
    · dsimp only
      split
      · exact loaded_act (troubled_canon hs)
      · exact loaded_act (troubled_canon hs)
      · exact loaded_act (waitEntry_canon hs)
      · exact loaded_act (troubled_canon hs)
      · have ht1 : t1.Canon := third_canon h1 (resolvePieces_canon hs)
        exact loaded_act (cxlAsk_canon ht1)
    · split
      · dsimp only
        split
        · exact loaded_act (troubled_canon hs)
        · exact loaded_act (troubled_canon hs)
        · exact loaded_act (waitEntry_canon hs)
        · exact loaded_act (troubled_canon hs)
        · exact loaded_act hs
      · dsimp only
        split
        · exact loaded_act (troubled_canon hs)
        · exact loaded_act (troubled_canon hs)
        · exact loaded_act (waitEntry_canon hs)
        · exact loaded_act (troubled_canon hs)
        · have ht1 : t1.Canon := third_canon h1 (resolvePieces_canon hs)
          refine ite_loaded trivial (foldl_third (fun a1 a2 h7 => ?_) _ _ ht1)
          split
          · exact h7
          · exact h7
          · split
            · exact h7
            · exact pair_snd (readPlace_wf h7)

theorem sendLoads_canon {s : State} {remote : List Remote} {pos n : ℕ} {sx : Bool} (hs : s.Canon) :
    (s.sendLoads remote pos n sx).1.Canon := by
  unfold State.sendLoads
  refine foldl_fst (fun a1 a2 h1 => ?_) _ _ hs
  split
  rename_i t1 _ h2
  have ht1 : t1.Canon := fst_canon h2 (send_canon h1)
  exact ht1

theorem acquireAfter_canon {s : State} {sc : Scope} {awaited : Bool} (hs : s.Canon) : (s.acquireAfter sc awaited).Canon := by
  unfold State.acquireAfter
  exact ite_wf (setMe_canon hs) (acquire_canon hs)

theorem ldBody_canon {o : Ops} {t : LdTy} {s : State} (hs : s.Canon) : (ldBody o t s).Canon := by
  unfold ldBody
  split
  refine within_canon (ite_act trivial ?_)
  split
  · rename_i x5 h2
    have hx5 : x5.Canon := (congrArg Loaded.Canon h2).mp (readPieces_canon hs)
    exact hx5
  · rename_i t1 h2
    split
    · split
      · dsimp only
        have ht1 : t1.Canon := (congrArg Loaded.Canon h2).mp (readPieces_canon hs)
        exact acquireAfter_canon (varAwait_canon (sendLoads_canon ht1))
      · dsimp only
        have ht1 : t1.Canon := (congrArg Loaded.Canon h2).mp (readPieces_canon hs)
        exact varAwait_canon (sendLoads_canon ht1)
    · split
      · dsimp only
        have ht1 : t1.Canon := (congrArg Loaded.Canon h2).mp (readPieces_canon hs)
        exact acquireAfter_canon (varAwait_canon (sendLoads_canon ht1))
      · dsimp only
        have ht1 : t1.Canon := (congrArg Loaded.Canon h2).mp (readPieces_canon hs)
        exact varAwait_canon (sendLoads_canon ht1)

theorem readNow_canon {s : State} {ea : Word} {n : ℕ} {l1 st : Bool} (hs : s.Canon) :
    ExAll Act.Canon (fun r => r.2.Canon) (s.readNow ea n l1 st) := by
  unfold State.readNow
  split
  · rename_i x2 h1
    have hx2 : x2.Canon := (congrArg Loaded.Canon h1).mp (readPieces_canon hs)
    exact ex_error hx2
  · rename_i t1 h1
    have ht1 : t1.Canon := (congrArg Loaded.Canon h1).mp (readPieces_canon hs)
    exact ht1
  · rename_i t1 h1
    have ht1 : t1.Canon := (congrArg Loaded.Canon h1).mp (readPieces_canon hs)
    refine ite_ex (ite_ex (ex_error hs) (pair_snd (direct_canon ht1))) ?_
    split
    · exact pair_snd (setMe_canon ht1)
    · rename_i t2 h2
      have ht2 : t2.Canon := (lineOf_canon ht1).err h2
      exact ex_error ht2

theorem safeptBody_canon {o : Ops} {s : State} (hs : s.Canon) : (safeptBody o s).Canon := by
  unfold safeptBody
  refine ite_act hs (ite_act (atSafept_canon hs) (within_canon (ite_act trivial ?_)))
  split
  · rename_i x2 h1
    have hx2 : x2.Canon := (readNow_canon hs).err h1
    exact hx2
  · rename_i t1 h1
    have ht1 : t1.Canon := (readNow_canon hs).ok h1
    exact atSafept_canon (useMap_canon ht1)

theorem dirtyWindow_canon {s : State} {h st : ℕ} {bs : List (ℕ × Byte)} {on : Bool} (hs : s.Canon) : (s.dirtyWindow h st bs on).Canon := by
  unfold State.dirtyWindow
  split
  · dsimp only
    split
    · exact hs
    · exact setHam_canon hs
  · dsimp only
    split
    · exact hs
    · exact setHam_canon hs

theorem putPart_canon {s : State} {p : Place} {bs : List (ℕ × Byte)} {post wide st : Bool} (hs : s.Canon) :
    (s.putPart p bs post wide st).Canon := by
  unfold State.putPart
  split
  · exact homePut_wf hs
  · exact ite_wf (windowHomePut_wf hs) (writePlace_wf hs)
  · exact ite_wf (send_canon (giveLine_canon hs)) (ite_wf (shareWin_wf (homePut_wf (noteUnbacked_wf (giveLine_canon hs))))
        (ite_wf (send_canon (backLine_canon hs)) (writePlace_wf hs)))
  · exact send_canon hs
  · exact send_canon hs

theorem queueItem_canon {s : State} {root : Word} {p : Priv} {w : How} {x : StoreOne} {k : State → Act} (hs : s.Canon)
    (hk : ∀ (a : State), a.Canon → (k a).Canon) : (s.queueItem root p w x k).Canon := by
  unfold State.queueItem
  split
  rename_i t1 h1
  dsimp only
  split
  · exact hk _ hs
  · have ht1 : t1.Canon := third_canon h1 (resolveParts_canon hs)
    exact getD_act (storeFault_canon ht1 hk) (hk _ ht1)
  · have ht1 : t1.Canon := third_canon h1 (resolveParts_canon hs)
    exact ite_act (getD_act (storeFault_canon ht1 hk) (hk _ ht1)) (getD_act
        (storeFault_canon ht1 (fun _ h => getD_act (storeFault_canon h hk) (hk _ h))) (getD_act (storeFault_canon ht1 hk) (hk _ ht1)))

theorem queueEach_canon {root : Word} {p : Priv} {w : How} {k : State → Act} (xs : List StoreOne) {s : State} (hs : s.Canon)
    (hk : ∀ t, t.Canon → (k t).Canon) : (State.queueEach root p w k xs s).Canon := by
  induction xs generalizing s with
  | nil => exact hk s hs
  | cons x xs ih => exact queueItem_canon hs fun _ h => ih h

theorem writesOf_canon {s : State} {root : Word} {p : Priv} {xs : List StoreOne} {joined : Bool} (hs : s.Canon) :
    (s.writesOf root p xs joined).2.Canon := by
  unfold State.writesOf
  refine foldl_snd (fun a1 a2 h1 => ?_) _ _ hs
  split
  rename_i t1 h2
  have ht1 : t1.Canon := third_canon h2 (resolveParts_canon h1)
  exact ht1

theorem storeItems_canon {s : State} {root : Word} {p : Priv} {xs : List StoreOne} {w : How} {joined : Bool} {k : State → Act}
    (hs : s.Canon) (hk : ∀ (a : State), a.Canon → (k a).Canon) : (s.storeItems root p xs w joined k).Canon := by
  unfold State.storeItems
  dsimp only
  split
  · exact troubled_canon hs
  · trivial
  · split
    · exact cxlAsk_canon hs
    · refine ite_act hs ?_
      split
      · exact refusedAct_canon hs
      · exact queueEach_canon _ hs (fun _ h => hk _ (foldl_wf _ (fun _ _ h5 => putPart_canon h5) _ _ (writesOf_canon h)))

theorem stBody_canon {o : Ops} {t : StTy} {s : State} (hs : s.Canon) : (stBody o t s).Canon := by
  unfold stBody
  split
  exact within_canon (ite_act trivial (ite_act (released_canon hs (fun _ h => storeItems_canon h (fun _ h2 => done_canon h2)))
      (storeItems_canon hs (fun _ h => done_canon h))))

theorem withWord_canon {s : State} {ea : Word} {kind : Access} {k : State → Place → ℕ → Act} (hs : s.Canon)
    (hk : ∀ t : State, t.Canon → ∀ p n, (k t p n).Canon) : (s.withWord ea kind k).Canon := by
  unfold State.withWord
  refine ite_act trivial ?_
  split
  · exact refusedAct_canon hs
  · extract_lets behind late
    cases hr : s.resolve ea kind with
    | error e =>
      dsimp only
      split
      · exact troubled_canon hs
      · exact troubled_canon hs
      · exact waitEntry_canon hs
      · exact troubled_canon hs
    | ok q =>
      have ht : q.2.Canon := (resolve_canon hs).ok hr
      refine ite_act trivial (ite_act trivial ?_)
      split
      · trivial
      · exact waitEntry_canon hs
      · split
        · exact cxlAsk_canon ht
        · exact hk _ ht _ _

theorem filled_canon {s : State} {x : Place} (hs : s.Canon) : (s.filled x).Canon := by
  unfold State.filled
  split
  · exact fillWindow_wf hs
  · exact hs

theorem ldsyncBody_canon {o : Ops} {cons : Bool} {s : State} (hs : s.Canon) : (ldsyncBody o cons s).Canon := by
  unfold ldsyncBody
  refine ite_act illegal_canon (within_canon (withWord_canon hs (fun t h a1 a2 => ?_)))
  split
  · split
    · split
      · exact ite_act (ite_act (setMe_canon h) (acquire_canon (var_canon (setMe_canon h)))) (ite_act hs (remoteRead_canon h))
      · exact ite_act hs (remoteRead_canon h)
    · refine ite_act hs (ite_act ?_ (acquire_canon (var_canon (setFull_canon ?_))))
      · split
        · exact direct_canon (filled_canon h)
        · exact filled_canon h
      · split
        · exact direct_canon (filled_canon h)
        · exact filled_canon h
  · split
    · split
      · exact ite_act (ite_act (setMe_canon h) (acquire_canon (var_canon (setMe_canon h)))) (ite_act hs (remoteRead_canon h))
      · exact ite_act hs (remoteRead_canon h)
    · refine ite_act hs (ite_act ?_ (acquire_canon (var_canon ?_)))
      · split
        · exact direct_canon (filled_canon h)
        · exact filled_canon h
      · split
        · exact direct_canon (filled_canon h)
        · exact filled_canon h

theorem syncStore_canon {s : State} {pa : ℕ} {v : Word} (hs : s.Canon) : (s.syncStore pa v).Canon := by
  unfold State.syncStore
  exact wakeWord_canon (setFull_canon (homePut_wf hs))

theorem setWord_canon {s : State} {pa : ℕ} {full : Bool} (hs : s.Canon) : (s.setWord pa full).Canon := by
  unfold State.setWord
  exact ite_wf (wakeWord_canon (setFull_canon hs)) (setFull_canon hs)

theorem stsyncBody_canon {o : Ops} {s : State} (hs : s.Canon) : (stsyncBody o s).Canon := by
  unfold stsyncBody
  refine within_canon (ite_act trivial (released_canon hs (fun t h => withWord_canon h (fun t1 h1 a1 a2 => ite_act hs ?_))))
  split
  · exact send_canon h1
  · exact send_canon h1
  · exact syncStore_canon (ite_wf (windowHomePut_wf h1) (shareWin_wf (shareL1_canon (dirtyWindow_canon (filled_canon h1)))))
  · exact syncStore_canon h1

theorem fesetBody_canon {o : Ops} {full : Bool} {s : State} (hs : s.Canon) : (fesetBody o full s).Canon := by
  unfold fesetBody
  refine within_canon (withWord_canon hs (fun t h a1 a2 => ite_act hs ?_))
  split
  · exact send_canon h
  · exact send_canon h
  · exact setWord_canon (filled_canon h)

theorem prefBody_canon {o : Ops} {dst : PrefTo} {s : State} (hs : s.Canon) : (prefBody o dst s).Canon := by
  unfold prefBody
  refine within_canon ?_
  dsimp only
  split
  · exact noteWalk_canon hs
  · rename_i t1 h1
    have ht1 : t1.Canon := (resolve_canon hs).ok h1
    refine ite_act ht1 ?_
    split
    · exact ite_wf (readPlace_wf ht1) (noteUnbacked_wf ht1)
    · exact ite_wf (lineIn_wf ht1) (noteUnbacked_wf ht1)
    · exact filled_canon ht1
    · exact ht1

theorem stashBody_canon {o : Ops} {drop : Bool} {s : State} (hs : s.Canon) : (stashBody o drop s).Canon := by
  unfold stashBody
  refine within_canon (ite_act trivial ?_)
  split
  · exact hs
  · refine ite_act (dropWindow_wf hs) ?_
    split
    · exact troubled_canon hs
    · rename_i t1 h2
      split
      · trivial
      · have ht1 : t1.Canon := (resolve_canon hs).ok h2
        exact cxlAsk_canon ht1
      · have ht1 : t1.Canon := (resolve_canon hs).ok h2
        exact filled_canon ht1

theorem flushBody_canon {o : Ops} {inv : Bool} {s : State} (hs : s.Canon) : (flushBody o inv s).Canon := by
  unfold flushBody
  refine within_canon ?_
  dsimp only
  split
  · exact noteWalk_canon hs
  · exact troubled_canon hs
  · rename_i t1 h1
    split
    · have ht1 : t1.Canon := (resolveFor_canon hs).ok h1
      exact flushLine_wf ht1
    · have ht1 : t1.Canon := (resolveFor_canon hs).ok h1
      exact flushLine_wf ht1
    · have ht1 : t1.Canon := (resolveFor_canon hs).ok h1
      exact ht1

theorem dropCopies_canon {s : State} {h line : ℕ} (hs : s.Canon) : (s.dropCopies h line).Canon := by
  unfold State.dropCopies
  exact ite_wf hs (foldl_wf _ (fun _ _ h1 => setHam_canon h1) _ _ hs)

theorem zeroPlace_canon {s : State} {p : Place} (hs : s.Canon) : (s.zeroPlace p).Canon := by
  unfold State.zeroPlace
  split
  · exact homePut_wf hs
  · exact writePlace_wf hs
  · exact foldl_wf _ (fun _ _ h1 => send_canon h1) _ _ hs
  · exact send_canon (dropCopies_canon (dropLine_canon hs))
  · exact foldl_wf _ (fun _ _ h1 => send_canon h1) _ _ hs
  · exact send_canon hs
  · exact foldl_wf _ (fun _ _ h1 => send_canon h1) _ _ hs
  · exact send_canon hs

theorem zlineBody_canon {o : Ops} {s : State} (hs : s.Canon) : (zlineBody o s).Canon := by
  unfold zlineBody
  refine within_canon (ite_act trivial ?_)
  split
  · dsimp only
    split
    · exact troubled_canon hs
    · exact troubled_canon hs
    · rename_i t1 h2
      split
      · trivial
      · split
        · trivial
        · split
          · have ht1 : t1.Canon := (resolveFor_canon hs).ok h2
            exact cxlAsk_canon ht1
          · have ht1 : t1.Canon := (resolveFor_canon hs).ok h2
            exact ite_act hs (zeroPlace_canon ht1)
  · dsimp only
    split
    · split
      · rename_i x6 h3
        have hx6 : x6.Canon := (storeFault_canon hs (fun _ h => done_canon h)).get h3
        exact hx6
      · exact hs
    · exact troubled_canon hs
    · rename_i t1 h2
      split
      · trivial
      · split
        · rename_i x6 h4
          have hx6 : x6.Canon := (storeFault_canon hs (fun _ h => done_canon h)).get h4
          exact hx6
        · split
          · have ht1 : t1.Canon := (resolveFor_canon hs).ok h2
            exact cxlAsk_canon ht1
          · have ht1 : t1.Canon := (resolveFor_canon hs).ok h2
            exact ite_act hs (zeroPlace_canon ht1)

theorem fenceBody_canon {scope : Scope} {kind : FenceKind} {s : State} (hs : s.Canon) : (fenceBody scope kind s).Canon := by
  unfold fenceBody
  split
  · exact ite_act (acquire_canon hs) hs
  · exact withRelease_canon hs (fun _ h => done_canon h)
  · exact withRelease_canon hs (fun _ h => done_canon (acquire_canon h))
  · exact withRelease_canon hs (fun _ h => done_canon (acquire_canon h))

theorem waitcBody_canon {n : BitVec 2} {s : State} (hs : s.Canon) : (waitcBody n s).Canon := by
  unfold waitcBody
  exact ite_act hs hs

theorem waitaBody_canon {o : Ops} {eq : Bool} {s : State} (hs : s.Canon) : (waitaBody o eq s).Canon := by
  unfold waitaBody
  refine within_canon (ite_act trivial ?_)
  split
  · rename_i x2 h1
    have hx2 : x2.Canon := (readNow_canon hs).err h1
    exact hx2
  · rename_i t1 h1
    have ht1 : t1.Canon := (readNow_canon hs).ok h1
    exact ite_act (var_canon ht1) ht1

/-! ### Canonical memory: atomics -/

theorem atomicBody_canon {o : Ops} {f : AtomicFn} {w : ℕ} {s : State} (hs : s.Canon) : (atomicBody o f w s).Canon := by
  unfold atomicBody
  extract_lets n ea d
  generalize ordOf o = q
  obtain ⟨ord, sc⟩ := q
  refine ite_act trivial ?_
  suffices h : ∀ go : State → Act, (∀ r : State, r.Canon → (go r).Canon) →
      (if ord = 2 || ord = 3 then s.released sc false go else go s).Canon by
    refine h _ (fun r h => ?_)
    split
    · exact refusedAct_canon h
    · cases hr : r.resolve ea .atomic with
      | error e =>
        dsimp only
        split
        · exact waitEntry_canon h
        · exact troubled_canon h
        · exact troubled_canon h
      | ok q =>
        have ht : q.2.Canon := (resolve_canon h).ok hr
        dsimp only
        split
        · exact ite_act trivial trivial
        · exact ite_act (waitEntry_canon h) trivial
        · split
          · exact cxlAsk_canon ht
          · split
            · exact ite_wf (acquire_canon (var_canon (applyAtomic_wf ht))) (var_canon (applyAtomic_wf ht))
            · refine ite_act hs (ite_act trivial (ite_act hs ?_))
              exact ite_wf (acquireAfter_canon (varAwait_canon (send_canon (evictFor_wf ht))))
                  (varAwait_canon (send_canon (evictFor_wf ht)))
            · exact ht
  exact fun go hgo => ite_act (released_canon hs hgo) (hgo s hs)

theorem amoBody_canon {o : Ops} {f : AmoFn} {s : State} (hs : s.Canon) : (amoBody o f s).Canon := by
  unfold amoBody
  exact within_canon (atomicBody_canon hs)

theorem casBody_canon {o : Ops} {f : CasFn} {s : State} (hs : s.Canon) : (casBody o f s).Canon := by
  unfold casBody
  exact within_canon (atomicBody_canon hs)

theorem redBody_canon {o : Ops} {f : AmoFn} {s : State} (hs : s.Canon) : (redBody o f s).Canon := by
  unfold redBody
  refine within_canon (ite_act trivial ?_)
  extract_lets root fault go
  have hfault : ∀ (r : State) e, r.Canon → OptAll Act.Canon (fault r e) := fun r e hr =>
    map_opt (storeFault_canon hr fun _ h => done_canon h) fun a ha => ite_act trivial ha
  have hgo : ∀ r : State, r.Canon → (go r).Canon := by
    intro r hr
    dsimp only [go]
    split
    · exact ite_act (troubled_canon hr) (getD_act (hfault r _ hr) hs)
    · exact troubled_canon hr
    · rename_i p t h
      have ht : t.Canon := (resolveFor_canon hr).ok h
      split
      · rename_i a ha
        exact (hfault r _ hr).get ha
      · split
        · exact applyAtomic_wf ht
        · exact ite_act hs (send_canon (evictFor_wf ht))
        · exact ht
  exact ite_act (released_canon hs hgo) (hgo s hs)

/-! ### Canonical memory: active messages, and messages at their homes -/

theorem oweRun_canon {s : State} {c : ℕ} (hs : s.Canon) : (s.oweRun c).Canon := by
  unfold State.oweRun
  split
  · exact hs
  · split
    · exact owe_canon hs
    · exact owe_canon hs

theorem deliver_canon {s : State} {c : ℕ} {r : Run} (hs : s.Canon) : (s.deliver c r).Canon := by
  unfold State.deliver
  exact ite_wf (oweRun_canon (setCore_canon hs)) (setCore_canon hs)

theorem startRun_canon {s : State} {c : ℕ} {r : Run} (hs : s.Canon) : (s.startRun c r).Canon := by
  unfold State.startRun
  refine oweOnce_canon (setCtx_canon ?_)
  split
  · exact hs
  · exact hs

theorem endRun_canon {s : State} {c : ℕ} (hs : s.Canon) : (s.endRun c).Canon := by
  unfold State.endRun
  exact oweRun_canon (setCtx_canon hs)

theorem tryRun_canon {s : State} {c : ℕ} {mine : RunKind → Bool} (hs : s.Canon) : (s.tryRun c mine).Canon := by
  unfold State.tryRun
  refine ite_wf hs ?_
  split
  · exact hs
  · exact ite_wf hs (startRun_canon hs)

theorem execActiveMessageRun_canon {c : CoreId} {s : State} (hs : s.Canon) : OutCanon (execActiveMessageRun c s) := by
  unfold execActiveMessageRun
  exact tryRun_canon hs

theorem execEscalationRun_canon {c : CoreId} {s : State} (hs : s.Canon) : OutCanon (execEscalationRun c s) := by
  unfold execEscalationRun
  exact tryRun_canon hs

theorem overrun_canon {s : State} {c : CoreId} (hs : s.Canon) : (s.overrun c).Canon := by
  unfold State.overrun
  dsimp only
  split
  · exact ite_wf (enterTrap_canon (as_canon hs)) (oweOnce_canon hs)
  · exact hs

theorem execHandlerOverrun_canon {c : CoreId} {s : State} (hs : s.Canon) : OutCanon (execHandlerOverrun c s) := by
  unfold execHandlerOverrun
  exact overrun_canon hs

theorem recordStop_canon {s : State} {c k : ℕ} (hs : s.Canon) : (s.recordStop c k).Canon := by
  unfold State.recordStop
  exact mark_canon (record_wf hs)

theorem dispose_canon {s : State} {c k : ℕ} {word : Word} (hs : s.Canon) : (s.dispose c k word).Canon := by
  unfold State.dispose
  refine ite_wf hs (ite_wf (endRun_canon (ite_wf (setCtx_canon (ite_wf (mark_canon hs) (recordStop_canon hs)))
      (ite_wf (mark_canon hs) (recordStop_canon hs)))) (ite_wf ?_ (ite_wf (mark_canon hs) (recordStop_canon hs))))
  split
  · split
    · exact ite_wf (owe_canon (setCtx_canon (mark_canon hs))) (ite_wf (owe_canon (setCtx_canon (mark_canon hs)))
          (setCtx_canon (mark_canon hs)))
    · exact setCtx_canon (mark_canon hs)
  · split
    · exact ite_wf (owe_canon (setCtx_canon (recordStop_canon hs))) (ite_wf (owe_canon (setCtx_canon (recordStop_canon hs)))
          (setCtx_canon (recordStop_canon hs)))
    · exact setCtx_canon (recordStop_canon hs)

theorem execDisposition_canon {c : CoreId} {k : CtxId} {word : Word} {s : State} (hs : s.Canon) :
    OutCanon (execDisposition c k word s) := by
  unfold execDisposition
  exact dispose_canon hs

theorem amsendBody_canon {o : Ops} {rep : Bool} {s : State} (hs : s.Canon) : (amsendBody o rep s).Canon := by
  unfold amsendBody
  refine ite_act illegal_canon (within_canon ?_)
  suffices h : ∀ go : State → Act, (∀ r : State, r.Canon → (go r).Canon) → ∀ c sc, (if c = 2 then s.released sc false go else go s).Canon by
    refine h _ (fun r hr => ?_) _ _
    cases hres : r.resolve (s.scOp o o.a) .data with
    | error e => exact troubled_canon hr
    | ok q =>
      have ht : q.2.Canon := (resolve_canon hr).ok hres
      dsimp only
      split
      · trivial
      · refine ite_act trivial (ite_act hs ?_)
        exact ite_wf (varAwait_canon (send_canon ht)) (send_canon ht)
  intro go hgo c sc
  exact ite_act (released_canon hs hgo) (hgo s hs)

theorem amretBody_canon {o : Ops} {s : State} (hs : s.Canon) : (amretBody o s).Canon := by
  unfold amretBody
  split
  · refine within_canon ?_
    split
    · exact ite_act (withRelease_canon hs (fun _ h => endRun_canon (answerRun_canon (latched_canon h))))
          (ite_act (endRun_canon (answerRun_canon (latched_canon (commitAll_canon hs)))) hs)
    · exact ite_act (endRun_canon (answerRun_canon (latched_canon (commitAll_canon hs)))) hs
  · exact illegal_canon

theorem applyWired_canon {s : State} {pa : ℕ} {f : BitVec 48} {xs : List (ℕ × BitVec 32)} (hs : s.Canon) :
    (s.applyWired pa f xs).Canon := by
  unfold State.applyWired
  refine fillWords_canon (ite_wf (foldl_wf _ (fun t1 a1 h1 => ?_) _ _ hs) (homePut_wf hs))
  split
  exact applyAtomic_wf h1

theorem applyBody_canon {s : State} {b : Body} (hs : s.Canon) : OptAll (fun r => r.2.2.Canon) (s.applyBody b) := by
  unfold State.applyBody
  generalize zeros64 = z
  cases b <;> dsimp only
  case store pa bs full => exact opt_third (ite_wf (fillWords_canon (homePut_wf hs)) (homePut_wf hs))
  case stsync pa v => exact opt_third (syncStore_canon hs)
  case feset pa full => exact opt_third (setWord_canon hs)
  case zline pa => exact opt_third (homePut_wf hs)
  case load pa n sx => exact opt_third (ite_wf (lineIn_wf hs) hs)
  case ldsync pa cons => exact ite_opt trivial (opt_third (ite_wf (setFull_canon hs) hs))
  case atomic pa f => exact opt_third (applyAtomic_wf hs)
  case wired pa f xs => exact opt_third (applyWired_canon hs)
  case staged pa f rs => exact opt_third (foldl_wf _ (fun _ _ h => applyWired_canon h) _ _ hs)
  all_goals exact opt_third hs

theorem refreshCopy_canon {s : State} {h : ℕ} {b : Body} (hs : s.Canon) : (s.refreshCopy h b).Canon := by
  unfold State.refreshCopy
  split
  · exact hs
  · exact refresh_wf hs

theorem countIn_canon {s : State} {m : Msg} (hs : s.Canon) : (s.countIn m).Canon := by
  unfold State.countIn
  exact ite_wf (received_canon hs) hs

theorem nextDev_canon {s : State} {c k : ℕ} (hs : s.Canon) : (s.nextDev c k).Canon := by
  unfold State.nextDev
  dsimp only
  split
  · exact hs
  · exact ite_wf hs (numbered_canon (setCtx_canon hs))

theorem acknowledge_canon {s : State} {m : Msg} (hs : s.Canon) : (s.acknowledge m).Canon := by
  unfold State.acknowledge
  exact nextDev_canon (ite_wf (received_canon (setCtx_canon hs)) (setCtx_canon hs))

theorem lostRead_canon {s : State} {m : Msg} {info : Word} (hs : s.Canon) : (s.lostRead m info).Canon := by
  unfold State.lostRead
  split
  · exact acknowledge_canon hs
  · exact takeLate_canon (acknowledge_canon (setCtx_canon hs))

theorem lostStore_canon {s : State} {m : Msg} (hs : s.Canon) : (s.lostStore m).Canon := by
  unfold State.lostStore
  exact acknowledge_canon (record_wf (mark_canon hs))

theorem cxlMeets_canon {s : State} {m : Msg} {again : Instr} (hs : s.Canon) : OptAll State.Canon (s.cxlMeets m again) := by
  unfold State.cxlMeets
  split
  · dsimp only
    split
    · trivial
    · exact ite_opt (lostStore_canon hs) (oweOnce_canon hs)
  · dsimp only
    split
    · trivial
    · exact ite_opt (lostStore_canon hs) (ite_opt (oweOnce_canon (cxlAsk_canon hs)) trivial)

theorem applyMsg_canon {s : State} {m : Msg} {again : Instr} (hs : s.Canon) : (s.applyMsg m again).Canon := by
  unfold State.applyMsg
  refine ite_wf hs (ite_wf (owe_canon hs) (ite_wf (owe_canon hs) ?_))
  split
  · exact deliver_canon hs
  · split
    · rename_i t1 h2
      have ht1 : t1.Canon := (cxlMeets_canon hs).get h2
      exact ht1
    · exact countIn_canon (lostRead_canon hs)
    · split
      · exact owe_canon hs
      · rename_i t1 h4
        have ht1 : t1.Canon := (applyBody_canon (noteUnbacked_wf hs)).get h4
        exact countIn_canon (finishMsg_canon (refreshCopy_canon ht1))

theorem execPostedStoreApply_canon {id : ℕ} {s : State} (hs : s.Canon) : OutCanon (execPostedStoreApply id s) := by
  unfold execPostedStoreApply
  split
  · exact ite_wf (applyMsg_canon hs) hs
  · exact hs

theorem execAtomicApply_canon {id : ℕ} {s : State} (hs : s.Canon) : OutCanon (execAtomicApply id s) := by
  unfold execAtomicApply
  split
  · exact ite_wf (applyMsg_canon hs) hs
  · exact hs

theorem noteForeign_canon {s : State} {pa : ℕ} (hs : s.Canon) : (s.noteForeign pa).Canon := by
  unfold State.noteForeign
  exact ite_wf (record_wf hs) hs

theorem serveIncoming_canon {s : State} {m : Msg} (hs : s.Canon) : (s.serveIncoming m).Canon := by
  unfold State.serveIncoming
  refine ite_wf hs (ite_wf (oweOnce_canon hs) (ite_wf (ite_wf ?_ (oweOnce_canon (cxlAsk_canon hs))) ?_))
  · split
    · exact packetOut_canon (ack_canon (record_wf hs))
    · exact ack_canon (record_wf hs)
  · split
    · exact deliver_canon hs
    · split
      · exact packetOut_canon (ack_canon hs)
      · exact ack_canon hs
    · split
      · split
        · exact packetOut_canon (ack_canon hs)
        · exact ack_canon hs
      · rename_i t1 h3
        split
        · have ht1 : t1.Canon := (applyBody_canon (noteForeign_canon hs)).get h3
          exact packetOut_canon (ack_canon ht1)
        · have ht1 : t1.Canon := (applyBody_canon (noteForeign_canon hs)).get h3
          exact ack_canon ht1

theorem serveOldest_canon {s : State} {c : ℕ} (hs : s.Canon) : (s.serveOldest c).Canon := by
  unfold State.serveOldest
  dsimp only
  split
  · exact ite_wf (oweOnce_canon (serveIncoming_canon hs)) (serveIncoming_canon hs)
  · exact ite_wf (oweOnce_canon hs) hs

theorem serveHome_canon {s : State} {c : ℕ} (hs : s.Canon) : (s.serveHome c).Canon := by
  unfold State.serveHome
  dsimp only
  split
  · exact applyMsg_canon hs
  · exact ite_wf (oweOnce_canon (serveOldest_canon hs)) (serveOldest_canon hs)

theorem execRemoteAccessService_canon {c : CoreId} {s : State} (hs : s.Canon) : OutCanon (execRemoteAccessService c s) := by
  unfold execRemoteAccessService
  exact serveHome_canon hs

theorem takeReply_canon {s : State} {m : Msg} {data : Row} {fl : BitVec 6} (hs : s.Canon) : (s.takeReply m data fl).Canon := by
  unfold State.takeReply
  exact takeLate_canon (acknowledge_canon (setCtx_canon (ite_wf hs (setCore_canon hs))))

theorem execReplyArrival_canon {id : ℕ} {s : State} (hs : s.Canon) : OutCanon (execReplyArrival id s) := by
  unfold execReplyArrival
  split
  · split
    · exact takeReply_canon hs
    · exact hs
  · exact hs

theorem execPostedAck_canon {id : ℕ} {s : State} (hs : s.Canon) : OutCanon (execPostedAck id s) := by
  unfold execPostedAck
  refine out_next ?_
  cases s.flight.find? fun (m : Msg) => m.id = id with
  | none => exact hs
  | some m =>
    have hd : (s.delivered m.pkg id).Canon := delivered_canon hs
    dsimp only
    refine ite_wf (ite_wf (acknowledge_canon hs) hs) (ite_wf hs ?_)
    generalize s.delivered m.pkg id = t at hd ⊢
    cases m.tag with
    | none => exact acknowledge_canon hd
    | some g => cases m.body <;> exact hd

theorem execVariableResultCommit_canon {c : CoreId} {k : CtxId} {s : State} (hs : s.Canon) : OutCanon (execVariableResultCommit c k s) := by
  unfold execVariableResultCommit
  exact ite_wf (unhold_canon (as_canon hs)) hs

theorem execWaitaRetry_canon {c : CoreId} {k : CtxId} {s : State} (hs : s.Canon) : OutCanon (execWaitaRetry c k s) := by
  unfold execWaitaRetry
  exact ite_wf (setCtx_canon hs) hs

theorem evict_canon {s : State} {h line : ℕ} (hs : s.Canon) : (s.evict h line).Canon := by
  have hd : ((s.writeBack h line).dropLine h line).Canon := dropLine_canon (writeBack_wf hs)
  unfold State.evict
  generalize List.replicate 64 (0 : Byte) = z
  exact ite_wf (memWrite_wf _ _ hd) (leaveWay_wf hd)

theorem execLineEviction_canon {h : HamletId} {line : ℕ} {s : State} (hs : s.Canon) : OutCanon (execLineEviction h line s) := by
  unfold execLineEviction
  exact evict_canon hs

theorem fillScales_canon {s : State} {line : ℕ} (hs : s.Canon) : (s.fillScales line).Canon := by
  unfold State.fillScales
  split
  · exact ite_wf hs (takeWay_wf hs)
  · exact hs

theorem execScaleWindowFill_canon {line : ℕ} {s : State} (hs : s.Canon) : OutCanon (execScaleWindowFill line s) := by
  unfold execScaleWindowFill
  exact fillScales_canon hs

theorem execScaleWindowEvict_canon {line : ℕ} {s : State} (hs : s.Canon) : OutCanon (execScaleWindowEvict line s) := by
  unfold execScaleWindowEvict
  exact leaveWay_wf hs

theorem execTableWalk_canon {c : CoreId} {k : CtxId} {va : Word} {write : Bool} {s : State} (hs : s.Canon) :
    OutCanon (execTableWalk c k va write s) := by
  unfold execTableWalk
  refine ite_wf ?_ hs
  split
  · dsimp only
    split
    · rename_i t1 h2
      have ht1 : t1.Canon := (translateLeaf_canon hs).ok h2
      exact ite_wf (useLeaf_canon ht1) hs
    · exact noteWalk_canon hs
  · dsimp only
    split
    · rename_i t1 h2
      have ht1 : t1.Canon := (translateLeaf_canon hs).ok h2
      exact ite_wf (useLeaf_canon ht1) hs
    · exact noteWalk_canon hs

theorem snoop_canon {s : State} {line : ℕ} (hs : s.Canon) : (s.snoop line).Canon := by
  unfold State.snoop
  dsimp only
  split
  · exact ite_wf hs (leaveWay_wf (foldl_wf _ (fun _ _ h2 => flushLine_wf h2) _ _ hs))
  · exact hs

theorem execBackInvalidation_canon {line : ℕ} {s : State} (hs : s.Canon) : OutCanon (execBackInvalidation line s) := by
  unfold execBackInvalidation
  exact snoop_canon hs

theorem replayHome_canon {s : State} {p : Place} {pa : ℕ} {bs : List (ℕ × Byte)} (hs : s.Canon) : (s.replayHome p pa bs).Canon := by
  unfold State.replayHome
  exact ite_wf (record_wf (mark_canon (noteUnbacked_wf (ite_wf (giveLine_canon hs) (backLine_canon hs)))))
      (refresh_wf (direct_canon (ite_wf (foldl_wf _ (fun _ _ h1 => homePut_wf h1) _ _
      (noteUnbacked_wf (ite_wf (giveLine_canon hs) (backLine_canon hs))))
      (homePut_wf (noteUnbacked_wf (ite_wf (giveLine_canon hs) (backLine_canon hs)))))))

theorem replayPut_canon {s : State} {r : Replay} {p : Place} {bs : List (ℕ × Byte)} (hs : s.Canon) : (s.replayPut r p bs).Canon := by
  unfold State.replayPut
  refine ite_wf (putPart_canon hs) ?_
  split
  · exact putPart_canon hs
  · exact putPart_canon hs
  · exact ite_wf (replayHome_canon hs) (putPart_canon hs)
  · exact replayHome_canon hs
  · exact putPart_canon hs

theorem replayZero_canon {s : State} {r : Replay} {p : Place} (hs : s.Canon) : (s.replayZero r p).Canon := by
  unfold State.replayZero
  refine ite_wf (zeroPlace_canon hs) ?_
  split
  · exact replayHome_canon (dropCopies_canon (dropLine_canon hs))
  · exact replayHome_canon (dropCopies_canon (dropLine_canon hs))
  · exact zeroPlace_canon hs

theorem replayAtomic_canon {s : State} {r : Replay} {p : Place} {f : AtomicFn} (hs : s.Canon) : (s.replayAtomic r p f).Canon := by
  unfold State.replayAtomic
  split
  · exact applyAtomic_wf hs
  · exact ite_wf (send_canon (evictFor_wf hs)) (refresh_wf (direct_canon (applyAtomic_wf (evictFor_wf hs))))
  · exact hs

theorem replayAt_canon {s : State} {r : Replay} {p : Place} {off n : ℕ} (hs : s.Canon) : (s.replayAt r p off n).Canon := by
  unfold State.replayAt
  split
  · exact replayAtomic_canon hs
  · exact replayPut_canon hs
  · exact replayZero_canon hs

theorem replayOne_canon {s : State} {c : ℕ} {r : Replay} (hs : s.Canon) : OptAll State.Canon (s.replayOne c r) := by
  unfold State.replayOne
  extract_lets kind u ps
  have hu : (u.resolveParts r.root r.priv r.va kind ps).2.2.Canon := resolveParts_canon (as_canon hs)
  generalize u.resolveParts r.root r.priv r.va kind ps = q at hu ⊢
  obtain ⟨got, bad, t⟩ := q
  dsimp only
  generalize worst (bad.map fun b => b.2.2) = w
  cases w with
  | some w =>
    cases w with
    | trap cause info => exact setCore_canon hu
    | bad l => exact setCore_canon hu
    | page cause level va => exact map_opt (pagerFuture_canon hu) (fun _ h => setCore_canon h)
  | none =>
    dsimp only
    split
    · exact cxlAsk_canon hu
    · exact ite_opt trivial (setCore_canon (foldl_wf _ (fun _ _ h => replayAt_canon h) _ _ hu))

theorem execStoreReplay_canon {c : CoreId} {s : State} (hs : s.Canon) : OutCanon (execStoreReplay c s) := by
  unfold execStoreReplay
  split
  · exact hs
  · exact ite_wf (oweOnce_canon (getD_state (replayOne_canon hs) hs)) (getD_state (replayOne_canon hs) hs)

/-! ### Canonical memory: futures -/

theorem fnewBody_canon {i : Instr} {o : Ops} {count : Bool} {s : State} (hs : s.Canon) : (fnewBody i o count s).Canon := by
  unfold fnewBody
  refine ite_act illegal_canon (ite_act hs (within_canon ?_))
  split
  · exact var_canon hs
  · rename_i t1 h1
    have ht1 : t1.Canon := (allocFuture_canon hs).get h1
    exact var_canon ht1

theorem putFuture_canon {s : State} {hd : BitVec 32} {v : Word} (hs : s.Canon) : (s.putFuture hd v).2.Canon := by
  unfold State.putFuture
  dsimp only
  split
  · exact ite_snd hs (pair_snd (wake_canon (setFuture_canon hs)))
  · exact pair_snd (addCount_canon hs)
  · exact pair_snd (pagerDone_canon hs)
  · exact hs

theorem pagerGuard_canon {s : State} {i : Instr} {hd : BitVec 32} {k : Act} (hk : k.Canon) :
    (s.pagerGuard i hd k).Canon := by
  unfold State.pagerGuard
  exact ite_act trivial hk

theorem fresher_canon {s : State} {hd : BitVec 32} {k : Act} (hk : k.Canon) : (s.fresher hd k).Canon := by
  unfold State.fresher
  exact ite_act trivial hk

theorem fputBody_canon {o : Ops} {s : State} (hs : s.Canon) : (fputBody o s).Canon := by
  unfold fputBody
  refine within_canon (pagerGuard_canon (within_canon (fresher_canon (withRelease_canon hs (fun t h => ite_act h ?_)))))
  split
  rename_i t1 h1
  have ht1 : t1.Canon := snd_canon h1 (putFuture_canon h)
  exact var_canon ht1

theorem fgetBody_canon {o : Ops} {s : State} (hs : s.Canon) : (fgetBody o s).Canon := by
  unfold fgetBody
  refine ite_act illegal_canon (within_canon ?_)
  split
  · exact var_canon (acquire_canon hs)
  · refine fresher_canon (ite_act hs ?_)
    split
    · exact ite_act (var_canon (acquire_canon hs)) hs
    · exact ite_act (var_canon (acquire_canon hs)) hs
    · exact hs
    · exact hs

theorem fgetPollBody_canon {o : Ops} {s : State} (hs : s.Canon) : (fgetPollBody o s).Canon := by
  unfold fgetPollBody
  refine within_canon (fresher_canon (ite_act hs ?_))
  split
  · exact ite_act (var_canon (acquire_canon hs)) (var_canon hs)
  · exact ite_act (var_canon (acquire_canon hs)) (var_canon hs)
  · exact var_canon hs
  · exact hs

theorem frelBody_canon {o : Ops} {s : State} (hs : s.Canon) : (frelBody o s).Canon := by
  unfold frelBody
  exact ite_act illegal_canon (ite_act hs (within_canon (pagerGuard_canon (fresher_canon (ite_act hs (freeFuture_canon hs))))))

/-! ### Canonical memory: barriers, QUIESCE and channels -/

theorem setLaunch_canon {s : State} {l : Launch} (hs : s.Canon) : (s.setLaunch l).Canon := by
  unfold State.setLaunch
  exact hs

theorem setBarrier_canon {s : State} {h : ℕ} {sc : BarScope} {n : BitVec 2} {b : Barrier} (hs : s.Canon) :
    (s.setBarrier h sc n b).Canon := by
  unfold State.setBarrier
  exact setHam_canon hs

theorem completeEpisode_canon {s : State} {h : ℕ} {sc : BarScope} {n : BitVec 2} {b : Barrier} (hs : s.Canon) :
    (s.completeEpisode h sc n b).Canon := by
  unfold State.completeEpisode
  split
  · exact owe_canon (setBarrier_canon hs)
  · exact owe_canon (setBarrier_canon hs)

theorem arrive_canon {s : State} {h : ℕ} {sc : BarScope} {n : BitVec 2} (hs : s.Canon) : (s.arrive h sc n).2.2.Canon := by
  unfold State.arrive
  dsimp only
  split
  · split
    · exact pair_snd (setBarrier_canon hs)
    · exact pair_snd (completeEpisode_canon hs)
  · exact pair_snd (setBarrier_canon hs)

theorem barBody_canon {o : Ops} {n : BitVec 2} {sc : BarScope} {s : State} (hs : s.Canon) : (barBody o n sc s).Canon := by
  unfold barBody
  refine ite_act illegal_canon (ite_act hs (ite_act (acquire_canon hs) (ite_act hs (withRelease_canon hs (fun t h => ?_)))))
  split
  rename_i t1 h1
  have ht1 : t1.Canon := third_canon h1 (arrive_canon h)
  exact ite_wf (waitHere_canon ht1) (park_canon ht1)

theorem releaseBar_canon {s : State} {h : ℕ} {sc : BarScope} {n : BitVec 2} (hs : s.Canon) : (s.releaseBar h sc n).Canon := by
  unfold State.releaseBar
  exact ite_wf (completeEpisode_canon (wake_canon hs)) (setBarrier_canon (wake_canon hs))

theorem hamletRelease_canon {s : State} {h : ℕ} {n : BitVec 2} (hs : s.Canon) : (s.hamletRelease h n).Canon := by
  unfold State.hamletRelease
  exact ite_wf hs (ite_wf (owe_canon hs) (releaseBar_canon hs))

theorem execHamletBarrierRelease_canon {h : HamletId} {n : BitVec 2} {s : State} (hs : s.Canon) :
    OutCanon (execHamletBarrierRelease h n s) := by
  unfold execHamletBarrierRelease
  exact hamletRelease_canon hs

theorem startPeal_canon {s : State} {h : ℕ} {sc : BarScope} {n : BitVec 2} {r : BarRoot} (hs : s.Canon) : (s.startPeal h sc n r).Canon := by
  unfold State.startPeal
  exact ite_wf (foldl_wf _ (fun _ _ h1 => owe_canon h1) _ _ hs) hs

theorem rootArrival_canon {s : State} {h : ℕ} {sc : BarScope} {n : BitVec 2} (hs : s.Canon) : (s.rootArrival h sc n).Canon := by
  unfold State.rootArrival
  exact ite_wf hs (ite_wf (ite_wf hs hs) (ite_wf hs (startPeal_canon hs)))

theorem execBarrierRootArrival_canon {h : HamletId} {scope : BarScope} {n : BitVec 2} {s : State} (hs : s.Canon) :
    OutCanon (execBarrierRootArrival h scope n s) := by
  unfold execBarrierRootArrival
  exact rootArrival_canon hs

theorem pealRelease_canon {s : State} {h : ℕ} {sc : BarScope} {n : BitVec 2} (hs : s.Canon) : (s.pealRelease h sc n).Canon := by
  unfold State.pealRelease
  exact ite_wf hs (ite_wf (owe_canon hs) (ite_wf (startPeal_canon (releaseBar_canon hs)) (releaseBar_canon hs)))

theorem execPealPhaseRelease_canon {h : HamletId} {scope : BarScope} {n : BitVec 2} {s : State} (hs : s.Canon) :
    OutCanon (execPealPhaseRelease h scope n s) := by
  unfold execPealPhaseRelease
  exact pealRelease_canon hs

theorem quiesceBody_canon {o : Ops} {s : State} (hs : s.Canon) : (quiesceBody o s).Canon := by
  unfold quiesceBody
  refine ite_act illegal_canon ?_
  split
  · exact ite_act (acquire_canon (writeBackAll_wf hs)) hs
  · refine ite_act (acquire_canon (setLaunch_canon hs)) ?_
    split
    · exact owe_canon (setLaunch_canon hs)
    · exact ite_wf hs (setLaunch_canon hs)

theorem sweep_canon {s : State} {q : ℕ} (hs : s.Canon) : (s.sweep q).Canon := by
  unfold State.sweep
  split
  · exact hs
  · split
    · exact hs
    · split
      · exact owe_canon (setLaunch_canon hs)
      · exact ite_wf (setLaunch_canon (foldl_wf _ (fun _ _ h4 => writeBackAll_wf h4) _ _ hs)) (owe_canon (setLaunch_canon hs))

theorem unquiesce_canon {s : State} {c k : ℕ} (hs : s.Canon) : (s.unquiesce c k).Canon := by
  unfold State.unquiesce
  exact hs

theorem execDetectionSweep_canon {l : ℕ} {s : State} (hs : s.Canon) : OutCanon (execDetectionSweep l s) := by
  unfold execDetectionSweep
  exact sweep_canon hs

theorem channel_canon {s : State} {i : Instr} {o : Ops} {n : BitVec 4} {k : ℕ → Chan → ℕ → Act} (hs : s.Canon)
    (hk : ∀ (a : ℕ) (a_1 : Chan) (a_2 : ℕ), (k a a_1 a_2).Canon) : (s.channel i o n k).Canon := by
  unfold State.channel
  refine ite_act illegal_canon (within_canon (ite_act illegal_canon ?_))
  split
  · trivial
  · exact ite_act illegal_canon (within_canon (ite_act hs (hk _ _ _)))

theorem setChan_canon {s : State} {h n : ℕ} {c : Chan} (hs : s.Canon) : (s.setChan h n c).Canon := by
  unfold State.setChan
  exact setHam_canon hs

theorem chanFill_canon {s : State} {h n : ℕ} {c : Chan} {v : ℕ} (hs : s.Canon) : (s.chanFill h n c v).Canon := by
  unfold State.chanFill
  exact wake_canon (setChan_canon (homePut_wf hs))

theorem chanTakeSlot_canon {s : State} {h n : ℕ} {c : Chan} (hs : s.Canon) : (s.chanTakeSlot h n c).Canon := by
  unfold State.chanTakeSlot
  exact wake_canon (setChan_canon hs)

theorem chsendBody_canon {o : Ops} {ch : BitVec 4} {s : State} (hs : s.Canon) : (chsendBody o ch s).Canon := by
  unfold chsendBody
  exact channel_canon hs (fun _ _ _ => ite_act hs (withRelease_canon hs (fun _ h => done_canon (chanFill_canon h))))

theorem chrecvBody_canon {o : Ops} {ch : BitVec 4} {s : State} (hs : s.Canon) : (chrecvBody o ch s).Canon := by
  unfold chrecvBody
  exact channel_canon hs (fun _ _ _ => ite_act hs (ite_act trivial (done_canon (var_canon (acquire_canon (chanTakeSlot_canon hs))))))

/-! ### Canonical memory: the end of a launch, containment and bad lines -/

theorem complete_canon {s : State} {k : Completion} (hs : s.Canon) : (s.complete k).Canon := by
  unfold State.complete
  exact oweOnce_canon hs

theorem writeCompletion_canon {s : State} (hs : s.Canon) : s.writeCompletion.Canon := by
  unfold State.writeCompletion
  split
  · exact hs
  · rename_i k _ _
    generalize compBytes k = bs
    exact ite_wf (oweOnce_canon hs) (ite_wf (irq_canon (memWrite_wf _ _ hs)) (oweOnce_canon (irq_canon (memWrite_wf _ _ hs))))

theorem execCompletionRecordWrite_canon {s : State} (hs : s.Canon) : OutCanon (execCompletionRecordWrite s) := by
  unfold execCompletionRecordWrite
  exact writeCompletion_canon hs

theorem clearHamlet_canon {s : State} {h : ℕ} (hs : s.Canon) : (s.clearHamlet h).Canon := by
  unfold State.clearHamlet
  exact setHam_canon (foldl_wf _ (fun _ _ h1 => writeBackWin_wf h1) _ _ hs)

theorem clearCore_canon {s : State} {c : ℕ} (hs : s.Canon) : (s.clearCore c).Canon := by
  unfold State.clearCore
  exact ite_wf (foldl_wf _ (fun _ _ h1 => ite_wf (answerRun_canon h1) h1) _ _ (setCore_canon hs))
      (oweRun_canon (foldl_wf _ (fun _ _ h1 => ite_wf (answerRun_canon h1) h1) _ _ (setCore_canon hs)))

theorem clearFlight_canon {s : State} {hs : List ℕ} (hs' : s.Canon) : (s.clearFlight hs).Canon := by
  unfold State.clearFlight
  exact hs'

theorem clearWaiters_canon {s : State} {hs : List ℕ} (hs' : s.Canon) : (s.clearWaiters hs).Canon := by
  unfold State.clearWaiters
  exact hs'

theorem dropLaunch_canon {s : State} {l : Launch} {stop : Bool} (hs : s.Canon) : (s.dropLaunch l stop).Canon := by
  unfold State.dropLaunch
  exact foldl_wf _ (fun _ _ h1 => ite_wf (clearHamlet_canon h1) h1) _ _
      (ite_wf (foldl_wf _ (fun _ _ h1 => clearCore_canon h1) _ _ (clearWaiters_canon (clearFlight_canon hs))) hs)

theorem abortLaunch_canon {s : State} {l : Launch} (hs : s.Canon) : (s.abortLaunch l).Canon := by
  unfold State.abortLaunch
  exact complete_canon (dropLaunch_canon hs)

theorem finishLaunch_canon {s : State} {l : Launch} (hs : s.Canon) : (s.finishLaunch l).Canon := by
  unfold State.finishLaunch
  exact complete_canon (dropLaunch_canon hs)

theorem rootEnd_canon {s : State} {h : ℕ} (hs : s.Canon) : (s.rootEnd h).Canon := by
  unfold State.rootEnd
  split
  · exact hs
  · exact owe_canon (setLaunch_canon (mark_canon hs))

theorem wordArrival_canon {s : State} {q : ℕ} (hs : s.Canon) : (s.wordArrival q).Canon := by
  unfold State.wordArrival
  split
  · exact hs
  · split
    · exact owe_canon (setLaunch_canon hs)
    · split
      · exact ite_wf (owe_canon (setLaunch_canon hs)) (owe_canon (setLaunch_canon hs))
      · exact ite_wf (ite_wf (owe_canon hs) (finishLaunch_canon hs)) (ite_wf hs (owe_canon hs))

theorem execStatusWordArrival_canon {l : ℕ} {s : State} (hs : s.Canon) : OutCanon (execStatusWordArrival l s) := by
  unfold execStatusWordArrival
  exact wordArrival_canon hs

theorem fence_canon {s : State} {h event : ℕ} (hs : s.Canon) : (s.fence h event).Canon := by
  unfold State.fence
  refine ite_wf hs ?_
  dsimp only
  split
  · exact abortLaunch_canon (setHam_canon (record_wf hs))
  · exact setHam_canon (record_wf hs)

theorem stopPackage_canon {s : State} (hs : s.Canon) : s.stopPackage.Canon := by
  unfold State.stopPackage
  exact ite_wf hs (foldl_wf _ (fun _ _ h1 => abortLaunch_canon h1) _ _ (foldl_wf _ (fun _ _ h1 => record_wf h1) _ _ hs))

theorem listLine_canon {s : State} {line : ℕ} {seq : Word} {lost : Bool} {code : Option (ℕ × ℕ)} (hs : s.Canon) :
    (s.listLine line seq lost code).Canon := by
  unfold State.listLine
  extract_lets l0 t
  have ht : t.Canon := record_wf hs
  clear_value t
  generalize s.badList l0 = q
  obtain ⟨n, size, h⟩ := q
  refine ite_wf ?_ ht
  cases h with
  | some h => exact fence_canon ht
  | none => exact stopPackage_canon ht

/-! ### Canonical memory: mill commands at issue -/

theorem setMill_canon {s : State} {c : ℕ} {m : Mill} (hs : s.Canon) : (s.setMill c m).Canon := by
  unfold State.setMill
  exact setCore_canon hs

theorem command_canon {s : State} {fs : Faults} {cmd : MillCmd} (hs : s.Canon) : (s.command fs cmd).Canon := by
  unfold State.command
  split
  · trivial
  · exact ite_act hs (ite_wf (owe_canon (setMyHam_canon (setMill_canon hs))) (setMyHam_canon (setMill_canon hs)))

theorem mulBody_canon {i : Instr} {o : Ops} {sparse : Bool} {s : State} (hs : s.Canon) : (mulBody i o sparse s).Canon := by
  unfold mulBody
  split
  exact command_canon hs

theorem msclBody_canon {o : Ops} {b : Bool} {s : State} (hs : s.Canon) : (msclBody o b s).Canon := by
  unfold msclBody
  split
  exact command_canon hs

theorem joinBody_canon {o : Ops} {s : State} (hs : s.Canon) : (joinBody o s).Canon := by
  unfold joinBody
  exact command_canon hs

theorem drainBody_canon {i : Instr} {o : Ops} {s : State} (hs : s.Canon) : (drainBody i o s).Canon := by
  unfold drainBody
  exact command_canon hs

theorem bankCommitted_canon {s : State} {k : State → Act} (hs : s.Canon) (hk : ∀ (a : State), a.Canon → (k a).Canon) :
    (s.bankCommitted k).Canon := by
  unfold State.bankCommitted
  exact ite_act hs (hk _ (commit_canon hs))

theorem withMill_canon {s : State} {k : State → Act} (hs : s.Canon) (hk : ∀ (a : State), a.Canon → (k a).Canon) : (s.withMill k).Canon := by
  unfold State.withMill
  refine ite_act hs ?_
  split
  · exact ite_act (setMe_canon hs) (ite_act (setMill_canon hs) (hk _ hs))
  · exact hk _ hs

theorem mfmtBody_canon {o : Ops} {s : State} (hs : s.Canon) : (mfmtBody o s).Canon := by
  unfold mfmtBody
  exact within_canon (ite_act trivial (ite_act hs (ite_act (setMill_canon hs) (setMe_canon (setMill_canon hs)))))

theorem mfmtRelBody_canon {x : Ops} {s : State} (hs : s.Canon) : (mfmtRelBody x s).Canon := by
  unfold mfmtRelBody
  exact ite_act trivial (withMill_canon hs (fun _ h => done_canon (ite_wf (callIdle_canon (setMill_canon h)) h)))

/-! ### Canonical memory: mill commands as they run -/

theorem linePut_canon {s : State} {pa : ℕ} {bs : List Byte} {device : Bool} (hs : s.Canon) : (s.linePut pa bs device).Canon := by
  unfold State.linePut
  exact ite_wf (foldl_wf _ (fun _ _ h1 => homePut_wf h1) _ _ hs) (homePut_wf hs)

theorem globalPut_canon {s : State} {c pa : ℕ} {bs : List Byte} {device : Bool} (hs : s.Canon) : (s.globalPut c pa bs device).Canon := by
  unfold State.globalPut
  exact ite_wf (cxlAsk_canon (giveLine_canon (noteUnbacked_wf hs))) (refresh_wf (linePut_canon (giveLine_canon (noteUnbacked_wf hs))))

theorem engineWrite_canon {s : State} {pa n v : ℕ} (hs : s.Canon) : (s.engineWrite pa n v).Canon := by
  unfold State.engineWrite
  exact fillWords_canon (homePut_wf hs)

theorem drainWrite_canon {s : State} {c : ℕ} {q : MillCmd} {w : DrainWrite} (hs : s.Canon) :
    ExAll (fun _ => True) State.Canon (s.drainWrite c q w) := by
  unfold State.drainWrite
  split
  · trivial
  · rename_i t1 h1
    split
    · have ht1 : t1.Canon := (resolveFor_canon hs).ok h1
      exact engineWrite_canon ht1
    · have ht1 : t1.Canon := (resolveFor_canon hs).ok h1
      exact engineWrite_canon ht1
    · have ht1 : t1.Canon := (resolveFor_canon hs).ok h1
      exact fillWords_canon (windowHomePut_wf ht1)
    · have ht1 : t1.Canon := (resolveFor_canon hs).ok h1
      exact globalPut_canon ht1
    · have ht1 : t1.Canon := (resolveFor_canon hs).ok h1
      exact as_canon (send_canon (as_canon ht1))

theorem drainAll_canon {c : ℕ} {q : MillCmd} (ws : List DrainWrite) {s : State} (hs : s.Canon) : (s.drainAll c q ws).1.Canon := by
  induction ws generalizing s with
  | nil => exact hs
  | cons w ws ih =>
    unfold State.drainAll
    split
    · rename_i t h
      have ht : t.Canon := (drainWrite_canon hs).ok h
      exact ih ht
    · exact hs

theorem setDrain_canon {s : State} {c : ℕ} {w : Word} (hs : s.Canon) : (s.setDrain c w).Canon := by
  unfold State.setDrain
  exact setMill_canon hs

theorem drainPhase_canon {s : State} {c : ℕ} {q : MillCmd} {entries : ℕ} {ws : List DrainWrite} {next : Word} {k : State → Drained}
    (hs : s.Canon) (hk : ∀ (a : State), a.Canon → (k a).Canon) : (s.drainPhase c q entries ws next k).Canon := by
  unfold State.drainPhase
  refine ite_drained hs ?_
  split
  rename_i t1 _ h1
  split
  · have ht1 : t1.Canon := fst_canon h1 (drainAll_canon _ hs)
    exact ite_drained (setDrain_canon (noteWalk_canon ht1)) (noteWalk_canon ht1)
  · have ht1 : t1.Canon := fst_canon h1 (drainAll_canon _ hs)
    exact ite_drained (hk _ ht1) (setDrain_canon ht1)

theorem drainRun_canon {s : State} {c : ℕ} {q : MillCmd} (hs : s.Canon) : (s.drainRun c q).Canon := by
  unfold State.drainRun
  refine ite_drained trivial (ite_drained hs ?_)
  split
  · exact setDrain_canon hs
  · exact ite_drained (drainPhase_canon hs (fun _ h => drainPhase_canon h (fun _ h2 => setDrain_canon h2)))
        (drainPhase_canon hs (fun _ h => setDrain_canon h))

theorem popMill_canon {s : State} {c : ℕ} (hs : s.Canon) : (s.popMill c).Canon := by
  unfold State.popMill
  exact ite_wf (owe_canon (received_canon (setMill_canon hs))) (received_canon (setMill_canon hs))

theorem millCurrent_canon {s : State} {c : CoreId} (hs : s.Canon) : (s.millCurrent c).Canon := by
  unfold State.millCurrent
  dsimp only
  split
  · exact hs
  · refine ite_wf hs (ite_wf (owe_canon hs) (ite_wf (popMill_canon (setMill_canon hs)) ?_))
    split
    · exact popMill_canon (setMill_canon hs)
    · exact owe_canon (setMill_canon hs)

theorem execMillCommandCurrent_canon {c : CoreId} {s : State} (hs : s.Canon) : OutCanon (execMillCommandCurrent c s) := by
  unfold execMillCommandCurrent
  exact millCurrent_canon hs

theorem orFlags_canon {s : State} {c k : ℕ} {fl : Flags} (hs : s.Canon) : (s.orFlags c k fl).Canon := by
  unfold State.orFlags
  exact setCtx_canon hs

theorem millEffect_canon {s : State} {c : ℕ} {q : MillCmd} (hs : s.Canon) : (s.millEffect c q).Canon := by
  unfold State.millEffect
  split
  · split
    · exact hs
    · split
      exact orFlags_canon (setMill_canon hs)
  · split
    · exact hs
    · split
      exact orFlags_canon (setMill_canon hs)
  · exact setMill_canon hs
  · refine orFlags_canon (ite_wf (foldl_wf _ (fun t1 a1 h2 => ?_) _ _ (setMill_canon hs))
        (mark_canon (foldl_wf _ (fun t1 a1 h2 => ?_) _ _ (setMill_canon hs))))
    · split
      split
      · exact engineWrite_canon h2
      · exact h2
    · split
      split
      · exact engineWrite_canon h2
      · exact h2
  · exact setMill_canon hs
  · exact setMill_canon hs
  · exact setMill_canon hs
  · exact hs

theorem setCmd_canon {s : State} {c : ℕ} {q : MillCmd} (hs : s.Canon) : (s.setCmd c q).Canon := by
  unfold State.setCmd
  exact setMill_canon hs

theorem millComplete_canon {s : State} {c : CoreId} (hs : s.Canon) : (s.millComplete c).Canon := by
  unfold State.millComplete
  split
  · exact hs
  · refine ite_wf hs ?_
    split
    · exact storageTrap_canon (popMill_canon hs)
    · split
      · split
        · exact popMill_canon hs
        · rename_i t1 h4
          have ht1 : t1.Canon := (congrArg Drained.Canon h4).mp (drainRun_canon hs)
          exact popMill_canon ht1
        · rename_i t1 _ h4
          have ht1 : t1.Canon := (congrArg Drained.Canon h4).mp (drainRun_canon hs)
          exact owe_canon (setCmd_canon ht1)
        · exact owe_canon hs
      · split
        · exact popMill_canon hs
        · rename_i t1 h4
          have ht1 : t1.Canon := (congrArg Drained.Canon h4).mp (drainRun_canon hs)
          exact popMill_canon ht1
        · rename_i t1 _ h4
          have ht1 : t1.Canon := (congrArg Drained.Canon h4).mp (drainRun_canon hs)
          exact owe_canon (setCmd_canon ht1)
        · exact owe_canon hs
      · exact popMill_canon (millEffect_canon hs)

theorem execMillCommandComplete_canon {c : CoreId} {s : State} (hs : s.Canon) : OutCanon (execMillCommandComplete c s) := by
  unfold execMillCommandComplete
  exact millComplete_canon hs

theorem drainStop_canon {s : State} {c : CoreId} (hs : s.Canon) : (s.drainStop c).Canon := by
  unfold State.drainStop
  split
  · exact hs
  · refine ite_wf hs ?_
    split
    · exact popMill_canon hs
    · rename_i t1 h2
      have ht1 : t1.Canon := (congrArg Drained.Canon h2).mp (drainRun_canon hs)
      exact popMill_canon ht1
    · rename_i t1 _ h2
      have ht1 : t1.Canon := (congrArg Drained.Canon h2).mp (drainRun_canon hs)
      exact owe_canon (setCmd_canon ht1)
    · rename_i t1 _ h2
      have ht1 : t1.Canon := (congrArg Drained.Canon h2).mp (drainRun_canon hs)
      exact popMill_canon (setMill_canon ht1)

theorem execDrainInterrupted_canon {c : CoreId} {s : State} (hs : s.Canon) : OutCanon (execDrainInterrupted c s) := by
  unfold execDrainInterrupted
  exact drainStop_canon hs

theorem execRampRise_canon {c : CoreId} {s : State} (hs : s.Canon) : OutCanon (execRampRise c s) := by
  unfold execRampRise
  exact ite_wf (setMill_canon hs) hs

theorem execRampFall_canon {c : CoreId} {s : State} (hs : s.Canon) : OutCanon (execRampFall c s) := by
  unfold execRampFall
  exact ite_wf hs (setMill_canon hs)

/-! ### Canonical memory: copies and the copy engine -/

theorem writeBackRange_canon {s : State} {pa n : ℕ} (hs : s.Canon) : (s.writeBackRange pa n).Canon := by
  unfold State.writeBackRange
  exact foldl_wf _ (fun _ _ h1 => writeBackWin_wf h1) _ _ (foldl_wf _ (fun _ _ h1 => writeBack_wf h1) _ _ hs)

theorem flushSource_canon {s : State} {f : CopyForm} {d : BitVec 256} (hs : s.Canon) : (s.flushSource f d).Canon := by
  unfold State.flushSource
  refine ite_wf hs (foldl_wf _ (fun t1 a1 h1 => ?_) _ _ hs)
  split
  · exact writeBackRange_canon h1
  · exact writeBackRange_canon h1
  · exact h1

theorem issueCopy_canon {s : State} {o : Ops} {f : CopyForm} {d : BitVec 256} (hs : s.Canon) : (s.issueCopy o f d).Canon := by
  unfold State.issueCopy
  exact ite_wf (received_canon (setMyHam_canon (setMe_canon (ite_wf (mark_canon hs) hs))))
      (owe_canon (setMyCore_canon (setMe_canon (setMyHam_canon (setMe_canon (ite_wf (mark_canon hs) hs))))))

theorem copyBody_canon {o : Ops} {f : CopyForm} {s : State} (hs : s.Canon) : (copyBody o f s).Canon := by
  unfold copyBody
  refine within_canon (ite_act illegal_canon ?_)
  split
  · trivial
  · trivial
  · exact ite_act hs (issueCopy_canon (flushSource_canon hs))

theorem waitkBody_canon {o : Ops} {any : Bool} {s : State} (hs : s.Canon) : (waitkBody o any s).Canon := by
  unfold waitkBody
  refine ite_act hs ?_
  split
  · exact copyTrap_canon hs
  · exact acquireTokens_canon hs

theorem tokqBody_canon {o : Ops} {s : State} (hs : s.Canon) : (tokqBody o s).Canon := by
  unfold tokqBody
  exact within_canon (fixed_canon hs)

theorem engineRead_canon {s : State} {c : ℕ} {p : Place} {n : ℕ} (hs : s.Canon) : (s.engineRead c p n).2.Canon := by
  unfold State.engineRead
  split
  · exact hs
  · exact hs
  · exact pair_snd (noteUnbacked_wf hs)
  · exact readPlace_wf hs
  · exact hs

theorem copySend_canon {s : State} {c k : ℕ} {pk : BitVec 20} {tagged : Bool} {b : Body} (hs : s.Canon) :
    (s.copySend c k pk tagged b).1.Canon := by
  unfold State.copySend
  refine as_canon ?_
  exact send_canon (as_canon hs)

theorem farStore_canon {s : State} {c k : ℕ} {pk : BitVec 20} {pa : ℕ} {bs : List Byte} {device full : Bool} (hs : s.Canon) :
    (s.farStore c k pk pa bs device full).1.Canon := by
  unfold State.farStore
  refine foldl_fst (fun a1 a2 h1 => ?_) _ _ hs
  split
  rename_i t1 _ h2
  have ht1 : t1.Canon := fst_canon h2 (copySend_canon h1)
  exact ht1

theorem copyPut_canon {s : State} {c k : ℕ} {p : Place} {bs : List Byte} (hs : s.Canon) : (s.copyPut c k p bs).1.Canon := by
  unfold State.copyPut
  split
  · exact pair_fst (fillWords_canon (homePut_wf hs))
  · exact pair_fst (fillWords_canon (homePut_wf hs))
  · exact pair_fst (fillWords_canon (windowHomePut_wf hs))
  · exact pair_fst (globalPut_canon hs)
  · exact farStore_canon hs

theorem copyElems_canon {s : State} {c k : ℕ} {p : Place} {f : BitVec 48} {xs : List (ℕ × BitVec 32)} (hs : s.Canon) :
    (s.copyElems c k p f xs).1.Canon := by
  have hadd {t : State} (zs : List (ℕ × ℕ)) (pa : ℕ) (w : ℕ) (h : ℕ → AtomicFn) (ht : t.Canon) :
      (zs.foldl (fun t x => (t.applyAtomic (pa + w * x.2) (h x.1)).2.2) t).Canon :=
    foldl_wf _ (fun _ _ h => applyAtomic_wf h) zs t ht
  have hev {p : Place} {pa : ℕ} : (((s.noteUnbacked c pa).as c k).evictFor p).Canon := evictFor_wf (as_canon (noteUnbacked_wf hs))
  unfold State.copyElems
  cases p <;> dsimp only
  case foreign pk pa st => exact copySend_canon hs
  case near pa => exact ite_fst (copyPut_canon hs) (pair_fst (fillWords_canon (hadd _ _ _ (fun z => redFn _ (BitVec.ofNat 64 z)) hs)))
  case far pa st => exact ite_fst (copyPut_canon hs) (pair_fst (fillWords_canon (hadd _ _ _ (fun z => redFn _ (BitVec.ofNat 64 z)) hs)))
  case window st pa x => exact ite_fst (copyPut_canon hs) (pair_fst (fillWords_canon
      (refresh_wf (as_canon (hadd _ _ _ (fun z => redFn _ (BitVec.ofNat 64 z)) hev)))))
  case global pa x => exact ite_fst (copyPut_canon hs) (pair_fst (refresh_wf
      (as_canon (hadd _ _ _ (fun z => redFn _ (BitVec.ofNat 64 z)) hev))))

theorem copyParts_canon {c : ℕ} {y : Copy} {g : Geo} (ps : List (ℕ × ℕ)) {got : List (ℕ × ℕ × Place)} {s : State} (hs : s.Canon) :
    ExAll (fun _ => True) (fun r => r.2.Canon) (s.copyParts c y g ps got) := by
  induction ps generalizing got s with
  | nil => exact hs
  | cons p ps ih =>
    unfold State.copyParts
    dsimp only
    split
    · trivial
    · rename_i q t h
      have ht : t.Canon := (resolveFor_canon hs).ok h
      exact ih ht

theorem askParts_canon {s : State} {c : ℕ} {y : Copy} {ps : List (ℕ × ℕ × Place)} {dst : Place} {m : ℕ} (hs : s.Canon) :
    (s.askParts c y ps dst m).1.Canon := by
  unfold State.askParts
  split
  · dsimp only
    split
    · refine pair_fst (copySend_canon (foldl_fst (fun a1 a2 h2 => ?_) _ _ hs))
      split
      · exact pair_fst (copySend_canon h2)
      · exact h2
    · refine foldl_fst (fun a1 a2 h3 => ?_) _ _ hs
      split
      · exact pair_fst (copySend_canon h3)
      · exact h3
  · refine foldl_fst (fun a1 a2 h2 => ?_) _ _ hs
    dsimp only
    split
    · exact pair_fst (copySend_canon h2)
    · exact h2

theorem gather_canon {s : State} {c : ℕ} {y : Copy} {ps : List (ℕ × ℕ × Place)} (hs : s.Canon) : (s.gather c y ps).2.Canon := by
  unfold State.gather
  refine foldl_snd (fun a1 a2 h1 => ?_) _ _ hs
  split
  · exact h1
  · split
    rename_i t1 h3
    have ht1 : t1.Canon := snd_canon h3 (engineRead_canon h1)
    exact ht1

theorem listDest_canon {s : State} {c k : ℕ} {p : Place} (hs : s.Canon) : (s.listDest c k p).1.Canon := by
  unfold State.listDest
  split
  · exact pair_fst (listLine_canon hs)
  · exact pair_fst (listLine_canon hs)
  · exact pair_fst (listLine_canon hs)
  · exact pair_fst (listLine_canon hs)
  · split
    rename_i t1 _ h1
    have ht1 : t1.Canon := fst_canon h1 (copySend_canon hs)
    exact ht1

theorem movePiece_canon {s : State} {c : ℕ} {y : Copy} (hs : s.Canon) : (s.movePiece c y).Canon := by
  unfold State.movePiece
  extract_lets g have' ask src
  cases hp : s.copyParts c y src (if ask = 0 then [] else lineParts src.src ask) [] with
  | error e => trivial
  | ok q =>
    have hq : q.2.Canon := (copyParts_canon _ hs).ok hp
    dsimp only
    generalize (if y.form = .red then Access.atomic else .write) = kind
    cases hr : q.2.resolveFor c y.ctx y.root y.priv g.dst kind with
    | error e => trivial
    | ok w =>
      have ht : w.2.Canon := (resolveFor_canon hq).ok hr
      dsimp only
      refine ite_piece ht ?_
      split
      · exact cxlAsk_canon ht
      · refine ite_piece (askParts_canon ht) (ite_piece ht (ite_piece (listDest_canon ht) (ite_piece ht ?_)))
        split
        · exact copyPut_canon (gather_canon ht)
        · exact copyPut_canon (gather_canon ht)
        · exact copyElems_canon (gather_canon ht)

theorem setCopy_canon {s : State} {c : ℕ} {y : Copy} (hs : s.Canon) : (s.setCopy c y).Canon := by
  unfold State.setCopy
  exact setCore_canon hs

theorem endCopy_canon {s : State} {c : ℕ} {y : Copy} (hs : s.Canon) : (s.endCopy c y).Canon := by
  unfold State.endCopy
  exact received_canon (setCtx_canon (setCore_canon hs))

theorem copyStep_canon {s : State} {c : CoreId} {k : CtxId} {tok : BitVec 3} (hs : s.Canon) : (s.copyStep c k tok).Canon := by
  unfold State.copyStep
  split
  · exact hs
  · refine ite_wf hs (ite_wf (ite_wf (oweOnce_canon hs) (endCopy_canon hs)) ?_)
    split
    · rename_i t1 _ h2
      have ht1 : t1.Canon := (congrArg Piece'.Canon h2).mp (movePiece_canon hs)
      exact oweOnce_canon (setCopy_canon ht1)
    · rename_i t1 _ h2
      have ht1 : t1.Canon := (congrArg Piece'.Canon h2).mp (movePiece_canon hs)
      exact oweOnce_canon (setCopy_canon ht1)
    · exact owe_canon (setCopy_canon (noteWalk_canon hs))

theorem execCopyComplete_canon {c : CoreId} {k : CtxId} {tok : BitVec 3} {s : State} (hs : s.Canon) :
    OutCanon (execCopyComplete c k tok s) := by
  unfold execCopyComplete
  exact copyStep_canon hs

theorem sendCopyFault_canon {s : State} {c : CoreId} {k : CtxId} {tok : BitVec 3} (hs : s.Canon) : (s.sendCopyFault c k tok).Canon := by
  unfold State.sendCopyFault
  split
  · exact hs
  · exact ite_wf hs (deliver_canon hs)

theorem execCopyFault_canon {c : CoreId} {k : CtxId} {tok : BitVec 3} {s : State} (hs : s.Canon) : OutCanon (execCopyFault c k tok s) := by
  unfold execCopyFault
  exact sendCopyFault_canon hs

theorem resumeCopy_canon {s : State} {c : CoreId} {k : CtxId} {tok : BitVec 3} {word : Word} (hs : s.Canon) :
    (s.resumeCopy c k tok word).Canon := by
  unfold State.resumeCopy
  split
  · exact hs
  · refine ite_wf hs (ite_wf (owe_canon (setCopy_canon hs)) (ite_wf ?_ (owe_canon (setCopy_canon hs))))
    split
    · exact owe_canon hs
    · rename_i t1 h2
      have ht1 : t1.Canon := (pagerFuture_canon hs).get h2
      exact setCopy_canon ht1

theorem execCopyResumePacket_canon {c : CoreId} {k : CtxId} {tok : BitVec 3} {word : Word} {s : State} (hs : s.Canon) :
    OutCanon (execCopyResumePacket c k tok word s) := by
  unfold execCopyResumePacket
  exact resumeCopy_canon hs

/-! ### Canonical memory: vector memory and lane instructions -/

theorem putLanes_canon {s : State} {v : View} {w lat : ℕ} {act : Word} {f : ℕ → ℕ × Flags} (hs : s.Canon) :
    (s.putLanes v w lat act f).Canon := by
  unfold State.putLanes
  exact fixed_canon hs

theorem orFault_canon {fs : List (Option (BitVec 6 × Word))} {k : Act} (hk : k.Canon) : (orFault fs k).Canon := by
  unfold orFault
  dsimp only
  split
  · trivial
  · split
    · trivial
    · exact hk

theorem vaddBody_canon {o : Ops} {sub : Bool} {s : State} (hs : s.Canon) : (vaddBody o sub s).Canon := by
  unfold vaddBody
  exact orFault_canon (putLanes_canon hs)

theorem execVadd_canon {o : Ops} {sub : Bool} {s : State} (hs : s.Canon) : OutCanon (execVadd o sub s) := by
  unfold execVadd
  exact performVec_canon hs (fun _ h => vaddBody_canon h)

theorem vmulBody_canon {o : Ops} {s : State} (hs : s.Canon) : (vmulBody o s).Canon := by
  unfold vmulBody
  exact orFault_canon (putLanes_canon hs)

theorem execVmul_canon {o : Ops} {s : State} (hs : s.Canon) : OutCanon (execVmul o s) := by
  unfold execVmul
  exact performVec_canon hs (fun _ h => vmulBody_canon h)

theorem vfmaBody_canon {o : Ops} {f : FmaFn} {s : State} (hs : s.Canon) : (vfmaBody o f s).Canon := by
  unfold vfmaBody
  exact orFault_canon (putLanes_canon hs)

theorem execVfma_canon {o : Ops} {f : FmaFn} {s : State} (hs : s.Canon) : OutCanon (execVfma o f s) := by
  unfold execVfma
  exact performVec_canon hs (fun _ h => vfmaBody_canon h)

theorem vdivBody_canon {o : Ops} {sqrt : Bool} {s : State} (hs : s.Canon) : (vdivBody o sqrt s).Canon := by
  unfold vdivBody
  exact orFault_canon (putLanes_canon hs)

theorem execVdiv_canon {o : Ops} {sqrt : Bool} {s : State} (hs : s.Canon) : OutCanon (execVdiv o sqrt s) := by
  unfold execVdiv
  exact performVec_canon hs (fun _ h => vdivBody_canon h)

theorem vminmaxBody_canon {o : Ops} {isMax : Bool} {s : State} (hs : s.Canon) : (vminmaxBody o isMax s).Canon := by
  unfold vminmaxBody
  exact orFault_canon (putLanes_canon hs)

theorem execVminmax_canon {o : Ops} {max : Bool} {s : State} (hs : s.Canon) : OutCanon (execVminmax o max s) := by
  unfold execVminmax
  exact performVec_canon hs (fun _ h => vminmaxBody_canon h)

theorem vlogicBody_canon {o : Ops} {f : VlogicFn} {s : State} (hs : s.Canon) : (vlogicBody o f s).Canon := by
  unfold vlogicBody
  exact orFault_canon (putLanes_canon hs)

theorem execVlogic_canon {o : Ops} {f : VlogicFn} {s : State} (hs : s.Canon) : OutCanon (execVlogic o f s) := by
  unfold execVlogic
  exact performVec_canon hs (fun _ h => vlogicBody_canon h)

theorem vcmpBody_canon {o : Ops} {r : VRel} {s : State} (hs : s.Canon) : (vcmpBody o r s).Canon := by
  unfold vcmpBody
  exact orFault_canon (fixed_canon hs)

theorem execVcmp_canon {o : Ops} {r : VRel} {s : State} (hs : s.Canon) : OutCanon (execVcmp o r s) := by
  unfold execVcmp
  exact performVec_canon hs (fun _ h => vcmpBody_canon h)

theorem vselBody_canon {o : Ops} {s : State} (hs : s.Canon) : (vselBody o s).Canon := by
  unfold vselBody
  exact orFault_canon (putLanes_canon hs)

theorem execVsel_canon {o : Ops} {s : State} (hs : s.Canon) : OutCanon (execVsel o s) := by
  unfold execVsel
  exact performVec_canon hs (fun _ h => vselBody_canon h)

theorem vpermBody_canon {o : Ops} {f : PermFn} {s : State} (hs : s.Canon) : (vpermBody o f s).Canon := by
  unfold vpermBody
  exact orFault_canon (putLanes_canon hs)

theorem execVperm_canon {o : Ops} {f : PermFn} {s : State} (hs : s.Canon) : OutCanon (execVperm o f s) := by
  unfold execVperm
  exact performVec_canon hs (fun _ h => vpermBody_canon h)

theorem vbcastBody_canon {o : Ops} {lane : Bool} {s : State} (hs : s.Canon) : (vbcastBody o lane s).Canon := by
  unfold vbcastBody
  exact orFault_canon (putLanes_canon hs)

theorem execVbcast_canon {o : Ops} {lane : Bool} {s : State} (hs : s.Canon) : OutCanon (execVbcast o lane s) := by
  unfold execVbcast
  exact performVec_canon hs (fun _ h => vbcastBody_canon h)

theorem vredBody_canon {o : Ops} {f : RedFn} {s : State} (hs : s.Canon) : (vredBody o f s).Canon := by
  unfold vredBody
  exact orFault_canon (fixed_canon hs)

theorem execVred_canon {o : Ops} {f : RedFn} {s : State} (hs : s.Canon) : OutCanon (execVred o f s) := by
  unfold execVred
  exact performVec_canon hs (fun _ h => vredBody_canon h)

theorem vscanBody_canon {o : Ops} {s : State} (hs : s.Canon) : (vscanBody o s).Canon := by
  unfold vscanBody
  exact orFault_canon (fixed_canon hs)

theorem execVscan_canon {o : Ops} {s : State} (hs : s.Canon) : OutCanon (execVscan o s) := by
  unfold execVscan
  exact performVec_canon hs (fun _ h => vscanBody_canon h)

theorem vdotBody_canon {o : Ops} {s : State} (hs : s.Canon) : (vdotBody o s).Canon := by
  unfold vdotBody
  exact orFault_canon (putLanes_canon hs)

theorem execVdot_canon {o : Ops} {s : State} (hs : s.Canon) : OutCanon (execVdot o s) := by
  unfold execVdot
  exact performVec_canon hs (fun _ h => vdotBody_canon h)

theorem vpackmBody_canon {o : Ops} {s : State} (hs : s.Canon) : (vpackmBody o s).Canon := by
  unfold vpackmBody
  exact orFault_canon (putLanes_canon hs)

theorem execVpackm_canon {o : Ops} {s : State} (hs : s.Canon) : OutCanon (execVpackm o s) := by
  unfold execVpackm
  exact performVec_canon hs (fun _ h => vpackmBody_canon h)

theorem vexpmBody_canon {o : Ops} {s : State} (hs : s.Canon) : (vexpmBody o s).Canon := by
  unfold vexpmBody
  exact orFault_canon (putLanes_canon hs)

theorem execVexpm_canon {o : Ops} {s : State} (hs : s.Canon) : OutCanon (execVexpm o s) := by
  unfold execVexpm
  exact performVec_canon hs (fun _ h => vexpmBody_canon h)

theorem putRow_canon {v : View} {w : ℕ} {act : Word} {l : Loaded} {k : State → Bool → Act} (hl : l.Canon)
    (hk : ∀ (a : State), a.Canon → ∀ (a_1 : Bool), (k a a_1).Canon) : (putRow v w act l k).Canon := by
  unfold putRow
  split
  · exact hl
  · split
    rename_i t2 _ h1
    have ht2 : t2.Canon := fst_canon h1 (sendLoads_canon hl)
    exact hk _ (varAwait_canon ht2) _

theorem vldBody_canon {o : Ops} {strided : Bool} {s : State} (hs : s.Canon) : (vldBody o strided s).Canon := by
  unfold vldBody
  split
  exact orFault_canon (ite_act trivial (ite_act (ite_act (acquire_canon hs) hs)
      (putRow_canon (readPieces_canon hs) (fun _ h _ => done_canon (ite_wf (acquireAfter_canon h) h)))))

theorem execVld_canon {o : Ops} {strided : Bool} {s : State} (hs : s.Canon) : OutCanon (execVld o strided s) := by
  unfold execVld
  exact performVec_canon hs (fun _ h => vldBody_canon h)

theorem vgatherBody_canon {o : Ops} {s : State} (hs : s.Canon) : (vgatherBody o s).Canon := by
  unfold vgatherBody
  exact orFault_canon (putRow_canon (readPieces_canon hs) (fun _ h _ => done_canon h))

theorem execVgather_canon {o : Ops} {s : State} (hs : s.Canon) : OutCanon (execVgather o s) := by
  unfold execVgather
  exact performVec_canon hs (fun _ h => vgatherBody_canon h)

theorem vstBody_canon {o : Ops} {strided : Bool} {s : State} (hs : s.Canon) : (vstBody o strided s).Canon := by
  unfold vstBody
  split
  exact orFault_canon (ite_act trivial (ite_act (released_canon hs (fun _ h => storeItems_canon h (fun _ h2 => done_canon h2)))
      (storeItems_canon hs (fun _ h => done_canon h))))

theorem execVst_canon {o : Ops} {strided : Bool} {s : State} (hs : s.Canon) : OutCanon (execVst o strided s) := by
  unfold execVst
  exact performVec_canon hs (fun _ h => vstBody_canon h)

theorem vscatterBody_canon {o : Ops} {s : State} (hs : s.Canon) : (vscatterBody o s).Canon := by
  unfold vscatterBody
  exact orFault_canon (storeItems_canon hs (fun _ h => done_canon h))

theorem execVscatter_canon {o : Ops} {s : State} (hs : s.Canon) : OutCanon (execVscatter o s) := by
  unfold execVscatter
  exact performVec_canon hs (fun _ h => vscatterBody_canon h)

/-! ### Canonical memory: reduction groups and multicast -/

theorem setNode_canon {s : State} {c g : ℕ} {n : Node} (hs : s.Canon) : (s.setNode c g n).Canon := by
  unfold State.setNode
  exact setHam_canon hs

theorem resultParts_canon {c : ℕ} {root va : Word} (ps : List (ℕ × ℕ)) {got : List (ℕ × ℕ × Place)} {s : State} (hs : s.Canon) :
    OptAll (fun r => r.2.Canon) (s.resultParts c root va ps got) := by
  induction ps generalizing got s with
  | nil => exact hs
  | cons p ps ih =>
    unfold State.resultParts
    split
    · trivial
    · rename_i q t h
      have ht : t.Canon := (resolveFor_canon hs).ok h
      exact ih ht

theorem resultPut_canon {s : State} {c : ℕ} {p : Place} {bs : List Byte} (hs : s.Canon) : (s.resultPut c p bs).2.Canon := by
  unfold State.resultPut
  split
  · exact pair_snd (homePut_wf hs)
  · exact pair_snd (ite_wf hs (linePut_canon hs))
  · exact pair_snd (windowHomePut_wf hs)
  · exact pair_snd (globalPut_canon hs)
  · exact pair_snd (farStore_canon hs)

theorem writeResult_canon {s : State} {c g : ℕ} {n : Node} {data : Row} (hs : s.Canon) : (s.writeResult c g n data).2.Canon := by
  unfold State.writeResult
  dsimp only
  split
  · exact pair_snd (record_wf hs)
  · rename_i t1 h1
    have ht1 : t1.Canon := (resultParts_canon _ hs).get h1
    exact foldl_snd (fun _ _ h2 => pair_snd (resultPut_canon h2)) _ _ (pair_snd (writeBackAll_wf ht1))

theorem sendDone_canon {s : State} {c g : ℕ} {w : Word} (hs : s.Canon) : (s.sendDone c g w).Canon := by
  unfold State.sendDone
  refine foldl_wf _ (fun t1 a1 h1 => ?_) _ _ hs
  split
  · exact h1
  · exact owe_canon (setNode_canon h1)

theorem endEpisode_canon {s : State} {c g : ℕ} {n : Node} {p : Packet} (hs : s.Canon) : (s.endEpisode c g n p).Canon := by
  unfold State.endEpisode
  exact sendDone_canon (ite_wf (record_wf (setHam_canon (ite_snd hs (writeResult_canon hs))))
      (setHam_canon (ite_snd hs (writeResult_canon hs))))

theorem owePackets_canon {s : State} {c g : ℕ} (hs : s.Canon) : (s.owePackets c g).Canon := by
  unfold State.owePackets
  split
  · exact hs
  · exact ite_wf (oweOnce_canon hs) hs

theorem nodeAct_canon {c g : ℕ} (fuel : ℕ) {s : State} (hs : s.Canon) : (s.nodeAct c g fuel).Canon := by
  induction fuel generalizing s with
  | zero => exact hs
  | succ fuel ih =>
    unfold State.nodeAct
    split
    · exact hs
    · exact ite_wf hs (ih (owePackets_canon (ite_wf (endEpisode_canon (setNode_canon hs)) (oweOnce_canon (setNode_canon hs)))))

theorem timed_canon {s : State} {c g : ℕ} {n : Node} {e : Episode} (hs : s.Canon) : (s.timed c g n e).2.Canon := by
  unfold State.timed
  exact ite_snd (pair_snd (oweOnce_canon hs)) hs

theorem packetIn_canon {s : State} {c g : ℕ} (hs : s.Canon) : (s.packetIn c g).Canon := by
  unfold State.packetIn
  split
  · exact hs
  · split
    · exact hs
    · split
      · exact hs
      · split
        · exact hs
        · refine nodeAct_canon _ (owePackets_canon (ite_wf ?_ ?_))
          · split
            rename_i t1 h5
            have ht1 : t1.Canon := snd_canon h5 (timed_canon (setNode_canon hs))
            exact setNode_canon ht1
          · split
            rename_i t1 h5
            have ht1 : t1.Canon := snd_canon h5 (timed_canon (setNode_canon hs))
            exact setNode_canon ht1

theorem execReductionPacketArrival_canon {c : CoreId} {g : BitVec 6} {s : State} (hs : s.Canon) :
    OutCanon (execReductionPacketArrival c g s) := by
  unfold execReductionPacketArrival
  exact packetIn_canon hs

theorem noticeIn_canon {s : State} {c g : ℕ} (hs : s.Canon) : (s.noticeIn c g).Canon := by
  unfold State.noticeIn
  split
  · exact hs
  · split
    · exact hs
    · exact setNode_canon hs

theorem execDoneNoticeArrival_canon {c : CoreId} {g : BitVec 6} {s : State} (hs : s.Canon) : OutCanon (execDoneNoticeArrival c g s) := by
  unfold execDoneNoticeArrival
  exact noticeIn_canon hs

theorem flushNode_canon {s : State} {c g : ℕ} {n : Node} (hs : s.Canon) : (s.flushNode c g n).Canon := by
  unfold State.flushNode
  refine nodeAct_canon 2 (foldl_wf _ (fun t d ht => ite_wf ht ?_) _ _ (setNode_canon hs))
  cases t.node d.1 g with
  | none => exact ht
  | some k => exact owe_canon (setNode_canon ht)

theorem redTimer_canon {s : State} {c g : ℕ} (hs : s.Canon) : (s.redTimer c g).Canon := by
  unfold State.redTimer
  split
  · exact hs
  · refine ite_wf hs ?_
    split
    · exact ite_wf (oweOnce_canon hs) hs
    · refine ite_wf hs (ite_wf (oweOnce_canon hs) ?_)
      dsimp only
      split
      · exact oweOnce_canon (flushNode_canon hs)
      · exact flushNode_canon hs

theorem execReductionTimeout_canon {c : CoreId} {g : BitVec 6} {s : State} (hs : s.Canon) : OutCanon (execReductionTimeout c g s) := by
  unfold execReductionTimeout
  exact redTimer_canon hs

theorem flushIn_canon {s : State} {c g : ℕ} (hs : s.Canon) : (s.flushIn c g).Canon := by
  unfold State.flushIn
  split
  · exact hs
  · split
    · exact hs
    · exact ite_wf (flushNode_canon hs) (setNode_canon hs)

theorem execReductionFlushArrival_canon {c : CoreId} {g : BitVec 6} {s : State} (hs : s.Canon) :
    OutCanon (execReductionFlushArrival c g s) := by
  unfold execReductionFlushArrival
  exact flushIn_canon hs

theorem withNode_canon {s : State} {i : Instr} {o : Ops} {locs : List Loc} {k : ℕ → Node → Act}
    (hk : ∀ (a : ℕ) (a_1 : Node), (k a a_1).Canon) : (s.withNode i o locs k).Canon := by
  unfold State.withNode
  refine within_canon (ite_act illegal_canon (within_canon ?_))
  split
  · trivial
  · exact hk _ _

theorem redgrpOpenBody_canon {o : Ops} {s : State} (hs : s.Canon) : (redgrpOpenBody o s).Canon := by
  unfold redgrpOpenBody
  exact withNode_canon (fun _ _ => ite_act trivial (done_canon (var_canon (setNode_canon hs))))

theorem redgrpCloseBody_canon {o : Ops} {s : State} (hs : s.Canon) : (redgrpCloseBody o s).Canon := by
  unfold redgrpCloseBody
  refine ite_act illegal_canon (withNode_canon (fun a1 a2 => ite_act trivial ?_))
  split
  · exact hs
  · exact acquire_canon (var_canon (setNode_canon hs))

theorem contribute_canon {s : State} {g : ℕ} {n : Node} {r : Row} (hs : s.Canon) : (s.contribute g n r).Canon := by
  unfold State.contribute
  refine ite_wf (received_canon (setNode_canon (setMyHam_canon hs))) ?_
  split
  rename_i t1 h1
  have ht1 : t1.Canon := snd_canon h1 (timed_canon (setMyHam_canon hs))
  exact nodeAct_canon _ (setNode_canon ht1)

theorem redpktBody_canon {o : Ops} {s : State} (hs : s.Canon) : (redpktBody o s).Canon := by
  unfold redpktBody
  exact withNode_canon (fun _ _ => ite_act trivial (done_canon (contribute_canon hs)))

theorem mcastOne_canon {s : State} {off : ℕ} {bs : List (ℕ × Byte)} {h : ℕ} (hs : s.Canon) : (s.mcastOne off bs h).Canon := by
  unfold State.mcastOne
  exact ite_wf (fillWords_canon (homePut_wf hs)) (send_canon hs)

theorem mcastBody_canon {o : Ops} {s : State} (hs : s.Canon) : (mcastBody o s).Canon := by
  unfold mcastBody
  exact ite_act illegal_canon (within_canon (ite_act trivial (ite_act trivial
      (ite_act trivial (ite_act hs (foldl_wf _ (fun _ _ h1 => mcastOne_canon h1) _ _ hs))))))

theorem execMcastDelivery_canon {id : ℕ} {s : State} (hs : s.Canon) : OutCanon (execMcastDelivery id s) := by
  unfold execMcastDelivery
  split
  · exact ite_wf (applyMsg_canon hs) hs
  · exact hs

/-! ### Canonical memory: system instructions -/

theorem trapBody_canon {o : Ops} {s : State} : (trapBody o s).Canon := by
  unfold trapBody
  trivial

theorem takeHeld_canon {s : State} (hs : s.Canon) : s.takeHeld.Canon := by
  unfold State.takeHeld
  exact ite_wf (beginSave_canon hs) hs

theorem rteBody_canon {o : Ops} {s : State} (hs : s.Canon) : (rteBody o s).Canon := by
  unfold rteBody
  exact ite_act illegal_canon (ite_act trivial (takeHeld_canon (setMe_canon (ite_wf hs (mark_canon hs)))))

theorem sysrdBody_canon {o : Ops} {s : State} (hs : s.Canon) : (sysrdBody o s).Canon := by
  unfold sysrdBody
  exact ite_act trivial (within_canon (fixed_canon hs))

theorem setSysreg_canon {s : State} {r : ℕ} {v : Word} (hs : s.Canon) : (s.setSysreg r v).Canon := by
  unfold State.setSysreg
  exact ite_wf (setMe_canon hs) (ite_wf (setMe_canon hs) (ite_wf (setMyHam_canon hs)
      (ite_wf (setMe_canon hs) (ite_wf (setMe_canon hs) (ite_wf (setMe_canon hs)
      (ite_wf (setMe_canon hs) (ite_wf (setMyCore_canon hs) (ite_wf (setMyCore_canon hs)
      (ite_wf (setMe_canon hs) (ite_wf (setMyCore_canon hs) hs))))))))))

theorem syswrBody_canon {o : Ops} {s : State} (hs : s.Canon) : (syswrBody o s).Canon := by
  unfold syswrBody
  exact ite_act trivial (within_canon (setSysreg_canon hs))

theorem dropTlb_canon {s : State} {gone : Tlb → Bool} (hs : s.Canon) : (s.dropTlb gone).Canon := by
  unfold State.dropTlb
  exact hs

theorem tlbinvBody_canon {i : Instr} {reads : List Loc} {s : State} {gone : Tlb → Bool} (hs : s.Canon) :
    (tlbinvBody i reads s gone).Canon := by
  unfold tlbinvBody
  exact ite_act trivial (within_canon (ite_act hs (dropTlb_canon hs)))

theorem execUnassignedEncoding_canon {base : BitVec 32} {s : State} (hs : s.Canon) : OutCanon (execUnassignedEncoding base s) := by
  unfold execUnassignedEncoding
  exact trap_canon hs

/-! ### Canonical memory: faults, the fault queue and pages that move -/

theorem writeFault_canon {s : State} (hs : s.Canon) : s.writeFault.Canon := by
  unfold State.writeFault
  split
  · exact hs
  · generalize bytesOf 32 = f
    refine ite_wf hs ?_
    have hw : ∀ t : State, t.Canon → ∀ b : Bool, (if b then t else t.oweOnce .faultRecordWrite).Canon := fun t ht b => ite_wf ht
        (oweOnce_canon ht)
    exact hw _ (ite_wf (irq_canon (memWrite_wf _ _ hs)) (memWrite_wf _ _ hs)) _

theorem execFaultRecordWrite_canon {s : State} (hs : s.Canon) : OutCanon (execFaultRecordWrite s) := by
  unfold execFaultRecordWrite
  exact writeFault_canon hs

theorem setFqHead_canon {s : State} {v : BitVec 32} (hs : s.Canon) : (s.setFqHead v).Canon := by
  unfold State.setFqHead
  exact ite_wf hs (ite_wf hs (oweOnce_canon hs))

theorem execFqheadWrite_canon {v : BitVec 32} {s : State} (hs : s.Canon) : OutCanon (execFqheadWrite v s) := by
  unfold execFqheadWrite
  exact setFqHead_canon hs

theorem l1Lost_canon {s : State} {c line : ℕ} (hs : s.Canon) : (s.l1Lost c line).Canon := by
  unfold State.l1Lost
  dsimp only
  split
  · exact hs
  · exact ite_wf (dropLine_canon hs) (listLine_canon (dropLine_canon hs))

theorem uncorrectable_canon {s : State} {code unit addr : ℕ} (hs : s.Canon) : (s.uncorrectable code unit addr).Canon := by
  unfold State.uncorrectable
  exact ite_wf (storageTrap_canon hs) (ite_wf (l1Lost_canon hs) (ite_wf (ite_wf (storageTrap_canon hs) hs)
      (ite_wf (foldl_wf _ (fun _ _ h1 => storageTrap_canon h1) _ _ hs) (ite_wf (fence_canon hs)
      (ite_wf (stopPackage_canon hs) (ite_wf (listLine_canon hs) (ite_wf (listLine_canon hs) hs)))))))

theorem execScrubPass_canon {code : BitVec 4} {unit : BitVec 16} {addr : BitVec 46} {uncorrectable : Bool} {s : State} (hs : s.Canon) :
    OutCanon (execScrubPass code unit addr uncorrectable s) := by
  unfold execScrubPass
  exact ite_wf (uncorrectable_canon hs) hs

theorem execCorrectedRecordCoalesce_canon {code : BitVec 4} {unit count : BitVec 16} {s : State} (hs : s.Canon) :
    OutCanon (execCorrectedRecordCoalesce code unit count s) := by
  unfold execCorrectedRecordCoalesce
  exact ite_wf hs (record_wf hs)

theorem setPoint_canon {s : State} {h : ℕ} {p : BitVec 2} (hs : s.Canon) : (s.setPoint h p).Canon := by
  unfold State.setPoint
  exact setHam_canon hs

theorem choosePoint_canon {s : State} {h : ℕ} {p : BitVec 2} (hs : s.Canon) : (s.choosePoint h p).Canon := by
  unfold State.choosePoint
  exact setPoint_canon hs

theorem execOperatingPointChange_canon {h : HamletId} {p : BitVec 2} {s : State} (hs : s.Canon) :
    OutCanon (execOperatingPointChange h p s) := by
  unfold execOperatingPointChange
  exact choosePoint_canon hs

theorem threshold_canon {s : State} {h : ℕ} {now : Heat} (hs : s.Canon) : (s.threshold h now).Canon := by
  unfold State.threshold
  exact setHam_canon hs

theorem execThrottleThreshold_canon {h : HamletId} {now : Heat} {s : State} (hs : s.Canon) : OutCanon (execThrottleThreshold h now s) := by
  unfold execThrottleThreshold
  exact threshold_canon hs

theorem throttle_canon {s : State} {h : ℕ} (hs : s.Canon) : (s.throttle h).Canon := by
  unfold State.throttle
  dsimp only
  split
  · exact setHam_canon hs
  · exact hs
  · exact ite_wf hs (setHam_canon hs)

theorem execThrottleStep_canon {h : HamletId} {s : State} (hs : s.Canon) : OutCanon (execThrottleStep h s) := by
  unfold execThrottleStep
  exact throttle_canon hs

theorem shutDown_canon {s : State} {h : ℕ} (hs : s.Canon) : (s.shutDown h).Canon := by
  unfold State.shutDown
  exact fence_canon (setHam_canon hs)

theorem execThermalShutdown_canon {h : HamletId} {s : State} (hs : s.Canon) : OutCanon (execThermalShutdown h s) := by
  unfold execThermalShutdown
  exact shutDown_canon hs

theorem lowerCeiling_canon {s : State} {c : BitVec 2} (hs : s.Canon) : (s.lowerCeiling c).Canon := by
  unfold State.lowerCeiling
  exact record_wf (foldl_wf _ (fun _ _ h1 => setHam_canon h1) _ _ hs)

theorem execReducedSupply_canon {ceiling : BitVec 2} {s : State} (hs : s.Canon) : OutCanon (execReducedSupply ceiling s) := by
  unfold execReducedSupply
  exact lowerCeiling_canon hs

theorem execRailTrip_canon {s : State} (hs : s.Canon) : OutCanon (execRailTrip s) := by
  unfold execRailTrip
  exact stopPackage_canon hs

theorem oweUnreachable_canon {s : State} (hs : s.Canon) : s.oweUnreachable.Canon := by
  unfold State.oweUnreachable
  exact foldl_wf _ (fun _ _ h1 => ite_wf (oweOnce_canon h1) h1) _ _ hs

theorem dropPort_canon {s : State} {p : ℕ} (hs : s.Canon) : (s.dropPort p).Canon := by
  unfold State.dropPort
  exact oweUnreachable_canon (record_wf hs)

theorem setPort_canon {s : State} {p : ℕ} {x : Port} (hs : s.Canon) : (s.setPort p x).Canon := by
  unfold State.setPort
  exact hs

theorem flitIn_canon {s : State} {p : ℕ} {seq : BitVec 12} {good : Bool} (hs : s.Canon) : (s.flitIn p seq good).Canon := by
  unfold State.flitIn
  exact ite_wf hs (ite_wf (setPort_canon hs) (setPort_canon hs))

theorem flitAck_canon {s : State} {p : ℕ} {seq : BitVec 12} (hs : s.Canon) : (s.flitAck p seq).Canon := by
  unfold State.flitAck
  exact ite_wf (setPort_canon hs) hs

theorem replayFailed_canon {s : State} {p : ℕ} (hs : s.Canon) : (s.replayFailed p).Canon := by
  unfold State.replayFailed
  exact ite_wf hs (ite_wf (setPort_canon hs) (setPort_canon hs))

theorem execLinkReplay_canon {port : Fin 12} {s : State} (hs : s.Canon) : OutCanon (execLinkReplay port s) := by
  unfold execLinkReplay
  exact ite_wf (record_wf (setPort_canon hs)) hs

theorem trained_canon {s : State} {p lanes : ℕ} (hs : s.Canon) : (s.trained p lanes).Canon := by
  unfold State.trained
  exact ite_wf hs (ite_wf (ite_wf (record_wf (setPort_canon hs)) (setPort_canon hs)) (dropPort_canon hs))

theorem execLinkRetrain_canon {port : Fin 12} {lanes : ℕ} {s : State} (hs : s.Canon) : OutCanon (execLinkRetrain port lanes s) := by
  unfold execLinkRetrain
  exact trained_canon hs

theorem execPortDown_canon {port : Fin 12} {s : State} (hs : s.Canon) : OutCanon (execPortDown port s) := by
  unfold execPortDown
  exact ite_wf (dropPort_canon hs) hs

theorem execLaneRepair_canon {die : Fin 4} {s : State} (hs : s.Canon) : OutCanon (execLaneRepair die s) := by
  unfold execLaneRepair
  exact record_wf hs

theorem execBridgeFailure_canon {die : Fin 4} {s : State} (hs : s.Canon) : OutCanon (execBridgeFailure die s) := by
  unfold execBridgeFailure
  exact stopPackage_canon hs

theorem restartService_canon {s : State} (hs : s.Canon) : s.restartService.Canon := by
  unfold State.restartService
  exact ite_wf hs (ite_wf (record_wf hs) (record_wf hs))

theorem execServiceMailboxTimeout_canon {s : State} (hs : s.Canon) : OutCanon (execServiceMailboxTimeout s) := by
  unfold execServiceMailboxTimeout
  exact restartService_canon hs

theorem execManagementPortMessage_canon {s : State} (hs : s.Canon) : OutCanon (execManagementPortMessage s) := by
  unfold execManagementPortMessage
  exact ite_wf (irq_canon hs) hs

theorem movePage_canon {s : State} {old new : ℕ} (hs : s.Canon) : (s.movePage old new).Canon := by
  unfold State.movePage
  generalize frameLines old = ol
  generalize frameLines new = nl
  refine ite_wf hs (foldl_wf _ (fun t line ht => ite_wf (listLine_canon ht) (homePut_wf ht)) _ _ ?_)
  exact foldl_wf _ (fun _ _ ht => foldl_wf _ (fun _ _ hu => giveLine_canon hu) _ _ ht) _ _ hs

theorem execPageMove_canon {old new : BitVec 34} {s : State} (hs : s.Canon) : OutCanon (execPageMove old new s) := by
  unfold execPageMove
  exact movePage_canon hs

theorem bounce_canon {s : State} {id : ℕ} (hs : s.Canon) : (s.bounce id).Canon := by
  unfold State.bounce
  split
  · exact hs
  · exact ite_wf (owe_canon hs) (foldl_wf _ (fun _ _ h2 => owe_canon h2) _ _ hs)

theorem execPageMoveBounce_canon {id : ℕ} {s : State} (hs : s.Canon) : OutCanon (execPageMoveBounce id s) := by
  unfold execPageMoveBounce
  exact bounce_canon hs

/-! ### Canonical memory: strands, parks and saves -/

theorem saveLine_canon {s : State} {c k : ℕ} {va : Word} {bs : List Byte} (hs : s.Canon) :
    ExAll (fun _ => True) State.Canon (s.saveLine c k va bs) := by
  unfold State.saveLine
  dsimp only
  split
  · trivial
  · trivial
  · trivial
  · rename_i t1 h1
    split
    · trivial
    · split
      · have ht1 : t1.Canon := (resolveFor_canon hs).ok h1
        exact homePut_wf ht1
      · have ht1 : t1.Canon := (resolveFor_canon hs).ok h1
        exact homePut_wf ht1
      · have ht1 : t1.Canon := (resolveFor_canon hs).ok h1
        exact globalPut_canon ht1
      · have ht1 : t1.Canon := (resolveFor_canon hs).ok h1
        exact setCtx_canon (farStore_canon ht1)
      · have ht1 : t1.Canon := (resolveFor_canon hs).ok h1
        exact writePlace_wf ht1

theorem saveHeld_canon {s : State} {c k : ℕ} {va : Word} {n : ℕ} (hs : s.Canon) : OptAll State.Canon (s.saveHeld c k va n) := by
  unfold State.saveHeld
  refine findSome_opt (fun q => ?_) _
  generalize s.resolveFor c k (s.ctx c k).tblroot (s.ctx c k).priv (va + BitVec.ofNat 64 q.1) .write = r
  cases r with
  | ok q' =>
    refine ite_opt hs ?_
    cases q'.2.placeStuck c q'.1 q.2 with
    | none => trivial
    | some l => exact cxlAsk_canon hs
  | error e => trivial

theorem savePut_canon {s : State} {c k : ℕ} {va : Word} {bs : List Byte} (hs : s.Canon) : (s.savePut c k va bs).1.Canon := by
  unfold State.savePut
  refine foldl_fst (fun a1 a2 h1 => ?_) _ _ hs
  split
  · exact h1
  · split
    · rename_i t1 h3
      have ht1 : t1.Canon := (saveLine_canon h1).ok h3
      exact ht1
    · exact pair_fst (noteWalk_canon h1)

theorem freeBytes_canon {s : State} {n : ℕ} (hs : s.Canon) : (s.freeBytes n).2.Canon := by
  unfold State.freeBytes
  exact hs

theorem saveRead_canon {s : State} {c k : ℕ} {d : Strand} {va : Word} {n : ℕ} (hs : s.Canon) : (s.saveRead c k d va n).2.Canon := by
  unfold State.saveRead
  split
  · dsimp only
    split
    · exact freeBytes_canon hs
    · rename_i t1 h2
      have ht1 : t1.Canon := (resolveFor_canon hs).ok h2
      exact ht1
    · rename_i t1 _ h3
      have ht1 : t1.Canon := (resolveFor_canon hs).ok h3
      exact ite_snd (freeBytes_canon ht1) (readPlace_wf ht1)
  · dsimp only
    split
    · exact freeBytes_canon hs
    · rename_i t1 h2
      have ht1 : t1.Canon := (resolveFor_canon hs).ok h2
      exact freeBytes_canon ht1
    · rename_i t1 _ h3
      have ht1 : t1.Canon := (resolveFor_canon hs).ok h3
      exact ite_snd (freeBytes_canon ht1) (readPlace_wf ht1)

theorem saveList_canon {s : State} {c k : ℕ} {va : Word} {n : ℕ} (hs : s.Canon) : (s.saveList c k va n).Canon := by
  unfold State.saveList
  refine foldl_wf _ (fun t1 a1 h1 => ?_) _ _ hs
  split
  · rename_i t2 h2
    have ht2 : t2.Canon := (resolveFor_canon h1).ok h2
    exact listDest_canon ht2
  · exact h1

theorem saveGet_canon {s : State} {c k : ℕ} {d : Strand} {va : Word} {n : ℕ} (hs : s.Canon) : (s.saveGet c k d va n).2.Canon := by
  unfold State.saveGet
  refine foldl_snd (fun a1 a2 h1 => ?_) _ _ hs
  split
  rename_i t1 h2
  have ht1 : t1.Canon := snd_canon h2 (saveRead_canon h1)
  exact ht1

theorem leaveMill_canon {s : State} {c k : ℕ} (hs : s.Canon) : (s.leaveMill c k).Canon := by
  unfold State.leaveMill
  exact ite_wf (setMill_canon hs) hs

theorem giveUp_canon {s : State} {c k : ℕ} {d : Strand} (hs : s.Canon) : (s.giveUp c k d).2.Canon := by
  unfold State.giveUp
  split
  · exact setCore_canon hs
  · exact hs

theorem addRecord_canon {s : State} {h : ℕ} {w : Waiter} (hs : s.Canon) : (s.addRecord h w).Canon := by
  unfold State.addRecord
  exact ite_wf (mark_canon (setHam_canon hs)) (setHam_canon hs)

theorem linkRecord_canon {s : State} {h : ℕ} {p : Parking} {w : Waiter} (hs : s.Canon) : (s.linkRecord h p w).Canon := by
  unfold State.linkRecord
  exact ite_wf (makeReady_canon hs) (ite_wf (addRecord_canon hs) (addRecord_canon (addRecord_canon hs)))

theorem linkPark_canon {s : State} {c k : ℕ} (hs : s.Canon) : (s.linkPark c k).Canon := by
  unfold State.linkPark
  dsimp only
  split
  · exact ite_wf (callIdle_canon (owe_canon (setCtx_canon (leaveMill_canon hs))))
        (linkRecord_canon (toIdle_canon (giveUp_canon (leaveMill_canon hs))))
  · exact hs

theorem saveListed_canon {s : State} {c k : ℕ} {base : Word} {p : Plan} (hs : s.Canon) : (s.saveListed c k base p).Canon := by
  unfold State.saveListed
  exact ite_wf hs (foldl_wf _ (fun _ _ h1 => ite_wf (saveList_canon h1) h1) _ _ hs)

theorem writeSave_canon {s : State} {c k : ℕ} {whole : Bool} {again : Instr} {go : State → State} (hs : s.Canon)
    (hgo : ∀ t : State, t.Canon → (go t).Canon) : (s.writeSave c k whole again go).Canon := by
  unfold State.writeSave
  extract_lets x
  split
  · exact hs
  · rename_i d _
    extract_lets p base f
    have hp : (s.savePut c k base (s.saveBytes c k d f p)).1.Canon := savePut_canon hs
    cases hh : s.saveHeld c k base p.size with
    | some t => exact owe_canon ((saveHeld_canon hs).get hh)
    | none =>
      dsimp only
      generalize s.savePut c k base (s.saveBytes c k d f p) = q at hp ⊢
      obtain ⟨t, e⟩ := q
      cases e with
      | none => exact hgo _ (saveListed_canon hp)
      | some e => exact as_canon (enterTrap_canon (as_canon hp))

theorem parkStep_canon {s : State} {c : CoreId} {k : CtxId} (hs : s.Canon) : (s.parkStep c k).Canon := by
  unfold State.parkStep
  split
  · dsimp only
    split
    · exact ite_wf hs (owe_canon hs)
    · exact hs
  · dsimp only
    split
    · exact ite_wf hs (writeSave_canon hs (fun _ h => linkPark_canon h))
    · exact hs

theorem execParkSaveDone_canon {c : CoreId} {k : CtxId} {s : State} (hs : s.Canon) : OutCanon (execParkSaveDone c k s) := by
  unfold execParkSaveDone
  exact parkStep_canon hs

theorem execOverflowLinkWait_canon {c : CoreId} {k : CtxId} {s : State} (hs : s.Canon) : OutCanon (execOverflowLinkWait c k s) := by
  unfold execOverflowLinkWait
  dsimp only
  split
  · exact ite_wf (linkPark_canon hs) hs
  · exact hs

theorem endSave_canon {s : State} {c k : ℕ} (hs : s.Canon) : (s.endSave c k).Canon := by
  unfold State.endSave
  dsimp only
  split
  · exact toIdle_canon (setCore_canon (leaveMill_canon (giveUp_canon (unquiesce_canon hs))))
  · exact hs

theorem saveStep_canon {s : State} {c : CoreId} {k : CtxId} (hs : s.Canon) : (s.saveStep c k).Canon := by
  unfold State.saveStep
  dsimp only
  split
  · exact ite_wf hs (ite_wf (owe_canon hs) (writeSave_canon (as_canon (commitAll_canon (as_canon hs))) (fun _ h => endSave_canon h)))
  · exact hs

theorem execSaveComplete_canon {c : CoreId} {k : CtxId} {s : State} (hs : s.Canon) : OutCanon (execSaveComplete c k s) := by
  unfold execSaveComplete
  exact saveStep_canon hs

theorem startCount_canon {s : State} {c k : ℕ} (hs : s.Canon) : (s.startCount c k).Canon := by
  unfold State.startCount
  exact ite_wf hs (setCtx_canon hs)

theorem askSave_canon {s : State} {c : CoreId} {k : CtxId} {area : BitVec 57} (hs : s.Canon) : (s.askSave c k area).Canon := by
  unfold State.askSave
  refine ite_wf hs ?_
  split
  · exact oweOnce_canon (setCtx_canon (startCount_canon hs))
  · exact oweOnce_canon (setCtx_canon (startCount_canon hs))
  · exact oweOnce_canon (setCtx_canon (startCount_canon hs))
  · exact hs

theorem execPreemptRequest_canon {c : CoreId} {k : CtxId} {area : BitVec 57} {s : State} (hs : s.Canon) :
    OutCanon (execPreemptRequest c k area s) := by
  unfold execPreemptRequest
  exact askSave_canon hs

theorem deadlineStep_canon {s : State} {c : CoreId} {k : CtxId} (hs : s.Canon) : (s.deadlineStep c k).Canon := by
  unfold State.deadlineStep
  split
  exact ite_wf hs (ite_wf (foldl_wf _ (fun _ _ h2 => mark_canon (beginSave_canon h2)) _ _ hs) (owe_canon (setCtx_canon hs)))

theorem execSaveDeadlineExpiry_canon {c : CoreId} {k : CtxId} {s : State} (hs : s.Canon) : OutCanon (execSaveDeadlineExpiry c k s) := by
  unfold execSaveDeadlineExpiry
  exact deadlineStep_canon hs

theorem execResumptionRelease_canon {c : CoreId} {k : CtxId} {s : State} (hs : s.Canon) : OutCanon (execResumptionRelease c k s) := by
  unfold execResumptionRelease
  exact ite_wf (owe_canon (setCore_canon hs)) hs

theorem putTiles_canon {s : State} {c k : ℕ} {ts : List (ℕ × Byte)} (hs : s.Canon) : (s.putTiles c k ts).Canon := by
  unfold State.putTiles
  refine foldl_wf _ (fun _ _ h => listLine_canon h) _ _ ?_
  exact foldl_keeps (p := fun m => Memory.wf m = true) (fun _ _ h => memSet_wf _ _ h) _ _ hs

theorem tookWork_canon {s : State} {c : ℕ} (hs : s.Canon) : (s.tookWork c).Canon := by
  unfold State.tookWork
  exact setCore_canon hs

theorem begin'_canon {s : State} {c k : ℕ} {f : Frame} {seq : Word} {ts : List (ℕ × Byte)} (hs : s.Canon) :
    (s.begin' c k f seq ts).Canon := by
  unfold State.begin'
  exact tookWork_canon (setCtx_canon (putTiles_canon hs))

theorem retake_canon {s : State} {c k : ℕ} {gang : Bool} {rank : ℕ} {rec' : BitVec 1024} {vis work : Map Row} (hs : s.Canon) :
    (s.retake c k gang rank rec' vis work).Canon := by
  unfold State.retake
  exact hs

theorem resume_canon {s : State} {c k : ℕ} {b : Back} (hs : s.Canon) : (s.resume c k b).Canon := by
  have hg : (s.saveGet c k b.strand b.save (s.backPlan c b).size).2.Canon := saveGet_canon hs
  unfold State.resume
  dsimp only
  generalize s.saveGet c k b.strand b.save (s.backPlan c b).size = r at hg ⊢
  obtain ⟨bs, t⟩ := r
  have hm (z : ℕ × ℕ) (a b' : ℕ) (l : List (Bool × ℕ × ℕ)) (e : List Byte) :
      Memory.wf (l.foldl (fun (acc : List Host.Cell × List Byte) g =>
        (memWrite acc.1 (t.sliceAt c k g.1 g.2.1) (acc.2.take g.2.2), acc.2.drop g.2.2)) (memClear (memClear t.mem a z.1) b' z.2, e)).1 =
            true :=
    foldl_keeps (p := fun acc : List Host.Cell × List Byte => Memory.wf acc.1 = true) (fun _ _ h => memWrite_wf _ _ h) l _
      (memClear_wf _ _ (memClear_wf _ _ hg))
  dsimp only
  have hu (l : List ℕ) (m : List Host.Cell) (hm : Memory.wf m = true) :
      (l.foldl (fun (u : State) a => u.listLine a (u.seqOf c) true) { t with mem := m }).Canon := foldl_wf _ (fun _ _ h => listLine_canon h)
          _ _ hm
  exact ite_wf (retake_canon (tookWork_canon (setCtx_canon (setCore_canon (hu _ _ (hm _ _ _ _ _))))))
    (tookWork_canon (setCtx_canon (setCore_canon (hu _ _ (hm _ _ _ _ _)))))

/-! ### Canonical memory: the deque unit and the task instructions -/

theorem remask_canon {s : State} {c : ℕ} (hs : s.Canon) : (s.remask c).Canon := by
  unfold State.remask
  exact setHam_canon hs

theorem onDeque_canon {s : State} {c q : ℕ} {f : Strand → Strand} (hs : s.Canon) : (s.onDeque c q f).Canon := by
  unfold State.onDeque
  exact setHam_canon (setCore_canon hs)

theorem setSlots_canon {s : State} {c q : ℕ} {l : List Slot} (hs : s.Canon) : (s.setSlots c q l).Canon := by
  unfold State.setSlots
  exact remask_canon (ite_wf (onDeque_canon (setCore_canon hs)) (setCore_canon hs))

theorem ownerTakes_canon {s : State} {c q : ℕ} (hs : s.Canon) : (s.ownerTakes c q).Canon := by
  unfold State.ownerTakes
  dsimp only
  split
  · exact ite_wf (setCore_canon hs) hs
  · exact hs

theorem pushFrame_canon {s : State} {c k : ℕ} {f : Frame} (hs : s.Canon) : (s.pushFrame c k f).Canon := by
  unfold State.pushFrame
  split
  rename_i t1 _ h1
  dsimp only
  split
  · exact hs
  · split
    · have ht1 : t1.Canon := fst_canon h1 (fresh_canon hs)
      exact setSlots_canon (setCore_canon (ite_snd (pair_snd (mark_canon ht1)) ht1))
    · split
      · have ht1 : t1.Canon := fst_canon h1 (fresh_canon hs)
        exact ite_snd (pair_snd (mark_canon ht1)) ht1
      · have ht1 : t1.Canon := fst_canon h1 (fresh_canon hs)
        exact setSlots_canon (setCtx_canon (setCore_canon (ite_snd (pair_snd (mark_canon ht1)) ht1)))

theorem readBack_canon {s : State} {c q : ℕ} (hs : s.Canon) : (s.readBack c q).Canon := by
  unfold State.readBack
  exact ite_wf hs (setCore_canon hs)

theorem execSpillReadback_canon {c : CoreId} {dq : ℕ} {s : State} (hs : s.Canon) : OutCanon (execSpillReadback c dq s) := by
  unfold execSpillReadback
  exact ite_wf (readBack_canon hs) hs

theorem bump_canon {s : State} {h : ℕ} {hd : BitVec 32} {v : Word} (hs : s.Canon) : (s.bump h hd v).Canon := by
  unfold State.bump
  exact ite_wf hs (addCount_canon hs)

theorem departSynch_canon {s : State} {c : ℕ} {f : Frame} (hs : s.Canon) : OptAll (fun r => r.2.Canon) (s.departSynch c f) := by
  unfold State.departSynch
  exact ite_opt (pair_snd (bump_canon hs)) (map_opt (allocFuture_canon hs) (fun _ h1 => h1))

theorem departJoin_canon {s : State} {c q i : ℕ} {l : List Slot} {f : Frame} (hs : s.Canon) : (s.departJoin c q i l f).2.2.Canon := by
  unfold State.departJoin
  split
  · split
    · exact pair_snd (onDeque_canon hs)
    · exact hs
  · split
    · exact hs
    · exact hs

theorem depart_canon {s : State} {c q i : ℕ} (hs : s.Canon) : OptAll (fun r => r.2.Canon) (s.depart c q i) := by
  unfold State.depart
  dsimp only
  split
  · exact ite_opt (pair_snd (setSlots_canon (bump_canon hs))) (ite_opt (map_opt (departSynch_canon hs)
        (fun _ h2 => pair_snd (setSlots_canon (departJoin_canon h2)))) (pair_snd (setSlots_canon hs)))
  · trivial

theorem tilesOf_canon {s : State} {c : ℕ} {keep : Keep} {f : Frame} (hs : s.Canon) : (s.tilesOf c keep f).2.Canon := by
  unfold State.tilesOf
  split
  · exact hs
  · split
    · dsimp only
      split
      · exact hs
      · exact pair_snd (saveGet_canon hs)
    · dsimp only
      split
      · exact hs
      · exact pair_snd (saveGet_canon hs)

theorem dequeTiles_canon {s : State} {c q : ℕ} {f : Frame} (hs : s.Canon) : (s.dequeTiles c q f).2.Canon := by
  unfold State.dequeTiles
  split
  · exact tilesOf_canon hs
  · exact hs

theorem spawnMessage_canon {s : State} {o : Ops} (hs : s.Canon) : (s.spawnMessage o).Canon := by
  unfold State.spawnMessage
  dsimp only
  split
  · exact makeReady_canon hs
  · split
    · trivial
    · exact pushFrame_canon hs

theorem spawnBody_canon {o : Ops} {s : State} (hs : s.Canon) : (spawnBody o s).Canon := by
  unfold spawnBody
  refine within_canon (ite_act (spawnMessage_canon hs) ?_)
  split
  · exact hs
  · refine ite_act hs (ite_act trivial ?_)
    split
    · trivial
    · exact withRelease_canon hs (fun _ h => setMe_canon (pushFrame_canon h))

theorem oneMore_canon {s : State} {d : Strand} (hs : s.Canon) : OptAll (fun r => r.2.Canon) (s.oneMore d) := by
  unfold State.oneMore
  exact ite_opt (pair_snd (addCount_canon hs)) (allocFuture_canon hs)

theorem spawnrBody_canon {o : Ops} {s : State} (hs : s.Canon) : (spawnrBody o s).Canon := by
  unfold spawnrBody
  refine ite_act illegal_canon (ite_act hs ?_)
  split
  · exact hs
  · refine within_canon (ite_act trivial (ite_act trivial (ite_act trivial ?_)))
    split
    · trivial
    · refine withRelease_canon hs (fun t h => ite_act h ?_)
      split
      · exact h
      · rename_i t1 h3
        have ht1 : t1.Canon := (oneMore_canon h).get h3
        exact pushFrame_canon (setMe_canon ht1)

theorem pieceOut_canon {s : State} {o : Ops} {a : Word} {j : Option (BitVec 32)} (hs : s.Canon) : (s.pieceOut o a j).Canon := by
  unfold State.pieceOut
  exact fixed_canon hs

theorem splitBody_canon {i : Instr} {o : Ops} {split : Bool} {s : State} (hs : s.Canon) : (splitBody i o split s).Canon := by
  unfold splitBody
  refine ite_act illegal_canon (ite_act hs (within_canon ?_))
  split
  · exact pieceOut_canon hs
  · split
    · dsimp only
      split
      · exact hs
      · exact pieceOut_canon hs
    · dsimp only
      split
      · exact ite_act (oweOnce_canon hs) (ite_act (pieceOut_canon hs) (ite_act
            (ite_act (pieceOut_canon (setSlots_canon (ownerTakes_canon hs)))
            (ite_act trivial (withRelease_canon hs (fun _ h => ite_act h
            (done_canon (pieceOut_canon (setSlots_canon (ownerTakes_canon (addCount_canon h)))))))))
            (pieceOut_canon (setSlots_canon (ownerTakes_canon hs)))))
      · exact pieceOut_canon hs

theorem syncOn_canon {s : State} {hd : BitVec 32} {k : State → Act} (hs : s.Canon) (hk : ∀ (a : State), a.Canon → (k a).Canon) :
    (s.syncOn hd k).Canon := by
  unfold State.syncOn
  exact ite_act (hk _ hs) (fresher_canon (ite_act hs (ite_act (hk _ (acquire_canon hs)) hs)))

theorem syncBody_canon {o : Ops} {s : State} (hs : s.Canon) : (syncBody o s).Canon := by
  unfold syncBody
  exact ite_act illegal_canon (ite_act hs (syncOn_canon hs (fun _ h => done_canon h)))

theorem publishBody_canon {o : Ops} {s : State} (hs : s.Canon) : (publishBody o s).Canon := by
  unfold publishBody
  refine ite_act illegal_canon (ite_act hs (withRelease_canon hs (fun t h => ?_)))
  split
  · exact setSlots_canon h
  · exact h

/-! ### Canonical memory: gangs -/

theorem enlist_canon {s : State} {lead rank size : ℕ} {l : Ctx} {fmt : Word} {c : ℕ} (hs : s.Canon) :
    (s.enlist lead rank size l fmt c).Canon := by
  unfold State.enlist
  split
  · exact hs
  · exact setMill_canon (setCtx_canon hs)

theorem claim_canon {s : State} {cs : List ℕ} (hs : s.Canon) : (s.claim cs).Canon := by
  unfold State.claim
  refine setMe_canon (setMill_canon (foldl_wf _ (fun t1 a1 h1 => ?_) _ _ hs))
  split
  exact enlist_canon h1

theorem fetchAt_instr {s t : State} {va : Word} {i : Instr} (hs : s.Canon) (h : s.fetchAt va = .instr i t) : t.Canon :=
  (congrArg Fetched.Canon h).mp (fetchAt_canon hs)

theorem nextOf_canon {s : State} {c k : ℕ} (hs : s.Canon) : OptAll (fun r => r.2.Canon) (s.nextOf c k) := by
  unfold State.nextOf
  have ht : (s.as c k).unhold.tick.Canon := tick_canon (unhold_canon (as_canon hs))
  dsimp only
  generalize (s.as c k).unhold.tick = t at ht ⊢
  split
  · trivial
  · split
    · rename_i h
      exact fetchAt_instr ht h
    · trivial

theorem gangLeadBody_canon {o : Ops} {s : State} (hs : s.Canon) : (gangLeadBody o s).Canon := by
  unfold gangLeadBody
  split
  · trivial
  · refine within_canon ?_
    split
    · trivial
    · exact ite_act (claim_canon hs) hs

theorem endGang_canon {s : State} (hs : s.Canon) : s.endGang.Canon := by
  unfold State.endGang
  exact setMe_canon (setMill_canon (foldl_wf _ (fun _ _ h1 => setMill_canon (toIdle_canon h1)) _ _ hs))

theorem withGang_canon {s : State} {k : State → Act} (hs : s.Canon) (hk : ∀ (a : State), a.Canon → (k a).Canon) : (s.withGang k).Canon := by
  unfold State.withGang
  exact ite_act trivial (ite_act (hk _ hs) (withMill_canon hs (fun _ h => ite_act (awaitGang_canon h) (hk _ h))))

theorem gangFollowBody_canon {s : State} (hs : s.Canon) : (gangFollowBody s).Canon := by
  unfold gangFollowBody
  exact withGang_canon hs (fun _ h => done_canon h)

theorem gangLeaveBody_canon {s : State} (hs : s.Canon) : (gangLeaveBody s).Canon := by
  unfold gangLeaveBody
  exact withGang_canon hs (fun _ h => done_canon (ite_wf (endGang_canon h) h))

theorem claimDue_canon {s : State} {c k : ℕ} (hs : s.Canon) : (s.claimDue c k).Canon := by
  unfold State.claimDue
  refine ite_wf hs ?_
  split
  · rename_i t1 h1
    have ht1 : t1.Canon := (nextOf_canon hs).get h1
    exact ite_wf (perform_canon ht1 (fun _ h => gangLeadBody_canon h)) hs
  · exact hs

theorem execGangClaim_canon {c : CoreId} {k : CtxId} {s : State} (hs : s.Canon) : OutCanon (execGangClaim c k s) := by
  unfold execGangClaim
  exact claimDue_canon hs

/-! ### Canonical memory: TEND and DONATE -/

theorem donatedEnd_canon {s : State} {hd : BitVec 32} {root : Bool} (hs : s.Canon) : (s.donatedEnd hd root).Canon := by
  unfold State.donatedEnd
  exact ite_wf (rootEnd_canon (bump_canon (ite_wf hs (setFuture_canon hs)))) (bump_canon (ite_wf hs (setFuture_canon hs)))

theorem execDonatedDecrement_canon {handle : BitVec 32} {root : Bool} {s : State} (hs : s.Canon) :
    OutCanon (execDonatedDecrement handle root s) := by
  unfold execDonatedDecrement
  exact donatedEnd_canon hs

theorem dropSynch_canon {s : State} (hs : s.Canon) : s.dropSynch.Canon := by
  unfold State.dropSynch
  exact ite_wf hs (freeFuture_canon hs)

theorem gone_canon {s : State} (hs : s.Canon) : s.gone.Canon := by
  unfold State.gone
  exact toIdle_canon hs

theorem popFrame_canon {s : State} {q : ℕ} {l : List Slot} {f : Frame} (hs : s.Canon) : (s.popFrame q l f).Canon := by
  unfold State.popFrame
  exact ite_act (setMe_canon (setSlots_canon (ownerTakes_canon hs))) (ite_act hs
      (setMe_canon (commitAll_canon (setSlots_canon (ownerTakes_canon hs)))))

theorem endOn_canon {s : State} {hd : BitVec 32} {sc : Scope} {k : State → Act} (hs : s.Canon) (hk : ∀ (a : State), a.Canon → (k a).Canon) :
    (s.endOn hd sc k).Canon := by
  unfold State.endOn
  exact fresher_canon (withRelease_canon hs (fun _ h => ite_act h (hk _ (addCount_canon h))))

theorem sendEnd_canon {s : State} {d : Strand} (hs : s.Canon) : (s.sendEnd d).Canon := by
  unfold State.sendEnd
  exact ite_wf (owe_canon hs) (send_canon hs)

theorem endCase_canon {s : State} {d : Strand} (hs : s.Canon) : (s.endCase d).Canon := by
  unfold State.endCase
  extract_lets h fin l
  have hfin (t : State) (ht : t.Canon) : (fin t).Canon := gone_canon (dropSynch_canon ht)
  split
  · exact ite_act hs (ite_act (oweOnce_canon hs) (popFrame_canon hs))
  · exact endOn_canon hs (fun _ h => gone_canon (setSlots_canon h))
  · refine ite_act (endOn_canon hs fun t ht => hfin _ (ite_wf (rootEnd_canon ht) ht)) (ite_act ?_ (ite_act ?_ ?_))
    · exact withRelease_canon hs fun t ht => ite_act ht (hfin _ (sendEnd_canon ht))
    · exact withRelease_canon hs fun t ht => hfin _ (rootEnd_canon ht)
    · exact withRelease_canon hs hfin

theorem dropMarks_canon {s : State} (hs : s.Canon) : s.dropMarks.Canon := by
  unfold State.dropMarks
  exact ite_wf hs (mark_canon (setMe_canon hs))

theorem freeMill_canon {s : State} (hs : s.Canon) : s.freeMill.Canon := by
  unfold State.freeMill
  exact ite_wf (callIdle_canon (setMill_canon hs)) hs

theorem tendBody_canon {o : Ops} {s : State} (hs : s.Canon) : (tendBody o s).Canon := by
  unfold tendBody
  refine ite_act illegal_canon (ite_act (withMill_canon hs (fun _ h => done_canon h))
      (withGang_canon hs (fun t h => ite_act (freeMill_canon (ite_wf (endGang_canon h) h)) ?_)))
  split
  · exact freeMill_canon (ite_wf (endGang_canon h) h)
  · exact syncOn_canon (dropMarks_canon (freeMill_canon (ite_wf (endGang_canon h) h))) (fun _ h2 => endCase_canon h2)

theorem writeEntry_canon {s : State} {pa : ℕ} {f : Frame} {ts : List (ℕ × Byte)} (hs : s.Canon) : (s.writeEntry pa f ts).Canon := by
  unfold State.writeEntry
  exact foldl_wf _ (fun _ _ h1 => ite_wf (listLine_canon h1) (homePut_wf h1)) _ _ hs

theorem takeDonation_canon {s : State} {q : BitVec 4} {f : Frame} {ts : List (ℕ × Byte)} (hs : s.Canon) :
    (s.takeDonation q f ts).2.Canon := by
  unfold State.takeDonation
  dsimp only
  split
  · exact hs
  · exact pair_snd (writeEntry_canon hs)

theorem refuseDonation_canon {s : State} {src : BitVec 20} {f : Frame} {missing : BitVec 32} (hs : s.Canon) :
    (s.refuseDonation src f missing).Canon := by
  unfold State.refuseDonation
  exact ite_wf (owe_canon hs) (packetOut_canon hs)

theorem donation_canon {s : State} {src : BitVec 20} {q : BitVec 4} {f : Frame} {ts : List (ℕ × Byte)} (hs : s.Canon) :
    (s.donation src q f ts).2.Canon := by
  unfold State.donation
  exact ite_snd (pair_snd (refuseDonation_canon hs)) (takeDonation_canon hs)

theorem execDonationArrival_canon {src : BitVec 20} {q : BitVec 4} {frame : Row} {tiles : List (ℕ × Byte)} {s : State} (hs : s.Canon) :
    OutCanon (execDonationArrival src q frame tiles s) := by
  unfold execDonationArrival
  exact donation_canon hs

theorem returned_canon {s : State} {f : Frame} {missing : BitVec 32} (hs : s.Canon) : (s.returned f missing).Canon := by
  unfold State.returned
  exact makeReady_canon (record_wf hs)

theorem execDonatedFrameReturn_canon {frame : Row} {missing : BitVec 32} {s : State} (hs : s.Canon) :
    OutCanon (execDonatedFrameReturn frame missing s) := by
  unfold execDonatedFrameReturn
  exact returned_canon hs

theorem donateCounts_canon {s : State} {f : Frame} (hs : s.Canon) : OptAll (fun r => r.2.Canon) (s.donateCounts f) := by
  unfold State.donateCounts
  exact ite_opt (map_opt (departSynch_canon hs) (fun _ h1 => pair_snd (bump_canon h1))) (pair_snd (bump_canon hs))

theorem donateLeave_canon {s : State} {c q i : ℕ} {f : Frame} (hs : s.Canon) : (s.donateLeave c q i f).2.Canon := by
  unfold State.donateLeave
  split
  · refine setSlots_canon ?_
    exact departJoin_canon hs
  · exact setSlots_canon hs

theorem donateHere_canon {s : State} {o : Ops} {w : Word} {q i : ℕ} {f : Frame} (hs : s.Canon) : (s.donateHere o w q i f).Canon := by
  unfold State.donateHere
  refine ite_act (var_canon hs) ?_
  split
  · exact hs
  · rename_i t1 h1
    split
    rename_i t2 h2
    split
    rename_i t3 h3
    have ht1 : t1.Canon := (donateCounts_canon hs).get h1
    have ht2 : t2.Canon := snd_canon h2 (dequeTiles_canon ht1)
    have ht3 : t3.Canon := snd_canon h3 (donateLeave_canon ht2)
    exact var_canon (donation_canon (setMyHam_canon ht3))

theorem donationRecord_canon {s : State} {c cls : ℕ} (hs : s.Canon) : (s.donationRecord c cls).Canon := by
  unfold State.donationRecord
  exact record_wf hs

theorem donateAway_canon {s : State} {o : Ops} {w : Word} {q i : ℕ} {f : Frame} (hs : s.Canon) : (s.donateAway o w q i f).Canon := by
  unfold State.donateAway
  refine ite_act hs ?_
  split
  · exact hs
  · rename_i t1 h1
    split
    rename_i t2 h2
    dsimp only
    have ht1 : t1.Canon := (donateCounts_canon hs).get h1
    have ht2 : t2.Canon := snd_canon h2 (dequeTiles_canon ht1)
    exact varAwait_canon (send_canon (setMyCore_canon ht2))

theorem donateBody_canon {o : Ops} {s : State} (hs : s.Canon) : (donateBody o s).Canon := by
  unfold donateBody
  refine ite_act illegal_canon (ite_act hs (ite_act illegal_canon (within_canon ?_)))
  split
  · exact var_canon hs
  · refine withRelease_canon hs (fun t h => ?_)
    split
    · dsimp only
      split
      · exact var_canon h
      · split
        · exact var_canon h
        · exact donateHere_canon h
    · split
      · dsimp only
        split
        · exact var_canon h
        · split
          · exact var_canon h
          · exact var_canon (donationRecord_canon h)
      · split
        · dsimp only
          split
          · exact var_canon h
          · split
            · exact var_canon h
            · exact var_canon h
        · dsimp only
          split
          · exact var_canon h
          · split
            · exact var_canon h
            · exact donateAway_canon h

theorem donationAnswered_canon {s : State} {m : Msg} {g : Frame} {full : Bool} (hs : s.Canon) : (s.donationAnswered m g full).Canon := by
  unfold State.donationAnswered
  split
  · exact hs
  · split
    · dsimp only
      split
      · exact hs
      · exact ite_wf (ite_wf (setCore_canon hs) (freeFuture_canon (setCore_canon hs))) (bump_canon (setCore_canon hs))
    · dsimp only
      split
      · exact hs
      · exact donateLeave_canon (setCore_canon hs)

theorem reinstate_canon {s : State} {m : Msg} {f : Frame} {ts : List (ℕ × Byte)} (hs : s.Canon) : (s.reinstate m f ts).Canon := by
  unfold State.reinstate
  exact makeReady_canon (donationRecord_canon (donationAnswered_canon hs))

/-! ### Canonical memory: where an idle context finds work -/

theorem beginFar_canon {s : State} {c k : ℕ} {f : Frame} {seq : Word} {ts : List (ℕ × Byte)} (hs : s.Canon) :
    (s.beginFar c k f seq ts).Canon := by
  unfold State.beginFar
  exact dropClean_canon (begin'_canon hs)

theorem walkFrame_canon {s : State} {q : ℕ} (hs : s.Canon) : (s.walkFrame q).Canon := by
  unfold State.walkFrame
  split
  · exact hs
  · dsimp only
    split
    · exact hs
    · split
      · split
        · exact ite_wf (putTiles_canon (setLaunch_canon hs)) (beginFar_canon (setLaunch_canon hs))
        · exact beginFar_canon (setLaunch_canon hs)
      · refine ite_wf ?_ (ite_wf ?_ ?_)
        · split
          · exact ite_wf hs (setLaunch_canon hs)
          · exact setLaunch_canon hs
        · split
          · exact ite_wf hs (setLaunch_canon hs)
          · exact setLaunch_canon hs
        · split
          · refine owe_canon ?_
            split
            · exact ite_wf hs (setLaunch_canon hs)
            · exact setLaunch_canon hs
          · split
            · exact ite_wf hs (setLaunch_canon hs)
            · exact setLaunch_canon hs

theorem execRootFrameWalk_canon {l : ℕ} {s : State} (hs : s.Canon) : OutCanon (execRootFrameWalk l s) := by
  unfold execRootFrameWalk
  exact walkFrame_canon hs

theorem grant_canon {s : State} {c thief : ℕ} {features : BitVec 32} (hs : s.Canon) : (s.grant c thief features).Canon := by
  unfold State.grant
  split
  · trivial
  · split
    · trivial
    · refine ite_answered trivial (ite_answered trivial ?_)
      split
      rename_i t1 h3
      split
      · trivial
      · rename_i t2 h4
        have ht1 : t1.Canon := snd_canon h3 (dequeTiles_canon hs)
        have ht2 : t2.Canon := (depart_canon ht1).get h4
        exact ite_wf (writeBackAll_wf ht2) ht2

theorem nextDonated_canon {s : State} (hs : s.Canon) : OptAll (fun r => r.2.2.2.Canon) s.nextDonated := by
  unfold State.nextDonated
  refine findSome_opt (fun a1 => ?_) _
  dsimp only
  split
  · trivial
  · exact hs

theorem takeReady_canon {s : State} {c k : ℕ} {r : Ready} (hs : s.Canon) : (s.takeReady c k r).Canon := by
  unfold State.takeReady
  split
  · exact foldl_wf _ (fun _ _ h1 => foldl_wf _ (fun _ _ h2 => ite_wf (oweOnce_canon h2) h2) _ _ h1) _ _ (resume_canon hs)
  · exact begin'_canon hs

theorem findWork_canon {s : State} {c k : ℕ} (hs : s.Canon) : (s.findWork c k).Canon := by
  unfold State.findWork
  split
  · exact resume_canon (setCore_canon hs)
  · split
    · dsimp only
      split
      · exact takeReady_canon (setCore_canon hs)
      · exact hs
    · split
      · rename_i t1 h3
        dsimp only
        split
        · exact beginFar_canon (setLaunch_canon hs)
        · have ht1 : t1.Canon := (congrArg Answered.Canon h3).mp (grant_canon hs)
          exact ite_wf hs (begin'_canon ht1)
      · dsimp only
        split
        · exact beginFar_canon (setLaunch_canon hs)
        · exact ite_wf hs (oweOnce_canon hs)
      · dsimp only
        split
        · exact beginFar_canon (setLaunch_canon hs)
        · exact ite_wf hs (ite_wf (oweOnce_canon (setCore_canon hs)) hs)

theorem takeFrames_canon {s : State} {c : ℕ} (hs : s.Canon) : (s.takeFrames c).Canon := by
  unfold State.takeFrames
  exact ite_wf hs (foldl_wf _ (fun _ _ h1 => ite_wf (findWork_canon h1) h1) _ _ hs)

theorem execFrameTake_canon {c : CoreId} {k : CtxId} {s : State} (hs : s.Canon) : OutCanon (execFrameTake c k s) := by
  unfold execFrameTake
  exact ite_wf (takeFrames_canon hs) hs

theorem sweepOver_canon {s : State} {c : ℕ} (hs : s.Canon) : (s.sweepOver c).Canon := by
  unfold State.sweepOver
  split
  · rename_i t1 _ h2
    have ht1 : t1.Canon := (nextDonated_canon hs).get h2
    exact callIdle_canon (beginFar_canon (setCore_canon ht1))
  · exact owe_canon (setCore_canon hs)

theorem probe_canon {s : State} {c : CoreId} (hs : s.Canon) : (s.probe c).Canon := by
  unfold State.probe
  refine ite_wf hs (ite_wf (setCore_canon hs) (ite_wf (sweepOver_canon hs) ?_))
  split
  · exact owe_canon (setCore_canon hs)
  · exact ite_wf (owe_canon (setCore_canon hs)) (owe_canon (setCore_canon (setCore_canon hs)))

theorem execStealRequest_canon {c : CoreId} {s : State} (hs : s.Canon) : OutCanon (execStealRequest c s) := by
  unfold execStealRequest
  exact probe_canon hs

theorem answerSteal_canon {s : State} {v : CoreId} (hs : s.Canon) : (s.answerSteal v).Canon := by
  unfold State.answerSteal
  dsimp only
  split
  · exact hs
  · refine ite_wf (setCore_canon hs) ?_
    split
    · exact owe_canon hs
    · exact owe_canon (setCore_canon (setCore_canon hs))
    · rename_i t1 h2
      have ht1 : t1.Canon := (congrArg Answered.Canon h2).mp (ite_answered trivial (grant_canon hs))
      exact owe_canon (setCore_canon (setCore_canon ht1))

theorem execStealGrant_canon {c : CoreId} {s : State} (hs : s.Canon) : OutCanon (execStealGrant c s) := by
  unfold execStealGrant
  exact answerSteal_canon hs

theorem stolen_canon {s : State} {c : ℕ} (hs : s.Canon) : (s.stolen c).Canon := by
  unfold State.stolen
  dsimp only
  split
  · split
    · exact callIdle_canon (begin'_canon (ite_wf (dropClean_canon (setCore_canon hs)) (setCore_canon hs)))
    · exact makeReady_canon (ite_wf (dropClean_canon (setCore_canon hs)) (setCore_canon hs))
  · exact hs

theorem execStolenFrameArrival_canon {c : CoreId} {s : State} (hs : s.Canon) : OutCanon (execStolenFrameArrival c s) := by
  unfold execStolenFrameArrival
  exact stolen_canon hs

theorem backoffOver_canon {s : State} {c : ℕ} (hs : s.Canon) : (s.backoffOver c).Canon := by
  unfold State.backoffOver
  dsimp only
  split
  · exact ite_wf (owe_canon hs) (callIdle_canon (setCore_canon hs))
  · exact hs

theorem execGleanerBackoff_canon {c : CoreId} {s : State} (hs : s.Canon) : OutCanon (execGleanerBackoff c s) := by
  unfold execGleanerBackoff
  exact backoffOver_canon hs

theorem wakeMsg_canon {s : State} {h : ℕ} (hs : s.Canon) : (s.wakeMsg h).Canon := by
  unfold State.wakeMsg
  dsimp only
  split
  · exact hs
  · exact wake_canon (setHam_canon hs)

theorem execWakeMessage_canon {h : HamletId} {s : State} (hs : s.Canon) : OutCanon (execWakeMessage h s) := by
  unfold execWakeMessage
  exact wakeMsg_canon hs

/-! ### Canonical memory: packets between packages -/

theorem takeIn_canon {s : State} {src : BitVec 20} {seq : BitVec 32} {core ctx tag : ℕ} {b : Body} (hs : s.Canon) :
    (s.takeIn src seq core ctx tag b).Canon := by
  unfold State.takeIn
  split
  rename_i t1 _ h1
  have ht1 : t1.Canon := fst_canon h1 (fresh_canon hs)
  exact serveIncoming_canon ht1

theorem chanTake_canon {s : State} {id : ℕ} {data : Row} {lost : Bool} (hs : s.Canon) : (s.chanTake id data lost).Canon := by
  unfold State.chanTake
  split
  · exact hs
  · exact ite_wf (oweOnce_canon hs) hs

theorem lostAnswer_canon {s : State} {src : BitVec 20} {id pa : ℕ} (hs : s.Canon) : (s.lostAnswer src id pa).Canon := by
  unfold State.lostAnswer
  split
  · exact hs
  · exact ite_wf (chanTake_canon (delivered_canon hs)) (ite_wf (acknowledge_canon (setCore_canon (delivered_canon hs)))
        (lostRead_canon (delivered_canon hs)))

theorem answered'_canon {s : State} {src : BitVec 20} {id : ℕ} {data : Row} {fl : BitVec 6} (hs : s.Canon) :
    (s.answered' src id data fl).Canon := by
  unfold State.answered'
  split
  · exact hs
  · refine ite_wf (chanTake_canon (delivered_canon hs)) ?_
    split
    · exact acknowledge_canon (delivered_canon hs)
    · exact delivered_canon hs
    · exact takeReply_canon (donationAnswered_canon (delivered_canon hs))
    · exact takeReply_canon (delivered_canon hs)

theorem packet_canon {s : State} {src : BitVec 20} {seq : BitVec 32} {core ctx tag : ℕ} {b : Body} (hs : s.Canon) :
    (s.packet src seq core ctx tag b).Canon := by
  have ht : (s.ack src seq).Canon := ack_canon hs
  unfold State.packet
  generalize s.ack src seq = t at ht ⊢
  cases b with
  | reply data fl => exact answered'_canon ht
  | empty => exact answered'_canon ht
  | lost pa => exact lostAnswer_canon ht
  | wake pa => exact wakeFromFar_canon ht
  | listed pa => exact listLine_canon ht
  | decrement x root => exact donatedEnd_canon ht
  | donation q f ts =>
    have hd : (t.donation src q (frameOf f) ts).2.Canon := donation_canon ht
    dsimp only
    generalize t.donation src q (frameOf f) ts = r at hd ⊢
    exact ite_wf hd (packetOut_canon hd)
  | donReturn f missing => exact returned_canon ht
  | _ => exact takeIn_canon hs

theorem packetArrival_canon {s : State} {src dst : BitVec 20} {seq : BitVec 32} {core ctx tag : ℕ} {b : Body} (hs : s.Canon) :
    (s.packetArrival src dst seq core ctx tag b).Canon := by
  unfold State.packetArrival
  exact ite_wf hs (ite_wf (sendFlit_canon hs) (ite_wf hs (packet_canon hs)))

theorem execPackagePacketArrival_canon {route : Route} {seq : BitVec 32} {core : CoreId} {k : CtxId} {tag : ℕ} {body : Body} {s : State}
    (hs : s.Canon) : OutCanon (execPackagePacketArrival route seq core k tag body s) := by
  unfold execPackagePacketArrival
  exact packetArrival_canon hs

theorem resend_canon {s : State} {d : BitVec 20} (hs : s.Canon) : (s.resend d).Canon := by
  unfold State.resend
  exact ite_wf hs (ite_wf (oweOnce_canon hs) (ite_wf (oweOnce_canon hs) (oweOnce_canon hs)))

theorem execEndToEndResend_canon {dst : BitVec 20} {s : State} (hs : s.Canon) : OutCanon (execEndToEndResend dst s) := by
  unfold execEndToEndResend
  exact resend_canon hs

theorem openResult_canon {s : State} {c k id : ℕ} (hs : s.Canon) : (s.openResult c k id).Canon := by
  unfold State.openResult
  exact hs

theorem failMsg_canon {s : State} {m : Msg} (hs : s.Canon) : (s.failMsg m).Canon := by
  have hd : (s.delivered m.pkg m.id).Canon := delivered_canon hs
  unfold State.failMsg
  generalize s.delivered m.pkg m.id = t at hd ⊢
  cases m.tag with
  | none => exact ite_wf hd (acknowledge_canon (discardDead_canon hd))
  | some n =>
    cases m.body with
    | reply _ _ => exact hd
    | empty => exact hd
    | lost _ => exact hd
    | wake _ => exact hd
    | donReturn _ _ => exact record_wf hd
    | donation _ f ts =>
      have hu : ((t.donationAnswered m (frameOf f) false).donationRecord m.core 4).Canon := donationRecord_canon (donationAnswered_canon hd)
      exact ite_wf (takeReply_canon (reinstate_canon hd)) (takeLate_canon (acknowledge_canon (openResult_canon hu)))
    | _ =>
      refine ite_wf (acknowledge_canon (discardDead_canon (setCore_canon hd))) (ite_wf (acknowledge_canon hd) ?_)
      exact as_canon (trap_canon (as_canon (acknowledge_canon (setCtx_canon hd))))

theorem failAll_canon {d : BitVec 20} (ms : List Msg) {s : State} (hs : s.Canon) : (s.failAll d ms).1.Canon := by
  induction ms generalizing s with
  | nil => exact hs
  | cons m ms ih =>
    rw [failAll_cons]
    exact ite_fst hs (ite_fst (ih (failMsg_canon (setCtx_canon hs))) (ih (failMsg_canon hs)))

theorem failChans_canon {s : State} {d : BitVec 20} (hs : s.Canon) : (s.failChans d).Canon := by
  unfold State.failChans
  refine foldl_wf _ (fun t e ht => ?_) _ _ hs
  split
  · exact oweOnce_canon ht
  · exact ht

theorem unreachable_canon {s : State} {d : BitVec 20} (hs : s.Canon) : (s.unreachable d).Canon := by
  unfold State.unreachable
  refine ite_wf hs ?_
  split
  · dsimp only
    split
    · exact failAll_canon _ (failChans_canon hs)
    · exact oweOnce_canon (failAll_canon _ (failChans_canon hs))
  · dsimp only
    split
    · exact failAll_canon _ (failChans_canon hs)
    · exact oweOnce_canon (failAll_canon _ (failChans_canon hs))

theorem execDestinationUnreachable_canon {dst : BitVec 20} {s : State} (hs : s.Canon) : OutCanon (execDestinationUnreachable dst s) := by
  unfold execDestinationUnreachable
  exact unreachable_canon hs

/-! ### Canonical memory: the system copy channels -/

theorem setSysChan_canon {s : State} {n : ℕ} {c : SysChan} (hs : s.Canon) : (s.setSysChan n c).Canon := by
  unfold State.setSysChan
  exact hs

theorem oweChan_canon {s : State} {n : ℕ} (hs : s.Canon) : (s.oweChan n).Canon := by
  unfold State.oweChan
  exact oweOnce_canon hs

theorem oweStage_canon {s : State} {n : ℕ} (hs : s.Canon) : (s.oweStage n).Canon := by
  unfold State.oweStage
  exact oweOnce_canon hs

theorem chanSend_canon {s : State} {n : ℕ} {pkg : BitVec 20} {tagged : Bool} {b : Body} (hs : s.Canon) :
    (s.chanSend n pkg tagged b).1.Canon := by
  unfold State.chanSend
  split
  rename_i t1 _ h1
  have ht1 : t1.Canon := fst_canon h1 (fresh_canon hs)
  exact numbered_canon ht1

theorem abandon_canon {s : State} {n : ℕ} (hs : s.Canon) : (s.abandon n).Canon := by
  unfold State.abandon
  exact oweStage_canon (setSysChan_canon hs)

theorem finishRecord_canon {s : State} {n : ℕ} {r : Row} {status : Byte} (hs : s.Canon) : (s.finishRecord n r status).Canon := by
  unfold State.finishRecord
  exact ite_wf (setSysChan_canon (ite_wf (irq_canon (homePut_wf hs)) (homePut_wf hs)))
      (oweChan_canon (setSysChan_canon (ite_wf (irq_canon (homePut_wf hs)) (homePut_wf hs))))

theorem chanPut_canon {s : State} {n : ℕ} {pkg : BitVec 20} {b : Body} (hs : s.Canon) : (s.chanPut n pkg b).1.Canon := by
  unfold State.chanPut
  refine ite_fst ?_ ?_
  · split
    rename_i t1 _ h1
    have ht1 : t1.Canon := fst_canon h1 (chanSend_canon hs)
    exact ht1
  · split
    · exact pair_fst (listLine_canon hs)
    · exact pair_fst (elim_state (applyBody_canon hs) hs (fun _ h1 => h1))
    · exact pair_fst (elim_state (applyBody_canon hs) hs (fun _ h1 => h1))
    · exact pair_fst (elim_state (applyBody_canon hs) hs (fun _ h1 => h1))
    · exact hs

theorem moveStage_canon {s : State} {n : ℕ} {r : Row} {len : ℕ} {bs : List Byte} (hs : s.Canon) : (s.moveStage n r len bs).Canon := by
  unfold State.moveStage
  generalize recForm r = form
  extract_lets c f d dp parts listed rm w put' elems moved ps
  have hput (t : State × List ℕ) (b : Body) (ht : t.1.Canon) : (put' t b).1.Canon := chanPut_canon ht
  clear_value put' f
  have hmoved (t : State × List ℕ) (g : Geo) (ht : t.1.Canon) : (moved t g).1.Canon := by
    refine ite_fst (hput _ _ ht) ?_
    cases f with
    | red => exact ht
    | cvt => exact hput _ _ ht
    | _ => exact hput _ _ ht
  have hps : (ps.foldl moved (s, [])).1.Canon := foldl_fst hmoved ps _ hs
  clear_value moved
  generalize ps.foldl moved (s, []) = t at hps ⊢
  obtain ⟨t, ids⟩ := t
  exact oweStage_canon (setSysChan_canon (ite_fst hps (hput _ _ hps)))

theorem readStage_canon {s : State} {n : ℕ} {r : Row} {len : ℕ} (hs : s.Canon) : (s.readStage n r len).Canon := by
  unfold State.readStage
  refine ite_wf (moveStage_canon hs) ?_
  split
  rename_i h1
  refine setSysChan_canon (fst_canon h1 (foldl_fst (fun a1 a2 h2 => ?_) _ _ hs))
  split
  rename_i t2 _ h3
  have ht2 : t2.Canon := fst_canon h3 (chanSend_canon h2)
  exact ht2

theorem nextStage_canon {s : State} {n : ℕ} (hs : s.Canon) : (s.nextStage n).Canon := by
  unfold State.nextStage
  refine ite_wf (abandon_canon hs) (ite_wf (oweChan_canon ?_) (ite_wf (setSysChan_canon hs)
      (ite_wf (finishRecord_canon hs) (ite_wf (finishRecord_canon hs) (ite_wf (finishRecord_canon hs)
      (ite_wf (abandon_canon hs) (ite_wf (oweChan_canon hs) (readStage_canon hs))))))))
  split
  · exact cxlAsk_canon hs
  · exact hs

theorem chanStep_canon {s : State} {n : ℕ} (hs : s.Canon) : (s.chanStep n).Canon := by
  unfold State.chanStep
  refine ite_wf hs ?_
  split
  · exact nextStage_canon hs
  · exact ite_wf hs (moveStage_canon hs)

theorem execSyscopyRecord_canon {ch : Fin 16} {s : State} (hs : s.Canon) : OutCanon (execSyscopyRecord ch s) := by
  unfold execSyscopyRecord
  exact chanStep_canon hs

theorem stageAck_canon {s : State} {n : ℕ} (hs : s.Canon) : (s.stageAck n).Canon := by
  unfold State.stageAck
  refine ite_wf (oweStage_canon hs) ?_
  split
  · exact record_wf (setSysChan_canon hs)
  · exact ite_wf hs (oweChan_canon (setSysChan_canon hs))
  · exact hs

theorem execSyscopyStageAck_canon {ch : Fin 16} {s : State} (hs : s.Canon) : OutCanon (execSyscopyStageAck ch s) := by
  unfold execSyscopyStageAck
  exact stageAck_canon hs

/-! ### Canonical memory: CXL ports that fail -/

theorem cxlChans_canon {s : State} {line : ℕ} (hs : s.Canon) : (s.cxlChans line).Canon := by
  unfold State.cxlChans
  exact foldl_wf _ (fun _ _ h1 => ite_wf (abandon_canon h1) h1) _ _ hs

theorem cxlLineFails_canon {s : State} {p id : ℕ} (hs : s.Canon) : (s.cxlLineFails p id).Canon := by
  unfold State.cxlLineFails
  dsimp only
  split
  · exact hs
  · exact ite_wf (oweOnce_canon hs) (ite_wf (record_wf (listLine_canon (cxlChans_canon hs))) (listLine_canon (cxlChans_canon hs)))

theorem cxlPostFails_canon {s : State} {p id : ℕ} (hs : s.Canon) : (s.cxlPostFails p id).Canon := by
  unfold State.cxlPostFails
  split
  · exact ite_wf hs (ite_wf (lostStore_canon hs) (ite_wf (oweOnce_canon hs) hs))
  · exact hs

theorem execCxlTimeout_canon {port : Fin 8} {id : ℕ} {s : State} (hs : s.Canon) : OutCanon (execCxlTimeout port id s) := by
  unfold execCxlTimeout
  exact ite_wf (cxlLineFails_canon hs) (cxlPostFails_canon hs)

theorem cxlSilence_canon {s : State} {p id : ℕ} (hs : s.Canon) : (s.cxlSilence p id).Canon := by
  unfold State.cxlSilence
  refine ite_wf (ite_wf (cxlAsk_canon hs) hs) ?_
  split
  · exact ite_wf (oweOnce_canon hs) hs
  · exact hs

theorem cxlFalls_canon {s : State} {p : ℕ} (hs : s.Canon) : (s.cxlFalls p).Canon := by
  unfold State.cxlFalls
  exact ite_wf hs hs

theorem cxlTrain_canon {s : State} {p : ℕ} {ok : Bool} (hs : s.Canon) : (s.cxlTrain p ok).Canon := by
  unfold State.cxlTrain
  exact ite_wf hs (record_wf hs)

theorem execCxlRetrain_canon {port : Fin 8} {ok : Bool} {s : State} (hs : s.Canon) : OutCanon (execCxlRetrain port ok s) := by
  unfold execCxlRetrain
  exact cxlTrain_canon hs

/-! ### Canonical memory: the command set -/

theorem takeSlot_canon {s : State} (hs : s.Canon) : s.takeSlot.Canon := by
  unfold State.takeSlot
  exact memSet_wf _ _ hs

theorem answer_canon {s : State} {w : Row} {status : BitVec 8} {info : ℕ} {word : Word} (hs : s.Canon) :
    (s.answer w status info word).Canon := by
  unfold State.answer
  exact complete_canon (takeSlot_canon (ite_wf (endLinkHold_canon hs) hs))

theorem hubCommand_canon {s : State} {w : Row} {always : Bool} {k : State → Verdict} (hs : s.Canon)
    (hk : ∀ (a : State), a.Canon → (k a).Canon) : OutCanon (s.hubCommand w always k) := by
  unfold State.hubCommand
  refine ite_wf (answer_canon hs) (ite_wf (answer_canon hs) ?_)
  split
  · rename_i t1 _ _ h1
    have ht1 : t1.Canon := (congrArg Verdict.Canon h1).mp (hk _ hs)
    exact answer_canon ht1
  · rename_i t1 _ h1
    have ht1 : t1.Canon := (congrArg Verdict.Canon h1).mp (hk _ hs)
    exact answer_canon ht1
  · rename_i t1 h1
    have ht1 : t1.Canon := (congrArg Verdict.Canon h1).mp (hk _ hs)
    exact takeSlot_canon ht1
  · rename_i t1 h1
    have ht1 : t1.Canon := (congrArg Verdict.Canon h1).mp (hk _ hs)
    exact ht1

theorem execQuery_canon {slot : Row} {s : State} (hs : s.Canon) : OutCanon (execQuery slot s) := by
  unfold execQuery
  refine hubCommand_canon hs (fun t h => ?_)
  split
  · exact h
  · exact homePut_wf h

theorem execAbort_canon {slot : Row} {s : State} (hs : s.Canon) : OutCanon (execAbort slot s) := by
  unfold execAbort
  refine hubCommand_canon hs (fun t h => ?_)
  split
  · exact h
  · exact abortLaunch_canon h

theorem execPagerdone_canon {slot : Row} {s : State} (hs : s.Canon) : OutCanon (execPagerdone slot s) := by
  unfold execPagerdone
  exact hubCommand_canon hs (fun _ h => ite_verdict h (pagerDone_canon h))

theorem execTlbinvCommand_canon {slot : Row} {s : State} (hs : s.Canon) : OutCanon (execTlbinvCommand slot s) := by
  unfold execTlbinvCommand
  exact hubCommand_canon hs (fun _ h => ite_verdict h (ite_verdict h (dropTlb_canon h)))

theorem execPealfloor_canon {slot : Row} {s : State} (hs : s.Canon) : OutCanon (execPealfloor slot s) := by
  unfold execPealfloor
  exact hubCommand_canon hs (fun _ h => ite_verdict h h)

theorem flushRange_canon {s : State} {r : BitVec 256} (hs : s.Canon) : (s.flushRange r).Canon := by
  unfold State.flushRange
  exact foldl_wf _ (fun _ _ h1 => ite_wf (memWrite_wf _ _ h1) h1) _ _ (foldl_wf _ (fun _ _ h1 => ite_wf (evictScales_wf h1) h1) _ _ hs)

theorem execRange_canon {slot : Row} {s : State} (hs : s.Canon) : OutCanon (execRange slot s) := by
  unfold execRange
  refine hubCommand_canon hs (fun t h => ?_)
  split
  · exact h
  · exact ite_verdict h (ite_verdict h (ite_verdict h (ite_verdict h (ite_verdict h (flushRange_canon (flushRange_canon h))))))

theorem execCxlshare_canon {slot : Row} {s : State} (hs : s.Canon) : OutCanon (execCxlshare slot s) := by
  unfold execCxlshare
  exact hubCommand_canon hs (fun _ h => ite_verdict h (ite_verdict h h))

theorem execLinkcfg_canon {slot : Row} {s : State} (hs : s.Canon) : OutCanon (execLinkcfg slot s) := by
  unfold execLinkcfg
  refine hubCommand_canon hs (fun t h => ?_)
  cases t.argBad slot 4096 with
  | some e => exact h
  | none =>
    dsimp only
    generalize t.readTable (cmdArg slot).toNat = gt
    generalize t.readTable ((cmdArg slot).toNat + 2048) = mt
    refine ite_verdict h (ite_verdict h (ite_verdict h (ite_verdict h (ite_verdict h ?_))))
    exact oweUnreachable_canon h

theorem execSyscopy_canon {slot : Row} {s : State} (hs : s.Canon) : OutCanon (execSyscopy slot s) := by
  unfold execSyscopy
  exact hubCommand_canon hs (fun _ h => ite_verdict h (ite_verdict h (ite_verdict (ite_verdict (oweChan_canon (setSysChan_canon h)) h)
      (ite_verdict h (oweChan_canon (setSysChan_canon h))))))

theorem execDonq_canon {slot : Row} {s : State} (hs : s.Canon) : OutCanon (execDonq slot s) := by
  unfold execDonq
  exact hubCommand_canon hs (fun _ h => ite_verdict h (ite_verdict h (ite_verdict h (ite_verdict h h))))

theorem execAttest_canon {slot : Row} {s : State} (hs : s.Canon) : OutCanon (execAttest slot s) := by
  unfold execAttest
  refine hubCommand_canon hs (fun t h => ?_)
  split
  · dsimp only
    split
    · exact h
    · exact ite_verdict h (homePut_wf h)
  · split
    · dsimp only
      split
      · exact h
      · exact ite_verdict h (homePut_wf h)
    · dsimp only
      split
      · exact h
      · exact ite_verdict h (homePut_wf h)

theorem execSvcload_canon {slot : Row} {s : State} (hs : s.Canon) : OutCanon (execSvcload slot s) := by
  unfold execSvcload
  refine hubCommand_canon hs (fun t h => ?_)
  split
  · exact h
  · exact ite_verdict h (ite_verdict h (record_wf h))

theorem execUnknownCommand_canon {slot : Row} {s : State} (hs : s.Canon) : OutCanon (execUnknownCommand slot s) := by
  unfold execUnknownCommand
  exact answer_canon hs

theorem returnFrames_canon {s : State} (hs : s.Canon) : s.returnFrames.Canon := by
  unfold State.returnFrames
  exact foldl_wf _ (fun _ _ h1 => ite_wf h1 (ite_wf (donationRecord_canon h1) (packetOut_canon h1))) _ _ hs

theorem resetDies_canon {s : State} (hs : s.Canon) : s.resetDies.Canon := by
  unfold State.resetDies
  exact filter_wf _ (foldl_wf _ (fun _ _ h1 => memWrite_wf _ _ h1) _ _ hs)

theorem resetChans_canon {s : State} (hs : s.Canon) : s.resetChans.Canon := by
  unfold State.resetChans
  exact foldl_wf _ (fun _ _ h1 => ite_wf (abandon_canon h1) h1) _ _ hs

theorem execReset_canon {slot : Row} {s : State} (hs : s.Canon) : OutCanon (execReset slot s) := by
  unfold execReset
  exact hubCommand_canon hs (fun _ h => ite_verdict h (ite_verdict (resetChans_canon h)
      (resetDies_canon (returnFrames_canon (foldl_wf _ (fun _ _ h1 => abortLaunch_canon h1) _ _ h)))))

theorem boot_canon {s : State} {r : BootReport} : (s.boot r).Canon := by
  unfold State.boot
  exact ite_wf reset_canon (ite_wf (foldl_wf _ (fun _ _ h1 => record_wf h1) _ _ reset_canon)
      (record_wf (foldl_wf _ (fun _ _ h1 => record_wf h1) _ _ reset_canon)))

theorem execPowerGood_canon {r : BootReport} {s : State} : OutCanon (execPowerGood r s) := by
  unfold execPowerGood
  exact boot_canon

/-! ### Canonical memory: conversions -/

theorem draws_canon {s : State} {m : Mode} {act : Word} {n : ℕ} (hs : s.Canon) : (s.draws m act n).2.Canon := by
  unfold State.draws
  exact ite_snd (setMe_canon hs) hs

theorem cvtBody_canon {o : Ops} {t : ETy} {s : State} (hs : s.Canon) : (cvtBody o t s).Canon := by
  unfold cvtBody
  refine ite_act illegal_canon (orFault_canon ?_)
  split
  rename_i t1 h1
  have ht1 : t1.Canon := snd_canon h1 (draws_canon hs)
  exact fixed_canon ht1

theorem execCvt_canon {o : Ops} {t : ETy} {s : State} (hs : s.Canon) : OutCanon (execCvt o t s) := by
  unfold execCvt
  exact performVec_canon hs (fun _ h => cvtBody_canon h)

theorem cvtnBody_canon {o : Ops} {t : ETy} {s : State} (hs : s.Canon) : (cvtnBody o t s).Canon := by
  unfold cvtnBody
  refine ite_act illegal_canon (orFault_canon ?_)
  split
  rename_i t1 h1
  have ht1 : t1.Canon := snd_canon h1 (draws_canon hs)
  exact fixed_canon ht1

theorem execCvtn_canon {o : Ops} {t : ETy} {s : State} (hs : s.Canon) : OutCanon (execCvtn o t s) := by
  unfold execCvtn
  exact performVec_canon hs (fun _ h => cvtnBody_canon h)

theorem cvtwBody_canon {o : Ops} {t : ETy} {s : State} (hs : s.Canon) : (cvtwBody o t s).Canon := by
  unfold cvtwBody
  exact ite_act illegal_canon (orFault_canon (ite_act trivial (fixed_canon hs)))

theorem execCvtw_canon {o : Ops} {t : ETy} {s : State} (hs : s.Canon) : OutCanon (execCvtw o t s) := by
  unfold execCvtw
  exact performVec_canon hs (fun _ h => cvtwBody_canon h)

/-! ### Canonical memory: LAUNCH -/

theorem startHamlet_canon {s : State} {l : LaunchRec} {seq : Word} {h : ℕ} (hs : s.Canon) : (s.startHamlet l seq h).Canon := by
  unfold State.startHamlet
  exact foldl_wf _ (fun _ _ h1 => foldl_wf _ (fun _ _ h2 => setCtx_canon h2) _ _ (setMill_canon h1)) _ _ (setHam_canon hs)

theorem startLaunch_canon {s : State} {l : LaunchRec} {seq : Word} (hs : s.Canon) : (s.startLaunch l seq).Canon := by
  unfold State.startLaunch
  exact foldl_wf _ (fun _ _ h1 => foldl_wf _ (fun _ _ h2 => owe_canon h2) _ _ h1) _ _
      (foldl_wf _ (fun _ _ h1 => startHamlet_canon h1) _ _ hs)

theorem execLaunch_canon {slot : Row} {s : State} (hs : s.Canon) : OutCanon (execLaunch slot s) := by
  unfold execLaunch
  refine hubCommand_canon hs (fun t h => ?_)
  split
  · exact h
  · exact startLaunch_canon h

/-! ### Canonical memory: VMATH -/

theorem vmathBody_canon {o : Ops} {f : MathFn} {s : State} (hs : s.Canon) : (vmathBody o f s).Canon := by
  unfold vmathBody
  exact orFault_canon (putLanes_canon hs)

theorem execVmath_canon {o : Ops} {f : MathFn} {s : State} (hs : s.Canon) : OutCanon (execVmath o f s) := by
  unfold execVmath
  exact performVec_canon hs (fun _ h => vmathBody_canon h)

/-! ### Canonical memory: the dispatch -/

theorem exec_canon {i : Instr} {s : State} (hs : s.Canon) : OutCanon (exec i s) := by
  unfold exec
  split
  · exact run_canon hs (fun _ h => aluBody_canon h)
  · exact run_canon hs (fun _ h => aluBody_canon h)
  · exact run_canon hs (fun _ h => aluBody_canon h)
  · exact run_canon hs (fun _ h => aluBody_canon h)
  · exact run_canon hs (fun _ h => aluBody_canon h)
  · exact run_canon hs (fun _ h => aluBody_canon h)
  · exact run_canon hs (fun _ h => aluBody_canon h)
  · exact run_canon hs (fun _ h => aluBody_canon h)
  · exact run_canon hs (fun _ h => aluBody_canon h)
  · exact run_canon hs (fun _ h => aluBody_canon h)
  · exact run_canon hs (fun _ h => aluBody_canon h)
  · exact run_canon hs (fun _ h => aluBody_canon h)
  · exact run_canon hs (fun _ h => aluBody_canon h)
  · exact run_canon hs (fun _ h => aluBody_canon h)
  · exact run_canon hs (fun _ h => aluBody_canon h)
  · exact run_canon hs (fun _ h => cmpBody_canon h)
  · exact run_canon hs (fun _ h => selBody_canon h)
  · exact run_canon hs (fun _ h => bitsBody_canon h)
  · exact run_canon hs (fun _ h => moviBody_canon h)
  · exact run_canon hs (fun _ h => leaBody_canon h)
  · exact run_canon hs (fun _ h => faddBody_canon h)
  · exact run_canon hs (fun _ h => fmulBody_canon h)
  · exact run_canon hs (fun _ h => ffmaBody_canon h)
  · exact run_canon hs (fun _ h => fdivBody_canon h)
  · exact run_canon hs (fun _ h => fminmaxBody_canon h)
  · exact run_canon hs (fun _ h => fcmpBody_canon h)
  · exact run_canon hs (fun _ h => brBody_canon h)
  · exact run_canon hs (fun _ h => jmpBody_canon h)
  · exact run_canon hs (fun _ h => jmpRegBody_canon h)
  · exact run_canon hs (fun _ h => callBody_canon h)
  · exact run_canon hs (fun _ h => callRegBody_canon h)
  · exact run_canon hs (fun _ h => jmpRegBody_canon h)
  · exact execRep_canon hs
  · exact run_canon hs (fun _ h => safeptBody_canon h)
  · exact run_canon hs (fun _ h => psetBody_canon h)
  · exact run_canon hs (fun _ h => ldBody_canon h)
  · exact run_canon hs (fun _ h => stBody_canon h)
  · exact run_canon hs (fun _ h => ldsyncBody_canon h)
  · exact run_canon hs (fun _ h => stsyncBody_canon h)
  · exact run_canon hs (fun _ h => fesetBody_canon h)
  · exact run_canon hs (fun _ h => prefBody_canon h)
  · exact run_canon hs (fun _ h => stashBody_canon h)
  · exact run_canon hs (fun _ h => flushBody_canon h)
  · exact run_canon hs (fun _ h => fenceBody_canon h)
  · exact run_canon hs (fun _ h => waitcBody_canon h)
  · exact run_canon hs (fun _ h => waitaBody_canon h)
  · exact run_canon hs (fun _ h => zlineBody_canon h)
  · exact run_canon hs (fun _ h => amoBody_canon h)
  · exact run_canon hs (fun _ h => casBody_canon h)
  · exact run_canon hs (fun _ h => redBody_canon h)
  · exact run_canon hs (fun _ h => amsendBody_canon h)
  · exact run_canon hs (fun _ h => amretBody_canon h)
  · exact execVld_canon hs
  · exact execVst_canon hs
  · exact execVgather_canon hs
  · exact execVscatter_canon hs
  · exact execVadd_canon hs
  · exact execVmul_canon hs
  · exact execVfma_canon hs
  · exact execVdiv_canon hs
  · exact execVminmax_canon hs
  · exact execVlogic_canon hs
  · exact execVcmp_canon hs
  · exact execVsel_canon hs
  · exact execVperm_canon hs
  · exact execVbcast_canon hs
  · exact execVred_canon hs
  · exact execVscan_canon hs
  · exact execVdot_canon hs
  · exact execVpackm_canon hs
  · exact execVexpm_canon hs
  · exact execVmath_canon hs
  · exact execCvt_canon hs
  · exact execCvtn_canon hs
  · exact execCvtw_canon hs
  · exact run_canon hs (fun _ h => mfmtBody_canon h)
  · exact run_canon hs (fun _ h => mfmtRelBody_canon h)
  · exact run_canon hs (fun _ h => mulBody_canon h)
  · exact run_canon hs (fun _ h => mulBody_canon h)
  · exact run_canon hs (fun _ h => joinBody_canon h)
  · exact run_canon hs (fun _ h => drainBody_canon h)
  · exact run_canon hs (fun _ h => drainBody_canon h)
  · exact run_canon hs (fun _ h => bankCommitted_canon h (fun _ h1 => command_canon h1))
  · exact run_canon hs (fun _ h => command_canon h)
  · exact run_canon hs (fun _ h => bankCommitted_canon h (fun _ h1 => command_canon h1))
  · exact run_canon hs (fun _ h => withMill_canon h (fun _ h1 => done_canon h1))
  · exact run_canon hs (fun _ h => gangLeadBody_canon h)
  · exact run_canon hs (fun _ h => gangFollowBody_canon h)
  · exact run_canon hs (fun _ h => gangLeaveBody_canon h)
  · exact run_canon hs (fun _ h => msclBody_canon h)
  · exact run_canon hs (fun _ h => spawnBody_canon h)
  · exact run_canon hs (fun _ h => spawnrBody_canon h)
  · exact run_canon hs (fun _ h => splitBody_canon h)
  · exact run_canon hs (fun _ h => splitBody_canon h)
  · exact run_canon hs (fun _ h => syncBody_canon h)
  · exact run_canon hs (fun _ h => publishBody_canon h)
  · exact run_canon hs (fun _ h => tendBody_canon h)
  · exact run_canon hs (fun _ h => donateBody_canon h)
  · exact run_canon hs (fun _ h => fnewBody_canon h)
  · exact run_canon hs (fun _ h => fnewBody_canon h)
  · exact run_canon hs (fun _ h => fputBody_canon h)
  · exact run_canon hs (fun _ h => fgetBody_canon h)
  · exact run_canon hs (fun _ h => fgetPollBody_canon h)
  · exact run_canon hs (fun _ h => frelBody_canon h)
  · exact run_canon hs (fun _ h => barBody_canon h)
  · exact run_canon hs (fun _ h => quiesceBody_canon h)
  · exact run_canon hs (fun _ h => chsendBody_canon h)
  · exact run_canon hs (fun _ h => chrecvBody_canon h)
  · exact run_canon hs (fun _ h => copyBody_canon h)
  · exact run_canon hs (fun _ h => waitkBody_canon h)
  · exact run_canon hs (fun _ h => tokqBody_canon h)
  · exact run_canon hs (fun _ h => redgrpOpenBody_canon h)
  · exact run_canon hs (fun _ h => redgrpCloseBody_canon h)
  · exact run_canon hs (fun _ h => redpktBody_canon h)
  · exact run_canon hs (fun _ h => mcastBody_canon h)
  · exact run_canon hs (fun _ h => done_canon h)
  · exact run_canon hs (fun _ h => trapBody_canon)
  · exact run_canon hs (fun _ h => rteBody_canon h)
  · exact run_canon hs (fun _ h => sysrdBody_canon h)
  · exact run_canon hs (fun _ h => syswrBody_canon h)
  · exact run_canon hs (fun _ h => tlbinvBody_canon h)
  · exact run_canon hs (fun _ h => tlbinvBody_canon h)
  · exact run_canon hs (fun _ h => tlbinvBody_canon h)
  · exact run_canon hs (fun _ h => done_canon h)
  · exact execEscalationRun_canon hs
  · exact execDisposition_canon hs
  · exact execVariableResultCommit_canon hs
  · exact execFrameTake_canon hs
  · exact execRootFrameWalk_canon hs
  · exact execStealRequest_canon hs
  · exact execStealGrant_canon hs
  · exact execStolenFrameArrival_canon hs
  · exact execGleanerBackoff_canon hs
  · exact execSpillReadback_canon hs
  · exact execParkSaveDone_canon hs
  · exact execWakeMessage_canon hs
  · exact execOverflowLinkWait_canon hs
  · exact execPreemptRequest_canon hs
  · exact execSaveDeadlineExpiry_canon hs
  · exact execSaveComplete_canon hs
  · exact execGangClaim_canon hs
  · exact execBarrierRootArrival_canon hs
  · exact execHamletBarrierRelease_canon hs
  · exact execPealPhaseRelease_canon hs
  · exact execDetectionSweep_canon hs
  · exact execDonatedDecrement_canon hs
  · exact execStatusWordArrival_canon hs
  · exact execCompletionRecordWrite_canon hs
  · exact execActiveMessageRun_canon hs
  · exact execHandlerOverrun_canon hs
  · exact execRemoteAccessService_canon hs
  · exact execReplyArrival_canon hs
  · exact execPostedStoreApply_canon hs
  · exact execAtomicApply_canon hs
  · exact execPostedAck_canon hs
  · exact execWaitaRetry_canon hs
  · exact execLineEviction_canon hs
  · exact execScaleWindowFill_canon hs
  · exact execScaleWindowEvict_canon hs
  · exact execTableWalk_canon hs
  · exact execFaultRecordWrite_canon hs
  · exact execFqheadWrite_canon hs
  · exact execStoreReplay_canon hs
  · exact execPageMoveBounce_canon hs
  · exact execBackInvalidation_canon hs
  · exact execCopyComplete_canon hs
  · exact execCopyFault_canon hs
  · exact execCopyResumePacket_canon hs
  · exact execMillCommandCurrent_canon hs
  · exact execMillCommandComplete_canon hs
  · exact execDrainInterrupted_canon hs
  · exact execRampRise_canon hs
  · exact execRampFall_canon hs
  · exact execReductionPacketArrival_canon hs
  · exact execDoneNoticeArrival_canon hs
  · exact execReductionTimeout_canon hs
  · exact execReductionFlushArrival_canon hs
  · exact execMcastDelivery_canon hs
  · exact execDonationArrival_canon hs
  · exact execDonatedFrameReturn_canon hs
  · exact execScrubPass_canon hs
  · exact execCorrectedRecordCoalesce_canon hs
  · exact execOperatingPointChange_canon hs
  · exact execThrottleThreshold_canon hs
  · exact execThrottleStep_canon hs
  · exact execThermalShutdown_canon hs
  · exact execReducedSupply_canon hs
  · exact execRailTrip_canon hs
  · exact execLinkReplay_canon hs
  · exact execLinkRetrain_canon hs
  · exact execPortDown_canon hs
  · exact execPackagePacketArrival_canon hs
  · exact execEndToEndResend_canon hs
  · exact execDestinationUnreachable_canon hs
  · exact execLaneRepair_canon hs
  · exact execBridgeFailure_canon hs
  · exact execCxlTimeout_canon hs
  · exact execCxlRetrain_canon hs
  · exact execSyscopyRecord_canon hs
  · exact execSyscopyStageAck_canon hs
  · exact execPowerGood_canon
  · exact execServiceMailboxTimeout_canon hs
  · exact execQuery_canon hs
  · exact execLaunch_canon hs
  · exact execAbort_canon hs
  · exact execPagerdone_canon hs
  · exact execRange_canon hs
  · exact execCxlshare_canon hs
  · exact execLinkcfg_canon hs
  · exact execSyscopy_canon hs
  · exact execTlbinvCommand_canon hs
  · exact execDonq_canon hs
  · exact execAttest_canon hs
  · exact execSvcload_canon hs
  · exact execReset_canon hs
  · exact execPealfloor_canon hs
  · exact execUnknownCommand_canon hs
  · exact execUnassignedEncoding_canon hs
  · exact execPageMove_canon hs
  · exact execResumptionRelease_canon hs
  · exact execManagementPortMessage_canon hs

/-! ### Canonical memory: the accesses of hub cores -/

theorem controlSet_canon {s : State} {off : ℕ} {b : Byte} (hs : s.Canon) : (s.controlSet off b).Canon := by
  unfold State.controlSet
  exact ite_wf (memSet_wf _ _ hs) (ite_wf (ite_wf (memSet_wf _ _ hs) hs) (ite_wf (ite_wf (memSet_wf _ _ hs) hs) (ite_wf hs hs)))

theorem controlWrite_canon {s : State} {off : ℕ} {bs : List Byte} (hs : s.Canon) : (s.controlWrite off bs).Canon := by
  unfold State.controlWrite
  split
  · exact setFqHead_canon (foldl_wf _ (fun _ _ h2 => controlSet_canon h2) _ _ hs)
  · exact foldl_wf _ (fun _ _ h2 => controlSet_canon h2) _ _ hs

theorem hubUnbacked_canon {s : State} {pa : ℕ} (hs : s.Canon) : (s.hubUnbacked pa).Canon := by
  unfold State.hubUnbacked
  exact record_wf hs

theorem hubStore_canon {s : State} {pa : ℕ} {bs : List Byte} (hs : s.Canon) : (s.hubStore pa bs).Canon := by
  unfold State.hubStore
  split
  · exact controlWrite_canon hs
  · exact hubUnbacked_canon hs
  · exact record_wf hs
  · exact homePut_wf hs

theorem hubBytes_canon {s : State} {pa n : ℕ} (hs : s.Canon) : (s.hubBytes pa n).2.Canon := by
  unfold State.hubBytes
  split
  · exact hs
  · exact pair_snd (hubUnbacked_canon hs)
  · exact freeBytes_canon (cxlAsk_canon hs)
  · exact ite_snd (freeBytes_canon hs) hs

theorem hubLoad_canon {s : State} {pa n : ℕ} (hs : s.Canon) : (s.hubLoad pa n).Canon := by
  unfold State.hubLoad
  split
  rename_i t1 h1
  have ht1 : t1.Canon := snd_canon h1 (hubBytes_canon hs)
  exact ht1

theorem hubAtomic_canon {s : State} {pa : ℕ} {f : AtomicFn} (hs : s.Canon) : (s.hubAtomic pa f).Canon := by
  unfold State.hubAtomic
  split
  rename_i t1 h1
  split
  · have ht1 : t1.Canon := snd_canon h1 (hubBytes_canon hs)
    exact ht1
  · have ht1 : t1.Canon := snd_canon h1 (hubBytes_canon hs)
    exact ht1
  · have ht1 : t1.Canon := snd_canon h1 (hubBytes_canon hs)
    exact hubStore_canon ht1

/-! ### Canonical memory: issue -/

theorem firstIssue_canon {s : State} (hs : s.Canon) : s.firstIssue.Canon := by
  unfold State.firstIssue
  split
  · exact ite_wf hs (setMe_canon hs)
  · exact hs

theorem ready_canon {s : State} (hs : s.Canon) : s.ready.Canon := by
  unfold State.ready
  exact ite_wf hs (firstIssue_canon (tick_canon hs))

theorem nextInstr_canon {s : State} (hs : s.Canon) : s.nextInstr.Canon := by
  unfold State.nextInstr
  dsimp only
  split
  · split
    · split
      · exact hs
      · split
        · split
          · exact hs
          · exact hs
        · split
          · exact hs
          · exact hs
      · exact fetchAt_canon hs
    · exact fetchAt_canon hs
  · exact fetchAt_canon hs

theorem noticed_canon {s : State} {run : State → Host.Outcome State Fault Refusal} (hs : s.Canon) (hrun : ∀ t, t.Canon → OutCanon (run t)) :
    OutCanon (s.noticed run) := by
  unfold State.noticed
  dsimp only
  cases s.me.strand with
  | none => exact hrun s hs
  | some d =>
    have hq : (s.setMe { s.me with strand := some { d with notice := false } }).Canon := setMe_canon hs
    have hr := hrun _ hq
    refine ite_out (hrun s hs) ?_
    generalize run (s.setMe { s.me with strand := some { d with notice := false } }) = r at hr ⊢
    cases r with
    | next t => exact ite_out hr (out_next (enterTrap_canon hq))
    | fault r => trivial
    | refused r => trivial

theorem issueMe_canon {s : State} (hs : s.Canon) : OutCanon s.issueMe.1 := by
  unfold State.issueMe
  dsimp only
  split
  · rename_i t1 h1
    have ht1 : t1.Canon := (congrArg Fetched.Canon h1).mp (nextInstr_canon (ready_canon hs))
    exact noticed_canon ht1 (fun _ h => exec_canon h)
  · rename_i t1 h1
    have ht1 : t1.Canon := (congrArg Fetched.Canon h1).mp (nextInstr_canon (ready_canon hs))
    exact noticed_canon ht1 (fun _ h => exec_canon h)
  · exact noticed_canon (ready_canon hs) (fun _ h => out_next (finish_canon h (troubled_canon h)))
  · exact remoteFetch_canon (ready_canon hs)

theorem heldAs_canon {s t : State} {c k : ℕ} (ht : t.Canon) : (s.heldAs t c k).Canon := by
  unfold State.heldAs
  exact ht

/-! ### Canonical memory: gangs, turns and the step -/

theorem noticed_next {s : State} {run : State → Host.Outcome State Fault Refusal} (hs : s.Canon) (hrun : ∀ t, t.Canon → OutCanon (run t)) :
    NextCanon (s.noticed run) := fun _ h => out_of_next (noticed_canon hs hrun) h

/-- The state in which a follower executes what is forwarded to it. -/
theorem follow_canon {s : State} {f : Fwd} (hs : s.Canon) : NextCanon (s.follow f) := by
  intro t h
  unfold State.follow at h
  refine noticed_next ?_ (fun _ hu => exec_canon hu) _ h
  exact tick_canon (setMe_canon (unhold_canon hs))

theorem wouldHold_canon {s : State} {c k : ℕ} {f : Fwd} (hs : s.Canon) : SomeCanon (s.wouldHold c k f) := by
  intro t h
  unfold State.wouldHold at h
  generalize hr : (s.as c k).follow f = r at h
  have hn : NextCanon r := hr ▸ follow_canon (as_canon hs)
  cases r with
  | next u =>
    dsimp only at h
    split at h
    · exact Option.some.inj h ▸ heldAs_canon (hn u rfl)
    · nomatch h
  | fault e => nomatch h
  | refused e => nomatch h

theorem followerHolds_canon {s : State} {l : List (ℕ × ℕ × ℕ)} (hs : s.Canon) : SomeCanon (s.followerHolds l) := by
  induction l with
  | nil => exact fun _ h => nomatch h
  | cons m l ih =>
    intro t h
    unfold State.followerHolds at h
    split at h
    · rename_i u hu
      obtain ⟨f, _, hf⟩ := Option.bind_eq_some_iff.mp hu
      exact Option.some.inj h ▸ wouldHold_canon hs u hf
    · exact ih t h

theorem followAll_canon {s : State} {trapped : Option (ℕ × ℕ × Fwd)} {l : List (ℕ × ℕ × ℕ)} (hs : s.Canon) :
    (∀ t q, s.followAll trapped l = .all t q → t.Canon) ∧ ∀ r, s.followAll trapped l = .stops r → NextCanon r := by
  induction l generalizing s trapped with
  | nil => exact ⟨fun _ _ h => (Turns.all.inj h).1 ▸ hs, fun _ h => nomatch h⟩
  | cons m l ih =>
    obtain ⟨c, k, n⟩ := m
    simp only [State.followAll]
    cases s.dueFwd c k with
    | none => exact ih (setCtx_canon hs)
    | some f =>
      have hn : NextCanon ((s.as c k).follow f) := follow_canon (as_canon hs)
      dsimp only
      generalize (s.as c k).follow f = r at hn ⊢
      cases r with
      | next t =>
        dsimp only
        split
        · exact ih (setCtx_canon (heldAs_canon (hn t rfl)))
        · exact ih (setCore_canon (hn t rfl))
      | fault e => exact ⟨fun _ _ h => (nomatch h), fun _ h => Turns.stops.inj h ▸ hn⟩
      | refused e => exact ⟨fun _ _ h => (nomatch h), fun _ h => Turns.stops.inj h ▸ hn⟩

theorem gangTrap_canon {s : State} {c k : ℕ} {f : Fwd} (hs : s.Canon) : SomeCanon (s.gangTrap c k f) := by
  intro t h
  unfold State.gangTrap at h
  have hn : NextCanon ((s.as c k).follow f) := follow_canon (as_canon hs)
  generalize (s.as c k).follow f = r at hn h
  cases r with
  | next u =>
    dsimp only at h
    split at h
    · exact Option.some.inj h ▸ setCtx_canon (hn u rfl)
    · nomatch h
  | fault e => nomatch h
  | refused e => nomatch h

theorem gangTurns_canon {s t : State} {trapped : Option (ℕ × ℕ × Fwd)} (hs : s.Canon) (ht : t.Canon) : (s.gangTurns t trapped).Canon := by
  unfold State.gangTurns
  cases h : trapped.bind fun q => s.gangTrap q.1 q.2.1 q.2.2 with
  | none => exact ht
  | some u =>
    obtain ⟨q, _, hq⟩ := Option.bind_eq_some_iff.mp h
    exact gangTrap_canon hs u hq

theorem forward_canon {s : State} {c k : ℕ} {i : Instr} {pc : Word} {rep : BitVec 32} {buf : Option RepBuf} (hs : s.Canon) :
    (s.forward c k i pc rep buf).Canon := by
  unfold State.forward
  exact foldl_wf _ (fun _ _ h1 => setCtx_canon h1) _ _ hs

theorem catchUp_canon {s : State} {d j : ℕ} {f : Fwd} (hs : s.Canon) : TryCanon (s.catchUp d j f) := by
  unfold State.catchUp
  have hn : NextCanon ((s.as d j).follow f) := follow_canon (as_canon hs)
  have hg : SomeCanon (s.gangTrap d j f) := gangTrap_canon hs
  generalize s.gangTrap d j f = o at hg ⊢
  generalize (s.as d j).follow f = r at hn ⊢
  cases r with
  | next t =>
    dsimp only
    split
    · exact try_none (heldAs_canon (hn t rfl))
    · split
      · cases o with
        | none => exact try_none hs
        | some v => exact try_next hs (hg v rfl)
      · exact try_of hs hn
  | fault e => exact try_of hs hn
  | refused e => exact try_of hs hn

theorem gangStep_canon {s : State} {c k : ℕ} (hs : s.Canon) : TryCanon (s.gangStep c k) := by
  unfold State.gangStep
  dsimp only
  split
  · exact try_none hs
  · split
    · exact catchUp_canon hs
    · rename_i t _ ht
      exact try_none (followerHolds_canon hs t ht)
    · split
      · have hf := followAll_canon (trapped := none) (l := s.followers c) hs
        generalize s.followAll none (s.followers c) = r at hf ⊢
        cases r with
        | all t first => exact try_next hs (gangTurns_canon hs (hf.1 _ _ rfl))
        | stops r => exact try_of hs (hf.2 _ rfl)
      · have hu : (s.as c k).unhold.Canon := unhold_canon (as_canon hs)
        have hn : NextCanon (s.as c k).unhold.issueMe.1 := fun _ h => out_of_next (issueMe_canon hu) h
        generalize (s.as c k).unhold = u at hu hn ⊢
        generalize u.issueMe = r at hn ⊢
        obtain ⟨r, i⟩ := r
        cases r with
        | next t =>
          have ht : t.Canon := hn t rfl
          dsimp only
          split
          · exact try_none (heldAs_canon ht)
          · have hf := followAll_canon (trapped := none) (l := s.followers c) ht
            generalize t.followAll none (s.followers c) = r at hf ⊢
            cases r with
            | all v first =>
              have hv : v.Canon := hf.1 _ _ rfl
              refine try_next hu (setCore_canon ?_)
              split
              · cases i with
                | none => exact ht
                | some i => exact ite_wf (forward_canon ht) ht
              · refine gangTurns_canon hu ?_
                cases i with
                | none => exact hv
                | some i => exact ite_wf (forward_canon hv) hv
            | stops r => exact try_of hu (hf.2 _ rfl)
        | fault e => exact try_of hu hn
        | refused e => exact try_of hu hn

theorem issueCore_canon {s : State} {c : ℕ} {l : List ℕ} (hs : s.Canon) : TryCanon (s.issueCore c l) := by
  induction l generalizing s with
  | nil => exact try_none hs
  | cons k l ih =>
    unfold State.issueCore
    dsimp only
    split
    · split
      · have hg : TryCanon (s.gangStep c k) := gangStep_canon hs
        generalize s.gangStep c k = r at hg ⊢
        obtain ⟨t, o⟩ := r
        cases o with
        | none => exact ih hg.1
        | some o => exact hg
      · have hu : (s.as c k).unhold.Canon := unhold_canon (as_canon hs)
        have hn : NextCanon (s.as c k).unhold.issueMe.1 := fun _ h => out_of_next (issueMe_canon hu) h
        generalize (s.as c k).unhold = u at hu hn ⊢
        generalize u.issueMe.1 = r at hn ⊢
        cases r with
        | next t =>
          dsimp only
          split
          · exact ih (heldAs_canon (hn t rfl))
          · exact try_next hu (setCore_canon (hn t rfl))
        | fault e => exact try_of hu hn
        | refused e => exact try_of hu hn
    · exact ih hs

theorem issueFrom_canon {s : State} {l : List ℕ} (hs : s.Canon) : TryCanon (s.issueFrom l) := by
  induction l generalizing s with
  | nil => exact try_none hs
  | cons c l ih =>
    unfold State.issueFrom
    split
    · exact ih hs
    · have hg : TryCanon (s.issueCore c (order (s.core c).ptr)) := issueCore_canon hs
      generalize s.issueCore c (order (s.core c).ptr) = r at hg ⊢
      obtain ⟨t, o⟩ := r
      cases o with
      | none => exact ih hg.1
      | some o =>
        cases o with
        | next u => exact try_next hs (canon_of_mem rfl (hg.2 u rfl))
        | fault e => exact hg
        | refused e => exact hg

theorem later_canon {s : State} (hs : s.Canon) : s.later.Canon := by
  unfold State.later
  exact hs

theorem tryIssue_canon {s : State} (hs : s.Canon) : TryCanon s.tryIssue := by
  unfold State.tryIssue
  split
  · exact try_none hs
  · exact issueFrom_canon hs

theorem takeTurn_canon {s : State} {phase fuel : ℕ} (hs : s.Canon) : NextCanon (s.takeTurn phase fuel) := by
  induction fuel generalizing s phase with
  | zero => exact fun _ h => Host.Outcome.next.inj h ▸ hs
  | succ fuel ih =>
    unfold State.takeTurn
    split
    · have ht : TryCanon ({ s with phase := 1 } : State).tryIssue := tryIssue_canon (canon_of_mem rfl hs)
      generalize ({ s with phase := 1 } : State).tryIssue = r at ht ⊢
      obtain ⟨t, o⟩ := r
      cases o with
      | none => exact ih ht.1
      | some o => exact fun u h => ht.2 u (congrArg some h)
    · split
      · split
        · rename_i i r _
          have hu : ({ s with agenda := r, phase := 2 } : State).Canon := hs
          exact fun _ h => out_of_next (exec_canon hu) h
        · exact ih hs
      · split
        · rename_i i _
          have hu : ({ s with phase := 0 } : State).Canon := hs
          exact fun _ h => out_of_next (exec_canon hu) h
        · exact ih hs

theorem step_canon {s t : State} (hs : s.Canon) (h : step s = .next t) : t.Canon := by
  have hl : s.later.Canon := later_canon hs
  unfold step at h
  generalize s.later = u at hl h
  dsimp only at h
  split at h
  · rename_i i r _
    have hu : ({ u with inputs := r } : State).Canon := hl
    exact out_of_next (exec_canon hu) h
  · exact Host.Outcome.next.inj h ▸ hubStore_canon hl
  · exact Host.Outcome.next.inj h ▸ hubLoad_canon hl
  · exact Host.Outcome.next.inj h ▸ hubAtomic_canon hl
  · exact Host.Outcome.next.inj h ▸ flitIn_canon hl
  · exact Host.Outcome.next.inj h ▸ flitAck_canon hl
  · exact Host.Outcome.next.inj h ▸ replayFailed_canon hl
  · exact Host.Outcome.next.inj h ▸ cxlFalls_canon hl
  · exact Host.Outcome.next.inj h ▸ cxlSilence_canon hl
  · exact takeTurn_canon hl t h

end Sys2Proof.Machine

open Sys2Proof Sys2Proof.Machine

/-- Settles O60: each definition that answers a state keeps the canonical form of memory, the step's own included. -/
theorem stepKeepsMemoryCanonical : Obligations.StepKeepsMemoryCanonical := by
  unfold Obligations.StepKeepsMemoryCanonical
  exact fun _ _ hs h => step_canon hs h
end
